-- ==== Sys2Proof/Word.lean ====
section
/-! DEFINITION. The word types of the SLK machine and the sparse maps State is built from (00 R3, R23). -/

namespace Sys2Proof

/-- A byte of memory. -/
abbrev Byte := BitVec 8
/-- A 32-bit register (R23). -/
abbrev Word := BitVec 32
/-- A 64-bit value, held in an even/odd register pair (R24). -/
abbrev DWord := BitVec 64
/-- A mask over the 128 lane positions of a group (R319). -/
abbrev Mask := BitVec 128
/-- The 128 bytes of a cache line (R96), byte 0 least significant (R3). -/
abbrev LineData := BitVec 1024

/-- A map from numbers, as a list whose keys rise strictly. -/
abbrev Assoc (α : Type) := List (Nat × α)

namespace Assoc
variable {α : Type}

/-- The entry of key `k`, if listed. -/
def get? : Assoc α → Nat → Option α
  | [], _ => none
  | (k', v) :: m, k => if k = k' then some v else get? m k

/-- Write an entry, keeping the keys rising. -/
def put : Assoc α → Nat → α → Assoc α
  | [], k, v => [(k, v)]
  | (k', v') :: m, k, v =>
    if k = k' then (k, v) :: m else if k < k' then (k, v) :: (k', v') :: m else (k', v') :: put m k v

/-- Remove an entry. -/
def del : Assoc α → Nat → Assoc α
  | [], _ => []
  | (k', v') :: m, k => if k = k' then del m k else (k', v') :: del m k

/-- The value at `k`, `d` where none is listed. -/
def rd (d : α) (m : Assoc α) (k : Nat) : α := (get? m k).getD d

/-- Write `v` at `k`; writing the default removes the entry, so equal maps are equal lists. -/
def wr [DecidableEq α] (d : α) (m : Assoc α) (k : Nat) (v : α) : Assoc α :=
  if v = d then del m k else put m k v

/-- Every key is above `b`. -/
def above (b : Option Nat) : Assoc α → Bool
  | [] => true
  | (k, _) :: m => (match b with | none => true | some b => decide (b < k)) && above (some k) m

/-- The keys rise strictly. -/
def sorted (m : Assoc α) : Bool := above none m

end Assoc

/-- One key from two numbers: the second is below 2^64. -/
def key2 (a b : Nat) : Nat := a * 18446744073709551616 + b

end Sys2Proof
end

