-- ==== Sys2Proof/Machine/Bits.lean ====
section
/-! DEFINITION. Bit fields, signed readings and little-endian bytes (R3). -/

namespace Sys2Proof.Machine

/-- Bits [lo + n - 1 : lo] of `x`. -/
def field (x lo n : Nat) : Nat := (x >>> lo) % 2 ^ n

/-- Bit `i` of `x`. -/
def bitAt (x i : Nat) : Bool := x.testBit i

/-- The signed reading of the low `w` bits of `x`. -/
def toSigned (w x : Nat) : Int :=
  let y := x % 2 ^ w
  if 2 * y < 2 ^ w then (y : Int) else (y : Int) - (2 ^ w : Nat)

/-- The `w`-bit pattern of an integer, modulo 2^w. -/
def ofSigned (w : Nat) (z : Int) : Nat := (z % ((2 ^ w : Nat) : Int)).toNat

/-- The `n` bytes of `x`, least significant first (R3). -/
def toBytes : Nat → Nat → List Byte
  | 0, _ => []
  | n + 1, x => BitVec.ofNat 8 x :: toBytes n (x / 256)

/-- The number little-endian bytes stand for (R3). -/
def ofBytes : List Byte → Nat
  | [] => 0
  | b :: bs => b.toNat + 256 * ofBytes bs

/-- `k` or more rounded up to a multiple of `n`. -/
def roundUp (k n : Nat) : Nat := (k + n - 1) / n * n

/-- The largest power of two at most `n`, for `n` up to 2^`fuel`; 0 for 0. -/
def pow2Floor : Nat → Nat → Nat
  | 0, n => if n = 0 then 0 else 1
  | fuel + 1, n => if 2 ^ (fuel + 1) ≤ n then 2 ^ (fuel + 1) else pow2Floor fuel n

/-- Set bits of the low `w` bits of `x`. -/
def popCount (w x : Nat) : Nat := (List.range w).countP (fun i => bitAt x i)

/-- Leading zeros of the low `w` bits, from bit w - 1. -/
def leadZeros : Nat → Nat → Nat
  | 0, _ => 0
  | w + 1, x => if bitAt x w then 0 else leadZeros w x + 1

/-- Trailing zeros of the low `w` bits, from bit 0. -/
def trailZeros : Nat → Nat → Nat
  | 0, _ => 0
  | w + 1, x => if bitAt x 0 then 0 else trailZeros w (x / 2) + 1

/-- The low `w` bits of `x` in reverse order. -/
def bitReverse : Nat → Nat → Nat
  | 0, _ => 0
  | w + 1, x => (x % 2) * 2 ^ w + bitReverse w (x / 2)

/-- Floor of log2 of a positive number. -/
def log2 (x : Nat) : Nat := Nat.log2 x

/-- Byte `i` of a line (R96). -/
def lineByte (l : LineData) (i : Nat) : Byte := l.extractLsb' (8 * i) 8

/-- The bytes [off, off + n) of a line. -/
def lineBytes (l : LineData) (off n : Nat) : List Byte := toBytes n (l.toNat >>> (8 * off))

/-- A mask of `n` ones from bit `lo`. -/
def onesAt (lo n : Nat) : Nat := (2 ^ n - 1) * 2 ^ lo

/-- A line with the bytes `bs` written at byte `off`. -/
def setLine (l : LineData) (off : Nat) (bs : List Byte) : LineData :=
  let m := BitVec.ofNat 1024 (onesAt (8 * off) (8 * bs.length))
  (l &&& ~~~m) ||| (BitVec.ofNat 1024 (ofBytes bs <<< (8 * off)) &&& m)

/-- Bytes where `m` is 1 come from `a`, the others from `b`. -/
def mergeLine : Nat → Mask → LineData → LineData → LineData
  | 0, _, _, b => b
  | n + 1, m, a, b =>
    let r := mergeLine n m a b
    if m.getLsbD n then setLine r n [lineByte a n] else r

/-- The positions of a mask, ascending. -/
def maskList (m : Mask) : List Nat := (List.range 128).filter (fun i => m.getLsbD i)

/-- A mask with one position set. -/
def laneBit (i : Nat) : Mask := (1 : Mask) <<< i

/-- The mask of the first `n` positions. -/
def firstLanes (n : Nat) : Mask := BitVec.ofNat 128 (2 ^ n - 1)

/-- The smallest member of a list by a key, the first on a tie. -/
def minBy {α : Type} (key : α → Nat) : List α → Option α
  | [] => none
  | x :: xs => match minBy key xs with
    | none => some x
    | some y => if key x ≤ key y then some x else some y

/-- `f` at each element in order, threading the state. -/
def foldState {σ α : Type} (f : σ → α → σ) : σ → List α → σ
  | s, [] => s
  | s, x :: xs => foldState f (f s x) xs

/-- A bit. -/
def b2n (b : Bool) (k : Nat) : Nat := if b then 2 ^ k else 0

end Sys2Proof.Machine
end

