-- ==== Sys2Proof/Machine/Float.lean ====
section
/-! DEFINITION. Number formats, exact values and rounding (R63 to R75). -/

namespace Sys2Proof.Machine

/-- A binary floating-point format (R63): exponent bits, fraction bits, bias, and whether it has infinities. `e4m3`
and `e2m1` have none; `nan` tells whether the format has a NaN. -/
structure FFmt where
  eb : Nat
  mb : Nat
  bias : Nat
  hasInf : Bool
  hasNan : Bool
  deriving DecidableEq, Repr

/-- The width of a format. -/
def FFmt.w (f : FFmt) : Nat := 1 + f.eb + f.mb

/-- The float formats by type code (R33); code 2 is e2m1, as in DT, ST, FA and FB. -/
def fmtOf (t : Nat) : FFmt :=
  match t with
  | 7 => ⟨11, 52, 1023, true, true⟩
  | 8 => ⟨5, 10, 15, true, true⟩
  | 9 => ⟨8, 7, 127, true, true⟩
  | 14 => ⟨4, 3, 7, false, true⟩
  | 15 => ⟨5, 2, 15, true, true⟩
  | 2 => ⟨2, 1, 1, false, false⟩
  | _ => ⟨8, 23, 127, true, true⟩

/-- f32. -/
def f32 : FFmt := fmtOf 3

/-- An exact value: NaN, an infinity, or ±m × 2^e. -/
inductive FV where
  | nan
  | inf (neg : Bool)
  | num (neg : Bool) (m : Nat) (e : Int)
  deriving DecidableEq, Repr

/-- The largest exponent field of finite values. -/
def FFmt.maxE (f : FFmt) : Nat := if f.hasInf then 2 ^ f.eb - 2 else 2 ^ f.eb - 1
/-- The largest significand of a finite value in the top binade. -/
def FFmt.maxK (f : FFmt) : Nat := 2 ^ (f.mb + 1) - (if !f.hasInf && f.hasNan then 2 else 1)
/-- The sign bit set. -/
def FFmt.signed (f : FFmt) (neg : Bool) (x : Nat) : Nat := if neg then 2 ^ (f.eb + f.mb) + x else x
/-- Magnitude bits of the infinity. -/
def FFmt.infBits (f : FFmt) : Nat := (2 ^ f.eb - 1) * 2 ^ f.mb
/-- Magnitude bits of the largest finite value. -/
def FFmt.maxBits (f : FFmt) : Nat := f.maxE * 2 ^ f.mb + (f.maxK - 2 ^ f.mb)
/-- The canonical NaN (R65); 0 where the format has none (R77). -/
def FFmt.nanBits (f : FFmt) : Nat :=
  if !f.hasNan then 0 else if !f.hasInf then 2 ^ (f.eb + f.mb) - 1 else f.infBits + 2 ^ (f.mb - 1)

/-- Decode a pattern (R63). -/
def fdec (f : FFmt) (x : Nat) : FV :=
  let neg := bitAt x (f.eb + f.mb)
  let E := field x f.mb f.eb
  let F := x % 2 ^ f.mb
  if f.hasInf && E == 2 ^ f.eb - 1 then (if F = 0 then .inf neg else .nan)
  else if !f.hasInf && f.hasNan && E == 2 ^ f.eb - 1 && F == 2 ^ f.mb - 1 then .nan
  else if E = 0 then .num neg F (1 - f.bias - f.mb)
  else .num neg (2 ^ f.mb + F) ((E : Int) - f.bias - f.mb)

/-- A pattern is subnormal. -/
def fsub (f : FFmt) (x : Nat) : Bool := field x f.mb f.eb == 0 && x % 2 ^ f.mb != 0
/-- SUB of an RMODE value (R71). -/
def rmSub (rmode : Nat) : Nat := field rmode 3 2
/-- RM of an RMODE value. -/
def rmRm (rmode : Nat) : Nat := rmode % 8
/-- SAT of an RMODE value. -/
def rmSat (rmode : Nat) : Bool := bitAt rmode 5
/-- Replace a subnormal by a zero of its sign (R73). -/
def fzap (f : FFmt) (x : Nat) : Nat := if fsub f x then f.signed (bitAt x (f.eb + f.mb)) 0 else x
/-- Input flushing (R73). -/
def fin (rmode : Nat) (f : FFmt) (x : Nat) : Nat := if bitAt (rmSub rmode) 0 then fzap f x else x
/-- Output flushing (R73). -/
def fout (rmode : Nat) (f : FFmt) (x : Nat) : Nat := if bitAt (rmSub rmode) 1 then fzap f x else x

/-- The mode in force for a type of `w` bits: DEFAULT is RNA below 16 bits, RNE else (R72). -/
def rmFor (w rm : Nat) : Nat := if rm = 7 then (if w < 16 then 4 else 0) else rm

/-- m / 2^sh rounded to an integer under `rm`; `st`: the exact value lies strictly above m (R72). -/
def roundShift (rm : Nat) (neg : Bool) (m sh : Nat) (st : Bool) : Nat :=
  let M := 4 * m + (if st then 1 else 0)
  let k := M >>> (sh + 2)
  let r := M % 2 ^ (sh + 2)
  let half := 2 ^ (sh + 1)
  let up :=
    if rm = 1 then false
    else if rm = 2 then neg && r != 0
    else if rm = 3 then !neg && r != 0
    else if rm = 4 then decide (half ≤ r)
    else decide (half < r) || (r == half && k % 2 == 1)
  if up then k + 1 else k

/-- The result of an overflow (R74). -/
def overflow (f : FFmt) (rm : Nat) (sat neg : Bool) : Nat :=
  if !f.hasNan || sat || rm == 1 || (rm == 2 && !neg) || (rm == 3 && neg) then f.signed neg f.maxBits
  else if f.hasInf then f.signed neg f.infBits
  else f.nanBits

/-- Round ±m × 2^e (`st`: strictly more than m) to the format under the mode `rm` (R72, R74). -/
def froundM (f : FFmt) (rm : Nat) (sat neg : Bool) (m : Nat) (e : Int) (st : Bool) : Nat :=
  if m = 0 then f.signed neg 0
  else
    let q : Int := max (log2 m + e - f.mb) (1 - f.bias - f.mb)
    let k := if q ≤ e then m <<< (e - q).toNat else roundShift rm neg m (q - e).toNat st
    let maxQ : Int := (f.maxE : Int) - f.bias - f.mb
    if maxQ < q ∨ (q = maxQ ∧ f.maxK < k) then overflow f rm sat neg
    else f.signed neg ((q + f.mb + f.bias - 1).toNat * 2 ^ f.mb + k)

/-- Round an exact value to the format (R72, R74). -/
def fround (f : FFmt) (rm : Nat) (sat : Bool) (x : FV) : Nat :=
  match x with
  | .nan => f.nanBits
  | .inf neg =>
    if f.hasInf then f.signed neg f.infBits
    else if !f.hasNan || sat then f.signed neg f.maxBits
    else f.nanBits
  | .num neg m e => froundM f (rmFor f.w rm) sat neg m e false

/-- Round and flush a result under an RMODE value, with SAT as given (R72 to R74). -/
def ffin (f : FFmt) (rmode : Nat) (sat : Bool) (x : FV) : Nat := fout rmode f (fround f (rmRm rmode) sat x)

/-! ### Exact arithmetic -/

/-- Change the sign. -/
def FV.neg : FV → FV
  | .nan => .nan
  | .inf s => .inf (!s)
  | .num s m e => .num (!s) m e
/-- Clear the sign. -/
def FV.abs : FV → FV
  | .nan => .nan
  | .inf _ => .inf false
  | .num _ m e => .num false m e
/-- The sign bit. -/
def FV.sign : FV → Bool
  | .nan => false
  | .inf s => s
  | .num s _ _ => s
/-- Zero of either sign. -/
def FV.isZero : FV → Bool
  | .num _ 0 _ => true
  | _ => false
/-- The value is NaN. -/
def FV.isNan : FV → Bool
  | .nan => true
  | _ => false
/-- The signed significand over the exponent `e0`, which is at most the value's own. -/
def scaled (e0 : Int) : FV → Int
  | .num s m e => let k : Int := (m <<< (e - e0).toNat : Nat); if s then -k else k
  | _ => 0
/-- The least exponent of the finite members. -/
def minExp (xs : List FV) : Int :=
  xs.foldl (fun a x => match x with | .num _ (_ + 1) e => min a e | _ => a) 0
/-- A product (R195). -/
def FV.mul (x y : FV) : FV :=
  match x, y with
  | .nan, _ => .nan
  | _, .nan => .nan
  | .inf s, y => if y.isZero then .nan else .inf (s != y.sign)
  | x, .inf s => if x.isZero then .nan else .inf (s != x.sign)
  | .num s m e, .num s' m' e' => .num (s != s') (m * m') (e + e')
/-- An exact sum. A zero sum takes the common sign of its terms, or +0, or −0 when `rdn` (R195). -/
def fsum (rdn : Bool) (xs : List FV) : FV :=
  let pinf := xs.any fun x => match x with | .inf false => true | _ => false
  let ninf := xs.any fun x => match x with | .inf true => true | _ => false
  if xs.any FV.isNan || (pinf && ninf) then .nan
  else if pinf then .inf false
  else if ninf then .inf true
  else
    let e0 := minExp xs
    let z := (xs.map (scaled e0)).foldl (· + ·) 0
    if z = 0 then
      let neg := if xs.all FV.sign && !xs.isEmpty then true else if xs.any FV.sign then rdn else false
      .num neg 0 0
    else .num (decide (z < 0)) z.natAbs e0
/-- Multiply by 2^k. -/
def FV.scale (k : Int) : FV → FV
  | .num s m e => .num s m (e + k)
  | x => x

/-- The order of two values; none when unordered. −0 equals +0. -/
def fcmp (x y : FV) : Option Ordering :=
  match x, y with
  | .nan, _ => none
  | _, .nan => none
  | .inf s, .inf s' => some (if s = s' then .eq else if s then .lt else .gt)
  | .inf s, _ => some (if s then .lt else .gt)
  | _, .inf s => some (if s then .gt else .lt)
  | x, y =>
    let e0 := minExp [x, y]
    some (compare (scaled e0 x) (scaled e0 y))
/-- A strict order that puts −0 below +0 (R196). -/
def fltZ (x y : FV) : Bool :=
  match fcmp x y with
  | some .lt => true
  | some .eq => x.sign && !y.sign
  | _ => false
/-- minimumNumber and maximumNumber (R196). -/
def fminmax (max : Bool) (x y : FV) : FV :=
  if x.isNan then y else if y.isNan then x
  else if max then (if fltZ x y then y else x) else (if fltZ y x then y else x)

/-- The magnitude of a finite value rounded to an integer under mode `rm`. -/
def intMag (rm : Nat) (neg : Bool) (m : Nat) (e : Int) : Nat :=
  if 0 ≤ e then m <<< e.toNat else roundShift rm neg m (-e).toNat false
/-- A finite value rounded to an integer (R72). -/
def fvInt (rm : Nat) : FV → Int
  | .num s m e => let k : Int := intMag rm s m e; if s then -k else k
  | _ => 0
/-- An integer as a value. -/
def ofInt (z : Int) : FV := .num (decide (z < 0)) z.natAbs 0
/-- A value of f32 bits. -/
def f32v (x : Nat) : FV := fdec f32 (x % 2 ^ 32)

/-- The integer square root by bits, from bit `n`. -/
def isqrtFrom : Nat → Nat → Nat → Nat
  | 0, x, r => if (r + 1) * (r + 1) ≤ x then r + 1 else r
  | n + 1, x, r =>
    let r' := r + 2 ^ (n + 1)
    isqrtFrom n x (if r' * r' ≤ x then r' else r)
/-- Floor of the square root of a number below 2^(2n + 2). -/
def isqrt (n x : Nat) : Nat := isqrtFrom n x 0

end Sys2Proof.Machine
end

