-- ==== Sys2Proof/Syntax.lean ====
section
/-! DEFINITION. The steps of the machine: one constructor for each row of the opcode table (95), with the
fields of the SLK word (R21, R22), of the Citrine word (R244) and of the Jasper rule (R290). -/

namespace Sys2Proof

/-- A 10-bit operand field (R22). -/
inductive Opnd where
  | v (n : BitVec 8)      -- lane register
  | s (n : BitVec 7)      -- uniform register
  | b (n : BitVec 4)      -- base register
  | lf (n : BitVec 4)     -- class frame; bit 3 reserved
  | q (n : BitVec 4)      -- lane predicate; bit 3 reserved
  | p (n : BitVec 4)      -- uniform predicate
  | a (n : BitVec 4)      -- accumulator bank; bits 3:2 reserved
  | o (n : BitVec 4)      -- reservation; bit 3 reserved
  | rsvLo (n : BitVec 5)  -- reserved class, [6:4] = 110 or 111
  | imm (n : BitVec 8)    -- signed 8-bit immediate
  | sr (n : BitVec 7)     -- status register 0x300 + n
  | rsvHi (n : BitVec 7)  -- reserved class 0x380 + n, n below 127
  | none
  deriving DecidableEq, Repr

/-- The fields of an SLK word (R21, R27). `ext` holds what the format puts in place of operand fields:
imm20 (RRI), imm32 (RI32), [71:62] (MEM), [71:42] (CTL). Fields a format does not have read as none. -/
structure Slk where
  fmt : BitVec 3
  ga : BitVec 5
  gb : BitVec 5
  d : Opnd
  s1 : Opnd
  s2 : Opnd
  s3 : Opnd
  s4 : Opnd
  ext : BitVec 32
  fe : BitVec 3
  mod : BitVec 9
  ch : BitVec 3
  stall : BitVec 4
  yld : BitVec 1
  reuse : BitVec 4
  deriving DecidableEq, Repr

/-- The fields of the repeat prefix (R50); `rsv` holds [31:28] and [95:44]. -/
structure Pfx where
  fmt : BitVec 3
  ga : BitVec 5
  gb : BitVec 5
  count : BitVec 6
  dd : BitVec 3
  ds1 : BitVec 3
  ds2 : BitVec 3
  ds3 : BitVec 3
  rsvLo : BitVec 4
  rsvHi : BitVec 52
  deriving DecidableEq, Repr

/-- The operand fields of a Citrine word (R244). -/
structure Cit where
  xd : BitVec 3
  xa : BitVec 3
  xb : BitVec 3
  xc : BitVec 3
  ck : BitVec 4
  t : BitVec 4
  st : BitVec 4
  sat : BitVec 1
  g : BitVec 1
  deriving DecidableEq, Repr

/-- The fields of a Jasper rule but OP (R290). -/
structure Rule where
  off : BitVec 12
  w : BitVec 2
  cmp : BitVec 3
  sgn : BitVec 1
  nt : BitVec 5
  nf : BitVec 5
  off2 : BitVec 12
  imm : BitVec 20
  deriving DecidableEq, Repr

/-- A group of a team: the team's name in State and its GROUP (R319). -/
structure Gid where
  team : Nat
  group : Nat
  deriving DecidableEq, Repr

/-- What a write over the host link or a fabric link brings: its bytes, and whether they come poisoned (R443). -/
structure LinkBytes where
  bytes : List Byte
  poison : Bool := false
  deriving DecidableEq, Repr

/-- The PCIe AtomicOps the device completes (R443). -/
inductive AtomicOp where
  | fetchAdd | swap | cas
  deriving DecidableEq, Repr

/-- A rebind of one saved team by Spinel: the saved image's number, the core and the new slot entry (R423). -/
structure RestoreBind where
  image : Nat
  core : Nat
  entry : Nat
  bind : BitVec 256
  deriving DecidableEq, Repr

/-- A firmware image as the boot ROM reads it (R436). -/
structure FwImage where
  sv : Nat
  manifest : BitVec 256
  digest : BitVec 256
  payload : List Byte
  signer : BitVec 256
  signature : List Byte
  deriving DecidableEq, Repr

/-- An entry of the active-grid table (R355, R362, R424). -/
structure GridEntry where
  ctx : Nat
  queue : Nat
  kdesc : DWord
  argBase : DWord
  argSize : Word
  x : Nat
  y : Nat
  z : Nat
  cw : Nat
  ch : Nat
  prio : BitVec 2
  resident : Bool
  sigDone : Bool
  sfence : Nat
  svalue : DWord
  ended : Nat
  bound : List Nat
  kd : BitVec 1024
  /-- In a hand-over: the entry leaves this device. In the table it is false. -/
  out : Bool := false
  deriving DecidableEq, Repr

/-- One constructor for each row of the opcode table. -/
inductive Instr where
  /-- No-operation instruction with no architectural effect (R49). -/
  | nop (f : Slk)
  /-- Integer add, wrapping or saturating (R182). -/
  | iadd (f : Slk)
  /-- Integer subtract, wrapping or saturating (R182). -/
  | isub (f : Slk)
  /-- Integer multiply giving the low w bits or a saturated value (R182). -/
  | imul (f : Slk)
  /-- High half of the 2w-bit integer product (R182). -/
  | imulh (f : Slk)
  /-- Integer multiply-add (R182). -/
  | imad (f : Slk)
  /-- Integer absolute value (R182). -/
  | iabs (f : Slk)
  /-- Integer minimum in the order of the type (R182). -/
  | imin (f : Slk)
  /-- Integer maximum in the order of the type (R182). -/
  | imax (f : Slk)
  /-- Logical shift left (R183). -/
  | ishl (f : Slk)
  /-- Logical shift right (R183). -/
  | ishr (f : Slk)
  /-- Arithmetic shift right (R183). -/
  | isra (f : Slk)
  /-- Rotate left (R183). -/
  | irot (f : Slk)
  /-- Bitwise and (R183). -/
  | and (f : Slk)
  /-- Bitwise or (R183). -/
  | or (f : Slk)
  /-- Bitwise exclusive or (R183). -/
  | xor (f : Slk)
  /-- Bitwise and with the complement of the second source (R183). -/
  | andn (f : Slk)
  /-- Population count (R184). -/
  | popc (f : Slk)
  /-- Count leading zeros (R184). -/
  | clz (f : Slk)
  /-- Count trailing zeros (R184). -/
  | ctz (f : Slk)
  /-- Bit reverse (R184). -/
  | brev (f : Slk)
  /-- Bit-field extract (R185). -/
  | bfx (f : Slk)
  /-- Bit-field insert (R185). -/
  | bfi (f : Slk)
  /-- Forms a 64-bit address from a base, a shifted index and a shift (R186). -/
  | lea (f : Slk)
  /-- Integer compare writing a p or q predicate (R187). -/
  | icmp (f : Slk)
  /-- Selects one of two sources by a predicate (R188). -/
  | sel (f : Slk)
  /-- Copies a register, predicate or immediate (R189). -/
  | mov (f : Slk)
  /-- Loads a 32-bit immediate (R190). -/
  | movi (f : Slk)
  /-- Reads a status register (R191). -/
  | srd (f : Slk)
  /-- Writes a writable status register, serialising (R192). -/
  | swr (f : Slk)
  /-- Copies one lane's value into a uniform register (R193). -/
  | rdlane (f : Slk)
  /-- Writes a uniform value into one lane of a lane register (R193). -/
  | wrlane (f : Slk)
  /-- Floating-point add rounded once (R195). -/
  | fadd (f : Slk)
  /-- Floating-point subtract rounded once (R195). -/
  | fsub (f : Slk)
  /-- Floating-point multiply rounded once (R195). -/
  | fmul (f : Slk)
  /-- Fused floating-point multiply-add (R195). -/
  | ffma (f : Slk)
  /-- IEEE minimumNumber (R196). -/
  | fmin (f : Slk)
  /-- IEEE maximumNumber (R196). -/
  | fmax (f : Slk)
  /-- Floating-point compare writing a predicate (R197). -/
  | fcmp (f : Slk)
  /-- Classifies a float into a class mask or predicate (R198). -/
  | fclass (f : Slk)
  /-- Rounds a float to an integral value (R199). -/
  | frnd (f : Slk)
  /-- Two-element dot product plus accumulator, rounded once to f32 (R200). -/
  | fdot2 (f : Slk)
  /-- Correctly rounded reciprocal (R202). -/
  | frcp (f : Slk)
  /-- Reciprocal square root approximation (R202). -/
  | frsq (f : Slk)
  /-- Correctly rounded square root (R202). -/
  | fsqrt (f : Slk)
  /-- Base-2 exponential approximation (R202). -/
  | fexp2 (f : Slk)
  /-- Base-2 logarithm approximation (R202). -/
  | flog2 (f : Slk)
  /-- Sine approximation (R202). -/
  | fsin (f : Slk)
  /-- Cosine approximation (R202). -/
  | fcos (f : Slk)
  /-- Hyperbolic tangent approximation (R202). -/
  | ftanh (f : Slk)
  /-- Converts a value between types (R77). -/
  | cvt (f : Slk)
  /-- Quantises one block element, giving code, spare and scale (R78). -/
  | qblk (f : Slk)
  /-- Dequantises a block element code (R79). -/
  | dqblk (f : Slk)
  /-- Packs a lane's elements into bit-plane fragments (R80). -/
  | bpk (f : Slk)
  /-- Unpacks bit-plane fragments into elements (R80). -/
  | bupk (f : Slk)
  /-- Moves lane values across lanes by index, up, down or xor (R205). -/
  | shfl (f : Slk)
  /-- Gathers a predicate of the lanes into a uniform word (R206). -/
  | ballot (f : Slk)
  /-- Any, all or equality vote over the active lanes (R207). -/
  | vote (f : Slk)
  /-- Any function of three predicates through a lookup table (R208). -/
  | plog (f : Slk)
  /-- Tree reduction over a group or segments (R209). -/
  | redx (f : Slk)
  /-- Inclusive or exclusive prefix within segments (R211). -/
  | scan (f : Slk)
  /-- Loads from local scratchpad or ring space (R132). -/
  | ldl (f : Slk)
  /-- Stores to local scratchpad or ring space, posted when remote (R135). -/
  | stl (f : Slk)
  /-- Loads from global memory (R132). -/
  | ldg (f : Slk)
  /-- Stores to global memory, written through (R133). -/
  | stg (f : Slk)
  /-- Loads from the kernel argument block (R134). -/
  | ldc (f : Slk)
  /-- Translates a pointer once and fills a base register record (R127). -/
  | bset (f : Slk)
  /-- Atomic read-modify-write on a local word (R138). -/
  | atoml (f : Slk)
  /-- Prefetches global lines into the chosen cache levels (R112). -/
  | pfg (f : Slk)
  /-- Cleans a range of lines to media (R114). -/
  | wbr (f : Slk)
  /-- Writes back and invalidates a range in L1 and the die RDC (R115). -/
  | invr (f : Slk)
  /-- Invalidates a range in L1 only (R113). -/
  | invrL1 (f : Slk)
  /-- Acquire fence of a scope (R391). -/
  | fenceAcq (f : Slk)
  /-- Release fence of a scope (R391). -/
  | fenceRel (f : Slk)
  /-- Acquire-release fence of a scope (R391). -/
  | fenceAr (f : Slk)
  /-- Memory-side fence ordering mst, walks, .wt stores and wbr (R280). -/
  | fenceMs (f : Slk)
  /-- Acquires and invalidates the quad instruction cache and refetches (R392). -/
  | ifence (f : Slk)
  /-- Opens an idempotent region, committing any open one (R402). -/
  | rgnOpen (f : Slk)
  /-- Commits and closes the open idempotent region (R402). -/
  | rgnClose (f : Slk)
  /-- Global atomic performed at the home, merging lanes per address (R266). -/
  | atomg (f : Slk)
  /-- Lane-form gather read at the home slice (R274). -/
  | gath (f : Slk)
  /-- Lane-form scatter performed at the home slice (R274). -/
  | scat (f : Slk)
  /-- List-form gather of indexed elements into scratchpad (R276). -/
  | gathList (f : Slk)
  /-- List-form scatter of scratchpad elements to indexed addresses (R276). -/
  | scatList (f : Slk)
  /-- Sends memory-side Peridot requests to the home (R284). -/
  | mst (f : Slk)
  /-- Launches one Jasper walk per active lane (R300). -/
  | walk (f : Slk)
  /-- Installs a rule program in every Jasper engine (R298). -/
  | wprog (f : Slk)
  /-- Writes the group's WCTL (R299). -/
  | wst (f : Slk)
  /-- Resumes walks from cursors (R301). -/
  | wres (f : Slk)
  /-- Configures a Beryl bank from a global record (R316). -/
  | ccfg (f : Slk)
  /-- Inserts vectors into a Beryl bank (R309). -/
  | cins (f : Slk)
  /-- Finds the nearest Beryl entry without changing the bank (R316). -/
  | cnear (f : Slk)
  /-- Merges the closest pair of Beryl entries (R312). -/
  | cmrg (f : Slk)
  /-- Reads a Beryl entry word or a state word (R317). -/
  | crd (f : Slk)
  /-- Clears a Beryl bank or one entry (R316). -/
  | cclr (f : Slk)
  /-- Writes Beryl entries to global memory as records (R318). -/
  | cdump (f : Slk)
  /-- Publishes ring entries and reports free entries (R175). -/
  | anot (f : Slk)
  /-- Initialises a barrier object (R146). -/
  | binit (f : Slk)
  /-- Adds expected bytes to a barrier, optionally arriving (R146). -/
  | bexp (f : Slk)
  /-- Counts group arrivals on a barrier (R146). -/
  | barv (f : Slk)
  /-- Waits for a barrier phase to complete (R146). -/
  | bwait (f : Slk)
  /-- Checks a barrier phase once without waiting (R146). -/
  | btry (f : Slk)
  /-- Reads a barrier object atomically into four registers (R146). -/
  | bst (f : Slk)
  /-- A sleeping waiter re-checks the barrier when a write to it is performed (R146). -/
  | barrierWaitWake (g : Gid)
  /-- Initialises a circular buffer (R150). -/
  | cbinit (f : Slk)
  /-- Takes the next filled slot, waiting while none is filled (R149). -/
  | cbget (f : Slk)
  /-- Claims a free slot, waiting while none is free (R149). -/
  | cbgetClaim (f : Slk)
  /-- Returns a taken slot as free (R149). -/
  | cbputDone (f : Slk)
  /-- Marks a claimed slot filled, in claim order (R149). -/
  | cbputFill (f : Slk)
  /-- A sleeping cbget retries when the buffer changes (R150). -/
  | cbufWaitWake (g : Gid)
  /-- Arms a monitor on a global granule (R151). -/
  | marm (f : Slk)
  /-- Arms a monitor on a local granule (R151). -/
  | marmLoc (f : Slk)
  /-- Disarms a monitor (R151). -/
  | marmOff (f : Slk)
  /-- Sleeps until a monitor fires, a timeout, a wake or pre-emption (R153). -/
  | mwait (f : Slk)
  /-- A sleeping mwait ends on a fire, wake, pre-emption request or spuriously (R153); the armed monitors whose bit of
  `fires` is 1 have fired spuriously (R152). -/
  | mwaitWake (g : Gid) (fires : Nat)
  /-- The mwait timeout elapses and the wait ends with TIMEOUT (R153). -/
  | mwaitTimeout (g : Gid)
  /-- Team barrier over the groups of the team (R154). -/
  | tbar (f : Slk)
  /-- The last arrival or exit releases the team barrier (R154). -/
  | tbarRelease (team : Nat)
  /-- Sets an operand-buffer reservation record (R221). -/
  | orsv (f : Slk)
  /-- Releases a reservation record (R221). -/
  | orel (f : Slk)
  /-- Accepts an operation that zeroes an accumulator bank (R233). -/
  | mzero (f : Slk)
  /-- Accepts a dense matrix multiply-accumulate (R235). -/
  | mma (f : Slk)
  /-- Accepts a block-scaled matrix multiply-accumulate (R235). -/
  | mmab (f : Slk)
  /-- Accepts a sparse matrix multiply-accumulate (R235). -/
  | mmas (f : Slk)
  /-- Waits for bank operations to retire and reports their errors (R236). -/
  | mwt (f : Slk)
  /-- Reads a bank's row-progress register (R237). -/
  | mstat (f : Slk)
  /-- The array completes one row of an accepted operation (R235). -/
  | matrixRowComplete (id : Nat)
  /-- A matrix operation retires and frees its queue entry (R214). -/
  | matrixRetire (id : Nat)
  /-- A suspended operation resumes at its row when the page is resident (R232). -/
  | matrixResume (id : Nat)
  /-- Accepts a Citrine drain of a bank (R256). -/
  | mdrain (f : Slk)
  /-- Loads a Citrine program into a slot (R255). -/
  | mprog (f : Slk)
  /-- Reads one row of the top-k state (R257). -/
  | tkrd (f : Slk)
  /-- Clears rows of the top-k state (R258). -/
  | tkclr (f : Slk)
  /-- Citrine reads the parameter block and computes tS when a drain starts (R241). -/
  | drainStart (core : Nat)
  /-- Citrine runs the program on one row and commits its effects (R242). -/
  | drainRowCommit (core : Nat)
  /-- A drain retires, writing any sparse tile and clearing the bank (R238). -/
  | drainRetire (core : Nat)
  /-- Ends the row's program (R246). -/
  | citEnd (c : Cit)
  /-- Copies a row register (R246). -/
  | citMov (c : Cit)
  /-- Broadcasts a constant into a row register (R246). -/
  | citLdk (c : Cit)
  /-- Loads a row-indexed element into every lane (R246). -/
  | citLdr (c : Cit)
  /-- Loads column-indexed elements (R246). -/
  | citLdv (c : Cit)
  /-- Adds two row registers (R246). -/
  | citAdd (c : Cit)
  /-- Multiplies two row registers (R246). -/
  | citMul (c : Cit)
  /-- Fused multiply-add of row registers (R246). -/
  | citFma (c : Cit)
  /-- maximumNumber of two row registers (R246). -/
  | citMax (c : Cit)
  /-- Adds a column-indexed bias (R246). -/
  | citBias (c : Cit)
  /-- Multiplies by a constant, row or column scale (R246). -/
  | citScale (c : Cit)
  /-- Clamps to a constant range (R246). -/
  | citClamp (c : Cit)
  /-- Rectified linear activation (R246). -/
  | citRelu (c : Cit)
  /-- Table-based GELU activation (R248). -/
  | citGelu (c : Cit)
  /-- Table-based SiLU activation (R248). -/
  | citSilu (c : Cit)
  /-- Multiplies by the tensor scale tS (R249). -/
  | citTsc (c : Cit)
  /-- Converts row lanes between types (R246). -/
  | citCvt (c : Cit)
  /-- Inserts the row into the running top-k state (R251). -/
  | citTopk (c : Cit)
  /-- Stages the row for the sparse tile (R252). -/
  | citSpack (c : Cit)
  /-- Stores the row's live lanes (R250). -/
  | citStore (c : Cit)
  /-- Counts routing choices in a routing-counter bank (R371). -/
  | rcnt (f : Slk)
  /-- Snapshots and clears a routing-counter bank (R372). -/
  | rcsnap (f : Slk)
  /-- Prefetches predicted expert weights (R375). -/
  | xpref (f : Slk)
  /-- Increments transition-table counters (R374). -/
  | xtrain (f : Slk)
  /-- Halves every counter of the named rows (R374). -/
  | xtrainDecay (f : Slk)
  /-- Releases and adds to a named fence (R359). -/
  | nfsig (f : Slk)
  /-- Appends a launch record to a queue (R360). -/
  | glaunch (f : Slk)
  /-- Team-collective request for a new group width (R324). -/
  | setw (f : Slk)
  /-- Groups waiting in setw trap when every live group waits, some in tbar (R326). -/
  | setwseq (team : Nat)
  /-- Requests growth of the register allocation (R329). -/
  | regx (f : Slk)
  /-- Shrinks the register allocation (R330). -/
  | regr (f : Slk)
  /-- The oldest pending request is granted when the pool holds its bytes (R329). -/
  | regxGrant (core : Nat)
  /-- After 4,096 idle clk the youngest pending request is denied (R331). -/
  | regxDenial (core : Nat)
  /-- Relative branch (R368). -/
  | bra (f : Slk)
  /-- Jump through a uniform pointer (R368). -/
  | jmpi (f : Slk)
  /-- Jump into a branch table by index (R368). -/
  | jmpiTab (f : Slk)
  /-- Call writing a link pair (R368). -/
  | call (f : Slk)
  /-- Return through a link pair (R368). -/
  | ret (f : Slk)
  /-- Instruction prefetch hint (R369). -/
  | ipf (f : Slk)
  /-- Opens a class-loop frame and enters the smallest-key class (R343). -/
  | dist (f : Slk)
  /-- Moves to the next class or closes the frame (R344). -/
  | dnext (f : Slk)
  /-- Lanes depart a frame (R345). -/
  | dleave (f : Slk)
  /-- Abandons a frame and every deeper one (R346). -/
  | dbrk (f : Slk)
  /-- Terminates the active lanes, ending the group when none remain (R335). -/
  | exit (f : Slk)
  /-- Ends the group's issue turn (R337). -/
  | yield (f : Slk)
  /-- Raises TRAPI (R412). -/
  | trap (f : Slk)
  /-- Traps BRK or halts the group under DEBUG (R413). -/
  | brk (f : Slk)
  /-- Returns from a trap handler to the trapping instruction (R414). -/
  | tret (f : Slk)
  /-- Returns from a handler past the trapping instruction (R414). -/
  | tretNext (f : Slk)
  /-- Repeats the following instruction with operand increments (R52). -/
  | rep (p : Pfx)
  /-- A long-latency producer writes its destination and sets it full (R36). -/
  | longLatencyWrite (id : Nat)
  /-- Agate considers a ring and takes pending entries (R158). -/
  | agateRingTake (team ring : Nat)
  /-- Copy command from a global box to a local box (R163). -/
  | cmdLoad (id : Nat)
  /-- Copy command from a local box to a global box (R163). -/
  | cmdStore (id : Nat)
  /-- Copy command from a global box to a dense global box (R163). -/
  | cmdGcopy (id : Nat)
  /-- Copy command gathering indexed global rows into local memory (R165). -/
  | cmdGatherRows (id : Nat)
  /-- Copy command scattering local rows to indexed global rows (R165). -/
  | cmdScatterRows (id : Nat)
  /-- Copy command filling a box with a value (R170). -/
  | cmdFill (id : Nat)
  /-- Copy command loading one global box into several cores (R170). -/
  | cmdMcastLoad (id : Nat)
  /-- A copy completes and updates its barrier, stamp or buffer (R173). -/
  | copyCompletion (id : Nat)
  /-- A suspended copy resumes when the page is resident or fails on decline (R174). -/
  | copyResume (id : Nat)
  /-- The home applies one atomic request and replies the old value (R266). -/
  | sliceAtomicApply (id half : Nat)
  /-- One list-form element is gathered or scattered (R276). -/
  | garnetElement (id : Nat)
  /-- A list operation resumes at its element progress when the page is resident (R277). -/
  | garnetSuspendResume (id : Nat)
  /-- The home slice writes back and holds the line, then forwards the request (R281). -/
  | peridotHomeWriteback (id : Nat)
  /-- The controller applies the memory-side operation to the sector (R285). -/
  | peridotOperation (id : Nat)
  /-- Walk rule comparing a field with the key (R291). -/
  | jLdcmp (r : Rule)
  /-- Walk rule comparing a field with an immediate (R291). -/
  | jLdcmpi (r : Rule)
  /-- Walk rule following a pointer (R291). -/
  | jFollow (r : Rule)
  /-- Walk rule selecting a slot by key bits (R291). -/
  | jSelect (r : Rule)
  /-- Walk rule ending FOUND with a record (R291). -/
  | jReturn (r : Rule)
  /-- Walk rule ending MISS (R291). -/
  | jMiss (r : Rule)
  /-- A walk is forwarded to the engine of another stack (R293). -/
  | walkForward (id : Nat)
  /-- A parked walk repeats its read once the page is resident (R295). -/
  | walkParkResume (id : Nat)
  /-- A Beryl operation is performed at its bank in one atomic step (R313). -/
  | berylPerform (id : Nat)
  /-- A suspended dump resumes at record k when the page is resident (R318). -/
  | cdumpResume (id : Nat)
  /-- The context enters DRAINED when no team of it is resident (R417). -/
  | drained (ctx : Nat)
  /-- The front end reads KDESC and dimensions and activates the grid (R358). -/
  | dims (ctx q : Nat)
  /-- A waiting record proceeds when its fence reaches TARGET (R355). -/
  | fenceWaitMet (ctx q : Nat)
  /-- The front end takes a NOP launch record (R355). -/
  | nopRecord (ctx q : Nat)
  /-- The front end takes a LAUNCH record (R355). -/
  | launchRecord (ctx q : Nat)
  /-- The front end takes a SIGNAL record (R355). -/
  | signalRecord (ctx q : Nat)
  /-- When every team has ended, the front end releases and signals (R355). -/
  | gridComplete (grid : Nat)
  /-- A pending entry moves to FILLING when its resources are free, or is refused (R363). -/
  | dispatchBind (core entry : Nat)
  /-- Windows are zero-filled or restored and the team starts running (R363). -/
  | fillComplete (core entry : Nat)
  /-- A team ends after its groups and operations complete (R336). -/
  | teamEnd (team : Nat)
  /-- A written-through global store or lane-form scat is accepted at the die RDC or home slice and enters the home order (R106). -/
  | storeCacheLevelAccept (id : Nat)
  /-- A posted remote stl is performed at the target core's pool (R135). -/
  | remoteStlPerformed (id : Nat)
  /-- A posted rcnt request is applied to its routing counter, saturating (R371). -/
  | rcntApply (id : Nat)
  /-- A load miss fills an L1 line (R105). -/
  | l1Fill (core loc : Nat)
  /-- A home slice fills a line or sector from media (R99). -/
  | l2Fill (loc : Nat)
  /-- A dirty L2 line is written to media on eviction (R99). -/
  | l2Eviction (loc : Nat)
  /-- An RDC sends its dirty bytes to the home, merged byte by byte (R102). -/
  | rdcWriteback (die loc : Nat)
  /-- The base-die controller accepts a media transaction (R91). -/
  | controllerAccept (id : Nat)
  /-- The scrubber reads and corrects a sector each scrub period (R89). -/
  | patrolScrub (sector : Nat)
  /-- A row is copied to a spare row and remapped (R90). -/
  | rowSparing (stack row : Nat)
  /-- A channel is copied to spare arrays and remapped (R90). -/
  | channelSparing (stack channel : Nat)
  /-- A host write is accepted at the home slice (R110). -/
  | hostWrite (loc : Nat) (data : LinkBytes)
  /-- A host read is served by the home slice (R110). -/
  | hostRead (loc len : Nat) (cache : Bool)
  /-- A peer write over Icmar is accepted at the home slice (R110). -/
  | peerWrite (loc : Nat) (data : LinkBytes)
  /-- A PCIe AtomicOp is completed at the home slice (R443). -/
  | hostAtomicop (loc : Nat) (op : AtomicOp) (wide : Bool) (v cmp : DWord)
  /-- A host snoop invalidates or reads an RDC line of host memory (R101). -/
  | cxlSnoop (die loc : Nat) (inv : Bool)
  /-- A back-invalidate response releases a held device access (R443). -/
  | birsp (loc : Nat) (data : Option (LineData × Bool))
  /-- An instruction-cache miss is filled and the sequencer resumes (R366). -/
  | icacheFill (g : Gid) (va : DWord)
  /-- A shootdown invalidates translations and base-register runs of a context (R129). -/
  | tlbShootdown (ctx : Nat)
  /-- System software answers a posted fault resident or declined (R442). -/
  | fans (ctx ord : Nat) (decline : Bool)
  /-- A write to PUB kicks a queue (R353). -/
  | queueDoorbell (ctx q : Nat) (pub : Word)
  /-- Writing STOP 0 resumes the queue at CONS (R355). -/
  | queueStopClear (ctx q : Nat)
  /-- Spinel writes a bind into a slot entry, VALID last (R362). -/
  | slotEntryWrite (core entry : Nat) (v : BitVec 256)
  /-- A pre-emption request starts draining or saving (R417). -/
  | pctlWrite (ctx : Nat) (v : Word)
  /-- LIMIT µs after a request, draining escalates to SAVING (R417). -/
  | preemptLimitExpiry (ctx : Nat)
  /-- A saved cluster is rebound and resumes together (R423). -/
  | restore (ctx : Nat) (binds : List RestoreBind)
  /-- An unload completes or is deferred while saved teams point into it (R426). -/
  | unload (ctx code : Nat) (forced : Bool)
  /-- Restoring a team whose code is gone kills the context with CODEGONE (R427). -/
  | forcedUnloadRestore (ctx image : Nat)
  /-- Writing RESUME resumes every halted group (R441). -/
  | cctlResume (ctx : Nat)
  /-- Writing WAKE wakes every mwait of the context (R441). -/
  | wake (ctx : Nat)
  /-- Spinel measures a code object into the context's CMR (R432). -/
  | measure (ctx : Nat) (sv : Word) (segs : List (DWord × DWord))
  /-- GO in READY copies early memory to HBM and starts every die (R446). -/
  | go
  /-- PHASE becomes READY when training and verification complete (R446). -/
  | hbmReady
  /-- Writing offset 0 sets SRC, INST, EN and clears the samples (R445). -/
  | monitorConfigWrite (die m : Nat) (v : Word)
  /-- An RSC read returns and clears MIN, MAX or a bin (R445). -/
  | monitorRscRead (die m off : Nat)
  /-- A sample updates MIN, MAX and a bin (R445). -/
  | monitorSample (die m : Nat) (v : Word)
  /-- A write to a management register without behaviour of its own (R439). -/
  | mgmtRegisterWrite (off size : Nat) (v : DWord)
  /-- Spinel steps the core clock to hold the 10 ms power average within PLIMIT (R449). -/
  | powerControl (avg now : Nat)
  /-- Temperature limits drop every core clock to 550 MHz until cooled (R449). -/
  | thermalThrottle (die junction coolant : Nat)
  /-- A hart missing its 1 ms watchdog is stopped and replaced (R448). -/
  | watchdogExpiry (die hart : Nat)
  /-- A spare core replaces a failed core (R12). -/
  | spareCoreSubstitution (core : Nat)
  /-- System software retires an L2 slice (R100). -/
  | sliceRetire (die slice : Nat)
  /-- System software carves or removes a Beryl bank (R303). -/
  | bankCarve (bank ways : Nat)
  /-- A failed slice removes its bank and logs the loss (R303). -/
  | sliceFailure (die slice : Nat)
  /-- A failing Icmar lane is dropped and traffic rerouted (R444). -/
  | linkLaneDrop (die link : Nat)
  /-- SPDM version request (R435). -/
  | getVersion
  /-- SPDM capabilities request (R435). -/
  | getCapabilities
  /-- SPDM algorithm negotiation (R435). -/
  | negotiateAlgorithms
  /-- SPDM certificate digests request (R435). -/
  | getDigests
  /-- SPDM certificate request (R435). -/
  | getCertificate (slot : Nat)
  /-- SPDM challenge signed with the device identity key (R435). -/
  | challenge (nonce : List Byte)
  /-- SPDM measurement report (R435). -/
  | getMeasurements (index : Nat) (nonce : List Byte)
  /-- Writes the owner certificate chain into slot 1 (R435). -/
  | setCertificate (slot : Nat) (chain : List Byte)
  /-- At reset the boot ROM verifies the firmware image or enters recovery (R436). -/
  | deviceReset
  /-- An image received in the recovery window is checked and written (R438). -/
  | recoveryImage (img : FwImage)
  /-- A signed enrolment message blows an owner key slot (R437). -/
  | enrolOwnerKey (slot : Nat) (key signer : BitVec 256) (sig : List Byte)
  /-- An owner-signed ADVANCE raises the fuse security counter (R437). -/
  | advance (signer : BitVec 256) (sig : List Byte)
  /-- A context is created: it enters RUNNING with its named fences at 0 and its CMR at 32 zero bytes (R417). -/
  | contextCreation (ctx : Nat) (sys : Bool)
  /-- System software ends a context, which enters KILLED and never runs again (R417). -/
  | contextKill (ctx : Nat)
  /-- An RDC miss fill returns from the home and takes the home's bytes only where the line is not dirty (R102). -/
  | rdcFill (die loc : Nat)
  /-- A peer device's read of this device's memory is served at the home slice, poisoned data returned with the link's poison indication (R110). -/
  | peerRead (loc len : Nat)
  /-- A write to FQCONS frees room in the fault queue, so faults held inside the device are posted (R442). -/
  | fqconsWrite (ctx : Nat) (v : Word)
  /-- The OWNERONLY fuse is blown, after which the Aminil key slot is no longer accepted (R437). -/
  | owneronlySet
  /-- The target device's front end receives an active-grid entry with its unbound TEAMIDs from another stepping and dispatches them (R424). -/
  | activeGridHandover (grid : GridEntry)
  deriving DecidableEq, Repr

end Sys2Proof
end

