-- ==== Sys2Proof/Machine/Fields.lean ====
section
/-! DEFINITION. Readings of the fields of an SLK word: operand classes (R22), MOD (R32) and types (R33). -/

namespace Sys2Proof.Machine

/-- The operand classes of R22. -/
inductive Kind where
  | v | s | b | lf | q | p | a | o | rsv | imm | sr | none
  deriving DecidableEq, Repr

/-- The class of an operand field. -/
def opKind : Opnd → Kind
  | .v _ => .v
  | .s _ => .s
  | .b _ => .b
  | .lf _ => .lf
  | .q _ => .q
  | .p _ => .p
  | .a _ => .a
  | .o _ => .o
  | .rsvLo _ => .rsv
  | .imm _ => .imm
  | .sr _ => .sr
  | .rsvHi _ => .rsv
  | .none => .none

/-- The register number, status register number, or immediate bits of an operand field. -/
def opNum : Opnd → Nat
  | .v n => n.toNat
  | .s n => n.toNat
  | .b n => n.toNat
  | .lf n => n.toNat % 8
  | .q n => n.toNat % 8
  | .p n => n.toNat
  | .a n => n.toNat % 4
  | .o n => n.toNat % 8
  | .rsvLo n => n.toNat
  | .imm n => n.toNat
  | .sr n => n.toNat
  | .rsvHi n => n.toNat
  | .none => 0

/-- The value of an immediate field (R25). -/
def opImm? : Opnd → Option Int
  | .imm n => some (toSigned 8 n.toNat)
  | _ => none

/-- A reserved bit of the field is 1 (R22). -/
def opRsvBit : Opnd → Bool
  | .lf n => decide (8 ≤ n.toNat)
  | .q n => decide (8 ≤ n.toNat)
  | .o n => decide (8 ≤ n.toNat)
  | .a n => decide (4 ≤ n.toNat)
  | _ => false

/-- The field is an immediate below `lo` or above `hi`. -/
def immOutside (o : Opnd) (lo hi : Int) : Bool :=
  match opImm? o with
  | some z => decide (z < lo ∨ hi < z)
  | none => false

/-! ### MOD (R32) -/

/-- TY, and DT of the convert layout. -/
def fTy (f : Slk) : Nat := field f.mod.toNat 0 4
/-- ST of the convert layout. -/
def fSt (f : Slk) : Nat := field f.mod.toNat 4 4
/-- SM. -/
def fSm (f : Slk) : Nat := field f.mod.toNat 4 2
/-- NL. -/
def fNl (f : Slk) : Bool := bitAt f.mod.toNat 6
/-- SAT of the arithmetic layout. -/
def fSat (f : Slk) : Bool := bitAt f.mod.toNat 7
/-- V, and SAT of the convert layout, and PAIR. -/
def fV (f : Slk) : Bool := bitAt f.mod.toNat 8
/-- CC and OPX (R180). -/
def fCc (f : Slk) : Nat := field f.mod.toNat 4 3
/-- SZ of MEM. -/
def fSz (f : Slk) : Nat := field f.mod.toNat 0 3
/-- SX of MEM. -/
def fSx (f : Slk) : Bool := bitAt f.mod.toNat 3
/-- ORD of MEM and ASYNC. -/
def fOrd (f : Slk) : Nat := field f.mod.toNat 4 2
/-- SCOPE of MEM and ASYNC. -/
def fScope (f : Slk) : Nat := field f.mod.toNat 6 3
/-- OPV of ASYNC. -/
def fOpv (f : Slk) : Nat := field f.mod.toNat 0 4
/-- FA of MTX. -/
def fFa (f : Slk) : Nat := field f.mod.toNat 0 4
/-- FB of MTX. -/
def fFb (f : Slk) : Nat := field f.mod.toNat 4 4
/-- FR of CTL. -/
def fFr (f : Slk) : Nat := field f.mod.toNat 0 3
/-- KT of CTL. -/
def fKt (f : Slk) : Nat := field f.mod.toNat 3 4
/-- VAR of CTL. -/
def fVar (f : Slk) : Nat := field f.mod.toNat 7 2

/-- DISP10 of MEM (R30). -/
def fDisp10 (f : Slk) : Int := toSigned 10 f.ext.toNat
/-- The low six bits of DISP10's place (R137). -/
def fDisp6 (f : Slk) : Int := toSigned 6 f.ext.toNat
/-- The high four bits of DISP10's place: AOP (R137). -/
def fAop (f : Slk) : Nat := field f.ext.toNat 6 4
/-- OFF24 of CTL (R31). -/
def fOff24 (f : Slk) : Int := toSigned 24 f.ext.toNat
/-- The fifth operand of a Beryl word, in DISP10's place (R315). -/
def fImm20 (f : Slk) : Nat := field f.ext.toNat 0 20

/-! ### Types (R33) -/

/-- The width of a type code. -/
def tyBits (t : Nat) : Nat := if t < 4 then 32 else if t < 8 then 64 else if t < 12 then 16 else 8
/-- The registers an operand of the type takes (R24). -/
def tyRegs (t : Nat) : Nat := if tyBits t = 64 then 2 else 1
/-- A float type. -/
def tyFloat (t : Nat) : Bool := [3, 7, 8, 9, 14, 15].contains t
/-- An i type. -/
def tySigned (t : Nat) : Bool := [0, 4, 10, 12].contains t
/-- An i or n type. -/
def tyNum (t : Nat) : Bool := [0, 1, 4, 5, 10, 11, 12, 13].contains t

end Sys2Proof.Machine
end

