-- ==== Sys2Proof/Machine/Shapes.lean ====
section
/-! DEFINITION. What each SLK instruction accepts: the formats of its row (R46), the classes of its positions
(R26), and the limits on its MOD, hints and operands (R48 rows 3 and 4). -/

namespace Sys2Proof.Machine

/-- What an instruction does with an operand field: nothing, or it names one of the classes and `n` consecutive
registers. `own`: the instruction makes its own full/empty check in place of R39's. -/
inductive Pos where
  | unused
  | use (acc : List Kind) (n : Nat)
  | own (acc : List Kind) (n : Nat)
  deriving DecidableEq, Repr

/-- An instruction's limits: formats, positions, further row 3 and row 4 conditions of R48. -/
structure Shape where
  fmts : List Nat
  d : Pos
  s1 : Pos
  s2 : Pos
  s3 : Pos
  s4 : Pos
  illop : Bool
  illenc : Bool
  deriving DecidableEq, Repr

/-- Register or immediate sources. -/
def kReg : List Kind := [.v, .s]
/-- A lane register, uniform register or immediate. -/
def kSrc : List Kind := [.v, .s, .imm]
/-- A uniform register or immediate. -/
def kUni : List Kind := [.s, .imm]

/-- The classes that R22, R26, R54 and R338 reserve nowhere: a description may give a field that holds another class than it
asks for a fate of its own. -/
def kAny : List Kind := [.v, .s, .b, .q, .p, .a, .o, .imm]

/-- The source positions a format leaves to the operand fields (R27, R28): in RRI the last source is imm20, in
RI32 the second is imm32. -/
def srcFields (fmt : Nat) (srcs : List Pos) : List Pos :=
  match fmt with
  | 1 => if srcs.length ≤ 2 then srcs.take (srcs.length - 1) else srcs.take 2
  | 2 => srcs.take (srcs.length - 1)
  | _ => srcs

/-- Source position `i`, unused beyond the list. -/
def nthPos (l : List Pos) (i : Nat) : Pos := (l[i]?).getD .unused

/-- The fifth operand: in the MEM format the Beryl words keep it in DISP10's place (R315). -/
def fS4 (f : Slk) : Opnd := f.s4

/-- A uniform destination, which takes no lane source (R176). -/
def uniLane (f : Slk) : Bool := opKind f.d == .s || opKind f.d == .p
/-- A source field that the instruction uses holds a lane register or a per-lane predicate (R26). -/
def laneUsed (p : Pos) (o : Opnd) : Bool := p != .unused && (opKind o == .v || opKind o == .q)

/-- A shape from a destination and a list of sources; with `uni` no source it uses may be per lane (R176). -/
def mkShape (f : Slk) (fmts : List Nat) (d : Pos) (srcs : List Pos) (uni illenc : Bool) : Shape :=
  let l := srcFields f.fmt.toNat srcs
  let lane := laneUsed (nthPos l 0) f.s1 || laneUsed (nthPos l 1) f.s2 || laneUsed (nthPos l 2) f.s3 ||
    laneUsed (nthPos l 3) f.s4
  ⟨fmts, d, nthPos l 0, nthPos l 1, nthPos l 2, nthPos l 3, uni && lane, illenc⟩

/-- The limits of R32 that hold in every arithmetic word: V reserved, SM and NL only with float types. -/
def modPlain (f : Slk) : Bool := fV f || (!tyFloat (fTy f) && (fSm f ≠ 0 || fNl f))

/-- `nop` (R49). -/
def shNop (f : Slk) : Shape := mkShape f [0] .unused [] false (modPlain f)

/-! ### Integer, bit, select and move (R181 to R193) -/

/-- The types of R181, and the use of SAT. -/
def intBad (f : Slk) (tys : List Nat) (sat : Bool) : Bool :=
  fV f || fSm f ≠ 0 || fNl f || !tys.contains (fTy f) || (fSat f && !(sat && tyNum (fTy f)))
/-- The types of R181. -/
def intTys : List Nat := [0, 1, 2, 4, 5, 6]
/-- A two-source integer instruction whose operands have the width of TY. -/
def shInt2 (f : Slk) (tys : List Nat) (sat : Bool) : Shape :=
  let n := tyRegs (fTy f)
  mkShape f [0, 1] (.use kReg n) [.use kSrc n, .use kSrc n] (uniLane f) (intBad f tys sat)
/-- A three-source one. -/
def shInt3 (f : Slk) (sat : Bool) : Shape :=
  let n := tyRegs (fTy f)
  mkShape f [0, 1] (.use kReg n) [.use kSrc n, .use kSrc n, .use kSrc n] (uniLane f) (intBad f intTys sat)
/-- `iabs`: an i type. -/
def shAbs (f : Slk) : Shape :=
  let n := tyRegs (fTy f)
  mkShape f [0, 1] (.use kReg n) [.use kSrc n] (uniLane f) (intBad f [0, 4] true)
/-- Shifts: the count is one 32-bit operand (R179). -/
def shShift (f : Slk) : Shape :=
  let n := tyRegs (fTy f)
  mkShape f [0, 1] (.use kReg n) [.use kSrc n, .use kSrc 1] (uniLane f) (intBad f intTys false)
/-- `popc`, `clz`, `ctz`: a single destination (R184). -/
def shCount (f : Slk) : Shape :=
  mkShape f [0] (.use kReg 1) [.use kSrc (tyRegs (fTy f))] (uniLane f) (intBad f intTys false)
/-- `brev`. -/
def shBrev (f : Slk) : Shape :=
  let n := tyRegs (fTy f)
  mkShape f [0] (.use kReg n) [.use kSrc n] (uniLane f) (intBad f intTys false)
/-- `bfx` (R185). -/
def shBfx (f : Slk) : Shape :=
  let n := tyRegs (fTy f)
  mkShape f [0, 1] (.use kReg n) [.use kSrc n, .use kSrc 1, .use kSrc 1] (uniLane f) (intBad f intTys false)
/-- `bfi` (R185). -/
def shBfi (f : Slk) : Shape :=
  let n := tyRegs (fTy f)
  mkShape f [0, 1] (.use kReg n) [.use kSrc n, .use kSrc n, .use kSrc 1, .use kSrc 1] (uniLane f)
    (intBad f intTys false)
/-- `lea`: a 64-bit type (R186). -/
def shLea (f : Slk) : Shape :=
  mkShape f [0, 1] (.use kReg 2) [.use kSrc 2, .use kSrc 1, .use kSrc 1] (uniLane f) (intBad f [4, 5, 6] false)
/-- `icmp` (R187). -/
def shIcmp (f : Slk) : Shape :=
  let n := tyRegs (fTy f)
  mkShape f [0, 1] (.use [.p, .q] 1) [.use kSrc n, .use kSrc n] (uniLane f)
    (fV f || fSat f || decide (6 ≤ fCc f) || !intTys.contains (fTy f))
/-- The words of R188 to R193 reserve SM, NL and SAT whatever TY is. -/
def moveBad (f : Slk) (v : Bool) : Bool := fSm f ≠ 0 || fNl f || fSat f || (fV f && !v)
/-- An immediate of type e4m3 or e5m2 (R25). -/
def imm8Float (t : Nat) (os : List Opnd) : Bool := (t == 14 || t == 15) && os.any fun o => opKind o == .imm
/-- `sel` (R188). -/
def shSel (f : Slk) : Shape :=
  let n := tyRegs (fTy f)
  mkShape f [0] (.use kReg n) [.use kSrc n, .use kSrc n, .use [.q, .p] 1] (uniLane f)
    (moveBad f false || decide (8 ≤ fTy f))
/-- `mov` (R189). -/
def shMov (f : Slk) : Shape :=
  let pr := [f.d, f.s1].any fun o => opKind o == .p || opKind o == .q
  let n := tyRegs (fTy f)
  mkShape f [0] (.use [.v, .s, .p, .q] (if opKind f.d == .v || opKind f.d == .s then n else 1))
    [.use [.v, .s, .p, .q, .imm] (if opKind f.s1 == .v || opKind f.s1 == .s then n else 1)] (uniLane f)
    (moveBad f false || (pr && decide (4 ≤ fTy f)) || imm8Float (fTy f) [f.s1])
/-- imm32 of a 16-bit float has [31:16] 0 (R190). -/
def imm32Bad (f : Slk) : Bool := f.fmt == 2 && (fTy f == 8 || fTy f == 9) && decide (2 ^ 16 ≤ f.ext.toNat)
/-- `movi` (R190). -/
def shMovi (f : Slk) : Shape :=
  ⟨[2], .use kReg (tyRegs (fTy f)), .unused, .unused, .unused, .unused, false, moveBad f false || imm32Bad f⟩
/-- `srd` (R191). -/
def shSrd (f : Slk) : Shape :=
  { mkShape f [0] (.use kReg (tyRegs (fTy f))) [.use [.sr] 1] false (moveBad f false || !(fTy f == 2 || fTy f == 6)) with
    illop := opKind f.d == .s && f.s1 == .sr 0 }
/-- `swr` (R192): its uniform source may be an immediate (R176, log 15). -/
def shSwr (f : Slk) : Shape :=
  mkShape f [0] (.use [.sr] 1) [.use kUni (tyRegs (fTy f))] false (moveBad f false || !(fTy f == 2 || fTy f == 6))
/-- `rdlane` waits on the named lane only (R193). -/
def shRdlane (f : Slk) : Shape :=
  let n := tyRegs (fTy f)
  mkShape f [0, 1] (.use [.s] n) [.own [.v] n, .use kUni 1] false (moveBad f true)
/-- `wrlane` (R193): its uniform source may be an immediate (R176, log 15). -/
def shWrlane (f : Slk) : Shape :=
  let n := tyRegs (fTy f)
  mkShape f [0, 1] (.own [.v] n) [.use kUni n, .use kUni 1] false (moveBad f false || imm8Float (fTy f) [f.s1])

/-! ### Float and special functions (R194 to R202) -/

/-- The types of R194. -/
def fltTys : List Nat := [3, 7, 8, 9]
/-- `fadd`, `fsub`, `fmul` (`sat`), `fmin`, `fmax`. -/
def shFlt2 (f : Slk) (sat : Bool) : Shape :=
  let n := tyRegs (fTy f)
  mkShape f [0, 2] (.use kReg n) [.use kSrc n, .use kSrc n] (uniLane f)
    (fV f || (fSat f && !sat) || !fltTys.contains (fTy f) || imm32Bad f)
/-- `ffma`. -/
def shFfma (f : Slk) : Shape :=
  let n := tyRegs (fTy f)
  mkShape f [0] (.use kReg n) [.use kSrc n, .use kSrc n, .use kSrc n] (uniLane f) (fV f || !fltTys.contains (fTy f))
/-- `fcmp`: CC stands in place of SM and NL (R180, R197). -/
def shFcmp (f : Slk) : Shape :=
  let n := tyRegs (fTy f)
  mkShape f [0, 2] (.use [.p, .q] 1) [.use kSrc n, .use kSrc n] (uniLane f)
    (fV f || fSat f || !fltTys.contains (fTy f) || imm32Bad f)
/-- `fclass` (R198). -/
def shFclass (f : Slk) : Shape :=
  let pred := opKind f.d == .p || opKind f.d == .q
  mkShape f [0] (.use [.v, .s, .p, .q] 1)
    [.use [.v, .s] (tyRegs (fTy f)), if pred then .use kSrc 1 else .unused] (uniLane f)
    (fV f || fSat f || fSm f ≠ 0 || fNl f || !fltTys.contains (fTy f))
/-- The modes of `frnd`; any other value of S2 traps ILLENC, but a reserved class ILLOP (R26, R199). -/
def frndMode (o : Opnd) : Bool :=
  match opImm? o with
  | some z => decide (z = 0 ∨ z = 1 ∨ z = 2 ∨ z = 3 ∨ z = 4 ∨ z = 7)
  | none => false
/-- `frnd` (R199). -/
def shFrnd (f : Slk) : Shape :=
  let n := tyRegs (fTy f)
  mkShape f [0] (.use kReg n) [.use kSrc n, .use kAny 1] (uniLane f)
    (fV f || fSat f || fNl f || !fltTys.contains (fTy f) || !frndMode f.s2)
/-- `fdot2` (R200). -/
def shFdot2 (f : Slk) : Shape :=
  mkShape f [0] (.use kReg 1) [.use kSrc 1, .use kSrc 1, .use kSrc 1] (uniLane f)
    (fV f || !(fTy f == 8 || fTy f == 9))
/-- The SFU (R201). -/
def shSfu (f : Slk) (wide : Bool) : Shape :=
  let n := tyRegs (fTy f)
  mkShape f [0] (.use kReg n) [.use kSrc n] (uniLane f)
    (fV f || fSm f ≠ 0 || fNl f || !((if wide then [3, 7, 8, 9] else [3, 8, 9]).contains (fTy f)))

/-! ### Conversions (R76 to R80) -/

/-- Types every `cvt` pair may draw from. -/
def cvtAll : List Nat := [12, 13, 10, 11, 0, 1, 4, 5, 8, 9, 3, 7, 14, 15]
/-- `cvt`'s pairs (R77). -/
def cvtPair (dt st : Nat) : Bool :=
  (cvtAll.contains dt && cvtAll.contains st) || ((st == 2 || st == 6) && [8, 9, 3, 7].contains dt) ||
    (dt == 2 && [8, 9, 3, 7].contains st)
/-- The registers of a convert type: codes 2 and 6 are e2m1 and e8m0 there (R33). -/
def cvtRegs (t : Nat) : Nat := if t = 4 ∨ t = 5 ∨ t = 7 then 2 else 1
/-- An immediate whose type has none (R25, R76). -/
def cvtImm (t : Nat) (o : Opnd) : Bool := opKind o == .imm && [2, 6, 14, 15].contains t
/-- `cvt` (R77). -/
def shCvt (f : Slk) : Shape :=
  mkShape f [0] (.use kReg (cvtRegs (fTy f))) [.use kSrc (cvtRegs (fSt f))] (uniLane f)
    (!cvtPair (fTy f) (fSt f) || cvtImm (fSt f) f.s1)
/-- `qblk` (R78). -/
def shQblk (f : Slk) : Shape :=
  mkShape f [0] (.use kReg 1) [.use kSrc 1, .use kSrc 1] (uniLane f)
    (!([2, 14, 15].contains (fTy f) && [3, 8, 9].contains (fSt f)))
/-- `dqblk` (R79). -/
def shDqblk (f : Slk) : Shape :=
  mkShape f [0] (.use kReg 1) [.use kSrc 1, .use kSrc 1] (uniLane f)
    (!([3, 8, 9].contains (fTy f) && [2, 14, 15].contains (fSt f)) || cvtImm (fSt f) f.s1)
/-- `bpk` and `bupk` (R76, R80). -/
def shBpk (f : Slk) : Shape :=
  mkShape f [0] (.use kReg 2) [.use kSrc 2] (uniLane f)
    (fV f || fTy f ≠ fSt f || !([2, 12, 13, 14, 15, 6].contains (fTy f)) || cvtImm (fTy f) f.s1)

/-! ### Cross-lane (R203 to R211) -/

/-- An 8-bit immediate below `lo` (R204). -/
def offBad (o : Opnd) (lo : Int) : Bool := immOutside o lo 127
/-- `shfl` (R205). -/
def shShfl (f : Slk) : Shape :=
  let n := tyRegs (fTy f)
  mkShape f [0, 1] (.use [.v] n) [.use [.v] n, .use kSrc 1] false
    (decide (4 ≤ fCc f) || decide (8 ≤ fTy f) || offBad f.s2 (-6))
/-- `ballot` (R206). -/
def shBallot (f : Slk) : Shape :=
  mkShape f [0, 1] (.use [.s] (tyRegs (fTy f))) [.use [.q, .p] 1, .use [.v, .s, .imm, .none] 1] false
    (fV f || fCc f ≠ 0 || !(fTy f == 2 || fTy f == 6) || offBad f.s2 0)
/-- `vote` (R207). -/
def shVote (f : Slk) : Shape :=
  let n := tyRegs (fTy f)
  if fCc f = 2 then
    mkShape f [0, 1] (.use [.p, .s] 1) [.use [.v] n, .use [.s, .imm, .none] n] false
      (fV f || imm8Float (fTy f) [f.s2])
  else
    mkShape f [0, 1] (.use [.p, .s] 1) [.use [.q, .p] 1, .unused] false
      (fV f || decide (3 ≤ fCc f) || fTy f ≠ 2 || f.fmt == 1)
/-- `plog` (R208). -/
def shPlog (f : Slk) : Shape :=
  let k : Pos := .use [.p, .q, .none] 1
  mkShape f [0, 1] (.use [.p, .q] 1) [k, k, k, .use [.imm] 1] (opKind f.d == .p)
    (fV f || fCc f ≠ 0 || fTy f ≠ 2 || (f.fmt == 1 && decide (2 ^ 8 ≤ f.ext.toNat)))
/-- The types of each reduction (R209). -/
def redTypes (op t : Nat) : Bool :=
  let ints := [0, 1, 2, 4, 5, 6, 10, 11, 12, 13]
  let flts := [3, 7, 8, 9]
  match op with
  | 0 => ints.contains t || flts.contains t
  | 1 | 2 => tyNum t || flts.contains t
  | 3 | 4 | 5 => ints.contains t
  | _ => false
/-- `redx` (R209); the size in a lane register is waited for in one lane only. -/
def shRedx (f : Slk) : Shape :=
  let n := tyRegs (fTy f)
  let uni := opKind f.d == .s
  mkShape f [0, 1] (.use kReg n)
    [.use [.v] n, if uni then .unused else .own [.v, .s, .imm, .none] 1] false
    (fV f || !redTypes (fCc f) (fTy f) || offBad f.s2 (-6) || (uni && f.fmt == 1))
/-- `scan` (R211). -/
def shScan (f : Slk) : Shape :=
  let n := tyRegs (fTy f)
  mkShape f [0, 1] (.use [.v] n) [.use [.v] n, .own [.v, .s, .imm, .none] 1] false
    (!redTypes (fCc f) (fTy f) || offBad f.s2 (-6))

/-! ### Memory words (R130 to R137, R111 to R113, R390, R392, R401) -/

/-- The limits of R32 on SX, ORD and SCOPE of a memory word. -/
def memBad (f : Slk) : Bool := (fSx f && decide (2 ≤ fSz f)) || (fOrd f == 0 && fScope f ≠ 0)
/-- The registers a datum of 2^SZ bytes takes (R131). -/
def szRegs (sz : Nat) : Nat := if sz = 4 then 4 else if sz = 3 then 2 else 1
/-- A lane offset, uniform offset, immediate or none (R30). -/
def kOff : List Kind := [.v, .s, .imm, .none]
/-- A local base (R131). -/
def pLocal : Pos := .use [.s, .none] 1
/-- A global base: a base register, an even uniform pair, or none (R30). -/
def pGlobal (f : Slk) : Pos := .use [.b, .s, .none] (if opKind f.s1 == .s then 2 else 1)
/-- A MEM shape; with `uni` no source it uses may be per lane (R176). -/
def memShape (f : Slk) (d s1 s2 s3 : Pos) (uni illenc : Bool) : Shape :=
  ⟨[3], d, s1, s2, s3, .unused, uni && (laneUsed s1 f.s1 || laneUsed s2 f.s2 || laneUsed s3 f.s3), illenc⟩
/-- `ldl` and `ldg`: `ch` tells whether hints are allowed. -/
def shLoad (f : Slk) (base : Pos) (ch : Bool) : Shape :=
  memShape f (.use kReg (szRegs (fSz f))) base (.use kOff 1) .unused (uniLane f)
    (memBad f || decide (5 ≤ fSz f) || decide (2 ≤ fOrd f) || (f.ch ≠ 0 && !ch))
/-- `stl` and `stg`. -/
def shStore (f : Slk) (base : Pos) (ch : Bool) : Shape :=
  memShape f .unused base (.use kOff 1) (.use kReg (szRegs (fSz f))) false
    (memBad f || decide (5 ≤ fSz f) || fSx f || !(fOrd f == 0 || fOrd f == 2) || (f.ch ≠ 0 && !ch))
/-- `ldc` (R131). -/
def shLdc (f : Slk) : Shape :=
  memShape f (.use kReg (szRegs (fSz f))) (.use [.none] 1) (.use kOff 1) .unused (uniLane f)
    (memBad f || decide (5 ≤ fSz f) || fOrd f ≠ 0 || f.ch ≠ 0)
/-- `bset` (R130): S3 is a position that accepts no operand, so that another value there traps ILLOP (log 15). -/
def shBset (f : Slk) : Shape :=
  memShape f (.use [.b] 1) (.use [.s] 2) (.use [.s, .imm, .none] 1) (.use [.none] 1) false (f.mod ≠ 0 || f.ch ≠ 0)
/-- The register count of an atomic's operand: cas holds compare and new (R137). -/
def atomRegs (f : Slk) : Nat := szRegs (fSz f) * (if fAop f = 9 then 2 else 1)
/-- The operand S3 of an atomic: of `cas` any that is no register group traps ILLENC, a reserved class ILLOP (R26, R137,
R264). -/
def pAtomOpnd (f : Slk) : Pos := .use (if fAop f = 9 then kAny else kReg) (atomRegs f)
/-- The operand of a `cas` is no register. -/
def casBad (f : Slk) : Bool := fAop f == 9 && !(opKind f.s3 == .v || opKind f.s3 == .s)
/-- `atoml` (R137). -/
def shAtoml (f : Slk) : Shape :=
  memShape f (.use [.v, .s, .none] (szRegs (fSz f))) pLocal (.use kOff 1) (pAtomOpnd f) (uniLane f)
    (casBad f || !(fSz f == 2 || fSz f == 3) || fSx f || f.ch ≠ 0 || memBad f || decide (11 ≤ fAop f) ||
      (fAop f == 10 && fSz f == 3))
/-- `pfg` (R111). -/
def shPfg (f : Slk) : Shape :=
  memShape f .unused (pGlobal f) (.use kOff 1) .unused false
    (decide (5 ≤ fSz f) || fSx f || fOrd f ≠ 0 || fScope f ≠ 0)
/-- `wbr` and `invr` (R113): MOD is exactly `m`. -/
def shRange (f : Slk) (ms : List Nat) : Shape :=
  memShape f .unused (pGlobal f) (.use kOff 1) (.use kReg 1) false (!ms.contains f.mod.toNat || f.ch ≠ 0)
/-- `fence` (R390). -/
def shFence (f : Slk) : Shape :=
  memShape f .unused .unused .unused .unused false (fSz f ≠ 0 || fSx f || f.ext ≠ 0 || f.ch ≠ 0)
/-- `ifence` (R392). -/
def shIfence (f : Slk) : Shape :=
  memShape f .unused .unused .unused .unused false (fSz f ≠ 0 || fSx f || f.ext ≠ 0 || f.ch ≠ 0 || fOrd f ≠ 1)
/-- `rgn` (R401). -/
def shRgn (f : Slk) : Shape :=
  memShape f .unused .unused .unused .unused false (decide (2 ≤ f.mod.toNat) || f.ext ≠ 0 || f.ch ≠ 0)

/-! ### Barriers, buffers and monitors (R145 to R154) -/

/-- An ASYNC shape; OPV and ORD are among those listed (R32, R146). -/
def asyncShape (f : Slk) (d s1 s2 s3 : Pos) (opv ord : List Nat) (illenc : Bool) : Shape :=
  ⟨[4], d, s1, s2, s3, .unused, false,
    illenc || !opv.contains (fOpv f) || !ord.contains (fOrd f) || (fOrd f == 0 && fScope f ≠ 0)⟩
/-- A uniform register or none. -/
def pOptS : Pos := .use [.s, .none] 1
/-- A count operand. -/
def pUni : Pos := .use kUni 1
/-- `binit`. -/
def shBinit (f : Slk) : Shape := asyncShape f .unused (.use [.s] 1) pUni .unused [0] [0] (immOutside f.s2 0 127)
/-- `bexp`. -/
def shBexp (f : Slk) : Shape := asyncShape f .unused (.use [.s] 1) pUni .unused [0, 1] [0, 2] (immOutside f.s2 0 127)
/-- `barv`. -/
def shBarv (f : Slk) : Shape :=
  asyncShape f pOptS (.use [.s] 1) (.use [.s, .imm, .none] 1) .unused [0] [0, 2] (immOutside f.s2 0 127)
/-- `bwait`. -/
def shBwait (f : Slk) : Shape := asyncShape f pOptS (.use [.s] 1) pUni .unused [0] [0, 1] (immOutside f.s2 0 1)
/-- `btry`. -/
def shBtry (f : Slk) : Shape :=
  asyncShape f (.use [.s] 1) (.use [.s] 1) pUni .unused [0] [0, 1] (immOutside f.s2 0 1)
/-- `bst`. -/
def shBst (f : Slk) : Shape := asyncShape f (.use [.s] 4) (.use [.s] 1) .unused .unused [0] [0, 1] false

/-- `cbinit` (R150). -/
def shCbinit (f : Slk) : Shape :=
  asyncShape f .unused (.use [.s] 1) pUni pUni [0] [0] (immOutside f.s2 0 127 || immOutside f.s3 0 127)
/-- `cbget` (R150). -/
def shCbget (f : Slk) : Shape := asyncShape f (.use [.s] 1) (.use [.s] 1) .unused .unused [0, 1] [0, 1] false
/-- `cbput` (R150). -/
def shCbput (f : Slk) : Shape :=
  asyncShape f .unused (.use [.s] 1) (if fOpv f = 1 then pUni else .unused) .unused [0, 1] [0, 2]
    (immOutside f.s2 0 127)
/-- `marm` (R151). -/
def shMarm (f : Slk) : Shape :=
  asyncShape f .unused
    (if fOpv f = 2 then .unused else if fOpv f = 1 then .use [.s] 1 else .use [.s] 2)
    (.use [.imm] 1) .unused [0, 1, 2] [0] (immOutside f.s2 0 3)
/-- `mwait` (R153). -/
def shMwait (f : Slk) : Shape :=
  asyncShape f (.use [.s] 1) (.use [.s, .imm, .none] 1) .unused .unused [0] [0, 1] (immOutside f.s1 0 127)
/-- `tbar` (R154). -/
def shTbar (f : Slk) : Shape := asyncShape f .unused .unused .unused .unused [0] [0, 3] false

/-- `anot` (R175). -/
def shAnot (f : Slk) : Shape := asyncShape f pOptS (.use [.s] 1) pUni .unused [0] [0, 2] (immOutside f.s2 0 127)

/-! ### The matrix array and Citrine (R215 to R258) -/

/-- An MTX shape. -/
def mtxShape (d s1 s2 s3 s4 : Pos) (illenc : Bool) : Shape := ⟨[5], d, s1, s2, s3, s4, false, illenc⟩
/-- `orsv` (R221). -/
def shOrsv (f : Slk) : Shape :=
  mtxShape (.use [.o] 1) pUni pUni (.use [.s, .imm, .none] 1) (.use [.s, .imm, .none] 1)
    (fV f || !([14, 15, 2, 12, 13, 8, 9].contains (fFa f)) || decide (2 ≤ fFb f) ||
      (fFb f == 1 && !([14, 15, 2].contains (fFa f))))
/-- `orel` (R221). -/
def shOrel (f : Slk) : Shape := mtxShape (.use [.o] 1) .unused .unused .unused .unused (f.mod ≠ 0)
/-- `mzero` (R233). -/
def shMzero (f : Slk) : Shape :=
  mtxShape (.use [.a] 1) .unused .unused .unused .unused (fFa f ≠ 0 || fFb f ≠ 0)
/-- The pairs of element types of `mma` and `mmas` (R215). -/
def mmaPair (a b : Nat) : Bool :=
  ([14, 15].contains a && [14, 15].contains b) || ([12, 13].contains a && [12, 13].contains b) ||
    (a == 8 && b == 8) || (a == 9 && b == 9)
/-- `mma`, `mmas` (`blk` false) and `mmab` (R215, R217, R234). -/
def shMma (f : Slk) (blk : Bool) : Shape :=
  mtxShape (.use [.a] 1) (.use [.s] 8) .unused .unused .unused
    (if blk then !([14, 15, 2].contains (fFa f) && [14, 15, 2].contains (fFb f)) else !mmaPair (fFa f) (fFb f))
/-- `mwt` (R236). -/
def shMwt (f : Slk) : Shape := mtxShape .unused (.use [.a, .none] 1) .unused .unused .unused (f.mod ≠ 0)
/-- `mstat` (R237). -/
def shMstat (f : Slk) : Shape := mtxShape (.use [.s] 1) (.use [.a] 1) .unused .unused .unused (f.mod ≠ 0)
/-- `mdrain` (R256). -/
def shMdrain (f : Slk) : Shape := mtxShape (.use [.a] 1) (.use [.s] 8) pUni .unused .unused (f.mod ≠ 0)
/-- `mprog` (R255). -/
def shMprog (f : Slk) : Shape := mtxShape .unused pUni (.use [.s] 2) pUni .unused (f.mod ≠ 0)
/-- `tkrd` (R257). -/
def shTkrd (f : Slk) : Shape := mtxShape (.use [.v] 2) pUni .unused .unused .unused (f.mod ≠ 0)
/-- `tkclr` (R258). -/
def shTkclr (f : Slk) : Shape := mtxShape .unused (.use [.s, .imm, .none] 1) .unused .unused .unused (f.mod ≠ 0)

/-! ### Slices, memory side and Beryl (R264 to R318) -/

/-- `atomg` (R264). -/
def shAtomg (f : Slk) : Shape :=
  memShape f (.use [.v, .s, .none] (szRegs (fSz f))) (pGlobal f) (.use kOff 1) (pAtomOpnd f) (uniLane f)
    (casBad f || !(fSz f == 2 || fSz f == 3) || fSx f || f.ch ≠ 0 || memBad f || decide (12 ≤ fAop f) ||
      ((fAop f == 10 || fAop f == 11) && fSz f == 3))
/-- `gath` (R273, R274). -/
def shGath (f : Slk) : Shape :=
  memShape f (.use kReg (szRegs (fSz f))) (pGlobal f) (.use kOff 1) .unused (uniLane f)
    (memBad f || decide (5 ≤ fSz f) || decide (2 ≤ fOrd f) || f.ch ≠ 0 || decide (2 ≤ fAop f))
/-- `scat` (R273, R274). -/
def shScat (f : Slk) : Shape :=
  memShape f .unused (pGlobal f) (.use kOff 1) (.use kReg (szRegs (fSz f))) false
    (memBad f || decide (5 ≤ fSz f) || fSx f || !(fOrd f == 0 || fOrd f == 2) || f.ch ≠ 0 || decide (2 ≤ fAop f))
/-- The list forms (R275). -/
def shList (f : Slk) : Shape :=
  memShape f (.use [.s] 1) (pGlobal f) (.use [.s] 1) (.use [.s] 2) false
    (decide (4 ≤ fSz f) || fSx f || fOrd f ≠ 0 || fScope f ≠ 0 || f.ch ≠ 0)
/-- `mst` (R282). -/
def shMst (f : Slk) : Shape :=
  memShape f (.use [.none] 1) (pGlobal f) (.use kOff 1) (.use kReg (szRegs (fSz f))) false
    (fSx f || fOrd f ≠ 0 || fScope f ≠ 0 || f.ch ≠ 0 ||
      !((decide (fAop f ≤ 4) && (fSz f == 2 || fSz f == 3)) || ([10, 11, 12, 13].contains (fAop f) && fSz f == 2)))
/-- A lane result block of `n` registers from vD reaches beyond the allocation (R300). -/
def blockBeyond (f : Slk) (alloc n : Nat) : Bool := opKind f.d == .v && decide (alloc < opNum f.d + n)
/-- `walk` (R300). -/
def shWalk (f : Slk) (alloc : Nat) : Shape :=
  { memShape f (.use [.v] 20) (pGlobal f) (.use kOff 1) (.use kReg (szRegs (fSz f))) false
      (!(fSz f == 2 || fSz f == 3) || fSx f || fOrd f ≠ 0 || fScope f ≠ 0 || f.ch ≠ 0) with
    illop := blockBeyond f alloc 20 }
/-- `wprog` (R298). -/
def shWprog (f : Slk) : Shape :=
  memShape f .unused (pGlobal f) (.use [.s, .imm, .none] 1) pUni false (f.mod ≠ 0 || f.ch ≠ 0)
/-- `wst` (R299). -/
def shWst (f : Slk) : Shape := memShape f pOptS pUni pUni .unused false (f.mod ≠ 0 || f.ch ≠ 0 || f.ext ≠ 0)
/-- `wres` (R301). -/
def shWres (f : Slk) (alloc : Nat) : Shape :=
  { memShape f (.use [.v] 20) (.use [.v] 4) .unused (.use kReg (szRegs (fSz f))) false
      (!(fSz f == 2 || fSz f == 3) || fSx f || fOrd f ≠ 0 || fScope f ≠ 0 || f.ch ≠ 0 || f.ext ≠ 0) with
    illop := blockBeyond f alloc 20 }
/-- A Beryl shape: S4 names the bank, MOD and CH are 0 (R315). -/
def berylShape (f : Slk) (d s1 s2 s3 : Pos) : Shape :=
  ⟨[3], d, s1, s2, s3, .use [.s] 1, false, f.mod ≠ 0 || f.ch ≠ 0⟩
/-- `ccfg` (R316). -/
def shCcfg (f : Slk) : Shape := berylShape f .unused (pGlobal f) (.use [.s, .imm, .none] 1) .unused
/-- `cins` (R316; without D, R313). -/
def shCins (f : Slk) : Shape := berylShape f (.use [.v, .none] 1) pLocal (.use kSrc 1) (.use kSrc 1)
/-- `cnear` (R316). -/
def shCnear (f : Slk) : Shape := berylShape f (.use [.v] 2) pLocal (.use kSrc 1) .unused
/-- `cmrg` (R316). -/
def shCmrg (f : Slk) : Shape := berylShape f pOptS .unused .unused .unused
/-- `crd` (R316). -/
def shCrd (f : Slk) : Shape := berylShape f (.use [.v] 1) .unused (.use kReg 1) .unused
/-- `cclr` (R316). -/
def shCclr (f : Slk) : Shape := berylShape f .unused .unused pOptS .unused
/-- `cdump` (R316). -/
def shCdump (f : Slk) : Shape := berylShape f (.use [.s] 1) (pGlobal f) (.use [.s, .imm, .none] 1) (.use [.s] 1)

/-! ### Counters, fences, launches, widths and registers (R323, R329, R359, R360, R371 to R375) -/

/-- `rcnt` (R371): MOD is n32. -/
def shRcnt (f : Slk) : Shape :=
  mkShape f [0] .unused [pUni, .use kReg 1, .use kOff 1] false (f.mod ≠ 1 || immOutside f.s3 0 127)
/-- `rcsnap` (R372). -/
def shRcsnap (f : Slk) : Shape := mkShape f [0] pOptS [.use [.s] 1, pUni] false (f.mod ≠ 0)
/-- `xpref` (R375). -/
def shXpref (f : Slk) : Shape :=
  mkShape f [0] .unused [.use [.s] 2, .use kReg 1, .use [.s] 2, .use [.s] 1] false (f.mod ≠ 0)
/-- `xtrain` (R374). -/
def shXtrain (f : Slk) : Shape :=
  mkShape f [0] .unused [.use [.s] 2, .use kReg 1, if fV f then .unused else .use kReg 1, pUni] false
    (!(f.mod == 0 || f.mod == 0x100))
/-- `nfsig` (R359). -/
def shNfsig (f : Slk) : Shape :=
  mkShape f [0] (.use [.s, .none] (if opKind f.d == .s then 2 else 1)) [pUni, .use [.s, .imm, .none] 1] false
    (!(f.mod == 0 || f.mod == 0x100) || immOutside f.s2 0 127)
/-- `glaunch` (R360). -/
def shGlaunch (f : Slk) : Shape := mkShape f [0] pOptS [.use [.s] 2, pUni] false (f.mod ≠ 0)
/-- `setw`, `regx`, `regr` (R323, R328). -/
def shWidth (f : Slk) : Shape := mkShape f [0] pOptS [pUni] false (f.mod ≠ 0 || immOutside f.s1 0 127)

/-! ### Control (R335, R341, R367, R369, R412) -/

/-- A CTL shape. FR and KT are 0 but where a description uses them, and VAR is `var`. -/
def ctlShape (f : Slk) (d s1 : Pos) (var : Nat) (off : Bool) (illenc : Bool) : Shape :=
  ⟨[6], d, s1, .unused, .unused, .unused, false,
    fFr f ≠ 0 || fKt f ≠ 0 || fVar f ≠ var || (!off && fOff24 f ≠ 0) || illenc⟩
/-- A class-loop shape (R341). -/
def frameShape (f : Slk) (d s1 : Pos) (illenc : Bool) : Shape :=
  ⟨[6], d, s1, .unused, .unused, .unused, false, fVar f ≠ 0 || illenc⟩
/-- No guard is written (R341). -/
def unguarded (f : Slk) : Bool := f.ga == 0x0F && f.gb == 0x0F
/-- `bra`. -/
def shBra (f : Slk) : Shape := ctlShape f .unused .unused 0 true false
/-- `jmpi`. -/
def shJmpi (f : Slk) : Shape := ctlShape f .unused (.use [.s] 2) 0 false false
/-- `jmpi.tab`. -/
def shJmpiTab (f : Slk) : Shape := ctlShape f .unused (.use [.s] 1) 1 true false
/-- `call`. -/
def shCall (f : Slk) : Shape :=
  if fVar f = 0 then ctlShape f (.use [.s] 2) .unused 0 true false
  else ctlShape f (.use [.s] 2) (.use [.s] 2) 1 false false
/-- `ret`. -/
def shRet (f : Slk) : Shape := ctlShape f .unused (.use [.s] 2) 0 false false
/-- The same classes without the lane registers. -/
def kNotLane : List Kind := kAny.filter (· != .v)
/-- `ipf`: an S1 that is neither none nor an immediate from 1 to 16 traps ILLENC, a lane register ILLOP
(R367, R369). -/
def shIpf (f : Slk) : Shape :=
  ctlShape f .unused (.use (.none :: kNotLane) 1) 0 true
    (!(opKind f.s1 == .imm || opKind f.s1 == .none) || immOutside f.s1 1 16)
/-- The key types (R339). -/
def keyTypes : List Nat := [12, 13, 10, 11, 0, 1, 6]
/-- `dist` (R341, R343). -/
def shDist (f : Slk) : Shape :=
  let n := if fKt f = 6 then 2 else 1
  frameShape f (.use [.s] n) (.use [.v] n) (!keyTypes.contains (fKt f) || !unguarded f || decide (fOff24 f ≤ 0))
/-- `dnext` (R341). -/
def shDnext (f : Slk) : Shape := frameShape f .unused .unused (fKt f ≠ 0 || fOff24 f ≠ 0 || !unguarded f)
/-- `dleave` (R341). -/
def shDleave (f : Slk) : Shape := frameShape f .unused (.use [.q, .p] 1) (fKt f ≠ 0 || fOff24 f ≠ 0)
/-- `dbrk` (R341). -/
def shDbrk (f : Slk) : Shape := frameShape f .unused .unused (fKt f ≠ 0 || fOff24 f ≠ 0)
/-- `exit`, `yield`, `brk` and, with VAR 1, `tret.next`. -/
def shPlainCtl (f : Slk) (var : Nat) : Shape := ctlShape f .unused .unused var false false
/-- `trap`: an S1 that is neither a uniform register nor an immediate from 0 to 127 traps ILLENC, a lane register ILLOP
(R412). -/
def shTrap (f : Slk) : Shape :=
  ctlShape f .unused (.use kNotLane 1) 0 false
    (!(opKind f.s1 == .s || opKind f.s1 == .imm) || immOutside f.s1 0 127)

/-! ### The fate of an encoding (R48 rows 3 and 4) -/

/-- The two decode traps of R55. -/
inductive Fate where
  | illop | illenc
  deriving DecidableEq, Repr

/-- A position breaks row 3: a class not accepted, or a lane register at or above the allocation (R26). -/
def posIllop (alloc : Nat) (p : Pos) (o : Opnd) : Bool :=
  match p with
  | .unused => false
  | .use acc _ | .own acc _ => !acc.contains (opKind o) || (opKind o == .v && decide (alloc ≤ opNum o))
/-- The multiple a register number must have (R24, R217, R300). -/
def alignOf (n : Nat) : Nat := if n = 1 then 1 else if n = 2 then 2 else if n = 8 then 8 else 4
/-- A position breaks row 4: an unused field not 0x3FF, a reserved bit, or a misaligned register (R24, R26). -/
def posIllenc (p : Pos) (o : Opnd) : Bool :=
  match p with
  | .unused => o ≠ .none
  | .use _ n | .own _ n => opRsvBit o || ((opKind o == .v || opKind o == .s) && decide (opNum o % alignOf n ≠ 0))
/-- The rules of a format on FE, reserved bits and CH (R27, R41). -/
def fmtBad (f : Slk) : Bool :=
  match f.fmt.toNat with
  | 1 => f.fe.getLsbD 0 || f.ch ≠ 0
  | 3 => f.ch == 7
  | 6 => f.fe.getLsbD 0 || f.fe.getLsbD 1 || decide (2 ^ 24 ≤ f.ext.toNat) || f.ch ≠ 0
  | _ => f.ch ≠ 0
/-- The format has operand field `k` (0 D, 1 to 4 the sources) (R27). -/
def fmtHas (fmt k : Nat) : Bool :=
  match fmt with
  | 1 => decide (k ≤ 2)
  | 2 => decide (k ≤ 1)
  | 3 => decide (k ≤ 3)
  | 6 => decide (k ≤ 1)
  | 7 => false
  | _ => true
/-- Rows 3 and 4 of R48 for a shape. Row 3 looks at the fields the instruction uses; in a format outside its row,
at those of them the format has (log 20). -/
def shapeFate (alloc : Nat) (h : Shape) (f : Slk) : Option Fate :=
  let ok := h.fmts.contains f.fmt.toNat
  let chk (k : Nat) (p : Pos) (o : Opnd) : Bool := (ok || fmtHas f.fmt.toNat k) && posIllop alloc p o
  if chk 0 h.d f.d || chk 1 h.s1 f.s1 || chk 2 h.s2 f.s2 || chk 3 h.s3 f.s3 || chk 4 h.s4 f.s4 || (ok && h.illop) then
    some .illop
  else if !h.fmts.contains f.fmt.toNat || fmtBad f || posIllenc h.d f.d || posIllenc h.s1 f.s1 ||
      posIllenc h.s2 f.s2 || posIllenc h.s3 f.s3 || posIllenc h.s4 f.s4 || h.illenc then some .illenc
  else none
/-- Row 4 of R48 for the prefix (R50, R51). -/
def pfxFate (p : Pfx) : Option Fate :=
  if p.fmt ≠ 7 || p.ga ≠ 0x0F || p.gb ≠ 0x0F || p.rsvLo ≠ 0 || p.rsvHi ≠ 0 then some .illenc else none

end Sys2Proof.Machine
end

