-- ==== Sys2Proof/Machine/ShapeOf.lean ====
section
/-! DEFINITION. The opcode map (R46): the opcode and fields of each SLK constructor, its shape, and the constructor
an opcode and its variant fields name. -/

namespace Sys2Proof.Machine

/-- The opcode and fields of an SLK word; none for the repeat prefix, other words and events. -/
def slkParts : Instr → Option (Nat × Slk)
  | .nop f => some (0x000, f)
  | .iadd f => some (0x010, f)
  | .isub f => some (0x011, f)
  | .imul f => some (0x012, f)
  | .imulh f => some (0x013, f)
  | .imad f => some (0x014, f)
  | .iabs f => some (0x015, f)
  | .imin f => some (0x016, f)
  | .imax f => some (0x017, f)
  | .ishl f => some (0x018, f)
  | .ishr f => some (0x019, f)
  | .isra f => some (0x01A, f)
  | .irot f => some (0x01B, f)
  | .and f => some (0x01C, f)
  | .or f => some (0x01D, f)
  | .xor f => some (0x01E, f)
  | .andn f => some (0x01F, f)
  | .popc f => some (0x020, f)
  | .clz f => some (0x021, f)
  | .ctz f => some (0x022, f)
  | .brev f => some (0x023, f)
  | .bfx f => some (0x024, f)
  | .bfi f => some (0x025, f)
  | .lea f => some (0x026, f)
  | .icmp f => some (0x027, f)
  | .sel f => some (0x028, f)
  | .mov f => some (0x029, f)
  | .movi f => some (0x02A, f)
  | .srd f => some (0x02B, f)
  | .swr f => some (0x02C, f)
  | .rdlane f => some (0x02D, f)
  | .wrlane f => some (0x02E, f)
  | .fadd f => some (0x040, f)
  | .fsub f => some (0x041, f)
  | .fmul f => some (0x042, f)
  | .ffma f => some (0x043, f)
  | .fmin f => some (0x044, f)
  | .fmax f => some (0x045, f)
  | .fcmp f => some (0x046, f)
  | .fclass f => some (0x047, f)
  | .frnd f => some (0x048, f)
  | .fdot2 f => some (0x049, f)
  | .frcp f => some (0x060, f)
  | .frsq f => some (0x061, f)
  | .fsqrt f => some (0x062, f)
  | .fexp2 f => some (0x063, f)
  | .flog2 f => some (0x064, f)
  | .fsin f => some (0x065, f)
  | .fcos f => some (0x066, f)
  | .ftanh f => some (0x067, f)
  | .cvt f => some (0x070, f)
  | .qblk f => some (0x071, f)
  | .dqblk f => some (0x072, f)
  | .bpk f => some (0x073, f)
  | .bupk f => some (0x074, f)
  | .shfl f => some (0x080, f)
  | .ballot f => some (0x081, f)
  | .vote f => some (0x082, f)
  | .redx f => some (0x083, f)
  | .scan f => some (0x084, f)
  | .plog f => some (0x085, f)
  | .ldl f => some (0x100, f)
  | .stl f => some (0x101, f)
  | .ldg f => some (0x102, f)
  | .stg f => some (0x103, f)
  | .ldc f => some (0x104, f)
  | .bset f => some (0x105, f)
  | .pfg f => some (0x106, f)
  | .wbr f => some (0x107, f)
  | .invrL1 f => some (0x108, f)
  | .invr f => some (0x108, f)
  | .fenceMs f => some (0x109, f)
  | .fenceAcq f => some (0x109, f)
  | .fenceRel f => some (0x109, f)
  | .fenceAr f => some (0x109, f)
  | .ifence f => some (0x10A, f)
  | .rgnClose f => some (0x10B, f)
  | .rgnOpen f => some (0x10B, f)
  | .atoml f => some (0x10C, f)
  | .atomg f => some (0x140, f)
  | .mst f => some (0x141, f)
  | .gathList f => some (0x142, f)
  | .gath f => some (0x142, f)
  | .scatList f => some (0x143, f)
  | .scat f => some (0x143, f)
  | .walk f => some (0x144, f)
  | .wprog f => some (0x145, f)
  | .wst f => some (0x146, f)
  | .wres f => some (0x147, f)
  | .ccfg f => some (0x148, f)
  | .cins f => some (0x149, f)
  | .cnear f => some (0x14A, f)
  | .cmrg f => some (0x14B, f)
  | .crd f => some (0x14C, f)
  | .cclr f => some (0x14D, f)
  | .cdump f => some (0x14E, f)
  | .anot f => some (0x180, f)
  | .binit f => some (0x181, f)
  | .bexp f => some (0x182, f)
  | .barv f => some (0x183, f)
  | .bwait f => some (0x184, f)
  | .btry f => some (0x185, f)
  | .bst f => some (0x186, f)
  | .cbinit f => some (0x187, f)
  | .cbgetClaim f => some (0x188, f)
  | .cbget f => some (0x188, f)
  | .cbputFill f => some (0x189, f)
  | .cbputDone f => some (0x189, f)
  | .marmLoc f => some (0x18A, f)
  | .marmOff f => some (0x18A, f)
  | .marm f => some (0x18A, f)
  | .mwait f => some (0x18B, f)
  | .tbar f => some (0x18C, f)
  | .orsv f => some (0x1C0, f)
  | .orel f => some (0x1C1, f)
  | .mzero f => some (0x1C2, f)
  | .mma f => some (0x1C3, f)
  | .mmab f => some (0x1C4, f)
  | .mmas f => some (0x1C5, f)
  | .mwt f => some (0x1C6, f)
  | .mdrain f => some (0x1C7, f)
  | .mprog f => some (0x1C8, f)
  | .tkrd f => some (0x1C9, f)
  | .tkclr f => some (0x1CA, f)
  | .mstat f => some (0x1CB, f)
  | .rcnt f => some (0x1E0, f)
  | .rcsnap f => some (0x1E1, f)
  | .xpref f => some (0x1E2, f)
  | .xtrainDecay f => some (0x1E3, f)
  | .xtrain f => some (0x1E3, f)
  | .nfsig f => some (0x1E4, f)
  | .glaunch f => some (0x1E5, f)
  | .setw f => some (0x1E6, f)
  | .regx f => some (0x1E7, f)
  | .regr f => some (0x1E8, f)
  | .bra f => some (0x1F0, f)
  | .jmpiTab f => some (0x1F1, f)
  | .jmpi f => some (0x1F1, f)
  | .call f => some (0x1F2, f)
  | .ret f => some (0x1F3, f)
  | .dist f => some (0x1F4, f)
  | .dnext f => some (0x1F5, f)
  | .dleave f => some (0x1F6, f)
  | .dbrk f => some (0x1F7, f)
  | .exit f => some (0x1F8, f)
  | .yield f => some (0x1F9, f)
  | .ipf f => some (0x1FA, f)
  | .trap f => some (0x1FB, f)
  | .tretNext f => some (0x1FC, f)
  | .tret f => some (0x1FC, f)
  | .brk f => some (0x1FD, f)
  | .barrierWaitWake _ => none
  | .cbufWaitWake _ => none
  | .mwaitWake _ _ => none
  | .mwaitTimeout _ => none
  | .tbarRelease _ => none
  | .matrixRowComplete _ => none
  | .matrixRetire _ => none
  | .matrixResume _ => none
  | .drainStart _ => none
  | .drainRowCommit _ => none
  | .drainRetire _ => none
  | .citEnd _ => none
  | .citMov _ => none
  | .citLdk _ => none
  | .citLdr _ => none
  | .citLdv _ => none
  | .citAdd _ => none
  | .citMul _ => none
  | .citFma _ => none
  | .citMax _ => none
  | .citBias _ => none
  | .citScale _ => none
  | .citClamp _ => none
  | .citRelu _ => none
  | .citGelu _ => none
  | .citSilu _ => none
  | .citTsc _ => none
  | .citCvt _ => none
  | .citTopk _ => none
  | .citSpack _ => none
  | .citStore _ => none
  | .setwseq _ => none
  | .regxGrant _ => none
  | .regxDenial _ => none
  | .rep _ => none
  | .longLatencyWrite _ => none
  | .agateRingTake _ _ => none
  | .cmdLoad _ => none
  | .cmdStore _ => none
  | .cmdGcopy _ => none
  | .cmdGatherRows _ => none
  | .cmdScatterRows _ => none
  | .cmdFill _ => none
  | .cmdMcastLoad _ => none
  | .copyCompletion _ => none
  | .copyResume _ => none
  | .sliceAtomicApply _ _ => none
  | .garnetElement _ => none
  | .garnetSuspendResume _ => none
  | .peridotHomeWriteback _ => none
  | .peridotOperation _ => none
  | .jLdcmp _ => none
  | .jLdcmpi _ => none
  | .jFollow _ => none
  | .jSelect _ => none
  | .jReturn _ => none
  | .jMiss _ => none
  | .walkForward _ => none
  | .walkParkResume _ => none
  | .berylPerform _ => none
  | .cdumpResume _ => none
  | .l1Fill _ _ => none
  | .l2Fill _ => none
  | .l2Eviction _ => none
  | .rdcWriteback _ _ => none
  | .controllerAccept _ => none
  | .patrolScrub _ => none
  | .rowSparing _ _ => none
  | .channelSparing _ _ => none
  | .hostWrite _ _ => none
  | .hostRead _ _ _ => none
  | .peerWrite _ _ => none
  | .hostAtomicop _ _ _ _ _ => none
  | .cxlSnoop _ _ _ => none
  | .birsp _ _ => none
  | .icacheFill _ _ => none
  | .tlbShootdown _ => none
  | .fans _ _ _ => none
  | .queueDoorbell _ _ _ => none
  | .queueStopClear _ _ => none
  | .nopRecord _ _ => none
  | .launchRecord _ _ => none
  | .signalRecord _ _ => none
  | .fenceWaitMet _ _ => none
  | .dims _ _ => none
  | .gridComplete _ => none
  | .slotEntryWrite _ _ _ => none
  | .dispatchBind _ _ => none
  | .fillComplete _ _ => none
  | .teamEnd _ => none
  | .pctlWrite _ _ => none
  | .preemptLimitExpiry _ => none
  | .drained _ => none
  | .restore _ _ => none
  | .unload _ _ _ => none
  | .forcedUnloadRestore _ _ => none
  | .cctlResume _ => none
  | .wake _ => none
  | .measure _ _ _ => none
  | .go => none
  | .hbmReady => none
  | .monitorConfigWrite _ _ _ => none
  | .monitorRscRead _ _ _ => none
  | .monitorSample _ _ _ => none
  | .mgmtRegisterWrite _ _ _ => none
  | .powerControl _ _ => none
  | .thermalThrottle _ _ _ => none
  | .watchdogExpiry _ _ => none
  | .spareCoreSubstitution _ => none
  | .sliceRetire _ _ => none
  | .bankCarve _ _ => none
  | .sliceFailure _ _ => none
  | .linkLaneDrop _ _ => none
  | .getVersion => none
  | .getCapabilities => none
  | .negotiateAlgorithms => none
  | .getDigests => none
  | .getCertificate _ => none
  | .challenge _ => none
  | .getMeasurements _ _ => none
  | .setCertificate _ _ => none
  | .deviceReset => none
  | .recoveryImage _ => none
  | .enrolOwnerKey _ _ _ _ => none
  | .advance _ _ => none
  | .contextCreation _ _ => none
  | .contextKill _ => none
  | .rdcFill _ _ => none
  | .peerRead _ _ => none
  | .storeCacheLevelAccept _ => none
  | .remoteStlPerformed _ => none
  | .rcntApply _ => none
  | .fqconsWrite _ _ => none
  | .owneronlySet => none
  | .activeGridHandover _ => none

/-- The shape of an SLK word under an allocation of `alloc` lane registers (R328). -/
def shapeOf (alloc : Nat) : Instr → Option Shape
  | .nop f => some (shNop f)
  | .iadd f => some (shInt2 f intTys true)
  | .isub f => some (shInt2 f intTys true)
  | .imul f => some (shInt2 f intTys true)
  | .imulh f => some (shInt2 f [0, 1, 4, 5] false)
  | .imad f => some (shInt3 f true)
  | .iabs f => some (shAbs f)
  | .imin f => some (shInt2 f [0, 1, 4, 5] false)
  | .imax f => some (shInt2 f [0, 1, 4, 5] false)
  | .ishl f => some (shShift f)
  | .ishr f => some (shShift f)
  | .isra f => some (shShift f)
  | .irot f => some (shShift f)
  | .and f => some (shInt2 f intTys false)
  | .or f => some (shInt2 f intTys false)
  | .xor f => some (shInt2 f intTys false)
  | .andn f => some (shInt2 f intTys false)
  | .popc f => some (shCount f)
  | .clz f => some (shCount f)
  | .ctz f => some (shCount f)
  | .brev f => some (shBrev f)
  | .bfx f => some (shBfx f)
  | .bfi f => some (shBfi f)
  | .lea f => some (shLea f)
  | .icmp f => some (shIcmp f)
  | .sel f => some (shSel f)
  | .mov f => some (shMov f)
  | .movi f => some (shMovi f)
  | .srd f => some (shSrd f)
  | .swr f => some (shSwr f)
  | .rdlane f => some (shRdlane f)
  | .wrlane f => some (shWrlane f)
  | .fadd f => some (shFlt2 f true)
  | .fsub f => some (shFlt2 f true)
  | .fmul f => some (shFlt2 f true)
  | .ffma f => some (shFfma f)
  | .fmin f => some (shFlt2 f false)
  | .fmax f => some (shFlt2 f false)
  | .fcmp f => some (shFcmp f)
  | .fclass f => some (shFclass f)
  | .frnd f => some (shFrnd f)
  | .fdot2 f => some (shFdot2 f)
  | .frcp f => some (shSfu f true)
  | .frsq f => some (shSfu f false)
  | .fsqrt f => some (shSfu f true)
  | .fexp2 f => some (shSfu f false)
  | .flog2 f => some (shSfu f false)
  | .fsin f => some (shSfu f false)
  | .fcos f => some (shSfu f false)
  | .ftanh f => some (shSfu f false)
  | .cvt f => some (shCvt f)
  | .qblk f => some (shQblk f)
  | .dqblk f => some (shDqblk f)
  | .bpk f => some (shBpk f)
  | .bupk f => some (shBpk f)
  | .shfl f => some (shShfl f)
  | .ballot f => some (shBallot f)
  | .vote f => some (shVote f)
  | .redx f => some (shRedx f)
  | .scan f => some (shScan f)
  | .plog f => some (shPlog f)
  | .ldl f => some (shLoad f pLocal false)
  | .stl f => some (shStore f pLocal false)
  | .ldg f => some (shLoad f (pGlobal f) true)
  | .stg f => some (shStore f (pGlobal f) true)
  | .ldc f => some (shLdc f)
  | .bset f => some (shBset f)
  | .pfg f => some (shPfg f)
  | .wbr f => some (shRange f [0])
  | .invrL1 f => some (shRange f [0, 1])
  | .invr f => some (shRange f [0, 1])
  | .fenceMs f => some (shFence f)
  | .fenceAcq f => some (shFence f)
  | .fenceRel f => some (shFence f)
  | .fenceAr f => some (shFence f)
  | .ifence f => some (shIfence f)
  | .rgnClose f => some (shRgn f)
  | .rgnOpen f => some (shRgn f)
  | .atoml f => some (shAtoml f)
  | .atomg f => some (shAtomg f)
  | .mst f => some (shMst f)
  | .gathList f => some (shList f)
  | .gath f => some (shGath f)
  | .scatList f => some (shList f)
  | .scat f => some (shScat f)
  | .walk f => some (shWalk f alloc)
  | .wprog f => some (shWprog f)
  | .wst f => some (shWst f)
  | .wres f => some (shWres f alloc)
  | .ccfg f => some (shCcfg f)
  | .cins f => some (shCins f)
  | .cnear f => some (shCnear f)
  | .cmrg f => some (shCmrg f)
  | .crd f => some (shCrd f)
  | .cclr f => some (shCclr f)
  | .cdump f => some (shCdump f)
  | .anot f => some (shAnot f)
  | .binit f => some (shBinit f)
  | .bexp f => some (shBexp f)
  | .barv f => some (shBarv f)
  | .bwait f => some (shBwait f)
  | .btry f => some (shBtry f)
  | .bst f => some (shBst f)
  | .cbinit f => some (shCbinit f)
  | .cbgetClaim f => some (shCbget f)
  | .cbget f => some (shCbget f)
  | .cbputFill f => some (shCbput f)
  | .cbputDone f => some (shCbput f)
  | .marmLoc f => some (shMarm f)
  | .marmOff f => some (shMarm f)
  | .marm f => some (shMarm f)
  | .mwait f => some (shMwait f)
  | .tbar f => some (shTbar f)
  | .orsv f => some (shOrsv f)
  | .orel f => some (shOrel f)
  | .mzero f => some (shMzero f)
  | .mma f => some (shMma f false)
  | .mmab f => some (shMma f true)
  | .mmas f => some (shMma f false)
  | .mwt f => some (shMwt f)
  | .mdrain f => some (shMdrain f)
  | .mprog f => some (shMprog f)
  | .tkrd f => some (shTkrd f)
  | .tkclr f => some (shTkclr f)
  | .mstat f => some (shMstat f)
  | .rcnt f => some (shRcnt f)
  | .rcsnap f => some (shRcsnap f)
  | .xpref f => some (shXpref f)
  | .xtrainDecay f => some (shXtrain f)
  | .xtrain f => some (shXtrain f)
  | .nfsig f => some (shNfsig f)
  | .glaunch f => some (shGlaunch f)
  | .setw f => some (shWidth f)
  | .regx f => some (shWidth f)
  | .regr f => some (shWidth f)
  | .bra f => some (shBra f)
  | .jmpiTab f => some (shJmpiTab f)
  | .jmpi f => some (shJmpi f)
  | .call f => some (shCall f)
  | .ret f => some (shRet f)
  | .dist f => some (shDist f)
  | .dnext f => some (shDnext f)
  | .dleave f => some (shDleave f)
  | .dbrk f => some (shDbrk f)
  | .exit f => some (shPlainCtl f 0)
  | .yield f => some (shPlainCtl f 0)
  | .ipf f => some (shIpf f)
  | .trap f => some (shTrap f)
  | .tretNext f => some (shPlainCtl f 1)
  | .tret f => some (shPlainCtl f 0)
  | .brk f => some (shPlainCtl f 0)
  | .barrierWaitWake _ => none
  | .cbufWaitWake _ => none
  | .mwaitWake _ _ => none
  | .mwaitTimeout _ => none
  | .tbarRelease _ => none
  | .matrixRowComplete _ => none
  | .matrixRetire _ => none
  | .matrixResume _ => none
  | .drainStart _ => none
  | .drainRowCommit _ => none
  | .drainRetire _ => none
  | .citEnd _ => none
  | .citMov _ => none
  | .citLdk _ => none
  | .citLdr _ => none
  | .citLdv _ => none
  | .citAdd _ => none
  | .citMul _ => none
  | .citFma _ => none
  | .citMax _ => none
  | .citBias _ => none
  | .citScale _ => none
  | .citClamp _ => none
  | .citRelu _ => none
  | .citGelu _ => none
  | .citSilu _ => none
  | .citTsc _ => none
  | .citCvt _ => none
  | .citTopk _ => none
  | .citSpack _ => none
  | .citStore _ => none
  | .setwseq _ => none
  | .regxGrant _ => none
  | .regxDenial _ => none
  | .rep _ => none
  | .longLatencyWrite _ => none
  | .agateRingTake _ _ => none
  | .cmdLoad _ => none
  | .cmdStore _ => none
  | .cmdGcopy _ => none
  | .cmdGatherRows _ => none
  | .cmdScatterRows _ => none
  | .cmdFill _ => none
  | .cmdMcastLoad _ => none
  | .copyCompletion _ => none
  | .copyResume _ => none
  | .sliceAtomicApply _ _ => none
  | .garnetElement _ => none
  | .garnetSuspendResume _ => none
  | .peridotHomeWriteback _ => none
  | .peridotOperation _ => none
  | .jLdcmp _ => none
  | .jLdcmpi _ => none
  | .jFollow _ => none
  | .jSelect _ => none
  | .jReturn _ => none
  | .jMiss _ => none
  | .walkForward _ => none
  | .walkParkResume _ => none
  | .berylPerform _ => none
  | .cdumpResume _ => none
  | .l1Fill _ _ => none
  | .l2Fill _ => none
  | .l2Eviction _ => none
  | .rdcWriteback _ _ => none
  | .controllerAccept _ => none
  | .patrolScrub _ => none
  | .rowSparing _ _ => none
  | .channelSparing _ _ => none
  | .hostWrite _ _ => none
  | .hostRead _ _ _ => none
  | .peerWrite _ _ => none
  | .hostAtomicop _ _ _ _ _ => none
  | .cxlSnoop _ _ _ => none
  | .birsp _ _ => none
  | .icacheFill _ _ => none
  | .tlbShootdown _ => none
  | .fans _ _ _ => none
  | .queueDoorbell _ _ _ => none
  | .queueStopClear _ _ => none
  | .nopRecord _ _ => none
  | .launchRecord _ _ => none
  | .signalRecord _ _ => none
  | .fenceWaitMet _ _ => none
  | .dims _ _ => none
  | .gridComplete _ => none
  | .slotEntryWrite _ _ _ => none
  | .dispatchBind _ _ => none
  | .fillComplete _ _ => none
  | .teamEnd _ => none
  | .pctlWrite _ _ => none
  | .preemptLimitExpiry _ => none
  | .drained _ => none
  | .restore _ _ => none
  | .unload _ _ _ => none
  | .forcedUnloadRestore _ _ => none
  | .cctlResume _ => none
  | .wake _ => none
  | .measure _ _ _ => none
  | .go => none
  | .hbmReady => none
  | .monitorConfigWrite _ _ _ => none
  | .monitorRscRead _ _ _ => none
  | .monitorSample _ _ _ => none
  | .mgmtRegisterWrite _ _ _ => none
  | .powerControl _ _ => none
  | .thermalThrottle _ _ _ => none
  | .watchdogExpiry _ _ => none
  | .spareCoreSubstitution _ => none
  | .sliceRetire _ _ => none
  | .bankCarve _ _ => none
  | .sliceFailure _ _ => none
  | .linkLaneDrop _ _ => none
  | .getVersion => none
  | .getCapabilities => none
  | .negotiateAlgorithms => none
  | .getDigests => none
  | .getCertificate _ => none
  | .challenge _ => none
  | .getMeasurements _ _ => none
  | .setCertificate _ _ => none
  | .deviceReset => none
  | .recoveryImage _ => none
  | .enrolOwnerKey _ _ _ _ => none
  | .advance _ _ => none
  | .contextCreation _ _ => none
  | .contextKill _ => none
  | .rdcFill _ _ => none
  | .peerRead _ _ => none
  | .storeCacheLevelAccept _ => none
  | .remoteStlPerformed _ => none
  | .rcntApply _ => none
  | .fqconsWrite _ _ => none
  | .owneronlySet => none
  | .activeGridHandover _ => none

/-- The opcode map, part 1 of 6. -/
def opRows0 : List (Nat × (Slk → Instr)) :=
  [(0x000, .nop),
   (0x010, .iadd),
   (0x011, .isub),
   (0x012, .imul),
   (0x013, .imulh),
   (0x014, .imad),
   (0x015, .iabs),
   (0x016, .imin),
   (0x017, .imax),
   (0x018, .ishl),
   (0x019, .ishr),
   (0x01A, .isra),
   (0x01B, .irot),
   (0x01C, .and),
   (0x01D, .or),
   (0x01E, .xor),
   (0x01F, .andn),
   (0x020, .popc),
   (0x021, .clz),
   (0x022, .ctz),
   (0x023, .brev),
   (0x024, .bfx),
   (0x025, .bfi),
   (0x026, .lea)]

/-- The opcode map, part 2 of 6. -/
def opRows1 : List (Nat × (Slk → Instr)) :=
  [(0x027, .icmp),
   (0x028, .sel),
   (0x029, .mov),
   (0x02A, .movi),
   (0x02B, .srd),
   (0x02C, .swr),
   (0x02D, .rdlane),
   (0x02E, .wrlane),
   (0x040, .fadd),
   (0x041, .fsub),
   (0x042, .fmul),
   (0x043, .ffma),
   (0x044, .fmin),
   (0x045, .fmax),
   (0x046, .fcmp),
   (0x047, .fclass),
   (0x048, .frnd),
   (0x049, .fdot2),
   (0x060, .frcp),
   (0x061, .frsq),
   (0x062, .fsqrt),
   (0x063, .fexp2),
   (0x064, .flog2),
   (0x065, .fsin)]

/-- The opcode map, part 3 of 6. -/
def opRows2 : List (Nat × (Slk → Instr)) :=
  [(0x066, .fcos),
   (0x067, .ftanh),
   (0x070, .cvt),
   (0x071, .qblk),
   (0x072, .dqblk),
   (0x073, .bpk),
   (0x074, .bupk),
   (0x080, .shfl),
   (0x081, .ballot),
   (0x082, .vote),
   (0x083, .redx),
   (0x084, .scan),
   (0x085, .plog),
   (0x100, .ldl),
   (0x101, .stl),
   (0x102, .ldg),
   (0x103, .stg),
   (0x104, .ldc),
   (0x105, .bset),
   (0x106, .pfg),
   (0x107, .wbr),
   (0x108, fun f => if fSz f = 1 then .invrL1 f else .invr f),
   (0x109, fun f => if fOrd f = 0 then .fenceMs f else if fOrd f = 1 then .fenceAcq f else if fOrd f = 2 then .fenceRel f else .fenceAr f),
   (0x10A, .ifence)]

/-- The opcode map, part 4 of 6. -/
def opRows3 : List (Nat × (Slk → Instr)) :=
  [(0x10B, fun f => if fSz f = 1 then .rgnClose f else .rgnOpen f),
   (0x10C, .atoml),
   (0x140, .atomg),
   (0x141, .mst),
   (0x142, fun f => if fAop f = 1 then .gathList f else .gath f),
   (0x143, fun f => if fAop f = 1 then .scatList f else .scat f),
   (0x144, .walk),
   (0x145, .wprog),
   (0x146, .wst),
   (0x147, .wres),
   (0x148, .ccfg),
   (0x149, .cins),
   (0x14A, .cnear),
   (0x14B, .cmrg),
   (0x14C, .crd),
   (0x14D, .cclr),
   (0x14E, .cdump),
   (0x180, .anot),
   (0x181, .binit),
   (0x182, .bexp),
   (0x183, .barv),
   (0x184, .bwait),
   (0x185, .btry),
   (0x186, .bst)]

/-- The opcode map, part 5 of 6. -/
def opRows4 : List (Nat × (Slk → Instr)) :=
  [(0x187, .cbinit),
   (0x188, fun f => if fOpv f = 1 then .cbgetClaim f else .cbget f),
   (0x189, fun f => if fOpv f = 1 then .cbputFill f else .cbputDone f),
   (0x18A, fun f => if fOpv f = 1 then .marmLoc f else if fOpv f = 2 then .marmOff f else .marm f),
   (0x18B, .mwait),
   (0x18C, .tbar),
   (0x1C0, .orsv),
   (0x1C1, .orel),
   (0x1C2, .mzero),
   (0x1C3, .mma),
   (0x1C4, .mmab),
   (0x1C5, .mmas),
   (0x1C6, .mwt),
   (0x1C7, .mdrain),
   (0x1C8, .mprog),
   (0x1C9, .tkrd),
   (0x1CA, .tkclr),
   (0x1CB, .mstat),
   (0x1E0, .rcnt),
   (0x1E1, .rcsnap),
   (0x1E2, .xpref),
   (0x1E3, fun f => if fV f = true then .xtrainDecay f else .xtrain f),
   (0x1E4, .nfsig),
   (0x1E5, .glaunch)]

/-- The opcode map, part 6 of 6. -/
def opRows5 : List (Nat × (Slk → Instr)) :=
  [(0x1E6, .setw),
   (0x1E7, .regx),
   (0x1E8, .regr),
   (0x1F0, .bra),
   (0x1F1, fun f => if fVar f = 1 then .jmpiTab f else .jmpi f),
   (0x1F2, .call),
   (0x1F3, .ret),
   (0x1F4, .dist),
   (0x1F5, .dnext),
   (0x1F6, .dleave),
   (0x1F7, .dbrk),
   (0x1F8, .exit),
   (0x1F9, .yield),
   (0x1FA, .ipf),
   (0x1FB, .trap),
   (0x1FC, fun f => if fVar f = 1 then .tretNext f else .tret f),
   (0x1FD, .brk)]

/-- The opcode map of R46 but for the prefix. -/
def opRows : List (Nat × (Slk → Instr)) := opRows0 ++ opRows1 ++ opRows2 ++ opRows3 ++ opRows4 ++ opRows5

/-- The row of an opcode, by structural search. -/
def findRow : List (Nat × (Slk → Instr)) → Nat → Option (Slk → Instr)
  | [], _ => none
  | (n, c) :: l, opc => if n = opc then some c else findRow l opc

/-- The constructor an assigned opcode and its variant fields name (R46, R48 row 2). -/
def opInstr (opc : Nat) (f : Slk) : Option Instr := (findRow opRows opc).map fun c => c f

/-- Rows 3 and 4 of R48 for an instruction under an allocation. -/
def fate (alloc : Nat) (i : Instr) : Option Fate :=
  match i with
  | .rep p => pfxFate p
  | _ =>
    match slkParts i, shapeOf alloc i with
    | some (_, f), some h => shapeFate alloc h f
    | _, _ => none

end Sys2Proof.Machine
end

