-- ==== Sys2Proof/Config.lean ====
section
/-! DEFINITION. What one part fixes, and the free values of the manual: constants with no body. -/

namespace Sys2Proof.Config

/-- Stepping of the part, 0xB0 or 0xB1 (R1, R54). DESIGN CHOICE (log 5): B1. -/
def stepping : BitVec 8 := 0xB1
/-- Stepping family (R1). -/
def family : BitVec 8 := 1

/-- FREE (log 6): whether the early read number `n` of register key `k` sees the old value (R45). -/
opaque earlyOld : Nat → Nat → Bool
/-- FREE (log 9): the SFU's f32 pattern for function `op`, operand bits, type code and RMODE, before the
bound of R202 is applied (R201: a fixed function of these). -/
opaque sfuBits : (op : Nat) → (x : Nat) → (ty : Nat) → (rmode : Nat) → BitVec 32
/-- FREE (log 10): SM3 of a byte string (R432, R436). Named, not defined, by the manual. -/
opaque sm3 : List (BitVec 8) → BitVec 256
/-- FREE (log 10): whether an SM2 signature verifies: key hash, message, signature (R436, R437). -/
opaque sm2Verify : BitVec 256 → List (BitVec 8) → List (BitVec 8) → Bool
/-- FREE (log 10): the device identity key's signature over a message (R435). -/
opaque sm2Sign : List (BitVec 8) → List (BitVec 8)
/-- FREE (log 11): what dispatch does with a changed save image: restore it, or kill the context (R420). -/
opaque damagedImageKills : Nat → Bool
/-- FREE (log 12): the fixed replies of SPDM, by request number, that the manual does not spell out (R435). -/
opaque spdmReply : Nat → List (BitVec 8)
/-- FREE (log 13): the bytes one team's save image needs beyond its header (R420). -/
opaque imageBody : Nat → Nat
/-- FREE (log 14): the row of a memory die that holds a sector of a stack (R90). -/
opaque rowOf : (stack : Nat) → (sector : Nat) → Nat
/-- FREE (log 14): the channel of a stack that holds a sector, 32 × memory die + channel (R90). -/
opaque channelOf : (stack : Nat) → (sector : Nat) → Nat
/-- FREE (log 8): the set of a cache that holds a line, by level (0 L1, 1 L2, 2 RDC) and line. -/
opaque setOf : (level : Nat) → (line : Nat) → Nat
/-- FREE (log 14): the rest of a value the manual leaves open, numbered by use. -/
opaque freeWord : Nat → BitVec 32

end Sys2Proof.Config
end

