-- ==== Sys2Proof/Machine/State.lean ====
section
/-! DEFINITION. The state of the machine as plain data, the reasons a step can stop, and the state after reset. -/

namespace Sys2Proof.Machine

/-- The error state of an 8-byte word of media, pool or bank (R85, R121, R307). -/
inductive Ecc where
  | single | double | poison
  deriving DecidableEq, Repr

/-! ### Group-scoped records -/

/-- A base register b0-b15 (R126), with the fabric node and cache attribute its run shares. -/
structure BaseRec where
  valid : Bool
  ptr : DWord
  frame : BitVec 48
  run : BitVec 22
  bound : BitVec 58
  perm : BitVec 3
  dw : Bool
  node : BitVec 8
  ca : BitVec 2
  deriving DecidableEq, Repr

/-- A base register after reset or group start (R126, R321). -/
def BaseRec.empty : BaseRec := ⟨false, 0, 0, 0, 0, 0, false, 0, 0⟩

/-- An open class frame (R338). A closed frame is not listed. -/
structure Frame where
  kt : BitVec 4
  kreg : BitVec 7
  body : DWord
  fend : DWord
  outer : Mask
  keys : Assoc DWord
  cur : DWord
  dep : Mask
  deriving DecidableEq, Repr

/-- A reservation record o0-o7 (R220). -/
structure Rsv where
  valid : Bool
  base : BitVec 18
  len : BitVec 19
  fmt : BitVec 4
  blk : Bool
  scoff : Word
  spoff : Word
  deriving DecidableEq, Repr

/-- A reservation record after reset or group start (R220). -/
def Rsv.empty : Rsv := ⟨false, 0, 0, 0, false, 0, 0⟩

/-- A monitor (R151): a 64-byte granule of a pool (`isLocal`) or of memory, and FIRED. -/
structure Monitor where
  armed : Bool
  isLocal : Bool
  gran : Nat
  fired : Bool
  deriving DecidableEq, Repr

/-- A disarmed monitor (R321). -/
def Monitor.off : Monitor := ⟨false, false, 0, false⟩

/-- A global store on its way: where, the VA it was issued at, its cache attribute and hint, whether it is a scatter,
whether it wrote into the core's L1, its bytes (R106, R274, R382). -/
structure Store where
  loc : Nat
  va : Nat
  ca : BitVec 2
  ch : BitVec 3
  scat : Bool
  inL1 : Bool
  data : List Byte
  deriving DecidableEq, Repr

/-- An open idempotent region (R402, R403): RSTART, the snapshot, the buffered stores in program order, and whether the
region replays after a page-table entry was refused (R82). -/
structure Region where
  rstart : DWord
  frames : List Frame
  exited : Mask
  repctr : Word
  buf : List Store
  refused : Bool
  deriving DecidableEq, Repr

/-- The register files a result is written to. -/
inductive File where
  | v | s | p | q
  deriving DecidableEq, Repr

/-- One 32-bit (or one-bit) register of a group; `lane` is 0 for uniform files. -/
structure RegDst where
  file : File
  num : Nat
  lane : Nat
  deriving DecidableEq, Repr

/-- A fixed-latency result in native mode that may still be read early (R44, R45): the register, its old
value, the least clk still to pass, and whether the guards of a repeat's next iteration see it all the same (R52). -/
structure Haz where
  dst : RegDst
  old : Word
  left : Nat
  seen : Bool := false
  deriving DecidableEq, Repr

/-- What a group that issues nothing waits for. -/
inductive Wait where
  | retry                      -- the instruction repeats its check (R39, and every wait at issue)
  | fetch                      -- its line has not arrived; the group counts as ready (R332)
  | fault (ord va acc lane : Nat) (rgn : Bool) -- an answer to a posted fault (R404, R406)
  | posting (ord va acc lane : Nat) -- a fault that a full queue holds, before its PAGE trap (R406, R442)
  | mwait (limit : Option Nat) (dst sc : Nat) -- R153: the CYCLE of the timeout, D, the acquire's scope (0: none)
  | tbar (sc : Nat)            -- R154: the acquire's scope (0: none)
  | setw (r : Nat) (dst : Option Nat) -- R324, arrived with request r; D
  | regx (n : Nat)             -- R329, request queued
  deriving DecidableEq, Repr

/-- The condition of a group. -/
inductive Cond where
  | ready
  | wait (w : Wait)
  | halted (replay : Bool)     -- R413; with `replay` its open region was aborted since, and it goes on at RSTART (R405)
  | stopped                    -- fatal trap (R409)
  | ended                      -- R335
  deriving DecidableEq, Repr

/-- A group (R319, R321). Lane registers are keyed 128 × number + lane; full is unlisted. -/
structure Group where
  idx : Nat
  pc : DWord
  cond : Cond
  age : Nat
  alloc : Nat
  s : Assoc Word
  sEmpty : BitVec 128
  p : BitVec 16
  v : Assoc Word
  vEmpty : Assoc Mask
  q : Assoc Mask
  b : Assoc BaseRec
  frames : List Frame
  exited : Mask
  o : Assoc Rsv
  mon : List Monitor
  rmode : Word
  descBase : DWord
  wctl : Word
  trapInfo : Word
  trapPc : DWord
  trapAddr : DWord
  tvec : DWord
  repCtr : Word
  region : Option Region
  faultOrd : Option (Nat × Nat × Nat × Nat) -- ordinal, VA, ACC and lane of the fault of the PAGE trap in hand (R406)
  ahead : Assoc (BitVec 96)
  haz : List Haz
  bad : List (RegDst × Ecc)     -- registers whose pool word is in error (R121)
  relMark : Option Nat          -- the next operation to be posted when the group's waiting release began (R382)
  mwtMark : Option Nat          -- the first matrix operation that a waiting `mwt` does not cover (R236)
  launch : Option (BitVec 512)  -- the record that a waiting `glaunch` has read (R360)
  deriving DecidableEq, Repr

/-- A group at its formation (R321): every register 0 and full, the rest as R71, R161 and R295 state. -/
def Group.fresh (idx : Nat) (pc : DWord) (age alloc : Nat) : Group where
  idx := idx
  pc := pc
  cond := .ready
  age := age
  alloc := alloc
  s := []
  sEmpty := 0
  p := 0
  v := []
  vEmpty := []
  q := []
  b := []
  frames := []
  exited := 0
  o := []
  mon := [.off, .off, .off, .off]
  rmode := 7
  descBase := 0
  wctl := 4096
  trapInfo := 0
  trapPc := 0
  trapAddr := 0
  tvec := 0
  repCtr := 0
  region := none
  faultOrd := none
  ahead := []
  haz := []
  bad := []
  relMark := none
  mwtMark := none
  launch := none

/-! ### Teams -/

/-- The states of a bound team (R363). -/
inductive TeamSt where
  | filling | running | ended
  deriving DecidableEq, Repr

/-- A team bound to a core (R319, R322, R362). -/
structure Team where
  uid : Nat
  st : TeamSt
  core : Nat
  entry : Nat
  ctx : Nat
  grid : Nat
  teamId : Nat          -- GRID
  inCluster : Nat       -- TEAM
  cluster : Nat         -- CLUSTER
  cw : Nat
  ch : Nat
  rx0 : Nat
  ry0 : Nat
  threads : Nat         -- T
  wlo : Nat
  whi : Nat
  grant : Nat           -- G'
  gslots : Nat
  rquota : Nat
  regMin : Nat
  regMax : Nat
  prio : BitVec 2
  part : Nat
  win : Nat
  nwin : Nat
  sp : Nat              -- KiB
  ring : Nat            -- KiB
  l1 : Nat              -- KiB
  rings : BitVec 128
  nring : Nat
  banks : BitVec 4
  epi : BitVec 8
  tkOwn : Bool
  obBase : Nat          -- 4 KiB units
  obSize : Nat
  kentry : DWord
  argBase : DWord
  argSize : Nat
  codeId : Nat
  interlock : Bool
  tbar : BitVec 64
  groups : List Group
  restored : Option Nat -- the save image a FILLING team is written from (R423)
  deriving DecidableEq, Repr

/-! ### Posted operations (R36, R106, R135, R261, R284, R313, R371) -/

/-- A register and the value an operation is to write there. -/
structure RegWrite where
  dst : RegDst
  val : Word
  deriving DecidableEq, Repr

/-- One lane's share of an atomic request (R266, R267): operand and compare value. The operand of `bf16x2` is the two
merged FP32 sums. -/
structure AtomOp where
  v : DWord
  cmp : DWord
  deriving DecidableEq, Repr

/-- An atomic request to one address (R266). `lo` and `hi` tell which halves of a bf16x2 step are done (R269);
`inst` is one number for all requests of an instruction (R263). -/
structure AtomReq where
  inst : Nat
  loc : Nat
  ca : BitVec 2
  aop : Nat
  wide : Bool
  ops : List AtomOp
  rmode : Word
  lo : Bool
  hi : Bool
  deriving DecidableEq, Repr

/-- A memory-side request (R284); `held` once the home has written back and holds the line (R281). -/
structure MstReq where
  loc : Nat
  aop : Nat
  wide : Bool
  v : DWord
  rmode : Word
  held : Bool
  deriving DecidableEq, Repr

/-- A Beryl operation with its operands as read at issue (R313, R316). -/
inductive BerylOp where
  | ccfg (cfg : BitVec 256)
  | cins (lanes : List (Nat × Word × List Word)) (dst : Option Nat)
  | cnear (lanes : List (Nat × List Word)) (dst : Nat)
  | cmrg (dst : Option Nat)
  | cclr (idx : Option Nat)
  | cdump (ptr : DWord) (n : Nat) (dst : Nat) (done : Nat) (next : Nat) (begun : Bool) (susp : Option Nat)
  deriving DecidableEq, Repr

/-- A list-form gather or scatter (R276); `done` is its element progress, `susp` the fault it waits for. -/
structure Garnet where
  gather : Bool
  list : Nat
  data : Nat
  count : Nat
  size : Nat
  base : DWord
  bnd : Option Nat             -- BOUND of a base register with a region (R128)
  disp : Int
  dst : Nat
  done : Nat
  susp : Option Nat
  deriving DecidableEq, Repr

/-- What a posted operation does when it is performed. -/
inductive PendKind where
  | regs (rgn : Bool) (ws : List RegWrite) -- `rgn`: a load of the open region (R404)
  | store (st : Store)
  | media (loc len : Nat)
  | rstl (key : Nat) (data : List Byte)
  | atom (r : AtomReq)
  | mst (r : MstReq)
  | rcnt (die bank idx : Nat) (v : Word)
  | train (loc : Nat) (ctr : Nat) (m : Nat) (decay : Bool)
  | beryl (ctx bank : Nat) (op : BerylOp)
  | garnet (g : Garnet)
  deriving DecidableEq, Repr

/-- A posted operation, named, with the group that issued it. -/
structure Pend where
  id : Nat
  owner : Gid
  ctx : Nat
  core : Nat
  kind : PendKind
  deriving DecidableEq, Repr

/-! ### Engines -/

/-- A Jasper walk (R293): `park` is the fault it waits for, `stack` the engine it stands at, or waits for (R289). -/
structure Walk where
  id : Nat
  owner : Gid
  ctx : Nat
  core : Nat
  lane : Nat
  dst : Nat
  prog : List (BitVec 64)
  progNo : Nat
  rule : Nat
  p : DWord
  key : DWord
  steps : Nat
  hops : Nat
  n : Nat
  wctl : Word
  stack : Nat
  park : Option Nat
  accepted : Bool
  deriving DecidableEq, Repr

/-- Bytes of a copy's destination that stand in Agate until their aligned local word, or their global line, goes out as
one write (R172): the array they belong to (0 the box, 1 its scales, 2 its spares), their displacement from the start of
the destination, and the element they come from. -/
structure Staged where
  arr : Nat
  disp : Int
  bytes : List Byte
  elem : Nat
  deriving DecidableEq, Repr

/-- A copy command taken by Agate (R158, R162, R164): `idx` its index list (R165; none where poisoned), `box` and `objs`
the local addresses of its boxes and completion objects, `done` the elements moved, `fail` an ECODE, `stage` the bytes of
words and lines not yet whole. -/
structure Copy where
  id : Nat
  team : Nat
  core : Nat
  ring : Nat
  ordinal : Word
  ent : BitVec 256
  ext : BitVec 256
  desc : BitVec 1024
  rmode : Word
  slot : Option Nat
  idx : List (Option Word)
  box : List Nat
  objs : List Nat
  done : Nat
  fail : Option Nat
  susp : Option Nat
  stage : List Staged := []
  src : Assoc (List Byte) := []
  deriving DecidableEq, Repr

/-- Agate's own state of a ring (R157, R158, R161): CONS; the samples of the kicks not yet taken, each with the
PUB it published up to; and whether a kick or a completion makes Agate consider the ring. -/
structure RingSt where
  cons : Word
  kicks : List (Word × Word × DWord)
  due : Bool := false
  deriving DecidableEq, Repr

/-- A store, local or global, that a drain's row makes (R242, R250). -/
structure DrainStore where
  isLocal : Bool
  key : Nat
  ca : BitVec 2
  data : List Byte
  deriving DecidableEq, Repr

/-- Citrine in a row (R239): row, next word, row registers (48 × register + lane), and the row's effects so far. -/
structure CitRun where
  row : Nat
  ip : Nat
  x : Assoc Word
  stores : List DrainStore
  ranks : List (Nat × Nat × List Word)
  staged : Assoc Word
  deriving DecidableEq, Repr

/-- What a matrix-queue entry does (R214). -/
inductive MatKind where
  | zero
  | mma (form : Nat) (fa fb : BitVec 4) (desc : BitVec 256) (oa ob : Rsv)
  | drain (desc : BitVec 256) (slot : Nat)
  | prog (slot : Nat) (words : List Word) (src : DWord) -- from where it was read (R426)
  | tkrd (dst row : Nat) (lanes : List Nat)
  | tkclr (row : Option Nat)
  deriving DecidableEq, Repr

/-- An accepted matrix operation (R214, R231, R235, R239): `row` is the next row, `susp` the fault waited for. -/
structure MatOp where
  id : Nat
  owner : Gid
  ctx : Nat
  core : Nat
  bank : Nat
  pair : Bool
  kind : MatKind
  rmode : Word
  row : Nat
  started : Bool
  consts : List Word
  ts : Word
  staging : Assoc Word
  run : Option CitRun
  susp : Option Nat
  deriving DecidableEq, Repr

/-- The stored part of a bank's row progress (R231); BUSY, QUEUED and SLAVE follow from the queue. -/
structure Mrp where
  rows : Nat
  susp : Bool
  err : Bool
  ecause : BitVec 6
  addr : DWord
  deriving DecidableEq, Repr

/-- Row progress at reset (R231). -/
def Mrp.zero : Mrp := ⟨0, false, false, 0, 0⟩

/-- One entry of the running top-k (R251). -/
structure TopEnt where
  val : Word
  col : BitVec 16
  deriving DecidableEq, Repr

/-- One entry of a Beryl bank (R306). -/
structure BerylEnt where
  sum : List Word
  count : Word
  tag : Word
  deriving DecidableEq, Repr

/-- A carved Beryl bank (R303, R306, R307): `bad` its poisoned entries, `ecc` the errors of its 8-byte words that no operation
has met yet, by word. -/
structure Bank where
  ways : Nat
  cfg : BitVec 256
  configured : Bool
  spcnt : Nat
  ents : Assoc BerylEnt
  bad : List Nat
  ecc : Assoc Ecc
  deriving DecidableEq, Repr

/-! ### Caches and media -/

/-- A line of an L2 slice (R96, R99): valid, dirty and poison by 64-byte sector. -/
structure L2Line where
  data : LineData
  valid : BitVec 2
  dirty : BitVec 2
  poison : BitVec 2
  deriving DecidableEq, Repr

/-- A line of a die's remote-data cache (R96, R102): valid and dirty by byte, poison by sector, and the sectors that a
store of all their bytes has written since the last write-back (R88). -/
structure RdcLine where
  data : LineData
  valid : Mask
  dirty : Mask
  poison : BitVec 2
  whole : BitVec 2
  deriving DecidableEq, Repr

/-- A line of a core's L1 (R105): poison by sector, and the error state of its pool words (R121). -/
structure L1Line where
  data : LineData
  poison : BitVec 2
  ecc : Assoc Ecc
  deriving DecidableEq, Repr

/-- The caches whose lines have a priority (R96, R109). -/
inductive Level where
  | l1 | l2 | rdc
  deriving DecidableEq, Repr

/-- A line held at evict-first or at keep priority (R109), by the key of its cache. -/
structure LinePrio where
  level : Level
  key : Nat
  keep : Bool
  deriving DecidableEq, Repr

/-- A cached translation (R399): the leaf entry as it was walked. -/
structure Tlb where
  leaf : BitVec 64
  level : Nat
  deriving DecidableEq, Repr

/-! ### Contexts -/

/-- A queue descriptor and the record the front end holds of it (R352, R355). -/
inductive QSt where
  | idle
  | held (r : BitVec 512)      -- taken and checked, in WAIT
  | met (r : BitVec 512)       -- its fence has reached TARGET (R357)
  | acq (r : BitVec 512)       -- past WAIT and ACQ: DIMS, SIG or DONE is next
  | dims (r : BitVec 512) (k : BitVec 1024) (w : BitVec 128) -- past the reads and checks of DIMS, for a free entry
  deriving DecidableEq, Repr

/-- A queue of a context (R352). -/
structure Queue where
  qbase : DWord
  qlog2 : BitVec 4
  pub : Word
  cons : Word
  err : Bool
  stop : Bool
  ecode : BitVec 8
  eidx : Word
  st : QSt
  deriving DecidableEq, Repr

/-- A queue descriptor at reset (R352). -/
def Queue.zero : Queue := ⟨0, 0, 0, 0, false, false, 0, 0, .idle⟩

/-- The states of a context (R416, R417). -/
inductive CtxSt where
  | running | draining | saving | saved | drained | restoring | killed
  deriving DecidableEq, Repr

/-- An unanswered or answered fault (R400, R442): its page, access kind, agent, and the answer. -/
structure FaultRec where
  ord : Nat
  va : DWord
  acc : Nat
  agent : DWord
  answer : Option Bool         -- some true: RESIDENT; some false: DECLINE
  deriving DecidableEq, Repr

/-- A measurement of the context's log (R432). -/
structure Measured where
  ordinal : Nat
  hash : BitVec 256
  sv : Word
  inUse : Bool
  segs : List (DWord × DWord)
  deriving DecidableEq, Repr

/-- A pending regx request (R329). -/
structure RegxReq where
  g : Gid
  n : Nat
  dst : Option Nat
  deriving DecidableEq, Repr

/-- A saved team (R419, R420): the team record, where its image stands, the header, and what it owned in the core, keyed
from the start of each window, bank and slot. -/
structure Image where
  team : Team
  addr : DWord
  header : BitVec 512
  scratch : Assoc Byte
  ringW : Assoc Byte
  poolErr : Assoc Ecc
  opbuf : Assoc Byte
  acc : Assoc Word
  mrp : Assoc Mrp
  matq : List MatOp
  epi : Assoc (List Word)
  epiSrc : Assoc DWord
  top : Assoc (List TopEnt)
  copies : List Copy
  rings : Assoc RingSt
  walks : List Walk
  lists : List Pend
  codes : List Nat             -- the measured objects that the team points into (R426)
  seed : Nat                   -- names the bytes of the image that the manual leaves to the stepping (R420, log 18)
  deriving DecidableEq, Repr

/-- A context block and what the device holds for the context (R352, R357, R416, R432, R441, R442). -/
structure Ctx where
  sys : Bool                   -- a system-software context (R82)
  queues : Assoc Queue
  fences : Assoc DWord
  force : Bool
  req : Bool
  st : CtxSt
  limit : BitVec 24
  reqAgain : Option Word       -- a REQ written while not RUNNING (R417)
  interlock : Bool
  debug : Bool
  minsv : Word
  saveBase : DWord
  btBase : DWord
  ptRoot : DWord
  fqBase : DWord
  fqPub : Word
  fqCons : Word
  eqBase : DWord
  eqPub : Word
  eqCons : Word
  bgrant : BitVec 256
  rgrant : BitVec 16
  part : BitVec 4
  cmr : BitVec 256
  log : List Measured
  measReqs : List DWord        -- MEASURE requests not yet carried out, oldest first (R432)
  progs : Assoc (List (BitVec 64))
  faults : List FaultRec
  heldFaults : List FaultRec
  heldEvents : Nat             -- event records that a full queue or a held line keeps back (R442, R443)
  events : List (Nat × List DWord) -- events posted, latest first: code of this model and data (log 16)
  unloads : List (Nat × List Nat) -- deferred unloads: the ordinal, and the teams that still hold it (R426)
  images : Assoc Image
  deriving DecidableEq, Repr

/-- A context block at reset (R352, R357, R416, R441; the values no rule states: log 4). -/
def Ctx.zero : Ctx where
  sys := false
  queues := []
  fences := []
  force := false
  req := false
  st := .running
  limit := 2000
  reqAgain := none
  interlock := false
  debug := false
  minsv := 0
  saveBase := 0
  btBase := 0
  ptRoot := 0
  fqBase := 0
  fqPub := 0
  fqCons := 0
  eqBase := 0
  eqPub := 0
  eqCons := 0
  bgrant := 0
  rgrant := 0
  part := 0
  cmr := 0
  log := []
  measReqs := []
  progs := []
  faults := []
  heldFaults := []
  heldEvents := 0
  events := []
  unloads := []
  images := []

/-! ### Die, core and device blocks -/

/-- A performance monitor of a die (R445). -/
structure PerfMon where
  src : BitVec 8
  inst : BitVec 8
  en : Bool
  min : Word
  max : Word
  bins : Assoc Word
  mark : Nat                   -- the slips of the core when SRC 4 was sampled last
  deriving DecidableEq, Repr

/-- A monitor at reset (R445). -/
def PerfMon.zero : PerfMon := ⟨0, 0, false, 0xFFFFFFFF, 0, [], 0⟩

/-- An Icmar link (R444). -/
structure Link where
  lanes : Nat
  retries : BitVec 16
  deriving DecidableEq, Repr

/-- A link at reset: eight lanes up (PRESUMED, log 4). -/
def Link.zero : Link := ⟨8, 0⟩

/-- A die block (R440, R364, R445) and the die's own counts. -/
structure Die where
  scrub : Word
  scrubNow : Word              -- the period of the pass under way (R440)
  chthr : Word
  partq : Assoc DWord
  links : Assoc Link
  mons : Assoc PerfMon
  counters : Assoc Word        -- routing counters, 256 × bank + index (R370)
  harts : BitVec 4              -- Spinel harts that run (R14, R448)
  spares : Nat
  retired : List Nat           -- retired slices (R100)
  clock : Nat                  -- core clock in MHz (R446, R449)
  hot : Bool                   -- thermal throttle in force (R449)
  junction : BitVec 8          -- its junction temperature (R440)
  deriving DecidableEq, Repr

/-- A die at reset (R12, R14, R364, R440, R446). -/
def Die.zero : Die where
  scrub := 24
  scrubNow := 24
  chthr := 256
  partq := []
  links := []
  mons := []
  counters := []
  harts := 15
  spares := 8
  retired := []
  clock := 550
  hot := false
  junction := 0

/-- The reset value of PARTQp (R364): GSLOT 64, REG 3,072, LMEM 3,072, TEAMS 16. -/
def partqReset : DWord := 0x0010_0C00_000C_0040#64

/-- The boundary registers of a core (R117). -/
structure Pb where
  reg : Nat
  sp : Nat
  ring : Nat
  deriving DecidableEq, Repr

/-- The boundary registers at reset (R117). -/
def Pb.zero : Pb := ⟨0x100, 0x140, 0x160⟩

/-- DSTAT.PHASE (R440, R446). -/
inductive Phase where
  | early | ready | run
  deriving DecidableEq, Repr

/-- A record of the event log (R447). -/
structure EvRec where
  code : BitVec 8
  die : BitVec 8
  seq : Word
  cycle : DWord
  data : DWord
  deriving DecidableEq, Repr

/-- A slot table entry and its state (R362, R363). -/
inductive SlotSt where
  | free | pending | filling | running | ended | saved | refused
  deriving DecidableEq, Repr

/-- A slot table entry (R362). -/
structure Slot where
  v : BitVec 256
  st : SlotSt
  deriving DecidableEq, Repr

/-- The boot and firmware state (R435 to R438). -/
structure Boot where
  fw : Option FwImage          -- the image in place
  started : Bool               -- Spinel runs
  window : Bool                -- the recovery window is open
  fuses : Nat                  -- blown bits of the counter
  aminil : BitVec 256
  owners : Assoc (BitVec 256)
  ownerOnly : Bool
  recovery : Bool              -- DCTL.RECOVERY
  cert1 : List Byte
  out : List (Nat × List Byte) -- SPDM responses, latest first: request number, content
  deriving DecidableEq, Repr

/-- What parts of the device do by themselves, besides the event rows of the opcode table (log 28). -/
inductive Own where
  | icacheEvict (quad line : Nat)            -- R11, R389
  | l1Evict (core line : Nat)                -- R96
  | rdcEvict (die line : Nat)                -- R102
  | fetchAhead (g : Gid) (pc : DWord)        -- R334, R389
  | mediaUpset (word : Nat) (e : Ecc)        -- R85
  | poolUpset (word : Nat) (e : Ecc)         -- R121
  | registerUpset (g : Gid) (d : RegDst) (e : Ecc) -- R121
  | l1Upset (core line word : Nat) (e : Ecc) -- R121
  | bankUpset (bank word : Nat) (e : Ecc)    -- R307
  | linkRetry (die link : Nat)               -- R444
  | filterEvict (line : Nat)                 -- R443
  deriving DecidableEq, Repr

/-- Who moves next: a group issues, Citrine or a walk performs its next word, or an event happens (log 1). -/
inductive Turn where
  | group (g : Gid)
  | citrine (core : Nat)
  | walk (id : Nat)
  | event (e : Instr)
  | own (o : Own)
  deriving DecidableEq, Repr

/-- The state of the device. -/
structure State where
  -- the model's own fields (logs 1, 6)
  agenda : List Turn
  cur : Gid
  curCore : Nat
  curWalk : Nat
  fresh : Nat
  nextId : Nat
  -- media and caches
  mem : List Host.Cell         -- media and host memory, by location: 2^48 × node + physical address
  ecc : Assoc Ecc              -- by location / 8
  rowErrs : Assoc Nat          -- corrected errors of a row in this scrub period (R90)
  rowBad : List Nat            -- rows with an uncorrectable error, not yet spared for it (R90)
  chErrs : Assoc Nat           -- corrected errors of a channel in this pass (R90, R440)
  spared : List Nat            -- spared rows and channels (R90)
  l2 : Assoc L2Line            -- by location / 128
  snoop : List Nat             -- lines the host may hold (R443)
  biOut : List (Nat × Bool)    -- back-invalidate snoops sent and not answered: line, BISnpInv (R443)
  rdc : Assoc RdcLine          -- by key2 die line
  l1 : Assoc L1Line            -- by key2 core line
  icache : Assoc LineData      -- by key2 quad line
  prios : List LinePrio        -- lines above or below normal priority, oldest first (R109)
  tlb : Assoc Tlb              -- by key2 context page
  btlb : Assoc (BitVec 128)    -- cached bounds entries, by key2 context region
  -- cores
  pb : Assoc Pb
  pool : Assoc Byte            -- by 2^21 × core + offset
  poolErr : Assoc Ecc          -- by pool key / 8
  acc : Assoc Word             -- by ((core × 4 + bank) × 64 + row) × 48 + column
  mrp : Assoc Mrp              -- by core × 4 + bank
  opbuf : Assoc Byte           -- by 2^18 × core + offset
  matq : List MatOp            -- acceptance order
  epi : Assoc (List Word)      -- loaded Citrine slots, by core × 8 + slot
  epiSrc : Assoc DWord         -- the address each slot's program was read from (R426)
  top : Assoc (List TopEnt)    -- by core × 128 + row
  rings : Assoc RingSt         -- by key2 team ring
  agateLast : Assoc Nat        -- the ring Agate served last, by 2 × core, plus 1 for the set with PRIO (R159)
  copies : List Copy           -- taken, in the order taken
  walks : List Walk
  regx : List RegxReq          -- oldest request first
  idle : Assoc Nat             -- clk without an issue, by core (R331)
  skips : Assoc Nat            -- issues of its core that passed over a ready group, by key2 team group (R332)
  slips : Assoc Nat            -- schedule slips (R366)
  slots : Assoc Slot           -- by core × 64 + entry
  teams : List Team
  nextAge : Nat
  pend : List Pend             -- posted operations, oldest first
  -- dies, contexts, device
  dies : Assoc Die
  beryl : Assoc Bank
  ctxs : Assoc Ctx
  grids : Assoc GridEntry      -- active-grid table (R355)
  gridOrder : List Nat         -- its entries in the order they became active (R365)
  phase : Phase
  plimit : Word
  power : BitVec 16
  coolant : BitVec 8
  fabid : BitVec 8
  domain : List Nat            -- FABIDs present and routed (R444)
  vfmap : Assoc (BitVec 256)
  elHead : Word
  log : List EvRec             -- latest first, at most 4,096
  cycle : DWord
  boot : Boot
  hostOut : List (Nat × List Byte × Bool) -- replies to host and peer reads: location, bytes, poisoned; latest first
  deriving DecidableEq, Repr

/-- Why the machine stops. -/
inductive Fault where
  /-- Raised by the meaning of an SLK instruction when `cur` names no group: no instruction is executing.
  `step` never lets it arise. Safe: nothing follows from it. -/
  | noGroup
  /-- Raised by the meaning of a Citrine word when no row runs, and of a rule when no walk is at hand.
  `step` never lets it arise. Safe. -/
  | noEngine
  /-- Raised by the meaning of a Citrine word that breaks R245 (a type or mode code the table of R246 calls
  invalid): `mprog` refuses such a program, so no drain runs one. Safe. -/
  | invalidCitrine
  deriving DecidableEq, Repr

/-- Why an instruction has no meaning here. -/
inductive Refusal where
  /-- Raised by an arm of `exec` whose instruction has no meaning yet. Safe: the run stops. -/
  | notModelled (mnemonic : String)
  deriving DecidableEq, Repr

/-- The answer of a step. -/
abbrev Out := Host.Outcome State Fault Refusal

/-- The boot ROM's state at reset (R436 to R438; no fuse or image is given: log 5). -/
def Boot.zero : Boot := ⟨none, false, false, 0, 0, [], false, false, [], []⟩

/-- The machine right after reset: early service, nothing resident, every cache empty (R446, R83). -/
def State.reset : State where
  agenda := []
  cur := ⟨0, 0⟩
  curCore := 0
  curWalk := 0
  fresh := 0
  nextId := 1
  mem := []
  ecc := []
  rowErrs := []
  rowBad := []
  chErrs := []
  spared := []
  l2 := []
  snoop := []
  biOut := []
  rdc := []
  l1 := []
  icache := []
  prios := []
  tlb := []
  btlb := []
  pb := []
  pool := []
  poolErr := []
  acc := []
  mrp := []
  opbuf := []
  matq := []
  epi := []
  epiSrc := []
  top := []
  rings := []
  agateLast := []
  copies := []
  walks := []
  regx := []
  idle := []
  skips := []
  slips := []
  slots := []
  teams := []
  nextAge := 0
  pend := []
  dies := []
  beryl := []
  ctxs := []
  grids := []
  gridOrder := []
  phase := .early
  plimit := 3600
  power := 0
  coolant := 0
  fabid := 0
  domain := []
  vfmap := []
  elHead := 0
  log := []
  cycle := 0
  boot := .zero
  hostOut := []

end Sys2Proof.Machine
end

