-- ==== Sys2Proof/Machine/Mem.lean ====
section
/-! DEFINITION. Media, L2, RDC and L1 (chapters 04 and 05), the pool (06), the event log (R447) and what a
write fires (R152). A location is 2^48 × fabric node + physical address. -/

namespace Sys2Proof.Machine

/-! ### Bytes of media and host memory -/

/-- What a byte nothing has written reads as (log 3). -/
def unlisted : Byte := 0

/-- Read one byte. -/
def memByte (m : List Host.Cell) (a : Nat) : Byte := Assoc.rd unlisted m a

/-- Write one byte, keeping the canonical form. -/
def memPut (m : List Host.Cell) (a : Nat) (b : Byte) : List Host.Cell := Assoc.wr unlisted m a b

/-- The `n` bytes from `a`. -/
def memBytes (m : List Host.Cell) (a : Nat) : Nat → List Byte
  | 0 => []
  | n + 1 => memByte m a :: memBytes m (a + 1) n

/-- Write bytes from `a` on. -/
def memPuts (m : List Host.Cell) (a : Nat) : List Byte → List Host.Cell
  | [] => m
  | b :: bs => memPuts (memPut m a b) (a + 1) bs

/-- The canonical form: addresses rising strictly, no entry equal to an unlisted byte. -/
def Memory.wf (m : List Host.Cell) : Bool := Assoc.sorted m && m.all (fun c => decide (c.2 ≠ unlisted))

/-! ### Where an address lives -/

/-- The fabric node of a location (R396). -/
def nodeOf (loc : Nat) : Nat := loc / 2 ^ 48
/-- Its physical address (R81). -/
def paOf (loc : Nat) : Nat := loc % 2 ^ 48
/-- It lies in a die window of this device (R81). -/
def isDev (loc : Nat) : Bool := decide (loc < 2 ^ 40)
/-- It lies in host memory, on whatever node (R81). -/
def isHost (loc : Nat) : Bool := decide (2 ^ 40 ≤ paOf loc ∧ paOf loc < 2 ^ 47)
/-- The home die (R81). -/
def dieOf (loc : Nat) : Nat := loc / 2 ^ 38
/-- The offset in the die's window (R81). -/
def winOff (loc : Nat) : Nat := loc % 2 ^ 38
/-- The home stack (R84). -/
def stackOf (loc : Nat) : Nat :=
  let g := winOff loc / 4096
  3 * dieOf loc + (g + popCount 24 (g / 3)) % 3
/-- The address within the stack (R84). -/
def stackAddr (loc : Nat) : Nat := winOff loc / 4096 / 3 * 4096 + loc % 4096
/-- The slice number of R98. -/
def sliceNo (loc : Nat) : Nat :=
  let o := winOff loc
  field o 7 6 ^^^ field o 13 6 ^^^ field o 19 6 ^^^ field o 25 6 ^^^ field o 31 6 ^^^ field o 37 1
/-- The die block of die `d`. -/
def State.die (s : State) (d : Nat) : Die := (Assoc.get? s.dies d).getD .zero
/-- Replace a die block. -/
def State.setDie (s : State) (d : Nat) (x : Die) : State := { s with dies := Assoc.put s.dies d x }
/-- The order in which the slices of a die take over for slice `n` (R100). -/
def takeOver (n : Nat) : List Nat :=
  ([32, 16, 48, 8, 24, 40, 56] ++ ((List.range 64).filter fun m => m ≠ 0 ∧ m % 8 ≠ 0)).map (n ^^^ ·)
/-- The slice that holds a slice's lines after retirements, latest first: a retirement moves what the slice held on, in
the slice's own order, to the first that stood then (R100). -/
def movedTo (n : Nat) : List Nat → Nat
  | [] => n
  | r :: rs =>
    let m := movedTo n rs
    if m = r then ((takeOver r).find? fun k => !(r :: rs).contains k).getD m else m
/-- The slice that is home to a location once retirements are counted (R100). -/
def homeSlice (s : State) (loc : Nat) : Nat := movedTo (sliceNo loc) (s.die (dieOf loc)).retired
/-- The slice of another die's RDC that holds a line (R98). -/
def rdcSlice (loc : Nat) : Nat := sliceNo loc % 16
/-- A physical address of this device's map that is backed (R81, R83). -/
def backed (s : State) (pa : Nat) : Bool :=
  if pa < 2 ^ 40 then
    if s.phase = .run then decide (pa % 2 ^ 38 < 0x30_0000_0000) else decide (pa < 2 ^ 27)
  else decide (pa < 2 ^ 47)
/-- Management register space (R81). -/
def isMgmt (pa : Nat) : Bool := decide (0x8000_0000_0000 ≤ pa ∧ pa < 0x8001_0000_0000)

/-- The segments of [a, a + n) cut at multiples of `step`. -/
def segsFrom (step : Nat) : Nat → Nat → Nat → List (Nat × Nat)
  | 0, _, _ => []
  | k + 1, a, n =>
    if n = 0 then [] else
      let m := min n (step - a % step)
      (a, m) :: segsFrom step k (a + m) (n - m)
/-- The segments of [a, a + n) cut at multiples of `step`. -/
def segs (step a n : Nat) : List (Nat × Nat) := segsFrom step n a n
/-- The same, with the bytes that fall in each. -/
def dataSegs (step a : Nat) (bs : List Byte) : List (Nat × List Byte) :=
  (segs step a bs.length).map fun (b, m) => (b, (bs.drop (b - a)).take m)

/-! ### Events -/

/-- Append an event record (R447). What a code's data hold, 'address, unit or count', is the model's choice (log 29). -/
def logEvent (s : State) (code die data : Nat) : State :=
  { s with
    elHead := s.elHead + 1
    log := (⟨BitVec.ofNat 8 code, BitVec.ofNat 8 die, s.elHead, s.cycle, BitVec.ofNat 64 data⟩ :: s.log).take 4096 }

/-- A monitor after a write to a granule (R152). -/
def Monitor.after (isLocal : Bool) (gran : Nat) (m : Monitor) : Monitor :=
  if m.armed && m.isLocal == isLocal && m.gran == gran then { m with fired := true } else m
/-- The groups of a team after a write to a granule (R152). -/
def Team.fire (isLocal : Bool) (gran : Nat) (t : Team) : Team :=
  { t with groups := t.groups.map fun g => { g with mon := g.mon.map (Monitor.after isLocal gran) } }
/-- Fire every monitor armed on a granule (R152). -/
def fire (isLocal : Bool) (gran : Nat) (s : State) : State :=
  { s with teams := s.teams.map (Team.fire isLocal gran) }

/-! ### The base-die controller (R85 to R95) -/

/-- The error states of the eight words of a sector. -/
def sectorEcc (s : State) (sec : Nat) : List (Nat × Option Ecc) :=
  (List.range 8).map fun i => (8 * sec + i, Assoc.get? s.ecc (8 * sec + i))
/-- Give every word of a sector one error state, or none. -/
def setSectorEcc (s : State) (sec : Nat) (e : Option Ecc) : State :=
  { s with ecc := (List.range 8).foldl (init := s.ecc) fun m i =>
      match e with | some x => Assoc.put m (8 * sec + i) x | none => Assoc.del m (8 * sec + i) }
/-- Count a corrected error in its row and its channel, and log it (R86, R90). One record for each corrected word, with
the stack address of its sector as data, is the model's choice (log 29). -/
def countRow (s : State) (loc : Nat) : State :=
  let k := key2 (stackOf loc) (Config.rowOf (stackOf loc) (stackAddr loc / 64))
  let c := key2 (stackOf loc) (Config.channelOf (stackOf loc) (stackAddr loc / 64))
  logEvent { s with rowErrs := Assoc.put s.rowErrs k (Assoc.rd 0 s.rowErrs k + 1)
                    chErrs := Assoc.put s.chErrs c (Assoc.rd 0 s.chErrs c + 1) } 0x07 (dieOf loc) (stackAddr loc)
/-- Correct the words of a sector that have a single-bit error, each counted (R86). -/
def correctSector (s : State) (sec : Nat) : State :=
  ((sectorEcc s sec).filter fun e => e.2 == some .single).foldl (init := s) fun s e =>
    countRow { s with ecc := Assoc.del s.ecc e.1 } (64 * sec)
/-- The controller resolves a sector it reads, word by word (R86), and keeps the row of an uncorrectable error for sparing
(R90); the Bool tells whether the sector is poisoned. -/
def resolveSector (s : State) (sec : Nat) : State × Bool :=
  let es := (sectorEcc s sec).map (·.2)
  let s := if es.any (· = some .single) then correctSector s sec else s
  if es.any (· = some .double) then
    let k := key2 (stackOf (64 * sec)) (Config.rowOf (stackOf (64 * sec)) (stackAddr (64 * sec) / 64))
    (logEvent (setSectorEcc { s with rowBad := if s.rowBad.contains k then s.rowBad else k :: s.rowBad } sec (some .poison))
      0x08 (dieOf (64 * sec)) (stackAddr (64 * sec)), true)
  else (s, es.any (· = some .poison))
/-- The controller writes a whole sector (R91, R92). -/
def mediaWrite (s : State) (sec : Nat) (bs : List Byte) (poison : Bool) : State :=
  setSectorEcc { s with mem := memPuts s.mem (64 * sec) bs } sec (if poison then some .poison else none)

/-! ### L2 slices (R97 to R99) -/

/-- A line of an L2 slice, empty where none is held. -/
def l2Get (s : State) (line : Nat) : L2Line := (Assoc.get? s.l2 line).getD ⟨0, 0, 0, 0⟩
/-- Replace an L2 line. -/
def l2Put (s : State) (line : Nat) (l : L2Line) : State := { s with l2 := Assoc.put s.l2 line l }
/-- Set or clear one bit of a two-bit mask. -/
def bit2 (m : BitVec 2) (i : Nat) (b : Bool) : BitVec 2 :=
  let x : BitVec 2 := 1#2 <<< i
  if b then m ||| x else m &&& ~~~x
/-- Fill one sector of a line from media where it is not valid (R99). -/
def l2Fill (s : State) (line sec : Nat) : State × L2Line :=
  let l := l2Get s line
  if l.valid.getLsbD sec then (s, l) else
    let (s, p) := resolveSector s (2 * line + sec)
    let l' : L2Line := { l with
      data := setLine l.data (64 * sec) (memBytes s.mem (128 * line + 64 * sec) 64)
      valid := bit2 l.valid sec true
      dirty := bit2 l.dirty sec false
      poison := bit2 l.poison sec p }
    (l2Put s line l', l')
/-- Fill both sectors. -/
def l2FillLine (s : State) (line : Nat) : State × L2Line := l2Fill (l2Fill s line 0).1 line 1
/-- Write the dirty sectors of a line to media; the line stays valid and clean (R99, R113). -/
def l2CleanSec (s : State) (line sec : Nat) : State :=
  let l := l2Get s line
  if l.dirty.getLsbD sec then
    l2Put (mediaWrite s (2 * line + sec) (lineBytes l.data (64 * sec) 64) (l.poison.getLsbD sec)) line
      { l with dirty := bit2 l.dirty sec false }
  else s
/-- Clean both sectors of a line. -/
def l2Clean (s : State) (line : Nat) : State := l2CleanSec (l2CleanSec s line 0) line 1
/-- Evict a line: dirty data go to media, the line is dropped, monitors on it fire (R99, R152). -/
def l2Evict (s : State) (line : Nat) : State :=
  let s := l2Clean s line
  fire false (2 * line) (fire false (2 * line + 1) { s with l2 := Assoc.del s.l2 line })
/-- The home slice accepts a write that lies in one sector (R97, R99, R88). -/
def l2Write (s : State) (loc : Nat) (bs : List Byte) : State :=
  let line := loc / 128
  let sec := loc % 128 / 64
  let whole := bs.length == 64
  let (s, l) := if whole then (s, l2Get s line) else l2Fill s line sec
  let s := if !whole && l.poison.getLsbD sec then s else
    l2Put s line { l with
      data := setLine l.data (loc % 128) bs
      valid := bit2 l.valid sec true
      dirty := bit2 l.dirty sec true
      poison := bit2 l.poison sec (l.poison.getLsbD sec && !whole) }
  fire false (loc / 64) s

/-! ### The home of any location -/

/-- Any sector of [loc, loc + n) is poisoned in the home's line. -/
def poisonIn (p : BitVec 2) (off n : Nat) : Bool :=
  (segs 64 off n).any fun (a, _) => p.getLsbD (a % 128 / 64)
/-- Management register space of this device. -/
def inMgmt (loc : Nat) : Bool := nodeOf loc == 0 && isMgmt loc
/-- An access of a size or alignment management space does not have is refused and logged (R439, R447). -/
def mgmtRefuse (s : State) (loc : Nat) : State := logEvent s 0x0D 0 (loc % 2 ^ 32)
/-- The home delivers the line of a location, with its sector poison. Host and peer memory has no L2 here (R17):
its bytes are read directly. -/
def homeLine (s : State) (line : Nat) : State × LineData × BitVec 2 :=
  if inMgmt (128 * line) then (mgmtRefuse s (128 * line), 0, 0)
  else if isDev (128 * line) then
    let (s, l) := l2FillLine s line
    (s, l.data, l.poison)
  else
    let p (i : Nat) := (sectorEcc s (2 * line + i)).any fun e => e.2 == some .poison || e.2 == some .double
    (s, BitVec.ofNat 1024 (ofBytes (memBytes s.mem (128 * line) 128)), bit2 (bit2 0 0 (p 0)) 1 (p 1))
/-- The home accepts a write (R97, R110). -/
def homeWrite (s : State) (loc : Nat) (bs : List Byte) : State :=
  (dataSegs 64 loc bs).foldl (init := s) fun s (a, d) =>
    if inMgmt a then mgmtRefuse s a
    else if isDev a then l2Write s a d
    else
      let bad := (sectorEcc s (a / 64)).any fun e => e.2 == some .poison || e.2 == some .double
      if bad && d.length != 64 then s
      else
        let s := if bad then setSectorEcc s (a / 64) none else s
        { s with mem := memPuts s.mem a d }
/-- The home reads bytes; the Bool tells whether a sector of them is poisoned. -/
def homeRead (s : State) (loc n : Nat) : State × List Byte × Bool :=
  (segs 128 loc n).foldl (init := (s, [], false)) fun (s, bs, p) (a, m) =>
    let (s, d, q) := homeLine s (a / 128)
    (s, bs ++ lineBytes d (a % 128) m, p || poisonIn q (a % 128) m)
/-- Poison the sectors of a range at its home (R88, R92, R318). -/
def homePoison (s : State) (loc n : Nat) : State :=
  (segs 64 loc n).foldl (init := s) fun s (a, _) =>
    if isDev a then
      let (s, l) := l2Fill s (a / 128) (a % 128 / 64)
      l2Put s (a / 128) { l with poison := bit2 l.poison (a % 128 / 64) true
                                 dirty := bit2 l.dirty (a % 128 / 64) true }
    else setSectorEcc s (a / 64) (some .poison)
/-- A little-endian number at the home. That a page walk or a read of the bounds table that meets a poisoned sector uses the
bytes as stored is the model's choice: R87 names no such reader (log 29). -/
def homeNat (s : State) (loc n : Nat) : State × Nat :=
  let (s, bs, _) := homeRead s loc n
  (s, ofBytes bs)
/-- A home holds a line for a Peridot request not yet performed (R281). -/
def peridotHolds (s : State) (line : Nat) : Bool := s.pend.any fun p => match p.kind with
  | .mst r => r.held && r.loc / 128 == line
  | _ => false
/-- An access to the range must wait: the host may hold a line of it (R443), or its home holds it (R281). -/
def lineHeld (s : State) (loc n : Nat) : Bool :=
  (segs 128 loc n).any fun (a, _) => s.snoop.contains (a / 128) || peridotHolds s (a / 128)

/-- A home that needs lines the host may hold sends it a snoop for each, BISnpInv for a write (R443). -/
def biSend (s : State) (loc n : Nat) (inv : Bool) : State :=
  let ls := (segs 128 loc n).map fun (a, _) => a / 128
  { s with biOut := s.biOut ++ (ls.filter fun l => s.snoop.contains l && !s.biOut.any fun x => x.1 == l).map (·, inv) }

/-! ### The remote-data cache (R101 to R104) -/

/-- The RDC of die `d` may hold the location: it is homed elsewhere (R101). -/
def isRemote (d loc : Nat) : Bool := !(isDev loc && dieOf loc == d)
/-- An RDC line, empty where none is held. -/
def rdcGet (s : State) (d line : Nat) : RdcLine := (Assoc.get? s.rdc (key2 d line)).getD ⟨0, 0, 0, 0, 0⟩
/-- Replace an RDC line; one with no valid byte is not held. -/
def rdcPut (s : State) (d line : Nat) (r : RdcLine) : State :=
  { s with rdc := if r.valid = 0 then Assoc.del s.rdc (key2 d line) else Assoc.put s.rdc (key2 d line) r }
/-- One sector's dirty bytes go to the home: as a whole sector where a store wrote all of it, or where all of it is dirty and
the home slice would have to fill it (R99), else byte by byte. A poisoned sector takes its poison along, and either way the
home's acceptance fires monitors (R88, R102, R152). -/
def rdcBackSec (r : RdcLine) (line : Nat) (s : State) (sec : Nat) : State :=
  let loc := 128 * line + 64 * sec
  let ds := (List.range 64).filter fun i => r.dirty.getLsbD (64 * sec + i)
  if ds.isEmpty then s
  else if r.poison.getLsbD sec then
    let s := homePoison s loc 64
    if isDev loc then fire false (loc / 64) s else s
  else if r.whole.getLsbD sec || (decide (64 ≤ ds.length) && isDev loc && !(l2Get s line).valid.getLsbD sec) then homeWrite s loc (lineBytes r.data (64 * sec) 64)
  else ds.foldl (init := s) fun s i => homeWrite s (loc + i) [lineByte r.data (64 * sec + i)]
/-- Send the dirty bytes of a line to the home; the line stays valid and clean (R102). -/
def rdcWriteBack (s : State) (d line : Nat) : State :=
  let r := rdcGet s d line
  if r.dirty = 0 then s else rdcPut ([0, 1].foldl (rdcBackSec r line) s) d line { r with dirty := 0, whole := 0 }
/-- Drop a line, writing its dirty bytes back first (R109, R113). -/
def rdcDrop (s : State) (d line : Nat) : State :=
  let s := rdcWriteBack s d line
  { s with rdc := Assoc.del s.rdc (key2 d line) }
/-- The other dies whose RDC holds a line. -/
def otherDies (s : State) (d line : Nat) : List Nat :=
  (List.range 4).filter fun k => k != d && (Assoc.get? s.rdc (key2 k line)).isSome
/-- A die takes a line of host memory for itself: the other dies' RDCs write back and give it up (R101, R271). -/
def hostOwn (s : State) (d loc : Nat) : State :=
  if isHost loc then (otherDies s d (loc / 128)).foldl (fun s k => rdcDrop s k (loc / 128)) s else s
/-- A die takes a line of host memory to read: the other dies' RDCs write their dirty bytes back (R101). -/
def hostShare (s : State) (d loc : Nat) : State :=
  if isHost loc then (otherDies s d (loc / 128)).foldl (fun s k => rdcWriteBack s k (loc / 128)) s else s
/-- A store accepted at an RDC, in one sector (R88, R101, R102). -/
def rdcWriteSeg (s : State) (d loc : Nat) (bs : List Byte) : State :=
  let s := hostOwn s d loc
  let line := loc / 128
  let sec := loc % 128 / 64
  let r := rdcGet s d line
  let whole := bs.length == 64
  if !whole && r.poison.getLsbD sec then s else
    let m : Mask := BitVec.ofNat 128 (onesAt (loc % 128) bs.length)
    rdcPut s d line { data := setLine r.data (loc % 128) bs, valid := r.valid ||| m, dirty := r.dirty ||| m,
                      poison := bit2 r.poison sec (r.poison.getLsbD sec && !whole)
                      whole := bit2 r.whole sec (r.whole.getLsbD sec || whole) }
/-- A store accepted at an RDC (R102). -/
def rdcWrite (s : State) (d loc : Nat) (bs : List Byte) : State :=
  (dataSegs 64 loc bs).foldl (init := s) fun s (a, x) => rdcWriteSeg s d a x
/-- Fill a line from the home where it is not dirty; a sector that a store has written whole is free of the home's poison
(R88, R101, R102). -/
def rdcFillLine (s : State) (d line : Nat) : State × RdcLine :=
  let r := rdcGet s d line
  if r.valid = BitVec.allOnes 128 then (s, r) else
    let (s, data, p) := homeLine (hostShare s d (128 * line)) line
    let r' : RdcLine := ⟨mergeLine 128 r.dirty r.data data, BitVec.allOnes 128, r.dirty, p &&& ~~~r.whole, r.whole⟩
    (rdcPut s d line r', r')
/-- The dirty lines of a die's RDC. -/
def rdcDirty (s : State) (d : Nat) : List Nat :=
  s.rdc.filterMap fun (k, r) => if k / 2 ^ 64 = d ∧ r.dirty ≠ 0 then some (k % 2 ^ 64) else none
/-- Write back every dirty byte of a die's RDC (R104). -/
def rdcFlush (s : State) (d : Nat) : State := (rdcDirty s d).foldl (init := s) fun s l => rdcWriteBack s d l
/-- Invalidate every clean byte of a die's RDC, and with it the poison that came with a fill (R103). -/
def rdcInvalClean (s : State) (d : Nat) : State :=
  { s with rdc := s.rdc.filterMap fun (k, r) =>
      if k / 2 ^ 64 ≠ d then some (k, r) else if r.dirty = 0 then none else some (k, { r with valid := r.dirty, poison := 0 }) }

/-! ### L1 (R105 to R109) -/

/-- The die a core number stands on (R11). -/
def coreDie (c : Nat) : Nat := c / 192
/-- The quad of a core: 48 per die (R11). -/
def quadOf (c : Nat) : Nat := coreDie c * 48 + (c % 192 / 16 / 2) * 8 + c % 192 % 16 / 2
/-- A line held in a core's L1. -/
def l1Get (s : State) (c line : Nat) : Option L1Line := Assoc.get? s.l1 (key2 c line)
/-- Drop a line of a core's L1. -/
def l1Drop (s : State) (c line : Nat) : State := { s with l1 := Assoc.del s.l1 (key2 c line) }
/-- Drop every line of a core's L1 (R108). -/
def l1Clear (s : State) (c : Nat) : State := { s with l1 := s.l1.filter fun (k, _) => k / 2 ^ 64 ≠ c }
/-- A store's bytes in one sector of an L1 line: of a word in error a narrower store is discarded, a store of all of it
clears the error (R88, R121). -/
def L1Line.write (l : L1Line) (off : Nat) (bs : List Byte) : L1Line :=
  let p := l.poison.getLsbD (off / 64)
  if bs.length ≠ 64 && p then l
  else
    let l := { l with poison := bit2 l.poison (off / 64) (p && bs.length != 64) }
    if l.ecc.isEmpty then { l with data := setLine l.data off bs }
    else (dataSegs 8 off bs).foldl (init := l) fun l (a, d) =>
      match Assoc.get? l.ecc (a / 8) with
      | none => { l with data := setLine l.data a d }
      | some x =>
        if d.length ≠ 8 && x != .single then l
        else { l with data := setLine l.data a d, ecc := Assoc.del l.ecc (a / 8) }
/-- A store updates the L1 copy, where there is one, or invalidates it under .nl1 (R106, R109). -/
def l1Store (s : State) (c loc ch : Nat) (bs : List Byte) : State :=
  (dataSegs 64 loc bs).foldl (init := s) fun s (a, d) =>
    match l1Get s c (a / 128) with
    | none => s
    | some l =>
      if ch = 3 then l1Drop s c (a / 128)
      else { s with l1 := Assoc.put s.l1 (key2 c (a / 128)) (l.write (a % 128) d) }
/-- The errors of the pool words that a read of an L1 line meets: a single one is corrected and counted, an uncorrectable
word is poisoned (R121); the Bool tells whether one is. -/
def l1Resolve (s : State) (c line off n : Nat) (l : L1Line) : State × Bool :=
  if l.ecc.isEmpty then (s, false)
  else
    let ws := (segs 8 off n).map fun (a, _) => a / 8
    let at_ (x : Ecc) := ws.filter fun w => Assoc.get? l.ecc w == some x
    let log (code : Nat) (s : State) (ws : List Nat) : State :=
      ws.foldl (fun s w => logEvent s code (coreDie c) (128 * line + 8 * w)) s
    let s := log 0x08 (log 0x07 s (at_ .single)) (at_ .double)
    let m := (at_ .double).foldl (fun m w => Assoc.put m w .poison) ((at_ .single).foldl Assoc.del l.ecc)
    ({ s with l1 := Assoc.put s.l1 (key2 c line) { l with ecc := m } }, !(at_ .double ++ at_ .poison).isEmpty)
/-- A hint under which L1 is neither looked up nor allocated: `.nl1`, or 7, which stands for `.nrdc` on a line that an
operation in flight keeps out of L1 (R109, R260). -/
def noL1 (ch : Nat) : Bool := ch == 3 || ch == 7
/-- A hint under which a remote line is read at the home: `.nrdc`, with L1 or without (R109). -/
def noRdc (ch : Nat) : Bool := ch == 6 || ch == 7
/-- Read a line below L1: the RDC for remote cached lines, else the home (R101, R109). -/
def lowerLine (s : State) (d line : Nat) (cached : Bool) (ch : Nat) : State × LineData × BitVec 2 :=
  if cached && isRemote d (128 * line) then
    if noRdc ch then homeLine (hostShare s 4 (128 * line)) line
    else
      let (s, r) := rdcFillLine s d line
      (s, r.data, r.poison)
  else homeLine (hostShare s 4 (128 * line)) line
/-- An access with `.nrdc` writes the die's RDC line back and drops it, whatever L1 holds (R102, R109). -/
def bypassRdc (s : State) (d line : Nat) (cached : Bool) (ch : Nat) : State :=
  if cached && noRdc ch && isRemote d (128 * line) then rdcDrop s d line else s
/-- L1 serves a load of the line: not under `.nl1`, and under `.nrdc` not for a remote line, which is read at the home
(R109). -/
def l1Serves (s : State) (c line : Nat) (cached : Bool) (ch : Nat) : Bool :=
  cached && !noL1 ch && !(noRdc ch && isRemote (coreDie c) (128 * line)) && (l1Get s c line).isSome
/-- A load reads bytes of one line through L1, the RDC or the home, by its hint (R105, R109). That a `.nrdc` load of a remote
line puts the line into L1, where it does not look it up, is the model's choice (log 29). -/
def loadLine (s : State) (c loc n : Nat) (cached : Bool) (ch : Nat) : State × List Byte × Bool :=
  let line := loc / 128
  let s := bypassRdc s (coreDie c) line cached ch
  let below (s : State) : State × List Byte × Bool :=
    let (s, d, p) := lowerLine s (coreDie c) line cached ch
    let s := if !cached || noL1 ch then s else { s with l1 := Assoc.put s.l1 (key2 c line) ⟨d, p, []⟩ }
    (s, lineBytes d (loc % 128) n, poisonIn p (loc % 128) n)
  if l1Serves s c line cached ch then
    match l1Get s c line with
    | some l =>
      let (s, q) := l1Resolve s c line (loc % 128) n l
      (s, lineBytes l.data (loc % 128) n, q || poisonIn l.poison (loc % 128) n)
    | none => below s
  else below s
/-- The load must go to the home for the line. -/
def needsHome (s : State) (c line : Nat) (cached : Bool) (ch : Nat) : Bool :=
  (cached && noRdc ch && isRemote (coreDie c) (128 * line) && (rdcGet s (coreDie c) line).dirty != 0) ||
  !l1Serves s c line cached ch &&
  !(cached && !noRdc ch && isRemote (coreDie c) (128 * line) &&
      (rdcGet s (coreDie c) line).valid == BitVec.allOnes 128)

/-! ### Sets and priorities (R96, R98, R109) -/

/-- The line is held in its cache. -/
def lineHeldIn (s : State) : Level → Nat → Bool
  | .l1, k => (Assoc.get? s.l1 k).isSome
  | .l2, k => (Assoc.get? s.l2 k).isSome
  | .rdc, k => (Assoc.get? s.rdc k).isSome
/-- The set of a line in its cache, by the line's key there; which of a slice's or core's sets it is stays free (R96, log
8). -/
def cacheSet (s : State) : Level → Nat → Nat
  | .l1, k => key2 (k / 2 ^ 64)
      (Config.setOf 0 (k % 2 ^ 64) % (4 * (384 - ((Assoc.get? s.pb (k / 2 ^ 64)).getD .zero).ring)))
  | .l2, k => key2 (64 * dieOf (128 * k) + homeSlice s (128 * k)) (Config.setOf 1 k % 1024)
  | .rdc, k => key2 (16 * (k / 2 ^ 64) + rdcSlice (128 * (k % 2 ^ 64))) (Config.setOf 2 (k % 2 ^ 64) % 2048)
/-- The lines of a level at keep priority, oldest first. -/
def keptIn (s : State) (lv : Level) : List Nat :=
  s.prios.filterMap fun x => if x.level = lv && x.keep && lineHeldIn s lv x.key then some x.key else none
/-- A hint sets a line's priority: `.str` and `.last` evict-first, `.keep` keep; of more than 8 kept lines of a set the
oldest drops to normal; hint 0 gives it normal priority (R109). -/
def setPrio (ch : Nat) (lv : Level) (key : Nat) (s : State) : State :=
  let s' := { s with prios := s.prios.filter fun x => !(x.level == lv && x.key == key) }
  if ch = 2 then
    let kept := keptIn s' lv
    let ps := if kept.length < 8 then s'.prios else
      let same := kept.filter fun k => cacheSet s' lv k == cacheSet s' lv key
      if same.length < 8 then s'.prios else s'.prios.filter fun x => !(x.level == lv && some x.key == same.head?)
    { s' with prios := ps ++ [⟨lv, key, true⟩] }
  else if ch = 1 ∨ ch = 4 then { s' with prios := s'.prios ++ [⟨lv, key, false⟩] }
  else if ch = 0 then s'
  else s
/-- The ways a set of a level has for a line: of an L2 slice those not carved off (R96, R303). -/
def waysOf (s : State) : Level → Nat → Nat
  | .l1, _ => 8
  | .l2, k => 16 - match Assoc.get? s.beryl (64 * dieOf (128 * k) + homeSlice s (128 * k)) with
    | some b => b.ways
    | none => 0
  | .rdc, _ => 12
/-- A line may be evicted: a kept one only once no other way of its set is left (R109). -/
def mayEvict (s : State) (lv : Level) (key : Nat) : Bool :=
  let kept := keptIn s lv
  !kept.contains key || decide (waysOf s lv key ≤ (kept.filter fun k => cacheSet s lv k == cacheSet s lv key).length)
/-- The cache below L1 that serves a cached line to a die, and the line's key there; none for lines of host or peer memory
read at their home. That a hint on a remote line sets no priority in the home's L2 is the model's choice (R109, log 29). -/
def lowerKey (d line : Nat) (toHome : Bool) : Option (Level × Nat) :=
  if isRemote d (128 * line) && !toHome then some (.rdc, key2 d line)
  else if isDev (128 * line) then some (.l2, line) else none
/-- The priorities a load's hint gives a line: where it allocates it, and by `.last` to the line below L1. That a load which
hits leaves the priority as it is under every other hint is the model's choice (R109, log 29). -/
def prioLoad (s0 : State) (c line ch : Nat) (s : State) : State :=
  if ch = 1 ∨ ch = 2 ∨ ch = 4 then
    let s := match lowerKey (coreDie c) line false with
      | some (lv, k) => if ch = 4 || !lineHeldIn s0 lv k then setPrio ch lv k s else s
      | none => s
    if ch ≠ 4 && !lineHeldIn s0 .l1 (key2 c line) then setPrio ch .l1 (key2 c line) s else s
  else s

/-! ### Stores on their way (R106, R109) -/

/-- The store is accepted in the die's RDC and goes no further (R102, R109). -/
def Store.toRdc (st : Store) (die : Nat) : Bool :=
  st.ca == 0 && isRemote die st.loc && st.ch != 5 && st.ch != 6 && !st.scat
/-- A write goes past the RDCs to host memory: every die's RDC gives the lines up (R101). -/
def hostPast (s : State) (loc n : Nat) : State := (segs 128 loc n).foldl (fun s (a, _) => hostOwn s 4 a) s
/-- A posted store is accepted at its cache level: the die's RDC, or the home slice, where its hint sets the line's
priority. The media half of .wt is left to the controller. -/
def acceptStore (s : State) (c : Nat) (st : Store) : State :=
  let d := coreDie c
  let s := if st.toRdc d then rdcWrite s d st.loc st.data
    else
      let s := if st.ca = 0 && isRemote d st.loc then
          (segs 128 st.loc st.data.length).foldl (init := s) fun s (a, _) => rdcDrop s d (a / 128)
        else s
      homeWrite (hostPast s st.loc st.data.length) st.loc st.data
  if st.ca ≠ 0 then s
  else (segs 128 st.loc st.data.length).foldl (init := s) fun s (a, _) =>
    match lowerKey d (a / 128) (!st.toRdc d) with
    | some (lv, k) => setPrio (if st.ch = 6 && !isRemote d a then 0 else st.ch.toNat) lv k s
    | none => s

/-! ### The pool (R116 to R121) -/

/-- The pool key of an offset in a core's pool. -/
def poolKey (c off : Nat) : Nat := c * 2 ^ 21 + off
/-- The bytes [k, k + n) of a pool. -/
def poolBytes (s : State) (k : Nat) : Nat → List Byte
  | 0 => []
  | n + 1 => Assoc.rd 0 s.pool k :: poolBytes s (k + 1) n
/-- Log words of a pool in the event log: 0x07 corrected, 0x08 found uncorrectable (R121, R415, R447). -/
def countPool (code : Nat) (s : State) (ws : List Nat) : State :=
  ws.foldl (fun s w => logEvent s code (coreDie (8 * w / 2 ^ 21)) (8 * w)) s
/-- The words of a range that hold an error of one kind. -/
def poolWith (s : State) (k n : Nat) (e : Ecc) : List Nat :=
  ((segs 8 k n).map fun (a, _) => a / 8).filter fun w => Assoc.get? s.poolErr w == some e
/-- What a read does to the errors of a range: a single one is corrected and counted, an uncorrectable word becomes
poisoned (R121). -/
def poolFix (s : State) (k n : Nat) : State :=
  let fix (m : Assoc Ecc) (w : Nat) := match Assoc.get? m w with
    | some .single => Assoc.del m w
    | some .double => Assoc.put m w .poison
    | _ => m
  countPool 0x07 { s with poolErr := ((segs 8 k n).map fun (a, _) => a / 8).foldl fix s.poolErr } (poolWith s k n .single)
/-- Read pool bytes; an uncorrectable word found is logged (R121). -/
def poolRead (s : State) (k n : Nat) : State × List Byte × Bool :=
  (countPool 0x08 (poolFix s k n) (poolWith s k n .double), poolBytes s k n,
    !(poolWith s k n .double).isEmpty || !(poolWith s k n .poison).isEmpty)
/-- Write pool bytes lying in one 8-byte word (R121). -/
def poolWriteWord (s : State) (k : Nat) (bs : List Byte) : State :=
  let w := k / 8
  let put (s : State) : State :=
    { s with pool := ((List.range bs.length).zip bs).foldl (fun m (i, b) => Assoc.wr 0 m (k + i) b) s.pool }
  if bs.length = 8 then put { s with poolErr := Assoc.del s.poolErr w }
  else match Assoc.get? s.poolErr w with
    | some .poison => s
    | some .double => countPool 0x08 { s with poolErr := Assoc.put s.poolErr w .poison } [w]
    | some .single => put (countPool 0x07 { s with poolErr := Assoc.del s.poolErr w } [w])
    | none => put s
/-- Write pool bytes and fire the monitors on their granules (R121, R152). -/
def poolWrite (s : State) (k : Nat) (bs : List Byte) : State :=
  let s := (dataSegs 8 k bs).foldl (init := s) fun s (a, d) => poolWriteWord s a d
  (segs 64 k bs.length).foldl (init := s) fun s (a, _) => fire true (a / 64) s
/-- A number at a pool key. -/
def poolNat (s : State) (k n : Nat) : Nat := ofBytes (poolBytes s k n)

end Sys2Proof.Machine
end

