-- ==== Sys2Proof/Machine/Xlate.lean ====
section
/-! DEFINITION. Pointers, the bounds table, page tables and their caches (R393 to R399). -/

namespace Sys2Proof.Machine

/-- The kinds of access; their ACC codes are those of R410. -/
inductive Acc where
  | read | write | rmw | fetch
  deriving DecidableEq, Repr

/-- The ACC code (R410). -/
def Acc.code : Acc → Nat
  | .read => 0
  | .write => 1
  | .rmw => 2
  | .fetch => 3
/-- The access reads. -/
def Acc.reads : Acc → Bool
  | .read | .rmw => true
  | _ => false
/-- The access writes. -/
def Acc.writes : Acc → Bool
  | .write | .rmw => true
  | _ => false

/-- The outcome of a check: the location and its cache attribute, a translation fault, a trap's cause and detail,
or a hold until the host gives up a line (R443). -/
inductive Look where
  | ok (loc : Nat) (ca : Nat)
  | fault
  | bad (cause detail : Nat)
  | hold
  deriving DecidableEq, Repr

/-- A context's block; one never created is at reset. -/
def State.ctx (s : State) (c : Nat) : Ctx := (Assoc.get? s.ctxs c).getD .zero
/-- Replace a context block. -/
def State.setCtx (s : State) (c : Nat) (x : Ctx) : State := { s with ctxs := Assoc.put s.ctxs c x }

/-- A choice the manual leaves to the device: the next free bit (log 6). -/
def freeBit (s : State) (k : Nat) : State × Bool := ({ s with fresh := s.fresh + 1 }, Config.earlyOld s.fresh k)

/-! ### The bounds table (R393, R394) -/

/-- Where entry `r` of the bounds table lies (R394). That a table in a hole or in management space gives what its home
answers, with no check, is the model's choice: R82 speaks of page-table entries (log 29). -/
def boundsAt (s : State) (c r : Nat) : Nat := (s.ctx c).btBase.toNat + 16 * r
/-- Entry `r` has to be read from memory, and its line is held (R443). -/
def boundsHeld (s : State) (c r : Nat) : Bool :=
  (Assoc.get? s.btlb (key2 c r)).isNone && lineHeld s (boundsAt s c r) 16
/-- Read entry `r` of the bounds table, from the translation cache or from memory. A cached entry that memory no
longer agrees with may still be in force (R394): a free bit. Of a line that the host or its home holds the cached entry
serves (R443). -/
def boundsEntry (s : State) (c r : Nat) : State × Nat :=
  match Assoc.get? s.btlb (key2 c r) with
  | none =>
    let (s, now) := homeNat s (boundsAt s c r) 16
    ({ s with btlb := Assoc.put s.btlb (key2 c r) (BitVec.ofNat 128 now) }, now)
  | some e =>
    if lineHeld s (boundsAt s c r) 16 then (s, e.toNat) else
      let (s, now) := homeNat s (boundsAt s c r) 16
      if e.toNat = now then (s, now) else
        let (s, b) := freeBit s r
        (s, if b then e.toNat else now)
/-- The entry is in force: VALID, and its reserved bits are 0 (R394). -/
def boundsValid (e : Nat) : Bool := bitAt e 124 && field e 57 7 == 0 && field e 125 3 == 0
/-- The access kind is allowed by an R, W, X triple. -/
def allowed (a : Acc) (r w x : Bool) : Bool :=
  match a with
  | .read => r
  | .write => w
  | .rmw => r && w
  | .fetch => x
/-- The rows of R393; region 0 is unchecked. None where the access passes. -/
def regionCheck (s : State) (c rid va size : Nat) (a : Acc) : State × Option Look :=
  if rid = 0 then (s, none)
  else if boundsHeld s c rid then (biSend s (boundsAt s c rid) 16 false, some .hold)
  else
    let (s, e) := boundsEntry s c rid
    if !boundsValid e then (s, some (.bad 0x05 0x01))
    else if va < field e 0 57 || field e 0 57 + field e 64 57 < va + size then (s, some (.bad 0x05 0x01))
    else if !allowed a (bitAt e 121) (bitAt e 122) (bitAt e 123) then (s, some (.bad 0x06 0x02))
    else (s, none)

/-! ### The page walk (R395 to R398) -/

/-- Where a walk ends. -/
inductive WalkEnd where
  | leaf (at_ e level : Nat)
  | invalid
  | refused
  | hold
  deriving DecidableEq, Repr

/-- Walk from level `n` with the table at `tab` (R395, R397). A root that itself lies in a hole or in management space is
refused like a next table there, which is the model's choice: R82 speaks of entries only (log 29). -/
def walkFrom : Nat → State → Nat → Nat → State × WalkEnd
  | 0, s, tab, va =>
    let a := tab + 8 * field va 12 9
    if !backed s tab then (s, .refused)
    else if lineHeld s a 8 then (biSend s a 8 false, .hold)
    else
      let (s, e) := homeNat s a 8
      (s, if bitAt e 0 then .leaf a e 0 else .invalid)
  | n + 1, s, tab, va =>
    let a := tab + 8 * field va (12 + 9 * (n + 1)) 9
    if !backed s tab then (s, .refused)
    else if lineHeld s a 8 then (biSend s a 8 false, .hold)
    else
      let (s, e) := homeNat s a 8
      if !bitAt e 0 then (s, .invalid)
      else if n + 1 ≤ 2 && bitAt e 7 then (s, .leaf a e (n + 1))
      else walkFrom n s (field e 12 36 * 4096) va

/-- Bits below the page size of a leaf (R395). -/
def pageBits (e level : Nat) : Nat :=
  if level = 2 then 30 else if level = 1 then 21 else if bitAt e 8 then 16 else 12
/-- The leaf is refused (R396, R397 row 2, R82): no byte of its frame may lie in a hole. -/
def leafRefused (s : State) (c e level : Nat) : Bool :=
  let frame := field e 12 36 * 4096
  let last := frame + (2 ^ pageBits e level - 1)
  decide (2 ≤ field e 9 2) || bitAt e 11 || decide (frame % 2 ^ pageBits e level ≠ 0) ||
    (decide (level ≠ 0) && bitAt e 8) ||
    (if field e 48 8 = 0 then !((backed s frame && backed s last) || (isMgmt frame && (s.ctx c).sys))
     else !(decide (frame < 2 ^ 40 ∧ frame % 2 ^ 38 < 0x30_0000_0000) || decide (2 ^ 40 ≤ frame ∧ frame < 2 ^ 47)))
/-- Set A, and D for a write, in a leaf entry at its home (R398). -/
def markLeaf (s : State) (a e : Nat) (w : Bool) : State :=
  let e' := e ||| 0x10 ||| (if w then 0x20 else 0)
  if e' = e then s else homeWrite s a (toBytes 1 e')
/-- The sixteen entries of a 64 KiB page are one; where they disagree any of them may serve, by a free value (R395). -/
def sharedLeaf (s : State) : WalkEnd → State × WalkEnd
  | .leaf a e 0 =>
    if bitAt e 8 then
      let (s, l) := homeNat s (a / 128 * 128) 128
      if (List.range 16).all fun k => field l (64 * k) 64 ||| 0x30 == e ||| 0x30 then (s, .leaf a e 0)
      else
        let k := (Config.freeWord s.fresh).toNat % 16
        let x := field l (64 * k) 64
        ({ s with fresh := s.fresh + 1 }, if bitAt x 0 then .leaf (a / 128 * 128 + 8 * k) x 0 else .invalid)
    else (s, .leaf a e 0)
  | r => (s, r)
/-- The leaf entry in force for a page: the walk's, or a cached one that differs from it, by a free bit (R399).
A write never uses a cached entry whose D is 0 (R398). -/
def findLeaf (s : State) (c va : Nat) (w : Bool) : State × WalkEnd :=
  let (s, r) := walkFrom 4 s (s.ctx c).ptRoot.toNat va
  let (s, r) := sharedLeaf s r
  match Assoc.get? s.tlb (key2 c (va / 4096)) with
  | none => match r with
    | .leaf _ e l => ({ s with tlb := Assoc.put s.tlb (key2 c (va / 4096)) ⟨BitVec.ofNat 64 e, l⟩ }, r)
    | _ => (s, r)
  | some t =>
    let same := match r with
      | .leaf _ e l => decide (e ||| 0x30 = t.leaf.toNat ||| 0x30 ∧ l = t.level)
      | _ => false
    if same || (w && !bitAt t.leaf.toNat 5) then (s, r) else
      let (s, b) := freeBit s (va / 4096)
      (s, if b then .leaf (2 ^ 64) t.leaf.toNat t.level else r)
/-- Some Icmar link of the device is up (R444). -/
def linkUp (s : State) : Bool :=
  (List.range 4).any fun d => (List.range 4).any fun n =>
    decide (0 < ((Assoc.get? (s.die d).links n).getD .zero).lanes)
/-- Whether a request to a fabric node can be carried (R444, R446); the PROT detail where it cannot. -/
def nodeFault (s : State) (node pa : Nat) : Option Nat :=
  if node = 0 then none
  else if s.phase ≠ .run then some 0x06
  else if 2 ^ 40 ≤ pa || !s.domain.contains (s.fabid.toNat ^^^ node) || !linkUp s then some 0x05
  else none
/-- The page outcomes of R397 for one access. -/
def pageLook (s : State) (c rid va : Nat) (a : Acc) : State × Look :=
  let (s, r) := findLeaf s c va a.writes
  match r with
  | .invalid => (s, .fault)
  | .refused => (s, .bad 0x06 0x03)
  | .hold => (s, .hold)
  | .leaf at_ e l =>
    if leafRefused s c e l then (s, .bad 0x06 0x03)
    else if rid = 0 && bitAt e 6 then (s, .bad 0x05 0x01)
    else if !allowed a (bitAt e 1) (bitAt e 2) (bitAt e 3) then (s, .bad 0x06 0x01)
    else
      let s := if at_ < 2 ^ 64 then markLeaf s at_ e a.writes else s
      let pa := field e 12 36 * 4096 + va % 2 ^ pageBits e l
      match nodeFault s (field e 48 8) pa with
      | some d => (s, .bad 0x06 d)
      | none => (s, .ok (field e 48 8 * 2 ^ 48 + pa) (field e 9 2))
/-- Region check, then page outcomes (R393, R397). -/
def translate (s : State) (c rid va size : Nat) (a : Acc) : State × Look :=
  let (s, r) := regionCheck s c rid va size a
  match r with
  | some l => (s, l)
  | none => pageLook s c rid va a
/-- The translation of a pointer's own VA and region, as engines make it: VA range, alignment, region, page. -/
def translatePtr (s : State) (c ptr : Nat) (disp : Int) (size align : Nat) (a : Acc) : State × Look :=
  let va := (ptr % 2 ^ 57 : Nat) + disp
  if va < 0 || (2 ^ 57 : Int) < va + size then (s, .bad 0x05 0x02)
  else if va.toNat % align ≠ 0 then (s, .bad 0x07 0)
  else translate s c (ptr / 2 ^ 57 % 128) va.toNat size a
/-- The pages of a range: location, cache attribute and length of each, or the first that fails and its VA. -/
def pagesLook (s : State) (c rid : Nat) (a : Acc) : List (Nat × Nat) → State × Except (Nat × Look) (List (Nat × Nat × Nat))
  | [] => (s, .ok [])
  | (va, n) :: ps => match pageLook s c rid va a with
    | (s, .ok loc ca) => match pagesLook s c rid a ps with
      | (s, .ok l) => (s, .ok ((loc, ca, n) :: l))
      | r => r
    | (s, l) => (s, .error (va, l))
/-- The translation of a range of any length by an engine: as `translatePtr`, page by page. -/
def translateRange (s : State) (c ptr : Nat) (disp : Int) (size align : Nat) (a : Acc) :
    State × Except (Nat × Look) (List (Nat × Nat × Nat)) :=
  let va := (ptr % 2 ^ 57 : Nat) + disp
  let rid := ptr / 2 ^ 57 % 128
  if va < 0 || (2 ^ 57 : Int) < va + size then (s, .error (0, .bad 0x05 0x02))
  else if va.toNat % align ≠ 0 then (s, .error (va.toNat, .bad 0x07 0))
  else match regionCheck s c rid va.toNat size a with
    | (s, some l) => (s, .error (va.toNat, l))
    | (s, none) => pagesLook s c rid a (segs 4096 va.toNat size)
/-- Drop a context's cached translations (R129, R399). -/
def dropTlb (s : State) (c : Nat) : State :=
  { s with tlb := s.tlb.filter fun (k, _) => k / 2 ^ 64 ≠ c
           btlb := s.btlb.filter fun (k, _) => k / 2 ^ 64 ≠ c }

end Sys2Proof.Machine
end

