-- ==== Sys2Proof/Machine/Ops.lean ====
section
/-! DEFINITION. The named operations over teams, groups and registers; posting operations, faults and events; the
regions of R402 to R404; taking a trap (R409) and returning from one (R414); and the issue of an instruction
(R34, R39, R48). -/

namespace Sys2Proof.Machine

/-! ### Teams and groups -/

/-- The team of a name. -/
def State.team? (s : State) (uid : Nat) : Option Team := s.teams.find? fun t => t.uid == uid
/-- A group of a team. -/
def Team.group? (t : Team) (idx : Nat) : Option Group := t.groups.find? fun g => g.idx == idx
/-- Replace what a team holds. -/
def modTeam (uid : Nat) (f : Team → Team) (s : State) : State :=
  { s with teams := s.teams.map fun t => if t.uid = uid then f t else t }
/-- Replace what a group holds. -/
def Team.modGroup (idx : Nat) (f : Group → Group) (t : Team) : Team :=
  { t with groups := t.groups.map fun g => if g.idx = idx then f g else g }
/-- Replace what a group holds. -/
def modGroup (gid : Gid) (f : Group → Group) (s : State) : State :=
  modTeam gid.team (Team.modGroup gid.group f) s

/-- A state seen by one of its groups: the group and its team as they stood when the instruction issued. -/
structure Env where
  st : State
  gid : Gid
  team : Team
  grp : Group
  deriving DecidableEq, Repr

/-- The view of a group. -/
def env? (s : State) (gid : Gid) : Option Env :=
  match s.team? gid.team with
  | none => none
  | some t => match t.group? gid.group with
    | none => none
    | some g => some ⟨s, gid, t, g⟩
/-- The same view of a later state. -/
def Env.at (e : Env) (s : State) : Env := (env? s e.gid).getD { e with st := s }
/-- Replace what the group of a view holds. -/
def Env.mod (e : Env) (f : Group → Group) : State := modGroup e.gid f e.st
/-- The core a team runs on. -/
def Env.core (e : Env) : Nat := e.team.core
/-- The die it stands on (R11). -/
def Env.die (e : Env) : Nat := coreDie e.team.core
/-- The context it belongs to. -/
def Env.ctxNo (e : Env) : Nat := e.team.ctx
/-- The context's block. -/
def Env.ctx (e : Env) : Ctx := e.st.ctx e.team.ctx
/-- The grant G′ (R319). -/
def Env.grant (e : Env) : Nat := e.team.grant

/-! ### Lanes (R178, R340) -/

/-- Lane positions that hold a thread (R178, R320). -/
def threadMask (t : Team) (idx : Nat) : Mask := firstLanes (min t.grant (t.threads - idx * t.grant))
/-- The current class of a frame (R340). -/
def Frame.class (fr : Frame) (exited : Mask) : Mask :=
  BitVec.ofNat 128 (((List.range 128).filter fun l =>
    fr.outer.getLsbD l && !fr.dep.getLsbD l && !exited.getLsbD l && decide (Assoc.rd 0 fr.keys l = fr.cur)).foldl
      (fun m l => m + 2 ^ l) 0)
/-- The active mask (R340). -/
def activeOf (t : Team) (g : Group) : Mask :=
  match g.frames with
  | [] => threadMask t g.idx &&& ~~~g.exited
  | fr :: _ => fr.class g.exited
/-- The active mask of a view's group. -/
def Env.active (e : Env) : Mask := activeOf e.team e.grp
/-- Its active lanes, ascending. -/
def Env.lanes (e : Env) : List Nat := maskList e.active
/-- The lowest active lane, 0 if there is none. -/
def Env.firstLane (e : Env) : Nat := e.lanes.headD 0
/-- A lane position that holds a thread. -/
def Env.holds (e : Env) (l : Nat) : Bool := decide (l < 128) && (threadMask e.team e.grp.idx).getLsbD l
/-- An active lane. -/
def Env.isActive (e : Env) (l : Nat) : Bool := decide (l < 128) && e.active.getLsbD l
/-- Beats of a group (R177). -/
def beatsOf (grant : Nat) : Nat := (grant + 31) / 32

/-! ### Registers (R23, R24) -/

/-- The value a register holds now; p15 reads 1 (R23). -/
def Group.reg (g : Group) (d : RegDst) : Word :=
  match d.file with
  | .v => Assoc.rd 0 g.v (128 * d.num + d.lane)
  | .s => Assoc.rd 0 g.s d.num
  | .p => if d.num = 15 || g.p.getLsbD d.num then 1 else 0
  | .q => if (Assoc.rd 0 g.q d.num).getLsbD d.lane then 1 else 0
/-- Write one register; p15 discards it (R23). -/
def Group.setReg (d : RegDst) (x : Word) (g : Group) : Group :=
  match d.file with
  | .v => { g with v := Assoc.wr 0 g.v (128 * d.num + d.lane) x }
  | .s => { g with s := Assoc.wr 0 g.s d.num x }
  | .p =>
    if d.num = 15 then g
    else { g with p := if x = 0 then g.p &&& ~~~((1 : BitVec 16) <<< d.num) else g.p ||| ((1 : BitVec 16) <<< d.num) }
  | .q =>
    let m := Assoc.rd 0 g.q d.num
    { g with q := Assoc.wr 0 g.q d.num (if x = 0 then m &&& ~~~laneBit d.lane else m ||| laneBit d.lane) }
/-- Write one register, which clears the error of its word. That a write of one register is enough, half of an 8-byte pool
word, is the model's choice: R121 names stores of all 8 bytes only (log 29). -/
def Group.putReg (w : RegWrite) (g : Group) : Group :=
  let g := g.setReg w.dst w.val
  if g.bad.any (·.1 == w.dst) then { g with bad := g.bad.filter (·.1 ≠ w.dst) } else g
/-- Write registers in order. -/
def Group.putRegs (ws : List RegWrite) (g : Group) : Group := ws.foldl (fun g w => g.putReg w) g
/-- The register is empty (R36). -/
def Group.isEmpty (g : Group) (d : RegDst) : Bool :=
  match d.file with
  | .v => (Assoc.rd 0 g.vEmpty d.num).getLsbD d.lane
  | .s => g.sEmpty.getLsbD d.num
  | _ => false
/-- Mark a register empty or full (R36). -/
def Group.mark (empty : Bool) (d : RegDst) (g : Group) : Group :=
  match d.file with
  | .v =>
    let m := Assoc.rd 0 g.vEmpty d.num
    { g with vEmpty := Assoc.wr 0 g.vEmpty d.num (if empty then m ||| laneBit d.lane else m &&& ~~~laneBit d.lane) }
  | .s =>
    let b : BitVec 128 := (1 : BitVec 128) <<< d.num
    { g with sEmpty := if empty then g.sEmpty ||| b else g.sEmpty &&& ~~~b }
  | _ => g
/-- Mark registers. -/
def Group.marks (empty : Bool) (ds : List RegDst) (g : Group) : Group := ds.foldl (fun g d => g.mark empty d) g

/-- A number for a register, by beat: the free value of an early read is one per register and beat (log 6). -/
def RegDst.key (d : RegDst) : Nat :=
  (match d.file with | .v => 0 | .s => 1 | .p => 2 | .q => 3) + 4 * (d.lane / 32) + 16 * d.num
/-- The value of a register that may be read early (R45): newest result first, each unwritten one seen or not by a
free bit; `slack` is how many clk later than the first beat the read is made. -/
def earlyRead (fresh : Nat) (d : RegDst) (slack : Nat) : List Haz → Word → Word
  | [], x => x
  | h :: hs, x =>
    if h.dst = d then
      if slack < h.left && Config.earlyOld (fresh + hs.length) d.key then earlyRead fresh d slack hs h.old else x
    else earlyRead fresh d slack hs x
/-- Read a register at issue. -/
def Env.reg (e : Env) (slack : Nat) (d : RegDst) : Word :=
  match e.grp.haz with
  | [] => e.grp.reg d
  | hs => earlyRead e.st.fresh d slack hs (e.grp.reg d)

/-! ### Posted operations -/

/-- Post an operation of a group (R36, R106, R135, R261, R284, R313, R371). -/
def post (gid : Gid) (ctx core : Nat) (k : PendKind) (s : State) : State :=
  { s with pend := s.pend ++ [⟨s.nextId, gid, ctx, core, k⟩], nextId := s.nextId + 1 }
/-- Remove a posted operation. -/
def unpost (id : Nat) (s : State) : State := { s with pend := s.pend.filter fun p => p.id ≠ id }
/-- A posted operation by name. -/
def State.pend? (s : State) (id : Nat) : Option Pend := s.pend.find? fun p => p.id == id
/-- Post register writes and mark their registers empty (R36). -/
def postRegs (gid : Gid) (ctx core : Nat) (rgn : Bool) (ws : List RegWrite) (s : State) : State :=
  post gid ctx core (.regs rgn ws) (modGroup gid (Group.marks true (ws.map (·.dst))) s)
/-- A write that came later in program order than these registers' unwritten results leaves none of them (R37). -/
def Group.dropHaz (ds : List RegDst) (g : Group) : Group := { g with haz := g.haz.filter fun h => !ds.contains h.dst }
/-- Register writes that a reader sees at once, whatever was written before (R37). -/
def Group.setRegs (ws : List RegWrite) (g : Group) : Group := (g.putRegs ws).dropHaz (ws.map (·.dst))
/-- Perform register writes and mark the registers full (R36, R37). -/
def fillRegs (gid : Gid) (ws : List RegWrite) (s : State) : State :=
  modGroup gid (fun g => ((g.putRegs ws).marks false (ws.map (·.dst))).dropHaz (ws.map (·.dst))) s

/-- Drop a core's L1 copies of the lines of a range. -/
def l1DropRange (core loc n : Nat) (s : State) : State :=
  (segs 128 loc n).foldl (fun s (a, _) => l1Drop s core (a / 128)) s
/-- Issue a global store: a present L1 copy is updated at once, and the store is posted (R106); a `scat` drops the
copy (R260). -/
def issueStore (gid : Gid) (ctx core : Nat) (st : Store) (s : State) : State :=
  let s' := if st.ca ≠ 0 then s
    else if st.scat then l1DropRange core st.loc st.data.length s
    else l1Store s core st.loc st.ch.toNat st.data
  post gid ctx core (.store { st with inL1 := st.ca = 0 && !st.scat && st.ch != 3 &&
    (segs 128 st.loc st.data.length).any fun (a, _) => (l1Get s core (a / 128)).isSome }) s'

/-! ### Events and faults (R400, R442) -/

/-- Where a record of an event or fault queue lies (R442). -/
def recordAt (base idx : Nat) : Nat := base + 32 * (idx % 4096)
/-- A record has to wait: its queue is full, or its line is held (R442, R443). -/
def recordHeld (base : DWord) (pub cons : Word) (s : State) : Bool :=
  decide (4096 ≤ (pub - cons).toNat) || lineHeld s (recordAt base.toNat pub.toNat) 32
/-- Write a record of an event or fault queue; a base outside memory receives nothing. -/
def putRecord (base idx : Nat) (bs : List Byte) (s : State) : State :=
  let a := recordAt base idx
  if backed s a then homeWrite (hostPast s a bs.length) a bs else s
/-- Thirty-two bytes whose layout the manual does not give (log 16). -/
def freeRecord (fresh : Nat) : List Byte :=
  (List.range 8).flatMap fun i => toBytes 4 (Config.freeWord (fresh + i)).toNat
/-- Publish the oldest event record that is kept back. -/
def publishEvent (c : Nat) (s : State) : State :=
  let x := s.ctx c
  let s := putRecord x.eqBase.toNat x.eqPub.toNat (freeRecord s.fresh) s
  { (s.setCtx c { s.ctx c with eqPub := x.eqPub + 1, heldEvents := x.heldEvents - 1 }) with fresh := s.fresh + 8 }
/-- Publish event records while they need not wait. -/
def publishEvents (c : Nat) : Nat → State → State
  | 0, s => s
  | n + 1, s =>
    let x := s.ctx c
    if recordHeld x.eqBase x.eqPub x.eqCons s then biSend s (recordAt x.eqBase.toNat x.eqPub.toNat) 32 true
    else publishEvents c n (publishEvent c s)
/-- Post an event to a context's event queue (R442, log 16). -/
def postEvent (c code : Nat) (data : List DWord) (s : State) : State :=
  let x := s.ctx c
  publishEvents c (x.heldEvents + 1)
    (s.setCtx c { x with events := (code, data) :: x.events, heldEvents := x.heldEvents + 1 })

/-- The bytes of a fault record (R442); the agent's layout is log 16's. -/
def faultRecord (f : FaultRec) : List Byte :=
  toBytes 8 f.va.toNat ++ toBytes 4 f.ord ++ toBytes 4 (f.acc % 256) ++ toBytes 8 f.agent.toNat ++ toBytes 8 0
/-- Publish a fault record. -/
def publishFault (c : Nat) (f : FaultRec) (s : State) : State :=
  let x := s.ctx c
  let s := putRecord x.fqBase.toNat x.fqPub.toNat (faultRecord f) s
  let x := s.ctx c
  s.setCtx c { x with fqPub := x.fqPub + 1, faults := x.faults ++ [f] }
/-- Publish held faults, oldest first, while they need not wait (R442). -/
def publishFaults (c : Nat) : List FaultRec → State → State
  | [], s => s
  | f :: fs, s =>
    let x := s.ctx c
    if recordHeld x.fqBase x.fqPub x.fqCons s then biSend s (recordAt x.fqBase.toNat x.fqPub.toNat) 32 true
    else publishFaults c fs (publishFault c f (s.setCtx c { x with heldFaults := fs }))
/-- Publish what a context's queues keep back, as far as they can (R442). -/
def settleCtx (c : Nat) (s : State) : State :=
  let s := publishFaults c (s.ctx c).heldFaults s
  publishEvents c (s.ctx c).heldEvents s
/-- Post a translation fault; the ordinal names it. A page that already has an unanswered fault shares its ordinal; a
full queue holds the fault (R442). -/
def postFault (c va acc agent : Nat) (s : State) : State × Nat :=
  let x := s.ctx c
  match (x.faults ++ x.heldFaults).find? fun f => f.answer.isNone && f.va.toNat / 4096 == va / 4096 with
  | some f => (s, f.ord)
  | none =>
    let ord := (x.fqPub.toNat + x.heldFaults.length) % 2 ^ 32
    let fs := x.heldFaults ++ [⟨ord, BitVec.ofNat 64 va, acc, BitVec.ofNat 64 agent, none⟩]
    (publishFaults c fs (s.setCtx c { x with heldFaults := fs }), ord)
/-- A fault is posted and not kept back by a full queue (R442). -/
def faultPosted (s : State) (c ord : Nat) : Bool := !(s.ctx c).heldFaults.any fun f => f.ord == ord
/-- The answer to a fault; the latest with the ordinal. -/
def faultAnswer (s : State) (c ord : Nat) : Option Bool :=
  match (s.ctx c).faults.reverse.find? fun f => f.ord == ord with
  | some f => f.answer
  | none => none
/-- The agent code of a fault (log 16): engine 0 group, 1 Agate, 2 matrix, 3 Citrine, 4 Garnet, 5 Jasper, 6 Beryl. -/
def agentOf (core engine : Nat) : Nat := coreDie core + core % 192 * 2 ^ 8 + engine * 2 ^ 24

/-! ### Idempotent regions (R402 to R404) -/

/-- Open a region at `start` (R402). -/
def Group.openRegion (start : DWord) (g : Group) : Group :=
  { g with region := some ⟨start, g.frames, g.exited, g.repCtr, [], false⟩ }
/-- A load of a region that has committed is a load like any other: no abort takes it back (R402, R404). -/
def Pend.settle (gid : Gid) (p : Pend) : Pend :=
  match p.kind with
  | .regs true ws => if p.owner = gid then { p with kind := .regs false ws } else p
  | _ => p
/-- Commit the open region of a group, if any (R402). -/
def commitRegion (gid : Gid) (s : State) : State :=
  match env? s gid with
  | none => s
  | some e => match e.grp.region with
    | none => s
    | some r =>
      r.buf.foldl (fun s st => issueStore gid e.team.ctx e.team.core st s)
        (modGroup gid (fun g => { g with region := none }) { s with pend := s.pend.map (Pend.settle gid) })
/-- Take back a group's region loads: their registers are full again and keep their values (R38, R404). -/
def squashLoads (gid : Gid) (s : State) : State :=
  let mine (p : Pend) : Bool := decide (p.owner = gid) && (match p.kind with | .regs r _ => r | _ => false)
  let ds := (s.pend.filter mine).flatMap fun p => match p.kind with | .regs _ ws => ws.map (·.dst) | _ => []
  modGroup gid (Group.marks false ds) { s with pend := s.pend.filter fun p => !mine p }
/-- Abort the open region: the buffer is discarded and the snapshot restored (R404). -/
def abortRegion (gid : Gid) (s : State) : State :=
  modGroup gid (fun g => match g.region with
    | none => g
    | some r => { g with
        frames := r.frames, exited := r.exited, repCtr := r.repctr
        region := some { r with buf := [] }, haz := [] }) (squashLoads gid s)

/-! ### Traps (R409, R410, R55) -/

/-- A trap to be taken: the fields of TRAPINFO, TRAPADDR, and for PAGE the ordinal of the fault posted (R406). -/
structure Trap where
  cause : Nat
  detail : Nat := 0
  addr : Nat := 0
  acc : Nat := 0
  lane : Nat := 0
  opnd : Nat := 0
  decl : Bool := false
  ord : Option Nat := none
  deriving DecidableEq, Repr

/-- The TRAPINFO of a trap, INTRAP set (R410). -/
def Trap.info (t : Trap) (rgn : Bool) : Word :=
  BitVec.ofNat 32 (t.cause % 64 + t.opnd % 4 * 2 ^ 6 + t.detail % 256 * 2 ^ 8 + 2 ^ 16 + (if rgn then 2 ^ 17 else 0) +
    (if t.decl then 2 ^ 18 else 0) + t.acc % 4 * 2 ^ 19 + t.lane % 128 * 2 ^ 21)
/-- INTRAP (R410). -/
def Group.inTrap (g : Group) : Bool := g.trapInfo.getLsbD 16
/-- TVEC cannot be entered (R409). -/
def Group.noVector (g : Group) : Bool := g.tvec == 0 || g.tvec.toNat % 4 != 0
/-- The event code of a fatal trap (log 16). -/
def evFatal : Nat := 1
/-- Trap entry with TRAPPC at `pc` (R409). The region's flag is as it stood on entry. -/
def takeTrapAt (gid : Gid) (t : Trap) (pc : DWord) (rgn : Bool) (s : State) : State :=
  let s := commitRegion gid s
  match env? s gid with
  | none => s
  | some e =>
    if e.grp.inTrap || e.grp.noVector then
      postEvent e.team.ctx evFatal
        [(t.info rgn).setWidth 64, pc, BitVec.ofNat 64 t.addr, BitVec.ofNat 64 gid.team, BitVec.ofNat 64 gid.group]
        (modGroup gid (fun g => { g with cond := .stopped, haz := []
                                         trapInfo := if rgn then g.trapInfo ||| 0x20000 else g.trapInfo }) s)
    else
      modGroup gid (fun g => { g with
        cond := .ready, haz := [], relMark := none, launch := none
        trapPc := pc, trapAddr := BitVec.ofNat 64 t.addr, trapInfo := t.info rgn
        faultOrd := t.ord.map fun o => (o, t.addr, t.acc, t.lane), pc := g.tvec }) s
/-- Trap entry at the group's instruction (R409). -/
def takeTrap (gid : Gid) (t : Trap) (s : State) : State :=
  match env? s gid with
  | none => s
  | some e => takeTrapAt gid t e.grp.pc e.grp.region.isSome s
/-- A trap at the group's instruction. A refused page-table entry aborts an open region first, and traps when the replay
meets it again (R82). -/
def raiseTrap (gid : Gid) (t : Trap) (s : State) : State :=
  match env? s gid with
  | none => s
  | some e => match e.grp.region with
    | some r =>
      if t.cause = 0x06 ∧ t.detail = 0x03 ∧ r.refused = false then
        modGroup gid (fun g => { g with
          cond := .ready, pc := r.rstart, region := g.region.map fun r => { r with refused := true } }) (abortRegion gid s)
      else takeTrap gid t s
    | none => takeTrap gid t s
/-- The PAGE trap of a posted fault (R406). -/
def pageTrap (ord va acc lane : Nat) : Trap := { cause := 0x04, addr := va, acc := acc, lane := lane, ord := some ord }
/-- A translation fault outside a region: posted, and then the group traps PAGE (R406); where a full queue holds the
fault, it waits for that (R442). -/
def pageFault (gid : Gid) (va acc lane : Nat) (s : State) : State :=
  match env? s gid with
  | none => s
  | some e =>
    let (s, ord) := postFault e.team.ctx va acc (agentOf e.team.core 0) s
    if faultPosted s e.team.ctx ord then takeTrap gid (pageTrap ord va acc lane) s
    else modGroup gid (fun g => { g with cond := .wait (.posting ord va acc lane) }) s
/-- A group whose fault a full queue held traps once it is posted (R406, R442). -/
def settlePosting (gid : Gid) (s : State) : State :=
  match env? s gid with
  | none => s
  | some e => match e.grp.cond with
    | .wait (.posting ord va acc lane) =>
      if faultPosted s e.team.ctx ord then takeTrap gid (pageTrap ord va acc lane) s else s
    | _ => s
/-- At the end of a turn the queues take what they kept back, as far as they can, and groups that waited for it trap
(R406, R442, R443). -/
def settleRecords (s : State) : State :=
  let cs := s.ctxs.filterMap fun (c, x) => if x.heldFaults.isEmpty && x.heldEvents == 0 then none else some c
  if cs.isEmpty then s
  else
    let s := cs.foldl (fun s c => settleCtx c s) s
    (s.teams.flatMap fun t => t.groups.map fun g => ⟨t.uid, g.idx⟩).foldl (fun s g => settlePosting g s) s
/-- A translation fault of a group: inside a region it aborts and waits (R404); outside it posts and traps PAGE
(R406). -/
def takeFault (gid : Gid) (va acc lane : Nat) (s : State) : State :=
  match env? s gid with
  | none => s
  | some e =>
    if e.grp.region.isSome then
      let (s, ord) := postFault e.team.ctx va acc (agentOf e.team.core 0) (abortRegion gid s)
      modGroup gid (fun g => { g with cond := .wait (.fault ord va acc lane true) }) s
    else pageFault gid va acc lane s

/-! ### The program counter (R20, R31, R393) -/

/-- Move a pc by `n` bytes; the region id stays. -/
def pcAdd (pc : DWord) (n : Int) : DWord :=
  BitVec.ofNat 64 (((pc.toNat % 2 ^ 57 : Nat) + n) % (2 ^ 57 : Int)).toNat + (pc &&& 0xFE00_0000_0000_0000#64)
/-- Set the VA of a pc; the region id stays. -/
def pcSet (pc : DWord) (va : Nat) : DWord :=
  BitVec.ofNat 64 (va % 2 ^ 57) + (pc &&& 0xFE00_0000_0000_0000#64)
/-- The target of OFF24 (R31). -/
def branchTarget (pc : DWord) (f : Slk) : DWord := pcAdd pc (12 + 12 * fOff24 f)

/-- Return from a trap (R414): `next` skips the instruction, or the rest of a repeat. -/
def takeTret (gid : Gid) (next : Bool) (s : State) : State :=
  match env? s gid with
  | none => s
  | some e =>
    if !e.grp.inTrap then takeTrap gid { cause := 0x06, detail := 0x07 } s
    else
      let s := commitRegion gid s
      let g := e.grp
      let t := g.trapPc
      let t := if next then pcAdd t (if g.repCtr.getLsbD 6 then 24 else 12) else t
      let rgn := g.trapInfo.getLsbD 17
      let s := modGroup gid (fun g =>
        let g := { g with
          cond := .ready, pc := t, haz := []
          repCtr := if next then 0 else g.repCtr, faultOrd := none
          trapInfo := g.trapInfo &&& ~~~(0x10000#32 ||| 0x20000#32) }
        if rgn then g.openRegion t else g) s
      if g.trapInfo.toNat % 64 = 0x04 && !next then
        match g.faultOrd with
        | none => s
        | some (ord, va, acc, lane) =>
          match faultAnswer s e.team.ctx ord with
          | some true => s
          | some false => takeTrap gid { pageTrap ord va acc lane with decl := true } s
          | none => modGroup gid (fun g => { g with cond := .wait (.fault ord va acc lane false) }) s
      else s

/-! ### Issue (R34, R39, R48) -/

/-- How an instruction's execution ends: complete; complete with the pc moved; ended with the pc and condition as
the body left them; waiting; trapped; or stopped by a translation fault. -/
inductive Res where
  | done (s : State)
  | goto (s : State) (pc : DWord)
  | stay (s : State)
  | wait (s : State) (w : Wait)
  | trap (s : State) (t : Trap)
  | fault (s : State) (va acc lane : Nat)
  deriving DecidableEq, Repr

/-- The view of a guard: a result of an earlier iteration of the repeat is seen (R52). -/
def Env.guardView (e : Env) : Env :=
  if e.grp.haz.any (·.seen) then { e with grp := { e.grp with haz := e.grp.haz.filter fun h => !h.seen } } else e
/-- A guard (R34). -/
def guardTrue (e : Env) (g : BitVec 5) : Bool :=
  (e.guardView.reg 0 ⟨.p, g.toNat % 16, 0⟩ != 0) != g.getLsbD 4
/-- Both guards (R34). -/
def guardsTrue (e : Env) (ga gb : BitVec 5) : Bool := guardTrue e ga && guardTrue e gb

/-- The registers an operand names, in the lanes given. -/
def opRegs (o : Opnd) (n : Nat) (lanes : List Nat) : List RegDst :=
  match o with
  | .v k => lanes.flatMap fun l => (List.range n).map fun i => ⟨.v, k.toNat + i, l⟩
  | .s k => (List.range n).map fun i => ⟨.s, k.toNat + i, 0⟩
  | _ => []
/-- The registers of a position that R39 checks. -/
def posRegs (e : Env) (p : Pos) (o : Opnd) : List RegDst :=
  match p with
  | .use _ n => opRegs o n e.lanes
  | _ => []
/-- The lane that S2 of `rdlane` names, read as n32, in RRI an immediate (R193). -/
def Env.laneIndex (e : Env) (f : Slk) : Nat :=
  if f.fmt = 1 then f.ext.toNat % 2 ^ 20
  else match opImm? f.s2 with
    | some z => ofSigned 32 z
    | none => (e.reg 0 ⟨.s, opNum f.s2, 0⟩).toNat
/-- The registers of a source that is waited for in one lane: S1 of `rdlane` in the lane that S2 names, once S2 can be
read (R193); S2 of `redx` and `scan` in the lowest active lane (R209). -/
def ownRegs (e : Env) (f : Slk) (k : Nat) (p : Pos) (o : Opnd) : List RegDst :=
  match p with
  | .own _ n =>
    if k = 0 then
      if (opRegs f.s2 1 []).any e.grp.isEmpty || decide (e.grant ≤ e.laneIndex f) then [] else opRegs o n [e.laneIndex f]
    else if f.fmt = 1 ∨ e.lanes.isEmpty then [] else opRegs o n [e.firstLane]
  | _ => []
/-- The first source marked trap that is empty: its number and lane (R39). -/
def emptyTrap (e : Env) (h : Shape) (f : Slk) : Option (Nat × Nat) :=
  let chk (k : Nat) (bit : Nat) (p : Pos) (o : Opnd) : Option (Nat × Nat) :=
    if f.fe.getLsbD bit then
      ((posRegs e p o ++ ownRegs e f k p o).find? fun d => e.grp.isEmpty d).map fun d => (k, if d.file = .v then d.lane else 0)
    else none
  (chk 0 2 h.s1 f.s1).orElse fun _ => (chk 1 1 h.s2 f.s2).orElse fun _ => chk 2 0 h.s3 f.s3
/-- The instruction waits on a source or its destination (R37, R39). -/
def waitsEmpty (e : Env) (h : Shape) (f : Slk) : Bool :=
  (posRegs e h.s1 f.s1 ++ posRegs e h.s2 f.s2 ++ posRegs e h.s3 f.s3 ++ posRegs e h.s4 f.s4 ++
    posRegs e h.d f.d).any fun d => e.grp.isEmpty d
/-- The source registers of an instruction that R39 checks. -/
def srcRegs (e : Env) (h : Shape) (f : Slk) : List RegDst :=
  posRegs e h.s1 f.s1 ++ posRegs e h.s2 f.s2 ++ posRegs e h.s3 f.s3 ++ posRegs e h.s4 f.s4
/-- One of the registers has its word in error (R121). -/
def badAmong (e : Env) (ds : List RegDst) : Bool := !e.grp.bad.isEmpty && e.grp.bad.any fun x => ds.contains x.1
/-- A source register's word is in error (R121). -/
def readsBad (e : Env) (h : Shape) (f : Slk) : Bool := badAmong e (srcRegs e h f)
/-- The errors of registers that are read: each single one is corrected, each uncorrectable word becomes poisoned, and both
are logged; the data of these records, core and register, is the model's choice (R121, R447, log 29). -/
def resolveRegs (e : Env) (ds : List RegDst) : State :=
  let after (x : RegDst × Ecc) : Option (RegDst × Ecc) :=
    if !ds.contains x.1 then some x else if x.2 = .single then none else some (x.1, .poison)
  let found := e.grp.bad.filter fun x => ds.contains x.1 && x.2 != .poison
  found.foldl (fun s x =>
      logEvent s (if x.2 = .single then 0x07 else 0x08) e.die (e.core * 2 ^ 32 + x.1.num * 128 + x.1.lane))
    (e.mod fun g => { g with bad := g.bad.filterMap after })
/-- The lowest lane in which a register that is read is uncorrectable (R121, R409). -/
def badLane (e : Env) (ds : List RegDst) : Option Nat :=
  ((e.grp.bad.filter fun x => ds.contains x.1 && x.2 != .single).map (·.1.lane)).min?
/-- Read registers that R121 protects, then go on. -/
def readingRegs (ds : List RegDst) (body : Env → Res) (e : Env) : Res :=
  if badAmong e ds then
    match badLane e ds with
    | some lane => .trap (resolveRegs e ds) { cause := 0x0C, lane := lane }
    | none => body (e.at (resolveRegs e ds))
  else body e

/-- The instruction takes the lanes of the group in beats (R176). -/
def isLane (f : Slk) : Bool :=
  [f.d, f.s1, f.s2, f.s3, f.s4].any fun o => opKind o == .v || opKind o == .q
/-- Time passes for the results still unwritten: beats and STALL (R42, R44). -/
def Group.ageHaz (k : Nat) (g : Group) : Group :=
  { g with haz := g.haz.filterMap fun h => if k < h.left then some { h with left := h.left - k } else none }
/-- The clk that pass, at least, from an instruction's first beat to the next one's (R42). -/
def issueClk (e : Env) (f : Slk) : Nat := (if isLane f then beatsOf e.grant else 1) + f.stall.toNat
/-- Draw fresh free values after a read that may have been early. -/
def bumpFresh (e : Env) (s : State) : State :=
  if e.grp.haz.isEmpty then s else { s with fresh := s.fresh + e.grp.haz.length + 1 }

/-- What becomes of the group when its instruction's execution ends as `r`: `clk` pass. -/
def conclude (e : Env) (clk : Nat) (r : Res) : State :=
  match r with
  | .done s =>
    bumpFresh e (modGroup e.gid (fun g => { g.ageHaz clk with cond := .ready, pc := pcAdd e.grp.pc 12 }) s)
  | .goto s pc => bumpFresh e (modGroup e.gid (fun g => { g.ageHaz clk with cond := .ready, pc := pc }) s)
  | .stay s => bumpFresh e s
  | .wait s w => modGroup e.gid (fun g => { g with cond := .wait w }) s
  | .trap s t => bumpFresh e (raiseTrap e.gid t s)
  | .fault s va acc lane => bumpFresh e (takeFault e.gid va acc lane s)

/-- The trap of a decode fate. -/
def Fate.trap : Fate → Trap
  | .illop => { cause := 0x01 }
  | .illenc => { cause := 0x02 }

/-- The checks of R39 and R48 row 6, then the body. -/
def checked (h : Shape) (f : Slk) (body : Env → Res) (e : Env) : Res :=
  match emptyTrap e h f with
  | some (k, lane) => .trap e.st { cause := 0x03, opnd := k, lane := lane }
  | none =>
    if waitsEmpty e h f then .wait e.st .retry else readingRegs (srcRegs e h f) body e
/-- An instruction's attempt: rows 2 to 6 of R48 in their order, then the body. -/
def attempt (i : Instr) (f : Slk) (body : Env → Res) (e : Env) : Res :=
  match fate e.grp.alloc i with
  | some x => .trap e.st x.trap
  | none =>
    if guardsTrue e f.ga f.gb then
      match shapeOf e.grp.alloc i with
      | some h => checked h f body e
      | none => .done e.st
    else .done e.st
/-- Issue an instruction of the current group. -/
def issue (i : Instr) (f : Slk) (body : Env → Res) (s : State) : Out :=
  match env? s s.cur with
  | none => .fault .noGroup
  | some e => .next (conclude e (issueClk e f) (attempt i f body e))
/-- Issue an instruction that first waits until every earlier fixed-latency result is written (R341, R192). -/
def issueSettled (i : Instr) (f : Slk) (body : Env → Res) (s : State) : Out :=
  issue i f body (modGroup s.cur (fun g => { g with haz := [] }) s)

/-- A translation fault acts as it does outside a region (R298, R404). -/
def faultOutside (e : Env) : Res → Res
  | .fault s va acc lane => .stay (pageFault e.gid va acc lane s)
  | r => r
/-- Commit the open region, then run the body (R402). -/
def committing (body : Env → Res) (e : Env) : Res := body (e.at (commitRegion e.gid e.st))
/-- In early service the instruction traps PROT 0x06 (R446). -/
def inService (body : Env → Res) (e : Env) : Res :=
  if e.st.phase = .run then body e else .trap e.st { cause := 0x06, detail := 0x06 }

end Sys2Proof.Machine
end

