-- ==== Sys2Proof/Machine/Operands.lean ====
section
/-! DEFINITION. Every operand form: registers, predicates, immediates of 8, 20 and 32 bits and their extension by type
(R24, R25, R28, R29, R176, R179), destinations, and the writing of fixed-latency and long-latency results (R36, R44). -/

namespace Sys2Proof.Machine

/-- A source of an instruction: an operand field, imm20 of RRI, or imm32 of RI32 (R27). -/
inductive Src where
  | op (o : Opnd)
  | i20 (x : Nat)
  | i32 (x : Nat)
  deriving DecidableEq, Repr

/-- Source `k` of the `n` of an instruction, from 1: the immediate of RRI or RI32 takes the last (R28, R29). -/
def srcOf (f : Slk) (n k : Nat) : Src :=
  if f.fmt = 1 ∧ k = n then .i20 (f.ext.toNat % 2 ^ 20)
  else if f.fmt = 2 ∧ k = n then .i32 f.ext.toNat
  else match k with
    | 1 => .op f.s1
    | 2 => .op f.s2
    | 3 => .op f.s3
    | _ => .op f.s4

/-- A read of a lane or uniform register's word `k`, or a predicate's bit, in lane `l`. A lane of beat b reads a
uniform register b clk after the first beat. -/
def Env.word (e : Env) (l : Nat) (o : Opnd) (k : Nat) : Word :=
  match o with
  | .v n => e.reg 0 ⟨.v, n.toNat + k, l⟩
  | .s n => e.reg (l / 32) ⟨.s, n.toNat + k, 0⟩
  | .p n => e.reg (l / 32) ⟨.p, n.toNat, 0⟩
  | .q n => e.reg 0 ⟨.q, n.toNat % 8, l⟩
  | _ => 0
/-- The low `n` registers of an operand as one number (R24). -/
def Env.wide (e : Env) (l : Nat) (o : Opnd) : Nat → Nat
  | 0 => 0
  | n + 1 => Env.wide e l o n + (e.word l o n).toNat * 2 ^ (32 * n)
/-- A number is read as a pattern of type `t`: an integer extended to the width, or converted exactly to the float
(R25). -/
def immBits (t : Nat) (z : Int) : Nat :=
  if tyFloat t then fround (fmtOf t) 0 false (ofInt z) else ofSigned (tyBits t) z
/-- The bits of a source of type `t` in lane `l`. -/
def Env.val (e : Env) (t l : Nat) (x : Src) : Nat :=
  match x with
  | .op o => match opImm? o with
    | some z => immBits t z
    | none => e.wide l o (tyRegs t) % 2 ^ tyBits t
  | .i20 x => if tySigned t || tyFloat t then ofSigned (tyBits t) (toSigned 20 x) else x
  | .i32 x =>
    if t = 4 then ofSigned 64 (toSigned 32 x)
    else if t = 7 then fround (fmtOf 7) 0 false (f32v x)
    else x % 2 ^ tyBits t
/-- A count, index, shift, offset or size: one 32-bit operand read as n32 (R179); none reads 0. -/
def Env.n32 (e : Env) (l : Nat) (x : Src) : Nat := e.val 1 l x
/-- A predicate operand in lane `l`; none reads 0 (R208). -/
def Env.pred (e : Env) (l : Nat) (o : Opnd) : Bool := e.word l o 0 != 0
/-- A uniform operand read as n32, with a value for none. -/
def Env.uni (e : Env) (o : Opnd) (dflt : Nat) : Nat := if o = .none then dflt else e.n32 0 (.op o)

/-! ### Where an instruction executes (R176) -/

/-- The destination is per lane. -/
def laneDst (o : Opnd) : Bool := opKind o == .v || opKind o == .q
/-- The lanes an instruction with destination `d` executes in: the active lanes, or once. -/
def Env.execLanes (e : Env) (d : Opnd) : List Nat := if laneDst d then e.lanes else [0]

/-! ### Destinations -/

/-- The writes that put `x` into `n` registers of a destination in lane `l` (R24). -/
def dstWrites (o : Opnd) (n l x : Nat) : List RegWrite :=
  let word (k : Nat) : Word := BitVec.ofNat 32 (x >>> (32 * k))
  match o with
  | .v r => (List.range n).map fun k => ⟨⟨.v, r.toNat + k, l⟩, word k⟩
  | .s r => (List.range n).map fun k => ⟨⟨.s, r.toNat + k, 0⟩, word k⟩
  | .p r => [⟨⟨.p, r.toNat, 0⟩, if x = 0 then 0 else 1⟩]
  | .q r => [⟨⟨.q, r.toNat % 8, l⟩, if x = 0 then 0 else 1⟩]
  | _ => []
/-- A narrow result fills its register: copies of the sign for i8 and i16, zeros otherwise (R76). -/
def narrowFill (t x : Nat) : Nat :=
  if t = 10 ∨ t = 12 then ofSigned 32 (toSigned (tyBits t) x) else x

/-- The unwritten results of a register once a later one is written after `l` clk: a reader that is to see the later one
sees none of them (R44). -/
def capHaz (ds : List RegDst) (l : Nat) (h : Haz) : Haz := if ds.contains h.dst then { h with left := min h.left l } else h
/-- Write fixed-latency results: at once, and in native mode they may be read early for the next clk (R44, R45). -/
def writeFixed (e : Env) (laneL uniL : Nat) (ws : List RegWrite) : State :=
  e.mod fun g =>
    let g' := g.putRegs ws
    if e.team.interlock then g'
    else
      let lat (d : RegDst) : Nat := if d.file = .v ∨ d.file = .q then laneL else uniL
      let old := g'.haz.map fun h => capHaz (ws.map (·.dst)) (lat h.dst) h
      { g' with haz := (ws.map fun w => ⟨w.dst, g.reg w.dst, lat w.dst, false⟩).reverse ++ old }
/-- Post long-latency results: the registers are empty until written (R36). Predicates are written at once. -/
def writeLong (e : Env) (rgn : Bool) (ws : List RegWrite) (s : State) : State :=
  let isReg (w : RegWrite) : Bool := w.dst.file == .v || w.dst.file == .s
  let ps := ws.filter fun w => !isReg w
  let s := modGroup e.gid (Group.setRegs ps) s
  if ws.any isReg then postRegs e.gid e.team.ctx e.team.core rgn (ws.filter isReg) s else s

/-- A fixed-latency instruction that computes `fn` in each lane it executes in, into `n` registers of D. -/
def fixedBody (f : Slk) (laneL uniL n : Nat) (fn : Env → Nat → Nat) (e : Env) : Res :=
  .done (writeFixed e laneL uniL ((e.execLanes f.d).flatMap fun l => dstWrites f.d n l (fn e l)))
/-- A long-latency instruction that computes `fn` in each lane it executes in, into `n` registers of D. -/
def longBody (f : Slk) (n : Nat) (fn : Env → Nat → Nat) (e : Env) : Res :=
  .done (writeLong e false ((e.execLanes f.d).flatMap fun l => dstWrites f.d n l (fn e l)) e.st)

/-! ### Pointers and pairs -/

/-- A uniform pair (R24). -/
def Env.pair (e : Env) (o : Opnd) : Nat := e.wide 0 o 2
/-- The number of a base register operand. -/
def baseNum (o : Opnd) : Option Nat := match o with | .b n => some n.toNat | _ => none
/-- A base register record (R126). -/
def Env.base (e : Env) (n : Nat) : BaseRec := (Assoc.get? e.grp.b n).getD .empty

end Sys2Proof.Machine
end

