-- ==== Sys2Proof/Machine/Flags.lean ====
section
/-! DEFINITION. Predicates computed from values: the conditions of `icmp` and `fcmp` (R187, R197), the class mask of
`fclass` (R198), and the functions of `ballot`, `vote` and `plog` (R206 to R208). -/

namespace Sys2Proof.Machine

/-- A condition of R187 on an order. -/
def ccOrd (cc : Nat) (o : Ordering) : Bool :=
  match cc with
  | 0 => o == .eq
  | 1 => o != .eq
  | 2 => o == .lt
  | 3 => o != .gt
  | 4 => o == .gt
  | 5 => o != .lt
  | _ => false
/-- The order of two patterns of integer type `t`; b types are unsigned (R187). -/
def intOrder (t x y : Nat) : Ordering :=
  if tySigned t then compare (toSigned (tyBits t) x) (toSigned (tyBits t) y) else compare x y
/-- `icmp` (R187). -/
def icmpHolds (cc t x y : Nat) : Bool := ccOrd cc (intOrder t x y)
/-- `fcmp` (R197): UN is 6 and OR is 7; with a NaN every condition is false but NE and UN. -/
def fcmpHolds (cc : Nat) (x y : FV) : Bool :=
  match fcmp x y with
  | none => cc == 1 || cc == 6
  | some o => cc == 7 || ccOrd cc o
/-- The class mask of stored bits (R198). -/
def fclassMask (f : FFmt) (x : Nat) : Nat :=
  match fdec f x with
  | .nan => 2 ^ 8
  | .inf neg => if neg then 1 else 2 ^ 7
  | .num neg m _ =>
    if m = 0 then (if neg then 2 ^ 3 else 2 ^ 4)
    else if fsub f x then (if neg then 2 ^ 2 else 2 ^ 5)
    else (if neg then 2 else 2 ^ 6)
/-- `plog` (R208). -/
def plogBit (lut : Nat) (a b c : Bool) : Bool :=
  bitAt lut ((if c then 4 else 0) + (if b then 2 else 0) + (if a then 1 else 0))
/-- Bits `n` of a ballot word (R206): `sel` at lanes w × n on. -/
def ballotBits (n w : Nat) (sel : Nat → Bool) : Nat :=
  (List.range n).foldl (fun a j => if sel (w * n + j) then a + 2 ^ j else a) 0

end Sys2Proof.Machine
end

