-- ==== Sys2Proof/Machine/Convert.lean ====
section
/-! DEFINITION. The five conversion instructions (R76 to R80), and the block arithmetic other chapters share (R66 to
R70). -/

namespace Sys2Proof.Machine

/-- A convert type names a float: codes 2 and 6 are e2m1 and e8m0 there (R33). -/
def cvFloat (t : Nat) : Bool := [2, 3, 6, 7, 8, 9, 14, 15].contains t
/-- The width of a convert type. -/
def cvBits (t : Nat) : Nat := if t = 2 then 4 else if t = 6 then 8 else tyBits t
/-- An e8m0 code (R63). -/
def e8m0Val (x : Nat) : FV := if x % 256 = 255 then .nan else .num false 1 ((x % 256 : Nat) - 127)
/-- An e2m1 code outside any block: the spare code reads as +0 (R67). -/
def e2m1Val (x : Nat) : FV := if x % 16 = 8 then .num false 0 0 else fdec (fmtOf 2) (x % 16)
/-- A code of a convert type as a value, without flushing. -/
def cvDec (t x : Nat) : FV :=
  if t = 2 then e2m1Val x else if t = 6 then e8m0Val x else fdec (fmtOf t) (x % 2 ^ cvBits t)
/-- Flush a subnormal input where SUB applies to its type (R73). -/
def cvIn (rmode t x : Nat) : FV :=
  if t = 2 ∨ t = 6 then cvDec t x else fdec (fmtOf t) (fin rmode (fmtOf t) (x % 2 ^ cvBits t))
/-- Flush a result where SUB applies (R73). -/
def cvOut (rmode t x : Nat) : Nat := if t = 2 then x else fout rmode (fmtOf t) x
/-- −0 is written 0b0000 in e2m1 (R77). -/
def e2m1Fix (t x : Nat) : Nat := if t = 2 ∧ x = 8 then 0 else x
/-- Effective saturation: MOD.SAT, or RMODE.SAT when the conversion narrows (R74). -/
def effSat (rmode dt st : Nat) (sat : Bool) : Bool := sat || (rmSat rmode && decide (cvBits dt < cvBits st))
/-- A source pattern of integer type as a number. -/
def cvInt (t x : Nat) : Int :=
  if tySigned t then toSigned (tyBits t) x else ((x % 2 ^ tyBits t : Nat) : Int)
/-- The range of an integer convert type. -/
def cvLo (t : Nat) : Int := if tySigned t then -(2 ^ (tyBits t - 1) : Nat) else 0
/-- Its greatest value. -/
def cvHi (t : Nat) : Int := if tySigned t then (2 ^ (tyBits t - 1) : Nat) - 1 else (2 ^ tyBits t : Nat) - 1
/-- `cvt` on a pattern of type `st`; the result has the width of `dt` (R77). -/
def convert (rmode dt st : Nat) (sat : Bool) (x : Nat) : Nat :=
  if cvFloat dt then
    let v : FV := if cvFloat st then cvIn rmode st x else ofInt (cvInt st x)
    let r := fround (fmtOf dt) (rmRm rmode) (effSat rmode dt st sat) v
    e2m1Fix dt (cvOut rmode dt r)
  else
    let w := tyBits dt
    if cvFloat st then
      match cvIn rmode st x with
      | .nan => 0
      | .inf neg => ofSigned w (if neg then cvLo dt else cvHi dt)
      | v => ofSigned w (max (cvLo dt) (min (cvHi dt) (fvInt (rmFor w (rmRm rmode)) v)))
    else
      let y := cvInt st x
      if effSat rmode dt st sat then ofSigned w (max (cvLo dt) (min (cvHi dt) y)) else ofSigned w y
/-- A source's pattern of a convert type: an immediate is converted to it (R25, R76). -/
def Env.cvSrc (e : Env) (st l : Nat) (o : Opnd) : Nat :=
  if opKind o == .imm then e.val st l (.op o)
  else if cvtRegs st = 2 then e.wide l o 2 else e.n32 l (.op o)
/-- The converted value, as its register holds it. -/
def cvtVal (f : Slk) (e : Env) (l : Nat) : Nat :=
  narrowFill (fTy f) (convert e.grp.rmode.toNat (fTy f) (fSt f) (fV f) (e.cvSrc (fSt f) l f.s1))
/-- `cvt`. -/
def execCvt (f : Slk) (s : State) : Out := issue (.cvt f) f (fixedBody f 6 6 (cvtRegs (fTy f)) (cvtVal f)) s

/-! ### Blocks (R66 to R68, R78, R79) -/

/-- A spare code as a value: 0x00, 0x80 and NaN give zero (R67). -/
def spareVal (sp : Nat) : FV :=
  match fdec (fmtOf 14) (sp % 256) with
  | .nan => .num false 0 0
  | v => if v.isZero then .num false 0 0 else v
/-- An element of a block: `decode(code, spare)` (R66, R67). -/
def blockDec (t code sp : Nat) : FV :=
  if t = 2 then (if code % 16 = 8 then spareVal sp else fdec (fmtOf 2) (code % 16)) else fdec (fmtOf t) (code % 256)
/-- An element of a block with its scale (R68). -/
def blockVal (t code sp scale : Nat) : FV :=
  if scale % 256 = 255 then .nan else (blockDec t code sp).scale ((scale % 256 : Nat) - 127)

/-- The exponent of a block whose largest magnitude is `a` (R78). -/
def blockExp (dt : Nat) (a : FV) : Int :=
  match a with
  | .num _ (m + 1) e =>
    let q : Int := if dt = 2 then 2 else if dt = 14 then 8 else 15
    max (-127) (min 127 ((log2 (m + 1) : Int) + e - q))
  | _ => 0
/-- The spare chosen for an e2m1 block: |M| / 2^e rounded to e4m3 when it exceeds 6 (R78). -/
def blockSpare (rmode dt : Nat) (a : FV) (x : Int) : Nat :=
  let y := a.scale (-x)
  if dt = 2 && fcmp y (ofInt 6) == some .gt then fround (fmtOf 14) (rmRm rmode) false y else 0
/-- A nonnegative value onto {0 … 6} extended by the spare; between 6 and the spare the mode of the rest of the grid
applies, the spare's place being the even one (R78). Where the spare itself rounds to 6, the grid has two codes of that
value: 6 keeps 0b0111 and more than 6 gets the spare's, which is the model's choice (log 29). -/
def gridCode (rmode : Nat) (y : FV) (sp : Nat) : Nat :=
  let v := spareVal sp
  let rm := rmFor 4 (rmRm rmode)
  if sp = 0 || fcmp y (ofInt 6) != some .gt then fround (fmtOf 2) (rmRm rmode) true y % 8
  else if fcmp y v != some .lt || rm = 3 then 8
  else if rm = 1 ∨ rm = 2 ∨ fcmp (fsum false [y, y]) (fsum false [v, ofInt 6]) = some .lt then 7
  else 8
/-- `qblk` on patterns of type `st`: the element and the block's largest magnitude (R78). -/
def quantise (rmode dt st x m : Nat) : Nat :=
  let a := (cvIn rmode st m).abs
  match a with
  | .nan | .inf _ => 0xFF * 2 ^ 16
  | _ =>
    let e := blockExp dt a
    let sp := blockSpare rmode dt a e
    let v := cvIn rmode st x
    let y := v.scale (-e)
    let code :=
      if v.isNan then (fmtOf dt).nanBits
      else if dt = 2 then
        match v with
        | .inf true => 15
        | .inf false => if sp ≠ 0 then 8 else 7
        | _ =>
          if y.sign && !y.isZero then
            let c := fround (fmtOf 2) (rmRm rmode) true y.abs % 8
            if c = 0 then 0 else 8 + c
          else gridCode rmode y sp
      else match v with
        | .inf neg => (fmtOf dt).signed neg (fmtOf dt).maxBits
        | _ => cvOut rmode dt (fround (fmtOf dt) (rmRm rmode) true y)
    code + sp * 2 ^ 8 + (e + 127).toNat * 2 ^ 16
/-- The quantised element with its spare and scale. -/
def qblkVal (f : Slk) (e : Env) (l : Nat) : Nat :=
  quantise e.grp.rmode.toNat (fTy f) (fSt f) (e.cvSrc (fSt f) l f.s1) (e.cvSrc (fSt f) l f.s2)
/-- `qblk`. -/
def execQblk (f : Slk) (s : State) : Out := issue (.qblk f) f (fixedBody f 10 10 1 (qblkVal f)) s

/-- `dqblk` on a code, spare and scale (R79). With flush inputs a subnormal 8-bit code is flushed; that a subnormal spare,
which R73 does not name as an operand, is not, here and in the matrix readers, is the model's choice (log 29). -/
def dequantise (rmode dt st : Nat) (sat : Bool) (code sp scale : Nat) : Nat :=
  if scale % 256 = 255 then (fmtOf dt).nanBits
  else
    let c := if st = 2 then code % 16 else fin rmode (fmtOf st) (code % 256)
    ffin (fmtOf dt) rmode sat (blockVal st c sp scale)
/-- The dequantised element. An immediate S2 is read as a sign-extended n32 word: R79 does not say whether R25 admits one
for the spare and scale, and that it does is the model's choice (log 29). -/
def dqblkVal (f : Slk) (e : Env) (l : Nat) : Nat :=
  let y := e.cvSrc 1 l f.s2
  dequantise e.grp.rmode.toNat (fTy f) (fSt f) (fV f) (e.cvSrc 1 l f.s1) (y >>> 8) (y >>> 16)
/-- `dqblk`. -/
def execDqblk (f : Slk) (s : State) : Out := issue (.dqblk f) f (fixedBody f 10 10 1 (dqblkVal f)) s

/-! ### Bit planes (R69, R70, R80) -/

/-- `bpk`: element-major bits to plane fragments, `n` elements of `b` bits. -/
def bpkBits (b n x : Nat) : Nat :=
  (List.range (b * n)).foldl (fun a k => if bitAt x (b * (k % n) + k / n) then a + 2 ^ k else a) 0
/-- `bupk`: the inverse. -/
def bupkBits (b n x : Nat) : Nat :=
  (List.range (b * n)).foldl (fun a k => if bitAt x (n * (k % b) + k / b) then a + 2 ^ k else a) 0
/-- Element bits of the type. -/
def planeBits (t : Nat) : Nat := if t = 2 then 4 else 8
/-- The 64 bits of the source: a pair of registers, or an immediate extended to that width (R25, R76). -/
def planeSrc (f : Slk) (e : Env) (l : Nat) : Nat :=
  match opImm? f.s1 with
  | some z => ofSigned 64 z
  | none => e.wide l f.s1 2
/-- The plane fragments. -/
def bpkVal (f : Slk) (e : Env) (l : Nat) : Nat :=
  bpkBits (planeBits (fTy f)) (64 / planeBits (fTy f)) (planeSrc f e l)
/-- `bpk`. -/
def execBpk (f : Slk) (s : State) : Out := issue (.bpk f) f (fixedBody f 6 6 2 (bpkVal f)) s
/-- The elements. -/
def bupkVal (f : Slk) (e : Env) (l : Nat) : Nat :=
  bupkBits (planeBits (fTy f)) (64 / planeBits (fTy f)) (planeSrc f e l)
/-- `bupk`. -/
def execBupk (f : Slk) (s : State) : Out := issue (.bupk f) f (fixedBody f 6 6 2 (bupkVal f)) s

end Sys2Proof.Machine
end

