-- ==== Sys2Proof/Machine/Access.lean ====
section
/-! DEFINITION. Local addresses (R122 to R124), global addresses and their checks (R128, R132, R450), what releases
wait for and acquires do (R108, R382, R383), and what accesses wait for (R131, R135, R261). -/

namespace Sys2Proof.Machine

/-! ### Local addresses -/

/-- The boundary registers of a core (R117). -/
def State.pbOf (s : State) (core : Nat) : Pb := (Assoc.get? s.pb core).getD .zero
/-- The core at column `cx`, row `cy` of a team's cluster rectangle (R123). -/
def Team.coreAt (t : Team) (cx cy : Nat) : Nat := coreDie t.core * 192 + 16 * (t.ry0 + cy) + t.rx0 + cx
/-- The cluster's team on a core (R123). -/
def clusterTeam (s : State) (t : Team) (core : Nat) : Option Team :=
  if core = t.core then some t
  else s.teams.find? fun u => u.core == core && u.ctx == t.ctx && u.grid == t.grid && u.cluster == t.cluster
/-- The first byte of a team's scratchpad window (`ring` false) or ring window, as a pool key (R118). -/
def windowKey (s : State) (t : Team) (ring : Bool) : Nat :=
  let pb := s.pbOf t.core
  poolKey t.core (4096 * (if ring then pb.sp + t.win * (t.ring / 4) else pb.reg + t.win * (t.sp / 4)))
/-- The bytes of a window (R124). -/
def Team.window (t : Team) (ring : Bool) : Nat := 1024 * (if ring then t.ring else t.sp)
/-- A local address resolved: the pool key, and the core it lies on; or a trap's cause and detail (R124). -/
def localLook (s : State) (t : Team) (a size align : Nat) : Except (Nat × Nat) (Nat × Nat) :=
  let space := field a 30 2
  let rmt := bitAt a 29
  let cx := field a 21 4
  let cy := field a 25 4
  let off := a % 2 ^ 21
  if 2 ≤ space then .error (0x0E, 0)
  else if space = 1 && rmt && t.coreAt cx cy != t.core then .error (0x0E, 0)
  else if rmt && (decide (t.cw ≤ cx) || decide (t.ch ≤ cy)) then .error (0x0E, 0)
  else if t.window (space == 1) < off + size then .error (0x05, 0x03)
  else if off % align ≠ 0 then .error (0x07, 0)
  else
    let core := if rmt then t.coreAt cx cy else t.core
    match clusterTeam s t core with
    | none => .error (0x0E, 0)
    | some u => .ok (windowKey s u (space == 1) + off, core)
/-- The trap of a local address. -/
def localTrap (s : State) (a lane acc : Nat) (cd : Nat × Nat) : Res :=
  .trap s { cause := cd.1, detail := cd.2, addr := a, lane := lane, acc := acc }

/-! ### Operands of memory words (R30) -/

/-- The size in bytes of SZ (R32). -/
def szBytes (f : Slk) : Nat := 2 ^ fSz f
/-- The offset S2: a register as n32, a sign-extended immediate, or none (R30, R132). -/
def Env.offset (e : Env) (l : Nat) (o : Opnd) : Int :=
  match opImm? o with
  | some z => z
  | none => if o = .none then 0 else (e.n32 l (.op o) : Nat)
/-- The lanes a memory word acts in: once when all its operands are uniform (R133). -/
def Env.memLanes (e : Env) (f : Slk) : List Nat := if isLane f then e.lanes else [0]
/-- A local address (R132). -/
def Env.localAddr (e : Env) (f : Slk) (disp : Int) (l : Nat) : Nat :=
  ofSigned 32 ((e.uni f.s1 0 : Nat) + e.offset l f.s2 + disp)
/-- Resolve the local address of each lane, in order; the first that fails traps (R124). -/
def resolveLocal (e : Env) (addr : Nat → Nat) (size align acc : Nat) :
    List Nat → Except Res (List (Nat × Nat × Nat × Nat))
  | [] => .ok []
  | l :: ls =>
    match localLook e.st e.team (addr l) size align with
    | .error cd => .error (localTrap e.st (addr l) l acc cd)
    | .ok (k, core) => match resolveLocal e addr size align acc ls with
      | .error r => .error r
      | .ok xs => .ok ((l, addr l, k, core) :: xs)

/-! ### Global addresses -/

/-- A base of a global access: a base register's record, or a pointer (R30). -/
inductive GBase where
  | rec_ (b : BaseRec)
  | ptr (p : Nat)
  deriving DecidableEq, Repr

/-- The base S1 names. -/
def Env.gbase (e : Env) (o : Opnd) : GBase :=
  match o with
  | .b n => .rec_ (e.base n.toNat)
  | .s n => .ptr (e.wide 0 (.s n) 2)
  | _ => .ptr 0
/-- The pointer of a base. -/
def GBase.pointer : GBase → Nat
  | .rec_ b => b.ptr.toNat
  | .ptr p => p
/-- The VA of a displacement from a base. -/
def GBase.va (b : GBase) (x : Int) : Int := (b.pointer % 2 ^ 57 : Nat) + x
/-- A permission of a base register's run: R in bit 0, W in bit 1, X in bit 2 (R126). -/
def BaseRec.allows (b : BaseRec) (a : Acc) : Bool := allowed a (b.perm.getLsbD 0) (b.perm.getLsbD 1) (b.perm.getLsbD 2)
/-- The fast path of R128 applies. -/
def BaseRec.fast (b : BaseRec) (x : Int) (size : Nat) (a : Acc) : Bool :=
  decide (0 ≤ x ∧ x + size ≤ b.run.toNat) && b.allows a && (!a.writes || b.dw)
/-- The checks of R450 that come before the page: the first that fails, or a hold, and TRAPADDR. -/
def globalCheck (s : State) (c : Nat) (b : GBase) (x : Int) (size align : Nat) (a : Acc) : State × Option (Look × Nat) :=
  let va := b.va x
  let addr := ofSigned 64 va
  let rid := b.pointer / 2 ^ 57 % 128
  if (match b with | .rec_ r => !r.valid | .ptr _ => false) then (s, some (.bad 0x05 0x02, 0))
  else if (match b with
      | .rec_ r => rid != 0 && (decide (x < 0) || decide ((r.bound.toNat : Int) < x + size))
      | .ptr _ => false) then (s, some (.bad 0x05 0x02, addr))
  else if va < 0 || (2 ^ 57 : Int) < va + size then (s, some (.bad 0x05 0x02, addr))
  else if va.toNat % align ≠ 0 then (s, some (.bad 0x07 0, addr))
  else
    let (s, q) := regionCheck s c rid va.toNat size a
    (s, q.map fun l => (l, addr))
/-- The page of an access that lies in one page (R450, R128). -/
def globalPage (s : State) (c : Nat) (b : GBase) (x : Int) (size : Nat) (a : Acc) : State × Look :=
  let walk := pageLook s c (b.pointer / 2 ^ 57 % 128) (b.va x).toNat a
  match b with
  | .rec_ r =>
    if r.fast x size a then
      let loc := r.node.toNat * 2 ^ 48 + (r.frame.toNat + x.toNat)
      match nodeFault s r.node.toNat (paOf loc) with
      | some d => (s, .bad 0x06 d)
      | none => (s, .ok loc r.ca.toNat)
    else walk
  | .ptr _ => walk
/-- One lane's resolved access: lane, VA, location, cache attribute. -/
structure LaneAcc where
  lane : Nat
  va : Nat
  loc : Nat
  ca : Nat
  deriving DecidableEq, Repr
/-- A check of a lane's access that does not pass: its trap, its translation fault, or a wait. -/
def lookRes (s : State) (va lane : Nat) (a : Acc) : Look → Res
  | .fault => .fault s va a.code lane
  | .bad k d => .trap s { cause := k, detail := d, addr := va, lane := lane, acc := a.code }
  | _ => .wait s .retry
/-- The page of one access; `deny` gives the locations the instruction itself refuses, PROT 0x05. -/
def resolvePage (e : Env) (b : GBase) (x : Int) (size : Nat) (a : Acc) (deny : Nat → Nat → Bool) (l : Nat) (s : State) :
    Except Res (State × LaneAcc) :=
  let va := ofSigned 64 (b.va x)
  match globalPage s e.team.ctx b x size a with
  | (s, .ok loc ca) =>
    if deny loc ca then .error (.trap s { cause := 0x06, detail := 0x05, addr := va, lane := l, acc := a.code })
    else .ok (s, ⟨l, va, loc, ca⟩)
  | (s, r) => .error (lookRes s va l a r)
/-- Check every lane in ascending order before any access is performed (R132, R450). -/
def resolveGlobal (e : Env) (b : GBase) (disp : Nat → Int) (size align : Nat) (a : Acc) (deny : Nat → Nat → Bool) :
    State → List Nat → Except Res (State × List LaneAcc)
  | s, [] => .ok (s, [])
  | s, l :: ls =>
    match globalCheck s e.team.ctx b (disp l) size align a with
    | (s, some (r, va)) => .error (lookRes s va l a r)
    | (s, none) => match resolvePage e b (disp l) size a deny l s with
      | .error r => .error r
      | .ok (s, y) => match resolveGlobal e b disp size align a deny s ls with
        | .error r => .error r
        | .ok (s, ys) => .ok (s, y :: ys)
/-- Nothing is refused. -/
def allowAll (_ _ : Nat) : Bool := false
/-- The pages of a range, in address order, with the bytes in each. -/
def resolvePieces (e : Env) (b : GBase) (a : Acc) : List (Nat × Nat) → State → Except Res (State × List (LaneAcc × Nat))
  | [], s => .ok (s, [])
  | (va, n) :: ps, s =>
    match resolvePage e b ((va : Int) - (b.pointer % 2 ^ 57 : Nat)) n a allowAll 0 s with
    | .error r => .error r
    | .ok (s, y) => match resolvePieces e b a ps s with
      | .error r => .error r
      | .ok (s, ys) => .ok (s, (y, n) :: ys)
/-- Check a range of any length: the checks before the page on all of it, then each 4 KiB page (R450). -/
def resolveRange (e : Env) (b : GBase) (x : Int) (n align : Nat) (a : Acc) (s : State) :
    Except Res (State × List (LaneAcc × Nat)) :=
  match globalCheck s e.team.ctx b x n align a with
  | (s, some (r, va)) => .error (lookRes s va 0 a r)
  | (s, none) => resolvePieces e b a (segs 4096 (b.va x).toNat n) s

/-! ### Loads and stores of a region (R136, R403) -/

/-- The byte of a store at a location, if it has one. -/
def Store.byteAt (st : Store) (a : Nat) : Option Byte := if st.loc ≤ a then st.data[a - st.loc]? else none
/-- A byte under the buffered stores of the open region: the latest that holds it (R136). -/
def forwardByte (buf : List Store) (a : Nat) (b : Byte) : Byte := (buf.reverse.findSome? fun st => st.byteAt a).getD b
/-- Loaded bytes with the buffered bytes over them (R403). -/
def forwarded (g : Group) (loc : Nat) (bs : List Byte) : List Byte :=
  match g.region with
  | none => bs
  | some r => ((List.range bs.length).zip bs).map fun (i, b) => forwardByte r.buf (loc + i) b
/-- The distinct lines of a list of stores. -/
def storeLines (sts : List Store) : List Nat :=
  (sts.flatMap fun st => (segs 128 st.loc st.data.length).map fun (a, _) => a / 128).eraseDups
/-- The first of a list of stores that needs a 49th line in a buffer (R403). -/
def overflowing (buf : List Store) : List Store → List LaneAcc → Option LaneAcc
  | st :: sts, x :: xs =>
    if 48 < (storeLines (buf ++ [st])).length then some x else overflowing (buf ++ [st]) sts xs
  | _, _ => none
/-- Stores of an instruction in its lanes: issued, or held in the open region's buffer of 48 lines (R106, R403). Each
lane's store is one of its own: R88 and R99 do not say whether lanes that together cover a sector store all of it, and
that they do not is the model's choice (log 29). -/
def putStores (e : Env) (sts : List Store) (xs : List LaneAcc) (s : State) : Res :=
  match e.grp.region with
  | none => .done (sts.foldl (fun s st => issueStore e.gid e.team.ctx e.core st s) s)
  | some r =>
    if 48 < (storeLines (r.buf ++ sts)).length then
      .trap s { cause := 0x11, acc := 1, lane := ((overflowing r.buf sts xs).map (·.lane)).getD 0 }
    else .done (modGroup e.gid (fun g => { g with region := some { r with buf := r.buf ++ sts } }) s)

/-! ### Order (R261, R379, R382) -/

/-- Two byte ranges meet. -/
def overlap (a n b m : Nat) : Bool := decide (a < b + m ∧ b < a + n)
/-- The bytes a posted operation will still write at a global location. -/
def Pend.span (p : Pend) : Option (Nat × Nat) :=
  match p.kind with
  | .store st => some (st.loc, st.data.length)
  | .atom r => some (r.loc, if r.wide then 8 else 4)
  | .train loc _ _ _ => some (loc, 8)
  | _ => none
/-- The bytes of a Beryl record of dimension code `dimc` (R306). -/
def recordBytes (dimc : Nat) : Nat := 16 * 2 ^ dimc + 8
/-- Where a posted Beryl operation may still write records, and how many bytes: a dump's destination, or the spill area
(R310, R318). -/
def recordArea (s : State) (p : Pend) : Option (Nat × Nat) :=
  match p.kind with
  | .beryl _ bank op => match Assoc.get? s.beryl bank with
    | none => none
    | some b =>
      let cfg := b.cfg.toNat
      let r := recordBytes (field cfg 0 3)
      match op with
      | .cdump ptr n _ done _ _ _ => some (ptr.toNat + done * r, (min n 65536 - done) * r)
      | .cins _ _ =>
        if field cfg 5 2 = 2 then some (field cfg 64 64 + b.spcnt * r, (field cfg 128 16 - b.spcnt) * r) else none
      | _ => none
  | _ => none
/-- A posted operation may still write one of the bytes (R313, R379). -/
def Pend.touches (s : State) (p : Pend) (loc n : Nat) : Bool :=
  match p.span, recordArea s p with
  | some (a, m), _ => overlap a m loc n
  | none, some (ptr, m) => (segs 4096 ptr m).any fun (a, k) => match (translatePtr s p.ctx a 0 1 1 .write).2 with
    | .ok l _ => overlap l k loc n
    | _ => false
  | none, none => false
/-- A read of `n` bytes waits: the group has an operation to one of them in flight (R261, R379), or, where L1 does not
serve it, the core has a store in flight to the line (R379). -/
def loadBlocked (e : Env) (s : State) (loc n : Nat) (hit : Bool) : Bool :=
  s.pend.any fun p => match p.kind, p.span with
    | .store st, some (a, m) =>
      (p.owner == e.gid && st.scat && overlap a m loc n) ||
      (p.core == e.core && !hit && overlap a m (loc / 128 * 128) 128)
    | _, _ => p.owner == e.gid && p.touches s loc n
/-- An operation of the group issued before `id` (any, without one) must be performed first: an ordinary store, or
one that meets the bytes (R260, R261). -/
def mustWait (s : State) (owner : Gid) (id : Option Nat) (loc n : Nat) : Bool :=
  s.pend.any fun q => q.owner == owner && (match id with | some i => decide (q.id < i) | none => true) &&
    (match q.kind with
      | .store st => !st.scat || overlap st.loc st.data.length loc n
      | _ => q.touches s loc n)
/-- Where the elements of a list operation that are still to be performed lie, as its index words now stand (R261, R276):
location and cache attribute. -/
def listTargets (s : State) (p : Pend) (g : Garnet) : List (Nat × Nat) :=
  match s.team? p.owner.team with
  | none => []
  | some t => (List.range (g.count - g.done)).filterMap fun j =>
      match localLook s t (g.list + 4 * (g.done + j)) 4 4 with
      | .error _ => none
      | .ok (k, _) =>
        let x := poolNat s k 4
        if x = 0xFFFFFFFF then none
        else match (translatePtr s p.ctx g.base.toNat (((x : Int) + g.disp) * g.size) g.size 1
            (if g.gather then .read else .write)).2 with
          | .ok l ca => some (l, ca)
          | _ => none
/-- An element of a list operation still to be performed touches the bytes (R261). -/
def listTouches (s : State) (p : Pend) (g : Garnet) (loc n : Nat) : Bool :=
  (listTargets s p g).any fun (l, _) => overlap l g.size loc n
/-- The group has a list operation in progress, issued before `id` (any, without one), that an access must follow: a
scatter, or for a write any (R261). -/
def listBefore (s : State) (owner : Gid) (id : Option Nat) (writes : Bool) (loc n : Nat) : Bool :=
  s.pend.any fun p => p.owner == owner && (match id with | some i => decide (p.id < i) | none => true) &&
    (match p.kind with
      | .garnet g => (writes || !g.gather) && listTouches s p g loc n
      | _ => false)
/-- The same for an access the group issues now. -/
def listBlocks (e : Env) (s : State) (writes : Bool) (loc n : Nat) : Bool := listBefore s e.gid none writes loc n
/-- An atomic or scatter of the core on its way to a line keeps the line out of L1 (R260). -/
def l1Locked (s : State) (core line : Nat) : Bool :=
  s.pend.any fun p => p.core == core && (match p.kind with
    | .atom r => r.loc / 128 == line
    | .train loc _ _ _ => loc / 128 == line
    | .store st => st.scat && st.loc / 128 == line
    | .garnet g => !g.gather && listTouches s p g (128 * line) 128
    | _ => false)
/-- The hint a load of the line acts under: without L1 where an operation in flight keeps the line out (R260). -/
def loadCh (s : State) (core line ch : Nat) : Nat := if l1Locked s core line then (if noRdc ch then 7 else 3) else ch
/-- A load of bytes of one line must wait (R261, R379, R281, R443). -/
def loadWaits (e : Env) (s : State) (ch : Nat) (x : LaneAcc) (n : Nat) : Bool :=
  let line := x.loc / 128
  let ch := loadCh s e.core line ch
  loadBlocked e s x.loc n (l1Serves s e.core line (x.ca == 0) ch) ||
    (needsHome s e.core line (x.ca == 0) ch && lineHeld s x.loc n)
/-- Pieces cut at sectors. -/
def sectorPieces (xs : List (LaneAcc × Nat)) : List (LaneAcc × Nat) :=
  xs.flatMap fun (x, n) => (segs 64 x.loc n).map fun (a, m) =>
    (⟨x.lane, x.va + (a - x.loc), a, x.ca⟩, m)
/-- What a load's hint does to the lines it has read, seen from the state before: their priorities, and under `.last` no L1
copy stays (R109). -/
def afterLoad (core ch : Nat) (s0 : State) (xs : List (LaneAcc × Nat)) (s : State) : State :=
  xs.foldl (init := s) fun s (x, n) => if x.ca ≠ 0 || inMgmt x.loc then s else
    (segs 128 x.loc n).foldl (init := s) fun s (a, _) =>
      prioLoad s0 core (a / 128) ch (if ch = 4 then l1Drop s core (a / 128) else s)

/-- A posted operation of the group was issued before `id` (any, without one). -/
def Pend.before (p : Pend) (owner : Gid) (id : Option Nat) : Bool :=
  p.owner == owner && (match id with | some i => decide (p.id < i) | none => true)
/-- The group has a remote store, posted before `id`, to one of the bytes (R135). -/
def localBefore (s : State) (owner : Gid) (id : Option Nat) (k n : Nat) : Bool :=
  s.pend.any fun p => p.before owner id && (match p.kind with
    | .rstl a d => overlap a d.length k n
    | _ => false)
/-- The same for an access the group issues now. -/
def localBlocked (e : Env) (k n : Nat) : Bool := localBefore e.st e.gid none k n
/-- A `gath.list` of the group, issued before `id`, is still to write one of the bytes: a later write of the group to them
waits (R135, R261). A read need not: it gets the old or the new bytes (R276). -/
def gathersInto (s : State) (owner : Gid) (id : Option Nat) (k n : Nat) : Bool :=
  s.pend.any fun p => p.before owner id && (match p.kind, s.team? owner.team with
    | .garnet g, some t => g.gather && (match localLook s t (g.data + g.size * g.done) (g.size * (g.count - g.done)) 1 with
      | .ok (a, _) => overlap a (g.size * (g.count - g.done)) k n
      | .error _ => false)
    | _, _ => false)
/-- A local write of the group waits (R135). -/
def localHeld (e : Env) (k n : Nat) : Bool := gathersInto e.st e.gid none k n

/-- A store to an uncached page of host or peer memory (R382). -/
def Store.beyond (st : Store) : Bool := st.ca != 0 && (isHost st.loc || nodeOf st.loc != 0)
/-- A posted operation that a release of scope `sc` by the group waits for (R382, R262, R313, R371). Of other groups it is
the stores that wrote into the core's L1 before the release began, when operation `mark` was the next to be posted. -/
def holdsRelease (gid : Gid) (core sc mark : Nat) (p : Pend) : Bool :=
  match p.kind with
  | .rstl _ _ => decide (3 ≤ sc) && p.owner == gid
  | .store st =>
    if st.beyond && !st.scat then decide (6 ≤ sc) && p.owner == gid
    else decide (3 ≤ sc) && (p.owner == gid || (p.core == core && st.inL1 && decide (p.id < mark)))
  | .atom _ | .train _ _ _ _ | .beryl _ _ _ => decide (3 ≤ sc) && p.owner == gid
  | .rcnt _ _ _ _ => decide (4 ≤ sc) && p.owner == gid
  | .garnet g => decide (3 ≤ sc) && p.owner == gid && !g.gather
  | _ => false
/-- A line that a write-back of a die's RDC needs is held by the host or its home (R281, R443). -/
def rdcHeld (s : State) (d : Nat) : Bool := (rdcDirty s d).any fun l => lineHeld s (128 * l) 128
/-- A release of scope `sc`: none while it waits; then the RDC is written back at device scope and wider (R104). -/
def release (e : Env) (sc : Nat) : Option State :=
  if e.st.pend.any (holdsRelease e.gid e.core sc (e.grp.relMark.getD e.st.nextId)) then none
  else
    let s := if e.grp.relMark.isNone then e.st else e.mod fun g => { g with relMark := none }
    if 5 ≤ sc then (if rdcHeld s e.die then none else some (rdcFlush s e.die)) else some s
/-- The group waits in a release, which began at its first attempt; the host is asked for the lines that the RDC's
write-back needs (R382, R443). -/
def releaseWait (e : Env) (sc : Nat) : Res :=
  let s := if 5 ≤ sc then (rdcDirty e.st e.die).foldl (fun s l => biSend s (128 * l) 128 true) e.st else e.st
  .wait (if e.grp.relMark.isSome then s else modGroup e.gid (fun g => { g with relMark := some e.st.nextId }) s) .retry
/-- The cache actions of an acquire of scope `sc` (R108). -/
def acquire (core sc : Nat) (s : State) : State :=
  let s := if 3 ≤ sc then l1Clear s core else s
  if 5 ≤ sc then rdcInvalClean s (coreDie core) else s
/-- A group that still waits once its release is done remembers, for its next attempt, when the release began (R382); a
`glaunch` that has read its record releases no more. -/
def pastRelease (e : Env) : Res → Res
  | .wait s .retry => .wait (modGroup e.gid (fun g =>
      if g.launch.isSome then g else { g with relMark := some (e.grp.relMark.getD e.st.nextId) }) s) .retry
  | r => r
/-- Release where ORD asks for it, then the body (R382). -/
def releasing (ord sc : Nat) (body : Env → Res) (e : Env) : Res :=
  if ord = 2 ∨ ord = 3 then
    match release e sc with
    | none => releaseWait e sc
    | some s => pastRelease e (body (e.at s))
  else body e
/-- Acquire where ORD asks for it, after a completed body (R383). -/
def acquiring (ord sc : Nat) (body : Env → Res) (e : Env) : Res :=
  if ord = 1 ∨ ord = 3 then
    match body e with
    | .done s => .done (acquire e.core sc s)
    | r => r
  else body e

/-! ### Sleeping groups (R153) -/

/-- The FIRED bits of a group (R153). -/
def firedBits (g : Group) : Nat :=
  ((List.range 4).zip g.mon).foldl (fun a (i, m) => a + b2n (m.armed && m.fired) i) 0
/-- The status goes to D, every FIRED bit is cleared, and an acquire follows (R153). -/
def mwaitLeave (e : Env) (dst sc st : Nat) (s : State) : State :=
  acquire e.core sc (modGroup e.gid (fun g => { g with mon := g.mon.map fun m => { m with fired := false } })
    (postRegs e.gid e.team.ctx e.core false [⟨⟨.s, dst, 0⟩, BitVec.ofNat 32 st⟩] s))
/-- A sleeping `mwait` ends; `extra` holds the TIMEOUT and INTR bits. -/
def mwaitEnd (gid : Gid) (extra : Nat) (s : State) : State :=
  match env? s gid with
  | none => s
  | some e => match e.grp.cond with
    | .wait (.mwait _ dst sc) =>
      modGroup gid (fun g => { g with cond := .ready, pc := pcAdd g.pc 12 })
        (mwaitLeave e dst sc (firedBits e.grp + extra) s)
    | _ => s
/-- Every sleeping `mwait` of a context ends with INTR: a wake is posted or a pre-emption request arrives (R153). -/
def wakeMwaits (c : Nat) (s : State) : State :=
  ((s.teams.filter fun t => t.ctx == c).flatMap fun t => t.groups.map fun g => (⟨t.uid, g.idx⟩ : Gid)).foldl
    (fun s g => mwaitEnd g 32 s) s

end Sys2Proof.Machine
end

