-- ==== Sys2Proof/Machine/Banks.lean ====
section
/-! DEFINITION. The accumulator banks and their row progress (R212, R231). -/

namespace Sys2Proof.Machine

/-- The key of a bank's row progress. -/
def mrpKey (core bank : Nat) : Nat := core * 4 + bank
/-- The stored part of a bank's row progress (R231). -/
def State.mrpOf (s : State) (core bank : Nat) : Mrp := (Assoc.get? s.mrp (mrpKey core bank)).getD .zero
/-- Replace it. -/
def State.setMrp (s : State) (core bank : Nat) (m : Mrp) : State :=
  { s with mrp := if m = .zero then Assoc.del s.mrp (mrpKey core bank) else Assoc.put s.mrp (mrpKey core bank) m }
/-- A bank element (R212). -/
def State.acc? (s : State) (core bank row col : Nat) : Word :=
  Assoc.rd 0 s.acc (((core * 4 + bank) * 64 + row) * 48 + col)
/-- Write a bank element. -/
def State.setAcc (s : State) (core bank row col : Nat) (x : Word) : State :=
  { s with acc := Assoc.wr 0 s.acc (((core * 4 + bank) * 64 + row) * 48 + col) x }
/-- The operation names a bank, as `mzero`, `mma`, `mmab`, `mmas` and `mdrain` do (R214). -/
def MatOp.onBank (m : MatOp) (bank : Nat) : Bool :=
  m.bank == bank && (match m.kind with | .zero | .mma _ _ _ _ _ _ | .drain _ _ => true | _ => false)
/-- An unretired operation of the core's own queue on a bank. -/
def ownOps (s : State) (core bank : Nat) : List MatOp := s.matq.filter fun m => m.core == core && m.onBank bank
/-- An unretired pair operation of the west neighbour on a bank (R227, R228). -/
def slaveOps (s : State) (core bank : Nat) : List MatOp :=
  s.matq.filter fun m => m.pair && m.onBank bank && m.core + 1 == core && core % 16 != 0
/-- The row-progress register (R231). -/
def mrpWord (s : State) (core bank : Nat) : Nat :=
  let m := s.mrpOf core bank
  let own := (ownOps s core bank).length
  let slv := (slaveOps s core bank).length
  m.rows + (if own + slv = 0 then 0 else 2 ^ 8) + (if m.susp then 2 ^ 9 else 0) + (if m.err then 2 ^ 10 else 0) +
    (if slv = 0 then 0 else 2 ^ 11) + m.ecause.toNat * 2 ^ 12 + min 16 (own + slv) * 2 ^ 18
/-- Zero a bank (R213, R233). -/
def zeroBank (core bank : Nat) (s : State) : State :=
  { s with acc := s.acc.filter fun (k, _) => k / 3072 ≠ core * 4 + bank }

end Sys2Proof.Machine
end

