-- ==== Sys2Proof/Machine/Alu.lean ====
section
/-! DEFINITION. `nop`, the integer and bit instructions, select, move and status registers (R49, R54, R181 to R193). -/

namespace Sys2Proof.Machine

/-- `nop` has no effect (R49). -/
def execNop (f : Slk) (s : State) : Out := issue (.nop f) f (fun e => .done e.st) s

/-! ### Arithmetic (R182) -/

/-- An integer pattern under its type's signedness. -/
def ival (t x : Nat) : Int := if tySigned t then toSigned (tyBits t) x else ((x % 2 ^ tyBits t : Nat) : Int)
/-- The least and greatest values of an integer type. -/
def ibounds (t : Nat) : Int × Int :=
  let w := tyBits t
  if tySigned t then (-(2 ^ (w - 1) : Nat), (2 ^ (w - 1) : Nat) - 1) else (0, (2 ^ w : Nat) - 1)
/-- An exact result clamped to the range of a type. -/
def iclamp (t : Nat) (z : Int) : Int := max (ibounds t).1 (min (ibounds t).2 z)
/-- An exact result modulo 2^w, or clamped under SAT (R182). -/
def iresult (t : Nat) (sat : Bool) (z : Int) : Nat := ofSigned (tyBits t) (if sat then iclamp t z else z)
/-- The value of source `k` of `n`. -/
def Env.int (e : Env) (f : Slk) (n k l : Nat) : Int := ival (fTy f) (e.val (fTy f) l (srcOf f n k))
/-- The bits of source `k` of `n`. -/
def Env.bits (e : Env) (f : Slk) (n k l : Nat) : Nat := e.val (fTy f) l (srcOf f n k)
/-- The n32 source `k` of `n` (R179). -/
def Env.cnt (e : Env) (f : Slk) (n k l : Nat) : Nat := e.n32 l (srcOf f n k)
/-- A fixed-latency integer instruction with the latency of `iadd` and a destination of TY's width (R44). -/
def intBody (f : Slk) (fn : Env → Nat → Nat) : Env → Res := fixedBody f 4 3 (tyRegs (fTy f)) fn
/-- One with the latency of `imul` (R44). -/
def mulBody (f : Slk) (fn : Env → Nat → Nat) : Env → Res :=
  if tyBits (fTy f) = 64 then fixedBody f 12 10 2 fn else fixedBody f 6 5 1 fn

/-- The sum. -/
def iaddVal (f : Slk) (e : Env) (l : Nat) : Nat := iresult (fTy f) (fSat f) (e.int f 2 1 l + e.int f 2 2 l)
/-- `iadd`. -/
def execIadd (f : Slk) (s : State) : Out := issue (.iadd f) f (intBody f (iaddVal f)) s
/-- The difference. -/
def isubVal (f : Slk) (e : Env) (l : Nat) : Nat := iresult (fTy f) (fSat f) (e.int f 2 1 l - e.int f 2 2 l)
/-- `isub`. -/
def execIsub (f : Slk) (s : State) : Out := issue (.isub f) f (intBody f (isubVal f)) s
/-- The low half of the product. -/
def imulVal (f : Slk) (e : Env) (l : Nat) : Nat := iresult (fTy f) (fSat f) (e.int f 2 1 l * e.int f 2 2 l)
/-- `imul`. -/
def execImul (f : Slk) (s : State) : Out := issue (.imul f) f (mulBody f (imulVal f)) s
/-- The high half of the product. -/
def imulhVal (f : Slk) (e : Env) (l : Nat) : Nat :=
  ofSigned (2 * tyBits (fTy f)) (e.int f 2 1 l * e.int f 2 2 l) >>> tyBits (fTy f)
/-- `imulh`. -/
def execImulh (f : Slk) (s : State) : Out := issue (.imulh f) f (mulBody f (imulhVal f)) s
/-- The product and sum. -/
def imadVal (f : Slk) (e : Env) (l : Nat) : Nat :=
  iresult (fTy f) (fSat f) (e.int f 3 1 l * e.int f 3 2 l + e.int f 3 3 l)
/-- `imad`. -/
def execImad (f : Slk) (s : State) : Out := issue (.imad f) f (mulBody f (imadVal f)) s
/-- The magnitude; in RRI imm20 is the source (R28). -/
def iabsVal (f : Slk) (e : Env) (l : Nat) : Nat := iresult (fTy f) (fSat f) (e.int f 1 1 l).natAbs
/-- `iabs`. -/
def execIabs (f : Slk) (s : State) : Out := issue (.iabs f) f (intBody f (iabsVal f)) s
/-- The smaller. -/
def iminVal (f : Slk) (e : Env) (l : Nat) : Nat :=
  if e.int f 2 1 l ≤ e.int f 2 2 l then e.bits f 2 1 l else e.bits f 2 2 l
/-- `imin`. -/
def execImin (f : Slk) (s : State) : Out := issue (.imin f) f (intBody f (iminVal f)) s
/-- The larger. -/
def imaxVal (f : Slk) (e : Env) (l : Nat) : Nat :=
  if e.int f 2 1 l ≤ e.int f 2 2 l then e.bits f 2 2 l else e.bits f 2 1 l
/-- `imax`. -/
def execImax (f : Slk) (s : State) : Out := issue (.imax f) f (intBody f (imaxVal f)) s

/-! ### Shifts and logic (R183) -/

/-- A left shift; 0 from the width on. -/
def shlBits (w x c : Nat) : Nat := if w ≤ c then 0 else (x <<< c) % 2 ^ w
/-- A right shift; 0 from the width on. -/
def shrBits (w x c : Nat) : Nat := if w ≤ c then 0 else (x % 2 ^ w) >>> c
/-- A right shift that copies bit w − 1 in. -/
def sraBits (w x c : Nat) : Nat := ofSigned w (toSigned w x / (2 ^ min c w : Nat))
/-- A rotation left. -/
def rotBits (w x c : Nat) : Nat :=
  let k := c % w
  let y := x % 2 ^ w
  (y <<< k) % 2 ^ w ||| (y >>> (w - k))
/-- Left shift. -/
def ishlVal (f : Slk) (e : Env) (l : Nat) : Nat := shlBits (tyBits (fTy f)) (e.bits f 2 1 l) (e.cnt f 2 2 l)
/-- `ishl`. -/
def execIshl (f : Slk) (s : State) : Out := issue (.ishl f) f (intBody f (ishlVal f)) s
/-- Right shift. -/
def ishrVal (f : Slk) (e : Env) (l : Nat) : Nat := shrBits (tyBits (fTy f)) (e.bits f 2 1 l) (e.cnt f 2 2 l)
/-- `ishr`. -/
def execIshr (f : Slk) (s : State) : Out := issue (.ishr f) f (intBody f (ishrVal f)) s
/-- Arithmetic right shift. -/
def israVal (f : Slk) (e : Env) (l : Nat) : Nat := sraBits (tyBits (fTy f)) (e.bits f 2 1 l) (e.cnt f 2 2 l)
/-- `isra`. -/
def execIsra (f : Slk) (s : State) : Out := issue (.isra f) f (intBody f (israVal f)) s
/-- Rotation. -/
def irotVal (f : Slk) (e : Env) (l : Nat) : Nat := rotBits (tyBits (fTy f)) (e.bits f 2 1 l) (e.cnt f 2 2 l)
/-- `irot`. -/
def execIrot (f : Slk) (s : State) : Out := issue (.irot f) f (intBody f (irotVal f)) s
/-- And. -/
def andVal (f : Slk) (e : Env) (l : Nat) : Nat := e.bits f 2 1 l &&& e.bits f 2 2 l
/-- `and`. -/
def execAnd (f : Slk) (s : State) : Out := issue (.and f) f (intBody f (andVal f)) s
/-- Or. -/
def orVal (f : Slk) (e : Env) (l : Nat) : Nat := e.bits f 2 1 l ||| e.bits f 2 2 l
/-- `or`. -/
def execOr (f : Slk) (s : State) : Out := issue (.or f) f (intBody f (orVal f)) s
/-- Exclusive or. -/
def xorVal (f : Slk) (e : Env) (l : Nat) : Nat := e.bits f 2 1 l ^^^ e.bits f 2 2 l
/-- `xor`. -/
def execXor (f : Slk) (s : State) : Out := issue (.xor f) f (intBody f (xorVal f)) s
/-- And not. -/
def andnVal (f : Slk) (e : Env) (l : Nat) : Nat :=
  e.bits f 2 1 l &&& (2 ^ tyBits (fTy f) - 1 - e.bits f 2 2 l % 2 ^ tyBits (fTy f))
/-- `andn`. -/
def execAndn (f : Slk) (s : State) : Out := issue (.andn f) f (intBody f (andnVal f)) s

/-! ### Bits (R184, R185) -/

/-- Set bits. -/
def popcVal (f : Slk) (e : Env) (l : Nat) : Nat := popCount (tyBits (fTy f)) (e.bits f 1 1 l)
/-- `popc`. -/
def execPopc (f : Slk) (s : State) : Out := issue (.popc f) f (fixedBody f 4 3 1 (popcVal f)) s
/-- Leading zeros. -/
def clzVal (f : Slk) (e : Env) (l : Nat) : Nat := leadZeros (tyBits (fTy f)) (e.bits f 1 1 l)
/-- `clz`. -/
def execClz (f : Slk) (s : State) : Out := issue (.clz f) f (fixedBody f 4 3 1 (clzVal f)) s
/-- Trailing zeros. -/
def ctzVal (f : Slk) (e : Env) (l : Nat) : Nat := trailZeros (tyBits (fTy f)) (e.bits f 1 1 l)
/-- `ctz`. -/
def execCtz (f : Slk) (s : State) : Out := issue (.ctz f) f (fixedBody f 4 3 1 (ctzVal f)) s
/-- Reversed bits. -/
def brevVal (f : Slk) (e : Env) (l : Nat) : Nat := bitReverse (tyBits (fTy f)) (e.bits f 1 1 l)
/-- `brev`. -/
def execBrev (f : Slk) (s : State) : Out := issue (.brev f) f (intBody f (brevVal f)) s

/-- `bfx` on values (R185). -/
def bfxBits (w : Nat) (sgn : Bool) (x off len : Nat) : Nat :=
  if w ≤ off || len == 0 then 0
  else
    let n := min len (w - off)
    let y := field x off n
    if sgn then ofSigned w (toSigned n y) else y
/-- `bfi` on values (R185). -/
def bfiBits (w base x off len : Nat) : Nat :=
  if w ≤ off || len == 0 then base
  else
    let n := min len (w - off)
    base - (field base off n) * 2 ^ off + (x % 2 ^ n) * 2 ^ off
/-- The extracted field. -/
def bfxVal (f : Slk) (e : Env) (l : Nat) : Nat :=
  bfxBits (tyBits (fTy f)) (tySigned (fTy f)) (e.bits f 3 1 l) (e.cnt f 3 2 l) (e.cnt f 3 3 l)
/-- `bfx`. -/
def execBfx (f : Slk) (s : State) : Out := issue (.bfx f) f (intBody f (bfxVal f)) s
/-- The base with the field inserted; in RRI imm20 holds offset and length (R185). -/
def bfiVal (f : Slk) (e : Env) (l : Nat) : Nat :=
  let off := if f.fmt = 1 then field f.ext.toNat 0 10 else e.n32 l (.op f.s3)
  let len := if f.fmt = 1 then field f.ext.toNat 10 10 else e.n32 l (.op f.s4)
  bfiBits (tyBits (fTy f)) (e.bits f 4 1 l) (e.bits f 4 2 l) off len
/-- `bfi`. -/
def execBfi (f : Slk) (s : State) : Out := issue (.bfi f) f (intBody f (bfiVal f)) s

/-! ### Addresses and comparison (R186, R187) -/

/-- The formed address. -/
def leaVal (f : Slk) (e : Env) (l : Nat) : Nat :=
  let i := e.cnt f 3 2 l
  let x := if fTy f = 4 then ofSigned 64 (toSigned 32 i) else i
  (e.bits f 3 1 l + x <<< (e.cnt f 3 3 l % 64)) % 2 ^ 64
/-- `lea`. -/
def execLea (f : Slk) (s : State) : Out := issue (.lea f) f (fixedBody f 4 3 2 (leaVal f)) s
/-- The predicate. -/
def icmpVal (f : Slk) (e : Env) (l : Nat) : Nat :=
  if icmpHolds (fCc f) (fTy f) (e.bits f 2 1 l) (e.bits f 2 2 l) then 1 else 0
/-- `icmp`. -/
def execIcmp (f : Slk) (s : State) : Out := issue (.icmp f) f (fixedBody f 4 3 1 (icmpVal f)) s

/-! ### Select and move (R188 to R190) -/

/-- The selected source. -/
def selVal (f : Slk) (e : Env) (l : Nat) : Nat :=
  if e.pred l f.s3 then e.val (fTy f) l (.op f.s1) else e.val (fTy f) l (.op f.s2)
/-- `sel`. -/
def execSel (f : Slk) (s : State) : Out := issue (.sel f) f (intBody f (selVal f)) s
/-- The type `mov` copies under: a register of a type below 64 bits is copied whole, and an integer immediate fills
the register (log 21). -/
def movTy (t : Nat) (o : Opnd) : Nat :=
  if tyBits t = 64 then t else if opKind o == .imm && (t == 3 || t == 8 || t == 9) then t else 2
/-- The source's value, or a predicate's. -/
def movVal (f : Slk) (e : Env) (l : Nat) : Nat :=
  if opKind f.s1 == .p || opKind f.s1 == .q then (if e.pred l f.s1 then 1 else 0)
  else e.val (movTy (fTy f) f.s1) l (.op f.s1)
/-- `mov`. -/
def execMov (f : Slk) (s : State) : Out := issue (.mov f) f (intBody f (movVal f)) s
/-- imm32, extended (R29, R190). -/
def moviVal (f : Slk) (e : Env) (l : Nat) : Nat :=
  e.val (if tyBits (fTy f) = 64 then fTy f else 2) l (.i32 f.ext.toNat)
/-- `movi`. -/
def execMovi (f : Slk) (s : State) : Out := issue (.movi f) f (intBody f (moviVal f)) s

/-! ### Status registers (R54, R191, R192) -/

/-- A status register's value in lane `l` (R54, R319, R320); reserved numbers read 0. -/
def srValue (e : Env) (l n : Nat) : Nat :=
  let t := e.team
  let g := e.grp
  match n with
  | 0x00 => l
  | 0x01 => t.grant
  | 0x02 => 128
  | 0x03 => g.idx
  | 0x04 => t.inCluster
  | 0x05 => t.threads
  | 0x06 => t.cluster
  | 0x07 => t.cw + t.ch * 2 ^ 8
  | 0x08 => t.teamId
  | 0x09 => t.core % 16 + t.core % 192 / 16 * 2 ^ 8
  | 0x0A => coreDie t.core
  | 0x0B => g.rmode.toNat
  | 0x0C => g.trapInfo.toNat
  | 0x0D => g.trapPc.toNat
  | 0x0E => g.trapAddr.toNat
  | 0x0F => g.repCtr.toNat
  | 0x10 => e.st.cycle.toNat
  | 0x11 => Config.stepping.toNat + Config.family.toNat * 2 ^ 8
  | 0x12 => e.lanes.length
  | 0x13 => if t.interlock then 1 else 0
  | 0x14 => g.descBase.toNat
  | 0x15 => g.tvec.toNat
  | 0x16 => if t.banks.getLsbD 0 then mrpWord e.st t.core 0 else 0
  | 0x17 => if t.banks.getLsbD 1 then mrpWord e.st t.core 1 else 0
  | 0x18 => if t.banks.getLsbD 2 then mrpWord e.st t.core 2 else 0
  | 0x19 => if t.banks.getLsbD 3 then mrpWord e.st t.core 3 else 0
  | _ => 0
/-- The value read: 32 or 64 bits. -/
def srdVal (f : Slk) (e : Env) (l : Nat) : Nat := srValue e l (opNum f.s1) % 2 ^ tyBits (fTy f)
/-- `srd`. -/
def execSrd (f : Slk) (s : State) : Out := issue (.srd f) f (fixedBody f 2 2 (tyRegs (fTy f)) (srdVal f)) s

/-- A write of a 64-bit register: b32 replaces the low half (R192). -/
def swr64 (old : DWord) (t x : Nat) : DWord :=
  if tyBits t = 64 then BitVec.ofNat 64 x else (old.extractLsb' 32 32 ++ BitVec.ofNat 32 x : BitVec 64)
/-- `swr` (R192): registers marked RO trap PROT 0x04 (R54, R411), a reserved RM traps BOUNDS 0x04 (R71), reserved
bits read 0 (R6) and numbers not assigned are ignored. -/
def swrBody (f : Slk) (e : Env) : Res :=
  let x := e.val (fTy f) 0 (.op f.s1)
  let w : Word := BitVec.ofNat 32 x
  let put (h : Group → Group) : Res := .done (e.mod h)
  match opNum f.d with
  | 0x0B =>
    if x % 8 = 5 ∨ x % 8 = 6 then .trap e.st { cause := 0x05, detail := 0x04, addr := x }
    else put fun g => { g with rmode := w &&& 0x3F }
  | 0x0C => put fun g => { g with trapInfo := w &&& 0x0FFFFFFF }
  | 0x0D => put fun g => { g with trapPc := swr64 g.trapPc (fTy f) x }
  | 0x0E => put fun g => { g with trapAddr := swr64 g.trapAddr (fTy f) x }
  | 0x0F => put fun g => { g with repCtr := w &&& 0x7F }
  | 0x14 => put fun g => { g with descBase := swr64 g.descBase (fTy f) x &&& ~~~0x7F#64 }
  | 0x15 => put fun g => { g with tvec := swr64 g.tvec (fTy f) x }
  | n => if n ≤ 0x19 then .trap e.st { cause := 0x06, detail := 0x04 } else .done e.st
/-- `swr`. -/
def execSwr (f : Slk) (s : State) : Out := issue (.swr f) f (swrBody f) s

/-! ### Named lanes (R193) -/

/-- The lane index's trap: an index of G′ or more. -/
def laneTrap (e : Env) (i : Nat) : Res := .trap e.st { cause := 0x05, detail := 0x04, addr := i }
/-- `rdlane` reads the named lane, active or not, and waits on it alone; `ownRegs` has it trap where FE marks it. -/
def rdlaneBody (f : Slk) (e : Env) : Res :=
  let i := e.cnt f 2 2 0
  let n := tyRegs (fTy f)
  if e.grant ≤ i then laneTrap e i
  else
    let src := opRegs f.s1 n [i]
    if src.any e.grp.isEmpty then .wait e.st .retry
    else readingRegs src (fun e =>
      let word (k : Nat) : Nat := (e.reg 0 ⟨.v, opNum f.s1 + k, i⟩).toNat
      let x := if n = 2 then word 0 + word 1 * 2 ^ 32 else word 0
      let x := if !e.holds i || (fV f && !e.isActive i) then 0 else x
      .done (writeLong e false (dstWrites f.d n 0 x) e.st)) e
/-- `rdlane`. -/
def execRdlane (f : Slk) (s : State) : Out := issue (.rdlane f) f (rdlaneBody f) s
/-- `wrlane` writes the named lane, active or not; a lane without a thread takes nothing. -/
def wrlaneBody (f : Slk) (e : Env) : Res :=
  let i := e.cnt f 2 2 0
  let n := tyRegs (fTy f)
  if e.grant ≤ i then laneTrap e i
  else if (opRegs f.d n [i]).any e.grp.isEmpty then .wait e.st .retry
  else if !e.holds i then .done e.st
  else .done (writeLong e false (dstWrites f.d n i (e.val (movTy (fTy f) f.s1) 0 (.op f.s1))) e.st)
/-- `wrlane`. -/
def execWrlane (f : Slk) (s : State) : Out := issue (.wrlane f) f (wrlaneBody f) s

end Sys2Proof.Machine
end

