-- ==== Sys2Proof/Machine/FloatOps.lean ====
section
/-! DEFINITION. The floating-point instructions (R194 to R200). -/

namespace Sys2Proof.Machine

/-- f64 arithmetic traps PROT 0x06 in early service (R446). -/
def f64Service (f : Slk) (body : Env → Res) : Env → Res := if fTy f = 7 then inService body else body
/-- The format of TY. -/
def tyFmt (f : Slk) : FFmt := fmtOf (fTy f)
/-- A flushed input as a value (R73). -/
def Env.fv (e : Env) (t : Nat) (l : Nat) (x : Src) : FV :=
  fdec (fmtOf t) (fin e.grp.rmode.toNat (fmtOf t) (e.val t l x))
/-- SM on a value (R32). -/
def smod (sm : Nat) (x : FV) : FV :=
  let y := if bitAt sm 1 then x.abs else x
  if bitAt sm 0 then y.neg else y
/-- Source `k` of the `n` sources, with SM on the first and NL on the last (R194). -/
def Env.fsrc (e : Env) (f : Slk) (n k l : Nat) : FV :=
  let x := e.fv (fTy f) l (srcOf f n k)
  let x := if k = 1 then smod (fSm f) x else x
  if k = n && fNl f then x.neg else x
/-- RDN is in force for f16 and wider types. -/
def isRdn (rmode : Nat) : Bool := rmRm rmode == 2
/-- Round a result to TY under the sampled RMODE, with MOD.SAT (R194). -/
def Env.fres (e : Env) (f : Slk) (x : FV) : Nat := ffin (tyFmt f) e.grp.rmode.toNat (fSat f) x
/-- A fixed-latency float instruction (R44). -/
def fltBody (f : Slk) (fn : Env → Nat → Nat) : Env → Res :=
  f64Service f (if fTy f = 7 then fixedBody f 8 8 2 fn else fixedBody f 6 6 1 fn)

/-- The rounded sum (R195). -/
def faddVal (f : Slk) (e : Env) (l : Nat) : Nat :=
  e.fres f (fsum (isRdn e.grp.rmode.toNat) [e.fsrc f 2 1 l, e.fsrc f 2 2 l])
/-- `fadd`. -/
def execFadd (f : Slk) (s : State) : Out := issue (.fadd f) f (fltBody f (faddVal f)) s
/-- The rounded difference (R195). -/
def fsubVal (f : Slk) (e : Env) (l : Nat) : Nat :=
  e.fres f (fsum (isRdn e.grp.rmode.toNat) [e.fsrc f 2 1 l, (e.fsrc f 2 2 l).neg])
/-- `fsub`. -/
def execFsub (f : Slk) (s : State) : Out := issue (.fsub f) f (fltBody f (fsubVal f)) s
/-- The rounded product (R195). -/
def fmulVal (f : Slk) (e : Env) (l : Nat) : Nat := e.fres f ((e.fsrc f 2 1 l).mul (e.fsrc f 2 2 l))
/-- `fmul`. -/
def execFmul (f : Slk) (s : State) : Out := issue (.fmul f) f (fltBody f (fmulVal f)) s
/-- The fused product and sum (R195). -/
def ffmaVal (f : Slk) (e : Env) (l : Nat) : Nat :=
  e.fres f (fsum (isRdn e.grp.rmode.toNat) [(e.fsrc f 3 1 l).mul (e.fsrc f 3 2 l), e.fsrc f 3 3 l])
/-- `ffma`. -/
def execFfma (f : Slk) (s : State) : Out := issue (.ffma f) f (fltBody f (ffmaVal f)) s
/-- minimumNumber (R196). -/
def fminVal (f : Slk) (e : Env) (l : Nat) : Nat := e.fres f (fminmax false (e.fsrc f 2 1 l) (e.fsrc f 2 2 l))
/-- `fmin`. -/
def execFmin (f : Slk) (s : State) : Out := issue (.fmin f) f (fltBody f (fminVal f)) s
/-- maximumNumber (R196). -/
def fmaxVal (f : Slk) (e : Env) (l : Nat) : Nat := e.fres f (fminmax true (e.fsrc f 2 1 l) (e.fsrc f 2 2 l))
/-- `fmax`. -/
def execFmax (f : Slk) (s : State) : Out := issue (.fmax f) f (fltBody f (fmaxVal f)) s

/-- The comparison of flushed inputs; CC stands in place of SM and NL (R180, R197). -/
def fcmpVal (f : Slk) (e : Env) (l : Nat) : Nat :=
  if fcmpHolds (fCc f) (e.fv (fTy f) l (srcOf f 2 1)) (e.fv (fTy f) l (srcOf f 2 2)) then 1 else 0
/-- `fcmp`. -/
def execFcmp (f : Slk) (s : State) : Out := issue (.fcmp f) f (f64Service f (fixedBody f 4 3 1 (fcmpVal f))) s

/-- The class mask, or its test against S2 (R198). -/
def fclassVal (f : Slk) (e : Env) (l : Nat) : Nat :=
  let m := fclassMask (tyFmt f) (e.val (fTy f) l (.op f.s1))
  if opKind f.d == .p || opKind f.d == .q then (if m &&& e.n32 l (.op f.s2) ≠ 0 then 1 else 0) else m
/-- `fclass`. -/
def execFclass (f : Slk) (s : State) : Out := issue (.fclass f) f (fixedBody f 4 3 1 (fclassVal f)) s

/-- The integral value of the same type; a zero result keeps the sign of S1 (R199). -/
def frndVal (f : Slk) (e : Env) (l : Nat) : Nat :=
  let mode := match opImm? f.s2 with | some 7 => rmRm e.grp.rmode.toNat | some z => z.toNat | none => 7
  let rm := rmFor 32 mode
  match smod (fSm f) (e.fv (fTy f) l (.op f.s1)) with
  | .num neg m x => fout e.grp.rmode.toNat (tyFmt f) (froundM (tyFmt f) rm false neg (intMag rm neg m x) 0 false)
  | v => fround (tyFmt f) rm false v
/-- `frnd`. -/
def execFrnd (f : Slk) (s : State) : Out := issue (.frnd f) f (fltBody f (frndVal f)) s

/-- The two elements of a packed source, flushed (R200). -/
def Env.halves (e : Env) (f : Slk) (l : Nat) (o : Opnd) : FV × FV :=
  let x := if opKind o == .imm then e.val (fTy f) l (.op o) else e.n32 l (.op o)
  let g := (tyFmt f)
  (fdec g (fin e.grp.rmode.toNat g (x % 2 ^ 16)), fdec g (fin e.grp.rmode.toNat g (x / 2 ^ 16)))
/-- The fused two-element dot product (R200). -/
def fdot2Val (f : Slk) (e : Env) (l : Nat) : Nat :=
  let (a0, a1) := e.halves f l f.s1
  let (b0, b1) := e.halves f l f.s2
  let c := e.fv 3 l (.op f.s3)
  let c := if fNl f then c.neg else c
  ffin f32 e.grp.rmode.toNat (fSat f)
    (fsum (isRdn e.grp.rmode.toNat) [(smod (fSm f) a0).mul b0, (smod (fSm f) a1).mul b1, c])
/-- `fdot2`. -/
def execFdot2 (f : Slk) (s : State) : Out := issue (.fdot2 f) f (fixedBody f 8 8 1 (fdot2Val f)) s

end Sys2Proof.Machine
end

