-- ==== Sys2Proof/Machine/LocalMem.lean ====
section
/-! DEFINITION. Accesses to scratchpad and ring space: `ldl`, `stl`, `atoml` (R131 to R139). -/

namespace Sys2Proof.Machine

/-! ### Data -/

/-- A loaded value as its registers hold it (R131). -/
def loadExt (f : Slk) (x : Nat) : Nat :=
  if fSx f && decide (fSz f < 2) then ofSigned 32 (toSigned (8 * szBytes f) x) else x
/-- The bytes a store writes (R131). -/
def Env.storeBytes (e : Env) (f : Slk) (l : Nat) : List Byte := toBytes (szBytes f) (e.wide l f.s3 (szRegs (fSz f)))
/-- The first byte of [k, k + n) in an uncorrectable or poisoned pool word (R121). -/
def poolBad (s : State) (k n : Nat) : Option Nat :=
  (segs 8 k n).findSome? fun (a, _) =>
    if Assoc.get? s.poolErr (a / 8) = some .double ∨ Assoc.get? s.poolErr (a / 8) = some .poison then some a else none
/-- The first lane that meets a poisoned word, and the local address there (R121, R87). -/
def laneBad (s : State) (n : Nat) (xs : List (Nat × Nat × Nat × Nat)) : Option (Nat × Nat) :=
  xs.findSome? fun (l, a, k, _) => (poolBad s k n).map fun b => (l, a + (b - k))
/-- Uncorrectable words met by a read become poisoned (R121). -/
def poolTouch (s : State) (n : Nat) (xs : List (Nat × Nat × Nat × Nat)) : State :=
  xs.foldl (fun s (_, _, k, _) => (poolRead s k n).1) s

/-! ### Loads and stores -/

/-- `ldl` in its lanes (R132, R135). -/
def ldlBody (f : Slk) (e : Env) : Res :=
  let n := szBytes f
  match resolveLocal e (e.localAddr f (fDisp10 f * n)) n n 0 (e.memLanes f) with
  | .error r => r
  | .ok xs =>
    if xs.any fun (_, _, k, _) => localBlocked e k n then .wait e.st .retry
    else
      let s := poolTouch e.st n xs
      match laneBad e.st n xs with
      | some (l, a) => .trap s { cause := 0x0C, addr := a, lane := l }
      | none => .done (writeLong e false
          (xs.flatMap fun (l, _, k, _) => dstWrites f.d (szRegs (fSz f)) l (loadExt f (poolNat s k n))) s)
/-- `ldl`. -/
def execLdl (f : Slk) (s : State) : Out := issue (.ldl f) f (acquiring (fOrd f) (fScope f) (ldlBody f)) s

/-- Agate's state of a ring before anything is taken (R157). -/
def RingSt.zero : RingSt := ⟨0, [], false⟩
/-- A kick with PUB `p` (R158, R161): Agate considers the ring. What it publishes carries its sample; entries an earlier
kick published keep theirs up to `p`, where PUB has been lowered. -/
def RingSt.kick (r : RingSt) (p rmode : Word) (descBase : DWord) : RingSt :=
  { r with
    kicks := (r.kicks.map fun (q, x) => (if 0 < (q - p).toInt then p else q, x)) ++ [(p, rmode, descBase)]
    due := true }
/-- A write by the group to PUB of one of its team's rings, or to the byte of STOP, is a kick; RMODE and DESCBASE are
sampled for the entries that it publishes (R158, R161). -/
def ringKick (e : Env) (k n : Nat) (s : State) : State :=
  let w := windowKey s e.team true
  (List.range 4).foldl (init := s) fun s i =>
    if overlap (w + 16 * i) 4 k n || overlap (w + 16 * i + 12) 1 k n then
      let r := Assoc.rd .zero s.rings (key2 e.gid.team i)
      let r := r.kick (BitVec.ofNat 32 (poolNat s (w + 16 * i) 4)) e.grp.rmode e.grp.descBase
      { s with rings := Assoc.put s.rings (key2 e.gid.team i) r }
    else s
/-- One lane's local store: at once on the issuing core, posted to another (R135). -/
def storeLocal (e : Env) (s : State) (k core : Nat) (bs : List Byte) : State :=
  if core = e.core then ringKick e k bs.length (poolWrite s k bs) else post e.gid e.team.ctx e.core (.rstl k bs) s
/-- `stl` in its lanes, ascending, so that the highest lane's value stands (R133). Each lane's store is one of its own: that
lanes which together write all 8 bytes of a poisoned word do not clear it is the model's choice (R121, log 29). -/
def stlBody (f : Slk) (e : Env) : Res :=
  let n := szBytes f
  match resolveLocal e (e.localAddr f (fDisp10 f * n)) n n 1 (e.memLanes f) with
  | .error r => r
  | .ok xs =>
    if xs.any fun (_, _, k, _) => localHeld e k n then .wait e.st .retry
    else .done (xs.foldl (fun s (l, _, k, core) => storeLocal e s k core (e.storeBytes f l)) e.st)
/-- `stl`. -/
def execStl (f : Slk) (s : State) : Out := issue (.stl f) f (releasing (fOrd f) (fScope f) (stlBody f)) s

/-- A posted remote store is performed at its pool; those of one group to one byte go in order (R135). -/
def remoteStlStep (id : Nat) (s : State) : State :=
  match s.pend? id with
  | none => s
  | some p => match p.kind with
    | .rstl k d =>
      if s.pend.any fun q => decide (q.id < p.id) && q.owner == p.owner &&
          (match q.kind with | .rstl a b => overlap a b.length k d.length | _ => false) then s
      else unpost id (poolWrite s k d)
    | _ => s
/-- REMOTE_STL_PERFORMED. -/
def execRemoteStlPerformed (id : Nat) (s : State) : Out := .next (remoteStlStep id s)

/-! ### Atomics (R137, R138) -/

/-- The new value of an atomic on a word of `w` bits (R137, R138). -/
def atomNew (aop w rmode old v cmp : Nat) : Nat :=
  match aop with
  | 0 => (old + v) % 2 ^ w
  | 1 => if toSigned w old ≤ toSigned w v then old else v
  | 2 => min old v
  | 3 => if toSigned w old ≤ toSigned w v then v else old
  | 4 => max old v
  | 5 => old &&& v
  | 6 => old ||| v
  | 7 => old ^^^ v
  | 8 => v
  | 9 => if old = cmp then v else old
  | _ => ffin f32 rmode false (fsum (isRdn rmode) [fdec f32 (fin rmode f32 old), fdec f32 (fin rmode f32 v)])
/-- Operand and compare value of an atomic in lane `l`: `cas` holds compare, then new (R137). -/
def Env.atomOperand (e : Env) (f : Slk) (l : Nat) : Nat × Nat :=
  let n := szRegs (fSz f)
  let w := 32 * n
  if fAop f = 9 then
    let x := e.wide l f.s3 (2 * n)
    (x >>> w, x % 2 ^ w)
  else (e.wide l f.s3 n, 0)
/-- Apply lanes in ascending order, each seeing the one before it, and collect the old values. -/
def atomlLanes (f : Slk) (e : Env) : State → List (Nat × Nat × Nat × Nat) → State × List RegWrite
  | s, [] => (s, [])
  | s, (l, _, k, _) :: xs =>
    let n := szBytes f
    let old := poolNat s k n
    let (v, c) := e.atomOperand f l
    let s := ringKick e k n (poolWrite s k (toBytes n (atomNew (fAop f) (8 * n) e.grp.rmode.toNat old v c)))
    let (s, ws) := atomlLanes f e s xs
    (s, dstWrites f.d (szRegs (fSz f)) l old ++ ws)
/-- `atoml` in its lanes. -/
def atomlBody (f : Slk) (e : Env) : Res :=
  let n := szBytes f
  match resolveLocal e (e.localAddr f (fDisp6 f * n)) n n 2 (e.memLanes f) with
  | .error r => r
  | .ok xs =>
    if xs.any fun (_, _, k, _) => localBlocked e k n || localHeld e k n then .wait e.st .retry
    else
      let s := poolTouch e.st n xs
      match laneBad e.st n xs with
      | some (l, a) => .trap s { cause := 0x0C, addr := a, lane := l, acc := 2 }
      | none =>
        let (s, ws) := atomlLanes f e s xs
        .done (writeLong e false ws s)
/-- `atoml`. -/
def execAtoml (f : Slk) (s : State) : Out :=
  issue (.atoml f) f (committing (releasing (fOrd f) (fScope f) (acquiring (fOrd f) (fScope f) (atomlBody f)))) s

end Sys2Proof.Machine
end

