-- ==== Sys2Proof/Machine/Mgmt.lean ====
section
/-! DEFINITION. Management register space (R439 to R445): its blocks read and written by 4 and 8 bytes, and what a
write does (R117, R352, R357, R362, R364, R416, R441, R442, R446). -/

namespace Sys2Proof.Machine

/-! ### Words of a register -/

/-- The low or the high word of a 64-bit register. -/
def halfOf (x : DWord) (hi : Bool) : Nat := if hi then x.toNat / 2 ^ 32 else x.toNat % 2 ^ 32
/-- Word `i` of a wide register. -/
def wordOf {w : Nat} (x : BitVec w) (i : Nat) : Nat := field x.toNat (32 * i) 32
/-- A 64-bit value with the words written, where they are written. -/
def withHalves (x : Nat) (lo hi : Option Nat) : Nat := (lo.getD (x % 2 ^ 32)) % 2 ^ 32 + (hi.getD (x / 2 ^ 32)) % 2 ^ 32 * 2 ^ 32
/-- A 64-bit register after a write. -/
def putHalves (x : DWord) (lo hi : Option Nat) : DWord := BitVec.ofNat 64 (withHalves x.toNat lo hi)
/-- A wide register after a write to its 8 bytes number `j`. -/
def putPiece {w : Nat} (x : BitVec w) (j : Nat) (lo hi : Option Nat) : BitVec w :=
  let old := field x.toNat (64 * j) 64
  BitVec.ofNat w (x.toNat - old * 2 ^ (64 * j) + withHalves old lo hi * 2 ^ (64 * j))

/-! ### Slots (R362, R363) -/

/-- A slot table entry. -/
def State.slot (s : State) (core entry : Nat) : Slot := (Assoc.get? s.slots (core * 64 + entry)).getD ⟨0, .free⟩
/-- Replace a slot table entry; an untouched one is not listed. -/
def State.setSlot (s : State) (core entry : Nat) (x : Slot) : State :=
  { s with slots := if x = ⟨0, .free⟩ then Assoc.del s.slots (core * 64 + entry)
                    else Assoc.put s.slots (core * 64 + entry) x }
/-- The bits of an entry that can be written (R362). -/
def slotMask : BitVec 256 := 0xFF_0FFF_7F3F_0FFF_FF0F_3FFF_FFFF_FFFF_FFFF#256
/-- The state of an entry after its VALID is written (R363); a pending entry whose VALID is cleared is withdrawn. -/
def Slot.settle (x : Slot) : Slot :=
  match x.st with
  | .free => if x.v.getLsbD 0 then { x with st := .pending } else x
  | .pending | .ended | .saved | .refused => if x.v.getLsbD 0 then x else { x with st := .free }
  | _ => x
/-- Spinel writes an entry; it runs once an image has been accepted (R438). -/
def putSlot (core entry : Nat) (v : BitVec 256) (s : State) : State :=
  if s.boot.started then s.setSlot core entry { s.slot core entry with v := v &&& slotMask }.settle else s
/-- Move an entry to another state; one whose VALID has gone already is free again at the end. -/
def moveSlot (core entry : Nat) (st : SlotSt) (s : State) : State :=
  s.setSlot core entry { s.slot core entry with st := st }.settle

/-! ### Context events -/

/-- The event codes of a context's queue that this model names (log 16): a change of state, a record failure, a bind
that ended, was saved or refused, an image refused, an unload deferred. -/
def evState : Nat := 3
/-- A record failed (R356). -/
def evQueue : Nat := 4
/-- A slot entry has left (R363). -/
def evBind : Nat := 5
/-- An image is refused (R423). -/
def evImage : Nat := 6
/-- An unload is deferred (R426). -/
def evDefer : Nat := 7

/-- The STATE codes of PCTL (R416). -/
def CtxSt.code : CtxSt → Nat
  | .running => 0
  | .draining => 1
  | .saving => 2
  | .saved => 3
  | .drained => 4
  | .restoring => 5
  | .killed => 6
/-- A context changes state, with its event (R417). -/
def setCtxState (c : Nat) (st : CtxSt) (s : State) : State :=
  let x := s.ctx c
  let s := s.setCtx c { x with
    st := st, req := x.req && (match st with | .saved | .drained | .killed => false | _ => true) }
  postEvent c evState [BitVec.ofNat 64 st.code] s

/-! ### The pre-emption request (R416, R417) -/

/-- The context of a slot entry: that of its active grid. -/
def slotCtx (s : State) (v : BitVec 256) : Option Nat := (Assoc.get? s.grids (field v.toNat 8 8)).map (·.ctx)
/-- Every pending entry of a context is withdrawn and returned to Spinel unstarted (R417). -/
def withdrawPending (c : Nat) (s : State) : State :=
  { s with slots := s.slots.filterMap fun (k, x) =>
      if x.st = .pending ∧ slotCtx s x.v = some c then
        (if x.v.toNat / 2 = 0 then none else some (k, ⟨x.v &&& ~~~1#256, .free⟩))
      else some (k, x) }
/-- The save begins: groups asleep in `mwait` are woken (R418). -/
def enterSaving (c : Nat) (s : State) : State := setCtxState c .saving (wakeMwaits c s)
/-- A request takes effect (R417): sleeping `mwait`s end with INTR (R153). -/
def requestPreempt (c : Nat) (s : State) : State :=
  let x := s.ctx c
  let s := wakeMwaits c (s.setCtx c { x with req := true })
  if x.force || x.limit == 0 then enterSaving c (withdrawPending c s)
  else setCtxState c .draining (withdrawPending c s)
/-- A write to PCTL; while draining, FORCE with REQ saves at once. REQ written while restoring reads 1 from then on, until
the request it becomes is carried out (R416, R417). -/
def pctlPut (c : Nat) (v : Nat) (s : State) : State :=
  let x := s.ctx c
  let s := s.setCtx c { x with force := bitAt v 1, limit := BitVec.ofNat 24 (v / 2 ^ 8) }
  if !bitAt v 0 then s
  else match x.st with
    | .running => requestPreempt c s
    | .draining => if bitAt v 1 || v / 2 ^ 8 % 2 ^ 24 == 0 then enterSaving c s else s
    | .killed => s
    | st => s.setCtx c { s.ctx c with
        reqAgain := some (BitVec.ofNat 32 v), req := (s.ctx c).req || st == .restoring }
/-- PCTL as it is read. -/
def Ctx.pctl (x : Ctx) : Nat :=
  (if x.req then 1 else 0) + (if x.force then 2 else 0) + 16 * x.st.code + 2 ^ 8 * x.limit.toNat
/-- PCTL_WRITE. -/
def execPctlWrite (ctx : Nat) (v : Word) (s : State) : Out := .next (pctlPut ctx v.toNat s)
/-- PREEMPT_LIMIT_EXPIRY. -/
def execPreemptLimitExpiry (ctx : Nat) (s : State) : Out :=
  .next (if (s.ctx ctx).st = .draining then enterSaving ctx s else s)

/-! ### Controls of a context (R441, R442) -/

/-- The groups of a context. -/
def ctxGroups (s : State) (c : Nat) : List Gid :=
  (s.teams.filter fun t => t.ctx == c).flatMap fun t => t.groups.map fun g => ⟨t.uid, g.idx⟩
/-- A halted group goes on at its next instruction, or, where its open region was aborted, at RSTART (R405, R413). -/
def Group.resume (g : Group) : Group :=
  match g.cond with
  | .halted replay => { g with cond := .ready, pc := if replay then g.pc else pcAdd g.pc 12 }
  | _ => g
/-- Every halted group of a context goes on (R413, R441). -/
def resumeHalted (c : Nat) (s : State) : State :=
  (ctxGroups s c).foldl (fun s gid => modGroup gid Group.resume s) s
/-- CCTL_RESUME. -/
def execCctlResume (ctx : Nat) (s : State) : Out := .next (resumeHalted ctx s)
/-- A write to CCTL. -/
def cctlPut (c v : Nat) (s : State) : State :=
  let s := s.setCtx c { s.ctx c with interlock := bitAt v 0, debug := bitAt v 1 }
  if bitAt v 2 then resumeHalted c s else s
/-- WAKE. -/
def execWake (ctx : Nat) (s : State) : Out := .next (wakeMwaits ctx s)

/-- A group that waits for an answer goes on (R404, R406). -/
def answerGroup (c ord : Nat) (decline : Bool) (s : State) (gid : Gid) : State :=
  match env? s gid with
  | none => s
  | some e => match e.grp.cond with
    | .wait (.fault o va acc lane rgn) =>
      if e.team.ctx ≠ c ∨ o ≠ ord then s
      else
        let start := match e.grp.region with | some r => r.rstart | none => e.grp.pc
        let pc := if rgn then start else e.grp.pc
        let t := { pageTrap ord va acc lane with decl := true }
        if decline then
          if rgn then takeTrapAt gid t pc true (modGroup gid (fun g => { g with cond := .ready, pc := pc, region := none }) s)
          else takeTrap gid t s
        else modGroup gid (fun g => { g with cond := .ready, pc := pc }) s
    | _ => s
/-- System software answers a fault: every record that shares the ordinal (R400, R442). -/
def answerFault (c ord : Nat) (decline : Bool) (s : State) : State :=
  let x := s.ctx c
  let hit (f : FaultRec) : Bool := f.ord == ord && f.answer.isNone
  if !(x.faults ++ x.heldFaults).any hit then s
  else
    let put (f : FaultRec) : FaultRec := if hit f then { f with answer := some (!decline) } else f
    let s := s.setCtx c { x with faults := x.faults.map put, heldFaults := x.heldFaults.map put }
    (ctxGroups s c).foldl (answerGroup c ord decline) s
/-- FANS. -/
def execFans (ctx ord : Nat) (decline : Bool) (s : State) : Out := .next (answerFault ctx ord decline s)
/-- A write to FQCONS: the queue takes what it held back (R442). -/
def fqconsPut (c : Nat) (v : Word) (s : State) : State := settleCtx c (s.setCtx c { s.ctx c with fqCons := v })
/-- FQCONS_WRITE. -/
def execFqconsWrite (ctx : Nat) (v : Word) (s : State) : Out := .next (fqconsPut ctx v s)

/-! ### Queues and fences (R352, R353, R355, R357) -/

/-- A queue of a context. -/
def Ctx.queue (x : Ctx) (q : Nat) : Queue := (Assoc.get? x.queues q).getD .zero
/-- Replace a queue. -/
def setQueue (c q : Nat) (y : Queue) (s : State) : State :=
  let x := s.ctx c
  s.setCtx c { x with queues := Assoc.wr .zero x.queues q y }
/-- A queue descriptor as it is read. -/
def Queue.word (y : Queue) : Nat → Nat
  | 0 => halfOf y.qbase false
  | 1 => halfOf y.qbase true
  | 2 => y.qlog2.toNat
  | 3 => y.pub.toNat
  | 4 => y.cons.toNat
  | 5 => (if y.err then 1 else 0) + (if y.stop then 2 else 0) + 2 ^ 8 * y.ecode.toNat
  | 6 => y.eidx.toNat
  | _ => 0
/-- A write to the 8 bytes number `j` of a descriptor. -/
def Queue.put (y : Queue) (j : Nat) (lo hi : Option Nat) : Queue :=
  match j with
  | 0 => { y with qbase := putHalves y.qbase lo hi }
  | 1 => { y with
      qlog2 := match lo with | some v => BitVec.ofNat 4 v | none => y.qlog2
      pub := match hi with | some v => BitVec.ofNat 32 v | none => y.pub }
  | 2 => match hi with
    | some v => { y with err := y.err && !bitAt v 0, stop := bitAt v 1 }
    | none => y
  | _ => y
/-- QUEUE_DOORBELL. -/
def execQueueDoorbell (ctx q : Nat) (pub : Word) (s : State) : Out :=
  .next (if q < 16 then setQueue ctx q { (s.ctx ctx).queue q with pub := pub } s else s)
/-- QUEUE_STOP_CLEAR: the front end takes the record at CONS again. -/
def execQueueStopClear (ctx q : Nat) (s : State) : Out :=
  .next (if q < 16 then setQueue ctx q { (s.ctx ctx).queue q with stop := false } s else s)
/-- A named fence. -/
def Ctx.fence (x : Ctx) (f : Nat) : DWord := Assoc.rd 0 x.fences f
/-- A value of fence `f` meets a record's WAIT: WAITF, WFENCE and TARGET (R354, R357). -/
def waitMetBy (f : Nat) (v : DWord) (r : BitVec 512) : Bool :=
  bitAt r.toNat 8 && field r.toNat 16 6 == f && decide (field r.toNat 192 64 ≤ v.toNat)
/-- Set a named fence; the WAIT of every record that stands in it is looked at again (R357). -/
def setFence (c f : Nat) (v : DWord) (s : State) : State :=
  let x := s.ctx c
  s.setCtx c { x with
    fences := Assoc.wr 0 x.fences f v
    queues := x.queues.map fun (q, y) => (q, match y.st with
      | .held r => if waitMetBy f v r then { y with st := .met r } else y
      | _ => y) }

/-- Granting a routing bank clears it (R370). -/
def rgrantPut (c : Nat) (v : BitVec 16) (s : State) : State :=
  let x := s.ctx c
  let s := s.setCtx c { x with rgrant := v }
  (List.range 16).foldl (fun s i =>
    if v.getLsbD i && !x.rgrant.getLsbD i then
      let d := s.die (i / 4)
      s.setDie (i / 4) { d with counters := d.counters.filter fun (k, _) => k / 256 ≠ i % 4 }
    else s) s

/-! ### Monitors (R445) -/

/-- A monitor of a die. -/
def Die.mon (d : Die) (m : Nat) : PerfMon := (Assoc.get? d.mons m).getD .zero
/-- Replace a monitor. -/
def setMonitor (die m : Nat) (x : PerfMon) (s : State) : State :=
  let d := s.die die
  s.setDie die { d with mons := Assoc.put d.mons m x }
/-- A write to offset 0: the configuration is set and the samples are cleared; a reserved SRC sets EN to 0. -/
def PerfMon.config (v : Nat) : PerfMon :=
  { PerfMon.zero with src := BitVec.ofNat 8 v, inst := BitVec.ofNat 8 (v / 2 ^ 8), en := bitAt v 16 && decide (v % 2 ^ 8 ≤ 6) }
/-- The schedule slips of a core (R366). -/
def State.slipsOf (s : State) (core : Nat) : Nat := Assoc.rd 0 s.slips core
/-- A write to a monitor's offset 0: its slips are counted from now on. -/
def monitorConfig (die m v : Nat) (s : State) : State :=
  let x := PerfMon.config v
  setMonitor die m { x with mark := s.slipsOf (192 * die + x.inst.toNat) } s
/-- The configuration as it is read. -/
def PerfMon.word (x : PerfMon) : Nat := x.src.toNat + x.inst.toNat * 2 ^ 8 + (if x.en then 2 ^ 16 else 0)
/-- A read at an offset of a monitor: MIN, MAX and the bins return their value and are cleared. -/
def PerfMon.read (x : PerfMon) (off : Nat) : PerfMon × Nat :=
  if off = 0 then (x, x.word)
  else if off = 4 then ({ x with min := 0xFFFFFFFF }, x.min.toNat)
  else if off = 8 then ({ x with max := 0 }, x.max.toNat)
  else if 0x80 ≤ off ∧ off % 4 = 0 then
    ({ x with bins := Assoc.del x.bins ((off - 0x80) / 4) }, (Assoc.rd 0 x.bins ((off - 0x80) / 4)).toNat)
  else (x, 0)
/-- The bin of a sample. -/
def binOf (v : Nat) : Nat := if v = 0 then 0 else min (log2 v + 1) 31
/-- A sample; source 0 has none. -/
def PerfMon.sample (x : PerfMon) (v : Word) : PerfMon :=
  if !x.en || x.src == 0 then x
  else
    let n := (Assoc.rd 0 x.bins (binOf v.toNat)).toNat
    { x with
      min := if v.toNat < x.min.toNat then v else x.min
      max := if x.max.toNat < v.toNat then v else x.max
      bins := Assoc.wr 0 x.bins (binOf v.toNat) (BitVec.ofNat 32 (Nat.min (n + 1) 0xFFFFFFFF)) }
/-- MONITOR_CONFIG_WRITE. -/
def execMonitorConfigWrite (die m : Nat) (v : Word) (s : State) : Out :=
  .next (if die < 4 ∧ m < 32 then monitorConfig die m v.toNat s else s)
/-- The monitor after an RSC read. -/
def monitorRead (die m off : Nat) (s : State) : State × Nat :=
  let (x, v) := ((s.die die).mon m).read off
  if x = (s.die die).mon m then (s, v) else (setMonitor die m x s, v)
/-- MONITOR_RSC_READ. -/
def execMonitorRscRead (die m off : Nat) (s : State) : Out :=
  .next (if die < 4 ∧ m < 32 then (monitorRead die m off s).1 else s)
/-- A monitor takes a sample: of source 4 the slips of its core since the last one, at the end of a window of 1,024 clk;
of source 5 the commands its core's Agate holds; of the others, which measure time or occupancy, the value `v`. -/
def monitorSample (die m : Nat) (v : Word) (s : State) : State :=
  let x := (s.die die).mon m
  let core := 192 * die + x.inst.toNat
  let slips := s.slipsOf core
  let v := if x.src = 4 then BitVec.ofNat 32 (slips - x.mark)
    else if x.src = 5 then BitVec.ofNat 32 (s.copies.filter fun c => c.core == core).length
    else v
  setMonitor die m { x.sample v with mark := if x.en && x.src == 4 then slips else x.mark } s
/-- MONITOR_SAMPLE. -/
def execMonitorSample (die m : Nat) (v : Word) (s : State) : Out :=
  .next (if die < 4 ∧ m < 32 then monitorSample die m v s else s)

/-! ### The phase (R446) -/

/-- The codes of PHASE. -/
def Phase.code : Phase → Nat
  | .early => 0
  | .ready => 1
  | .run => 2
/-- No context is resident: no team is bound and no grid is active. -/
def noneResident (s : State) : Bool := s.teams.isEmpty && s.grids.isEmpty
/-- GO (R446): early memory goes to HBM, every die starts at the nominal clock, or at 550 MHz while the thermal limit holds
(R449), PHASE is RUN; at any other time it is ignored and logged. -/
def goStep (s : State) : State :=
  if s.phase = .ready ∧ noneResident s then
    let s := s.l2.foldl (fun s (k, _) => l2Clean s k) s
    let s := (List.range 4).foldl (fun s d => s.setDie d { s.die d with clock := if (s.die d).hot then 550 else 1100 }) s
    logEvent { s with phase := .run } 0x0C 0 2
  else logEvent s 0x0D 0 0x08
/-- GO. -/
def execGo (s : State) : Out := .next (goStep s)
/-- HBM_READY: training is complete and the firmware is verified. -/
def execHbmReady (s : State) : Out :=
  .next (if s.phase = .early ∧ s.boot.started then logEvent { s with phase := .ready } 0x0C 0 1 else s)

/-! ### Reads -/

/-- A field of an event record (R447): word `i` of its 32 bytes. -/
def EvRec.word (r : EvRec) : Nat → Nat
  | 0 => r.code.toNat + r.die.toNat * 2 ^ 16
  | 1 => r.seq.toNat
  | 2 => halfOf r.cycle false
  | 3 => halfOf r.cycle true
  | 4 => halfOf r.data false
  | 5 => halfOf r.data true
  | _ => 0
/-- The hottest die junction (R440). -/
def hottest (s : State) : Nat := (List.range 4).foldl (fun a d => max a (s.die d).junction.toNat) 0
/-- The device block (R440). -/
def devWord (s : State) (o : Nat) : Nat :=
  if o = 0x0 then s.phase.code
  else if o = 0x8 then (if s.boot.recovery then 2 else 0)
  else if o = 0x10 then s.plimit.toNat
  else if o = 0x18 then s.power.toNat + hottest s * 2 ^ 16 + s.coolant.toNat * 2 ^ 24
  else if o = 0x20 then s.fabid.toNat
  else if o = 0x40 then s.elHead.toNat
  else if 0x100 ≤ o ∧ o < 0x300 then wordOf (Assoc.rd 0 s.vfmap ((o - 0x100) / 32)) (o % 32 / 4)
  else if 0x10_0000 ≤ o ∧ o < 0x12_0000 then
    match s.log.find? fun r => r.seq.toNat % 4096 == (o - 0x10_0000) / 32 with
    | some r => r.word (o % 32 / 4)
    | none => 0
  else 0
/-- PARTQp (R364). -/
def Die.quota (d : Die) (p : Nat) : DWord := (Assoc.get? d.partq p).getD partqReset
/-- LINKn (R444). -/
def Link.word (l : Link) : Nat := l.lanes % 16 + l.retries.toNat * 2 ^ 16
/-- A die block (R440). -/
def dieWord (s : State) (d o : Nat) : State × Nat :=
  let x := s.die d
  if o = 0x0 then (s, x.scrub.toNat)
  else if o = 0x8 then (s, x.chthr.toNat)
  else if 0x100 ≤ o ∧ o < 0x180 then (s, halfOf (x.quota ((o - 0x100) / 8)) (o % 8 == 4))
  else if 0x200 ≤ o ∧ o < 0x220 ∧ o % 8 = 0 then (s, ((Assoc.get? x.links ((o - 0x200) / 8)).getD .zero).word)
  else if 0x1000 ≤ o ∧ o < 0x3000 then monitorRead d ((o - 0x1000) / 256) (o % 256) s
  else (s, 0)
/-- A core block (R117, R362, R439). -/
def coreWord (s : State) (core o : Nat) : Nat :=
  let pb := s.pbOf core
  if o = 0x0 then pb.reg
  else if o = 0x4 then pb.sp
  else if o = 0x8 then pb.ring
  else if 0x800 ≤ o ∧ o < 0x1000 then wordOf (s.slot core ((o - 0x800) / 32)).v (o % 32 / 4)
  else 0
/-- SAVESZ: the bytes one team's image needs (R420). -/
def saveSize (c : Nat) : DWord := BitVec.ofNat 64 (64 + Config.imageBody c)
/-- A context block (R441). -/
def ctxWord (s : State) (c o : Nat) : Nat :=
  let x := s.ctx c
  let hi := o % 8 == 4
  if o < 0x200 then (x.queue (o / 32)).word (o % 32 / 4)
  else if o < 0x400 then halfOf (x.fence ((o - 0x200) / 8)) hi
  else if o = 0x400 then x.pctl
  else if o = 0x408 then (if x.interlock then 1 else 0) + (if x.debug then 2 else 0)
  else if o = 0x40C then x.minsv.toNat
  else if o / 8 = 0x82 then halfOf x.saveBase hi
  else if o / 8 = 0x83 then halfOf (saveSize c) hi
  else if o / 8 = 0x84 then halfOf x.btBase hi
  else if o / 8 = 0x85 then halfOf x.ptRoot hi
  else if o / 8 = 0x88 then halfOf x.fqBase hi
  else if o = 0x448 then x.fqPub.toNat
  else if o = 0x44C then x.fqCons.toNat
  else if o / 8 = 0x8B then halfOf x.eqBase hi
  else if o = 0x460 then x.eqPub.toNat
  else if o = 0x464 then x.eqCons.toNat
  else if 0x480 ≤ o ∧ o < 0x4A0 then wordOf x.bgrant (o % 32 / 4)
  else if o = 0x4A0 then x.rgrant.toNat
  else if o = 0x4A8 then x.part.toNat
  else 0
/-- Four bytes of management space; what no rule names reads 0 (R6, R439). -/
def mgmtWord (s : State) (o : Nat) : State × Nat :=
  if o < 0x0100_0000 then (s, devWord s o)
  else if o < 0x0500_0000 then dieWord s (o / 2 ^ 24 - 1) (o % 2 ^ 24)
  else if 0x1000_0000 ≤ o ∧ o < 0x1400_0000 ∧ o / 2 ^ 16 % 256 < 192 then
    (s, coreWord s ((o - 0x1000_0000) / 2 ^ 24 * 192 + o / 2 ^ 16 % 256) (o % 2 ^ 16))
  else if 0x2000_0000 ≤ o ∧ o < 0x2F00_0000 then (s, ctxWord s ((o - 0x2000_0000) / 2 ^ 20) (o % 2 ^ 20))
  else (s, 0)
/-- The access has a size and alignment management space accepts (R439). -/
def mgmtSized (o n : Nat) : Bool := (n == 4 || n == 8) && o % n == 0
/-- Read management space at a location (R439). -/
def mgmtRead (s : State) (loc n : Nat) : State × Nat :=
  let o := loc % 2 ^ 32
  if !mgmtSized o n then (mgmtRefuse s loc, 0)
  else if n = 4 then mgmtWord s o
  else
    let (s, lo) := mgmtWord s o
    let (s, hi) := mgmtWord s (o + 4)
    (s, lo + hi * 2 ^ 32)

/-! ### Writes -/

/-- The device block. -/
def devPut (o : Nat) (lo hi : Option Nat) (s : State) : State :=
  if 0x100 ≤ o ∧ o < 0x300 then
    let k := (o - 0x100) / 32
    let v := putPiece (Assoc.rd 0 s.vfmap k) (o % 32 / 8) lo hi
    { s with vfmap := Assoc.wr 0 s.vfmap k (BitVec.ofNat 256 (v.toNat % 2 ^ 240)) }
  else match lo with
    | none => s
    | some v =>
      if o = 0x8 then
        let s := { s with boot := { s.boot with recovery := bitAt v 1 } }
        if bitAt v 0 then goStep s else s
      else if o = 0x10 then { s with plimit := BitVec.ofNat 32 (max 600 (min v 3600)) }
      else if o = 0x20 then { s with fabid := BitVec.ofNat 8 v }
      else s
/-- The bits of PARTQ that can be written (R364). -/
def partqMask : DWord := 0x001F_0FFF_000F_FF7F#64
/-- A die block. A SCRUB outside 1 to 168 leaves the period as it is, which is the model's choice (R440, log 29). -/
def diePut (d o : Nat) (lo hi : Option Nat) (s : State) : State :=
  let x := s.die d
  if 0x100 ≤ o ∧ o < 0x180 then
    let p := (o - 0x100) / 8
    s.setDie d { x with partq := Assoc.put x.partq p (putHalves (x.quota p) lo hi &&& partqMask) }
  else match lo with
    | none => s
    | some v =>
      if o = 0x0 then (if 1 ≤ v ∧ v ≤ 168 then s.setDie d { x with scrub := BitVec.ofNat 32 v } else s)
      else if o = 0x8 then s.setDie d { x with chthr := BitVec.ofNat 32 v }
      else if 0x1000 ≤ o ∧ o < 0x3000 ∧ o % 256 = 0 then monitorConfig d ((o - 0x1000) / 256) v s
      else s
/-- A core block: only the slot table is written (R117, R362). -/
def corePut (core o : Nat) (lo hi : Option Nat) (s : State) : State :=
  if 0x800 ≤ o ∧ o < 0x1000 then
    let n := (o - 0x800) / 32
    putSlot core n (putPiece (s.slot core n).v (o % 32 / 8) lo hi) s
  else s
/-- A context block. -/
def ctxPut (c o : Nat) (lo hi : Option Nat) (s : State) : State :=
  let x := s.ctx c
  let on (v : Option Nat) (f : Nat → State → State) (s : State) : State := match v with | some v => f v s | none => s
  let set (y : Ctx) : State := s.setCtx c y
  if o < 0x200 then setQueue c (o / 32) ((x.queue (o / 32)).put (o % 32 / 8) lo hi) s
  else if o < 0x400 then setFence c ((o - 0x200) / 8) (putHalves (x.fence ((o - 0x200) / 8)) lo hi) s
  else if o = 0x400 then on lo (pctlPut c) s
  else if o = 0x408 then
    on hi (fun v s => s.setCtx c { s.ctx c with minsv := BitVec.ofNat 32 v }) (on lo (cctlPut c) s)
  else if o = 0x410 then set { x with saveBase := putHalves x.saveBase lo hi }
  else if o = 0x420 then set { x with btBase := putHalves x.btBase lo hi }
  else if o = 0x428 then set { x with ptRoot := putHalves x.ptRoot lo hi }
  else if o = 0x430 then on lo (fun v s => if bitAt v 0 then wakeMwaits c s else s) s
  else if o = 0x438 then set { x with measReqs := x.measReqs ++ [BitVec.ofNat 64 (withHalves 0 lo hi)] }
  else if o = 0x440 then set { x with fqBase := putHalves x.fqBase lo hi }
  else if o = 0x448 then on hi (fun v => fqconsPut c (BitVec.ofNat 32 v)) s
  else if o = 0x450 then on lo (fun v => answerFault c v (bitAt (hi.getD 0) 0)) s
  else if o = 0x458 then set { x with eqBase := putHalves x.eqBase lo hi }
  else if o = 0x460 then on hi (fun v s => s.setCtx c { s.ctx c with eqCons := BitVec.ofNat 32 v }) s
  else if 0x480 ≤ o ∧ o < 0x4A0 then set { x with bgrant := putPiece x.bgrant (o % 32 / 8) lo hi }
  else if o = 0x4A0 then on lo (fun v => rgrantPut c (BitVec.ofNat 16 v)) s
  else if o = 0x4A8 then on lo (fun v s => s.setCtx c { s.ctx c with part := BitVec.ofNat 4 v }) s
  else s
/-- A write to the eight bytes at `o` of management space, or to either half of them. -/
def mgmtPut (o : Nat) (lo hi : Option Nat) (s : State) : State :=
  if o < 0x0100_0000 then devPut o lo hi s
  else if o < 0x0500_0000 then diePut (o / 2 ^ 24 - 1) (o % 2 ^ 24) lo hi s
  else if 0x1000_0000 ≤ o ∧ o < 0x1400_0000 ∧ o / 2 ^ 16 % 256 < 192 then
    corePut ((o - 0x1000_0000) / 2 ^ 24 * 192 + o / 2 ^ 16 % 256) (o % 2 ^ 16) lo hi s
  else if 0x2000_0000 ≤ o ∧ o < 0x2F00_0000 then ctxPut ((o - 0x2000_0000) / 2 ^ 20) (o % 2 ^ 20) lo hi s
  else s
/-- Write management space at a location (R439). -/
def mgmtWrite (loc n v : Nat) (s : State) : State :=
  let o := loc % 2 ^ 32
  if !mgmtSized o n then mgmtRefuse s loc
  else if n = 8 then mgmtPut o (some (v % 2 ^ 32)) (some (v / 2 ^ 32 % 2 ^ 32)) s
  else if o % 8 = 4 then mgmtPut (o - 4) none (some (v % 2 ^ 32)) s
  else mgmtPut o (some (v % 2 ^ 32)) none s
/-- The home of a location, management space among them, is read by an engine or a slice operation (R97, R439). -/
def spaceRead (s : State) (loc n : Nat) : State × List Byte × Bool :=
  if inMgmt loc then
    let (s, v) := mgmtRead s loc n
    (s, toBytes n v, false)
  else homeRead s loc n
/-- The same for a write. -/
def spaceWrite (s : State) (loc : Nat) (bs : List Byte) : State :=
  if inMgmt loc then mgmtWrite loc bs.length (ofBytes bs) s else homeWrite s loc bs
/-- MGMT_REGISTER_WRITE. -/
def execMgmtRegisterWrite (off size : Nat) (v : DWord) (s : State) : Out := .next (mgmtWrite off size v.toNat s)
/-- SLOT_ENTRY_WRITE. -/
def execSlotEntryWrite (core entry : Nat) (v : BitVec 256) (s : State) : Out :=
  .next (if core < 768 ∧ entry < 64 then putSlot core entry v s else s)

end Sys2Proof.Machine
end

