-- ==== Sys2Proof/Machine/Slice.lean ====
section
/-! DEFINITION. Loads of a range (R255, R298, R316), and operations at the home slice: `atomg` and its requests, the lane and
list forms of `gath` and `scat` (R260 to R278). -/

namespace Sys2Proof.Machine

/-! ### Loads of a range (R298, R255, R316) -/

/-- Bytes of one line, as a load reads them: management space at its block (R439), memory through the caches; the Bool is
poison. -/
def loadBytes (e : Env) (ch : Nat) (x : LaneAcc) (n : Nat) (s : State) : State × List Byte × Bool :=
  if inMgmt x.loc then
    let (s, v) := mgmtRead s x.loc n
    (s, toBytes n v, false)
  else loadLine s e.core x.loc n (x.ca == 0) (loadCh s e.core (x.loc / 128) ch)
/-- Read pieces in order, each in one line; the first poisoned one stops with its address and lane (R87). -/
def readLines (e : Env) (ch : Nat) : List (LaneAcc × Nat) → State → State × Except (Nat × Nat) (List (List Byte))
  | [], s => (s, .ok [])
  | (x, n) :: xs, s =>
    let (s, bs, p) := loadBytes e ch x n s
    if p then (s, .error (x.va, x.lane))
    else match readLines e ch xs s with
      | (s, .error r) => (s, .error r)
      | (s, .ok l) => (s, .ok (forwarded e.grp x.loc bs :: l))
/-- Read the pieces as a load with hint `ch` does: wait, trap POISON, or give the bytes of each. -/
def loadPieces (e : Env) (ch : Nat) (xs : List (LaneAcc × Nat)) (s : State) : Except Res (State × List (List Byte)) :=
  let xs := sectorPieces xs
  if xs.any fun (x, n) => loadWaits e s ch x n || listBlocks e s false x.loc n then
    .error (.wait (xs.foldl (fun s (x, n) => biSend s x.loc n false) s) .retry)
  else match readLines e ch xs s with
    | (t, .error (va, l)) => .error (.trap t { cause := 0x0C, addr := va, lane := l })
    | (t, .ok bs) => .ok (afterLoad e.core ch s xs t, bs)
/-- Read a range as an `ldg` of the group would. -/
def loadRange (e : Env) (b : GBase) (x : Int) (n align : Nat) (s : State) : Except Res (State × List Byte) :=
  match resolveRange e b x n align .read s with
  | .error r => .error r
  | .ok (s, xs) => match loadPieces e 0 xs s with
    | .error r => .error r
    | .ok (s, bs) => .ok (s, bs.flatten)

/-! ### What goes before (R260, R261) -/

/-- The issuing die's RDC gives up the lines of a range (R260); an uncached page has none. -/
def rdcGiveUp (s : State) (die loc n ca : Nat) : State :=
  if ca = 0 && isRemote die loc then (segs 128 loc n).foldl (init := s) fun s (a, _) => rdcDrop s die (a / 128) else s
/-- The home's bytes as a slice operation sees them, and whether they are poisoned. -/
def sliceRead (s : State) (die loc n ca : Nat) : State × List Byte × Bool :=
  spaceRead (hostPast (rdcGiveUp s die loc n ca) loc n) loc n
/-- The lines that the issuing die's RDC has to write back before requests to them are sent are held (R260, R443). -/
def giveUpHeld (s : State) (die : Nat) (xs : List (Nat × Nat × Nat)) : Bool :=
  xs.any fun (loc, n, ca) => ca == 0 && isRemote die loc && (segs 128 loc n).any fun (a, _) =>
    (rdcGet s die (a / 128)).dirty != 0 && lineHeld s a 1
/-- The steps of R260 before the requests to locations (length, cache attribute) are sent: the RDC gives up their lines, and
for writes the core's L1 copies go. -/
def sendSteps (die core : Nat) (writes : Bool) (xs : List (Nat × Nat × Nat)) (s : State) : State :=
  xs.foldl (init := s) fun s (loc, n, ca) =>
    let s := rdcGiveUp s die loc n ca
    if writes then l1DropRange core loc n s else s
/-- The event of a discarded update, with the target's address (R272): of media the stack address, of host and peer memory
the location (log 29). -/
def logDiscard (s : State) (loc : Nat) : State :=
  if isDev loc then logEvent s 0x08 (dieOf loc) (stackAddr loc) else logEvent s 0x08 0 loc

/-! ### The atomic step (R266, R268, R269, R271) -/

/-- The new BF16 element: old + v, rounded once (R268). -/
def bf16Add (rmode old : Nat) (v : FV) : Nat :=
  ffin (fmtOf 9) rmode false (fsum (isRdn rmode) [fdec (fmtOf 9) (fin rmode (fmtOf 9) old), v])
/-- The new f32 element (R268); the addend is as it was merged. -/
def f32Add (rmode old : Nat) (v : FV) : Nat :=
  ffin f32 rmode false (fsum (isRdn rmode) [fdec f32 (fin rmode f32 old), v])
/-- The new word after one request of one lane, or of merged lanes. -/
def atomStep (aop w rmode old : Nat) (o : AtomOp) : Nat :=
  if aop = 10 then f32Add rmode old (f32v o.v.toNat) else atomNew aop w rmode old o.v.toNat o.cmp.toNat
/-- The words after each of a request's lanes: the old value each lane sees, and the last value. -/
def atomChain (aop w rmode : Nat) : Nat → List AtomOp → List Nat × Nat
  | old, [] => ([], old)
  | old, o :: os =>
    let (xs, z) := atomChain aop w rmode (atomStep aop w rmode old o) os
    (old :: xs, z)
/-- Read the target where the request is performed: the home, or for a cached host page the issuing die's RDC, which takes
the line exclusive (R271). -/
def atomRead (s : State) (die : Nat) (r : AtomReq) (n : Nat) : State × Nat × Bool :=
  if isHost r.loc && r.ca = 0 then
    let (s, l) := rdcFillLine (hostOwn s die r.loc) die (r.loc / 128)
    (s, ofBytes (lineBytes l.data (r.loc % 128) n), poisonIn l.poison (r.loc % 128) n)
  else
    let (s, bs, p) := sliceRead s die r.loc n r.ca.toNat
    (s, ofBytes bs, p)
/-- Write it there. -/
def atomWrite (s : State) (die : Nat) (r : AtomReq) (loc : Nat) (bs : List Byte) : State :=
  if isHost r.loc && r.ca = 0 then rdcWrite s die loc bs else spaceWrite s loc bs
/-- Perform a request, but for `bf16x2`: the old value each lane returns, and whether the update was discarded. -/
def atomPerform (s : State) (die : Nat) (r : AtomReq) : State × List Nat × Bool :=
  let n := if r.wide then 8 else 4
  let (s, old, p) := atomRead s die r n
  if p then (logDiscard s r.loc, r.ops.map fun _ => old, true)
  else
    let (olds, z) := atomChain r.aop (8 * n) r.rmode.toNat old r.ops
    (atomWrite s die r r.loc (toBytes n z), olds, false)
/-- Perform one half of a `bf16x2` request: the half's old value (R269). -/
def halfPerform (s : State) (die : Nat) (r : AtomReq) (hi : Bool) : State × Nat × Bool :=
  let (s, old, p) := atomRead s die r 4
  let h := if hi then old / 2 ^ 16 else old % 2 ^ 16
  if p then (logDiscard s r.loc, h, true)
  else
    let v := match r.ops with | o :: _ => f32v (if hi then o.v.toNat / 2 ^ 32 else o.v.toNat % 2 ^ 32) | [] => .num false 0 0
    (atomWrite s die r (r.loc + if hi then 2 else 0) (toBytes 2 (bf16Add r.rmode.toNat h v)), h, false)
/-- All of a request at once: the old values, the Bool a discard. -/
def atomWhole (s : State) (die : Nat) (r : AtomReq) : State × List Nat × Bool :=
  if r.aop = 11 then
    let (s, lo, p) := halfPerform s die r false
    let (s, hi, q) := halfPerform s die r true
    (s, r.ops.map fun _ => hi * 2 ^ 16 + lo, p || q)
  else atomPerform s die r

/-! ### The transition table (R373, R374) -/

/-- A word after `m` trainings of counter `ctr`, or after its `ctr` counters are halved; no other bit is written
(R373, R374). -/
def trainWord (w ctr m : Nat) (decay : Bool) : Nat :=
  if decay then
    (List.range ctr).foldl (fun a k => a + field w (3 * k) 3 / 2 * 2 ^ (3 * k)) (w >>> (3 * ctr) <<< (3 * ctr))
  else
    let c := field w (3 * ctr) 3
    w - c * 2 ^ (3 * ctr) + min (c + m) 7 * 2 ^ (3 * ctr)
/-- Perform a training step at the home, a word of management space among them (R439); a poisoned sector discards it
(R88). -/
def trainStep (s : State) (die loc ctr m : Nat) (decay : Bool) : State :=
  let (s, bs, p) := sliceRead s die loc 8 0
  if p then logDiscard s loc else spaceWrite s loc (toBytes 8 (trainWord (ofBytes bs) ctr m decay))

/-! ### Posted requests -/

/-- A posted request is applied at the home, in the order R260 and R261 give; `half` chooses the half of a `bf16x2`
step. -/
def sliceApplyStep (id half : Nat) (s : State) : State :=
  match s.pend? id with
  | none => s
  | some p =>
    let die := coreDie p.core
    match p.kind with
    | .atom r =>
      if mustWait s p.owner (some id) r.loc (if r.wide then 8 else 4) then s
      else if lineHeld s r.loc 4 then biSend s r.loc 4 true
      else if r.aop = 11 then
        let hi := half % 2 == 1
        if (if hi then r.hi else r.lo) then s
        else
          let (s, _, _) := halfPerform s die r hi
          let r' := { r with lo := r.lo || !hi, hi := r.hi || hi }
          if r'.lo && r'.hi then unpost id s
          else { s with pend := s.pend.map fun q => if q.id = id then { q with kind := .atom r' } else q }
      else unpost id (atomPerform s die r).1
    | .train loc ctr m decay =>
      if mustWait s p.owner (some id) loc 8 then s
      else if lineHeld s loc 8 then biSend s loc 8 true
      else unpost id (trainStep s die loc ctr m decay)
    | _ => s
/-- SLICE_ATOMIC_APPLY. -/
def execSliceAtomicApply (id half : Nat) (s : State) : Out := .next (sliceApplyStep id half s)

/-! ### `atomg` -/

/-- A sum of addends in FP32, each rounded RNE, in lane order; a single addend is used exactly (R267). -/
def mergeF32 : List FV → FV
  | [] => .num false 0 0
  | x :: xs => xs.foldl (fun a y => f32v (fround f32 0 false (fsum false [a, y]))) x
/-- The FP32 pattern of a merged sum. -/
def mergedBits (xs : List FV) : Nat := fround f32 0 false (mergeF32 xs)
/-- The request to one address for its lanes in ascending order (R266, R267). -/
def mkRequest (f : Slk) (e : Env) (loc ca : Nat) (lanes : List Nat) : AtomReq :=
  let rm := e.grp.rmode
  let raw (l : Nat) : Nat := e.wide l f.s3 1
  let ops : List AtomOp :=
    if fAop f = 10 then
      [⟨BitVec.ofNat 64 (mergedBits (lanes.map fun l => fdec f32 (fin rm.toNat f32 (raw l)))), 0⟩]
    else if fAop f = 11 then
      let half (sh : Nat) : Nat :=
        mergedBits (lanes.map fun l => fdec (fmtOf 9) (fin rm.toNat (fmtOf 9) (field (raw l) sh 16)))
      [⟨BitVec.ofNat 64 (half 0 + half 16 * 2 ^ 32), 0⟩]
    else lanes.map fun l => let (v, c) := e.atomOperand f l; ⟨BitVec.ofNat 64 v, BitVec.ofNat 64 c⟩
  ⟨e.st.nextId, loc, BitVec.ofNat 2 ca, fAop f, fSz f == 3, ops, rm, false, false⟩
/-- The distinct locations of an instruction, with their lanes. -/
def byAddress (xs : List LaneAcc) : List (Nat × Nat × List Nat) :=
  (xs.map fun x => (x.loc, x.ca)).eraseDups.map fun (a, c) =>
    (a, c, (xs.filter fun x => x.loc == a && x.ca == c).map (·.lane))
/-- An uncached host page takes only integer add, exchange and compare-and-swap (R271). -/
def pcieRefuses (f : Slk) (loc ca : Nat) : Bool := isHost loc && ca != 0 && !([0, 8, 9].contains (fAop f))
/-- Requests performed while the instruction holds the group: register writes, and the lanes whose update was
discarded (R272). -/
def performNow (f : Slk) (die : Nat) : State → List (AtomReq × List Nat) → State × List RegWrite × List Nat
  | s, [] => (s, [], [])
  | s, (r, lanes) :: rs =>
    let (s, olds, p) := atomWhole s die r
    let olds := if f.d = .none then [] else olds
    let olds := if r.ops.length = 1 then lanes.map fun _ => olds.headD 0 else olds
    let (s, ws, bad) := performNow f die s rs
    let mine := if f.d = .none then [] else (lanes.zip olds).flatMap fun (l, x) => dstWrites f.d (szRegs (fSz f)) l x
    (s, if p then (ws, lanes ++ bad) else (mine ++ ws, bad))
/-- The checks of `atomg` in its lanes (R265). -/
def atomgCheck (f : Slk) (e : Env) : Except Res (State × List LaneAcc) :=
  resolveGlobal e (e.gbase f.s1) (fun l => e.offset l f.s2 + fDisp6 f * szBytes f) (szBytes f) (szBytes f) .rmw
    (pcieRefuses f) e.st (e.memLanes f)
/-- The `atomg` instructions of a core that are outstanding (R263). -/
def atomgsOut (s : State) (core : Nat) : Nat :=
  ((s.pend.filterMap fun p => match p.kind with
    | .atom r => if p.core = core then some r.inst else none | _ => none).eraseDups).length
/-- The locations of lanes as `sendSteps` takes them; an `atomg` to a cached host page leaves the RDC's line (R260). -/
def sendList (n : Nat) (host : Bool) (xs : List LaneAcc) : List (Nat × Nat × Nat) :=
  xs.map fun x => (x.loc, n, if host && isHost x.loc then 1 else x.ca)
/-- `atomg` once checked, committed and released: the steps of R260, then with a destination or an acquire the group is
held until every request is performed (log 2); else the requests are sent and the group goes on. -/
def atomgBody (f : Slk) (xs : List LaneAcc) (e : Env) : Res :=
  let n := szBytes f
  let s := e.st
  if 64 ≤ atomgsOut s e.core || mustWait s e.gid none 0 0 || xs.any fun x => listBlocks e s true x.loc n then
    .wait s .retry
  else if giveUpHeld s e.die (sendList n true xs) then
    .wait (xs.foldl (fun s x => biSend s x.loc n true) s) .retry
  else
    let reqs := (byAddress xs).map fun (loc, ca, ls) => (mkRequest f e loc ca ls, ls)
    if f.d = .none ∧ fOrd f ≠ 1 ∧ fOrd f ≠ 3 then
      .done (reqs.foldl (fun s (r, _) => post e.gid e.team.ctx e.core (.atom r) s)
        (sendSteps e.die e.core true (sendList n true xs) s))
    else if xs.any fun x => mustWait s e.gid none x.loc n then .wait s .retry
    else if xs.any fun x => lineHeld s x.loc n then .wait (xs.foldl (fun s x => biSend s x.loc n true) s) .retry
    else
      let (s, ws, bad) := performNow f e.die (sendSteps e.die e.core true (sendList n true xs) s) reqs
      match xs.find? fun x => bad.contains x.lane with
      | some x =>
        if f.d = .none then .done (writeLong e false ws s)
        else .trap s { cause := 0x0C, addr := x.va, lane := x.lane, acc := 2 }
      | none => .done (writeLong e false ws s)
/-- A check that precedes the commit of the open region: a trap leaves the commit to its entry, a translation fault
commits first (R265, R266). -/
def checkedFirst (e : Env) : Res → Res
  | .fault s va acc lane => .fault (commitRegion e.gid s) va acc lane
  | r => r
/-- `atomg`: check, commit, release, then the body (R266). -/
def atomgOrd (f : Slk) (e : Env) : Res :=
  match atomgCheck f e with
  | .error r => checkedFirst e r
  | .ok (s, xs) => committing (releasing (fOrd f) (fScope f) (acquiring (fOrd f) (fScope f) (atomgBody f xs))) (e.at s)
/-- `atomg`. -/
def execAtomg (f : Slk) (s : State) : Out := issue (.atomg f) f (atomgOrd f) s

/-! ### Lane forms (R274) -/

/-- The displacement of an element: the index is an n32 (R273). -/
def Env.element (e : Env) (f : Slk) (l : Nat) : Int := (e.offset l f.s2 + fDisp6 f) * szBytes f
/-- The lanes of a `gath`, read at the home: register writes, or the first poisoned address. -/
def gathLanes (f : Slk) (e : Env) : State → List LaneAcc → State × Except (Nat × Nat) (List RegWrite)
  | s, [] => (s, .ok [])
  | s, x :: xs =>
    let n := szBytes f
    let (s, bs, p) := sliceRead s e.die x.loc n x.ca
    if p then (s, .error (x.va, x.lane))
    else match gathLanes f e s xs with
      | (s, .error r) => (s, .error r)
      | (s, .ok ws) =>
        (s, .ok (dstWrites f.d (szRegs (fSz f)) x.lane (loadExt f (ofBytes (forwarded e.grp x.loc bs))) ++ ws))
/-- `gath`, lane form. -/
def gathBody (f : Slk) (e : Env) : Res :=
  let n := szBytes f
  match resolveGlobal e (e.gbase f.s1) (e.element f) n n .read allowAll e.st (e.memLanes f) with
  | .error r => r
  | .ok (s, xs) =>
    if xs.any fun x => mustWait s e.gid none x.loc n || listBlocks e s false x.loc n then .wait s .retry
    else if xs.any fun x => lineHeld s x.loc n then .wait (xs.foldl (fun s x => biSend s x.loc n false) s) .retry
    else match gathLanes f e s xs with
      | (s, .error (va, l)) => .trap s { cause := 0x0C, addr := va, lane := l }
      | (s, .ok ws) => .done (writeLong e e.grp.region.isSome ws s)
/-- An acquiring `gath` commits the region first, as `ldg.acq` does (R136, R274). -/
def gathOrd (f : Slk) (e : Env) : Res :=
  if fOrd f = 1 then committing (acquiring 1 (fScope f) (gathBody f)) e else gathBody f e
/-- `gath`. -/
def execGath (f : Slk) (s : State) : Out := issue (.gath f) f (gathOrd f) s
/-- `scat`, lane form: stores performed at the home, sent once the group's earlier stores have reached their cache level
and the RDC has given up the lines (R260), or buffered in the open region. -/
def scatBody (f : Slk) (e : Env) : Res :=
  let n := szBytes f
  match resolveGlobal e (e.gbase f.s1) (e.element f) n n .write allowAll e.st (e.memLanes f) with
  | .error r => r
  | .ok (s, xs) =>
    let sts : List Store := xs.map fun x => ⟨x.loc, x.va, BitVec.ofNat 2 x.ca, 0, true, false, e.storeBytes f x.lane⟩
    if xs.any fun x => listBlocks e s true x.loc n then .wait s .retry
    else if e.grp.region.isSome then putStores e sts xs s
    else if mustWait s e.gid none 0 0 then .wait s .retry
    else if giveUpHeld s e.die (sendList n false xs) then
      .wait (xs.foldl (fun s x => biSend s x.loc n true) s) .retry
    else putStores e sts xs (sendSteps e.die e.core true (sendList n false xs) s)
/-- A releasing `scat` commits the region first (R136, R274). -/
def scatOrd (f : Slk) (e : Env) : Res :=
  if fOrd f = 2 then committing (releasing 2 (fScope f) (scatBody f)) e else scatBody f e
/-- `scat`. -/
def execScat (f : Slk) (s : State) : Out := issue (.scat f) f (scatOrd f) s

/-! ### List forms (R275 to R278) -/

/-- A local address that must lie in scratchpad (R145, R275). -/
def scratchLook (s : State) (t : Team) (a size align : Nat) : Except (Nat × Nat) (Nat × Nat) :=
  if field a 30 2 ≠ 0 then .error (0x0E, 0) else localLook s t a size align
/-- The status of a list operation (R277). -/
def listStatus (done ecode : Nat) : Word := BitVec.ofNat 32 (done % 2 ^ 13 + ecode * 2 ^ 16)
/-- A list form at issue (R275). -/
def listBody (gather : Bool) (f : Slk) (e : Env) : Res :=
  let n := e.n32 0 (.op (match f.s3 with | .s k => .s (k + 1) | o => o))
  let data := e.n32 0 (.op f.s3)
  let list := e.n32 0 (.op f.s2)
  let size := szBytes f
  let b := e.gbase f.s1
  let disp := fDisp6 f
  let va := b.va (disp * size)
  let acc := if gather then 0 else 1
  let dst : RegDst := ⟨.s, opNum f.d, 0⟩
  if 4096 < n then .trap e.st { cause := 0x05, detail := 0x04, addr := n }
  else match scratchLook e.st e.team list (4 * n) 4 with
    | .error cd => localTrap e.st list 0 0 cd
    | .ok _ => match scratchLook e.st e.team data (n * size) size with
      | .error cd => localTrap e.st data 0 (1 - acc) cd
      | .ok _ =>
        if (match b with | .rec_ r => !r.valid | _ => false) then
          .trap e.st { cause := 0x05, detail := 0x02, acc := acc }
        else if va % size ≠ 0 then .trap e.st { cause := 0x07, addr := ofSigned 64 va, acc := acc }
        else if n = 0 then .done (writeLong e false [⟨dst, listStatus 0 0⟩] e.st)
        else if 16 ≤ e.st.pend.countP fun p => match p.kind with | .garnet _ => p.core == e.core | _ => false then
          .wait e.st .retry
        else if mustWait e.st e.gid none 0 0 then .wait e.st .retry
        else
          let bnd := match b with
            | .rec_ r => if r.ptr.toNat / 2 ^ 57 = 0 then none else some r.bound.toNat
            | _ => none
          let g : Garnet := ⟨gather, list, data, n, size, BitVec.ofNat 64 b.pointer, bnd, disp, opNum f.d, 0, none⟩
          let aims := (listTargets e.st ⟨e.st.nextId, e.gid, e.team.ctx, e.core, .garnet g⟩ g).map fun (l, ca) => (l, size, ca)
          if giveUpHeld e.st e.die aims then
            .wait (aims.foldl (fun s (l, n, _) => biSend s l n (!gather)) e.st) .retry
          else .done (post e.gid e.team.ctx e.core (.garnet g)
            (modGroup e.gid (Group.mark true dst) (sendSteps e.die e.core (!gather) aims e.st)))
/-- `gath.list`. -/
def execGathList (f : Slk) (s : State) : Out := issue (.gathList f) f (committing (listBody true f)) s
/-- `scat.list`. -/
def execScatList (f : Slk) (s : State) : Out := issue (.scatList f) f (committing (listBody false f)) s

/-- Replace what a posted operation does. -/
def setPend (id : Nat) (k : PendKind) (s : State) : State :=
  { s with pend := s.pend.map fun q => if q.id = id then { q with kind := k } else q }
/-- A list operation ends: its status is written and its register is full (R276, R277). -/
def garnetEnd (p : Pend) (g : Garnet) (ecode : Nat) (s : State) : State :=
  fillRegs p.owner [⟨⟨.s, g.dst, 0⟩, listStatus g.done ecode⟩] (unpost p.id s)
/-- One element is done. -/
def garnetNext (p : Pend) (g : Garnet) (s : State) : State :=
  let g' := { g with done := g.done + 1 }
  if g'.done = g.count then garnetEnd p g' 0 s else setPend p.id (.garnet g') s
/-- A poisoned word of the element's local bytes ends the operation, and is logged (R277). -/
def garnetPoison (p : Pend) (g : Garnet) (k n : Nat) (s : State) : State :=
  garnetEnd p g 4 (logEvent (poolFix s k n) 0x08 (coreDie p.core) k)
/-- An access of the operation to local bytes waits for the group's earlier ones to them (R135, R261): its posted remote
stores, and the elements of earlier gathers. -/
def garnetWaits (s : State) (p : Pend) (k n : Nat) : Bool :=
  localBefore s p.owner (some p.id) k n || gathersInto s p.owner (some p.id) k n
/-- A scatter's element at its home: the target's poison ends the operation, a register of management space is only
written (R276, R277, R439). -/
def scatElement (p : Pend) (g : Garnet) (dk loc ca : Nat) (s : State) : State :=
  let bs := poolBytes s dk g.size
  let s := l1DropRange p.core loc g.size (poolFix s dk g.size)
  if inMgmt loc then garnetNext p g (spaceWrite s loc bs)
  else
    let (s, _, bad) := sliceRead s (coreDie p.core) loc g.size ca
    if bad then garnetEnd p g 4 (logDiscard s loc) else garnetNext p g (spaceWrite s loc bs)
/-- The element at the operation's progress (R276, R277). -/
def garnetStep (id : Nat) (s : State) : State :=
  match s.pend? id with
  | some p => match p.kind, s.team? p.owner.team with
    | .garnet g, some t =>
      if g.susp.isSome then s
      else match localLook s t (g.list + 4 * g.done) 4 4, localLook s t (g.data + g.size * g.done) g.size g.size with
        | .ok (ik, _), .ok (dk, _) =>
          if garnetWaits s p ik 4 || garnetWaits s p dk g.size then s
          else if (poolBad s ik 4).isSome then garnetPoison p g ik 4 s
          else
            let x := poolNat s ik 4
            let s := poolFix s ik 4
            if x = 0xFFFFFFFF then garnetNext p g s
            else
              let d : Int := ((x : Int) + g.disp) * g.size
              let acc : Acc := if g.gather then .read else .write
              if (match g.bnd with | some b => decide (d < 0 ∨ (b : Int) < d + g.size) | none => false) then
                garnetEnd p g 3 s
              else match translatePtr s p.ctx g.base.toNat d g.size 1 acc with
                | (s, .fault) =>
                  let (s, ord) := postFault p.ctx ((g.base.toNat % 2 ^ 57 : Nat) + d).toNat acc.code (agentOf p.core 4) s
                  setPend id (.garnet { g with susp := some ord }) s
                | (s, .bad c _) => garnetEnd p g (if c = 0x06 then 2 else 3) s
                | (s, .hold) => s
                | (s, .ok loc ca) =>
                  if mustWait s p.owner (some id) loc g.size || listBefore s p.owner (some id) (!g.gather) loc g.size then s
                  else if lineHeld s loc g.size then biSend s loc g.size (!g.gather)
                  else if g.gather then
                    let (s, bs, bad) := sliceRead s (coreDie p.core) loc g.size ca
                    if bad then garnetEnd p g 4 (logDiscard s loc)
                    else if g.size < 8 && (poolBad s dk g.size).isSome then garnetPoison p g dk g.size s
                    else garnetNext p g (poolWrite s dk bs)
                  else if (poolBad s dk g.size).isSome then garnetPoison p g dk g.size s
                  else scatElement p g dk loc ca s
        | _, _ => garnetEnd p g 3 s
    | _, _ => s
  | none => s
/-- GARNET_ELEMENT. -/
def execGarnetElement (id : Nat) (s : State) : Out := .next (garnetStep id s)
/-- A suspended list operation goes on once its fault is answered; a declined one ends (R277). -/
def garnetResumeStep (id : Nat) (s : State) : State :=
  match s.pend? id with
  | some p => match p.kind with
    | .garnet g => match g.susp with
      | some ord => match faultAnswer s p.ctx ord with
        | some true => setPend id (.garnet { g with susp := none }) s
        | some false => garnetEnd p g 1 s
        | none => s
      | none => s
    | _ => s
  | none => s
/-- GARNET_SUSPEND_RESUME. -/
def execGarnetSuspendResume (id : Nat) (s : State) : Out := .next (garnetResumeStep id s)

end Sys2Proof.Machine
end

