-- ==== Sys2Proof/Machine/Barrier.lean ====
section
/-! DEFINITION. Barrier objects, circular buffers, monitors and the team barrier (R140 to R155). -/

namespace Sys2Proof.Machine

/-! ### Barrier objects (R140 to R142) -/

/-- The fields of a barrier object (R140). -/
structure Barrier where
  pend : Int
  err : Bool
  ovf : Bool
  perr : Bool
  expecta : Nat
  arr : Nat
  phase : Bool
  deriving DecidableEq, Repr
/-- Read an object. -/
def Barrier.ofNat (x : Nat) : Barrier :=
  ⟨toSigned 56 x, bitAt x 56, bitAt x 57, bitAt x 58, field x 64 16, field x 80 16, bitAt x 96⟩
/-- Write an object, reserved bits 0. -/
def Barrier.toNat (b : Barrier) : Nat :=
  ofSigned 56 b.pend + b2n b.err 56 + b2n b.ovf 57 + b2n b.perr 58 + b.expecta % 2 ^ 16 * 2 ^ 64 +
    b.arr % 2 ^ 16 * 2 ^ 80 + b2n b.phase 96
/-- `check` (R141): the object, and whether a phase completed. -/
def Barrier.check (b : Barrier) : Barrier × Bool :=
  if !b.ovf && b.arr == b.expecta && b.pend == 0 then
    ({ b with perr := b.err, err := false, arr := 0, phase := !b.phase }, true)
  else (b, false)
/-- `arrive` (R141). -/
def Barrier.arrive (b : Barrier) (c : Nat) : Barrier × Bool :=
  (if b.expecta < b.arr + c then { b with ovf := true } else { b with arr := b.arr + c }).check
/-- `arrive_bytes` (R141). -/
def Barrier.arriveBytes (b : Barrier) (n : Nat) (err : Bool) : Barrier :=
  let b := if b.pend - n < -(2 ^ 55 : Int) then { b with ovf := true } else { b with pend := b.pend - n }
  ({ b with err := b.err || err }).check.1
/-- The status word (R142). -/
def barStatus (done phase perr ovf : Bool) : Nat := b2n done 0 + b2n phase 1 + b2n perr 2 + b2n ovf 3

/-- The view after a good read of pool bytes: their single-bit errors are corrected and counted (R121). -/
def Env.fixed (e : Env) (k n : Nat) : Env := { e with st := poolFix e.st k n }
/-- The object an instruction names: the view after its words are read, its address and pool key; or how the instruction
ends (R145, R121). Before it acts on the `n` bytes it waits for the group's own earlier accesses to them (R135). -/
def objectAt (e : Env) (f : Slk) (acc : Nat) (n : Nat := 16) : Except Res (Env × Nat × Nat) :=
  let a := e.n32 0 (.op f.s1)
  match scratchLook e.st e.team a 16 16 with
  | .error cd => .error (localTrap e.st a 0 acc cd)
  | .ok (k, _) =>
    if localBlocked e k n || (acc != 0 && localHeld e k n) then .error (.wait e.st .retry)
    else match poolBad e.st k 16 with
      | some b => .error (.trap (poolRead e.st k 16).1 { cause := 0x0C, addr := a + (b - k), acc := acc })
      | none => .ok (e.fixed k 16, a, k)
/-- The object at a key. -/
def barrierAt (s : State) (k : Nat) : Barrier := .ofNat (poolNat s k 16)
/-- Write it in one step. -/
def putBarrier (k : Nat) (b : Barrier) (s : State) : State := poolWrite s k (toBytes 16 b.toNat)

/-- `binit`. -/
def binitBody (f : Slk) (e : Env) : Res :=
  match objectAt e f 1 with
  | .error r => r
  | .ok (e, _, k) => .done (putBarrier k ⟨0, false, false, false, e.n32 0 (.op f.s2) % 2 ^ 16, 0, false⟩ e.st)
/-- `binit`. -/
def execBinit (f : Slk) (s : State) : Out := issue (.binit f) f (committing (binitBody f)) s
/-- `bexp`. -/
def bexpBody (f : Slk) (e : Env) : Res :=
  match objectAt e f 2 with
  | .error r => r
  | .ok (e, _, k) =>
    let b := barrierAt e.st k
    let n := e.n32 0 (.op f.s2)
    if (2 ^ 55 - 1 : Int) - b.pend < n then .trap e.st { cause := 0x08, acc := 2 }
    else
      let b := { b with pend := b.pend + n }
      .done (putBarrier k (if fOpv f = 1 then b.arrive 1 else b.check).1 e.st)
/-- `bexp`. -/
def execBexp (f : Slk) (s : State) : Out :=
  issue (.bexp f) f (committing (releasing (fOrd f) (fScope f) (bexpBody f))) s
/-- `barv`. -/
def barvBody (f : Slk) (e : Env) : Res :=
  match objectAt e f 2 with
  | .error r => r
  | .ok (e, _, k) =>
    let b := barrierAt e.st k
    let (b', done) := b.arrive (e.uni f.s2 1)
    .done (writeLong e false (dstWrites f.d 1 0 (barStatus done b.phase b'.perr b'.ovf)) (putBarrier k b' e.st))
/-- `barv`. -/
def execBarv (f : Slk) (s : State) : Out :=
  issue (.barv f) f (committing (releasing (fOrd f) (fScope f) (barvBody f))) s
/-- One check of an object (R146): the status, or none while the phase goes on. -/
def barLook (b : Barrier) (p : Nat) : Option Nat :=
  if b.ovf then some (barStatus false b.phase b.perr true)
  else if b.phase == bitAt p 0 then none
  else some (barStatus true b.phase b.perr false)
/-- A status goes to D; one with DONE acquires where ORD asks for it. -/
def barLeave (f : Slk) (e : Env) (st : Nat) : Res :=
  let s := writeLong e false (dstWrites f.d 1 0 st) e.st
  .done (if bitAt st 0 && fOrd f == 1 then acquire e.core (fScope f) s else s)
/-- `bwait`: the check is repeated while the phase goes on. -/
def bwaitBody (f : Slk) (e : Env) : Res :=
  match objectAt e f 0 with
  | .error r => r
  | .ok (e, _, k) => match barLook (barrierAt e.st k) (e.n32 0 (.op f.s2)) with
    | some st => barLeave f e st
    | none => .wait e.st .retry
/-- `bwait`. -/
def execBwait (f : Slk) (s : State) : Out := issue (.bwait f) f (committing (bwaitBody f)) s
/-- `btry`. -/
def btryBody (f : Slk) (e : Env) : Res :=
  match objectAt e f 0 with
  | .error r => r
  | .ok (e, _, k) =>
    let b := barrierAt e.st k
    barLeave f e ((barLook b (e.n32 0 (.op f.s2))).getD (barStatus false b.phase b.perr false))
/-- `btry`. -/
def execBtry (f : Slk) (s : State) : Out := issue (.btry f) f (committing (btryBody f)) s
/-- `bst`. -/
def bstBody (f : Slk) (e : Env) : Res :=
  match objectAt e f 0 with
  | .error r => r
  | .ok (e, _, k) => .done (writeLong e false (dstWrites f.d 4 0 (poolNat e.st k 16)) e.st)
/-- `bst`. -/
def execBst (f : Slk) (s : State) : Out :=
  issue (.bst f) f (committing (acquiring (fOrd f) (fScope f) (bstBody f))) s
/-- A group that waits as `w` tells is ready to go on. -/
def wakeFrom (w : Wait) (gid : Gid) (s : State) : State :=
  modGroup gid (fun g => if g.cond = .wait w then { g with cond := .ready } else g) s
/-- A group that repeats its check is ready to (R146, R150). -/
def wakeRetry (gid : Gid) (s : State) : State := wakeFrom .retry gid s
/-- BARRIER_WAIT_WAKE. -/
def execBarrierWaitWake (g : Gid) (s : State) : Out := .next (wakeRetry g s)

/-! ### Circular buffers (R148 to R150) -/

/-- The fields of a buffer object and its maps (R148). -/
structure Cbuf where
  base : Nat
  slot : Nat
  count : Nat
  filled : Nat
  free : Nat
  claimed : Nat
  head : Nat
  tail : Nat
  ready : Nat
  errmap : Nat
  deriving DecidableEq, Repr
/-- Read an object and its maps. -/
def Cbuf.ofNat (x : Nat) : Cbuf :=
  ⟨field x 0 32, field x 32 16, field x 48 9, field x 64 9, field x 73 9, field x 82 9, field x 91 8, field x 99 8,
    field x 128 256, field x 384 256⟩
/-- Write an object and its maps, reserved bits 0. -/
def Cbuf.toNat (c : Cbuf) : Nat :=
  c.base % 2 ^ 32 + c.slot % 2 ^ 16 * 2 ^ 32 + c.count % 2 ^ 9 * 2 ^ 48 + c.filled % 2 ^ 9 * 2 ^ 64 +
    c.free % 2 ^ 9 * 2 ^ 73 + c.claimed % 2 ^ 9 * 2 ^ 82 + c.head % 2 ^ 8 * 2 ^ 91 + c.tail % 2 ^ 8 * 2 ^ 99 +
    c.ready % 2 ^ 256 * 2 ^ 128 + c.errmap % 2 ^ 256 * 2 ^ 384
/-- Set or clear a bit of a map. -/
def setBit (m k : Nat) (b : Bool) : Nat := (if bitAt m k then m - 2 ^ k else m) + b2n b k
/-- COUNT is one a buffer may have (R150). -/
def Cbuf.legal (c : Cbuf) : Bool := decide (1 ≤ c.count ∧ c.count ≤ 256)
/-- `claim` (R149): the slot, or none while none is free. -/
def Cbuf.claim (c : Cbuf) : Option (Cbuf × Nat) :=
  if c.free = 0 then none
  else some ({ c with tail := (c.tail + 1) % c.count, free := c.free - 1, claimed := (c.claimed + 1) % 512
                      ready := setBit c.ready c.tail false, errmap := setBit c.errmap c.tail false }, c.tail)
/-- The slots that become filled in claim order (R149). -/
def Cbuf.settle : Nat → Cbuf → Cbuf
  | 0, c => c
  | n + 1, c =>
    let k := (c.head + c.filled) % c.count
    if 0 < c.claimed && bitAt c.ready k then
      settle n { c with ready := setBit c.ready k false, filled := (c.filled + 1) % 512, claimed := c.claimed - 1 }
    else c
/-- `fill` (R149); none where it traps. -/
def Cbuf.fill (c : Cbuf) (k : Nat) (err : Bool) : Option Cbuf :=
  if (c.claimed : Int) ≤ ((k : Int) - c.head - c.filled) % c.count ∨ bitAt c.ready k = true then none
  else some (Cbuf.settle 512 { c with ready := setBit c.ready k true, errmap := setBit c.errmap k err })
/-- `take` (R149): the result, or none while none is filled. -/
def Cbuf.take (c : Cbuf) : Option (Cbuf × Nat) :=
  if c.filled = 0 then none
  else some ({ c with head := (c.head + 1) % c.count, filled := c.filled - 1 },
    c.head + b2n (bitAt c.errmap c.head) 8)
/-- `done` (R149); none where it traps. -/
def Cbuf.done (c : Cbuf) : Option Cbuf :=
  if c.free + c.filled + c.claimed = c.count then none else some { c with free := (c.free + 1) % 512 }
/-- The buffer at a key. -/
def cbufAt (s : State) (k : Nat) : Cbuf := .ofNat (poolNat s k 80)
/-- Write it in one step. -/
def putCbuf (k : Nat) (c : Cbuf) (s : State) : State := poolWrite s k (toBytes 80 c.toNat)

/-- `cbinit`. -/
def cbinitBody (f : Slk) (e : Env) : Res :=
  match objectAt e f 1 80 with
  | .error r => r
  | .ok (e, a, k) =>
    let sz := e.n32 0 (.op f.s2)
    let n := e.n32 0 (.op f.s3)
    let bad (d v : Nat) : Res := .trap e.st { cause := 0x05, detail := d, addr := v, acc := 1 }
    if sz = 0 ∨ sz % 16 ≠ 0 ∨ 65520 < sz then bad 0x04 sz
    else if n = 0 ∨ 256 < n then bad 0x04 n
    else if e.team.window false < a % 2 ^ 21 + 80 + sz * n then bad 0x03 a
    else .done (putCbuf k ⟨a + 80, sz, n, 0, n, 0, 0, 0, 0, 0⟩ e.st)
/-- `cbinit`. -/
def execCbinit (f : Slk) (s : State) : Out := issue (.cbinit f) f (committing (cbinitBody f)) s
/-- A buffer operation on a legal object (R150). That it reads both maps whole, and so traps UE on a poisoned word of
either, is the model's choice (R121, log 29). -/
def cbufBody (f : Slk) (body : Env → Nat → Cbuf → Res) (e : Env) : Res :=
  match objectAt e f 2 80 with
  | .error r => r
  | .ok (e, a, k) =>
    let c := cbufAt e.st k
    if let some b := poolBad e.st (k + 16) 64 then
      .trap (poolRead e.st (k + 16) 64).1 { cause := 0x0C, addr := a + (b - k), acc := 2 }
    else if c.legal then body (e.fixed (k + 16) 64) k c else .trap e.st { cause := 0x05, detail := 0x04, addr := c.count, acc := 2 }
/-- A slot taken or claimed, or the wait for one. -/
def cbgetBody (f : Slk) (get : Cbuf → Option (Cbuf × Nat)) : Env → Res :=
  cbufBody f fun e k c => match get c with
    | none => .wait e.st .retry
    | some (c, x) => .done (writeLong e false (dstWrites f.d 1 0 x) (putCbuf k c e.st))
/-- `cbget`. -/
def execCbget (f : Slk) (s : State) : Out :=
  issue (.cbget f) f (committing (acquiring (fOrd f) (fScope f) (cbgetBody f Cbuf.take))) s
/-- `cbget.claim`. -/
def execCbgetClaim (f : Slk) (s : State) : Out :=
  issue (.cbgetClaim f) f (committing (acquiring (fOrd f) (fScope f) (cbgetBody f Cbuf.claim))) s
/-- A slot given back or filled, or BAROVF. -/
def cbputBody (f : Slk) (put : Env → Cbuf → Option Cbuf) : Env → Res :=
  cbufBody f fun e k c => match put e c with
    | none => .trap e.st { cause := 0x08, acc := 2 }
    | some c => .done (putCbuf k c e.st)
/-- `cbput.done`. -/
def execCbputDone (f : Slk) (s : State) : Out :=
  issue (.cbputDone f) f (committing (releasing (fOrd f) (fScope f) (cbputBody f fun _ c => c.done))) s
/-- `cbput.fill`. -/
def execCbputFill (f : Slk) (s : State) : Out :=
  issue (.cbputFill f) f (committing (releasing (fOrd f) (fScope f)
    (cbputBody f fun e c => c.fill (e.n32 0 (.op f.s2) % 256) false))) s
/-- CBUF_WAIT_WAKE. -/
def execCbufWaitWake (g : Gid) (s : State) : Out := .next (wakeRetry g s)

/-! ### Monitors (R151 to R153) -/

/-- Set a monitor of the group. -/
def setMon (e : Env) (f : Slk) (m : Monitor) (s : State) : State :=
  modGroup e.gid (fun g => { g with mon := g.mon.set (e.n32 0 (.op f.s2)) m }) s
/-- `marm`. -/
def marmBody (f : Slk) (e : Env) : Res :=
  match resolveGlobal e (.ptr (e.wide 0 f.s1 2)) (fun _ => 0) 1 1 .read allowAll e.st [0] with
  | .error r => r
  | .ok (s, xs) => .done (xs.foldl (fun s x => setMon e f ⟨true, false, x.loc / 64, false⟩ s) s)
/-- `marm`. -/
def execMarm (f : Slk) (s : State) : Out := issue (.marm f) f (marmBody f) s
/-- `marm.loc`. -/
def marmLocBody (f : Slk) (e : Env) : Res :=
  let a := e.n32 0 (.op f.s1)
  match localLook e.st e.team a 1 1 with
  | .error cd => localTrap e.st a 0 0 cd
  | .ok (k, _) => .done (setMon e f ⟨true, true, k / 64, false⟩ e.st)
/-- `marm.loc`. -/
def execMarmLoc (f : Slk) (s : State) : Out := issue (.marmLoc f) f (marmLocBody f) s
/-- `marm.off`. -/
def execMarmOff (f : Slk) (s : State) : Out := issue (.marmOff f) f (fun e => .done (setMon e f .off e.st)) s

/-- `mwait`. -/
def mwaitBody (f : Slk) (e : Env) : Res :=
  let t := e.uni f.s1 0
  let sc := if fOrd f = 1 then fScope f else 0
  if e.grp.mon.all (fun m => !m.armed) || firedBits e.grp != 0 then
    .done (mwaitLeave e (opNum f.d) sc (firedBits e.grp) e.st)
  else .wait e.st (.mwait (if t = 0 then none else some (e.st.cycle.toNat + t)) (opNum f.d) sc)
/-- `mwait`. -/
def execMwait (f : Slk) (s : State) : Out := issue (.mwait f) f (committing (mwaitBody f)) s
/-- Armed monitors of a group fire spuriously, those whose bit of `m` is 1 (R152). -/
def fireSome (gid : Gid) (m : Nat) (s : State) : State :=
  let one (i : Nat) (x : Monitor) : Monitor := if x.armed && bitAt m i then { x with fired := true } else x
  if m = 0 then s else modGroup gid (fun g => { g with mon := g.mon.mapIdx one }) s
/-- MWAIT_WAKE: on a fire, or spuriously, with or without a bit of FIRED (R152, R153). -/
def execMwaitWake (g : Gid) (m : Nat) (s : State) : Out := .next (mwaitEnd g 0 (fireSome g m s))
/-- Its timeout has elapsed. -/
def mwaitExpired (s : State) (gid : Gid) : Bool :=
  match env? s gid with
  | none => false
  | some e => match e.grp.cond with
    | .wait (.mwait (some n) _ _) => decide (n ≤ s.cycle.toNat)
    | _ => false
/-- MWAIT_TIMEOUT. -/
def execMwaitTimeout (g : Gid) (s : State) : Out := .next (if mwaitExpired s g then mwaitEnd g 16 s else s)
/-! ### The team barrier (R154) -/

/-- Every group of a team has arrived or executed `exit`. -/
def Team.allAt (t : Team) (mask : BitVec 64) : Bool :=
  t.groups.all fun g => mask.getLsbD g.idx || g.cond == .ended
/-- The generation completes: the mask is cleared, and the groups that waited go on, after their acquires. -/
def tbarOpen (t : Team) (s : State) : State :=
  let scs := t.groups.filterMap fun g => match g.cond with | .wait (.tbar sc) => some sc | _ => none
  scs.foldl (fun s sc => acquire t.core sc s) (modTeam t.uid (fun t => { t with
    tbar := 0
    groups := t.groups.map fun g => match g.cond with
      | .wait (.tbar _) => { g with cond := .ready, pc := pcAdd g.pc 12 }
      | _ => g }) s)
/-- `tbar`. -/
def tbarBody (f : Slk) (e : Env) : Res :=
  let sc := if fOrd f = 3 then fScope f else 0
  let m := e.team.tbar ||| ((1 : BitVec 64) <<< e.grp.idx)
  let s := modTeam e.gid.team (fun t => { t with tbar := m }) e.st
  if e.team.allAt m then .done (acquire e.core sc (tbarOpen e.team s)) else .wait s (.tbar sc)
/-- `tbar`. -/
def execTbar (f : Slk) (s : State) : Out := issue (.tbar f) f (committing (releasing (fOrd f) (fScope f) (tbarBody f))) s
/-- TBAR_RELEASE: the last group that had not arrived has executed `exit`. -/
def tbarStep (uid : Nat) (s : State) : State :=
  match s.team? uid with
  | none => s
  | some t => if t.tbar ≠ 0 && t.allAt t.tbar then tbarOpen t s else s
/-- TBAR_RELEASE. -/
def execTbarRelease (team : Nat) (s : State) : Out := .next (tbarStep team s)

end Sys2Proof.Machine
end

