-- ==== Sys2Proof/Machine/EngineWords.lean ====
section
/-! DEFINITION. The words of the engines: Citrine's 32-bit words (R244 to R246) and Jasper's 64-bit rules
(R290 to R292): which fields each uses, and its limits. -/

namespace Sys2Proof.Machine

/-- OP and fields of a Citrine word. -/
def citParts : Instr → Option (Nat × Cit)
  | .citEnd c => some (0x00, c)
  | .citMov c => some (0x01, c)
  | .citLdk c => some (0x02, c)
  | .citLdr c => some (0x03, c)
  | .citLdv c => some (0x04, c)
  | .citAdd c => some (0x05, c)
  | .citMul c => some (0x06, c)
  | .citFma c => some (0x07, c)
  | .citMax c => some (0x08, c)
  | .citBias c => some (0x09, c)
  | .citScale c => some (0x0A, c)
  | .citClamp c => some (0x0B, c)
  | .citRelu c => some (0x0C, c)
  | .citGelu c => some (0x0D, c)
  | .citSilu c => some (0x0E, c)
  | .citTsc c => some (0x0F, c)
  | .citCvt c => some (0x10, c)
  | .citTopk c => some (0x11, c)
  | .citSpack c => some (0x12, c)
  | .citStore c => some (0x13, c)
  | _ => none

/-- The constructor of an OP (R246). -/
def citInstr (op : Nat) (c : Cit) : Option Instr :=
  match op with
  | 0x00 => some (.citEnd c)
  | 0x01 => some (.citMov c)
  | 0x02 => some (.citLdk c)
  | 0x03 => some (.citLdr c)
  | 0x04 => some (.citLdv c)
  | 0x05 => some (.citAdd c)
  | 0x06 => some (.citMul c)
  | 0x07 => some (.citFma c)
  | 0x08 => some (.citMax c)
  | 0x09 => some (.citBias c)
  | 0x0A => some (.citScale c)
  | 0x0B => some (.citClamp c)
  | 0x0C => some (.citRelu c)
  | 0x0D => some (.citGelu c)
  | 0x0E => some (.citSilu c)
  | 0x0F => some (.citTsc c)
  | 0x10 => some (.citCvt c)
  | 0x11 => some (.citTopk c)
  | 0x12 => some (.citSpack c)
  | 0x13 => some (.citStore c)
  | _ => none

/-- Every field the operation does not use is 0 (R245). -/
def citZero (op : Nat) (c : Cit) : Bool :=
  match op with
  | 0x00 => decide (c.xd = 0 ∧ c.xa = 0 ∧ c.xb = 0 ∧ c.xc = 0 ∧ c.ck = 0 ∧ c.t = 0 ∧ c.st = 0 ∧ c.sat = 0 ∧ c.g = 0)
  | 0x01 => decide (c.xb = 0 ∧ c.xc = 0 ∧ c.ck = 0 ∧ c.t = 0 ∧ c.st = 0 ∧ c.sat = 0 ∧ c.g = 0)
  | 0x02 => decide (c.xa = 0 ∧ c.xb = 0 ∧ c.xc = 0 ∧ c.t = 0 ∧ c.st = 0 ∧ c.sat = 0 ∧ c.g = 0)
  | 0x03 => decide (c.xa = 0 ∧ c.xb = 0 ∧ c.xc = 0 ∧ c.st = 0 ∧ c.sat = 0)
  | 0x04 => decide (c.xa = 0 ∧ c.xb = 0 ∧ c.xc = 0 ∧ c.st = 0 ∧ c.sat = 0)
  | 0x05 => decide (c.xc = 0 ∧ c.ck = 0 ∧ c.t = 0 ∧ c.st = 0 ∧ c.sat = 0 ∧ c.g = 0)
  | 0x06 => decide (c.xc = 0 ∧ c.ck = 0 ∧ c.t = 0 ∧ c.st = 0 ∧ c.sat = 0 ∧ c.g = 0)
  | 0x07 => decide (c.ck = 0 ∧ c.t = 0 ∧ c.st = 0 ∧ c.sat = 0 ∧ c.g = 0)
  | 0x08 => decide (c.xc = 0 ∧ c.ck = 0 ∧ c.t = 0 ∧ c.st = 0 ∧ c.sat = 0 ∧ c.g = 0)
  | 0x09 => decide (c.xb = 0 ∧ c.xc = 0 ∧ c.st = 0 ∧ c.sat = 0)
  | 0x0A => decide (c.xb = 0 ∧ c.xc = 0 ∧ c.sat = 0)
  | 0x0B => decide (c.xb = 0 ∧ c.xc = 0 ∧ c.t = 0 ∧ c.st = 0 ∧ c.sat = 0 ∧ c.g = 0)
  | 0x0C => decide (c.xb = 0 ∧ c.xc = 0 ∧ c.ck = 0 ∧ c.t = 0 ∧ c.st = 0 ∧ c.sat = 0 ∧ c.g = 0)
  | 0x0D => decide (c.xb = 0 ∧ c.xc = 0 ∧ c.ck = 0 ∧ c.t = 0 ∧ c.st = 0 ∧ c.sat = 0 ∧ c.g = 0)
  | 0x0E => decide (c.xb = 0 ∧ c.xc = 0 ∧ c.ck = 0 ∧ c.t = 0 ∧ c.st = 0 ∧ c.sat = 0 ∧ c.g = 0)
  | 0x0F => decide (c.xb = 0 ∧ c.xc = 0 ∧ c.ck = 0 ∧ c.t = 0 ∧ c.st = 0 ∧ c.sat = 0 ∧ c.g = 0)
  | 0x10 => decide (c.xb = 0 ∧ c.xc = 0 ∧ c.ck = 0 ∧ c.g = 0)
  | 0x11 => decide (c.xd = 0 ∧ c.xb = 0 ∧ c.xc = 0 ∧ c.ck = 0 ∧ c.sat = 0 ∧ c.g = 0)
  | 0x12 => decide (c.xd = 0 ∧ c.xb = 0 ∧ c.xc = 0 ∧ c.ck = 0 ∧ c.st = 0 ∧ c.sat = 0 ∧ c.g = 0)
  | 0x13 => decide (c.xd = 0 ∧ c.xb = 0 ∧ c.xc = 0 ∧ c.ck = 0 ∧ c.st = 0 ∧ c.sat = 0 ∧ c.g = 0)
  | _ => false

/-- The limits of a row or column read: T is f32, f16 or bf16, and CK is even under G (R246). -/
def rowLoad (c : Cit) : Bool := [3, 8, 9].contains c.t.toNat && (c.g == 0 || c.ck.toNat % 2 == 0)
/-- The types of `store` and `spack` (R246). -/
def storeTy (c : Cit) : Bool := decide (c.t.toNat < 4 ∨ 8 ≤ c.t.toNat)
/-- Each operation's limits (R246). -/
def citLimit (op : Nat) (c : Cit) : Bool :=
  match op with
  | 0x03 => rowLoad c
  | 0x04 => rowLoad c
  | 0x09 => rowLoad c
  | 0x0A => (if c.st = 0 then decide (c.t = 0 ∧ c.g = 0) else decide (c.st.toNat ≤ 2) && rowLoad c)
  | 0x0B => decide (c.ck.toNat ≤ 14)
  | 0x10 => [12, 13, 10, 11, 0, 1, 3, 8, 9, 14, 15].contains c.t.toNat && [0, 1, 3].contains c.st.toNat
  | 0x11 => decide (1 ≤ c.t.toNat ∧ c.t.toNat ≤ 8 ∧ c.st.toNat < 2)
  | 0x12 => storeTy c
  | 0x13 => storeTy c
  | _ => true

/-- OP and fields of a rule. -/
def ruleParts : Instr → Option (Nat × Rule)
  | .jLdcmp r => some (0, r)
  | .jLdcmpi r => some (1, r)
  | .jFollow r => some (2, r)
  | .jSelect r => some (3, r)
  | .jReturn r => some (4, r)
  | .jMiss r => some (5, r)
  | _ => none

/-- The constructor of a rule OP (R290). -/
def ruleInstr (op : Nat) (r : Rule) : Option Instr :=
  match op with
  | 0 => some (.jLdcmp r)
  | 1 => some (.jLdcmpi r)
  | 2 => some (.jFollow r)
  | 3 => some (.jSelect r)
  | 4 => some (.jReturn r)
  | 5 => some (.jMiss r)
  | _ => none

/-- The limits of one rule in a program of `n` rules (R291, R292). -/
def ruleOk (n op : Nat) (r : Rule) : Bool :=
  let cmp := decide (r.cmp.toNat ≤ 5)
  let nt := decide (r.nt.toNat < n)
  let nf := decide (r.nf.toNat < n)
  match op with
  | 0 => cmp && nt && nf && decide (r.off2 = 0 ∧ r.imm = 0)
  | 1 => cmp && nt && nf && decide (r.off2 = 0)
  | 2 => nt && decide (r.w = 3 ∧ r.cmp = 0 ∧ r.sgn = 0 ∧ r.nf = 0 ∧ r.imm = 0)
  | 3 => nt && decide (r.cmp = 0 ∧ r.sgn = 0 ∧ r.nf = 0 ∧ r.off2 = 0 ∧ r.imm.toNat < 2 ^ 12 ∧ field r.imm.toNat 6 6 ≤ 32)
  | 4 => decide (r.w = 0 ∧ r.cmp = 0 ∧ r.sgn = 0 ∧ r.nt = 0 ∧ r.nf = 0 ∧ r.off2 = 0 ∧ r.imm.toNat ≤ 64)
  | 5 => decide (r = ⟨0, 0, 0, 0, 0, 0, 0, 0⟩)
  | _ => false

end Sys2Proof.Machine
end

