-- ==== Sys2Proof/WellFormed.lean ====
section
/-! DEFINITION. Well-formed instructions: words that trap neither ILLOP nor ILLENC (R48), Citrine words that meet
R245 and rules that meet R292. Events have no encoding. -/

namespace Sys2Proof

open Machine

/-- The opcode keeps a fifth operand in DISP10's place (R315). -/
def berylOp (opc : Nat) : Bool := decide (0x148 ≤ opc ∧ opc ≤ 0x14E)

/-- Fields that a word's format does not have read as none, and `ext` holds no more bits than the format gives
it (R27). -/
def slkCanon (opc : Nat) (f : Slk) : Bool :=
  match f.fmt.toNat with
  | 1 => decide (f.s3 = .none ∧ f.s4 = .none ∧ f.ext.toNat < 2 ^ 20)
  | 2 => decide (f.s2 = .none ∧ f.s3 = .none ∧ f.s4 = .none ∧ f.fe &&& 3 = 0)
  | 3 => if berylOp opc then decide (f.ext = 0) else decide (f.s4 = .none ∧ f.ext.toNat < 2 ^ 10)
  | 6 => decide (f.s2 = .none ∧ f.s3 = .none ∧ f.s4 = .none ∧ f.ext.toNat < 2 ^ 30)
  | _ => decide (f.ext = 0)

/-- The instruction is well formed, for a thread that holds all 256 lane registers. -/
def WellFormed (i : Instr) : Bool :=
  match i with
  | .rep p => pfxFate p = none
  | i =>
    match slkParts i, citParts i, ruleParts i with
    | some (opc, f), _, _ => slkCanon opc f && decide (opInstr opc f = some i) && decide (fate 256 i = none)
    | _, some (op, c), _ => citZero op c && citLimit op c
    | _, _, some (op, r) => ruleOk 32 op r
    | _, _, _ => true

end Sys2Proof
end

