-- ==== Sys2Proof/Decode.lean ====
section
/-! DEFINITION. The decoder, total on any word and rejecting by name (R19 to R33, R48), and the encoder written
from the same field tables. -/

namespace Sys2Proof

open Machine

/-! ### Operand fields (R22) -/

/-- Decode a 10-bit operand field. -/
def opndOf (x : BitVec 10) : Opnd :=
  if x.extractLsb' 8 2 = 0 then .v (x.extractLsb' 0 8)
  else if x.extractLsb' 8 2 = 1 then
    if x.extractLsb' 7 1 = 0 then .s (x.extractLsb' 0 7)
    else if x.extractLsb' 4 3 = 0 then .b (x.extractLsb' 0 4)
    else if x.extractLsb' 4 3 = 1 then .lf (x.extractLsb' 0 4)
    else if x.extractLsb' 4 3 = 2 then .q (x.extractLsb' 0 4)
    else if x.extractLsb' 4 3 = 3 then .p (x.extractLsb' 0 4)
    else if x.extractLsb' 4 3 = 4 then .a (x.extractLsb' 0 4)
    else if x.extractLsb' 4 3 = 5 then .o (x.extractLsb' 0 4)
    else .rsvLo (x.extractLsb' 0 5)
  else if x.extractLsb' 8 2 = 2 then .imm (x.extractLsb' 0 8)
  else if x = 0x3FF then .none
  else if x.extractLsb' 7 1 = 0 then .sr (x.extractLsb' 0 7)
  else .rsvHi (x.extractLsb' 0 7)

/-- The 10 bits of an operand field. -/
def opndBits : Opnd → BitVec 10
  | .v n => 0#2 ++ n
  | .s n => 2#3 ++ n
  | .b n => 0x18#6 ++ n
  | .lf n => 0x19#6 ++ n
  | .q n => 0x1A#6 ++ n
  | .p n => 0x1B#6 ++ n
  | .a n => 0x1C#6 ++ n
  | .o n => 0x1D#6 ++ n
  | .rsvLo n => 0xF#5 ++ n
  | .imm n => 2#2 ++ n
  | .sr n => 6#3 ++ n
  | .rsvHi n => 7#3 ++ n
  | .none => 0x3FF

/-! ### The SLK word (R21, R27) -/

/-- The middle of a word, [74:42], as FE, S2, S3, S4 and `ext`. -/
structure Mid where
  fe : BitVec 3
  s2 : Opnd
  s3 : Opnd
  s4 : Opnd
  ext : BitVec 32
  deriving DecidableEq, Repr

/-- Split [74:42] by format; the Beryl words have S4 in the MEM format too (R315). -/
def midOf (beryl : Bool) (fmt : BitVec 3) (m : BitVec 33) : Mid :=
  let fe := m.extractLsb' 30 3
  let s2 := opndOf (m.extractLsb' 0 10)
  let s3 := opndOf (m.extractLsb' 10 10)
  let s4 := opndOf (m.extractLsb' 20 10)
  match fmt.toNat with
  | 1 => ⟨fe, s2, .none, .none, (m.extractLsb' 10 20).setWidth 32⟩
  | 2 => ⟨m.extractLsb' 32 1 ++ 0#2, .none, .none, .none, m.extractLsb' 0 32⟩
  | 3 => if beryl then ⟨fe, s2, s3, s4, 0⟩ else ⟨fe, s2, s3, .none, (m.extractLsb' 20 10).setWidth 32⟩
  | 6 => ⟨fe, .none, .none, .none, (m.extractLsb' 0 30).setWidth 32⟩
  | _ => ⟨fe, s2, s3, s4, 0⟩

/-- The bits [74:42] of a word. -/
def midBits (beryl : Bool) (f : Slk) : BitVec 33 :=
  match f.fmt.toNat with
  | 1 => f.fe ++ (f.ext.extractLsb' 0 20 ++ opndBits f.s2)
  | 2 => f.fe.extractLsb' 2 1 ++ f.ext
  | 3 =>
    if beryl then f.fe ++ (opndBits f.s4 ++ (opndBits f.s3 ++ opndBits f.s2))
    else f.fe ++ (f.ext.extractLsb' 0 10 ++ (opndBits f.s3 ++ opndBits f.s2))
  | 6 => f.fe ++ f.ext.extractLsb' 0 30
  | _ => f.fe ++ (opndBits f.s4 ++ (opndBits f.s3 ++ opndBits f.s2))

/-- The fields of a word. -/
def splitSlk (w : BitVec 96) : Slk :=
  let fmt := w.extractLsb' 9 3
  let m := midOf (berylOp (w.extractLsb' 0 9).toNat) fmt (w.extractLsb' 42 33)
  { fmt := fmt
    ga := w.extractLsb' 12 5
    gb := w.extractLsb' 17 5
    d := opndOf (w.extractLsb' 22 10)
    s1 := opndOf (w.extractLsb' 32 10)
    s2 := m.s2
    s3 := m.s3
    s4 := m.s4
    ext := m.ext
    fe := m.fe
    mod := w.extractLsb' 75 9
    ch := w.extractLsb' 84 3
    stall := w.extractLsb' 87 4
    yld := w.extractLsb' 91 1
    reuse := w.extractLsb' 92 4 }

/-- The word of an opcode and its fields. -/
def joinSlk (opc : BitVec 9) (f : Slk) : BitVec 96 :=
  f.reuse ++ (f.yld ++ (f.stall ++ (f.ch ++ (f.mod ++ (midBits (berylOp opc.toNat) f ++
    (opndBits f.s1 ++ (opndBits f.d ++ (f.gb ++ (f.ga ++ (f.fmt ++ opc))))))))))

/-- The fields of the repeat prefix (R50). -/
def splitPfx (w : BitVec 96) : Pfx :=
  { fmt := w.extractLsb' 9 3
    ga := w.extractLsb' 12 5
    gb := w.extractLsb' 17 5
    count := w.extractLsb' 22 6
    rsvLo := w.extractLsb' 28 4
    dd := w.extractLsb' 32 3
    ds1 := w.extractLsb' 35 3
    ds2 := w.extractLsb' 38 3
    ds3 := w.extractLsb' 41 3
    rsvHi := w.extractLsb' 44 52 }

/-- The word of a prefix. -/
def joinPfx (p : Pfx) : BitVec 96 :=
  p.rsvHi ++ (p.ds3 ++ (p.ds2 ++ (p.ds1 ++ (p.dd ++ (p.rsvLo ++ (p.count ++ (p.gb ++ (p.ga ++
    (p.fmt ++ 0x1FE#9)))))))))

/-- What the opcode map makes of a word before rows 3 and 4 of R48 are checked; none for row 2. -/
def candidate (w : BitVec 96) : Option Instr :=
  if w.extractLsb' 0 9 = 0x1FE then some (.rep (splitPfx w))
  else opInstr (w.extractLsb' 0 9).toNat (splitSlk w)

/-- Decode a word for a thread that holds all 256 lane registers; the trap is named where it has one (R48). -/
def decode (w : BitVec 96) : Except Fate Instr :=
  match candidate w with
  | none => .error .illop
  | some i => match fate 256 i with
    | some e => .error e
    | none => .ok i

/-! ### The engines' words (R244, R290) -/

/-- The fields of a Citrine word but OP. -/
def splitCit (w : BitVec 32) : Cit :=
  ⟨w.extractLsb' 5 3, w.extractLsb' 8 3, w.extractLsb' 11 3, w.extractLsb' 14 3, w.extractLsb' 17 4,
    w.extractLsb' 21 4, w.extractLsb' 25 4, w.extractLsb' 29 1, w.extractLsb' 30 1⟩
/-- A Citrine word. -/
def joinCit (op : BitVec 5) (c : Cit) : BitVec 32 :=
  0#1 ++ (c.g ++ (c.sat ++ (c.st ++ (c.t ++ (c.ck ++ (c.xc ++ (c.xb ++ (c.xa ++ (c.xd ++ op)))))))))
/-- Decode a Citrine word: OP assigned, reserved and unused fields 0 (R245). -/
def decodeCit (w : BitVec 32) : Option Instr :=
  if w.extractLsb' 31 1 = 0 ∧ citZero (w.extractLsb' 0 5).toNat (splitCit w) = true then
    citInstr (w.extractLsb' 0 5).toNat (splitCit w)
  else none
/-- The fields of a rule but OP. -/
def splitRule (w : BitVec 64) : Rule :=
  ⟨w.extractLsb' 4 12, w.extractLsb' 16 2, w.extractLsb' 18 3, w.extractLsb' 21 1, w.extractLsb' 22 5,
    w.extractLsb' 27 5, w.extractLsb' 32 12, w.extractLsb' 44 20⟩
/-- A rule's word. -/
def joinRule (op : BitVec 4) (r : Rule) : BitVec 64 :=
  r.imm ++ (r.off2 ++ (r.nf ++ (r.nt ++ (r.sgn ++ (r.cmp ++ (r.w ++ (r.off ++ op)))))))
/-- Decode a rule: OP assigned (R290). -/
def decodeRule (w : BitVec 64) : Option Instr := ruleInstr (w.extractLsb' 0 4).toNat (splitRule w)

/-! ### The encoder -/

/-- The bits of an instruction, numbered from bit 0 of its lowest word, and their number; none for an event. -/
def encode (i : Instr) : Option (Nat × Nat) :=
  match i with
  | .rep p => some (96, (joinPfx p).toNat)
  | i =>
    match slkParts i, citParts i, ruleParts i with
    | some (opc, f), _, _ => some (96, (joinSlk (BitVec.ofNat 9 opc) f).toNat)
    | _, some (op, c), _ => some (32, (joinCit (BitVec.ofNat 5 op) c).toNat)
    | _, _, some (op, r) => some (64, (joinRule (BitVec.ofNat 4 op) r).toNat)
    | _, _, _ => none

/-- Decode an instruction of the given length: 32 bits for Citrine, 64 for Jasper, else an SLK word. -/
def decodeBits (nbits w : Nat) : Option Instr :=
  if nbits = 32 then decodeCit (BitVec.ofNat 32 w)
  else if nbits = 64 then decodeRule (BitVec.ofNat 64 w)
  else match decode (BitVec.ofNat 96 w) with
    | .ok i => some i
    | .error _ => none

/-- The instruction the decoder reads from an opcode-table word: the word's bits are numbered as the table
numbers them, and words lie little-endian from the lowest address (R19). -/
def decodeTableWord (nbits w : Nat) : Option Instr := decodeBits nbits w

end Sys2Proof
end

