-- ==== Sys2Proof/Machine/Fetch.lean ====
section
/-! DEFINITION. Instruction fetch: its checks, the quad's instruction cache and words fetched ahead (R20, R366, R389,
R393, R48 row 1). -/

namespace Sys2Proof.Machine

/-- What fetching an instruction gives. -/
inductive Fetched where
  | word (w : BitVec 96)
  | trap (t : Trap)
  | fault (va : Nat)
  | hold
  deriving DecidableEq, Repr

/-- An instruction-cache line, filled from the RDC or the home where it is absent, which slips the core's schedule
(R366), with its poison by sector; a line with a poisoned sector is not kept (R87, R366). -/
def icLine (s : State) (core line ca : Nat) : State × LineData × BitVec 2 :=
  let k := key2 (quadOf core) line
  match Assoc.get? s.icache k with
  | some d => (s, d, 0)
  | none =>
    let (s, d, p) := lowerLine s (coreDie core) line (ca == 0) 0
    ({ s with icache := if p = 0 then Assoc.put s.icache k d else s.icache
              slips := Assoc.put s.slips core (Assoc.rd 0 s.slips core + 1) }, d, p)
/-- An uncorrectable error in a fetched line of which nothing in a poisoned sector executes: dropped and counted as a latent
error, with the line's location as data and the core's die (R87, R334, R447, log 29). -/
def countLatent (core line : Nat) (p : BitVec 2) (s : State) : State :=
  if p = 0 then s else logEvent s 0x09 (coreDie core) (128 * line)
/-- A fetch of the line would have to go below the instruction cache, and its home holds it (R281, R443). -/
def icHeld (s : State) (core loc : Nat) : Bool :=
  lineHeld s loc 1 && (Assoc.get? s.icache (key2 (quadOf core) (loc / 128))).isNone
/-- The first byte of [loc, loc + n), in one line, that lies in a poisoned sector. That an instruction traps UE for the
sectors that hold its own bytes, and an error in the other sector of the line is a latent one, is the model's choice: R35
says 'in the executed line', R87 speaks of sectors (log 29). -/
def poisonAt (p : BitVec 2) (loc n : Nat) : Option Nat :=
  ((segs 64 loc n).find? fun (a, _) => p.getLsbD (a % 128 / 64)).map (·.1)

/-- The first byte of [va, va + n) whose fetch is refused, for TRAPADDR (R20). -/
def firstBad (s : State) (c rid va : Nat) : Nat → Nat
  | 0 => va
  | n + 1 => match (translate s c rid va 1 .fetch).2 with
    | .ok _ _ => firstBad s c rid (va + 1) n
    | _ => va

/-- Fetch the pieces of an instruction that lie in separate lines, in address order. -/
def fetchSegs (e : Env) (rid : Nat) : List (Nat × Nat) → State → List Byte → State × Except Fetched (List Byte)
  | [], s, bs => (s, .ok bs)
  | (va, n) :: l, s, bs =>
    match translate s e.team.ctx rid va n .fetch with
    | (s, .fault) => (s, .error (.fault va))
    | (s, .bad k d) => (s, .error (.trap { cause := k, detail := d, addr := firstBad s e.team.ctx rid va n, acc := 3 }))
    | (s, .hold) => (s, .error .hold)
    | (s, .ok loc ca) =>
      if icHeld s e.team.core loc then (biSend s loc n false, .error .hold)
      else
        let (s, d, p) := icLine s e.team.core (loc / 128) ca
        match poisonAt p loc n with
        | some a => (s, .error (.trap { cause := 0x0C, addr := va + (a - loc), acc := 3 }))
        | none => fetchSegs e rid l (countLatent e.team.core (loc / 128) p s) (bs ++ lineBytes d (loc % 128) n)

/-- Fetch the instruction at a program counter; a word fetched ahead is taken first (R334, R389). -/
def fetchAt (e : Env) (pc : DWord) (s : State) : State × Fetched :=
  let va := pc.toNat % 2 ^ 57
  if va % 4 ≠ 0 then (s, .trap { cause := 0x07, addr := va, acc := 3 })
  else match Assoc.get? e.grp.ahead pc.toNat with
    | some w => (modGroup e.gid (fun g => { g with ahead := Assoc.del g.ahead pc.toNat }) s, .word w)
    | none =>
      if 2 ^ 57 < va + 12 then (s, .trap { cause := 0x05, detail := 0x02, addr := va, acc := 3 })
      else match fetchSegs e (pc.toNat / 2 ^ 57) (segs 128 va 12) s [] with
        | (s, .ok bs) => (s, .word (BitVec.ofNat 96 (ofBytes bs)))
        | (s, .error r) => (s, r)

/-- The bytes of an instruction that lie in one line, read ahead of execution: no trap, no slip; none where they cannot be
had, and an uncorrectable error is dropped and counted (R334, R369). -/
def fetchQuiet (e : Env) (rid va n : Nat) (s : State) : State × Option (List Byte) :=
  match translate s e.team.ctx rid va n .fetch with
  | (s, .ok loc ca) =>
    if icHeld s e.team.core loc then (s, none)
    else
      let (s', d, p) := icLine s e.team.core (loc / 128) ca
      let s' := { s' with slips := s.slips }
      if p = 0 then (s', some (lineBytes d (loc % 128) n)) else (countLatent e.team.core (loc / 128) p s', none)
  | (s, _) => (s, none)
/-- The page has been accessed: its leaf entry has A set, so that a fetch ahead leaves nothing in memory (R334, R398). -/
def pageAccessed (s : State) (c va : Nat) : Bool :=
  match (findLeaf s c va false).2 with
  | .leaf _ e _ => bitAt e 4
  | _ => false
/-- The group fetches the word at `pc` ahead, from pages that have been accessed (R334, R389). -/
def fetchAhead (e : Env) (pc : DWord) : State :=
  let va := pc.toNat % 2 ^ 57
  if va % 4 ≠ 0 ∨ 2 ^ 57 < va + 12 ∨ !pageAccessed e.st e.team.ctx va ∨ !pageAccessed e.st e.team.ctx (va + 11) then e.st
  else
    let (s, bs) := (segs 128 va 12).foldl (init := (e.st, some [])) fun (s, bs) (a, n) =>
      match bs with
      | none => (s, none)
      | some bs => match fetchQuiet e (pc.toNat / 2 ^ 57) a n s with
        | (s, some b) => (s, some (bs ++ b))
        | (s, none) => (s, none)
    match bs with
    | none => s
    | some bs => modGroup e.gid (fun g => { g with ahead := Assoc.put g.ahead pc.toNat (BitVec.ofNat 96 (ofBytes bs)) }) s
/-- The attempt to fetch as a result: the word, or how the group's step ends. -/
def fetchRes (e : Env) (pc : DWord) : Except Res (State × BitVec 96) :=
  match fetchAt e pc e.st with
  | (s, .word w) => .ok (s, w)
  | (s, .trap t) => .error (.trap s t)
  | (s, .fault va) => .error (.fault s va 3 0)
  | (s, .hold) => .error (.wait s .fetch)

end Sys2Proof.Machine
end

