-- ==== Sys2Proof/Machine/Turns.lean ====
section
/-! DEFINITION. Who moves next: the groups that are ready and their order (R332), the words the engines hold, and the
events that stand open when no group is ready (log 1). -/

namespace Sys2Proof.Machine

/-! ### Groups (R332) -/

/-- A context whose teams issue: RUNNING or DRAINING, and RESTORING, whose clusters run once they are rewritten (R417, R423);
early service has to have begun (R438). -/
def issuing (s : State) (c : Nat) : Bool :=
  s.boot.started && match (s.ctx c).st with
    | .running | .draining | .restoring => true
    | _ => false
/-- The groups of a team with a condition that `p` accepts, with priority and age. -/
def teamGroups (s : State) (p : Cond → Bool) (t : Team) : List (Gid × Nat × Nat) :=
  if t.st = .running && issuing s t.ctx && (s.phase = .run || coreDie t.core == 0) then
    t.groups.filterMap fun g => if p g.cond then some (⟨t.uid, g.idx⟩, t.prio.toNat, g.age) else none
  else []
/-- One group comes before another: a higher class, then the older, then the lower GROUP. -/
def before (a b : Gid × Nat × Nat) : Bool :=
  decide (b.2.1 < a.2.1) || (a.2.1 == b.2.1 &&
    (decide (a.2.2 < b.2.2) || (a.2.2 == b.2.2 && decide (a.1.group < b.1.group))))
/-- The first of a list in that order. -/
def firstOf : List (Gid × Nat × Nat) → Option (Gid × Nat × Nat)
  | [] => none
  | x :: xs => match firstOf xs with
    | none => some x
    | some y => if before y x then some y else some x
/-- The core of a team; none stands for no team. -/
def coreOf? (s : State) (uid : Nat) : Option Nat := (s.team? uid).map (·.core)
/-- The ready groups of a core. -/
def readyOn (s : State) (core : Nat) : List (Gid × Nat × Nat) :=
  (s.teams.filter fun t => t.core == core).flatMap (teamGroups s fun c => c == .ready)
/-- The cores with a ready group, lowest first. -/
def readyCores (s : State) : List Nat :=
  ((s.teams.filter fun t => !(teamGroups s (fun c => c == .ready) t).isEmpty).map (·.core)).mergeSort.eraseDups
/-- Cores take turns: the first of a list after core `c`, or the first of all. -/
def coreAfter (c : Nat) (l : List Nat) : Option Nat :=
  match l.find? fun x => decide (c < x) with
  | some x => some x
  | none => l.head?
/-- A ready group of those in `l` has been passed over so often that it issues within 4,096 issues of its core only if it
comes before the groups that are not: as many issues are left as there are ready groups, which may all be overdue (R332). -/
def isOverdue (s : State) (l : List (Gid × Nat × Nat)) (x : Gid × Nat × Nat) : Bool :=
  decide (4096 ≤ Assoc.rd 0 s.skips (key2 x.1.team x.1.group) + l.length)
/-- The first of the overdue groups of a core, which comes before the others. -/
def overdue (s : State) (l : List (Gid × Nat × Nat)) : Option (Gid × Nat × Nat) := firstOf (l.filter (isOverdue s l))
/-- One ready group of a core comes before another: an overdue one before the others, else by class and age (R332). -/
def precedes (s : State) (l : List (Gid × Nat × Nat)) (a b : Gid × Nat × Nat) : Bool :=
  if isOverdue s l a = isOverdue s l b then before a b else isOverdue s l a
/-- The ready group that issues next: the core after that of the group that issued last, and on it the group that R332
puts first. -/
def nextGroup (s : State) : Option Gid :=
  match coreAfter ((coreOf? s s.cur.team).getD 0) (readyCores s) with
  | none => none
  | some c => ((overdue s (readyOn s c)).or (firstOf (readyOn s c))).map (·.1)
/-- A waiting group repeats its fetch or its check. -/
def repeats (c : Cond) : Bool := c == .wait .retry || c == .wait .fetch
/-- A group may issue: it is ready, or it repeats its check. -/
def mayIssue (c : Cond) : Bool := c == .ready || repeats c
/-- A named group may take a turn: of the other ready groups of its core at most one comes before it, since a core has two
sequencers (R15, R332), and that one has been passed over for fewer issues than its last instruction may take clk: 4 beats
and a STALL of 15 (R42, R177). -/
def turnOk (s : State) (g : Gid) : Bool :=
  match env? s g with
  | none => false
  | some e =>
    let l := readyOn s e.core
    !(teamGroups s mayIssue e.team).isEmpty && mayIssue e.grp.cond && e.team.st == .running &&
      (let first := l.filter fun x => x.1 != g && precedes s l x (g, e.team.prio.toNat, e.grp.age)
       decide (first.length < 2) && first.all fun x => decide (Assoc.rd 0 s.skips (key2 x.1.team x.1.group) < 19))
/-- Groups that repeat their check are ready again (R39). -/
def clearRetry (s : State) : State :=
  if s.teams.any fun t => t.groups.any fun g => repeats g.cond then
    { s with teams := s.teams.map fun t =>
        { t with groups := t.groups.map fun g => if repeats g.cond then { g with cond := .ready } else g } }
  else s

/-! ### Words the engines hold -/

/-- The drain whose row Citrine runs on a core, and the row (R239). -/
def runningRow (s : State) (core : Nat) : Option (MatOp × CitRun) :=
  (s.matq.filter fun m => m.core == core).findSome? fun m => m.run.map fun r => (m, r)
/-- The slot of a drain. -/
def drainSlot (m : MatOp) : Nat := match m.kind with | .drain _ k => k | _ => 0
/-- The program of a Citrine slot (R255). -/
def slotWords (s : State) (core slot : Nat) : List Word := (Assoc.get? s.epi (core * 8 + slot)).getD []
/-- The word at a row's place in its program. -/
def citWord (s : State) (core : Nat) : Option Instr :=
  match runningRow s core with
  | none => none
  | some (m, r) => match (slotWords s core (drainSlot m))[r.ip]? with
    | none => none
    | some w => decodeCit w
/-- A walk by name. -/
def State.walk? (s : State) (id : Nat) : Option Walk := s.walks.find? fun w => w.id == id
/-- The rule at a walk's place (R293). -/
def walkRule (s : State) (id : Nat) : Option Instr :=
  match s.walk? id with
  | none => none
  | some w => if !w.accepted then none else match w.prog[w.rule]? with
    | none => none
    | some r => decodeRule r

/-! ### Events that stand open -/

/-- The event that performs a posted operation, or moves it on. -/
def pendEvent (p : Pend) : Instr :=
  match p.kind with
  | .regs _ _ => .longLatencyWrite p.id
  | .store _ => .storeCacheLevelAccept p.id
  | .media _ _ => .controllerAccept p.id
  | .rstl _ _ => .remoteStlPerformed p.id
  | .atom r => .sliceAtomicApply p.id (if r.lo then 1 else 0)
  | .mst r => if r.held then .peridotOperation p.id else .peridotHomeWriteback p.id
  | .rcnt _ _ _ _ => .rcntApply p.id
  | .train _ _ _ _ => .sliceAtomicApply p.id 0
  | .beryl _ _ op => match op with
    | .cdump _ _ _ _ _ _ (some _) => .cdumpResume p.id
    | _ => .berylPerform p.id
  | .garnet g => if g.susp.isSome then .garnetSuspendResume p.id else .garnetElement p.id
/-- The command a taken copy carries out (R163): OP in bits [3:0] of its entry. -/
def copyEvent (c : Copy) : Instr :=
  match c.ent.toNat % 16 with
  | 1 => .cmdLoad c.id
  | 2 => .cmdStore c.id
  | 3 => .cmdGcopy c.id
  | 4 => .cmdGatherRows c.id
  | 5 => .cmdScatterRows c.id
  | 6 => .cmdFill c.id
  | _ => .cmdMcastLoad c.id
/-- The cores on which something is resident or queued. -/
def busyCores (s : State) : List Nat := (s.teams.map (·.core) ++ s.matq.map (·.core)).eraseDups
/-- Every event that may stand open, oldest operation first; the groups' waits and the front end's records last. -/
def openEvents (s : State) : List Instr :=
  s.pend.map pendEvent ++
  s.copies.flatMap (fun c => [.copyResume c.id, copyEvent c, .copyCompletion c.id]) ++
  s.matq.flatMap (fun m => [.matrixResume m.id, .matrixRowComplete m.id, .matrixRetire m.id]) ++
  (busyCores s).flatMap (fun c => [.drainStart c, .drainRowCommit c, .drainRetire c, .regxGrant c, .regxDenial c]) ++
  s.walks.flatMap (fun w => [.walkForward w.id, .walkParkResume w.id]) ++
  s.rings.map (fun (k, _) => .agateRingTake (k / 2 ^ 64) (k % 2 ^ 64)) ++
  s.teams.flatMap (fun t => [.tbarRelease t.uid, .setwseq t.uid, .teamEnd t.uid] ++
    t.groups.flatMap fun g => .mwaitTimeout ⟨t.uid, g.idx⟩ ::
      if g.mon.any (·.fired) then [.mwaitWake ⟨t.uid, g.idx⟩ 0] else []) ++
  s.slots.flatMap (fun (k, _) => [.dispatchBind (k / 64) (k % 64), .fillComplete (k / 64) (k % 64)]) ++
  s.ctxs.flatMap (fun (c, x) => .drained c :: x.queues.flatMap fun (q, _) =>
    [.fenceWaitMet c q, .dims c q, .nopRecord c q, .launchRecord c q, .signalRecord c q]) ++
  s.grids.map fun (g, _) => .gridComplete g

/-! ### Time -/

/-- The ready groups that an issue by `g` on its core has passed over, counted; one that waits for its line counts as ready
(R332). -/
def countSkips (g : Gid) (core : Nat) (s : State) : Assoc Nat :=
  (s.teams.flatMap fun t => (teamGroups s (fun c => c == .ready || c == .wait .fetch) t).map fun x => (t.core, x.1)).foldl
    (fun m (c, x) =>
      let k := key2 x.team x.group
      Assoc.wr 0 m k (if x = g then 0 else Assoc.rd 0 s.skips k + if c = core then 1 else 0)) []
/-- A clk passes: CYCLE advances (log 7), and a core with a pending `regx` counts the clk in which none of its groups
issued (R331). -/
def tick (issued : Option Gid) (s : State) : State :=
  let core := issued.bind fun g => coreOf? s g.team
  { s with
    cycle := s.cycle + 1
    skips := match issued with
      | some g => countSkips g (core.getD 0) s
      | none => s.skips
    idle := (s.regx.filterMap fun r => coreOf? s r.g.team).eraseDups.foldl
      (fun m c => if core = some c then Assoc.del m c else Assoc.put m c (Assoc.rd 0 s.idle c + 1)) [] }
/-- The group issued: its check did not send it back to wait (R39). -/
def issuedBy (g : Gid) (s : State) : Option Gid :=
  match env? s g with
  | none => some g
  | some e => if repeats e.grp.cond then none else some g
/-- A list from its `n`th element round to the one before it, so that no open event is put off for ever. -/
def turnedBy {α : Type} (n : Nat) (l : List α) : List α :=
  l.drop (n % l.length) ++ l.take (n % l.length)

end Sys2Proof.Machine
end

