-- ==== Sys2Proof/Machine/NearMem.lean ====
section
/-! DEFINITION. Work beside the memory: `mst` and Peridot (R279 to R288), walks and Jasper's rules (R289 to R302). -/

namespace Sys2Proof.Machine

/-! ### `mst` (R281 to R287) -/

/-- The operand of the lanes that name one address (R284, R267). -/
def mstMerge (f : Slk) (e : Env) (lanes : List Nat) : Nat :=
  let rm := e.grp.rmode.toNat
  let raw (l : Nat) : Nat := e.wide l f.s3 (szRegs (fSz f))
  let flt (l : Nat) : FV := fdec f32 (fin rm f32 (raw l))
  match fAop f with
  | 10 => mergedBits (lanes.map flt)
  | 11 =>
    let half (sh : Nat) : Nat :=
      mergedBits (lanes.map fun l => fdec (fmtOf 9) (fin rm (fmtOf 9) (field (raw l) sh 16)))
    half 0 + half 16 * 2 ^ 32
  | 12 | 13 => match lanes with
    | [] => 0
    | l :: ls => fround f32 0 false (ls.foldl (fun a k => fminmax (fAop f == 13) a (flt k)) (flt l))
  | op => match lanes with
    | [] => 0
    | l :: ls => ls.foldl (fun a k => atomNew op (8 * szBytes f) 0 a (raw k) 0) (raw l)
/-- The unperformed `mst` requests of a core. -/
def mstCount (s : State) (core : Nat) : Nat :=
  s.pend.countP fun p => p.core == core && (match p.kind with | .mst _ => true | _ => false)
/-- The checks of `mst` in its lanes (R283). -/
def mstCheck (f : Slk) (e : Env) : Except Res (State × List LaneAcc) :=
  resolveGlobal e (e.gbase f.s1) (fun l => e.offset l f.s2 + fDisp6 f * szBytes f) (szBytes f) (szBytes f) .rmw
    (fun loc _ => isHost loc) e.st (e.memLanes f)
/-- `mst` once checked and committed: one request for each distinct address (R284). -/
def mstBody (f : Slk) (xs : List LaneAcc) (e : Env) : Res :=
  if 512 ≤ mstCount e.st e.core then .wait e.st .retry
  else .done ((byAddress xs).foldl (fun s (loc, _, ls) =>
    post e.gid e.team.ctx e.core (.mst ⟨loc, fAop f, fSz f == 3, BitVec.ofNat 64 (mstMerge f e ls), e.grp.rmode, false⟩)
      s) e.st)
/-- `mst`: check, commit, then the body (R283, R284). -/
def mstOrd (f : Slk) (e : Env) : Res :=
  match mstCheck f e with
  | .error r => checkedFirst e r
  | .ok (s, xs) => committing (mstBody f xs) (e.at s)
/-- `mst`. -/
def execMst (f : Slk) (s : State) : Out := issue (.mst f) f (inService (mstOrd f)) s

/-- The new bits of the target (R285). -/
def peridotNew (r : MstReq) (old : Nat) : Nat :=
  let rm := r.rmode.toNat
  let v := r.v.toNat
  let opnd (x : Nat) : FV := fdec f32 (fin rm f32 (x % 2 ^ 32))
  match r.aop with
  | 10 => f32Add rm old (opnd v)
  | 11 => bf16Add rm (old % 2 ^ 16) (opnd v) + bf16Add rm (old / 2 ^ 16) (opnd (v / 2 ^ 32)) * 2 ^ 16
  | 12 | 13 => ffin f32 rm false (fminmax (r.aop == 13) (fdec f32 (fin rm f32 old)) (opnd v))
  | op => atomNew op (if r.wide then 64 else 32) rm old v 0
/-- The home takes a request: after the group's earlier ones to the address, and when nothing holds the line, it
writes back and drops the line and holds it (R281, R286). -/
def peridotTake (id : Nat) (s : State) : State :=
  match s.pend? id with
  | none => s
  | some p => match p.kind with
    | .mst r =>
      let n := if r.wide then 8 else 4
      let earlier := s.pend.any fun q => decide (q.id < id) && q.owner == p.owner && (match q.kind with
        | .mst r' => overlap r'.loc (if r'.wide then 8 else 4) r.loc n
        | _ => false)
      if r.held || earlier then s
      else if lineHeld s r.loc n then biSend s r.loc n true
      else if inMgmt r.loc then unpost id (let (s, old) := mgmtRead s r.loc n; mgmtWrite r.loc n (peridotNew r old) s)
      else setPend id (.mst { r with held := true }) (l2Evict s (r.loc / 128))
    | _ => s
/-- PERIDOT_HOME_WRITEBACK. -/
def execPeridotHomeWriteback (id : Nat) (s : State) : Out := .next (peridotTake id s)

/-- Media at a location, as its controller reads it; the Bool is poison. -/
def mediaRead (s : State) (loc n : Nat) : State × Nat × Bool :=
  (segs 64 loc n).foldl (init := (s, 0, false)) fun (s, x, p) (a, m) =>
    let (s, q) := if isDev a then resolveSector s (a / 64)
      else (s, (sectorEcc s (a / 64)).any fun e => e.2 == some .poison || e.2 == some .double)
    (s, x + ofBytes (memBytes s.mem a m) * 2 ^ (8 * (a - loc)), p || q)
/-- The controller performs a request in one transaction; a poisoned sector drops it (R285, R288). -/
def peridotPerform (id : Nat) (s : State) : State :=
  match s.pend? id with
  | none => s
  | some p => match p.kind with
    | .mst r =>
      if !r.held then s
      else
        let n := if r.wide then 8 else 4
        let (s, old, bad) := mediaRead (l2Evict s (r.loc / 128)) r.loc n
        unpost id (if bad then logDiscard s r.loc
          else { s with mem := memPuts s.mem r.loc (toBytes n (peridotNew r old)) })
    | _ => s
/-- PERIDOT_OPERATION. -/
def execPeridotOperation (id : Nat) (s : State) : Out := .next (peridotPerform id s)

/-! ### `wst` and `wprog` (R298, R299) -/

/-- `wst`. -/
def wstBody (f : Slk) (e : Env) : Res :=
  let limit := e.n32 0 (.op f.s1)
  let policy := e.n32 0 (.op f.s2)
  if limit = 0 ∨ 4096 < limit ∨ 3 ≤ policy then .trap e.st { cause := 0x0B }
  else
    let s := writeLong e false (dstWrites f.d 1 0 e.grp.wctl.toNat) e.st
    .done (modGroup e.gid (fun g => { g with wctl := BitVec.ofNat 32 (limit + policy * 2 ^ 13) }) s)
/-- `wst`. -/
def execWst (f : Slk) (s : State) : Out := issue (.wst f) f (wstBody f) s

/-- The 8-byte words of a byte string. -/
def wordsOf : Nat → List Byte → List (BitVec 64)
  | 0, _ => []
  | n + 1, bs => BitVec.ofNat 64 (ofBytes (bs.take 8)) :: wordsOf n (bs.drop 8)
/-- A rule is valid in a program of `n` (R292). -/
def ruleValid (n : Nat) (w : BitVec 64) : Bool :=
  match decodeRule w with
  | none => false
  | some i => match ruleParts i with
    | some (op, r) => ruleOk n op r
    | none => false
/-- The index of the first rule of a list that breaks R292. -/
def firstInvalid (n : Nat) : Nat → List (BitVec 64) → Option Nat
  | _, [] => none
  | k, w :: ws => if ruleValid n w then firstInvalid n (k + 1) ws else some k
/-- `wprog`. -/
def wprogBody (f : Slk) (e : Env) : Res :=
  let n := e.n32 0 (.op f.s3)
  if n = 0 ∨ 32 < n then .trap e.st { cause := 0x0B, addr := n }
  else match loadRange e (e.gbase f.s1) (e.offset 0 f.s2 + fDisp6 f * 8) (8 * n) 8 e.st with
    | .error r => faultOutside e r
    | .ok (s, bs) =>
      let rules := wordsOf n bs
      match firstInvalid n 0 rules with
      | some k => .trap s { cause := 0x0B, addr := k }
      | none =>
        let x := s.ctx e.ctxNo
        .done (s.setCtx e.ctxNo { x with progs := Assoc.put x.progs (fAop f) rules })
/-- `wprog`. -/
def execWprog (f : Slk) (s : State) : Out := issue (.wprog f) f (wprogBody f) s

/-! ### `walk` and `wres` (R300, R301) -/

/-- The key of a lane: one register zero-extended, or a pair. -/
def Env.walkKey (e : Env) (f : Slk) (l : Nat) : DWord := BitVec.ofNat 64 (e.wide l f.s3 (szRegs (fSz f)))
/-- The engine a walk starts at: the stack that homes the location, or stack 3d of the issuing die. -/
def startStack (die : Nat) (loc : Option Nat) : Nat :=
  match loc with
  | some a => if isDev a then stackOf a else 3 * die
  | none => 3 * die
/-- The registers of a result block. -/
def blockRegs (d l : Nat) : List RegDst := (List.range 20).map fun k => ⟨.v, d + k, l⟩
/-- The engine of a stack has one of its 512 walk contexts free (R289). -/
def engineRoom (s : State) (stack : Nat) : Bool :=
  decide ((s.walks.countP fun w => w.accepted && w.stack == stack) < 512)
/-- Start a lane's walk: its block is empty until it ends. An engine with room accepts it and copies its program; else the
walk waits for one (R289). -/
def startWalk (e : Env) (f : Slk) (l progNo : Nat) (prog : List (BitVec 64)) (rule : Nat) (p : DWord) (stack : Nat)
    (s : State) : State :=
  let room := engineRoom s stack
  let w : Walk := ⟨s.nextId, e.gid, e.team.ctx, e.core, l, opNum f.d, if room then prog else [], progNo, rule, p,
    e.walkKey f l, 0, 0, 0, e.grp.wctl, stack, none, room⟩
  { modGroup e.gid (Group.marks true (blockRegs (opNum f.d) l)) s with walks := s.walks ++ [w], nextId := s.nextId + 1 }
/-- The core's walks would pass 1,024 (R289). -/
def walksFull (s : State) (core n : Nat) : Bool := decide (1024 < s.walks.countP (fun w => w.core == core) + n)
/-- `walk`. -/
def walkBody (f : Slk) (e : Env) : Res :=
  let b := e.gbase f.s1
  let disp (l : Nat) : Int := e.offset l f.s2 + fDisp6 f * 8
  match resolveGlobal e b disp 8 8 .read allowAll e.st e.lanes with
  | .error r => r
  | .ok (s, xs) => match Assoc.get? (s.ctx e.ctxNo).progs (fAop f) with
    | none => .trap s { cause := 0x0B }
    | some prog =>
      if walksFull s e.core xs.length then .wait s .retry
      else .done (xs.foldl (fun s x => startWalk e f x.lane (fAop f) prog 0
        (BitVec.ofNat 64 (b.pointer / 2 ^ 57 * 2 ^ 57 + x.va)) (startStack e.die (some x.loc)) s) s)
/-- `walk`. -/
def execWalk (f : Slk) (s : State) : Out := issue (.walk f) f (inService (committing (walkBody f))) s

/-- The status word of a result block (R294). -/
def walkStatus (status rule prog : Nat) (res : Bool) (steps : Nat) : Nat :=
  status + rule % 32 * 2 ^ 4 + prog % 16 * 2 ^ 9 + (if res then 2 ^ 13 else 0) + steps % 2 ^ 13 * 2 ^ 16
/-- A whole result block (R294). -/
def blockWrites (d l status second : Nat) (p : DWord) (record : List Byte) : List RegWrite :=
  let x := status + second * 2 ^ 32 + p.toNat * 2 ^ 64 + ofBytes record * 2 ^ 128
  dstWrites (.v (BitVec.ofNat 8 d)) 20 l x
/-- A lane of `wres`: its block is given back, written at once, or a walk that resumes. -/
def wresLane (f : Slk) (e : Env) (s : State) (l : Nat) : State :=
  let c := e.wide l f.s1 4
  let d := opNum f.d
  if !bitAt c 13 then modGroup e.gid (Group.setRegs (dstWrites f.d 4 l c)) s
  else
    let prog := (Assoc.get? (s.ctx e.ctxNo).progs (field c 9 4)).getD []
    let p := BitVec.ofNat 64 (c / 2 ^ 64)
    if prog.length ≤ field c 4 5 then
      modGroup e.gid (Group.setRegs (blockWrites d l (walkStatus 5 (field c 4 5) (field c 9 4) false 0) 0 p [])) s
    else
      let (s, r) := translatePtr s e.ctxNo p.toNat 0 1 1 .read
      startWalk e f l (field c 9 4) prog (field c 4 5) p
        (startStack e.die (match r with | .ok loc _ => some loc | _ => none)) s
/-- The translation of the cursor pointer that lane `l` resumes from, where it resumes one (R301). -/
def wresLook (f : Slk) (e : Env) (s : State) (l : Nat) : Option (State × Look) :=
  let c := e.wide l f.s1 4
  if bitAt c 13 && decide (field c 4 5 < ((Assoc.get? (s.ctx e.ctxNo).progs (field c 9 4)).getD []).length) then
    some (translatePtr s e.ctxNo (c / 2 ^ 64) 0 1 1 .read)
  else none
/-- The lanes whose cursor's page-table or bounds line is held are waited for, and the host is asked for it (R301, R443). -/
def wresHeld (f : Slk) (e : Env) : Option State :=
  e.lanes.findSome? fun l => match wresLook f e e.st l with
    | some (s, .hold) => some s
    | _ => none
/-- `wres`. -/
def wresBody (f : Slk) (e : Env) : Res :=
  match wresHeld f e with
  | some s => .wait s .retry
  | none =>
  if walksFull e.st e.core (e.lanes.countP fun l => bitAt (e.wide l f.s1 1) 13) then .wait e.st .retry
  else .done (e.lanes.foldl (wresLane f e) e.st)
/-- `wres`. -/
def execWres (f : Slk) (s : State) : Out := issue (.wres f) f (inService (committing (wresBody f))) s

/-! ### A walk's rules (R291, R293, R295) -/

/-- A walk ends: its result block is written and full. -/
def walkEnd (w : Walk) (status : Nat) (rule : Nat) (res : Bool) (fcode : Nat) (p : DWord) (record : List Byte)
    (s : State) : State :=
  let st := walkStatus status rule w.progNo res w.steps
  fillRegs w.owner (blockWrites w.dst w.lane st (w.hops % 2 ^ 13 + fcode * 2 ^ 16) p record)
    { s with walks := s.walks.filter fun x => x.id ≠ w.id }
/-- Replace a walk. -/
def setWalk (w : Walk) (s : State) : State := { s with walks := s.walks.map fun x => if x.id = w.id then w else x }
/-- The address a rule reads, its length and the alignment it needs. -/
def ruleRead (i : Instr) (w : Walk) : Option (Nat × Nat × Nat) :=
  let at_ (r : Rule) : Nat := w.p.toNat % 2 ^ 57 + r.off.toNat
  match i with
  | .jLdcmp r | .jLdcmpi r => some (at_ r, 2 ^ r.w.toNat, 2 ^ r.w.toNat)
  | .jFollow r => some (at_ r, 8, 8)
  | .jReturn r => if r.imm.toNat % 128 = 0 then none else some (at_ r, r.imm.toNat % 128, 1)
  | _ => none
/-- A page a walk reads is not resident (R295). -/
def walkFault (w : Walk) (va : Nat) (s : State) : State :=
  match field w.wctl.toNat 13 2 with
  | 0 => walkEnd w 3 w.rule true 1 w.p [] s
  | 1 =>
    let (s, ord) := postFault w.ctx va 0 (agentOf w.core 5) s
    setWalk { w with park := some ord } s
  | _ => walkEnd w 3 w.rule true 1 w.p [] (postFault w.ctx va 0 (agentOf w.core 5) s).1
/-- A rule may not read there: it is misaligned, or a record that crosses 4 KiB (R293). -/
def readBad (va n align : Nat) : Bool := va % align != 0 || (align == 1 && decide (4096 < va % 4096 + n))
/-- The read of a rule: its bits, or how the walk ends or waits (R293, R295). -/
def walkRead (w : Walk) (va n align : Nat) (s : State) : Except State (State × Walk × Nat) :=
  if readBad va n align then .error (walkEnd w 5 w.rule false 0 w.p [] s)
  else if 2 ^ 57 < va + n then .error (walkEnd w 4 w.rule false 0 w.p [] s)
  else match translate s w.ctx (w.p.toNat / 2 ^ 57) va n .read with
    | (s, .fault) => .error (walkFault w va s)
    | (s, .bad 0x05 _) => .error (walkEnd w 4 w.rule false 0 w.p [] s)
    | (s, .bad _ d) => .error (walkEnd w 3 w.rule false (if d = 0x05 ∨ d = 0x06 then 3 else 2) w.p [] s)
    | (s, .hold) => .error s
    | (s, .ok loc _) =>
      if inMgmt loc then .error (walkEnd w 3 w.rule false 2 w.p [] s)
      else if !isDev loc then .error (walkEnd w 3 w.rule false 3 w.p [] s)
      else if stackOf loc ≠ w.stack && !engineRoom s (stackOf loc) then .error s
      else
        let w := if stackOf loc = w.stack then w else { w with stack := stackOf loc, hops := w.hops + 1 }
        let (s, x, bad) := mediaRead s loc n
        if bad then .error (walkEnd w 6 w.rule false 0 w.p [] s) else .ok (s, w, x)
/-- The walk goes on to rule `next`; 64 rules without a move end it (R293). -/
def walkNext (w : Walk) (next : Nat) (s : State) : State :=
  let w := { w with n := w.n + 1 }
  if w.n = 64 then walkEnd w 5 w.rule false 0 w.p [] s else setWalk { w with rule := next } s
/-- A compare rule's outcome (R291). -/
def ruleHolds (r : Rule) (x k : Nat) : Bool :=
  let b := 8 * 2 ^ r.w.toNat
  ccOrd r.cmp.toNat (if r.sgn = 1 then compare (toSigned b x) (toSigned b k) else compare (x % 2 ^ b) (k % 2 ^ b))
/-- The immediate of LDCMPI (R291). -/
def ruleImm (r : Rule) : Nat := if r.sgn = 1 then ofSigned 64 (toSigned 20 r.imm.toNat) else r.imm.toNat
/-- The current walk performs a rule. -/
def ruleStep (i : Instr) (act : Walk → Nat → State → State) (s : State) : Out :=
  match s.walk? s.curWalk with
  | none => .fault .noEngine
  | some w =>
    if w.park.isSome then .next s
    else match ruleRead i w with
      | none => .next (act w 0 s)
      | some (va, n, align) => match walkRead w va n align s with
        | .error s => .next s
        | .ok (s, w, x) => .next (act w x s)
/-- A compare with `k`. -/
def ruleCompare (r : Rule) (k : Walk → Nat) (w : Walk) (x : Nat) (s : State) : State :=
  walkNext w (if ruleHolds r x (k w) then r.nt.toNat else r.nf.toNat) s
/-- LDCMP. -/
def execJLdcmp (r : Rule) (s : State) : Out := ruleStep (.jLdcmp r) (ruleCompare r fun w => w.key.toNat) s
/-- LDCMPI. -/
def execJLdcmpi (r : Rule) (s : State) : Out := ruleStep (.jLdcmpi r) (ruleCompare r fun _ => ruleImm r) s
/-- FOLLOW, once its field is read. -/
def ruleFollow (r : Rule) (w : Walk) (q : Nat) (s : State) : State :=
  if q = 0 then walkEnd w 1 w.rule false 0 w.p [] s
  else
    let p := BitVec.ofNat 64 (ofSigned 64 ((q : Int) + toSigned 12 r.off2.toNat))
    if w.steps = w.wctl.toNat % 2 ^ 13 then walkEnd w 2 r.nt.toNat true 0 p [] s
    else setWalk { w with steps := w.steps + 1, p := p, rule := r.nt.toNat, n := 0 } s
/-- FOLLOW. -/
def execJFollow (r : Rule) (s : State) : Out := ruleStep (.jFollow r) (ruleFollow r) s
/-- SELECT reads nothing. -/
def ruleSelect (r : Rule) (w : Walk) (_ : Nat) (s : State) : State :=
  let i := (w.key.toNat >>> field r.imm.toNat 0 6) % 2 ^ field r.imm.toNat 6 6
  walkNext { w with p := w.p + BitVec.ofNat 64 (r.off.toNat + i * 2 ^ r.w.toNat) } r.nt.toNat s
/-- SELECT. -/
def execJSelect (r : Rule) (s : State) : Out := ruleStep (.jSelect r) (ruleSelect r) s
/-- RETURN ends FOUND; the final pointer is the record's. -/
def ruleReturn (r : Rule) (w : Walk) (x : Nat) (s : State) : State :=
  walkEnd w 0 w.rule false 0 w.p (toBytes (r.imm.toNat % 128) x) s
/-- RETURN. -/
def execJReturn (r : Rule) (s : State) : Out := ruleStep (.jReturn r) (ruleReturn r) s
/-- MISS. -/
def execJMiss (r : Rule) (s : State) : Out :=
  ruleStep (.jMiss r) (fun w _ s => walkEnd w 1 w.rule false 0 w.p [] s) s

/-- A walk whose next read lies on another stack moves there (R293). -/
def walkMove (id : Nat) (s : State) : State :=
  match s.walk? id, walkRule s id with
  | some w, some i => match ruleRead i w with
    | none => s
    | some (va, n, align) =>
      if w.park.isSome || readBad va n align || decide (2 ^ 57 < va + n) then s
      else match translate s w.ctx (w.p.toNat / 2 ^ 57) va n .read with
        | (s', .ok loc _) =>
          if isDev loc && stackOf loc != w.stack && engineRoom s (stackOf loc) then setWalk { w with stack := stackOf loc, hops := w.hops + 1 } s'
          else s
        | _ => s
  | _, _ => s
/-- An engine with room accepts a walk that waits for it, which copies its program unless it brings one (R289, R298). -/
def walkAccept (w : Walk) (s : State) : State :=
  if !engineRoom s w.stack then s
  else
    let prog := if w.prog = [] then (Assoc.get? (s.ctx w.ctx).progs w.progNo).getD [] else w.prog
    if prog.length ≤ w.rule then walkEnd w 5 w.rule false 0 w.p [] s else setWalk { w with prog := prog, accepted := true } s
/-- WALK_FORWARD: a walk moves to the engine that homes what it reads next, or into the one it waits for. -/
def execWalkForward (id : Nat) (s : State) : Out :=
  .next (match s.walk? id with
    | some w => if w.accepted then walkMove id s else walkAccept w s
    | none => s)
/-- A parked walk goes on once its fault is answered (R295). -/
def walkUnpark (id : Nat) (s : State) : State :=
  match s.walk? id with
  | none => s
  | some w => match w.park with
    | none => s
    | some ord => match faultAnswer s w.ctx ord with
      | some true => setWalk { w with park := none } s
      | some false => walkEnd w 3 w.rule true 4 w.p [] s
      | none => s
/-- WALK_PARK_RESUME. -/
def execWalkParkResume (id : Nat) (s : State) : Out := .next (walkUnpark id s)

end Sys2Proof.Machine
end

