-- ==== Sys2Proof/Machine/EngineMem.lean ====
section
/-! DEFINITION. Global memory as the engines of a core reach it: never through L1 (R107, R160). -/

namespace Sys2Proof.Machine

/-- Some line of the pieces is held (R443, R281). -/
def piecesHeld (s : State) (ps : List (Nat × Nat × Nat)) : Bool := ps.any fun (loc, _, n) => lineHeld s loc n
/-- Read pieces from the die's RDC or the home; the Bool is poison. -/
def engineRead (s : State) (die : Nat) (ps : List (Nat × Nat × Nat)) : State × List Byte × Bool :=
  ps.foldl (init := (s, [], false)) fun (s, bs, p) (loc, ca, n) =>
    if inMgmt loc then
      let (s, v) := mgmtRead s loc n
      (s, bs ++ toBytes n v, p)
    else (segs 128 loc n).foldl (init := (s, bs, p)) fun (s, bs, p) (a, m) =>
      let (s, d, q) := lowerLine s die (a / 128) (ca == 0) 0
      (s, bs ++ lineBytes d (a % 128) m, p || poisonIn q (a % 128) m)
/-- Write pieces at their cache level, dropping the core's L1 copies (R107, R172). -/
def engineWrite (s : State) (core : Nat) (ps : List (Nat × Nat × Nat)) (bs : List Byte) : State :=
  (ps.foldl (fun (s, bs) (loc, ca, n) =>
    (if inMgmt loc then mgmtWrite loc n (ofBytes (bs.take n)) s
     else acceptStore (l1DropRange core loc n s) core ⟨loc, 0, BitVec.ofNat 2 ca, 0, false, false, bs.take n⟩,
     bs.drop n)) (s, bs)).1
/-- Why an engine's access did not take place. -/
inductive Stop where
  | hold
  | fault (va acc : Nat)
  | bound
  | prot
  | poison
  deriving DecidableEq, Repr
/-- The stop of a failed translation. -/
def stopOf (acc : Acc) : Nat × Look → Stop
  | (va, .fault) => .fault va acc.code
  | (_, .bad 0x06 _) => .prot
  | (_, .bad _ _) => .bound
  | _ => .hold
/-- The physical pieces of an engine's access; a held line is asked for (R443). -/
def engineReach (s : State) (c ptr : Nat) (disp : Int) (n align : Nat) (acc : Acc) :
    State × Except Stop (List (Nat × Nat × Nat)) :=
  match translateRange s c ptr disp n align acc with
  | (s, .error x) => (s, .error (stopOf acc x))
  | (s, .ok ps) =>
    if piecesHeld s ps then (ps.foldl (fun s (loc, _, n) => biSend s loc n (acc == .write)) s, .error .hold)
    else (s, .ok ps)
/-- An engine reads `n` bytes at `ptr + disp`. -/
def engineLoad (s : State) (c core ptr : Nat) (disp : Int) (n align : Nat) : State × Except Stop (List Byte) :=
  match engineReach s c ptr disp n align .read with
  | (s, .error x) => (s, .error x)
  | (s, .ok ps) =>
    let (s, bs, p) := engineRead s (coreDie core) ps
    (s, if p then .error .poison else .ok bs)
/-- An engine writes bytes at `ptr + disp`. -/
def engineStore (s : State) (c core ptr : Nat) (disp : Int) (align : Nat) (bs : List Byte) : State × Except Stop Unit :=
  match engineReach s c ptr disp bs.length align .write with
  | (s, .error x) => (s, .error x)
  | (s, .ok ps) => (engineWrite s core ps bs, .ok ())

end Sys2Proof.Machine
end

