-- ==== Sys2Proof/Machine/Agate.lean ====
section
/-! DEFINITION. Agate: rings, the take, the transfer and the completion of copies, and `anot` (R156 to R175). -/

namespace Sys2Proof.Machine

/-! ### Entries and geometry (R162, R164) -/

/-- FLAGS bits and KIND of an entry. -/
def Copy.op (c : Copy) : Nat := field c.ent.toNat 0 8
/-- KIND. -/
def Copy.kind (c : Copy) : Nat := field c.ent.toNat 16 8
/-- LOCAL. -/
def Copy.loc (c : Copy) : Nat := field c.ent.toNat 32 32
/-- GPTR. -/
def Copy.gptr (c : Copy) : Nat := field c.ent.toNat 64 64
/-- COMP. -/
def Copy.comp (c : Copy) : Nat := field c.ent.toNat 128 32
/-- AUX. -/
def Copy.aux (c : Copy) : Nat := field c.ent.toNat 160 32
/-- DST. -/
def Copy.dst (c : Copy) : Nat := field c.ext.toNat 192 64
/-- FLAGS bit `i`. -/
def Copy.flag (c : Copy) (i : Nat) : Bool := bitAt c.ent.toNat (8 + i)
/-- GTYPE. -/
def Copy.gtype (c : Copy) : Nat := field c.desc.toNat 0 4
/-- The type of local elements (R169). -/
def Copy.ltype (c : Copy) : Nat := if c.flag 1 then field c.desc.toNat 4 4 else c.gtype
/-- The rank. -/
def Copy.rank (c : Copy) : Nat := field c.desc.toNat 8 3 + 1
/-- PLANE. -/
def Copy.plane (c : Copy) : Bool := bitAt c.desc.toNat 11
/-- OOB. -/
def Copy.oob (c : Copy) : Nat := field c.desc.toNat 12 2
/-- BLK. -/
def Copy.blk (c : Copy) : Bool := bitAt c.desc.toNat 14
/-- Data move in units of 128 elements (R167, R168). -/
def Copy.units (c : Copy) : Bool := c.plane || c.blk
/-- A signed 32-bit field of the descriptor. -/
def Copy.dsc (c : Copy) (lo : Nat) : Int := toSigned 32 (field c.desc.toNat lo 32)
/-- A dimension record: SIZE, WINDOW, SAMPLE, STRIDE. -/
def Copy.dim (c : Copy) (d : Nat) : Nat × Nat × Nat × Int :=
  let r := c.desc.toNat >>> (128 * (d + 1))
  (field r 0 32, field r 32 16, if d ≤ 2 then field r 48 4 else 1, toSigned 56 (field r 64 56))
/-- The dimensions below the rank. -/
def Copy.dims (c : Copy) : List (Nat × Nat × Nat × Int) := (List.range (min c.rank 7)).map c.dim
/-- The coordinate of a dimension. -/
def Copy.coord (c : Copy) (d : Nat) : Int :=
  if d ≤ 2 then toSigned 21 (field c.ent.toNat (192 + 21 * d) 21) else toSigned 32 (field c.ext.toNat (32 * (d - 3)) 32)
/-- The bits of a global element. -/
def Copy.ebits (c : Copy) : Nat := cvBits c.gtype
/-- The bytes of a global element or unit. -/
def Copy.gsize (c : Copy) : Nat := if c.units then 16 * c.ebits else c.ebits / 8
/-- The bytes of a local element or unit. -/
def Copy.lsize (c : Copy) : Nat := if c.units then 16 * c.ebits else cvBits c.ltype / 8
/-- The windows of the dimensions, dimension 0 in units where data move so. -/
def Copy.windows (c : Copy) : List Nat :=
  (c.dims.zip (List.range 7)).map fun ((_, w, _, _), d) => if d = 0 && c.units then w / 128 else w
/-- The elements of a command, or its units. -/
def Copy.count (c : Copy) : Nat := c.windows.foldl (· * ·) 1
/-- The scale and spare bytes of a block (R168). -/
def Copy.perBlock (c : Copy) : Nat := if c.blk then (if c.gtype = 2 then 2 else 1) else 0
/-- The command's full byte count: the dense box, scales and spares. -/
def Copy.bytes (c : Copy) : Nat := c.count * (c.lsize + c.perBlock)
/-- The cores a multicast selects (R170). -/
def Copy.selected (c : Copy) : List (Nat × Nat) :=
  (List.range 12).flatMap fun y => (List.range 16).filterMap fun x =>
    if bitAt c.ext.toNat (128 + x) && bitAt c.ext.toNat (144 + y) then some (x, y) else none
/-- The selection of a multicast is legal (R170). -/
def Copy.selOk (c : Copy) (t : Team) : Bool :=
  c.loc / 2 ^ 29 == 0 && !c.selected.isEmpty && c.selected.all fun (x, y) => decide (x < t.cw ∧ y < t.ch)
/-- The selected cores that the cluster has. What is selected beyond it has neither a box nor a barrier, and fails the entry
by `Copy.selOk` alone: that is the model's choice (R170, R171, log 29). -/
def Copy.inCluster (c : Copy) (t : Team) : List (Nat × Nat) := c.selected.filter fun (x, y) => decide (x < t.cw ∧ y < t.ch)
/-- A local address in a cluster window. -/
def clusterAddr (x y off : Nat) : Nat := 2 ^ 29 + y * 2 ^ 25 + x * 2 ^ 21 + off % 2 ^ 21

/-! ### Completion objects (R171, R173) -/

/-- KIND is allowed for the operation (R163); an unassigned operation bars none of 0 to 3 (R173). -/
def Copy.kindOk (c : Copy) : Bool :=
  match c.op with
  | 1 | 4 => decide (c.kind ≤ 3)
  | 2 | 3 | 5 => decide (c.kind ≤ 2)
  | 6 => decide (c.kind ≤ 2) || (c.kind == 3 && c.gptr == 0)
  | 7 => decide (c.kind ≤ 1)
  | _ => decide (c.kind ≤ 3)
/-- A scratchpad range passes rows 1 to 4 of R124; its pool key. -/
def scratchKey (s : State) (t : Team) (a n : Nat) : Option Nat :=
  match scratchLook s t a n 1 with | .ok (k, _) => some k | .error _ => none
/-- The local addresses of the completion objects, or none where a check fails: barriers and buffers at multiples of 16
(R140, R148), stamps of 8 (R147). -/
def Copy.objects (c : Copy) (s : State) (t : Team) : Option (List Nat) :=
  let all (as : List Nat) (n align : Nat) : Option (List Nat) :=
    if as.all fun a => a % align == 0 && (scratchKey s t a n).isSome then some as else none
  match c.kind with
  | 0 => some []
  | 1 => all (if c.op = 7 then (c.inCluster t).map fun (x, y) => clusterAddr x y c.comp else [c.comp]) 16 16
  | 2 => if c.flag 4 then all [c.comp] 8 8 else if c.comp % 8 = 0 then some [] else none
  | _ => match all [c.comp] 80 16, scratchKey s t c.comp 80 with
    | some l, some k => if (cbufAt s k).legal then some l else none
    | _, _ => none
/-- The global pointer of a stamp (R162). -/
def Copy.stampPtr (c : Copy) : Nat := c.comp + field c.ext.toNat 160 25 * 2 ^ 32

/-! ### The checks of the take (R162 to R173) -/

/-- The operation moves a local box. -/
def Copy.local_ (c : Copy) : Bool := [1, 2, 4, 5, 7].contains c.op || (c.op == 6 && c.gptr == 0)
/-- ECODE 0x05: the geometry is not allowed (R164 to R168). -/
def Copy.badGeometry (c : Copy) : Bool :=
  let d0 := c.dim 0
  c.rank == 8 || c.oob == 3 ||
  c.dims.any (fun (_, w, sm, _) => w == 0 || sm == 0 || decide (8 < sm)) ||
  ((c.op == 4 || c.op == 5) && decide (c.rank < 2)) ||
  decide (2 ^ 32 < c.dims.foldl (fun a d => a * d.2.1) 1) ||
  (c.flag 2 && !cvFloat c.ltype) || (c.gtype == 2 && !c.plane) ||
  (c.units && (!(c.ebits == 4 || c.ebits == 8) || c.coord 0 % 128 != 0 || d0.2.1 % 128 != 0 || d0.2.2.1 != 1 || c.flag 1)) ||
  (c.blk && !([2, 14, 15].contains c.gtype && [1, 2, 7].contains c.op))
/-- The local addresses of the box, before its check (R170, R171). Where a poisoned buffer object lets a kind-3 command
claim no slot, its box lies in slot 0, and the command ends with ECODE 0x13: that is the model's choice (R171, R173,
log 29). -/
def Copy.boxAddrs (c : Copy) (s : State) (t : Team) : Option (List Nat) :=
  if !c.local_ then some []
  else if c.op = 7 then
    some ((c.inCluster t).map fun (x, y) => clusterAddr x y c.loc)
  else if c.kind = 3 then
    match scratchKey s t c.comp 80 with
    | none => none
    | some k =>
      let b := cbufAt s k
      let off := c.loc % 2 ^ 21
      let at_ := b.base % 2 ^ 21 + c.slot.getD 0 * b.slot + off
      if c.loc / 2 ^ 21 ≠ 0 ∨ b.slot < off + c.count * c.lsize ∨ 2 ^ 21 ≤ at_ then none
      else some [c.comp / 2 ^ 21 * 2 ^ 21 + at_]
  else some [c.loc]
/-- A displacement within the window of a local address. -/
def shiftAddr (a : Nat) (x : Int) : Option Nat :=
  let y := (a % 2 ^ 21 : Nat) + x
  if 0 ≤ y && decide (y < 2 ^ 21) then some (a / 2 ^ 21 * 2 ^ 21 + y.toNat) else none
/-- The displacements from a box of its scale array and, for e2m1, its spare array (R168). -/
def Copy.scaleOffs (c : Copy) (base : Int) : List Int :=
  if !c.blk then [] else if c.gtype = 2 then [base, base + c.dsc 96] else [base]
/-- The box and the scale arrays fit their windows (R171). -/
def Copy.boxFits (c : Copy) (s : State) (t : Team) (a : Nat) : Bool :=
  (scratchKey s t a (c.count * c.lsize)).isSome && (c.scaleOffs (c.dsc 64)).all fun x =>
    match shiftAddr a x with
    | some b => (scratchKey s t b c.count).isSome
    | none => false
/-- The lowest ECODE of the checks made at a take (R173); `desc` tells whether the descriptor was read, `ext` whether
an extension entry was. -/
def Copy.takeFail (c : Copy) (s : State) (t : Team) (desc ext : Bool) : Option Nat :=
  let e := c.ent.toNat
  let x := c.ext.toNat
  let sel := field x 128 28
  let checks : List (Bool × Nat) := [
    (c.op == 0 || decide (7 < c.op), 0x01),
    (field e 13 3 != 0 || bitAt e 255 || field x 156 4 != 0 || field x 185 7 != 0 ||
      (c.aux != 0 && !([4, 5, 6].contains c.op)), 0x02),
    (!c.kindOk || (c.objects s t).isNone, 0x03),
    (!desc, 0x04),
    (desc && c.badGeometry, 0x05),
    (desc && !c.badGeometry && (match c.boxAddrs s t with
      | none => true
      | some as => as.any fun a => !c.boxFits s t a), 0x06),
    (((c.op == 3 || c.op == 7) && !ext) || (sel != 0 && c.op != 7) || (c.dst != 0 && c.op != 3) ||
      (field x 160 32 != 0 && (c.kind != 2 || c.flag 4)) || (c.op == 7 && !c.selOk t), 0x07),
    (desc && c.flag 1 && (c.op == 6 || [2, 6].contains c.gtype || [2, 6].contains c.ltype), 0x08),
    (desc && (c.op == 4 || c.op == 5) && (match localLook s t c.aux (4 * (c.dim 1).2.1) 1 with
      | .ok _ => false
      | .error _ => true), 0x0C)]
  (checks.find? (·.1)).map (·.2)

/-! ### Rings (R156 to R161) -/

/-- The pool key of a ring descriptor. -/
def ringKey (s : State) (t : Team) (ring : Nat) : Nat := windowKey s t true + 16 * ring
/-- A ring that Agate considers, and the PRIO flag of its next entry (R158, R159). -/
def ringNext (s : State) (t : Team) (ring : Nat) : Option Bool :=
  let k := ringKey s t ring
  let d := poolNat s k 16
  let r := Assoc.rd .zero s.rings (key2 t.uid ring)
  if !r.due then none
  else some (bitAt (poolNat s (windowKey s t true + field d 72 21 + 32 * (r.cons.toNat % 2 ^ field d 64 4)) 2) 11)
/-- Stop a ring (R158): the second word of its descriptor is written whole, with STOP, ERR and ECODE, and EIDX where an
entry word was the poisoned one; its other bits stay, or are 0 where that word was poisoned. -/
def stopRing (k ecode : Nat) (eidx : Option Nat) (s : State) : State :=
  let w := if (poolBad s (k + 8) 8).isSome then 0 else poolNat s (k + 8) 8
  let idx := eidx.getD (field w 48 16)
  poolWrite s (k + 8) (toBytes 8 ((field w 0 40 ||| 3 * 2 ^ 32) + ecode * 2 ^ 40 + idx % 2 ^ 16 * 2 ^ 48))
/-- Agate has considered a ring and takes nothing more from it until a kick or a completion (R158). -/
def settleRing (uid ring : Nat) (s : State) : State :=
  let r := Assoc.rd .zero s.rings (key2 uid ring)
  { s with rings := Assoc.put s.rings (key2 uid ring) { r with due := false } }
/-- Record the failure of an entry in its ring (R173). -/
def ringError (k ecode : Nat) (ordinal : Word) (s : State) : State :=
  if (poolBad s (k + 8) 8).isSome then s
  else
    let w := poolNat s (k + 8) 8
    let w := w % 2 ^ 40 ||| 2 ^ 32
    poolWrite (poolFix s (k + 8) 8) (k + 8) (toBytes 8 (w + ecode * 2 ^ 40 + ordinal.toNat % 2 ^ 16 * 2 ^ 48))
/-- Agate reads `n` bytes of a core's pool that hold an uncorrectable word: one event tells it (R121, R158, R173). -/
def logPool (core k n : Nat) (s : State) : State := logEvent (poolFix s k n) 0x08 (coreDie core) k
/-- The sample of the kick that published entry `cons` (R161). -/
def kickSample (r : RingSt) : Word × DWord :=
  match (r.kicks.find? fun (p, _, _) => let d := (p - r.cons).toNat; decide (1 ≤ d ∧ d < 2 ^ 31)).orElse
      fun _ => r.kicks.getLast? with
  | some (_, rm, db) => (rm, db)
  | none => (7, 0)
/-- The kicks that still have entries to take. -/
def RingSt.drop (cons : Word) (r : RingSt) : RingSt :=
  { r with cons := cons, kicks := r.kicks.filter fun (p, _, _) => let d := (p - cons).toNat; decide (1 ≤ d ∧ d < 2 ^ 31) }
/-- The index list as it stands at the take (R165). -/
def Copy.readIdx (c : Copy) (s : State) (t : Team) : State × List (Option Word) :=
  if c.op = 4 ∨ c.op = 5 then
    let n := (c.dim 1).2.1
    match localLook s t c.aux (4 * n) 1 with
    | .ok (k, _) => (poolFix s k (4 * n), (List.range n).map fun j =>
        if (poolBad s (k + 4 * j) 4).isSome then none else some (BitVec.ofNat 32 (poolNat s (k + 4 * j) 4)))
    | .error _ => (s, [])
  else (s, [])
/-- A slot of a kind-3 entry's buffer is claimed; none where the buffer has none free. A poisoned object claims
nothing. -/
def Copy.claimSlot (c : Copy) (s : State) (t : Team) : State × Option (Option Nat) :=
  if c.kind ≠ 3 then (s, some none)
  else match scratchKey s t c.comp 80 with
    | none => (s, some none)
    | some k =>
      if (poolBad s k 80).isSome then (logPool t.core k 80 s, some none)
      else match (cbufAt s k).claim with
        | none => (poolFix s k 80, none)
        | some (b, i) => (putCbuf k b (poolFix s k 80), some (some i))
/-- Take the next entry of a ring (R158). EXT is read as the entry's first word holds it, poisoned or not (log 29). A ring
both badly configured and overfilled stops with ECODE 0x11, which the model tests first: that is its choice (R158,
log 29). -/
def takeEntry (t : Team) (ring : Nat) (s : State) : State :=
  let k := ringKey s t ring
  let r := Assoc.rd .zero s.rings (key2 t.uid ring)
  let d := poolNat s k 16
  let n := 2 ^ field d 64 4
  let base := field d 72 21
  let pend := (BitVec.ofNat 32 (field d 0 32) - r.cons).toNat
  let served (prio : Bool) (s : State) : State :=
    { s with agateLast := Assoc.put s.agateLast (2 * t.core + b2n prio 0) (key2 t.uid ring) }
  let rest (s : State) : State := settleRing t.uid ring s
  let s := poolFix s k 16
  if (poolBad s k 16).isSome then rest (logPool t.core k 16 (stopRing k 0x12 none s))
  else if bitAt d 97 then rest s
  else if field d 64 4 = 0 ∨ 8 < field d 64 4 ∨ t.window true < base + 32 * n then rest (stopRing k 0x11 none s)
  else if n < pend then rest (stopRing k 0x10 none s)
  else if pend = 0 then rest { s with rings := Assoc.put s.rings (key2 t.uid ring) (r.drop r.cons) }
  else if 128 ≤ s.copies.countP fun c => c.core == t.core then s
  else
    let ek (i : Nat) : Nat := windowKey s t true + base + 32 * ((r.cons.toNat + i) % n)
    let ent := poolNat s (ek 0) 32
    let hasExt := bitAt ent 8
    let m := if hasExt then 2 else 1
    let ordinal := r.cons + BitVec.ofNat 32 m
    let poisoned := (List.range m).find? fun i => (poolBad s (ek i) 32).isSome
    let s := (List.range (min m pend)).foldl (fun s i => poolFix s (ek i) 32) s
    if pend < m then rest s
    else if poisoned.isSome then
      rest (logPool t.core (ek (poisoned.getD 0)) 32 (stopRing k 0x12 (some ordinal.toNat) s))
    else
      let ext := if hasExt then poolNat s (ek 1) 32 else 0
      let (rm, db) := kickSample r
      let c : Copy := ⟨s.nextId, t.uid, t.core, ring, ordinal, BitVec.ofNat 256 ent, BitVec.ofNat 256 ext, 0, rm, none,
        [], [], [], 0, none, none, [], []⟩
      let comp := c.kind ≠ 0 && c.kindOk && (c.objects s t).isSome
      match if comp then c.claimSlot s t else (s, some none) with
      | (s', none) => s'
      | (s', some slot) => match engineLoad s' t.ctx t.core db.toNat (128 * field ent 24 8) 128 1 with
        | (_, .error .hold) => (engineLoad s t.ctx t.core db.toNat (128 * field ent 24 8) 128 1).1
        | (s', r') =>
          let s := served (bitAt ent 11) s'
          let (desc, ok) := match r' with | .ok bs => (ofBytes bs, true) | .error _ => (0, false)
          let c := { c with desc := BitVec.ofNat 1024 desc, slot := slot }
          let lost := comp && c.kind == 3 && slot.isNone
          let fail := c.takeFail s t ok hasExt
          let (s, idx) := c.readIdx s t
          let c := { c with
            objs := if comp && !lost then (c.objects s t).getD [] else []
            box := (c.boxAddrs s t).getD [], idx := idx, fail := fail }
          let s := poolWrite { s with
            nextId := s.nextId + 1
            rings := Assoc.put s.rings (key2 t.uid ring) (r.drop ordinal) } (k + 4) (toBytes 4 ordinal.toNat)
          let s := match fail with | some x => ringError k x ordinal s | none => s
          if fail.isSome && !comp then s else { s with copies := s.copies ++ [c] }
/-- The rings of a core that Agate may serve, with their PRIO. -/
def ringsOf (s : State) (core : Nat) : List (Nat × Bool) :=
  s.rings.filterMap fun (k, _) => match s.team? (k / 2 ^ 64) with
    | some t => if t.core = core && t.st == .running then (ringNext s t (k % 2 ^ 64)).map fun p => (k, p) else none
    | none => none
/-- A ring whose next entry can be taken now, or that stops. -/
def ringActs (s : State) (k : Nat) : Bool :=
  match s.team? (k / 2 ^ 64) with
  | some t => decide (takeEntry t (k % 2 ^ 64) s ≠ s)
  | none => false
/-- The ring Agate serves next: those with PRIO first, round-robin within each set (R159). -/
def ringTurn (s : State) (core : Nat) : Option Nat :=
  let rs := (ringsOf s core).filter fun (k, _) => ringActs s k
  let hi := (rs.filter (·.2)).map (·.1)
  let set := if hi.isEmpty then rs.map (·.1) else hi
  let last := Assoc.rd 0 s.agateLast (2 * core + b2n (!hi.isEmpty) 0)
  (set.find? fun k => decide (last < k)).orElse fun _ => set.head?
/-- AGATE_RING_TAKE: one entry of the ring, when its turn has come. -/
def agateStep (uid ring : Nat) (s : State) : State :=
  match s.team? uid with
  | none => s
  | some t => if ringTurn s t.core = some (key2 uid ring) then takeEntry t ring s else s
/-- AGATE_RING_TAKE. -/
def execAgateRingTake (team ring : Nat) (s : State) : Out := .next (agateStep team ring s)

/-! ### The transfer (R165 to R172) -/

/-- The indexes of element `m` (R165). -/
def indexesOf : List Nat → Nat → List Nat
  | [], _ => []
  | w :: ws, m => m % w :: indexesOf ws (m / w)
/-- Where an element lies: skipped by its index, a poisoned index, or its coordinates. -/
inductive Place where
  | skip
  | badIndex
  | at_ (xs : List Int)
  deriving DecidableEq, Repr
/-- The coordinates of element `m`. -/
def Copy.place (c : Copy) (m : Nat) : Place :=
  let is := indexesOf c.windows m
  let xs := ((is.zip c.dims).zip (List.range 7)).map fun ((i, (_, _, sm, _)), d) =>
    c.coord d + (if d = 0 && c.units then 128 * i else i * sm : Nat)
  if c.op = 4 ∨ c.op = 5 then
    match c.idx[is.getD 1 0]? with
    | some (some j) => if j = 0xFFFFFFFF then .skip else .at_ (xs.set 1 (c.coord 1 + (j.toNat : Nat)))
    | _ => .badIndex
  else .at_ xs
/-- The element or unit lies inside the array (R165, R167). -/
def Copy.inside (c : Copy) (xs : List Int) : Bool :=
  ((xs.zip c.dims).zip (List.range 7)).all fun ((x, (size, _, _, _)), d) =>
    decide (0 ≤ x ∧ x + (if d = 0 && c.units then 127 else 0) < size)
/-- The displacement of an element from G (R165, R167). -/
def Copy.globalOff (c : Copy) (xs : List Int) : Int :=
  ((xs.zip c.dims).zip (List.range 7)).foldl (fun a ((x, (_, _, _, st)), d) =>
    a + (if d = 0 && c.units then x / 128 * c.gsize else x * st)) 0
/-- A value repeated over the 128 elements of a unit (R69). -/
def splat (b : Nat) (plane : Bool) (v : Nat) : List Byte :=
  if plane then (List.range b).flatMap fun i => List.replicate 16 (if bitAt v i then 0xFF else 0)
  else List.replicate 128 (BitVec.ofNat 8 v)
/-- The canonical NaN of a local type; an e2m1 element is written 0 (R166, R168). -/
def nanOf (t : Nat) : Nat := if t = 6 then 0xFF else (fmtOf t).nanBits
/-- A value as an element or unit of the local box. -/
def Copy.localData (c : Copy) (v : Nat) : List Byte := if c.units then splat c.ebits c.plane v else toBytes c.lsize v
/-- What an out-of-bounds element receives (R166). -/
def Copy.fillData (c : Copy) : List Byte := c.localData (if c.flag 2 then nanOf c.ltype else 0)
/-- Write the same bytes at a displacement of every box. -/
def Copy.putLocal (c : Copy) (t : Team) (x : Int) (bs : List Byte) (s : State) : State :=
  c.box.foldl (fun s a => match shiftAddr a x with
    | some b => (match scratchKey s t b bs.length with | some k => poolWrite s k bs | none => s)
    | none => s) s
/-- The bytes [a, a + n) out of aligned 8-byte words. -/
def wordBytes (ws : Assoc (List Byte)) (a n : Nat) : List Byte :=
  (List.range n).map fun i => ((Assoc.get? ws ((a + i) / 8)).bind fun bs => bs[(a + i) % 8]?).getD 0
/-- The aligned 8-byte words of a range. -/
def wordNos (a n : Nat) : List Nat := (segs 8 a n).map fun (b, _) => b / 8
/-- The words of a source that the element before has not brought (R172). -/
def Copy.fresh (c : Copy) (ws : List Nat) : List Nat := ws.filter fun w => (Assoc.get? c.src w).isNone
/-- Read bytes at a displacement of the box, a word at a time (R172): the bytes and the words they came with; none where
they are poisoned. -/
def Copy.getLocal (c : Copy) (t : Team) (x : Int) (n : Nat) (s : State) : State × Option (List Byte × Assoc (List Byte)) :=
  match (shiftAddr (c.box.headD 0) x).bind fun a => (scratchKey s t a n).map fun k => (a, k) with
  | none => (s, none)
  | some (a, k) =>
    let at_ (w : Nat) : Nat := 8 * w + k - a
    let new := c.fresh (wordNos a n)
    let s' := new.foldl (fun s w => (poolRead s (at_ w) 8).1) s
    if new.any fun w => (poolBad s (at_ w) 8).isSome then (s', none)
    else
      let ws := (wordNos a n).map fun w => (w, (Assoc.get? c.src w).getD (poolBytes s (at_ w) 8))
      (s', some (wordBytes ws a n, ws))
/-- Read bytes at a displacement from GPTR, a word at a time (R172); a register of management space is read by itself
(R439). -/
def Copy.getGlobal (c : Copy) (t : Team) (x : Int) (n : Nat) (s : State) :
    State × Except Stop (List Byte × Assoc (List Byte)) :=
  match engineReach s t.ctx c.gptr x n 1 .read with
  | (s, .error e) => (s, .error e)
  | (s, .ok ps) =>
    if ps.any fun (loc, _, _) => inMgmt loc then
      let (s, bs, p) := engineRead s (coreDie t.core) ps
      (s, if p then .error .poison else .ok (bs, []))
    else
      let a := ((c.gptr % 2 ^ 57 : Nat) + x).toNat
      let placed := (wordNos a n).zip (ps.flatMap fun (loc, ca, m) => (wordNos loc m).map fun w => (8 * w, ca, 8))
      let new := placed.filter fun (w, _) => (Assoc.get? c.src w).isNone
      let (s, bs, p) := engineRead s (coreDie t.core) (new.map (·.2))
      if p then (s, .error .poison)
      else
        let got := (new.zip (List.range new.length)).map fun ((w, _), i) => (w, (bs.drop (8 * i)).take 8)
        let ws := placed.map fun (w, _) => (w, (Assoc.get? c.src w).getD ((Assoc.get? got w).getD []))
        (s, .ok (wordBytes ws a n, ws))
/-- The conversion of an element (R169). -/
def Copy.convertTo (c : Copy) (dt st : Nat) (bs : List Byte) : List Byte :=
  if c.flag 1 then toBytes (cvBits dt / 8) (convert c.rmode.toNat dt st false (ofBytes bs)) else bs
/-- The destination is the local box. -/
def Copy.toLocal (c : Copy) : Bool := [1, 4, 7].contains c.op || (c.op == 6 && c.gptr == 0)
/-- The pointer of a global destination (R163). -/
def Copy.destPtr (c : Copy) : Nat := if c.op = 3 then c.dst else c.gptr
/-- What is written whole: an aligned 8-byte local word, or a global line (R172). -/
def Copy.unitBytes (c : Copy) : Nat := if c.toLocal then 8 else 128
/-- The address, in local memory or in the VA, of a displacement of the destination. -/
def Copy.destAt (c : Copy) (x : Int) : Int := x + ((if c.toLocal then c.box.headD 0 else c.destPtr % 2 ^ 57) : Nat)
/-- The unit of a displacement of the destination. -/
def Copy.unitOf (c : Copy) (x : Int) : Int := c.destAt x / c.unitBytes
/-- Bytes for the destination, cut at its units and staged. -/
def Copy.staged (c : Copy) (m : Nat) (p : Nat × Int × List Byte) : List Staged :=
  let (arr, x, bs) := p
  let o := (c.destAt x % c.unitBytes).toNat
  ((segs c.unitBytes o bs.length).foldl (fun (l, bs) (a, n) =>
    (l ++ [⟨arr, x + ((a : Int) - o), bs.take n, m⟩], bs.drop n)) (([] : List Staged), bs)).1
/-- The scale and spare bytes that unit `m` brings to its destination (R168). -/
def Copy.readScales (c : Copy) (t : Team) (goff : Int) (m : Nat) (s : State) :
    State × Except Stop (List (Nat × Int × List Byte) × Assoc (List Byte)) :=
  (((c.scaleOffs (c.dsc 32)).zip (c.scaleOffs (c.dsc 64))).zip [1, 2]).foldl (init := (s, .ok ([], []))) fun (s, r) ((g, l), arr) =>
    match r with
    | .error e => (s, .error e)
    | .ok (ps, ws) =>
      let gx := g + goff / c.gsize
      if c.toLocal then match c.getGlobal t gx 1 s with
        | (s, .error e) => (s, .error e)
        | (s, .ok (bs, w)) => (s, .ok (ps ++ [(arr, l + m, bs)], ws ++ w))
      else match c.getLocal t (l + m) 1 s with
        | (s, none) => (s, .error .poison)
        | (s, some (bs, w)) => (s, .ok (ps ++ [(arr, gx, bs)], ws ++ w))
/-- The bytes that element `m` brings to its destination, with the displacement of each (R165 to R170), and the source words
the next element need not read again (R172). -/
def Copy.read (c : Copy) (t : Team) (m : Nat) (s : State) :
    State × Except Stop (List (Nat × Int × List Byte) × Assoc (List Byte)) :=
  let lo : Int := (m * c.lsize : Nat)
  let reads := [1, 3, 4, 7].contains c.op
  match c.place m with
  | .skip => (s, .ok ([], c.src))
  | .badIndex => (s, .error .poison)
  | .at_ xs =>
    if !c.inside xs then
      if reads && c.oob = 0 then (s, .ok ((0, lo, c.fillData) ::
        (((c.scaleOffs (c.dsc 64)).zip [1, 2]).map fun (l, i) => (i, l + m, [if i = 1 && c.flag 2 then 0xFF else 0])), c.src))
      else (s, .ok ([], c.src))
    else
      let goff := c.globalOff xs
      let with_ (x : Int) (bs : List Byte) (w : Assoc (List Byte)) (s : State) :
          State × Except Stop (List (Nat × Int × List Byte) × Assoc (List Byte)) :=
        match c.readScales t goff m s with
        | (s, .error e) => (s, .error e)
        | (s, .ok (ps, ws)) => (s, .ok ((0, x, bs) :: ps, w ++ ws))
      if reads then match c.getGlobal t goff c.gsize s with
        | (s, .error e) => (s, .error e)
        | (s, .ok (bs, w)) => with_ lo (c.convertTo c.ltype c.gtype bs) w s
      else if c.op = 6 then
        (s, .ok ([(0, if c.gptr = 0 then lo else goff, c.localData (c.aux % 2 ^ min 32 c.ebits))], []))
      else match c.getLocal t lo c.lsize s with
        | (s, none) => (s, .error .poison)
        | (s, some (bs, w)) => with_ goff (c.convertTo c.gtype c.ltype bs) w s
/-- The destination of an element can be written. -/
def Copy.canWrite (c : Copy) (t : Team) (ps : List (Nat × Int × List Byte)) (s : State) : State × Except Stop Unit :=
  if c.toLocal then (s, .ok ())
  else ps.foldl (init := (s, .ok ())) fun (s, r) (_, x, bs) =>
    match r with
    | .error e => (s, .error e)
    | .ok () => match engineReach s t.ctx c.destPtr x bs.length 1 .write with
      | (s, .error e) => (s, .error e)
      | (s, .ok _) => (s, .ok ())
/-- The runs of bytes present in a list of bytes, with their places. -/
def byteRuns : Nat → List (Option Byte) → List (Nat × List Byte)
  | _, [] => []
  | p, none :: r => byteRuns (p + 1) r
  | p, some b :: r => match byteRuns (p + 1) r with
    | (q, bs) :: l => if q = p + 1 then (p, b :: bs) :: l else (p, [b]) :: (q, bs) :: l
    | [] => [(p, [b])]
/-- What stands for one unit of an array, as runs of bytes; of two bytes for one place the later stands. -/
def Copy.runs (c : Copy) (arr : Nat) (u : Int) : List (Int × List Byte) :=
  let base := u * c.unitBytes - c.destAt 0
  let mine := c.stage.filter fun g => g.arr == arr && c.unitOf g.disp == u
  (byteRuns 0 ((List.range c.unitBytes).map fun (p : Nat) => mine.foldl (fun v g =>
    let i := base + p - g.disp
    if 0 ≤ i then (g.bytes[i.toNat]?).orElse fun _ => v else v) none)).map fun (p, bs) => (base + p, bs)
/-- One unit goes out (R172): a local word at every box, or a global line; the registers of management space (R439) take
each element by itself. -/
def Copy.writeUnit (c : Copy) (t : Team) (arr : Nat) (u : Int) (s : State) : State × Except Stop Unit :=
  let runs := c.runs arr u
  if c.toLocal then (runs.foldl (fun s (x, bs) => c.putLocal t x bs s) s, .ok ())
  else
    let each := (c.stage.filter fun g => g.arr == arr && c.unitOf g.disp == u).map fun g => (g.disp, g.bytes)
    let mgmt := each.any fun (x, bs) => match engineReach s t.ctx c.destPtr x bs.length 1 .write with
      | (_, .ok ps) => ps.any fun (loc, _, _) => inMgmt loc
      | _ => false
    (if mgmt then each else runs).foldl (init := (s, .ok ())) fun (s, r) (x, bs) =>
      match r with
      | .error e => (s, .error e)
      | .ok () => engineStore s t.ctx t.core c.destPtr x 1 bs
/-- The transfer goes back to the first element of a unit that could not go out; it and those after it count as not
written. -/
def Copy.back (c : Copy) (arr : Nat) (u : Int) : Copy :=
  let m := (c.stage.filter fun g => g.arr == arr && c.unitOf g.disp == u).foldl (fun m g => min m g.elem) c.done
  { c with done := m, fail := none, stage := c.stage.filter fun g => decide (g.elem < m) }
/-- Units go out, in order, until one cannot. -/
def Copy.flush (t : Team) : List (Nat × Int) → Copy → State → State × Copy × Except Stop Unit
  | [], c, s => (s, c, .ok ())
  | (arr, u) :: us, c, s => match c.writeUnit t arr u s with
    | (s, .error e) => (s, if e = .hold then c else c.back arr u, .error e)
    | (s, .ok ()) => Copy.flush t us { c with stage := c.stage.filter fun g => !(g.arr == arr && c.unitOf g.disp == u) } s
/-- The units of what is staged. -/
def Copy.unitsOf (c : Copy) (gs : List Staged) : List (Nat × Int) := (gs.map fun g => (g.arr, c.unitOf g.disp)).eraseDups
/-- The element is out of bounds under OOB = 2 (R166). -/
def Copy.outFails (c : Copy) (m : Nat) : Bool :=
  c.oob == 2 && (match c.place m with | .at_ xs => !c.inside xs | _ => false)
/-- Replace a copy. -/
def setCopy (c : Copy) (s : State) : State := { s with copies := s.copies.map fun x => if x.id = c.id then c else x }
/-- A copy by name. -/
def State.copy? (s : State) (id : Nat) : Option Copy := s.copies.find? fun c => c.id == id
/-- The event of the poisoned index word that the next element needs (R165). -/
def Copy.logIndex (c : Copy) (t : Team) (s : State) : State :=
  match localLook s t (c.aux + 4 * (indexesOf c.windows c.done).getD 1 0) 4 1 with
  | .ok (k, _) => logPool c.core k 4 s
  | .error _ => s
/-- A transfer stops at the element it has reached (R173, R174). -/
def Copy.stop (c : Copy) (t : Team) (s : State) : Stop → State
  | .hold => setCopy c s
  | .fault va acc =>
    let (s, ord) := postFault t.ctx va acc (agentOf c.core 1) s
    setCopy { c with susp := some ord } s
  | .bound => setCopy { c with fail := some 0x0A } s
  | .prot => setCopy { c with fail := some 0x09 } s
  | .poison =>
    setCopy { c with fail := some 0x0B } (if c.place c.done = .badIndex then c.logIndex t s else s)
/-- Write what is staged in the given units, then give the copy to `k`. -/
def Copy.emptied (c : Copy) (t : Team) (us : List (Nat × Int)) (s : State) (k : Copy → State → State) : State :=
  match Copy.flush t us c s with
  | (s, c', .ok ()) => k c' s
  | (s, c', .error e) => c'.stop t s e
/-- Move the next element. What is staged for units that it no longer touches goes out first. -/
def moveOne (t : Team) (c : Copy) (s : State) : State :=
  let m := c.done
  if c.outFails m then setCopy { c with fail := some 0x0D } s
  else match c.read t m s with
    | (s, .error e) => c.stop t s e
    | (s, .ok (ps, ws)) => match c.canWrite t ps s with
      | (s, .error e) => c.stop t s e
      | (s, .ok ()) =>
        let left := c.stage.filter fun g => ps.any fun (arr, x, _) => arr == g.arr && c.unitOf x != c.unitOf g.disp
        c.emptied t (c.unitsOf left) s fun c s =>
          setCopy { c with done := m + 1, stage := c.stage ++ ps.flatMap (c.staged m), src := ws } s
/-- A command carries on with its transfer: its next element, or, where all are moved or one has failed, what is still
staged. -/
def copyStep (op id : Nat) (s : State) : State :=
  match s.copy? id with
  | none => s
  | some c => match s.team? c.team with
    | none => s
    | some t =>
      if c.op ≠ op || c.susp.isSome then s
      else if c.fail.isSome || decide (c.count ≤ c.done) then c.emptied t (c.unitsOf c.stage) s setCopy
      else moveOne t c s
/-- CMD_LOAD. -/
def execCmdLoad (id : Nat) (s : State) : Out := .next (copyStep 1 id s)
/-- CMD_STORE. -/
def execCmdStore (id : Nat) (s : State) : Out := .next (copyStep 2 id s)
/-- CMD_GCOPY. -/
def execCmdGcopy (id : Nat) (s : State) : Out := .next (copyStep 3 id s)
/-- CMD_GATHER_ROWS. -/
def execCmdGatherRows (id : Nat) (s : State) : Out := .next (copyStep 4 id s)
/-- CMD_SCATTER_ROWS. -/
def execCmdScatterRows (id : Nat) (s : State) : Out := .next (copyStep 5 id s)
/-- CMD_FILL. -/
def execCmdFill (id : Nat) (s : State) : Out := .next (copyStep 6 id s)
/-- CMD_MCAST_LOAD. -/
def execCmdMcastLoad (id : Nat) (s : State) : Out := .next (copyStep 7 id s)

/-! ### Completion (R173, R174) -/

/-- The failure happened at the take. -/
def takeCode (x : Nat) : Bool := decide (x ≤ 8) || x == 0x0C
/-- Update one local completion object; the Bool tells whether it could be written. -/
def Copy.signal (c : Copy) (t : Team) (a : Nat) (s : State) : State × Bool :=
  let err := c.fail.isSome
  let n := if c.kind = 3 then 80 else if c.kind = 2 then 8 else 16
  match scratchKey s t a n with
  | none => (s, false)
  | some k =>
    if (poolBad s k n).isSome then (logPool c.core k n s, false)
    else
      let s := poolFix s k n
      match c.kind with
      | 1 =>
        let b := barrierAt s k
        (putBarrier k (if (c.fail.map takeCode).getD false then { b with err := true, ovf := true }
          else b.arriveBytes c.bytes err) s, true)
      | 2 => (poolWrite s k (toBytes 8 (c.ordinal.toNat + b2n err 63)), true)
      | _ => match (cbufAt s k).fill (c.slot.getD 0) err with
        | some b => (putCbuf k b s, true)
        | none => (s, true)
/-- A command of a core has completed: Agate considers the rings of its resident teams whose PUB differs from their CONS
(R158). -/
def considerRings (core : Nat) (s : State) : State :=
  { s with rings := s.rings.map fun (k, r) => match s.team? (k / 2 ^ 64) with
      | some t => (k, if t.core = core ∧ poolNat s (ringKey s t (k % 2 ^ 64)) 4 ≠ r.cons.toNat then { r with due := true } else r)
      | none => (k, r) }
/-- A copy is over; an unwritten completion is recorded in its ring. -/
def Copy.finish (c : Copy) (t : Team) (written : Bool) (s : State) : State :=
  let k := ringKey s t c.ring
  let s := match c.fail with
    | some x => if takeCode x then s else ringError k x c.ordinal s
    | none => s
  let s := if written then s else ringError k 0x13 c.ordinal s
  considerRings c.core { s with copies := s.copies.filter fun x => x.id ≠ c.id }
/-- COPY_COMPLETION. -/
def completeStep (id : Nat) (s : State) : State :=
  match s.copy? id with
  | none => s
  | some c => match s.team? c.team with
    | none => s
    | some t =>
      if c.susp.isSome || !c.stage.isEmpty || (c.fail.isNone && decide (c.done < c.count)) then s
      else if c.kind = 2 && !c.flag 4 then
        match translatePtr s t.ctx c.stampPtr 0 8 8 .write with
        | (s, .fault) =>
          let (s, ord) := postFault t.ctx c.stampPtr 1 (agentOf c.core 1) s
          setCopy { c with susp := some ord } s
        | (s, .hold) => s
        | (s, .bad _ _) => c.finish t false s
        | (s, .ok loc ca) =>
          if lineHeld s loc 8 then biSend s loc 8 true
          else
            let (s, _, bad) := engineRead s (coreDie c.core) [(loc, ca, 8)]
            if bad then c.finish t false (logDiscard s loc)
            else c.finish t true (engineWrite s c.core [(loc, ca, 8)]
              (toBytes 8 (c.ordinal.toNat + b2n c.fail.isSome 63)))
      else
        let (s, ok) := c.objs.foldl (fun (s, ok) a => let (s, b) := c.signal t a s; (s, ok && b)) (s, !(c.kind == 3 && c.slot.isNone))
        c.finish t ok s
/-- COPY_COMPLETION. -/
def execCopyCompletion (id : Nat) (s : State) : Out := .next (completeStep id s)
/-- A suspended copy goes on once its fault is answered; a declined one fails, or its completion does (R174, R173). -/
def copyUnpark (id : Nat) (s : State) : State :=
  match s.copy? id with
  | none => s
  | some c => match s.team? c.team, c.susp with
    | some t, some ord => match faultAnswer s t.ctx ord with
      | some true => setCopy { c with susp := none } s
      | some false =>
        if c.fail.isSome || decide (c.count ≤ c.done) then c.finish t false s
        else setCopy { c with susp := none, fail := some 0x09 } s
      | none => s
    | _, _ => s
/-- COPY_RESUME. -/
def execCopyResume (id : Nat) (s : State) : Out := .next (copyUnpark id s)

/-! ### `anot` (R175) -/

/-- `anot`. -/
def anotBody (f : Slk) (e : Env) : Res :=
  let a := e.n32 0 (.op f.s1)
  let bad (s : State) (d v : Nat) : Res := .trap s { cause := 0x05, detail := d, addr := v, acc := 2 }
  match localLook e.st e.team a 16 16 with
  | .error cd => localTrap e.st a 0 2 cd
  | .ok (k, _) =>
    if field a 30 2 ≠ 1 ∨ 64 ≤ a % 2 ^ 21 then bad e.st 0x03 a
    else match poolBad e.st k 16 with
      | some b => .trap (poolRead e.st k 16).1 { cause := 0x0C, addr := a + (b - k), acc := 2 }
      | none =>
        let e := e.fixed k 16
        let d := poolNat e.st k 16
        let log2n := field d 64 4
        let pub := BitVec.ofNat 32 (field d 0 32)
        let used := (pub - BitVec.ofNat 32 (field d 32 32)).toNat
        let free := 2 ^ log2n - used
        let n := e.n32 0 (.op f.s2)
        if log2n = 0 ∨ 8 < log2n then bad e.st 0x04 log2n
        else if free < n then bad e.st 0x04 n
        else
          let s := if n = 0 then e.st
            else ringKick e k 4 (poolWrite e.st k (toBytes 4 (pub + BitVec.ofNat 32 n).toNat))
          .done (writeLong e false (dstWrites f.d 1 0 (free - n)) s)
/-- `anot`. -/
def execAnot (f : Slk) (s : State) : Out :=
  issue (.anot f) f (committing (releasing (fOrd f) (fScope f) (anotBody f))) s

end Sys2Proof.Machine
end

