-- ==== Sys2Proof/Machine/Beryl.lean ====
section
/-! DEFINITION. Beryl: clustering at the write port (R303 to R318). -/

namespace Sys2Proof.Machine

/-! ### Banks (R305, R306) -/

/-- The dimensions of a configuration word. -/
def cfgDim (cfg : Nat) : Nat := 4 * 2 ^ field cfg 0 3
/-- The dimensions of a bank. -/
def Bank.dim (b : Bank) : Nat := cfgDim b.cfg.toNat
/-- The bytes of a record: sums, count, tag (R306). -/
def recBytes (d : Nat) : Nat := 4 * d + 8
/-- CAP for a dimension (R306). -/
def Bank.capFor (b : Bank) (d : Nat) : Nat := b.ways * 131072 / recBytes d
/-- CAP. -/
def Bank.cap (b : Bank) : Nat := b.capFor b.dim
/-- The effective limit (R306). -/
def Bank.limit (b : Bank) : Nat := let l := field b.cfg.toNat 144 16; if l = 0 then b.cap else l
/-- METRIC. -/
def Bank.metric (b : Bank) : Nat := field b.cfg.toNat 3 2
/-- POLICY. -/
def Bank.policy (b : Bank) : Nat := field b.cfg.toNat 5 2
/-- RADIUS. -/
def Bank.radius (b : Bank) : FV := f32v (field b.cfg.toNat 32 32)
/-- A free entry (R306). -/
def BerylEnt.zero : BerylEnt := ⟨[], 0, 0⟩
/-- The live entries with their indexes, ascending (R306). -/
def Bank.live (b : Bank) : Assoc BerylEnt := b.ents.filter fun (_, e) => e.count ≠ 0
/-- Write an entry. -/
def Bank.put (b : Bank) (k : Nat) (e : BerylEnt) : Bank := { b with ents := Assoc.put b.ents k e }
/-- Free an entry. -/
def Bank.drop (b : Bank) (k : Nat) : Bank := { b with ents := Assoc.del b.ents k }
/-- The lowest free index below the limit: neither live nor poisoned (R309, R307). -/
def Bank.free (b : Bank) : Option Nat :=
  (List.range b.limit).find? fun k => !(b.bad.contains k) && ((Assoc.get? b.ents k).getD .zero).count == 0
/-- Every entry zero and unpoisoned (R316). -/
def Bank.cleared (b : Bank) : Bank := { b with ents := [], bad := [], ecc := [], spcnt := 0 }

/-! ### Errors (R307) -/

/-- The entry an 8-byte word lies in, at the bank's dimension. -/
def Bank.entryOf (b : Bank) (word : Nat) : Nat := 8 * word / recBytes b.dim
/-- One entry zero and unpoisoned (R316). -/
def Bank.clearAt (b : Bank) (k : Nat) : Bank :=
  { b.drop k with bad := b.bad.filter (· ≠ k), ecc := b.ecc.filter fun x => b.entryOf x.1 ≠ k }
/-- The words with an error that nothing has met yet. -/
def Bank.words (b : Bank) : List Nat := b.ecc.map (·.1)
/-- Words are read: a single-bit error is corrected, an uncorrectable word poisons its entry (R307). -/
def Bank.resolve (b : Bank) (ws : List Nat) : Bank :=
  let found := b.ecc.filter fun x => ws.contains x.1
  if found.isEmpty then b
  else
    { b with
      ecc := b.ecc.filter fun x => !ws.contains x.1
      bad := (b.bad ++ (found.filter fun x => x.2 ≠ .single).map fun x => b.entryOf x.1).eraseDups }
/-- Both are logged; bank and word as the data of these records is the model's choice (R307, R447, log 29). -/
def countBank (id : Nat) (b : Bank) (ws : List Nat) (s : State) : State :=
  (b.ecc.filter fun x => ws.contains x.1).foldl (init := s) fun s (w, x) =>
    logEvent s (if x = .single then 0x07 else 0x08) (id / 64) (id * 2 ^ 32 + w)
/-- The operation reads no word of the bank. That every other one reads them all is the model's choice (log 29). -/
def BerylOp.writesOnly : BerylOp → Bool
  | .ccfg _ | .cclr _ => true
  | _ => false

/-! ### Arithmetic (R308) -/

/-- Round to f32 under RNE. -/
def r32 (x : FV) : FV := f32v (fround f32 0 false x)
/-- The f32 pattern of a value. -/
def bits32 (x : FV) : Word := BitVec.ofNat 32 (fround f32 0 false x)
/-- A value divided by a positive number, rounded. -/
def divCount (x : FV) (n : Nat) : FV :=
  match x with
  | .num neg m e =>
    let q := m * 2 ^ 64
    if m = 0 || n = 0 then .num neg 0 0
    else f32v (froundM f32 0 false neg (q / n) (e - 64) (q % n != 0))
  | y => y
/-- The centroid of an entry. -/
def BerylEnt.centroid (e : BerylEnt) : List FV := e.sum.map fun s => divCount (f32v s.toNat) e.count.toNat
/-- One dimension's share of a distance. -/
def distTerm (metric : Nat) (x c : FV) : FV :=
  match metric with
  | 0 => let t := r32 (fsum false [x, c.neg]); r32 (t.mul t)
  | 1 => (r32 (fsum false [x, c.neg])).abs
  | _ => r32 (x.mul c)
/-- The distance of two vectors. -/
def dist (metric : Nat) (xs cs : List FV) : FV :=
  let acc := (xs.zip cs).foldl (fun a (x, c) => r32 (fsum false [a, distTerm metric x c])) (.num false 0 0)
  if metric = 2 then acc.neg else acc
/-- One value lies below another. -/
def fless (x y : FV) : Bool := fcmp x y == some .lt
/-- The smallest distance of a list, the first on a tie; NaN takes no part. -/
def nearestOf {α : Type} : List (α × FV) → Option (α × FV)
  | [] => none
  | (k, d) :: l => match nearestOf l with
    | none => if d.isNan then none else some (k, d)
    | some (j, e) => if d.isNan || fless e d then some (j, e) else some (k, d)
/-- The nearest entry to a vector among those that `ok` accepts (R309). -/
def Bank.nearest (b : Bank) (ok : BerylEnt → Bool) (x : List FV) : Option (Nat × FV) :=
  nearestOf ((b.live.filter fun (k, e) => !b.bad.contains k && ok e).map fun (k, e) => (k, dist b.metric x e.centroid))
/-- The distance lies within the radius. -/
def Bank.within (b : Bank) (d : FV) : Bool := match fcmp d b.radius with | some o => o != .gt | none => false
/-- The result word (R311). -/
def resultWord (status index : Nat) : Nat := index % 2 ^ 16 + status * 2 ^ 16
/-- A component is NaN or infinite. -/
def badVector (x : List FV) : Bool := x.any fun v => match v with | .num _ _ _ => false | _ => true
/-- Add two words as f32. -/
def addSum (a b : Word) : Word := bits32 (fsum false [f32v a.toNat, f32v b.toNat])

/-! ### Merging (R312) -/

/-- The eligible pairs with their distances, in lexicographic order. -/
def pairsOf (metric : Nat) : List (Nat × List FV) → List ((Nat × Nat) × FV)
  | [] => []
  | (i, c) :: l => (l.map fun (j, d) => ((i, j), dist metric c d)) ++ pairsOf metric l
/-- Merge the closest pair: the new bank and the pair. -/
def Bank.merge (b : Bank) : Option (Bank × Nat × Nat) :=
  let es := (b.live.filter fun (k, _) => !b.bad.contains k).map fun (k, e) => (k, e.centroid)
  match nearestOf (pairsOf b.metric es) with
  | none => none
  | some ((i, j), _) =>
    let x := (Assoc.get? b.ents i).getD .zero
    let y := (Assoc.get? b.ents j).getD .zero
    let z : BerylEnt := ⟨(x.sum.zip y.sum).map fun (a, c) => addSum a c,
      BitVec.ofNat 32 (min (x.count.toNat + y.count.toNat) 0xFFFFFFFF), x.tag⟩
    some ((b.put i z).drop j, i, j)

/-! ### Records in global memory (R310, R313, R318) -/

/-- The bytes of a record. -/
def BerylEnt.bytes (e : BerylEnt) : List Byte :=
  e.sum.flatMap (fun w => toBytes 4 w.toNat) ++ toBytes 4 e.count.toNat ++ toBytes 4 e.tag.toNat
/-- How a record's write ends: written, held up, not resident at a VA, or not possible. -/
inductive RecEnd where
  | done | hold | fault (va : Nat) | fail
  deriving DecidableEq, Repr
/-- An operation of the group issued before `p` may still write one of the bytes: the record follows it, as a store of the
group would (R313, R379). -/
def recordAfter (s : State) (p : Pend) (loc n : Nat) : Bool :=
  (s.pend.any fun q => decide (q.id < p.id) && q.owner == p.owner && q.touches s loc n) ||
    listBefore s p.owner (some p.id) true loc n
/-- Write a record of operation `p` at `ptr + disp` at its home, dropping the core's L1 copies (R313). -/
def writeRecord (s : State) (p : Pend) (ptr disp : Nat) (bs : List Byte) (poison : Bool) : State × RecEnd :=
  match translateRange s p.ctx ptr disp bs.length 8 .write with
  | (s, .error (va, .fault)) => (s, .fault va)
  | (s, .error (_, .hold)) => (s, .hold)
  | (s, .error _) => (s, .fail)
  | (s, .ok ps) =>
    if ps.any fun (loc, _, n) => recordAfter s p loc n then (s, .hold)
    else if ps.any fun (loc, _, n) => lineHeld s loc n then
      (ps.foldl (fun s (loc, _, n) => biSend s loc n true) s, .hold)
    else
      let go (sb : State × List Byte) (x : Nat × Nat × Nat) : State × List Byte :=
        let (s, bs) := sb
        let (loc, _, n) := x
        let s := spaceWrite (hostPast (l1DropRange p.core loc n s) loc n) loc (bs.take n)
        (if poison then homePoison s loc n else s, bs.drop n)
      ((ps.foldl go (s, bs)).1, .done)

/-! ### Insertion (R309, R310) -/

/-- One vector is inserted: the result word, or none while a spill write is held up. -/
def insertOne (p : Pend) (s : State) (b : Bank) (xs : List Word) (tag : Word) : State × Bank × Option Nat :=
  let x := xs.map fun w => f32v w.toNat
  let fresh (b : Bank) (k : Nat) : Bank := b.put k ⟨xs, 1, tag⟩
  let reject := resultWord 2 0xFFFF
  if badVector x then (s, b, some reject)
  else
    let near := b.nearest (fun e => e.count != 0xFFFFFFFF) x
    match near.filter fun (_, d) => b.within d with
    | some (k, _) =>
      let e := (Assoc.get? b.ents k).getD .zero
      (s, b.put k { e with sum := (e.sum.zip xs).map fun (a, c) => addSum a c, count := e.count + 1 },
        some (resultWord 1 k))
    | none => match b.free with
      | some k => (s, fresh b k, some (resultWord 0 k))
      | none => match b.policy with
        | 1 => match b.merge with
          | some (b', _, j) => (s, fresh b' j, some (resultWord 0 j))
          | none => (s, b, some reject)
        | 2 =>
          if field b.cfg.toNat 128 16 ≤ b.spcnt then (s, b, some reject)
          else match writeRecord s p (field b.cfg.toNat 64 64) (b.spcnt * recBytes b.dim)
              (BerylEnt.bytes ⟨xs, 1, tag⟩) false with
            | (s, .done) => (s, { b with spcnt := b.spcnt + 1 }, some (resultWord 3 b.spcnt))
            | (s, .hold) => (s, b, none)
            | (s, _) => (s, b, some reject)
        | _ => (s, b, some reject)
/-- The lanes of `cins` in order; while one is held up, none takes effect but the snoops its write has sent. -/
def insertAll (p : Pend) : State → Bank → List (Nat × Word × List Word) →
    Except (List (Nat × Bool)) (State × Bank × List (Nat × Nat))
  | s, b, [] => .ok (s, b, [])
  | s, b, (l, tag, x) :: ls => match insertOne p s b x tag with
    | (s, _, none) => .error s.biOut
    | (s, b, some r) => match insertAll p s b ls with
      | .error o => .error o
      | .ok (s, b, rs) => .ok (s, b, (l, r) :: rs)
/-- `cnear` of one vector: result word and distance bits (R316). -/
def nearOne (b : Bank) (xs : List Word) : Nat :=
  let x := xs.map fun w => f32v w.toNat
  if badVector x then resultWord 2 0xFFFF + f32.nanBits * 2 ^ 32
  else match b.nearest (fun _ => true) x with
    | none => resultWord 6 0xFFFF + f32.nanBits * 2 ^ 32
    | some (k, d) => resultWord (if b.within d then 4 else 5) k + (bits32 d).toNat * 2 ^ 32

/-! ### At the bank (R313) -/

/-- A vector of the bank's dimension: components that were not read at issue are free values (log 6). -/
def padVec (fresh d : Nat) (x : List Word) : List Word :=
  x.take d ++ (List.range (d - x.length)).map fun i => Config.freeWord (fresh + i)
/-- Replace a bank. -/
def setBank (id : Nat) (b : Bank) (s : State) : State := { s with beryl := Assoc.put s.beryl id b }
/-- An operation is performed: D is written. -/
def berylDone (p : Pend) (ws : List RegWrite) (s : State) : State := fillRegs p.owner ws (unpost p.id s)
/-- The entries a dump still has to write, ascending: live or poisoned. -/
def Bank.dumpFrom (b : Bank) (next : Nat) : List Nat :=
  (List.range b.limit).filter fun k => decide (next ≤ k) &&
    (b.bad.contains k || ((Assoc.get? b.ents k).getD .zero).count != 0)
/-- A dump writes records until it ends, is held up, or is suspended (R318). -/
def dumpRun (p : Pend) (bank : Nat) (b : Bank) (ptr : DWord) (n dst : Nat) : Nat → List Nat → State → State
  | done, [], s => berylDone p [⟨⟨.s, dst, 0⟩, BitVec.ofNat 32 done⟩] s
  | done, k :: ks, s =>
    if n ≤ done then berylDone p [⟨⟨.s, dst, 0⟩, BitVec.ofNat 32 done⟩] s
    else
      let e := (Assoc.get? b.ents k).getD .zero
      let bs := (BerylEnt.bytes { e with sum := e.sum ++ List.replicate (b.dim - e.sum.length) 0 })
      let here (susp : Option Nat) : PendKind := .beryl p.ctx bank (.cdump ptr n dst done k true susp)
      match writeRecord s p ptr.toNat (done * recBytes b.dim) bs (b.bad.contains k) with
      | (s, .done) => dumpRun p bank b ptr n dst (done + 1) ks s
      | (s, .hold) => setPend p.id (here none) s
      | (s, .fault va) =>
        let (s, ord) := postFault p.ctx va 1 (agentOf p.core 6) s
        setPend p.id (here (some ord)) s
      | (s, .fail) => berylDone p [⟨⟨.s, dst, 0⟩, BitVec.ofNat 32 (done + 0x80000000)⟩] s
/-- A dump that has begun on the bank (R313: nothing falls between its steps). -/
def dumping (s : State) (bank id : Nat) : Bool := s.pend.any fun q => q.id != id && (match q.kind with
  | .beryl _ k (.cdump _ _ _ _ _ begun _) => k == bank && begun
  | _ => false)
/-- Perform an operation on a bank that is there. -/
def bankPerform (p : Pend) (bank : Nat) (b : Bank) (op : BerylOp) (s : State) : State :=
  let bump (s : State) : State := { s with fresh := s.fresh + 64 * 128 }
  match op with
  | .ccfg cfg => berylDone p [] (setBank bank { b.cleared with cfg := cfg, configured := true } s)
  | .cins lanes dst =>
    let lanes := lanes.map fun (l, t, x) => (l, t, padVec (s.fresh + 64 * l) b.dim x)
    match insertAll p (bump s) b lanes with
    | .error o => { s with biOut := o }
    | .ok (s, b, rs) =>
      berylDone p (match dst with
        | some d => rs.map fun (l, r) => ⟨⟨.v, d, l⟩, BitVec.ofNat 32 r⟩
        | none => []) (setBank bank b s)
  | .cnear lanes dst =>
    berylDone p (lanes.flatMap fun (l, x) =>
      dstWrites (.v (BitVec.ofNat 8 dst)) 2 l (nearOne b (padVec (s.fresh + 64 * l) b.dim x))) (bump s)
  | .cmrg dst =>
    let (b, r) := match b.merge with
      | some (b, i, j) => (b, i + j * 2 ^ 16)
      | none => (b, 0xFFFFFFFF)
    berylDone p (match dst with | some d => [⟨⟨.s, d, 0⟩, BitVec.ofNat 32 r⟩] | none => []) (setBank bank b s)
  | .cclr none => berylDone p [] (setBank bank b.cleared s)
  | .cclr (some k) => berylDone p [] (setBank bank (b.clearAt k) s)
  | .cdump ptr n dst done next _ susp =>
    if susp.isSome then s else dumpRun p bank b ptr n dst done (b.dumpFrom next) s
/-- The results of an operation whose bank is no longer there: free values (log 6). -/
def lostResults (fresh : Nat) (op : BerylOp) : List RegWrite :=
  let w (k : Nat) : Word := Config.freeWord (fresh + k)
  match op with
  | .cins lanes (some d) => lanes.map fun (l, _, _) => ⟨⟨.v, d, l⟩, w l⟩
  | .cnear lanes d => lanes.flatMap fun (l, _) => [⟨⟨.v, d, l⟩, w l⟩, ⟨⟨.v, d + 1, l⟩, w (128 + l)⟩]
  | .cmrg (some d) => [⟨⟨.s, d, 0⟩, w 0⟩]
  | .cdump _ _ d _ _ _ _ => [⟨⟨.s, d, 0⟩, w 0⟩]
  | _ => []
/-- Perform a posted operation, in the order R313 gives. -/
def berylStep (id : Nat) (s : State) : State :=
  match s.pend? id with
  | none => s
  | some p => match p.kind with
    | .beryl _ bank op =>
      let earlier := s.pend.any fun q => decide (q.id < id) && q.owner == p.owner && (match q.kind with
        | .beryl _ k _ => k == bank
        | _ => false)
      if earlier || dumping s bank id then s
      else match Assoc.get? s.beryl bank with
        | some b => if op.writesOnly then bankPerform p bank b op s else bankPerform p bank (b.resolve b.words) op
            (setBank bank (b.resolve b.words) (countBank bank b b.words s))
        | none => berylDone p (lostResults s.fresh op) { s with fresh := s.fresh + 256 }
    | _ => s
/-- BERYL_PERFORM. -/
def execBerylPerform (id : Nat) (s : State) : Out := .next (berylStep id s)
/-- A suspended dump goes on once its fault is answered; a declined one ends at its record (R318). -/
def dumpResume (id : Nat) (s : State) : State :=
  match s.pend? id with
  | none => s
  | some p => match p.kind with
    | .beryl c bank (.cdump ptr n dst done next b (some ord)) => match faultAnswer s p.ctx ord with
      | some true => setPend id (.beryl c bank (.cdump ptr n dst done next b none)) s
      | some false => berylDone p [⟨⟨.s, dst, 0⟩, BitVec.ofNat 32 (done + 0x80000000)⟩] s
      | none => s
    | _ => s
/-- CDUMP_RESUME. -/
def execCdumpResume (id : Nat) (s : State) : Out := .next (dumpResume id s)

/-! ### At issue (R304, R313 to R316) -/

/-- The bank id an instruction names. -/
def Env.bankId (e : Env) (f : Slk) : Nat := e.n32 0 (.op f.s4)
/-- Rows 1 and 2 of R304, then row 3 unless `fresh`. -/
def bankCheck (e : Env) (f : Slk) (fresh : Bool) : Except Res Bank :=
  let id := e.bankId f
  if 256 ≤ id then .error (.trap e.st { cause := 0x05, detail := 0x04, addr := id })
  else match Assoc.get? e.st.beryl id with
    | none => .error (.trap e.st { cause := 0x06, detail := 0x06, addr := id })
    | some b =>
      if !e.ctx.bgrant.getLsbD id then .error (.trap e.st { cause := 0x06, detail := 0x06, addr := id })
      else if !fresh && !b.configured then .error (.trap e.st { cause := 0x05, detail := 0x04, addr := id })
      else .ok b
/-- The waits at issue: earlier remote stores (R313), 64 outstanding operations (R314), and, for what the instruction
needs to know of its bank, the group's earlier operations on it. -/
def berylWaits (e : Env) (f : Slk) (all : Bool) : Bool :=
  let core := e.core
  (e.st.pend.any fun p => p.owner == e.gid && (match p.kind with
    | .rstl _ _ => true
    | .beryl _ k op => k == e.bankId f && (all || (match op with | .ccfg _ => true | _ => false))
    | _ => false)) ||
  decide (64 ≤ e.st.pend.countP fun p => p.core == core && (match p.kind with | .beryl _ _ _ => true | _ => false))
/-- Post an operation and mark its destination empty. -/
def postBeryl (e : Env) (f : Slk) (op : BerylOp) (ds : List RegDst) (s : State) : Res :=
  .done (post e.gid e.team.ctx e.core (.beryl e.team.ctx (e.bankId f) op) (modGroup e.gid (Group.marks true ds) s))
/-- A Beryl instruction: early service, the region committed, the waits, the bank. -/
def berylBody (f : Slk) (fresh all : Bool) (body : Bank → Env → Res) : Env → Res :=
  inService (committing fun e =>
    if berylWaits e f all then .wait e.st .retry
    else match bankCheck e f fresh with
      | .error r => r
      | .ok b => body b e)

/-- The first byte of a configuration record that R305 makes invalid. -/
def cfgInvalid (b : Bank) (cfg : Nat) : Option Nat :=
  let byte (k : Nat) : Bool := field cfg (8 * k) 8 != 0
  (List.range 32).find? fun k => match k with
    | 0 => decide (4 < field cfg 0 3) || field cfg 3 2 == 3 || field cfg 5 2 == 3 || bitAt cfg 7
    | 1 | 2 | 3 => byte k
    | 4 => (f32v (field cfg 32 32)).isNan
    | 8 => field cfg 5 2 == 2 && field cfg 64 3 != 0
    | 18 => decide (b.capFor (cfgDim cfg) < field cfg 144 16)
    | k => decide (20 ≤ k) && byte k
/-- `ccfg`. -/
def ccfgBody (f : Slk) (b : Bank) (e : Env) : Res :=
  let base := e.gbase f.s1
  match loadRange e base (e.offset 0 f.s2) 32 8 e.st with
  | .error r => faultOutside e r
  | .ok (s, bs) => match cfgInvalid b (ofBytes bs) with
    | some k => .trap s { cause := 0x05, detail := 0x04, addr := ofSigned 64 (base.va (e.offset 0 f.s2) + k) }
    | none => postBeryl e f (.ccfg (BitVec.ofNat 256 (ofBytes bs))) [] s
/-- `ccfg`. -/
def execCcfg (f : Slk) (s : State) : Out := issue (.ccfg f) f (berylBody f true false (ccfgBody f)) s

/-- The local vectors of the active lanes (R315): the lane and its D words, or the trap. -/
def vectors (e : Env) (f : Slk) (d : Nat) : Except Res (State × List (Nat × List Word)) :=
  let rec go : List Nat → Except Res (List (Nat × Nat × Nat × Nat))
    | [] => .ok []
    | l :: ls =>
      let a := e.localAddr f 0 l
      match scratchLook e.st e.team a (4 * d) 16 with
      | .error cd => .error (localTrap e.st a l 0 cd)
      | .ok (k, core) => match go ls with
        | .error r => .error r
        | .ok xs => .ok ((l, a, k, core) :: xs)
  match go e.lanes with
  | .error r => .error r
  | .ok xs =>
    let s := poolTouch e.st (4 * d) xs
    match laneBad e.st (4 * d) xs with
    | some (l, a) => .error (.trap s { cause := 0x0C, addr := a, lane := l })
    | none => .ok (s, xs.map fun (l, _, k, _) =>
        (l, (List.range d).map fun i => BitVec.ofNat 32 (poolNat s (k + 4 * i) 4)))
/-- `cins`. -/
def cinsBody (f : Slk) (b : Bank) (e : Env) : Res :=
  match vectors e f b.dim with
  | .error r => r
  | .ok (s, xs) =>
    let dst := if f.d = .none then none else some (opNum f.d)
    postBeryl e f (.cins (xs.map fun (l, x) => (l, BitVec.ofNat 32 (e.val 2 l (.op f.s3)), x)) dst)
      (match dst with | some d => xs.map fun (l, _) => ⟨.v, d, l⟩ | none => []) s
/-- `cins`. -/
def execCins (f : Slk) (s : State) : Out := issue (.cins f) f (berylBody f false false (cinsBody f)) s
/-- `cnear`. -/
def cnearBody (f : Slk) (b : Bank) (e : Env) : Res :=
  match vectors e f b.dim with
  | .error r => r
  | .ok (s, xs) =>
    postBeryl e f (.cnear xs (opNum f.d))
      (xs.flatMap fun (l, _) => [⟨.v, opNum f.d, l⟩, ⟨.v, opNum f.d + 1, l⟩]) s
/-- `cnear`. -/
def execCnear (f : Slk) (s : State) : Out := issue (.cnear f) f (berylBody f false false (cnearBody f)) s
/-- `cmrg`. -/
def cmrgBody (f : Slk) (_ : Bank) (e : Env) : Res :=
  if f.d = .none then postBeryl e f (.cmrg none) [] e.st
  else postBeryl e f (.cmrg (some (opNum f.d))) [⟨.s, opNum f.d, 0⟩] e.st
/-- `cmrg`. -/
def execCmrg (f : Slk) (s : State) : Out := issue (.cmrg f) f (berylBody f false false (cmrgBody f)) s

/-- The word a selector of `crd` reads, and the entry it lies in; none for an invalid selector (R317). -/
def Bank.select (b : Bank) (sel : Nat) : Option (Nat × Option Nat) :=
  let k := field sel 0 16
  let w := field sel 16 7
  let d := b.dim
  if 2 ^ 23 ≤ sel then none
  else if k < b.limit && w < d + 2 then
    let e := (Assoc.get? b.ents k).getD .zero
    some (if w < d then ((e.sum[w]?).getD 0).toNat else if w = d then e.count.toNat else e.tag.toNat, some k)
  else if k = 0xFFFF then
    match w with
    | 0 => some (b.cfg.toNat % 2 ^ 31 + (if b.configured then 2 ^ 31 else 0), none)
    | 1 => some (field b.cfg.toNat 32 32, none)
    | 2 => some (b.cap, none)
    | 3 => some (b.limit, none)
    | 4 => some (b.live.length, none)
    | 5 => some (b.spcnt, none)
    | _ => none
  else none
/-- The 8-byte word of the bank that a valid selector reads, if it reads an entry. -/
def Bank.selWord (b : Bank) (sel : Nat) : Option Nat :=
  match b.select sel with
  | some (_, some k) => some ((k * recBytes b.dim + 4 * field sel 16 7) / 8)
  | _ => none
/-- `crd` is performed at issue, after the group's earlier operations on the bank, so that its trap is precise (log 2). -/
def crdBody (f : Slk) (b : Bank) (e : Env) : Res :=
  let sel (l : Nat) : Nat := e.n32 l (.op f.s2)
  if !b.configured && e.lanes.any fun l => field (sel l) 0 16 != 0xFFFF then
    .trap e.st { cause := 0x05, detail := 0x04, addr := e.bankId f }
  else if dumping e.st (e.bankId f) 0 then .wait e.st .retry
  else match e.lanes.find? fun l => (b.select (sel l)).isNone with
    | some l => .trap e.st { cause := 0x05, detail := 0x04, addr := sel l, lane := l }
    | none =>
      let ws := e.lanes.filterMap fun l => b.selWord (sel l)
      let s := if b.ecc.isEmpty then e.st else setBank (e.bankId f) (b.resolve ws) (countBank (e.bankId f) b ws e.st)
      match e.lanes.find? fun l => match b.select (sel l) with
        | some (_, some k) => (b.resolve ws).bad.contains k
        | _ => false with
      | some l => .trap s { cause := 0x0C, lane := l }
      | none => .done (writeLong e false (e.lanes.map fun l =>
          ⟨⟨.v, opNum f.d, l⟩, BitVec.ofNat 32 ((b.select (sel l)).getD (0, none)).1⟩) s)
/-- `crd`. -/
def execCrd (f : Slk) (s : State) : Out := issue (.crd f) f (berylBody f true true (crdBody f)) s
/-- `cclr`. -/
def cclrBody (f : Slk) (b : Bank) (e : Env) : Res :=
  if f.s2 = .none then postBeryl e f (.cclr none) [] e.st
  else
    let k := e.n32 0 (.op f.s2)
    if b.limit ≤ k then .trap e.st { cause := 0x05, detail := 0x04, addr := k }
    else postBeryl e f (.cclr (some k)) [] e.st
/-- `cclr`. -/
def execCclr (f : Slk) (s : State) : Out := issue (.cclr f) f (berylBody f false false (cclrBody f)) s
/-- `cdump`. -/
def cdumpBody (f : Slk) (_ : Bank) (e : Env) : Res :=
  let base := e.gbase f.s1
  let va := base.va (e.offset 0 f.s2)
  if (match base with | .rec_ r => !r.valid | _ => false) then
    .trap e.st { cause := 0x05, detail := 0x02, acc := 1 }
  else if va < 0 || (2 ^ 57 : Int) ≤ va then .trap e.st { cause := 0x05, detail := 0x02, addr := ofSigned 64 va, acc := 1 }
  else if va % 8 ≠ 0 then .trap e.st { cause := 0x07, addr := ofSigned 64 va, acc := 1 }
  else
    let ptr := base.pointer / 2 ^ 57 * 2 ^ 57 + va.toNat
    postBeryl e f (.cdump (BitVec.ofNat 64 ptr) (e.n32 0 (.op f.s3)) (opNum f.d) 0 0 false none) [⟨.s, opNum f.d, 0⟩] e.st
/-- `cdump`. -/
def execCdump (f : Slk) (s : State) : Out := issue (.cdump f) f (berylBody f false false (cdumpBody f)) s

end Sys2Proof.Machine
end

