-- ==== Sys2Proof/Machine/GlobalMem.lean ====
section
/-! DEFINITION. Global loads and stores (R106, R131 to R136), `bset` (R126 to R130), and `rgn` (R401, R402). -/

namespace Sys2Proof.Machine

/-! ### Loads -/

/-- Read the lanes of a load in ascending order (R132, R133): management space at its block (R439), memory through the
caches under the region's buffer; the first poisoned lane stops with its address (R87). -/
def loadLanes (e : Env) (f : Slk) (ch : Nat) : State → List LaneAcc → State × Except (Nat × Nat) (List RegWrite)
  | s, [] => (s, .ok [])
  | s, x :: xs =>
    let n := szBytes f
    let (s, bs, p) := loadBytes e ch x n s
    if p then (s, .error (x.va, x.lane))
    else match loadLanes e f ch s xs with
      | (s, .error r) => (s, .error r)
      | (s, .ok ws) =>
        (s, .ok (dstWrites f.d (szRegs (fSz f)) x.lane (loadExt f (ofBytes (forwarded e.grp x.loc bs))) ++ ws))
/-- A load of resolved lanes: wait, trap UE, or post the destination (R36, R261, R379). -/
def loadResolved (e : Env) (f : Slk) (ch : Nat) (s : State) (xs : List LaneAcc) : Res :=
  let n := szBytes f
  if xs.any fun x => loadWaits e s ch x n || listBlocks e s false x.loc n then
    .wait (xs.foldl (fun s x => biSend s x.loc n false) s) .retry
  else match loadLanes e f ch s xs with
    | (t, .error (va, l)) => .trap t { cause := 0x0C, addr := va, lane := l }
    | (t, .ok ws) => .done (writeLong e e.grp.region.isSome ws (afterLoad e.core ch s (xs.map fun x => (x, n)) t))
/-- The displacement of a lane: offset and DISP10 scaled by the size (R132). -/
def Env.globalDisp (e : Env) (f : Slk) (l : Nat) : Int := e.offset l f.s2 + fDisp10 f * szBytes f
/-- `ldg`. -/
def ldgBody (f : Slk) (e : Env) : Res :=
  let n := szBytes f
  match resolveGlobal e (e.gbase f.s1) (e.globalDisp f) n n .read allowAll e.st (e.memLanes f) with
  | .error r => r
  | .ok (s, xs) => loadResolved e f f.ch.toNat s xs
/-- An acquiring `ldg` commits the open region first (R136). -/
def ldgOrd (f : Slk) (e : Env) : Res :=
  if fOrd f = 1 then committing (acquiring 1 (fScope f) (ldgBody f)) e else ldgBody f e
/-- `ldg`. -/
def execLdg (f : Slk) (s : State) : Out := issue (.ldg f) f (ldgOrd f) s

/-- The lanes of an `ldc`: the argument block's limit before the other checks of each lane (R132, R450). -/
def resolveArgs (e : Env) (f : Slk) : State → List Nat → Except Res (State × List LaneAcc)
  | s, [] => .ok (s, [])
  | s, l :: ls =>
    let n := szBytes f
    let x := e.globalDisp f l
    if x < 0 || (e.team.argSize : Int) < x + n then
      .error (.trap s { cause := 0x05, detail := 0x05, addr := ofSigned 64 x, lane := l })
    else match resolveGlobal e (.ptr e.team.argBase.toNat) (fun _ => x) n n .read allowAll s [l] with
      | .error r => .error r
      | .ok (s, y) => match resolveArgs e f s ls with
        | .error r => .error r
        | .ok (s, ys) => .ok (s, y ++ ys)
/-- `ldc`: an `ldg` of the argument block at keep priority (R134). -/
def ldcBody (f : Slk) (e : Env) : Res :=
  match resolveArgs e f e.st (e.memLanes f) with
  | .error r => r
  | .ok (s, xs) => loadResolved e f 2 s xs
/-- `ldc`. -/
def execLdc (f : Slk) (s : State) : Out := issue (.ldc f) f (ldcBody f) s

/-! ### Stores -/

/-- `stg`: written through, or held in the open region's buffer (R106, R403); hints have no effect on an uncached page
(R109). -/
def stgBody (f : Slk) (e : Env) : Res :=
  let n := szBytes f
  match resolveGlobal e (e.gbase f.s1) (e.globalDisp f) n n .write allowAll e.st (e.memLanes f) with
  | .error r => r
  | .ok (s, xs) =>
    if xs.any fun x => listBlocks e s true x.loc n then .wait s .retry
    else putStores e (xs.map fun x =>
      ⟨x.loc, x.va, BitVec.ofNat 2 x.ca, if x.ca = 0 then f.ch else 0, false, false, e.storeBytes f x.lane⟩) xs s
/-- A releasing `stg` commits the open region first (R136). -/
def stgOrd (f : Slk) (e : Env) : Res :=
  if fOrd f = 2 then committing (releasing 2 (fScope f) (stgBody f)) e else stgBody f e
/-- `stg`. -/
def execStg (f : Slk) (s : State) : Out := issue (.stg f) f (stgOrd f) s

/-- An earlier posted operation that a store must follow: one of its group to a byte it writes, a store of its core to
such a byte (R379), and of uncached host stores of its group every earlier one (R388). -/
def storeAfter (s : State) (p : Pend) (st : Store) : Bool :=
  let host (x : Store) : Bool := isHost x.loc && x.ca != 0
  s.pend.any fun q => decide (q.id < p.id) && (match q.kind with
    | .store x => (q.core == p.core && overlap x.loc x.data.length st.loc st.data.length) ||
        (q.owner == p.owner && host x && host st)
    | _ => q.owner == p.owner && q.touches s st.loc st.data.length)
/-- A store is accepted where it goes (R106, R439): management space acts on it, a scatter to a poisoned sector is
discarded (R272), and the media half of `.wt` is posted (R109). -/
def acceptAt (p : Pend) (st : Store) (s : State) : State :=
  if inMgmt st.loc then mgmtWrite st.loc st.data.length (ofBytes st.data) s
  else if st.scat then
    let (s, _, bad) := sliceRead s (coreDie p.core) st.loc st.data.length st.ca.toNat
    if bad then logDiscard s st.loc else acceptStore s p.core st
  else
    let s := acceptStore s p.core st
    if st.ch = 5 ∧ isDev st.loc then post p.owner p.ctx p.core (.media st.loc st.data.length) s else s
/-- A posted store reaches its cache level, when its turn has come and no home holds its line; a host that holds the line is
asked for it (R443). -/
def storeStep (id : Nat) (s : State) : State :=
  match s.pend? id with
  | none => s
  | some p => match p.kind with
    | .store st =>
      if (if st.scat then mustWait s p.owner (some id) st.loc st.data.length else false) || storeAfter s p st then s
      else if !st.toRdc (coreDie p.core) && lineHeld s st.loc st.data.length then biSend s st.loc st.data.length true
      else acceptAt p st (unpost id s)
    | _ => s
/-- STORE_CACHE_LEVEL_ACCEPT. -/
def execStoreCacheLevelAccept (id : Nat) (s : State) : Out := .next (storeStep id s)

/-! ### `bset` -/

/-- The page of a VA as `bset` sees it: the entry's address, the entry and its level; none where it is unmapped, not
readable, refused, or kept for regions. -/
def basePage (s : State) (c rid va : Nat) : State × Option (Option (Nat × Nat × Nat)) :=
  match walkFrom 4 s (s.ctx c).ptRoot.toNat va with
  | (s, .leaf a e l) =>
    (s, some (if leafRefused s c e l || !bitAt e 1 || (rid == 0 && bitAt e 6) then none else some (a, e, l)))
  | (s, .hold) => (s, none)
  | (s, _) => (s, some none)
/-- The location, permissions, attribute and D of a page at a VA. -/
def pageAttrs (e l va : Nat) : Nat × Nat × Nat × Bool :=
  (field e 48 8 * 2 ^ 48 + field e 12 36 * 4096 + va % 2 ^ pageBits e l, field e 1 3, field e 9 2, bitAt e 5)
/-- The rest of a run from its byte `r` (R127): A is set in the entries it covers, and `dw` tells whether all had D. -/
def runFrom (c rid va loc perm ca limit : Nat) : Nat → State → Nat → Bool → State × Option (Nat × Bool)
  | 0, s, r, dw => (s, some (r, dw))
  | k + 1, s, r, dw =>
    if limit ≤ r then (s, some (limit, dw))
    else match basePage s c rid (va + r) with
      | (s, none) => (s, none)
      | (s, some none) => (s, some (r, dw))
      | (s, some (some (a, e, l))) =>
        let (x, p, ca', d) := pageAttrs e l (va + r)
        if x ≠ loc + r ∨ p ≠ perm ∨ ca' ≠ ca then (s, some (r, dw))
        else
          let step := if l = 0 then 12 else pageBits e l
          let next := ((va + r) / 2 ^ step + 1) * 2 ^ step - va
          runFrom c rid va loc perm ca limit k (markLeaf s a e false) next (dw && d)
/-- BOUND (R126, R127). -/
def baseBound (s : State) (c rid va : Nat) : State × Nat :=
  if rid = 0 then (s, 2 ^ 57)
  else
    let (s, e) := boundsEntry s c rid
    let base := field e 0 57
    let fin := base + field e 64 57
    (s, if boundsValid e && decide (base ≤ va ∧ va < fin) then fin - va else 0)
/-- `bset`: the record, or a wait for a line a home holds. -/
def bsetBody (f : Slk) (e : Env) : Res :=
  let ptr := ofSigned 64 ((e.wide 0 f.s1 2 : Nat) + e.offset 0 f.s2 + fDisp10 f)
  let c := e.team.ctx
  let rid := ptr / 2 ^ 57
  let va := ptr % 2 ^ 57
  if rid ≠ 0 ∧ boundsHeld e.st c rid then .wait (biSend e.st (boundsAt e.st c rid) 16 false) .retry else
  let (s, bound) := baseBound e.st c rid va
  let put (s : State) (b : BaseRec) : Res :=
    .done (modGroup e.gid (fun g => { g with b := Assoc.wr .empty g.b (opNum f.d) b }) s)
  let none_ : BaseRec := ⟨true, BitVec.ofNat 64 ptr, 0, 0, BitVec.ofNat 58 bound, 0, false, 0, 0⟩
  match basePage s c rid va with
  | (s, none) => .wait s .retry
  | (s, some none) => put s none_
  | (s, some (some (_, p, l))) =>
    let (loc, perm, ca, _) := pageAttrs p l va
    let limit := min (2 ^ 21) (min bound (2 ^ 57 - va))
    match runFrom c rid va loc perm ca limit 514 s 0 true with
    | (s, none) => .wait s .retry
    | (s, some (run, dw)) => put s { none_ with
        frame := BitVec.ofNat 48 loc, run := BitVec.ofNat 22 run, perm := BitVec.ofNat 3 perm, dw := dw
        node := BitVec.ofNat 8 (nodeOf loc), ca := BitVec.ofNat 2 ca }
/-- `bset`. -/
def execBset (f : Slk) (s : State) : Out := issue (.bset f) f (bsetBody f) s

/-! ### `rgn` (R401, R402) -/

/-- `rgn.open`. -/
def rgnOpenBody : Env → Res := committing fun e =>
  let pc := pcAdd e.grp.pc 12
  .goto (e.mod (Group.openRegion pc)) pc
/-- `rgn.open`. -/
def execRgnOpen (f : Slk) (s : State) : Out := issue (.rgnOpen f) f rgnOpenBody s
/-- `rgn.close`. -/
def execRgnClose (f : Slk) (s : State) : Out := issue (.rgnClose f) f (committing fun e => .done e.st) s

end Sys2Proof.Machine
end

