-- ==== Sys2Proof/Machine/ClassLoop.lean ====
section
/-! DEFINITION. Class loops (R338 to R351), and `exit` and `yield` (R335, R337). A group's frames are listed from the
innermost out. -/

namespace Sys2Proof.Machine

/-- The key of lane `l`, extended to 64 bits (R339). -/
def Env.key (e : Env) (f : Slk) (l : Nat) : DWord :=
  let w := tyBits (fKt f)
  let x := e.wide l f.s1 (tyRegs (fKt f)) % 2 ^ w
  BitVec.ofNat 64 (if tySigned (fKt f) then ofSigned 64 (toSigned w x) else x)
/-- One key comes before another in the order of its type (R339). -/
def keyLess (kt : Nat) (a b : DWord) : Bool := if tySigned kt then a.slt b else a.ult b
/-- The first of a list of keys. -/
def firstKey (kt : Nat) : List DWord → Option DWord
  | [] => none
  | k :: ks => match firstKey kt ks with
    | none => some k
    | some j => if keyLess kt j k then some j else some k
/-- The lanes whose classes are still to come (R340). -/
def Frame.remaining (fr : Frame) (exited : Mask) : List Nat :=
  (maskList (fr.outer &&& ~~~fr.dep &&& ~~~exited)).filter fun l =>
    keyLess fr.kt.toNat fr.cur (Assoc.rd 0 fr.keys l)
/-- The registers that receive the class key (R339). -/
def Frame.keyWrites (fr : Frame) : List RegWrite :=
  dstWrites (.s fr.kreg) (tyRegs fr.kt.toNat) 0 fr.cur.toNat
/-- The VA of a program counter. -/
def vaOf (pc : DWord) : DWord := BitVec.ofNat 64 (pc.toNat % 2 ^ 57)
/-- The address of a frame's `dnext`. -/
def Frame.nextPc (fr : Frame) (pc : DWord) : DWord := pcAdd (pcSet pc fr.fend.toNat) (-12)
/-- A class frame used out of order (R342). -/
def nestTrap (e : Env) : Res := .trap e.st { cause := 0x09 }
/-- Frame `n` of an open list. -/
def frameAt (g : Group) (n : Nat) : Option Frame := g.frames.reverse[n]?

/-- `dist` (R343). -/
def distBody (f : Slk) (e : Env) : Res :=
  let pc := e.grp.pc
  if fFr f ≠ e.grp.frames.length then nestTrap e
  else match firstKey (fKt f) (e.lanes.map (e.key f)) with
    | none => .goto e.st (branchTarget pc f)
    | some cur =>
      let fr : Frame := {
        kt := BitVec.ofNat 4 (fKt f)
        kreg := BitVec.ofNat 7 (opNum f.d)
        body := vaOf (pcAdd pc 12)
        fend := vaOf (branchTarget pc f)
        outer := e.active
        keys := e.lanes.foldl (fun m l => Assoc.wr 0 m l (e.key f l)) []
        cur := cur
        dep := 0 }
      .goto (e.mod fun g => { g with frames := fr :: g.frames }.setRegs fr.keyWrites) (pcAdd pc 12)
/-- `dist`. -/
def execDist (f : Slk) (s : State) : Out := issueSettled (.dist f) f (distBody f) s

/-- `dnext` (R344). The register of the class key is a destination: while it is empty, `dnext` waits. -/
def dnextBody (f : Slk) (e : Env) : Res :=
  match e.grp.frames with
  | [] => nestTrap e
  | fr :: rest =>
    if fFr f ≠ rest.length ∨ vaOf e.grp.pc ≠ vaOf (fr.nextPc e.grp.pc) then nestTrap e
    else match firstKey fr.kt.toNat ((fr.remaining e.grp.exited).map fun l => Assoc.rd 0 fr.keys l) with
      | none => .goto (e.mod fun g => { g with frames := rest }) (pcSet e.grp.pc fr.fend.toNat)
      | some k =>
        let fr := { fr with cur := k }
        if fr.keyWrites.any fun w => e.grp.isEmpty w.dst then .wait e.st .retry
        else .goto (e.mod fun g => { g with frames := fr :: rest }.setRegs fr.keyWrites)
          (pcSet e.grp.pc fr.body.toNat)
/-- `dnext`. -/
def execDnext (f : Slk) (s : State) : Out := issueSettled (.dnext f) f (dnextBody f) s

/-- The innermost frames fall away until the lowest-numbered frame whose class is empty stands innermost (R347); the
list runs from the outermost in. -/
def emptyFrom (exited : Mask) : List Frame → List Frame → Option (List Frame × Frame)
  | _, [] => none
  | done, fr :: rest => if fr.class exited = 0 then some (fr :: done, fr) else emptyFrom exited (fr :: done) rest
/-- The end of an instruction that may have emptied the class (R347): the group goes on after it, at a frame's `dnext`,
or ends with its last thread (R335). -/
def leaveLanes (e : Env) (g : Group) : Group :=
  let pc := pcAdd g.pc 12
  if threadMask e.team g.idx &&& ~~~g.exited = 0 then { g with cond := .ended, frames := [], haz := [] }
  else if activeOf e.team g ≠ 0 then { g with pc := pc }
  else match emptyFrom g.exited [] g.frames.reverse with
    | none => { g with pc := pc }
    | some (frs, fr) => { g with frames := frs, pc := fr.nextPc g.pc }
/-- The result of a group as an instruction left it. -/
def leftAs (e : Env) (g : Group) : Res := .stay (modGroup e.gid (fun _ => g) e.st)

/-- `dleave` (R345). -/
def dleaveBody (f : Slk) (e : Env) : Res :=
  let n := fFr f
  let d := e.grp.frames.length
  if d ≤ n then nestTrap e
  else
    let l : Mask := (e.lanes.filter fun l => e.pred l f.s1).foldl (fun m l => m ||| laneBit l) 0
    let frs := ((List.range d).zip e.grp.frames).map fun (i, fr) =>
      let k := d - 1 - i
      if k = n then { fr with dep := fr.dep ||| l } else if n < k then { fr with outer := fr.outer &&& ~~~l } else fr
    leftAs e (leaveLanes e { e.grp with cond := .ready, frames := frs })
/-- `dleave`. -/
def execDleave (f : Slk) (s : State) : Out := issueSettled (.dleave f) f (dleaveBody f) s
/-- `dbrk` (R346). -/
def dbrkBody (f : Slk) (e : Env) : Res :=
  match frameAt e.grp (fFr f) with
  | none => nestTrap e
  | some fr =>
    .goto (e.mod fun g => { g with frames := g.frames.drop (g.frames.length - fFr f) }) (pcSet e.grp.pc fr.fend.toNat)
/-- `dbrk`. -/
def execDbrk (f : Slk) (s : State) : Out := issueSettled (.dbrk f) f (dbrkBody f) s

/-- `exit` (R335, R348). -/
def exitBody (e : Env) : Res :=
  let g := e.grp
  leftAs e (leaveLanes e { g with
    cond := .ready
    exited := g.exited ||| e.active
    frames := g.frames.map fun fr => { fr with outer := fr.outer &&& ~~~e.active } })
/-- `yield` has no architectural effect (R337). -/
def execYield (f : Slk) (s : State) : Out := issue (.yield f) f (fun e => .done e.st) s

end Sys2Proof.Machine
end

