-- ==== Sys2Proof/Machine/Sched.lean ====
section
/-! DEFINITION. The grant and the register allocation: `setw`, `regx`, `regr` (R322 to R331). -/

namespace Sys2Proof.Machine

/-! ### Register bytes (R322, R328) -/

/-- The register bytes a group holds. -/
def groupBytes (grant alloc : Nat) : Nat := grant * alloc * 4 + 512
/-- The group still holds its registers: it lives, or writes to them are pending (R335). -/
def holdsRegs (s : State) (t : Team) (g : Group) : Bool :=
  g.cond != .ended || s.pend.any fun p => p.owner == ⟨t.uid, g.idx⟩ && (match p.kind with | .regs _ _ => true | _ => false)
/-- Register bytes of a team. -/
def teamRegs (s : State) (t : Team) : Nat :=
  ((t.groups.filter (holdsRegs s t)).map fun g => groupBytes t.grant g.alloc).sum
/-- The teams resident on a core (R333). -/
def residents (s : State) (core : Nat) : List Team := s.teams.filter fun t => t.core == core
/-- The growth pool of a core (R328): the register region less what its groups hold. -/
def growthPool (s : State) (core : Nat) : Nat :=
  4096 * (s.pbOf core).reg - ((residents s core).map (teamRegs s)).sum
/-- A partition's quota register (R364). -/
def partQuota (s : State) (die p : Nat) : Nat := (Assoc.rd partqReset (s.die die).partq p).toNat
/-- The register bytes of its partition that a team counts for: the greater of RQUOTA, which a `setw` may take, and what it
holds and would hold with `need` more (R322, R361, log 17). -/
def regShare (s : State) (need : Nat) (t : Team) : Nat := max t.rquota (teamRegs s t + need)
/-- What a partition may still grow on a core: its REG quota less what its teams count for (R361, R364). -/
def partRoom (s : State) (core p : Nat) : Nat :=
  512 * field (partQuota s (coreDie core) p) 8 12 -
    (((residents s core).filter fun t => t.part == p).map (regShare s 0)).sum

/-! ### Widths (R322) -/

/-- The threads of a group that have not ended, by thread index. -/
def liveOf (t : Team) (g : Group) : List Nat :=
  (maskList (threadMask t g.idx &&& ~~~g.exited)).map (g.idx * t.grant + ·)
/-- The live threads of a team. -/
def liveThreads (t : Team) : List Nat := t.groups.flatMap (liveOf t)
/-- N(p): the groups of width `p` that hold a live thread (R322). -/
def groupsAt (live : List Nat) (p : Nat) : Nat := ((live.map (· / p)).eraseDups).length
/-- A width fits (R322). -/
def fits (gslots rquota : Nat) (live : List Nat) (alloc p : Nat) : Bool :=
  decide (groupsAt live p ≤ gslots ∧ groupsAt live p * groupBytes p alloc ≤ rquota)
/-- The largest of the four widths in [lo, hi] that fits. -/
def widest (gslots rquota : Nat) (live : List Nat) (alloc lo hi : Nat) : Option Nat :=
  [128, 64, 32, 16].find? fun p => decide (lo ≤ p ∧ p ≤ hi) && fits gslots rquota live alloc p

/-! ### `setw` (R323 to R326) -/

/-- The live groups of a team. -/
def Team.live (t : Team) : List Group := t.groups.filter fun g => g.cond != .ended
/-- What a group arrived with. -/
def arrival (g : Group) : Option (Nat × Option Nat) :=
  match g.cond with
  | .wait (.setw r d) => some (r, d)
  | _ => none
/-- A lane's registers and predicates of thread `i` move to lane `l` of a new group (R325). -/
def moveThread (t : Team) (l i : Nat) (g : Group) : Group :=
  match t.group? (i / t.grant) with
  | none => { g with exited := g.exited ||| laneBit l }
  | some o =>
    let k := i % t.grant
    let v := o.v.foldl (fun m (key, x) => if key % 128 = k then Assoc.wr 0 m (key - k + l) x else m) g.v
    let q := o.q.foldl (fun m (n, x) =>
      if x.getLsbD k then Assoc.wr 0 m n (Assoc.rd 0 m n ||| laneBit l) else m) g.q
    let bad := (o.bad.filter fun x => x.1.file == .v && x.1.lane == k).map fun x => ({ x.1 with lane := l }, x.2)
    { g with v := v, q := q, bad := g.bad ++ bad
             exited := if o.exited.getLsbD k || o.cond == .ended then g.exited ||| laneBit l else g.exited }
/-- A new group of a regrouped team (R325). -/
def newGroup (t : Team) (src : Group) (width alloc idx : Nat) : Group :=
  let base : Group := { src with
    idx := idx, pc := pcAdd src.pc 12, cond := .ready, alloc := alloc, v := [], vEmpty := [], q := [], sEmpty := 0
    frames := [], exited := 0, repCtr := 0, region := none, ahead := [], haz := []
    relMark := none, mwtMark := none, launch := none
    mon := src.mon.map fun m => { m with fired := true }
    bad := src.bad.filter fun x => x.1.file != .v }
  (List.range (min width (t.threads - idx * width))).foldl (fun g l => moveThread t l (idx * width + l) g) base
/-- D of a `setw`. -/
def grantWrite (d : Option Nat) (w : Nat) : List RegWrite :=
  match d with
  | some n => [⟨⟨.s, n, 0⟩, BitVec.ofNat 32 w⟩]
  | none => []
/-- Regroup a team at another width (R325). -/
def regroup (t : Team) (src : Group) (d : Option Nat) (width alloc : Nat) : Team :=
  { t with
    grant := width
    tbar := 0
    groups := ((List.range ((t.threads + width - 1) / width)).map (newGroup t src width alloc)).filterMap fun g =>
      if threadMask { t with grant := width } g.idx &&& ~~~g.exited = 0 then none
      else some (g.setRegs (grantWrite d width)) }
/-- The team's `setw` completes, in one step, once every live group has arrived (R324). -/
def setwDone (t : Team) : Team :=
  let arrivals := t.live.filterMap arrival
  match t.live with
  | [] => t
  | src :: _ =>
    if arrivals.length ≠ t.live.length then t
    else
      let r := (arrivals.map (·.1)).foldl min 128
      let alloc := (t.live.map (·.alloc)).foldl max 0
      let live := liveThreads t
      let width := match widest t.gslots t.rquota live alloc t.wlo r with
        | some p => p
        | none => (widest t.gslots t.rquota live alloc t.wlo t.whi).getD t.grant
      if width ≠ t.grant then regroup t src ((arrival src).bind (·.2)) width alloc
      else { t with
        tbar := 0
        groups := t.groups.map fun g => match arrival g with
          | some (_, d) => { g with cond := .ready, pc := pcAdd g.pc 12 }.setRegs (grantWrite d width)
          | none => g }
/-- An owner that is a group of the team which has ended takes a number that no group has: a regrouping may give its
old number to a new group (log 27). -/
def detached (t : Team) (o : Gid) : Gid :=
  if o.team = t.uid ∧ o.group < 128 ∧ !(t.live.any fun g => g.idx == o.group) then { o with group := o.group + 128 } else o
/-- What a team's ended groups still have under way belongs to them alone (R325, R335). -/
def detachEnded (t : Team) (s : State) : State :=
  { s with
    pend := s.pend.map fun p => { p with owner := detached t p.owner }
    matq := s.matq.map fun m => { m with owner := detached t m.owner }
    walks := s.walks.map fun w => { w with owner := detached t w.owner } }
/-- Complete a team's `setw` if it can. -/
def setwTry (uid : Nat) (s : State) : State :=
  match s.team? uid with
  | none => s
  | some t =>
    let s := modTeam uid setwDone s
    if (setwDone t).grant = t.grant then s else detachEnded t s
/-- The width a group asks for (R324). -/
def askedWidth (t : Team) (x : Nat) : Nat := pow2Floor 7 (min (max (if x = 0 then t.whi else x) t.wlo) t.whi)
/-- Arrive (R324). -/
def setwArrive (f : Slk) (e : Env) : Res :=
  if e.grp.sEmpty ≠ 0 ∨ e.grp.vEmpty ≠ [] then .wait e.st .retry
  else
    let d := match f.d with | .s n => some n.toNat | _ => none
    .stay (setwTry e.gid.team (e.mod fun g =>
      { g with cond := .wait (.setw (askedWidth e.team (e.n32 0 (.op f.s1))) d) }))
/-- `setw`. -/
def setwBody (f : Slk) (e : Env) : Res :=
  if e.grp.frames ≠ [] then .trap e.st { cause := 0x0A } else committing (setwArrive f) e
/-- `setw`. -/
def execSetw (f : Slk) (s : State) : Out := issue (.setw f) f (setwBody f) s
/-- `exit` (R335, R348); a team's `setw` no longer waits for a group that ends (R324). -/
def execExit (f : Slk) (s : State) : Out :=
  issue (.exit f) f (committing fun e => match exitBody e with
    | .stay s => .stay (setwTry e.gid.team s)
    | r => r) s
/-- A group waits in `tbar`. -/
def inTbar (g : Group) : Bool := match g.cond with | .wait (.tbar _) => true | _ => false
/-- A group waits, for whatever it is. -/
def isWaiting (g : Group) : Bool := match g.cond with | .wait _ => true | _ => false
/-- Every live group waits, one at least in `setw` and one in `tbar`: those in `setw` trap (R326). -/
def setwSeqStep (uid : Nat) (s : State) : State :=
  match s.team? uid with
  | none => s
  | some t =>
    let inSetw := t.live.filter fun g => (arrival g).isSome
    if !inSetw.isEmpty && t.live.any inTbar && t.live.all isWaiting then
      inSetw.foldl (fun s g => takeTrap ⟨uid, g.idx⟩ { cause := 0x13 } s) s
    else s
/-- SETWSEQ. -/
def execSetwseq (team : Nat) (s : State) : Out := .next (setwSeqStep team s)

/-! ### `regx` and `regr` (R329 to R331) -/

/-- The count of a request, rounded up. -/
def Env.regCount (e : Env) (f : Slk) : Nat := roundUp (e.n32 0 (.op f.s1)) 8
/-- A count out of range (R329, R330). -/
def countTrap (e : Env) (n : Nat) : Res := .trap e.st { cause := 0x05, detail := 0x04, addr := n }
/-- `regx`. -/
def regxBody (f : Slk) (e : Env) : Res :=
  let n := e.regCount f
  if e.team.regMax < n then countTrap e n
  else if n ≤ e.grp.alloc then .done (writeLong e false (dstWrites f.d 1 0 e.grp.alloc) e.st)
  else
    let s := e.mod fun g => { g with cond := .wait (.regx n) }
    .stay { s with regx := s.regx ++ [⟨e.gid, n, match f.d with | .s k => some k.toNat | _ => none⟩] }
/-- `regx`. -/
def execRegx (f : Slk) (s : State) : Out := issue (.regx f) f (committing (regxBody f)) s
/-- The lane registers from `n` on are gone. -/
def Group.cutRegs (n : Nat) (g : Group) : Group :=
  { g with v := g.v.filter fun (k, _) => k / 128 < n
           bad := g.bad.filter fun x => x.1.file != .v || decide (x.1.num < n) }
/-- `regr`. -/
def regrBody (f : Slk) (e : Env) : Res :=
  let n := e.regCount f
  let a := e.grp.alloc
  if e.team.regMax < n ∨ n < e.team.regMin then countTrap e n
  else if a ≤ n then .done (writeFixed e 4 3 (dstWrites f.d 1 0 a))
  else if e.grp.vEmpty.any fun (k, _) => decide (n ≤ k) then .wait e.st .retry
  else .done (writeFixed (e.at (e.mod fun g => { g.cutRegs n with alloc := n })) 4 3 (dstWrites f.d 1 0 n))
/-- `regr`. -/
def execRegr (f : Slk) (s : State) : Out := issue (.regr f) f (regrBody f) s

/-- The requests pending on a core, with the age of each group. -/
def coreRequests (s : State) (core : Nat) : List (RegxReq × Env) :=
  s.regx.filterMap fun r => (env? s r.g).bind fun e => if e.core = core then some (r, e) else none
/-- The order of requests: older groups first (R329). -/
def requestKey (x : RegxReq × Env) : Nat := x.2.grp.age * 64 + x.2.grp.idx
/-- The oldest request. -/
def oldestRequest (s : State) (core : Nat) : Option (RegxReq × Env) := minBy requestKey (coreRequests s core)
/-- The request could be granted: the pool and the partition hold its bytes (R329, R364). -/
def grantable (s : State) (x : RegxReq × Env) : Bool :=
  let need := x.2.grant * (x.1.n - x.2.grp.alloc) * 4
  decide (need ≤ growthPool s x.2.core ∧
    regShare s need x.2.team - regShare s 0 x.2.team ≤ partRoom s x.2.core x.2.team.part)
/-- A request is answered: the allocation stands at `alloc`, D receives `d`, and the group goes on. No earlier result of D or
of a new register is read after that (R329, R331). -/
def answerRequest (r : RegxReq) (alloc d : Nat) (s : State) : State :=
  modGroup r.g (fun g => { g with
    alloc := alloc, cond := .ready, pc := pcAdd g.pc 12
    haz := g.haz.filter fun h => !(h.dst.file == File.v && decide (g.alloc ≤ h.dst.num)) }.setRegs (grantWrite r.dst d))
    { s with regx := s.regx.filter (· ≠ r) }
/-- The oldest pending request is granted (R329). -/
def regxGrantStep (core : Nat) (s : State) : State :=
  match oldestRequest s core with
  | none => s
  | some x => if grantable s x then answerRequest x.1 x.1.n x.1.n s else s
/-- REGX_GRANT. -/
def execRegxGrant (core : Nat) (s : State) : Out := .next (regxGrantStep core s)
/-- After 4,096 clk without an issue the youngest request that is not the grantable oldest is denied (R331). -/
def regxDenyStep (core : Nat) (s : State) : State :=
  match (coreRequests s core).foldl (fun a x => match a with
      | none => some x
      | some y => if requestKey y ≤ requestKey x then some x else some y) none with
  | none => s
  | some x =>
    if Assoc.rd 0 s.idle core < 4096 then s
    else if ((oldestRequest s core).map (·.1)) = some x.1 && grantable s x then s
    else answerRequest x.1 x.2.grp.alloc 0 { s with idle := Assoc.del s.idle core }
/-- REGX_DENIAL. -/
def execRegxDenial (core : Nat) (s : State) : Out := .next (regxDenyStep core s)

end Sys2Proof.Machine
end

