-- ==== Sys2Proof/Machine/FrontEnd.lean ====
section
/-! DEFINITION. The front end (R352 to R360): queues and their records, named fences, the kernel descriptor (R430) and
the dimensions word, the active-grid table, `nfsig` and `glaunch`. -/

namespace Sys2Proof.Machine

/-! ### Reads at the home (R353, R358) -/

/-- The lines of a host range that an RDC holds dirty go back first: a reader over the host link snoops them (R101). -/
def snoopBack (s : State) (loc n : Nat) : State :=
  if isHost loc then
    (segs 128 loc n).foldl (init := s) fun s (a, _) => (List.range 4).foldl (fun s d => rdcWriteBack s d (a / 128)) s
  else s
/-- What a read of the front end gives. -/
inductive Fetch where
  | bytes (n : Nat)
  | unreadable
  | hold
  deriving DecidableEq, Repr
/-- Read `n` bytes of the context, a number, in one request at their home. -/
def frontRead (s : State) (c ptr : Nat) (disp : Int) (n align : Nat) : State × Fetch :=
  match translatePtr s c ptr disp n align .read with
  | (s, .ok loc _) =>
    if lineHeld s loc n then (biSend s loc n false, .hold)
    else
      let (s, bs, p) := homeRead (snoopBack s loc n) loc n
      (s, if p then .unreadable else .bytes (ofBytes bs))
  | (s, .hold) => (s, .hold)
  | (s, _) => (s, .unreadable)

/-! ### Records (R354) -/

/-- TYPE. -/
def recType (r : Nat) : Nat := field r 0 8
/-- A reserved bit of a record is 1, [383:320] counted under DIMIND. -/
def recReserved (r : Nat) : Bool :=
  field r 12 4 != 0 || field r 22 2 != 0 || field r 30 2 != 0 || field r 450 62 != 0 ||
    (bitAt r 9 && field r 320 64 != 0)
/-- CHECK: the ECODE of a record that fails it (R355, R356). -/
def recCheck (r : Nat) : Option Nat :=
  if 2 < recType r then some 0x01
  else if recReserved r then some 0x02
  else if 65536 < field r 32 32 then some 0x07
  else none

/-- A record of the queue fails (R355, R356): ERR and STOP are set, ECODE and EIDX written; `retake` puts CONS back. -/
def failQueue (c q ecode : Nat) (retake : Bool) (s : State) : State :=
  let y := (s.ctx c).queue q
  let e := if retake then y.cons - 1 else y.cons
  postEvent c evQueue [BitVec.ofNat 64 q, BitVec.ofNat 64 ecode, e.setWidth 64]
    (setQueue c q { y with
      cons := e, err := true, stop := true, ecode := BitVec.ofNat 8 ecode, eidx := e, st := .idle } s)
/-- The front end takes records of the context, and dispatch its slot entries: RUNNING and RESTORING, once early service
has begun (R417, R438). -/
def takesNew (s : State) (c : Nat) : Bool :=
  s.boot.started && ((s.ctx c).st == .running || (s.ctx c).st == .restoring)
/-- The front end carries the records of the context on: while DRAINING those it has taken (R417). -/
def frontRuns (s : State) (c : Nat) : Bool := takesNew s c || (s.boot.started && (s.ctx c).st == .draining)

/-- A grid of the queue has not completed. -/
def queueBusy (s : State) (c q : Nat) : Bool := s.grids.any fun (_, g) => g.ctx == c && g.queue == q
/-- A record may leave WAIT (R355, R357); `met` where its fence has reached TARGET since it stands there. -/
def waitOver (s : State) (c q r : Nat) (met : Bool) : Bool :=
  (met || !bitAt r 8 || decide (field r 192 64 ≤ ((s.ctx c).fence (field r 16 6)).toNat)) &&
    (recType r != 2 || !queueBusy s c q)
/-- ACQ: clean RDC bytes go on every die (R355). -/
def acquireAll (s : State) : State := (List.range 4).foldl rdcInvalClean s
/-- A record leaves WAIT if it may: ACQ, and a NOP is done. -/
def passWait (c q : Nat) (r : BitVec 512) (met : Bool) (s : State) : State :=
  if !waitOver s c q r.toNat met then s
  else
    let s := acquireAll s
    setQueue c q { (s.ctx c).queue q with st := if recType r.toNat = 0 then .idle else .acq r } s
/-- FENCE_WAIT_MET. -/
def fenceWaitStep (c q : Nat) (s : State) : State :=
  match ((s.ctx c).queue q).st with
  | .held r => if frontRuns s c then passWait c q r false s else s
  | .met r => if frontRuns s c then passWait c q r true s else s
  | _ => s
/-- FENCE_WAIT_MET. -/
def execFenceWaitMet (ctx q : Nat) (s : State) : Out := .next (fenceWaitStep ctx q s)

/-- TAKE and CHECK of a record of one TYPE; a record that fails stops the queue (R353, R355, R356). A fence at its TARGET as
the record comes to stand in WAIT is met for good, as one that reaches it later is (R357, log 29). -/
def takeRecord (c q ty : Nat) (s : State) : State :=
  let y := (s.ctx c).queue q
  if !takesNew s c ∨ y.st ≠ .idle ∨ y.stop ∨ y.qlog2 = 0 then s
  else if 12 < y.qlog2.toNat ∨ 2 ^ y.qlog2.toNat < (y.pub - y.cons).toNat then failQueue c q 0x10 false s
  else if y.pub = y.cons then s
  else
    let stands (r : Nat) : QSt :=
      if waitMetBy (field r 16 6) ((s.ctx c).fence (field r 16 6)) (BitVec.ofNat 512 r) then .met (BitVec.ofNat 512 r)
      else .held (BitVec.ofNat 512 r)
    let took (s : State) (st : QSt) : State := setQueue c q { (s.ctx c).queue q with cons := y.cons + 1, st := st } s
    match frontRead s c y.qbase.toNat (64 * (y.cons.toNat % 2 ^ y.qlog2.toNat) : Nat) 64 64 with
    | (s, .hold) => s
    | (s, .unreadable) => failQueue c q 0x03 true (took s .idle)
    | (s, .bytes r) => match recCheck r with
      | some k => failQueue c q k true (took s .idle)
      | none =>
        if recType r ≠ ty then s
        else passWait c q (BitVec.ofNat 512 r) false (took s (stands r))
/-- NOP_RECORD. -/
def execNopRecord (ctx q : Nat) (s : State) : Out := .next (takeRecord ctx q 0 s)
/-- LAUNCH_RECORD. -/
def execLaunchRecord (ctx q : Nat) (s : State) : Out := .next (takeRecord ctx q 1 s)

/-! ### SIG (R355) -/

/-- A write-back of some die's RDC must wait for the host (R443). -/
def anyRdcHeld (s : State) : Bool := (List.range 4).any (rdcHeld s)
/-- A store to an uncached page of host or peer memory is still on its way (R108). -/
def uncachedOut (s : State) (c : Nat) : Bool :=
  s.pend.any fun p => p.ctx == c && (match p.kind with | .store st => st.ca != 0 && !isDev st.loc | _ => false)
/-- The host is asked for every line that a write-back of some die's RDC needs (R443). -/
def askRdcs (s : State) : State :=
  (List.range 4).foldl (fun s d => (rdcDirty s d).foldl (fun s l => biSend s (128 * l) 128 true) s) s
/-- The release of scope `.y` that covers every die, the addition to the fence and what follows it; a signal that waits
asks the host for the lines it needs. -/
def signal (c f : Nat) (v : DWord) (after : State → State) (s : State) : State :=
  if anyRdcHeld s || uncachedOut s c then askRdcs s
  else
    let s := (List.range 4).foldl rdcFlush s
    after (setFence c f ((s.ctx c).fence f + v) s)
/-- A SIGNAL record past ACQ signals. -/
def signalQueue (c q : Nat) (s : State) : State :=
  match ((s.ctx c).queue q).st with
  | .acq r =>
    if recType r.toNat = 2 && frontRuns s c then
      signal c (field r.toNat 24 6) (BitVec.ofNat 64 (field r.toNat 384 64))
        (fun s => setQueue c q { (s.ctx c).queue q with st := .idle } s) s
    else s
  | _ => s
/-- SIGNAL_RECORD: the record is taken; past ACQ it signals. -/
def execSignalRecord (ctx q : Nat) (s : State) : Out :=
  .next (match ((s.ctx ctx).queue q).st with
    | .idle => signalQueue ctx q (takeRecord ctx q 2 s)
    | _ => signalQueue ctx q s)
/-- A grid leaves the active-grid table. -/
def leaveTable (g : Nat) (s : State) : State :=
  { s with grids := Assoc.del s.grids g, gridOrder := s.gridOrder.filter (· ≠ g) }
/-- A grid enters the active-grid table, where it has room: the last to become active. -/
def enterTable (g : GridEntry) (s : State) : Option State :=
  ((List.range 256).find? fun i => (Assoc.get? s.grids i).isNone).map fun i =>
    { s with grids := Assoc.put s.grids i g, gridOrder := s.gridOrder ++ [i] }
/-- A grid whose teams have all ended signals, and leaves the table (R355), once early service has begun (R438). -/
def gridCompleteStep (g : Nat) (s : State) : State :=
  match Assoc.get? s.grids g with
  | none => s
  | some x =>
    if !s.boot.started ∨ x.ended < x.x * x.y * x.z ∨ (s.ctx x.ctx).st = .killed then s
    else
      if x.sigDone then signal x.ctx x.sfence x.svalue (leaveTable g) s else leaveTable g s
/-- GRID_COMPLETE. -/
def execGridComplete (grid : Nat) (s : State) : Out := .next (gridCompleteStep grid s)

/-! ### The kernel descriptor (R430) -/

/-- The threads of a team. -/
def kdThreads (k : Nat) : Nat := field k 128 16 * field k 144 16 * field k 160 16
/-- The least width of `.lanes`. -/
def kdLo (k : Nat) : Nat := 16 * 2 ^ field k 176 2
/-- The greatest width of `.lanes`. -/
def kdHi (k : Nat) : Nat := 16 * 2 ^ field k 178 2
/-- `.regs` minimum. -/
def kdRegMin (k : Nat) : Nat := 8 * field k 184 8
/-- `.regs` maximum. -/
def kdRegMax (k : Nat) : Nat := 8 * field k 192 8
/-- Granules of one team's scratchpad. -/
def kdSp (k : Nat) : Nat := field k 224 16
/-- Granules of one team's ring space. -/
def kdRing (k : Nat) : Nat := field k 240 16
/-- Granules of the L1. -/
def kdL1 (k : Nat) : Nat := field k 256 16
/-- The fields of a descriptor are within their limits, its reserved bits 0. -/
def kdForm (k : Nat) : Bool :=
  field k 0 32 == 0x31444B53 && field k 64 64 % 4 == 0 && decide (1 ≤ kdThreads k ∧ kdThreads k ≤ 1024) &&
    decide (kdLo k ≤ kdHi k) && decide (1 ≤ field k 184 8 ∧ field k 184 8 ≤ field k 192 8 ∧ field k 192 8 ≤ 32) &&
    decide (field k 208 8 ≤ 4) && decide (16 ≤ kdL1 k ∧ kdL1 k ≤ 384) && decide (kdSp k + kdRing k + kdL1 k ≤ 384) &&
    field k 180 4 == 0 && field k 216 8 == 0 && field k 272 16 == 0 && field k 448 576 == 0 &&
    (List.range 4).all fun i => field k (288 + 32 * i + 25) 7 == 0
/-- The object is measured into the context, and its SV is at least MINSV (R433, R434). -/
def kdMeasured (x : Ctx) (k : Nat) : Bool :=
  (x.log.any fun m => m.ordinal == field k 32 32 && m.inUse) && decide (x.minsv.toNat ≤ field k 416 32)

/-! ### Whether a team fits (R322, R364, R365) -/

/-- PARTQ fields. -/
def pqGslot (q : Nat) : Nat := min 64 (field q 0 7)
/-- Register bytes. -/
def pqReg (q : Nat) : Nat := 512 * field q 8 12
/-- Scratchpad and ring bytes. -/
def pqLmem (q : Nat) : Nat := 512 * field q 32 12
/-- Teams. -/
def pqTeams (q : Nat) : Nat := min 16 (field q 48 5)
/-- Granules of the register region when one core provides `n` team windows (R118). -/
def regGranules (k n : Nat) : Nat := 384 - kdL1 k - n * (kdRing k + kdSp k)
/-- The widest grant of a new team, every thread live (R322). -/
def startWidth (k gslots rquota : Nat) : Option Nat :=
  widest gslots rquota (List.range (kdThreads k)) (kdRegMin k) (kdLo k) (kdHi k)
/-- A team of the kernel could run on an otherwise idle core of the die under the partition's quotas. -/
def teamFits (s : State) (d p k : Nat) : Bool :=
  let q := partQuota s d p
  decide (1 ≤ pqTeams q ∧ 4096 * (kdSp k + kdRing k) ≤ pqLmem q) &&
    (startWidth k (pqGslot q) (min (pqReg q) (4096 * regGranules k 1))).isSome
/-- The dies that run (R446). -/
def runningDies (s : State) : List Nat := if s.phase = .run then [0, 1, 2, 3] else [0]
/-- The ECODE of a grid that could never be bound: the kernel, the dimensions, and whether it is resident. -/
def gridFits (s : State) (p k cw ch clusters : Nat) (resident : Bool) : Option Nat :=
  let ds := (runningDies s).filter fun d => teamFits s d p k
  if resident then (if ds.length * ((16 / cw) * (12 / ch)) < clusters ∨ ds = [] then some 0x08 else none)
  else if ds = [] then some 0x09 else none

/-! ### DIMS (R355, R356, R358) -/

/-- The dimensions word of a record: its ECODE where it cannot be had. -/
def dimsWord (s : State) (c r : Nat) : State × Except (Option Nat) Nat :=
  if !bitAt r 9 then (s, .ok (field r 256 128))
  else match frontRead s c (field r 256 64) 0 16 16 with
    | (s, .hold) => (s, .error none)
    | (s, .unreadable) => (s, .error (some 0x05))
    | (s, .bytes w) => (s, .ok w)
/-- What DIMS makes of a dimensions word: X, Y, Z, CW and CH, or an ECODE. -/
def dimsCheck (w : Nat) : Except Nat (Nat × Nat × Nat × Nat × Nat) :=
  let x := field w 0 32
  let y := field w 32 32
  let z := field w 64 32
  let cw := if field w 96 5 = 0 then 1 else field w 96 5
  let ch := if field w 104 4 = 0 then 1 else field w 104 4
  if field w 101 3 ≠ 0 ∨ field w 108 20 ≠ 0 then .error 0x02
  else if 2 ^ 32 < x * y * z ∨ 16 < cw ∨ 12 < ch ∨ x * y * z % (cw * ch) ≠ 0 then .error 0x06
  else .ok (x, y, z, cw, ch)
/-- The table entry of a LAUNCH record with its kernel descriptor and the dimensions DIMS has found. -/
def gridEntry (c q r k : Nat) : Nat × Nat × Nat × Nat × Nat → GridEntry
  | (x, y, z, cw, ch) => {
      ctx := c, queue := q, kdesc := BitVec.ofNat 64 (field r 64 64), argBase := BitVec.ofNat 64 (field r 128 64)
      argSize := BitVec.ofNat 32 (field r 32 32), x := x, y := y, z := z, cw := cw, ch := ch
      prio := BitVec.ofNat 2 (field r 448 2), resident := bitAt r 10, sigDone := bitAt r 11
      sfence := field r 24 6, svalue := BitVec.ofNat 64 (field r 384 64), ended := 0, bound := []
      kd := BitVec.ofNat 1024 k }
/-- A grid becomes active and its queue goes on; where the table is full, the record waits with what DIMS has read
(R355). -/
def activate (c q r k w : Nat) (d : Nat × Nat × Nat × Nat × Nat) (s : State) : State :=
  match enterTable (gridEntry c q r k d) s with
  | none => setQueue c q { (s.ctx c).queue q with
      st := .dims (BitVec.ofNat 512 r) (BitVec.ofNat 1024 k) (BitVec.ofNat 128 w) } s
  | some s => setQueue c q { (s.ctx c).queue q with st := .idle } s
/-- The steps of DIMS after the kernel descriptor has been read. -/
def dimsOf (c q r k : Nat) (s : State) : State :=
  if !kdForm k || !kdMeasured (s.ctx c) k then failQueue c q 0x04 true s
  else match dimsWord s c r with
    | (s, .error none) => s
    | (s, .error (some e)) => failQueue c q e true s
    | (s, .ok w) => match dimsCheck w with
      | .error e => failQueue c q e true s
      | .ok (x, y, z, cw, ch) =>
        if x * y * z = 0 then setQueue c q { (s.ctx c).queue q with st := .idle } s
        else match gridFits s (s.ctx c).part.toNat k cw ch (x * y * z / (cw * ch)) (bitAt r 10) with
          | some e => failQueue c q e true s
          | none => activate c q r k w (x, y, z, cw, ch) s
/-- DIMS of a LAUNCH record past ACQ, or past its reads. -/
def dimsStep (c q : Nat) (s : State) : State :=
  match ((s.ctx c).queue q).st with
  | .acq r =>
    if recType r.toNat = 1 && frontRuns s c then
      match frontRead s c (field r.toNat 64 64) 0 128 128 with
      | (s, .hold) => s
      | (s, .unreadable) => failQueue c q 0x04 true s
      | (s, .bytes k) => dimsOf c q r.toNat k s
    else s
  | .dims r k w =>
    if frontRuns s c then
      match dimsCheck w.toNat with
      | .ok d => activate c q r.toNat k.toNat w.toNat d s
      | .error _ => s
    else s
  | _ => s
/-- DIMS. -/
def execDims (ctx q : Nat) (s : State) : Out := .next (dimsStep ctx q s)
/-- The table entry of a grid that is handed over from here: it is active here and drained (R424). -/
def drainedGrid (s : State) (grid : GridEntry) : Option Nat :=
  (s.grids.find? fun x => x.2 == { grid with out := false } &&
    s.teams.all fun t => !(t.ctx == grid.ctx && t.grid == x.1 && t.st != .ended)).map (·.1)
/-- A grid handed over from here leaves the table once it is drained; one handed over from another device enters it, and is
refused where it is full (R424). -/
def handOver (grid : GridEntry) (s : State) : State :=
  if !s.boot.started then s
  else if grid.out then
    match drainedGrid s grid with
    | some i => leaveTable i s
    | none => s
  else (enterTable grid s).getD s
/-- ACTIVE_GRID_HANDOVER. -/
def execActiveGridHandover (grid : GridEntry) (s : State) : Out := .next (handOver grid s)

/-! ### `nfsig` (R359) -/

/-- The addition to a named fence. -/
def nfsigBody (f : Slk) (e : Env) : Res :=
  let n := e.n32 0 (.op f.s1)
  let v := (e.ctx.fence n + BitVec.ofNat 64 (e.uni f.s2 1))
  .done (writeLong e false (dstWrites f.d 2 0 v.toNat) (setFence e.team.ctx n v e.st))
/-- The fence is checked, then the release, then the addition. -/
def nfsigChecked (f : Slk) (e : Env) : Res :=
  let n := e.n32 0 (.op f.s1)
  if 63 < n then .trap e.st { cause := 0x05, detail := 0x04, addr := n }
  else releasing 2 (if fV f then 7 else 5) (nfsigBody f) e
/-- `nfsig`. -/
def execNfsig (f : Slk) (s : State) : Out := issue (.nfsig f) f (committing (nfsigChecked f)) s

/-! ### `glaunch` (R360) -/

/-- The queue holds as many records as it has slots. -/
def Queue.full (y : Queue) : Bool := decide (2 ^ y.qlog2.toNat ≤ (y.pub - y.cons).toNat)
/-- The copy goes to slot PUB, checked as a 64-byte `stg`, and PUB is kicked. -/
def glaunchPut (f : Slk) (q : Nat) (bs : List Byte) (e : Env) : Res :=
  let y := e.ctx.queue q
  match resolveRange e (.ptr y.qbase.toNat) (64 * (y.pub.toNat % 2 ^ y.qlog2.toNat) : Nat) 64 64 .write e.st with
  | .error r => r
  | .ok (s, xs) =>
    if xs.any fun (x, n) => lineHeld s x.loc n then .wait (xs.foldl (fun s (x, n) => biSend s x.loc n true) s) .retry
    else
      let s := (xs.foldl (fun (s, bs) (x, n) =>
        (acceptStore (l1DropRange e.core x.loc n s) e.core ⟨x.loc, x.va, BitVec.ofNat 2 x.ca, 6, false, false, bs.take n⟩,
          bs.drop n)) (s, bs)).1
      let s := setQueue e.team.ctx q { (s.ctx e.team.ctx).queue q with pub := y.pub + 1 } s
      .done (writeLong e false (dstWrites f.d 1 0 y.pub.toNat)
        (modGroup e.gid (fun g => { g with launch := none }) s))
/-- With the record read, `glaunch` waits for room in the queue, keeping its copy. -/
def glaunchWait (f : Slk) (q : Nat) (bs : List Byte) (e : Env) : Res :=
  if (e.ctx.queue q).full || (e.ctx.queue q).stop then
    .wait (e.mod fun g => { g with launch := some (BitVec.ofNat 512 (ofBytes bs)) }) .retry
  else glaunchPut f q bs e
/-- `glaunch` after its release. -/
def glaunchBody (f : Slk) (e : Env) : Res :=
  let q := e.n32 0 (.op f.s2)
  if 15 < q ∨ (e.ctx.queue q).qlog2 = 0 then .trap e.st { cause := 0x05, detail := 0x04, addr := q }
  else match loadRange e (.ptr (e.pair f.s1)) 0 64 64 e.st with
    | .error r => r
    | .ok (s, bs) => glaunchWait f q bs (e.at s)
/-- `glaunch`: one that has read its record goes on from there. -/
def glaunchOrd (f : Slk) (e : Env) : Res :=
  match e.grp.launch with
  | some r => glaunchWait f (e.n32 0 (.op f.s2)) (toBytes 64 r.toNat) e
  | none => committing (releasing 2 5 (glaunchBody f)) e
/-- `glaunch`. -/
def execGlaunch (f : Slk) (s : State) : Out := issue (.glaunch f) f (glaunchOrd f) s

end Sys2Proof.Machine
end

