-- ==== Sys2Proof/Machine/Bind.lean ====
section
/-! DEFINITION. Dispatch: a bind record becomes a team (R322, R361 to R365), and a team ends (R336). -/

namespace Sys2Proof.Machine

/-! ### A bind record (R362) -/

/-- A slot entry read as a bind record for the kernel descriptor of its grid. -/
structure BindRec where
  core : Nat
  entry : Nat
  grid : Nat
  g : GridEntry
  v : Nat
  deriving DecidableEq, Repr
/-- TKOWN. -/
def BindRec.tkOwn (b : BindRec) : Bool := bitAt b.v 1
/-- PART. -/
def BindRec.part (b : BindRec) : Nat := field b.v 4 4
/-- TEAMID. -/
def BindRec.teamId (b : BindRec) : Nat := field b.v 16 32
/-- GSLOTS. -/
def BindRec.gslots (b : BindRec) : Nat := field b.v 56 6 + 1
/-- lo. -/
def BindRec.wlo (b : BindRec) : Nat := 16 * 2 ^ field b.v 64 2
/-- hi. -/
def BindRec.whi (b : BindRec) : Nat := 16 * 2 ^ field b.v 66 2
/-- WIN. -/
def BindRec.win (b : BindRec) : Nat := field b.v 72 4
/-- n. -/
def BindRec.nwin (b : BindRec) : Nat := field b.v 76 4 + 1
/-- RQUOTA, in bytes. -/
def BindRec.rquota (b : BindRec) : Nat := 512 * field b.v 80 12
/-- OBBASE. -/
def BindRec.obBase (b : BindRec) : Nat := field b.v 96 6
/-- OBSIZE. -/
def BindRec.obSize (b : BindRec) : Nat := field b.v 104 7
/-- BANKS. -/
def BindRec.banks (b : BindRec) : BitVec 4 := BitVec.ofNat 4 (field b.v 112 4)
/-- EPI. -/
def BindRec.epi (b : BindRec) : BitVec 8 := BitVec.ofNat 8 (field b.v 116 8)
/-- RX0. -/
def BindRec.rx0 (b : BindRec) : Nat := field b.v 128 4
/-- RY0. -/
def BindRec.ry0 (b : BindRec) : Nat := field b.v 132 4
/-- The kernel descriptor. -/
def BindRec.kd (b : BindRec) : Nat := b.g.kd.toNat
/-- The cluster's index in the grid (R320). -/
def BindRec.cluster (b : BindRec) : Nat := b.teamId / (b.g.cw * b.g.ch)
/-- TEAM (R320). -/
def BindRec.inCluster (b : BindRec) : Nat := b.teamId % (b.g.cw * b.g.ch)
/-- The core of a team of the rectangle. -/
def BindRec.coreOf (b : BindRec) (team : Nat) : Nat :=
  coreDie b.core * 192 + 16 * (b.ry0 + team / b.g.cw) + b.rx0 + team % b.g.cw
/-- The teams of the grid. -/
def BindRec.total (b : BindRec) : Nat := b.g.x * b.g.y * b.g.z
/-- An entry read as a bind record; none where its grid is not active. -/
def bindRec (s : State) (core entry : Nat) (v : BitVec 256) : Option BindRec :=
  (Assoc.get? s.grids (field v.toNat 8 8)).map fun g => ⟨core, entry, field v.toNat 8 8, g, v.toNat⟩
/-- A pending entry's bind record. -/
def pendingBind (s : State) (core entry : Nat) : Option BindRec :=
  let x := s.slot core entry
  if x.st = .pending then bindRec s core entry x.v else none

/-! ### What a core gives (R119, R322, R364) -/

/-- The resident teams that still hold what a team releases at its end (R336). -/
def holders (s : State) (core : Nat) : List Team := (residents s core).filter fun t => t.st != .ended
/-- The pool values and the window count agree with those of the core's teams (R119). -/
def BindRec.poolOk (b : BindRec) (s : State) : Bool :=
  (residents s b.core).all fun t =>
    t.sp == 4 * kdSp b.kd && t.ring == 4 * kdRing b.kd && t.l1 == 4 * kdL1 b.kd && t.nwin == b.nwin
/-- The width a new team starts at (R322). -/
def BindRec.width (b : BindRec) : Option Nat :=
  widest b.gslots b.rquota (List.range (kdThreads b.kd)) (kdRegMin b.kd) b.wlo b.whi
/-- Two operand-buffer windows, in 4 KiB units, share bytes. -/
def BindRec.meetsBuf (b : BindRec) (t : Team) : Bool :=
  b.obSize != 0 && t.obSize != 0 && overlap b.obBase b.obSize t.obBase t.obSize
/-- Banks, Citrine slots, the operand-buffer window or the top-k state meet those of a resident team (R364). -/
def BindRec.overlaps (b : BindRec) (s : State) : Bool :=
  (holders s b.core).any fun t =>
    b.banks &&& t.banks != 0 || b.epi &&& t.epi != 0 || b.meetsBuf t || (b.tkOwn && t.tkOwn)
/-- The partition's teams on the core. -/
def BindRec.mates (b : BindRec) (ts : List Team) : List Team := ts.filter fun t => t.part == b.part
/-- The entry would take its partition over a quota (R364). Windows count until the cluster releases them (R120),
and of a team's register bytes the greater of RQUOTA and what it holds (R322, log 17). -/
def BindRec.overQuota (b : BindRec) (s : State) : Bool :=
  let q := partQuota s (coreDie b.core) b.part
  let ts := b.mates (holders s b.core)
  decide (pqGslot q < b.gslots + (ts.map (·.gslots)).sum) ||
    decide (pqReg q < b.rquota + (ts.map fun t => max t.rquota (teamRegs s t)).sum) ||
    decide (pqLmem q < 4096 * (kdSp b.kd + kdRing b.kd) + ((b.mates (residents s b.core)).map fun t => 1024 * (t.sp + t.ring)).sum) ||
    decide (pqTeams q < 1 + ts.length)
/-- The entry names a place its grid has: the team is one of the grid and not yet bound, it stands at its place in a
rectangle of the die, and its windows lie within the core (log 17). -/
def BindRec.placed (b : BindRec) : Bool :=
  decide (b.teamId < b.total) && !b.g.bound.contains b.teamId &&
    decide (b.rx0 + b.g.cw ≤ 16 ∧ b.ry0 + b.g.ch ≤ 12 ∧ b.coreOf b.inCluster = b.core)
/-- The windows the entry names lie within the core (log 17). -/
def BindRec.inCore (b : BindRec) : Bool :=
  decide (b.win < b.nwin ∧ b.obBase + b.obSize ≤ 64 ∧ b.nwin * (kdSp b.kd + kdRing b.kd) + kdL1 b.kd ≤ 384)
/-- CX and CY are the table's core (R364). -/
def BindRec.here (b : BindRec) : Bool := field b.v 48 4 + 16 * field b.v 52 4 == b.core % 192
/-- Dispatch refuses the entry (R364, log 17); `width` is the grant it would have. -/
def BindRec.refused (b : BindRec) (s : State) (width : Option Nat) : Bool :=
  !b.here || !b.inCore || !b.poolOk s || width.isNone || b.overlaps s || b.overQuota s
/-- Register bytes of groups at a width and an allocation. -/
def regNeed (threads width alloc : Nat) : Nat := (threads + width - 1) / width * groupBytes width alloc
/-- The register bytes a core has for another team. -/
def BindRec.regRoom (b : BindRec) (s : State) : Nat :=
  if (residents s b.core).isEmpty then 4096 * regGranules b.kd b.nwin else growthPool s b.core
/-- A core's die runs (R446). -/
def dieRuns (s : State) (core : Nat) : Bool := (runningDies s).contains (coreDie core)
/-- Every resource of the entry is free on its core, for a team that needs so many register bytes (R363). -/
def BindRec.free (b : BindRec) (s : State) (need : Nat) : Bool :=
  let ts := holders s b.core
  dieRuns s b.core &&
  (residents s b.core).all (fun t => t.win != b.win) && decide (ts.length < 16) &&
    decide ((ts.map (·.gslots)).sum + b.gslots ≤ 64) && decide (need ≤ b.regRoom s)

/-! ### Binding (R333, R363) -/

/-- A resident grid of the context's partition became active before grid `g` and waits to be bound: no team of `g` binds
(R365). -/
def waitsBefore (s : State) (g c : Nat) : Bool :=
  (s.gridOrder.takeWhile (· ≠ g)).any fun i => match Assoc.get? s.grids i with
    | some x => x.resident && x.bound.isEmpty && (s.ctx x.ctx).part == (s.ctx c).part && takesNew s x.ctx
    | none => false
/-- The entry can be taken now by itself: pending, not refused, and free. -/
def BindRec.ready (b : BindRec) (s : State) : Bool :=
  match b.width with
  | none => false
  | some w => b.placed && !b.refused s (some w) && b.free s (regNeed (kdThreads b.kd) w (kdRegMin b.kd)) &&
      takesNew s b.g.ctx && !waitsBefore s b.grid b.g.ctx
/-- The pending entry of a core that binds a team of a grid. -/
def entryOf (s : State) (core grid teamId : Nat) : Option BindRec :=
  (List.range 64).findSome? fun n => match pendingBind s core n with
    | some b => if b.grid = grid ∧ b.teamId = teamId then some b else none
    | none => none
/-- The entries of the cluster of an entry, on its rectangle. -/
def BindRec.clusterBinds (b : BindRec) (s : State) : List (Option BindRec) :=
  (List.range (b.g.cw * b.g.ch)).map fun i =>
    (entryOf s (b.coreOf i) b.grid (b.cluster * (b.g.cw * b.g.ch) + i)).bind fun x =>
      if x.rx0 = b.rx0 ∧ x.ry0 = b.ry0 then some x else none
/-- Every pending entry of a grid. -/
def gridBinds (s : State) (grid : Nat) : List BindRec :=
  s.slots.filterMap fun (k, _) => (pendingBind s (k / 64) (k % 64)).bind fun b => if b.grid = grid then some b else none
/-- What is bound with an entry, all or nothing: its cluster, and in a resident grid every team (R333, R365); none
where some of it has no entry or is not free. -/
def BindRec.together (b : BindRec) (s : State) : Option (List BindRec) :=
  let one (x : BindRec) : Bool := x.ready s && (x.clusterBinds s).all Option.isSome
  if b.g.resident then
    let bs := gridBinds s b.grid
    if bs.length = b.total && bs.all one && (bs.map (·.core)).eraseDups.length == bs.length then some bs else none
  else
    let bs := (b.clusterBinds s).filterMap id
    if one b && bs.all one then some bs else none
/-- The boundaries of an empty core are set, which empties its L1 (R118, R119, R105). -/
def setBounds (core kd nwin : Nat) (s : State) : State :=
  if (residents s core).isEmpty then
    let ring := 384 - kdL1 kd
    let sp := ring - nwin * kdRing kd
    l1Clear { s with pb := Assoc.put s.pb core ⟨sp - nwin * kdSp kd, sp, ring⟩ } core
  else s
/-- A team runs in interlocked mode (R431). -/
def runsInterlocked (s : State) (c kd : Nat) : Bool :=
  BitVec.ofNat 8 (field kd 200 8) != Config.family || (s.ctx c).interlock
/-- The bound team, with its groups at their formation (R319 to R322). -/
def BindRec.team (b : BindRec) (s : State) (width : Nat) : Team where
  uid := s.nextId
  st := .filling
  core := b.core
  entry := b.entry
  ctx := b.g.ctx
  grid := b.grid
  teamId := b.teamId
  inCluster := b.inCluster
  cluster := b.cluster
  cw := b.g.cw
  ch := b.g.ch
  rx0 := b.rx0
  ry0 := b.ry0
  threads := kdThreads b.kd
  wlo := b.wlo
  whi := b.whi
  grant := width
  gslots := b.gslots
  rquota := b.rquota
  regMin := kdRegMin b.kd
  regMax := kdRegMax b.kd
  prio := BitVec.ofNat 2 (field b.v 2 2)
  part := b.part
  win := b.win
  nwin := b.nwin
  sp := 4 * kdSp b.kd
  ring := 4 * kdRing b.kd
  l1 := 4 * kdL1 b.kd
  rings := BitVec.ofNat 128 (field b.kd 288 128)
  nring := field b.kd 208 8
  banks := b.banks
  epi := b.epi
  tkOwn := b.tkOwn
  obBase := b.obBase
  obSize := b.obSize
  kentry := BitVec.ofNat 64 (field b.kd 64 64)
  argBase := b.g.argBase
  argSize := b.g.argSize.toNat
  codeId := field b.kd 32 32
  interlock := runsInterlocked s b.g.ctx b.kd
  tbar := 0
  groups := (List.range ((kdThreads b.kd + width - 1) / width)).map fun i =>
    .fresh i (BitVec.ofNat 64 (field b.kd 64 64)) s.nextAge (kdRegMin b.kd)
  restored := none
/-- One entry binds. -/
def bindOne (b : BindRec) (s : State) : State :=
  match b.width with
  | none => s
  | some w =>
    let s := moveSlot b.core b.entry .filling (setBounds b.core b.kd b.nwin s)
    let g := (Assoc.get? s.grids b.grid).getD b.g
    { s with
      teams := s.teams ++ [b.team s w]
      nextId := s.nextId + 1
      nextAge := s.nextAge + 1
      grids := Assoc.put s.grids b.grid { g with bound := g.bound ++ [b.teamId] } }
/-- An entry is refused, and logged (R364). -/
def refuseEntry (core entry : Nat) (s : State) : State :=
  logEvent (moveSlot core entry .refused s) 0x0A (coreDie core) (core * 64 + entry)
/-- An entry is bound in ascending order of entries: none below it could be (R363). -/
def firstReady (s : State) (core entry : Nat) : Bool :=
  (List.range entry).all fun n => match pendingBind s core n with
    | some b => (b.together s).isNone
    | none => true
/-- An entry of a new team binds, with those that bind together with it. -/
def bindStep (core entry : Nat) (s : State) : State :=
  if (s.slot core entry).st ≠ .pending then s
  else match pendingBind s core entry with
    | none => refuseEntry core entry s
    | some b =>
      if !b.placed || b.refused s b.width then refuseEntry core entry s
      else match b.together s with
        | none => s
        | some bs => if firstReady s core entry then bs.foldl (fun s x => bindOne x s) s else s

/-! ### The end of a team (R336) -/

/-- The teams of a team's cluster. -/
def clusterOf (s : State) (t : Team) : List Team :=
  s.teams.filter fun u => u.ctx == t.ctx && u.grid == t.grid && u.cluster == t.cluster
/-- Something the team's groups issued is not complete, or the array still serves a pair operation (R336, R228). -/
def teamBusy (s : State) (t : Team) : Bool :=
  s.pend.any (fun p => p.owner.team == t.uid) || s.copies.any (fun c => c.team == t.uid) ||
    s.matq.any (fun m => m.owner.team == t.uid || (m.pair && m.core + 1 == t.core && t.banks.getLsbD m.bank)) ||
    s.walks.any (fun w => w.owner.team == t.uid)
/-- Agate's rings of a team go. -/
def dropRings (uid : Nat) (s : State) : State := { s with rings := s.rings.filter fun (k, _) => k / 2 ^ 64 ≠ uid }
/-- The code of measurement `ord` is no longer in use (R433). -/
def unloadNow (c ord : Nat) (s : State) : State :=
  let x := s.ctx c
  s.setCtx c { x with log := x.log.map fun m => if m.ordinal = ord then { m with inUse := false } else m
                      unloads := x.unloads.filter fun u => u.1 ≠ ord }
/-- A team that holds code has neither ended nor lost its image. -/
def stillHolds (s : State) (c uid : Nat) : Bool :=
  (Assoc.get? (s.ctx c).images uid).isSome || s.teams.any fun t => t.uid == uid && t.st != .ended
/-- Deferred unloads whose last team has ended complete (R426). -/
def settleUnloads (c : Nat) (s : State) : State :=
  (s.ctx c).unloads.foldl (fun s (ord, us) => if us.any (stillHolds s c) then s else unloadNow c ord s) s
/-- A grid counts a team that ended. -/
def countEnded (grid : Nat) (s : State) : State :=
  match Assoc.get? s.grids grid with
  | some g => { s with grids := Assoc.put s.grids grid { g with ended := g.ended + 1 } }
  | none => s
/-- TEAM_END: the team releases what it holds; the cluster's windows go with its last team (R120, R336). -/
def teamEndStep (uid : Nat) (s : State) : State :=
  match s.team? uid with
  | none => s
  | some t =>
    if t.st ≠ .running || !(t.groups.all fun g => g.cond == .ended) || teamBusy s t then s
    else
      let s := dropRings uid (modTeam uid (fun t => { t with st := .ended }) s)
      let s := postEvent t.ctx evBind [BitVec.ofNat 64 (t.core * 64 + t.entry), BitVec.ofNat 64 t.teamId]
        (moveSlot t.core t.entry .ended (countEnded t.grid s))
      let s := if (clusterOf s t).all fun u => u.st == .ended then
          { s with teams := s.teams.filter fun u => !(u.ctx == t.ctx && u.grid == t.grid && u.cluster == t.cluster) }
        else s
      settleUnloads t.ctx s
/-- TEAM_END. -/
def execTeamEnd (team : Nat) (s : State) : Out := .next (teamEndStep team s)

end Sys2Proof.Machine
end

