-- ==== Sys2Proof/Machine/Transcend.lean ====
section
/-! DEFINITION. Values of the special functions to far more than f32 precision, in fixed point with 256 fraction bits,
against which the bounds of R202 are checked. -/

namespace Sys2Proof.Machine

/-- Fraction bits. -/
def fxP : Nat := 256
/-- One. -/
def fxOne : Nat := 2 ^ fxP
/-- A fixed-point product. -/
def fxMul (a b : Nat) : Nat := (a * b) >>> fxP
/-- A fixed-point quotient. -/
def fxDiv (a b : Nat) : Nat := (a <<< fxP) / b
/-- ln 2. -/
def fxLn2 : Nat := 0xb17217f7d1cf79abc9e3b39803f2f6af40f343267298b62d8a0d175b8baafa2b
/-- π/2 with 384 fraction bits. -/
def halfPi : Nat :=
  0x1921fb54442d18469898cc51701b839a252049c1114cf98e804177d4c76273644a29410f31c6809bbdf2a33679a748636
/-- The integer part and the 256-bit fraction of ±m × 2^e, rounding down. -/
def fxSplit (neg : Bool) (m : Nat) (e : Int) : Int × Nat :=
  let s := e + fxP
  let q : Nat := if 0 ≤ s then m <<< s.toNat else m >>> (-s).toNat
  let z : Int := if neg then -(q : Int) else q
  (z / (fxOne : Int), (z % (fxOne : Int)).toNat)

/-- 1 + t/k · (1 + t/(k+1) · …), `n` terms. -/
def expTail (t : Nat) : Nat → Nat → Nat
  | 0, _ => fxOne
  | n + 1, k => fxOne + fxMul t (expTail t n (k + 1)) / k
/-- 2^r for a fraction r. -/
def fxExp2 (r : Nat) : Nat := expTail (fxMul r fxLn2) 48 1
/-- z · (1 + z²/3 + z⁴/5 + …) without the leading z: the series from 1/k on. -/
def atanhTail (z2 : Nat) : Nat → Nat → Nat
  | 0, _ => 0
  | n + 1, k => fxOne / k + fxMul z2 (atanhTail z2 n (k + 2))
/-- log2 of a significand y in [1, 2). -/
def fxLog2 (y : Nat) : Nat :=
  let z := fxDiv (y - fxOne) (y + fxOne)
  fxDiv (2 * fxMul z (atanhTail (fxMul z z) 64 1)) fxLn2
/-- 1 − t²/(k(k+1)) · (1 − …), `n` terms: `k` is 1 for the cosine and 2 for the sine over t. -/
def trigTail (t2 : Nat) : Nat → Nat → Nat
  | 0, _ => fxOne
  | n + 1, k => fxOne - fxMul t2 (trigTail t2 n (k + 2)) / (k * (k + 1))
/-- Sine of t in [0, π/2). -/
def fxSin (t : Nat) : Nat := fxMul t (trigTail (fxMul t t) 30 2)
/-- Cosine of t. -/
def fxCos (t : Nat) : Nat := trigTail (fxMul t t) 30 1
/-- Quadrant and remainder of a magnitude. -/
def fxReduce (m : Nat) (e : Int) : Nat × Nat :=
  let s := e + 384
  let q : Nat := if 0 ≤ s then m <<< s.toNat else m >>> (-s).toNat
  (q / halfPi % 4, (q % halfPi) >>> 128)

/-- A fixed-point magnitude as a value. -/
def fxVal (neg : Bool) (x : Nat) : FV := .num neg x (-(fxP : Int))

/-- Sine of ±m × 2^e (`c` false), or cosine. -/
def trigVal (c : Bool) (neg : Bool) (m : Nat) (e : Int) : FV :=
  let (k, t) := fxReduce m e
  let k := if c then (k + 1) % 4 else k
  let mag := if k % 2 = 0 then fxSin t else fxCos t
  fxVal ((!c && neg) != decide (2 ≤ k)) mag
/-- 2^x of a finite x below 2^10 in magnitude. -/
def exp2Val (neg : Bool) (m : Nat) (e : Int) : FV :=
  let (n, r) := fxSplit neg m e
  if r = 0 then .num false 1 n else .num false (fxExp2 r) (n - fxP)
/-- log2 of a positive m × 2^e. -/
def log2Val (m : Nat) (e : Int) : FV :=
  let n := log2 m
  let z : Int := ((n : Int) + e) * fxOne + fxLog2 ((m <<< fxP) >>> n)
  .num (decide (z < 0)) z.natAbs (-(fxP : Int))
/-- tanh of ±m × 2^e. -/
def tanhVal (neg : Bool) (m : Nat) (e : Int) : FV :=
  if m = 0 then .num neg 0 0
  else if 5 ≤ (log2 m : Int) + e then fxVal neg (fxOne - 1)
  else
    let x2 := (fxSplit false m (e + 1)).1.toNat * fxOne + (fxSplit false m (e + 1)).2
    let y := fxDiv x2 fxLn2
    let ex := fxExp2 (y % fxOne) <<< (y / fxOne)
    fxVal neg (fxDiv (ex - fxOne) (ex + fxOne))

/-- The unit in the last place of a finite value of f32: the exponent of the spacing of its binade. -/
def ulpExp (m : Nat) (e : Int) : Int := if m = 0 then -149 else max ((log2 m : Int) + e - 23) (-149)
/-- |y − a| ≤ k × 2^u. -/
def closeTo (y a : FV) (k : Nat) (u : Int) : Bool :=
  match fsum false [y, a.neg] with
  | .num _ m e => fcmp (.num false m e) (.num false k u) != some .gt
  | _ => false

end Sys2Proof.Machine
end

