-- ==== Sys2Proof/Machine/EpiTables.lean ====
section
/-! DEFINITION. The tables of `gelu` and `silu` (R248), from fixed-point values with 256 fraction bits. -/

namespace Sys2Proof.Machine

/-- √(2π). -/
def fxSqrt2Pi : Nat := isqrt 300 (4 * halfPi * 2 ^ 128)
/-- e^t. -/
def fxExp (t : Nat) : Nat := let y := fxDiv t fxLn2; fxExp2 (y % fxOne) <<< (y / fxOne)
/-- 1 + t/k · (1 + t/(k+2) · …), `n` terms. -/
def oddTail (t : Nat) : Nat → Nat → Nat
  | 0, _ => fxOne
  | n + 1, k => fxOne + fxMul t (oddTail t n (k + 2)) / k
/-- Φ(x) − 1/2 for x in [0, 8]: x · (1 + x²/3 · (1 + x²/5 · …)) / (√(2π) · e^(x²/2)). -/
def fxPhi (x : Nat) : Nat :=
  let x2 := fxMul x x
  fxDiv (fxMul x (oddTail x2 320 3)) (fxMul fxSqrt2Pi (fxExp (x2 / 2)))
/-- The magnitude of x_i = −8 + i/32. -/
def tableX (i : Nat) : Nat := (if i < 256 then 256 - i else i - 256) * (fxOne / 32)
/-- Entry `i` of a table in f32 (R248). -/
def tableEntry (silu : Bool) (i : Nat) : FV :=
  let x := tableX i
  let y :=
    if silu then
      let e := fxExp x
      fxMul x (if i < 256 then fxDiv fxOne (fxOne + e) else fxDiv e (fxOne + e))
    else fxMul x (if i < 256 then fxOne / 2 - fxPhi x else fxOne / 2 + fxPhi x)
  f32v (fround f32 0 false (fxVal (decide (i < 256)) y))
/-- The interpolated function on a flushed input (R248); RNE throughout. -/
def tableFn (silu : Bool) (x : FV) : FV :=
  let r (y : FV) : FV := f32v (fround f32 0 false y)
  match x with
  | .nan => .nan
  | .inf neg => if neg then .num true 0 0 else x
  | .num _ _ _ =>
    if fcmp x (ofInt 8) != some .lt then x
    else if fcmp x (ofInt (-8)) == some .lt then .num true 0 0
    else match fsum false [x, ofInt 8] with
      | .num _ m e =>
        let e := e + 5
        let i := if 0 ≤ e then m <<< e.toNat else m >>> (-e).toNat
        let f := r (if 0 ≤ e then .num false 0 0 else .num false (m - i <<< (-e).toNat) e)
        let a := tableEntry silu i
        let d := r (fsum false [tableEntry silu (i + 1), a.neg])
        r (fsum false [a, r (d.mul f)])
      | _ => .nan

end Sys2Proof.Machine
end

