-- ==== Sys2Proof/Machine/Matrix.lean ====
section
/-! DEFINITION. The matrix array (R212 to R237): the queue and its order, reservations, descriptors, operand reads,
the arithmetic of a row, and row progress. Form 0 is `mma`, 1 `mmab`, 2 `mmas`. -/

namespace Sys2Proof.Machine

/-! ### The queue (R214, R223, R228) -/

/-- The operation holds an entry of the core's queue: as its own, or as the follower of a pair (R228). -/
def MatOp.onCore (m : MatOp) (core : Nat) : Bool := m.core == core || (m.pair && m.core + 1 == core)
/-- An operation that Citrine performs, or that is ordered with drains (R214). -/
def MatOp.citrine (m : MatOp) : Bool :=
  match m.kind with
  | .zero | .mma _ _ _ _ _ _ => false
  | _ => true
/-- The operation names a bank. -/
def MatOp.banked (m : MatOp) : Bool := m.onBank m.bank
/-- The records an operation captures into (R222). -/
def MatOp.captures (m : MatOp) : List Rsv :=
  match m.kind with
  | .mma _ _ _ d oa ob => (if d.getLsbD 202 then [oa] else []) ++ (if d.getLsbD 203 then [ob] else [])
  | _ => []
/-- The records it reads the operand buffer through (R223, R225). -/
def MatOp.bufReads (m : MatOp) : List Rsv :=
  match m.kind with
  | .mma form _ _ d oa ob =>
    (if field d.toNat 192 2 = 2 || (form == 2 && d.getLsbD 204) then [oa] else []) ++
      (if field d.toNat 194 2 = 2 then [ob] else [])
  | _ => []
/-- Two lists of records share a byte. -/
def rsvMeet (xs ys : List Rsv) : Bool :=
  xs.any fun x => ys.any fun y => overlap x.base.toNat x.len.toNat y.base.toNat y.len.toNat
/-- The later operation `m` waits for the earlier `q` (R214, R223, R228). -/
def MatOp.after (q m : MatOp) : Bool :=
  (q.banked && m.banked && q.bank == m.bank &&
    (q.core == m.core || (q.pair && q.core + 1 == m.core) || (m.pair && m.core + 1 == q.core))) ||
  (m.pair && q.core == m.core + 1) ||
  (q.core == m.core && q.citrine && m.citrine) ||
  (q.core == m.core && q.owner.team == m.owner.team && rsvMeet q.captures (m.captures ++ m.bufReads))
/-- The operations accepted before one. -/
def earlierOps (s : State) (id : Nat) : List MatOp := s.matq.takeWhile fun q => q.id != id
/-- The operation's turn has come. -/
def matReady (s : State) (m : MatOp) : Bool := m.susp.isNone && !(earlierOps s m.id).any fun q => q.after m
/-- A queued operation by name. -/
def State.mat? (s : State) (id : Nat) : Option MatOp := s.matq.find? fun m => m.id == id
/-- Replace a queued operation. -/
def setMat (m : MatOp) (s : State) : State := { s with matq := s.matq.map fun q => if q.id = m.id then m else q }
/-- The operation retires. -/
def dropMat (id : Nat) (s : State) : State := { s with matq := s.matq.filter fun q => q.id ≠ id }
/-- Sixteen accepted operations are unretired (R214). -/
def queueFull (s : State) (core : Nat) : Bool := decide (16 ≤ s.matq.countP fun m => m.onCore core)
/-- Accept an operation, or wait for an entry; RMODE is sampled (R214, R75). -/
def acceptMat (bank : Nat) (pair : Bool) (k : MatKind) (ds : List RegDst) (e : Env) : Res :=
  let s := e.st
  if queueFull s e.core || (pair && queueFull s (e.core + 1)) then .wait s .retry
  else
    let s := modGroup e.gid (Group.marks true ds) s
    .done { s with
      matq := s.matq ++ [⟨s.nextId, e.gid, e.team.ctx, e.core, bank, pair, k, e.grp.rmode, 0, false, [], 0, [], none, none⟩]
      nextId := s.nextId + 1 }

/-! ### Row progress (R231, R232) -/

/-- Set ROWS of the operation's bank, and of the follower's. -/
def setRows (m : MatOp) (n : Nat) (s : State) : State :=
  let s := s.setMrp m.core m.bank { s.mrpOf m.core m.bank with rows := n }
  if m.pair then s.setMrp (m.core + 1) m.bank { s.mrpOf (m.core + 1) m.bank with rows := n } else s
/-- The operation ends in error at its row and retires (R232). -/
def matFail (m : MatOp) (ecause addr : Nat) (s : State) : State :=
  let s := setRows m m.row s
  let r := s.mrpOf m.core m.bank
  dropMat m.id (s.setMrp m.core m.bank
    { r with susp := false, err := true, ecause := BitVec.ofNat 6 ecause, addr := BitVec.ofNat 64 addr })
/-- The operation suspends at its row until the fault is answered (R232). -/
def matSuspend (m : MatOp) (engine va acc : Nat) (s : State) : State :=
  let (s, ord) := postFault m.ctx va acc (agentOf m.core engine) (setRows m m.row s)
  let s := s.setMrp m.core m.bank { s.mrpOf m.core m.bank with susp := true, addr := BitVec.ofNat 64 va }
  setMat { m with susp := some ord, run := none } s
/-- ERR stands on a bank the operation is accepted on (R232). -/
def bankErr (s : State) (m : MatOp) : Bool :=
  m.banked && ((s.mrpOf m.core m.bank).err || (m.pair && (s.mrpOf (m.core + 1) m.bank).err))

/-! ### Issue -/

/-- A matrix trap (R234). -/
def mtxTrap (e : Env) (detail : Nat) : Res := .trap e.st { cause := 0x0D, detail := detail }
/-- A pair operation of the west neighbour holds the core's array (R228). -/
def slaved (e : Env) : Bool := e.st.matq.any fun m => m.pair && m.core + 1 == e.core
/-- A matrix instruction: refused in early service (R446), and held while the array is slaved (R228). -/
def matBody (body : Env → Res) : Env → Res := inService fun e => if slaved e then .wait e.st .retry else body e
/-- A local or global store of the group is still under way (R230). -/
def storesOut (s : State) (gid : Gid) : Bool :=
  s.pend.any fun p => p.owner == gid && (match p.kind with | .store _ | .rstl _ _ => true | _ => false)
/-- Wait for the group's earlier stores and commit an open region, whose stores count as earlier ones (R230, R241). -/
def afterStores (body : Env → Res) (e : Env) : Res :=
  if storesOut e.st e.gid then .wait e.st .retry
  else
    let e := e.at (commitRegion e.gid e.st)
    if storesOut e.st e.gid then .wait e.st .retry else body e

/-! ### Reservations (R220, R221) -/

/-- A reservation record of a group. -/
def Env.rsv (e : Env) (n : Nat) : Rsv := (Assoc.get? e.grp.o n).getD .empty
/-- Record A is needed: AK 2, CAPA, `mmab`, or metadata in the buffer (R217, R225). -/
def needA (form d : Nat) : Bool := field d 192 2 == 2 || bitAt d 202 || form == 1 || (form == 2 && bitAt d 204)
/-- Record B is needed (R217). -/
def needB (form d : Nat) : Bool := field d 194 2 == 2 || bitAt d 203 || form == 1
/-- The operation names a record. -/
def MatOp.names (m : MatOp) (n : Nat) : Bool :=
  match m.kind with
  | .mma form _ _ d _ _ =>
    (needA form d.toNat && field d.toNat 196 3 == n) || (needB form d.toNat && field d.toNat 199 3 == n)
  | _ => false
/-- Wait until the group's operations that name the record have retired, then the body (R221). -/
def rsvBody (f : Slk) (body : Env → Res) : Env → Res :=
  matBody (committing fun e =>
    if e.st.matq.any fun m => m.owner == e.gid && m.names (opNum f.d) then .wait e.st .retry else body e)
/-- Write a record. -/
def putRsv (e : Env) (f : Slk) (r : Rsv) : Res :=
  .done (e.mod fun g => { g with o := Assoc.wr .empty g.o (opNum f.d) r })
/-- `orsv` (R221). -/
def orsvBody (f : Slk) (e : Env) : Res :=
  let base := e.n32 0 (.op f.s1)
  let len := e.n32 0 (.op f.s2)
  if base % 128 ≠ 0 ∨ len % 128 ≠ 0 ∨ e.team.obSize * 4096 < base + len then mtxTrap e 0x05
  else putRsv e f ⟨true, BitVec.ofNat 18 base, BitVec.ofNat 19 len, BitVec.ofNat 4 (fFa f), fFb f == 1,
    BitVec.ofNat 32 (e.uni f.s3 0), BitVec.ofNat 32 (e.uni f.s4 0)⟩
/-- `orsv`. -/
def execOrsv (f : Slk) (s : State) : Out := issue (.orsv f) f (rsvBody f (orsvBody f)) s
/-- `orel`. -/
def execOrel (f : Slk) (s : State) : Out :=
  issue (.orel f) f (rsvBody f fun e => putRsv e f { e.rsv (opNum f.d) with valid := false }) s

/-! ### Descriptor and operand layout (R217, R218, R224, R225) -/

/-- K (R217). -/
def dK (d : Nat) : Nat := 16 * field d 208 9
/-- MLIVE. -/
def dRows (d : Nat) : Nat := field d 217 7
/-- PAT. -/
def dPat (d : Nat) : Nat := field d 205 3
/-- MD. -/
def dMd (d : Nat) : Nat := field d 224 32

/-- One operand of an operation: source kind, base, stride, element type, record, and the K of its stored elements. -/
structure Side where
  kind : Nat
  ptr : Nat
  str : Nat
  ty : Nat
  rv : Rsv
  cap : Bool
  len : Nat
  deriving DecidableEq, Repr

/-- Stored K positions of a row of A: the kept elements under `mmas` (R225). -/
def keptK (form d : Nat) : Nat := if form ≠ 2 then dK d else if dPat d = 2 then dK d / 4 else dK d / 2
/-- Operand A. -/
def sideA (form fa d : Nat) (oa : Rsv) : Side :=
  ⟨field d 192 2, field d 0 64, field d 128 32, fa, oa, bitAt d 202, keptK form d⟩
/-- Operand B. -/
def sideB (fb d : Nat) (ob : Rsv) : Side := ⟨field d 194 2, field d 64 64, field d 160 32, fb, ob, bitAt d 203, dK d⟩
/-- Bytes of `k` elements (R218). -/
def elemBytes (ty k : Nat) : Nat := if ty = 2 then k / 2 else k * (tyBits ty / 8)
/-- The reads of the row or column at byte `off` from the base: the elements, then under `mmab` the scale of each block,
then the spare of each e2m1 block (R218, R224). -/
def Side.reads (x : Side) (form off : Nat) : List (Int × Nat) :=
  let b := if x.ty = 2 then 64 else 128
  let scale (c : Nat) : Int := toSigned 32 x.rv.scoff.toNat + ((off + c * b) / b : Nat)
  let cs := List.range (x.len / 128)
  ((off : Int), elemBytes x.ty x.len) ::
    (if form = 1 then
      cs.map (fun c => (scale c, 1)) ++
        (if x.ty = 2 then cs.map fun c => (scale c + toSigned 32 x.rv.spoff.toNat, 1) else [])
    else [])
/-- Bytes of metadata of a row (R225). -/
def metaBytes (d : Nat) : Nat := if dPat d = 2 then dK d / 16 else dK d / 8
/-- Where the metadata of row `m` begins, from A's base (R222). -/
def metaOff (d m : Nat) : Int := toSigned 64 (ofSigned 64 ((dMd d + m * metaBytes d : Nat) - (field d 0 64 : Nat)))

/-- The scratchpad window and offset a matrix local address names: pool key of the window, its bytes, the offset
(R218). -/
def matLocal (s : State) (t : Team) (a : Nat) : Option (Nat × Nat × Nat) :=
  let off := a % 2 ^ 21
  if field a 30 2 = 0 then
    if bitAt a 29 && t.coreAt (field a 21 4) (field a 25 4) != t.core then none
    else some (windowKey s t false, t.window false, off)
  else if field a 30 2 = 2 && field a 25 5 == 0 then
    let k := field a 21 4
    if decide (k < t.nwin) && s.teams.any fun u => u.core == t.core && u.ctx == t.ctx && u.win == k && u.st != .ended then
      some (windowKey s { t with win := k } false, t.window false, off)
    else none
  else none

/-! ### Checks at issue (R234) -/

/-- Every read of an operand lies in its record (R222, R223). -/
def Side.inRecord (x : Side) (form count : Nat) : Bool :=
  let base : Int := if x.kind = 2 then x.ptr else 0
  (List.range count).all fun m => (x.reads form (m * x.str)).all fun (o, n) =>
    decide (0 ≤ base + o ∧ base + o + n ≤ (x.rv.len.toNat : Int))
/-- The record of an operand is invalid or mismatched, or a byte falls outside it (row 5). -/
def Side.badRecord (x : Side) (form count : Nat) : Bool :=
  !x.rv.valid || x.rv.fmt.toNat != x.ty || (form == 1 && !x.rv.blk) || (x.kind == 2 && x.cap) ||
    ((x.kind == 2 || x.cap) && !x.inRecord form count)
/-- Metadata read from, or captured into, record A falls outside it (R222, R223). -/
def metaOutside (d : Nat) (oa : Rsv) : Bool :=
  let n := dRows d * metaBytes d
  if bitAt d 204 then decide (oa.len.toNat < dMd d + n)
  else bitAt d 202 && decide (metaOff d 0 < 0 ∨ (oa.len.toNat : Int) < metaOff d 0 + n)
/-- An operand's base breaks R217 or R218 (row 4). -/
def Side.badBase (s : State) (t : Team) (x : Side) : Bool :=
  x.kind == 3 || (x.kind != 0 && decide (2 ^ 32 ≤ x.ptr)) || (x.kind == 1 && (matLocal s t x.ptr).isNone)
/-- An operand's base or stride is not aligned (row 8). -/
def Side.misaligned (x : Side) : Bool :=
  let n := if x.ty = 2 then 64 else 16
  x.ptr % n != 0 || x.str % n != 0
/-- The pair conditions of R227 hold; a team that has ended has released its banks (R336). -/
def pairOk (e : Env) (bank : Nat) : Bool :=
  decide (e.core % 16 + 1 < e.team.rx0 + e.team.cw) &&
    (match clusterTeam e.st e.team (e.core + 1) with
    | some u => u.st != .ended && u.banks.getLsbD bank
    | none => false)
/-- The first failing row of R234. -/
def mmaCheck (form : Nat) (f : Slk) (e : Env) (d : Nat) (oa ob : Rsv) : Option Nat :=
  let a := sideA form (fFa f) d oa
  let b := sideB (fFb f) d ob
  let bank := opNum f.d
  if !e.team.banks.getLsbD bank then some 0x01
  else if dK d = 0 ∨ (form = 1 ∧ dK d % 128 ≠ 0) then some 0x02
  else if dRows d = 0 ∨ (64 < dRows d ∧ !fV f) then some 0x03
  else if a.badBase e.st e.team || b.badBase e.st e.team ||
      (form == 2 && !bitAt d 204 && (matLocal e.st e.team (dMd d)).isNone) then some 0x04
  else if (needA form d && a.badRecord form (dRows d)) || (needB form d && b.badRecord form 48) ||
      (form == 2 && metaOutside d oa) then some 0x05
  else if (dPat d ≠ 0) != (form == 2) || decide (4 ≤ dPat d) then some 0x06
  else if fV f && !pairOk e bank then some 0x07
  else if a.misaligned || b.misaligned || dMd d % 16 != 0 then some 0x08
  else if form ≠ 2 ∧ dMd d ≠ 0 then some 0x09
  else none
/-- `mma`, `mmab` and `mmas` at issue (R235). -/
def mmaBody (form : Nat) (f : Slk) (e : Env) : Res :=
  let d := e.wide 0 f.s1 8
  let oa := e.rsv (field d 196 3)
  let ob := e.rsv (field d 199 3)
  match mmaCheck form f e d oa ob with
  | some k => mtxTrap e k
  | none => afterStores (acceptMat (opNum f.d) (fV f)
      (.mma form (BitVec.ofNat 4 (fFa f)) (BitVec.ofNat 4 (fFb f)) (BitVec.ofNat 256 d) oa ob) []) e
/-- `mma`. -/
def execMma (f : Slk) (s : State) : Out := issue (.mma f) f (matBody (mmaBody 0 f)) s
/-- `mmab`. -/
def execMmab (f : Slk) (s : State) : Out := issue (.mmab f) f (matBody (mmaBody 1 f)) s
/-- `mmas`. -/
def execMmas (f : Slk) (s : State) : Out := issue (.mmas f) f (matBody (mmaBody 2 f)) s
/-- `mzero` (R233). -/
def mzeroBody (f : Slk) (e : Env) : Res :=
  if !e.team.banks.getLsbD (opNum f.d) then mtxTrap e 0x01
  else if fV f && !pairOk e (opNum f.d) then mtxTrap e 0x07
  else acceptMat (opNum f.d) (fV f) .zero [] e
/-- `mzero`. -/
def execMzero (f : Slk) (s : State) : Out := issue (.mzero f) f (matBody (committing (mzeroBody f))) s

/-! ### Operand reads (R229, R231) -/

/-- Why a read of a row did not succeed: a held line, a page fault (VA, ACC), or an ECAUSE with its address. -/
inductive MatStop where
  | hold
  | page (va acc : Nat)
  | bad (ecause addr : Nat)
  deriving DecidableEq, Repr
/-- The failure of an engine's access at VA `a` (R231). -/
def matStop (a : Nat) : Stop → MatStop
  | .hold => .hold
  | .fault va acc => .page va acc
  | .bound => .bad 0x12 a
  | .prot => .bad 0x11 a
  | .poison => .bad 0x13 a
/-- The group has an operation, posted before the matrix operation was accepted, that is still to write one of the bytes: the
row's reads stand at the instruction's place in the order of R261 (R230). -/
def matBefore (s : State) (m : MatOp) (loc n : Nat) : Bool :=
  (s.pend.any fun p => p.before m.owner (some m.id) && p.touches s loc n) || listBefore s m.owner (some m.id) false loc n
/-- A row reads `n` bytes at `ptr + disp` (R229, R230). -/
def matLoad (m : MatOp) (ptr : Nat) (disp : Int) (n : Nat) (s : State) : State × Except Stop (List Byte) :=
  match engineReach s m.ctx ptr disp n 1 .read with
  | (s, .error x) => (s, .error x)
  | (s, .ok ps) =>
    if ps.any fun (loc, _, n) => matBefore s m loc n then (s, .error .hold)
    else
      let (s, bs, p) := engineRead s (coreDie m.core) ps
      (s, if p then .error .poison else .ok bs)
/-- Read the sectors of a global range in order. -/
def globalPieces (m : MatOp) (ptr : Nat) : List (Nat × Nat) → State → State × Except MatStop (List Byte)
  | [], s => (s, .ok [])
  | (a, n) :: ps, s =>
    match matLoad m ptr ((a : Int) - (ptr % 2 ^ 57 : Nat)) n s with
    | (s, .error x) => (s, .error (matStop a x))
    | (s, .ok bs) => match globalPieces m ptr ps s with
      | (s, .ok l) => (s, .ok (bs ++ l))
      | r => r
/-- The operand buffer's bytes [a, a + n) of a core. -/
def bufBytes (s : State) (core a : Nat) : Nat → List Byte
  | 0 => []
  | n + 1 => Assoc.rd 0 s.opbuf (core * 2 ^ 18 + a) :: bufBytes s core (a + 1) n
/-- Read `n` bytes of a source at byte `off` from its base. -/
def sourceRead (m : MatOp) (t : Team) (kind ptr : Nat) (rv : Rsv) (off : Int) (n : Nat) (s : State) :
    State × Except MatStop (List Byte) :=
  if kind = 1 then
    match matLocal s t ptr with
    | none => (s, .error (.bad 0x12 ptr))
    | some (key, size, o) =>
      let x : Int := o + off
      if x < 0 ∨ (size : Int) < x + n then (s, .error (.bad 0x12 (ofSigned 32 (ptr + off))))
      else
        let (s, bs, bad) := poolRead s (key + x.toNat) n
        (s, if bad then .error (.bad 0x13 (ofSigned 32 (ptr + off))) else .ok bs)
  else if kind = 2 then
    (s, .ok (bufBytes s m.core (4096 * t.obBase + rv.base.toNat + (ptr + off).toNat) n))
  else
    let va : Int := (ptr % 2 ^ 57 : Nat) + off
    if va < 0 then (s, .error (.bad 0x12 (ofSigned 64 va)))
    else globalPieces m ptr (segs 64 va.toNat n) s
/-- Read a list of places of an operand. -/
def sideReads (m : MatOp) (t : Team) (x : Side) : List (Int × Nat) → State → State × Except MatStop (List (List Byte))
  | [], s => (s, .ok [])
  | (o, n) :: ps, s => match sourceRead m t x.kind x.ptr x.rv o n s with
    | (s, .error r) => (s, .error r)
    | (s, .ok bs) => match sideReads m t x ps s with
      | (s, .ok l) => (s, .ok (bs :: l))
      | r => r

/-- A row or column as read: element codes, scales and spares by block. -/
structure MatLine where
  codes : List Nat
  scales : List Nat
  spares : List Nat
  deriving DecidableEq, Repr

/-- The 16-bit elements of a byte string. -/
def halfWords : List Byte → List Nat
  | a :: b :: bs => (a.toNat + 256 * b.toNat) :: halfWords bs
  | _ => []
/-- Element `k` of a bit-plane unit of 128 e2m1 codes (R69). -/
def planeCode (u k : Nat) : Nat :=
  (List.range 4).foldl (fun c i => if bitAt u (128 * i + k) then c + 2 ^ i else c) 0
/-- The codes of `n` units of 64 bytes. -/
def planeUnits : Nat → List Byte → List Nat
  | 0, _ => []
  | n + 1, bs =>
    let u := ofBytes (bs.take 64)
    (List.range 128).map (planeCode u) ++ planeUnits n (bs.drop 64)
/-- The element codes of a type in a byte string (R218). -/
def lineCodes (ty : Nat) (bs : List Byte) : List Nat :=
  if ty = 2 then planeUnits (bs.length / 64) bs
  else if tyBits ty = 16 then halfWords bs
  else bs.map (·.toNat)
/-- The line that the reads of its chunks deliver: of each its elements, scale and spare. -/
def mkLine (x : Side) (ds : List (List (List Byte))) : MatLine :=
  let nth (i : Nat) : List Nat := ds.filterMap fun d => d[i]?.map ofBytes
  ⟨lineCodes x.ty (ds.flatMap fun d => d.headD []), nth 1, nth 2⟩
/-- The 64-bit or wider number of metadata expands a row of kept codes to K positions; none where a group is invalid
(R225). -/
def expandRow (pat x : Nat) : Nat → Nat → List Nat → Option (List Nat)
  | 0, _, _ => some []
  | k + 1, g, kept =>
    let grp : Option (List Nat × Nat) :=
      if pat = 2 then
        let p := field x (2 * g) 2
        some ((List.range 4).map fun i => if i = p then kept.headD 0 else 0, 1)
      else if pat = 1 then
        let p0 := field x (4 * g) 2
        let p1 := field x (4 * g + 2) 2
        if p1 ≤ p0 then none
        else some ((List.range 4).map fun i => if i = p0 then kept.headD 0 else if i = p1 then (kept.drop 1).headD 0 else 0, 2)
      else
        let m := field x (8 * g) 8
        if popCount 8 m ≠ 4 then none
        else some ((List.range 8).map fun i =>
          if bitAt m i then (kept.drop (popCount i m)).headD 0 else 0, 4)
    match grp with
    | none => none
    | some (ys, n) => (expandRow pat x k (g + 1) (kept.drop n)).map (ys ++ ·)

/-! ### Arithmetic of a row (R226) -/

/-- The list cut into `k` pieces of `n`. -/
def chunksOf {α : Type} (n : Nat) : Nat → List α → List (List α)
  | 0, _ => []
  | k + 1, l => l.take n :: chunksOf n k (l.drop n)
/-- The values of a line's elements, subnormals flushed where SUB flushes inputs (R226). -/
def lineVals (form ty rmode : Nat) (l : MatLine) : List FV :=
  if form = 1 then
    ((List.range l.codes.length).zip l.codes).map fun (i, c) =>
      blockDec ty (if ty = 2 then c else fin rmode (fmtOf ty) c) (l.spares.getD (i / 128) 0)
  else l.codes.map fun c => fdec (fmtOf ty) (fin rmode (fmtOf ty) c)
/-- The exact sum of a chunk's products. -/
def chunkSum (a b : List FV) : FV := fsum false (List.zipWith FV.mul a b)
/-- A block's partial: the sum with both scales (R226). -/
def blockPart (p : FV) (sa sb : Nat) : FV :=
  if sa = 255 ∨ sb = 255 then .nan else p.scale ((sa : Int) - 127 + ((sb : Int) - 127))
/-- Add a partial to an element: one rounding to FP32, RNE but for `mmab` (R226). -/
def addPart (form rmode acc : Nat) (p : FV) : Nat :=
  let rm := if form = 1 then rmode else rmode / 8 * 8
  ffin f32 rm false (fsum (isRdn rm) [fdec f32 (fin rm f32 acc), p])
/-- The number of K positions of a chunk or block (R226). -/
def chunkLen (form ty : Nat) : Nat := if form = 1 then 128 else if tyBits ty = 16 then 8 else 16
/-- A line's values by chunk, with their scales. -/
def lineChunks (form ty rmode : Nat) (l : MatLine) : List (List FV × Nat) :=
  let n := chunkLen form ty
  let cs := chunksOf n (l.codes.length / n) (lineVals form ty rmode l)
  cs.zip (if form = 1 then l.scales else cs.map fun _ => 127)
/-- An element of float type after every chunk, in ascending K. -/
def floatElem (form rmode acc : Nat) (a b : List (List FV × Nat)) : Nat :=
  (List.zipWith (fun (x : List FV × Nat) (y : List FV × Nat) =>
    if form = 1 then blockPart (chunkSum x.1 y.1) x.2 y.2 else chunkSum x.1 y.1) a b).foldl (addPart form rmode) acc
/-- An element of integer type (R226). -/
def intElem (fa fb acc : Nat) (a b : List Nat) : Nat :=
  let v (t x : Nat) : Int := if tySigned t then toSigned 8 x else x
  ofSigned 32 ((List.zipWith (fun x y => v fa x * v fb y) a b).foldl (· + ·) (acc : Int))
/-- The 48 elements of a row after the operation. -/
def rowValues (form fa fb rmode : Nat) (old : Nat → Nat) (a : MatLine) (bs : List MatLine) : List Nat :=
  if fa = 12 ∨ fa = 13 then
    ((List.range 48).zip bs).map fun (n, b) => intElem fa fb (old n) a.codes b.codes
  else
    let ca := lineChunks form fa rmode a
    ((List.range 48).zip bs).map fun (n, b) => floatElem form rmode (old n) ca (lineChunks form fb rmode b)

/-! ### Performing -/

/-- A captured read: the record and offset it goes to, and its bytes (R222). -/
def captured (x : Side) (ps : List (Int × Nat)) (ds : List (List Byte)) : List (Nat × List Byte) :=
  if x.cap then (ps.zip ds).map fun ((o, _), d) => (x.rv.base.toNat + o.toNat, d) else []
/-- The reads of chunk `c` of `n` of the row or column at byte `off`: its elements, and under `mmab` its scale and spare
(R235). -/
def Side.chunkReads (x : Side) (form off n c : Nat) : List (Int × Nat) :=
  let b := elemBytes x.ty x.len / n
  (((off + c * b : Nat) : Int), b) ::
    (((x.reads form off).drop 1).zip (List.range (2 * n))).filterMap fun (p, i) => if i % n = c then some p else none
/-- What the reads of one chunk bring: of A, of its metadata, of each column of B by its offset, and what is captured. -/
structure ChunkRead where
  a : List (List Byte)
  md : List Byte
  cols : List (Nat × List (List Byte))
  caps : List (Nat × List Byte)
  deriving DecidableEq, Repr
/-- Chunk `c` of the columns at a list of offsets, each read once (R230). -/
def readCols (m : MatOp) (t : Team) (x : Side) (form n c : Nat) :
    List Nat → State → State × Except MatStop (List (Nat × List (List Byte)) × List (Nat × List Byte))
  | [], s => (s, .ok ([], []))
  | o :: os, s =>
    match sideReads m t x (x.chunkReads form o n c) s with
    | (s, .error r) => (s, .error r)
    | (s, .ok ds) => match readCols m t x form n c os s with
      | (s, .error r) => (s, .error r)
      | (s, .ok (ls, cs)) => (s, .ok ((o, ds) :: ls, captured x (x.chunkReads form o n c) ds ++ cs))
/-- The bytes of metadata that chunk `c` of the row needs and no chunk before it has read (R225), with what is captured
of them (R222); `old` are those read before. -/
def readMeta (m : MatOp) (t : Team) (form d : Nat) (x : Side) (n c : Nat) (old : List Byte) (s : State) :
    State × Except MatStop (List Byte × List (Nat × List Byte)) :=
  if form ≠ 2 then (s, .ok ([], []))
  else
    let inBuf := bitAt d 204
    let lo := (c * metaBytes d + n - 1) / n
    let len := ((c + 1) * metaBytes d + n - 1) / n - lo
    let off := m.row * metaBytes d
    let groups := dK d / n / (if dPat d = 3 then 8 else 4)
    match if len = 0 then (s, .ok []) else sourceRead m t (if inBuf then 2 else 1) (dMd d) x.rv (off + lo : Nat) len s with
    | (s, .error r) => (s, .error r)
    | (s, .ok bs) =>
      if (expandRow (dPat d) (ofBytes (old ++ bs)) groups (c * groups) []).isNone then (s, .error (.bad 0x14 (dMd d + off)))
      else (s, .ok (bs, if x.cap && !inBuf then [(x.rv.base.toNat + (metaOff d m.row + lo).toNat, bs)] else []))
/-- Chunk `c` of row `m.row`: A with its metadata, then the columns of B (R235). -/
def readChunk (m : MatOp) (t : Team) (form d : Nat) (a b : Side) (n : Nat) (old : List Byte) (c : Nat) (s : State) :
    State × Except MatStop ChunkRead :=
  let ps := a.chunkReads form (m.row * a.str) n c
  match sideReads m t a ps s with
  | (s, .error r) => (s, .error r)
  | (s, .ok da) => match readMeta m t form d a n c old s with
    | (s, .error r) => (s, .error r)
    | (s, .ok (md, capM)) => match readCols m t b form n c ((List.range 48).map (· * b.str)).eraseDups s with
      | (s, .error r) => (s, .error r)
      | (s, .ok (cols, capB)) => (s, .ok ⟨da, md, cols, captured a ps da ++ capM ++ capB⟩)
/-- The chunks of a row in ascending K; the first read that fails ends them (R235). -/
def readChunks (m : MatOp) (t : Team) (form d : Nat) (a b : Side) (n : Nat) :
    List Nat → List Byte → State → State × Except MatStop (List ChunkRead)
  | [], _, s => (s, .ok [])
  | c :: cs, old, s => match readChunk m t form d a b n old c s with
    | (s, .error r) => (s, .error r)
    | (s, .ok x) => match readChunks m t form d a b n cs (old ++ x.md) s with
      | (s, .error r) => (s, .error r)
      | (s, .ok xs) => (s, .ok (x :: xs))
/-- The row of A that its chunks deliver, decompressed under `mmas` (R216, R225). -/
def rowOf (form d : Nat) (a : Side) (xs : List ChunkRead) : MatLine :=
  let l := mkLine a (xs.map (·.a))
  if form ≠ 2 then l
  else { l with codes := (expandRow (dPat d) (ofBytes (xs.flatMap (·.md))) (if dPat d = 3 then dK d / 8 else dK d / 4) 0
    l.codes).getD [] }
/-- The column of B at an offset that its chunks deliver. -/
def colOf (b : Side) (xs : List ChunkRead) (off : Nat) : MatLine :=
  mkLine b (xs.map fun x => ((x.cols.find? fun c => c.1 == off).map (·.2)).getD [])
/-- Write captured bytes to the team's window of the operand buffer (R222). -/
def putBuf (core base : Nat) (caps : List (Nat × List Byte)) (s : State) : State :=
  { s with opbuf := caps.foldl (fun b (o, d) =>
      ((List.range d.length).zip d).foldl (fun b (i, x) => Assoc.wr 0 b (core * 2 ^ 18 + base + o + i) x) b) s.opbuf }
/-- Row `m.row` of an operation completes, or fails as R232 says. -/
def mmaRow (m : MatOp) (t : Team) (form : Nat) (fa fb : Nat) (d : Nat) (oa ob : Rsv) (s0 : State) : State :=
  let a := sideA form fa d oa
  let b := sideB fb d ob
  let rm := m.rmode.toNat
  let stop (s : State) (r : MatStop) : State :=
    match r with
    | .hold => s
    | .page va acc => matSuspend m 2 va acc s
    | .bad k x => matFail m k x s
  let n := dK d / chunkLen form fa
  match readChunks m t form d a b n (List.range n) [] s0 with
  | (s, .error r) => stop s r
  | (s, .ok xs) =>
    let core := m.core + m.row / 64
    let old (n : Nat) : Nat := (s.acc? core m.bank (m.row % 64) n).toNat
    let bs := (List.range 48).map fun n => colOf b xs (n * b.str)
    let new := rowValues form fa fb rm old (rowOf form d a xs) bs
    let s := ((List.range 48).zip new).foldl
      (fun s (n, x) => s.setAcc core m.bank (m.row % 64) n (BitVec.ofNat 32 x)) s
    let s := putBuf m.core (4096 * t.obBase) (xs.flatMap (·.caps)) s
    setMat { m with row := m.row + 1, started := true } (setRows m (m.row + 1) s)
/-- A row of a named operation (R235). -/
def matRowStep (id : Nat) (s : State) : State :=
  match s.mat? id with
  | none => s
  | some m => match m.kind, s.team? m.owner.team with
    | .mma form fa fb d oa ob, some t =>
      if matReady s m && !bankErr s m && decide (m.row < dRows d.toNat) then
        mmaRow m t form fa.toNat fb.toNat d.toNat oa ob s
      else s
    | _, _ => s
/-- MATRIX_ROW_COMPLETE. -/
def execMatrixRowComplete (id : Nat) (s : State) : Out := .next (matRowStep id s)

/-- The two words a lane of `tkrd` receives (R257). -/
def topWords (ents : List TopEnt) (j : Nat) : Word × Word :=
  match if j < 8 then ents[j]? else none with
  | some x => (x.val, x.col.setWidth 32 ||| 0x80000000)
  | none => (0xFF800000, 0)
/-- An operation with nothing left to do takes its effect and retires (R214, R232, R233, R255, R257, R258). -/
def matRetireStep (id : Nat) (s : State) : State :=
  match s.mat? id with
  | none => s
  | some m =>
    if !matReady s m then s
    else if bankErr s m then dropMat id s
    else match m.kind with
      | .zero =>
        let s := zeroBank m.core m.bank s
        let s := if m.pair then zeroBank (m.core + 1) m.bank s else s
        dropMat id (setRows m (if m.pair then 128 else 64) s)
      | .mma _ _ _ d _ _ => if dRows d.toNat ≤ m.row then dropMat id s else s
      | .drain _ _ => s
      | .prog slot ws src => dropMat id { s with
          epi := Assoc.put s.epi (m.core * 8 + slot) ws, epiSrc := Assoc.put s.epiSrc (m.core * 8 + slot) src }
      | .tkrd dst row lanes =>
        let ents := Assoc.rd [] s.top (m.core * 128 + row)
        fillRegs m.owner (lanes.flatMap fun j =>
          [⟨⟨.v, dst, j⟩, (topWords ents j).1⟩, ⟨⟨.v, dst + 1, j⟩, (topWords ents j).2⟩]) (dropMat id s)
      | .tkclr row => dropMat id { s with top := match row with
          | some r => Assoc.del s.top (m.core * 128 + r)
          | none => s.top.filter fun (k, _) => k / 128 ≠ m.core }
/-- MATRIX_RETIRE. -/
def execMatrixRetire (id : Nat) (s : State) : Out := .next (matRetireStep id s)

/-- A row of Citrine as it begins: x0 holds the bank row (R239). -/
def CitRun.start (s : State) (m : MatOp) (row : Nat) : CitRun where
  row := row
  ip := 0
  x := (List.range 48).foldl (fun x n => Assoc.wr 0 x n (s.acc? m.core m.bank row n)) []
  stores := []
  ranks := []
  staged := []
/-- A suspended operation or drain resumes at its row, or ends with ECAUSE 0x10 (R232, R242). -/
def matResumeStep (id : Nat) (s : State) : State :=
  match s.mat? id with
  | none => s
  | some m => match m.susp with
    | none => s
    | some ord =>
      let r := s.mrpOf m.core m.bank
      match faultAnswer s m.ctx ord with
      | none => s
      | some true =>
        let run := match m.kind with | .drain _ _ => some (CitRun.start s m m.row) | _ => none
        setMat { m with susp := none, run := run } (s.setMrp m.core m.bank { r with susp := false })
      | some false => matFail m 0x10 r.addr.toNat s
/-- MATRIX_RESUME. -/
def execMatrixResume (id : Nat) (s : State) : Out := .next (matResumeStep id s)

/-! ### `mwt` and `mstat` (R236, R237) -/

/-- The banks `mwt` names. -/
def Env.mwtBanks (e : Env) (f : Slk) : List Nat :=
  if f.s1 = .none then (List.range 4).filter fun b => e.team.banks.getLsbD b else [opNum f.s1]
/-- `mwt`. -/
def mwtBody (f : Slk) (e : Env) : Res :=
  let bs := e.mwtBanks f
  let mark := e.grp.mwtMark.getD e.st.nextId
  if bs.any fun b => !e.team.banks.getLsbD b then mtxTrap e 0x01
  else if e.st.matq.any fun m => decide (m.id < mark) && m.onCore e.core && bs.any fun b => m.onBank b then
    .wait (e.mod fun g => { g with mwtMark := some mark }) .retry
  else
    let s := e.mod fun g => { g with mwtMark := none }
    match bs.find? fun b => (s.mrpOf e.core b).err with
    | none => .done s
    | some b =>
      let r := s.mrpOf e.core b
      .trap (s.setMrp e.core b { r with err := false })
        { cause := 0x0D, detail := r.ecause.toNat, addr := r.addr.toNat }
/-- `mwt`. -/
def execMwt (f : Slk) (s : State) : Out := issue (.mwt f) f (matBody (committing (mwtBody f))) s
/-- `mstat`; a bank outside the mask reads 0. -/
def mstatVal (f : Slk) (e : Env) (_ : Nat) : Nat :=
  if e.team.banks.getLsbD (opNum f.s1) then mrpWord e.st e.core (opNum f.s1) else 0
/-- `mstat`. -/
def execMstat (f : Slk) (s : State) : Out := issue (.mstat f) f (inService (longBody f 1 (mstatVal f))) s

end Sys2Proof.Machine
end

