-- ==== Sys2Proof/Machine/Citrine.lean ====
section
/-! DEFINITION. Citrine (R238 to R259): the words of its programs, the drain, the running top-k, sparse tiles, and
`mprog`, `mdrain`, `tkrd`, `tkclr`. -/

namespace Sys2Proof.Machine

/-! ### Row registers and arithmetic (R239, R247) -/

/-- Lane `n` of row register `k`. -/
def CitRun.lane (r : CitRun) (k n : Nat) : Nat := (Assoc.rd 0 r.x (48 * k + n)).toNat
/-- Write every lane of a row register. -/
def CitRun.set (r : CitRun) (k : BitVec 3) (v : Nat → Nat) : CitRun :=
  { r with x := (List.range 48).foldl (fun x n => Assoc.wr 0 x (48 * k.toNat + n) (BitVec.ofNat 32 (v n))) r.x }
/-- An f32 operand, flushed as the sampled SUB says. -/
def citIn (m : MatOp) (x : Nat) : FV := fdec f32 (fin m.rmode.toNat f32 x)
/-- rnd (R247). -/
def citRnd (m : MatOp) (x : FV) : Nat := ffin f32 m.rmode.toNat false x
/-- The exact sum under the sampled mode. -/
def citSum (m : MatOp) (xs : List FV) : FV := fsum (isRdn m.rmode.toNat) xs
/-- Constant register `k`. -/
def MatOp.const (m : MatOp) (k : Nat) : Nat := (m.consts.getD k 0).toNat
/-- The drain descriptor (R240). -/
def MatOp.drainDesc (m : MatOp) : Nat := match m.kind with | .drain d _ => d.toNat | _ => 0
/-- M0 and N0. -/
def MatOp.m0 (m : MatOp) : Nat := field m.drainDesc 128 16
/-- The column origin. -/
def MatOp.n0 (m : MatOp) : Nat := field m.drainDesc 144 16
/-- Live columns. -/
def MatOp.nlive (m : MatOp) : Nat := field m.drainDesc 160 6
/-- Live rows. -/
def MatOp.mlive (m : MatOp) : Nat := field m.drainDesc 166 7

/-- What a word does to the row. -/
abbrev CitFn := MatOp → Team → CitRun → State → State × Except MatStop CitRun
/-- A word that computes each lane from the row registers alone. -/
def citLanes (k : BitVec 3) (v : MatOp → CitRun → Nat → Nat) : CitFn :=
  fun m _ r s => (s, .ok (r.set k (v m r)))

/-! ### Reads and writes of a row (R246, R250) -/

/-- Rd(i): element `i` of type T at c[CK], widened to f32 (R246). -/
def citRead (m : MatOp) (t : Team) (c : Cit) (i : Nat) (s : State) : State × Except MatStop Nat :=
  let ty := c.t.toNat
  let size := tyBits ty / 8
  let k := c.ck.toNat
  let widen (bs : List Byte) : Nat :=
    if ty = 3 then ofBytes bs else fround f32 0 false (fdec (fmtOf ty) (ofBytes bs))
  if c.g = 1 then
    let ptr := m.const k + 2 ^ 32 * m.const (k + 1)
    let va := ptr % 2 ^ 57 + i * size
    if 2 ^ 57 < va + size then (s, .error (.bad 0x12 va))
    else if va % size ≠ 0 then (s, .error (.bad 0x15 va))
    else match matLoad m ptr (i * size : Nat) size s with
      | (s, .ok bs) => (s, .ok (widen bs))
      | (s, .error x) => (s, .error (matStop va x))
  else
    let a := (m.const k + i * size) % 2 ^ 32
    match localLook s t a size size with
    | .error cd => (s, .error (.bad (if cd.1 = 0x07 then 0x15 else 0x12) a))
    | .ok (key, _) =>
      let (s, bs, bad) := poolRead s key size
      (s, if bad then .error (.bad 0x13 a) else .ok (widen bs))
/-- The elements at a list of indexes. -/
def citReads (m : MatOp) (t : Team) (c : Cit) : List Nat → State → State × Except MatStop (List Nat)
  | [], s => (s, .ok [])
  | i :: is, s => match citRead m t c i s with
    | (s, .error r) => (s, .error r)
    | (s, .ok x) => match citReads m t c is s with
      | (s, .ok xs) => (s, .ok (x :: xs))
      | r => r
/-- A word that reads one element for the row, or one for each column, and computes each lane from it. -/
def citLoad (row : Bool) (c : Cit) (v : MatOp → CitRun → Nat → Nat → Nat) : CitFn :=
  fun m t r s =>
    match citReads m t c (if row then [m.m0 + r.row] else (List.range 48).map (m.n0 + ·)) s with
    | (s, .error e) => (s, .error e)
    | (s, .ok xs) => (s, .ok (r.set c.xd fun n => v m r n (xs.getD (if row then 0 else n) 0)))
/-- The stores that put bytes at `off` from OUT, with every check made (R242, R250). -/
def outStores (m : MatOp) (t : Team) (off align : Nat) (bs : List Byte) (s : State) :
    State × Except MatStop (List DrainStore) :=
  let d := m.drainDesc
  let out := field d 0 64
  if field d 173 2 = 1 then
    let a := (out + off) % 2 ^ 32
    match scratchLook s t a bs.length align with
    | .error cd => (s, .error (.bad (if cd.1 = 0x07 then 0x15 else 0x12) a))
    | .ok (key, _) => (s, .ok [⟨true, key, 0, bs⟩])
  else
    let va := out % 2 ^ 57 + off
    if 2 ^ 57 < va + bs.length then (s, .error (.bad 0x12 va))
    else if va % align ≠ 0 then (s, .error (.bad 0x15 va))
    else match engineReach s m.ctx out off bs.length 1 .write with
      | (s, .error x) => (s, .error (matStop va x))
      | (s, .ok ps) =>
        (s, .ok (ps.foldl (fun (l, bs) (loc, ca, n) =>
          (l ++ [⟨false, loc, BitVec.ofNat 2 ca, bs.take n⟩], bs.drop n)) (([] : List DrainStore), bs)).1)
/-- The stores of a list of elements. -/
def outElems (m : MatOp) (t : Team) (align : Nat) : List (Nat × List Byte) → State →
    State × Except MatStop (List DrainStore)
  | [], s => (s, .ok [])
  | (off, bs) :: xs, s => match outStores m t off align bs s with
    | (s, .error r) => (s, .error r)
    | (s, .ok l) => match outElems m t align xs s with
      | (s, .ok k) => (s, .ok (l ++ k))
      | r => r

/-! ### The words (R246) -/

/-- `end`: the row's program ends. -/
def rowEnd (_ : Cit) : CitFn := fun _ _ r s => (s, .ok { r with ip := 32 })
/-- `mov`. -/
def rowMov (c : Cit) : CitFn := citLanes c.xd fun _ r n => r.lane c.xa.toNat n
/-- `ldk`. -/
def rowLdk (c : Cit) : CitFn := citLanes c.xd fun m _ _ => m.const c.ck.toNat
/-- `ldr`. -/
def rowLdr (c : Cit) : CitFn := citLoad true c fun _ _ _ x => x
/-- `ldv`. -/
def rowLdv (c : Cit) : CitFn := citLoad false c fun _ _ _ x => x
/-- `add`. -/
def rowAdd (c : Cit) : CitFn := citLanes c.xd fun m r n =>
  citRnd m (citSum m [citIn m (r.lane c.xa.toNat n), citIn m (r.lane c.xb.toNat n)])
/-- `mul`. -/
def rowMul (c : Cit) : CitFn := citLanes c.xd fun m r n =>
  citRnd m ((citIn m (r.lane c.xa.toNat n)).mul (citIn m (r.lane c.xb.toNat n)))
/-- `fma`. -/
def rowFma (c : Cit) : CitFn := citLanes c.xd fun m r n =>
  citRnd m (citSum m [(citIn m (r.lane c.xa.toNat n)).mul (citIn m (r.lane c.xb.toNat n)),
    citIn m (r.lane c.xc.toNat n)])
/-- `max`. -/
def rowMax (c : Cit) : CitFn := citLanes c.xd fun m r n =>
  citRnd m (fminmax true (citIn m (r.lane c.xa.toNat n)) (citIn m (r.lane c.xb.toNat n)))
/-- `bias`. -/
def rowBias (c : Cit) : CitFn := citLoad false c fun m r n x =>
  citRnd m (citSum m [citIn m (r.lane c.xa.toNat n), citIn m x])
/-- `scale`: by a constant, or an element of the row or of each column. -/
def rowScale (c : Cit) : CitFn :=
  let f (m : MatOp) (r : CitRun) (n x : Nat) : Nat := citRnd m ((citIn m (r.lane c.xa.toNat n)).mul (citIn m x))
  if c.st = 0 then citLanes c.xd fun m r n => f m r n (m.const c.ck.toNat) else citLoad (c.st == 1) c f
/-- `clamp`: first the maximum, then the minimum. -/
def rowClamp (c : Cit) : CitFn := citLanes c.xd fun m r n =>
  let x := citIn m (r.lane c.xa.toNat n)
  if x.isNan then citRnd m .nan
  else citRnd m (fminmax false (fminmax true x (citIn m (m.const c.ck.toNat))) (citIn m (m.const (c.ck.toNat + 1))))
/-- `relu`. -/
def rowRelu (c : Cit) : CitFn := citLanes c.xd fun m r n =>
  let x := citIn m (r.lane c.xa.toNat n)
  if x.isNan then citRnd m .nan else if x.sign || x.isZero then 0 else citRnd m x
/-- `gelu` (R248). -/
def rowGelu (c : Cit) : CitFn := citLanes c.xd fun m r n => citRnd m (tableFn false (citIn m (r.lane c.xa.toNat n)))
/-- `silu` (R248). -/
def rowSilu (c : Cit) : CitFn := citLanes c.xd fun m r n => citRnd m (tableFn true (citIn m (r.lane c.xa.toNat n)))
/-- `tsc`: by tS (R249). -/
def rowTsc (c : Cit) : CitFn := citLanes c.xd fun m r n =>
  citRnd m ((citIn m (r.lane c.xa.toNat n)).mul (citIn m m.ts.toNat))
/-- `cvt` (R77, R247). -/
def rowCvt (c : Cit) : CitFn := citLanes c.xd fun m r n =>
  narrowFill c.t.toNat (convert m.rmode.toNat c.t.toNat c.st.toNat (c.sat == 1) (r.lane c.xa.toNat n))
/-- `topk`: the row is to be inserted when it commits (R251, R242). -/
def rowTopk (c : Cit) : CitFn := fun m _ r s =>
  (s, .ok { r with ranks := r.ranks ++ [(r.row + (if c.st.getLsbD 0 then 64 else 0), c.t.toNat,
    (List.range m.nlive).map fun n => BitVec.ofNat 32 (r.lane c.xa.toNat n))] })
/-- Bytes of an element of `store` and `spack`. -/
def citSize (c : Cit) : Nat := tyBits c.t.toNat / 8
/-- `spack`: the row is staged (R252). -/
def rowSpack (c : Cit) : CitFn := fun m _ r s =>
  (s, .ok { r with staged := (List.range m.nlive).foldl (fun a n =>
    Assoc.put a (48 * r.row + n) (BitVec.ofNat 32 (r.lane c.xa.toNat n % 2 ^ (8 * citSize c)))) r.staged })
/-- `store` (R250). -/
def rowStore (c : Cit) : CitFn := fun m t r s =>
  let size := citSize c
  match outElems m t size ((List.range m.nlive).map fun n =>
      (r.row * field m.drainDesc 64 32 + n * size, toBytes size (r.lane c.xa.toNat n))) s with
  | (s, .error e) => (s, .error e)
  | (s, .ok l) => (s, .ok { r with stores := r.stores ++ l })

/-! ### Running words -/

/-- What a Citrine word does; none for a word that is not one, or that R245 refuses. -/
def citFn (i : Instr) : Option CitFn :=
  match citParts i with
  | none => none
  | some (op, c) =>
    if citZero op c && citLimit op c then
      match op with
      | 0x00 => some (rowEnd c)
      | 0x01 => some (rowMov c)
      | 0x02 => some (rowLdk c)
      | 0x03 => some (rowLdr c)
      | 0x04 => some (rowLdv c)
      | 0x05 => some (rowAdd c)
      | 0x06 => some (rowMul c)
      | 0x07 => some (rowFma c)
      | 0x08 => some (rowMax c)
      | 0x09 => some (rowBias c)
      | 0x0A => some (rowScale c)
      | 0x0B => some (rowClamp c)
      | 0x0C => some (rowRelu c)
      | 0x0D => some (rowGelu c)
      | 0x0E => some (rowSilu c)
      | 0x0F => some (rowTsc c)
      | 0x10 => some (rowCvt c)
      | 0x11 => some (rowTopk c)
      | 0x12 => some (rowSpack c)
      | 0x13 => some (rowStore c)
      | _ => none
    else none
/-- One word of a row: the row moves to the next word. -/
def runWord (fn : CitFn) : CitFn := fun m t r s =>
  match fn m t r s with
  | (s, .ok r) => (s, .ok { r with ip := r.ip + 1 })
  | x => x
/-- The outcome of words of a row: the row goes on, waits for a held line, suspends, or fails (R242). -/
def citSettle (m : MatOp) (s0 : State) : State × Except MatStop CitRun → State
  | (s, .ok r) => setMat { m with run := some r } s
  | (s, .error .hold) => { s0 with biOut := s.biOut }
  | (s, .error (.page va acc)) => matSuspend m 3 va acc s
  | (s, .error (.bad k a)) => matFail m k a s
/-- Execute a word in the row that runs on the current core. -/
def citStep (i : Instr) (fn : CitFn) (s : State) : Out :=
  match runningRow s s.curCore with
  | none => .fault .noEngine
  | some (m, r) =>
    if (citFn i).isNone then .fault .invalidCitrine
    else match s.team? m.owner.team with
      | none => .fault .noEngine
      | some t => .next (citSettle m s (runWord fn m t r s))
/-- CIT_END. -/
def execCitEnd (c : Cit) (s : State) : Out := citStep (.citEnd c) (rowEnd c) s
/-- CIT_MOV. -/
def execCitMov (c : Cit) (s : State) : Out := citStep (.citMov c) (rowMov c) s
/-- CIT_LDK. -/
def execCitLdk (c : Cit) (s : State) : Out := citStep (.citLdk c) (rowLdk c) s
/-- CIT_LDR. -/
def execCitLdr (c : Cit) (s : State) : Out := citStep (.citLdr c) (rowLdr c) s
/-- CIT_LDV. -/
def execCitLdv (c : Cit) (s : State) : Out := citStep (.citLdv c) (rowLdv c) s
/-- CIT_ADD. -/
def execCitAdd (c : Cit) (s : State) : Out := citStep (.citAdd c) (rowAdd c) s
/-- CIT_MUL. -/
def execCitMul (c : Cit) (s : State) : Out := citStep (.citMul c) (rowMul c) s
/-- CIT_FMA. -/
def execCitFma (c : Cit) (s : State) : Out := citStep (.citFma c) (rowFma c) s
/-- CIT_MAX. -/
def execCitMax (c : Cit) (s : State) : Out := citStep (.citMax c) (rowMax c) s
/-- CIT_BIAS. -/
def execCitBias (c : Cit) (s : State) : Out := citStep (.citBias c) (rowBias c) s
/-- CIT_SCALE. -/
def execCitScale (c : Cit) (s : State) : Out := citStep (.citScale c) (rowScale c) s
/-- CIT_CLAMP. -/
def execCitClamp (c : Cit) (s : State) : Out := citStep (.citClamp c) (rowClamp c) s
/-- CIT_RELU. -/
def execCitRelu (c : Cit) (s : State) : Out := citStep (.citRelu c) (rowRelu c) s
/-- CIT_GELU. -/
def execCitGelu (c : Cit) (s : State) : Out := citStep (.citGelu c) (rowGelu c) s
/-- CIT_SILU. -/
def execCitSilu (c : Cit) (s : State) : Out := citStep (.citSilu c) (rowSilu c) s
/-- CIT_TSC. -/
def execCitTsc (c : Cit) (s : State) : Out := citStep (.citTsc c) (rowTsc c) s
/-- CIT_CVT. -/
def execCitCvt (c : Cit) (s : State) : Out := citStep (.citCvt c) (rowCvt c) s
/-- CIT_TOPK. -/
def execCitTopk (c : Cit) (s : State) : Out := citStep (.citTopk c) (rowTopk c) s
/-- CIT_SPACK. -/
def execCitSpack (c : Cit) (s : State) : Out := citStep (.citSpack c) (rowSpack c) s
/-- CIT_STORE. -/
def execCitStore (c : Cit) (s : State) : Out := citStep (.citStore c) (rowStore c) s

/-! ### Commit of a row (R242, R251) -/

/-- Run the words that are left of a row. -/
def runRow (m : MatOp) (t : Team) (ws : List Word) : Nat → CitRun → State → State × Except MatStop CitRun
  | 0, r, s => (s, .ok r)
  | k + 1, r, s =>
    match (ws[r.ip]?).bind decodeCit |>.bind citFn with
    | none => (s, .ok { r with ip := 32 })
    | some fn => match runWord fn m t r s with
      | (s, .ok r) => runRow m t ws k r s
      | x => x
/-- Insert an entry before the first that ranks below it (R251). -/
def topInsert (x : TopEnt) : List TopEnt → List TopEnt
  | [] => [x]
  | y :: ys =>
    let c := fcmp (f32v x.val.toNat) (f32v y.val.toNat)
    if c == some .gt || (c == some .eq && decide (x.col.toNat < y.col.toNat)) then x :: y :: ys
    else y :: topInsert x ys
/-- A row's state after an insertion of a row of values (R251). -/
def topAfter (n0 k : Nat) (ents : List TopEnt) (vals : List Word) : List TopEnt :=
  (((List.range vals.length).zip vals).foldl (fun l (n, v) =>
    if (f32v v.toNat).isNan then l else topInsert ⟨v, BitVec.ofNat 16 (n0 + n)⟩ l) ents).take k
/-- One store of a row takes effect (R243, R250). -/
def drainPut (core : Nat) (s : State) (x : DrainStore) : State :=
  if x.isLocal then poolWrite s x.key x.data else engineWrite s core [(x.key, x.ca.toNat, x.data.length)] x.data
/-- A line that a row stores to is held by the host or by its home. -/
def rowHeld (s : State) (xs : List DrainStore) : Bool := xs.any fun x => !x.isLocal && lineHeld s x.key x.data.length
/-- The host is asked for the lines that a row stores to (R443). -/
def rowAsk (xs : List DrainStore) (s : State) : State :=
  xs.foldl (fun s x => if x.isLocal then s else biSend s x.key x.data.length true) s
/-- The row's effects take place (R242). -/
def rowEffects (m : MatOp) (r : CitRun) (s : State) : State :=
  let s := r.stores.foldl (drainPut m.core) s
  let s := r.ranks.foldl (fun s (row, k, vals) =>
    let key := m.core * 128 + row
    { s with top := Assoc.wr [] s.top key (topAfter m.n0 k (Assoc.rd [] s.top key) vals) }) s
  setRows m (r.row + 1) s
/-- A row commits and the next begins. -/
def commitRow (m : MatOp) (r : CitRun) (s : State) : State :=
  let s := rowEffects m r s
  let m := { m with
    row := r.row + 1
    staging := r.staged.foldl (fun a (k, v) => Assoc.put a k v) m.staging
    run := if r.row + 1 < m.mlive then some (CitRun.start s m (r.row + 1)) else none }
  setMat m s
/-- Citrine runs the rest of a row and commits it. A last row with staged elements is left to the drain's retirement,
which writes its tile (R252). -/
def drainRowStep (core : Nat) (s : State) : State :=
  match runningRow s core with
  | none => s
  | some (m, r) => match s.team? m.owner.team with
    | none => s
    | some t => match runRow m t (slotWords s core (drainSlot m)) 33 r s with
      | (s', .ok r) =>
        if r.row + 1 = m.mlive && !r.staged.isEmpty then setMat { m with run := some r } s'
        else if rowHeld s' r.stores then rowAsk r.stores s
        else commitRow m r s'
      | x => citSettle m s x
/-- DRAIN_ROW_COMMIT. -/
def execDrainRowCommit (core : Nat) (s : State) : Out := .next (drainRowStep core s)

/-! ### Start and retirement (R238, R241, R249, R252) -/

/-- The drain whose turn has come on a core. -/
def drainAt (s : State) (core : Nat) : Option MatOp :=
  (s.matq.filter fun m => m.core == core).find? fun m =>
    (match m.kind with | .drain _ _ => true | _ => false) && matReady s m
/-- The drain starts: the parameter block is read and tS computed (R241, R249). -/
def drainStartStep (core : Nat) (s : State) : State :=
  match drainAt s core with
  | none => s
  | some m =>
    if m.started || bankErr s m then s
    else match s.team? m.owner.team with
      | none => s
      | some t =>
        let d := m.drainDesc
        let a := field d 96 32
        let m0 := { m with started := true }
        match localLook s t a 64 16 with
        | .error _ => matFail m 0x12 a s
        | .ok (key, _) =>
          let (s, bs, bad) := poolRead s key 64
          if bad then matFail m 0x13 a s
          else
            let m1 : MatOp := { m0 with
              consts := (List.range 16).map fun k => BitVec.ofNat 32 (ofBytes ((bs.drop (4 * k)).take 4))
              ts := BitVec.ofNat 32 (fround f32 0 false ((f32v (field d 192 32)).mul (f32v (field d 224 32)))) }
            setMat { m1 with run := some (CitRun.start s m1 0) } (setRows m 0 s)
/-- DRAIN_START. -/
def execDrainStart (core : Nat) (s : State) : Out := .next (drainStartStep core s)

/-- Zeros up to a multiple of 16. -/
def pad16 (bs : List Byte) : List Byte := bs ++ List.replicate (roundUp bs.length 16 - bs.length) 0
/-- The type of the program's `spack` word. -/
def spackTy (ws : List Word) : Nat :=
  (ws.findSome? fun w => match decodeCit w with | some (.citSpack c) => some c.t.toNat | _ => none).getD 0
/-- Header and body of a sparse tile (R252, R253). -/
def tileBytes (m : MatOp) (ty : Nat) (staged : Assoc Word) : List Byte × List Byte :=
  let size := tyBits ty / 8
  let ps := (List.range m.mlive).flatMap fun i => (List.range m.nlive).map fun n => 48 * i + n
  let val (p : Nat) : Nat := (Assoc.rd 0 staged p).toNat
  let nz := ps.filter fun p => (if tyFloat ty then val p % 2 ^ (8 * size - 1) else val p) != 0
  let budget := field m.drainDesc 176 16
  let sparse := decide (nz.length ≤ budget)
  let body :=
    if sparse then pad16 (nz.flatMap (toBytes 2)) ++ pad16 (nz.flatMap fun p => toBytes size (val p))
    else pad16 (ps.flatMap fun p => toBytes size (val p))
  let count := if sparse then nz.length else ps.length
  (toBytes 16 (count + (if sparse then 0 else 2 ^ 16) + ty * 2 ^ 24 + m.mlive * 2 ^ 32 + m.nlive * 2 ^ 40 +
    budget * 2 ^ 48), body)
/-- The stores of the tile, body first. -/
def tileStores (m : MatOp) (t : Team) (ty : Nat) (r : CitRun) (s : State) : State × Except MatStop (List DrainStore) :=
  let (h, b) := tileBytes m ty (r.staged.foldl (fun a (k, v) => Assoc.put a k v) m.staging)
  outElems m t 16 ((if b.isEmpty then [] else [(16, b)]) ++ [(0, h)]) s
/-- The drain is done: CLR takes effect and the entry is free (R238). -/
def drainEnd (m : MatOp) (s : State) : State :=
  dropMat m.id (if bitAt m.drainDesc 175 then zeroBank m.core m.bank s else s)
/-- A drain with no row left retires; one that staged elements writes its tile and commits its last row first. -/
def drainRetireStep (core : Nat) (s : State) : State :=
  match drainAt s core with
  | none => s
  | some m =>
    if !m.started then s
    else match m.run with
      | none => if m.mlive ≤ m.row then drainEnd m s else s
      | some r => match s.team? m.owner.team with
        | none => s
        | some t =>
          let ws := slotWords s core (drainSlot m)
          if r.row + 1 ≠ m.mlive || r.staged.isEmpty || (ws[r.ip]?).isSome then s
          else match tileStores m t (spackTy ws) r s with
            | (s', .error e) => citSettle m s (s', .error e)
            | (s', .ok l) =>
              if rowHeld s' (r.stores ++ l) then rowAsk (r.stores ++ l) s
              else drainEnd m (rowEffects m { r with stores := r.stores ++ l } s')
/-- DRAIN_RETIRE. -/
def execDrainRetire (core : Nat) (s : State) : Out := .next (drainRetireStep core s)

/-! ### `mprog`, `mdrain`, `tkrd`, `tkclr` (R255 to R258) -/

/-- The 4-byte words of a byte string. -/
def words4 : Nat → List Byte → List Word
  | 0, _ => []
  | n + 1, bs => BitVec.ofNat 32 (ofBytes (bs.take 4)) :: words4 n (bs.drop 4)
/-- OP of a word. -/
def citOp (w : Word) : Nat := w.toNat % 32
/-- A program is valid (R245). -/
def programValid (ws : List Word) : Bool :=
  decide (1 ≤ ws.length ∧ ws.length ≤ 32) && ws.all (fun w => ((decodeCit w).bind citFn).isSome && !w.getLsbD 31) &&
    decide (ws.countP (fun w => citOp w == 0x12) ≤ 1) &&
    !(ws.any (fun w => citOp w == 0x12) && ws.any fun w => citOp w == 0x13)
/-- The slot may be named by the team (R255). -/
def slotOk (e : Env) (slot : Nat) : Bool := decide (slot < 8) && e.team.epi.getLsbD slot
/-- `mprog` (R255). -/
def mprogBody (f : Slk) (e : Env) : Res :=
  let slot := e.n32 0 (.op f.s1)
  let n := e.n32 0 (.op f.s3)
  if !slotOk e slot then mtxTrap e 0x0B
  else if n = 0 ∨ 32 < n then mtxTrap e 0x0A
  else match loadRange e (e.gbase f.s2) 0 (4 * n) 4 e.st with
    | .error r => faultOutside e r
    | .ok (s, bs) =>
      let ws := words4 n bs
      let e := e.at s
      if !programValid ws then mtxTrap e 0x0A
      else if ws.any (fun w => citOp w == 0x11) && !e.team.tkOwn then mtxTrap e 0x0C
      else match acceptMat 0 false (.prog slot ws (BitVec.ofNat 64 ((e.gbase f.s2).va 0).toNat)) [] e with
        | .done s =>
          let k := e.core * 8 + slot
          .done (if (Assoc.get? s.epi k).isSome then s else { s with epi := Assoc.put s.epi k [] })
        | r => r
/-- `mprog`. -/
def execMprog (f : Slk) (s : State) : Out := issue (.mprog f) f (matBody (committing (mprogBody f))) s
/-- The limits of a drain descriptor (R256 row 3). -/
def drainBad (d : Nat) : Bool :=
  let ml := field d 166 7
  let nl := field d 160 6
  let ok := field d 173 2
  ml == 0 || decide (64 < ml) || nl == 0 || decide (48 < nl) || decide (2 ≤ ok) ||
    (ok == 1 && field d 32 32 != 0) || field d 96 32 % 16 != 0 || decide (3072 < field d 176 16)
/-- `mdrain` (R256, R241). -/
def mdrainBody (f : Slk) (e : Env) : Res :=
  let d := e.wide 0 f.s1 8
  let slot := e.n32 0 (.op f.s2)
  let param := field d 96 32
  if !e.team.banks.getLsbD (opNum f.d) then mtxTrap e 0x01
  else if !slotOk e slot || (Assoc.get? e.st.epi (e.core * 8 + slot)).isNone then mtxTrap e 0x0B
  else if drainBad d then mtxTrap e 0x0D
  else match localLook e.st e.team param 64 16 with
    | .error cd => localTrap e.st param 0 0 cd
    | .ok _ => afterStores (acceptMat (opNum f.d) false (.drain (BitVec.ofNat 256 d) slot) []) e
/-- `mdrain`. -/
def execMdrain (f : Slk) (s : State) : Out := issue (.mdrain f) f (matBody (mdrainBody f)) s
/-- The checks of `tkrd` and `tkclr` (R257). -/
def topBody (f : Slk) (body : Nat → Env → Res) (e : Env) : Res :=
  let row := e.uni f.s1 0
  if !e.team.tkOwn then mtxTrap e 0x0C
  else if 127 < row then .trap e.st { cause := 0x05, detail := 0x04, addr := row }
  else body row e
/-- `tkrd`. -/
def tkrdBody (f : Slk) (row : Nat) (e : Env) : Res :=
  acceptMat 0 false (.tkrd (opNum f.d) row e.lanes) (opRegs f.d 2 e.lanes) e
/-- `tkrd`. -/
def execTkrd (f : Slk) (s : State) : Out := issue (.tkrd f) f (matBody (committing (topBody f (tkrdBody f)))) s
/-- `tkclr`. -/
def tkclrBody (f : Slk) (row : Nat) (e : Env) : Res :=
  acceptMat 0 false (.tkclr (if f.s1 = .none then none else some row)) [] e
/-- `tkclr`. -/
def execTkclr (f : Slk) (s : State) : Out := issue (.tkclr f) f (matBody (committing (topBody f (tkclrBody f)))) s

end Sys2Proof.Machine
end

