-- ==== Sys2Proof/Machine/Preempt.lean ====
section
/-! DEFINITION. The forced save and restore (R418 to R423), DISPATCH_BIND (R363), filling a bound team's windows (R120,
R363), unloads (R426, R427), contexts made and ended (R417), and the shootdown (R129, R405). -/

namespace Sys2Proof.Machine

/-! ### Windows (R118, R120) -/

/-- The entries of a map in [k, k + n), keyed from k. -/
def cutMap {α : Type} (m : Assoc α) (k n : Nat) : Assoc α :=
  m.filterMap fun (a, x) => if k ≤ a ∧ a < k + n then some (a - k, x) else none
/-- A map without [k, k + n). -/
def clearMap {α : Type} (m : Assoc α) (k n : Nat) : Assoc α := m.filter fun (a, _) => !(decide (k ≤ a ∧ a < k + n))
/-- A map with the entries of [k, k + n) replaced. -/
def pasteMap {α : Type} (m : Assoc α) (k n : Nat) (x : Assoc α) : Assoc α :=
  x.foldl (fun m (a, y) => Assoc.put m (k + a) y) (clearMap m k n)
/-- The key of a team's operand-buffer window. -/
def bufKey (t : Team) : Nat := t.core * 2 ^ 18 + t.obBase * 4096
/-- The banks of a mask. -/
def bankList (b : BitVec 4) : List Nat := (List.range 4).filter fun i => b.getLsbD i
/-- The Citrine slots of a mask. -/
def epiList (b : BitVec 8) : List Nat := (List.range 8).filter fun i => b.getLsbD i
/-- Fire the local monitors on the granules of [k, k + n) (R152). -/
def fireRange (k n : Nat) (s : State) : State :=
  let hit (m : Monitor) : Monitor :=
    if m.armed && m.isLocal && decide (k ≤ 64 * m.gran ∧ 64 * m.gran < k + n) then { m with fired := true } else m
  { s with teams := s.teams.map fun t => { t with groups := t.groups.map fun g => { g with mon := g.mon.map hit } } }
/-- The windows of a team filled with zeros, its operand-buffer window, banks and slots cleared, and the top-k state
where it owns it (R120, R213, R220, R251). -/
def zeroFill (t : Team) (s : State) : State :=
  let sp := windowKey s t false
  let rg := windowKey s t true
  let s := fireRange sp (t.window false) (fireRange rg (t.window true) s)
  { s with
    pool := clearMap (clearMap s.pool sp (t.window false)) rg (t.window true)
    poolErr := clearMap (clearMap s.poolErr (sp / 8) (t.window false / 8)) (rg / 8) (t.window true / 8)
    opbuf := clearMap s.opbuf (bufKey t) (4096 * t.obSize)
    acc := (bankList t.banks).foldl (fun m b => clearMap m ((t.core * 4 + b) * 3072) 3072) s.acc
    mrp := (bankList t.banks).foldl (fun m b => Assoc.del m (t.core * 4 + b)) s.mrp
    epi := (epiList t.epi).foldl (fun m i => Assoc.del m (t.core * 8 + i)) s.epi
    epiSrc := (epiList t.epi).foldl (fun m i => Assoc.del m (t.core * 8 + i)) s.epiSrc
    top := if t.tkOwn then clearMap s.top (t.core * 128) 128 else s.top }
/-- The descriptors of a team's rings, as its kernel declares them (R156, R157). -/
def writeRings (t : Team) (s : State) : State :=
  (List.range (min t.nring 4)).foldl (init := s) fun s k =>
    let d := field t.rings.toNat (32 * k) 32
    { s with
      pool := ((List.range 16).zip (toBytes 16 ((field d 0 4 + field d 4 21 * 2 ^ 8) * 2 ^ 64))).foldl
        (fun m (i, b) => Assoc.wr 0 m (windowKey s t true + 16 * k + i) b) s.pool
      rings := Assoc.put s.rings (key2 t.uid k) .zero }

/-! ### Code (R426, R427, R433) -/

/-- A pointer lies in a segment of a measured object. -/
def Measured.holds (m : Measured) (p : DWord) : Bool :=
  let va := p.toNat % 2 ^ 57
  m.segs.any fun (a, n) => decide (a.toNat % 2 ^ 57 ≤ va ∧ va < a.toNat % 2 ^ 57 + n.toNat)
/-- The pointers a group may take from code: PC, TVEC, TRAPPC, and any uniform pair as a link (R426). -/
def Group.codePtrs (g : Group) : List DWord :=
  [g.pc, g.tvec, g.trapPc] ++
    (List.range 64).map fun i => BitVec.ofNat 64 ((Assoc.rd 0 g.s (2 * i)).toNat + (Assoc.rd 0 g.s (2 * i + 1)).toNat * 2 ^ 32)
/-- The pointers of a team into code: those of its groups, and the sources of its Citrine programs, loaded or queued
(R426). -/
def teamPtrs (s : State) (t : Team) : List DWord :=
  t.live.flatMap Group.codePtrs ++ (epiList t.epi).filterMap (fun i => Assoc.get? s.epiSrc (t.core * 8 + i)) ++
    s.matq.filterMap fun m => match m.kind with
      | .prog _ _ src => if m.owner.team = t.uid then some src else none
      | _ => none
/-- The measured objects that a pointer lies in: those in use, or the last one that was unloaded (R426, R427). -/
def codesAt (x : Ctx) (p : DWord) : List Nat :=
  let ms := x.log.filter fun m => m.holds p
  (if ms.any (·.inUse) then ms.filter (·.inUse) else ms.getLast?.toList).map (·.ordinal)
/-- The measured objects that a team points into, its groups as they are saved; one unloaded while the team ran is among
them (R426, R427). -/
def codesOf (s : State) (t : Team) : List Nat := ((teamPtrs s t).flatMap (codesAt (s.ctx t.ctx))).eraseDups
/-- A saved team points into an object (R426). -/
def Image.pointsInto (i : Image) (m : Measured) : Bool := i.codes.contains m.ordinal
/-- A saved team's code is gone: an object that it points into has been unloaded (R427). -/
def Image.codeGone (i : Image) (x : Ctx) : Bool := x.log.any fun m => !m.inUse && i.pointsInto m
/-- UNLOAD (R426, R427, R433). -/
def unloadStep (c ord : Nat) (forced : Bool) (s : State) : State :=
  let x := s.ctx c
  match x.log.find? (fun m => m.ordinal == ord && m.inUse) with
  | none => s
  | some m =>
    let us := (x.images.filter fun (_, i) => i.pointsInto m).map (·.1)
    if forced || us.isEmpty then unloadNow c ord s
    else if x.unloads.any fun u => u.1 == ord then s
    else postEvent c evDefer [BitVec.ofNat 64 ord] (s.setCtx c { x with unloads := x.unloads ++ [(ord, us)] })
/-- UNLOAD. -/
def execUnload (ctx code : Nat) (forced : Bool) (s : State) : Out := .next (unloadStep ctx code forced s)
/-- Teams saved while an unload is pending hold it too (R426). -/
def holdUnloads (c : Nat) (s : State) : State :=
  let x := s.ctx c
  let more (u : Nat × List Nat) : Nat × List Nat :=
    match x.log.find? (fun m => m.ordinal == u.1) with
    | some m => (u.1, u.2 ++ ((x.images.filter fun (k, i) => !u.2.contains k && i.pointsInto m).map (·.1)))
    | none => u
  s.setCtx c { x with unloads := x.unloads.map more }

/-! ### Save images (R419, R420) -/

/-- The local address, within its cluster, of a granule that a local monitor watches. -/
def granAddr (s : State) (t : Team) (gran : Nat) : Nat :=
  let k := 64 * gran
  let win (u : Team) (ring : Bool) : Option Nat :=
    let w := windowKey s u ring
    if w ≤ k ∧ k < w + u.window ring then some (k - w) else none
  match win t true with
  | some off => 2 ^ 30 + off
  | none => ((clusterOf s t).findSome? fun u => (win u false).map fun off =>
      2 ^ 29 + (u.inCluster / u.cw) * 2 ^ 25 + (u.inCluster % u.cw) * 2 ^ 21 + off).getD 0
/-- A monitor as it is saved: its granule by local address. -/
def Monitor.save (s : State) (t : Team) (m : Monitor) : Monitor :=
  if m.armed && m.isLocal then { m with gran := granAddr s t m.gran } else m
/-- A monitor as it is restored: FIRED = 1 (R155). -/
def Monitor.restore (s : State) (t : Team) (m : Monitor) : Monitor :=
  if !m.armed then m
  else if m.isLocal then
    match localLook s t m.gran 1 1 with
    | .ok (k, _) => { m with gran := k / 64, fired := true }
    | .error _ => { m with fired := true }
  else { m with fired := true }
/-- The condition of a halted group whose open region is aborted (R405, R413). -/
def Group.haltedAgain (g : Group) (c : Cond) : Cond :=
  match c with
  | .halted r => .halted (r || g.region.isSome)
  | c => c
/-- A group is halted. -/
def Group.isHalted (g : Group) : Bool := match g.cond with | .halted _ => true | _ => false
/-- A group at its instruction boundary (R155, R405, R418, R419); an open region stands aborted at RSTART. -/
def Group.save (s : State) (t : Team) (g : Group) : Group :=
  { g with
    pc := match g.region with | some r => r.rstart | none => g.pc
    cond := match g.cond with
      | .wait .retry | .wait .fetch | .wait (.posting _ _ _ _) | .wait (.mwait _ _ _) | .wait (.regx _) => .ready
      | c => g.haltedAgain c
    b := g.b.map fun (k, r) => (k, { r with run := 0 })
    mon := g.mon.map (Monitor.save s t)
    ahead := [], haz := [], relMark := none, mwtMark := none, launch := none }
/-- A live group waits for a fault's answer, or in `setw`. -/
def inSetwAll (t : Team) : Bool := !t.live.isEmpty && t.live.all fun g => (arrival g).isSome
/-- The header of a team's image (R420). -/
def imageHeader (s : State) (t : Team) : Nat :=
  field t.teamId 0 32 + field t.grant 0 8 * 2 ^ 32 + field t.live.length 0 7 * 2 ^ 40 +
    Config.stepping.toNat * 2 ^ 48 + Config.family.toNat * 2 ^ 56 + t.banks.toNat * 2 ^ 64 + t.epi.toNat * 2 ^ 68 +
    b2n t.tkOwn 76 + b2n (inSetwAll t) 77 + b2n (t.groups.any fun g => g.isHalted) 78 +
    b2n (s.matq.any fun m => m.pair && m.owner.team == t.uid) 79 + field t.obSize 0 7 * 2 ^ 80 +
    field (t.inCluster % t.cw) 0 4 * 2 ^ 88 + field (t.inCluster / t.cw) 0 4 * 2 ^ 92 +
    field (saveSize t.ctx).toNat 0 32 * 2 ^ 128
/-- The image of a team. -/
def makeImage (s : State) (addr : Nat) (t : Team) : Image :=
  let sp := windowKey s t false
  let rg := windowKey s t true
  let saved := { t with groups := t.groups.map (Group.save s t), restored := some t.uid }
  { team := saved
    addr := BitVec.ofNat 64 addr
    header := BitVec.ofNat 512 (imageHeader s t)
    scratch := cutMap s.pool sp (t.window false)
    ringW := cutMap s.pool rg (t.window true)
    poolErr := cutMap s.poolErr (sp / 8) (t.window false / 8) ++
      (cutMap s.poolErr (rg / 8) (t.window true / 8)).map fun (k, e) => (2 ^ 18 + k, e)
    opbuf := cutMap s.opbuf (bufKey t) (4096 * t.obSize)
    acc := (bankList t.banks).flatMap fun b => (cutMap s.acc ((t.core * 4 + b) * 3072) 3072).map fun (k, x) => (b * 3072 + k, x)
    mrp := (bankList t.banks).filterMap fun b => (Assoc.get? s.mrp (t.core * 4 + b)).map fun x => (b, x)
    matq := (s.matq.filter fun m => m.owner.team == t.uid).map fun m => { m with run := none }
    epi := (epiList t.epi).filterMap fun i => (Assoc.get? s.epi (t.core * 8 + i)).map fun x => (i, x)
    epiSrc := (epiList t.epi).filterMap fun i => (Assoc.get? s.epiSrc (t.core * 8 + i)).map fun x => (i, x)
    top := if t.tkOwn then cutMap s.top (t.core * 128) 128 else []
    copies := s.copies.filter fun c => c.team == t.uid
    rings := s.rings.filterMap fun (k, r) => if k / 2 ^ 64 = t.uid then some (k % 2 ^ 64, r) else none
    walks := s.walks.filter fun w => w.owner.team == t.uid
    lists := s.pend.filter fun p => p.owner.team == t.uid
    codes := codesOf s saved
    seed := s.fresh }
/-- The team's operations leave the core. -/
def dropTeamWork (uid : Nat) (s : State) : State :=
  dropRings uid { s with
    matq := s.matq.filter fun m => m.owner.team ≠ uid
    copies := s.copies.filter fun c => c.team ≠ uid
    walks := s.walks.filter fun w => w.owner.team ≠ uid
    pend := s.pend.filter fun p => p.owner.team ≠ uid
    regx := s.regx.filter fun r => r.g.team ≠ uid }
/-- The team's address of its image: the first place of the save area that no image holds (log 18). -/
def imageAddr (s : State) (c : Nat) : Nat :=
  let x := s.ctx c
  let at_ (k : Nat) : Nat := if k = 0 then x.saveBase.toNat else x.saveBase.toNat + k * (saveSize c).toNat
  at_ (((List.range (x.images.length + 1)).find? fun k => x.images.all fun (_, i) => i.addr.toNat % 2 ^ 64 != at_ k % 2 ^ 64).getD
    x.images.length)
/-- The bytes of an image after its header, which the stepping chooses: free values (R420, log 18). -/
def imageBytes (seed c : Nat) : List Byte :=
  (List.range ((saveSize c).toNat - 64)).map fun i => (Config.freeWord ((seed + 1) * 2 ^ 40 + i)).setWidth 8
/-- What writes at the home have changed in `t` goes over to `s`: media and caches, their errors and the log. -/
def memoryOf (t s : State) : State :=
  { s with mem := t.mem, ecc := t.ecc, rowErrs := t.rowErrs, rowBad := t.rowBad, chErrs := t.chErrs, l2 := t.l2, rdc := t.rdc
           log := t.log, elHead := t.elHead }
/-- Fire the monitors on the granules of global memory in [a, a + n) (R152). -/
def fireGlobal (a n : Nat) (s : State) : State :=
  let hit (m : Monitor) : Monitor :=
    if m.armed && !m.isLocal && decide (a < 64 * m.gran + 64 ∧ 64 * m.gran < a + n) then { m with fired := true } else m
  { s with teams := s.teams.map fun t => { t with groups := t.groups.map fun g => { g with mon := g.mon.map hit } } }
/-- Write an image to its place: the header, and the rest where all of it is memory (R420). -/
def writeArea (s : State) (c a : Nat) (header : BitVec 512) : State :=
  let s := homeWrite (hostPast s a 64) a (toBytes 64 header.toNat)
  let body := imageBytes s.fresh c
  let t := if backed s (a + (saveSize c).toNat - 1) then homeWrite (hostPast s (a + 64) body.length) (a + 64) body else s
  { fireGlobal (a + 64) body.length (memoryOf t s) with fresh := s.fresh + 1 }
/-- Save one team. A team that has ended keeps its place in the cluster, without an image in memory (log 18). -/
def saveTeam (s : State) (t0 : Team) : State :=
  match s.team? t0.uid with
  | none => s
  | some t =>
    let a := imageAddr s t.ctx
    let img := makeImage s a t
    let s := if t.st = .ended ∨ !backed s (a + 63) then s else writeArea s t.ctx a img.header
    let x := s.ctx t.ctx
    let s := s.setCtx t.ctx { x with images := Assoc.put x.images t.uid img }
    if t.st = .ended then s
    else postEvent t.ctx evBind [BitVec.ofNat 64 (t.core * 64 + t.entry), BitVec.ofNat 64 t.teamId]
      (moveSlot t.core t.entry .saved s)
/-- Every operation of a cluster that the save waits for is complete (R418, R155, R203, R262, R288, R314, R371). -/
def saveReady (s : State) (us : List Team) : Bool :=
  us.all (fun u => u.st != .filling) &&
    !s.pend.any fun p => us.any (fun u => u.uid == p.owner.team) &&
      (match p.kind with | .garnet _ => false | .regs true _ => false | _ => true)
/-- The save area of a context, with room for `n` images more. -/
def saveArea (s : State) (c n : Nat) : Nat × Nat :=
  ((s.ctx c).saveBase.toNat, ((s.ctx c).images.length + n) * (saveSize c).toNat)
/-- A line of the save area is held by the host or its home (R281, R443). -/
def areaHeld (s : State) (us : List Team) : Bool :=
  !(s.snoop.isEmpty && s.pend.isEmpty) &&
    us.any fun u => lineHeld s (saveArea s u.ctx us.length).1 (saveArea s u.ctx us.length).2
/-- Save a cluster (R418). A team of it that has ended by now is not saved (R417). -/
def saveCluster (us : List Team) (s : State) : State :=
  let s := us.foldl (fun s u => teamEndStep u.uid s) s
  let us := us.filterMap fun u => s.team? u.uid
  let gids : List Gid := us.flatMap fun u => u.groups.map fun g => ⟨u.uid, g.idx⟩
  let s := gids.foldl (fun s g => abortRegion g s) s
  let s := us.foldl saveTeam s
  let s := us.foldl (fun s u => dropTeamWork u.uid s) s
  { s with teams := s.teams.filter fun t => !us.any fun u => u.uid == t.uid }
/-- DRAINED: a draining context has no resident team left, or a saving context saves its next cluster, and is saved when
none is left (R417, R418). -/
def drainedStep (c : Nat) (s : State) : State :=
  let ts := s.teams.filter fun t => t.ctx == c
  match (s.ctx c).st with
  | .draining => if ts.isEmpty then setCtxState c .drained s else s
  | .saving =>
    if ts.isEmpty then setCtxState c .saved s
    else match (ts.map (clusterOf s)).find? (saveReady s) with
      | some us =>
        if areaHeld s us then biSend s (saveArea s c us.length).1 (saveArea s c us.length).2 true
        else holdUnloads c (saveCluster us s)
      | none => s
  | _ => s
/-- DRAINED. -/
def execDrained (ctx : Nat) (s : State) : Out := .next (drainedStep ctx s)

/-! ### The end of a context (R417, R427) -/

/-- Every unanswered fault of a context is declined, so that its engines come to an end. -/
def declineAll (c : Nat) (s : State) : State :=
  let x := s.ctx c
  (x.faults ++ x.heldFaults).foldl (fun s f => if f.answer.isNone then answerFault c f.ord true s else s) s
/-- KILLED: no group of the context issues again; accepted operations come to their end, and the teams then leave
(log 19). -/
def killCtx (c : Nat) (s : State) : State :=
  if (s.ctx c).st = .killed then s
  else
    let s := withdrawPending c s
    let s := { s with
      teams := s.teams.map fun t => if t.ctx = c then
        { t with groups := t.groups.map fun g => { g with cond := .ended, region := none } } else t
      regx := s.regx.filter fun r => !(s.team? r.g.team).any fun t => t.ctx == c
      grids := s.grids.filter fun (_, g) => g.ctx ≠ c
      gridOrder := s.gridOrder.filter fun i => !(Assoc.get? s.grids i).any fun g => g.ctx == c }
    let s := declineAll c s
    let x := s.ctx c
    let s := s.setCtx c { x with
      images := [], reqAgain := none, progs := [], queues := x.queues.map fun (q, y) => (q, { y with st := .idle }) }
    x.unloads.foldl (fun s u => unloadNow c u.1 s) (setCtxState c .killed s)
/-- CONTEXT_KILL. -/
def execContextKill (ctx : Nat) (s : State) : Out := .next (if ctx < 240 then killCtx ctx s else s)
/-- The code of a saved team is gone: a fatal-trap event with CODEGONE, and the context is killed (R427). -/
def codeGoneKill (c : Nat) (i : Image) (s : State) : State :=
  let pc : DWord := match i.team.live with | g :: _ => g.pc | [] => 0
  killCtx c (postEvent c evFatal [0x12, pc, 0, BitVec.ofNat 64 i.team.uid] s)
/-- FORCED_UNLOAD_RESTORE: a restore of a team whose code is gone. -/
def goneStep (c image : Nat) (s : State) : State :=
  let x := s.ctx c
  match Assoc.get? x.images image with
  | some i =>
    if i.codeGone x && (x.st == .saved || x.st == .drained || x.st == .restoring) then codeGoneKill c i s else s
  | none => s
/-- FORCED_UNLOAD_RESTORE. -/
def execForcedUnloadRestore (ctx image : Nat) (s : State) : Out := .next (goneStep ctx image s)
/-- CONTEXT_CREATION (R298, R357, R417, R432): nothing of the context may be resident, and early service has begun
(R438). -/
def createStep (c : Nat) (sys : Bool) (s : State) : State :=
  if !s.boot.started ∨ 240 ≤ c ∨ s.teams.any (fun t => t.ctx == c) ∨ s.grids.any (fun (_, g) => g.ctx == c) then s
  else
    let x := s.ctx c
    setCtxState c .running (s.setCtx c { x with
      sys := sys, fences := [], cmr := 0, log := [], measReqs := [], images := [], unloads := [], reqAgain := none
      req := false, progs := [] })
/-- CONTEXT_CREATION. -/
def execContextCreation (ctx : Nat) (sys : Bool) (s : State) : Out := .next (createStep ctx sys s)

/-! ### Restore (R423) -/

/-- What a saved team is bound with. -/
structure Rebind where
  img : Image
  b : BindRec
  deriving DecidableEq, Repr
/-- The rebind of a saved team: an image of the context, and an entry that names its grid and its team. -/
def rebindOf (s : State) (c : Nat) (r : RestoreBind) : Option Rebind :=
  match Assoc.get? (s.ctx c).images r.image, bindRec s r.core r.entry r.bind with
  | some i, some b =>
    if b.grid = i.team.grid ∧ b.teamId = i.team.teamId ∧ r.core < 768 ∧ r.entry < 64 ∧ r.bind.getLsbD 0 = true ∧
        ((s.slot r.core r.entry).st = .free ∨ (s.slot r.core r.entry).st = .pending) then some ⟨i, b⟩ else none
  | _, _ => none
/-- The largest allocation of a team's live groups. -/
def Team.maxAlloc (t : Team) : Nat := (t.live.map (·.alloc)).foldl max 0
/-- The team's saved grant fits the entry; where every live group waits in `setw`, some width does (R322, R327, R423). -/
def Rebind.widthOk (r : Rebind) : Bool :=
  let t := r.img.team
  t.st == .ended ||
    (decide (r.b.wlo ≤ t.grant ∧ t.grant ≤ r.b.whi) && fits r.b.gslots r.b.rquota (liveThreads t) t.maxAlloc t.grant) ||
    (inSetwAll t && (widest r.b.gslots r.b.rquota (liveThreads t) t.maxAlloc r.b.wlo r.b.whi).isSome)
/-- Dispatch refuses the entry for the team: R364, or it does not grant what the team holds (R423, log 18). -/
def Rebind.refused (r : Rebind) (s : State) : Bool :=
  let t := r.img.team
  !(r.b.here && r.b.inCore && r.b.poolOk s && !r.b.overlaps s && !r.b.overQuota s && r.widthOk &&
    (r.b.banks &&& t.banks == t.banks) && (r.b.epi &&& t.epi == t.epi) && (r.b.tkOwn || !t.tkOwn) &&
    decide (t.obSize ≤ r.b.obSize) &&
    decide (r.b.rx0 + t.cw ≤ 16 ∧ r.b.ry0 + t.ch ≤ 12 ∧ r.b.coreOf t.inCluster = r.b.core))
/-- The rebinds are those of one whole cluster, on one rectangle of one die. -/
def wholeCluster (s : State) (c : Nat) (rs : List Rebind) : Bool :=
  match rs with
  | [] => false
  | r :: _ =>
    let same (t : Team) : Bool := t.grid == r.img.team.grid && t.cluster == r.img.team.cluster
    let ids := rs.map (·.img.team.uid)
    rs.all (fun x => same x.img.team && x.b.rx0 == r.b.rx0 && x.b.ry0 == r.b.ry0 && coreDie x.b.core == coreDie r.b.core) &&
      ids.eraseDups.length == ids.length && ((s.ctx c).images.all fun (k, i) => !same i.team || ids.contains k)
/-- A byte of the image in memory differs from what the save wrote (R420). -/
def imageChanged (s : State) (i : Image) : Bool :=
  let a := i.addr.toNat
  let n := (saveSize i.team.ctx).toNat
  (homeNat s a 64).2 != i.header.toNat ||
    (backed s (a + n - 1) && (homeRead s (a + 64) (n - 64)).2.1 != imageBytes i.seed i.team.ctx)
/-- An image has been changed, and the device kills the context for it (R420). -/
def imageRuined (s : State) (i : Image) : Bool :=
  i.team.st != .ended && backed s (i.addr.toNat + 63) && imageChanged s i && Config.damagedImageKills i.team.uid
/-- The image is of this stepping (R423). -/
def Image.fitsStepping (i : Image) : Bool :=
  field i.header.toNat 48 16 == Config.stepping.toNat + Config.family.toNat * 2 ^ 8
/-- The team as it binds: its own state, and the new entry's resources (R423). -/
def Rebind.team (r : Rebind) (s : State) : Team :=
  { r.img.team with
    st := .filling, core := r.b.core, entry := r.b.entry, rx0 := r.b.rx0, ry0 := r.b.ry0
    wlo := r.b.wlo, whi := r.b.whi, gslots := r.b.gslots, rquota := r.b.rquota
    prio := BitVec.ofNat 2 (field r.b.v 2 2), part := r.b.part, win := r.b.win, nwin := r.b.nwin
    banks := r.b.banks, epi := r.b.epi, tkOwn := r.b.tkOwn, obBase := r.b.obBase, obSize := r.b.obSize
    interlock := runsInterlocked s r.b.g.ctx r.b.kd }
/-- The register bytes the team goes on with: at the saved grant, or, where its `setw` completes as it is restored, at the
width that gives (R423). -/
def Rebind.need (r : Rebind) (s : State) : Nat :=
  let t := if inSetwAll r.img.team then setwDone (r.team s) else r.team s
  (t.live.map fun g => groupBytes t.grant g.alloc).sum
/-- A saved team takes its entry. -/
def bindSaved (s : State) (r : Rebind) : State :=
  let s := s.setSlot r.b.core r.b.entry ⟨BitVec.ofNat 256 r.b.v &&& slotMask, .filling⟩
  let s := setBounds r.b.core r.b.kd r.b.nwin s
  { s with teams := s.teams ++ [r.team s] }
/-- Nothing of a context is being filled from an image. -/
def restoreDone (s : State) (c : Nat) : Bool := !s.teams.any fun t => t.ctx == c && t.st == .filling && t.restored.isSome
/-- RESTORING ends; a request made meanwhile takes effect (R417). -/
def endRestoring (c : Nat) (s : State) : State :=
  let s := setCtxState c .running s
  let x := s.ctx c
  match x.reqAgain with
  | some _ => requestPreempt c (s.setCtx c { x with reqAgain := none })
  | none => s
/-- The images of a context that another stepping wrote are refused, and posted as events (R423, R425). -/
def refuseImages (c : Nat) (s : State) : State :=
  ((s.ctx c).images.filter fun x => !x.2.fitsStepping).foldl
    (fun s x => postEvent c evImage [BitVec.ofNat 64 x.2.team.teamId] s) s
/-- A line of an image that dispatch reads is held by the host or its home (R281, R443). -/
def imagesHeld (s : State) (rs : List Rebind) : Bool :=
  !(s.snoop.isEmpty && s.pend.isEmpty) && rs.any fun r => lineHeld s r.img.addr.toNat (saveSize r.img.team.ctx).toNat
/-- The entries of a cluster's teams bind together: dispatch waits for what is not free, and refuses and logs the entries that
do not grant what their teams hold (R363, R364, R423). An entry that system software writes with the restore is in the
table then. -/
def bindCluster (c : Nat) (rs : List Rebind) (s : State) : State :=
  let x := s.ctx c
  let open_ (s : State) : State := if x.st = .restoring then s else setCtxState c .restoring s
  match rs.find? (fun r => r.img.codeGone x) with
  | some r => codeGoneKill c r.img s
  | none =>
    if imagesHeld s rs then
      rs.foldl (fun s r => biSend s r.img.addr.toNat (saveSize r.img.team.ctx).toNat false) s
    else if rs.any fun r => imageRuined s r.img then
      killCtx c (rs.foldl (fun s r => postEvent c evImage [BitVec.ofNat 64 r.img.team.teamId] s) s)
    else if rs.any fun r => r.refused s then
      (rs.filter fun r => r.refused s).foldl (fun s r =>
        refuseEntry r.b.core r.b.entry (s.setSlot r.b.core r.b.entry ⟨BitVec.ofNat 256 r.b.v &&& slotMask, .pending⟩)) s
    else if rs.all fun r => r.b.free s (r.need s) then rs.foldl bindSaved (open_ s)
    else s
/-- RESTORE of one cluster. With no bind named the context is rebound, and its restore is over where no team is left to be
restored (R417). A context that holds teams of another stepping stays as it is (R425). -/
def restoreStep (c : Nat) (binds : List RestoreBind) (s : State) : State :=
  let x := s.ctx c
  if !(x.st == .saved || x.st == .drained || x.st == .restoring) then s
  else
    let open_ (s : State) : State := if x.st = .restoring then s else setCtxState c .restoring s
    if x.images.any fun i => !i.2.fitsStepping then refuseImages c s
    else if binds.isEmpty then
      if restoreDone s c && x.images.isEmpty then endRestoring c (open_ s) else open_ s
    else
      let rs := binds.filterMap (rebindOf s c)
      if rs.length ≠ binds.length || !wholeCluster s c rs then s else bindCluster c rs s
/-- RESTORE. -/
def execRestore (ctx : Nat) (binds : List RestoreBind) (s : State) : Out := .next (restoreStep ctx binds s)
/-- The saved team that a bind record names (R423). -/
def BindRec.saved (b : BindRec) (s : State) : Option Rebind :=
  (((s.ctx b.g.ctx).images.find? fun x => x.2.team.grid == b.grid && x.2.team.teamId == b.teamId)).map fun x => ⟨x.2, b⟩
/-- The entries that restore the cluster of a saved team, those of them that are pending on one rectangle with its own. -/
def Rebind.mates (r : Rebind) (s : State) : List Rebind :=
  s.slots.filterMap fun (k, _) => (pendingBind s (k / 64) (k % 64)).bind fun b =>
    if b.grid = r.b.grid ∧ b.cluster = r.b.cluster ∧ b.rx0 = r.b.rx0 ∧ b.ry0 = r.b.ry0 ∧
        coreDie b.core = coreDie r.b.core ∧ b.core < 768 then b.saved s else none
/-- Saved teams of a context can be restored (R417, R438). -/
def restorable (s : State) (c : Nat) : Bool :=
  s.boot.started && ((s.ctx c).st == .saved || (s.ctx c).st == .drained || (s.ctx c).st == .restoring)
/-- The entry can be taken now, with those of its cluster. -/
def Rebind.ready (r : Rebind) (s : State) : Bool :=
  restorable s r.b.g.ctx && (s.ctx r.b.g.ctx).images.all (fun i => i.2.fitsStepping) &&
    wholeCluster s r.b.g.ctx (r.mates s) && (r.mates s).all fun x => !x.refused s && x.b.free s (x.need s)
/-- A lower entry of the core, of a saved team, can be taken first (R363). -/
def savedBelow (s : State) (core entry : Nat) : Bool :=
  (List.range entry).any fun n => ((pendingBind s core n).bind fun b => b.saved s).any fun r => r.ready s
/-- A pending entry of a saved team binds with those of its cluster while the context is restored (R363, R423); an image of
another stepping is refused, posted, and stays saved. -/
def bindSavedEntry (r : Rebind) (s : State) : State :=
  let c := r.b.g.ctx
  let x := s.ctx c
  if !restorable s c then s
  else if x.images.any fun i => !i.2.fitsStepping then refuseImages c (refuseEntry r.b.core r.b.entry s)
  else if wholeCluster s c (r.mates s) then bindCluster c (r.mates s) s
  else if r.refused s then refuseEntry r.b.core r.b.entry s
  else s
/-- DISPATCH_BIND: the entry of a saved team, or of a new one, in ascending order of entries (R363). -/
def dispatchStep (core entry : Nat) (s : State) : State :=
  if savedBelow s core entry then s
  else match (pendingBind s core entry).bind fun b => b.saved s with
  | some r => if firstReady s core entry then bindSavedEntry r s else s
  | none => bindStep core entry s
/-- DISPATCH_BIND. -/
def execDispatchBind (core entry : Nat) (s : State) : Out := .next (dispatchStep core entry s)

/-! ### Filling (R120, R363, R423) -/

/-- A list in ascending order of names, with another merged in. -/
def mergeById {α : Type} (id : α → Nat) (xs ys : List α) : List α :=
  ys.foldl (fun m y => m.filter (fun x => decide (id x ≤ id y)) ++ y :: m.filter (fun x => decide (id y < id x))) xs
/-- A running drain resumes at row ROWS; one that waits for a page resumes with its answer (R232, R259). -/
def resumeRow (s : State) (m : MatOp) : MatOp :=
  match m.kind with
  | .drain _ _ =>
    if m.started && m.susp.isNone && decide (m.row < m.mlive) then { m with run := some (CitRun.start s m m.row) } else m
  | _ => m
/-- CONS of a ring as the saved directory has it, which Agate takes up on restore (R157). -/
def savedCons (i : Image) (k : Nat) : Word :=
  BitVec.ofNat 32 (ofBytes ((List.range 4).map fun b => Assoc.rd 0 i.ringW (16 * k + 4 + b)))
/-- What an image holds goes to the team's new place. -/
def pasteImage (i : Image) (t : Team) (s : State) : State :=
  let sp := windowKey s t false
  let rg := windowKey s t true
  let errs := i.poolErr.map fun (k, e) => if k < 2 ^ 18 then (sp / 8 + k, e) else (rg / 8 + (k - 2 ^ 18), e)
  let into {α : Type} (m : Assoc α) (k : Nat) (xs : Assoc α) : Assoc α := xs.foldl (fun m (a, x) => Assoc.put m (k + a) x) m
  { s with
    pool := into (into s.pool sp i.scratch) rg i.ringW
    poolErr := into s.poolErr 0 errs
    opbuf := into s.opbuf (bufKey t) i.opbuf
    acc := into s.acc (t.core * 12288) i.acc
    mrp := into s.mrp (t.core * 4) i.mrp
    epi := into s.epi (t.core * 8) i.epi
    epiSrc := into s.epiSrc (t.core * 8) i.epiSrc
    top := into s.top (t.core * 128) i.top
    rings := i.rings.foldl (fun m (k, r) => Assoc.put m (key2 t.uid k) { r with cons := savedCons i k, due := true }) s.rings
    matq := mergeById (·.id) s.matq (i.matq.map fun m => { m with core := t.core })
    copies := mergeById (·.id) s.copies (i.copies.map fun c => { c with core := t.core })
    walks := s.walks ++ i.walks.map (fun w => { w with core := t.core, accepted := false })
    pend := mergeById (·.id) s.pend (i.lists.map fun p => { p with core := t.core }) }
/-- A team is written from its image. -/
def writeImage (i : Image) (t : Team) (s : State) : State :=
  let s := pasteImage i t s
  { s with matq := s.matq.map fun m => if m.owner.team = t.uid then resumeRow s m else m }
/-- Fill one team of a cluster. -/
def fillOne (t : Team) (s : State) : State :=
  let s := l1Clear (zeroFill t s) t.core
  match t.restored with
  | none => writeRings t s
  | some k => match Assoc.get? (s.ctx t.ctx).images k with
    | none => s
    | some i => writeImage i t s
/-- A filled team runs; one whose groups had all ended before its save is ended as before. -/
def startTeam (c : Nat) (s : State) (t : Team) : State :=
  let was := (t.restored.bind fun k => Assoc.get? (s.ctx c).images k).map fun i => i.team.st
  let s := match t.restored with
    | some k => s.setCtx c { s.ctx c with images := Assoc.del (s.ctx c).images k }
    | none => s
  if was = some .ended then
    postEvent t.ctx evBind [BitVec.ofNat 64 (t.core * 64 + t.entry), BitVec.ofNat 64 t.teamId]
      (moveSlot t.core t.entry .ended (modTeam t.uid (fun t => { t with st := .ended }) s))
  else moveSlot t.core t.entry .running (modTeam t.uid (fun t => { t with st := .running }) s)
/-- A restored team goes on: monitors find their granules, answers given meanwhile take effect, and a team saved whole
in `setw` completes it (R155, R400, R423). -/
def wakeRestored (c : Nat) (s : State) (t0 : Team) : State :=
  match t0.restored, s.team? t0.uid with
  | some _, some t =>
    let s := modTeam t.uid (fun u => { u with groups := u.groups.map fun g => { g with mon := g.mon.map (Monitor.restore s t) } }) s
    let s := t.groups.foldl (fun s g => match g.cond with
      | .wait (.fault ord _ _ _ _) => match faultAnswer s c ord with
        | some ok => answerGroup c ord (!ok) s ⟨t.uid, g.idx⟩
        | none => s
      | _ => s) s
    setwTry t.uid s
  | _, _ => s
/-- FILL_COMPLETE: every team of the cluster is filled, and they start together (R120, R333, R363, R423), on a die that
runs (R446). -/
def fillStep (core entry : Nat) (s : State) : State :=
  match s.teams.find? (fun t => t.core == core && t.entry == entry && t.st == .filling) with
  | none => s
  | some t =>
    let us := clusterOf s t
    if !(us.all fun u => u.st == .filling) || !dieRuns s core then s
    else
      let s := us.foldl (fun s u => fillOne u s) s
      let s := us.foldl (startTeam t.ctx) s
      let s := us.foldl (wakeRestored t.ctx) s
      if (s.ctx t.ctx).st = .restoring ∧ (s.ctx t.ctx).images.isEmpty ∧ restoreDone s t.ctx then endRestoring t.ctx s
      else s
/-- FILL_COMPLETE. -/
def execFillComplete (core entry : Nat) (s : State) : Out := .next (fillStep core entry s)

/-! ### The shootdown (R129, R399, R405) -/

/-- The accesses of a context that have passed translation and are still to be performed, among them the stores of the
rows that Citrine has under way (R129, R242, R407). -/
def translatedWork (s : State) (c : Nat) : Bool :=
  (s.matq.any fun m => m.ctx == c && m.run.any fun r => r.stores.any fun x => !x.isLocal) || s.pend.any fun p => p.ctx == c && (match p.kind with
    | .store _ | .atom _ | .mst _ | .train _ _ _ _ | .media _ _ => true
    | _ => false)
/-- A page maps a VA to a location, by a walk alone. -/
def mapsTo (s : State) (c va loc : Nat) : Bool :=
  match (walkFrom 4 s (s.ctx c).ptRoot.toNat (va % 2 ^ 57)).2 with
  | .leaf _ e l => field e 48 8 * 2 ^ 48 + field e 12 36 * 4096 + va % 2 ^ pageBits e l == loc
  | _ => false
/-- A region whose buffer holds a line of a frame that is gone replays (R405). -/
def replayLost (c : Nat) (s : State) (gid : Gid) : State :=
  match env? s gid with
  | none => s
  | some e => match e.grp.region with
    | none => s
    | some r =>
      if r.buf.all fun st => mapsTo s c st.va st.loc then s
      else modGroup gid (fun g => { g with
        pc := r.rstart
        cond := match g.cond with
          | .wait (.fault a b d f r) => .wait (.fault a b d f r)
          | .halted _ => .halted true
          | _ => .ready }) (abortRegion gid s)
/-- TLB_SHOOTDOWN: it completes once every access translated before is performed. -/
def shootdownStep (c : Nat) (s : State) : State :=
  if translatedWork s c then s
  else
    let s := dropTlb s c
    let s := { s with teams := s.teams.map fun t => if t.ctx = c then
      { t with groups := t.groups.map fun g => { g with b := g.b.map fun (k, r) => (k, { r with run := 0 }) } } else t }
    (ctxGroups s c).foldl (replayLost c) s
/-- TLB_SHOOTDOWN. -/
def execTlbShootdown (ctx : Nat) (s : State) : Out := .next (shootdownStep ctx s)

end Sys2Proof.Machine
end

