-- ==== Sys2Proof/Machine/Services.lean ====
section
/-! DEFINITION. Measurement (R432), power, cooling and harts (R448, R449), spare cores (R12), slices and carved banks
(R100, R303), and links (R444). -/

namespace Sys2Proof.Machine

/-! ### Measurement (R432) -/

/-- Why bytes to be measured were not read: a line is held (R443), or a page is not mapped. -/
inductive Unread where
  | held
  | unmapped
  deriving DecidableEq, Repr
/-- Bytes of a context's address space as they stand in memory, read without regard to permissions. That a poisoned sector
is measured as the bytes it stores is the model's choice: R87 and R432 name no outcome (log 29). -/
def measuredBytes (s : State) (c : Nat) : List (Nat × Nat) → State × Except Unread (List Byte)
  | [] => (s, .ok [])
  | (va, n) :: l => match walkFrom 4 s (s.ctx c).ptRoot.toNat va with
    | (s, .leaf _ e k) =>
      if leafRefused s c e k then (s, .error .unmapped)
      else
        let loc := field e 48 8 * 2 ^ 48 + field e 12 36 * 4096 + va % 2 ^ pageBits e k
        if lineHeld s loc n then (biSend s loc n false, .error .held)
        else
          let (s, bs, _) := homeRead s loc n
          match measuredBytes s c l with
          | (s, .ok r) => (s, .ok (bs ++ r))
          | (s, .error x) => (s, .error x)
    | (s, .hold) => (s, .error .held)
    | (s, _) => (s, .error .unmapped)
/-- What SM3 is taken over: each segment's VA, length and bytes, in ascending VA order. -/
def measuredText (s : State) (c : Nat) : List (DWord × DWord) → State × Except Unread (List Byte)
  | [] => (s, .ok [])
  | (va, n) :: l => match measuredBytes s c (segs 4096 (va.toNat % 2 ^ 57) n.toNat) with
    | (s, .ok bs) => match measuredText s c l with
      | (s, .ok r) => (s, .ok (toBytes 8 va.toNat ++ toBytes 8 n.toNat ++ bs ++ r))
      | (s, .error x) => (s, .error x)
    | (s, .error x) => (s, .error x)
/-- Segments in ascending VA order. -/
def bySegVa (xs : List (DWord × DWord)) : List (DWord × DWord) :=
  xs.foldl (fun m y => m.filter (fun x => decide (x.1.toNat ≤ y.1.toNat)) ++ y :: m.filter (fun x => decide (y.1.toNat < x.1.toNat))) []
/-- The oldest request of a context is over. -/
def dropRequest (c : Nat) (s : State) : State := s.setCtx c { s.ctx c with measReqs := (s.ctx c).measReqs.drop 1 }
/-- A measurement of the given text: CMR, the ordinal and the log (R432). -/
def extendCmr (c : Nat) (sv : Word) (sgs : List (DWord × DWord)) (bs : List Byte) (s : State) : State :=
  let h := Config.sm3 bs
  let x := s.ctx c
  s.setCtx c { x with
    cmr := Config.sm3 (toBytes 32 x.cmr.toNat ++ toBytes 32 h.toNat)
    log := x.log ++ [⟨x.log.length, h, sv, true, sgs⟩] }
/-- MEASURE: Spinel reads the segment list at the pointer of the context's oldest request, and the segments. `sv` and `sgs`
are what the list says: the manual gives the list no layout (log 29). A list or a segment that is not mapped ends the
request, a held line makes Spinel wait; a refused one leaves CMR, and gets no ordinal. -/
def measureStep (c : Nat) (sv : Word) (sgs : List (DWord × DWord)) (s : State) : State :=
  match (s.ctx c).measReqs with
  | [] => s
  | ptr :: _ =>
    if !s.boot.started then s
    else match measuredBytes s c [(ptr.toNat % 2 ^ 57, 1)] with
      | (s, .error .held) => s
      | (s, .error .unmapped) => dropRequest c s
      | (s, .ok _) =>
        if sv.toNat < (s.ctx c).minsv.toNat then dropRequest c s
        else match measuredText s c (bySegVa sgs) with
          | (s, .error .held) => s
          | (s, .error .unmapped) => dropRequest c s
          | (s, .ok bs) => extendCmr c sv sgs bs (dropRequest c s)
/-- MEASURE. -/
def execMeasure (ctx : Nat) (sv : Word) (segs : List (DWord × DWord)) (s : State) : Out :=
  .next (if ctx < 240 then measureStep ctx sv segs s else s)

/-! ### Power and cooling (R15, R449) -/

/-- The core clock of every die that runs. -/
def setClocks (f : Nat → Nat) (s : State) : State :=
  (runningDies s).foldl (fun s d => s.setDie d { s.die d with clock := f (s.die d).clock }) s
/-- The nominal clock of the phase (R446). -/
def nominal (s : State) : Nat := if s.phase = .run then 1100 else 550
/-- POWER_CONTROL: a step of 25 MHz down while the average is above PLIMIT, and up again below it (log 24). -/
def powerStep (avg now : Nat) (s : State) : State :=
  let s := { s with power := BitVec.ofNat 16 now }
  if s.plimit.toNat < avg then setClocks (fun k => max 25 (k - 25)) s
  else if avg < s.plimit.toNat && !(s.die 0).hot then setClocks (fun k => min (nominal s) (k + 25)) s
  else s
/-- POWER_CONTROL: nothing before Spinel runs (R438). -/
def execPowerControl (avg now : Nat) (s : State) : Out := .next (if s.boot.started then powerStep avg now s else s)
/-- THERMAL_THROTTLE: a reading of a die's junction and of the coolant inlet. -/
def thermalStep (die junction coolant : Nat) (s : State) : State :=
  let s := { s.setDie die { s.die die with junction := BitVec.ofNat 8 junction } with coolant := BitVec.ofNat 8 coolant }
  let hot := (s.die 0).hot
  let set (b : Bool) (s : State) : State :=
    (List.range 4).foldl (fun s d => s.setDie d { s.die d with hot := b }) s
  if !hot && decide (105 ≤ hottest s ∨ 45 ≤ s.coolant.toNat) then
    logEvent (setClocks (fun k => min k 550) (set true s)) 0x0B die (hottest s + s.coolant.toNat * 2 ^ 8)
  else if hot && decide (hottest s ≤ 100 ∧ s.coolant.toNat ≤ 40) then
    logEvent (setClocks (fun _ => nominal s) (set false s)) 0x0B die (hottest s + s.coolant.toNat * 2 ^ 8)
  else s
/-- THERMAL_THROTTLE. -/
def execThermalThrottle (die junction coolant : Nat) (s : State) : Out :=
  .next (if die < 4 then thermalStep die junction coolant s else s)

/-! ### Fail-operational service (R12, R303, R447, R448) -/

/-- The die whose harts take over from a die's (R448). -/
def successorDie (s : State) (die : Nat) : Nat := if (s.die die).harts = 0 then (die + 1) % 4 else die
/-- WATCHDOG_EXPIRY: the hart is stopped, and another takes its duties over. -/
def watchdogStep (die hart : Nat) (s : State) : State :=
  let x := s.die die
  if !x.harts.getLsbD hart then s
  else
    let s := s.setDie die { x with harts := x.harts &&& ~~~(1#4 <<< hart) }
    logEvent s 0x06 die (hart + successorDie s die * 2 ^ 8)
/-- WATCHDOG_EXPIRY: no hart runs before the ROM has started Spinel (R438). -/
def execWatchdogExpiry (die hart : Nat) (s : State) : Out := .next (if die < 4 ∧ s.boot.started then watchdogStep die hart s else s)
/-- SPARE_CORE_SUBSTITUTION (R12): the spare takes the core's place, unseen by programs. That the record's data name the
core by its number is the model's choice (log 29). -/
def spareCoreStep (core : Nat) (s : State) : State :=
  let d := coreDie core
  let x := s.die d
  if x.spares = 0 then s else logEvent (s.setDie d { x with spares := x.spares - 1 }) 0x01 d core
/-- SPARE_CORE_SUBSTITUTION. -/
def execSpareCoreSubstitution (core : Nat) (s : State) : Out := .next (if core < 768 then spareCoreStep core s else s)
/-- A bank is lost with its slice, and the loss is logged (R303, log 25). -/
def loseBank (die slice : Nat) (s : State) : State :=
  let k := die * 64 + slice
  if (Assoc.get? s.beryl k).isNone then s
  else logEvent { s with beryl := Assoc.del s.beryl k } 0x08 die k
/-- The lines a slice holds. -/
def sliceLines (s : State) (die slice : Nat) : List Nat :=
  (s.l2.map (·.1)).filter fun l => dieOf (128 * l) == die && homeSlice s (128 * l) == slice
/-- SLICE_RETIRE (R100). -/
def retireStep (die slice : Nat) (s : State) : State :=
  let ret := (s.die die).retired
  if ret.contains slice then s
  else if 63 ≤ ret.length then logEvent s 0x0D die slice
  else
    let s := (sliceLines s die slice).foldl l2Evict (loseBank die slice s)
    logEvent (s.setDie die { s.die die with retired := slice :: ret }) 0x02 die slice
/-- SLICE_RETIRE. -/
def execSliceRetire (die slice : Nat) (s : State) : Out :=
  .next (if die < 4 ∧ slice < 64 then retireStep die slice s else s)
/-- BANK_CARVE: 1 to 4 ways make a bank in a slice that has none; 0 removes it (R303). -/
def carveStep (bank ways : Nat) (s : State) : State :=
  if ways = 0 then { s with beryl := Assoc.del s.beryl bank }
  else if 4 < ways ∨ (Assoc.get? s.beryl bank).isSome ∨ (s.die (bank / 64)).retired.contains (bank % 64) then s
  else { s with beryl := Assoc.put s.beryl bank ⟨ways, 0, false, 0, [], [], []⟩ }
/-- BANK_CARVE. -/
def execBankCarve (bank ways : Nat) (s : State) : Out := .next (if bank < 256 then carveStep bank ways s else s)
/-- SLICE_FAILURE (R303). -/
def execSliceFailure (die slice : Nat) (s : State) : Out :=
  .next (if die < 4 ∧ slice < 64 then loseBank die slice s else s)

/-! ### Links (R444) -/

/-- The lanes a link runs at after one more is dropped. -/
def fewerLanes (n : Nat) : Nat := if 4 < n then 4 else if 2 < n then 2 else 0
/-- LINK_LANE_DROP. -/
def laneDropStep (die link : Nat) (s : State) : State :=
  let x := s.die die
  let l := (Assoc.get? x.links link).getD .zero
  if l.lanes = 0 then s
  else logEvent (s.setDie die { x with links := Assoc.put x.links link { l with lanes := fewerLanes l.lanes } }) 0x05 die
    (link + fewerLanes l.lanes * 2 ^ 8)
/-- LINK_LANE_DROP. -/
def execLinkLaneDrop (die link : Nat) (s : State) : Out :=
  .next (if die < 4 ∧ link < 4 then laneDropStep die link s else s)

end Sys2Proof.Machine
end

