-- ==== Sys2Proof/Machine/Boot.lean ====
section
/-! DEFINITION. The boot ROM, the fuses and the recovery window (R436 to R438), and what the device reports (R435). -/

namespace Sys2Proof.Machine

/-! ### Firmware images (R436, R437) -/

/-- The key whose SM3 hash is given is fused in an enabled slot. -/
def Boot.accepts (b : Boot) (key : BitVec 256) : Bool :=
  (key == b.aminil && !b.ownerOnly) || b.owners.any fun (_, k) => k == key
/-- What an image's signature covers. -/
def imageText (i : FwImage) : List Byte := toBytes 1 i.sv ++ toBytes 32 i.manifest.toNat ++ toBytes 32 i.digest.toNat
/-- Why the boot ROM rejects an image: 1 its signature or key, 2 its payload, 3 its security version (log 26). -/
def Boot.reject (b : Boot) (i : FwImage) : Option Nat :=
  if !(b.accepts i.signer && Config.sm2Verify i.signer (imageText i) i.signature) then some 1
  else if Config.sm3 i.payload ≠ i.digest then some 2
  else if i.sv < b.fuses ∨ 128 < i.sv then some 3
  else none
/-- The boot ROM at reset: Spinel starts on an accepted image, or the recovery window opens (R438). -/
def Boot.start (b : Boot) : Boot :=
  let ok := !b.recovery && (match b.fw with | some i => (b.reject i).isNone | none => false)
  { b with started := ok, window := !ok, recovery := false, out := [] }
/-- What a reset leaves: media with their errors and spared rows, spare cores used, the other devices of the domain, and
what the boot ROM holds. The agenda is the model's own. -/
def resetKeeping (s : State) : State :=
  { State.reset with
    agenda := s.agenda, fresh := s.fresh, mem := s.mem, ecc := s.ecc, spared := s.spared, domain := s.domain
    dies := (s.dies.map fun (d, x) => (d, { Die.zero with spares := x.spares })).filter fun (_, x) => x ≠ .zero
    boot := s.boot.start }
/-- DEVICE_RESET. -/
def execDeviceReset (s : State) : Out := .next (resetKeeping s)
/-- RECOVERY_IMAGE: an accepted image is written and the device resets; else the cause is reported (R438). -/
def recoveryStep (i : FwImage) (s : State) : State :=
  if !s.boot.window then s
  else match s.boot.reject i with
    | some k => { s with boot := { s.boot with out := (0, toBytes 1 k) :: s.boot.out } }
    | none => resetKeeping { s with boot := { s.boot with fw := some i, recovery := false } }
/-- RECOVERY_IMAGE. -/
def execRecoveryImage (img : FwImage) (s : State) : Out := .next (recoveryStep img s)

/-! ### Fuses (R437) -/

/-- The event code of an enrolment (log 26). -/
def elEnrol : Nat := 0x0E
/-- The event code of an advance (log 26). -/
def elAdvance : Nat := 0x0F
/-- ENROL_OWNER_KEY: a slot is blown on a message signed by a key already accepted. -/
def enrolStep (slot : Nat) (key signer : BitVec 256) (sig : List Byte) (s : State) : State :=
  let b := s.boot
  if b.started && decide (slot < 4) && (Assoc.get? b.owners slot).isNone && b.accepts signer &&
      Config.sm2Verify signer (toBytes 1 slot ++ toBytes 32 key.toNat) sig then
    logEvent { s with boot := { b with owners := Assoc.put b.owners slot key } } elEnrol 0 slot
  else s
/-- ENROL_OWNER_KEY. -/
def execEnrolOwnerKey (slot : Nat) (key signer : BitVec 256) (sig : List Byte) (s : State) : Out :=
  .next (enrolStep slot key signer sig s)
/-- ADVANCE: the counter rises to the running image's SV, at most 128, on an owner's signature. -/
def advanceStep (signer : BitVec 256) (sig : List Byte) (s : State) : State :=
  let b := s.boot
  match b.fw with
  | none => s
  | some i =>
    if b.started && (b.owners.any fun (_, k) => k == signer) && Config.sm2Verify signer (toBytes 1 i.sv) sig then
      logEvent { s with boot := { b with fuses := max b.fuses (min i.sv 128) } } elAdvance 0 i.sv
    else s
/-- ADVANCE. -/
def execAdvance (signer : BitVec 256) (sig : List Byte) (s : State) : Out := .next (advanceStep signer sig s)
/-- OWNERONLY_SET: the fuse is blown for good. -/
def execOwneronlySet (s : State) : Out := .next { s with boot := { s.boot with ownerOnly := true } }

/-! ### Reporting (R435) -/

/-- SPDM request codes (log 12). -/
def spdmVersion : Nat := 0x84
/-- GET_CAPABILITIES. -/
def spdmCapabilities : Nat := 0xE1
/-- NEGOTIATE_ALGORITHMS. -/
def spdmAlgorithms : Nat := 0xE3
/-- GET_DIGESTS. -/
def spdmDigests : Nat := 0x81
/-- GET_CERTIFICATE. -/
def spdmCertificate : Nat := 0x82
/-- CHALLENGE. -/
def spdmChallenge : Nat := 0x83
/-- GET_MEASUREMENTS. -/
def spdmMeasurements : Nat := 0xE0
/-- SET_CERTIFICATE. -/
def spdmSetCertificate : Nat := 0xEE
/-- An error response. -/
def spdmError : List Byte := Config.spdmReply 0x7F
/-- Answer a request; only running firmware answers. -/
def answer (req : Nat) (bs : List Byte) (s : State) : State :=
  if s.boot.started then { s with boot := { s.boot with out := (req, bs) :: s.boot.out } } else s
/-- The version the device answers: SPDM 1.3 (R435); the rest of the message is free (log 12). -/
def versionReply : List Byte := toBytes 2 0x1300 ++ Config.spdmReply spdmVersion
/-- Its capabilities: certificates, challenges, signed measurements and SET_CERTIFICATE, and none of a session (R435); the
flags stand as SPDM 1.3 has them (log 12). -/
def capabilitiesReply : List Byte := toBytes 4 0x80016 ++ Config.spdmReply spdmCapabilities
/-- Its algorithms: SM2 over SM2-P256, then SM3-256, by SPDM 1.3's bits (R435, log 12). -/
def algorithmsReply : List Byte := toBytes 4 0x200 ++ toBytes 4 0x40 ++ Config.spdmReply spdmAlgorithms
/-- GET_VERSION. -/
def execGetVersion (s : State) : Out := .next (answer spdmVersion versionReply s)
/-- GET_CAPABILITIES. -/
def execGetCapabilities (s : State) : Out := .next (answer spdmCapabilities capabilitiesReply s)
/-- NEGOTIATE_ALGORITHMS. -/
def execNegotiateAlgorithms (s : State) : Out := .next (answer spdmAlgorithms algorithmsReply s)
/-- The certificate chain of a slot: Aminil's in slot 0, the owner's in slot 1. -/
def Boot.chain (b : Boot) (slot : Nat) : Option (List Byte) :=
  if slot = 0 then some (Config.spdmReply spdmCertificate)
  else if slot = 1 ∧ b.cert1 ≠ [] then some b.cert1
  else none
/-- GET_DIGESTS: the SM3 of each chain held. -/
def execGetDigests (s : State) : Out :=
  .next (answer spdmDigests (([0, 1].filterMap s.boot.chain).flatMap fun c => toBytes 32 (Config.sm3 c).toNat) s)
/-- GET_CERTIFICATE. -/
def execGetCertificate (slot : Nat) (s : State) : Out :=
  .next (answer spdmCertificate ((s.boot.chain slot).getD spdmError) s)
/-- CHALLENGE: the nonce under the device identity key. -/
def execChallenge (nonce : List Byte) (s : State) : Out := .next (answer spdmChallenge (Config.sm2Sign nonce) s)
/-- A context's measurement log as it is reported. -/
def Ctx.logBytes (x : Ctx) : List Byte :=
  x.log.flatMap fun m => toBytes 4 m.ordinal ++ toBytes 32 m.hash.toNat ++ toBytes 4 m.sv.toNat
/-- The security version of a context: that of its latest measurement. -/
def Ctx.sv (x : Ctx) : Nat := match x.log.getLast? with | some m => m.sv.toNat | none => 0
/-- The content of a measurement index; none where it is never reported. -/
def measurement (s : State) (i : Nat) : Option (List Byte) :=
  match s.boot.fw with
  | none => none
  | some fw =>
    if i = 1 then some (toBytes 32 (Config.sm3 fw.payload).toNat)
    else if i = 2 then some (toBytes 32 fw.manifest.toNat)
    else if i = 3 then some (toBytes 1 s.boot.fuses)
    else if i = 4 then some ((List.range 240).flatMap fun c => toBytes 4 (s.ctx c).minsv.toNat ++ toBytes 4 (s.ctx c).sv)
    else if 16 ≤ i ∧ i < 136 then
      let a := s.ctx (2 * (i - 16))
      let b := s.ctx (2 * (i - 16) + 1)
      some (toBytes 32 a.cmr.toNat ++ toBytes 32 b.cmr.toNat ++ a.logBytes ++ b.logBytes)
    else none
/-- The indices a report has. -/
def measurementIndices : List Nat := [1, 2, 3, 4] ++ (List.range 120).map (16 + ·)
/-- The report of an index: 0 asks for the number of indices and 0xFF for all (log 12). -/
def report (s : State) (i : Nat) : Option (List Byte) :=
  if i = 0 then some (toBytes 1 measurementIndices.length)
  else if i = 0xFF then some ((measurementIndices.filterMap (measurement s)).flatten)
  else measurement s i
/-- GET_MEASUREMENTS: the report and the nonce, signed. -/
def execGetMeasurements (index : Nat) (nonce : List Byte) (s : State) : Out :=
  .next (answer spdmMeasurements (match report s index with
    | some bs => bs ++ Config.sm2Sign (bs ++ nonce)
    | none => spdmError) s)
/-- SET_CERTIFICATE: slot 1 only, after an owner key has been enrolled. -/
def setCertStep (slot : Nat) (chain : List Byte) (s : State) : State :=
  if slot = 1 ∧ s.boot.owners ≠ [] ∧ s.boot.started = true then
    answer spdmSetCertificate (Config.spdmReply spdmSetCertificate) { s with boot := { s.boot with cert1 := chain } }
  else answer spdmSetCertificate spdmError s
/-- SET_CERTIFICATE. -/
def execSetCertificate (slot : Nat) (chain : List Byte) (s : State) : Out := .next (setCertStep slot chain s)

end Sys2Proof.Machine
end

