-- ==== Sys2Proof/Machine/Cache.lean ====
section
/-! DEFINITION. Prefetch, range instructions and fences (R111 to R115, R390 to R392), long-latency results (R36), and
what the caches and the base-die controllers do by themselves (R89 to R105). -/

namespace Sys2Proof.Machine

/-! ### `pfg` (R112) -/

/-- The location of a piece of the address space that the context may read, without a fault or a trap. -/
def quietLook (e : Env) (b : GBase) (x : Int) (n : Nat) (s : State) : State × Option LaneAcc :=
  match globalCheck s e.team.ctx b x n 1 .read with
  | (s, some _) => (s, none)
  | (s, none) => match globalPage s e.team.ctx b x n .read with
    | (s, .ok loc ca) => (s, some ⟨0, (b.va x).toNat, loc, ca⟩)
    | (s, _) => (s, none)
/-- Fetch a line as a load without destination; a prefetch that would have to wait is dropped. -/
def prefetchLine (e : Env) (b : GBase) (ch : Nat) (s : State) (x : Int) : State :=
  match quietLook e b x 128 s with
  | (s, none) => s
  | (s, some a) =>
    let a := { a with loc := a.loc / 128 * 128 }
    if a.ca ≠ 0 || inMgmt a.loc || loadWaits e s ch a 128 then s
    else prioLoad s e.core (a.loc / 128) ch (loadLine s e.core a.loc 1 true (loadCh s e.core (a.loc / 128) ch)).1
/-- `pfg`. -/
def pfgBody (f : Slk) (e : Env) : Res :=
  let b := e.gbase f.s1
  let first (l : Nat) : Int :=
    let x := e.offset l f.s2 + fDisp10 f * 128
    x - (b.va x) % 128
  .done ((e.memLanes f).foldl (fun s l =>
    (List.range (2 ^ fSz f)).foldl (fun s (j : Nat) => prefetchLine e b f.ch.toNat s (first l + 128 * j)) s) e.st)
/-- `pfg`. -/
def execPfg (f : Slk) (s : State) : Out := issue (.pfg f) f (pfgBody f) s

/-! ### `wbr` and `invr` (R113 to R115) -/

/-- The checks of a range's first and last bytes (R113, R450). -/
def rangeEnds (e : Env) (b : GBase) (x : Int) (n l : Nat) (s : State) : Except Res State :=
  let look (s : State) (x : Int) : State × Option (Look × Nat) := globalCheck s e.team.ctx b x 1 1 .read
  let bad (s : State) (r : Look × Nat) : Except Res State := .error (lookRes s r.2 l .read r.1)
  match look s x with
  | (s, some r) => bad s r
  | (s, none) => match look s (x + n - 1) with
    | (s, some r) => bad s r
    | (s, none) => .ok s
/-- The pages of a range that the context may read: first location and length of each piece, whole lines; none where a
line that a look-up needs is held (R113, R443). -/
def rangePieces (e : Env) (b : GBase) (x : Int) (n : Nat) (s : State) : State × Option (List (Nat × Nat)) :=
  let va := (b.va x).toNat / 128 * 128
  let fin := roundUp ((b.va x).toNat + n) 128
  (segs 4096 va (fin - va)).foldl (init := (s, some [])) fun (s, ps) (a, m) =>
    match globalPage s e.team.ctx b ((a : Int) - (b.pointer % 2 ^ 57 : Nat)) m .read with
    | (s, .ok loc _) => (s, ps.map (· ++ [(loc, m)]))
    | (s, .hold) => (s, none)
    | (s, _) => (s, ps)
/-- The checks of every lane's range, then its pieces. -/
def laneRanges (f : Slk) (e : Env) : Except Res (State × List (Nat × Nat)) :=
  let b := e.gbase f.s1
  let xs := (e.memLanes f).filterMap fun l =>
    let n := e.n32 l (.op f.s3)
    if n = 0 then none else some (l, e.offset l f.s2 + fDisp10 f, n)
  let go (r : Except Res State) (y : Nat × Int × Nat) : Except Res State :=
    match r with
    | .error r => .error r
    | .ok s => rangeEnds e b y.2.1 y.2.2 y.1 s
  match xs.foldl go (.ok e.st) with
  | .error r => .error r
  | .ok s =>
    let (s, ps) := xs.foldl (init := (s, some [])) fun (s, ps) (_, x, n) =>
      let (s, qs) := rangePieces e b x n s
      (s, match ps, qs with | some ps, some qs => some (ps ++ qs) | _, _ => none)
    match ps with
    | some ps => .ok (s, ps)
    | none => .error (.wait s .retry)
/-- A line lies in one of the pieces. -/
def inPieces (ps : List (Nat × Nat)) (line : Nat) : Bool :=
  ps.any fun (loc, n) => decide (loc ≤ 128 * line ∧ 128 * line < loc + n)
/-- The dirty RDC lines of a die in the pieces. -/
def dirtyIn (s : State) (die : Nat) (ps : List (Nat × Nat)) : List Nat :=
  (rdcDirty s die).filter fun l => inPieces ps l
/-- The host is asked for lines. -/
def askLines (ls : List Nat) (s : State) : State := ls.foldl (fun s l => biSend s (128 * l) 128 true) s
/-- `wbr`: the RDC's dirty bytes go to their homes, and the homes' dirty lines are posted to media (R114). -/
def wbrBody (f : Slk) (e : Env) : Res :=
  match laneRanges f e with
  | .error r => r
  | .ok (s, ps) =>
    let ds := dirtyIn s e.die ps
    if s.pend.any fun p => p.owner == e.gid && (match p.kind with | .store _ => true | _ => false) then .wait s .retry
    else if ds.any fun l => lineHeld s (128 * l) 128 then .wait (askLines ds s) .retry
    else
      let s := ds.foldl (fun s l => rdcWriteBack s e.die l) s
      .done (ps.foldl (fun s (loc, n) => if isDev loc then post e.gid e.team.ctx e.core (.media loc n) s else s) s)
/-- `wbr`. -/
def execWbr (f : Slk) (s : State) : Out := issue (.wbr f) f (wbrBody f) s
/-- `invr`: L1, and unless `.l1` the die's RDC after its dirty bytes are written back. -/
def invrBody (l1Only : Bool) (f : Slk) (e : Env) : Res :=
  match laneRanges f e with
  | .error r => r
  | .ok (s, ps) =>
    let ds := dirtyIn s e.die ps
    if !l1Only && ds.any fun l => lineHeld s (128 * l) 128 then .wait (askLines ds s) .retry
    else
      let s := { s with l1 := s.l1.filter fun (k, _) => !(k / 2 ^ 64 == e.core && inPieces ps (k % 2 ^ 64)) }
      if l1Only then .done s
      else
        let s := (dirtyIn s e.die ps).foldl (fun s l => rdcWriteBack s e.die l) s
        .done { s with rdc := s.rdc.filter fun (k, _) => !(k / 2 ^ 64 == e.die && inPieces ps (k % 2 ^ 64)) }
/-- `invr`. -/
def execInvr (f : Slk) (s : State) : Out := issue (.invr f) f (invrBody false f) s
/-- `invr.l1`. -/
def execInvrL1 (f : Slk) (s : State) : Out := issue (.invrL1 f) f (invrBody true f) s

/-! ### Fences (R280, R390 to R392) -/

/-- The group's memory-side work that a `fence.ms` of scope `sc` waits for (R280). -/
def msWaits (e : Env) (sc : Nat) : Bool :=
  (e.st.pend.any fun p => p.owner == e.gid && (match p.kind with
    | .mst _ => true
    | .media _ _ => decide (4 ≤ sc)
    | .store st => decide (4 ≤ sc) && st.ch == 5
    | _ => false)) ||
  e.st.walks.any fun w => w.owner == e.gid
/-- A fence: release first, then the memory side, then acquire (R391). -/
def fenceBody (rel ms acq : Bool) (sc : Nat) : Env → Res :=
  committing fun e =>
    match if rel || ms then release e sc else some e.st with
    | none => releaseWait e sc
    | some s =>
      if ms && msWaits (e.at s) sc then pastRelease e (.wait s .retry)
      else .done (if acq || ms then acquire e.core sc s else s)
/-- `fence.acq`. -/
def execFenceAcq (f : Slk) (s : State) : Out := issue (.fenceAcq f) f (fenceBody false false true (fScope f)) s
/-- `fence.rel`. -/
def execFenceRel (f : Slk) (s : State) : Out := issue (.fenceRel f) f (fenceBody true false false (fScope f)) s
/-- `fence.ar`. -/
def execFenceAr (f : Slk) (s : State) : Out := issue (.fenceAr f) f (fenceBody true false true (fScope f)) s
/-- `fence.ms`. -/
def execFenceMs (f : Slk) (s : State) : Out := issue (.fenceMs f) f (fenceBody false true false (fScope f)) s
/-- Every line of a quad's instruction cache goes. -/
def icacheClear (quad : Nat) (s : State) : State :=
  { s with icache := s.icache.filter fun (k, _) => k / 2 ^ 64 ≠ quad }
/-- `ifence` (R392). -/
def ifenceBody (f : Slk) : Env → Res :=
  committing fun e =>
    .done (modGroup e.gid (fun g => { g with ahead := [] }) (icacheClear (quadOf e.core) (acquire e.core (fScope f) e.st)))
/-- `ifence`. -/
def execIfence (f : Slk) (s : State) : Out := issue (.ifence f) f (ifenceBody f) s

/-! ### Results (R36) -/

/-- A long-latency producer writes its registers and sets them full. -/
def resultStep (id : Nat) (s : State) : State :=
  match s.pend? id with
  | none => s
  | some p => match p.kind with
    | .regs _ ws => fillRegs p.owner ws (unpost id s)
    | _ => s
/-- LONG_LATENCY_WRITE. -/
def execLongLatencyWrite (id : Nat) (s : State) : Out := .next (resultStep id s)

/-! ### The caches by themselves -/

/-- A leaf entry marks the page of a location cached: one of those that translations have brought in (R101, R399). -/
def cachedPage (s : State) (loc : Nat) : Bool :=
  s.tlb.any fun (_, t) =>
    let e := t.leaf.toNat
    let n := 2 ^ pageBits e t.level
    field e 9 2 == 0 && field e 48 8 == nodeOf loc && field e 12 36 * 4096 / n == loc % 2 ^ 48 / n
/-- L1_FILL (R105): only of a page marked cached (R101). -/
def l1FillStep (core loc : Nat) (s : State) : State :=
  let line := loc / 128
  if lineHeld s loc 1 || inMgmt loc || !cachedPage s loc || l1Locked s core line ||
      s.pend.any (fun p => p.core == core && (match p.span with
        | some (a, m) => overlap a m (128 * line) 128
        | none => false)) then s
  else (loadLine s core (128 * line) 1 true 0).1
/-- L1_FILL. -/
def execL1Fill (core loc : Nat) (s : State) : Out := .next (l1FillStep core loc s)
/-- L2_FILL (R99): the sector of a location. -/
def l2FillStep (loc : Nat) (s : State) : State :=
  if !isDev loc || peridotHolds s (loc / 128) then s else (l2Fill s (loc / 128) (loc % 128 / 64)).1
/-- L2_FILL. -/
def execL2Fill (loc : Nat) (s : State) : Out := .next (l2FillStep loc s)
/-- L2_EVICTION (R99, R109). -/
def l2EvictStep (loc : Nat) (s : State) : State :=
  if isDev loc && (Assoc.get? s.l2 (loc / 128)).isSome && mayEvict s .l2 (loc / 128) then l2Evict s (loc / 128) else s
/-- L2_EVICTION. -/
def execL2Eviction (loc : Nat) (s : State) : Out := .next (l2EvictStep loc s)
/-- RDC_WRITEBACK (R102): at any moment, unless the home holds the line. -/
def rdcBackStep (die loc : Nat) (s : State) : State :=
  if (rdcGet s die (loc / 128)).dirty = 0 then s
  else if lineHeld s loc 1 then biSend s loc 1 true
  else rdcWriteBack s die (loc / 128)
/-- RDC_WRITEBACK. -/
def execRdcWriteback (die loc : Nat) (s : State) : Out := .next (rdcBackStep die loc s)
/-- RDC_FILL (R102): only of a page marked cached (R101). -/
def rdcFillStep (die loc : Nat) (s : State) : State :=
  if lineHeld s loc 1 || inMgmt loc || !isRemote die loc || !cachedPage s loc then s else (rdcFillLine s die (loc / 128)).1
/-- RDC_FILL. -/
def execRdcFill (die loc : Nat) (s : State) : Out := .next (rdcFillStep die loc s)

/-! ### The base-die controller (R89 to R93) -/

/-- A posted media write is accepted: the dirty sectors of its lines go to media (R92, R114). -/
def mediaStep (id : Nat) (s : State) : State :=
  match s.pend? id with
  | none => s
  | some p => match p.kind with
    | .media loc n =>
      unpost id ((s.l2.filter fun (k, _) => inPieces [(loc / 128 * 128, roundUp (loc + n) 128 - loc / 128 * 128)] k).foldl
        (fun s (k, _) => l2Clean s k) s)
    | _ => s
/-- CONTROLLER_ACCEPT. -/
def execControllerAccept (id : Nat) (s : State) : Out := .next (mediaStep id s)
/-- A scrub pass over a stack begins: its errors are counted anew, under the period that SCRUB holds (R90, R440). -/
def beginPass (stack : Nat) (s : State) : State :=
  let d := s.die (stack / 3)
  { s.setDie (stack / 3) { d with scrubNow := d.scrub } with
    rowErrs := s.rowErrs.filter fun (k, _) => k / 2 ^ 64 ≠ stack
    chErrs := s.chErrs.filter fun (k, _) => k / 2 ^ 64 ≠ stack }
/-- PATROL_SCRUB: a sector is read and resolved; a pass begins with a stack's first sector (R89, R90). -/
def scrubStep (sec : Nat) (s : State) : State :=
  let loc := 64 * sec
  if !(isDev loc && backed s loc) then s
  else
    (resolveSector (if stackAddr loc = 0 then beginPass (stackOf loc) s else s) sec).1
/-- PATROL_SCRUB. -/
def execPatrolScrub (sec : Nat) (s : State) : Out := .next (scrubStep sec s)
/-- A row has had four corrected errors in the period, or an uncorrectable one (R90). -/
def rowFails (s : State) (stack row : Nat) : Bool :=
  decide (4 ≤ Assoc.rd 0 s.rowErrs (key2 stack row)) || s.rowBad.contains (key2 stack row)
/-- A sparing transaction reads, corrects and writes each sector of a stack that `among` tells; those without an error stay
as they are (R93). -/
def spareSectors (stack : Nat) (among : Nat → Bool) (s : State) : State :=
  ((s.ecc.filterMap fun (k, _) =>
    if isDev (8 * k) && stackOf (8 * k) == stack && among (stackAddr (8 * k) / 64) then some (k / 8) else none).eraseDups).foldl
    (fun s sec => (resolveSector s sec).1) s
/-- ROW_SPARING: the row's contents, corrected, move to a spare row, as often as the row fails (R90, R93). That the record's
data is stack + row × 2^8 is the model's choice: R447 says 'address, unit or count' (log 29). -/
def sparingStep (stack row : Nat) (s : State) : State :=
  let k := key2 stack row
  if !rowFails s stack row then s
  else
    let s := spareSectors stack (fun sec => Config.rowOf stack sec == row) s
    logEvent { s with
      rowErrs := Assoc.del s.rowErrs k, rowBad := s.rowBad.filter (· ≠ k)
      spared := if s.spared.contains k then s.spared else k :: s.spared } 0x03 (stack / 3) (stack + row * 2 ^ 8)
/-- ROW_SPARING. -/
def execRowSparing (stack row : Nat) (s : State) : Out := .next (sparingStep stack row s)
/-- A channel's corrected errors of this pass have reached CHTHR, and its memory die of 32 channels still has its spare one
(R90, R440). Channels are named apart from rows. -/
def channelFails (s : State) (stack ch : Nat) : Bool :=
  decide ((s.die (stack / 3)).chthr.toNat ≤ Assoc.rd 0 s.chErrs (key2 stack ch)) &&
    s.spared.all fun k => !(k / 2 ^ 64 == 256 + stack && k % 2 ^ 64 / 32 == ch / 32)
/-- CHANNEL_SPARING: the channel's contents, corrected, move to the spare arrays (R90, R93). That the record's data is
stack + channel × 2^8 is the model's choice (log 29). -/
def channelStep (stack ch : Nat) (s : State) : State :=
  if 12 ≤ stack ∨ 512 ≤ ch ∨ !channelFails s stack ch then s
  else
    let s := spareSectors stack (fun sec => Config.channelOf stack sec == ch) s
    logEvent { s with chErrs := Assoc.del s.chErrs (key2 stack ch), spared := key2 (256 + stack) ch :: s.spared } 0x04
      (stack / 3) (stack + ch * 2 ^ 8)
/-- CHANNEL_SPARING. -/
def execChannelSparing (stack ch : Nat) (s : State) : Out := .next (channelStep stack ch s)

end Sys2Proof.Machine
end

