-- ==== Sys2Proof/Machine/Control.lean ====
section
/-! DEFINITION. Control transfer (R367 to R369), and `trap`, `brk` and `tret` (R412 to R414). -/

namespace Sys2Proof.Machine

/-- `bra`. -/
def execBra (f : Slk) (s : State) : Out := issue (.bra f) f (fun e => .goto e.st (branchTarget e.grp.pc f)) s
/-- A pointer operand. -/
def Env.pointer (e : Env) (o : Opnd) : DWord := BitVec.ofNat 64 (e.pair o)
/-- `jmpi`. -/
def execJmpi (f : Slk) (s : State) : Out := issue (.jmpi f) f (fun e => .goto e.st (e.pointer f.s1)) s
/-- `jmpi.tab`. -/
def execJmpiTab (f : Slk) (s : State) : Out :=
  issue (.jmpiTab f) f (fun e => .goto e.st (pcAdd (branchTarget e.grp.pc f) (12 * e.n32 0 (.op f.s1) : Nat))) s
/-- `call`: the target is read before the link is written. -/
def callBody (f : Slk) (e : Env) : Res :=
  let t := if fVar f = 0 then branchTarget e.grp.pc f else e.pointer f.s1
  .goto (writeFixed e 4 3 (dstWrites f.d 2 0 (pcAdd e.grp.pc 12).toNat)) t
/-- `call`. -/
def execCall (f : Slk) (s : State) : Out := issue (.call f) f (callBody f) s
/-- `ret`. -/
def execRet (f : Slk) (s : State) : Out := issue (.ret f) f (fun e => .goto e.st (e.pointer f.s1)) s

/-- Fetch a line into the quad's instruction cache if it can be fetched at `va`; no slip is counted, and an uncorrectable
error is dropped and counted (R87, R369). -/
def prefetchCode (e : Env) (rid : Nat) (s : State) (va : Nat) : State := (fetchQuiet e rid va 1 s).1
/-- `ipf`: the first line is that of the label. -/
def ipfBody (f : Slk) (e : Env) : Res :=
  let t := branchTarget e.grp.pc f
  let va := t.toNat % 2 ^ 57
  let n := match opImm? f.s1 with | some z => z.toNat | none => 1
  .done ((List.range n).foldl (fun s i =>
    let a := if i = 0 then va else (va / 128 + i) * 128
    if a < 2 ^ 57 then prefetchCode e (t.toNat / 2 ^ 57) s a else s) e.st)
/-- `ipf`. -/
def execIpf (f : Slk) (s : State) : Out := issue (.ipf f) f (ipfBody f) s

/-- `trap` raises TRAPI with its operand (R411, R412). -/
def trapBody (f : Slk) (e : Env) : Res :=
  let x := e.n32 0 (.op f.s1)
  .trap e.st { cause := 0x0F, detail := x % 256, addr := x }
/-- `trap`. -/
def execTrap (f : Slk) (s : State) : Out := issue (.trap f) f (trapBody f) s
/-- The event code of a debug halt (log 16). -/
def evDebug : Nat := 2
/-- `brk`: with DEBUG 0 it traps; with DEBUG 1 the group halts and a debug event is posted (R413). -/
def brkBody (e : Env) : Res :=
  if e.ctx.debug then
    .stay (postEvent e.team.ctx evDebug [e.grp.pc, BitVec.ofNat 64 e.gid.team, BitVec.ofNat 64 e.gid.group]
      (e.mod fun g => { g with cond := .halted false }))
  else .trap e.st { cause := 0x10 }
/-- `brk`. -/
def execBrk (f : Slk) (s : State) : Out := issue (.brk f) f brkBody s
/-- `tret` (R414). -/
def execTret (f : Slk) (s : State) : Out := issue (.tret f) f (fun e => .stay (takeTret e.gid false e.st)) s
/-- `tret.next` (R414). -/
def execTretNext (f : Slk) (s : State) : Out := issue (.tretNext f) f (fun e => .stay (takeTret e.gid true e.st)) s

end Sys2Proof.Machine
end

