-- ==== Sys2Proof/Machine/Counters.lean ====
section
/-! DEFINITION. Routing counters, transition tables and expert prefetch (R370 to R375). -/

namespace Sys2Proof.Machine

/-! ### Routing counters (R370 to R372) -/

/-- The bank an instruction names, checked: its value and its grant. -/
def routeBank (e : Env) (o : Opnd) : Except Res Nat :=
  let b := e.n32 0 (.op o)
  if 3 < b then .error (.trap e.st { cause := 0x05, detail := 0x04, addr := b })
  else if !e.ctx.rgrant.getLsbD (4 * e.die + b) then .error (.trap e.st { cause := 0x06, detail := 0x06, addr := b })
  else .ok b
/-- The increment of a lane; none means 1. -/
def Env.increment (e : Env) (f : Slk) (l : Nat) : Nat := if f.s3 = .none then 1 else e.n32 l (.op f.s3)
/-- `rcnt`: one request for each distinct index. -/
def rcntBody (f : Slk) (e : Env) : Res :=
  match routeBank e f.s1 with
  | .error r => r
  | .ok b =>
    let xs := (e.memLanes f).map fun l => (e.n32 l (.op f.s2) % 256, e.increment f l)
    .done ((xs.map (·.1)).eraseDups.foldl (fun s i =>
      let v := (xs.filter fun x => x.1 == i).foldl (fun a x => min (a + x.2) 0xFFFFFFFF) 0
      post e.gid e.team.ctx e.core (.rcnt e.die b i (BitVec.ofNat 32 v)) s) e.st)
/-- `rcnt`. -/
def execRcnt (f : Slk) (s : State) : Out := issue (.rcnt f) f (committing (rcntBody f)) s
/-- A routing counter. -/
def Die.counter (d : Die) (bank i : Nat) : Nat := (Assoc.rd 0 d.counters (256 * bank + i)).toNat
/-- A request is applied, after the group's earlier ones (R371). -/
def rcntStep (id : Nat) (s : State) : State :=
  match s.pend? id with
  | none => s
  | some p => match p.kind with
    | .rcnt die bank i v =>
      if s.pend.any fun q => decide (q.id < id) && q.owner == p.owner &&
          (match q.kind with | .rcnt _ _ _ _ => true | _ => false) then s
      else
        let d := s.die die
        let x := min (d.counter bank i + v.toNat) 0xFFFFFFFF
        unpost id (s.setDie die { d with counters := Assoc.wr 0 d.counters (256 * bank + i) (BitVec.ofNat 32 x) })
    | _ => s
/-- RCNT_APPLY. -/
def execRcntApply (id : Nat) (s : State) : Out := .next (rcntStep id s)
/-- `rcsnap`: after its checks and the group's earlier `rcnt`, the region is committed, the bank read and cleared in one
step, and its values written at once. -/
def rcsnapBody (f : Slk) (e : Env) : Res :=
  let a := e.n32 0 (.op f.s1)
  match scratchLook e.st e.team a 1024 16 with
  | .error cd => localTrap e.st a 0 1 cd
  | .ok (k, _) => match routeBank e f.s2 with
    | .error r => r
    | .ok b =>
      if e.st.pend.any fun p => p.owner == e.gid && (match p.kind with | .rcnt _ _ _ _ => true | _ => false) then
        .wait e.st .retry
      else
        let s := commitRegion e.gid e.st
        let d := s.die e.die
        let snap := (List.range 256).map fun i => d.counter b i
        let s := s.setDie e.die { d with counters := d.counters.filter fun (i, _) => i / 256 ≠ b }
        .done (writeLong (e.at s) false (dstWrites f.d 1 0 (min (snap.foldl (· + ·) 0) 0xFFFFFFFF))
          (poolWrite s k (snap.flatMap fun x => toBytes 4 x)))
/-- `rcsnap`. -/
def execRcsnap (f : Slk) (s : State) : Out := issue (.rcsnap f) f (rcsnapBody f) s

/-! ### Transition tables (R373, R374) -/

/-- The displacement of a word of a table (R373). -/
def tableOff (layer row word : Nat) : Nat := 26624 * layer + 104 * row + 8 * word
/-- Check words as `atomg` does, and post a training step on each. -/
def postTraining (e : Env) (b : GBase) (acts : List (Nat × Nat × Nat × Nat)) (decay : Bool) : Res :=
  let off (k : Nat) : Int := match acts[k]? with | some (_, x, _, _) => (x : Nat) | none => 0
  match resolveGlobal e b off 8 8 .rmw (fun loc ca => isHost loc && ca != 0) e.st (List.range acts.length) with
  | .error (.trap s t) => .trap s { t with lane := ((acts[t.lane]?).getD (0, 0, 0, 0)).1 }
  | .error (.fault s va acc k) => .fault s va acc ((acts[k]?).getD (0, 0, 0, 0)).1
  | .error r => r
  | .ok (s, xs) =>
    if xs.any fun x => listBlocks e s true x.loc 8 then .wait s .retry
    else .done ((xs.zip acts).foldl (fun s (x, _, _, ctr, m) =>
      post e.gid e.team.ctx e.core (.train x.loc ctr m decay) (l1DropRange e.core x.loc 8 s)) s)
/-- The table and layer of an instruction, the layer checked. -/
def trainArgs (e : Env) (f : Slk) (body : GBase → Nat → Res) : Res :=
  let layer := e.n32 0 (.op f.s4)
  if 127 < layer then .trap e.st { cause := 0x05, detail := 0x04, addr := layer }
  else body (.ptr (e.wide 0 f.s1 2)) layer
/-- The first lane of each distinct value, with the number of lanes that share it. -/
def distinctLanes (xs : List (Nat × Nat)) : List (Nat × Nat × Nat) :=
  (xs.map (·.2)).eraseDups.map fun v =>
    let same := xs.filter fun x => x.2 == v
    ((same.map (·.1)).headD 0, v, same.length)
/-- `xtrain`. -/
def xtrainBody (f : Slk) (e : Env) : Res := trainArgs e f fun b layer =>
  let xs := (e.memLanes f).map fun l => (l, e.n32 l (.op f.s2) % 256 * 256 + e.n32 l (.op f.s3) % 256)
  postTraining e b ((distinctLanes xs).map fun (l, v, m) =>
    (l, tableOff layer (v / 256) (v % 256 / 21), v % 256 % 21, m)) false
/-- `xtrain`. -/
def execXtrain (f : Slk) (s : State) : Out := issue (.xtrain f) f (committing (xtrainBody f)) s
/-- `xtrain.decay`: every word of each row; word 12 holds four counters. -/
def xdecayBody (f : Slk) (e : Env) : Res := trainArgs e f fun b layer =>
  let xs := (e.memLanes f).map fun l => (l, e.n32 l (.op f.s2) % 256)
  postTraining e b ((distinctLanes xs).flatMap fun (l, i, _) =>
    (List.range 13).map fun w => (l, tableOff layer i w, if w = 12 then 4 else 21, 0)) true
/-- `xtrain.decay`. -/
def execXtrainDecay (f : Slk) (s : State) : Out := issue (.xtrainDecay f) f (committing (xdecayBody f)) s

/-! ### `xpref` (R375) -/

/-- Bytes read quietly through the home: none where a page or a sector cannot be read. -/
def quietRead (e : Env) (b : GBase) (x : Int) (n : Nat) (s : State) : State × Option Nat :=
  if ((b.va x) % 8 : Int) ≠ 0 then (s, none)
  else (List.range (n / 8)).foldl (init := (s, some 0)) fun (s, r) (k : Nat) =>
    match r with
    | none => (s, none)
    | some v => match quietLook e b (x + 8 * k) 8 s with
      | (s, none) => (s, none)
      | (s, some a) =>
        if inMgmt a.loc || lineHeld s a.loc 8 then (s, none)
        else
          let (s, bs, p) := homeRead s a.loc 8
          (s, if p then none else some (v + ofBytes bs * 2 ^ (64 * k)))
/-- The experts to prefetch: up to `k` counters at least `h`, larger first, the lower index on a tie. -/
def likely (row h k : Nat) : List Nat :=
  let c (j : Nat) : Nat := field row (64 * (j / 21) + 3 * (j % 21)) 3
  (((List.range 8).reverse.filter (h ≤ ·)).flatMap fun v => (List.range 256).filter fun j => c j == v).take k
/-- Prefetch `n` bytes into the home L2; no bytes lie in no line. -/
def prefetchRange (e : Env) (s : State) (ptr n : Nat) : State :=
  let b : GBase := .ptr ptr
  let first : Int := -((ptr % 128 : Nat) : Int)
  (List.range (if n = 0 then 0 else (n + ptr % 128 + 127) / 128)).foldl (fun s (j : Nat) => prefetchLine e b 3 s (first + 128 * j)) s
/-- `xpref`. -/
def xprefBody (f : Slk) (e : Env) : Res :=
  let ctl := e.n32 0 (.op f.s4)
  let h := field ctl 8 3
  let k := field ctl 12 4
  let legal := decide (1 ≤ h ∧ 1 ≤ k ∧ k ≤ 8) && ctl == field ctl 0 7 + h * 2 ^ 8 + k * 2 ^ 12
  if !legal then .done e.st
  else match quietRead e (.ptr (e.wide 0 f.s3 2)) 0 16 e.st with
    | (s, none) => .done s
    | (s, some w) =>
      let size := field w 64 32
      if 2 ^ 96 ≤ w || size % 128 ≠ 0 then .done s
      else .done (((e.memLanes f).map fun l => e.n32 l (.op f.s2) % 256).eraseDups.foldl (fun s i =>
        match quietRead e (.ptr (e.wide 0 f.s1 2)) (tableOff (field ctl 0 7) i 0) 104 s with
        | (s, none) => s
        | (s, some row) => (likely row h k).foldl (fun s j =>
            prefetchRange e s ((w + j * size) % 2 ^ 57 + field w 57 7 * 2 ^ 57) size) s) s)
/-- `xpref`. -/
def execXpref (f : Slk) (s : State) : Out := issue (.xpref f) f (xprefBody f) s

end Sys2Proof.Machine
end

