-- ==== Sys2Proof/Machine/CrossLane.lean ====
section
/-! DEFINITION. The cross-lane instructions (R203 to R211). -/

namespace Sys2Proof.Machine

/-- A read of any lane at the issue of the last beat: lane `l` was written, at the earliest, with its own beat (R203). -/
def Env.xword (e : Env) (l : Nat) (o : Opnd) (k : Nat) : Word :=
  let late := beatsOf e.grant - 1 - l / 32
  match o with
  | .v n => e.reg late ⟨.v, n.toNat + k, l⟩
  | .q n => e.reg late ⟨.q, n.toNat % 8, l⟩
  | o => e.word 0 o k
/-- The bits of a lane's source of type `t`. -/
def Env.xval (e : Env) (t l : Nat) (o : Opnd) : Nat :=
  ((e.xword l o 0).toNat + if tyRegs t = 2 then (e.xword l o 1).toNat * 2 ^ 32 else 0) % 2 ^ tyBits t
/-- A count in lane `l`: like every lane-register source it is read at the last beat (R203, R204). -/
def Env.xcount (e : Env) (l : Nat) (x : Src) : Nat :=
  match x with
  | .op (.v n) => e.xval 1 l (.v n)
  | x => e.n32 l x
/-- An offset or size in lane `l`: a fraction of the grant, or a count (R204). -/
def Env.frac (e : Env) (l : Nat) (x : Src) : Nat :=
  match x with
  | .op o => match opImm? o with
    | some z => if z < 0 then e.grant / 2 ^ (-z).toNat else z.toNat
    | none => e.xcount l x
  | x => e.n32 l x

/-! ### Shuffle, ballot, vote, logic (R205 to R208) -/

/-- The lane a shuffle reads (R205). -/
def shflSrc (op i o : Nat) : Int :=
  match op with
  | 0 => o
  | 1 => (i : Int) - o
  | 2 => (i : Int) + o
  | _ => (Nat.xor i o : Nat)
/-- What lane `i` receives. -/
def shflVal (f : Slk) (e : Env) (i : Nat) : Nat :=
  let src := shflSrc (fCc f) i (e.frac i (srcOf f 2 2))
  if src < 0 || (e.grant : Int) ≤ src || !e.holds src.toNat then
    (if fV f then 0 else e.xval (fTy f) i f.s1)
  else if !e.isActive src.toNat && fV f then 0
  else e.xval (fTy f) src.toNat f.s1
/-- `shfl`. -/
def execShfl (f : Slk) (s : State) : Out := issue (.shfl f) f (longBody f (tyRegs (fTy f)) (shflVal f)) s

/-- A predicate of any lane. -/
def Env.xpred (e : Env) (l : Nat) (o : Opnd) : Bool := e.xword l o 0 != 0
/-- The word number of a ballot; a lane register is read in the lowest active lane (log 22). -/
def ballotWord (f : Slk) (e : Env) : Nat :=
  match srcOf f 2 2 with
  | .op .none => 0
  | x => e.xcount e.firstLane x
/-- The gathered predicate (R206). -/
def ballotVal (f : Slk) (e : Env) (_ : Nat) : Nat :=
  ballotBits (tyBits (fTy f)) (ballotWord f e) fun l => e.isActive l && decide (l < e.grant) && e.xpred l f.s1
/-- `ballot`. -/
def execBallot (f : Slk) (s : State) : Out := issue (.ballot f) f (longBody f (tyRegs (fTy f)) (ballotVal f)) s

/-- The comparand of `vote.eq`: S2, or the first active lane's S1 (R207). -/
def voteRef (f : Slk) (e : Env) : Nat :=
  match srcOf f 2 2 with
  | .op .none => e.xval (fTy f) e.firstLane f.s1
  | x => e.val (fTy f) 0 x
/-- The decision (R207). -/
def voteVal (f : Slk) (e : Env) (_ : Nat) : Nat :=
  let b := match fCc f with
    | 0 => e.lanes.any fun l => e.xpred l f.s1
    | 1 => e.lanes.all fun l => e.xpred l f.s1
    | _ => e.lanes.all fun l => e.xval (fTy f) l f.s1 == voteRef f e
  if b then 1 else 0
/-- `vote`. -/
def execVote (f : Slk) (s : State) : Out := issue (.vote f) f (longBody f 1 (voteVal f)) s

/-- The table of `plog` (R208). -/
def plogLut (f : Slk) (e : Env) : Nat :=
  if f.fmt = 1 then f.ext.toNat % 256 else e.n32 0 (.op f.s4) % 256
/-- Three predicates through the table. -/
def plogVal (f : Slk) (e : Env) (l : Nat) : Nat :=
  let c := if f.fmt = 1 then false else e.pred l f.s3
  if plogBit (plogLut f e) (e.pred l f.s1) (e.pred l f.s2) c then 1 else 0
/-- `plog`, with the latency of an integer add (R203). -/
def execPlog (f : Slk) (s : State) : Out := issue (.plog f) f (fixedBody f 4 3 1 (plogVal f)) s

/-! ### Reductions and scans (R209, R211) -/

/-- One combination of two patterns of type `t` (R209). -/
def comb (op t rmode : Nat) (sat : Bool) (x y : Nat) : Nat :=
  if tyFloat t then
    let g := fmtOf t
    let a := fdec g (fin rmode g x)
    let b := fdec g (fin rmode g y)
    ffin g rmode sat (if op = 0 then fsum (isRdn rmode) [a, b] else fminmax (op == 2) a b)
  else
    match op with
    | 0 => iresult t sat (ival t x + ival t y)
    | 1 => if ival t x ≤ ival t y then x else y
    | 2 => if ival t x ≤ ival t y then y else x
    | 3 => x &&& y
    | 4 => x ||| y
    | _ => x ^^^ y
/-- The result of no element (R209). -/
def redEmpty (op t : Nat) : Nat :=
  match op with
  | 1 => if tyFloat t then (fmtOf t).infBits else ofSigned (tyBits t) (ibounds t).2
  | 2 => if tyFloat t then (fmtOf t).signed true (fmtOf t).infBits else ofSigned (tyBits t) (ibounds t).1
  | 3 => 2 ^ tyBits t - 1
  | _ => 0
/-- A combination with absent elements. -/
def combOpt (c : Nat → Nat → Nat) : Option Nat → Option Nat → Option Nat
  | a, none => a
  | none, b => b
  | some a, some b => some (c a b)
/-- One level of the tree: neighbours, the lower on the left. -/
def treeLevel (c : Nat → Nat → Nat) : List (Option Nat) → List (Option Nat)
  | a :: b :: l => combOpt c a b :: treeLevel c l
  | l => l
/-- The tree over a list of at most 2^n elements. -/
def treeRed (c : Nat → Nat → Nat) : Nat → List (Option Nat) → Option Nat
  | 0, l => l.headD none
  | n + 1, l => treeRed c n (treeLevel c l)
/-- An element as the reduction takes it, and has it where nothing is combined with it: a NaN is canonical (R65), and with
flush inputs a subnormal is zero (R73). -/
def redCanon (t rmode x : Nat) : Nat :=
  if !tyFloat t then x else if (fdec (fmtOf t) x).isNan then (fmtOf t).nanBits else fin rmode (fmtOf t) x
/-- Lane `l`'s element, absent where the lane is inactive. -/
def redElem (f : Slk) (e : Env) (l : Nat) : Option Nat :=
  if e.isActive l then some (redCanon (fTy f) e.grp.rmode.toNat (e.xval (fTy f) l f.s1)) else none
/-- The result of a segment of `n` lanes from lane `b`. -/
def redSeg (f : Slk) (e : Env) (n b : Nat) : Nat :=
  let c := comb (fCc f) (fTy f) e.grp.rmode.toNat (fSat f)
  narrowFill (fTy f) ((treeRed c 7 ((List.range n).map fun i => redElem f e (b + i))).getD (redEmpty (fCc f) (fTy f)))
/-- The segment size: none is the grant, a lane register is read in the lowest active lane (R209). -/
def segSize (f : Slk) (e : Env) : Nat :=
  match srcOf f 2 2 with
  | .op .none => e.grant
  | .op (.v n) => if e.lanes.isEmpty then e.grant else e.frac e.firstLane (.op (.v n))
  | x => e.frac 0 x
/-- The size is waited for in one lane, and traps unless it is a power of two (R209); `ownRegs` has it trap where FE marks
it. -/
def withSize (f : Slk) (go : Nat → Env → Res) (e : Env) : Res :=
  let src := if f.fmt = 1 ∨ e.lanes.isEmpty then [] else opRegs f.s2 1 [e.firstLane]
  if src.any e.grp.isEmpty then
    .wait e.st .retry
  else readingRegs src (fun e =>
    let n := segSize f e
    if n = 0 ∨ n ≠ 2 ^ log2 n then .trap e.st { cause := 0x05, detail := 0x04, addr := n }
    else go (min n e.grant) e) e
/-- `redx` over the group or over segments. -/
def redxBody (f : Slk) (e : Env) : Res :=
  let n := tyRegs (fTy f)
  if opKind f.d == .s then .done (writeLong e false (dstWrites f.d n 0 (redSeg f e e.grant 0)) e.st)
  else withSize f (fun k e =>
    .done (writeLong e false (e.lanes.flatMap fun l => dstWrites f.d n l (redSeg f e k (l / k * k))) e.st)) e
/-- `redx`; in early service f64 traps (R446). -/
def execRedx (f : Slk) (s : State) : Out := issue (.redx f) f (f64Service f (redxBody f)) s

/-- The prefix of lane `l` in its segment of `n` lanes; `.x` leaves its own element out (R211). -/
def scanVal (f : Slk) (n : Nat) (e : Env) (l : Nat) : Nat :=
  let c := comb (fCc f) (fTy f) e.grp.rmode.toNat (fSat f)
  let b := l / n * n
  let k := if fV f then l - b else l - b + 1
  narrowFill (fTy f) (((List.range k).foldl (fun a i => combOpt c a (redElem f e (b + i))) none).getD
    (redEmpty (fCc f) (fTy f)))
/-- `scan` over segments. -/
def scanBody (f : Slk) (e : Env) : Res := withSize f (fun n => longBody f (tyRegs (fTy f)) (scanVal f n)) e
/-- `scan`; in early service f64 traps (R446). -/
def execScan (f : Slk) (s : State) : Out := issue (.scan f) f (f64Service f (scanBody f)) s

end Sys2Proof.Machine
end

