-- ==== Sys2Proof/Machine/Host.lean ====
section
/-! DEFINITION. What the host and peer devices do to the machine (R101, R110, R388, R443, R444), and the fill of an
instruction cache (R366). A location below 2^64 is a physical address as the physical function reaches it; the location
2^64 × (k + 1) + o is offset o of the BAR of virtual function k. -/

namespace Sys2Proof.Machine

/-! ### Virtual functions (R443) -/

/-- The contexts a virtual function maps: the lowest 16 that VFMAP grants it. -/
def vfContexts (s : State) (k : Nat) : List Nat :=
  ((List.range 240).filter fun c => (Assoc.rd 0 s.vfmap k).getLsbD c).take 16
/-- The physical address a location stands for; none for an offset of a virtual function that maps nothing. -/
def hostLoc (s : State) (loc : Nat) : Option Nat :=
  if loc < 2 ^ 64 then some loc
  else
    let k := loc / 2 ^ 64 - 1
    let o := loc % 2 ^ 64
    if 16 ≤ k ∨ 2 ^ 24 ≤ o then none
    else ((vfContexts s k)[o / 2 ^ 20]?).map fun c => 0x8000_2000_0000 + c * 2 ^ 20 + o % 2 ^ 20

/-! ### The host -/

/-- A reply to the host or to a peer. -/
def reply (loc : Nat) (bs : List Byte) (poison : Bool) (s : State) : State :=
  { s with hostOut := (loc, bs, poison) :: s.hostOut }
/-- The whole range is backed memory of this device. -/
def devRange (s : State) (loc n : Nat) : Bool := (segs 4096 loc n).all fun (a, _) => isDev a && backed s a
/-- The whole range is host memory. -/
def hostRange (loc n : Nat) : Bool := decide (2 ^ 40 ≤ loc ∧ loc + n ≤ 2 ^ 47)
/-- The line leaves every die's RDC, its dirty bytes written first, and the monitors on it fire (R101, R152). -/
def snoopInv (s : State) (line : Nat) : State :=
  let held := (List.range 4).any fun d => (Assoc.get? s.rdc (key2 d line)).isSome
  let s := (List.range 4).foldl (fun s d => rdcDrop s d line) s
  if held then fire false (2 * line + 1) (fire false (2 * line) s) else s
/-- A whole line is written: the host gives the line up (R443). -/
def givesUp (loc : Nat) (n : Nat) (line : Nat) : Bool := decide (loc ≤ 128 * line ∧ 128 * line + 128 ≤ loc + n)
/-- The lines that a whole-line write gives up leave the snoop filter (R443). -/
def giveUpLines (loc n : Nat) (s : State) : State :=
  { s with snoop := s.snoop.filter fun l => !givesUp loc n l, biOut := s.biOut.filter fun x => !givesUp loc n x.1 }
/-- A write of a host or peer arrives at the home; one that comes poisoned poisons its sectors (R87, R443). -/
def linkWrite (s : State) (loc : Nat) (bs : List Byte) (poison : Bool) : State :=
  if poison then homePoison (homeWrite s loc bs) loc bs.length else homeWrite s loc bs
/-- HOST_WRITE: accepted at the home slice (R110); of management space, host memory, or nothing. That a poisoned write of a
register performs nothing is the model's choice (log 29). -/
def hostWriteStep (loc0 : Nat) (bs : List Byte) (poison : Bool) (s : State) : State :=
  match hostLoc s loc0 with
  | none => s
  | some loc =>
    let n := bs.length
    if n = 0 then s
    else if isMgmt loc then (if poison then s else mgmtWrite loc n (ofBytes bs) s)
    else if devRange s loc n then
      if (segs 128 loc n).any fun (a, _) => peridotHolds s (a / 128) then s
      else linkWrite (giveUpLines loc n s) loc bs poison
    else if hostRange loc n then
      linkWrite ((segs 128 loc n).foldl (fun s (a, _) => snoopInv s (a / 128)) s) loc bs poison
    else s
/-- HOST_WRITE. -/
def execHostWrite (loc : Nat) (data : LinkBytes) (s : State) : Out := .next (hostWriteStep loc data.bytes data.poison s)
/-- HOST_READ: served by the home slice; a read that may cache enters the lines in the snoop filter (R110, R443). -/
def hostReadStep (loc0 n : Nat) (cache : Bool) (s : State) : State :=
  match hostLoc s loc0 with
  | none => reply loc0 (toBytes n 0) false s
  | some loc =>
    if n = 0 then s
    else if isMgmt loc then
      let (s, v) := mgmtRead s loc n
      reply loc0 (toBytes n v) false s
    else if devRange s loc n then
      if (segs 128 loc n).any fun (a, _) => peridotHolds s (a / 128) then s
      else
        let (s, bs, p) := homeRead s loc n
        let lines := (segs 128 loc n).map fun (a, _) => a / 128
        let s := if cache then { s with snoop := s.snoop ++ lines.filter fun l => !s.snoop.contains l } else s
        reply loc0 bs p s
    else if hostRange loc n then
      let (s, bs, p) := homeRead (snoopBack s loc n) loc n
      reply loc0 bs p s
    else s
/-- HOST_READ. -/
def execHostRead (loc len : Nat) (cache : Bool) (s : State) : Out := .next (hostReadStep loc len cache s)
/-- The new value of a PCIe AtomicOp (R443). -/
def atomicApply (op : AtomicOp) (w old v cmp : Nat) : Nat :=
  match op with
  | .fetchAdd => (old + v) % 2 ^ w
  | .swap => v % 2 ^ w
  | .cas => if old = cmp % 2 ^ w then v % 2 ^ w else old
/-- HOST_ATOMICOP: completed at the home slice; a poisoned sector keeps its value (R88). -/
def hostAtomicStep (loc : Nat) (op : AtomicOp) (wide : Bool) (v cmp : Nat) (s : State) : State :=
  let n := if wide then 8 else 4
  if !devRange s loc n || loc % n != 0 || peridotHolds s (loc / 128) then s
  else
    let (s, bs, p) := homeRead s loc n
    if p then reply loc bs true (logEvent s 0x08 (dieOf loc) (stackAddr loc))
    else reply loc bs false (homeWrite s loc (toBytes n (atomicApply op (8 * n) (ofBytes bs) v cmp)))
/-- HOST_ATOMICOP. -/
def execHostAtomicop (loc : Nat) (op : AtomicOp) (wide : Bool) (v cmp : DWord) (s : State) : Out :=
  .next (hostAtomicStep loc op wide v.toNat cmp.toNat s)
/-- CXL_SNOOP of a line of host memory: one die's RDC gives it up, or its dirty bytes (R101). -/
def snoopStep (die loc : Nat) (inv : Bool) (s : State) : State :=
  let line := loc / 128
  if !(isHost loc && nodeOf loc == 0) || (Assoc.get? s.rdc (key2 die line)).isNone then s
  else if inv then fire false (2 * line + 1) (fire false (2 * line) (rdcDrop s die line))
  else rdcWriteBack s die line
/-- CXL_SNOOP. -/
def execCxlSnoop (die loc : Nat) (inv : Bool) (s : State) : Out := .next (snoopStep die loc inv s)
/-- BIRSP: the line leaves the filter, and data the host returns are merged, with their poison (R443). -/
def birspStep (loc : Nat) (data : Option (LineData × Bool)) (s : State) : State :=
  let line := loc / 128
  if !s.snoop.contains line || peridotHolds s line then s
  else
    let s := { s with snoop := s.snoop.filter (· ≠ line), biOut := s.biOut.filter (·.1 ≠ line) }
    match data with
    | some (d, p) => linkWrite s (128 * line) (lineBytes d 0 128) p
    | none => s
/-- BIRSP. -/
def execBirsp (loc : Nat) (data : Option (LineData × Bool)) (s : State) : Out := .next (birspStep loc data s)

/-! ### Peers -/

/-- A peer's access meets this device's memory. -/
def peerReaches (s : State) (loc n : Nat) : Bool := s.phase == .run && n != 0 && devRange s loc n
/-- PEER_WRITE (R110): it waits for a line that the host may hold (R443). -/
def peerWriteStep (loc : Nat) (data : List Byte) (poison : Bool) (s : State) : State :=
  if !peerReaches s loc data.length then s
  else if lineHeld s loc data.length then biSend s loc data.length true
  else linkWrite s loc data poison
/-- PEER_WRITE. -/
def execPeerWrite (loc : Nat) (data : LinkBytes) (s : State) : Out :=
  .next (peerWriteStep loc data.bytes data.poison s)
/-- PEER_READ (R87, R110). -/
def peerReadStep (loc n : Nat) (s : State) : State :=
  if !peerReaches s loc n then s
  else if lineHeld s loc n then biSend s loc n false
  else
    let (s, bs, p) := homeRead s loc n
    reply loc bs p s
/-- PEER_READ. -/
def execPeerRead (loc len : Nat) (s : State) : Out := .next (peerReadStep loc len s)

/-! ### Instruction caches -/

/-- ICACHE_FILL: the line of an address of the group's region. Where the group waits for it, its sequencer goes on, and the
freeze is counted; a poisoned line is not kept, and the fetch that follows counts and traps. A line that the group does not
wait for froze nothing, and an uncorrectable error in it is dropped and counted (R87, R366). That a held miss holds the
group that needs the line is the model's choice: the manual does not say which groups a sequencer has (log 29). -/
def icacheFillStep (gid : Gid) (va : Nat) (s : State) : State :=
  match env? s gid with
  | none => s
  | some e => match translate s e.team.ctx (e.grp.pc.toNat / 2 ^ 57) (va % 2 ^ 57) 1 .fetch with
    | (s, .ok loc ca) =>
      if (Assoc.get? s.icache (key2 (quadOf e.core) (loc / 128))).isSome then s
      else if lineHeld s loc 1 then biSend s loc 1 false
      else
        let (s', _, p) := icLine s e.core (loc / 128) ca
        let wanted := e.grp.cond == .wait .fetch && overlap (va % 2 ^ 57 / 128 * 128) 128 (e.grp.pc.toNat % 2 ^ 57) 12
        let s' := if wanted && p == 0 then s' else { s' with slips := s.slips }
        wakeFrom .fetch gid (if wanted then s' else countLatent e.core (loc / 128) p s')
    | (_, _) => s
/-- ICACHE_FILL. -/
def execIcacheFill (g : Gid) (va : DWord) (s : State) : Out := .next (icacheFillStep g va.toNat s)

end Sys2Proof.Machine
end

