-- ==== Sys2Proof/Machine/Sfu.lean ====
section
/-! DEFINITION. The special-function instructions (R201, R202). The two that are correctly rounded are computed; of the
others the device's own approximation is a free function of the input bits, type and RMODE, taken where it is within
the bound of R202, and the correctly rounded value elsewhere (log 9). -/

namespace Sys2Proof.Machine

/-- What an f32 approximation must meet: an absolute bound k × 2^u on a finite value, or two of which one holds. -/
def sfuAccept (y : Nat) (a : FV) (bounds : List (Nat × Int)) : Bool :=
  match fdec f32 y with
  | .num s m e => bounds.any fun (k, u) => closeTo (.num s m e) a k u
  | _ => false
/-- The approximation in f32: the free value if it meets a bound and the exact value does not overflow, else the
exact value rounded (R202). -/
def approx (op x ty rmode : Nat) (sat : Bool) (a : FV) (bounds : List (Nat × Int)) : Nat :=
  let ref := fround f32 (rmRm rmode) sat a
  let y := (Config.sfuBits op x ty rmode).toNat
  if (fdec f32 ref).isNan || field ref 23 8 == 255 then ref
  else if sfuAccept y a bounds then y
  else ref
/-- The bound of k ulp about a value. -/
def ulps (k : Nat) (a : FV) : List (Nat × Int) :=
  match a with
  | .num _ m e => [(k, ulpExp m e)]
  | _ => []

/-- 1/√x. -/
def rsqVal (m : Nat) (e : Int) : FV :=
  -- x = m' × 2^(2h), 1/√x = √(2^512 / m') × 2^(-256 - h)
  let h := e / 2
  let m' := if e % 2 = 0 then m else 2 * m
  .num false (isqrt 300 (2 ^ 512 / m')) (-256 - h)
/-- The f32 approximation of function `op` (R202). -/
def sfuApprox (op x ty rmode : Nat) (sat : Bool) (v : FV) : FV :=
  let z (b : Nat) : FV := fdec f32 b
  match op, v with
  | _, .nan => .nan
  | 1, .inf neg => if neg then .nan else .num false 0 0
  | 1, .num neg m e =>
    if m = 0 then .inf neg else if neg then .nan
    else let a := rsqVal m e; z (approx op x ty rmode sat a (ulps 1 a))
  | 3, .inf neg => if neg then .num false 0 0 else .inf false
  | 3, .num neg m e =>
    if m = 0 then .num false 1 0
    else
      -- beyond ±2^10 the value is beyond every f32
      let a : FV := if 10 ≤ (log2 m : Int) + e then .num false 1 (if neg then -1024 else 1024) else exp2Val neg m e
      match a with
      | .num _ 1 n => if -149 ≤ n ∧ n ≤ 127 then .num false 1 n else z (approx op x ty rmode sat a (ulps 2 a))
      | a => z (approx op x ty rmode sat a (ulps 2 a))
  | 4, .inf neg => if neg then .nan else .inf false
  | 4, .num neg m e =>
    if m = 0 then .inf true else if neg then .nan
    else if m = 2 ^ log2 m then
      let n : Int := (log2 m : Int) + e
      .num (decide (n < 0)) n.natAbs 0
    else
      let a := log2Val m e
      let near := fcmp v (.num false 1 (-1)) != some .lt && fcmp v (ofInt 2) != some .gt
      z (approx op x ty rmode sat a (ulps 2 a ++ if near then [(1, -22)] else []))
  | 5, .inf _ => .nan
  | 5, .num neg m e =>
    if m = 0 then .num neg 0 0 else z (approx op x ty rmode sat (trigVal false neg m e) [(1, -21)])
  | 6, .inf _ => .nan
  | 6, .num neg m e =>
    if m = 0 then .num false 1 0 else z (approx op x ty rmode sat (trigVal true neg m e) [(1, -21)])
  | _, .inf neg => .num neg 1 0
  | _, .num neg m e =>
    if m = 0 then .num neg 0 0
    else let a := tanhVal neg m e; z (approx op x ty rmode sat a (ulps 2 a))
/-- An approximated function on a pattern of type `ty` (R201). -/
def sfuFn (op ty rmode : Nat) (sat : Bool) (x : Nat) : Nat :=
  ffin (fmtOf ty) rmode sat (sfuApprox op x ty rmode sat (fdec (fmtOf ty) (fin rmode (fmtOf ty) x)))
/-- 1/x, correctly rounded (R201, R202). -/
def rcpFn (ty rmode : Nat) (sat : Bool) (x : Nat) : Nat :=
  let g := fmtOf ty
  match fdec g (fin rmode g x) with
  | .nan => g.nanBits
  | .inf neg => g.signed neg 0
  | .num neg m e =>
    if m = 0 then g.signed neg g.infBits
    else
      let k := log2 m + 128
      fout rmode g (froundM g (rmFor g.w (rmRm rmode)) sat neg (2 ^ k / m) (-e - k) (decide (2 ^ k % m ≠ 0)))
/-- √x, correctly rounded (R201, R202). -/
def sqrtFn (ty rmode : Nat) (sat : Bool) (x : Nat) : Nat :=
  let g := fmtOf ty
  match fdec g (fin rmode g x) with
  | .nan => g.nanBits
  | .inf neg => if neg then g.nanBits else g.infBits
  | .num neg m e =>
    if m = 0 then g.signed neg 0
    else if neg then g.nanBits
    else
      let m' := (if e % 2 = 0 then m else 2 * m) <<< 256
      let r := isqrt 160 m'
      fout rmode g (froundM g (rmFor g.w (rmRm rmode)) sat false r (e / 2 - 128) (decide (r * r ≠ m')))

/-- A special-function instruction: long-latency (R36, R201). -/
def sfuBody (f : Slk) (fn : Nat → Nat → Bool → Nat → Nat) : Env → Res :=
  longBody f (tyRegs (fTy f)) fun e l => fn (fTy f) e.grp.rmode.toNat (fSat f) (e.val (fTy f) l (.op f.s1))
/-- `frcp`. -/
def execFrcp (f : Slk) (s : State) : Out := issue (.frcp f) f (f64Service f (sfuBody f rcpFn)) s
/-- `frsq`. -/
def execFrsq (f : Slk) (s : State) : Out := issue (.frsq f) f (sfuBody f (sfuFn 1)) s
/-- `fsqrt`. -/
def execFsqrt (f : Slk) (s : State) : Out := issue (.fsqrt f) f (f64Service f (sfuBody f sqrtFn)) s
/-- `fexp2`. -/
def execFexp2 (f : Slk) (s : State) : Out := issue (.fexp2 f) f (sfuBody f (sfuFn 3)) s
/-- `flog2`. -/
def execFlog2 (f : Slk) (s : State) : Out := issue (.flog2 f) f (sfuBody f (sfuFn 4)) s
/-- `fsin`. -/
def execFsin (f : Slk) (s : State) : Out := issue (.fsin f) f (sfuBody f (sfuFn 5)) s
/-- `fcos`. -/
def execFcos (f : Slk) (s : State) : Out := issue (.fcos f) f (sfuBody f (sfuFn 6)) s
/-- `ftanh`. -/
def execFtanh (f : Slk) (s : State) : Out := issue (.ftanh f) f (sfuBody f (sfuFn 7)) s

end Sys2Proof.Machine
end

