-- ==== Sys2Proof/Machine/Rep.lean ====
section
/-! DEFINITION. The repeat prefix (R50 to R53): one iteration of its target in each step. -/

namespace Sys2Proof.Machine

/-- The opcodes a repeat may name (R51). -/
def repOpcode (o : Nat) : Bool :=
  decide ((0x010 ≤ o ∧ o ≤ 0x02A) ∨ (0x040 ≤ o ∧ o ≤ 0x049) ∨ (0x060 ≤ o ∧ o ≤ 0x067) ∨ (0x070 ≤ o ∧ o ≤ 0x074) ∨
    (0x100 ≤ o ∧ o ≤ 0x103))
/-- An operand `z` registers further on; none where it leaves its file, or where a field that names no register has an
increment (R51). -/
def shiftOpnd (d : Int) (k : Nat) (o : Opnd) : Option Opnd :=
  if d = 0 then some o
  else
    let r : Int := opNum o + k * d
    let fits (n : Nat) : Bool := decide (0 ≤ r ∧ r < n)
    match o with
    | .v _ => if fits 256 then some (.v (BitVec.ofNat 8 r.toNat)) else none
    | .s _ => if fits 128 then some (.s (BitVec.ofNat 7 r.toNat)) else none
    | .b _ => if fits 16 then some (.b (BitVec.ofNat 4 r.toNat)) else none
    | .p _ => if fits 16 then some (.p (BitVec.ofNat 4 r.toNat)) else none
    | .q n => if fits 8 then some (.q (BitVec.ofNat 4 r.toNat ||| (n &&& 8))) else none
    | _ => none
/-- An increment of the prefix (R50). -/
def incOf (x : BitVec 3) : Int := toSigned 3 x.toNat
/-- The target of iteration `k` (R52). -/
def repWord (p : Pfx) (f : Slk) (k : Nat) : Option Slk :=
  match shiftOpnd (incOf p.dd) k f.d, shiftOpnd (incOf p.ds1) k f.s1, shiftOpnd (incOf p.ds2) k f.s2,
      shiftOpnd (incOf p.ds3) k f.s3 with
  | some d, some a, some b, some c => some { f with d := d, s1 := a, s2 := b, s3 := c }
  | _, _, _, _ => none
/-- The target of iteration `k` as row 3 of R48 looks at it: a field that cannot be moved stands as it is, which is for row
4. -/
def repView (p : Pfx) (f : Slk) (k : Nat) : Slk :=
  let at_ (d : BitVec 3) (o : Opnd) : Opnd := (shiftOpnd (incOf d) k o).getD o
  { f with d := at_ p.dd f.d, s1 := at_ p.ds1 f.s1, s2 := at_ p.ds2 f.s2, s3 := at_ p.ds3 f.s3 }
/-- An increment does not suit the width of its operand (R51). -/
def incBad (p : Pos) (d : Int) : Bool :=
  match p with
  | .use _ 2 | .own _ 2 => d % 2 != 0
  | .use _ 4 | .own _ 4 => d % 4 != 0
  | _ => false
/-- The checks made at the prefix before an iteration, in the order of R48: row 3 for the operands of every iteration, then
row 4 for the prefix, the target and its operands (R51). That a target's row 4 faults that are no faults of its operands (a
reserved MOD, CH or FMT) are found here too, before REPCTR.ACTIVE is set, is the model's choice (R51, R53, log 29). -/
def repFate (alloc : Nat) (p : Pfx) (opc : Nat) (f : Slk) : Option Fate :=
  let ks := List.range (p.count.toNat + 1)
  let fates := ks.map fun k => (opInstr opc (repView p f k)).bind (fate alloc)
  if fates.contains (some .illop) then some .illop
  else if (pfxFate p).isSome || !repOpcode opc then some .illenc
  else if ks.any (fun k => (repWord p f k).isNone) || fates.contains (some .illenc) then some .illenc
  else match (opInstr opc f).bind (shapeOf alloc) with
    | some h => if incBad h.d (incOf p.dd) || incBad h.s1 (incOf p.ds1) || incBad h.s2 (incOf p.ds2) ||
        incBad h.s3 (incOf p.ds3) then some .illenc else none
    | none => some .illenc
/-- One iteration: the target's own meaning (R51 names the opcodes; `repFate` has refused the others). -/
def repExec (i : Instr) (s : State) : Out :=
  match i with
  | .iadd f => execIadd f s
  | .isub f => execIsub f s
  | .imul f => execImul f s
  | .imulh f => execImulh f s
  | .imad f => execImad f s
  | .iabs f => execIabs f s
  | .imin f => execImin f s
  | .imax f => execImax f s
  | .ishl f => execIshl f s
  | .ishr f => execIshr f s
  | .isra f => execIsra f s
  | .irot f => execIrot f s
  | .and f => execAnd f s
  | .or f => execOr f s
  | .xor f => execXor f s
  | .andn f => execAndn f s
  | .popc f => execPopc f s
  | .clz f => execClz f s
  | .ctz f => execCtz f s
  | .brev f => execBrev f s
  | .bfx f => execBfx f s
  | .bfi f => execBfi f s
  | .lea f => execLea f s
  | .icmp f => execIcmp f s
  | .sel f => execSel f s
  | .mov f => execMov f s
  | .movi f => execMovi f s
  | .fadd f => execFadd f s
  | .fsub f => execFsub f s
  | .fmul f => execFmul f s
  | .ffma f => execFfma f s
  | .fmin f => execFmin f s
  | .fmax f => execFmax f s
  | .fcmp f => execFcmp f s
  | .fclass f => execFclass f s
  | .frnd f => execFrnd f s
  | .fdot2 f => execFdot2 f s
  | .frcp f => execFrcp f s
  | .frsq f => execFrsq f s
  | .fsqrt f => execFsqrt f s
  | .fexp2 f => execFexp2 f s
  | .flog2 f => execFlog2 f s
  | .fsin f => execFsin f s
  | .fcos f => execFcos f s
  | .ftanh f => execFtanh f s
  | .cvt f => execCvt f s
  | .qblk f => execQblk f s
  | .dqblk f => execDqblk f s
  | .bpk f => execBpk f s
  | .bupk f => execBupk f s
  | .ldl f => execLdl f s
  | .stl f => execStl f s
  | .ldg f => execLdg f s
  | .stg f => execStg f s
  | _ => .next s
/-- The iteration of the group has completed: the group is ready, no trap was entered, and its region was not aborted for
a refused entry (R82). -/
def repDone (e : Env) (s : State) : Bool :=
  match env? s e.gid with
  | none => false
  | some x => x.grp.cond == .ready && x.grp.inTrap == e.grp.inTrap &&
      !(x.grp.region.any (·.refused) && !e.grp.region.any (·.refused))
/-- Which unwritten results the guards of the repeat's next iteration see: those of the predicate `d` (R52). -/
def Group.seeHaz (d : Opnd) (g : Group) : Group :=
  match d with
  | .p n => { g with haz := g.haz.map fun h =>
      if h.dst = ⟨.p, n.toNat, 0⟩ then { h with seen := true } else h }
  | _ => g
/-- The end of a repeat: REPCTR is 0 and the group goes on after the target (R52). -/
def repEnd (e : Env) (s : State) : State :=
  modGroup e.gid (fun g => { g with
    cond := .ready, repCtr := 0, pc := pcAdd e.grp.pc 24, haz := g.haz.map fun h => { h with seen := false } }) s
/-- The next iteration of a repeat whose target word is `w` (R52, R53). -/
def repStep (p : Pfx) (w : BitVec 96) (e : Env) : Out :=
  let opc := (w.extractLsb' 0 9).toNat
  match repFate e.grp.alloc p opc (splitSlk w) with
  | some x => .next (takeTrap e.gid x.trap e.st)
  | none =>
    let n := p.count.toNat + 1
    let k := if e.grp.repCtr.getLsbD 6 then e.grp.repCtr.toNat % 64 else 0
    if n ≤ k then .next (repEnd e e.st)
    else match repWord p (splitSlk w) k with
      | none => .next e.st
      | some f => match opInstr opc f with
      | none => .next e.st
      | some i =>
        match repExec i (e.mod fun g => { g with repCtr := BitVec.ofNat 32 (k + 64) }) with
        | .next s =>
          if !repDone e s then .next s
          else if k + 1 < n then
            let seen (g : Group) : Group := if guardsTrue e f.ga f.gb then g.seeHaz f.d else g
            .next (modGroup e.gid (fun g => { seen g with repCtr := BitVec.ofNat 32 (k + 65), pc := e.grp.pc }) s)
          else .next (repEnd e s)
        | r => r
/-- `rep`: the fetch of the target, the checks, and one iteration. -/
def execRep (p : Pfx) (s : State) : Out :=
  match env? s s.cur with
  | none => .fault .noGroup
  | some e => match fetchRes e (pcAdd e.grp.pc 12) with
    | .error r => .next (conclude e 1 r)
    | .ok (s, w) => repStep p w (e.at s)

end Sys2Proof.Machine
end

