-- ==== Sys2Proof/Machine/Dispatch.lean ====
section
/-! DEFINITION. The dispatch: one meaning for each constructor of Instr. -/

namespace Sys2Proof.Machine

/-- The meaning of an instruction or event. -/
def exec (i : Instr) (s : State) : Host.Outcome State Fault Refusal :=
  match i with
  | .nop f => Sys2Proof.Machine.execNop f s
  | .iadd f => Sys2Proof.Machine.execIadd f s
  | .isub f => Sys2Proof.Machine.execIsub f s
  | .imul f => Sys2Proof.Machine.execImul f s
  | .imulh f => Sys2Proof.Machine.execImulh f s
  | .imad f => Sys2Proof.Machine.execImad f s
  | .iabs f => Sys2Proof.Machine.execIabs f s
  | .imin f => Sys2Proof.Machine.execImin f s
  | .imax f => Sys2Proof.Machine.execImax f s
  | .ishl f => Sys2Proof.Machine.execIshl f s
  | .ishr f => Sys2Proof.Machine.execIshr f s
  | .isra f => Sys2Proof.Machine.execIsra f s
  | .irot f => Sys2Proof.Machine.execIrot f s
  | .and f => Sys2Proof.Machine.execAnd f s
  | .or f => Sys2Proof.Machine.execOr f s
  | .xor f => Sys2Proof.Machine.execXor f s
  | .andn f => Sys2Proof.Machine.execAndn f s
  | .popc f => Sys2Proof.Machine.execPopc f s
  | .clz f => Sys2Proof.Machine.execClz f s
  | .ctz f => Sys2Proof.Machine.execCtz f s
  | .brev f => Sys2Proof.Machine.execBrev f s
  | .bfx f => Sys2Proof.Machine.execBfx f s
  | .bfi f => Sys2Proof.Machine.execBfi f s
  | .lea f => Sys2Proof.Machine.execLea f s
  | .icmp f => Sys2Proof.Machine.execIcmp f s
  | .sel f => Sys2Proof.Machine.execSel f s
  | .mov f => Sys2Proof.Machine.execMov f s
  | .movi f => Sys2Proof.Machine.execMovi f s
  | .srd f => Sys2Proof.Machine.execSrd f s
  | .swr f => Sys2Proof.Machine.execSwr f s
  | .rdlane f => Sys2Proof.Machine.execRdlane f s
  | .wrlane f => Sys2Proof.Machine.execWrlane f s
  | .fadd f => Sys2Proof.Machine.execFadd f s
  | .fsub f => Sys2Proof.Machine.execFsub f s
  | .fmul f => Sys2Proof.Machine.execFmul f s
  | .ffma f => Sys2Proof.Machine.execFfma f s
  | .fmin f => Sys2Proof.Machine.execFmin f s
  | .fmax f => Sys2Proof.Machine.execFmax f s
  | .fcmp f => Sys2Proof.Machine.execFcmp f s
  | .fclass f => Sys2Proof.Machine.execFclass f s
  | .frnd f => Sys2Proof.Machine.execFrnd f s
  | .fdot2 f => Sys2Proof.Machine.execFdot2 f s
  | .frcp f => Sys2Proof.Machine.execFrcp f s
  | .frsq f => Sys2Proof.Machine.execFrsq f s
  | .fsqrt f => Sys2Proof.Machine.execFsqrt f s
  | .fexp2 f => Sys2Proof.Machine.execFexp2 f s
  | .flog2 f => Sys2Proof.Machine.execFlog2 f s
  | .fsin f => Sys2Proof.Machine.execFsin f s
  | .fcos f => Sys2Proof.Machine.execFcos f s
  | .ftanh f => Sys2Proof.Machine.execFtanh f s
  | .cvt f => Sys2Proof.Machine.execCvt f s
  | .qblk f => Sys2Proof.Machine.execQblk f s
  | .dqblk f => Sys2Proof.Machine.execDqblk f s
  | .bpk f => Sys2Proof.Machine.execBpk f s
  | .bupk f => Sys2Proof.Machine.execBupk f s
  | .shfl f => Sys2Proof.Machine.execShfl f s
  | .ballot f => Sys2Proof.Machine.execBallot f s
  | .vote f => Sys2Proof.Machine.execVote f s
  | .plog f => Sys2Proof.Machine.execPlog f s
  | .redx f => Sys2Proof.Machine.execRedx f s
  | .scan f => Sys2Proof.Machine.execScan f s
  | .ldl f => Sys2Proof.Machine.execLdl f s
  | .stl f => Sys2Proof.Machine.execStl f s
  | .ldg f => Sys2Proof.Machine.execLdg f s
  | .stg f => Sys2Proof.Machine.execStg f s
  | .ldc f => Sys2Proof.Machine.execLdc f s
  | .bset f => Sys2Proof.Machine.execBset f s
  | .atoml f => Sys2Proof.Machine.execAtoml f s
  | .pfg f => Sys2Proof.Machine.execPfg f s
  | .wbr f => Sys2Proof.Machine.execWbr f s
  | .invr f => Sys2Proof.Machine.execInvr f s
  | .invrL1 f => Sys2Proof.Machine.execInvrL1 f s
  | .fenceAcq f => Sys2Proof.Machine.execFenceAcq f s
  | .fenceRel f => Sys2Proof.Machine.execFenceRel f s
  | .fenceAr f => Sys2Proof.Machine.execFenceAr f s
  | .fenceMs f => Sys2Proof.Machine.execFenceMs f s
  | .ifence f => Sys2Proof.Machine.execIfence f s
  | .rgnOpen f => Sys2Proof.Machine.execRgnOpen f s
  | .rgnClose f => Sys2Proof.Machine.execRgnClose f s
  | .atomg f => Sys2Proof.Machine.execAtomg f s
  | .gath f => Sys2Proof.Machine.execGath f s
  | .scat f => Sys2Proof.Machine.execScat f s
  | .gathList f => Sys2Proof.Machine.execGathList f s
  | .scatList f => Sys2Proof.Machine.execScatList f s
  | .mst f => Sys2Proof.Machine.execMst f s
  | .walk f => Sys2Proof.Machine.execWalk f s
  | .wprog f => Sys2Proof.Machine.execWprog f s
  | .wst f => Sys2Proof.Machine.execWst f s
  | .wres f => Sys2Proof.Machine.execWres f s
  | .ccfg f => Sys2Proof.Machine.execCcfg f s
  | .cins f => Sys2Proof.Machine.execCins f s
  | .cnear f => Sys2Proof.Machine.execCnear f s
  | .cmrg f => Sys2Proof.Machine.execCmrg f s
  | .crd f => Sys2Proof.Machine.execCrd f s
  | .cclr f => Sys2Proof.Machine.execCclr f s
  | .cdump f => Sys2Proof.Machine.execCdump f s
  | .anot f => Sys2Proof.Machine.execAnot f s
  | .binit f => Sys2Proof.Machine.execBinit f s
  | .bexp f => Sys2Proof.Machine.execBexp f s
  | .barv f => Sys2Proof.Machine.execBarv f s
  | .bwait f => Sys2Proof.Machine.execBwait f s
  | .btry f => Sys2Proof.Machine.execBtry f s
  | .bst f => Sys2Proof.Machine.execBst f s
  | .barrierWaitWake g => Sys2Proof.Machine.execBarrierWaitWake g s
  | .cbinit f => Sys2Proof.Machine.execCbinit f s
  | .cbget f => Sys2Proof.Machine.execCbget f s
  | .cbgetClaim f => Sys2Proof.Machine.execCbgetClaim f s
  | .cbputDone f => Sys2Proof.Machine.execCbputDone f s
  | .cbputFill f => Sys2Proof.Machine.execCbputFill f s
  | .cbufWaitWake g => Sys2Proof.Machine.execCbufWaitWake g s
  | .marm f => Sys2Proof.Machine.execMarm f s
  | .marmLoc f => Sys2Proof.Machine.execMarmLoc f s
  | .marmOff f => Sys2Proof.Machine.execMarmOff f s
  | .mwait f => Sys2Proof.Machine.execMwait f s
  | .mwaitWake g m => Sys2Proof.Machine.execMwaitWake g m s
  | .mwaitTimeout g => Sys2Proof.Machine.execMwaitTimeout g s
  | .tbar f => Sys2Proof.Machine.execTbar f s
  | .tbarRelease team => Sys2Proof.Machine.execTbarRelease team s
  | .orsv f => Sys2Proof.Machine.execOrsv f s
  | .orel f => Sys2Proof.Machine.execOrel f s
  | .mzero f => Sys2Proof.Machine.execMzero f s
  | .mma f => Sys2Proof.Machine.execMma f s
  | .mmab f => Sys2Proof.Machine.execMmab f s
  | .mmas f => Sys2Proof.Machine.execMmas f s
  | .mwt f => Sys2Proof.Machine.execMwt f s
  | .mstat f => Sys2Proof.Machine.execMstat f s
  | .matrixRowComplete id => Sys2Proof.Machine.execMatrixRowComplete id s
  | .matrixRetire id => Sys2Proof.Machine.execMatrixRetire id s
  | .matrixResume id => Sys2Proof.Machine.execMatrixResume id s
  | .mdrain f => Sys2Proof.Machine.execMdrain f s
  | .mprog f => Sys2Proof.Machine.execMprog f s
  | .tkrd f => Sys2Proof.Machine.execTkrd f s
  | .tkclr f => Sys2Proof.Machine.execTkclr f s
  | .drainStart core => Sys2Proof.Machine.execDrainStart core s
  | .drainRowCommit core => Sys2Proof.Machine.execDrainRowCommit core s
  | .drainRetire core => Sys2Proof.Machine.execDrainRetire core s
  | .citEnd c => Sys2Proof.Machine.execCitEnd c s
  | .citMov c => Sys2Proof.Machine.execCitMov c s
  | .citLdk c => Sys2Proof.Machine.execCitLdk c s
  | .citLdr c => Sys2Proof.Machine.execCitLdr c s
  | .citLdv c => Sys2Proof.Machine.execCitLdv c s
  | .citAdd c => Sys2Proof.Machine.execCitAdd c s
  | .citMul c => Sys2Proof.Machine.execCitMul c s
  | .citFma c => Sys2Proof.Machine.execCitFma c s
  | .citMax c => Sys2Proof.Machine.execCitMax c s
  | .citBias c => Sys2Proof.Machine.execCitBias c s
  | .citScale c => Sys2Proof.Machine.execCitScale c s
  | .citClamp c => Sys2Proof.Machine.execCitClamp c s
  | .citRelu c => Sys2Proof.Machine.execCitRelu c s
  | .citGelu c => Sys2Proof.Machine.execCitGelu c s
  | .citSilu c => Sys2Proof.Machine.execCitSilu c s
  | .citTsc c => Sys2Proof.Machine.execCitTsc c s
  | .citCvt c => Sys2Proof.Machine.execCitCvt c s
  | .citTopk c => Sys2Proof.Machine.execCitTopk c s
  | .citSpack c => Sys2Proof.Machine.execCitSpack c s
  | .citStore c => Sys2Proof.Machine.execCitStore c s
  | .rcnt f => Sys2Proof.Machine.execRcnt f s
  | .rcsnap f => Sys2Proof.Machine.execRcsnap f s
  | .xpref f => Sys2Proof.Machine.execXpref f s
  | .xtrain f => Sys2Proof.Machine.execXtrain f s
  | .xtrainDecay f => Sys2Proof.Machine.execXtrainDecay f s
  | .nfsig f => Sys2Proof.Machine.execNfsig f s
  | .glaunch f => Sys2Proof.Machine.execGlaunch f s
  | .setw f => Sys2Proof.Machine.execSetw f s
  | .setwseq team => Sys2Proof.Machine.execSetwseq team s
  | .regx f => Sys2Proof.Machine.execRegx f s
  | .regr f => Sys2Proof.Machine.execRegr f s
  | .regxGrant core => Sys2Proof.Machine.execRegxGrant core s
  | .regxDenial core => Sys2Proof.Machine.execRegxDenial core s
  | .bra f => Sys2Proof.Machine.execBra f s
  | .jmpi f => Sys2Proof.Machine.execJmpi f s
  | .jmpiTab f => Sys2Proof.Machine.execJmpiTab f s
  | .call f => Sys2Proof.Machine.execCall f s
  | .ret f => Sys2Proof.Machine.execRet f s
  | .ipf f => Sys2Proof.Machine.execIpf f s
  | .dist f => Sys2Proof.Machine.execDist f s
  | .dnext f => Sys2Proof.Machine.execDnext f s
  | .dleave f => Sys2Proof.Machine.execDleave f s
  | .dbrk f => Sys2Proof.Machine.execDbrk f s
  | .exit f => Sys2Proof.Machine.execExit f s
  | .yield f => Sys2Proof.Machine.execYield f s
  | .trap f => Sys2Proof.Machine.execTrap f s
  | .brk f => Sys2Proof.Machine.execBrk f s
  | .tret f => Sys2Proof.Machine.execTret f s
  | .tretNext f => Sys2Proof.Machine.execTretNext f s
  | .rep p => Sys2Proof.Machine.execRep p s
  | .longLatencyWrite id => Sys2Proof.Machine.execLongLatencyWrite id s
  | .agateRingTake team ring => Sys2Proof.Machine.execAgateRingTake team ring s
  | .cmdLoad id => Sys2Proof.Machine.execCmdLoad id s
  | .cmdStore id => Sys2Proof.Machine.execCmdStore id s
  | .cmdGcopy id => Sys2Proof.Machine.execCmdGcopy id s
  | .cmdGatherRows id => Sys2Proof.Machine.execCmdGatherRows id s
  | .cmdScatterRows id => Sys2Proof.Machine.execCmdScatterRows id s
  | .cmdFill id => Sys2Proof.Machine.execCmdFill id s
  | .cmdMcastLoad id => Sys2Proof.Machine.execCmdMcastLoad id s
  | .copyCompletion id => Sys2Proof.Machine.execCopyCompletion id s
  | .copyResume id => Sys2Proof.Machine.execCopyResume id s
  | .sliceAtomicApply id half => Sys2Proof.Machine.execSliceAtomicApply id half s
  | .garnetElement id => Sys2Proof.Machine.execGarnetElement id s
  | .garnetSuspendResume id => Sys2Proof.Machine.execGarnetSuspendResume id s
  | .peridotHomeWriteback id => Sys2Proof.Machine.execPeridotHomeWriteback id s
  | .peridotOperation id => Sys2Proof.Machine.execPeridotOperation id s
  | .jLdcmp r => Sys2Proof.Machine.execJLdcmp r s
  | .jLdcmpi r => Sys2Proof.Machine.execJLdcmpi r s
  | .jFollow r => Sys2Proof.Machine.execJFollow r s
  | .jSelect r => Sys2Proof.Machine.execJSelect r s
  | .jReturn r => Sys2Proof.Machine.execJReturn r s
  | .jMiss r => Sys2Proof.Machine.execJMiss r s
  | .walkForward id => Sys2Proof.Machine.execWalkForward id s
  | .walkParkResume id => Sys2Proof.Machine.execWalkParkResume id s
  | .berylPerform id => Sys2Proof.Machine.execBerylPerform id s
  | .cdumpResume id => Sys2Proof.Machine.execCdumpResume id s
  | .drained ctx => Sys2Proof.Machine.execDrained ctx s
  | .dims ctx q => Sys2Proof.Machine.execDims ctx q s
  | .fenceWaitMet ctx q => Sys2Proof.Machine.execFenceWaitMet ctx q s
  | .nopRecord ctx q => Sys2Proof.Machine.execNopRecord ctx q s
  | .launchRecord ctx q => Sys2Proof.Machine.execLaunchRecord ctx q s
  | .signalRecord ctx q => Sys2Proof.Machine.execSignalRecord ctx q s
  | .gridComplete grid => Sys2Proof.Machine.execGridComplete grid s
  | .dispatchBind core entry => Sys2Proof.Machine.execDispatchBind core entry s
  | .fillComplete core entry => Sys2Proof.Machine.execFillComplete core entry s
  | .teamEnd team => Sys2Proof.Machine.execTeamEnd team s
  | .storeCacheLevelAccept id => Sys2Proof.Machine.execStoreCacheLevelAccept id s
  | .remoteStlPerformed id => Sys2Proof.Machine.execRemoteStlPerformed id s
  | .rcntApply id => Sys2Proof.Machine.execRcntApply id s
  | .l1Fill core loc => Sys2Proof.Machine.execL1Fill core loc s
  | .l2Fill loc => Sys2Proof.Machine.execL2Fill loc s
  | .l2Eviction loc => Sys2Proof.Machine.execL2Eviction loc s
  | .rdcWriteback die loc => Sys2Proof.Machine.execRdcWriteback die loc s
  | .controllerAccept id => Sys2Proof.Machine.execControllerAccept id s
  | .patrolScrub sector => Sys2Proof.Machine.execPatrolScrub sector s
  | .rowSparing stack row => Sys2Proof.Machine.execRowSparing stack row s
  | .channelSparing stack channel => Sys2Proof.Machine.execChannelSparing stack channel s
  | .hostWrite loc data => Sys2Proof.Machine.execHostWrite loc data s
  | .hostRead loc len cache => Sys2Proof.Machine.execHostRead loc len cache s
  | .peerWrite loc data => Sys2Proof.Machine.execPeerWrite loc data s
  | .hostAtomicop loc op wide v cmp => Sys2Proof.Machine.execHostAtomicop loc op wide v cmp s
  | .cxlSnoop die loc inv => Sys2Proof.Machine.execCxlSnoop die loc inv s
  | .birsp loc data => Sys2Proof.Machine.execBirsp loc data s
  | .icacheFill g va => Sys2Proof.Machine.execIcacheFill g va s
  | .tlbShootdown ctx => Sys2Proof.Machine.execTlbShootdown ctx s
  | .fans ctx ord decline => Sys2Proof.Machine.execFans ctx ord decline s
  | .queueDoorbell ctx q pub => Sys2Proof.Machine.execQueueDoorbell ctx q pub s
  | .queueStopClear ctx q => Sys2Proof.Machine.execQueueStopClear ctx q s
  | .slotEntryWrite core entry v => Sys2Proof.Machine.execSlotEntryWrite core entry v s
  | .pctlWrite ctx v => Sys2Proof.Machine.execPctlWrite ctx v s
  | .preemptLimitExpiry ctx => Sys2Proof.Machine.execPreemptLimitExpiry ctx s
  | .restore ctx binds => Sys2Proof.Machine.execRestore ctx binds s
  | .unload ctx code forced => Sys2Proof.Machine.execUnload ctx code forced s
  | .forcedUnloadRestore ctx image => Sys2Proof.Machine.execForcedUnloadRestore ctx image s
  | .cctlResume ctx => Sys2Proof.Machine.execCctlResume ctx s
  | .wake ctx => Sys2Proof.Machine.execWake ctx s
  | .measure ctx sv segs => Sys2Proof.Machine.execMeasure ctx sv segs s
  | .go => Sys2Proof.Machine.execGo s
  | .hbmReady => Sys2Proof.Machine.execHbmReady s
  | .monitorConfigWrite die m v => Sys2Proof.Machine.execMonitorConfigWrite die m v s
  | .monitorRscRead die m off => Sys2Proof.Machine.execMonitorRscRead die m off s
  | .monitorSample die m v => Sys2Proof.Machine.execMonitorSample die m v s
  | .mgmtRegisterWrite off size v => Sys2Proof.Machine.execMgmtRegisterWrite off size v s
  | .powerControl avg now => Sys2Proof.Machine.execPowerControl avg now s
  | .thermalThrottle die junction coolant => Sys2Proof.Machine.execThermalThrottle die junction coolant s
  | .watchdogExpiry die hart => Sys2Proof.Machine.execWatchdogExpiry die hart s
  | .spareCoreSubstitution core => Sys2Proof.Machine.execSpareCoreSubstitution core s
  | .sliceRetire die slice => Sys2Proof.Machine.execSliceRetire die slice s
  | .bankCarve bank ways => Sys2Proof.Machine.execBankCarve bank ways s
  | .sliceFailure die slice => Sys2Proof.Machine.execSliceFailure die slice s
  | .linkLaneDrop die link => Sys2Proof.Machine.execLinkLaneDrop die link s
  | .getVersion => Sys2Proof.Machine.execGetVersion s
  | .getCapabilities => Sys2Proof.Machine.execGetCapabilities s
  | .negotiateAlgorithms => Sys2Proof.Machine.execNegotiateAlgorithms s
  | .getDigests => Sys2Proof.Machine.execGetDigests s
  | .getCertificate slot => Sys2Proof.Machine.execGetCertificate slot s
  | .challenge nonce => Sys2Proof.Machine.execChallenge nonce s
  | .getMeasurements index nonce => Sys2Proof.Machine.execGetMeasurements index nonce s
  | .setCertificate slot chain => Sys2Proof.Machine.execSetCertificate slot chain s
  | .deviceReset => Sys2Proof.Machine.execDeviceReset s
  | .recoveryImage img => Sys2Proof.Machine.execRecoveryImage img s
  | .enrolOwnerKey slot key signer sig => Sys2Proof.Machine.execEnrolOwnerKey slot key signer sig s
  | .advance signer sig => Sys2Proof.Machine.execAdvance signer sig s
  | .contextCreation ctx sys => Sys2Proof.Machine.execContextCreation ctx sys s
  | .contextKill ctx => Sys2Proof.Machine.execContextKill ctx s
  | .rdcFill die loc => Sys2Proof.Machine.execRdcFill die loc s
  | .peerRead loc len => Sys2Proof.Machine.execPeerRead loc len s
  | .fqconsWrite ctx v => Sys2Proof.Machine.execFqconsWrite ctx v s
  | .owneronlySet => Sys2Proof.Machine.execOwneronlySet s
  | .activeGridHandover grid => Sys2Proof.Machine.execActiveGridHandover grid s

end Sys2Proof.Machine
end

