-- ==== Sys2Proof/Machine/Own.lean ====
section
/-! DEFINITION. What parts of the device do by themselves, besides the event rows of the opcode table (log 28): errors that
come up in memories, evictions, fetching ahead, link retries; and the capacities of the caches (R11, R96, R101). -/

namespace Sys2Proof.Machine

/-! ### Errors that come up (R85, R121, R307) -/

/-- A word's error state after one more bit has flipped (a single error), or more; a poisoned word stays so. -/
def worse (old : Option Ecc) (new : Ecc) : Option Ecc :=
  match old, new with
  | _, .poison => old
  | none, e => some e
  | some .single, _ => some .double
  | some e, _ => some e
/-- The error states of words with that of one of them worse. -/
def upset (m : Assoc Ecc) (w : Nat) (e : Ecc) : Assoc Ecc :=
  match worse (Assoc.get? m w) e with
  | some x => Assoc.put m w x
  | none => m
/-- The error state of a group's register word with one more error (R121). -/
def upsetReg (bad : List (RegDst × Ecc)) (d : RegDst) (e : Ecc) : List (RegDst × Ecc) :=
  match worse ((bad.find? fun x => x.1 == d).map (·.2)) e with
  | some x => (d, x) :: bad.filter fun y => y.1 != d
  | none => bad

/-! ### Lines that leave the caches (R11, R96, R102) -/

/-- A line of an L1, L2 or RDC leaves it: dirty data go to the home first, unless the home waits for the host (R443). -/
def evictLine (lv : Level) (key : Nat) (s : State) : State :=
  match lv with
  | .l1 => { s with l1 := Assoc.del s.l1 key }
  | .l2 => l2Evict s key
  | .rdc =>
    let d := key / 2 ^ 64
    let line := key % 2 ^ 64
    if (rdcGet s d line).dirty ≠ 0 && lineHeld s (128 * line) 128 then biSend s (128 * line) 128 true else rdcDrop s d line
/-- The lines held at a level, by their keys. -/
def heldKeys (s : State) : Level → List Nat
  | .l1 => s.l1.map (·.1)
  | .l2 => s.l2.map (·.1)
  | .rdc => s.rdc.map (·.1)
/-- The lines of a set that replacement takes first: those at evict-first priority, else normal ones, else kept ones
(R109); among them the choice is free (log 8). -/
def victims (s : State) (lv : Level) (set : List Nat) : List Nat :=
  let prio (k : Nat) := (s.prios.find? fun x => x.level == lv && x.key == k).map (·.keep)
  let first := set.filter fun k => prio k == some false
  let normal := set.filter fun k => prio k == none
  if !first.isEmpty then first else if !normal.isEmpty then normal else set
/-- An element of a list that the spec leaves free (log 14). -/
def pick (s : State) (l : List Nat) : State × Option Nat :=
  ({ s with fresh := s.fresh + 1 }, l[(Config.freeWord s.fresh).toNat % l.length]?)
/-- `n` lines of a set leave it. -/
def thin (lv : Level) : Nat → List Nat → State → State
  | 0, _, s => s
  | n + 1, set, s => match pick s (victims s lv set) with
    | (s, none) => s
    | (s, some k) => thin lv n (set.filter (· != k)) (evictLine lv k s)
/-- The sets of a level give up what exceeds their ways. -/
def trimLevel (lv : Level) (s : State) : State :=
  let ks := heldKeys s lv
  if ks.length ≤ 8 then s
  else (ks.map (cacheSet s lv)).eraseDups.foldl (init := s) fun s x =>
    let set := (heldKeys s lv).filter fun k => cacheSet s lv k == x
    thin lv (set.length - waysOf s lv (set.headD 0)) set s
/-- The set of a line in its quad's instruction cache: 16 ways of 128 sets hold the 256 KiB of R11 (log 8). -/
def icSet (k : Nat) : Nat := key2 (k / 2 ^ 64) (Config.setOf 3 (k % 2 ^ 64) % 128)
/-- `n` lines of an instruction-cache set leave it. -/
def thinCode : Nat → List Nat → State → State
  | 0, _, s => s
  | n + 1, set, s => match pick s set with
    | (s, none) => s
    | (s, some k) => thinCode n (set.filter (· != k)) { s with icache := Assoc.del s.icache k }
/-- The instruction caches give up what exceeds their ways. -/
def trimCode (s : State) : State :=
  if s.icache.length ≤ 16 then s
  else (s.icache.map fun x => icSet x.1).eraseDups.foldl (init := s) fun s x =>
    let set := (s.icache.map (·.1)).filter fun k => icSet k == x
    thinCode (set.length - 16) set s
/-- After a turn no cache holds more than it has room for, and no priority outlives its line (R96, R109). -/
def trim (s : State) : State :=
  let s := trimCode (trimLevel .rdc (trimLevel .l2 (trimLevel .l1 s)))
  if s.prios.isEmpty then s else { s with prios := s.prios.filter fun x => lineHeldIn s x.level x.key }

/-! ### One such step -/

/-- A part of the device does something by itself (log 28). -/
def ownStep (o : Own) (s : State) : State :=
  match o with
  | .icacheEvict quad line => { s with icache := Assoc.del s.icache (key2 quad line) }
  | .l1Evict core line => if mayEvict s .l1 (key2 core line) then evictLine .l1 (key2 core line) s else s
  | .rdcEvict die line =>
    if decide (die < 4) && mayEvict s .rdc (key2 die line) then evictLine .rdc (key2 die line) s else s
  | .fetchAhead g pc => match env? s g with
    | some e => fetchAhead e pc
    | none => s
  | .mediaUpset w e => if backed s (8 * w) then { s with ecc := upset s.ecc w e } else s
  | .poolUpset w e => if w < 768 * 2 ^ 18 then { s with poolErr := upset s.poolErr w e } else s
  | .registerUpset g d e => modGroup g (fun x => { x with bad := upsetReg x.bad d e }) s
  | .l1Upset core line w e => match l1Get s core line with
    | some l => if w < 16 then { s with l1 := Assoc.put s.l1 (key2 core line) { l with ecc := upset l.ecc w e } } else s
    | none => s
  | .bankUpset bank w e => match Assoc.get? s.beryl bank with
    | some b => { s with beryl := Assoc.put s.beryl bank { b with ecc := upset b.ecc w e } }
    | none => s
  | .linkRetry die link =>
    if die < 4 ∧ link < 4 then
      let x := s.die die
      let l := (Assoc.get? x.links link).getD .zero
      let n := if l.retries = BitVec.allOnes 16 then l.retries else l.retries + 1
      s.setDie die { x with links := Assoc.put x.links link { l with retries := n } }
    else s
  | .filterEvict line => if s.snoop.contains line then biSend s (128 * line) 1 true else s

end Sys2Proof.Machine
end

