-- ==== Sys2Proof/Machine/Step.lean ====
section
/-! DEFINITION. One step of the device: the agenda's first turn; with none, the groups and the operations in flight take
turns, and where nothing is ready or open the clock alone advances. -/

namespace Sys2Proof.Machine

/-- A clk passes after an outcome in which group `g` had its turn, if one did; the caches give up what exceeds their ways
(R96), and the event queues take what they had no room for (R442). -/
def ticked (g : Option Gid) : Out → Out
  | .next s => .next (tick (g.bind fun g => issuedBy g s) (trim (settleRecords s)))
  | .fault r => .fault r
  | .refused r => .refused r

/-- A group issues: its instruction is fetched, decoded and executed; every other wait is then checked anew. -/
def stepGroup (g : Gid) (s : State) : Out :=
  match env? s g with
  | none => .next s
  | some e =>
    let s := modGroup g (fun x => { x with cond := .ready }) { s with cur := g }
    match fetchRes (e.at s) e.grp.pc with
    | .error r => .next (conclude (e.at s) 1 r)
    | .ok (s, w) => match candidate w with
      | none => .next (takeTrap g { cause := 0x01 } s)
      | some i => exec i s

/-- After a turn that is no group's, groups that wait check anew. -/
def thenRetry : Out → Out
  | .next s => .next (clearRetry s)
  | .fault r => .fault r
  | .refused r => .refused r
/-- An engine's word, if it has one. -/
def stepWord (i : Option Instr) (s : State) : Out :=
  match i with
  | none => .next s
  | some i => exec i s

/-- One turn. -/
def stepTurn (t : Turn) (s : State) : Out :=
  match t with
  | .group g =>
    if turnOk s g then ticked (some g) (stepGroup g (clearRetry s))
    else .next (tick none s)
  | .citrine c => ticked none (thenRetry (stepWord (citWord s c) { s with curCore := c }))
  | .walk id => ticked none (thenRetry (stepWord (walkRule s id) { s with curWalk := id }))
  | .event e => ticked none (thenRetry (exec e s))
  | .own o => ticked none (.next (ownStep o s))

/-- The event changes nothing. -/
def idleEvent (s : State) (e : Instr) : Bool :=
  match exec e s with
  | .next s' => decide (s' = s)
  | _ => true
/-- A turn of the engines and of the operations in flight: a walk's rule, or the first open event that does something;
`none` where nothing stands open. -/
def stepEvent (s : State) : Option Out :=
  match s.walks.find? fun w => w.park.isNone && (walkRule s w.id).isSome with
  | some w => some (stepTurn (.walk w.id) s)
  | none => ((turnedBy (s.cycle.toNat / 16) (openEvents s)).find? fun e => !idleEvent s e).map fun e =>
      ticked none (thenRetry (exec e s))
/-- A turn of the groups; `none` where none is ready. -/
def stepReady (s : State) : Option Out :=
  (nextGroup s).map fun g => ticked (some g) (stepGroup g s)
/-- A step with no turn on the agenda (log 1): of 16 clk the operations in flight have the last, the groups the others;
each has the other's where it has nothing to do. Groups that wait are tried again at the end of each 16. -/
def stepAuto (s : State) : Out :=
  let o := if s.cycle.toNat % 16 = 15 then (stepEvent s).or (stepReady (clearRetry s)) else (stepReady s).or (stepEvent s)
  o.getD (.next (tick none (clearRetry s)))

/-! ### Placing an instruction (log 5) -/

/-- The context a placed instruction runs in. -/
def placeCtx : Nat := 239
/-- The team that holds a placed instruction: one group of 16 threads on core 0. -/
def placeTeam (s : State) (pc : DWord) : Team where
  uid := s.nextId
  st := .running
  core := 0
  entry := 0
  ctx := placeCtx
  grid := 0
  teamId := 0
  inCluster := 0
  cluster := 0
  cw := 1
  ch := 1
  rx0 := 0
  ry0 := 0
  threads := 16
  wlo := 16
  whi := 16
  grant := 16
  gslots := 1
  rquota := 16896
  regMin := 256
  regMax := 256
  prio := 0
  part := 0
  win := 0
  nwin := 1
  sp := 4
  ring := 4
  l1 := 128
  rings := 0
  nring := 0
  banks := 15
  epi := 255
  tkOwn := true
  obBase := 0
  obSize := 64
  kentry := pc
  argBase := 0
  argSize := 0
  codeId := 0
  interlock := false
  tbar := 0
  groups := [.fresh 0 pc s.nextAge 256]
  restored := none
/-- The bytes below 0x5000 as they are placed: a page table of three levels whose leaf maps the first 2 MiB readable by
fetch, and the word at 0x3000. -/
def placeBytes (w : Nat) (m : List Host.Cell) : List Host.Cell :=
  let m := memPuts m 0 (toBytes 8 0x1001)
  let m := memPuts m 0x1000 (toBytes 8 0x2001)
  let m := memPuts m 0x2000 (toBytes 8 0x4001)
  let m := memPuts m 0x4000 (toBytes 8 0x99)
  memPuts m 0x3000 (toBytes 12 w)
/-- Nothing above the media hides the first 0x5000 bytes from a fetch of core 0. -/
def bareLow (s : State) : State :=
  { dropTlb s placeCtx with
    ecc := s.ecc.filter fun (k, _) => 0xA00 ≤ k
    l2 := s.l2.filter fun (k, _) => 0xA0 ≤ k
    snoop := s.snoop.filter fun k => 0xA0 ≤ k
    icache := s.icache.filter fun (k, _) => !(k / 2 ^ 64 == 0 && decide (k % 2 ^ 64 < 0xA0))
    pend := s.pend.filter fun p => match p.kind with | .mst r => decide (0x5000 ≤ r.loc) | _ => true }
/-- A team on core 0 whose group, row or walk executes the instruction next: as an instruction fetched at 0x3000; as the
word of a drain's running row; or as the rule of a walk. -/
def State.withFetchWord (s : State) (nbits w : Nat) : State :=
  let t := placeTeam s 0x3000
  let gid : Gid := ⟨s.nextId, 0⟩
  let s1 : State := { s.setCtx placeCtx .zero with
    boot := { s.boot with started := true }
    teams := s.teams ++ [t], nextId := s.nextId + 2, nextAge := s.nextAge + 1 }
  if nbits = 32 then
    let m : MatOp := ⟨s.nextId + 1, gid, placeCtx, 0, 0, false, .drain 0 0, 7, 0, true, List.replicate 16 0, 0, [],
      some ⟨0, 0, [], [], [], []⟩, none⟩
    { s1 with matq := m :: s1.matq, epi := Assoc.put s1.epi 0 [BitVec.ofNat 32 w], agenda := [.citrine 0] }
  else if nbits = 64 then
    let x : Walk := ⟨s.nextId + 1, gid, placeCtx, 0, 0, 0, [BitVec.ofNat 64 w], 0, 0, 0, 0, 0, 0, 0, 4096, 0, none, true⟩
    { s1 with walks := s1.walks ++ [x], agenda := [.walk (s.nextId + 1)] }
  else { bareLow s1 with mem := placeBytes w s1.mem, agenda := [.group gid] }

/-- One step. -/
def step (s : State) : Host.Outcome State Fault Refusal :=
  match s.agenda with
  | [] => stepAuto s
  | t :: ts => stepTurn t { s with agenda := ts }

end Sys2Proof.Machine
end

