-- ==== Sys2Proof/Safety.lean ====
section
/-! DEFINITION. The terms claims use: what counts as a safe run; when a group may execute an instruction; what an
instruction writes and what it leaves unchanged. -/

namespace Sys2Proof

open Machine

/-- The outcome is a next state. -/
def Completes (o : Out) : Prop := ∃ s, o = .next s

/-- `k` steps from a state end in a next state. -/
def RunsFor (k : Nat) (s : Machine.State) : Prop := Completes (core.run k s)

/-! ### When an instruction executes -/

/-- The instruction executes in the group: no row of R48 before the last holds, the guards are true and every register
it uses is full and free of errors (R34, R39, R48). -/
def canExecute (e : Env) (i : Instr) (f : Slk) : Bool :=
  (fate e.grp.alloc i).isNone && guardsTrue e f.ga f.gb && match shapeOf e.grp.alloc i with
    | some h => (emptyTrap e h f).isNone && !waitsEmpty e h f && !readsBad e h f
    | none => false
/-- `e` is the view of the group whose turn it is, and the instruction executes in it. -/
def Executes (s : Machine.State) (e : Env) (i : Instr) (f : Slk) : Prop :=
  env? s s.cur = some e ∧ canExecute e i f = true

/-! ### What it leaves unchanged -/

/-- A group as a state holds it. -/
def groupOf (s : Machine.State) (g : Gid) : Option Group := (env? s g).map (·.grp)
/-- A register the device has: a lane below 128 for lane files, lane 0 for the others. -/
def IsReg (d : RegDst) : Prop :=
  match d.file with
  | .v => d.lane < 128
  | .s => d.lane = 0
  | .p => d.num < 16 ∧ d.lane = 0
  | .q => d.num < 8 ∧ d.lane < 128
/-- Everything outside the groups, but for the counter of free values, is as it was. -/
def SameOutside (s t : Machine.State) : Prop :=
  t = { s with teams := t.teams, fresh := t.fresh } ∧
    ∀ u, (t.team? u).map (fun x => { x with groups := [] }) = (s.team? u).map fun x => { x with groups := [] }
/-- Every group but one is as it was. -/
def SameOthers (s t : Machine.State) (g : Gid) : Prop := ∀ h, h ≠ g → groupOf t h = groupOf s h
/-- The registers of a group but those in `ds` are as they were; so are its full/empty bits, base registers, frames,
trap and status registers, monitors and open region. -/
structure KeepsGroup (g g' : Group) (ds : List RegDst) : Prop where
  regs : ∀ d, IsReg d → d ∉ ds → g'.reg d = g.reg d
  errors : g'.bad = g.bad.filter fun x => decide (x.1 ∉ ds)
  rest : g' = { g with v := g'.v, s := g'.s, p := g'.p, q := g'.q, bad := g'.bad, haz := g'.haz, pc := g'.pc
                       cond := g'.cond }
/-- The group is at `pc`, ready for its next instruction. -/
def AtPc (g : Group) (pc : DWord) : Prop := g.pc = pc ∧ g.cond = .ready
/-- The registers hold what was written; p15 discards it (R23). -/
def Holds (g : Group) (ws : List RegWrite) : Prop :=
  ∀ w ∈ ws, ¬ (w.dst.file = .p ∧ w.dst.num = 15) → g.reg w.dst = w.val

/-- A register-only instruction of the group of `e` took `s` to `t`: the registers named by `ws` hold its values, the
group is at the next instruction, and nothing else changed. -/
def WritesRegs (s t : Machine.State) (e : Env) (ws : List RegWrite) : Prop :=
  SameOutside s t ∧ SameOthers s t e.gid ∧
    ∃ g, groupOf t e.gid = some g ∧ AtPc g (pcAdd e.grp.pc 12) ∧ Holds g ws ∧
      KeepsGroup e.grp g (ws.map (·.dst))

/-- The writes of an instruction that puts `fn`, in each lane it executes in, into `n` registers of D (R24, R176). -/
def laneWrites (e : Env) (f : Slk) (n : Nat) (fn : Nat → Nat) : List RegWrite :=
  (e.execLanes f.d).flatMap fun l => dstWrites f.d n l (fn l)

end Sys2Proof
end

