-- ==== Sys2Proof/Certificates/Slice0/Obligations.lean ====
section
/-! DEFINITION. The statements for the provers, with the tables of instructions that they are about. -/

namespace Sys2Proof.Claims

open Machine

/-! ### Shapes of outcomes -/

/-- The instruction's execution ended as `r`: the step's next state is what `conclude` makes of it. -/
def concluded (e : Env) (f : Slk) (r : Res) : Out := .next (conclude e (issueClk e f) r)
/-- The outcome of an instruction that writes registers only. -/
def Writes (s : Machine.State) (e : Env) (i : Instr) (ws : List RegWrite) : Prop :=
  ∃ t, exec i s = .next t ∧ WritesRegs s t e ws
/-- A number from its bits. -/
def ofBits (w : Nat) (b : Nat → Bool) : Nat := (List.range w).foldl (fun a i => a + if b i then 2 ^ i else 0) 0

/-! ### Integer and bit instructions -/

/-- The arithmetic instructions (R182): the word, the number of sources, and the exact result of the sources' values. -/
def arith : Instr → Option (Slk × Nat × (Int → Int → Int → Int))
  | .iadd f => some (f, 2, fun x y _ => x + y)
  | .isub f => some (f, 2, fun x y _ => x - y)
  | .imul f => some (f, 2, fun x y _ => x * y)
  | .imad f => some (f, 3, fun x y z => x * y + z)
  | .iabs f => some (f, 1, fun x _ _ => x.natAbs)
  | .imin f => some (f, 2, fun x y _ => min x y)
  | .imax f => some (f, 2, fun x y _ => max x y)
  | .imulh f => some (f, 2, fun x y _ => x * y / 2 ^ tyBits (fTy f))
  | _ => none
/-- An exact result in a register of the type: clamped to the type's range under SAT, else modulo 2^w (R182). -/
def wrapped (t : Nat) (sat : Bool) (z : Int) : Nat :=
  ((if sat then max (ibounds t).1 (min z (ibounds t).2) else z) % 2 ^ tyBits t).toNat

/-- The shifts and logic operations (R183): the result's bit `i` from the bits of S1 and S2 and the count c, at width w. -/
def logic : Instr → Option (Slk × (Nat → Nat → Nat → Nat → Nat → Bool))
  | .ishl f => some (f, fun _ x _ c i => decide (c ≤ i) && x.testBit (i - c))
  | .ishr f => some (f, fun w x _ c i => decide (i + c < w) && x.testBit (i + c))
  | .isra f => some (f, fun w x _ c i => x.testBit (min (i + c) (w - 1)))
  | .irot f => some (f, fun w x _ c i => x.testBit ((i + w - c % w) % w))
  | .and f => some (f, fun _ x y _ i => x.testBit i && y.testBit i)
  | .or f => some (f, fun _ x y _ i => x.testBit i || y.testBit i)
  | .xor f => some (f, fun _ x y _ i => x.testBit i != y.testBit i)
  | .andn f => some (f, fun _ x y _ i => x.testBit i && !y.testBit i)
  | _ => none

/-- The bit counts and `brev` (R184) on the `w` bits of the source: the word, the registers of D, and the result. -/
def bitOps : Instr → Option (Slk × Nat × (Nat → Nat → Nat))
  | .popc f => some (f, 1, fun w x => ((List.range w).filter x.testBit).length)
  | .clz f => some (f, 1, fun w x => ((List.range w).find? fun k => x.testBit (w - 1 - k)).getD w)
  | .ctz f => some (f, 1, fun w x => ((List.range w).find? x.testBit).getD w)
  | .brev f => some (f, tyRegs (fTy f), fun w x => ofBits w fun i => x.testBit (w - 1 - i))
  | _ => none

/-- `bfx` and `bfi` (R185) on S1, S2, the offset and the length at width w: each bit of the result. -/
def bitField : Instr → Option (Slk × (Nat → Nat → Nat → Nat → Nat → Nat → Bool))
  | .bfx f => some (f, fun w x _ off len i =>
      decide (off < w ∧ 0 < len) &&
        (let n := min len (w - off)
         if i < n then x.testBit (off + i) else tySigned (fTy f) && x.testBit (off + n - 1)))
  | .bfi f => some (f, fun w x y off len i =>
      if off < w ∧ off ≤ i ∧ i < off + len then y.testBit (i - off) else x.testBit i)
  | _ => none
/-- The offset and the length of `bfx` and `bfi` in lane `l`, each form (R28, R185). -/
def fieldArgs (i : Instr) (f : Slk) (e : Env) (l : Nat) : Nat × Nat :=
  match i with
  | .bfi _ => if f.fmt = 1 then (f.ext.toNat % 2 ^ 10, f.ext.toNat / 2 ^ 10 % 2 ^ 10)
    else (e.n32 l (.op f.s3), e.n32 l (.op f.s4))
  | _ => (e.n32 l (.op f.s2), e.n32 l (srcOf f 3 3))
/-- The sources of `bfx` and `bfi` that hold data. -/
def fieldSrc (i : Instr) (f : Slk) (e : Env) (l : Nat) : Nat × Nat :=
  match i with
  | .bfi _ => (e.val (fTy f) l (.op f.s1), e.val (fTy f) l (.op f.s2))
  | _ => (e.val (fTy f) l (.op f.s1), 0)

/-- Address, comparison, select, moves and the read of a status register (R186 to R191): the registers of D and what
lane `l` receives. -/
def moves : Instr → Option (Slk × Nat × (Env → Nat → Nat))
  | .lea f => some (f, 2, fun e l =>
      let i := e.n32 l (.op f.s2)
      (e.val (fTy f) l (.op f.s1) + (if fTy f = 4 ∧ 2 ^ 31 ≤ i then i + (2 ^ 64 - 2 ^ 32) else i) *
        2 ^ (e.n32 l (srcOf f 3 3) % 64)) % 2 ^ 64)
  | .icmp f => some (f, 1, fun e l =>
      let x := e.int f 2 1 l
      let y := e.int f 2 2 l
      let b : Bool := match fCc f with | 0 => x == y | 1 => x != y | 2 => x < y | 3 => x ≤ y | 4 => y < x | _ => y ≤ x
      b.toNat)
  | .sel f => some (f, tyRegs (fTy f), fun e l => e.val (fTy f) l (.op (if e.pred l f.s3 then f.s1 else f.s2)))
  | .mov f => some (f, tyRegs (fTy f), fun e l =>
      if opKind f.s1 = .p ∨ opKind f.s1 = .q then (if e.pred l f.s1 then 1 else 0)
      else e.val (movTy (fTy f) f.s1) l (.op f.s1))
  | .movi f => some (f, tyRegs (fTy f), fun _ _ =>
      match fTy f with
      | 4 => if 2 ^ 31 ≤ f.ext.toNat then f.ext.toNat + (2 ^ 64 - 2 ^ 32) else f.ext.toNat
      | 7 => fround (fmtOf 7) 0 false (fdec f32 f.ext.toNat)
      | _ => f.ext.toNat)
  | .srd f => some (f, tyRegs (fTy f), fun e l => srValue e l (opNum f.s1) % 2 ^ tyBits (fTy f))
  | _ => none

/-! ### Floating point -/

/-- The float instructions (R194 to R200), the packed dot product, the conversions (R76 to R80) and `plog` (R208): the
registers of D and what lane `l` receives. Sources are flushed values with SM and NL applied; results are rounded once
under the group's RMODE. -/
def floats : Instr → Option (Slk × Nat × (Env → Nat → Nat))
  | .fadd f => some (f, tyRegs (fTy f), fun e l => e.fres f (fsum (isRdn e.grp.rmode.toNat) [e.fsrc f 2 1 l, e.fsrc f 2 2 l]))
  | .fsub f => some (f, tyRegs (fTy f), fun e l =>
      e.fres f (fsum (isRdn e.grp.rmode.toNat) [e.fsrc f 2 1 l, (e.fsrc f 2 2 l).neg]))
  | .fmul f => some (f, tyRegs (fTy f), fun e l => e.fres f ((e.fsrc f 2 1 l).mul (e.fsrc f 2 2 l)))
  | .ffma f => some (f, tyRegs (fTy f), fun e l =>
      e.fres f (fsum (isRdn e.grp.rmode.toNat) [(e.fsrc f 3 1 l).mul (e.fsrc f 3 2 l), e.fsrc f 3 3 l]))
  | .fmin f => some (f, tyRegs (fTy f), fun e l => e.fres f (fminmax false (e.fsrc f 2 1 l) (e.fsrc f 2 2 l)))
  | .fmax f => some (f, tyRegs (fTy f), fun e l => e.fres f (fminmax true (e.fsrc f 2 1 l) (e.fsrc f 2 2 l)))
  | .fcmp f => some (f, 1, fun e l =>
      let o := fcmp (e.fv (fTy f) l (srcOf f 2 1)) (e.fv (fTy f) l (srcOf f 2 2))
      let b : Bool := match fCc f with
        | 0 => o = some .eq
        | 1 => o ≠ some .eq
        | 2 => o = some .lt
        | 3 => o = some .lt ∨ o = some .eq
        | 4 => o = some .gt
        | 5 => o = some .gt ∨ o = some .eq
        | 6 => o = none
        | _ => o ≠ none
      b.toNat)
  | .fclass f => some (f, 1, fun e l =>
      let m := fclassMask (tyFmt f) (e.val (fTy f) l (.op f.s1))
      if opKind f.d = .p ∨ opKind f.d = .q then (if m &&& e.n32 l (.op f.s2) = 0 then 0 else 1) else m)
  | .frnd f => some (f, tyRegs (fTy f), frndVal f)
  | .fdot2 f => some (f, 1, fdot2Val f)
  | .cvt f => some (f, cvtRegs (fTy f), cvtVal f)
  | .qblk f => some (f, 1, qblkVal f)
  | .dqblk f => some (f, 1, dqblkVal f)
  | .bpk f => some (f, 2, fun e l =>
      let b := if fTy f = 2 then 4 else 8
      ofBits 64 fun k => (e.wide l f.s1 2).testBit (b * (k % (64 / b)) + k / (64 / b)))
  | .bupk f => some (f, 2, fun e l =>
      let b := if fTy f = 2 then 4 else 8
      ofBits 64 fun k => (e.wide l f.s1 2).testBit (64 / b * (k % b) + k / b))
  | .plog f => some (f, 1, fun e l =>
      let lut := if f.fmt = 1 then f.ext.toNat else e.n32 0 (.op f.s4)
      let c := decide (f.fmt ≠ 1) && e.pred l f.s3
      if lut.testBit ((e.pred l f.s1).toNat + 2 * (e.pred l f.s2).toNat + 4 * c.toNat) then 1 else 0)
  | _ => none
/-- f64 arithmetic, which early service turns away (R446). -/
def needsRun : Instr → Bool
  | .fadd f | .fsub f | .fmul f | .ffma f | .fmin f | .fmax f | .fcmp f | .frnd f | .frcp f | .fsqrt f | .redx f
  | .scan f => fTy f == 7
  | _ => false

/-! ### Long-latency results -/

/-- The special functions (R201, R202), shuffles, ballots and votes (R205 to R207): the registers of D and what each
lane receives. -/
def longs : Instr → Option (Slk × Nat × (Env → Nat → Nat))
  | .frcp f => some (f, tyRegs (fTy f), fun e l => rcpFn (fTy f) e.grp.rmode.toNat (fSat f) (e.val (fTy f) l (.op f.s1)))
  | .fsqrt f => some (f, tyRegs (fTy f), fun e l => sqrtFn (fTy f) e.grp.rmode.toNat (fSat f) (e.val (fTy f) l (.op f.s1)))
  | .frsq f => some (f, tyRegs (fTy f), fun e l => sfuFn 1 (fTy f) e.grp.rmode.toNat (fSat f) (e.val (fTy f) l (.op f.s1)))
  | .fexp2 f => some (f, tyRegs (fTy f), fun e l => sfuFn 3 (fTy f) e.grp.rmode.toNat (fSat f) (e.val (fTy f) l (.op f.s1)))
  | .flog2 f => some (f, tyRegs (fTy f), fun e l => sfuFn 4 (fTy f) e.grp.rmode.toNat (fSat f) (e.val (fTy f) l (.op f.s1)))
  | .fsin f => some (f, tyRegs (fTy f), fun e l => sfuFn 5 (fTy f) e.grp.rmode.toNat (fSat f) (e.val (fTy f) l (.op f.s1)))
  | .fcos f => some (f, tyRegs (fTy f), fun e l => sfuFn 6 (fTy f) e.grp.rmode.toNat (fSat f) (e.val (fTy f) l (.op f.s1)))
  | .ftanh f => some (f, tyRegs (fTy f), fun e l => sfuFn 7 (fTy f) e.grp.rmode.toNat (fSat f) (e.val (fTy f) l (.op f.s1)))
  | .shfl f => some (f, tyRegs (fTy f), fun e i =>
      let o := e.frac i (srcOf f 2 2)
      let src : Int := match fCc f with | 0 => o | 1 => (i : Int) - o | 2 => (i : Int) + o | _ => (Nat.xor i o : Nat)
      if src < 0 ∨ (e.grant : Int) ≤ src ∨ e.holds src.toNat = false then
        (if fV f then 0 else e.xval (fTy f) i f.s1)
      else if fV f = true ∧ e.isActive src.toNat = false then 0
      else e.xval (fTy f) src.toNat f.s1)
  | .ballot f => some (f, tyRegs (fTy f), fun e _ =>
      ofBits (tyBits (fTy f)) fun j =>
        let l := ballotWord f e * tyBits (fTy f) + j
        e.isActive l && decide (l < e.grant) && e.xpred l f.s1)
  | .vote f => some (f, 1, fun e _ =>
      let b : Bool := match fCc f with
        | 0 => ∃ l ∈ e.lanes, e.xpred l f.s1 = true
        | 1 => ∀ l ∈ e.lanes, e.xpred l f.s1 = true
        | _ => ∀ l ∈ e.lanes, e.xval (fTy f) l f.s1 = voteRef f e
      b.toNat)
  | _ => none

/-- The SFU's function `op` on a pattern (R201): 0 frcp, 1 frsq, 2 fsqrt, 3 fexp2, 4 flog2, 5 fsin, 6 fcos, 7 ftanh. -/
def sfuResult (op ty rmode : Nat) (sat : Bool) (x : Nat) : Nat :=
  if op = 0 then rcpFn ty rmode sat x else if op = 2 then sqrtFn ty rmode sat x else sfuFn op ty rmode sat x
/-- The special values of R202: what the function gives for a value, where the table names it. -/
def sfuSpecial : Nat → FV → Option FV
  | _, .nan => some .nan
  | 0, .inf neg => some (.num neg 0 0)
  | 0, .num neg m _ => if m = 0 then some (.inf neg) else none
  | 1, .inf neg => some (if neg then .nan else .num false 0 0)
  | 1, .num neg m _ => if m = 0 then some (.inf neg) else if neg then some .nan else none
  | 2, .inf neg => some (if neg then .nan else .inf false)
  | 2, .num neg m _ => if m = 0 then some (.num neg 0 0) else if neg then some .nan else none
  | 3, .inf neg => some (if neg then .num false 0 0 else .inf false)
  | 4, .inf neg => some (if neg then .nan else .inf false)
  | 4, .num neg m _ => if m = 0 then some (.inf true) else if neg then some .nan else none
  | 5, .inf _ => some .nan
  | 5, .num neg m _ => if m = 0 then some (.num neg 0 0) else none
  | 6, .inf _ => some .nan
  | 6, .num _ m _ => if m = 0 then some (.num false 1 0) else none
  | 7, .inf neg => some (.num neg 1 0)
  | 7, .num neg m _ => if m = 0 then some (.num neg 0 0) else none
  | _, _ => none
/-- Of the approximated functions the value at ±m × 2^e that the bound of R202 is about, and the bounds of which one
holds: k × 2^u about it (log 9). -/
def sfuBound (op : Nat) (neg : Bool) (m : Nat) (e : Int) : FV × List (Nat × Int) :=
  match op with
  | 1 => (rsqVal m e, ulps 1 (rsqVal m e))
  | 3 =>
    let a : FV := if 10 ≤ (log2 m : Int) + e then .num false 1 (if neg then -1024 else 1024) else exp2Val neg m e
    (a, ulps 2 a)
  | 4 => (log2Val m e, ulps 2 (log2Val m e) ++
      if fcmp (.num neg m e) (.num false 1 (-1)) ≠ some .lt ∧ fcmp (.num neg m e) (ofInt 2) ≠ some .gt then [(1, -22)] else [])
  | 5 => (trigVal false neg m e, [(1, -21)])
  | 6 => (trigVal true neg m e, [(1, -21)])
  | _ => (tanhVal neg m e, ulps 2 (tanhVal neg m e))

/-! ### Order -/

/-- The view after the release that ORD asks for; none while it waits (R382). -/
def released (e : Env) (ord sc : Nat) : Option Env := if ord = 2 ∨ ord = 3 then (release e sc).map e.at else some e
/-- The state after the acquire that ORD asks for (R383). -/
def acquired (e : Env) (ord sc : Nat) (s : Machine.State) : Machine.State :=
  if ord = 1 ∨ ord = 3 then acquire e.core sc s else s
/-- The view after the open region is committed (R402). -/
def committed (e : Env) : Env := e.at (commitRegion e.gid e.st)
/-- The group of `e` is ready at `pc`, its class frames, registers and all else as they were. -/
def MovesTo (s t : Machine.State) (e : Env) (pc : DWord) : Prop :=
  SameOutside s t ∧ SameOthers s t e.gid ∧
    ∃ hz, groupOf t e.gid = some { e.grp with pc := pc, cond := .ready, haz := hz }
/-- Groups as they were, but for the monitors that a write to their granules fires (R152). -/
def SameGroups (s t : Machine.State) : Prop :=
  ∀ h, (groupOf t h).map (fun g => { g with mon := [] }) = (groupOf s h).map fun g => { g with mon := [] }

/-! ### The matrix array, Citrine and the classes -/

/-- The three forms of the matrix instruction. -/
def mmaOf (form : Nat) (f : Slk) : Instr := if form = 0 then .mma f else if form = 1 then .mmab f else .mmas f
/-- The array has an entry free, and for a pair the neighbour's too (R214, R228). -/
def hasRoom (e : Env) (pair : Bool) : Prop := queueFull e.st e.core = false ∧ (pair = true → queueFull e.st (e.core + 1) = false)
/-- The state after a matrix operation is accepted: its destination registers empty, the operation last in the queue, with
the group's RMODE (R214, R75). -/
def queued (e : Env) (bank : Nat) (pair : Bool) (k : MatKind) (ds : List RegDst) : Machine.State :=
  let s := modGroup e.gid (Group.marks true ds) e.st
  { s with
    matq := s.matq ++ [⟨s.nextId, e.gid, e.team.ctx, e.core, bank, pair, k, e.grp.rmode, 0, false, [], 0, [], none, none⟩]
    nextId := s.nextId + 1 }
/-- The Citrine words that compute each lane from the row registers and constants (R246 to R249): the word and what lane
`n` of Xd receives. -/
def rowWords : Instr → Option (Cit × (MatOp → CitRun → Nat → Nat))
  | .citMov c => some (c, fun _ r n => r.lane c.xa.toNat n)
  | .citLdk c => some (c, fun m _ _ => m.const c.ck.toNat)
  | .citAdd c => some (c, fun m r n => citRnd m (citSum m [citIn m (r.lane c.xa.toNat n), citIn m (r.lane c.xb.toNat n)]))
  | .citMul c => some (c, fun m r n => citRnd m ((citIn m (r.lane c.xa.toNat n)).mul (citIn m (r.lane c.xb.toNat n))))
  | .citFma c => some (c, fun m r n => citRnd m (citSum m
      [(citIn m (r.lane c.xa.toNat n)).mul (citIn m (r.lane c.xb.toNat n)), citIn m (r.lane c.xc.toNat n)]))
  | .citMax c => some (c, fun m r n =>
      citRnd m (fminmax true (citIn m (r.lane c.xa.toNat n)) (citIn m (r.lane c.xb.toNat n))))
  | .citScale c => if c.st = 0 then some (c, fun m r n =>
      citRnd m ((citIn m (r.lane c.xa.toNat n)).mul (citIn m (m.const c.ck.toNat)))) else none
  | .citClamp c => some (c, fun m r n =>
      let x := citIn m (r.lane c.xa.toNat n)
      citRnd m (if x.isNan then .nan
        else fminmax false (fminmax true x (citIn m (m.const c.ck.toNat))) (citIn m (m.const (c.ck.toNat + 1)))))
  | .citRelu c => some (c, fun m r n =>
      let x := citIn m (r.lane c.xa.toNat n)
      if x.isNan then citRnd m .nan else if x.sign || x.isZero then 0 else citRnd m x)
  | .citGelu c => some (c, fun m r n => citRnd m (tableFn false (citIn m (r.lane c.xa.toNat n))))
  | .citSilu c => some (c, fun m r n => citRnd m (tableFn true (citIn m (r.lane c.xa.toNat n))))
  | .citTsc c => some (c, fun m r n => citRnd m ((citIn m (r.lane c.xa.toNat n)).mul (citIn m m.ts.toNat)))
  | .citCvt c => some (c, fun m r n =>
      narrowFill c.t.toNat (convert m.rmode.toNat c.t.toNat c.st.toNat (c.sat == 1) (r.lane c.xa.toNat n)))
  | _ => none
/-- The Citrine words that read memory (R246): the word, whether the row has one element or each column its own, and what
lane `n` receives for an element. -/
def rowLoads : Instr → Option (Cit × Bool × (MatOp → CitRun → Nat → Nat → Nat))
  | .citLdr c => some (c, true, fun _ _ _ x => x)
  | .citLdv c => some (c, false, fun _ _ _ x => x)
  | .citBias c => some (c, false, fun m r n x => citRnd m (citSum m [citIn m (r.lane c.xa.toNat n), citIn m x]))
  | .citScale c => if c.st = 0 then none
      else some (c, c.st == 1, fun m r n x => citRnd m ((citIn m (r.lane c.xa.toNat n)).mul (citIn m x)))
  | _ => none
/-- The state in which an instruction that waits for every fixed-latency result executes (R192, R341). -/
def settled (s : Machine.State) : Machine.State := modGroup s.cur (fun g => { g with haz := [] }) s
/-- A team of a context stands on the device. -/
def resident (s : Machine.State) (c : Nat) : Prop := ∃ t ∈ s.teams, t.ctx = c

end Sys2Proof.Claims

open Sys2Proof Sys2Proof.Machine Sys2Proof.Claims

/-! ## Encoding -/

/-- O1. Decoding the bits of a well-formed instruction gives it back, with every operand at every value its encoding
admits (R21 to R33, R50, R244, R290). -/
def Obligations.EncodedInstructionsDecode : Prop :=
  ∀ i n w, WellFormed i = true → encode i = some (n, w) → decodeTableWord n w = some i

/-- O2. A 96-bit word that decodes is the encoding of its instruction: no bit of it is dropped (R21, R27). -/
def Obligations.DecodedWordsEncode : Prop :=
  ∀ w i, decode w = .ok i → encode i = some (96, w.toNat)

/-- O3. Words written out from the encodings of the manual, W2, W1 and W0 from the left as its listings have them,
decode to the instructions they stand for (R19, R21). -/
def Obligations.SpecWordsDecode : Prop :=
  let slk (mod : BitVec 9) (d s1 s2 s3 : Opnd) : Slk := ⟨0, 0xF, 0xF, d, s1, s2, s3, .none, 0, 0, mod, 0, 0, 0, 0⟩
  decodeTableWord 96 0x000000FF_FFF01003_015EF016 = some (.imin (slk 0 (.v 5) (.v 3) (.v 4) .none)) ∧
  decodeTableWord 96 0x000010FF_DA201003_015EF028 = some (.sel (slk 2 (.v 5) (.v 3) (.v 4) (.q 2))) ∧
  decodeTableWord 96 0x000098FF_C0601003_015EF043 = some (.ffma (slk 0x13 (.v 5) (.v 3) (.v 4) (.v 6))) ∧
  decodeTableWord 96 0x000118FF_FFF01003_685EF046 = some (.fcmp (slk 0x23 (.q 1) (.v 3) (.v 4) .none)) ∧
  decodeTableWord 96 0x000010FF_FFFFFF01_40DEF02B = some (.srd (slk 2 (.s 3) (.sr 1) .none .none)) ∧
  decodeTableWord 96 0x000190FF_FFFBFC03_015EF080 = some (.shfl (slk 0x32 (.v 5) (.v 3) (.imm 0xFF) .none))

/-! ## Steps -/

/-- O4. A group whose turn it is executes the instruction at its program counter: the fetch reads the word there, and
`exec` of the instruction it decodes to is the step, with a clk passing. The engines' words and the events on the
agenda are executed the same way, and what parts of the device do by themselves (log 28). With no turn on the agenda the
group that R332 puts first has its turn, in 15 clk of 16; that a step is one turn and one clk, which group or event has it,
and that the engines and events have the last clk of 16 is the model's own schedule (logs 1 and 7). An opcode the device does not assign, or a variant it does not have, traps ILLOP
with TRAPPC at the word, and the word has no effect (R46, R48 row 2). -/
def Obligations.StepRunsDecoded : Prop :=
  ((∀ s ts g e s1 w i, s.agenda = .group g :: ts → turnOk { s with agenda := ts } g = true →
     env? (modGroup g (fun x => { x with cond := .ready }) { clearRetry { s with agenda := ts } with cur := g }) g = some e →
     fetchRes e e.grp.pc = .ok (s1, w) → decode w = .ok i → step s = ticked (some g) (exec i s1)) ∧
   (∀ s g e s1 w i, s.agenda = [] → s.cycle.toNat % 16 ≠ 15 → nextGroup s = some g →
     env? (modGroup g (fun x => { x with cond := .ready }) { s with cur := g }) g = some e →
     fetchRes e e.grp.pc = .ok (s1, w) → decode w = .ok i → step s = ticked (some g) (exec i s1)) ∧
   (∀ s ts c i, s.agenda = .citrine c :: ts → citWord { s with agenda := ts } c = some i →
     step s = ticked none (thenRetry (exec i { s with agenda := ts, curCore := c }))) ∧
   (∀ s ts id i, s.agenda = .walk id :: ts → walkRule { s with agenda := ts } id = some i →
     step s = ticked none (thenRetry (exec i { s with agenda := ts, curWalk := id }))) ∧
   (∀ s ts i, s.agenda = .event i :: ts → step s = ticked none (thenRetry (exec i { s with agenda := ts }))) ∧
   (∀ s ts o, s.agenda = .own o :: ts → step s = ticked none (.next (ownStep o { s with agenda := ts })))) ∧
  (∀ s g e s1 w, turnOk s g = true → s.agenda = [.group g] →
     env? (modGroup g (fun x => { x with cond := .ready }) { clearRetry { s with agenda := [] } with cur := g }) g = some e →
     fetchRes e e.grp.pc = .ok (s1, w) → candidate w = none →
       step s = ticked (some g) (.next (takeTrap g { cause := 0x01 } s1)))

/-- O5. Reset leaves the values the manual states: early service with die 0 at 550 MHz, nothing resident or queued, the
boundary registers, the context registers, SCRUB, CHTHR and PLIMIT at their reset values, and 128 MiB of device memory
backed on die 0 besides host memory (R83, R117, R352, R416, R440, R446). The rest is the model's choice: caches are empty
and memory lists no byte, every byte of it reading 0 (logs 3 and 8), PSTAT, SAVEBASE and the page-table root are 0 (log 4),
the other dies' clocks stand at 550 as well (log 24), and no firmware runs (log 5). Memory at reset is in canonical form. -/
def Obligations.ResetState : Prop :=
  (let s := State.reset
   s.phase = .early ∧ s.teams = [] ∧ s.grids = [] ∧ s.pend = [] ∧ s.matq = [] ∧
   (s.die 0).clock = 550 ∧ (∀ d, (s.die d).scrub = 24 ∧ (s.die d).chthr = 256) ∧
   (∀ c, s.pbOf c = ⟨0x100, 0x140, 0x160⟩) ∧
   (∀ c, (s.ctx c).st = .running ∧ (s.ctx c).queues = [] ∧ (s.ctx c).fences = [] ∧ (s.ctx c).images = []) ∧
   (∀ pa, backed s pa = true ↔ pa < 2 ^ 27 ∨ (2 ^ 40 ≤ pa ∧ pa < 2 ^ 47)) ∧
   s.plimit = 3600 ∧ s.elHead = 0) ∧
  (let s := State.reset
   s.l1 = [] ∧ s.l2 = [] ∧ s.rdc = [] ∧ s.icache = [] ∧ s.tlb = [] ∧ s.mem = [] ∧ s.power = 0 ∧
   (∀ c, (s.ctx c).saveBase = 0 ∧ (s.ctx c).ptRoot = 0) ∧ (∀ d, (s.die d).clock = 550) ∧ s.boot.started = false) ∧
  (Memory.wf State.reset.mem = true)

/-- O6. Every step keeps memory in canonical form: addresses strictly rising, and no entry equal to what an unlisted
address reads as. -/
def Obligations.StepKeepsMemoryCanonical : Prop :=
  ∀ s t, Memory.wf s.mem = true → step s = .next t → Memory.wf t.mem = true

/-! ## Issue -/

/-- O7. The fetch reads the twelve bytes at the program counter: where they lie in one line that the quad's
instruction cache holds, and the page may be fetched from, the word is those bytes, least significant first
(R19, R20, R366). An instruction whose guard is false has no effect: the group goes on at the next instruction, no
register changes, nothing outside the group changes, and no full/empty check is made (R34, R48 row 5). An empty source
register stops the instruction before any effect: it waits with its program counter unchanged, or, where FE marks the
source, traps ETRAP with the operand's number and the lowest lane (R39, R48 row 6). What follows an executed
instruction: complete, the group is ready at the next instruction; moved, at the target; waiting, it keeps its pc.
Nothing but the group, and the counter of free values, differs from what the body left (R31, R34). -/
def Obligations.FetchAndIssue : Prop :=
  (∀ (e : Env) (pc : DWord) s1 loc ca d,
     pc.toNat % 2 ^ 57 % 4 = 0 → Assoc.get? e.grp.ahead pc.toNat = none →
     pc.toNat % 2 ^ 57 % 128 + 12 ≤ 128 → pc.toNat % 2 ^ 57 + 12 ≤ 2 ^ 57 →
     translate e.st e.team.ctx (pc.toNat / 2 ^ 57) (pc.toNat % 2 ^ 57) 12 .fetch = (s1, .ok loc ca) →
     loc % 128 + 12 ≤ 128 → Assoc.get? s1.icache (key2 (quadOf e.team.core) (loc / 128)) = some d →
       fetchRes e pc = .ok (s1, d.extractLsb' (8 * (loc % 128)) 96)) ∧
  (∀ s e i f opc h body, env? s s.cur = some e → slkParts i = some (opc, f) → shapeOf e.grp.alloc i = some h →
     shapeFate e.grp.alloc h f = none → guardsTrue e f.ga f.gb = false →
       ∃ t, issue i f body s = .next t ∧ WritesRegs s t e []) ∧
  (∀ s e i f h body, env? s s.cur = some e → fate e.grp.alloc i = none → guardsTrue e f.ga f.gb = true →
     shapeOf e.grp.alloc i = some h →
     (∀ k lane, emptyTrap e h f = some (k, lane) →
       issue i f body s = .next (conclude e (issueClk e f) (.trap s { cause := 0x03, opnd := k, lane := lane }))) ∧
     (emptyTrap e h f = none → waitsEmpty e h f = true →
       issue i f body s = .next (modGroup e.gid (fun g => { g with cond := .wait .retry }) s))) ∧
  (∀ (e : Env) clk s g, env? s e.gid = some g →
     (∀ pc, groupOf (conclude e clk (.goto s pc)) e.gid = some { g.grp.ageHaz clk with cond := .ready, pc := pc }) ∧
     groupOf (conclude e clk (.done s)) e.gid = some { g.grp.ageHaz clk with cond := .ready, pc := pcAdd e.grp.pc 12 } ∧
     (∀ w, groupOf (conclude e clk (.wait s w)) e.gid = some { g.grp with cond := .wait w }) ∧
     SameOutside s (conclude e clk (.done s)) ∧ SameOthers s (conclude e clk (.done s)) e.gid ∧
     (∀ pc, SameOutside s (conclude e clk (.goto s pc)) ∧ SameOthers s (conclude e clk (.goto s pc)) e.gid) ∧
     (∀ w, SameOutside s (conclude e clk (.wait s w)) ∧ SameOthers s (conclude e clk (.wait s w)) e.gid))

/-! ## Integer, bit and move instructions -/

/-- O8. The arithmetic instructions write the exact result of their operands, modulo 2^w or clamped under SAT, in each
lane they execute in, and change nothing else but the pc (R182). -/
def Obligations.IntegerArithmetic : Prop :=
  ∀ s e i f n op, arith i = some (f, n, op) → Executes s e i f →
    Writes s e i (laneWrites e f (tyRegs (fTy f)) fun l =>
      wrapped (fTy f) (fSat f) (op (e.int f n 1 l) (e.int f n 2 l) (e.int f n 3 l)))

/-- O9. The shifts and logic operations write, bit by bit, what the table of R183 says, and change nothing else but
the pc. -/
def Obligations.ShiftsAndLogic : Prop :=
  ∀ s e i f op, logic i = some (f, op) → Executes s e i f →
    Writes s e i (laneWrites e f (tyRegs (fTy f)) fun l =>
      ofBits (tyBits (fTy f)) (op (tyBits (fTy f)) (e.bits f 2 1 l) (e.bits f 2 2 l) (e.cnt f 2 2 l)))

/-- O10. The bit counts and reversal, and the bit-field extract and insert, write what R184 and R185 say, and change
nothing else but the pc. -/
def Obligations.BitCountsAndFields : Prop :=
  (∀ s e i f n op, bitOps i = some (f, n, op) → Executes s e i f →
     Writes s e i (laneWrites e f n fun l => op (tyBits (fTy f)) (e.bits f 1 1 l))) ∧
  (∀ s e i f op, bitField i = some (f, op) → Executes s e i f →
     Writes s e i (laneWrites e f (tyRegs (fTy f)) fun l =>
       let (x, y) := fieldSrc i f e l
       let (off, len) := fieldArgs i f e l
       ofBits (tyBits (fTy f)) (op (tyBits (fTy f)) x y off len)))

/-- O11. `lea`, `icmp`, `sel`, `mov`, `movi` and `srd` (R186 to R191); `mov` of a type below 64 bits copies the whole
register (log 21). -/
def Obligations.MovesAndCompares : Prop :=
  ∀ s e i f n fn, moves i = some (f, n, fn) → Executes s e i f → Writes s e i (laneWrites e f n (fn e))

/-- O12. `swr`: a writable register takes the value, b32 replacing the low half of a 64-bit one; reserved bits read 0;
a reserved rounding mode traps BOUNDS with the value in TRAPADDR; a read-only register traps PROT 0x04; a reserved
number is ignored (R54, R71, R192). `rdlane` and `wrlane` act on the named lane, active or not: an index of G′ or more
traps BOUNDS; the empty named lane is waited for; no errors stand in the group's registers (R121); a lane without a thread reads 0 and takes nothing; `.z` reads 0 from
an inactive lane (R193). -/
def Obligations.StatusRegistersAndNamedLanes : Prop :=
  (∀ s e f, Executes s e (.swr f) f →
     let x := e.val (fTy f) 0 (.op f.s1)
     let low (n : Nat) : Word := BitVec.ofNat 32 (x % 2 ^ n)
     let wide (old : DWord) : DWord :=
       if tyBits (fTy f) = 64 then BitVec.ofNat 64 x else BitVec.ofNat 64 (old.toNat / 2 ^ 32 * 2 ^ 32 + x % 2 ^ 32)
     exec (.swr f) s = concluded e f (match opNum f.d with
       | 0x0B => if x % 8 = 5 ∨ x % 8 = 6 then .trap s { cause := 0x05, detail := 0x04, addr := x }
         else .done (e.mod fun g => { g with rmode := low 6 })
       | 0x0C => .done (e.mod fun g => { g with trapInfo := low 28 })
       | 0x0D => .done (e.mod fun g => { g with trapPc := wide g.trapPc })
       | 0x0E => .done (e.mod fun g => { g with trapAddr := wide g.trapAddr })
       | 0x0F => .done (e.mod fun g => { g with repCtr := low 7 })
       | 0x14 => .done (e.mod fun g => { g with descBase := BitVec.ofNat 64 ((wide g.descBase).toNat / 128 * 128) })
       | 0x15 => .done (e.mod fun g => { g with tvec := wide g.tvec })
       | n => if n ≤ 0x19 then .trap s { cause := 0x06, detail := 0x04 } else .done s)) ∧
  ((∀ s e f, Executes s e (.rdlane f) f → e.grp.bad = [] →
     let i := e.n32 0 (srcOf f 2 2)
     let n := tyRegs (fTy f)
     (e.grant ≤ i → exec (.rdlane f) s = concluded e f (.trap s { cause := 0x05, detail := 0x04, addr := i })) ∧
     (i < e.grant → (opRegs f.s1 n [i]).any e.grp.isEmpty = false →
       exec (.rdlane f) s = concluded e f (.done (writeLong e false (dstWrites f.d n 0
         (if e.holds i = false ∨ (fV f = true ∧ e.isActive i = false) then 0 else e.wide i f.s1 n)) s))) ∧
     (i < e.grant → (opRegs f.s1 n [i]).any e.grp.isEmpty = true → f.fe.getLsbD 2 = false →
       exec (.rdlane f) s = concluded e f (.wait s .retry))) ∧
   (∀ s e f, Executes s e (.wrlane f) f →
     let i := e.n32 0 (srcOf f 2 2)
     let n := tyRegs (fTy f)
     (e.grant ≤ i → exec (.wrlane f) s = concluded e f (.trap s { cause := 0x05, detail := 0x04, addr := i })) ∧
     (i < e.grant → (opRegs f.d n [i]).any e.grp.isEmpty = false → e.holds i = true →
       exec (.wrlane f) s = concluded e f (.done (writeLong e false (dstWrites f.d n i
         (e.val (movTy (fTy f) f.s1) 0 (.op f.s1))) s))) ∧
     (i < e.grant → (opRegs f.d n [i]).any e.grp.isEmpty = false → e.holds i = false →
       exec (.wrlane f) s = concluded e f (.done s))))

/-! ## Floating point -/

/-- O13. The float instructions, the packed dot product, the conversions and `plog` write what the values say, rounded
once, and change nothing else but the pc; f64 arithmetic runs outside early service (R76 to R80, R194 to R200, R208,
R446). f64 arithmetic in early service traps PROT 0x06 (R446). That `dqblk` sign-extends an immediate S2 and does not flush
a subnormal spare is the model's choice (log 29). -/
def Obligations.FloatResults : Prop :=
  (∀ s e i f n fn, floats i = some (f, n, fn) → Executes s e i f → (needsRun i = true → s.phase = .run) →
     Writes s e i (laneWrites e f n (fn e))) ∧
  (∀ s e i f opc, slkParts i = some (opc, f) → needsRun i = true → Executes s e i f → s.phase ≠ .run →
     exec i s = concluded e f (.trap s { cause := 0x06, detail := 0x06 }))

/-- O14. A representable value rounds to itself: in every float format, under every rounding mode and with or without
saturation, rounding the exact value of a number's pattern gives the pattern back; the spare code 0b1000 of e2m1 is no
number and left out (R63, R72). -/
def Obligations.RepresentableValuesRoundExactly : Prop :=
  ∀ t rm sat x, t ∈ [2, 3, 7, 8, 9, 14, 15] → x < 2 ^ (fmtOf t).w → ¬(t = 2 ∧ x = 8) → fdec (fmtOf t) x ≠ .nan →
    fround (fmtOf t) rm sat (fdec (fmtOf t) x) = x

/-! ## Long-latency results -/

/-- O15. The special functions, shuffles, ballots and votes issue as long-latency producers of what the rules say
(R201, R205 to R207, R36); which lane's register names a ballot's word is the model's choice (log 22). The special functions
give the special values of R202, `fexp2` an exact power for an integer whose power f32 holds, `flog2` the exact exponent of a
power of two. `frcp` and `fsqrt` are rounded once from a quotient or root of at least 120 bits and whether it is exact. Of the
others the f32 approximation is the part's own (log 9): within the bound of R202 about the function's value, which the model
has with 256 fraction bits, or that value rounded. -/
def Obligations.LongLatencyResults : Prop :=
  (∀ s e i f n fn, longs i = some (f, n, fn) → Executes s e i f → (needsRun i = true → s.phase = .run) →
    exec i s = concluded e f (.done (writeLong e false (laneWrites e f n (fn e)) s))) ∧
  (∀ op ty rm sat x, op < 8 → (ty ∈ [3, 8, 9] ∨ (ty = 7 ∧ (op = 0 ∨ op = 2))) →
    let g := fmtOf ty
    let v := fdec g (fin rm g x)
    (∀ r, sfuSpecial op v = some r → sfuResult op ty rm sat x = ffin g rm sat r) ∧
    (∀ n : Int, op = 3 → -149 ≤ n → n ≤ 127 → fcmp v (ofInt n) = some .eq →
      sfuResult op ty rm sat x = ffin g rm sat (.num false 1 n)) ∧
    (∀ (m k : Nat) (e : Int), op = 4 → v = .num false m e → m = 2 ^ k → sfuResult op ty rm sat x = ffin g rm sat (ofInt (k + e))) ∧
    (∀ neg m e, op = 0 → v = .num neg m e → m ≠ 0 → ∃ q k : Nat, 2 ^ 120 ≤ q ∧ q * m ≤ 2 ^ k ∧ 2 ^ k < (q + 1) * m ∧
      sfuResult op ty rm sat x =
        fout rm g (froundM g (rmFor g.w (rmRm rm)) sat neg q (-e - k) (decide (q * m ≠ 2 ^ k)))) ∧
    (∀ m e, op = 2 → v = .num false m e → m ≠ 0 → ∃ (q j : Nat) (h : Int), 2 ^ 120 ≤ q ∧ e = 2 * h + j ∧
      q * q ≤ m * 2 ^ j ∧ m * 2 ^ j < (q + 1) * (q + 1) ∧
      sfuResult op ty rm sat x =
        fout rm g (froundM g (rmFor g.w (rmRm rm)) sat false q h (decide (q * q ≠ m * 2 ^ j)))) ∧
    (∀ neg m e, op ≠ 0 → op ≠ 2 → v = .num neg m e → sfuSpecial op v = none → ∃ y,
      sfuResult op ty rm sat x = ffin g rm sat (fdec f32 y) ∧
        (y = fround f32 (rmRm rm) sat (sfuBound op neg m e).1 ∨
          ∃ b ∈ (sfuBound op neg m e).2, closeTo (fdec f32 y) (sfuBound op neg m e).1 b.1 b.2 = true)))

/-- O16. `redx` reduces the group or each segment by the fixed tree, and `scan` by its prefix; a segment size that is
no power of two traps BOUNDS with the size in TRAPADDR (R209, R211). The size is waited for in one lane; the statement
is about groups with no empty size register and no register in error, and for f64 about service (R446). Each subnormal
source of a float form is flushed under flush inputs, whether or not anything is combined with it (R73). -/
def Obligations.ReductionsAndScans : Prop :=
  ∀ s e f, e.grp.bad = [] → (fTy f = 7 → s.phase = .run) →
    ((opRegs f.s2 1 [e.firstLane]).any e.grp.isEmpty = false ∨ f.fmt = 1 ∨ e.lanes = []) →
    let k := segSize f e
    let n := tyRegs (fTy f)
    (Executes s e (.redx f) f → opKind f.d = .s →
      exec (.redx f) s = concluded e f (.done (writeLong e false (dstWrites f.d n 0 (redSeg f e e.grant 0)) s))) ∧
    (Executes s e (.redx f) f → opKind f.d ≠ .s → (∃ m, k = 2 ^ m) →
      exec (.redx f) s = concluded e f (.done (writeLong e false (e.lanes.flatMap fun l =>
        dstWrites f.d n l (redSeg f e (min k e.grant) (l / min k e.grant * min k e.grant))) s))) ∧
    (Executes s e (.scan f) f → (∃ m, k = 2 ^ m) →
      exec (.scan f) s = concluded e f (.done (writeLong e false (laneWrites e f n (scanVal f (min k e.grant) e)) s))) ∧
    (∀ i, (i = .redx f ∧ opKind f.d ≠ .s) ∨ i = .scan f → Executes s e i f → ¬ (∃ m, k = 2 ^ m) →
      exec i s = concluded e f (.trap s { cause := 0x05, detail := 0x04, addr := k }))

/-- O17. A long-latency producer marks its registers empty and leaves their values; the write is posted, and nothing else
changes but the pc (R36). One that writes predicates alone, which have no full/empty bits, posts nothing and writes them at
once (the model's choice, log 2). The result of a long-latency producer arrives: its
registers hold the values and are full, and the posted operation is gone (R36). -/
def Obligations.LongLatencyRegisters : Prop :=
  (∀ (e : Env) s clk (ws : List RegWrite), env? s e.gid = some e → 0 < ws.length →
     (∀ w ∈ ws, (w.dst.file = .v ∧ w.dst.lane < 128) ∨ (w.dst.file = .s ∧ w.dst.num < 128 ∧ w.dst.lane = 0)) →
     let t := conclude e clk (.done (writeLong e false ws s))
     t.pend = s.pend ++ [⟨s.nextId, e.gid, e.team.ctx, e.team.core, .regs false ws⟩] ∧
     SameOutside { s with pend := t.pend, nextId := s.nextId + 1 } t ∧ SameOthers s t e.gid ∧
     ∃ g, groupOf t e.gid = some g ∧ AtPc g (pcAdd e.grp.pc 12) ∧ KeepsGroup { e.grp with vEmpty := g.vEmpty, sEmpty := g.sEmpty } g [] ∧
       ∀ d, IsReg d → (d.file = .s → d.num < 128) →
         g.isEmpty d = (e.grp.isEmpty d || decide (d ∈ ws.map (·.dst)))) ∧
  (∀ (e : Env) s clk (ws : List RegWrite), env? s e.gid = some e → (ws.map (·.dst)).Nodup →
     (∀ w ∈ ws, IsReg w.dst ∧ (w.dst.file = .p ∨ w.dst.file = .q) ∧ (w.val = 0 ∨ w.val = 1)) →
     WritesRegs s (conclude e clk (.done (writeLong e false ws s))) e ws) ∧
  (∀ s id p rgn ws g, s.pend? id = some p → p.kind = .regs rgn ws → groupOf s p.owner = some g →
     (∀ w ∈ ws, (w.dst.file = .v ∧ w.dst.lane < 128) ∨ (w.dst.file = .s ∧ w.dst.num < 128 ∧ w.dst.lane = 0)) →
     (ws.map (·.dst)).Nodup →
     ∃ t g', exec (.longLatencyWrite id) s = .next t ∧ t.pend = s.pend.filter (fun q => q.id ≠ id) ∧
       SameOthers s t p.owner ∧ groupOf t p.owner = some g' ∧ Holds g' ws ∧ (∀ w ∈ ws, g'.isEmpty w.dst = false) ∧
       ∀ d, IsReg d → d ∉ ws.map (·.dst) → g'.reg d = g.reg d)

/-! ## Control and traps -/

/-- O18. Transfers of control: the target of each, the link of `call`, and no change but these (R367, R368); `nop` and
`yield` only go on (R49, R337). A relative target keeps the region id of the current fetch, and its VA is the sum
modulo 2^57 (R367). `ipf` is a hint: it completes, changes no register of any group, posts nothing and counts no
schedule slip (R369). -/
def Obligations.ControlTransfers : Prop :=
  (∀ s e f,
     (Executes s e (.nop f) f → ∃ t, exec (.nop f) s = .next t ∧ MovesTo s t e (pcAdd e.grp.pc 12)) ∧
     (Executes s e (.yield f) f → ∃ t, exec (.yield f) s = .next t ∧ MovesTo s t e (pcAdd e.grp.pc 12)) ∧
     (Executes s e (.bra f) f → ∃ t, exec (.bra f) s = .next t ∧ MovesTo s t e (pcAdd e.grp.pc (12 + 12 * fOff24 f))) ∧
     (Executes s e (.jmpi f) f → ∃ t, exec (.jmpi f) s = .next t ∧ MovesTo s t e (BitVec.ofNat 64 (e.wide 0 f.s1 2))) ∧
     (Executes s e (.jmpiTab f) f → ∃ t, exec (.jmpiTab f) s = .next t ∧
       MovesTo s t e (pcAdd (pcAdd e.grp.pc (12 + 12 * fOff24 f)) (12 * e.n32 0 (.op f.s1) : Nat))) ∧
     (Executes s e (.ret f) f → ∃ t, exec (.ret f) s = .next t ∧ MovesTo s t e (BitVec.ofNat 64 (e.wide 0 f.s1 2))) ∧
     (Executes s e (.call f) f → exec (.call f) s = concluded e f
       (.goto (writeFixed e 4 3 (dstWrites f.d 2 0 (pcAdd e.grp.pc 12).toNat))
         (if fVar f = 0 then pcAdd e.grp.pc (12 + 12 * fOff24 f) else BitVec.ofNat 64 (e.wide 0 f.s1 2))))) ∧
  (∀ (pc : DWord) (n : Int), (pcAdd pc n).toNat / 2 ^ 57 = pc.toNat / 2 ^ 57 ∧
     (((pcAdd pc n).toNat % 2 ^ 57 : Nat) : Int) = (((pc.toNat % 2 ^ 57 : Nat) : Int) + n) % (2 ^ 57 : Int)) ∧
  (∀ s e f, Executes s e (.ipf f) f → ∃ s', exec (.ipf f) s = concluded e f (.done s') ∧
     SameGroups s s' ∧ s'.pend = s.pend ∧ s'.slips = s.slips ∧ s'.regx = s.regx ∧ s'.pool = s.pool)

/-- O19. Trap entry: the open region is committed; TRAPPC, TRAPADDR and TRAPINFO receive the address of the
instruction, the trap's address and its fields with INTRAP set; the group goes on at TVEC with all else as it was
(R409, R410). A trap that cannot be entered, because a handler runs or TVEC is 0 or no multiple of 4, stops the group
where it is, and posts a fatal-trap event with the fields of the trap being entered and the group's identity (R409).
The event's code and layout are the model's (log 16). `trap` raises TRAPI with DETAIL and TRAPADDR from S1; `brk`
traps BRK without DEBUG, and with DEBUG halts the group at the instruction and posts a debug event (R411 to R413). -/
def Obligations.TrapEntry : Prop :=
  (∀ s gid e (x : Trap), env? s gid = some e → e.grp.inTrap = false → e.grp.tvec ≠ 0 → e.grp.tvec.toNat % 4 = 0 →
     x.cause < 64 → x.opnd < 4 → x.detail < 256 → x.acc < 4 → x.lane < 128 →
     let t := takeTrap gid x s
     SameOutside (commitRegion gid s) t ∧ SameOthers s t gid ∧ ∃ g, groupOf t gid = some g ∧
       g = { e.grp with cond := .ready, haz := [], region := none, relMark := none, launch := none, trapPc := e.grp.pc
                        trapAddr := BitVec.ofNat 64 x.addr, trapInfo := g.trapInfo, pc := e.grp.tvec
                        faultOrd := x.ord.map fun o => (o, x.addr, x.acc, x.lane) } ∧
       g.inTrap = true ∧ g.trapInfo.toNat % 64 = x.cause ∧ g.trapInfo.toNat / 2 ^ 6 % 4 = x.opnd ∧
       g.trapInfo.toNat / 2 ^ 8 % 256 = x.detail ∧ g.trapInfo.getLsbD 17 = e.grp.region.isSome ∧
       g.trapInfo.getLsbD 18 = x.decl ∧ g.trapInfo.toNat / 2 ^ 19 % 4 = x.acc ∧
       g.trapInfo.toNat / 2 ^ 21 % 128 = x.lane ∧ g.trapInfo.toNat / 2 ^ 28 = 0) ∧
  (∀ s gid e (x : Trap), env? s gid = some e →
     (e.grp.inTrap = true ∨ e.grp.tvec = 0 ∨ e.grp.tvec.toNat % 4 ≠ 0) →
     let t := takeTrap gid x s
     ∃ g, groupOf t gid = some g ∧ g.cond = .stopped ∧ g.pc = e.grp.pc ∧ g.trapPc = e.grp.trapPc ∧ g.s = e.grp.s ∧
       g.v = e.grp.v ∧ g.p = e.grp.p ∧ g.q = e.grp.q ∧
       (t.ctx e.team.ctx).events.head? = some (1, [(x.info e.grp.region.isSome).setWidth 64, e.grp.pc,
         BitVec.ofNat 64 x.addr, BitVec.ofNat 64 gid.team, BitVec.ofNat 64 gid.group])) ∧
  (∀ s e f,
     (Executes s e (.trap f) f →
       let x := e.n32 0 (.op f.s1)
       exec (.trap f) s = concluded e f (.trap s { cause := 0x0F, detail := x % 256, addr := x })) ∧
     (Executes s e (.brk f) f → (s.ctx e.team.ctx).debug = false →
       exec (.brk f) s = concluded e f (.trap s { cause := 0x10 })) ∧
     (Executes s e (.brk f) f → (s.ctx e.team.ctx).debug = true → ∃ t g, exec (.brk f) s = .next t ∧
       groupOf t e.gid = some g ∧ g.cond = .halted false ∧ g.pc = e.grp.pc ∧
       ((t.ctx e.team.ctx).events.head?.map (·.1)) = some 2))

/-- O20. `tret` returns from a handler to TRAPPC, `tret.next` past the instruction or the rest of the repeat, with REPCTR
cleared whether or not a repeat stands, which where none does is the model's choice (log 27): INTRAP is cleared, and with RGN a region opens at the return point; outside a handler both trap PROT 0x07 (R414). `tret` from
a PAGE trap waits while its fault is unanswered, goes on once it is answered RESIDENT, and traps PAGE again with DECL
once it is declined (R406, R414). -/
def Obligations.TrapReturn : Prop :=
  ((∀ s e f (next : Bool), Executes s e (if next then .tretNext f else .tret f) f → e.grp.inTrap = true → e.grp.region = none →
     (next = true ∨ e.grp.trapInfo.toNat % 64 ≠ 4) →
     let pc := if next then pcAdd e.grp.trapPc (if e.grp.repCtr.getLsbD 6 then 24 else 12) else e.grp.trapPc
     let rep := if next then 0 else e.grp.repCtr
     ∃ t, exec (if next then .tretNext f else .tret f) s = .next t ∧ SameOutside s t ∧ SameOthers s t e.gid ∧
       groupOf t e.gid = some { e.grp with
         cond := .ready, pc := pc, haz := [], repCtr := rep, trapInfo := e.grp.trapInfo &&& 0xFFFCFFFF#32, faultOrd := none
         region := if e.grp.trapInfo.getLsbD 17 then some ⟨pc, e.grp.frames, e.grp.exited, rep, [], false⟩ else none }) ∧
   (∀ s e f (next : Bool), Executes s e (if next then .tretNext f else .tret f) f → e.grp.inTrap = false →
     exec (if next then .tretNext f else .tret f) s =
       .next (bumpFresh e (takeTrap e.gid { cause := 0x06, detail := 0x07 } s)))) ∧
  (∀ s e f ord va acc lane, Executes s e (.tret f) f → e.grp.inTrap = true → e.grp.region = none →
     e.grp.trapInfo.getLsbD 17 = false → e.grp.trapInfo.toNat % 64 = 4 → e.grp.faultOrd = some (ord, va, acc, lane) →
     let back (g : Group) : Group := { g with
       cond := .ready, pc := e.grp.trapPc, haz := [], faultOrd := none, trapInfo := g.trapInfo &&& 0xFFFCFFFF#32 }
     (faultAnswer s e.team.ctx ord = none → ∃ t, exec (.tret f) s = .next t ∧ SameOutside s t ∧
       groupOf t e.gid = some { back e.grp with cond := .wait (.fault ord va acc lane false) }) ∧
     (faultAnswer s e.team.ctx ord = some true → ∃ t, exec (.tret f) s = .next t ∧ SameOutside s t ∧
       groupOf t e.gid = some (back e.grp)) ∧
     (faultAnswer s e.team.ctx ord = some false → exec (.tret f) s = .next (bumpFresh e
       (takeTrap e.gid { cause := 0x04, addr := va, acc := acc, lane := lane, ord := some ord, decl := true }
         (modGroup e.gid back s)))))

/-- O21. Idempotent regions: `rgn.open` commits an open region and opens one at the next instruction with a snapshot
of the frames; `rgn.close` commits. A commit posts the buffered stores in program order and closes the region, whose loads
no later abort takes back (R401 to R404). A translation fault in an open region aborts it: the buffer is discarded, the frames, exited lanes and REPCTR
are the snapshot's, the region's loads are taken back with their registers full, and the group waits for the answer
(R38, R404). Outside a region it posts the fault and traps PAGE with the address, access and lane (R406); where a full queue
holds the fault back, the group first waits until it is posted (R442). -/
def Obligations.IdempotentRegions : Prop :=
  ((∀ s e f, Executes s e (.rgnOpen f) f → e.grp.region = none → ∃ t, exec (.rgnOpen f) s = .next t ∧ SameOutside s t ∧
     SameOthers s t e.gid ∧ ∃ hz, groupOf t e.gid = some { e.grp with
       cond := .ready, haz := hz, pc := pcAdd e.grp.pc 12
       region := some ⟨pcAdd e.grp.pc 12, e.grp.frames, e.grp.exited, e.grp.repCtr, [], false⟩ }) ∧
   (∀ s e f, Executes s e (.rgnOpen f) f → exec (.rgnOpen f) s = concluded e f
     (.goto ((committed e).mod (Group.openRegion (pcAdd e.grp.pc 12))) (pcAdd e.grp.pc 12))) ∧
   (∀ s e f, Executes s e (.rgnClose f) f → exec (.rgnClose f) s = concluded e f (.done (committed e).st)) ∧
   (∀ s e r, env? s e.gid = some e → e.grp.region = some r →
     let t := commitRegion e.gid s
     groupOf t e.gid = some { e.grp with region := none } ∧ SameOthers s t e.gid ∧ t.mem = s.mem ∧
     (∃ l1s : List Bool, l1s.length = r.buf.length ∧ t.pend = s.pend.map (Pend.settle e.gid) ++
       ((r.buf.zip l1s).zipIdx.map fun x =>
         ⟨s.nextId + x.2, e.gid, e.team.ctx, e.team.core, .store { x.1.1 with inL1 := x.1.2 }⟩)) ∧
     t.nextId = s.nextId + r.buf.length)) ∧
  ((∀ s e r va acc lane, env? s e.gid = some e → e.grp.region = some r → ∃ g ord,
     groupOf (takeFault e.gid va acc lane s) e.gid = some g ∧ g.cond = .wait (.fault ord va acc lane true) ∧
       g.region = some { r with buf := [] } ∧ g.frames = r.frames ∧ g.exited = r.exited ∧ g.repCtr = r.repctr ∧
       g.v = e.grp.v ∧ g.s = e.grp.s ∧
       (∀ p ∈ s.pend, p.owner = e.gid → ∀ ws, p.kind = .regs true ws →
         p ∉ (takeFault e.gid va acc lane s).pend ∧
         ∀ w ∈ ws, (w.dst.file = .v ∧ w.dst.lane < 128) ∨ (w.dst.file = .s ∧ w.dst.num < 128) →
           g.isEmpty w.dst = false)) ∧
   (∀ s e va acc lane s1 ord, env? s e.gid = some e → e.grp.region = none →
     postFault e.team.ctx va acc (agentOf e.team.core 0) s = (s1, ord) →
     (faultPosted s1 e.team.ctx ord = true → e.grp.inTrap = false → e.grp.tvec ≠ 0 → e.grp.tvec.toNat % 4 = 0 →
       acc < 4 → lane < 128 → ∃ g, groupOf (takeFault e.gid va acc lane s) e.gid = some g ∧
         g.pc = e.grp.tvec ∧ g.trapPc = e.grp.pc ∧
         g.trapAddr = BitVec.ofNat 64 va ∧ g.trapInfo.toNat % 64 = 4 ∧ g.trapInfo.toNat / 2 ^ 19 % 4 = acc ∧
         g.trapInfo.toNat / 2 ^ 21 % 128 = lane ∧ g.faultOrd = some (ord, va, acc, lane)) ∧
     (faultPosted s1 e.team.ctx ord = false → ∃ g, groupOf (takeFault e.gid va acc lane s) e.gid = some g ∧
       g.cond = .wait (.posting ord va acc lane) ∧ g.pc = e.grp.pc)))

/-! ## Local memory -/

/-- O22. A local address that resolves lies in the scratchpad or ring window of a team of the cluster: no access
leaves the windows (R118, R123, R124). A pool reads what was written last, and a write changes no other byte of any
pool (R116, R121). -/
def Obligations.LocalWindows : Prop :=
  (∀ s t a size align k core, localLook s t a size align = .ok (k, core) →
     ∃ u ring, clusterTeam s t core = some u ∧ ring = (a / 2 ^ 30 % 4 == 1) ∧
       windowKey s u ring ≤ k ∧ k + size ≤ windowKey s u ring + t.window ring ∧ a % 2 ^ 21 % align = 0 ∧
       k = windowKey s u ring + a % 2 ^ 21) ∧
  ((∀ s k bs, (∀ w, k / 8 ≤ w → 8 * w < k + bs.length → Assoc.get? s.poolErr w = none) →
     poolBytes (poolWrite s k bs) k bs.length = bs) ∧
   ∀ s k bs a, ¬ (k ≤ a ∧ a < k + bs.length) → Assoc.rd 0 (poolWrite s k bs).pool a = Assoc.rd 0 s.pool a)

/-- O23. `ldl`, `stl` and `atoml`: every lane's address is resolved first, and the first that fails traps; a load
posts the window's bytes, extended as SX says, and that it reads them as it issues, and an own-core store is performed then,
is the model's choice (log 2); a store writes its lanes in ascending order, at once on its own core
and posted to another, and waits where an earlier `gath.list` of the group is still to write its bytes; an atomic gives each
lane what it found (R131 to R138). Each lane of an `atoml` finds what the
lane before it left, returns that, and leaves the operation's result (R137, R138); a pool word with an error is
outside this statement. -/
def Obligations.LocalAccesses : Prop :=
  ((∀ s e f, Executes s e (.ldl f) f →
     let n := szBytes f
     let look := resolveLocal e (e.localAddr f (fDisp10 f * n)) n n 0 (e.memLanes f)
     (∀ r, look = .error r → exec (.ldl f) s = concluded e f r) ∧
     ∀ xs, look = .ok xs → (∀ x ∈ xs, localBlocked e x.2.2.1 n = false) → laneBad s n xs = none →
       exec (.ldl f) s = concluded e f (.done (acquired e (fOrd f) (fScope f) (writeLong e false
         (xs.flatMap fun x => dstWrites f.d (szRegs (fSz f)) x.1 (loadExt f (poolNat s x.2.2.1 n))) (poolTouch s n xs))))) ∧
   (∀ s e f e', Executes s e (.stl f) f → released e (fOrd f) (fScope f) = some e' →
     let n := szBytes f
     let look := resolveLocal e' (e'.localAddr f (fDisp10 f * n)) n n 1 (e'.memLanes f)
     (∀ r, look = .error r → exec (.stl f) s = concluded e f r) ∧
     ∀ xs, look = .ok xs →
       ((∀ x ∈ xs, localHeld e' x.2.2.1 n = false) → exec (.stl f) s = concluded e f (.done (xs.foldl (fun t x =>
         if x.2.2.2 = e.core then ringKick e' x.2.2.1 n (poolWrite t x.2.2.1 (e'.storeBytes f x.1))
         else post e.gid e.team.ctx e.core (.rstl x.2.2.1 (e'.storeBytes f x.1)) t) e'.st))) ∧
       ((∃ x ∈ xs, localHeld e' x.2.2.1 n = true) → fOrd f ≠ 2 → fOrd f ≠ 3 →
         exec (.stl f) s = concluded e f (.wait s .retry))) ∧
   (∀ s e f e', Executes s e (.atoml f) f → released (committed e) (fOrd f) (fScope f) = some e' →
     let n := szBytes f
     ∀ xs, resolveLocal e' (e'.localAddr f (fDisp6 f * n)) n n 2 (e'.memLanes f) = .ok xs →
       (∀ x ∈ xs, localBlocked e' x.2.2.1 n = false ∧ localHeld e' x.2.2.1 n = false) → laneBad e'.st n xs = none →
       let r := atomlLanes f e' (poolTouch e'.st n xs) xs
       exec (.atoml f) s = concluded e f (.done (acquired e' (fOrd f) (fScope f) (writeLong e' false r.2 r.1))))) ∧
  (∀ f e s l a k c xs, s.poolErr = [] →
     let n := szBytes f
     let old := poolNat s k n
     let new := atomNew (fAop f) (8 * n) e.grp.rmode.toNat old (e.atomOperand f l).1 (e.atomOperand f l).2
     let t := ringKick e k n (poolWrite s k (toBytes n new))
     poolBytes t k n = toBytes n new ∧
     (atomlLanes f e s ((l, a, k, c) :: xs)).1 = (atomlLanes f e t xs).1 ∧
     (atomlLanes f e s ((l, a, k, c) :: xs)).2 = dstWrites f.d (szRegs (fSz f)) l old ++ (atomlLanes f e t xs).2)

/-! ## Global memory -/

/-- O24. `bset` fills its base register: the pointer, BOUND from the region's bounds, and, where the page can be read,
the frame, node, attribute and permissions of the run of contiguous pages; where it cannot, a run of 0 (R126, R127).
An access that translates under a region id other than 0 lies inside the region's bounds, whose entry is valid and
grants the access (R393, R394). -/
def Obligations.BaseRegistersAndBounds : Prop :=
  (∀ s e f, Executes s e (.bset f) f →
     let ptr := ofSigned 64 ((e.wide 0 f.s1 2 : Nat) + e.offset 0 f.s2 + fDisp10 f)
     let c := e.team.ctx
     let va := ptr % 2 ^ 57
     let bound := baseBound s c (ptr / 2 ^ 57) va
     (ptr / 2 ^ 57 ≠ 0 → boundsHeld s c (ptr / 2 ^ 57) = false) →
     let put (t : Machine.State) (b : BaseRec) : Out :=
       concluded e f (.done (modGroup e.gid (fun g => { g with b := Assoc.wr .empty g.b (opNum f.d) b }) t))
     (∀ t, basePage bound.1 c (ptr / 2 ^ 57) va = (t, some none) →
       exec (.bset f) s = put t ⟨true, BitVec.ofNat 64 ptr, 0, 0, BitVec.ofNat 58 bound.2, 0, false, 0, 0⟩) ∧
     (∀ t a p l t' run dw, basePage bound.1 c (ptr / 2 ^ 57) va = (t, some (some (a, p, l))) →
       runFrom c (ptr / 2 ^ 57) va (pageAttrs p l va).1 (pageAttrs p l va).2.1 (pageAttrs p l va).2.2.1
         (min (2 ^ 21) (min bound.2 (2 ^ 57 - va))) 514 t 0 true = (t', some (run, dw)) →
       exec (.bset f) s = put t' ⟨true, BitVec.ofNat 64 ptr, BitVec.ofNat 48 (pageAttrs p l va).1, BitVec.ofNat 22 run,
         BitVec.ofNat 58 bound.2, BitVec.ofNat 3 (pageAttrs p l va).2.1, dw, BitVec.ofNat 8 ((pageAttrs p l va).1 / 2 ^ 48),
         BitVec.ofNat 2 (pageAttrs p l va).2.2.1⟩)) ∧
  (∀ s c rid va size a t loc ca, rid ≠ 0 → translate s c rid va size a = (t, .ok loc ca) →
     ∃ x, x = (boundsEntry s c rid).2 ∧ x.testBit 124 = true ∧ x % 2 ^ 57 ≤ va ∧
       va + size ≤ x % 2 ^ 57 + x / 2 ^ 64 % 2 ^ 57 ∧
       (a.reads = true → x.testBit 121 = true) ∧ (a.writes = true → x.testBit 122 = true) ∧
       (a = .fetch → x.testBit 123 = true))

/-- O25. The home reads what was accepted there last: a write within a sector that holds no poison is read back, and
no write changes any other byte (R97, R99). -/
def Obligations.HomeReadsWhatWasWritten : Prop :=
  (∀ s loc bs, bs ≠ [] → loc % 64 + bs.length ≤ 64 → inMgmt loc = false → (homeRead s loc bs.length).2.2 = false →
    (homeRead (homeWrite s loc bs) loc bs.length).2 = (bs, false)) ∧
  ∀ s loc bs a, ¬ (loc ≤ a ∧ a < loc + bs.length) →
    (homeRead (homeWrite s loc bs) a 1).2.1 = (homeRead s a 1).2.1

/-- O26. `ldg` and `ldc`: every lane is checked in ascending order before any access; the loaded bytes, under the open
region's stores, are posted to D, and the hint sets the lines' priorities (R109); that memory is read as the instruction
issues is the model's choice (log 2); `.acq` commits the region and acquires; `ldc` reads the argument block and traps
BOUNDS 0x05 outside it (R131 to R136, R450). -/
def Obligations.GlobalLoads : Prop :=
  (∀ s e f, Executes s e (.ldg f) f →
    let e1 := if fOrd f = 1 then committed e else e
    let n := szBytes f
    let look := resolveGlobal e1 (e1.gbase f.s1) (e1.globalDisp f) n n .read allowAll e1.st (e1.memLanes f)
    (∀ t x, look = .error (.trap t x) → exec (.ldg f) s = concluded e f (.trap t x)) ∧
    (∀ t va acc l, look = .error (.fault t va acc l) → exec (.ldg f) s = concluded e f (.fault t va acc l)) ∧
    ∀ s1 xs s2 ws, look = .ok (s1, xs) →
      (∀ x ∈ xs, loadWaits e1 s1 f.ch.toNat x n = false ∧ listBlocks e1 s1 false x.loc n = false) →
      loadLanes e1 f f.ch.toNat s1 xs = (s2, .ok ws) →
      let t := writeLong e1 e1.grp.region.isSome ws (afterLoad e.core f.ch.toNat s1 (xs.map fun x => (x, n)) s2)
      exec (.ldg f) s = concluded e f (.done (if fOrd f = 1 then acquire e.core (fScope f) t else t))) ∧
  (∀ s e f, Executes s e (.ldc f) f →
    let n := szBytes f
    (∀ l ls, e.memLanes f = l :: ls → (e.globalDisp f l < 0 ∨ (e.team.argSize : Int) < e.globalDisp f l + n) →
      exec (.ldc f) s = concluded e f
        (.trap s { cause := 0x05, detail := 0x05, addr := ofSigned 64 (e.globalDisp f l), lane := l })) ∧
    ∀ s1 xs s2 ws, resolveArgs e f s (e.memLanes f) = .ok (s1, xs) →
      (∀ x ∈ xs, loadWaits e s1 2 x n = false ∧ listBlocks e s1 false x.loc n = false) →
      loadLanes e f 2 s1 xs = (s2, .ok ws) →
      exec (.ldc f) s = concluded e f (.done (writeLong e e.grp.region.isSome ws
        (afterLoad e.core 2 s1 (xs.map fun x => (x, n)) s2))))

/-- O27. `stg` and its store on its way: outside a region each lane's store is issued, updating or dropping the core's
L1 copy, and posted; inside a region it is buffered, and a region of more than 48 lines traps; a posted store is
accepted at its cache level when the operations it must follow are gone, and at its home once nothing holds its line, a
host that holds it being asked (R106, R109, R131, R379, R403, R443). -/
def Obligations.GlobalStores : Prop :=
  (∀ s e f, Executes s e (.stg f) f → fOrd f ≠ 2 →
    let n := szBytes f
    let look := resolveGlobal e (e.gbase f.s1) (e.globalDisp f) n n .write allowAll s (e.memLanes f)
    let store (x : LaneAcc) : Store :=
      ⟨x.loc, x.va, BitVec.ofNat 2 x.ca, if x.ca = 0 then f.ch else 0, false, false, toBytes n (e.wide x.lane f.s3 (szRegs (fSz f)))⟩
    (∀ r, look = .error r → exec (.stg f) s = concluded e f r) ∧
    ∀ s1 xs, look = .ok (s1, xs) → (∀ x ∈ xs, listBlocks e s1 true x.loc n = false) →
      (e.grp.region = none → exec (.stg f) s = concluded e f
        (.done (xs.foldl (fun t x => issueStore e.gid e.team.ctx e.core (store x) t) s1))) ∧
      (∀ r, e.grp.region = some r → (storeLines (r.buf ++ xs.map store)).length ≤ 48 →
        exec (.stg f) s = concluded e f
          (.done (modGroup e.gid (fun g => { g with region := some { r with buf := r.buf ++ xs.map store } }) s1))) ∧
      (∀ r, e.grp.region = some r → 48 < (storeLines (r.buf ++ xs.map store)).length →
        let l := ((overflowing r.buf (xs.map store) xs).map (·.lane)).getD 0
        exec (.stg f) s = concluded e f (.trap s1 { cause := 0x11, lane := l, acc := 1 }))) ∧
  (∀ s e f e', Executes s e (.stg f) f → fOrd f = 2 → released (committed e) 2 (fScope f) = some e' →
    ∀ s1 xs, resolveGlobal e' (e'.gbase f.s1) (e'.globalDisp f) (szBytes f) (szBytes f) .write allowAll e'.st
        (e'.memLanes f) = .ok (s1, xs) → (∀ x ∈ xs, listBlocks e' s1 true x.loc (szBytes f) = false) →
      exec (.stg f) s = concluded e f (putStores e' (xs.map fun x => ⟨x.loc, x.va, BitVec.ofNat 2 x.ca,
        if x.ca = 0 then f.ch else 0, false, false, e'.storeBytes f x.lane⟩) xs s1)) ∧
  (∀ s id p st, s.pend? id = some p → p.kind = .store st →
    (st.scat = true → mustWait s p.owner (some id) st.loc st.data.length = false) → storeAfter s p st = false →
    ((st.toRdc (coreDie p.core) = true ∨ lineHeld s st.loc st.data.length = false) →
      exec (.storeCacheLevelAccept id) s = .next (acceptAt p st (unpost id s))) ∧
    (st.toRdc (coreDie p.core) = false → lineHeld s st.loc st.data.length = true →
      exec (.storeCacheLevelAccept id) s = .next (biSend s st.loc st.data.length true)))

/-- O28. `pfg` is a hint: it completes, changes no register and posts nothing. `wbr` sends the range's dirty bytes of
the die's RDC to their homes and posts the homes' lines to media; `invr` sends them home as `wbr` does and drops the range from L1
and the RDC, all else left as it was, `invr.l1` from L1 alone (R111 to R115). Fences commit the open region, release, then acquire; a release
completes only when no posted operation it waits for is left and, at device scope and wider, leaves no dirty byte in
the die's RDC; an acquire drops L1 and the clean RDC bytes (R104, R108, R382, R383, R390 to R392). -/
def Obligations.RangesAndFences : Prop :=
  ((∀ s e f, Executes s e (.pfg f) f → ∃ s', exec (.pfg f) s = concluded e f (.done s') ∧
     SameGroups s s' ∧ s'.pend = s.pend ∧ s'.pool = s.pool) ∧
   (∀ s e f s1 ps, Executes s e (.wbr f) f → laneRanges f e = .ok (s1, ps) →
     (∀ p ∈ s1.pend, p.owner = e.gid → ∀ st, p.kind ≠ .store st) →
     (∀ l ∈ dirtyIn s1 e.die ps, lineHeld s1 (128 * l) 128 = false) →
     exec (.wbr f) s = concluded e f (.done (ps.foldl (fun t x =>
       if isDev x.1 then post e.gid e.team.ctx e.core (.media x.1 x.2) t else t)
         ((dirtyIn s1 e.die ps).foldl (fun t l => rdcWriteBack t e.die l) s1)))) ∧
   (∀ s e f s1 ps, Executes s e (.invrL1 f) f → laneRanges f e = .ok (s1, ps) →
     ∃ t, exec (.invrL1 f) s = concluded e f (.done t) ∧ t = { s1 with l1 := t.l1 } ∧
       (∀ line, inPieces ps line = true → line < 2 ^ 64 → l1Get t e.core line = none) ∧
       ∀ c line, line < 2 ^ 64 → (c ≠ e.core ∨ inPieces ps line = false) → l1Get t c line = l1Get s1 c line) ∧
   (∀ s e f s1 ps, Executes s e (.invr f) f → laneRanges f e = .ok (s1, ps) →
     (∀ l ∈ dirtyIn s1 e.die ps, lineHeld s1 (128 * l) 128 = false) →
     let u := (dirtyIn s1 e.die ps).foldl (fun t l => rdcWriteBack t e.die l) s1
     ∃ t, exec (.invr f) s = concluded e f (.done t) ∧ t = { u with l1 := t.l1, rdc := t.rdc } ∧
       (∀ line, inPieces ps line = true → line < 2 ^ 64 →
         l1Get t e.core line = none ∧ Assoc.get? t.rdc (key2 e.die line) = none) ∧
       (∀ c line, line < 2 ^ 64 → (c ≠ e.core ∨ inPieces ps line = false) → l1Get t c line = l1Get s1 c line) ∧
       ∀ d line, line < 2 ^ 64 → (d ≠ e.die ∨ inPieces ps line = false) →
         Assoc.get? t.rdc (key2 d line) = Assoc.get? u.rdc (key2 d line))) ∧
  ((∀ s e f, Executes s e (.fenceAcq f) f →
     exec (.fenceAcq f) s = concluded e f (.done (acquire e.core (fScope f) (committed e).st))) ∧
   (∀ s e f s1, Executes s e (.fenceRel f) f → release (committed e) (fScope f) = some s1 →
     exec (.fenceRel f) s = concluded e f (.done s1)) ∧
   (∀ s e f s1, Executes s e (.fenceAr f) f → release (committed e) (fScope f) = some s1 →
     exec (.fenceAr f) s = concluded e f (.done (acquire e.core (fScope f) s1))) ∧
   (∀ s e f s1, Executes s e (.fenceMs f) f → release (committed e) (fScope f) = some s1 →
     msWaits ((committed e).at s1) (fScope f) = false →
     exec (.fenceMs f) s = concluded e f (.done (acquire e.core (fScope f) s1))) ∧
   (∀ s e f, Executes s e (.ifence f) f → ∃ t, exec (.ifence f) s = concluded e f (.done t) ∧
     (groupOf t e.gid).map (·.ahead) = some [] ∧ ∀ line < 2 ^ 64, Assoc.get? t.icache (key2 (quadOf e.core) line) = none) ∧
   (∀ (e : Env) sc t, release e sc = some t →
     (∀ p ∈ t.pend, holdsRelease e.gid e.core sc (e.grp.relMark.getD e.st.nextId) p = false) ∧
     (5 ≤ sc → ∀ line < 2 ^ 64, (rdcGet t e.die line).dirty = 0)) ∧
   (∀ core sc (s : Machine.State) line, line < 2 ^ 64 → Assoc.sorted s.rdc = true →
     (3 ≤ sc → l1Get (acquire core sc s) core line = none) ∧
     (5 ≤ sc → (rdcGet (acquire core sc s) (coreDie core) line).valid = (rdcGet s (coreDie core) line).dirty)))

/-! ## Slices and media -/

/-- O29. `atomg`, and the lane forms of `gath` and `scat`: every lane is checked before the commit and the release; the
operation is sent once the group's earlier stores have reached their cache level and the issuing die's RDC has given up
the lines it writes, which the core's L1 drops. Without a destination or an acquire the requests, one per distinct
address with its lanes in ascending order, are posted; with one they are performed at the home before the group goes
on, in the same step (the model's choice, log 2); `gath` reads the home as it issues (log 2), and `scat` posts stores
that the home performs (R260 to R274). -/
def Obligations.SliceLaneForms : Prop :=
  (∀ s e f s1 xs e', Executes s e (.atomg f) f → atomgCheck f e = .ok (s1, xs) →
    released (committed (e.at s1)) (fOrd f) (fScope f) = some e' →
    let n := szBytes f
    atomgsOut e'.st e.core < 64 → mustWait e'.st e.gid none 0 0 = false →
    (∀ x ∈ xs, listBlocks e' e'.st true x.loc n = false) → giveUpHeld e'.st e.die (sendList n true xs) = false →
      let reqs := (byAddress xs).map fun y => (mkRequest f e' y.1 y.2.1 y.2.2, y.2.2)
      let sent := sendSteps e.die e.core true (sendList n true xs) e'.st
      (f.d = .none → fOrd f ≠ 1 → fOrd f ≠ 3 →
        exec (.atomg f) s = concluded e f (.done (reqs.foldl (fun t r =>
          post e.gid e.team.ctx e.core (.atom r.1) t) sent))) ∧
      (f.d ≠ .none ∨ fOrd f = 1 ∨ fOrd f = 3 →
        (∀ x ∈ xs, mustWait e'.st e.gid none x.loc n = false ∧ lineHeld e'.st x.loc n = false) →
        ∀ s2 ws, performNow f e.die sent reqs = (s2, ws, []) →
        exec (.atomg f) s = concluded e f (.done (acquired e' (fOrd f) (fScope f) (writeLong e' false ws s2))))) ∧
  (∀ s e f, Executes s e (.gath f) f →
    let e1 := if fOrd f = 1 then committed e else e
    let n := szBytes f
    ∀ s1 xs s2 ws, resolveGlobal e1 (e1.gbase f.s1) (e1.element f) n n .read allowAll e1.st (e1.memLanes f) = .ok (s1, xs) →
      (∀ x ∈ xs, mustWait s1 e.gid none x.loc n = false ∧ lineHeld s1 x.loc n = false ∧
        listBlocks e1 s1 false x.loc n = false) → gathLanes f e1 s1 xs = (s2, .ok ws) →
      let t := writeLong e1 e1.grp.region.isSome ws s2
      exec (.gath f) s = concluded e f (.done (if fOrd f = 1 then acquire e.core (fScope f) t else t))) ∧
  (∀ s e f e', Executes s e (.scat f) f → (if fOrd f = 2 then released (committed e) 2 (fScope f) else some e) = some e' →
    let n := szBytes f
    ∀ s1 xs, resolveGlobal e' (e'.gbase f.s1) (e'.element f) n n .write allowAll e'.st (e'.memLanes f) = .ok (s1, xs) →
      (∀ x ∈ xs, listBlocks e' s1 true x.loc n = false) → e'.grp.region = none →
      mustWait s1 e.gid none 0 0 = false → giveUpHeld s1 e.die (sendList n false xs) = false →
      exec (.scat f) s = concluded e f (.done (xs.foldl (fun t x => issueStore e.gid e.team.ctx e.core
        ⟨x.loc, x.va, BitVec.ofNat 2 x.ca, 0, true, false, e'.storeBytes f x.lane⟩ t)
        (sendSteps e.die e.core false (sendList n false xs) s1))))

/-- O30. A posted atomic request is applied at its home once the operations it must follow are gone: its lanes chain
in ascending order, each seeing what the one before it left, a poisoned sector discards it with an event; a `bf16x2`
request is applied in two halves, and leaves when both are done; a counter's training is applied the same way (R260,
R266, R269, R272, R373). The list forms post one operation with D empty when their lists lie in scratchpad and the
base may be used, more than 4,096 elements trap BOUNDS, and an empty list completes at once; a list's target lines
leave the RDC and the L1 before it is sent. Each element is moved in ascending order of its index in the list (the
model's choice, log 2) after what it must follow, its local bytes corrected as they are read, a skipped index moves nothing, a fault suspends the operation until it
is answered, and the last element writes the status and fills D (R260, R261, R275 to R277). -/
def Obligations.SliceRequestsAndLists : Prop :=
  ((∀ s id half p r, s.pend? id = some p → p.kind = .atom r → r.aop ≠ 11 →
     mustWait s p.owner (some id) r.loc (if r.wide then 8 else 4) = false → lineHeld s r.loc 4 = false →
     exec (.sliceAtomicApply id half) s = .next (unpost id (atomPerform s (coreDie p.core) r).1)) ∧
   (∀ s die r n old z olds t, r.aop ≠ 11 → n = (if r.wide then 8 else 4) → atomRead s die r n = (t, old, false) →
     atomChain r.aop (8 * n) r.rmode.toNat old r.ops = (olds, z) →
     atomPerform s die r = (atomWrite t die r r.loc (toBytes n z), olds, false)) ∧
   (∀ s die r t old, r.aop ≠ 11 → atomRead s die r (if r.wide then 8 else 4) = (t, old, true) →
     atomPerform s die r = (logDiscard t r.loc, r.ops.map fun _ => old, true)) ∧
   (∀ aop w rm old (o : AtomOp) os, atomChain aop w rm old (o :: os) =
     (old :: (atomChain aop w rm (atomStep aop w rm old o) os).1, (atomChain aop w rm (atomStep aop w rm old o) os).2)) ∧
   (∀ s id half p r t old bad, s.pend? id = some p → p.kind = .atom r → r.aop = 11 → r.wide = false →
     mustWait s p.owner (some id) r.loc 4 = false → lineHeld s r.loc 4 = false →
     let hi := half % 2 == 1
     (if hi then r.hi else r.lo) = false → (if hi then r.lo else r.hi) = true →
     halfPerform s (coreDie p.core) r hi = (t, old, bad) →
     exec (.sliceAtomicApply id half) s = .next (unpost id t)) ∧
   (∀ s id half p loc ctr m decay, s.pend? id = some p → p.kind = .train loc ctr m decay →
     mustWait s p.owner (some id) loc 8 = false → lineHeld s loc 8 = false →
     exec (.sliceAtomicApply id half) s = .next (unpost id (trainStep s (coreDie p.core) loc ctr m decay)))) ∧
  ((∀ s e f (gather : Bool), Executes s e (if gather then .gathList f else .scatList f) f →
     let i : Instr := if gather then .gathList f else .scatList f
     let e1 := committed e
     let count := e1.n32 0 (.op (match f.s3 with | .s k => .s (k + 1) | o => o))
     let data := e1.n32 0 (.op f.s3)
     let list := e1.n32 0 (.op f.s2)
     let n := szBytes f
     let b := e1.gbase f.s1
     (4096 < count → exec i s = concluded e f (.trap e1.st { cause := 0x05, detail := 0x04, addr := count })) ∧
     ∀ x y, count ≤ 4096 → scratchLook e1.st e1.team list (4 * count) 4 = .ok x →
       scratchLook e1.st e1.team data (count * n) n = .ok y →
       (∀ r, b = .rec_ r → r.valid = true) → b.va (fDisp6 f * n) % n = 0 →
       (count = 0 → exec i s = concluded e f (.done (writeLong e1 false [⟨⟨.s, opNum f.d, 0⟩, 0⟩] e1.st))) ∧
       (0 < count → (e1.st.pend.countP fun p => match p.kind with | .garnet _ => p.core == e1.core | _ => false) < 16 →
         mustWait e1.st e1.gid none 0 0 = false → ∃ bnd,
         (b.pointer / 2 ^ 57 = 0 → bnd = none) ∧
         let g : Garnet := ⟨gather, list, data, count, n, BitVec.ofNat 64 b.pointer, bnd, fDisp6 f, opNum f.d, 0, none⟩
         let aims := (listTargets e1.st ⟨e1.st.nextId, e1.gid, e1.team.ctx, e1.core, .garnet g⟩ g).map fun x => (x.1, n, x.2)
         (giveUpHeld e1.st e1.die aims = false →
           exec i s = concluded e f (.done (post e1.gid e1.team.ctx e1.core (.garnet g)
             (modGroup e1.gid (Group.mark true ⟨.s, opNum f.d, 0⟩) (sendSteps e1.die e1.core (!gather) aims e1.st))))))) ∧
   (∀ s id p g t ik ic dk dc, s.pend? id = some p → p.kind = .garnet g → s.team? p.owner.team = some t → g.susp = none →
     localLook s t (g.list + 4 * g.done) 4 4 = .ok (ik, ic) →
     localLook s t (g.data + g.size * g.done) g.size g.size = .ok (dk, dc) →
     let waits := garnetWaits s p ik 4 || garnetWaits s p dk g.size
     let x := poolNat s ik 4
     let u := poolFix s ik 4
     let d : Int := ((x : Int) + g.disp) * g.size
     (waits = true → exec (.garnetElement id) s = .next s) ∧
     (waits = false → poolBad s ik 4 = none → x = 0xFFFFFFFF → exec (.garnetElement id) s = .next (garnetNext p g u)) ∧
     (waits = false → poolBad s ik 4 = none → x ≠ 0xFFFFFFFF → g.gather = true → g.bnd = none →
       ∀ s1 loc ca s2 bs, translatePtr u p.ctx g.base.toNat d g.size 1 .read = (s1, .ok loc ca) →
         mustWait s1 p.owner (some id) loc g.size = false → listBefore s1 p.owner (some id) false loc g.size = false →
         lineHeld s1 loc g.size = false → sliceRead s1 (coreDie p.core) loc g.size ca = (s2, bs, false) →
         (g.size < 8 → poolBad s2 dk g.size = none) →
         exec (.garnetElement id) s = .next (garnetNext p g (poolWrite s2 dk bs))) ∧
     (waits = false → poolBad s ik 4 = none → x ≠ 0xFFFFFFFF → g.gather = false → g.bnd = none →
       ∀ s1 loc ca, translatePtr u p.ctx g.base.toNat d g.size 1 .write = (s1, .ok loc ca) →
         mustWait s1 p.owner (some id) loc g.size = false → listBefore s1 p.owner (some id) true loc g.size = false →
         lineHeld s1 loc g.size = false → poolBad s1 dk g.size = none →
         let z := l1DropRange p.core loc g.size (poolFix s1 dk g.size)
         let bs := poolBytes s1 dk g.size
         (inMgmt loc = true → exec (.garnetElement id) s = .next (garnetNext p g (spaceWrite z loc bs))) ∧
         (∀ s2 old, inMgmt loc = false → sliceRead z (coreDie p.core) loc g.size ca = (s2, old, false) →
           exec (.garnetElement id) s = .next (garnetNext p g (spaceWrite s2 loc bs))))) ∧
   (∀ (p : Pend) (g : Garnet) (s : Machine.State),
     (g.done + 1 ≠ g.count → garnetNext p g s = setPend p.id (.garnet { g with done := g.done + 1 }) s) ∧
     (g.done + 1 = g.count → garnetNext p g s =
       fillRegs p.owner [⟨⟨.s, g.dst, 0⟩, BitVec.ofNat 32 ((g.done + 1) % 2 ^ 13)⟩] (unpost p.id s))) ∧
   (∀ s id p g ord, s.pend? id = some p → p.kind = .garnet g → g.susp = some ord →
     (faultAnswer s p.ctx ord = some true →
       exec (.garnetSuspendResume id) s = .next (setPend id (.garnet { g with susp := none }) s)) ∧
     (faultAnswer s p.ctx ord = some false → exec (.garnetSuspendResume id) s = .next (garnetEnd p g 1 s)) ∧
     (faultAnswer s p.ctx ord = none → exec (.garnetSuspendResume id) s = .next s)))

/-- O31. A remote store reaches its pool after the group's earlier stores to its bytes; fills, evictions and
write-backs happen by themselves and change no byte that a read of the home gives. A fill of an L2 sector, of an RDC line
or of an L1 line, the last two only of a page marked cached, copies the bytes that a read of the home gives, except that
an RDC keeps its own dirty bytes and L1 reads a remote line through the RDC; an eviction first writes the dirty sectors
to media and spares a kept line while another way of its set is left; after an RDC write-back the line is clean and the
home reads its dirty bytes, or poison where its sector is poisoned (R88, R99, R101, R102, R105, R109, R135). The base-die
controllers: an accepted media write puts the dirty sectors of the lines of its range into media, cleans them, and leaves;
a scrub of a backed sector corrects and counts single errors, poisons double ones and logs both, a pass beginning with
the counts of its stack at 0; a row with four corrected errors in a pass, or with an uncorrectable one, is spared, its
sectors read, corrected and written, and logged; a channel whose corrected errors reach CHTHR is spared where its memory
die has its spare one left; what the records' data fields hold is the model's choice (log 29) (R86, R89 to R93, R114). -/
def Obligations.CachesAndControllers : Prop :=
  ((∀ s id p k d, s.pend? id = some p → p.kind = .rstl k d →
     (∀ q ∈ s.pend, q.id < p.id → q.owner = p.owner → ∀ a b, q.kind = .rstl a b → overlap a b.length k d.length = false) →
     exec (.remoteStlPerformed id) s = .next (unpost id (poolWrite s k d))) ∧
   (∀ s loc, isDev loc = true → peridotHolds s (loc / 128) = false → ∃ t, exec (.l2Fill loc) s = .next t ∧
     (l2Get t (loc / 128)).valid.getLsbD (loc % 128 / 64) = true ∧
     lineBytes (l2Get t (loc / 128)).data (64 * (loc % 128 / 64)) 64 = (homeRead s (loc / 64 * 64) 64).2.1 ∧
     ∀ a, (homeRead t a 1).2.1 = (homeRead s a 1).2.1) ∧
   (∀ s loc, isDev loc = true → (Assoc.get? s.l2 (loc / 128)).isSome = true →
     (mayEvict s .l2 (loc / 128) = false → exec (.l2Eviction loc) s = .next s) ∧
     (mayEvict s .l2 (loc / 128) = true → ∃ t, exec (.l2Eviction loc) s = .next t ∧ Assoc.get? t.l2 (loc / 128) = none ∧
       (∀ sec < 2, (l2Get s (loc / 128)).dirty.getLsbD sec = true →
         memBytes t.mem (loc / 128 * 128 + 64 * sec) 64 = lineBytes (l2Get s (loc / 128)).data (64 * sec) 64) ∧
       ((∀ sec < 2, (l2Get s (loc / 128)).valid.getLsbD sec = true → (l2Get s (loc / 128)).dirty.getLsbD sec = false →
           lineBytes (l2Get s (loc / 128)).data (64 * sec) 64 = memBytes s.mem (loc / 128 * 128 + 64 * sec) 64) →
         (∀ sec < 2, (l2Get s (loc / 128)).dirty.getLsbD sec = true → (l2Get s (loc / 128)).valid.getLsbD sec = true) →
         ∀ a, (homeRead t a 1).2.1 = (homeRead s a 1).2.1))) ∧
   (∀ s die loc, lineHeld s loc 1 = false → inMgmt loc = false → isRemote die loc = true →
     let r := rdcGet s die (loc / 128)
     let u := hostShare s die (loc / 128 * 128)
     (cachedPage s loc = false → exec (.rdcFill die loc) s = .next s) ∧
     (cachedPage s loc = true → r.valid = BitVec.allOnes 128 → exec (.rdcFill die loc) s = .next s) ∧
     (cachedPage s loc = true → r.valid ≠ BitVec.allOnes 128 → ∃ t, exec (.rdcFill die loc) s = .next t ∧
       (rdcGet t die (loc / 128)).valid = BitVec.allOnes 128 ∧ (rdcGet t die (loc / 128)).dirty = r.dirty ∧
       (∀ i < 128, [lineByte (rdcGet t die (loc / 128)).data i] =
         if r.dirty.getLsbD i = true then [lineByte r.data i] else (homeRead u (loc / 128 * 128 + i) 1).2.1) ∧
       ∀ a, (homeRead t a 1).2.1 = (homeRead u a 1).2.1)) ∧
   (∀ s die loc, lineHeld s loc 1 = false → inMgmt loc = false → ∃ t, exec (.rdcWriteback die loc) s = .next t ∧
     let r := rdcGet s die (loc / 128)
     let z := rdcGet t die (loc / 128)
     z.dirty = 0 ∧ z.valid = r.valid ∧ (r.valid ≠ 0 → z.data = r.data) ∧
     ∀ i < 128,
       (r.dirty.getLsbD i = true → r.poison.getLsbD (i / 64) = false →
         ((homeRead s (loc / 128 * 128 + i) 1).2.2 = false ∨ r.whole.getLsbD (i / 64) = true) →
         (homeRead t (loc / 128 * 128 + i) 1).2.1 = [lineByte r.data i]) ∧
       (r.dirty.getLsbD i = true → r.poison.getLsbD (i / 64) = true → (homeRead t (loc / 128 * 128 + i) 1).2.2 = true) ∧
       (r.dirty.getLsbD i = false → r.whole.getLsbD (i / 64) = false →
         (homeRead t (loc / 128 * 128 + i) 1).2.1 = (homeRead s (loc / 128 * 128 + i) 1).2.1)) ∧
   (∀ s core loc, lineHeld s loc 1 = false → inMgmt loc = false → l1Locked s core (loc / 128) = false →
     (∀ p ∈ s.pend, p.core = core → ∀ a m, p.span = some (a, m) → overlap a m (128 * (loc / 128)) 128 = false) →
     let r := rdcGet s (coreDie core) (loc / 128)
     let u := hostShare s (if isRemote (coreDie core) loc = true then coreDie core else 4) (loc / 128 * 128)
     (cachedPage s loc = false → exec (.l1Fill core loc) s = .next s) ∧
     (cachedPage s loc = true → l1Get s core (loc / 128) = none →
       ∃ t l, exec (.l1Fill core loc) s = .next t ∧ SameGroups s t ∧ l1Get t core (loc / 128) = some l ∧
         ∀ i < 128, [lineByte l.data i] =
           if isRemote (coreDie core) loc = true ∧ (r.valid = BitVec.allOnes 128 ∨ r.dirty.getLsbD i = true)
           then [lineByte r.data i] else (homeRead u (loc / 128 * 128 + i) 1).2.1) ∧
     (cachedPage s loc = true → ∀ l, l1Get s core (loc / 128) = some l → ∃ t l', exec (.l1Fill core loc) s = .next t ∧
       SameGroups s t ∧ l1Get t core (loc / 128) = some l' ∧ l'.data = l.data))) ∧
  ((∀ s id p loc n, s.pend? id = some p → p.kind = .media loc n → ∃ t, exec (.controllerAccept id) s = .next t ∧
     t.pend = s.pend.filter (fun q => q.id ≠ id) ∧ SameGroups s t ∧
     ∀ line,
       (loc / 128 ≤ line ∧ 128 * line < loc + n → (l2Get t line).dirty = 0 ∧
         ∀ sec < 2, (l2Get s line).dirty.getLsbD sec = true →
           memBytes t.mem (128 * line + 64 * sec) 64 = lineBytes (l2Get s line).data (64 * sec) 64) ∧
       (∀ sec < 2, ¬(loc / 128 ≤ line ∧ 128 * line < loc + n ∧ (l2Get s line).dirty.getLsbD sec = true) →
         memBytes t.mem (128 * line + 64 * sec) 64 = memBytes s.mem (128 * line + 64 * sec) 64)) ∧
   (∀ s sec, isDev (64 * sec) = true → backed s (64 * sec) = true →
     let a := stackAddr (64 * sec)
     let sk := stackOf (64 * sec)
     let n := ((List.range 8).filter fun i => Assoc.get? s.ecc (8 * sec + i) == some .single).length
     ∃ t, exec (.patrolScrub sec) s = .next t ∧ t.mem = s.mem ∧
       (∀ i < 8, Assoc.get? t.ecc (8 * sec + i) ≠ some .single) ∧
       (∀ w, w / 8 ≠ sec → Assoc.get? t.ecc w = Assoc.get? s.ecc w) ∧
       (∀ i < 8, Assoc.get? s.ecc (8 * sec + i) = some .double →
         (∀ j < 8, Assoc.get? t.ecc (8 * sec + j) = some .poison) ∧
         t.rowBad.contains (key2 sk (Config.rowOf sk (a / 64))) = true ∧
         t.elHead = s.elHead + BitVec.ofNat 32 (n + 1) ∧
         ∃ x l, t.log = x :: l ∧ x.code = 0x08 ∧ x.die = BitVec.ofNat 8 (dieOf (64 * sec)) ∧ x.data = BitVec.ofNat 64 a) ∧
       ((∀ i < 8, Assoc.get? s.ecc (8 * sec + i) ≠ some .double) → t.elHead = s.elHead + BitVec.ofNat 32 n ∧
         (0 < n → ∃ x l, t.log = x :: l ∧ x.code = 0x07 ∧ x.die = BitVec.ofNat 8 (dieOf (64 * sec)) ∧
           x.data = BitVec.ofNat 64 a)) ∧
       (∀ k, Assoc.rd 0 t.rowErrs k = (if a = 0 ∧ k / 2 ^ 64 = sk then 0 else Assoc.rd 0 s.rowErrs k) +
         if k = key2 sk (Config.rowOf sk (a / 64)) then n else 0) ∧
       (∀ k, Assoc.rd 0 t.chErrs k = (if a = 0 ∧ k / 2 ^ 64 = sk then 0 else Assoc.rd 0 s.chErrs k) +
         if k = key2 sk (Config.channelOf sk (a / 64)) then n else 0) ∧
       (a = 0 → (t.die (sk / 3)).scrubNow = (s.die (sk / 3)).scrub)) ∧
   (∀ s stack row, rowFails s stack row = true ↔
     4 ≤ Assoc.rd 0 s.rowErrs (key2 stack row) ∨ s.rowBad.contains (key2 stack row) = true) ∧
   (∀ s stack row, rowFails s stack row = true →
     let t := spareSectors stack (fun sec => Config.rowOf stack sec == row) s
     t.mem = s.mem ∧
     (∀ w, isDev (8 * w) = true → stackOf (8 * w) = stack → Config.rowOf stack (stackAddr (8 * w) / 64) = row →
       Assoc.get? t.ecc w = none ∨ Assoc.get? t.ecc w = some .poison) ∧
     exec (.rowSparing stack row) s = .next (logEvent { t with
       rowErrs := Assoc.del t.rowErrs (key2 stack row), rowBad := t.rowBad.filter (· ≠ key2 stack row),
       spared := if t.spared.contains (key2 stack row) then t.spared else key2 stack row :: t.spared } 0x03 (stack / 3)
       (stack + row * 2 ^ 8))) ∧
   (∀ s stack row, rowFails s stack row = false → exec (.rowSparing stack row) s = .next s) ∧
   (∀ s stack ch, stack < 12 → ch < 512 → channelFails s stack ch = true →
     let t := spareSectors stack (fun sec => Config.channelOf stack sec == ch) s
     t.mem = s.mem ∧
     (∀ w, isDev (8 * w) = true → stackOf (8 * w) = stack → Config.channelOf stack (stackAddr (8 * w) / 64) = ch →
       Assoc.get? t.ecc w = none ∨ Assoc.get? t.ecc w = some .poison) ∧
     exec (.channelSparing stack ch) s = .next (logEvent { t with
       chErrs := Assoc.del t.chErrs (key2 stack ch), spared := key2 (256 + stack) ch :: t.spared } 0x04 (stack / 3)
       (stack + ch * 2 ^ 8))) ∧
   (∀ s stack ch, channelFails s stack ch = false → exec (.channelSparing stack ch) s = .next s) ∧
   (∀ s stack ch, channelFails s stack ch = true ↔
     (s.die (stack / 3)).chthr.toNat ≤ Assoc.rd 0 s.chErrs (key2 stack ch) ∧
     ∀ k ∈ s.spared, ¬(k / 2 ^ 64 = 256 + stack ∧ k % 2 ^ 64 / 32 = ch / 32)))

/-! ## Near-memory engines -/

/-- O32. `mst` checks its lanes, commits the region, and posts one request for each distinct address its lanes name, with their operands merged; the home takes
a request after the group's earlier ones to its bytes, drops its copy and holds the line, or reads and writes the
management register it names; the controller then performs it in one transaction, or drops it with an event where the
sector is poisoned; host memory takes none (R281, R284 to
R288, R446). -/
def Obligations.MemorySideRequests : Prop :=
  (∀ s e f, Executes s e (.mst f) f → s.phase = .run →
    let n := szBytes f
    ∀ s1 xs, resolveGlobal e (e.gbase f.s1) (fun l => e.offset l f.s2 + fDisp6 f * n) n n .rmw (fun loc _ => isHost loc)
        e.st (e.memLanes f) = .ok (s1, xs) →
      let e1 := committed (e.at s1)
      mstCount e1.st e1.core < 512 → exec (.mst f) s = concluded e f (.done ((byAddress xs).foldl (fun t y =>
        post e1.gid e1.team.ctx e1.core
          (.mst ⟨y.1, fAop f, fSz f == 3, BitVec.ofNat 64 (mstMerge f e1 y.2.2), e1.grp.rmode, false⟩) t) e1.st))) ∧
  (∀ s e f, Executes s e (.mst f) f → s.phase ≠ .run →
    exec (.mst f) s = concluded e f (.trap s { cause := 0x06, detail := 0x06 })) ∧
  (∀ s id p r, s.pend? id = some p → p.kind = .mst r → r.held = false → inMgmt r.loc = false →
    lineHeld s r.loc (if r.wide then 8 else 4) = false →
    (∀ q ∈ s.pend, q.id < id → q.owner = p.owner → ∀ r', q.kind = .mst r' →
      overlap r'.loc (if r'.wide then 8 else 4) r.loc (if r.wide then 8 else 4) = false) →
    exec (.peridotHomeWriteback id) s =
      .next (setPend id (.mst { r with held := true }) (l2Evict s (r.loc / 128)))) ∧
  (∀ s id p r t old, s.pend? id = some p → p.kind = .mst r → r.held = false → inMgmt r.loc = true →
    lineHeld s r.loc (if r.wide then 8 else 4) = false →
    (∀ q ∈ s.pend, q.id < id → q.owner = p.owner → ∀ r', q.kind = .mst r' →
      overlap r'.loc (if r'.wide then 8 else 4) r.loc (if r.wide then 8 else 4) = false) →
    mgmtRead s r.loc (if r.wide then 8 else 4) = (t, old) →
    exec (.peridotHomeWriteback id) s =
      .next (unpost id (mgmtWrite r.loc (if r.wide then 8 else 4) (peridotNew r old) t))) ∧
  (∀ s id p r t old bad, s.pend? id = some p → p.kind = .mst r → r.held = true →
    mediaRead (l2Evict s (r.loc / 128)) r.loc (if r.wide then 8 else 4) = (t, old, bad) →
    exec (.peridotOperation id) s = .next (unpost id (if bad then logDiscard t r.loc else { t with
      mem := memPuts t.mem r.loc (toBytes (if r.wide then 8 else 4) (peridotNew r old)) })))

/-- O33. `wst` returns WCTL and sets LIMIT and POLICY, or traps WALK; `wprog` loads a program of 1 to 32 valid rules
into the context, or traps WALK with the first rule that breaks the limits; `walk` starts one walk a lane, its block
of 20 registers empty; `wres` gives back or resumes a block (R292, R295, R298 to R301). An engine with one of its 512
contexts free accepts a walk that waits for it and copies its program (R289). A walk that ends leaves and writes its
block of 20 registers: the status word, the hops and fault code, the final pointer and the record; a rule that reads
another stack moves the walk there first, one that breaks the alignment or crosses 4 KiB does not; a parked walk goes
on, or ends with a fault, once its fault is answered (R293 to R295). -/
def Obligations.Walks : Prop :=
  ((∀ s e f, Executes s e (.wst f) f →
     let limit := e.n32 0 (.op f.s1)
     let policy := e.n32 0 (.op f.s2)
     ((limit = 0 ∨ 4096 < limit ∨ 3 ≤ policy) → exec (.wst f) s = concluded e f (.trap s { cause := 0x0B })) ∧
     (0 < limit → limit ≤ 4096 → policy < 3 → exec (.wst f) s = concluded e f (.done (modGroup e.gid
       (fun g => { g with wctl := BitVec.ofNat 32 (limit + policy * 2 ^ 13) })
       (writeLong e false (dstWrites f.d 1 0 e.grp.wctl.toNat) s))))) ∧
   (∀ s e f, Executes s e (.wprog f) f →
     let n := e.n32 0 (.op f.s3)
     ((n = 0 ∨ 32 < n) → exec (.wprog f) s = concluded e f (.trap s { cause := 0x0B, addr := n })) ∧
     ∀ t bs, 0 < n → n ≤ 32 →
       loadRange e (e.gbase f.s1) (e.offset 0 f.s2 + fDisp6 f * 8) (8 * n) 8 s = .ok (t, bs) →
       ((∀ w ∈ wordsOf n bs, ruleValid n w = true) → exec (.wprog f) s = concluded e f (.done (t.setCtx e.team.ctx
         { t.ctx e.team.ctx with progs := Assoc.put (t.ctx e.team.ctx).progs (fAop f) (wordsOf n bs) }))) ∧
       (∀ k w, (wordsOf n bs)[k]? = some w → ruleValid n w = false →
         (∀ j v, j < k → (wordsOf n bs)[j]? = some v → ruleValid n v = true) →
         exec (.wprog f) s = concluded e f (.trap t { cause := 0x0B, addr := k }))) ∧
   (∀ s e f, Executes s e (.walk f) f → s.phase = .run →
     let e1 := committed e
     let b := e1.gbase f.s1
     ∀ s1 xs prog, resolveGlobal e1 b (fun l => e1.offset l f.s2 + fDisp6 f * 8) 8 8 .read allowAll e1.st e1.lanes =
         .ok (s1, xs) → Assoc.get? (s1.ctx e1.team.ctx).progs (fAop f) = some prog →
       s1.walks.countP (fun w => w.core == e1.core) + xs.length ≤ 1024 →
       exec (.walk f) s = concluded e f (.done (xs.foldl (fun t x => startWalk e1 f x.lane (fAop f) prog 0
         (BitVec.ofNat 64 (b.pointer / 2 ^ 57 * 2 ^ 57 + x.va)) (startStack e1.die (some x.loc)) t) s1))) ∧
   (∀ s e f, Executes s e (.wres f) f → s.phase = .run →
     let e1 := committed e
     wresHeld f e1 = none →
     walksFull e1.st e1.core (e1.lanes.countP fun l => (e1.wide l f.s1 1).testBit 13) = false →
     exec (.wres f) s = concluded e f (.done (e1.lanes.foldl (wresLane f e1) e1.st)) ∧
     ∀ t l, (e1.wide l f.s1 4).testBit 13 = false → wresLane f e1 t l =
       modGroup e1.gid (Group.setRegs (dstWrites f.d 4 l (e1.wide l f.s1 4))) t)) ∧
  ((∀ (w : Walk) status rule res fcode p record s, walkEnd w status rule res fcode p record s =
     fillRegs w.owner ((List.range 20).map fun k => ⟨⟨.v, w.dst % 256 + k, w.lane⟩, BitVec.ofNat 32
       ((walkStatus status rule w.progNo res w.steps + (w.hops % 2 ^ 13 + fcode * 2 ^ 16) * 2 ^ 32 + p.toNat * 2 ^ 64 +
         ofBytes record * 2 ^ 128) / 2 ^ (32 * k))⟩) { s with walks := s.walks.filter fun x => x.id ≠ w.id }) ∧
   (∀ s id w i va n align s' loc ca, s.walk? id = some w → walkRule s id = some i → ruleRead i w = some (va, n, align) →
     w.accepted = true → w.park = none → readBad va n align = false → va + n ≤ 2 ^ 57 →
     translate s w.ctx (w.p.toNat / 2 ^ 57) va n .read = (s', .ok loc ca) → isDev loc = true → stackOf loc ≠ w.stack →
     engineRoom s (stackOf loc) = true →
     exec (.walkForward id) s = .next (setWalk { w with stack := stackOf loc, hops := w.hops + 1 } s')) ∧
   (∀ s id w i va n align, s.walk? id = some w → walkRule s id = some i → ruleRead i w = some (va, n, align) →
     w.accepted = true → readBad va n align = true → exec (.walkForward id) s = .next s) ∧
   (∀ s id w, s.walk? id = some w → w.accepted = false →
     (engineRoom s w.stack = false → exec (.walkForward id) s = .next s) ∧
     (engineRoom s w.stack = true →
       let prog := if w.prog = [] then (Assoc.get? (s.ctx w.ctx).progs w.progNo).getD [] else w.prog
       w.rule < prog.length →
       exec (.walkForward id) s = .next (setWalk { w with prog := prog, accepted := true } s))) ∧
   (∀ s id w ord, s.walk? id = some w → w.park = some ord →
     (faultAnswer s w.ctx ord = some true → exec (.walkParkResume id) s = .next (setWalk { w with park := none } s)) ∧
     (faultAnswer s w.ctx ord = some false → exec (.walkParkResume id) s = .next (walkEnd w 3 w.rule true 4 w.p [] s)) ∧
     (faultAnswer s w.ctx ord = none → exec (.walkParkResume id) s = .next s)))

/-- O34. A walk's rules: a compare goes to its true or false rule; FOLLOW ends at a null pointer, ends with the rule
to resume at when the step limit is reached, and else moves on and counts the step; SELECT moves the pointer by the
key's field; RETURN gives the record, MISS ends; 64 rules without a move end a walk (R291, R293 to R295). -/
def Obligations.WalkRules : Prop :=
  ∀ s w r, s.walk? s.curWalk = some w → w.park = none →
    (∀ s1 w1 x, walkRead w (w.p.toNat % 2 ^ 57 + r.off.toNat) (2 ^ r.w.toNat) (2 ^ r.w.toNat) s = .ok (s1, w1, x) →
      exec (.jLdcmp r) s = .next (walkNext w1 (if ruleHolds r x w1.key.toNat then r.nt.toNat else r.nf.toNat) s1) ∧
      exec (.jLdcmpi r) s = .next (walkNext w1 (if ruleHolds r x (ruleImm r) then r.nt.toNat else r.nf.toNat) s1)) ∧
    (∀ s1 w1 q, walkRead w (w.p.toNat % 2 ^ 57 + r.off.toNat) 8 8 s = .ok (s1, w1, q) →
      let p := BitVec.ofNat 64 (ofSigned 64 ((q : Int) + toSigned 12 r.off2.toNat))
      exec (.jFollow r) s = .next (
        if q = 0 then walkEnd w1 1 w1.rule false 0 w1.p [] s1
        else if w1.steps = w1.wctl.toNat % 2 ^ 13 then walkEnd w1 2 r.nt.toNat true 0 p [] s1
        else setWalk { w1 with steps := w1.steps + 1, p := p, rule := r.nt.toNat, n := 0 } s1)) ∧
    exec (.jSelect r) s = .next (walkNext { w with p := w.p + BitVec.ofNat 64 (r.off.toNat +
      (w.key.toNat / 2 ^ (r.imm.toNat % 2 ^ 6)) % 2 ^ (r.imm.toNat / 2 ^ 6 % 2 ^ 6) * 2 ^ r.w.toNat) } r.nt.toNat s) ∧
    (∀ s1 w1 x, r.imm.toNat % 128 ≠ 0 →
      walkRead w (w.p.toNat % 2 ^ 57 + r.off.toNat) (r.imm.toNat % 128) 1 s = .ok (s1, w1, x) →
      exec (.jReturn r) s = .next (walkEnd w1 0 w1.rule false 0 w1.p (toBytes (r.imm.toNat % 128) x) s1)) ∧
    (r.imm.toNat % 128 = 0 → exec (.jReturn r) s = .next (walkEnd w 0 w.rule false 0 w.p [] s)) ∧
    exec (.jMiss r) s = .next (walkEnd w 1 w.rule false 0 w.p [] s) ∧
    (∀ next, walkNext w next s =
      if w.n + 1 = 64 then walkEnd { w with n := 64 } 5 w.rule false 0 w.p [] s
      else setWalk { w with n := w.n + 1, rule := next } s)

/-- O35. A Beryl instruction that names a configured bank granted to its context posts its operation with the operands
as read at issue and its destinations empty; `crd` reads the bank at issue, after the group's earlier operations on
it (the model's choice, log 2), a single-bit error of a word it reads corrected and an uncorrectable one poisoning its
entry (R307); a bank that is absent or not granted traps PROT 0x06, and BOUNDS 0x04 an id of 256 or more, and an
unconfigured bank but for `ccfg` and a status read by `crd` (R303 to R305, R313 to R318). A posted Beryl operation is performed once the group's earlier ones on the bank are gone and no dump has begun
there; one that reads the bank resolves every word of it first (the model's choice, log 29). A vector joins the nearest centroid within the radius, its sum and count updated; else it becomes the entry at
the lowest free index; an invalid vector, and a full bank under policy 0, reject it (R308 to R313, R316 to R318). -/
def Obligations.BerylOperations : Prop :=
  (∀ s (e : Env) f (e1 : Env), s.phase = .run → e1 = committed e →
     let posted (op : BerylOp) (ds : List RegDst) (t : Machine.State) : Out := concluded e f (.done
       (post e1.gid e1.team.ctx e1.core (.beryl e1.team.ctx (e1.bankId f) op) (modGroup e1.gid (Group.marks true ds) t)))
     (∀ b t bs, Executes s e (.ccfg f) f → berylWaits e1 f false = false → bankCheck e1 f true = .ok b →
       loadRange e1 (e1.gbase f.s1) (e1.offset 0 f.s2) 32 8 e1.st = .ok (t, bs) → cfgInvalid b (ofBytes bs) = none →
       exec (.ccfg f) s = posted (.ccfg (BitVec.ofNat 256 (ofBytes bs))) [] t) ∧
     (∀ b t xs, Executes s e (.cins f) f → berylWaits e1 f false = false → bankCheck e1 f false = .ok b →
       vectors e1 f b.dim = .ok (t, xs) →
       let dst := if f.d = .none then none else some (opNum f.d)
       exec (.cins f) s = posted (.cins (xs.map fun x => (x.1, BitVec.ofNat 32 (e1.val 2 x.1 (.op f.s3)), x.2)) dst)
         (match dst with | some d => xs.map fun x => ⟨.v, d, x.1⟩ | none => []) t) ∧
     (∀ b t xs, Executes s e (.cnear f) f → berylWaits e1 f false = false → bankCheck e1 f false = .ok b →
       vectors e1 f b.dim = .ok (t, xs) → exec (.cnear f) s = posted (.cnear xs (opNum f.d))
         (xs.flatMap fun x => [⟨.v, opNum f.d, x.1⟩, ⟨.v, opNum f.d + 1, x.1⟩]) t) ∧
     (∀ b, Executes s e (.cmrg f) f → berylWaits e1 f false = false → bankCheck e1 f false = .ok b →
       exec (.cmrg f) s = if f.d = .none then posted (.cmrg none) [] e1.st
         else posted (.cmrg (some (opNum f.d))) [⟨.s, opNum f.d, 0⟩] e1.st) ∧
     (∀ b, Executes s e (.crd f) f → berylWaits e1 f true = false → bankCheck e1 f true = .ok b → b.configured = true →
       dumping e1.st (e1.bankId f) 0 = false →
       let ws := e1.lanes.filterMap fun l => b.selWord (e1.n32 l (.op f.s2))
       (∀ l ∈ e1.lanes, ∃ w k, b.select (e1.n32 l (.op f.s2)) = some (w, k) ∧
         ∀ j, k = some j → (b.resolve ws).bad.contains j = false) →
       exec (.crd f) s = concluded e f (.done (writeLong e1 false (e1.lanes.map fun l =>
         ⟨⟨.v, opNum f.d, l⟩, BitVec.ofNat 32 ((b.select (e1.n32 l (.op f.s2))).getD (0, none)).1⟩)
         (if b.ecc.isEmpty then e1.st
          else setBank (e1.bankId f) (b.resolve ws) (countBank (e1.bankId f) b ws e1.st))))) ∧
     (∀ b, Executes s e (.cclr f) f → berylWaits e1 f false = false → bankCheck e1 f false = .ok b →
       (f.s2 = .none → exec (.cclr f) s = posted (.cclr none) [] e1.st) ∧
       (f.s2 ≠ .none → e1.n32 0 (.op f.s2) < b.limit →
         exec (.cclr f) s = posted (.cclr (some (e1.n32 0 (.op f.s2)))) [] e1.st) ∧
       (f.s2 ≠ .none → b.limit ≤ e1.n32 0 (.op f.s2) → exec (.cclr f) s = concluded e f
         (.trap e1.st { cause := 0x05, detail := 0x04, addr := e1.n32 0 (.op f.s2) }))) ∧
     (∀ b va, Executes s e (.cdump f) f → berylWaits e1 f false = false → bankCheck e1 f false = .ok b →
       (∀ r, e1.gbase f.s1 = .rec_ r → r.valid = true) → (e1.gbase f.s1).va (e1.offset 0 f.s2) = (va : Nat) →
       va < 2 ^ 57 → va % 8 = 0 → exec (.cdump f) s = posted
         (.cdump (BitVec.ofNat 64 ((e1.gbase f.s1).pointer / 2 ^ 57 * 2 ^ 57 + va)) (e1.n32 0 (.op f.s3)) (opNum f.d) 0 0 false none)
         [⟨.s, opNum f.d, 0⟩] e1.st) ∧
     (∀ i, i ∈ [Instr.ccfg f, .cins f, .cnear f, .cmrg f, .crd f, .cclr f, .cdump f] → Executes s e i f →
       berylWaits e1 f (i = .crd f) = false →
       let id := e1.bankId f
       (256 ≤ id → exec i s = concluded e f (.trap e1.st { cause := 0x05, detail := 0x04, addr := id })) ∧
       (id < 256 → (Assoc.get? e1.st.beryl id = none ∨ e1.ctx.bgrant.getLsbD id = false) →
         exec i s = concluded e f (.trap e1.st { cause := 0x06, detail := 0x06, addr := id })) ∧
       (∀ b, id < 256 → Assoc.get? e1.st.beryl id = some b → e1.ctx.bgrant.getLsbD id = true → b.configured = false →
         i ≠ .ccfg f → (i = .crd f → ∃ l ∈ e1.lanes, field (e1.n32 l (.op f.s2)) 0 16 ≠ 0xFFFF) →
         exec i s = concluded e f (.trap e1.st { cause := 0x05, detail := 0x04, addr := id })))) ∧
  ((∀ s id p c bank op b, s.pend? id = some p → p.kind = .beryl c bank op →
     (∀ q ∈ s.pend, q.id < id → q.owner = p.owner → ∀ c' op', q.kind ≠ .beryl c' bank op') → dumping s bank id = false →
     Assoc.get? s.beryl bank = some b → exec (.berylPerform id) s = .next (
       if op.writesOnly then bankPerform p bank b op s
       else bankPerform p bank (b.resolve b.words) op (setBank bank (b.resolve b.words) (countBank bank b b.words s)))) ∧
   (∀ (b : Bank) ws, (∀ x ∈ (b.resolve ws).ecc, ws.contains x.1 = false) ∧
     (∀ w e, (w, e) ∈ b.ecc → e ≠ .single → ws.contains w = true → (b.resolve ws).bad.contains (b.entryOf w) = true) ∧
     ((∀ w e, (w, e) ∈ b.ecc → ws.contains w = true → e = .single) → ∀ k, (b.resolve ws).bad.contains k = b.bad.contains k)) ∧
   (∀ p s (b : Bank) xs tag, let x := xs.map fun w => f32v w.toNat
     (badVector x = true → insertOne p s b xs tag = (s, b, some (0xFFFF + 2 * 2 ^ 16))) ∧
     (∀ k d, badVector x = false → b.nearest (fun e => e.count != 0xFFFFFFFF) x = some (k, d) → b.within d = true →
       let e := (Assoc.get? b.ents k).getD .zero
       insertOne p s b xs tag = (s, b.put k { e with
         sum := (e.sum.zip xs).map fun y => addSum y.1 y.2, count := e.count + 1 }, some (k % 2 ^ 16 + 2 ^ 16))) ∧
     (∀ k, badVector x = false →
       (∀ j d, b.nearest (fun e => e.count != 0xFFFFFFFF) x = some (j, d) → b.within d = false) → b.free = some k →
       insertOne p s b xs tag = (s, b.put k ⟨xs, 1, tag⟩, some (k % 2 ^ 16))) ∧
     (badVector x = false →
       (∀ j d, b.nearest (fun e => e.count != 0xFFFFFFFF) x = some (j, d) → b.within d = false) → b.free = none →
       b.policy = 0 → insertOne p s b xs tag = (s, b, some (0xFFFF + 2 * 2 ^ 16)))) ∧
   (∀ p bank (b : Bank) cfg s, bankPerform p bank b (.ccfg cfg) s = fillRegs p.owner [] (unpost p.id
     (setBank bank { b with cfg := cfg, configured := true, ents := [], bad := [], ecc := [], spcnt := 0 } s))) ∧
   (∀ (b b' : Bank) i j, b.merge = some (b', i, j) → i ≠ j →
     ∃ x y, Assoc.get? b.ents i = some x ∧ Assoc.get? b.ents j = some y ∧ Assoc.get? b'.ents j = none ∧
       Assoc.get? b'.ents i = some ⟨(x.sum.zip y.sum).map fun z => addSum z.1 z.2,
         BitVec.ofNat 32 (min (x.count.toNat + y.count.toNat) 0xFFFFFFFF), x.tag⟩) ∧
   (∀ s id p c bank ptr n dst done next begun ord, s.pend? id = some p →
     p.kind = .beryl c bank (.cdump ptr n dst done next begun (some ord)) →
     (faultAnswer s p.ctx ord = some true →
       exec (.cdumpResume id) s = .next (setPend id (.beryl c bank (.cdump ptr n dst done next begun none)) s)) ∧
     (faultAnswer s p.ctx ord = some false → exec (.cdumpResume id) s =
       .next (fillRegs p.owner [⟨⟨.s, dst, 0⟩, BitVec.ofNat 32 (done + 0x80000000)⟩] (unpost p.id s))) ∧
     (faultAnswer s p.ctx ord = none → exec (.cdumpResume id) s = .next s)))

/-! ## Barriers, buffers, monitors -/

/-- O36. The barrier instructions act on the object in scratchpad that S1 names, after the release or before the
acquire that ORD asks for: `binit` starts it, `bexp` expects bytes and may arrive, `barv` arrives and returns the
status, `bwait` completes once the phase has passed and waits before, `btry` never waits, `bst` reads the object (R140
to R147). The view that acts is the one after the object's words are read, their single-bit errors corrected (R121). -/
def Obligations.BarrierInstructions : Prop :=
  (∀ e f acc n e' a k, objectAt e f acc n = .ok (e', a, k) → e' = { e with st := poolFix e.st k 16 }) ∧
  (∀ s e f e' a k, Executes s e (.binit f) f → objectAt (committed e) f 1 = .ok (e', a, k) →
    exec (.binit f) s = concluded e f (.done (putBarrier k
      ⟨0, false, false, false, (committed e).n32 0 (.op f.s2) % 2 ^ 16, 0, false⟩ e'.st))) ∧
  (∀ s e f e1 e' a k, Executes s e (.bexp f) f → released (committed e) (fOrd f) (fScope f) = some e1 →
    objectAt e1 f 2 = .ok (e', a, k) →
    let b := barrierAt e'.st k
    let n := e'.n32 0 (.op f.s2)
    (b.pend + n < (2 ^ 55 : Int) → exec (.bexp f) s = concluded e f (.done (putBarrier k
      (if fOpv f = 1 then ({ b with pend := b.pend + n } : Barrier).arrive 1 else
        ({ b with pend := b.pend + n } : Barrier).check).1 e'.st))) ∧
    ((2 ^ 55 : Int) ≤ b.pend + n → exec (.bexp f) s = concluded e f (.trap e'.st { cause := 0x08, acc := 2 }))) ∧
  (∀ s e f e1 e' a k, Executes s e (.barv f) f → released (committed e) (fOrd f) (fScope f) = some e1 →
    objectAt e1 f 2 = .ok (e', a, k) →
    let b := barrierAt e'.st k
    let r := b.arrive (e'.uni f.s2 1)
    exec (.barv f) s = concluded e f (.done (writeLong e' false
      (dstWrites f.d 1 0 (barStatus r.2 b.phase r.1.perr r.1.ovf)) (putBarrier k r.1 e'.st)))) ∧
  (∀ s e f e' a k, objectAt (committed e) f 0 = .ok (e', a, k) →
    let b := barrierAt e'.st k
    let p := (e'.n32 0 (.op f.s2)).testBit 0
    let leave (st : Nat) (done : Bool) : Res :=
      let t := writeLong e' false (dstWrites f.d 1 0 st) e'.st
      .done (if done && fOrd f == 1 then acquire e.core (fScope f) t else t)
    (Executes s e (.bwait f) f →
      (b.ovf = true → exec (.bwait f) s = concluded e f (leave (barStatus false b.phase b.perr true) false)) ∧
      (b.ovf = false → b.phase ≠ p → exec (.bwait f) s = concluded e f (leave (barStatus true b.phase b.perr false) true)) ∧
      (b.ovf = false → b.phase = p → exec (.bwait f) s = concluded e f (.wait e'.st .retry))) ∧
    (Executes s e (.btry f) f →
      (b.ovf = true → exec (.btry f) s = concluded e f (leave (barStatus false b.phase b.perr true) false)) ∧
      (b.ovf = false → exec (.btry f) s = concluded e f
        (leave (barStatus (b.phase != p) b.phase b.perr false) (b.phase != p)))) ∧
    (Executes s e (.bst f) f → exec (.bst f) s = concluded e f (.done (acquired e' (fOrd f) (fScope f)
      (writeLong e' false (dstWrites f.d 4 0 (poolNat e'.st k 16)) e'.st))))) ∧
  (∀ s g x, groupOf s g = some x → x.cond = .wait .retry → ∃ t, exec (.barrierWaitWake g) s = .next t ∧
    SameOthers s t g ∧ groupOf t g = some { x with cond := .ready })

/-- O37. A barrier object's phase completes exactly when no overflow stands, every expected arrival has come and every
expected byte has been written; then the error moves to the previous phase's and the counts start again; arrivals
beyond the expectation set the overflow; an object written and read back is the same (R140, R141). -/
def Obligations.BarrierPhases : Prop :=
  (∀ b : Barrier, (b.ovf = false ∧ b.arr = b.expecta ∧ b.pend = 0 →
      b.check = ({ b with perr := b.err, err := false, arr := 0, phase := !b.phase }, true)) ∧
    (¬ (b.ovf = false ∧ b.arr = b.expecta ∧ b.pend = 0) → b.check = (b, false))) ∧
  (∀ (b : Barrier) c, (b.arr + c ≤ b.expecta → b.arrive c = ({ b with arr := b.arr + c } : Barrier).check) ∧
    (b.expecta < b.arr + c → b.arrive c = ({ b with ovf := true }, false))) ∧
  (∀ (b : Barrier) (n : Nat) err, -(2 ^ 55 : Int) ≤ b.pend - n → b.arriveBytes n err =
    (({ b with pend := b.pend - n, err := b.err || err } : Barrier).check).1) ∧
  (∀ b : Barrier, -(2 ^ 55 : Int) ≤ b.pend → b.pend < (2 ^ 55 : Int) → b.expecta < 2 ^ 16 → b.arr < 2 ^ 16 →
    Barrier.ofNat b.toNat = b)

/-- O38. The circular buffer instructions: `cbinit` lays a buffer out after its object; `cbget` takes the oldest
filled slot, `cbget.claim` the next free one, each waiting while there is none; `cbput.fill` and `cbput.done` trap
BAROVF where the slot was not claimed or nothing is out; the view that acts is the one after the object's words are read (R121). No operation lets the slots exceed COUNT (R148 to R150). -/
def Obligations.CircularBuffers : Prop :=
  (∀ s e f e' a k, Executes s e (.cbinit f) f → objectAt (committed e) f 1 80 = .ok (e', a, k) →
    let sz := e'.n32 0 (.op f.s2)
    let n := e'.n32 0 (.op f.s3)
    (0 < sz → sz % 16 = 0 → sz ≤ 65520 → 0 < n → n ≤ 256 → a % 2 ^ 21 + 80 + sz * n ≤ e'.team.window false →
      exec (.cbinit f) s = concluded e f (.done (putCbuf k ⟨a + 80, sz, n, 0, n, 0, 0, 0, 0, 0⟩ e'.st))) ∧
    ((sz = 0 ∨ sz % 16 ≠ 0 ∨ 65520 < sz) → exec (.cbinit f) s = concluded e f
      (.trap e'.st { cause := 0x05, detail := 0x04, addr := sz, acc := 1 }))) ∧
  (∀ s e f e1 a k (claim : Bool), objectAt (committed e) f 2 80 = .ok (e1, a, k) →
    Executes s e (if claim then .cbgetClaim f else .cbget f) f →
    let e' := e1.fixed (k + 16) 64
    let c := cbufAt e1.st k
    let got := if claim then c.claim else c.take
    poolBad e1.st (k + 16) 64 = none → c.legal = true →
    (∀ c' x, got = some (c', x) → exec (if claim then .cbgetClaim f else .cbget f) s = concluded e f
      (.done (acquired e' (fOrd f) (fScope f) (writeLong e' false (dstWrites f.d 1 0 x) (putCbuf k c' e'.st))))) ∧
    (got = none → exec (if claim then .cbgetClaim f else .cbget f) s = concluded e f (.wait e'.st .retry))) ∧
  (∀ s e f e0 e1 a k (fill : Bool), released (committed e) (fOrd f) (fScope f) = some e0 →
    objectAt e0 f 2 80 = .ok (e1, a, k) → Executes s e (if fill then .cbputFill f else .cbputDone f) f →
    let e' := e1.fixed (k + 16) 64
    let c := cbufAt e1.st k
    let put := if fill then c.fill (e'.n32 0 (.op f.s2) % 256) false else c.done
    poolBad e1.st (k + 16) 64 = none → c.legal = true →
    (∀ c', put = some c' → exec (if fill then .cbputFill f else .cbputDone f) s = concluded e f
      (.done (putCbuf k c' e'.st))) ∧
    (put = none → exec (if fill then .cbputFill f else .cbputDone f) s = concluded e f
      (.trap e'.st { cause := 0x08, acc := 2 }))) ∧
  (∀ s g x, groupOf s g = some x → x.cond = .wait .retry → ∃ t, exec (.cbufWaitWake g) s = .next t ∧
    SameOthers s t g ∧ groupOf t g = some { x with cond := .ready }) ∧
  (∀ c : Cbuf, c.legal = true → c.filled + c.free + c.claimed ≤ c.count →
    let ok (d : Cbuf) : Prop := d.count = c.count ∧ d.filled + d.free + d.claimed ≤ d.count
    (∀ d k, c.claim = some (d, k) → ok d ∧ d.claimed = c.claimed + 1) ∧
    (∀ d k err, c.fill k err = some d → ok d ∧ d.filled + d.claimed = c.filled + c.claimed) ∧
    (∀ d x, c.take = some (d, x) → ok d ∧ x % 256 = c.head % 256 ∧ d.filled + 1 = c.filled) ∧
    (∀ d, c.done = some d → ok d ∧ d.free = c.free + 1))

/-- O39. Monitors and the team barrier: `marm` arms a monitor on a 64-byte granule; `mwait` completes at once with a
fired monitor or none armed and else sleeps until a fire, a spurious wake or its timeout, clearing the FIRED bits;
`tbar` waits for every group of the team that has not executed `exit` (R151 to R154). -/
def Obligations.MonitorsAndTeamBarrier : Prop :=
  (∀ s e f t x, Executes s e (.marm f) f → resolveGlobal e (.ptr (e.wide 0 f.s1 2)) (fun _ => 0) 1 1 .read allowAll s [0] =
      .ok (t, [x]) → exec (.marm f) s = concluded e f (.done (modGroup e.gid (fun g => { g with
        mon := g.mon.set (e.n32 0 (.op f.s2)) ⟨true, false, x.loc / 64, false⟩ }) t))) ∧
  (∀ s e f k c, Executes s e (.marmLoc f) f → localLook s e.team (e.n32 0 (.op f.s1)) 1 1 = .ok (k, c) →
    exec (.marmLoc f) s = concluded e f (.done (e.mod fun g => { g with
      mon := g.mon.set (e.n32 0 (.op f.s2)) ⟨true, true, k / 64, false⟩ }))) ∧
  (∀ s e f, Executes s e (.marmOff f) f → exec (.marmOff f) s = concluded e f (.done (e.mod fun g => { g with
      mon := g.mon.set (e.n32 0 (.op f.s2)) ⟨false, false, 0, false⟩ }))) ∧
  (∀ s e f, Executes s e (.mwait f) f →
    let e' := committed e
    let t := e'.uni f.s1 0
    let sc := if fOrd f = 1 then fScope f else 0
    ((∀ m ∈ e'.grp.mon, m.armed = false) ∨ firedBits e'.grp ≠ 0 →
      exec (.mwait f) s = concluded e f (.done (mwaitLeave e' (opNum f.d) sc (firedBits e'.grp) e'.st))) ∧
    ((∃ m ∈ e'.grp.mon, m.armed = true) → firedBits e'.grp = 0 →
      exec (.mwait f) s = concluded e f (.wait e'.st
        (.mwait (if t = 0 then none else some (e'.st.cycle.toNat + t)) (opNum f.d) sc)))) ∧
  (∀ s gid e limit dst sc, env? s gid = some e → e.grp.cond = .wait (.mwait limit dst sc) →
    let leave (extra : Nat) : Machine.State := modGroup gid (fun g => { g with cond := .ready, pc := pcAdd g.pc 12 })
      (mwaitLeave e dst sc (firedBits e.grp + extra) s)
    (∀ n, limit = some n → n ≤ s.cycle.toNat → exec (.mwaitTimeout gid) s = .next (leave 16)) ∧
    ((∀ n, limit = some n → s.cycle.toNat < n) → exec (.mwaitTimeout gid) s = .next s)) ∧
  (∀ s gid m e limit dst sc, env? (fireSome gid m s) gid = some e → e.grp.cond = .wait (.mwait limit dst sc) →
    exec (.mwaitWake gid m) s = .next (modGroup gid (fun g => { g with cond := .ready, pc := pcAdd g.pc 12 })
      (mwaitLeave e dst sc (firedBits e.grp) (fireSome gid m s)))) ∧
  (∀ s e f e', Executes s e (.tbar f) f → released (committed e) (fOrd f) (fScope f) = some e' →
    let sc := if fOrd f = 3 then fScope f else 0
    let m := e'.team.tbar ||| ((1 : BitVec 64) <<< e'.grp.idx)
    let t := modTeam e'.gid.team (fun x => { x with tbar := m }) e'.st
    ((∀ g ∈ e'.team.groups, m.getLsbD g.idx = true ∨ g.cond = .ended) →
      exec (.tbar f) s = concluded e f (.done (acquire e.core sc (tbarOpen e'.team t)))) ∧
    ((∃ g ∈ e'.team.groups, m.getLsbD g.idx = false ∧ g.cond ≠ .ended) →
      exec (.tbar f) s = concluded e f (.wait t (.tbar sc)))) ∧
  (∀ s uid x, s.team? uid = some x → x.tbar ≠ 0 → (∀ g ∈ x.groups, x.tbar.getLsbD g.idx = true ∨ g.cond = .ended) →
    exec (.tbarRelease uid) s = .next (tbarOpen x s))

/-! ## The copy engine -/

/-- O40. `anot` publishes entries of a ring whose descriptor is legal and has room, samples RMODE and DESCBASE, and
returns the entries still free; too many trap BOUNDS with no effect (R156 to R158, R161, R175). Agate takes a ring's
entries in order when the ring's turn has come: it stops a ring whose descriptor is poisoned, whose size or window is not
legal or whose PUB has run ahead (of a ring that is both, that ECODE 0x11 comes first is the model's choice, log 29), and considers it no more until a kick or a completion; an entry whose extension is not
yet published waits so too; and else it takes the entry at CONS, with the sample of its kick, and advances CONS (R157 to
R161, R173). The last clause follows an entry without extension or completion object. -/
def Obligations.RingEntries : Prop :=
  (∀ s e f e' k core, Executes s e (.anot f) f → released (committed e) (fOrd f) (fScope f) = some e' →
     let a := e'.n32 0 (.op f.s1)
     a / 2 ^ 30 % 4 = 1 → localLook e'.st e'.team a 16 16 = .ok (k, core) → a % 2 ^ 21 < 64 → poolBad e'.st k 16 = none →
     let d := poolNat e'.st k 16
     let n := e'.n32 0 (.op f.s2)
     let log2n := d / 2 ^ 64 % 2 ^ 4
     let pub := BitVec.ofNat 32 d
     let free := 2 ^ log2n - (pub - BitVec.ofNat 32 (d / 2 ^ 32)).toNat
     let e1 := e'.fixed k 16
     1 ≤ log2n → log2n ≤ 8 →
     (n ≤ free → 0 < n → exec (.anot f) s = concluded e f (.done (writeLong e1 false (dstWrites f.d 1 0 (free - n))
       (ringKick e1 k 4 (poolWrite e1.st k (toBytes 4 (pub + BitVec.ofNat 32 n).toNat)))))) ∧
     (n = 0 → exec (.anot f) s = concluded e f (.done (writeLong e1 false (dstWrites f.d 1 0 free) e1.st))) ∧
     (free < n → exec (.anot f) s = concluded e f
       (.trap e1.st { cause := 0x05, detail := 0x04, addr := n, acc := 2 }))) ∧
  (∀ s uid ring t, s.team? uid = some t → ringTurn s t.core = some (key2 uid ring) →
     exec (.agateRingTake uid ring) s = .next (takeEntry t ring s) ∧
     (let k := ringKey s t ring
      let u := poolFix s k 16
      let r := Assoc.rd .zero s.rings (key2 t.uid ring)
      let d := poolNat s k 16
      let n := 2 ^ (d / 2 ^ 64 % 2 ^ 4)
      let pend := (BitVec.ofNat 32 d - r.cons).toNat
      let base := d / 2 ^ 72 % 2 ^ 21
      let ek := windowKey s t true + base + 32 * (r.cons.toNat % n)
      let ent := poolNat s ek 32
      r.due = true ∧
      (poolBad s k 16 ≠ none →
        takeEntry t ring s = settleRing t.uid ring (logPool t.core k 16 (stopRing k 0x12 none u))) ∧
      (poolBad s k 16 = none → d.testBit 97 = true → takeEntry t ring s = settleRing t.uid ring u) ∧
      (poolBad s k 16 = none → d.testBit 97 = false → 0 < pend →
      ((d / 2 ^ 64 % 2 ^ 4 = 0 ∨ 8 < d / 2 ^ 64 % 2 ^ 4 ∨ t.window true < base + 32 * n) →
        takeEntry t ring s = settleRing t.uid ring (stopRing k 0x11 none u)) ∧
      (1 ≤ d / 2 ^ 64 % 2 ^ 4 → d / 2 ^ 64 % 2 ^ 4 ≤ 8 → base + 32 * n ≤ t.window true →
       (n < pend → takeEntry t ring s = settleRing t.uid ring (stopRing k 0x10 none u)) ∧
       (pend = 1 → s.copies.countP (fun c => c.core == t.core) < 128 → ent.testBit 8 = true →
         takeEntry t ring s = settleRing t.uid ring (poolFix u ek 32)) ∧
       (pend ≤ n → s.copies.countP (fun c => c.core == t.core) < 128 → poolBad s ek 32 = none → ent.testBit 8 = false →
         ent / 2 ^ 16 % 2 ^ 8 = 0 →
         ∀ s1 bs, engineLoad (poolFix u ek 32) t.ctx t.core (kickSample r).2.toNat (128 * (ent / 2 ^ 24 % 2 ^ 8)) 128 1 = (s1, .ok bs) →
         ∃ c, (takeEntry t ring s).copies = s.copies ++ (if c.fail = none then [c] else []) ∧ c.ent.toNat = ent ∧
           c.team = t.uid ∧ c.ordinal = r.cons + 1 ∧ c.rmode = (kickSample r).1 ∧ c.desc.toNat = ofBytes bs ∧
           c.done = 0 ∧ (Assoc.rd .zero (takeEntry t ring s).rings (key2 t.uid ring)).cons = r.cons + 1)))))

/-- O41. A command moves the elements of its box in order: an element outside the array under OOB 2 fails it with
ECODE 0x0D, and else the element at its progress is read, where it goes is looked up, and the progress counted; its bytes
go out with the others of the 8-byte local word or the line of memory they lie in, once the command has left it or is
over, and a run of them that is written lies in that unit; a fault suspends it (R163, R165 to R172, R174). A command that has moved everything, or has failed, signals its
completion objects, records its failure in its ring, and leaves; a barrier receives the command's byte count; a
suspended command goes on, or fails with ECODE 0x09, once its fault is answered (R163, R171, R173, R174). -/
def Obligations.CopyCommands : Prop :=
  (∀ s id c t i, s.copy? id = some c → s.team? c.team = some t → c.fail = none → c.susp = none → c.done < c.count →
     ((i = .cmdLoad id ∧ c.op = 1) ∨ (i = .cmdStore id ∧ c.op = 2) ∨ (i = .cmdGcopy id ∧ c.op = 3) ∨
       (i = .cmdGatherRows id ∧ c.op = 4) ∨ (i = .cmdScatterRows id ∧ c.op = 5) ∨ (i = .cmdFill id ∧ c.op = 6) ∨
       (i = .cmdMcastLoad id ∧ c.op = 7)) →
     (c.outFails c.done = true → exec i s = .next (setCopy { c with fail := some 0x0D } s)) ∧
     (∀ s1 s2 s3 ps ws c', c.outFails c.done = false → c.read t c.done s = (s1, .ok (ps, ws)) →
       c.canWrite t ps s1 = (s2, .ok ()) →
       Copy.flush t (c.unitsOf (c.stage.filter fun g => ps.any fun p => p.1 == g.arr && c.unitOf p.2.1 != c.unitOf g.disp))
         c s2 = (s3, c', .ok ()) →
       exec i s = .next (setCopy { c' with
         done := c.done + 1, stage := c'.stage ++ ps.flatMap (c'.staged c.done), src := ws } s3)) ∧
     (∀ s1 x, c.outFails c.done = false → c.read t c.done s = (s1, .error x) → exec i s = .next (c.stop t s1 x)) ∧
     (∀ s1 s2 ps ws x, c.outFails c.done = false → c.read t c.done s = (s1, .ok (ps, ws)) →
       c.canWrite t ps s1 = (s2, .error x) → exec i s = .next (c.stop t s2 x)) ∧
     (∀ s1 va acc, c.stop t s1 (.fault va acc) = setCopy { c with
       susp := some (postFault t.ctx va acc (agentOf c.core 1) s1).2 } (postFault t.ctx va acc (agentOf c.core 1) s1).1)) ∧
  (∀ s id c t i s1 c', s.copy? id = some c → s.team? c.team = some t → c.susp = none → (c.fail ≠ none ∨ c.count ≤ c.done) →
     ((i = .cmdLoad id ∧ c.op = 1) ∨ (i = .cmdStore id ∧ c.op = 2) ∨ (i = .cmdGcopy id ∧ c.op = 3) ∨
       (i = .cmdGatherRows id ∧ c.op = 4) ∨ (i = .cmdScatterRows id ∧ c.op = 5) ∨ (i = .cmdFill id ∧ c.op = 6) ∨
       (i = .cmdMcastLoad id ∧ c.op = 7)) →
     Copy.flush t (c.unitsOf c.stage) c s = (s1, c', .ok ()) → exec i s = .next (setCopy c' s1)) ∧
  (∀ (c : Copy) arr u x bs, (x, bs) ∈ c.runs arr u →
     bs ≠ [] ∧ c.unitOf x = u ∧ c.unitOf (x + bs.length - 1) = u) ∧
  ((∀ s id c t, s.copy? id = some c → s.team? c.team = some t → c.susp = none → c.stage = [] →
     (c.fail ≠ none ∨ c.count ≤ c.done) → (c.kind ≠ 2 ∨ c.flag 4 = true) → (c.kind = 3 → c.slot.isSome = true) →
     let r := c.objs.foldl (fun r a => ((c.signal t a r.1).1, r.2 && (c.signal t a r.1).2)) (s, true)
     exec (.copyCompletion id) s = .next (c.finish t r.2 r.1)) ∧
   (∀ (c : Copy) t a s k, c.kind = 1 → scratchKey s t a 16 = some k → poolBad s k 16 = none →
     let u := poolFix s k 16
     (c.fail = none → c.signal t a s = (putBarrier k ((barrierAt s k).arriveBytes c.bytes false) u, true)) ∧
     (∀ x, c.fail = some x → (x ≤ 8 ∨ x = 0x0C) →
       c.signal t a s = (putBarrier k { barrierAt s k with err := true, ovf := true } u, true)) ∧
     (∀ x, c.fail = some x → 8 < x → x ≠ 0x0C →
       c.signal t a s = (putBarrier k ((barrierAt s k).arriveBytes c.bytes true) u, true))) ∧
   (∀ (c : Copy) t s, c.fail = none → c.finish t true s =
     considerRings c.core { s with copies := s.copies.filter fun x => x.id ≠ c.id }) ∧
   (∀ s id c t ord, s.copy? id = some c → s.team? c.team = some t → c.susp = some ord →
     (faultAnswer s t.ctx ord = some true → exec (.copyResume id) s = .next (setCopy { c with susp := none } s)) ∧
     (faultAnswer s t.ctx ord = some false → c.fail = none → c.done < c.count →
       exec (.copyResume id) s = .next (setCopy { c with susp := none, fail := some 0x09 } s)) ∧
     (faultAnswer s t.ctx ord = none → exec (.copyResume id) s = .next s)))

/-! ## The matrix array and Citrine -/

/-- O42. The matrix instructions check their descriptor, wait while the array is slaved or their group's stores are
out, and are accepted when an entry is free; `mzero` needs its bank; `orsv` and `orel` write a reservation record once
no operation of the group names it (R214, R220, R221, R228, R230, R233 to R235). `mwt` waits for the operations of its
banks that stood in the queue when it first executed, then completes, or traps MTX with the ECAUSE of the first bank
in error and clears its ERR; `mstat` returns a bank's row progress, 0 for a bank the team does not own, and answers
while the core is slaved (that is the model's choice, log 27) (R231, R236, R237). -/
def Obligations.MatrixInstructions : Prop :=
  ((∀ s e f form, form ≤ 2 → Executes s e (mmaOf form f) f → s.phase = .run →
     let d := e.wide 0 f.s1 8
     let oa := e.rsv (field d 196 3)
     let ob := e.rsv (field d 199 3)
     let e' := committed e
     (slaved e = true → exec (mmaOf form f) s = concluded e f (.wait s .retry)) ∧
     (slaved e = false → ∀ k, mmaCheck form f e d oa ob = some k →
       exec (mmaOf form f) s = concluded e f (.trap s { cause := 0x0D, detail := k })) ∧
     (slaved e = false → mmaCheck form f e d oa ob = none → storesOut s e.gid = true →
       exec (mmaOf form f) s = concluded e f (.wait s .retry)) ∧
     (slaved e = false → mmaCheck form f e d oa ob = none → storesOut s e.gid = false → storesOut e'.st e.gid = false →
       hasRoom e' (fV f) → exec (mmaOf form f) s = concluded e f (.done (queued e' (opNum f.d) (fV f)
         (.mma form (BitVec.ofNat 4 (fFa f)) (BitVec.ofNat 4 (fFb f)) (BitVec.ofNat 256 d) oa ob) [])))) ∧
   (∀ s e f, Executes s e (.mzero f) f → s.phase = .run → slaved e = false →
     let e' := committed e
     (e'.team.banks.getLsbD (opNum f.d) = false →
       exec (.mzero f) s = concluded e f (.trap e'.st { cause := 0x0D, detail := 0x01 })) ∧
     (e'.team.banks.getLsbD (opNum f.d) = true → (fV f = true → pairOk e' (opNum f.d) = true) → hasRoom e' (fV f) →
       exec (.mzero f) s = concluded e f (.done (queued e' (opNum f.d) (fV f) .zero [])))) ∧
   (∀ s e f, s.phase = .run → slaved e = false →
     let e' := committed e
     (∀ m ∈ e'.st.matq, m.owner = e.gid → m.names (opNum f.d) = false) →
     let base := e'.n32 0 (.op f.s1)
     let len := e'.n32 0 (.op f.s2)
     let put (r : Rsv) : Res := .done (e'.mod fun g => { g with o := Assoc.wr .empty g.o (opNum f.d) r })
     (Executes s e (.orsv f) f → base % 128 = 0 → len % 128 = 0 → base + len ≤ e'.team.obSize * 4096 →
       exec (.orsv f) s = concluded e f (put ⟨true, BitVec.ofNat 18 base, BitVec.ofNat 19 len, BitVec.ofNat 4 (fFa f),
         fFb f == 1, BitVec.ofNat 32 (e'.uni f.s3 0), BitVec.ofNat 32 (e'.uni f.s4 0)⟩)) ∧
     (Executes s e (.orsv f) f → (base % 128 ≠ 0 ∨ len % 128 ≠ 0 ∨ e'.team.obSize * 4096 < base + len) →
       exec (.orsv f) s = concluded e f (.trap e'.st { cause := 0x0D, detail := 0x05 })) ∧
     (Executes s e (.orel f) f → exec (.orel f) s = concluded e f (put { e'.rsv (opNum f.d) with valid := false })))) ∧
  ((∀ s e f, Executes s e (.mwt f) f → s.phase = .run → slaved e = false →
     let e' := committed e
     let bs := e'.mwtBanks f
     let mark := e'.grp.mwtMark.getD e'.st.nextId
     let covered (m : MatOp) : Prop := m.id < mark ∧ m.onCore e'.core = true ∧ ∃ b ∈ bs, m.onBank b = true
     let done := e'.mod fun g => { g with mwtMark := none }
     ((∃ b ∈ bs, e'.team.banks.getLsbD b = false) →
       exec (.mwt f) s = concluded e f (.trap e'.st { cause := 0x0D, detail := 0x01 })) ∧
     ((∀ b ∈ bs, e'.team.banks.getLsbD b = true) →
       ((∃ m ∈ e'.st.matq, covered m) → exec (.mwt f) s = concluded e f
         (.wait (e'.mod fun g => { g with mwtMark := some mark }) .retry)) ∧
       ((∀ m ∈ e'.st.matq, ¬ covered m) → (∀ b ∈ bs, (e'.st.mrpOf e'.core b).err = false) →
         exec (.mwt f) s = concluded e f (.done done)) ∧
       ((∀ m ∈ e'.st.matq, ¬ covered m) → ∀ b, bs.find? (fun b => (e'.st.mrpOf e'.core b).err) = some b →
         let r := e'.st.mrpOf e'.core b
         exec (.mwt f) s = concluded e f (.trap (done.setMrp e'.core b { r with err := false })
           { cause := 0x0D, detail := r.ecause.toNat, addr := r.addr.toNat })))) ∧
   (∀ s e f, Executes s e (.mstat f) f → s.phase = .run →
     exec (.mstat f) s = concluded e f (.done (writeLong e false (laneWrites e f 1 fun _ =>
       if e.team.banks.getLsbD (opNum f.s1) then mrpWord s e.core (opNum f.s1) else 0) s))))

/-- O43. A row of a matrix operation reads its operands chunk by chunk in ascending K, in each chunk A and its metadata
before the columns of B, and the first read that fails is the one reported; it changes exactly the 48 elements of its
accumulator row, to the values of R226 on the operands as read, and advances ROWS; an operation with nothing left to do takes its effect and leaves; a suspended
one goes on, or ends with ECAUSE 0x10 (R214, R226, R229 to R233, R235, R255, R257). -/
def Obligations.MatrixRows : Prop :=
  (∀ s id m t form fa fb d oa ob s2 xs, s.mat? id = some m → m.kind = .mma form fa fb d oa ob →
    s.team? m.owner.team = some t → matReady s m = true → bankErr s m = false → m.row < dRows d.toNat → m.bank < 4 →
    let a := sideA form fa.toNat d.toNat oa
    let b := sideB fb.toNat d.toNat ob
    let chunks := dK d.toNat / chunkLen form fa.toNat
    readChunks m t form d.toNat a b chunks (List.range chunks) [] s = (s2, .ok xs) →
    let core := m.core + m.row / 64
    let old (n : Nat) : Nat := (s2.acc? core m.bank (m.row % 64) n).toNat
    let l := rowOf form d.toNat a xs
    let bs := (List.range 48).map fun n => colOf b xs (n * b.str)
    ∃ u, exec (.matrixRowComplete id) s = .next u ∧
      (∀ n, n < 48 → u.acc? core m.bank (m.row % 64) n =
        BitVec.ofNat 32 ((rowValues form fa.toNat fb.toNat m.rmode.toNat old l bs).getD n 0)) ∧
      (∀ c k r n, k < 4 → r < 64 → n < 48 → ¬ (c = core ∧ k = m.bank ∧ r = m.row % 64) → u.acc? c k r n = s2.acc? c k r n) ∧
      (u.mrpOf m.core m.bank).rows = m.row + 1 ∧
      u.matq = s2.matq.map fun q => if q.id = m.id then { m with row := m.row + 1, started := true } else q) ∧
  (∀ m t form d a b n c cs old s s1 r,
    (readChunk m t form d a b n old c s = (s1, .error r) →
      readChunks m t form d a b n (c :: cs) old s = (s1, .error r)) ∧
    (sideReads m t a (a.chunkReads form (m.row * a.str) n c) s = (s1, .error r) →
      readChunk m t form d a b n old c s = (s1, .error r))) ∧
  (∀ s id m, s.mat? id = some m → matReady s m = true →
    let gone : List MatOp := s.matq.filter fun q => q.id ≠ id
    (bankErr s m = true → exec (.matrixRetire id) s = .next { s with matq := gone }) ∧
    (bankErr s m = false →
      (m.kind = .zero → m.bank < 4 → ∃ u, exec (.matrixRetire id) s = .next u ∧ u.matq = gone ∧
        (∀ r n, r < 64 → n < 48 → u.acc? m.core m.bank r n = 0 ∧ (m.pair = true → u.acc? (m.core + 1) m.bank r n = 0)) ∧
        (∀ c k r n, k < 4 → r < 64 → n < 48 → k ≠ m.bank ∨ (c ≠ m.core ∧ c ≠ m.core + 1) → u.acc? c k r n = s.acc? c k r n) ∧
        (u.mrpOf m.core m.bank).rows = if m.pair then 128 else 64) ∧
      (∀ form fa fb d oa ob, m.kind = .mma form fa fb d oa ob → dRows d.toNat ≤ m.row →
        exec (.matrixRetire id) s = .next { s with matq := gone }) ∧
      (∀ slot ws src, m.kind = .prog slot ws src →
        exec (.matrixRetire id) s = .next { s with
          matq := gone
          epi := Assoc.put s.epi (m.core * 8 + slot) ws
          epiSrc := Assoc.put s.epiSrc (m.core * 8 + slot) src }) ∧
      (∀ dst row lanes, m.kind = .tkrd dst row lanes → exec (.matrixRetire id) s = .next (fillRegs m.owner
        (lanes.flatMap fun j =>
          let x := if j < 8 then (Assoc.rd [] s.top (m.core * 128 + row))[j]? else none
          [⟨⟨.v, dst, j⟩, (x.map (·.val)).getD 0xFF800000⟩,
            ⟨⟨.v, dst + 1, j⟩, (x.map fun y => y.col.setWidth 32 ||| 0x80000000).getD 0⟩])
        { s with matq := gone })) ∧
      (∀ row, m.kind = .tkclr row → (∀ r, row = some r → r < 128) → ∃ u, exec (.matrixRetire id) s = .next u ∧ u.matq = gone ∧
        ∀ c r, r < 128 → Assoc.rd [] u.top (c * 128 + r) =
          if c = m.core ∧ (row = none ∨ row = some r) then [] else Assoc.rd [] s.top (c * 128 + r)))) ∧
  (∀ s id m ord, s.mat? id = some m → m.susp = some ord →
    (faultAnswer s m.ctx ord = none → exec (.matrixResume id) s = .next s) ∧
    (faultAnswer s m.ctx ord = some true → (∀ d k, m.kind ≠ .drain d k) → exec (.matrixResume id) s = .next (setMat
      { m with susp := none, run := none } (s.setMrp m.core m.bank { s.mrpOf m.core m.bank with susp := false }))) ∧
    (faultAnswer s m.ctx ord = some false → ∃ u, exec (.matrixResume id) s = .next u ∧
      u.matq = (s.matq.filter fun q => q.id ≠ m.id) ∧ (u.mrpOf m.core m.bank).err = true ∧
      (u.mrpOf m.core m.bank).ecause = 0x10 ∧ (u.mrpOf m.core m.bank).susp = false))

/-- O44. `mprog` reads a program and queues its load into a slot of the team; `mdrain` queues a drain through a loaded
slot; `tkrd` and `tkclr` queue a read or a clear of the running top-k (R238, R241, R244, R245, R255 to R258). -/
def Obligations.CitrineInstructions : Prop :=
  (∀ s e f s1 bs, Executes s e (.mprog f) f → s.phase = .run → slaved e = false →
    let e' := committed e
    let slot := e'.n32 0 (.op f.s1)
    let n := e'.n32 0 (.op f.s3)
    (slotOk e' slot = false → exec (.mprog f) s = concluded e f (.trap e'.st { cause := 0x0D, detail := 0x0B })) ∧
    (slotOk e' slot = true → 0 < n → n ≤ 32 → loadRange e' (e'.gbase f.s2) 0 (4 * n) 4 e'.st = .ok (s1, bs) →
      let ws := words4 n bs
      (programValid ws = false →
        exec (.mprog f) s = concluded e f (.trap (e'.at s1).st { cause := 0x0D, detail := 0x0A })) ∧
      (programValid ws = true → ((∃ w ∈ ws, citOp w = 0x11) → (e'.at s1).team.tkOwn = true) → hasRoom (e'.at s1) false →
        let u := queued (e'.at s1) 0 false (.prog slot ws (BitVec.ofNat 64 (((e'.at s1).gbase f.s2).va 0).toNat)) []
        let k := (e'.at s1).core * 8 + slot
        exec (.mprog f) s = concluded e f (.done
          (if (Assoc.get? u.epi k).isSome then u else { u with epi := Assoc.put u.epi k [] }))))) ∧
  (∀ s e f k, Executes s e (.mdrain f) f → s.phase = .run → slaved e = false →
    let d := e.wide 0 f.s1 8
    let slot := e.n32 0 (.op f.s2)
    let e' := committed e
    e.team.banks.getLsbD (opNum f.d) = true → slotOk e slot = true →
    (Assoc.get? s.epi (e.core * 8 + slot)).isSome = true →
    (drainBad d = true → exec (.mdrain f) s = concluded e f (.trap s { cause := 0x0D, detail := 0x0D })) ∧
    (drainBad d = false → localLook s e.team (field d 96 32) 64 16 = .ok k → storesOut s e.gid = false →
      storesOut e'.st e.gid = false → hasRoom e' false → exec (.mdrain f) s = concluded e f
        (.done (queued e' (opNum f.d) false (.drain (BitVec.ofNat 256 d) slot) [])))) ∧
  (∀ s e f, s.phase = .run → slaved e = false →
    let e' := committed e
    let row := e'.uni f.s1 0
    (∀ i, i = .tkrd f ∨ i = .tkclr f → Executes s e i f →
      (e'.team.tkOwn = false → exec i s = concluded e f (.trap e'.st { cause := 0x0D, detail := 0x0C })) ∧
      (e'.team.tkOwn = true → 127 < row → exec i s = concluded e f
        (.trap e'.st { cause := 0x05, detail := 0x04, addr := row }))) ∧
    (e'.team.tkOwn = true → row ≤ 127 → hasRoom e' false →
      (Executes s e (.tkrd f) f → exec (.tkrd f) s = concluded e f
        (.done (queued e' 0 false (.tkrd (opNum f.d) row e'.lanes) (opRegs f.d 2 e'.lanes)))) ∧
      (Executes s e (.tkclr f) f → exec (.tkclr f) s = concluded e f
        (.done (queued e' 0 false (.tkclr (if f.s1 = .none then none else some row)) [])))))

/-- O45. A word of a Citrine program acts on every lane of the running row and moves to the next word: the arithmetic
words compute each lane, the reading words read an element for the row or for each column, `topk` ranks the live
columns, `spack` stages them, `store` makes their stores ready, and `end` ends the row (R239, R246 to R252). -/
def Obligations.CitrineWords : Prop :=
  ∀ s m r t, runningRow s s.curCore = some (m, r) → s.team? m.owner.team = some t →
    let goes (i : Instr) (r' : CitRun) (s' : Machine.State) : Prop := citFn i ≠ none →
      exec i s = .next (setMat { m with run := some { r' with ip := r'.ip + 1 } } s')
    (∀ i c fn, rowWords i = some (c, fn) → goes i (r.set c.xd (fn m r)) s) ∧
    (∀ i c row fn s' xs, rowLoads i = some (c, row, fn) →
      citReads m t c (if row then [m.m0 + r.row] else (List.range 48).map (m.n0 + ·)) s = (s', .ok xs) →
      goes i (r.set c.xd fun n => fn m r n (xs.getD (if row then 0 else n) 0)) s') ∧
    (∀ c, goes (.citTopk c) { r with ranks := r.ranks ++ [(r.row + (if c.st.getLsbD 0 then 64 else 0), c.t.toNat,
      (List.range m.nlive).map fun n => BitVec.ofNat 32 (r.lane c.xa.toNat n))] } s) ∧
    (∀ c, goes (.citSpack c) { r with staged := (List.range m.nlive).foldl (fun a n => Assoc.put a (48 * r.row + n)
      (BitVec.ofNat 32 (r.lane c.xa.toNat n % 2 ^ (8 * (tyBits c.t.toNat / 8))))) r.staged } s) ∧
    (∀ c s' l, outElems m t (tyBits c.t.toNat / 8) ((List.range m.nlive).map fun n =>
        (r.row * field m.drainDesc 64 32 + n * (tyBits c.t.toNat / 8), toBytes (tyBits c.t.toNat / 8) (r.lane c.xa.toNat n))) s =
          (s', .ok l) → goes (.citStore c) { r with stores := r.stores ++ l } s') ∧
    (∀ c, goes (.citEnd c) { r with ip := 32 } s) ∧
    (∀ k v j n, n < 48 → j < 8 → (r.set k v).lane j n = if j = k.toNat then v n % 2 ^ 32 else r.lane j n)

/-- O46. A drain starts when its turn comes and its parameter block is read; a row whose words have run commits and
ROWS counts it; the drain retires after its last row, zeroing the bank under CLR; the running top-k keeps at most K
entries, each an old one or a non-NaN value of the row with its column (R238, R241, R242, R249, R251). -/
def Obligations.Drains : Prop :=
  (∀ s core m t k s1 bs, drainAt s core = some m → m.started = false → bankErr s m = false → s.team? m.owner.team = some t →
    localLook s t (field m.drainDesc 96 32) 64 16 = .ok k → poolRead s k.1 64 = (s1, bs, false) →
    let m1 : MatOp := { m with
      started := true
      consts := (List.range 16).map fun k => BitVec.ofNat 32 (ofBytes ((bs.drop (4 * k)).take 4))
      ts := BitVec.ofNat 32 (fround f32 0 false ((f32v (field m.drainDesc 192 32)).mul (f32v (field m.drainDesc 224 32)))) }
    exec (.drainStart core) s = .next (setMat { m1 with run := some (CitRun.start s1 m1 0) } (setRows m 0 s1))) ∧
  (∀ s core m r t s1 r1, runningRow s core = some (m, r) → s.team? m.owner.team = some t →
    runRow m t (slotWords s core (drainSlot m)) 33 r s = (s1, .ok r1) → rowHeld s1 r1.stores = false →
    (r1.row + 1 ≠ m.mlive ∨ r1.staged = []) →
    exec (.drainRowCommit core) s = .next (commitRow m r1 s1) ∧
    ((commitRow m r1 s1).mrpOf m.core m.bank).rows = r1.row + 1) ∧
  (∀ s core m, drainAt s core = some m → m.started = true → m.run = none → m.mlive ≤ m.row → m.bank < 4 →
    ∃ u, exec (.drainRetire core) s = .next u ∧ u.matq = (s.matq.filter fun q => q.id ≠ m.id) ∧
      ∀ c k r n, k < 4 → r < 64 → n < 48 → u.acc? c k r n =
        if bitAt m.drainDesc 175 = true ∧ c = m.core ∧ k = m.bank then 0 else s.acc? c k r n) ∧
  (∀ n0 k ents vals, (topAfter n0 k ents vals).length ≤ k ∧
    ∀ x ∈ topAfter n0 k ents vals, x ∈ ents ∨
      ∃ n v, vals[n]? = some v ∧ (f32v v.toNat).isNan = false ∧ x = ⟨v, BitVec.ofNat 16 (n0 + n)⟩)

/-! ## Experts -/

/-- O47. `rcnt` posts one addition for each distinct index, the lanes' increments saturated; an addition is applied,
in its group's order, saturating at 2^32 − 1; `rcsnap` checks its address and its bank, waits for the group's earlier
`rcnt`, commits the region, and writes the bank to scratchpad, clears it and returns the total (R370 to R372). `xtrain` posts one training step for each distinct pair of source and target, with the number of lanes
that named it, and `xtrain.decay` thirteen for each distinct row, after the checks of `atomg`; a layer above 127 traps
BOUNDS; `xpref` always completes (R373 to R375). -/
def Obligations.CountersAndTables : Prop :=
  ((∀ s e f b, Executes s e (.rcnt f) f →
     let e' := committed e
     let xs := (e'.memLanes f).map fun l => (e'.n32 l (.op f.s2) % 256, if f.s3 = .none then 1 else e'.n32 l (.op f.s3))
     routeBank e' f.s1 = .ok b → exec (.rcnt f) s = concluded e f (.done ((xs.map (·.1)).eraseDups.foldl (fun s i =>
       post e'.gid e'.team.ctx e'.core (.rcnt e'.die b i (BitVec.ofNat 32
         ((xs.filter fun x => x.1 == i).foldl (fun a x => min (a + x.2) 0xFFFFFFFF) 0))) s) e'.st))) ∧
   (∀ s e f, Executes s e (.rcnt f) f →
     let e' := committed e
     let b := e'.n32 0 (.op f.s1)
     (3 < b → exec (.rcnt f) s = concluded e f (.trap e'.st { cause := 0x05, detail := 0x04, addr := b })) ∧
     (b ≤ 3 → e'.ctx.rgrant.getLsbD (4 * e'.die + b) = false →
       exec (.rcnt f) s = concluded e f (.trap e'.st { cause := 0x06, detail := 0x06, addr := b }))) ∧
   (∀ s id p die b i v, s.pend? id = some p → p.kind = .rcnt die b i v → i < 256 →
     (∀ q ∈ s.pend, q.id < id → q.owner = p.owner → ∀ d b i v, q.kind ≠ .rcnt d b i v) →
     ∃ t, exec (.rcntApply id) s = .next t ∧ t.pend = s.pend.filter (fun q => q.id ≠ id) ∧
       ∀ d c j, j < 256 → (t.die d).counter c j =
         if d = die ∧ c = b ∧ j = i then min ((s.die die).counter b i + v.toNat) 0xFFFFFFFF else (s.die d).counter c j) ∧
   (∀ s e f b a k, Executes s e (.rcsnap f) f →
     let e' := committed e
     routeBank e f.s2 = .ok b → e.n32 0 (.op f.s1) = a → scratchLook e.st e.team a 1024 16 = .ok k →
     ((∃ p ∈ e.st.pend, p.owner = e.gid ∧ ∃ d b i v, p.kind = .rcnt d b i v) →
       exec (.rcsnap f) s = concluded e f (.wait e.st .retry)) ∧
     ((∀ p ∈ e.st.pend, p.owner = e.gid → ∀ d b i v, p.kind ≠ .rcnt d b i v) → ∃ t, (∀ c j, j < 256 → (t.die e'.die).counter c j = if c = b then 0 else (e'.st.die e'.die).counter c j) ∧
       (∀ d, d ≠ e'.die → t.die d = e'.st.die d) ∧
       t = { e'.st with dies := t.dies } ∧
       exec (.rcsnap f) s = concluded e f (.done (writeLong (e.at t) false (dstWrites f.d 1 0
         (min (((List.range 256).map fun i => (e'.st.die e'.die).counter b i).foldl (· + ·) 0) 0xFFFFFFFF))
         (poolWrite t k.1 ((List.range 256).flatMap fun i => toBytes 4 ((e'.st.die e'.die).counter b i)))))))) ∧
  ((∀ s e f,
     let e' := committed e
     let layer := e'.n32 0 (.op f.s4)
     (∀ i, i = .xtrain f ∨ i = .xtrainDecay f → Executes s e i f → 127 < layer →
       exec i s = concluded e f (.trap e'.st { cause := 0x05, detail := 0x04, addr := layer })) ∧
     (∀ i acts decay s1 xs, layer ≤ 127 → Executes s e i f →
       ((i = .xtrain f ∧ decay = false ∧ acts = (distinctLanes ((e'.memLanes f).map fun l =>
           (l, e'.n32 l (.op f.s2) % 256 * 256 + e'.n32 l (.op f.s3) % 256))).map fun (l, v, m) =>
             (l, 26624 * layer + 104 * (v / 256) + 8 * (v % 256 / 21), v % 256 % 21, m)) ∨
         (i = .xtrainDecay f ∧ decay = true ∧ acts = (distinctLanes ((e'.memLanes f).map fun l =>
           (l, e'.n32 l (.op f.s2) % 256))).flatMap fun (l, v, _) => (List.range 13).map fun w =>
             (l, 26624 * layer + 104 * v + 8 * w, if w = 12 then 4 else 21, 0))) →
       resolveGlobal e' (.ptr (e'.wide 0 f.s1 2))
         (fun k => match acts[k]? with | some (_, x, _, _) => (x : Nat) | none => 0) 8 8 .rmw
         (fun loc ca => isHost loc && ca != 0) e'.st (List.range acts.length) = .ok (s1, xs) →
       (∀ x ∈ xs, listBlocks e' s1 true x.loc 8 = false) →
       exec i s = concluded e f (.done ((xs.zip acts).foldl (fun s (x, _, _, ctr, m) =>
         post e'.gid e'.team.ctx e'.core (.train x.loc ctr m decay) (l1DropRange e'.core x.loc 8 s)) s1)))) ∧
   (∀ s e f, Executes s e (.xpref f) f → ∃ t, exec (.xpref f) s = concluded e f (.done t) ∧ SameGroups s t ∧
     t.pend = s.pend ∧ t.pool = s.pool))

/-! ## Classes, grants and repeats -/

/-- O48. The class loop: `dist` opens a frame on the least key of the active lanes, `dnext` moves to the next larger
key or closes the frame, `dbrk` closes frames, `dleave` takes lanes out; a frame used out of order traps; the lanes of
a class are those that hold its key (R339 to R347). `exit` ends the active threads: the group goes on with what is
left of its class, or at the `dnext` of the outermost frame whose class is empty, or ends with its last thread (R335,
R347, R348). -/
def Obligations.ClassLoops : Prop :=
  ((∀ s e f, Executes (settled s) e (.dist f) f →
     let pc := e.grp.pc
     (fFr f ≠ e.grp.frames.length → exec (.dist f) s = concluded e f (.trap e.st { cause := 0x09 })) ∧
     (fFr f = e.grp.frames.length → e.lanes = [] → exec (.dist f) s = concluded e f (.goto e.st (branchTarget pc f))) ∧
     (∀ cur, fFr f = e.grp.frames.length → firstKey (fKt f) (e.lanes.map (e.key f)) = some cur → ∃ fr : Frame,
       fr.cur = cur ∧ fr.kt = BitVec.ofNat 4 (fKt f) ∧ fr.kreg = BitVec.ofNat 7 (opNum f.d) ∧
       fr.body.toNat = (pcAdd pc 12).toNat % 2 ^ 57 ∧ fr.fend.toNat = (branchTarget pc f).toNat % 2 ^ 57 ∧
       fr.outer = e.active ∧ fr.dep = 0 ∧ (∀ l ∈ e.lanes, Assoc.rd 0 fr.keys l = e.key f l) ∧
       exec (.dist f) s = concluded e f (.goto (e.mod fun g => { g with frames := fr :: g.frames }.setRegs
         (dstWrites (.s fr.kreg) (tyRegs fr.kt.toNat) 0 cur.toNat)) (pcAdd pc 12)))) ∧
   (∀ s e f, Executes (settled s) e (.dnext f) f →
     (e.grp.frames = [] → exec (.dnext f) s = concluded e f (.trap e.st { cause := 0x09 })) ∧
     (∀ fr rest, e.grp.frames = fr :: rest →
       let here := fFr f = rest.length ∧ e.grp.pc.toNat % 2 ^ 57 = (fr.nextPc e.grp.pc).toNat % 2 ^ 57
       let keys := (fr.remaining e.grp.exited).map fun l => Assoc.rd 0 fr.keys l
       (¬ here → exec (.dnext f) s = concluded e f (.trap e.st { cause := 0x09 })) ∧
       (here → keys = [] → exec (.dnext f) s = concluded e f
         (.goto (e.mod fun g => { g with frames := rest }) (pcSet e.grp.pc fr.fend.toNat))) ∧
       (∀ k, here → firstKey fr.kt.toNat keys = some k →
         let ws := dstWrites (.s fr.kreg) (tyRegs fr.kt.toNat) 0 k.toNat
         (∀ w ∈ ws, e.grp.isEmpty w.dst = false) → exec (.dnext f) s = concluded e f
           (.goto (e.mod fun g => { g with frames := { fr with cur := k } :: rest }.setRegs ws)
             (pcSet e.grp.pc fr.body.toNat))))) ∧
   (∀ s e f, Executes (settled s) e (.dbrk f) f →
     (e.grp.frames.length ≤ fFr f → exec (.dbrk f) s = concluded e f (.trap e.st { cause := 0x09 })) ∧
     (∀ fr, e.grp.frames.reverse[fFr f]? = some fr → exec (.dbrk f) s = concluded e f
       (.goto (e.mod fun g => { g with frames := g.frames.drop (g.frames.length - fFr f) })
         (pcSet e.grp.pc fr.fend.toNat)))) ∧
   (∀ s e f, Executes (settled s) e (.dleave f) f →
     (e.grp.frames.length ≤ fFr f → exec (.dleave f) s = concluded e f (.trap e.st { cause := 0x09 })) ∧
     (fFr f < e.grp.frames.length → ∃ (l : Mask) (g : Group),
       (∀ i, i < 128 → l.getLsbD i = (e.isActive i && e.pred i f.s1)) ∧
       g = { e.grp with cond := .ready, frames := g.frames } ∧ g.frames.length = e.grp.frames.length ∧
       (∀ k fr, e.grp.frames.reverse[k]? = some fr → g.frames.reverse[k]? = some
         (if k = fFr f then { fr with dep := fr.dep ||| l }
           else if fFr f < k then { fr with outer := fr.outer &&& ~~~l } else fr)) ∧
       exec (.dleave f) s = concluded e f (.stay (modGroup e.gid (fun _ => leaveLanes e g) e.st)))) ∧
   (∀ kt ks k, firstKey kt ks = some k → k ∈ ks ∧ ∀ j ∈ ks, keyLess kt j k = false) ∧
   (∀ (fr : Frame) x l, l < 128 → (fr.class x).getLsbD l =
     (fr.outer.getLsbD l && !fr.dep.getLsbD l && !x.getLsbD l && decide (Assoc.rd 0 fr.keys l = fr.cur)))) ∧
  ((∀ s e f, Executes s e (.exit f) f →
     let e' := committed e
     let g := e'.grp
     exec (.exit f) s = concluded e f (.stay (setwTry e'.gid.team (modGroup e'.gid (fun _ => leaveLanes e' { g with
       cond := .ready
       exited := g.exited ||| e'.active
       frames := g.frames.map fun fr => { fr with outer := fr.outer &&& ~~~e'.active } }) e'.st)))) ∧
   (∀ e g, (threadMask e.team g.idx &&& ~~~g.exited = 0 → (leaveLanes e g).cond = .ended ∧ (leaveLanes e g).frames = []) ∧
     (threadMask e.team g.idx &&& ~~~g.exited ≠ 0 → activeOf e.team g ≠ 0 →
       leaveLanes e g = { g with pc := pcAdd g.pc 12 }) ∧
     (threadMask e.team g.idx &&& ~~~g.exited ≠ 0 → activeOf e.team g = 0 →
       ∀ k fr, g.frames.reverse[k]? = some fr → fr.class g.exited = 0 →
         (∀ j fr', j < k → g.frames.reverse[j]? = some fr' → fr'.class g.exited ≠ 0) →
         leaveLanes e g = { g with frames := g.frames.drop (g.frames.length - (k + 1)), pc := fr.nextPc g.pc })))

/-- O49. `setw` arrives with its width clamped and rounded down, and in an open class traps; once every live group has
arrived and some width up to the least request fits, the team has the widest such grant: at an unchanged grant each
group that arrived goes on at the next instruction with the grant in D, and at a new one every group is ready after
the `setw` with fired monitors and no open frame or region (R322 to R325). Where every live group waits, one at least in
`setw` and one in `tbar`, those in `setw` trap (R326). `regx` traps a count above the kernel's maximum, answers at once where the group has as much, and
else queues its request; the oldest request is granted when the pool and the partition have its bytes, and the group
goes on with the allocation in D; after 4,096 clk without an issue the youngest request, where it cannot be granted,
is denied with D = 0; `regr` gives registers back (R328 to R331). -/
def Obligations.GrantsAndAllocations : Prop :=
  ((∀ s e f, Executes s e (.setw f) f →
     let e' := committed e
     (e.grp.frames ≠ [] → exec (.setw f) s = concluded e f (.trap s { cause := 0x0A })) ∧
     (e.grp.frames = [] → e'.grp.sEmpty = 0 → e'.grp.vEmpty = [] →
       let x := e'.n32 0 (.op f.s1)
       let r := pow2Floor 7 (min (max (if x = 0 then e'.team.whi else x) e'.team.wlo) e'.team.whi)
       let d := match f.d with | .s n => some n.toNat | _ => none
       exec (.setw f) s = concluded e f (.stay (setwTry e'.gid.team
         (e'.mod fun g => { g with cond := .wait (.setw r d) }))))) ∧
   (∀ (t : Team) src rest, t.live = src :: rest →
     ((∃ g ∈ t.live, arrival g = none) → setwDone t = t) ∧
     ((∀ g ∈ t.live, (arrival g).isSome = true) →
       let r := (t.live.filterMap arrival).foldl (fun m x => min m x.1) 128
       let alloc := (t.live.map (·.alloc)).foldl max 0
       ∀ w, widest t.gslots t.rquota (liveThreads t) alloc t.wlo r = some w →
         (setwDone t).grant = w ∧ (setwDone t).tbar = 0 ∧
         (w = t.grant → ∀ g ∈ t.groups, ∀ n d, arrival g = some (n, d) → { g with cond := .ready, pc := pcAdd g.pc 12 }.setRegs
           (match d with | some k => [⟨⟨.s, k, 0⟩, BitVec.ofNat 32 w⟩] | none => []) ∈ (setwDone t).groups) ∧
         (w ≠ t.grant → ∀ g ∈ (setwDone t).groups, g.cond = .ready ∧ g.pc = pcAdd src.pc 12 ∧ g.alloc = alloc ∧
           g.frames = [] ∧ g.region = none ∧ (∀ m ∈ g.mon, m.fired = true) ∧
           threadMask { t with grant := w } g.idx &&& ~~~g.exited ≠ 0))) ∧
   (∀ s uid t, s.team? uid = some t →
     let stuck : Prop := (∃ g ∈ t.live, (arrival g).isSome = true) ∧ (∃ g ∈ t.live, inTbar g = true) ∧
       ∀ g ∈ t.live, ∃ w, g.cond = .wait w
     (stuck → exec (.setwseq uid) s = .next ((t.live.filter fun g => (arrival g).isSome).foldl
       (fun s g => takeTrap ⟨uid, g.idx⟩ { cause := 0x13 } s) s)) ∧
     (¬ stuck → exec (.setwseq uid) s = .next s))) ∧
  ((∀ s e f, Executes s e (.regx f) f →
     let e' := committed e
     let n := (e'.n32 0 (.op f.s1) + 7) / 8 * 8
     let d := match f.d with | .s k => some k.toNat | _ => none
     (e'.team.regMax < n → exec (.regx f) s = concluded e f (.trap e'.st { cause := 0x05, detail := 0x04, addr := n })) ∧
     (n ≤ e'.team.regMax → n ≤ e'.grp.alloc →
       exec (.regx f) s = concluded e f (.done (writeLong e' false (dstWrites f.d 1 0 e'.grp.alloc) e'.st))) ∧
     (n ≤ e'.team.regMax → e'.grp.alloc < n →
       let t := e'.mod fun g => { g with cond := .wait (.regx n) }
       exec (.regx f) s = concluded e f (.stay { t with regx := t.regx ++ [⟨e'.gid, n, d⟩] }))) ∧
   (∀ s core x, oldestRequest s core = some x →
     let need := x.2.grant * (x.1.n - x.2.grp.alloc) * 4
     let held := teamRegs s x.2.team
     let grow := max x.2.team.rquota (held + need) - max x.2.team.rquota held
     (need ≤ growthPool s x.2.core → grow ≤ partRoom s x.2.core x.2.team.part → ∃ t g', exec (.regxGrant core) s = .next t ∧
       groupOf t x.1.g = some g' ∧ g'.alloc = x.1.n ∧ g'.cond = .ready ∧ g'.pc = pcAdd x.2.grp.pc 12 ∧
       (∀ k, x.1.dst = some k → g'.reg ⟨.s, k, 0⟩ = BitVec.ofNat 32 x.1.n) ∧ t.regx = s.regx.filter (· ≠ x.1) ∧
       SameOthers s t x.1.g) ∧
     ((growthPool s x.2.core < need ∨ partRoom s x.2.core x.2.team.part < grow) → exec (.regxGrant core) s = .next s)) ∧
   (∀ s core, (Assoc.rd 0 s.idle core < 4096 → exec (.regxDenial core) s = .next s) ∧
     (∀ x y, 4096 ≤ Assoc.rd 0 s.idle core → x ∈ coreRequests s core → y ∈ coreRequests s core →
       oldestRequest s core = some y → (∀ z ∈ coreRequests s core, z ≠ x → requestKey z < requestKey x) →
       (x.1 ≠ y.1 ∨ grantable s x = false) → exec (.regxDenial core) s =
         .next (answerRequest x.1 x.2.grp.alloc 0 { s with idle := Assoc.del s.idle core }))) ∧
   (∀ s e f, Executes s e (.regr f) f →
     let n := (e.n32 0 (.op f.s1) + 7) / 8 * 8
     ((e.team.regMax < n ∨ n < e.team.regMin) →
       exec (.regr f) s = concluded e f (.trap s { cause := 0x05, detail := 0x04, addr := n })) ∧
     (e.team.regMin ≤ n → n ≤ e.team.regMax → e.grp.alloc ≤ n →
       exec (.regr f) s = concluded e f (.done (writeFixed e 4 3 (dstWrites f.d 1 0 e.grp.alloc)))) ∧
     (e.team.regMin ≤ n → n ≤ e.team.regMax → n < e.grp.alloc → (∀ x ∈ e.grp.vEmpty, x.1 < n) →
       exec (.regr f) s = concluded e f (.done (writeFixed (e.at (e.mod fun g => { g.cutRegs n with alloc := n })) 4 3
         (dstWrites f.d 1 0 n))))))

/-- O50. A repeat whose checks hold executes its target once in each step, the operands moved by the increments: until
the last iteration REPCTR counts and the program counter stays, and after it REPCTR is 0 and the group goes on after
the target; a prefix or a target that fails its checks traps at the prefix, an operand of a wrong class in any
iteration before the rules of the prefix (R48); the target's meaning is its own; a repeat of an arithmetic or a move
instruction that can execute writes what the target writes and goes on (R50 to R53). -/
def Obligations.RepeatRunsItsTarget : Prop :=
  (∀ alloc p opc f,
    ((∃ k, k ≤ p.count.toNat ∧ ∃ i, opInstr opc (repView p f k) = some i ∧ fate alloc i = some .illop) →
      repFate alloc p opc f = some .illop) ∧
    ((∀ k i, k ≤ p.count.toNat → opInstr opc (repView p f k) = some i → fate alloc i ≠ some .illop) →
      (pfxFate p ≠ none ∨ repOpcode opc = false) → repFate alloc p opc f = some .illenc)) ∧
  (∀ s e p s1 w, env? s s.cur = some e → fetchRes e (pcAdd e.grp.pc 12) = .ok (s1, w) →
    let e1 := e.at s1
    let opc := w.toNat % 2 ^ 9
    let n := p.count.toNat + 1
    let k := if e1.grp.repCtr.getLsbD 6 then e1.grp.repCtr.toNat % 64 else 0
    let after (e : Env) (g : Group) (f : Slk) (k n : Nat) : Group :=
      if k + 1 < n then
        { (if guardsTrue e f.ga f.gb then g.seeHaz f.d else g) with repCtr := BitVec.ofNat 32 (k + 65), pc := e.grp.pc }
      else { g with
        cond := .ready, repCtr := 0, pc := pcAdd e.grp.pc 24, haz := g.haz.map fun h => { h with seen := false } }
    (∀ x, repFate e1.grp.alloc p opc (splitSlk w) = some x →
      exec (.rep p) s = .next (takeTrap e1.gid { cause := match x with | .illop => 0x01 | .illenc => 0x02 } e1.st)) ∧
    (repFate e1.grp.alloc p opc (splitSlk w) = none → n ≤ k → exec (.rep p) s = .next (repEnd e1 e1.st)) ∧
    (∀ f i s2 g2, repFate e1.grp.alloc p opc (splitSlk w) = none → k < n → repWord p (splitSlk w) k = some f →
      opInstr opc f = some i → exec i (e1.mod fun g => { g with repCtr := BitVec.ofNat 32 (k + 64) }) = .next s2 →
      groupOf s2 e1.gid = some g2 → g2.cond = .ready → g2.inTrap = e1.grp.inTrap →
      (g2.region.any (·.refused) = true → e1.grp.region.any (·.refused) = true) →
      ∃ t, exec (.rep p) s = .next t ∧ SameOthers s2 t e1.gid ∧ groupOf t e1.gid = some (after e1 g2 f k n)) ∧
    (∀ f i (e2 : Env) ws, repFate e1.grp.alloc p opc (splitSlk w) = none → k < n → repWord p (splitSlk w) k = some f →
      opInstr opc f = some i → Executes (e1.mod fun g => { g with repCtr := BitVec.ofNat 32 (k + 64) }) e2 i f →
      ((∃ m op, arith i = some (f, m, op) ∧ ws = laneWrites e2 f (tyRegs (fTy f)) fun l =>
          wrapped (fTy f) (fSat f) (op (e2.int f m 1 l) (e2.int f m 2 l) (e2.int f m 3 l))) ∨
        (∃ m fn, moves i = some (f, m, fn) ∧ ws = laneWrites e2 f m (fn e2))) →
      ∃ t g2, exec (.rep p) s = .next t ∧ SameOutside e1.st t ∧ SameOthers e1.st t e1.gid ∧ Holds g2 ws ∧
        KeepsGroup e2.grp g2 (ws.map (·.dst)) ∧ groupOf t e1.gid = some (after e1 g2 f k n))) ∧
  (∀ opc f i s, repOpcode opc = true → opInstr opc f = some i → repExec i s = exec i s)

/-! ## Launch and dispatch -/

/-- O51. The front end takes the record at CONS of a queue that runs: CONS advances, and a record past its WAIT goes
on past its acquire; a record of a bad TYPE, with a reserved bit, or with too large an argument block stops the queue
with ECODE and EIDX and its CONS unchanged (R353 to R356). DIMS stops the queue for a bad or unmeasured kernel or a
bad dimensions word, does nothing for an empty grid, and else makes the grid active in the lowest free entry and frees
the queue, or waits for an entry with what it has read; a SIGNAL record adds to its fence once its release is done; a
fence that reaches the TARGET of a record that waits lets it go on for good, and that one at TARGET as the record comes
to stand there does so too is the model's choice (log 29); a grid leaves the table when all its teams have ended, with
its signal; a grid handed over from here leaves the table once it is drained, and one handed over to here enters the
lowest free entry, none of it before Spinel runs (R355 to R358, R424, R438). -/
def Obligations.FrontEnd : Prop :=
  ((∀ s c q ty i s1 r, ((i = .nopRecord c q ∧ ty = 0) ∨ (i = .launchRecord c q ∧ ty = 1)) →
     let y := (s.ctx c).queue q
     takesNew s c = true → y.st = .idle → y.stop = false → 1 ≤ y.qlog2.toNat → y.qlog2.toNat ≤ 12 → y.pub ≠ y.cons →
     (y.pub - y.cons).toNat ≤ 2 ^ y.qlog2.toNat →
     frontRead s c y.qbase.toNat (64 * (y.cons.toNat % 2 ^ y.qlog2.toNat) : Nat) 64 64 = (s1, .bytes r) →
     (recCheck r = none → recType r = ty → ∃ t, exec i s = .next t ∧ ((t.ctx c).queue q).cons = y.cons + 1 ∧
       ((t.ctx c).queue q).err = ((s1.ctx c).queue q).err ∧
       let x := BitVec.ofNat 512 r
       ((t.ctx c).queue q).st = if waitOver s1 c q x.toNat false = true then (if ty = 0 then .idle else .acq x)
         else if waitMetBy (field r 16 6) ((s.ctx c).fence (field r 16 6)) x = true then .met x else .held x) ∧
     (∀ k, recCheck r = some k → ∃ t, exec i s = .next t ∧
       let z := (t.ctx c).queue q
       z.cons = y.cons ∧ z.err = true ∧ z.stop = true ∧ z.ecode = BitVec.ofNat 8 k ∧ z.eidx = y.cons ∧ z.st = .idle)) ∧
   (∀ s c q s1 r, let y := (s.ctx c).queue q
     takesNew s c = true → y.st = .idle → y.stop = false → 1 ≤ y.qlog2.toNat → y.qlog2.toNat ≤ 12 → y.pub ≠ y.cons →
     (y.pub - y.cons).toNat ≤ 2 ^ y.qlog2.toNat →
     frontRead s c y.qbase.toNat (64 * (y.cons.toNat % 2 ^ y.qlog2.toNat) : Nat) 64 64 = (s1, .bytes r) →
     recCheck r = none → recType r = 2 → let x := BitVec.ofNat 512 r
     waitOver s1 c q x.toNat false = false → ∃ t, exec (.signalRecord c q) s = .next t ∧
       ((t.ctx c).queue q).cons = y.cons + 1 ∧ ((t.ctx c).queue q).st =
         if waitMetBy (field r 16 6) ((s.ctx c).fence (field r 16 6)) x = true then .met x else .held x) ∧
   (∀ r, recCheck r = if 2 < r % 256 then some 0x01
     else if field r 12 4 ≠ 0 ∨ field r 22 2 ≠ 0 ∨ field r 30 2 ≠ 0 ∨ field r 450 62 ≠ 0 ∨
       (r.testBit 9 = true ∧ field r 320 64 ≠ 0) then some 0x02
     else if 65536 < field r 32 32 then some 0x07 else none) ∧
   (∀ s c q r, ((s.ctx c).queue q).st = .held r → frontRuns s c = true →
     (waitOver s c q r.toNat false = false → exec (.fenceWaitMet c q) s = .next s) ∧
     (waitOver s c q r.toNat false = true → ∃ t, exec (.fenceWaitMet c q) s = .next t ∧
       ((t.ctx c).queue q).st = (if recType r.toNat = 0 then .idle else .acq r) ∧
       ((t.ctx c).queue q).cons = ((s.ctx c).queue q).cons ∧ t.grids = s.grids)) ∧
   (∀ s c q r, ((s.ctx c).queue q).st = .met r → frontRuns s c = true →
     (recType r.toNat ≠ 2 ∨ queueBusy s c q = false) → ∃ t, exec (.fenceWaitMet c q) s = .next t ∧
       ((t.ctx c).queue q).st = (if recType r.toNat = 0 then .idle else .acq r)) ∧
   (∀ s c f v q y r, c < 240 → Assoc.get? (s.ctx c).queues q = some y → y.st = .held r →
     Assoc.rd 0 ((setFence c f v s).ctx c).fences f = v ∧
     (((setFence c f v s).ctx c).queue q).st =
       if r.toNat.testBit 8 = true ∧ field r.toNat 16 6 = f ∧ field r.toNat 192 64 ≤ v.toNat then .met r else .held r)) ∧
  ((∀ s c q r s1 k, ((s.ctx c).queue q).st = .acq r → recType r.toNat = 1 → frontRuns s c = true →
     frontRead s c (field r.toNat 64 64) 0 128 128 = (s1, .bytes k) →
     ((kdForm k = false ∨ kdMeasured (s1.ctx c) k = false) → exec (.dims c q) s = .next (failQueue c q 0x04 true s1)) ∧
     (kdForm k = true → kdMeasured (s1.ctx c) k = true → ∀ s2 w, dimsWord s1 c r.toNat = (s2, .ok w) →
       (∀ k', dimsCheck w = .error k' → exec (.dims c q) s = .next (failQueue c q k' true s2)) ∧
       (∀ x y z cw ch, dimsCheck w = .ok (x, y, z, cw, ch) →
         (x * y * z = 0 → exec (.dims c q) s = .next (setQueue c q { (s2.ctx c).queue q with st := .idle } s2)) ∧
         (∀ g, x * y * z ≠ 0 →
           gridFits s2 (s2.ctx c).part.toNat k cw ch (x * y * z / (cw * ch)) (bitAt r.toNat 10) = none →
           g < 256 → Assoc.get? s2.grids g = none → (∀ j, j < g → (Assoc.get? s2.grids j).isSome = true) →
           ∃ t x', exec (.dims c q) s = .next t ∧ Assoc.get? t.grids g = some x' ∧
             (∀ j, j ≠ g → Assoc.get? t.grids j = Assoc.get? s2.grids j) ∧ ((t.ctx c).queue q).st = .idle ∧
             x'.ctx = c ∧ x'.queue = q ∧ x'.x = x ∧ x'.y = y ∧ x'.z = z ∧ x'.cw = cw ∧ x'.ch = ch ∧ x'.ended = 0 ∧
             x'.bound = [] ∧ x'.kd.toNat = k % 2 ^ 1024 ∧ x'.kdesc.toNat = field r.toNat 64 64 ∧
             x'.argBase.toNat = field r.toNat 128 64 ∧ x'.argSize.toNat = field r.toNat 32 32 ∧
             x'.resident = r.toNat.testBit 10 ∧ x'.sigDone = r.toNat.testBit 11 ∧ x'.svalue.toNat = field r.toNat 384 64) ∧
         (x * y * z ≠ 0 → gridFits s2 (s2.ctx c).part.toNat k cw ch (x * y * z / (cw * ch)) (bitAt r.toNat 10) = none →
           (∀ j, j < 256 → (Assoc.get? s2.grids j).isSome = true) →
           exec (.dims c q) s = .next (setQueue c q { (s2.ctx c).queue q with
             st := .dims (BitVec.ofNat 512 r.toNat) (BitVec.ofNat 1024 k) (BitVec.ofNat 128 w) } s2))))) ∧
   (∀ s c q r k w d, ((s.ctx c).queue q).st = .dims r k w → frontRuns s c = true → dimsCheck w.toNat = .ok d →
     exec (.dims c q) s = .next (activate c q r.toNat k.toNat w.toNat d s)) ∧
   (∀ s c q r, ((s.ctx c).queue q).st = .acq r → recType r.toNat = 2 → frontRuns s c = true →
     let n := field r.toNat 24 6
     let u := (List.range 4).foldl rdcFlush s
     ((anyRdcHeld s = true ∨ uncachedOut s c = true) → exec (.signalRecord c q) s = .next (askRdcs s)) ∧
     (anyRdcHeld s = false → uncachedOut s c = false →
       let t := setFence c n ((u.ctx c).fence n + BitVec.ofNat 64 (field r.toNat 384 64)) u
       exec (.signalRecord c q) s = .next (setQueue c q { (t.ctx c).queue q with st := .idle } t))) ∧
   (∀ s g, s.boot.started = false → exec (.gridComplete g) s = .next s) ∧
   (∀ s g x, Assoc.get? s.grids g = some x → s.boot.started = true → (s.ctx x.ctx).st ≠ .killed →
     let u := (List.range 4).foldl rdcFlush s
     (x.ended < x.x * x.y * x.z → exec (.gridComplete g) s = .next s) ∧
     (x.x * x.y * x.z ≤ x.ended → x.sigDone = false → exec (.gridComplete g) s = .next (leaveTable g s)) ∧
     (x.x * x.y * x.z ≤ x.ended → x.sigDone = true → anyRdcHeld s = false → uncachedOut s x.ctx = false →
       exec (.gridComplete g) s =
         .next (leaveTable g (setFence x.ctx x.sfence ((u.ctx x.ctx).fence x.sfence + x.svalue) u)))) ∧
   (∀ s g, Assoc.get? (leaveTable g s).grids g = none ∧ (leaveTable g s).gridOrder.contains g = false) ∧
   (∀ s x, s.boot.started = false → exec (.activeGridHandover x) s = .next s) ∧
   (∀ s x i, s.boot.started = true → x.out = true → drainedGrid s x = some i →
     exec (.activeGridHandover x) s = .next (leaveTable i s)) ∧
   (∀ s x, x.out = true → drainedGrid s x = none → exec (.activeGridHandover x) s = .next s) ∧
   (∀ s x g, s.boot.started = true → x.out = false → g < 256 → Assoc.get? s.grids g = none →
     (∀ j, j < g → (Assoc.get? s.grids j).isSome = true) →
     exec (.activeGridHandover x) s = .next { s with grids := Assoc.put s.grids g x, gridOrder := s.gridOrder ++ [g] }))

/-- O52. `nfsig` releases and adds to a named fence, returning the sum; `glaunch` releases, reads a record once, keeps it
while it waits for a queue of its context that has room and runs, and writes that copy at PUB and advances PUB; a fence above 63 or an unusable queue
traps BOUNDS (R359, R360). -/
def Obligations.DeviceLaunches : Prop :=
  (∀ s e f, Executes s e (.nfsig f) f →
    let e' := committed e
    let n := e'.n32 0 (.op f.s1)
    (63 < n → exec (.nfsig f) s = concluded e f (.trap e'.st { cause := 0x05, detail := 0x04, addr := n })) ∧
    (n ≤ 63 → released e' 2 (if fV f then 7 else 5) = none → exec (.nfsig f) s = concluded e f (releaseWait e' (if fV f then 7 else 5))) ∧
    (∀ e1, n ≤ 63 → released e' 2 (if fV f then 7 else 5) = some e1 →
      let m := e1.n32 0 (.op f.s1)
      let v := e1.ctx.fence m + BitVec.ofNat 64 (e1.uni f.s2 1)
      exec (.nfsig f) s = concluded e f (.done (writeLong e1 false (dstWrites f.d 2 0 v.toNat)
        (setFence e1.team.ctx m v e1.st))))) ∧
  (∀ s e f, Executes s e (.glaunch f) f →
   let puts (e2 : Env) (q : Nat) (bs : List Byte) : Prop :=
     let y := e2.ctx.queue q
     ((2 ^ y.qlog2.toNat ≤ (y.pub - y.cons).toNat ∨ y.stop = true) → exec (.glaunch f) s = concluded e f
       (.wait (e2.mod fun g => { g with launch := some (BitVec.ofNat 512 (ofBytes bs)) }) .retry)) ∧
     (∀ s3 a n, (y.pub - y.cons).toNat < 2 ^ y.qlog2.toNat → y.stop = false →
       resolveRange e2 (.ptr y.qbase.toNat) (64 * (y.pub.toNat % 2 ^ y.qlog2.toNat) : Nat) 64 64 .write e2.st =
         .ok (s3, [(a, n)]) → lineHeld s3 a.loc n = false →
       let t := acceptStore (l1DropRange e2.core a.loc n s3) e2.core
         ⟨a.loc, a.va, BitVec.ofNat 2 a.ca, 6, false, false, bs.take n⟩
       let u := setQueue e2.team.ctx q { (t.ctx e2.team.ctx).queue q with pub := y.pub + 1 } t
       exec (.glaunch f) s = concluded e f (.done (writeLong e2 false (dstWrites f.d 1 0 y.pub.toNat)
         (modGroup e2.gid (fun g => { g with launch := none }) u))))
   (∀ r, e.grp.launch = some r → puts e (e.n32 0 (.op f.s2)) (toBytes 64 r.toNat)) ∧
   (∀ e1, e.grp.launch = none → released (committed e) 2 5 = some e1 →
    let q := e1.n32 0 (.op f.s2)
    ((15 < q ∨ (e1.ctx.queue q).qlog2 = 0) →
      exec (.glaunch f) s = concluded e f (.trap e1.st { cause := 0x05, detail := 0x04, addr := q })) ∧
    (∀ s2 bs, q ≤ 15 → (e1.ctx.queue q).qlog2 ≠ 0 → loadRange e1 (.ptr (e1.pair f.s1)) 0 64 64 e1.st = .ok (s2, bs) →
      puts (e1.at s2) q bs)))

/-- O53. A pending entry binds with its cluster, all or nothing, when every entry of it can be taken and none below it
could; one that names a place or a grant it may not have is refused and logged; a bound team has the grant, place,
banks and slots of its record and its groups as at formation; a filled scratchpad reads 0, and a filled cluster runs on a
die that runs (R446); an entry that names a saved team is O55's;
a team ends when its groups have and nothing of it is in flight, and its grid counts it (R120, R319 to R322, R333,
R336, R361 to R365). That a record which names a place its grid lacks is refused is the model's (log 17), and so are the
data of the refusal's record, core × 64 + entry (log 29). -/
def Obligations.TeamsAreBound : Prop :=
  (∀ s core n b, (s.slot core n).st = .pending → pendingBind s core n = some b → b.saved s = none →
    savedBelow s core n = false →
    ((b.placed = false ∨ b.refused s b.width = true) → ∃ t, exec (.dispatchBind core n) s = .next t ∧
      t.teams = s.teams ∧ t.log = (⟨0x0A, BitVec.ofNat 8 (coreDie core), s.elHead, s.cycle,
        BitVec.ofNat 64 (core * 64 + n)⟩ :: s.log).take 4096 ∧ ((s.slot core n).v.getLsbD 0 = true → (t.slot core n).st = .refused)) ∧
    (b.placed = true → b.refused s b.width = false →
      (b.together s = none → exec (.dispatchBind core n) s = .next s) ∧
      (∀ bs, b.together s = some bs → (∀ k b', k < n → pendingBind s core k = some b' → b'.together s = none) →
        exec (.dispatchBind core n) s = .next (bs.foldl (fun s x => bindOne x s) s)))) ∧
  (∀ b s w, b.width = some w → ∃ t : Team, (bindOne b s).teams = s.teams ++ [t] ∧ t.uid = s.nextId ∧ t.st = .filling ∧
    t.core = b.core ∧ t.entry = b.entry ∧ t.ctx = b.g.ctx ∧ t.teamId = b.teamId ∧ t.grant = w ∧
    t.threads = kdThreads b.kd ∧ t.inCluster = b.teamId % (b.g.cw * b.g.ch) ∧ t.cluster = b.teamId / (b.g.cw * b.g.ch) ∧
    t.banks = b.banks ∧ t.epi = b.epi ∧ t.groups.length = (t.threads + w - 1) / w ∧
    (∀ i g, t.groups[i]? = some g → g = Group.fresh i t.kentry s.nextAge t.regMin) ∧ (bindOne b s).nextAge = s.nextAge + 1) ∧
  (∀ t s o, o < t.window false → Assoc.rd 0 (zeroFill t s).pool (windowKey s t false + o) = 0) ∧
  (∀ s core n t, s.teams.find? (fun t => t.core == core && t.entry == n && t.st == .filling) = some t →
    (∀ u ∈ clusterOf s t, u.st = .filling ∧ u.restored = none) → (s.ctx t.ctx).st ≠ .restoring → dieRuns s core = true →
    ∃ t', exec (.fillComplete core n) s = .next t' ∧ ∀ u ∈ clusterOf s t, (∃ v, t'.team? u.uid = some v ∧ v.st = .running) ∧
      (t'.slot u.core u.entry).st = .running) ∧
  (∀ s uid t g, s.team? uid = some t → t.st = .running → (∀ g ∈ t.groups, g.cond = .ended) → teamBusy s t = false →
    Assoc.get? s.grids t.grid = some g → ∃ u, exec (.teamEnd uid) s = .next u ∧
      Assoc.get? u.grids t.grid = some { g with ended := g.ended + 1 } ∧ (∀ v, u.team? uid = some v → v.st = .ended) ∧
      (∀ k ∈ u.rings, k.1 / 2 ^ 64 ≠ uid))

/-! ## Contexts -/

/-- O54. A request on a running context withdraws its pending entries, ends its sleeping `mwait`s and drains it, or
saves at once under FORCE or a LIMIT of 0; the limit's expiry saves a draining context; a draining context without a
team is DRAINED and a saving one SAVED, with REQ cleared; a saving context saves a ready cluster whole, and its teams
and their queued matrix work leave (R153, R416 to R418). -/
def Obligations.PreemptionRequests : Prop :=
  (∀ s c v, (s.ctx c).st = .running →
    (v.getLsbD 0 = true → ∃ t, exec (.pctlWrite c v) s = .next t ∧ (t.ctx c).req = true ∧
      (t.ctx c).force = v.getLsbD 1 ∧ (t.ctx c).limit = BitVec.ofNat 24 (v.toNat / 2 ^ 8) ∧
      (t.ctx c).st = (if v.getLsbD 1 = true ∨ v.toNat / 2 ^ 8 = 0 then .saving else .draining) ∧
      (∀ k x, (k, x) ∈ t.slots → x.st = .pending → slotCtx s x.v ≠ some c) ∧
      (∀ g x limit d sc, groupOf t g = some x → (∃ e, env? t g = some e ∧ e.team.ctx = c) →
        x.cond ≠ .wait (.mwait limit d sc))) ∧
    (v.getLsbD 0 = false → exec (.pctlWrite c v) s = .next (s.setCtx c { s.ctx c with
      force := v.getLsbD 1, limit := BitVec.ofNat 24 (v.toNat / 2 ^ 8) }))) ∧
  (∀ s c, ((s.ctx c).st = .draining → ∃ t, exec (.preemptLimitExpiry c) s = .next t ∧ (t.ctx c).st = .saving) ∧
    ((s.ctx c).st ≠ .draining → exec (.preemptLimitExpiry c) s = .next s)) ∧
  (∀ s c, ¬ resident s c →
    ((s.ctx c).st = .draining → ∃ t, exec (.drained c) s = .next t ∧ (t.ctx c).st = .drained ∧ (t.ctx c).req = false) ∧
    ((s.ctx c).st = .saving → ∃ t, exec (.drained c) s = .next t ∧ (t.ctx c).st = .saved ∧ (t.ctx c).req = false)) ∧
  (∀ s c us, (s.ctx c).st = .saving →
    ((s.teams.filter fun t => t.ctx == c).map (clusterOf s)).find? (saveReady s) = some us → areaHeld s us = false →
    exec (.drained c) s = .next (holdUnloads c (saveCluster us s)) ∧
    (∀ u ∈ us, ∀ t ∈ (holdUnloads c (saveCluster us s)).teams, t.uid ≠ u.uid) ∧
    (∀ u ∈ us, u.st ≠ .ended → ∀ m ∈ (holdUnloads c (saveCluster us s)).matq, m.owner.team ≠ u.uid))

/-- O55. Entries that grant a whole saved cluster what it held bind it and the context is RESTORING, whether system software
names them in a restore or dispatch takes them pending; they wait for what is not free, and those that do not grant it are
refused; a cluster whose code is gone kills the context, and images of another stepping are refused; with no bind named, no image left and
nothing being filled the context runs again; a bound team has
what its image held, and the resources of its new entry (R417, R423, R427). A context is made with its fences and
measurements cleared where nothing of it is resident; a killed one has no group that runs, no grid, no image and no rule
program (that these go with it is the model's reading, log 19); code
that no saved team points into is unloaded at once, and else the unload waits for those teams unless it is forced; a
shootdown waits for translated accesses and then leaves no cached translation and no run in a base register; a resume
lets halted groups go on, at RSTART where an open region was aborted meanwhile (R405), and a wake ends sleeping `mwait`s (R129, R153, R357, R399, R413, R417, R426, R427, R432,
R433). -/
def Obligations.ContextsAndRestores : Prop :=
  ((∀ s c binds, let x := s.ctx c
     let rs := binds.filterMap (rebindOf s c)
     (x.st = .saved ∨ x.st = .drained ∨ x.st = .restoring) →
     ((∃ i ∈ x.images, i.2.fitsStepping = false) → exec (.restore c binds) s = .next (refuseImages c s)) ∧
     ((∀ i ∈ x.images, i.2.fitsStepping = true) →
     (binds ≠ [] → rs.length = binds.length → wholeCluster s c rs = true → (∀ r ∈ rs, r.img.codeGone x = false) →
       imagesHeld s rs = false → (∀ r ∈ rs, imageRuined s r.img = false) →
       ((∀ r ∈ rs, r.refused s = false ∧ r.b.free s (r.need s) = true) → exec (.restore c binds) s =
         .next (rs.foldl bindSaved (if x.st = .restoring then s else setCtxState c .restoring s))) ∧
       ((∀ r ∈ rs, r.refused s = false) → (∃ r ∈ rs, r.b.free s (r.need s) = false) →
         exec (.restore c binds) s = .next s) ∧
       ((∃ r ∈ rs, r.refused s = true) → ∃ t, exec (.restore c binds) s = .next t ∧ t.teams = s.teams ∧
         ∀ r ∈ rs, r.refused s = true → (t.slot r.b.core r.b.entry).st = .refused)) ∧
     (∀ r, binds ≠ [] → rs.length = binds.length → wholeCluster s c rs = true → rs.find? (fun r => r.img.codeGone x) = some r →
       exec (.restore c binds) s = .next (codeGoneKill c r.img s)) ∧
     (binds = [] → restoreDone s c = true → x.images = [] → x.reqAgain = none →
       ∃ t, exec (.restore c binds) s = .next t ∧ (t.ctx c).st = .running))) ∧
   (∀ s core n b r, pendingBind s core n = some b → b.saved s = some r → savedBelow s core n = false →
     firstReady s core n = true → restorable s b.g.ctx = true → (∀ i ∈ (s.ctx b.g.ctx).images, i.2.fitsStepping = true) →
     wholeCluster s b.g.ctx (r.mates s) = true →
     exec (.dispatchBind core n) s = .next (bindCluster b.g.ctx (r.mates s) s)) ∧
   (∀ s c k i, Assoc.get? (s.ctx c).images k = some i → i.codeGone (s.ctx c) = true →
     ((s.ctx c).st = .saved ∨ (s.ctx c).st = .drained ∨ (s.ctx c).st = .restoring) →
     ∃ t, exec (.forcedUnloadRestore c k) s = .next t ∧ (t.ctx c).st = .killed ∧ (t.ctx c).images = []) ∧
   (∀ s (r : Rebind), ∃ t : Team, (bindSaved s r).teams = s.teams ++ [t] ∧ t.uid = r.img.team.uid ∧ t.grant = r.img.team.grant ∧
     t.groups = r.img.team.groups ∧ t.core = r.b.core ∧ t.entry = r.b.entry ∧ t.banks = r.b.banks ∧ t.epi = r.b.epi ∧
     t.st = .filling ∧ t.wlo = r.b.wlo ∧ t.whi = r.b.whi ∧ t.gslots = r.b.gslots ∧ t.rquota = r.b.rquota)) ∧
  ((∀ s c sys, s.boot.started = true → c < 240 → ¬ resident s c → (∀ x ∈ s.grids, x.2.ctx ≠ c) → ∃ t, exec (.contextCreation c sys) s = .next t ∧
     (t.ctx c).st = .running ∧ (t.ctx c).sys = sys ∧ (t.ctx c).fences = [] ∧ (t.ctx c).cmr = 0 ∧ (t.ctx c).log = [] ∧
     (t.ctx c).images = [] ∧ (t.ctx c).progs = [] ∧ (t.ctx c).ptRoot = (s.ctx c).ptRoot) ∧
   (∀ s c, c < 240 → (s.ctx c).st ≠ .killed → ∃ t, exec (.contextKill c) s = .next t ∧ (t.ctx c).st = .killed ∧
     (t.ctx c).images = [] ∧ (t.ctx c).progs = [] ∧ (∀ x ∈ t.grids, x.2.ctx ≠ c) ∧
     (∀ u ∈ t.teams, u.ctx = c → ∀ g ∈ u.groups, g.cond = .ended)) ∧
   (∀ s c ord m forced, (s.ctx c).log.find? (fun m => m.ordinal == ord && m.inUse) = some m →
     ((forced = true ∨ ∀ x ∈ (s.ctx c).images, x.2.pointsInto m = false) →
       ∃ t, exec (.unload c ord forced) s = .next t ∧ ∀ n ∈ (t.ctx c).log, n.ordinal = ord → n.inUse = false) ∧
     (forced = false → (∃ x ∈ (s.ctx c).images, x.2.pointsInto m = true) → (∀ u ∈ (s.ctx c).unloads, u.1 ≠ ord) →
       ∃ t, exec (.unload c ord forced) s = .next t ∧ (t.ctx c).log = (s.ctx c).log ∧
         (t.ctx c).unloads = (s.ctx c).unloads ++
           [(ord, ((s.ctx c).images.filter fun x => x.2.pointsInto m).map (·.1))])) ∧
   (∀ s c, (translatedWork s c = true → exec (.tlbShootdown c) s = .next s) ∧
     (translatedWork s c = false → ∃ t, exec (.tlbShootdown c) s = .next t ∧ (∀ x ∈ t.tlb, x.1 / 2 ^ 64 ≠ c) ∧
       (∀ x ∈ t.btlb, x.1 / 2 ^ 64 ≠ c) ∧
       ∀ u ∈ t.teams, u.ctx = c → ∀ g ∈ u.groups, ∀ x ∈ g.b, x.2.run = 0)) ∧
   (∀ s c gid e replay, env? s gid = some e → e.team.ctx = c → e.grp.cond = .halted replay →
     (∀ t u : Team, t ∈ s.teams → u ∈ s.teams → t.uid = u.uid → t = u) → (e.team.groups.map (·.idx)).Nodup →
     ∃ t, exec (.cctlResume c) s = .next t ∧ groupOf t gid = some { e.grp with
       cond := .ready, pc := if replay then e.grp.pc else pcAdd e.grp.pc 12 }) ∧
   (∀ s c, ∃ t, exec (.wake c) s = .next t ∧ ∀ g e limit d sc, env? t g = some e → e.team.ctx = c →
     e.grp.cond ≠ .wait (.mwait limit d sc)))

/-! ## The host, registers and services -/

/-- O56. Host and peer accesses to device memory are served at the home: a write is accepted there, poison and all, a read
replies with its bytes and may enter the snoop filter, an AtomicOp replies with the old value and stores the new one, and
a peer is served only while the device runs and, where the host holds the line, once it has been asked for it and gives
it back; snoops and back-invalidates take a line out of a die's RDC or of the snoop filter; an instruction line without
an error is filled for a group, and counts a slip where the group waits for it, and a poisoned one is not kept, and counts
a latent error unless the group waits for it (R87, R101, R110, R366, R443, R444). -/
def Obligations.HostAndPeerAccesses : Prop :=
  (∀ s loc bs p, loc < 2 ^ 64 → bs ≠ [] → isMgmt loc = false → devRange s loc bs.length = true →
    (∀ x ∈ segs 128 loc bs.length, peridotHolds s (x.1 / 128) = false) →
    let whole (l : Nat) : Bool := decide (loc ≤ 128 * l ∧ 128 * l + 128 ≤ loc + bs.length)
    let t := homeWrite { s with
      snoop := s.snoop.filter fun l => !whole l, biOut := s.biOut.filter fun x => !whole x.1 } loc bs
    exec (.hostWrite loc ⟨bs, p⟩) s = .next (if p then homePoison t loc bs.length else t)) ∧
  (∀ s loc n cache, loc < 2 ^ 64 → n ≠ 0 → isMgmt loc = false → devRange s loc n = true →
    (∀ x ∈ segs 128 loc n, peridotHolds s (x.1 / 128) = false) →
    ∃ t, exec (.hostRead loc n cache) s = .next t ∧
      t.hostOut = (loc, (homeRead s loc n).2.1, (homeRead s loc n).2.2) :: (homeRead s loc n).1.hostOut ∧
      (cache = true → ∀ x ∈ segs 128 loc n, t.snoop.contains (x.1 / 128) = true) ∧ t.mem = (homeRead s loc n).1.mem) ∧
  (∀ s loc (op : AtomicOp) (wide : Bool) v cmp, let n := if wide then 8 else 4
    devRange s loc n = true → loc % n = 0 → peridotHolds s (loc / 128) = false →
    (homeRead s loc n).2.2 = false →
    let old := ofBytes (homeRead s loc n).2.1
    let new := match op with
      | .fetchAdd => (old + v.toNat) % 2 ^ (8 * n)
      | .swap => v.toNat % 2 ^ (8 * n)
      | .cas => if old = cmp.toNat % 2 ^ (8 * n) then v.toNat % 2 ^ (8 * n) else old
    exec (.hostAtomicop loc op wide v cmp) s = .next (reply loc (homeRead s loc n).2.1 false
      (homeWrite (homeRead s loc n).1 loc (toBytes n new)))) ∧
  (∀ s loc bs p, (peerReaches s loc bs.length = false → exec (.peerWrite loc ⟨bs, p⟩) s = .next s) ∧
    (peerReaches s loc bs.length = true →
      (lineHeld s loc bs.length = true → exec (.peerWrite loc ⟨bs, p⟩) s = .next (biSend s loc bs.length true)) ∧
      (lineHeld s loc bs.length = false → exec (.peerWrite loc ⟨bs, p⟩) s =
        .next (if p then homePoison (homeWrite s loc bs) loc bs.length else homeWrite s loc bs)))) ∧
  (∀ s loc n, (peerReaches s loc n = false → exec (.peerRead loc n) s = .next s) ∧
    (peerReaches s loc n = true →
      (lineHeld s loc n = true → exec (.peerRead loc n) s = .next (biSend s loc n false)) ∧
      (lineHeld s loc n = false → exec (.peerRead loc n) s = .next (reply loc (homeRead s loc n).2.1
        (homeRead s loc n).2.2 (homeRead s loc n).1)))) ∧
  (∀ s die loc inv, isHost loc = true → nodeOf loc = 0 → (Assoc.get? s.rdc (key2 die (loc / 128))).isSome = true →
    ∃ t, exec (.cxlSnoop die loc inv) s = .next t ∧
      (inv = true → Assoc.get? t.rdc (key2 die (loc / 128)) = none) ∧
      (inv = false → t = rdcWriteBack s die (loc / 128))) ∧
  (∀ s loc d, s.snoop.contains (loc / 128) = true → peridotHolds s (loc / 128) = false →
    ∃ t, exec (.birsp loc d) s = .next t ∧ t.snoop.contains (loc / 128) = false ∧
      ∀ x, d = some (x, false) → t = homeWrite { s with
        snoop := s.snoop.filter (· ≠ loc / 128), biOut := s.biOut.filter (·.1 ≠ loc / 128) } (128 * (loc / 128))
        (lineBytes x 0 128)) ∧
  (∀ s g va e s1 loc ca, env? s g = some e →
    translate s e.team.ctx (e.grp.pc.toNat / 2 ^ 57) (va.toNat % 2 ^ 57) 1 .fetch = (s1, .ok loc ca) →
    lineHeld s1 loc 1 = false → Assoc.get? s1.icache (key2 (quadOf e.core) (loc / 128)) = none →
    let line := icLine s1 e.core (loc / 128) ca
    let wanted := e.grp.cond = .wait .fetch ∧ overlap (va.toNat % 2 ^ 57 / 128 * 128) 128 (e.grp.pc.toNat % 2 ^ 57) 12 = true
    ∃ t, exec (.icacheFill g va) s = .next t ∧
      (wanted ∧ line.2.2 = 0 → Assoc.rd 0 t.slips e.core = Assoc.rd 0 s1.slips e.core + 1) ∧
      (¬(wanted ∧ line.2.2 = 0) → Assoc.rd 0 t.slips e.core = Assoc.rd 0 s1.slips e.core) ∧
      (line.2.2 = 0 → (Assoc.get? t.icache (key2 (quadOf e.core) (loc / 128))).isSome = true) ∧
      (line.2.2 ≠ 0 → Assoc.get? t.icache (key2 (quadOf e.core) (loc / 128)) = none ∧
        (¬ wanted → ∃ x, t.log.head? = some x ∧ x.code = 0x09)))

/-- O57. A write of management space of another size or alignment than 4 or 8 bytes does nothing but log; PLIMIT is
clamped, PTROOT reads back as written, a 4-byte write sets one half, the core block outside its slot table is
read-only, and GO starts the device only from READY with nothing resident, a die that is hot at 550 MHz; training ends
early service only where firmware runs (R117, R439 to R441, R446, R447, R449). A monitor's configuration clears the
samples, a sample of its source counts into MIN, MAX and its bin while the monitor is enabled, and a read of one of them
clears it (R445). What the records of codes 0x0C and 0x0D hold is the model's choice (log 29). -/
def Obligations.ManagementRegisters : Prop :=
  ((∀ s loc n v, ¬ ((n = 4 ∨ n = 8) ∧ loc % 2 ^ 32 % n = 0) →
     exec (.mgmtRegisterWrite loc n v) s = .next (logEvent s 0x0D 0 (loc % 2 ^ 32))) ∧
   (∀ s v, exec (.mgmtRegisterWrite 0x10 4 v) s =
     .next { s with plimit := BitVec.ofNat 32 (max 600 (min (v.toNat % 2 ^ 32) 3600)) }) ∧
   (∀ s c (v : DWord), c < 240 → ∃ t, exec (.mgmtRegisterWrite (0x2000_0428 + c * 2 ^ 20) 8 v) s = .next t ∧
     (t.ctx c).ptRoot = v ∧ mgmtRead t (0x2000_0428 + c * 2 ^ 20) 8 = (t, v.toNat)) ∧
   (∀ s c (v : DWord), c < 240 → ∃ t, exec (.mgmtRegisterWrite (0x2000_0420 + c * 2 ^ 20) 4 v) s = .next t ∧
     (t.ctx c).btBase.toNat = (s.ctx c).btBase.toNat / 2 ^ 32 * 2 ^ 32 + v.toNat % 2 ^ 32) ∧
   (∀ s d core o n (v : DWord), d < 4 → core < 192 → (o < 0x800 ∨ (0x1000 ≤ o ∧ o < 0x10000)) → (n = 4 ∨ n = 8) → o % n = 0 →
     exec (.mgmtRegisterWrite (0x1000_0000 + d * 2 ^ 24 + core * 2 ^ 16 + o) n v) s = .next s) ∧
   (∀ s, (s.phase = .ready → s.teams = [] → s.grids = [] → ∃ t, exec .go s = .next t ∧ t.phase = .run ∧
       (∀ d, d < 4 → (t.die d).clock = if (s.die d).hot then 550 else 1100) ∧ ∀ k l, Assoc.get? t.l2 k = some l → l.dirty.getLsbD 0 = true ∨ l.dirty.getLsbD 1 = true →
         ∀ x ∈ s.l2, x.1 ≠ k) ∧
     ((s.phase ≠ .ready ∨ s.teams ≠ [] ∨ s.grids ≠ []) → exec .go s = .next (logEvent s 0x0D 0 0x08))) ∧
   (∀ s, (s.phase = .early → s.boot.started = true →
       exec .hbmReady s = .next (logEvent { s with phase := .ready } 0x0C 0 1)) ∧
     ((s.phase ≠ .early ∨ s.boot.started = false) → exec .hbmReady s = .next s))) ∧
  (∀ s d m, d < 4 → m < 32 →
     (∀ v, ∃ t, exec (.monitorConfigWrite d m v) s = .next t ∧ ((t.die d).mon m).src = BitVec.ofNat 8 v.toNat ∧
       ((t.die d).mon m).inst = BitVec.ofNat 8 (v.toNat / 2 ^ 8) ∧
       ((t.die d).mon m).en = (v.getLsbD 16 && decide (v.toNat % 2 ^ 8 ≤ 6)) ∧ ((t.die d).mon m).min = 0xFFFFFFFF ∧
       ((t.die d).mon m).max = 0 ∧ ∀ b, Assoc.rd 0 ((t.die d).mon m).bins b = 0) ∧
     (∀ v, ∃ t, exec (.monitorSample d m v) s = .next t ∧
       let x := (s.die d).mon m
       let y := (t.die d).mon m
       let core := 192 * d + x.inst.toNat
       let n := if x.src = 4 then BitVec.ofNat 32 (Assoc.rd 0 s.slips core - x.mark)
         else if x.src = 5 then BitVec.ofNat 32 (s.copies.countP fun c => c.core == core) else v
       ((x.en = false ∨ x.src = 0) → y = x) ∧
       (x.en = true → x.src ≠ 0 → y.min.toNat = min n.toNat x.min.toNat ∧ y.max.toNat = max n.toNat x.max.toNat ∧
         ∀ b, Assoc.rd 0 y.bins b = if b = binOf n.toNat then
           BitVec.ofNat 32 (min ((Assoc.rd 0 x.bins b).toNat + 1) 0xFFFFFFFF) else Assoc.rd 0 x.bins b)) ∧
     (∀ off, ∃ t, exec (.monitorRscRead d m off) s = .next t ∧
       let x := (s.die d).mon m
       let y := (t.die d).mon m
       (off = 4 → y = { x with min := 0xFFFFFFFF }) ∧ (off = 8 → y = { x with max := 0 }) ∧
       (0x80 ≤ off → off % 4 = 0 → ∀ b, Assoc.rd 0 y.bins b = if b = (off - 0x80) / 4 then 0 else Assoc.rd 0 x.bins b) ∧
       ((off = 0 ∨ (off ≠ 4 ∧ off ≠ 8 ∧ (off < 0x80 ∨ off % 4 ≠ 0))) → y = x)) ∧
     (∀ v k, 1 ≤ k → k ≤ 30 → 2 ^ (k - 1) ≤ v → v < 2 ^ k → binOf v = k))

/-- O58. A slot entry keeps its writable bits and becomes pending when VALID is set on a free one; a doorbell sets PUB
and a cleared STOP lets the queue go on; an answer reaches every record of its ordinal, and a group that waited for a
page now resident goes on; FQCONS lets held faults be published (R352, R353, R362, R363, R400, R404, R406, R442). -/
def Obligations.SystemSoftwareWrites : Prop :=
  (∀ s core n (v : BitVec 256), s.boot.started = true → core < 768 → n < 64 → ∃ t, exec (.slotEntryWrite core n v) s = .next t ∧
    (t.slot core n).v = v &&& slotMask ∧
    (t.slot core n).st = (match (s.slot core n).st with
      | .free => if v.getLsbD 0 then .pending else .free
      | .pending => if v.getLsbD 0 then .pending else .free
      | .ended => if v.getLsbD 0 then .ended else .free
      | .saved => if v.getLsbD 0 then .saved else .free
      | .refused => if v.getLsbD 0 then .refused else .free
      | .filling => .filling
      | .running => .running) ∧
    ∀ c k, k < 64 → (c ≠ core ∨ k ≠ n) → t.slot c k = s.slot c k) ∧
  (∀ s c q pub, q < 16 → ∃ t, exec (.queueDoorbell c q pub) s = .next t ∧
    (t.ctx c).queue q = { (s.ctx c).queue q with pub := pub } ∧ ∀ k, k ≠ q → (t.ctx c).queue k = (s.ctx c).queue k) ∧
  (∀ s c q, q < 16 → ∃ t, exec (.queueStopClear c q) s = .next t ∧
    (t.ctx c).queue q = { (s.ctx c).queue q with stop := false } ∧ ∀ k, k ≠ q → (t.ctx c).queue k = (s.ctx c).queue k) ∧
  (∀ s c ord decline, (∀ f ∈ (s.ctx c).faults ++ (s.ctx c).heldFaults, f.ord = ord → f.answer ≠ none) →
    exec (.fans c ord decline) s = .next s) ∧
  (∀ s c ord decline f, f ∈ (s.ctx c).faults → f.ord = ord → f.answer = none → ∃ t, exec (.fans c ord decline) s = .next t ∧
    ∀ f' ∈ (t.ctx c).faults ++ (t.ctx c).heldFaults, f'.ord = ord → f'.answer ≠ none) ∧
  (∀ s c ord gid e va acc lane rgn, env? s gid = some e → e.team.ctx = c → e.grp.cond = .wait (.fault ord va acc lane rgn) →
    groupOf (answerGroup c ord false s gid) gid = some { e.grp with
      cond := .ready, pc := if rgn then (match e.grp.region with | some r => r.rstart | none => e.grp.pc) else e.grp.pc }) ∧
  (∀ s c v, let x := s.ctx c
    x.heldEvents = 0 →
    (x.heldFaults = [] → exec (.fqconsWrite c v) s = .next (s.setCtx c { x with fqCons := v })) ∧
    (∀ f, x.heldFaults = [f] → recordHeld x.fqBase x.fqPub v s = false → ∃ t, exec (.fqconsWrite c v) s = .next t ∧
      (t.ctx c).fqCons = v ∧ (t.ctx c).fqPub = x.fqPub + 1 ∧ (t.ctx c).faults = x.faults ++ [f] ∧ (t.ctx c).heldFaults = []))

/-- O59. Spinel serves the oldest queued request once it runs, the list that the request points to being readable: the
measurement extends the context's measurement register and log, or is refused below MINSV; a request whose pages are
held waits. That an event's ordinal is the number of events before it, and that a request whose list or segments are not
mapped is dropped, are the model's (DEDUCED, log 23); that the event carries what the list holds is the model's (log 29).
Before Spinel runs no power control acts and no watchdog expires (R438). Power control
and the thermal limits set the clocks; a failed hart, core, slice, link or bank is taken out of service. The clock
steps of power control and the code of a lost bank are the model's (logs 24, 25) (R12, R14, R100, R303, R432, R444,
R447 to R449). -/
def Obligations.DeviceServices : Prop :=
  (∀ s c sv sgs, c < 240 →
    let done (t : Machine.State) : Machine.State := t.setCtx c { t.ctx c with measReqs := (t.ctx c).measReqs.drop 1 }
    (((s.ctx c).measReqs = [] ∨ s.boot.started = false) → exec (.measure c sv sgs) s = .next s) ∧
    (∀ ptr rest, (s.ctx c).measReqs = ptr :: rest → s.boot.started = true →
      (∀ s1, measuredBytes s c [(ptr.toNat % 2 ^ 57, 1)] = (s1, .error .held) → exec (.measure c sv sgs) s = .next s1) ∧
      (∀ s1, measuredBytes s c [(ptr.toNat % 2 ^ 57, 1)] = (s1, .error .unmapped) →
        exec (.measure c sv sgs) s = .next (done s1)) ∧
      (∀ s1 list, measuredBytes s c [(ptr.toNat % 2 ^ 57, 1)] = (s1, .ok list) →
        (sv.toNat < (s1.ctx c).minsv.toNat → exec (.measure c sv sgs) s = .next (done s1)) ∧
        ((s1.ctx c).minsv.toNat ≤ sv.toNat →
          (∀ s2 bs, measuredText s1 c (bySegVa sgs) = (s2, .ok bs) →
            let t := done s2
            let y := t.ctx c
            exec (.measure c sv sgs) s = .next (t.setCtx c { y with
              cmr := Config.sm3 (toBytes 32 y.cmr.toNat ++ toBytes 32 (Config.sm3 bs).toNat)
              log := y.log ++ [⟨y.log.length, Config.sm3 bs, sv, true, sgs⟩] })) ∧
          (∀ s2, measuredText s1 c (bySegVa sgs) = (s2, .error .held) → exec (.measure c sv sgs) s = .next s2) ∧
          (∀ s2, measuredText s1 c (bySegVa sgs) = (s2, .error .unmapped) →
            exec (.measure c sv sgs) s = .next (done s2)))))) ∧
  (∀ s avg now, s.boot.started = false → exec (.powerControl avg now) s = .next s) ∧
  (∀ s avg now, s.phase = .run → s.boot.started = true →
    (s.plimit.toNat < avg → ∃ t, exec (.powerControl avg now) s = .next t ∧ t.power = BitVec.ofNat 16 now ∧
      ∀ d, d < 4 → (t.die d).clock = max 25 ((s.die d).clock - 25)) ∧
    (avg < s.plimit.toNat → (s.die 0).hot = false → ∃ t, exec (.powerControl avg now) s = .next t ∧
      ∀ d, d < 4 → (t.die d).clock = min 1100 ((s.die d).clock + 25)) ∧
    (avg = s.plimit.toNat → exec (.powerControl avg now) s = .next { s with power := BitVec.ofNat 16 now })) ∧
  (∀ s d j k, d < 4 → j < 256 → k < 256 → s.phase = .run → ∃ t, exec (.thermalThrottle d j k) s = .next t ∧
    (t.die d).junction.toNat = j ∧ t.coolant.toNat = k ∧
    ((s.die 0).hot = false → (105 ≤ j ∨ 45 ≤ k) → ∀ i, i < 4 → (t.die i).hot = true ∧ (t.die i).clock = min (s.die i).clock 550) ∧
    ((s.die 0).hot = true → k ≤ 40 → (∀ i, i < 4 → (if i = d then j else (s.die i).junction.toNat) ≤ 100) →
      ∀ i, i < 4 → (t.die i).hot = false ∧ (t.die i).clock = 1100)) ∧
  (∀ s d h, s.boot.started = false → exec (.watchdogExpiry d h) s = .next s) ∧
  (∀ s d h, d < 4 → h < 4 → s.boot.started = true → (s.die d).harts.getLsbD h = true →
    ∃ t, exec (.watchdogExpiry d h) s = .next t ∧
    (∀ k, k < 4 → (t.die d).harts.getLsbD k = ((s.die d).harts.getLsbD k && decide (k ≠ h))) ∧
    ∃ x, t.log.head? = some x ∧ x.code = 0x06 ∧ x.die = BitVec.ofNat 8 d) ∧
  (∀ s core, core < 768 →
    ((s.die (coreDie core)).spares = 0 → exec (.spareCoreSubstitution core) s = .next s) ∧
    (0 < (s.die (coreDie core)).spares → ∃ t, exec (.spareCoreSubstitution core) s = .next t ∧ t.teams = s.teams ∧
      (t.die (coreDie core)).spares = (s.die (coreDie core)).spares - 1 ∧
      ∃ x, t.log.head? = some x ∧ x.code = 0x01 ∧ x.data = BitVec.ofNat 64 core)) ∧
  (∀ s d n, d < 4 → n < 64 → (s.die d).retired.contains n = false → (s.die d).retired.length < 63 →
    ∃ t, exec (.sliceRetire d n) s = .next t ∧ (t.die d).retired = n :: (s.die d).retired ∧
      Assoc.get? t.beryl (d * 64 + n) = none ∧ ∀ l ∈ sliceLines s d n, Assoc.get? t.l2 l = none) ∧
  (∀ s b ways, b < 256 →
    (ways = 0 → ∃ t, exec (.bankCarve b ways) s = .next t ∧ Assoc.get? t.beryl b = none) ∧
    (1 ≤ ways → ways ≤ 4 → Assoc.get? s.beryl b = none → (s.die (b / 64)).retired.contains (b % 64) = false →
      ∃ t x, exec (.bankCarve b ways) s = .next t ∧ Assoc.get? t.beryl b = some x ∧ x.ways = ways ∧ x.configured = false ∧
        x.ents = [] ∧ x.spcnt = 0)) ∧
  (∀ s d n, d < 4 → n < 64 → (Assoc.get? s.beryl (d * 64 + n)).isSome = true → ∃ t, exec (.sliceFailure d n) s = .next t ∧
    Assoc.get? t.beryl (d * 64 + n) = none ∧ ∃ x, t.log.head? = some x ∧ x.code = 0x08) ∧
  (∀ s d k, d < 4 → k < 4 → let l := (Assoc.get? (s.die d).links k).getD .zero
    (l.lanes = 0 → exec (.linkLaneDrop d k) s = .next s) ∧
    (l.lanes ≠ 0 → ∃ t, exec (.linkLaneDrop d k) s = .next t ∧
      ((Assoc.get? (t.die d).links k).getD .zero).lanes = (if 4 < l.lanes then 4 else if 2 < l.lanes then 2 else 0)))

/-- O60. Reset starts the firmware that the boot ROM accepts, or opens the recovery window, and keeps media and fuses;
the window takes an accepted image and resets, or reports why not; fuses are blown only on a signature of an accepted
key, the counter only on an owner's (R436 to R438). Running firmware answers every request with one response and no
other effect; measurement indices 1 to 3 and 16 to 135 have the content of R435, and none but 4 besides has any; a
certificate is stored in slot 1 alone, once an owner key is enrolled. The replies name version 1.3, the capabilities
without a session, and SM2 on SM2-P256 with SM3-256 (R435). Formats, codes, the bits that stand for these and event
codes are the model's (logs 12, 26). -/
def Obligations.BootAndReports : Prop :=
  ((∀ s, ∃ t, exec .deviceReset s = .next t ∧ t.phase = .early ∧ t.teams = [] ∧ t.mem = s.mem ∧
     t.boot.fuses = s.boot.fuses ∧ t.boot.owners = s.boot.owners ∧ t.boot.ownerOnly = s.boot.ownerOnly ∧ t.boot.recovery = false ∧
     (t.boot.started = true ↔ s.boot.recovery = false ∧ ∃ i, s.boot.fw = some i ∧ s.boot.reject i = none) ∧
     t.boot.window = !t.boot.started) ∧
   (∀ (b : Boot) i, b.reject i = none ↔ (b.accepts i.signer = true ∧ Config.sm2Verify i.signer (imageText i) i.signature = true) ∧
     Config.sm3 i.payload = i.digest ∧ b.fuses ≤ i.sv ∧ i.sv ≤ 128) ∧
   (∀ s i, (s.boot.window = false → exec (.recoveryImage i) s = .next s) ∧
     (s.boot.window = true → s.boot.reject i = none → ∃ t, exec (.recoveryImage i) s = .next t ∧ t.boot.fw = some i ∧
       t.boot.started = true ∧ t.phase = .early) ∧
     (∀ k, s.boot.window = true → s.boot.reject i = some k → exec (.recoveryImage i) s =
       .next { s with boot := { s.boot with out := (0, toBytes 1 k) :: s.boot.out } })) ∧
   (∀ s slot key signer sig, s.boot.started = true → slot < 4 → Assoc.get? s.boot.owners slot = none →
     (s.boot.accepts signer = true → Config.sm2Verify signer (toBytes 1 slot ++ toBytes 32 key.toNat) sig = true →
       ∃ t, exec (.enrolOwnerKey slot key signer sig) s = .next t ∧ Assoc.get? t.boot.owners slot = some key ∧ t.boot.accepts key = true) ∧
     ((s.boot.accepts signer = false ∨ Config.sm2Verify signer (toBytes 1 slot ++ toBytes 32 key.toNat) sig = false) →
       exec (.enrolOwnerKey slot key signer sig) s = .next s)) ∧
   (∀ s signer sig i, s.boot.fw = some i → s.boot.started = true →
     ((∃ x ∈ s.boot.owners, x.2 = signer) → Config.sm2Verify signer (toBytes 1 i.sv) sig = true →
       ∃ t, exec (.advance signer sig) s = .next t ∧ t.boot.fuses = max s.boot.fuses (min i.sv 128)) ∧
     ((∀ x ∈ s.boot.owners, x.2 ≠ signer) → exec (.advance signer sig) s = .next s)) ∧
   (∀ s, ∃ t, exec .owneronlySet s = .next t ∧ t.boot.ownerOnly = true ∧
     ∀ k, t.boot.accepts k = true → ∃ x ∈ s.boot.owners, x.2 = k)) ∧
  ((∀ s i req bs, s.boot.started = true →
     ((i = .getVersion ∧ req = spdmVersion ∧ bs = toBytes 2 0x1300 ++ Config.spdmReply spdmVersion) ∨
       (i = .getCapabilities ∧ req = spdmCapabilities ∧ bs = toBytes 4 0x80016 ++ Config.spdmReply spdmCapabilities) ∨
       (i = .negotiateAlgorithms ∧ req = spdmAlgorithms ∧
         bs = toBytes 4 0x200 ++ toBytes 4 0x40 ++ Config.spdmReply spdmAlgorithms) ∨
       (i = .getDigests ∧ req = spdmDigests ∧
         bs = ([0, 1].filterMap s.boot.chain).flatMap fun c => toBytes 32 (Config.sm3 c).toNat) ∨
       (∃ k, i = .getCertificate k ∧ req = spdmCertificate ∧ bs = (s.boot.chain k).getD spdmError) ∨
       (∃ n, i = .challenge n ∧ req = spdmChallenge ∧ bs = Config.sm2Sign n) ∨
       (∃ k n r, i = .getMeasurements k n ∧ req = spdmMeasurements ∧ report s k = some r ∧ bs = r ++ Config.sm2Sign (r ++ n)) ∨
       (∃ k n, i = .getMeasurements k n ∧ req = spdmMeasurements ∧ report s k = none ∧ bs = spdmError)) →
     exec i s = .next { s with boot := { s.boot with out := (req, bs) :: s.boot.out } }) ∧
   (∀ s i fw, s.boot.fw = some fw →
     measurement s 1 = some (toBytes 32 (Config.sm3 fw.payload).toNat) ∧ measurement s 2 = some (toBytes 32 fw.manifest.toNat) ∧
     measurement s 3 = some (toBytes 1 s.boot.fuses) ∧
     (16 ≤ i → i < 136 → measurement s i = some (toBytes 32 (s.ctx (2 * (i - 16))).cmr.toNat ++
       toBytes 32 (s.ctx (2 * (i - 16) + 1)).cmr.toNat ++ (s.ctx (2 * (i - 16))).logBytes ++ (s.ctx (2 * (i - 16) + 1)).logBytes)) ∧
     ((i = 0 ∨ (4 < i ∧ i < 16) ∨ 136 ≤ i) → measurement s i = none)) ∧
   (∀ s slot chain, s.boot.started = true →
     (slot = 1 → s.boot.owners ≠ [] → ∃ t, exec (.setCertificate slot chain) s = .next t ∧ t.boot.cert1 = chain ∧
       t.boot.out = (spdmSetCertificate, Config.spdmReply spdmSetCertificate) :: s.boot.out) ∧
     ((slot ≠ 1 ∨ s.boot.owners = []) → ∃ t, exec (.setCertificate slot chain) s = .next t ∧ t.boot.cert1 = s.boot.cert1 ∧
       t.boot.out = (spdmSetCertificate, spdmError) :: s.boot.out)))
end

