-- ==== Sys2Proof/Laws/Assoc.lean ====
section
/-! SUPPORT. The laws of the sparse maps: what a read after a write gives, and that writes keep the keys rising. -/

namespace Sys2Proof.Assoc

variable {α : Type}

@[simp] theorem get?_nil (k : Nat) : get? ([] : Assoc α) k = none := rfl
theorem get?_put_self (m : Assoc α) (k : Nat) (v : α) : get? (put m k v) k = some v := by
  induction m with
  | nil => simp [put, get?]
  | cons x m ih => obtain ⟨k', v'⟩ := x; unfold put; split <;> (try split) <;> simp_all [get?]
theorem get?_put_other (m : Assoc α) {j k : Nat} (v : α) (h : j ≠ k) : get? (put m k v) j = get? m j := by
  induction m with
  | nil => simp [put, get?, h]
  | cons x m ih =>
    obtain ⟨k', v'⟩ := x; unfold put; split <;> (try split) <;> simp_all [get?]
theorem get?_del_self (m : Assoc α) (k : Nat) : get? (del m k) k = none := by
  induction m with
  | nil => rfl
  | cons x m ih => obtain ⟨k', v'⟩ := x; unfold del; split <;> simp_all [get?]
theorem get?_del_other (m : Assoc α) {j k : Nat} (h : j ≠ k) : get? (del m k) j = get? m j := by
  induction m with
  | nil => rfl
  | cons x m ih => obtain ⟨k', v'⟩ := x; unfold del; split <;> simp_all [get?]
/-- The entry at a key after an entry is put. -/
theorem get?_put (m : Assoc α) (j k : Nat) (v : α) : get? (put m k v) j = if j = k then some v else get? m j := by
  by_cases h : j = k
  · subst h; simp [get?_put_self]
  · simp [h, get?_put_other m v h]
/-- The entry at a key after an entry is removed. -/
theorem get?_del (m : Assoc α) (j k : Nat) : get? (del m k) j = if j = k then none else get? m j := by
  by_cases h : j = k
  · subst h; simp [get?_del_self]
  · simp [h, get?_del_other m h]
/-- The value at a key after an entry is put. -/
theorem rd_put (d : α) (m : Assoc α) (j k : Nat) (v : α) : rd d (put m k v) j = if j = k then v else rd d m j := by
  unfold rd; rw [get?_put]; split <;> rfl
/-- The value at a key after an entry is removed. -/
theorem rd_del (d : α) (m : Assoc α) (j k : Nat) : rd d (del m k) j = if j = k then d else rd d m j := by
  unfold rd
  by_cases h : j = k
  · subst h; simp [get?_del_self]
  · simp [h, get?_del_other m h]
/-- The value at a key after a write. -/
theorem rd_wr [DecidableEq α] (d : α) (m : Assoc α) (j k : Nat) (v : α) :
    rd d (wr d m k v) j = if j = k then v else rd d m j := by
  unfold wr; split
  · rw [rd_del]; split <;> simp_all
  · rw [rd_put]

theorem above_mono {b c : Nat} (h : b ≤ c) (m : Assoc α) (hm : above (some c) m = true) : above (some b) m = true := by
  cases m with
  | nil => rfl
  | cons x m => obtain ⟨k, v⟩ := x; simp_all [above]; omega
theorem above_none {b : Option Nat} (m : Assoc α) (hm : above b m = true) : above none m = true := by
  cases m with
  | nil => rfl
  | cons x m => obtain ⟨k, v⟩ := x; simp_all [above]
theorem above_del (b : Option Nat) (m : Assoc α) (k : Nat) (hm : above b m = true) : above b (del m k) = true := by
  induction m generalizing b with
  | nil => rfl
  | cons x m ih =>
    obtain ⟨k', v'⟩ := x
    unfold del
    simp only [above, Bool.and_eq_true] at hm
    split
    · refine ih b ?_
      cases b with
      | none => exact above_none m hm.2
      | some b => exact above_mono (by have := hm.1; simp at this; omega) m hm.2
    · simp only [above, Bool.and_eq_true]; exact ⟨hm.1, ih _ hm.2⟩
theorem above_put (b : Option Nat) (m : Assoc α) (k : Nat) (v : α) (hk : ∀ x, b = some x → x < k)
    (hm : above b m = true) : above b (put m k v) = true := by
  induction m generalizing b with
  | nil => cases b <;> simp_all [put, above]
  | cons x m ih =>
    obtain ⟨k', v'⟩ := x
    unfold put
    simp only [above, Bool.and_eq_true] at hm
    split
    · subst_vars; simp only [above, Bool.and_eq_true]; exact hm
    · split
      · simp only [above, Bool.and_eq_true]
        refine ⟨?_, by simpa using ‹k < k'›, hm.2⟩
        cases b with
        | none => rfl
        | some b => simpa using hk b rfl
      · simp only [above, Bool.and_eq_true]
        refine ⟨hm.1, ih _ ?_ hm.2⟩
        intro x hx
        simp only [Option.some.injEq] at hx
        omega
/-- A write keeps the keys rising. -/
theorem sorted_wr [DecidableEq α] (d : α) (m : Assoc α) (k : Nat) (v : α) (h : sorted m = true) :
    sorted (wr d m k v) = true := by
  unfold wr sorted; split
  · exact above_del _ _ _ h
  · exact above_put _ _ _ _ (by simp) h
theorem all_del (p : Nat × α → Bool) (m : Assoc α) (k : Nat) (h : m.all p = true) : (del m k).all p = true := by
  induction m with
  | nil => rfl
  | cons x m ih =>
    obtain ⟨k', v'⟩ := x
    simp only [List.all_cons, Bool.and_eq_true] at h
    unfold del; split
    · exact ih h.2
    · simp only [List.all_cons, Bool.and_eq_true]; exact ⟨h.1, ih h.2⟩
theorem all_put (p : Nat × α → Bool) (m : Assoc α) (k : Nat) (v : α) (hv : p (k, v) = true) (h : m.all p = true) :
    (put m k v).all p = true := by
  induction m with
  | nil => simp [put, hv]
  | cons x m ih =>
    obtain ⟨k', v'⟩ := x
    simp only [List.all_cons, Bool.and_eq_true] at h
    unfold put; split
    · simp [hv, h.2]
    · split
      · simp [hv, h.1, h.2]
      · simp [h.1, ih h.2]
/-- A write leaves no entry that holds the default. -/
theorem all_wr [DecidableEq α] (d : α) (m : Assoc α) (k : Nat) (v : α)
    (h : m.all (fun c => decide (c.2 ≠ d)) = true) : (wr d m k v).all (fun c => decide (c.2 ≠ d)) = true := by
  unfold wr; split
  · exact all_del _ _ _ h
  · exact all_put _ _ _ _ (by simpa) h

end Sys2Proof.Assoc
end

