-- ==== Sys2Proof/Laws/Groups.lean ====
section
/-! SUPPORT. The laws of the views of teams and groups, and of registers. -/

namespace Sys2Proof.Machine

/-! ### Teams and groups -/

theorem find?_mapUid (ts : List Team) (uid u : Nat) (f : Team → Team) (hf : ∀ t, (f t).uid = t.uid) :
    (ts.map fun t => if t.uid = uid then f t else t).find? (fun t => t.uid == u) =
      (ts.find? fun t => t.uid == u).map fun t => if t.uid = uid then f t else t := by
  induction ts with
  | nil => rfl
  | cons t ts ih =>
    have h : (if t.uid = uid then f t else t).uid = t.uid := by split <;> simp [hf]
    simp only [List.map_cons, List.find?_cons, h]
    by_cases h2 : t.uid == u
    · simp [h2]
    · simp [h2, ih]
/-- A team after one team is replaced. -/
theorem team?_modTeam (s : State) (uid u : Nat) (f : Team → Team) (hf : ∀ t, (f t).uid = t.uid) :
    (modTeam uid f s).team? u = (s.team? u).map fun t => if t.uid = uid then f t else t :=
  find?_mapUid s.teams uid u f hf
theorem team?_uid {s : State} {u : Nat} {t : Team} (h : s.team? u = some t) : t.uid = u := by
  have := List.find?_some h; simpa using this
theorem group?_modGroup (t : Team) (idx i : Nat) (f : Group → Group) (hf : ∀ g, (f g).idx = g.idx) :
    (t.modGroup idx f).group? i = (t.group? i).map fun g => if g.idx = idx then f g else g := by
  unfold Team.group? Team.modGroup
  simp only
  induction t.groups with
  | nil => rfl
  | cons g gs ih =>
    have h : (if g.idx = idx then f g else g).idx = g.idx := by split <;> simp [hf]
    simp only [List.map_cons, List.find?_cons, h]
    by_cases h2 : g.idx == i
    · simp [h2]
    · simp [h2, ih]
theorem group?_idx {t : Team} {i : Nat} {g : Group} (h : t.group? i = some g) : g.idx = i := by
  have := List.find?_some h; simpa using this
@[simp] theorem Team.modGroup_uid (t : Team) (idx : Nat) (f : Group → Group) : (t.modGroup idx f).uid = t.uid := rfl

/-- What a view holds. -/
theorem env?_eq {s : State} {g : Gid} {e : Env} (h : env? s g = some e) :
    s.team? g.team = some e.team ∧ e.team.group? g.group = some e.grp ∧ e.st = s ∧ e.gid = g := by
  unfold env? at h
  split at h
  · cases h
  · split at h
    · cases h
    · cases h; exact ⟨‹_›, ‹_›, rfl, rfl⟩
/-- The view of a group after a group is replaced. -/
theorem env?_modGroup (s : State) (gid h : Gid) (f : Group → Group) (hf : ∀ g, (f g).idx = g.idx) :
    env? (modGroup gid f s) h = (env? s h).map fun e =>
      ⟨modGroup gid f s, h, if e.team.uid = gid.team then e.team.modGroup gid.group f else e.team,
        if h = gid then f e.grp else e.grp⟩ := by
  unfold env?
  have ht : (modGroup gid f s).team? h.team = (s.team? h.team).map fun t =>
      if t.uid = gid.team then t.modGroup gid.group f else t :=
    team?_modTeam s gid.team h.team _ (fun _ => rfl)
  rw [ht]
  cases hs : s.team? h.team with
  | none => rfl
  | some t =>
    have hu := team?_uid hs
    simp only [Option.map_some]
    by_cases hg : t.uid = gid.team
    · simp only [hg, if_true]
      rw [group?_modGroup t gid.group h.group f hf]
      cases hgr : t.group? h.group with
      | none => rfl
      | some g =>
        have hi := group?_idx hgr
        simp only [Option.map_some, hg, if_true]
        have : (g.idx = gid.group) ↔ (h = gid) := by
          constructor
          · intro x; cases h; cases gid; simp_all
          · intro x; subst x; exact hi
        by_cases hx : h = gid
        · simp [hx, this.2 hx]
        · have hn : ¬ g.idx = gid.group := fun y => hx (this.1 y)
          simp [hx, hn]
    · simp only [hg, if_false]
      cases hgr : t.group? h.group with
      | none => rfl
      | some g =>
        have hx : h ≠ gid := by intro x; subst x; exact hg hu
        simp [hx, hg]
theorem modGroup_modGroup (gid : Gid) (f h : Group → Group) (s : State) (hf : ∀ g, (f g).idx = g.idx) :
    modGroup gid h (modGroup gid f s) = modGroup gid (fun g => h (f g)) s := by
  unfold modGroup modTeam Team.modGroup
  simp only [List.map_map]
  congr 1
  apply List.map_congr_left
  intro t _
  simp only [Function.comp]
  by_cases ht : t.uid = gid.team
  · simp only [ht, if_true, List.map_map]
    congr 1
    apply List.map_congr_left
    intro g _
    simp only [Function.comp]
    by_cases hg : g.idx = gid.group
    · simp [hg, hf]
    · simp [hg]
  · simp [ht]
/-- Other teams' fields are as they were, but for the groups. -/
theorem bare_modGroup (s : State) (gid : Gid) (f : Group → Group) (u : Nat) :
    ((modGroup gid f s).team? u).map (fun x => { x with groups := [] }) =
      (s.team? u).map fun x => { x with groups := [] } := by
  have h : (modGroup gid f s).team? u = (s.team? u).map fun t =>
      if t.uid = gid.team then t.modGroup gid.group f else t := team?_modTeam s gid.team u _ (fun _ => rfl)
  rw [h, Option.map_map]
  congr 1
  funext t
  simp only [Function.comp]
  split <;> rfl

/-! ### Registers -/

theorem laneBit_getLsbD (i j : Nat) (hi : i < 128) : (laneBit i).getLsbD j = decide (j = i) := by
  unfold laneBit
  simp only [BitVec.getLsbD_shiftLeft]
  by_cases h : j = i
  · subst h; simp [hi]
  · simp [h]; omega
theorem or_laneBit (m : Mask) (i j : Nat) (hi : i < 128) :
    (m ||| laneBit i).getLsbD j = (decide (j = i) || m.getLsbD j) := by
  simp [laneBit_getLsbD i j hi, Bool.or_comm]
theorem andNot_laneBit (m : Mask) (i j : Nat) (hi : i < 128) (hj : j < 128) :
    (m &&& ~~~laneBit i).getLsbD j = (!decide (j = i) && m.getLsbD j) := by
  rw [BitVec.getLsbD_and, BitVec.getLsbD_not, laneBit_getLsbD i j hi, Bool.and_comm]
  simp [hj]

end Sys2Proof.Machine
end

