-- ==== Sys2Proof/Laws/Memory.lean ====
section
/-! SUPPORT. The laws of memory: a read after a write, and that writes keep the canonical form. -/

namespace Sys2Proof.Machine

theorem Memory.wf_nil : Memory.wf [] = true := rfl
/-- A byte after a byte is written. -/
theorem memByte_memPut (m : List Host.Cell) (a k : Nat) (b : Byte) :
    memByte (memPut m k b) a = if a = k then b else memByte m a := Assoc.rd_wr _ _ _ _ _
/-- Writing a byte keeps the canonical form. -/
theorem Memory.wf_memPut (m : List Host.Cell) (a : Nat) (b : Byte) (h : Memory.wf m = true) :
    Memory.wf (memPut m a b) = true := by
  simp only [Memory.wf, Bool.and_eq_true] at h ⊢
  exact ⟨Assoc.sorted_wr _ _ _ _ h.1, Assoc.all_wr _ _ _ _ h.2⟩
/-- Writing bytes keeps the canonical form. -/
theorem Memory.wf_memPuts (m : List Host.Cell) (a : Nat) (bs : List Byte) (h : Memory.wf m = true) :
    Memory.wf (memPuts m a bs) = true := by
  induction bs generalizing m a with
  | nil => exact h
  | cons b bs ih => exact ih _ _ (Memory.wf_memPut m a b h)
/-- A byte after bytes are written. -/
theorem memByte_memPuts (m : List Host.Cell) (k a : Nat) (bs : List Byte) :
    memByte (memPuts m k bs) a = if k ≤ a ∧ a < k + bs.length then bs[a - k]?.getD 0 else memByte m a := by
  induction bs generalizing m k with
  | nil => rw [if_neg (by simp only [List.length_nil]; omega)]; rfl
  | cons b bs ih =>
    rw [memPuts, ih, memByte_memPut]
    by_cases h1 : a = k
    · subst h1; rw [if_neg (by omega)]; simp
    · by_cases h2 : k + 1 ≤ a ∧ a < k + 1 + bs.length
      · have h3 : k ≤ a ∧ a < k + (b :: bs).length := by simp; omega
        rw [if_pos h2, if_pos h3]
        obtain ⟨n, hn⟩ : ∃ n, a - k = n + 1 := ⟨a - k - 1, by omega⟩
        have hn' : a - (k + 1) = n := by omega
        simp [hn, hn']
      · have h3 : ¬ (k ≤ a ∧ a < k + (b :: bs).length) := by simp; omega
        rw [if_neg h2, if_neg h3, if_neg h1]
/-- What was written is read back. -/
theorem memBytes_length (m : List Host.Cell) (a n : Nat) : (memBytes m a n).length = n := by
  induction n generalizing a with
  | zero => rfl
  | succ n ih => simp [memBytes, ih]

end Sys2Proof.Machine
end

