-- ==== Sys2Proof/Laws/State.lean ====
section
/-! SUPPORT. The laws of State: what each update of one part leaves of the others, field by field, and what it writes. -/

namespace Sys2Proof.Machine

/-! ### `State.setCtx` -/

@[simp] theorem State.setCtx_agenda (s : State) (c : Nat) (x : Ctx) : (s.setCtx c x).agenda = s.agenda := rfl
@[simp] theorem State.setCtx_cur (s : State) (c : Nat) (x : Ctx) : (s.setCtx c x).cur = s.cur := rfl
@[simp] theorem State.setCtx_curCore (s : State) (c : Nat) (x : Ctx) : (s.setCtx c x).curCore = s.curCore := rfl
@[simp] theorem State.setCtx_curWalk (s : State) (c : Nat) (x : Ctx) : (s.setCtx c x).curWalk = s.curWalk := rfl
@[simp] theorem State.setCtx_fresh (s : State) (c : Nat) (x : Ctx) : (s.setCtx c x).fresh = s.fresh := rfl
@[simp] theorem State.setCtx_nextId (s : State) (c : Nat) (x : Ctx) : (s.setCtx c x).nextId = s.nextId := rfl
@[simp] theorem State.setCtx_mem (s : State) (c : Nat) (x : Ctx) : (s.setCtx c x).mem = s.mem := rfl
@[simp] theorem State.setCtx_ecc (s : State) (c : Nat) (x : Ctx) : (s.setCtx c x).ecc = s.ecc := rfl
@[simp] theorem State.setCtx_rowErrs (s : State) (c : Nat) (x : Ctx) : (s.setCtx c x).rowErrs = s.rowErrs := rfl
@[simp] theorem State.setCtx_chErrs (s : State) (c : Nat) (x : Ctx) : (s.setCtx c x).chErrs = s.chErrs := rfl
@[simp] theorem State.setCtx_spared (s : State) (c : Nat) (x : Ctx) : (s.setCtx c x).spared = s.spared := rfl
@[simp] theorem State.setCtx_l2 (s : State) (c : Nat) (x : Ctx) : (s.setCtx c x).l2 = s.l2 := rfl
@[simp] theorem State.setCtx_snoop (s : State) (c : Nat) (x : Ctx) : (s.setCtx c x).snoop = s.snoop := rfl
@[simp] theorem State.setCtx_biOut (s : State) (c : Nat) (x : Ctx) : (s.setCtx c x).biOut = s.biOut := rfl
@[simp] theorem State.setCtx_rdc (s : State) (c : Nat) (x : Ctx) : (s.setCtx c x).rdc = s.rdc := rfl
@[simp] theorem State.setCtx_l1 (s : State) (c : Nat) (x : Ctx) : (s.setCtx c x).l1 = s.l1 := rfl
@[simp] theorem State.setCtx_icache (s : State) (c : Nat) (x : Ctx) : (s.setCtx c x).icache = s.icache := rfl
@[simp] theorem State.setCtx_prios (s : State) (c : Nat) (x : Ctx) : (s.setCtx c x).prios = s.prios := rfl
@[simp] theorem State.setCtx_tlb (s : State) (c : Nat) (x : Ctx) : (s.setCtx c x).tlb = s.tlb := rfl
@[simp] theorem State.setCtx_btlb (s : State) (c : Nat) (x : Ctx) : (s.setCtx c x).btlb = s.btlb := rfl
@[simp] theorem State.setCtx_pb (s : State) (c : Nat) (x : Ctx) : (s.setCtx c x).pb = s.pb := rfl
@[simp] theorem State.setCtx_pool (s : State) (c : Nat) (x : Ctx) : (s.setCtx c x).pool = s.pool := rfl
@[simp] theorem State.setCtx_poolErr (s : State) (c : Nat) (x : Ctx) : (s.setCtx c x).poolErr = s.poolErr := rfl
@[simp] theorem State.setCtx_acc (s : State) (c : Nat) (x : Ctx) : (s.setCtx c x).acc = s.acc := rfl
@[simp] theorem State.setCtx_mrp (s : State) (c : Nat) (x : Ctx) : (s.setCtx c x).mrp = s.mrp := rfl
@[simp] theorem State.setCtx_opbuf (s : State) (c : Nat) (x : Ctx) : (s.setCtx c x).opbuf = s.opbuf := rfl
@[simp] theorem State.setCtx_matq (s : State) (c : Nat) (x : Ctx) : (s.setCtx c x).matq = s.matq := rfl
@[simp] theorem State.setCtx_epi (s : State) (c : Nat) (x : Ctx) : (s.setCtx c x).epi = s.epi := rfl
@[simp] theorem State.setCtx_epiSrc (s : State) (c : Nat) (x : Ctx) : (s.setCtx c x).epiSrc = s.epiSrc := rfl
@[simp] theorem State.setCtx_top (s : State) (c : Nat) (x : Ctx) : (s.setCtx c x).top = s.top := rfl
@[simp] theorem State.setCtx_rings (s : State) (c : Nat) (x : Ctx) : (s.setCtx c x).rings = s.rings := rfl
@[simp] theorem State.setCtx_agateLast (s : State) (c : Nat) (x : Ctx) : (s.setCtx c x).agateLast = s.agateLast := rfl
@[simp] theorem State.setCtx_copies (s : State) (c : Nat) (x : Ctx) : (s.setCtx c x).copies = s.copies := rfl
@[simp] theorem State.setCtx_walks (s : State) (c : Nat) (x : Ctx) : (s.setCtx c x).walks = s.walks := rfl
@[simp] theorem State.setCtx_regx (s : State) (c : Nat) (x : Ctx) : (s.setCtx c x).regx = s.regx := rfl
@[simp] theorem State.setCtx_idle (s : State) (c : Nat) (x : Ctx) : (s.setCtx c x).idle = s.idle := rfl
@[simp] theorem State.setCtx_skips (s : State) (c : Nat) (x : Ctx) : (s.setCtx c x).skips = s.skips := rfl
@[simp] theorem State.setCtx_slips (s : State) (c : Nat) (x : Ctx) : (s.setCtx c x).slips = s.slips := rfl
@[simp] theorem State.setCtx_slots (s : State) (c : Nat) (x : Ctx) : (s.setCtx c x).slots = s.slots := rfl
@[simp] theorem State.setCtx_teams (s : State) (c : Nat) (x : Ctx) : (s.setCtx c x).teams = s.teams := rfl
@[simp] theorem State.setCtx_nextAge (s : State) (c : Nat) (x : Ctx) : (s.setCtx c x).nextAge = s.nextAge := rfl
@[simp] theorem State.setCtx_pend (s : State) (c : Nat) (x : Ctx) : (s.setCtx c x).pend = s.pend := rfl
@[simp] theorem State.setCtx_dies (s : State) (c : Nat) (x : Ctx) : (s.setCtx c x).dies = s.dies := rfl
@[simp] theorem State.setCtx_beryl (s : State) (c : Nat) (x : Ctx) : (s.setCtx c x).beryl = s.beryl := rfl
@[simp] theorem State.setCtx_grids (s : State) (c : Nat) (x : Ctx) : (s.setCtx c x).grids = s.grids := rfl
@[simp] theorem State.setCtx_gridOrder (s : State) (c : Nat) (x : Ctx) : (s.setCtx c x).gridOrder = s.gridOrder := rfl
@[simp] theorem State.setCtx_phase (s : State) (c : Nat) (x : Ctx) : (s.setCtx c x).phase = s.phase := rfl
@[simp] theorem State.setCtx_plimit (s : State) (c : Nat) (x : Ctx) : (s.setCtx c x).plimit = s.plimit := rfl
@[simp] theorem State.setCtx_power (s : State) (c : Nat) (x : Ctx) : (s.setCtx c x).power = s.power := rfl
@[simp] theorem State.setCtx_coolant (s : State) (c : Nat) (x : Ctx) : (s.setCtx c x).coolant = s.coolant := rfl
@[simp] theorem State.setCtx_fabid (s : State) (c : Nat) (x : Ctx) : (s.setCtx c x).fabid = s.fabid := rfl
@[simp] theorem State.setCtx_domain (s : State) (c : Nat) (x : Ctx) : (s.setCtx c x).domain = s.domain := rfl
@[simp] theorem State.setCtx_vfmap (s : State) (c : Nat) (x : Ctx) : (s.setCtx c x).vfmap = s.vfmap := rfl
@[simp] theorem State.setCtx_elHead (s : State) (c : Nat) (x : Ctx) : (s.setCtx c x).elHead = s.elHead := rfl
@[simp] theorem State.setCtx_log (s : State) (c : Nat) (x : Ctx) : (s.setCtx c x).log = s.log := rfl
@[simp] theorem State.setCtx_cycle (s : State) (c : Nat) (x : Ctx) : (s.setCtx c x).cycle = s.cycle := rfl
@[simp] theorem State.setCtx_boot (s : State) (c : Nat) (x : Ctx) : (s.setCtx c x).boot = s.boot := rfl
@[simp] theorem State.setCtx_hostOut (s : State) (c : Nat) (x : Ctx) : (s.setCtx c x).hostOut = s.hostOut := rfl

/-! ### `State.setDie` -/

@[simp] theorem State.setDie_agenda (s : State) (d : Nat) (x : Die) : (s.setDie d x).agenda = s.agenda := rfl
@[simp] theorem State.setDie_cur (s : State) (d : Nat) (x : Die) : (s.setDie d x).cur = s.cur := rfl
@[simp] theorem State.setDie_curCore (s : State) (d : Nat) (x : Die) : (s.setDie d x).curCore = s.curCore := rfl
@[simp] theorem State.setDie_curWalk (s : State) (d : Nat) (x : Die) : (s.setDie d x).curWalk = s.curWalk := rfl
@[simp] theorem State.setDie_fresh (s : State) (d : Nat) (x : Die) : (s.setDie d x).fresh = s.fresh := rfl
@[simp] theorem State.setDie_nextId (s : State) (d : Nat) (x : Die) : (s.setDie d x).nextId = s.nextId := rfl
@[simp] theorem State.setDie_mem (s : State) (d : Nat) (x : Die) : (s.setDie d x).mem = s.mem := rfl
@[simp] theorem State.setDie_ecc (s : State) (d : Nat) (x : Die) : (s.setDie d x).ecc = s.ecc := rfl
@[simp] theorem State.setDie_rowErrs (s : State) (d : Nat) (x : Die) : (s.setDie d x).rowErrs = s.rowErrs := rfl
@[simp] theorem State.setDie_chErrs (s : State) (d : Nat) (x : Die) : (s.setDie d x).chErrs = s.chErrs := rfl
@[simp] theorem State.setDie_spared (s : State) (d : Nat) (x : Die) : (s.setDie d x).spared = s.spared := rfl
@[simp] theorem State.setDie_l2 (s : State) (d : Nat) (x : Die) : (s.setDie d x).l2 = s.l2 := rfl
@[simp] theorem State.setDie_snoop (s : State) (d : Nat) (x : Die) : (s.setDie d x).snoop = s.snoop := rfl
@[simp] theorem State.setDie_biOut (s : State) (d : Nat) (x : Die) : (s.setDie d x).biOut = s.biOut := rfl
@[simp] theorem State.setDie_rdc (s : State) (d : Nat) (x : Die) : (s.setDie d x).rdc = s.rdc := rfl
@[simp] theorem State.setDie_l1 (s : State) (d : Nat) (x : Die) : (s.setDie d x).l1 = s.l1 := rfl
@[simp] theorem State.setDie_icache (s : State) (d : Nat) (x : Die) : (s.setDie d x).icache = s.icache := rfl
@[simp] theorem State.setDie_prios (s : State) (d : Nat) (x : Die) : (s.setDie d x).prios = s.prios := rfl
@[simp] theorem State.setDie_tlb (s : State) (d : Nat) (x : Die) : (s.setDie d x).tlb = s.tlb := rfl
@[simp] theorem State.setDie_btlb (s : State) (d : Nat) (x : Die) : (s.setDie d x).btlb = s.btlb := rfl
@[simp] theorem State.setDie_pb (s : State) (d : Nat) (x : Die) : (s.setDie d x).pb = s.pb := rfl
@[simp] theorem State.setDie_pool (s : State) (d : Nat) (x : Die) : (s.setDie d x).pool = s.pool := rfl
@[simp] theorem State.setDie_poolErr (s : State) (d : Nat) (x : Die) : (s.setDie d x).poolErr = s.poolErr := rfl
@[simp] theorem State.setDie_acc (s : State) (d : Nat) (x : Die) : (s.setDie d x).acc = s.acc := rfl
@[simp] theorem State.setDie_mrp (s : State) (d : Nat) (x : Die) : (s.setDie d x).mrp = s.mrp := rfl
@[simp] theorem State.setDie_opbuf (s : State) (d : Nat) (x : Die) : (s.setDie d x).opbuf = s.opbuf := rfl
@[simp] theorem State.setDie_matq (s : State) (d : Nat) (x : Die) : (s.setDie d x).matq = s.matq := rfl
@[simp] theorem State.setDie_epi (s : State) (d : Nat) (x : Die) : (s.setDie d x).epi = s.epi := rfl
@[simp] theorem State.setDie_epiSrc (s : State) (d : Nat) (x : Die) : (s.setDie d x).epiSrc = s.epiSrc := rfl
@[simp] theorem State.setDie_top (s : State) (d : Nat) (x : Die) : (s.setDie d x).top = s.top := rfl
@[simp] theorem State.setDie_rings (s : State) (d : Nat) (x : Die) : (s.setDie d x).rings = s.rings := rfl
@[simp] theorem State.setDie_agateLast (s : State) (d : Nat) (x : Die) : (s.setDie d x).agateLast = s.agateLast := rfl
@[simp] theorem State.setDie_copies (s : State) (d : Nat) (x : Die) : (s.setDie d x).copies = s.copies := rfl
@[simp] theorem State.setDie_walks (s : State) (d : Nat) (x : Die) : (s.setDie d x).walks = s.walks := rfl
@[simp] theorem State.setDie_regx (s : State) (d : Nat) (x : Die) : (s.setDie d x).regx = s.regx := rfl
@[simp] theorem State.setDie_idle (s : State) (d : Nat) (x : Die) : (s.setDie d x).idle = s.idle := rfl
@[simp] theorem State.setDie_skips (s : State) (d : Nat) (x : Die) : (s.setDie d x).skips = s.skips := rfl
@[simp] theorem State.setDie_slips (s : State) (d : Nat) (x : Die) : (s.setDie d x).slips = s.slips := rfl
@[simp] theorem State.setDie_slots (s : State) (d : Nat) (x : Die) : (s.setDie d x).slots = s.slots := rfl
@[simp] theorem State.setDie_teams (s : State) (d : Nat) (x : Die) : (s.setDie d x).teams = s.teams := rfl
@[simp] theorem State.setDie_nextAge (s : State) (d : Nat) (x : Die) : (s.setDie d x).nextAge = s.nextAge := rfl
@[simp] theorem State.setDie_pend (s : State) (d : Nat) (x : Die) : (s.setDie d x).pend = s.pend := rfl
@[simp] theorem State.setDie_beryl (s : State) (d : Nat) (x : Die) : (s.setDie d x).beryl = s.beryl := rfl
@[simp] theorem State.setDie_ctxs (s : State) (d : Nat) (x : Die) : (s.setDie d x).ctxs = s.ctxs := rfl
@[simp] theorem State.setDie_grids (s : State) (d : Nat) (x : Die) : (s.setDie d x).grids = s.grids := rfl
@[simp] theorem State.setDie_gridOrder (s : State) (d : Nat) (x : Die) : (s.setDie d x).gridOrder = s.gridOrder := rfl
@[simp] theorem State.setDie_phase (s : State) (d : Nat) (x : Die) : (s.setDie d x).phase = s.phase := rfl
@[simp] theorem State.setDie_plimit (s : State) (d : Nat) (x : Die) : (s.setDie d x).plimit = s.plimit := rfl
@[simp] theorem State.setDie_power (s : State) (d : Nat) (x : Die) : (s.setDie d x).power = s.power := rfl
@[simp] theorem State.setDie_coolant (s : State) (d : Nat) (x : Die) : (s.setDie d x).coolant = s.coolant := rfl
@[simp] theorem State.setDie_fabid (s : State) (d : Nat) (x : Die) : (s.setDie d x).fabid = s.fabid := rfl
@[simp] theorem State.setDie_domain (s : State) (d : Nat) (x : Die) : (s.setDie d x).domain = s.domain := rfl
@[simp] theorem State.setDie_vfmap (s : State) (d : Nat) (x : Die) : (s.setDie d x).vfmap = s.vfmap := rfl
@[simp] theorem State.setDie_elHead (s : State) (d : Nat) (x : Die) : (s.setDie d x).elHead = s.elHead := rfl
@[simp] theorem State.setDie_log (s : State) (d : Nat) (x : Die) : (s.setDie d x).log = s.log := rfl
@[simp] theorem State.setDie_cycle (s : State) (d : Nat) (x : Die) : (s.setDie d x).cycle = s.cycle := rfl
@[simp] theorem State.setDie_boot (s : State) (d : Nat) (x : Die) : (s.setDie d x).boot = s.boot := rfl
@[simp] theorem State.setDie_hostOut (s : State) (d : Nat) (x : Die) : (s.setDie d x).hostOut = s.hostOut := rfl

/-! ### `State.setSlot` -/

@[simp] theorem State.setSlot_agenda (s : State) (c n : Nat) (x : Slot) : (s.setSlot c n x).agenda = s.agenda := rfl
@[simp] theorem State.setSlot_cur (s : State) (c n : Nat) (x : Slot) : (s.setSlot c n x).cur = s.cur := rfl
@[simp] theorem State.setSlot_curCore (s : State) (c n : Nat) (x : Slot) : (s.setSlot c n x).curCore = s.curCore := rfl
@[simp] theorem State.setSlot_curWalk (s : State) (c n : Nat) (x : Slot) : (s.setSlot c n x).curWalk = s.curWalk := rfl
@[simp] theorem State.setSlot_fresh (s : State) (c n : Nat) (x : Slot) : (s.setSlot c n x).fresh = s.fresh := rfl
@[simp] theorem State.setSlot_nextId (s : State) (c n : Nat) (x : Slot) : (s.setSlot c n x).nextId = s.nextId := rfl
@[simp] theorem State.setSlot_mem (s : State) (c n : Nat) (x : Slot) : (s.setSlot c n x).mem = s.mem := rfl
@[simp] theorem State.setSlot_ecc (s : State) (c n : Nat) (x : Slot) : (s.setSlot c n x).ecc = s.ecc := rfl
@[simp] theorem State.setSlot_rowErrs (s : State) (c n : Nat) (x : Slot) : (s.setSlot c n x).rowErrs = s.rowErrs := rfl
@[simp] theorem State.setSlot_chErrs (s : State) (c n : Nat) (x : Slot) : (s.setSlot c n x).chErrs = s.chErrs := rfl
@[simp] theorem State.setSlot_spared (s : State) (c n : Nat) (x : Slot) : (s.setSlot c n x).spared = s.spared := rfl
@[simp] theorem State.setSlot_l2 (s : State) (c n : Nat) (x : Slot) : (s.setSlot c n x).l2 = s.l2 := rfl
@[simp] theorem State.setSlot_snoop (s : State) (c n : Nat) (x : Slot) : (s.setSlot c n x).snoop = s.snoop := rfl
@[simp] theorem State.setSlot_biOut (s : State) (c n : Nat) (x : Slot) : (s.setSlot c n x).biOut = s.biOut := rfl
@[simp] theorem State.setSlot_rdc (s : State) (c n : Nat) (x : Slot) : (s.setSlot c n x).rdc = s.rdc := rfl
@[simp] theorem State.setSlot_l1 (s : State) (c n : Nat) (x : Slot) : (s.setSlot c n x).l1 = s.l1 := rfl
@[simp] theorem State.setSlot_icache (s : State) (c n : Nat) (x : Slot) : (s.setSlot c n x).icache = s.icache := rfl
@[simp] theorem State.setSlot_prios (s : State) (c n : Nat) (x : Slot) : (s.setSlot c n x).prios = s.prios := rfl
@[simp] theorem State.setSlot_tlb (s : State) (c n : Nat) (x : Slot) : (s.setSlot c n x).tlb = s.tlb := rfl
@[simp] theorem State.setSlot_btlb (s : State) (c n : Nat) (x : Slot) : (s.setSlot c n x).btlb = s.btlb := rfl
@[simp] theorem State.setSlot_pb (s : State) (c n : Nat) (x : Slot) : (s.setSlot c n x).pb = s.pb := rfl
@[simp] theorem State.setSlot_pool (s : State) (c n : Nat) (x : Slot) : (s.setSlot c n x).pool = s.pool := rfl
@[simp] theorem State.setSlot_poolErr (s : State) (c n : Nat) (x : Slot) : (s.setSlot c n x).poolErr = s.poolErr := rfl
@[simp] theorem State.setSlot_acc (s : State) (c n : Nat) (x : Slot) : (s.setSlot c n x).acc = s.acc := rfl
@[simp] theorem State.setSlot_mrp (s : State) (c n : Nat) (x : Slot) : (s.setSlot c n x).mrp = s.mrp := rfl
@[simp] theorem State.setSlot_opbuf (s : State) (c n : Nat) (x : Slot) : (s.setSlot c n x).opbuf = s.opbuf := rfl
@[simp] theorem State.setSlot_matq (s : State) (c n : Nat) (x : Slot) : (s.setSlot c n x).matq = s.matq := rfl
@[simp] theorem State.setSlot_epi (s : State) (c n : Nat) (x : Slot) : (s.setSlot c n x).epi = s.epi := rfl
@[simp] theorem State.setSlot_epiSrc (s : State) (c n : Nat) (x : Slot) : (s.setSlot c n x).epiSrc = s.epiSrc := rfl
@[simp] theorem State.setSlot_top (s : State) (c n : Nat) (x : Slot) : (s.setSlot c n x).top = s.top := rfl
@[simp] theorem State.setSlot_rings (s : State) (c n : Nat) (x : Slot) : (s.setSlot c n x).rings = s.rings := rfl
@[simp] theorem State.setSlot_agateLast (s : State) (c n : Nat) (x : Slot) : (s.setSlot c n x).agateLast = s.agateLast := rfl
@[simp] theorem State.setSlot_copies (s : State) (c n : Nat) (x : Slot) : (s.setSlot c n x).copies = s.copies := rfl
@[simp] theorem State.setSlot_walks (s : State) (c n : Nat) (x : Slot) : (s.setSlot c n x).walks = s.walks := rfl
@[simp] theorem State.setSlot_regx (s : State) (c n : Nat) (x : Slot) : (s.setSlot c n x).regx = s.regx := rfl
@[simp] theorem State.setSlot_idle (s : State) (c n : Nat) (x : Slot) : (s.setSlot c n x).idle = s.idle := rfl
@[simp] theorem State.setSlot_skips (s : State) (c n : Nat) (x : Slot) : (s.setSlot c n x).skips = s.skips := rfl
@[simp] theorem State.setSlot_slips (s : State) (c n : Nat) (x : Slot) : (s.setSlot c n x).slips = s.slips := rfl
@[simp] theorem State.setSlot_teams (s : State) (c n : Nat) (x : Slot) : (s.setSlot c n x).teams = s.teams := rfl
@[simp] theorem State.setSlot_nextAge (s : State) (c n : Nat) (x : Slot) : (s.setSlot c n x).nextAge = s.nextAge := rfl
@[simp] theorem State.setSlot_pend (s : State) (c n : Nat) (x : Slot) : (s.setSlot c n x).pend = s.pend := rfl
@[simp] theorem State.setSlot_dies (s : State) (c n : Nat) (x : Slot) : (s.setSlot c n x).dies = s.dies := rfl
@[simp] theorem State.setSlot_beryl (s : State) (c n : Nat) (x : Slot) : (s.setSlot c n x).beryl = s.beryl := rfl
@[simp] theorem State.setSlot_ctxs (s : State) (c n : Nat) (x : Slot) : (s.setSlot c n x).ctxs = s.ctxs := rfl
@[simp] theorem State.setSlot_grids (s : State) (c n : Nat) (x : Slot) : (s.setSlot c n x).grids = s.grids := rfl
@[simp] theorem State.setSlot_gridOrder (s : State) (c n : Nat) (x : Slot) : (s.setSlot c n x).gridOrder = s.gridOrder := rfl
@[simp] theorem State.setSlot_phase (s : State) (c n : Nat) (x : Slot) : (s.setSlot c n x).phase = s.phase := rfl
@[simp] theorem State.setSlot_plimit (s : State) (c n : Nat) (x : Slot) : (s.setSlot c n x).plimit = s.plimit := rfl
@[simp] theorem State.setSlot_power (s : State) (c n : Nat) (x : Slot) : (s.setSlot c n x).power = s.power := rfl
@[simp] theorem State.setSlot_coolant (s : State) (c n : Nat) (x : Slot) : (s.setSlot c n x).coolant = s.coolant := rfl
@[simp] theorem State.setSlot_fabid (s : State) (c n : Nat) (x : Slot) : (s.setSlot c n x).fabid = s.fabid := rfl
@[simp] theorem State.setSlot_domain (s : State) (c n : Nat) (x : Slot) : (s.setSlot c n x).domain = s.domain := rfl
@[simp] theorem State.setSlot_vfmap (s : State) (c n : Nat) (x : Slot) : (s.setSlot c n x).vfmap = s.vfmap := rfl
@[simp] theorem State.setSlot_elHead (s : State) (c n : Nat) (x : Slot) : (s.setSlot c n x).elHead = s.elHead := rfl
@[simp] theorem State.setSlot_log (s : State) (c n : Nat) (x : Slot) : (s.setSlot c n x).log = s.log := rfl
@[simp] theorem State.setSlot_cycle (s : State) (c n : Nat) (x : Slot) : (s.setSlot c n x).cycle = s.cycle := rfl
@[simp] theorem State.setSlot_boot (s : State) (c n : Nat) (x : Slot) : (s.setSlot c n x).boot = s.boot := rfl
@[simp] theorem State.setSlot_hostOut (s : State) (c n : Nat) (x : Slot) : (s.setSlot c n x).hostOut = s.hostOut := rfl

/-! ### `modTeam` -/

@[simp] theorem modTeam_agenda (u : Nat) (f : Team → Team) (s : State) : (modTeam u f s).agenda = s.agenda := rfl
@[simp] theorem modTeam_cur (u : Nat) (f : Team → Team) (s : State) : (modTeam u f s).cur = s.cur := rfl
@[simp] theorem modTeam_curCore (u : Nat) (f : Team → Team) (s : State) : (modTeam u f s).curCore = s.curCore := rfl
@[simp] theorem modTeam_curWalk (u : Nat) (f : Team → Team) (s : State) : (modTeam u f s).curWalk = s.curWalk := rfl
@[simp] theorem modTeam_fresh (u : Nat) (f : Team → Team) (s : State) : (modTeam u f s).fresh = s.fresh := rfl
@[simp] theorem modTeam_nextId (u : Nat) (f : Team → Team) (s : State) : (modTeam u f s).nextId = s.nextId := rfl
@[simp] theorem modTeam_mem (u : Nat) (f : Team → Team) (s : State) : (modTeam u f s).mem = s.mem := rfl
@[simp] theorem modTeam_ecc (u : Nat) (f : Team → Team) (s : State) : (modTeam u f s).ecc = s.ecc := rfl
@[simp] theorem modTeam_rowErrs (u : Nat) (f : Team → Team) (s : State) : (modTeam u f s).rowErrs = s.rowErrs := rfl
@[simp] theorem modTeam_chErrs (u : Nat) (f : Team → Team) (s : State) : (modTeam u f s).chErrs = s.chErrs := rfl
@[simp] theorem modTeam_spared (u : Nat) (f : Team → Team) (s : State) : (modTeam u f s).spared = s.spared := rfl
@[simp] theorem modTeam_l2 (u : Nat) (f : Team → Team) (s : State) : (modTeam u f s).l2 = s.l2 := rfl
@[simp] theorem modTeam_snoop (u : Nat) (f : Team → Team) (s : State) : (modTeam u f s).snoop = s.snoop := rfl
@[simp] theorem modTeam_biOut (u : Nat) (f : Team → Team) (s : State) : (modTeam u f s).biOut = s.biOut := rfl
@[simp] theorem modTeam_rdc (u : Nat) (f : Team → Team) (s : State) : (modTeam u f s).rdc = s.rdc := rfl
@[simp] theorem modTeam_l1 (u : Nat) (f : Team → Team) (s : State) : (modTeam u f s).l1 = s.l1 := rfl
@[simp] theorem modTeam_icache (u : Nat) (f : Team → Team) (s : State) : (modTeam u f s).icache = s.icache := rfl
@[simp] theorem modTeam_prios (u : Nat) (f : Team → Team) (s : State) : (modTeam u f s).prios = s.prios := rfl
@[simp] theorem modTeam_tlb (u : Nat) (f : Team → Team) (s : State) : (modTeam u f s).tlb = s.tlb := rfl
@[simp] theorem modTeam_btlb (u : Nat) (f : Team → Team) (s : State) : (modTeam u f s).btlb = s.btlb := rfl
@[simp] theorem modTeam_pb (u : Nat) (f : Team → Team) (s : State) : (modTeam u f s).pb = s.pb := rfl
@[simp] theorem modTeam_pool (u : Nat) (f : Team → Team) (s : State) : (modTeam u f s).pool = s.pool := rfl
@[simp] theorem modTeam_poolErr (u : Nat) (f : Team → Team) (s : State) : (modTeam u f s).poolErr = s.poolErr := rfl
@[simp] theorem modTeam_acc (u : Nat) (f : Team → Team) (s : State) : (modTeam u f s).acc = s.acc := rfl
@[simp] theorem modTeam_mrp (u : Nat) (f : Team → Team) (s : State) : (modTeam u f s).mrp = s.mrp := rfl
@[simp] theorem modTeam_opbuf (u : Nat) (f : Team → Team) (s : State) : (modTeam u f s).opbuf = s.opbuf := rfl
@[simp] theorem modTeam_matq (u : Nat) (f : Team → Team) (s : State) : (modTeam u f s).matq = s.matq := rfl
@[simp] theorem modTeam_epi (u : Nat) (f : Team → Team) (s : State) : (modTeam u f s).epi = s.epi := rfl
@[simp] theorem modTeam_epiSrc (u : Nat) (f : Team → Team) (s : State) : (modTeam u f s).epiSrc = s.epiSrc := rfl
@[simp] theorem modTeam_top (u : Nat) (f : Team → Team) (s : State) : (modTeam u f s).top = s.top := rfl
@[simp] theorem modTeam_rings (u : Nat) (f : Team → Team) (s : State) : (modTeam u f s).rings = s.rings := rfl
@[simp] theorem modTeam_agateLast (u : Nat) (f : Team → Team) (s : State) : (modTeam u f s).agateLast = s.agateLast := rfl
@[simp] theorem modTeam_copies (u : Nat) (f : Team → Team) (s : State) : (modTeam u f s).copies = s.copies := rfl
@[simp] theorem modTeam_walks (u : Nat) (f : Team → Team) (s : State) : (modTeam u f s).walks = s.walks := rfl
@[simp] theorem modTeam_regx (u : Nat) (f : Team → Team) (s : State) : (modTeam u f s).regx = s.regx := rfl
@[simp] theorem modTeam_idle (u : Nat) (f : Team → Team) (s : State) : (modTeam u f s).idle = s.idle := rfl
@[simp] theorem modTeam_skips (u : Nat) (f : Team → Team) (s : State) : (modTeam u f s).skips = s.skips := rfl
@[simp] theorem modTeam_slips (u : Nat) (f : Team → Team) (s : State) : (modTeam u f s).slips = s.slips := rfl
@[simp] theorem modTeam_slots (u : Nat) (f : Team → Team) (s : State) : (modTeam u f s).slots = s.slots := rfl
@[simp] theorem modTeam_nextAge (u : Nat) (f : Team → Team) (s : State) : (modTeam u f s).nextAge = s.nextAge := rfl
@[simp] theorem modTeam_pend (u : Nat) (f : Team → Team) (s : State) : (modTeam u f s).pend = s.pend := rfl
@[simp] theorem modTeam_dies (u : Nat) (f : Team → Team) (s : State) : (modTeam u f s).dies = s.dies := rfl
@[simp] theorem modTeam_beryl (u : Nat) (f : Team → Team) (s : State) : (modTeam u f s).beryl = s.beryl := rfl
@[simp] theorem modTeam_ctxs (u : Nat) (f : Team → Team) (s : State) : (modTeam u f s).ctxs = s.ctxs := rfl
@[simp] theorem modTeam_grids (u : Nat) (f : Team → Team) (s : State) : (modTeam u f s).grids = s.grids := rfl
@[simp] theorem modTeam_gridOrder (u : Nat) (f : Team → Team) (s : State) : (modTeam u f s).gridOrder = s.gridOrder := rfl
@[simp] theorem modTeam_phase (u : Nat) (f : Team → Team) (s : State) : (modTeam u f s).phase = s.phase := rfl
@[simp] theorem modTeam_plimit (u : Nat) (f : Team → Team) (s : State) : (modTeam u f s).plimit = s.plimit := rfl
@[simp] theorem modTeam_power (u : Nat) (f : Team → Team) (s : State) : (modTeam u f s).power = s.power := rfl
@[simp] theorem modTeam_coolant (u : Nat) (f : Team → Team) (s : State) : (modTeam u f s).coolant = s.coolant := rfl
@[simp] theorem modTeam_fabid (u : Nat) (f : Team → Team) (s : State) : (modTeam u f s).fabid = s.fabid := rfl
@[simp] theorem modTeam_domain (u : Nat) (f : Team → Team) (s : State) : (modTeam u f s).domain = s.domain := rfl
@[simp] theorem modTeam_vfmap (u : Nat) (f : Team → Team) (s : State) : (modTeam u f s).vfmap = s.vfmap := rfl
@[simp] theorem modTeam_elHead (u : Nat) (f : Team → Team) (s : State) : (modTeam u f s).elHead = s.elHead := rfl
@[simp] theorem modTeam_log (u : Nat) (f : Team → Team) (s : State) : (modTeam u f s).log = s.log := rfl
@[simp] theorem modTeam_cycle (u : Nat) (f : Team → Team) (s : State) : (modTeam u f s).cycle = s.cycle := rfl
@[simp] theorem modTeam_boot (u : Nat) (f : Team → Team) (s : State) : (modTeam u f s).boot = s.boot := rfl
@[simp] theorem modTeam_hostOut (u : Nat) (f : Team → Team) (s : State) : (modTeam u f s).hostOut = s.hostOut := rfl

/-! ### `modGroup` -/

@[simp] theorem modGroup_agenda (g : Gid) (f : Group → Group) (s : State) : (modGroup g f s).agenda = s.agenda := rfl
@[simp] theorem modGroup_cur (g : Gid) (f : Group → Group) (s : State) : (modGroup g f s).cur = s.cur := rfl
@[simp] theorem modGroup_curCore (g : Gid) (f : Group → Group) (s : State) : (modGroup g f s).curCore = s.curCore := rfl
@[simp] theorem modGroup_curWalk (g : Gid) (f : Group → Group) (s : State) : (modGroup g f s).curWalk = s.curWalk := rfl
@[simp] theorem modGroup_fresh (g : Gid) (f : Group → Group) (s : State) : (modGroup g f s).fresh = s.fresh := rfl
@[simp] theorem modGroup_nextId (g : Gid) (f : Group → Group) (s : State) : (modGroup g f s).nextId = s.nextId := rfl
@[simp] theorem modGroup_mem (g : Gid) (f : Group → Group) (s : State) : (modGroup g f s).mem = s.mem := rfl
@[simp] theorem modGroup_ecc (g : Gid) (f : Group → Group) (s : State) : (modGroup g f s).ecc = s.ecc := rfl
@[simp] theorem modGroup_rowErrs (g : Gid) (f : Group → Group) (s : State) : (modGroup g f s).rowErrs = s.rowErrs := rfl
@[simp] theorem modGroup_chErrs (g : Gid) (f : Group → Group) (s : State) : (modGroup g f s).chErrs = s.chErrs := rfl
@[simp] theorem modGroup_spared (g : Gid) (f : Group → Group) (s : State) : (modGroup g f s).spared = s.spared := rfl
@[simp] theorem modGroup_l2 (g : Gid) (f : Group → Group) (s : State) : (modGroup g f s).l2 = s.l2 := rfl
@[simp] theorem modGroup_snoop (g : Gid) (f : Group → Group) (s : State) : (modGroup g f s).snoop = s.snoop := rfl
@[simp] theorem modGroup_biOut (g : Gid) (f : Group → Group) (s : State) : (modGroup g f s).biOut = s.biOut := rfl
@[simp] theorem modGroup_rdc (g : Gid) (f : Group → Group) (s : State) : (modGroup g f s).rdc = s.rdc := rfl
@[simp] theorem modGroup_l1 (g : Gid) (f : Group → Group) (s : State) : (modGroup g f s).l1 = s.l1 := rfl
@[simp] theorem modGroup_icache (g : Gid) (f : Group → Group) (s : State) : (modGroup g f s).icache = s.icache := rfl
@[simp] theorem modGroup_prios (g : Gid) (f : Group → Group) (s : State) : (modGroup g f s).prios = s.prios := rfl
@[simp] theorem modGroup_tlb (g : Gid) (f : Group → Group) (s : State) : (modGroup g f s).tlb = s.tlb := rfl
@[simp] theorem modGroup_btlb (g : Gid) (f : Group → Group) (s : State) : (modGroup g f s).btlb = s.btlb := rfl
@[simp] theorem modGroup_pb (g : Gid) (f : Group → Group) (s : State) : (modGroup g f s).pb = s.pb := rfl
@[simp] theorem modGroup_pool (g : Gid) (f : Group → Group) (s : State) : (modGroup g f s).pool = s.pool := rfl
@[simp] theorem modGroup_poolErr (g : Gid) (f : Group → Group) (s : State) : (modGroup g f s).poolErr = s.poolErr := rfl
@[simp] theorem modGroup_acc (g : Gid) (f : Group → Group) (s : State) : (modGroup g f s).acc = s.acc := rfl
@[simp] theorem modGroup_mrp (g : Gid) (f : Group → Group) (s : State) : (modGroup g f s).mrp = s.mrp := rfl
@[simp] theorem modGroup_opbuf (g : Gid) (f : Group → Group) (s : State) : (modGroup g f s).opbuf = s.opbuf := rfl
@[simp] theorem modGroup_matq (g : Gid) (f : Group → Group) (s : State) : (modGroup g f s).matq = s.matq := rfl
@[simp] theorem modGroup_epi (g : Gid) (f : Group → Group) (s : State) : (modGroup g f s).epi = s.epi := rfl
@[simp] theorem modGroup_epiSrc (g : Gid) (f : Group → Group) (s : State) : (modGroup g f s).epiSrc = s.epiSrc := rfl
@[simp] theorem modGroup_top (g : Gid) (f : Group → Group) (s : State) : (modGroup g f s).top = s.top := rfl
@[simp] theorem modGroup_rings (g : Gid) (f : Group → Group) (s : State) : (modGroup g f s).rings = s.rings := rfl
@[simp] theorem modGroup_agateLast (g : Gid) (f : Group → Group) (s : State) : (modGroup g f s).agateLast = s.agateLast := rfl
@[simp] theorem modGroup_copies (g : Gid) (f : Group → Group) (s : State) : (modGroup g f s).copies = s.copies := rfl
@[simp] theorem modGroup_walks (g : Gid) (f : Group → Group) (s : State) : (modGroup g f s).walks = s.walks := rfl
@[simp] theorem modGroup_regx (g : Gid) (f : Group → Group) (s : State) : (modGroup g f s).regx = s.regx := rfl
@[simp] theorem modGroup_idle (g : Gid) (f : Group → Group) (s : State) : (modGroup g f s).idle = s.idle := rfl
@[simp] theorem modGroup_skips (g : Gid) (f : Group → Group) (s : State) : (modGroup g f s).skips = s.skips := rfl
@[simp] theorem modGroup_slips (g : Gid) (f : Group → Group) (s : State) : (modGroup g f s).slips = s.slips := rfl
@[simp] theorem modGroup_slots (g : Gid) (f : Group → Group) (s : State) : (modGroup g f s).slots = s.slots := rfl
@[simp] theorem modGroup_nextAge (g : Gid) (f : Group → Group) (s : State) : (modGroup g f s).nextAge = s.nextAge := rfl
@[simp] theorem modGroup_pend (g : Gid) (f : Group → Group) (s : State) : (modGroup g f s).pend = s.pend := rfl
@[simp] theorem modGroup_dies (g : Gid) (f : Group → Group) (s : State) : (modGroup g f s).dies = s.dies := rfl
@[simp] theorem modGroup_beryl (g : Gid) (f : Group → Group) (s : State) : (modGroup g f s).beryl = s.beryl := rfl
@[simp] theorem modGroup_ctxs (g : Gid) (f : Group → Group) (s : State) : (modGroup g f s).ctxs = s.ctxs := rfl
@[simp] theorem modGroup_grids (g : Gid) (f : Group → Group) (s : State) : (modGroup g f s).grids = s.grids := rfl
@[simp] theorem modGroup_gridOrder (g : Gid) (f : Group → Group) (s : State) : (modGroup g f s).gridOrder = s.gridOrder := rfl
@[simp] theorem modGroup_phase (g : Gid) (f : Group → Group) (s : State) : (modGroup g f s).phase = s.phase := rfl
@[simp] theorem modGroup_plimit (g : Gid) (f : Group → Group) (s : State) : (modGroup g f s).plimit = s.plimit := rfl
@[simp] theorem modGroup_power (g : Gid) (f : Group → Group) (s : State) : (modGroup g f s).power = s.power := rfl
@[simp] theorem modGroup_coolant (g : Gid) (f : Group → Group) (s : State) : (modGroup g f s).coolant = s.coolant := rfl
@[simp] theorem modGroup_fabid (g : Gid) (f : Group → Group) (s : State) : (modGroup g f s).fabid = s.fabid := rfl
@[simp] theorem modGroup_domain (g : Gid) (f : Group → Group) (s : State) : (modGroup g f s).domain = s.domain := rfl
@[simp] theorem modGroup_vfmap (g : Gid) (f : Group → Group) (s : State) : (modGroup g f s).vfmap = s.vfmap := rfl
@[simp] theorem modGroup_elHead (g : Gid) (f : Group → Group) (s : State) : (modGroup g f s).elHead = s.elHead := rfl
@[simp] theorem modGroup_log (g : Gid) (f : Group → Group) (s : State) : (modGroup g f s).log = s.log := rfl
@[simp] theorem modGroup_cycle (g : Gid) (f : Group → Group) (s : State) : (modGroup g f s).cycle = s.cycle := rfl
@[simp] theorem modGroup_boot (g : Gid) (f : Group → Group) (s : State) : (modGroup g f s).boot = s.boot := rfl
@[simp] theorem modGroup_hostOut (g : Gid) (f : Group → Group) (s : State) : (modGroup g f s).hostOut = s.hostOut := rfl

/-! ### `fire` -/

@[simp] theorem fire_agenda (b : Bool) (g : Nat) (s : State) : (fire b g s).agenda = s.agenda := rfl
@[simp] theorem fire_cur (b : Bool) (g : Nat) (s : State) : (fire b g s).cur = s.cur := rfl
@[simp] theorem fire_curCore (b : Bool) (g : Nat) (s : State) : (fire b g s).curCore = s.curCore := rfl
@[simp] theorem fire_curWalk (b : Bool) (g : Nat) (s : State) : (fire b g s).curWalk = s.curWalk := rfl
@[simp] theorem fire_fresh (b : Bool) (g : Nat) (s : State) : (fire b g s).fresh = s.fresh := rfl
@[simp] theorem fire_nextId (b : Bool) (g : Nat) (s : State) : (fire b g s).nextId = s.nextId := rfl
@[simp] theorem fire_mem (b : Bool) (g : Nat) (s : State) : (fire b g s).mem = s.mem := rfl
@[simp] theorem fire_ecc (b : Bool) (g : Nat) (s : State) : (fire b g s).ecc = s.ecc := rfl
@[simp] theorem fire_rowErrs (b : Bool) (g : Nat) (s : State) : (fire b g s).rowErrs = s.rowErrs := rfl
@[simp] theorem fire_chErrs (b : Bool) (g : Nat) (s : State) : (fire b g s).chErrs = s.chErrs := rfl
@[simp] theorem fire_spared (b : Bool) (g : Nat) (s : State) : (fire b g s).spared = s.spared := rfl
@[simp] theorem fire_l2 (b : Bool) (g : Nat) (s : State) : (fire b g s).l2 = s.l2 := rfl
@[simp] theorem fire_snoop (b : Bool) (g : Nat) (s : State) : (fire b g s).snoop = s.snoop := rfl
@[simp] theorem fire_biOut (b : Bool) (g : Nat) (s : State) : (fire b g s).biOut = s.biOut := rfl
@[simp] theorem fire_rdc (b : Bool) (g : Nat) (s : State) : (fire b g s).rdc = s.rdc := rfl
@[simp] theorem fire_l1 (b : Bool) (g : Nat) (s : State) : (fire b g s).l1 = s.l1 := rfl
@[simp] theorem fire_icache (b : Bool) (g : Nat) (s : State) : (fire b g s).icache = s.icache := rfl
@[simp] theorem fire_prios (b : Bool) (g : Nat) (s : State) : (fire b g s).prios = s.prios := rfl
@[simp] theorem fire_tlb (b : Bool) (g : Nat) (s : State) : (fire b g s).tlb = s.tlb := rfl
@[simp] theorem fire_btlb (b : Bool) (g : Nat) (s : State) : (fire b g s).btlb = s.btlb := rfl
@[simp] theorem fire_pb (b : Bool) (g : Nat) (s : State) : (fire b g s).pb = s.pb := rfl
@[simp] theorem fire_pool (b : Bool) (g : Nat) (s : State) : (fire b g s).pool = s.pool := rfl
@[simp] theorem fire_poolErr (b : Bool) (g : Nat) (s : State) : (fire b g s).poolErr = s.poolErr := rfl
@[simp] theorem fire_acc (b : Bool) (g : Nat) (s : State) : (fire b g s).acc = s.acc := rfl
@[simp] theorem fire_mrp (b : Bool) (g : Nat) (s : State) : (fire b g s).mrp = s.mrp := rfl
@[simp] theorem fire_opbuf (b : Bool) (g : Nat) (s : State) : (fire b g s).opbuf = s.opbuf := rfl
@[simp] theorem fire_matq (b : Bool) (g : Nat) (s : State) : (fire b g s).matq = s.matq := rfl
@[simp] theorem fire_epi (b : Bool) (g : Nat) (s : State) : (fire b g s).epi = s.epi := rfl
@[simp] theorem fire_epiSrc (b : Bool) (g : Nat) (s : State) : (fire b g s).epiSrc = s.epiSrc := rfl
@[simp] theorem fire_top (b : Bool) (g : Nat) (s : State) : (fire b g s).top = s.top := rfl
@[simp] theorem fire_rings (b : Bool) (g : Nat) (s : State) : (fire b g s).rings = s.rings := rfl
@[simp] theorem fire_agateLast (b : Bool) (g : Nat) (s : State) : (fire b g s).agateLast = s.agateLast := rfl
@[simp] theorem fire_copies (b : Bool) (g : Nat) (s : State) : (fire b g s).copies = s.copies := rfl
@[simp] theorem fire_walks (b : Bool) (g : Nat) (s : State) : (fire b g s).walks = s.walks := rfl
@[simp] theorem fire_regx (b : Bool) (g : Nat) (s : State) : (fire b g s).regx = s.regx := rfl
@[simp] theorem fire_idle (b : Bool) (g : Nat) (s : State) : (fire b g s).idle = s.idle := rfl
@[simp] theorem fire_skips (b : Bool) (g : Nat) (s : State) : (fire b g s).skips = s.skips := rfl
@[simp] theorem fire_slips (b : Bool) (g : Nat) (s : State) : (fire b g s).slips = s.slips := rfl
@[simp] theorem fire_slots (b : Bool) (g : Nat) (s : State) : (fire b g s).slots = s.slots := rfl
@[simp] theorem fire_nextAge (b : Bool) (g : Nat) (s : State) : (fire b g s).nextAge = s.nextAge := rfl
@[simp] theorem fire_pend (b : Bool) (g : Nat) (s : State) : (fire b g s).pend = s.pend := rfl
@[simp] theorem fire_dies (b : Bool) (g : Nat) (s : State) : (fire b g s).dies = s.dies := rfl
@[simp] theorem fire_beryl (b : Bool) (g : Nat) (s : State) : (fire b g s).beryl = s.beryl := rfl
@[simp] theorem fire_ctxs (b : Bool) (g : Nat) (s : State) : (fire b g s).ctxs = s.ctxs := rfl
@[simp] theorem fire_grids (b : Bool) (g : Nat) (s : State) : (fire b g s).grids = s.grids := rfl
@[simp] theorem fire_gridOrder (b : Bool) (g : Nat) (s : State) : (fire b g s).gridOrder = s.gridOrder := rfl
@[simp] theorem fire_phase (b : Bool) (g : Nat) (s : State) : (fire b g s).phase = s.phase := rfl
@[simp] theorem fire_plimit (b : Bool) (g : Nat) (s : State) : (fire b g s).plimit = s.plimit := rfl
@[simp] theorem fire_power (b : Bool) (g : Nat) (s : State) : (fire b g s).power = s.power := rfl
@[simp] theorem fire_coolant (b : Bool) (g : Nat) (s : State) : (fire b g s).coolant = s.coolant := rfl
@[simp] theorem fire_fabid (b : Bool) (g : Nat) (s : State) : (fire b g s).fabid = s.fabid := rfl
@[simp] theorem fire_domain (b : Bool) (g : Nat) (s : State) : (fire b g s).domain = s.domain := rfl
@[simp] theorem fire_vfmap (b : Bool) (g : Nat) (s : State) : (fire b g s).vfmap = s.vfmap := rfl
@[simp] theorem fire_elHead (b : Bool) (g : Nat) (s : State) : (fire b g s).elHead = s.elHead := rfl
@[simp] theorem fire_log (b : Bool) (g : Nat) (s : State) : (fire b g s).log = s.log := rfl
@[simp] theorem fire_cycle (b : Bool) (g : Nat) (s : State) : (fire b g s).cycle = s.cycle := rfl
@[simp] theorem fire_boot (b : Bool) (g : Nat) (s : State) : (fire b g s).boot = s.boot := rfl
@[simp] theorem fire_hostOut (b : Bool) (g : Nat) (s : State) : (fire b g s).hostOut = s.hostOut := rfl

/-! ### `post` -/

@[simp] theorem post_agenda (g : Gid) (c k : Nat) (p : PendKind) (s : State) : (post g c k p s).agenda = s.agenda := rfl
@[simp] theorem post_cur (g : Gid) (c k : Nat) (p : PendKind) (s : State) : (post g c k p s).cur = s.cur := rfl
@[simp] theorem post_curCore (g : Gid) (c k : Nat) (p : PendKind) (s : State) : (post g c k p s).curCore = s.curCore := rfl
@[simp] theorem post_curWalk (g : Gid) (c k : Nat) (p : PendKind) (s : State) : (post g c k p s).curWalk = s.curWalk := rfl
@[simp] theorem post_fresh (g : Gid) (c k : Nat) (p : PendKind) (s : State) : (post g c k p s).fresh = s.fresh := rfl
@[simp] theorem post_mem (g : Gid) (c k : Nat) (p : PendKind) (s : State) : (post g c k p s).mem = s.mem := rfl
@[simp] theorem post_ecc (g : Gid) (c k : Nat) (p : PendKind) (s : State) : (post g c k p s).ecc = s.ecc := rfl
@[simp] theorem post_rowErrs (g : Gid) (c k : Nat) (p : PendKind) (s : State) : (post g c k p s).rowErrs = s.rowErrs := rfl
@[simp] theorem post_chErrs (g : Gid) (c k : Nat) (p : PendKind) (s : State) : (post g c k p s).chErrs = s.chErrs := rfl
@[simp] theorem post_spared (g : Gid) (c k : Nat) (p : PendKind) (s : State) : (post g c k p s).spared = s.spared := rfl
@[simp] theorem post_l2 (g : Gid) (c k : Nat) (p : PendKind) (s : State) : (post g c k p s).l2 = s.l2 := rfl
@[simp] theorem post_snoop (g : Gid) (c k : Nat) (p : PendKind) (s : State) : (post g c k p s).snoop = s.snoop := rfl
@[simp] theorem post_biOut (g : Gid) (c k : Nat) (p : PendKind) (s : State) : (post g c k p s).biOut = s.biOut := rfl
@[simp] theorem post_rdc (g : Gid) (c k : Nat) (p : PendKind) (s : State) : (post g c k p s).rdc = s.rdc := rfl
@[simp] theorem post_l1 (g : Gid) (c k : Nat) (p : PendKind) (s : State) : (post g c k p s).l1 = s.l1 := rfl
@[simp] theorem post_icache (g : Gid) (c k : Nat) (p : PendKind) (s : State) : (post g c k p s).icache = s.icache := rfl
@[simp] theorem post_prios (g : Gid) (c k : Nat) (p : PendKind) (s : State) : (post g c k p s).prios = s.prios := rfl
@[simp] theorem post_tlb (g : Gid) (c k : Nat) (p : PendKind) (s : State) : (post g c k p s).tlb = s.tlb := rfl
@[simp] theorem post_btlb (g : Gid) (c k : Nat) (p : PendKind) (s : State) : (post g c k p s).btlb = s.btlb := rfl
@[simp] theorem post_pb (g : Gid) (c k : Nat) (p : PendKind) (s : State) : (post g c k p s).pb = s.pb := rfl
@[simp] theorem post_pool (g : Gid) (c k : Nat) (p : PendKind) (s : State) : (post g c k p s).pool = s.pool := rfl
@[simp] theorem post_poolErr (g : Gid) (c k : Nat) (p : PendKind) (s : State) : (post g c k p s).poolErr = s.poolErr := rfl
@[simp] theorem post_acc (g : Gid) (c k : Nat) (p : PendKind) (s : State) : (post g c k p s).acc = s.acc := rfl
@[simp] theorem post_mrp (g : Gid) (c k : Nat) (p : PendKind) (s : State) : (post g c k p s).mrp = s.mrp := rfl
@[simp] theorem post_opbuf (g : Gid) (c k : Nat) (p : PendKind) (s : State) : (post g c k p s).opbuf = s.opbuf := rfl
@[simp] theorem post_matq (g : Gid) (c k : Nat) (p : PendKind) (s : State) : (post g c k p s).matq = s.matq := rfl
@[simp] theorem post_epi (g : Gid) (c k : Nat) (p : PendKind) (s : State) : (post g c k p s).epi = s.epi := rfl
@[simp] theorem post_epiSrc (g : Gid) (c k : Nat) (p : PendKind) (s : State) : (post g c k p s).epiSrc = s.epiSrc := rfl
@[simp] theorem post_top (g : Gid) (c k : Nat) (p : PendKind) (s : State) : (post g c k p s).top = s.top := rfl
@[simp] theorem post_rings (g : Gid) (c k : Nat) (p : PendKind) (s : State) : (post g c k p s).rings = s.rings := rfl
@[simp] theorem post_agateLast (g : Gid) (c k : Nat) (p : PendKind) (s : State) : (post g c k p s).agateLast = s.agateLast := rfl
@[simp] theorem post_copies (g : Gid) (c k : Nat) (p : PendKind) (s : State) : (post g c k p s).copies = s.copies := rfl
@[simp] theorem post_walks (g : Gid) (c k : Nat) (p : PendKind) (s : State) : (post g c k p s).walks = s.walks := rfl
@[simp] theorem post_regx (g : Gid) (c k : Nat) (p : PendKind) (s : State) : (post g c k p s).regx = s.regx := rfl
@[simp] theorem post_idle (g : Gid) (c k : Nat) (p : PendKind) (s : State) : (post g c k p s).idle = s.idle := rfl
@[simp] theorem post_skips (g : Gid) (c k : Nat) (p : PendKind) (s : State) : (post g c k p s).skips = s.skips := rfl
@[simp] theorem post_slips (g : Gid) (c k : Nat) (p : PendKind) (s : State) : (post g c k p s).slips = s.slips := rfl
@[simp] theorem post_slots (g : Gid) (c k : Nat) (p : PendKind) (s : State) : (post g c k p s).slots = s.slots := rfl
@[simp] theorem post_teams (g : Gid) (c k : Nat) (p : PendKind) (s : State) : (post g c k p s).teams = s.teams := rfl
@[simp] theorem post_nextAge (g : Gid) (c k : Nat) (p : PendKind) (s : State) : (post g c k p s).nextAge = s.nextAge := rfl
@[simp] theorem post_dies (g : Gid) (c k : Nat) (p : PendKind) (s : State) : (post g c k p s).dies = s.dies := rfl
@[simp] theorem post_beryl (g : Gid) (c k : Nat) (p : PendKind) (s : State) : (post g c k p s).beryl = s.beryl := rfl
@[simp] theorem post_ctxs (g : Gid) (c k : Nat) (p : PendKind) (s : State) : (post g c k p s).ctxs = s.ctxs := rfl
@[simp] theorem post_grids (g : Gid) (c k : Nat) (p : PendKind) (s : State) : (post g c k p s).grids = s.grids := rfl
@[simp] theorem post_gridOrder (g : Gid) (c k : Nat) (p : PendKind) (s : State) : (post g c k p s).gridOrder = s.gridOrder := rfl
@[simp] theorem post_phase (g : Gid) (c k : Nat) (p : PendKind) (s : State) : (post g c k p s).phase = s.phase := rfl
@[simp] theorem post_plimit (g : Gid) (c k : Nat) (p : PendKind) (s : State) : (post g c k p s).plimit = s.plimit := rfl
@[simp] theorem post_power (g : Gid) (c k : Nat) (p : PendKind) (s : State) : (post g c k p s).power = s.power := rfl
@[simp] theorem post_coolant (g : Gid) (c k : Nat) (p : PendKind) (s : State) : (post g c k p s).coolant = s.coolant := rfl
@[simp] theorem post_fabid (g : Gid) (c k : Nat) (p : PendKind) (s : State) : (post g c k p s).fabid = s.fabid := rfl
@[simp] theorem post_domain (g : Gid) (c k : Nat) (p : PendKind) (s : State) : (post g c k p s).domain = s.domain := rfl
@[simp] theorem post_vfmap (g : Gid) (c k : Nat) (p : PendKind) (s : State) : (post g c k p s).vfmap = s.vfmap := rfl
@[simp] theorem post_elHead (g : Gid) (c k : Nat) (p : PendKind) (s : State) : (post g c k p s).elHead = s.elHead := rfl
@[simp] theorem post_log (g : Gid) (c k : Nat) (p : PendKind) (s : State) : (post g c k p s).log = s.log := rfl
@[simp] theorem post_cycle (g : Gid) (c k : Nat) (p : PendKind) (s : State) : (post g c k p s).cycle = s.cycle := rfl
@[simp] theorem post_boot (g : Gid) (c k : Nat) (p : PendKind) (s : State) : (post g c k p s).boot = s.boot := rfl
@[simp] theorem post_hostOut (g : Gid) (c k : Nat) (p : PendKind) (s : State) : (post g c k p s).hostOut = s.hostOut := rfl

/-! ### `unpost` -/

@[simp] theorem unpost_agenda (i : Nat) (s : State) : (unpost i s).agenda = s.agenda := rfl
@[simp] theorem unpost_cur (i : Nat) (s : State) : (unpost i s).cur = s.cur := rfl
@[simp] theorem unpost_curCore (i : Nat) (s : State) : (unpost i s).curCore = s.curCore := rfl
@[simp] theorem unpost_curWalk (i : Nat) (s : State) : (unpost i s).curWalk = s.curWalk := rfl
@[simp] theorem unpost_fresh (i : Nat) (s : State) : (unpost i s).fresh = s.fresh := rfl
@[simp] theorem unpost_nextId (i : Nat) (s : State) : (unpost i s).nextId = s.nextId := rfl
@[simp] theorem unpost_mem (i : Nat) (s : State) : (unpost i s).mem = s.mem := rfl
@[simp] theorem unpost_ecc (i : Nat) (s : State) : (unpost i s).ecc = s.ecc := rfl
@[simp] theorem unpost_rowErrs (i : Nat) (s : State) : (unpost i s).rowErrs = s.rowErrs := rfl
@[simp] theorem unpost_chErrs (i : Nat) (s : State) : (unpost i s).chErrs = s.chErrs := rfl
@[simp] theorem unpost_spared (i : Nat) (s : State) : (unpost i s).spared = s.spared := rfl
@[simp] theorem unpost_l2 (i : Nat) (s : State) : (unpost i s).l2 = s.l2 := rfl
@[simp] theorem unpost_snoop (i : Nat) (s : State) : (unpost i s).snoop = s.snoop := rfl
@[simp] theorem unpost_biOut (i : Nat) (s : State) : (unpost i s).biOut = s.biOut := rfl
@[simp] theorem unpost_rdc (i : Nat) (s : State) : (unpost i s).rdc = s.rdc := rfl
@[simp] theorem unpost_l1 (i : Nat) (s : State) : (unpost i s).l1 = s.l1 := rfl
@[simp] theorem unpost_icache (i : Nat) (s : State) : (unpost i s).icache = s.icache := rfl
@[simp] theorem unpost_prios (i : Nat) (s : State) : (unpost i s).prios = s.prios := rfl
@[simp] theorem unpost_tlb (i : Nat) (s : State) : (unpost i s).tlb = s.tlb := rfl
@[simp] theorem unpost_btlb (i : Nat) (s : State) : (unpost i s).btlb = s.btlb := rfl
@[simp] theorem unpost_pb (i : Nat) (s : State) : (unpost i s).pb = s.pb := rfl
@[simp] theorem unpost_pool (i : Nat) (s : State) : (unpost i s).pool = s.pool := rfl
@[simp] theorem unpost_poolErr (i : Nat) (s : State) : (unpost i s).poolErr = s.poolErr := rfl
@[simp] theorem unpost_acc (i : Nat) (s : State) : (unpost i s).acc = s.acc := rfl
@[simp] theorem unpost_mrp (i : Nat) (s : State) : (unpost i s).mrp = s.mrp := rfl
@[simp] theorem unpost_opbuf (i : Nat) (s : State) : (unpost i s).opbuf = s.opbuf := rfl
@[simp] theorem unpost_matq (i : Nat) (s : State) : (unpost i s).matq = s.matq := rfl
@[simp] theorem unpost_epi (i : Nat) (s : State) : (unpost i s).epi = s.epi := rfl
@[simp] theorem unpost_epiSrc (i : Nat) (s : State) : (unpost i s).epiSrc = s.epiSrc := rfl
@[simp] theorem unpost_top (i : Nat) (s : State) : (unpost i s).top = s.top := rfl
@[simp] theorem unpost_rings (i : Nat) (s : State) : (unpost i s).rings = s.rings := rfl
@[simp] theorem unpost_agateLast (i : Nat) (s : State) : (unpost i s).agateLast = s.agateLast := rfl
@[simp] theorem unpost_copies (i : Nat) (s : State) : (unpost i s).copies = s.copies := rfl
@[simp] theorem unpost_walks (i : Nat) (s : State) : (unpost i s).walks = s.walks := rfl
@[simp] theorem unpost_regx (i : Nat) (s : State) : (unpost i s).regx = s.regx := rfl
@[simp] theorem unpost_idle (i : Nat) (s : State) : (unpost i s).idle = s.idle := rfl
@[simp] theorem unpost_skips (i : Nat) (s : State) : (unpost i s).skips = s.skips := rfl
@[simp] theorem unpost_slips (i : Nat) (s : State) : (unpost i s).slips = s.slips := rfl
@[simp] theorem unpost_slots (i : Nat) (s : State) : (unpost i s).slots = s.slots := rfl
@[simp] theorem unpost_teams (i : Nat) (s : State) : (unpost i s).teams = s.teams := rfl
@[simp] theorem unpost_nextAge (i : Nat) (s : State) : (unpost i s).nextAge = s.nextAge := rfl
@[simp] theorem unpost_dies (i : Nat) (s : State) : (unpost i s).dies = s.dies := rfl
@[simp] theorem unpost_beryl (i : Nat) (s : State) : (unpost i s).beryl = s.beryl := rfl
@[simp] theorem unpost_ctxs (i : Nat) (s : State) : (unpost i s).ctxs = s.ctxs := rfl
@[simp] theorem unpost_grids (i : Nat) (s : State) : (unpost i s).grids = s.grids := rfl
@[simp] theorem unpost_gridOrder (i : Nat) (s : State) : (unpost i s).gridOrder = s.gridOrder := rfl
@[simp] theorem unpost_phase (i : Nat) (s : State) : (unpost i s).phase = s.phase := rfl
@[simp] theorem unpost_plimit (i : Nat) (s : State) : (unpost i s).plimit = s.plimit := rfl
@[simp] theorem unpost_power (i : Nat) (s : State) : (unpost i s).power = s.power := rfl
@[simp] theorem unpost_coolant (i : Nat) (s : State) : (unpost i s).coolant = s.coolant := rfl
@[simp] theorem unpost_fabid (i : Nat) (s : State) : (unpost i s).fabid = s.fabid := rfl
@[simp] theorem unpost_domain (i : Nat) (s : State) : (unpost i s).domain = s.domain := rfl
@[simp] theorem unpost_vfmap (i : Nat) (s : State) : (unpost i s).vfmap = s.vfmap := rfl
@[simp] theorem unpost_elHead (i : Nat) (s : State) : (unpost i s).elHead = s.elHead := rfl
@[simp] theorem unpost_log (i : Nat) (s : State) : (unpost i s).log = s.log := rfl
@[simp] theorem unpost_cycle (i : Nat) (s : State) : (unpost i s).cycle = s.cycle := rfl
@[simp] theorem unpost_boot (i : Nat) (s : State) : (unpost i s).boot = s.boot := rfl
@[simp] theorem unpost_hostOut (i : Nat) (s : State) : (unpost i s).hostOut = s.hostOut := rfl

/-! ### `logEvent` -/

@[simp] theorem logEvent_agenda (s : State) (c d x : Nat) : (logEvent s c d x).agenda = s.agenda := rfl
@[simp] theorem logEvent_cur (s : State) (c d x : Nat) : (logEvent s c d x).cur = s.cur := rfl
@[simp] theorem logEvent_curCore (s : State) (c d x : Nat) : (logEvent s c d x).curCore = s.curCore := rfl
@[simp] theorem logEvent_curWalk (s : State) (c d x : Nat) : (logEvent s c d x).curWalk = s.curWalk := rfl
@[simp] theorem logEvent_fresh (s : State) (c d x : Nat) : (logEvent s c d x).fresh = s.fresh := rfl
@[simp] theorem logEvent_nextId (s : State) (c d x : Nat) : (logEvent s c d x).nextId = s.nextId := rfl
@[simp] theorem logEvent_mem (s : State) (c d x : Nat) : (logEvent s c d x).mem = s.mem := rfl
@[simp] theorem logEvent_ecc (s : State) (c d x : Nat) : (logEvent s c d x).ecc = s.ecc := rfl
@[simp] theorem logEvent_rowErrs (s : State) (c d x : Nat) : (logEvent s c d x).rowErrs = s.rowErrs := rfl
@[simp] theorem logEvent_chErrs (s : State) (c d x : Nat) : (logEvent s c d x).chErrs = s.chErrs := rfl
@[simp] theorem logEvent_spared (s : State) (c d x : Nat) : (logEvent s c d x).spared = s.spared := rfl
@[simp] theorem logEvent_l2 (s : State) (c d x : Nat) : (logEvent s c d x).l2 = s.l2 := rfl
@[simp] theorem logEvent_snoop (s : State) (c d x : Nat) : (logEvent s c d x).snoop = s.snoop := rfl
@[simp] theorem logEvent_biOut (s : State) (c d x : Nat) : (logEvent s c d x).biOut = s.biOut := rfl
@[simp] theorem logEvent_rdc (s : State) (c d x : Nat) : (logEvent s c d x).rdc = s.rdc := rfl
@[simp] theorem logEvent_l1 (s : State) (c d x : Nat) : (logEvent s c d x).l1 = s.l1 := rfl
@[simp] theorem logEvent_icache (s : State) (c d x : Nat) : (logEvent s c d x).icache = s.icache := rfl
@[simp] theorem logEvent_prios (s : State) (c d x : Nat) : (logEvent s c d x).prios = s.prios := rfl
@[simp] theorem logEvent_tlb (s : State) (c d x : Nat) : (logEvent s c d x).tlb = s.tlb := rfl
@[simp] theorem logEvent_btlb (s : State) (c d x : Nat) : (logEvent s c d x).btlb = s.btlb := rfl
@[simp] theorem logEvent_pb (s : State) (c d x : Nat) : (logEvent s c d x).pb = s.pb := rfl
@[simp] theorem logEvent_pool (s : State) (c d x : Nat) : (logEvent s c d x).pool = s.pool := rfl
@[simp] theorem logEvent_poolErr (s : State) (c d x : Nat) : (logEvent s c d x).poolErr = s.poolErr := rfl
@[simp] theorem logEvent_acc (s : State) (c d x : Nat) : (logEvent s c d x).acc = s.acc := rfl
@[simp] theorem logEvent_mrp (s : State) (c d x : Nat) : (logEvent s c d x).mrp = s.mrp := rfl
@[simp] theorem logEvent_opbuf (s : State) (c d x : Nat) : (logEvent s c d x).opbuf = s.opbuf := rfl
@[simp] theorem logEvent_matq (s : State) (c d x : Nat) : (logEvent s c d x).matq = s.matq := rfl
@[simp] theorem logEvent_epi (s : State) (c d x : Nat) : (logEvent s c d x).epi = s.epi := rfl
@[simp] theorem logEvent_epiSrc (s : State) (c d x : Nat) : (logEvent s c d x).epiSrc = s.epiSrc := rfl
@[simp] theorem logEvent_top (s : State) (c d x : Nat) : (logEvent s c d x).top = s.top := rfl
@[simp] theorem logEvent_rings (s : State) (c d x : Nat) : (logEvent s c d x).rings = s.rings := rfl
@[simp] theorem logEvent_agateLast (s : State) (c d x : Nat) : (logEvent s c d x).agateLast = s.agateLast := rfl
@[simp] theorem logEvent_copies (s : State) (c d x : Nat) : (logEvent s c d x).copies = s.copies := rfl
@[simp] theorem logEvent_walks (s : State) (c d x : Nat) : (logEvent s c d x).walks = s.walks := rfl
@[simp] theorem logEvent_regx (s : State) (c d x : Nat) : (logEvent s c d x).regx = s.regx := rfl
@[simp] theorem logEvent_idle (s : State) (c d x : Nat) : (logEvent s c d x).idle = s.idle := rfl
@[simp] theorem logEvent_skips (s : State) (c d x : Nat) : (logEvent s c d x).skips = s.skips := rfl
@[simp] theorem logEvent_slips (s : State) (c d x : Nat) : (logEvent s c d x).slips = s.slips := rfl
@[simp] theorem logEvent_slots (s : State) (c d x : Nat) : (logEvent s c d x).slots = s.slots := rfl
@[simp] theorem logEvent_teams (s : State) (c d x : Nat) : (logEvent s c d x).teams = s.teams := rfl
@[simp] theorem logEvent_nextAge (s : State) (c d x : Nat) : (logEvent s c d x).nextAge = s.nextAge := rfl
@[simp] theorem logEvent_pend (s : State) (c d x : Nat) : (logEvent s c d x).pend = s.pend := rfl
@[simp] theorem logEvent_dies (s : State) (c d x : Nat) : (logEvent s c d x).dies = s.dies := rfl
@[simp] theorem logEvent_beryl (s : State) (c d x : Nat) : (logEvent s c d x).beryl = s.beryl := rfl
@[simp] theorem logEvent_ctxs (s : State) (c d x : Nat) : (logEvent s c d x).ctxs = s.ctxs := rfl
@[simp] theorem logEvent_grids (s : State) (c d x : Nat) : (logEvent s c d x).grids = s.grids := rfl
@[simp] theorem logEvent_gridOrder (s : State) (c d x : Nat) : (logEvent s c d x).gridOrder = s.gridOrder := rfl
@[simp] theorem logEvent_phase (s : State) (c d x : Nat) : (logEvent s c d x).phase = s.phase := rfl
@[simp] theorem logEvent_plimit (s : State) (c d x : Nat) : (logEvent s c d x).plimit = s.plimit := rfl
@[simp] theorem logEvent_power (s : State) (c d x : Nat) : (logEvent s c d x).power = s.power := rfl
@[simp] theorem logEvent_coolant (s : State) (c d x : Nat) : (logEvent s c d x).coolant = s.coolant := rfl
@[simp] theorem logEvent_fabid (s : State) (c d x : Nat) : (logEvent s c d x).fabid = s.fabid := rfl
@[simp] theorem logEvent_domain (s : State) (c d x : Nat) : (logEvent s c d x).domain = s.domain := rfl
@[simp] theorem logEvent_vfmap (s : State) (c d x : Nat) : (logEvent s c d x).vfmap = s.vfmap := rfl
@[simp] theorem logEvent_cycle (s : State) (c d x : Nat) : (logEvent s c d x).cycle = s.cycle := rfl
@[simp] theorem logEvent_boot (s : State) (c d x : Nat) : (logEvent s c d x).boot = s.boot := rfl
@[simp] theorem logEvent_hostOut (s : State) (c d x : Nat) : (logEvent s c d x).hostOut = s.hostOut := rfl

/-! ### `setSectorEcc` -/

@[simp] theorem setSectorEcc_agenda (s : State) (n : Nat) (e : Option Ecc) : (setSectorEcc s n e).agenda = s.agenda := rfl
@[simp] theorem setSectorEcc_cur (s : State) (n : Nat) (e : Option Ecc) : (setSectorEcc s n e).cur = s.cur := rfl
@[simp] theorem setSectorEcc_curCore (s : State) (n : Nat) (e : Option Ecc) : (setSectorEcc s n e).curCore = s.curCore := rfl
@[simp] theorem setSectorEcc_curWalk (s : State) (n : Nat) (e : Option Ecc) : (setSectorEcc s n e).curWalk = s.curWalk := rfl
@[simp] theorem setSectorEcc_fresh (s : State) (n : Nat) (e : Option Ecc) : (setSectorEcc s n e).fresh = s.fresh := rfl
@[simp] theorem setSectorEcc_nextId (s : State) (n : Nat) (e : Option Ecc) : (setSectorEcc s n e).nextId = s.nextId := rfl
@[simp] theorem setSectorEcc_mem (s : State) (n : Nat) (e : Option Ecc) : (setSectorEcc s n e).mem = s.mem := rfl
@[simp] theorem setSectorEcc_rowErrs (s : State) (n : Nat) (e : Option Ecc) : (setSectorEcc s n e).rowErrs = s.rowErrs := rfl
@[simp] theorem setSectorEcc_chErrs (s : State) (n : Nat) (e : Option Ecc) : (setSectorEcc s n e).chErrs = s.chErrs := rfl
@[simp] theorem setSectorEcc_spared (s : State) (n : Nat) (e : Option Ecc) : (setSectorEcc s n e).spared = s.spared := rfl
@[simp] theorem setSectorEcc_l2 (s : State) (n : Nat) (e : Option Ecc) : (setSectorEcc s n e).l2 = s.l2 := rfl
@[simp] theorem setSectorEcc_snoop (s : State) (n : Nat) (e : Option Ecc) : (setSectorEcc s n e).snoop = s.snoop := rfl
@[simp] theorem setSectorEcc_biOut (s : State) (n : Nat) (e : Option Ecc) : (setSectorEcc s n e).biOut = s.biOut := rfl
@[simp] theorem setSectorEcc_rdc (s : State) (n : Nat) (e : Option Ecc) : (setSectorEcc s n e).rdc = s.rdc := rfl
@[simp] theorem setSectorEcc_l1 (s : State) (n : Nat) (e : Option Ecc) : (setSectorEcc s n e).l1 = s.l1 := rfl
@[simp] theorem setSectorEcc_icache (s : State) (n : Nat) (e : Option Ecc) : (setSectorEcc s n e).icache = s.icache := rfl
@[simp] theorem setSectorEcc_prios (s : State) (n : Nat) (e : Option Ecc) : (setSectorEcc s n e).prios = s.prios := rfl
@[simp] theorem setSectorEcc_tlb (s : State) (n : Nat) (e : Option Ecc) : (setSectorEcc s n e).tlb = s.tlb := rfl
@[simp] theorem setSectorEcc_btlb (s : State) (n : Nat) (e : Option Ecc) : (setSectorEcc s n e).btlb = s.btlb := rfl
@[simp] theorem setSectorEcc_pb (s : State) (n : Nat) (e : Option Ecc) : (setSectorEcc s n e).pb = s.pb := rfl
@[simp] theorem setSectorEcc_pool (s : State) (n : Nat) (e : Option Ecc) : (setSectorEcc s n e).pool = s.pool := rfl
@[simp] theorem setSectorEcc_poolErr (s : State) (n : Nat) (e : Option Ecc) : (setSectorEcc s n e).poolErr = s.poolErr := rfl
@[simp] theorem setSectorEcc_acc (s : State) (n : Nat) (e : Option Ecc) : (setSectorEcc s n e).acc = s.acc := rfl
@[simp] theorem setSectorEcc_mrp (s : State) (n : Nat) (e : Option Ecc) : (setSectorEcc s n e).mrp = s.mrp := rfl
@[simp] theorem setSectorEcc_opbuf (s : State) (n : Nat) (e : Option Ecc) : (setSectorEcc s n e).opbuf = s.opbuf := rfl
@[simp] theorem setSectorEcc_matq (s : State) (n : Nat) (e : Option Ecc) : (setSectorEcc s n e).matq = s.matq := rfl
@[simp] theorem setSectorEcc_epi (s : State) (n : Nat) (e : Option Ecc) : (setSectorEcc s n e).epi = s.epi := rfl
@[simp] theorem setSectorEcc_epiSrc (s : State) (n : Nat) (e : Option Ecc) : (setSectorEcc s n e).epiSrc = s.epiSrc := rfl
@[simp] theorem setSectorEcc_top (s : State) (n : Nat) (e : Option Ecc) : (setSectorEcc s n e).top = s.top := rfl
@[simp] theorem setSectorEcc_rings (s : State) (n : Nat) (e : Option Ecc) : (setSectorEcc s n e).rings = s.rings := rfl
@[simp] theorem setSectorEcc_agateLast (s : State) (n : Nat) (e : Option Ecc) : (setSectorEcc s n e).agateLast = s.agateLast := rfl
@[simp] theorem setSectorEcc_copies (s : State) (n : Nat) (e : Option Ecc) : (setSectorEcc s n e).copies = s.copies := rfl
@[simp] theorem setSectorEcc_walks (s : State) (n : Nat) (e : Option Ecc) : (setSectorEcc s n e).walks = s.walks := rfl
@[simp] theorem setSectorEcc_regx (s : State) (n : Nat) (e : Option Ecc) : (setSectorEcc s n e).regx = s.regx := rfl
@[simp] theorem setSectorEcc_idle (s : State) (n : Nat) (e : Option Ecc) : (setSectorEcc s n e).idle = s.idle := rfl
@[simp] theorem setSectorEcc_skips (s : State) (n : Nat) (e : Option Ecc) : (setSectorEcc s n e).skips = s.skips := rfl
@[simp] theorem setSectorEcc_slips (s : State) (n : Nat) (e : Option Ecc) : (setSectorEcc s n e).slips = s.slips := rfl
@[simp] theorem setSectorEcc_slots (s : State) (n : Nat) (e : Option Ecc) : (setSectorEcc s n e).slots = s.slots := rfl
@[simp] theorem setSectorEcc_teams (s : State) (n : Nat) (e : Option Ecc) : (setSectorEcc s n e).teams = s.teams := rfl
@[simp] theorem setSectorEcc_nextAge (s : State) (n : Nat) (e : Option Ecc) : (setSectorEcc s n e).nextAge = s.nextAge := rfl
@[simp] theorem setSectorEcc_pend (s : State) (n : Nat) (e : Option Ecc) : (setSectorEcc s n e).pend = s.pend := rfl
@[simp] theorem setSectorEcc_dies (s : State) (n : Nat) (e : Option Ecc) : (setSectorEcc s n e).dies = s.dies := rfl
@[simp] theorem setSectorEcc_beryl (s : State) (n : Nat) (e : Option Ecc) : (setSectorEcc s n e).beryl = s.beryl := rfl
@[simp] theorem setSectorEcc_ctxs (s : State) (n : Nat) (e : Option Ecc) : (setSectorEcc s n e).ctxs = s.ctxs := rfl
@[simp] theorem setSectorEcc_grids (s : State) (n : Nat) (e : Option Ecc) : (setSectorEcc s n e).grids = s.grids := rfl
@[simp] theorem setSectorEcc_gridOrder (s : State) (n : Nat) (e : Option Ecc) : (setSectorEcc s n e).gridOrder = s.gridOrder := rfl
@[simp] theorem setSectorEcc_phase (s : State) (n : Nat) (e : Option Ecc) : (setSectorEcc s n e).phase = s.phase := rfl
@[simp] theorem setSectorEcc_plimit (s : State) (n : Nat) (e : Option Ecc) : (setSectorEcc s n e).plimit = s.plimit := rfl
@[simp] theorem setSectorEcc_power (s : State) (n : Nat) (e : Option Ecc) : (setSectorEcc s n e).power = s.power := rfl
@[simp] theorem setSectorEcc_coolant (s : State) (n : Nat) (e : Option Ecc) : (setSectorEcc s n e).coolant = s.coolant := rfl
@[simp] theorem setSectorEcc_fabid (s : State) (n : Nat) (e : Option Ecc) : (setSectorEcc s n e).fabid = s.fabid := rfl
@[simp] theorem setSectorEcc_domain (s : State) (n : Nat) (e : Option Ecc) : (setSectorEcc s n e).domain = s.domain := rfl
@[simp] theorem setSectorEcc_vfmap (s : State) (n : Nat) (e : Option Ecc) : (setSectorEcc s n e).vfmap = s.vfmap := rfl
@[simp] theorem setSectorEcc_elHead (s : State) (n : Nat) (e : Option Ecc) : (setSectorEcc s n e).elHead = s.elHead := rfl
@[simp] theorem setSectorEcc_log (s : State) (n : Nat) (e : Option Ecc) : (setSectorEcc s n e).log = s.log := rfl
@[simp] theorem setSectorEcc_cycle (s : State) (n : Nat) (e : Option Ecc) : (setSectorEcc s n e).cycle = s.cycle := rfl
@[simp] theorem setSectorEcc_boot (s : State) (n : Nat) (e : Option Ecc) : (setSectorEcc s n e).boot = s.boot := rfl
@[simp] theorem setSectorEcc_hostOut (s : State) (n : Nat) (e : Option Ecc) : (setSectorEcc s n e).hostOut = s.hostOut := rfl

/-! ### `l2Put` -/

@[simp] theorem l2Put_agenda (s : State) (n : Nat) (l : L2Line) : (l2Put s n l).agenda = s.agenda := rfl
@[simp] theorem l2Put_cur (s : State) (n : Nat) (l : L2Line) : (l2Put s n l).cur = s.cur := rfl
@[simp] theorem l2Put_curCore (s : State) (n : Nat) (l : L2Line) : (l2Put s n l).curCore = s.curCore := rfl
@[simp] theorem l2Put_curWalk (s : State) (n : Nat) (l : L2Line) : (l2Put s n l).curWalk = s.curWalk := rfl
@[simp] theorem l2Put_fresh (s : State) (n : Nat) (l : L2Line) : (l2Put s n l).fresh = s.fresh := rfl
@[simp] theorem l2Put_nextId (s : State) (n : Nat) (l : L2Line) : (l2Put s n l).nextId = s.nextId := rfl
@[simp] theorem l2Put_mem (s : State) (n : Nat) (l : L2Line) : (l2Put s n l).mem = s.mem := rfl
@[simp] theorem l2Put_ecc (s : State) (n : Nat) (l : L2Line) : (l2Put s n l).ecc = s.ecc := rfl
@[simp] theorem l2Put_rowErrs (s : State) (n : Nat) (l : L2Line) : (l2Put s n l).rowErrs = s.rowErrs := rfl
@[simp] theorem l2Put_chErrs (s : State) (n : Nat) (l : L2Line) : (l2Put s n l).chErrs = s.chErrs := rfl
@[simp] theorem l2Put_spared (s : State) (n : Nat) (l : L2Line) : (l2Put s n l).spared = s.spared := rfl
@[simp] theorem l2Put_snoop (s : State) (n : Nat) (l : L2Line) : (l2Put s n l).snoop = s.snoop := rfl
@[simp] theorem l2Put_biOut (s : State) (n : Nat) (l : L2Line) : (l2Put s n l).biOut = s.biOut := rfl
@[simp] theorem l2Put_rdc (s : State) (n : Nat) (l : L2Line) : (l2Put s n l).rdc = s.rdc := rfl
@[simp] theorem l2Put_l1 (s : State) (n : Nat) (l : L2Line) : (l2Put s n l).l1 = s.l1 := rfl
@[simp] theorem l2Put_icache (s : State) (n : Nat) (l : L2Line) : (l2Put s n l).icache = s.icache := rfl
@[simp] theorem l2Put_prios (s : State) (n : Nat) (l : L2Line) : (l2Put s n l).prios = s.prios := rfl
@[simp] theorem l2Put_tlb (s : State) (n : Nat) (l : L2Line) : (l2Put s n l).tlb = s.tlb := rfl
@[simp] theorem l2Put_btlb (s : State) (n : Nat) (l : L2Line) : (l2Put s n l).btlb = s.btlb := rfl
@[simp] theorem l2Put_pb (s : State) (n : Nat) (l : L2Line) : (l2Put s n l).pb = s.pb := rfl
@[simp] theorem l2Put_pool (s : State) (n : Nat) (l : L2Line) : (l2Put s n l).pool = s.pool := rfl
@[simp] theorem l2Put_poolErr (s : State) (n : Nat) (l : L2Line) : (l2Put s n l).poolErr = s.poolErr := rfl
@[simp] theorem l2Put_acc (s : State) (n : Nat) (l : L2Line) : (l2Put s n l).acc = s.acc := rfl
@[simp] theorem l2Put_mrp (s : State) (n : Nat) (l : L2Line) : (l2Put s n l).mrp = s.mrp := rfl
@[simp] theorem l2Put_opbuf (s : State) (n : Nat) (l : L2Line) : (l2Put s n l).opbuf = s.opbuf := rfl
@[simp] theorem l2Put_matq (s : State) (n : Nat) (l : L2Line) : (l2Put s n l).matq = s.matq := rfl
@[simp] theorem l2Put_epi (s : State) (n : Nat) (l : L2Line) : (l2Put s n l).epi = s.epi := rfl
@[simp] theorem l2Put_epiSrc (s : State) (n : Nat) (l : L2Line) : (l2Put s n l).epiSrc = s.epiSrc := rfl
@[simp] theorem l2Put_top (s : State) (n : Nat) (l : L2Line) : (l2Put s n l).top = s.top := rfl
@[simp] theorem l2Put_rings (s : State) (n : Nat) (l : L2Line) : (l2Put s n l).rings = s.rings := rfl
@[simp] theorem l2Put_agateLast (s : State) (n : Nat) (l : L2Line) : (l2Put s n l).agateLast = s.agateLast := rfl
@[simp] theorem l2Put_copies (s : State) (n : Nat) (l : L2Line) : (l2Put s n l).copies = s.copies := rfl
@[simp] theorem l2Put_walks (s : State) (n : Nat) (l : L2Line) : (l2Put s n l).walks = s.walks := rfl
@[simp] theorem l2Put_regx (s : State) (n : Nat) (l : L2Line) : (l2Put s n l).regx = s.regx := rfl
@[simp] theorem l2Put_idle (s : State) (n : Nat) (l : L2Line) : (l2Put s n l).idle = s.idle := rfl
@[simp] theorem l2Put_skips (s : State) (n : Nat) (l : L2Line) : (l2Put s n l).skips = s.skips := rfl
@[simp] theorem l2Put_slips (s : State) (n : Nat) (l : L2Line) : (l2Put s n l).slips = s.slips := rfl
@[simp] theorem l2Put_slots (s : State) (n : Nat) (l : L2Line) : (l2Put s n l).slots = s.slots := rfl
@[simp] theorem l2Put_teams (s : State) (n : Nat) (l : L2Line) : (l2Put s n l).teams = s.teams := rfl
@[simp] theorem l2Put_nextAge (s : State) (n : Nat) (l : L2Line) : (l2Put s n l).nextAge = s.nextAge := rfl
@[simp] theorem l2Put_pend (s : State) (n : Nat) (l : L2Line) : (l2Put s n l).pend = s.pend := rfl
@[simp] theorem l2Put_dies (s : State) (n : Nat) (l : L2Line) : (l2Put s n l).dies = s.dies := rfl
@[simp] theorem l2Put_beryl (s : State) (n : Nat) (l : L2Line) : (l2Put s n l).beryl = s.beryl := rfl
@[simp] theorem l2Put_ctxs (s : State) (n : Nat) (l : L2Line) : (l2Put s n l).ctxs = s.ctxs := rfl
@[simp] theorem l2Put_grids (s : State) (n : Nat) (l : L2Line) : (l2Put s n l).grids = s.grids := rfl
@[simp] theorem l2Put_gridOrder (s : State) (n : Nat) (l : L2Line) : (l2Put s n l).gridOrder = s.gridOrder := rfl
@[simp] theorem l2Put_phase (s : State) (n : Nat) (l : L2Line) : (l2Put s n l).phase = s.phase := rfl
@[simp] theorem l2Put_plimit (s : State) (n : Nat) (l : L2Line) : (l2Put s n l).plimit = s.plimit := rfl
@[simp] theorem l2Put_power (s : State) (n : Nat) (l : L2Line) : (l2Put s n l).power = s.power := rfl
@[simp] theorem l2Put_coolant (s : State) (n : Nat) (l : L2Line) : (l2Put s n l).coolant = s.coolant := rfl
@[simp] theorem l2Put_fabid (s : State) (n : Nat) (l : L2Line) : (l2Put s n l).fabid = s.fabid := rfl
@[simp] theorem l2Put_domain (s : State) (n : Nat) (l : L2Line) : (l2Put s n l).domain = s.domain := rfl
@[simp] theorem l2Put_vfmap (s : State) (n : Nat) (l : L2Line) : (l2Put s n l).vfmap = s.vfmap := rfl
@[simp] theorem l2Put_elHead (s : State) (n : Nat) (l : L2Line) : (l2Put s n l).elHead = s.elHead := rfl
@[simp] theorem l2Put_log (s : State) (n : Nat) (l : L2Line) : (l2Put s n l).log = s.log := rfl
@[simp] theorem l2Put_cycle (s : State) (n : Nat) (l : L2Line) : (l2Put s n l).cycle = s.cycle := rfl
@[simp] theorem l2Put_boot (s : State) (n : Nat) (l : L2Line) : (l2Put s n l).boot = s.boot := rfl
@[simp] theorem l2Put_hostOut (s : State) (n : Nat) (l : L2Line) : (l2Put s n l).hostOut = s.hostOut := rfl

/-! ### `rdcPut` -/

@[simp] theorem rdcPut_agenda (s : State) (d n : Nat) (r : RdcLine) : (rdcPut s d n r).agenda = s.agenda := rfl
@[simp] theorem rdcPut_cur (s : State) (d n : Nat) (r : RdcLine) : (rdcPut s d n r).cur = s.cur := rfl
@[simp] theorem rdcPut_curCore (s : State) (d n : Nat) (r : RdcLine) : (rdcPut s d n r).curCore = s.curCore := rfl
@[simp] theorem rdcPut_curWalk (s : State) (d n : Nat) (r : RdcLine) : (rdcPut s d n r).curWalk = s.curWalk := rfl
@[simp] theorem rdcPut_fresh (s : State) (d n : Nat) (r : RdcLine) : (rdcPut s d n r).fresh = s.fresh := rfl
@[simp] theorem rdcPut_nextId (s : State) (d n : Nat) (r : RdcLine) : (rdcPut s d n r).nextId = s.nextId := rfl
@[simp] theorem rdcPut_mem (s : State) (d n : Nat) (r : RdcLine) : (rdcPut s d n r).mem = s.mem := rfl
@[simp] theorem rdcPut_ecc (s : State) (d n : Nat) (r : RdcLine) : (rdcPut s d n r).ecc = s.ecc := rfl
@[simp] theorem rdcPut_rowErrs (s : State) (d n : Nat) (r : RdcLine) : (rdcPut s d n r).rowErrs = s.rowErrs := rfl
@[simp] theorem rdcPut_chErrs (s : State) (d n : Nat) (r : RdcLine) : (rdcPut s d n r).chErrs = s.chErrs := rfl
@[simp] theorem rdcPut_spared (s : State) (d n : Nat) (r : RdcLine) : (rdcPut s d n r).spared = s.spared := rfl
@[simp] theorem rdcPut_l2 (s : State) (d n : Nat) (r : RdcLine) : (rdcPut s d n r).l2 = s.l2 := rfl
@[simp] theorem rdcPut_snoop (s : State) (d n : Nat) (r : RdcLine) : (rdcPut s d n r).snoop = s.snoop := rfl
@[simp] theorem rdcPut_biOut (s : State) (d n : Nat) (r : RdcLine) : (rdcPut s d n r).biOut = s.biOut := rfl
@[simp] theorem rdcPut_l1 (s : State) (d n : Nat) (r : RdcLine) : (rdcPut s d n r).l1 = s.l1 := rfl
@[simp] theorem rdcPut_icache (s : State) (d n : Nat) (r : RdcLine) : (rdcPut s d n r).icache = s.icache := rfl
@[simp] theorem rdcPut_prios (s : State) (d n : Nat) (r : RdcLine) : (rdcPut s d n r).prios = s.prios := rfl
@[simp] theorem rdcPut_tlb (s : State) (d n : Nat) (r : RdcLine) : (rdcPut s d n r).tlb = s.tlb := rfl
@[simp] theorem rdcPut_btlb (s : State) (d n : Nat) (r : RdcLine) : (rdcPut s d n r).btlb = s.btlb := rfl
@[simp] theorem rdcPut_pb (s : State) (d n : Nat) (r : RdcLine) : (rdcPut s d n r).pb = s.pb := rfl
@[simp] theorem rdcPut_pool (s : State) (d n : Nat) (r : RdcLine) : (rdcPut s d n r).pool = s.pool := rfl
@[simp] theorem rdcPut_poolErr (s : State) (d n : Nat) (r : RdcLine) : (rdcPut s d n r).poolErr = s.poolErr := rfl
@[simp] theorem rdcPut_acc (s : State) (d n : Nat) (r : RdcLine) : (rdcPut s d n r).acc = s.acc := rfl
@[simp] theorem rdcPut_mrp (s : State) (d n : Nat) (r : RdcLine) : (rdcPut s d n r).mrp = s.mrp := rfl
@[simp] theorem rdcPut_opbuf (s : State) (d n : Nat) (r : RdcLine) : (rdcPut s d n r).opbuf = s.opbuf := rfl
@[simp] theorem rdcPut_matq (s : State) (d n : Nat) (r : RdcLine) : (rdcPut s d n r).matq = s.matq := rfl
@[simp] theorem rdcPut_epi (s : State) (d n : Nat) (r : RdcLine) : (rdcPut s d n r).epi = s.epi := rfl
@[simp] theorem rdcPut_epiSrc (s : State) (d n : Nat) (r : RdcLine) : (rdcPut s d n r).epiSrc = s.epiSrc := rfl
@[simp] theorem rdcPut_top (s : State) (d n : Nat) (r : RdcLine) : (rdcPut s d n r).top = s.top := rfl
@[simp] theorem rdcPut_rings (s : State) (d n : Nat) (r : RdcLine) : (rdcPut s d n r).rings = s.rings := rfl
@[simp] theorem rdcPut_agateLast (s : State) (d n : Nat) (r : RdcLine) : (rdcPut s d n r).agateLast = s.agateLast := rfl
@[simp] theorem rdcPut_copies (s : State) (d n : Nat) (r : RdcLine) : (rdcPut s d n r).copies = s.copies := rfl
@[simp] theorem rdcPut_walks (s : State) (d n : Nat) (r : RdcLine) : (rdcPut s d n r).walks = s.walks := rfl
@[simp] theorem rdcPut_regx (s : State) (d n : Nat) (r : RdcLine) : (rdcPut s d n r).regx = s.regx := rfl
@[simp] theorem rdcPut_idle (s : State) (d n : Nat) (r : RdcLine) : (rdcPut s d n r).idle = s.idle := rfl
@[simp] theorem rdcPut_skips (s : State) (d n : Nat) (r : RdcLine) : (rdcPut s d n r).skips = s.skips := rfl
@[simp] theorem rdcPut_slips (s : State) (d n : Nat) (r : RdcLine) : (rdcPut s d n r).slips = s.slips := rfl
@[simp] theorem rdcPut_slots (s : State) (d n : Nat) (r : RdcLine) : (rdcPut s d n r).slots = s.slots := rfl
@[simp] theorem rdcPut_teams (s : State) (d n : Nat) (r : RdcLine) : (rdcPut s d n r).teams = s.teams := rfl
@[simp] theorem rdcPut_nextAge (s : State) (d n : Nat) (r : RdcLine) : (rdcPut s d n r).nextAge = s.nextAge := rfl
@[simp] theorem rdcPut_pend (s : State) (d n : Nat) (r : RdcLine) : (rdcPut s d n r).pend = s.pend := rfl
@[simp] theorem rdcPut_dies (s : State) (d n : Nat) (r : RdcLine) : (rdcPut s d n r).dies = s.dies := rfl
@[simp] theorem rdcPut_beryl (s : State) (d n : Nat) (r : RdcLine) : (rdcPut s d n r).beryl = s.beryl := rfl
@[simp] theorem rdcPut_ctxs (s : State) (d n : Nat) (r : RdcLine) : (rdcPut s d n r).ctxs = s.ctxs := rfl
@[simp] theorem rdcPut_grids (s : State) (d n : Nat) (r : RdcLine) : (rdcPut s d n r).grids = s.grids := rfl
@[simp] theorem rdcPut_gridOrder (s : State) (d n : Nat) (r : RdcLine) : (rdcPut s d n r).gridOrder = s.gridOrder := rfl
@[simp] theorem rdcPut_phase (s : State) (d n : Nat) (r : RdcLine) : (rdcPut s d n r).phase = s.phase := rfl
@[simp] theorem rdcPut_plimit (s : State) (d n : Nat) (r : RdcLine) : (rdcPut s d n r).plimit = s.plimit := rfl
@[simp] theorem rdcPut_power (s : State) (d n : Nat) (r : RdcLine) : (rdcPut s d n r).power = s.power := rfl
@[simp] theorem rdcPut_coolant (s : State) (d n : Nat) (r : RdcLine) : (rdcPut s d n r).coolant = s.coolant := rfl
@[simp] theorem rdcPut_fabid (s : State) (d n : Nat) (r : RdcLine) : (rdcPut s d n r).fabid = s.fabid := rfl
@[simp] theorem rdcPut_domain (s : State) (d n : Nat) (r : RdcLine) : (rdcPut s d n r).domain = s.domain := rfl
@[simp] theorem rdcPut_vfmap (s : State) (d n : Nat) (r : RdcLine) : (rdcPut s d n r).vfmap = s.vfmap := rfl
@[simp] theorem rdcPut_elHead (s : State) (d n : Nat) (r : RdcLine) : (rdcPut s d n r).elHead = s.elHead := rfl
@[simp] theorem rdcPut_log (s : State) (d n : Nat) (r : RdcLine) : (rdcPut s d n r).log = s.log := rfl
@[simp] theorem rdcPut_cycle (s : State) (d n : Nat) (r : RdcLine) : (rdcPut s d n r).cycle = s.cycle := rfl
@[simp] theorem rdcPut_boot (s : State) (d n : Nat) (r : RdcLine) : (rdcPut s d n r).boot = s.boot := rfl
@[simp] theorem rdcPut_hostOut (s : State) (d n : Nat) (r : RdcLine) : (rdcPut s d n r).hostOut = s.hostOut := rfl

/-! ### `l1Drop` -/

@[simp] theorem l1Drop_agenda (s : State) (c n : Nat) : (l1Drop s c n).agenda = s.agenda := rfl
@[simp] theorem l1Drop_cur (s : State) (c n : Nat) : (l1Drop s c n).cur = s.cur := rfl
@[simp] theorem l1Drop_curCore (s : State) (c n : Nat) : (l1Drop s c n).curCore = s.curCore := rfl
@[simp] theorem l1Drop_curWalk (s : State) (c n : Nat) : (l1Drop s c n).curWalk = s.curWalk := rfl
@[simp] theorem l1Drop_fresh (s : State) (c n : Nat) : (l1Drop s c n).fresh = s.fresh := rfl
@[simp] theorem l1Drop_nextId (s : State) (c n : Nat) : (l1Drop s c n).nextId = s.nextId := rfl
@[simp] theorem l1Drop_mem (s : State) (c n : Nat) : (l1Drop s c n).mem = s.mem := rfl
@[simp] theorem l1Drop_ecc (s : State) (c n : Nat) : (l1Drop s c n).ecc = s.ecc := rfl
@[simp] theorem l1Drop_rowErrs (s : State) (c n : Nat) : (l1Drop s c n).rowErrs = s.rowErrs := rfl
@[simp] theorem l1Drop_chErrs (s : State) (c n : Nat) : (l1Drop s c n).chErrs = s.chErrs := rfl
@[simp] theorem l1Drop_spared (s : State) (c n : Nat) : (l1Drop s c n).spared = s.spared := rfl
@[simp] theorem l1Drop_l2 (s : State) (c n : Nat) : (l1Drop s c n).l2 = s.l2 := rfl
@[simp] theorem l1Drop_snoop (s : State) (c n : Nat) : (l1Drop s c n).snoop = s.snoop := rfl
@[simp] theorem l1Drop_biOut (s : State) (c n : Nat) : (l1Drop s c n).biOut = s.biOut := rfl
@[simp] theorem l1Drop_rdc (s : State) (c n : Nat) : (l1Drop s c n).rdc = s.rdc := rfl
@[simp] theorem l1Drop_icache (s : State) (c n : Nat) : (l1Drop s c n).icache = s.icache := rfl
@[simp] theorem l1Drop_prios (s : State) (c n : Nat) : (l1Drop s c n).prios = s.prios := rfl
@[simp] theorem l1Drop_tlb (s : State) (c n : Nat) : (l1Drop s c n).tlb = s.tlb := rfl
@[simp] theorem l1Drop_btlb (s : State) (c n : Nat) : (l1Drop s c n).btlb = s.btlb := rfl
@[simp] theorem l1Drop_pb (s : State) (c n : Nat) : (l1Drop s c n).pb = s.pb := rfl
@[simp] theorem l1Drop_pool (s : State) (c n : Nat) : (l1Drop s c n).pool = s.pool := rfl
@[simp] theorem l1Drop_poolErr (s : State) (c n : Nat) : (l1Drop s c n).poolErr = s.poolErr := rfl
@[simp] theorem l1Drop_acc (s : State) (c n : Nat) : (l1Drop s c n).acc = s.acc := rfl
@[simp] theorem l1Drop_mrp (s : State) (c n : Nat) : (l1Drop s c n).mrp = s.mrp := rfl
@[simp] theorem l1Drop_opbuf (s : State) (c n : Nat) : (l1Drop s c n).opbuf = s.opbuf := rfl
@[simp] theorem l1Drop_matq (s : State) (c n : Nat) : (l1Drop s c n).matq = s.matq := rfl
@[simp] theorem l1Drop_epi (s : State) (c n : Nat) : (l1Drop s c n).epi = s.epi := rfl
@[simp] theorem l1Drop_epiSrc (s : State) (c n : Nat) : (l1Drop s c n).epiSrc = s.epiSrc := rfl
@[simp] theorem l1Drop_top (s : State) (c n : Nat) : (l1Drop s c n).top = s.top := rfl
@[simp] theorem l1Drop_rings (s : State) (c n : Nat) : (l1Drop s c n).rings = s.rings := rfl
@[simp] theorem l1Drop_agateLast (s : State) (c n : Nat) : (l1Drop s c n).agateLast = s.agateLast := rfl
@[simp] theorem l1Drop_copies (s : State) (c n : Nat) : (l1Drop s c n).copies = s.copies := rfl
@[simp] theorem l1Drop_walks (s : State) (c n : Nat) : (l1Drop s c n).walks = s.walks := rfl
@[simp] theorem l1Drop_regx (s : State) (c n : Nat) : (l1Drop s c n).regx = s.regx := rfl
@[simp] theorem l1Drop_idle (s : State) (c n : Nat) : (l1Drop s c n).idle = s.idle := rfl
@[simp] theorem l1Drop_skips (s : State) (c n : Nat) : (l1Drop s c n).skips = s.skips := rfl
@[simp] theorem l1Drop_slips (s : State) (c n : Nat) : (l1Drop s c n).slips = s.slips := rfl
@[simp] theorem l1Drop_slots (s : State) (c n : Nat) : (l1Drop s c n).slots = s.slots := rfl
@[simp] theorem l1Drop_teams (s : State) (c n : Nat) : (l1Drop s c n).teams = s.teams := rfl
@[simp] theorem l1Drop_nextAge (s : State) (c n : Nat) : (l1Drop s c n).nextAge = s.nextAge := rfl
@[simp] theorem l1Drop_pend (s : State) (c n : Nat) : (l1Drop s c n).pend = s.pend := rfl
@[simp] theorem l1Drop_dies (s : State) (c n : Nat) : (l1Drop s c n).dies = s.dies := rfl
@[simp] theorem l1Drop_beryl (s : State) (c n : Nat) : (l1Drop s c n).beryl = s.beryl := rfl
@[simp] theorem l1Drop_ctxs (s : State) (c n : Nat) : (l1Drop s c n).ctxs = s.ctxs := rfl
@[simp] theorem l1Drop_grids (s : State) (c n : Nat) : (l1Drop s c n).grids = s.grids := rfl
@[simp] theorem l1Drop_gridOrder (s : State) (c n : Nat) : (l1Drop s c n).gridOrder = s.gridOrder := rfl
@[simp] theorem l1Drop_phase (s : State) (c n : Nat) : (l1Drop s c n).phase = s.phase := rfl
@[simp] theorem l1Drop_plimit (s : State) (c n : Nat) : (l1Drop s c n).plimit = s.plimit := rfl
@[simp] theorem l1Drop_power (s : State) (c n : Nat) : (l1Drop s c n).power = s.power := rfl
@[simp] theorem l1Drop_coolant (s : State) (c n : Nat) : (l1Drop s c n).coolant = s.coolant := rfl
@[simp] theorem l1Drop_fabid (s : State) (c n : Nat) : (l1Drop s c n).fabid = s.fabid := rfl
@[simp] theorem l1Drop_domain (s : State) (c n : Nat) : (l1Drop s c n).domain = s.domain := rfl
@[simp] theorem l1Drop_vfmap (s : State) (c n : Nat) : (l1Drop s c n).vfmap = s.vfmap := rfl
@[simp] theorem l1Drop_elHead (s : State) (c n : Nat) : (l1Drop s c n).elHead = s.elHead := rfl
@[simp] theorem l1Drop_log (s : State) (c n : Nat) : (l1Drop s c n).log = s.log := rfl
@[simp] theorem l1Drop_cycle (s : State) (c n : Nat) : (l1Drop s c n).cycle = s.cycle := rfl
@[simp] theorem l1Drop_boot (s : State) (c n : Nat) : (l1Drop s c n).boot = s.boot := rfl
@[simp] theorem l1Drop_hostOut (s : State) (c n : Nat) : (l1Drop s c n).hostOut = s.hostOut := rfl

/-! ### What is written -/

/-- A context block after one is replaced. -/
theorem State.ctx_setCtx (s : State) (c d : Nat) (x : Ctx) : (s.setCtx c x).ctx d = if d = c then x else s.ctx d := by
  simp only [State.ctx, State.setCtx, Assoc.get?_put]
  split <;> rfl
@[simp] theorem State.ctx_setCtx_self (s : State) (c : Nat) (x : Ctx) : (s.setCtx c x).ctx c = x := by
  rw [State.ctx_setCtx, if_pos rfl]
theorem State.ctx_setCtx_other (s : State) {c d : Nat} (x : Ctx) (h : d ≠ c) : (s.setCtx c x).ctx d = s.ctx d := by
  rw [State.ctx_setCtx, if_neg h]
/-- A die block after one is replaced. -/
theorem State.die_setDie (s : State) (c d : Nat) (x : Die) : (s.setDie c x).die d = if d = c then x else s.die d := by
  simp only [State.die, State.setDie, Assoc.get?_put]
  split <;> rfl
@[simp] theorem State.die_setDie_self (s : State) (c : Nat) (x : Die) : (s.setDie c x).die c = x := by
  rw [State.die_setDie, if_pos rfl]
/-- A slot table entry after one is replaced. -/
theorem State.slot_setSlot (s : State) (c n d m : Nat) (x : Slot) (hn : n < 64) (hm : m < 64) :
    (s.setSlot c n x).slot d m = if d = c ∧ m = n then x else s.slot d m := by
  have e : (d * 64 + m = c * 64 + n) ↔ (d = c ∧ m = n) := by omega
  simp only [State.slot, State.setSlot]
  split
  · next h0 => simp only [Assoc.get?_del, e]; split <;> simp [*]
  · simp only [Assoc.get?_put, e]; split <;> rfl
/-- An L2 line after one is replaced. -/
theorem l2Get_l2Put (s : State) (m n : Nat) (l : L2Line) : l2Get (l2Put s n l) m = if m = n then l else l2Get s m := by
  simp only [l2Get, l2Put, Assoc.get?_put]
  split <;> rfl
/-- The context and die blocks of a state depend on nothing else. -/
@[simp] theorem State.ctx_modGroup (g : Gid) (f : Group → Group) (s : State) (c : Nat) :
    (modGroup g f s).ctx c = s.ctx c := rfl
@[simp] theorem State.ctx_modTeam (u : Nat) (f : Team → Team) (s : State) (c : Nat) :
    (modTeam u f s).ctx c = s.ctx c := rfl
@[simp] theorem State.ctx_post (g : Gid) (a b : Nat) (p : PendKind) (s : State) (c : Nat) :
    (post g a b p s).ctx c = s.ctx c := rfl
@[simp] theorem State.ctx_unpost (i : Nat) (s : State) (c : Nat) : (unpost i s).ctx c = s.ctx c := rfl
@[simp] theorem State.ctx_logEvent (s : State) (a b x c : Nat) : (logEvent s a b x).ctx c = s.ctx c := rfl
@[simp] theorem State.ctx_fire (b : Bool) (g : Nat) (s : State) (c : Nat) : (fire b g s).ctx c = s.ctx c := rfl
@[simp] theorem State.die_modGroup (g : Gid) (f : Group → Group) (s : State) (d : Nat) :
    (modGroup g f s).die d = s.die d := rfl
@[simp] theorem State.die_logEvent (s : State) (a b x d : Nat) : (logEvent s a b x).die d = s.die d := rfl
@[simp] theorem State.die_setCtx (s : State) (c : Nat) (x : Ctx) (d : Nat) : (s.setCtx c x).die d = s.die d := rfl
@[simp] theorem State.ctx_setDie (s : State) (d : Nat) (x : Die) (c : Nat) : (s.setDie d x).ctx c = s.ctx c := rfl

end Sys2Proof.Machine
end

