-- ==== Sys2Proof/Laws/Home.lean ====
section
/-! SUPPORT. The laws of the homes and the caches above them: no operation takes memory out of its canonical form. -/

namespace Sys2Proof.Machine

/-- An operation on the state keeps memory in its canonical form. -/
structure KeepsForm (s t : State) : Prop where
  wf : Memory.wf s.mem = true → Memory.wf t.mem = true
theorem KeepsForm.refl (s : State) : KeepsForm s s := ⟨id⟩
theorem KeepsForm.trans {s t u : State} (h : KeepsForm s t) (k : KeepsForm t u) : KeepsForm s u := ⟨k.wf ∘ h.wf⟩
theorem KeepsForm.of_mem {s t : State} (h : t.mem = s.mem) : KeepsForm s t := ⟨by rw [h]; exact id⟩
theorem KeepsForm.of_puts {s t : State} {a : Nat} {bs : List Byte} (h : t.mem = memPuts s.mem a bs) : KeepsForm s t :=
  ⟨by rw [h]; exact Memory.wf_memPuts _ _ _⟩
/-- Steps that each keep the form keep it together. -/
theorem KeepsForm.foldl {α : Type} (f : State → α → State) (h : ∀ s x, KeepsForm s (f s x)) (l : List α) (s : State) :
    KeepsForm s (l.foldl f s) := by
  induction l generalizing s with
  | nil => exact .refl s
  | cons x l ih => exact (h s x).trans (ih _)

/-! ### The controller and the L2 -/

@[simp] theorem countRow_mem (s : State) (loc : Nat) : (countRow s loc).mem = s.mem := rfl
@[simp] theorem correctSector_mem (s : State) (n : Nat) : (correctSector s n).mem = s.mem := by
  unfold correctSector
  generalize (sectorEcc s n).filter (fun e => e.2 == some .single) = l
  induction l generalizing s with
  | nil => rfl
  | cons x l ih => rw [List.foldl_cons, ih]; rfl
/-- A controller that resolves a sector changes no byte. -/
@[simp] theorem resolveSector_mem (s : State) (n : Nat) : (resolveSector s n).1.mem = s.mem := by
  unfold resolveSector; dsimp only; repeat' split
  all_goals simp
/-- A sector is written to media. -/
theorem mediaWrite_mem (s : State) (n : Nat) (bs : List Byte) (p : Bool) :
    (mediaWrite s n bs p).mem = memPuts s.mem (64 * n) bs := rfl
theorem mediaWrite_keepsForm (s : State) (n : Nat) (bs : List Byte) (p : Bool) : KeepsForm s (mediaWrite s n bs p) :=
  .of_puts rfl
/-- A fill from media changes no byte of it. -/
@[simp] theorem l2Fill_mem (s : State) (n i : Nat) : (l2Fill s n i).1.mem = s.mem := by
  unfold l2Fill; dsimp only; split
  · rfl
  · simp
@[simp] theorem l2FillLine_mem (s : State) (n : Nat) : (l2FillLine s n).1.mem = s.mem := by simp [l2FillLine]
theorem l2CleanSec_keepsForm (s : State) (n i : Nat) : KeepsForm s (l2CleanSec s n i) := by
  unfold l2CleanSec; dsimp only; split
  · exact .of_puts rfl
  · exact .refl _
theorem l2Clean_keepsForm (s : State) (n : Nat) : KeepsForm s (l2Clean s n) :=
  (l2CleanSec_keepsForm ..).trans (l2CleanSec_keepsForm ..)
theorem l2Evict_keepsForm (s : State) (n : Nat) : KeepsForm s (l2Evict s n) :=
  (l2Clean_keepsForm s n).trans (.of_mem rfl)
/-- A write that a slice accepts changes no byte of media. -/
@[simp] theorem l2Write_mem (s : State) (loc : Nat) (bs : List Byte) : (l2Write s loc bs).mem = s.mem := by
  unfold l2Write; dsimp only; repeat' split
  all_goals simp

/-! ### The home -/

/-- A home that delivers a line changes no byte. -/
@[simp] theorem homeLine_mem (s : State) (n : Nat) : (homeLine s n).1.mem = s.mem := by
  unfold homeLine; split
  · rfl
  · split
    · exact l2FillLine_mem s n
    · rfl
theorem homeWrite_keepsForm (s : State) (loc : Nat) (bs : List Byte) : KeepsForm s (homeWrite s loc bs) := by
  refine KeepsForm.foldl _ (fun s x => ?_) _ _
  obtain ⟨a, d⟩ := x
  dsimp only
  repeat' split
  · exact .of_mem rfl
  · exact .of_mem (l2Write_mem ..)
  · exact .refl _
  · exact .of_puts rfl
  · exact .of_puts rfl
/-- A home that delivers bytes changes none. -/
@[simp] theorem homeRead_mem (s : State) (loc n : Nat) : (homeRead s loc n).1.mem = s.mem := by
  unfold homeRead
  generalize segs 128 loc n = l
  have h : ∀ (l : List (Nat × Nat)) (x : State × List Byte × Bool), (l.foldl (fun (s, bs, p) (a, m) =>
      let (s, d, q) := homeLine s (a / 128)
      (s, bs ++ lineBytes d (a % 128) m, p || poisonIn q (a % 128) m)) x).1.mem = x.1.mem := by
    intro l
    induction l with
    | nil => intro x; rfl
    | cons y l ih => intro x; rw [List.foldl_cons, ih]; simp
  exact h l (s, [], false)
@[simp] theorem homeNat_mem (s : State) (loc n : Nat) : (homeNat s loc n).1.mem = s.mem := by simp [homeNat]

/-- Poison that arrives at a home changes no byte. -/
@[simp] theorem homePoison_mem (s : State) (loc n : Nat) : (homePoison s loc n).mem = s.mem := by
  unfold homePoison
  generalize segs 64 loc n = l
  induction l generalizing s with
  | nil => rfl
  | cons x l ih => rw [List.foldl_cons, ih]; dsimp only; split <;> simp

/-! ### The RDC and L1 -/

theorem rdcBackSec_keepsForm (r : RdcLine) (n : Nat) (s : State) (i : Nat) : KeepsForm s (rdcBackSec r n s i) := by
  unfold rdcBackSec; dsimp only; repeat' split
  · exact .refl _
  · exact .of_mem ((fire_mem ..).trans (homePoison_mem ..))
  · exact .of_mem (homePoison_mem ..)
  · exact homeWrite_keepsForm ..
  · exact KeepsForm.foldl _ (fun s i => homeWrite_keepsForm ..) _ _
theorem rdcWriteBack_keepsForm (s : State) (d n : Nat) : KeepsForm s (rdcWriteBack s d n) := by
  unfold rdcWriteBack; dsimp only; split
  · exact .refl _
  · exact (KeepsForm.foldl _ (fun s i => rdcBackSec_keepsForm ..) _ _).trans (.of_mem rfl)
theorem rdcDrop_keepsForm (s : State) (d n : Nat) : KeepsForm s (rdcDrop s d n) :=
  (rdcWriteBack_keepsForm s d n).trans (.of_mem rfl)
/-- A die that takes a line of host memory, to write or to read, keeps the form. -/
theorem hostOwn_keepsForm (s : State) (d loc : Nat) : KeepsForm s (hostOwn s d loc) := by
  unfold hostOwn; split
  · exact KeepsForm.foldl _ (fun s k => rdcDrop_keepsForm ..) _ _
  · exact .refl _
theorem hostShare_keepsForm (s : State) (d loc : Nat) : KeepsForm s (hostShare s d loc) := by
  unfold hostShare; split
  · exact KeepsForm.foldl _ (fun s k => rdcWriteBack_keepsForm ..) _ _
  · exact .refl _
theorem hostPast_keepsForm (s : State) (loc n : Nat) : KeepsForm s (hostPast s loc n) :=
  KeepsForm.foldl _ (fun _ _ => hostOwn_keepsForm ..) _ _
theorem rdcWriteSeg_keepsForm (s : State) (d loc : Nat) (bs : List Byte) : KeepsForm s (rdcWriteSeg s d loc bs) := by
  unfold rdcWriteSeg; dsimp only; split
  · exact hostOwn_keepsForm ..
  · exact (hostOwn_keepsForm s d loc).trans (.of_mem rfl)
/-- A store accepted at an RDC keeps the form. -/
theorem rdcWrite_keepsForm (s : State) (d loc : Nat) (bs : List Byte) : KeepsForm s (rdcWrite s d loc bs) :=
  KeepsForm.foldl _ (fun _ _ => rdcWriteSeg_keepsForm ..) _ _
theorem rdcFlush_keepsForm (s : State) (d : Nat) : KeepsForm s (rdcFlush s d) :=
  KeepsForm.foldl _ (fun _ _ => rdcWriteBack_keepsForm ..) _ _
/-- A line filled into an RDC keeps the form. -/
theorem rdcFillLine_keepsForm (s : State) (d n : Nat) : KeepsForm s (rdcFillLine s d n).1 := by
  unfold rdcFillLine; dsimp only; split
  · exact .refl _
  · exact (hostShare_keepsForm s d (128 * n)).trans (.of_mem (homeLine_mem ..))
@[simp] theorem rdcInvalClean_mem (s : State) (d : Nat) : (rdcInvalClean s d).mem = s.mem := rfl
@[simp] theorem l1Clear_mem (s : State) (c : Nat) : (l1Clear s c).mem = s.mem := rfl
/-- A store into L1 changes no byte of memory. -/
@[simp] theorem l1Store_mem (s : State) (c loc ch : Nat) (bs : List Byte) : (l1Store s c loc ch bs).mem = s.mem := by
  unfold l1Store
  generalize dataSegs 64 loc bs = l
  induction l generalizing s with
  | nil => rfl
  | cons x l ih => rw [List.foldl_cons, ih]; dsimp only; repeat' split
                   all_goals simp
/-- A line read below L1 keeps the form. -/
theorem lowerLine_keepsForm (s : State) (d n : Nat) (b : Bool) (ch : Nat) : KeepsForm s (lowerLine s d n b ch).1 := by
  have h : KeepsForm s (homeLine (hostShare s 4 (128 * n)) n).1 := (hostShare_keepsForm s 4 _).trans (.of_mem (homeLine_mem ..))
  unfold lowerLine; split
  · split
    · exact h
    · exact rdcFillLine_keepsForm ..
  · exact h
/-- A read of a line of L1 resolves its errors, and changes no byte of memory. -/
@[simp] theorem l1Resolve_mem (s : State) (c line off n : Nat) (l : L1Line) : (l1Resolve s c line off n l).1.mem = s.mem := by
  have h : ∀ (code : Nat) (ws : List Nat) (s : State),
      (ws.foldl (fun s w => logEvent s code (coreDie c) (128 * line + 8 * w)) s).mem = s.mem := by
    intro code ws
    induction ws with
    | nil => intro s; rfl
    | cons w ws ih => intro s; rw [List.foldl_cons, ih]; rfl
  unfold l1Resolve; split
  · rfl
  · simp [h]
theorem bypassRdc_keepsForm (s : State) (d n : Nat) (b : Bool) (ch : Nat) : KeepsForm s (bypassRdc s d n b ch) := by
  unfold bypassRdc; split
  · exact rdcDrop_keepsForm s d n
  · exact .refl _
theorem loadLine_keepsForm (s : State) (c loc n : Nat) (b : Bool) (ch : Nat) :
    KeepsForm s (loadLine s c loc n b ch).1 := by
  have h := bypassRdc_keepsForm s (coreDie c) (loc / 128) b ch
  unfold loadLine; dsimp only
  generalize bypassRdc s (coreDie c) (loc / 128) b ch = z at h ⊢
  have h' := h.trans (lowerLine_keepsForm z (coreDie c) (loc / 128) b ch)
  repeat' split
  · exact h.trans (.of_mem (l1Resolve_mem ..))
  all_goals first | exact h' | exact h'.trans (.of_mem rfl)

/-! ### Reset, and placing a program -/

/-- A line that is not kept may be evicted at any moment (R109). -/
theorem mayEvict_of_not_kept {s : State} {lv : Level} {key : Nat} (h : (keptIn s lv).contains key = false) :
    mayEvict s lv key = true := by
  simp only [mayEvict, h, Bool.not_false, Bool.true_or]
/-- What waits for nothing past its release is as its body left it (R382). -/
@[simp] theorem pastRelease_done (e : Env) (s : State) : pastRelease e (.done s) = .done s := rfl
/-- Memory at reset is in its canonical form (R446). -/
theorem reset_wf : Memory.wf State.reset.mem = true := rfl
theorem placeBytes_wf (w : Nat) (m : List Host.Cell) (h : Memory.wf m = true) : Memory.wf (placeBytes w m) = true :=
  Memory.wf_memPuts _ _ _ (Memory.wf_memPuts _ _ _ (Memory.wf_memPuts _ _ _
    (Memory.wf_memPuts _ _ _ (Memory.wf_memPuts _ _ _ h))))
/-- A reset of a device at work keeps media (R446). -/
@[simp] theorem resetKeeping_mem (s : State) : (resetKeeping s).mem = s.mem := rfl

end Sys2Proof.Machine
end

