-- ==== Sys2Proof/Laws/Registers.lean ====
section
/-! SUPPORT. The laws of registers: what a register reads after a write, and what a list of writes leaves. -/

namespace Sys2Proof.Machine

/-- A register that discards what is written to it (R23). -/
def RegDst.hardwired (d : RegDst) : Prop := d.file = .p ∧ d.num = 15
/-- The value a register keeps of a word: a predicate keeps one bit. -/
def RegDst.kept (d : RegDst) (x : Word) : Word :=
  match d.file with
  | .v | .s => x
  | .p | .q => if x = 0 then 0 else 1

theorem one_shift_getLsbD (i j : Nat) (hi : i < 16) : ((1 : BitVec 16) <<< i).getLsbD j = decide (j = i) := by
  simp only [BitVec.getLsbD_shiftLeft]
  by_cases h : j = i
  · subst h; simp [hi]
  · simp [h]; omega

theorem setBit_p (m : BitVec 16) (x : Word) (i j : Nat) (hi : i < 16) (hj : j < 16) :
    (if x = 0 then m &&& ~~~((1 : BitVec 16) <<< i) else m ||| ((1 : BitVec 16) <<< i)).getLsbD j =
      if j = i then decide (x ≠ 0) else m.getLsbD j := by
  split
  · rw [BitVec.getLsbD_and, BitVec.getLsbD_not, one_shift_getLsbD i j hi]
    by_cases h : j = i <;> simp [*]
  · rename_i h0
    rw [BitVec.getLsbD_or, one_shift_getLsbD i j hi]
    by_cases h : j = i
    · simp [h]; exact h0
    · simp [h]
theorem setBit_q (m : Mask) (x : Word) (i j : Nat) (hi : i < 128) (hj : j < 128) :
    (if x = 0 then m &&& ~~~laneBit i else m ||| laneBit i).getLsbD j =
      if j = i then decide (x ≠ 0) else m.getLsbD j := by
  split
  · rw [andNot_laneBit m i j hi hj]
    by_cases h : j = i <;> simp [*]
  · rename_i h0
    rw [or_laneBit m i j hi]
    by_cases h : j = i
    · simp [h]; exact h0
    · simp [h]

theorem reg_setReg_v (g : Group) (n l : Nat) (j : RegDst) (x : Word) (hl : l < 128) (hj : IsReg j) :
    (g.setReg ⟨.v, n, l⟩ x).reg j = if j = ⟨.v, n, l⟩ then x else g.reg j := by
  obtain ⟨fj, nj, lj⟩ := j
  cases fj <;> simp only [IsReg] at hj
  · simp only [Group.setReg, Group.reg, Assoc.rd_wr, RegDst.mk.injEq, true_and]
    by_cases h : nj = n ∧ lj = l
    · rw [if_pos h, if_pos (by omega)]
    · rw [if_neg h, if_neg (by omega)]
  all_goals (rw [if_neg (by simp)]; rfl)
theorem reg_setReg_s (g : Group) (n : Nat) (j : RegDst) (x : Word) (hj : IsReg j) :
    (g.setReg ⟨.s, n, 0⟩ x).reg j = if j = ⟨.s, n, 0⟩ then x else g.reg j := by
  obtain ⟨fj, nj, lj⟩ := j
  cases fj <;> simp only [IsReg] at hj
  case s => subst hj; simp [Group.setReg, Group.reg, Assoc.rd_wr]
  all_goals (rw [if_neg (by simp)]; rfl)
theorem reg_setReg_p (g : Group) (n : Nat) (j : RegDst) (x : Word) (hn : n < 16) (h15 : n ≠ 15) (hj : IsReg j) :
    (g.setReg ⟨.p, n, 0⟩ x).reg j = if j = ⟨.p, n, 0⟩ then (if x = 0 then 0 else 1) else g.reg j := by
  obtain ⟨fj, nj, lj⟩ := j
  cases fj <;> simp only [IsReg] at hj
  case p =>
    obtain ⟨hj, rfl⟩ := hj
    simp only [Group.setReg, Group.reg, if_neg h15, setBit_p g.p x n nj hn hj, RegDst.mk.injEq, true_and, and_true]
    by_cases h : nj = n
    · subst h; by_cases hx : x = 0 <;> simp [h15, hx]
    · simp [h]
  all_goals (rw [if_neg (by simp)]; simp only [Group.setReg, Group.reg, if_neg h15])
theorem reg_setReg_q (g : Group) (n l : Nat) (j : RegDst) (x : Word) (hl : l < 128) (hj : IsReg j) :
    (g.setReg ⟨.q, n, l⟩ x).reg j = if j = ⟨.q, n, l⟩ then (if x = 0 then 0 else 1) else g.reg j := by
  obtain ⟨fj, nj, lj⟩ := j
  cases fj <;> simp only [IsReg] at hj
  case q =>
    simp only [Group.setReg, Group.reg, Assoc.rd_wr, RegDst.mk.injEq, true_and]
    by_cases h : nj = n
    · subst h
      rw [if_pos rfl, setBit_q _ x l lj hl hj.2]
      by_cases h2 : lj = l
      · subst h2; by_cases hx : x = 0 <;> simp [hx]
      · simp [h2]
    · simp [h]
  all_goals (rw [if_neg (by simp)]; rfl)
/-- A register after a register is written. -/
theorem reg_setReg (g : Group) (d j : RegDst) (x : Word) (hd : IsReg d) (hj : IsReg j) (hp : ¬ d.hardwired) :
    (g.setReg d x).reg j = if j = d then d.kept x else g.reg j := by
  obtain ⟨fd, nd, ld⟩ := d
  cases fd <;> simp only [IsReg] at hd
  · exact reg_setReg_v g nd ld j x hd hj
  · subst hd; exact reg_setReg_s g nd j x hj
  · obtain ⟨hd, rfl⟩ := hd
    exact reg_setReg_p g nd j x hd (fun h => hp ⟨rfl, h⟩) hj
  · exact reg_setReg_q g nd ld j x hd.2 hj
/-- A register discards what is written to p15 (R23). -/
theorem setReg_hardwired (g : Group) (d : RegDst) (x : Word) (h : d.hardwired) : g.setReg d x = g := by
  obtain ⟨hf, hn⟩ := h
  obtain ⟨f, n, l⟩ := d
  simp only at hf hn
  subst hf hn
  simp [Group.setReg]

/-- The fields a register write leaves alone. -/
theorem setReg_rest (g : Group) (d : RegDst) (x : Word) :
    g.setReg d x = { g with v := (g.setReg d x).v, s := (g.setReg d x).s, p := (g.setReg d x).p,
                            q := (g.setReg d x).q } := by
  obtain ⟨f, n, l⟩ := d
  cases f <;> simp [Group.setReg]
  split <;> rfl

/-- The fields a list of register writes leaves alone. -/
theorem putReg_rest (g : Group) (w : RegWrite) :
    g.putReg w = { g with v := (g.putReg w).v, s := (g.putReg w).s, p := (g.putReg w).p, q := (g.putReg w).q
                          bad := (g.putReg w).bad } := by
  have h := setReg_rest g w.dst w.val
  unfold Group.putReg
  generalize g.setReg w.dst w.val = g1 at *
  simp only
  split <;> (rw [h])
theorem putReg_bad (g : Group) (w : RegWrite) : (g.putReg w).bad = g.bad.filter fun x => decide (x.1 ≠ w.dst) := by
  have h := setReg_rest g w.dst w.val
  have hb : (g.setReg w.dst w.val).bad = g.bad := by rw [h]
  unfold Group.putReg
  simp only [hb]
  split
  · rfl
  · rename_i hc
    rw [hb, eq_comm, List.filter_eq_self]
    intro d hd
    simp only [decide_eq_true_eq]
    intro hx
    exact hc (List.any_eq_true.2 ⟨d, hd, by simp [hx]⟩)
theorem reg_putReg (g : Group) (w : RegWrite) (j : RegDst) : (g.putReg w).reg j = (g.setReg w.dst w.val).reg j := by
  unfold Group.putReg
  simp only
  split <;> rfl
theorem putRegs_rest (ws : List RegWrite) (g : Group) :
    g.putRegs ws = { g with v := (g.putRegs ws).v, s := (g.putRegs ws).s, p := (g.putRegs ws).p
                            q := (g.putRegs ws).q, bad := (g.putRegs ws).bad } := by
  induction ws generalizing g with
  | nil => rfl
  | cons w ws ih =>
    have h1 := ih (g.putReg w)
    have h2 := putReg_rest g w
    have h3 : g.putRegs (w :: ws) = (g.putReg w).putRegs ws := rfl
    rw [h3]
    generalize (g.putReg w).putRegs ws = g2 at *
    rw [h1, h2]
theorem putRegs_bad (ws : List RegWrite) (g : Group) :
    (g.putRegs ws).bad = g.bad.filter fun x => decide (x.1 ∉ ws.map (·.dst)) := by
  induction ws generalizing g with
  | nil => exact (List.filter_eq_self.2 (by simp)).symm
  | cons w ws ih =>
    have h3 : g.putRegs (w :: ws) = (g.putReg w).putRegs ws := rfl
    rw [h3, ih, putReg_bad, List.filter_filter]
    apply List.filter_congr
    intro d _
    simp only [List.map_cons, List.mem_cons, not_or, Bool.decide_and, Bool.and_comm]
/-- A register that no write of a list names. -/
theorem reg_putRegs_other (ws : List RegWrite) (g : Group) (j : RegDst) (hj : IsReg j) (hw : ∀ w ∈ ws, IsReg w.dst)
    (h : j ∉ ws.map (·.dst)) : (g.putRegs ws).reg j = g.reg j := by
  induction ws generalizing g with
  | nil => rfl
  | cons w ws ih =>
    simp only [List.map_cons, List.mem_cons, not_or] at h
    have h3 : g.putRegs (w :: ws) = (g.putReg w).putRegs ws := rfl
    rw [h3, ih (g.putReg w) (fun x hx => hw x (List.mem_cons_of_mem _ hx)) h.2, reg_putReg]
    by_cases hp : w.dst.hardwired
    · rw [setReg_hardwired g w.dst w.val hp]
    · rw [reg_setReg g w.dst j w.val (hw w (List.mem_cons_self ..)) hj hp, if_neg h.1]
/-- A register that one write of a list names, once. -/
theorem reg_putRegs_mem (ws : List RegWrite) (g : Group) (w : RegWrite) (hmem : w ∈ ws) (hw : ∀ w ∈ ws, IsReg w.dst)
    (hd : (ws.map (·.dst)).Nodup) (hp : ¬ w.dst.hardwired) : (g.putRegs ws).reg w.dst = w.dst.kept w.val := by
  induction ws generalizing g with
  | nil => cases hmem
  | cons x ws ih =>
    have h3 : g.putRegs (x :: ws) = (g.putReg x).putRegs ws := rfl
    simp only [List.map_cons, List.nodup_cons] at hd
    rw [h3]
    have hws : ∀ w ∈ ws, IsReg w.dst := fun y hy => hw y (List.mem_cons_of_mem _ hy)
    rcases List.mem_cons.1 hmem with rfl | hm
    · rw [reg_putRegs_other ws _ w.dst (hw w (List.mem_cons_self ..)) hws hd.1, reg_putReg,
        reg_setReg g w.dst w.dst w.val (hw w (List.mem_cons_self ..)) (hw w (List.mem_cons_self ..)) hp, if_pos rfl]
    · exact ih (g.putReg x) hm hws hd.2
/-- Register writes that are seen at once change of the rest only the hazard records of what they write. -/
theorem setRegs_eq (ws : List RegWrite) (g : Group) :
    g.setRegs ws = { g.putRegs ws with haz := (g.putRegs ws).haz.filter fun h => !(ws.map (·.dst)).contains h.dst } := rfl
@[simp] theorem setRegs_reg (ws : List RegWrite) (g : Group) (d : RegDst) : (g.setRegs ws).reg d = (g.putRegs ws).reg d := rfl
/-- No older result of a register written is left. -/
theorem setRegs_haz (ws : List RegWrite) (g : Group) (h : Haz) (hh : h ∈ (g.setRegs ws).haz) : h.dst ∉ ws.map (·.dst) := by
  have := (List.mem_filter.1 hh).2
  simpa using this

end Sys2Proof.Machine
end

