-- ==== Sys2Proof/Laws/Issue.lean ====
section
/-! SUPPORT. What the issue of an instruction does: where it executes, it concludes its body; and what a fixed-latency
body leaves (R39, R44). -/

namespace Sys2Proof.Machine

/-- An instruction that executes concludes with its body's outcome. -/
theorem issue_executes {s : State} {e : Env} {i : Instr} {f : Slk} (h : Executes s e i f) (body : Env → Res) :
    issue i f body s = .next (conclude e (issueClk e f) (body e)) := by
  obtain ⟨hv, hc⟩ := h
  unfold canExecute at hc
  simp only [Bool.and_eq_true, Option.isNone_iff_eq_none] at hc
  obtain ⟨⟨hs, hg⟩, hc⟩ := hc
  cases hsh : shapeOf e.grp.alloc i with
  | none => simp [hsh] at hc
  | some sh =>
    simp only [hsh, Bool.and_eq_true, Option.isNone_iff_eq_none, Bool.not_eq_true'] at hc
    have hb : badAmong e (srcRegs e sh f) = false := hc.2
    simp [issue, hv, attempt, hs, hg, hsh, checked, hc.1.1, hc.1.2, readingRegs, hb]

theorem maskList_lt {m : Mask} {l : Nat} (h : l ∈ maskList m) : l < 128 := by
  simp [maskList] at h; exact h.1
theorem maskList_nodup (m : Mask) : (maskList m).Nodup := List.Nodup.filter _ List.nodup_range
theorem lanes_lt {e : Env} {l : Nat} (h : l ∈ e.lanes) : l < 128 := maskList_lt h

theorem dstWrites_isReg {o : Opnd} {n l x : Nat} (hl : laneDst o = true → l < 128) (h0 : laneDst o = false → l = 0)
    {w : RegWrite} (hw : w ∈ dstWrites o n l x) : IsReg w.dst ∧ w.dst.kept w.val = w.val := by
  cases o <;> simp [dstWrites, laneDst, opKind] at hw hl h0
  · obtain ⟨k, -, rfl⟩ := hw; exact ⟨hl, rfl⟩
  · obtain ⟨k, -, rfl⟩ := hw; exact ⟨rfl, rfl⟩
  · subst hw
    refine ⟨⟨by simp; omega, by simp; exact hl⟩, ?_⟩
    by_cases hx : x = 0 <;> simp [RegDst.kept, hx]
  · subst hw
    rename_i n
    refine ⟨⟨n.isLt, rfl⟩, ?_⟩
    by_cases hx : x = 0 <;> simp [RegDst.kept, hx]
theorem dstWrites_lane {o : Opnd} {n l x : Nat} (ho : laneDst o = true) {w : RegWrite} (hw : w ∈ dstWrites o n l x) :
    w.dst.lane = l := by
  cases o <;> simp [dstWrites, laneDst, opKind] at hw ho
  · obtain ⟨k, -, rfl⟩ := hw; rfl
  · subst hw; rfl
theorem dstWrites_nodup (o : Opnd) (n l x : Nat) : ((dstWrites o n l x).map (·.dst)).Nodup := by
  cases o <;> simp [dstWrites]
  all_goals
    refine List.Nodup.map ?_ List.nodup_range
    intro a b h
    simpa using h
/-- The writes of an instruction name registers of the device, each once, and hold values the registers keep. -/
theorem laneWrites_ok (e : Env) (f : Slk) (n : Nat) (fn : Nat → Nat) :
    (∀ w ∈ laneWrites e f n fn, IsReg w.dst ∧ w.dst.kept w.val = w.val) ∧
      ((laneWrites e f n fn).map (·.dst)).Nodup := by
  unfold laneWrites Env.execLanes
  by_cases ho : laneDst f.d = true
  · simp only [ho, if_true]
    constructor
    · intro w hw
      obtain ⟨l, hl, hw⟩ := List.mem_flatMap.1 hw
      exact dstWrites_isReg (fun _ => lanes_lt hl) (fun h => by simp [ho] at h) hw
    · rw [List.map_flatMap, List.nodup_flatMap]
      refine ⟨fun l _ => dstWrites_nodup _ _ _ _, ?_⟩
      refine List.Pairwise.imp ?_ (maskList_nodup _)
      intro a b hab
      rw [Function.onFun, List.disjoint_left]
      intro d hd hd'
      obtain ⟨w, hw, rfl⟩ := List.mem_map.1 hd
      obtain ⟨w', hw', he⟩ := List.mem_map.1 hd'
      have h1 := dstWrites_lane ho hw
      have h2 := dstWrites_lane ho hw'
      rw [he] at h2
      exact hab (h1.symm.trans h2)
  · simp only [ho, Bool.false_eq_true, if_false, List.flatMap_cons, List.flatMap_nil, List.append_nil]
    refine ⟨fun w hw => ?_, dstWrites_nodup _ _ _ _⟩
    exact dstWrites_isReg (fun h => absurd h ho) (fun _ => rfl) hw

/-- A group replaced, seen from outside. -/
theorem sameOutside_modGroup (s : State) (g : Gid) (f : Group → Group) (n : Nat) :
    SameOutside s { modGroup g f s with fresh := n } :=
  ⟨rfl, fun u => bare_modGroup s g f u⟩
theorem groupOf_fresh (s : State) (n : Nat) (g : Gid) : groupOf { s with fresh := n } g = groupOf s g := by
  unfold groupOf env?
  have : ({ s with fresh := n } : State).team? g.team = s.team? g.team := rfl
  rw [this]
  cases s.team? g.team with
  | none => rfl
  | some t => simp only; cases t.group? g.group <;> rfl
theorem groupOf_modGroup (s : State) (g h : Gid) (f : Group → Group) (hf : ∀ x, (f x).idx = x.idx) :
    groupOf (modGroup g f s) h = (groupOf s h).map fun x => if h = g then f x else x := by
  unfold groupOf
  rw [env?_modGroup s g h f hf, Option.map_map, Option.map_map]
  rfl

theorem putRegs_idx (ws : List RegWrite) (g : Group) : (g.putRegs ws).idx = g.idx := by rw [putRegs_rest]
/-- What the group holds after a fixed-latency write (R44). -/
theorem writeFixed_eq (e : Env) (a b : Nat) (ws : List RegWrite) :
    ∃ hz : Group → List Haz, writeFixed e a b ws = e.mod fun g => { g.putRegs ws with haz := hz g } := by
  unfold writeFixed
  by_cases h : e.team.interlock = true
  · exact ⟨fun g => (g.putRegs ws).haz, by simp [h]⟩
  · let lat (d : RegDst) : Nat := if d.file = .v ∨ d.file = .q then a else b
    exact ⟨fun g => (ws.map fun w => ⟨w.dst, g.reg w.dst, lat w.dst, false⟩).reverse ++
      (g.putRegs ws).haz.map fun h => capHaz (ws.map (·.dst)) (lat h.dst) h, by simp [h, lat]⟩

/-- A fixed-latency body writes its registers, moves to the next instruction and leaves everything else. -/
theorem conclude_writeFixed {s : State} {e : Env} (he : env? s e.gid = some e) (clk a b : Nat) (ws : List RegWrite)
    (hw : ∀ w ∈ ws, IsReg w.dst ∧ w.dst.kept w.val = w.val) (hd : (ws.map (·.dst)).Nodup) :
    WritesRegs s (conclude e clk (.done (writeFixed e a b ws))) e ws := by
  obtain ⟨-, -, hst, -⟩ := env?_eq he
  obtain ⟨hz, hwf⟩ := writeFixed_eq e a b ws
  have hg : groupOf s e.gid = some e.grp := by unfold groupOf; rw [he]; rfl
  let F : Group → Group := fun g =>
    { ({ g.putRegs ws with haz := hz g } : Group).ageHaz clk with cond := .ready, pc := pcAdd e.grp.pc 12 }
  have hF : ∀ g, (F g).idx = g.idx := fun g => putRegs_idx ws g
  have hc : ∃ n, conclude e clk (.done (writeFixed e a b ws)) = { modGroup e.gid F s with fresh := n } := by
    have : modGroup e.gid (fun g => { g.ageHaz clk with cond := .ready, pc := pcAdd e.grp.pc 12 })
        (writeFixed e a b ws) = modGroup e.gid F s := by
      rw [hwf]; unfold Env.mod; rw [hst, modGroup_modGroup]
      intro g; exact putRegs_idx ws g
    simp only [conclude, this]
    unfold bumpFresh
    split
    · exact ⟨_, rfl⟩
    · exact ⟨_, rfl⟩
  obtain ⟨n, hc⟩ := hc
  rw [hc]
  refine ⟨sameOutside_modGroup s e.gid F n, ?_, F e.grp, ?_, ⟨rfl, rfl⟩, ?_, ?_⟩
  · intro h hne
    rw [groupOf_fresh, groupOf_modGroup s e.gid h F hF]
    simp [hne]
  · rw [groupOf_fresh, groupOf_modGroup s e.gid e.gid F hF, hg]; simp
  · intro w hmem hp
    have h1 : (F e.grp).reg w.dst = (e.grp.putRegs ws).reg w.dst := rfl
    rw [h1, reg_putRegs_mem ws e.grp w hmem (fun x hx => (hw x hx).1) hd hp, (hw w hmem).2]
  · refine ⟨?_, putRegs_bad ws e.grp, ?_⟩
    · intro d hd' hn
      exact reg_putRegs_other ws e.grp d hd' (fun x hx => (hw x hx).1) hn
    · have h2 := putRegs_rest ws e.grp
      simp only [F, Group.ageHaz]
      generalize hg1 : e.grp.putRegs ws = g1 at h2 ⊢
      rw [h2]

end Sys2Proof.Machine
end

