-- ==== Sys2Proof/Laws/PerInstr.lean ====
section
/-! SUPPORT. Facts about every instruction as syntax, one lemma for each constructor: which encoding it has, that its
opcode fits the field the encoding gives it, and that an engine's word is read back from its opcode and fields. -/

namespace Sys2Proof.Laws.Enc

open Machine

/-- An instruction is an SLK word whose opcode lies below the prefix's (R21, R50), a Citrine word (R244), a rule (R290),
or has no encoding of these; and Citrine words and rules are what their opcode and fields stand for. -/
def Statement (i : Instr) : Prop :=
  (∀ o f, slkParts i = some (o, f) → o < 0x1FE ∧ citParts i = none ∧ ruleParts i = none) ∧
  (∀ o c, citParts i = some (o, c) → o < 2 ^ 5 ∧ citInstr o c = some i ∧ slkParts i = none ∧ ruleParts i = none) ∧
  (∀ o r, ruleParts i = some (o, r) → o < 2 ^ 4 ∧ ruleInstr o r = some i ∧ slkParts i = none ∧ citParts i = none)

/-- An SLK word. -/
theorem of_slk {i : Instr} {o : Nat} {f : Slk} (h : slkParts i = some (o, f)) (hc : citParts i = none)
    (hr : ruleParts i = none) (ho : o < 0x1FE) : Statement i :=
  ⟨fun _ _ e => by cases h.symm.trans e; exact ⟨ho, hc, hr⟩, fun _ _ e => by (cases hc.symm.trans e),
    fun _ _ e => by (cases hr.symm.trans e)⟩
/-- A Citrine word. -/
theorem of_cit {i : Instr} {o : Nat} {c : Cit} (hs : slkParts i = none) (h : citParts i = some (o, c))
    (hr : ruleParts i = none) (ho : o < 2 ^ 5) (hi : citInstr o c = some i) : Statement i :=
  ⟨fun _ _ e => by (cases hs.symm.trans e), fun _ _ e => by cases h.symm.trans e; exact ⟨ho, hi, hs, hr⟩,
    fun _ _ e => by (cases hr.symm.trans e)⟩
/-- A rule. -/
theorem of_rule {i : Instr} {o : Nat} {r : Rule} (hs : slkParts i = none) (hc : citParts i = none)
    (h : ruleParts i = some (o, r)) (ho : o < 2 ^ 4) (hi : ruleInstr o r = some i) : Statement i :=
  ⟨fun _ _ e => by (cases hs.symm.trans e), fun _ _ e => by (cases hc.symm.trans e),
    fun _ _ e => by cases h.symm.trans e; exact ⟨ho, hi, hs, hc⟩⟩
/-- An event, or the prefix. -/
theorem of_none {i : Instr} (hs : slkParts i = none) (hc : citParts i = none) (hr : ruleParts i = none) : Statement i :=
  ⟨fun _ _ e => by (cases hs.symm.trans e), fun _ _ e => by (cases hc.symm.trans e), fun _ _ e => by (cases hr.symm.trans e)⟩

theorem nop (f : Slk) : Statement (.nop f) := of_slk rfl rfl rfl (by decide)
theorem iadd (f : Slk) : Statement (.iadd f) := of_slk rfl rfl rfl (by decide)
theorem isub (f : Slk) : Statement (.isub f) := of_slk rfl rfl rfl (by decide)
theorem imul (f : Slk) : Statement (.imul f) := of_slk rfl rfl rfl (by decide)
theorem imulh (f : Slk) : Statement (.imulh f) := of_slk rfl rfl rfl (by decide)
theorem imad (f : Slk) : Statement (.imad f) := of_slk rfl rfl rfl (by decide)
theorem iabs (f : Slk) : Statement (.iabs f) := of_slk rfl rfl rfl (by decide)
theorem imin (f : Slk) : Statement (.imin f) := of_slk rfl rfl rfl (by decide)
theorem imax (f : Slk) : Statement (.imax f) := of_slk rfl rfl rfl (by decide)
theorem ishl (f : Slk) : Statement (.ishl f) := of_slk rfl rfl rfl (by decide)
theorem ishr (f : Slk) : Statement (.ishr f) := of_slk rfl rfl rfl (by decide)
theorem isra (f : Slk) : Statement (.isra f) := of_slk rfl rfl rfl (by decide)
theorem irot (f : Slk) : Statement (.irot f) := of_slk rfl rfl rfl (by decide)
theorem and (f : Slk) : Statement (.and f) := of_slk rfl rfl rfl (by decide)
theorem or (f : Slk) : Statement (.or f) := of_slk rfl rfl rfl (by decide)
theorem xor (f : Slk) : Statement (.xor f) := of_slk rfl rfl rfl (by decide)
theorem andn (f : Slk) : Statement (.andn f) := of_slk rfl rfl rfl (by decide)
theorem popc (f : Slk) : Statement (.popc f) := of_slk rfl rfl rfl (by decide)
theorem clz (f : Slk) : Statement (.clz f) := of_slk rfl rfl rfl (by decide)
theorem ctz (f : Slk) : Statement (.ctz f) := of_slk rfl rfl rfl (by decide)
theorem brev (f : Slk) : Statement (.brev f) := of_slk rfl rfl rfl (by decide)
theorem bfx (f : Slk) : Statement (.bfx f) := of_slk rfl rfl rfl (by decide)
theorem bfi (f : Slk) : Statement (.bfi f) := of_slk rfl rfl rfl (by decide)
theorem lea (f : Slk) : Statement (.lea f) := of_slk rfl rfl rfl (by decide)
theorem icmp (f : Slk) : Statement (.icmp f) := of_slk rfl rfl rfl (by decide)
theorem sel (f : Slk) : Statement (.sel f) := of_slk rfl rfl rfl (by decide)
theorem mov (f : Slk) : Statement (.mov f) := of_slk rfl rfl rfl (by decide)
theorem movi (f : Slk) : Statement (.movi f) := of_slk rfl rfl rfl (by decide)
theorem srd (f : Slk) : Statement (.srd f) := of_slk rfl rfl rfl (by decide)
theorem swr (f : Slk) : Statement (.swr f) := of_slk rfl rfl rfl (by decide)
theorem rdlane (f : Slk) : Statement (.rdlane f) := of_slk rfl rfl rfl (by decide)
theorem wrlane (f : Slk) : Statement (.wrlane f) := of_slk rfl rfl rfl (by decide)
theorem fadd (f : Slk) : Statement (.fadd f) := of_slk rfl rfl rfl (by decide)
theorem fsub (f : Slk) : Statement (.fsub f) := of_slk rfl rfl rfl (by decide)
theorem fmul (f : Slk) : Statement (.fmul f) := of_slk rfl rfl rfl (by decide)
theorem ffma (f : Slk) : Statement (.ffma f) := of_slk rfl rfl rfl (by decide)
theorem fmin (f : Slk) : Statement (.fmin f) := of_slk rfl rfl rfl (by decide)
theorem fmax (f : Slk) : Statement (.fmax f) := of_slk rfl rfl rfl (by decide)
theorem fcmp (f : Slk) : Statement (.fcmp f) := of_slk rfl rfl rfl (by decide)
theorem fclass (f : Slk) : Statement (.fclass f) := of_slk rfl rfl rfl (by decide)
theorem frnd (f : Slk) : Statement (.frnd f) := of_slk rfl rfl rfl (by decide)
theorem fdot2 (f : Slk) : Statement (.fdot2 f) := of_slk rfl rfl rfl (by decide)
theorem frcp (f : Slk) : Statement (.frcp f) := of_slk rfl rfl rfl (by decide)
theorem frsq (f : Slk) : Statement (.frsq f) := of_slk rfl rfl rfl (by decide)
theorem fsqrt (f : Slk) : Statement (.fsqrt f) := of_slk rfl rfl rfl (by decide)
theorem fexp2 (f : Slk) : Statement (.fexp2 f) := of_slk rfl rfl rfl (by decide)
theorem flog2 (f : Slk) : Statement (.flog2 f) := of_slk rfl rfl rfl (by decide)
theorem fsin (f : Slk) : Statement (.fsin f) := of_slk rfl rfl rfl (by decide)
theorem fcos (f : Slk) : Statement (.fcos f) := of_slk rfl rfl rfl (by decide)
theorem ftanh (f : Slk) : Statement (.ftanh f) := of_slk rfl rfl rfl (by decide)
theorem cvt (f : Slk) : Statement (.cvt f) := of_slk rfl rfl rfl (by decide)
theorem qblk (f : Slk) : Statement (.qblk f) := of_slk rfl rfl rfl (by decide)
theorem dqblk (f : Slk) : Statement (.dqblk f) := of_slk rfl rfl rfl (by decide)
theorem bpk (f : Slk) : Statement (.bpk f) := of_slk rfl rfl rfl (by decide)
theorem bupk (f : Slk) : Statement (.bupk f) := of_slk rfl rfl rfl (by decide)
theorem shfl (f : Slk) : Statement (.shfl f) := of_slk rfl rfl rfl (by decide)
theorem ballot (f : Slk) : Statement (.ballot f) := of_slk rfl rfl rfl (by decide)
theorem vote (f : Slk) : Statement (.vote f) := of_slk rfl rfl rfl (by decide)
theorem plog (f : Slk) : Statement (.plog f) := of_slk rfl rfl rfl (by decide)
theorem redx (f : Slk) : Statement (.redx f) := of_slk rfl rfl rfl (by decide)
theorem scan (f : Slk) : Statement (.scan f) := of_slk rfl rfl rfl (by decide)
theorem ldl (f : Slk) : Statement (.ldl f) := of_slk rfl rfl rfl (by decide)
theorem stl (f : Slk) : Statement (.stl f) := of_slk rfl rfl rfl (by decide)
theorem ldg (f : Slk) : Statement (.ldg f) := of_slk rfl rfl rfl (by decide)
theorem stg (f : Slk) : Statement (.stg f) := of_slk rfl rfl rfl (by decide)
theorem ldc (f : Slk) : Statement (.ldc f) := of_slk rfl rfl rfl (by decide)
theorem bset (f : Slk) : Statement (.bset f) := of_slk rfl rfl rfl (by decide)
theorem atoml (f : Slk) : Statement (.atoml f) := of_slk rfl rfl rfl (by decide)
theorem pfg (f : Slk) : Statement (.pfg f) := of_slk rfl rfl rfl (by decide)
theorem wbr (f : Slk) : Statement (.wbr f) := of_slk rfl rfl rfl (by decide)
theorem invr (f : Slk) : Statement (.invr f) := of_slk rfl rfl rfl (by decide)
theorem invrL1 (f : Slk) : Statement (.invrL1 f) := of_slk rfl rfl rfl (by decide)
theorem fenceAcq (f : Slk) : Statement (.fenceAcq f) := of_slk rfl rfl rfl (by decide)
theorem fenceRel (f : Slk) : Statement (.fenceRel f) := of_slk rfl rfl rfl (by decide)
theorem fenceAr (f : Slk) : Statement (.fenceAr f) := of_slk rfl rfl rfl (by decide)
theorem fenceMs (f : Slk) : Statement (.fenceMs f) := of_slk rfl rfl rfl (by decide)
theorem ifence (f : Slk) : Statement (.ifence f) := of_slk rfl rfl rfl (by decide)
theorem rgnOpen (f : Slk) : Statement (.rgnOpen f) := of_slk rfl rfl rfl (by decide)
theorem rgnClose (f : Slk) : Statement (.rgnClose f) := of_slk rfl rfl rfl (by decide)
theorem atomg (f : Slk) : Statement (.atomg f) := of_slk rfl rfl rfl (by decide)
theorem gath (f : Slk) : Statement (.gath f) := of_slk rfl rfl rfl (by decide)
theorem scat (f : Slk) : Statement (.scat f) := of_slk rfl rfl rfl (by decide)
theorem gathList (f : Slk) : Statement (.gathList f) := of_slk rfl rfl rfl (by decide)
theorem scatList (f : Slk) : Statement (.scatList f) := of_slk rfl rfl rfl (by decide)
theorem mst (f : Slk) : Statement (.mst f) := of_slk rfl rfl rfl (by decide)
theorem walk (f : Slk) : Statement (.walk f) := of_slk rfl rfl rfl (by decide)
theorem wprog (f : Slk) : Statement (.wprog f) := of_slk rfl rfl rfl (by decide)
theorem wst (f : Slk) : Statement (.wst f) := of_slk rfl rfl rfl (by decide)
theorem wres (f : Slk) : Statement (.wres f) := of_slk rfl rfl rfl (by decide)
theorem ccfg (f : Slk) : Statement (.ccfg f) := of_slk rfl rfl rfl (by decide)
theorem cins (f : Slk) : Statement (.cins f) := of_slk rfl rfl rfl (by decide)
theorem cnear (f : Slk) : Statement (.cnear f) := of_slk rfl rfl rfl (by decide)
theorem cmrg (f : Slk) : Statement (.cmrg f) := of_slk rfl rfl rfl (by decide)
theorem crd (f : Slk) : Statement (.crd f) := of_slk rfl rfl rfl (by decide)
theorem cclr (f : Slk) : Statement (.cclr f) := of_slk rfl rfl rfl (by decide)
theorem cdump (f : Slk) : Statement (.cdump f) := of_slk rfl rfl rfl (by decide)
theorem anot (f : Slk) : Statement (.anot f) := of_slk rfl rfl rfl (by decide)
theorem binit (f : Slk) : Statement (.binit f) := of_slk rfl rfl rfl (by decide)
theorem bexp (f : Slk) : Statement (.bexp f) := of_slk rfl rfl rfl (by decide)
theorem barv (f : Slk) : Statement (.barv f) := of_slk rfl rfl rfl (by decide)
theorem bwait (f : Slk) : Statement (.bwait f) := of_slk rfl rfl rfl (by decide)
theorem btry (f : Slk) : Statement (.btry f) := of_slk rfl rfl rfl (by decide)
theorem bst (f : Slk) : Statement (.bst f) := of_slk rfl rfl rfl (by decide)
theorem barrierWaitWake (g : Gid) : Statement (.barrierWaitWake g) := of_none rfl rfl rfl
theorem cbinit (f : Slk) : Statement (.cbinit f) := of_slk rfl rfl rfl (by decide)
theorem cbget (f : Slk) : Statement (.cbget f) := of_slk rfl rfl rfl (by decide)
theorem cbgetClaim (f : Slk) : Statement (.cbgetClaim f) := of_slk rfl rfl rfl (by decide)
theorem cbputDone (f : Slk) : Statement (.cbputDone f) := of_slk rfl rfl rfl (by decide)
theorem cbputFill (f : Slk) : Statement (.cbputFill f) := of_slk rfl rfl rfl (by decide)
theorem cbufWaitWake (g : Gid) : Statement (.cbufWaitWake g) := of_none rfl rfl rfl
theorem marm (f : Slk) : Statement (.marm f) := of_slk rfl rfl rfl (by decide)
theorem marmLoc (f : Slk) : Statement (.marmLoc f) := of_slk rfl rfl rfl (by decide)
theorem marmOff (f : Slk) : Statement (.marmOff f) := of_slk rfl rfl rfl (by decide)
theorem mwait (f : Slk) : Statement (.mwait f) := of_slk rfl rfl rfl (by decide)
theorem mwaitWake (g : Gid) (m : Nat) : Statement (.mwaitWake g m) := of_none rfl rfl rfl
theorem mwaitTimeout (g : Gid) : Statement (.mwaitTimeout g) := of_none rfl rfl rfl
theorem tbar (f : Slk) : Statement (.tbar f) := of_slk rfl rfl rfl (by decide)
theorem tbarRelease (team : Nat) : Statement (.tbarRelease team) := of_none rfl rfl rfl
theorem orsv (f : Slk) : Statement (.orsv f) := of_slk rfl rfl rfl (by decide)
theorem orel (f : Slk) : Statement (.orel f) := of_slk rfl rfl rfl (by decide)
theorem mzero (f : Slk) : Statement (.mzero f) := of_slk rfl rfl rfl (by decide)
theorem mma (f : Slk) : Statement (.mma f) := of_slk rfl rfl rfl (by decide)
theorem mmab (f : Slk) : Statement (.mmab f) := of_slk rfl rfl rfl (by decide)
theorem mmas (f : Slk) : Statement (.mmas f) := of_slk rfl rfl rfl (by decide)
theorem mwt (f : Slk) : Statement (.mwt f) := of_slk rfl rfl rfl (by decide)
theorem mstat (f : Slk) : Statement (.mstat f) := of_slk rfl rfl rfl (by decide)
theorem matrixRowComplete (id : Nat) : Statement (.matrixRowComplete id) := of_none rfl rfl rfl
theorem matrixRetire (id : Nat) : Statement (.matrixRetire id) := of_none rfl rfl rfl
theorem matrixResume (id : Nat) : Statement (.matrixResume id) := of_none rfl rfl rfl
theorem mdrain (f : Slk) : Statement (.mdrain f) := of_slk rfl rfl rfl (by decide)
theorem mprog (f : Slk) : Statement (.mprog f) := of_slk rfl rfl rfl (by decide)
theorem tkrd (f : Slk) : Statement (.tkrd f) := of_slk rfl rfl rfl (by decide)
theorem tkclr (f : Slk) : Statement (.tkclr f) := of_slk rfl rfl rfl (by decide)
theorem drainStart (core : Nat) : Statement (.drainStart core) := of_none rfl rfl rfl
theorem drainRowCommit (core : Nat) : Statement (.drainRowCommit core) := of_none rfl rfl rfl
theorem drainRetire (core : Nat) : Statement (.drainRetire core) := of_none rfl rfl rfl
theorem citEnd (c : Cit) : Statement (.citEnd c) := of_cit rfl rfl rfl (by decide) rfl
theorem citMov (c : Cit) : Statement (.citMov c) := of_cit rfl rfl rfl (by decide) rfl
theorem citLdk (c : Cit) : Statement (.citLdk c) := of_cit rfl rfl rfl (by decide) rfl
theorem citLdr (c : Cit) : Statement (.citLdr c) := of_cit rfl rfl rfl (by decide) rfl
theorem citLdv (c : Cit) : Statement (.citLdv c) := of_cit rfl rfl rfl (by decide) rfl
theorem citAdd (c : Cit) : Statement (.citAdd c) := of_cit rfl rfl rfl (by decide) rfl
theorem citMul (c : Cit) : Statement (.citMul c) := of_cit rfl rfl rfl (by decide) rfl
theorem citFma (c : Cit) : Statement (.citFma c) := of_cit rfl rfl rfl (by decide) rfl
theorem citMax (c : Cit) : Statement (.citMax c) := of_cit rfl rfl rfl (by decide) rfl
theorem citBias (c : Cit) : Statement (.citBias c) := of_cit rfl rfl rfl (by decide) rfl
theorem citScale (c : Cit) : Statement (.citScale c) := of_cit rfl rfl rfl (by decide) rfl
theorem citClamp (c : Cit) : Statement (.citClamp c) := of_cit rfl rfl rfl (by decide) rfl
theorem citRelu (c : Cit) : Statement (.citRelu c) := of_cit rfl rfl rfl (by decide) rfl
theorem citGelu (c : Cit) : Statement (.citGelu c) := of_cit rfl rfl rfl (by decide) rfl
theorem citSilu (c : Cit) : Statement (.citSilu c) := of_cit rfl rfl rfl (by decide) rfl
theorem citTsc (c : Cit) : Statement (.citTsc c) := of_cit rfl rfl rfl (by decide) rfl
theorem citCvt (c : Cit) : Statement (.citCvt c) := of_cit rfl rfl rfl (by decide) rfl
theorem citTopk (c : Cit) : Statement (.citTopk c) := of_cit rfl rfl rfl (by decide) rfl
theorem citSpack (c : Cit) : Statement (.citSpack c) := of_cit rfl rfl rfl (by decide) rfl
theorem citStore (c : Cit) : Statement (.citStore c) := of_cit rfl rfl rfl (by decide) rfl
theorem rcnt (f : Slk) : Statement (.rcnt f) := of_slk rfl rfl rfl (by decide)
theorem rcsnap (f : Slk) : Statement (.rcsnap f) := of_slk rfl rfl rfl (by decide)
theorem xpref (f : Slk) : Statement (.xpref f) := of_slk rfl rfl rfl (by decide)
theorem xtrain (f : Slk) : Statement (.xtrain f) := of_slk rfl rfl rfl (by decide)
theorem xtrainDecay (f : Slk) : Statement (.xtrainDecay f) := of_slk rfl rfl rfl (by decide)
theorem nfsig (f : Slk) : Statement (.nfsig f) := of_slk rfl rfl rfl (by decide)
theorem glaunch (f : Slk) : Statement (.glaunch f) := of_slk rfl rfl rfl (by decide)
theorem setw (f : Slk) : Statement (.setw f) := of_slk rfl rfl rfl (by decide)
theorem setwseq (team : Nat) : Statement (.setwseq team) := of_none rfl rfl rfl
theorem regx (f : Slk) : Statement (.regx f) := of_slk rfl rfl rfl (by decide)
theorem regr (f : Slk) : Statement (.regr f) := of_slk rfl rfl rfl (by decide)
theorem regxGrant (core : Nat) : Statement (.regxGrant core) := of_none rfl rfl rfl
theorem regxDenial (core : Nat) : Statement (.regxDenial core) := of_none rfl rfl rfl
theorem bra (f : Slk) : Statement (.bra f) := of_slk rfl rfl rfl (by decide)
theorem jmpi (f : Slk) : Statement (.jmpi f) := of_slk rfl rfl rfl (by decide)
theorem jmpiTab (f : Slk) : Statement (.jmpiTab f) := of_slk rfl rfl rfl (by decide)
theorem call (f : Slk) : Statement (.call f) := of_slk rfl rfl rfl (by decide)
theorem ret (f : Slk) : Statement (.ret f) := of_slk rfl rfl rfl (by decide)
theorem ipf (f : Slk) : Statement (.ipf f) := of_slk rfl rfl rfl (by decide)
theorem dist (f : Slk) : Statement (.dist f) := of_slk rfl rfl rfl (by decide)
theorem dnext (f : Slk) : Statement (.dnext f) := of_slk rfl rfl rfl (by decide)
theorem dleave (f : Slk) : Statement (.dleave f) := of_slk rfl rfl rfl (by decide)
theorem dbrk (f : Slk) : Statement (.dbrk f) := of_slk rfl rfl rfl (by decide)
theorem exit (f : Slk) : Statement (.exit f) := of_slk rfl rfl rfl (by decide)
theorem yield (f : Slk) : Statement (.yield f) := of_slk rfl rfl rfl (by decide)
theorem trap (f : Slk) : Statement (.trap f) := of_slk rfl rfl rfl (by decide)
theorem brk (f : Slk) : Statement (.brk f) := of_slk rfl rfl rfl (by decide)
theorem tret (f : Slk) : Statement (.tret f) := of_slk rfl rfl rfl (by decide)
theorem tretNext (f : Slk) : Statement (.tretNext f) := of_slk rfl rfl rfl (by decide)
theorem rep (p : Pfx) : Statement (.rep p) := of_none rfl rfl rfl
theorem longLatencyWrite (id : Nat) : Statement (.longLatencyWrite id) := of_none rfl rfl rfl
theorem agateRingTake (team ring : Nat) : Statement (.agateRingTake team ring) := of_none rfl rfl rfl
theorem cmdLoad (id : Nat) : Statement (.cmdLoad id) := of_none rfl rfl rfl
theorem cmdStore (id : Nat) : Statement (.cmdStore id) := of_none rfl rfl rfl
theorem cmdGcopy (id : Nat) : Statement (.cmdGcopy id) := of_none rfl rfl rfl
theorem cmdGatherRows (id : Nat) : Statement (.cmdGatherRows id) := of_none rfl rfl rfl
theorem cmdScatterRows (id : Nat) : Statement (.cmdScatterRows id) := of_none rfl rfl rfl
theorem cmdFill (id : Nat) : Statement (.cmdFill id) := of_none rfl rfl rfl
theorem cmdMcastLoad (id : Nat) : Statement (.cmdMcastLoad id) := of_none rfl rfl rfl
theorem copyCompletion (id : Nat) : Statement (.copyCompletion id) := of_none rfl rfl rfl
theorem copyResume (id : Nat) : Statement (.copyResume id) := of_none rfl rfl rfl
theorem sliceAtomicApply (id half : Nat) : Statement (.sliceAtomicApply id half) := of_none rfl rfl rfl
theorem garnetElement (id : Nat) : Statement (.garnetElement id) := of_none rfl rfl rfl
theorem garnetSuspendResume (id : Nat) : Statement (.garnetSuspendResume id) := of_none rfl rfl rfl
theorem peridotHomeWriteback (id : Nat) : Statement (.peridotHomeWriteback id) := of_none rfl rfl rfl
theorem peridotOperation (id : Nat) : Statement (.peridotOperation id) := of_none rfl rfl rfl
theorem jLdcmp (r : Rule) : Statement (.jLdcmp r) := of_rule rfl rfl rfl (by decide) rfl
theorem jLdcmpi (r : Rule) : Statement (.jLdcmpi r) := of_rule rfl rfl rfl (by decide) rfl
theorem jFollow (r : Rule) : Statement (.jFollow r) := of_rule rfl rfl rfl (by decide) rfl
theorem jSelect (r : Rule) : Statement (.jSelect r) := of_rule rfl rfl rfl (by decide) rfl
theorem jReturn (r : Rule) : Statement (.jReturn r) := of_rule rfl rfl rfl (by decide) rfl
theorem jMiss (r : Rule) : Statement (.jMiss r) := of_rule rfl rfl rfl (by decide) rfl
theorem walkForward (id : Nat) : Statement (.walkForward id) := of_none rfl rfl rfl
theorem walkParkResume (id : Nat) : Statement (.walkParkResume id) := of_none rfl rfl rfl
theorem berylPerform (id : Nat) : Statement (.berylPerform id) := of_none rfl rfl rfl
theorem cdumpResume (id : Nat) : Statement (.cdumpResume id) := of_none rfl rfl rfl
theorem drained (ctx : Nat) : Statement (.drained ctx) := of_none rfl rfl rfl
theorem dims (ctx q : Nat) : Statement (.dims ctx q) := of_none rfl rfl rfl
theorem fenceWaitMet (ctx q : Nat) : Statement (.fenceWaitMet ctx q) := of_none rfl rfl rfl
theorem nopRecord (ctx q : Nat) : Statement (.nopRecord ctx q) := of_none rfl rfl rfl
theorem launchRecord (ctx q : Nat) : Statement (.launchRecord ctx q) := of_none rfl rfl rfl
theorem signalRecord (ctx q : Nat) : Statement (.signalRecord ctx q) := of_none rfl rfl rfl
theorem gridComplete (grid : Nat) : Statement (.gridComplete grid) := of_none rfl rfl rfl
theorem dispatchBind (core entry : Nat) : Statement (.dispatchBind core entry) := of_none rfl rfl rfl
theorem fillComplete (core entry : Nat) : Statement (.fillComplete core entry) := of_none rfl rfl rfl
theorem teamEnd (team : Nat) : Statement (.teamEnd team) := of_none rfl rfl rfl
theorem storeCacheLevelAccept (id : Nat) : Statement (.storeCacheLevelAccept id) := of_none rfl rfl rfl
theorem remoteStlPerformed (id : Nat) : Statement (.remoteStlPerformed id) := of_none rfl rfl rfl
theorem rcntApply (id : Nat) : Statement (.rcntApply id) := of_none rfl rfl rfl
theorem l1Fill (core loc : Nat) : Statement (.l1Fill core loc) := of_none rfl rfl rfl
theorem l2Fill (loc : Nat) : Statement (.l2Fill loc) := of_none rfl rfl rfl
theorem l2Eviction (loc : Nat) : Statement (.l2Eviction loc) := of_none rfl rfl rfl
theorem rdcWriteback (die loc : Nat) : Statement (.rdcWriteback die loc) := of_none rfl rfl rfl
theorem controllerAccept (id : Nat) : Statement (.controllerAccept id) := of_none rfl rfl rfl
theorem patrolScrub (sector : Nat) : Statement (.patrolScrub sector) := of_none rfl rfl rfl
theorem rowSparing (stack row : Nat) : Statement (.rowSparing stack row) := of_none rfl rfl rfl
theorem channelSparing (stack channel : Nat) : Statement (.channelSparing stack channel) := of_none rfl rfl rfl
theorem hostWrite (loc : Nat) (data : LinkBytes) : Statement (.hostWrite loc data) := of_none rfl rfl rfl
theorem hostRead (loc len : Nat) (cache : Bool) : Statement (.hostRead loc len cache) := of_none rfl rfl rfl
theorem peerWrite (loc : Nat) (data : LinkBytes) : Statement (.peerWrite loc data) := of_none rfl rfl rfl
theorem hostAtomicop (loc : Nat) (op : AtomicOp) (wide : Bool) (v cmp : DWord) : Statement (.hostAtomicop loc op wide v cmp) :=
  of_none rfl rfl rfl
theorem cxlSnoop (die loc : Nat) (inv : Bool) : Statement (.cxlSnoop die loc inv) := of_none rfl rfl rfl
theorem birsp (loc : Nat) (data : Option (LineData × Bool)) : Statement (.birsp loc data) := of_none rfl rfl rfl
theorem icacheFill (g : Gid) (va : DWord) : Statement (.icacheFill g va) := of_none rfl rfl rfl
theorem tlbShootdown (ctx : Nat) : Statement (.tlbShootdown ctx) := of_none rfl rfl rfl
theorem fans (ctx ord : Nat) (decline : Bool) : Statement (.fans ctx ord decline) := of_none rfl rfl rfl
theorem queueDoorbell (ctx q : Nat) (pub : Word) : Statement (.queueDoorbell ctx q pub) := of_none rfl rfl rfl
theorem queueStopClear (ctx q : Nat) : Statement (.queueStopClear ctx q) := of_none rfl rfl rfl
theorem slotEntryWrite (core entry : Nat) (v : BitVec 256) : Statement (.slotEntryWrite core entry v) :=
  of_none rfl rfl rfl
theorem pctlWrite (ctx : Nat) (v : Word) : Statement (.pctlWrite ctx v) := of_none rfl rfl rfl
theorem preemptLimitExpiry (ctx : Nat) : Statement (.preemptLimitExpiry ctx) := of_none rfl rfl rfl
theorem restore (ctx : Nat) (binds : List RestoreBind) : Statement (.restore ctx binds) := of_none rfl rfl rfl
theorem unload (ctx code : Nat) (forced : Bool) : Statement (.unload ctx code forced) := of_none rfl rfl rfl
theorem forcedUnloadRestore (ctx image : Nat) : Statement (.forcedUnloadRestore ctx image) := of_none rfl rfl rfl
theorem cctlResume (ctx : Nat) : Statement (.cctlResume ctx) := of_none rfl rfl rfl
theorem wake (ctx : Nat) : Statement (.wake ctx) := of_none rfl rfl rfl
theorem measure (ctx : Nat) (sv : Word) (segs : List (DWord × DWord)) : Statement (.measure ctx sv segs) :=
  of_none rfl rfl rfl
theorem go : Statement (.go) := of_none rfl rfl rfl
theorem hbmReady : Statement (.hbmReady) := of_none rfl rfl rfl
theorem monitorConfigWrite (die m : Nat) (v : Word) : Statement (.monitorConfigWrite die m v) := of_none rfl rfl rfl
theorem monitorRscRead (die m off : Nat) : Statement (.monitorRscRead die m off) := of_none rfl rfl rfl
theorem monitorSample (die m : Nat) (v : Word) : Statement (.monitorSample die m v) := of_none rfl rfl rfl
theorem mgmtRegisterWrite (off size : Nat) (v : DWord) : Statement (.mgmtRegisterWrite off size v) :=
  of_none rfl rfl rfl
theorem powerControl (avg now : Nat) : Statement (.powerControl avg now) := of_none rfl rfl rfl
theorem thermalThrottle (die junction coolant : Nat) : Statement (.thermalThrottle die junction coolant) :=
  of_none rfl rfl rfl
theorem watchdogExpiry (die hart : Nat) : Statement (.watchdogExpiry die hart) := of_none rfl rfl rfl
theorem spareCoreSubstitution (core : Nat) : Statement (.spareCoreSubstitution core) := of_none rfl rfl rfl
theorem sliceRetire (die slice : Nat) : Statement (.sliceRetire die slice) := of_none rfl rfl rfl
theorem bankCarve (bank ways : Nat) : Statement (.bankCarve bank ways) := of_none rfl rfl rfl
theorem sliceFailure (die slice : Nat) : Statement (.sliceFailure die slice) := of_none rfl rfl rfl
theorem linkLaneDrop (die link : Nat) : Statement (.linkLaneDrop die link) := of_none rfl rfl rfl
theorem getVersion : Statement (.getVersion) := of_none rfl rfl rfl
theorem getCapabilities : Statement (.getCapabilities) := of_none rfl rfl rfl
theorem negotiateAlgorithms : Statement (.negotiateAlgorithms) := of_none rfl rfl rfl
theorem getDigests : Statement (.getDigests) := of_none rfl rfl rfl
theorem getCertificate (slot : Nat) : Statement (.getCertificate slot) := of_none rfl rfl rfl
theorem challenge (nonce : List Byte) : Statement (.challenge nonce) := of_none rfl rfl rfl
theorem getMeasurements (index : Nat) (nonce : List Byte) : Statement (.getMeasurements index nonce) :=
  of_none rfl rfl rfl
theorem setCertificate (slot : Nat) (chain : List Byte) : Statement (.setCertificate slot chain) :=
  of_none rfl rfl rfl
theorem deviceReset : Statement (.deviceReset) := of_none rfl rfl rfl
theorem recoveryImage (img : FwImage) : Statement (.recoveryImage img) := of_none rfl rfl rfl
theorem enrolOwnerKey (slot : Nat) (key signer : BitVec 256) (sig : List Byte) : Statement (.enrolOwnerKey slot key signer sig) :=
  of_none rfl rfl rfl
theorem advance (signer : BitVec 256) (sig : List Byte) : Statement (.advance signer sig) := of_none rfl rfl rfl
theorem contextCreation (ctx : Nat) (sys : Bool) : Statement (.contextCreation ctx sys) := of_none rfl rfl rfl
theorem contextKill (ctx : Nat) : Statement (.contextKill ctx) := of_none rfl rfl rfl
theorem rdcFill (die loc : Nat) : Statement (.rdcFill die loc) := of_none rfl rfl rfl
theorem peerRead (loc len : Nat) : Statement (.peerRead loc len) := of_none rfl rfl rfl
theorem fqconsWrite (ctx : Nat) (v : Word) : Statement (.fqconsWrite ctx v) := of_none rfl rfl rfl
theorem owneronlySet : Statement (.owneronlySet) := of_none rfl rfl rfl
theorem activeGridHandover (grid : GridEntry) : Statement (.activeGridHandover grid) := of_none rfl rfl rfl

end Sys2Proof.Laws.Enc
end

