-- ==== Sys2Proof/Laws/Pool.lean ====
section
/-! SUPPORT. The laws of the pools: a write reaches no byte outside its range, and neither a read nor a write reaches
anything but the pools, their error states and the monitors. -/

namespace Sys2Proof.Machine

/-- Every segment lies in the range that is cut. -/
theorem mem_segsFrom {step f a n b m : Nat} (h : (b, m) ∈ segsFrom step f a n) : a ≤ b ∧ b + m ≤ a + n := by
  induction f generalizing a n with
  | zero => simp [segsFrom] at h
  | succ f ih =>
    unfold segsFrom at h
    split at h
    · simp at h
    · rcases List.mem_cons.1 h with h | h
      · cases h; omega
      · have := ih h; omega
/-- Every segment of a write lies in its range. -/
theorem mem_dataSegs {step a b : Nat} {bs d : List Byte} (h : (b, d) ∈ dataSegs step a bs) :
    a ≤ b ∧ b + d.length ≤ a + bs.length := by
  obtain ⟨⟨c, m⟩, hc, e⟩ := List.mem_map.1 h
  cases e
  have := mem_segsFrom hc
  simp only [List.length_take, List.length_drop]; omega
/-- Bytes put elsewhere leave a byte. -/
theorem rd_foldl_wr (l : List (Nat × Byte)) (m : Assoc Byte) (k j : Nat) (h : ∀ x ∈ l, k + x.1 ≠ j) :
    Assoc.rd 0 (l.foldl (fun m (i, b) => Assoc.wr 0 m (k + i) b) m) j = Assoc.rd 0 m j := by
  induction l generalizing m with
  | nil => rfl
  | cons x l ih =>
    rw [List.foldl_cons, ih _ fun y hy => h y (List.mem_cons_of_mem _ hy), Assoc.rd_wr,
      if_neg (Ne.symm (h x (List.mem_cons_self ..)))]
theorem poolWriteWord_other (s : State) (k j : Nat) (bs : List Byte) (h : j < k ∨ k + bs.length ≤ j) :
    Assoc.rd 0 (poolWriteWord s k bs).pool j = Assoc.rd 0 s.pool j := by
  have hx : ∀ x ∈ (List.range bs.length).zip bs, k + x.1 ≠ j := by
    intro x hx
    have := List.mem_range.1 (List.of_mem_zip (a := x.1) (b := x.2) hx).1
    omega
  unfold poolWriteWord; dsimp only
  repeat' split
  all_goals first | exact rd_foldl_wr _ _ _ _ hx | rfl
theorem foldl_fire_pool {α : Type} (g : α → Nat) (b : Bool) (l : List α) (s : State) :
    (l.foldl (fun s x => fire b (g x) s) s).pool = s.pool := by
  induction l generalizing s with
  | nil => rfl
  | cons x l ih => rw [List.foldl_cons, ih]; rfl
/-- A write to a pool leaves every byte outside its range (R132). -/
theorem poolWrite_other (s : State) (k j : Nat) (bs : List Byte) (h : j < k ∨ k + bs.length ≤ j) :
    Assoc.rd 0 (poolWrite s k bs).pool j = Assoc.rd 0 s.pool j := by
  unfold poolWrite
  dsimp only
  rw [foldl_fire_pool (fun x : Nat × Nat => x.1 / 64)]
  have hl : ∀ x ∈ dataSegs 8 k bs, j < x.1 ∨ x.1 + x.2.length ≤ j := fun x hx => by
    have := mem_dataSegs (b := x.1) (d := x.2) hx; omega
  generalize dataSegs 8 k bs = l at hl
  induction l generalizing s with
  | nil => rfl
  | cons x l ih =>
    rw [List.foldl_cons, ih _ fun y hy => hl y (List.mem_cons_of_mem _ hy)]
    exact poolWriteWord_other _ _ _ _ (hl x (List.mem_cons_self ..))
/-- Counting corrected words changes no byte of a pool and none of memory. -/
@[simp] theorem countPool_pool (c : Nat) (s : State) (ws : List Nat) : (countPool c s ws).pool = s.pool := by
  unfold countPool
  induction ws generalizing s with
  | nil => rfl
  | cons w ws ih => rw [List.foldl_cons, ih]; rfl
@[simp] theorem countPool_mem (c : Nat) (s : State) (ws : List Nat) : (countPool c s ws).mem = s.mem := by
  unfold countPool
  induction ws generalizing s with
  | nil => rfl
  | cons w ws ih => rw [List.foldl_cons, ih]; rfl
/-- Correcting and poisoning words changes no byte of a pool and none of memory. -/
@[simp] theorem poolFix_pool (s : State) (k n : Nat) : (poolFix s k n).pool = s.pool := countPool_pool ..
@[simp] theorem poolFix_mem (s : State) (k n : Nat) : (poolFix s k n).mem = s.mem := countPool_mem ..
/-- A read of a pool changes no byte of it. -/
@[simp] theorem poolRead_pool (s : State) (k n : Nat) : (poolRead s k n).1.pool = s.pool := by
  simp [poolRead]
@[simp] theorem poolRead_mem (s : State) (k n : Nat) : (poolRead s k n).1.mem = s.mem := by
  simp [poolRead]
@[simp] theorem poolWriteWord_mem (s : State) (k : Nat) (bs : List Byte) : (poolWriteWord s k bs).mem = s.mem := by
  unfold poolWriteWord; dsimp only
  repeat' split
  all_goals rfl
/-- A write to a pool changes no byte of memory. -/
@[simp] theorem poolWrite_mem (s : State) (k : Nat) (bs : List Byte) : (poolWrite s k bs).mem = s.mem := by
  unfold poolWrite; dsimp only
  have hf : ∀ (l : List (Nat × Nat)) (s : State), (l.foldl (fun s (a, _) => fire true (a / 64) s) s).mem = s.mem := by
    intro l; induction l with
    | nil => intro s; rfl
    | cons x l ih => intro s; rw [List.foldl_cons, ih]; rfl
  rw [hf]
  generalize dataSegs 8 k bs = l
  induction l generalizing s with
  | nil => rfl
  | cons x l ih => rw [List.foldl_cons, ih]; simp
/-- The bytes of a pool read one by one. -/
theorem poolBytes_getElem? (s : State) (k n i : Nat) (h : i < n) :
    (poolBytes s k n)[i]? = some (Assoc.rd 0 s.pool (k + i)) := by
  induction n generalizing k i with
  | zero => omega
  | succ n ih =>
    cases i with
    | zero => rfl
    | succ i =>
      have := ih (k + 1) i (by omega)
      simp only [poolBytes, List.getElem?_cons_succ, this]
      congr 2; omega

end Sys2Proof.Machine
end

