-- ==== Sys2Proof/Laws/Traps.lean ====
section
/-! SUPPORT. The laws of posted stores, events, regions, traps and issue: where a trap goes, and that none of them takes
memory out of its canonical form. -/

namespace Sys2Proof.Machine

/-! ### Entry and return (R409, R414) -/

/-- A trap of a group that can enter its handler, with no region open: the saved registers, and the handler's pc. -/
theorem takeTrap_enters {s : State} {g : Gid} {e : Env} (t : Trap) (he : env? s g = some e) (hr : e.grp.region = none)
    (hi : e.grp.inTrap = false) (hv : e.grp.noVector = false) :
    takeTrap g t s = modGroup g (fun x => { x with
      cond := .ready, haz := [], relMark := none, launch := none
      trapPc := e.grp.pc, trapAddr := BitVec.ofNat 64 t.addr, trapInfo := t.info false
      faultOrd := t.ord.map fun o => (o, t.addr, t.acc, t.lane), pc := x.tvec }) s := by
  have hc : commitRegion g s = s := by simp only [commitRegion, he, hr]
  simp [takeTrap, takeTrapAt, he, hr, hc, hi, hv]
/-- With no region open there is nothing to commit (R402). -/
theorem commitRegion_none {s : State} {g : Gid} {e : Env} (he : env? s g = some e) (hr : e.grp.region = none) :
    commitRegion g s = s := by simp only [commitRegion, he, hr]
/-- A return outside a handler traps (R414). -/
theorem takeTret_outside {s : State} {g : Gid} {e : Env} (b : Bool) (he : env? s g = some e) (hi : e.grp.inTrap = false) :
    takeTret g b s = takeTrap g { cause := 0x06, detail := 0x07 } s := by simp [takeTret, he, hi]

/-! ### What each keeps -/

theorem modGroup_keepsForm (g : Gid) (f : Group → Group) (s : State) : KeepsForm s (modGroup g f s) := .of_mem rfl
theorem l1DropRange_mem (c loc n : Nat) (s : State) : (l1DropRange c loc n s).mem = s.mem := by
  unfold l1DropRange
  generalize segs 128 loc n = l
  induction l generalizing s with
  | nil => rfl
  | cons x l ih => rw [List.foldl_cons, ih]; rfl
/-- A store on its way has changed no byte of memory. -/
@[simp] theorem issueStore_mem (g : Gid) (c k : Nat) (st : Store) (s : State) : (issueStore g c k st s).mem = s.mem := by
  unfold issueStore; dsimp only
  repeat' split
  all_goals simp [l1DropRange_mem]
theorem putRecord_keepsForm (a i : Nat) (bs : List Byte) (s : State) : KeepsForm s (putRecord a i bs s) := by
  unfold putRecord; dsimp only; split
  · exact (hostPast_keepsForm ..).trans (homeWrite_keepsForm ..)
  · exact .refl _
theorem setCtx_keepsForm (c : Nat) (x : Ctx) (s : State) : KeepsForm s (s.setCtx c x) := .of_mem rfl
theorem publishEvent_keepsForm (c : Nat) (s : State) : KeepsForm s (publishEvent c s) :=
  ⟨fun h => (putRecord_keepsForm _ _ _ s).wf h⟩
theorem publishEvents_keepsForm (c n : Nat) (s : State) : KeepsForm s (publishEvents c n s) := by
  induction n generalizing s with
  | zero => exact .refl _
  | succ n ih =>
    unfold publishEvents; dsimp only; split
    · exact .of_mem rfl
    · exact (publishEvent_keepsForm c s).trans (ih _)
theorem postEvent_keepsForm (c k : Nat) (d : List DWord) (s : State) : KeepsForm s (postEvent c k d s) :=
  (setCtx_keepsForm c _ s).trans (publishEvents_keepsForm ..)
theorem publishFault_keepsForm (c : Nat) (f : FaultRec) (s : State) : KeepsForm s (publishFault c f s) :=
  ⟨fun h => (putRecord_keepsForm _ _ _ s).wf h⟩
theorem publishFaults_keepsForm (c : Nat) (fs : List FaultRec) (s : State) : KeepsForm s (publishFaults c fs s) := by
  induction fs generalizing s with
  | nil => exact .refl _
  | cons f fs ih =>
    unfold publishFaults; dsimp only; split
    · exact .of_mem rfl
    · exact (setCtx_keepsForm c _ s).trans ((publishFault_keepsForm c f _).trans (ih _))
/-- A context's queues publish what they keep back, and memory stays in its form. -/
theorem settleCtx_keepsForm (c : Nat) (s : State) : KeepsForm s (settleCtx c s) :=
  (publishFaults_keepsForm ..).trans (publishEvents_keepsForm ..)
theorem postFault_keepsForm (c va acc a : Nat) (s : State) : KeepsForm s (postFault c va acc a s).1 := by
  unfold postFault; dsimp only; split
  · exact .refl _
  · exact (setCtx_keepsForm c _ s).trans (publishFaults_keepsForm ..)
theorem commitRegion_keepsForm (g : Gid) (s : State) : KeepsForm s (commitRegion g s) := by
  unfold commitRegion; split
  · exact .refl _
  · split
    · exact .refl _
    · have h : KeepsForm s { s with pend := s.pend.map (Pend.settle g) } := .of_mem rfl
      exact h.trans ((modGroup_keepsForm ..).trans (KeepsForm.foldl _ (fun _ _ => .of_mem (issueStore_mem ..)) _ _))
theorem abortRegion_keepsForm (g : Gid) (s : State) : KeepsForm s (abortRegion g s) := .of_mem rfl
theorem takeTrapAt_keepsForm (g : Gid) (t : Trap) (pc : DWord) (b : Bool) (s : State) :
    KeepsForm s (takeTrapAt g t pc b s) := by
  unfold takeTrapAt; dsimp only; split
  · exact commitRegion_keepsForm ..
  · refine (commitRegion_keepsForm g s).trans ?_
    split
    · exact (modGroup_keepsForm ..).trans (postEvent_keepsForm ..)
    · exact modGroup_keepsForm ..
theorem takeTrap_keepsForm (g : Gid) (t : Trap) (s : State) : KeepsForm s (takeTrap g t s) := by
  unfold takeTrap; split
  · exact .refl _
  · exact takeTrapAt_keepsForm ..
theorem raiseTrap_keepsForm (g : Gid) (t : Trap) (s : State) : KeepsForm s (raiseTrap g t s) := by
  unfold raiseTrap; split
  · exact .refl _
  · split
    · split
      · exact (abortRegion_keepsForm g s).trans (modGroup_keepsForm ..)
      · exact takeTrap_keepsForm ..
    · exact takeTrap_keepsForm ..
theorem pageFault_keepsForm (g : Gid) (va acc l : Nat) (s : State) : KeepsForm s (pageFault g va acc l s) := by
  unfold pageFault; split
  · exact .refl _
  · dsimp only
    split
    · exact (postFault_keepsForm ..).trans (takeTrap_keepsForm ..)
    · exact (postFault_keepsForm ..).trans (modGroup_keepsForm ..)
theorem takeFault_keepsForm (g : Gid) (va acc l : Nat) (s : State) : KeepsForm s (takeFault g va acc l s) := by
  unfold takeFault; split
  · exact .refl _
  · split
    · exact (abortRegion_keepsForm g s).trans ((postFault_keepsForm ..).trans (.of_mem rfl))
    · exact pageFault_keepsForm ..
theorem takeTret_keepsForm (g : Gid) (b : Bool) (s : State) : KeepsForm s (takeTret g b s) := by
  unfold takeTret; split
  · exact .refl _
  · split
    · exact takeTrap_keepsForm ..
    · have h (f : Group → Group) := (commitRegion_keepsForm g s).trans (modGroup_keepsForm g f _)
      dsimp only
      split
      · split
        · exact h _
        · split
          · exact h _
          · exact (h _).trans (takeTrap_keepsForm ..)
          · exact (h _).trans (modGroup_keepsForm ..)
      · exact h _

/-! ### Issue -/

/-- The state a body's end carries. -/
def Res.st : Res → State
  | .done s | .goto s _ | .stay s | .wait s _ | .trap s _ | .fault s _ _ _ => s
theorem bumpFresh_mem (e : Env) (s : State) : (bumpFresh e s).mem = s.mem := by unfold bumpFresh; split <;> rfl
/-- The end of an instruction keeps the form of the state its body ends in. -/
theorem conclude_keepsForm (e : Env) (k : Nat) (r : Res) : KeepsForm r.st (conclude e k r) := by
  cases r <;> simp only [Res.st, conclude]
  · exact .of_mem (bumpFresh_mem ..)
  · exact .of_mem (bumpFresh_mem ..)
  · exact .of_mem (bumpFresh_mem ..)
  · exact .of_mem rfl
  · exact (raiseTrap_keepsForm ..).trans (.of_mem (bumpFresh_mem ..))
  · exact (takeFault_keepsForm ..).trans (.of_mem (bumpFresh_mem ..))
/-- Resolving the errors of registers changes no byte of memory (R121). -/
theorem resolveRegs_mem (e : Env) (ds : List RegDst) : (resolveRegs e ds).mem = e.st.mem := by
  have h (k : RegDst × Ecc → Nat × Nat × Nat) (l : List (RegDst × Ecc)) (s : State) :
      (l.foldl (fun s x => logEvent s (k x).1 (k x).2.1 (k x).2.2) s).mem = s.mem := by
    induction l generalizing s with
    | nil => rfl
    | cons x l ih => rw [List.foldl_cons, ih]; rfl
  exact h (fun x => (if x.2 = .single then 0x07 else 0x08, e.die, e.core * 2 ^ 32 + x.1.num * 128 + x.1.lane)) _ _
/-- A view at a state holds that state. -/
theorem Env.at_st (e : Env) (s : State) : (e.at s).st = s := by
  unfold Env.at
  cases h : env? s e.gid with
  | none => rfl
  | some e' => exact (env?_eq h).2.2.1
/-- Reading registers keeps the form where the body does. -/
theorem readingRegs_keepsForm (ds : List RegDst) (body : Env → Res) (e : Env)
    (h : ∀ e : Env, KeepsForm e.st (body e).st) : KeepsForm e.st (readingRegs ds body e).st := by
  have hr : KeepsForm e.st (resolveRegs e ds) := .of_mem (resolveRegs_mem e ds)
  unfold readingRegs
  split
  · split
    · exact hr
    · have := h (e.at (resolveRegs e ds))
      rw [Env.at_st] at this
      exact hr.trans this
  · exact h e
/-- An instruction whose body keeps the form keeps it. -/
theorem issue_keepsForm (i : Instr) (f : Slk) (body : Env → Res) (s t : State)
    (h : ∀ e : Env, KeepsForm e.st (body e).st) (ht : issue i f body s = .next t) : KeepsForm s t := by
  unfold issue at ht
  split at ht
  · cases ht
  · next e he =>
    cases ht
    refine KeepsForm.trans ?_ (conclude_keepsForm ..)
    have he' : e.st = s := (env?_eq he).2.2.1
    unfold attempt checked
    repeat' split
    all_goals first | exact .of_mem (by rw [Res.st, he']) | exact he' ▸ readingRegs_keepsForm _ body e h
/-- Reading media changes no byte of it. -/
@[simp] theorem mediaRead_mem (s : State) (loc n : Nat) : (mediaRead s loc n).1.mem = s.mem := by
  unfold mediaRead
  have h : ∀ (l : List (Nat × Nat)) (x : State × Nat × Bool), (l.foldl (fun (s, x, p) (a, m) =>
      let (s, q) := if isDev a then resolveSector s (a / 64)
        else (s, (sectorEcc s (a / 64)).any fun e => e.2 == some .poison || e.2 == some .double)
      (s, x + ofBytes (memBytes s.mem a m) * 2 ^ (8 * (a - loc)), p || q)) x).1.mem = x.1.mem := by
    intro l
    induction l with
    | nil => intro x; rfl
    | cons y l ih => intro x; rw [List.foldl_cons, ih]; dsimp only; split <;> simp
  exact h _ (s, 0, false)
/-- Logging a discarded step writes no byte of memory (R272). -/
@[simp] theorem logDiscard_mem (s : State) (loc : Nat) : (logDiscard s loc).mem = s.mem := by
  unfold logDiscard; split <;> rfl
/-- Peridot's controller keeps the form (R285). -/
theorem peridotPerform_keepsForm (i : Nat) (s : State) : KeepsForm s (peridotPerform i s) := by
  unfold peridotPerform; split
  · exact .refl _
  · split
    · next r _ =>
      generalize (if r.wide then 8 else 4) = n
      split
      · exact .refl _
      · refine (l2Evict_keepsForm s (r.loc / 128)).trans ((KeepsForm.of_mem (mediaRead_mem _ r.loc n)).trans ?_)
        dsimp only
        refine ⟨fun hw => ?_⟩
        rw [unpost_mem]
        split
        · rw [logDiscard_mem]; exact hw
        · exact Memory.wf_memPuts _ _ _ hw
    · exact .refl _

end Sys2Proof.Machine
end

