-- ==== Sys2Proof/Tests/Slice0.lean ====
section
/-! SUPPORT. Tests of the model, each against the manual's words: the decoding of the manual's own words, terms that are not
well formed, and for every statement with hypotheses a state and operands that meet them. -/

namespace Sys2Proof.Tests

-- The kernel evaluates these one after another: all at once they would fill the memory a check may use.
set_option Elab.async false

open Machine Claims

/-- An unguarded word with no hints. -/
def w (fmt : BitVec 3) (mod : BitVec 9) (d s1 s2 s3 s4 : Opnd) (ext : BitVec 32) : Slk :=
  ⟨fmt, 0xF, 0xF, d, s1, s2, s3, s4, ext, 0, mod, 0, 0, 0, 0⟩
/-- Each word decodes to its instruction. -/
def decodesAll (l : List (Nat × Instr)) : Bool := l.all fun x => decodeTableWord 96 x.1 == some x.2
/-- None of the terms is well formed. -/
def refusesAll (l : List Instr) : Bool := l.all fun i => !WellFormed i

/-! ### Decoding -/

/-- The words of spec/02*.md, with the operands its assembly names. -/
theorem test_decode_instruction_word : decodesAll [
    (0x000000FF_FFF01003_015EF010, .iadd (w 0 0x0 (.v 5) (.v 3) (.v 4) .none .none 0x0)),
    (0x098000FF_FFFBF403_016A3010, .iadd { w 0 0x0 (.v 5) (.v 3) (.imm 253) .none .none 0x0 with ga := 0x3, gb := 0x15, stall := 3, yld := 1 }),
    (0x00000000_3E8FFC03_015EF210, .iadd (w 1 0x0 (.v 5) (.v 3) .none .none .none 0x3E8)),
    (0x000018FF_000003FF_411EF42A, .movi (w 2 0x3 (.s 4) .none .none .none .none 0x3FC00000)),
    (0x00201001_3FF01982_021EF702, .ldg { w 3 0x2 (.v 8) (.b 2) (.v 6) .none .none 0x4 with ch := 2 }),
    (0x00000003_FFFFEFFF_FFDE2DF0, .bra { w 6 0x0 .none .none .none .none .none 0xFFFFFB with ga := 0x2 }),
    (0x010000FF_FFFFFFFF_FFDEF000, .nop { w 0 0x0 .none .none .none .none .none 0x0 with stall := 2 })] = true := by decide +kernel

/-- The words of spec/03*.md, with the operands its assembly names. -/
theorem test_decode_number_formats : decodesAll [
    (0x0009F0FF_FFFFFC01_009EF070, .cvt (w 0 0x13E (.v 2) (.v 1) .none .none .none 0x0)),
    (0x000190FF_FFF01C04_025EF071, .qblk (w 0 0x32 (.v 9) (.v 4) (.v 7) .none .none 0x0)),
    (0x000118FF_FFF02409_029EF072, .dqblk (w 0 0x23 (.v 10) (.v 9) (.v 9) .none .none 0x0)),
    (0x000110FF_FFFFFC0A_031EF073, .bpk (w 0 0x22 (.v 12) (.v 10) .none .none .none 0x0)),
    (0x000110FF_FFFFFC0C_029EF074, .bupk (w 0 0x22 (.v 10) (.v 12) .none .none .none 0x0))] = true := by decide +kernel

/-- The words of spec/05*.md, with the operands its assembly names. -/
theorem test_decode_caches : decodesAll [
    (0x00201000_BFF01982_FFDEF706, .pfg { w 3 0x2 .none (.b 2) (.v 6) .none .none 0x2 with ch := 2 }),
    (0x00000000_10A00908_FFDEF707, .wbr (w 3 0x0 .none (.s 8) (.v 2) (.s 10) .none 0x0)),
    (0x00000000_10A01982_FFDEF707, .wbr (w 3 0x0 .none (.b 2) (.v 6) (.s 10) .none 0x0)),
    (0x00000000_10A01982_FFDEF708, .invr (w 3 0x0 .none (.b 2) (.v 6) (.s 10) .none 0x0)),
    (0x00000800_10A01982_FFDEF708, .invrL1 (w 3 0x1 .none (.b 2) (.v 6) (.s 10) .none 0x0))] = true := by decide +kernel

/-- The words of spec/06*.md, with the operands its assembly names. -/
theorem test_decode_local_pool : decodesAll [
    (0x00000000_3FF42908_609EF705, .bset (w 3 0x0 (.b 2) (.s 8) (.s 10) .none .none 0x0)),
    (0x00001000_BFF00903_01DEF700, .ldl (w 3 0x2 (.v 7) (.s 3) (.v 2) .none .none 0x2)),
    (0x00071000_00900903_FFDEF701, .stl (w 3 0xE2 .none (.s 3) (.v 2) (.v 9) .none 0x0)),
    (0x00101802_00A01181_FFDEF703, .stg { w 3 0x3 .none (.b 1) (.v 4) (.v 10) .none 0x8 with ch := 1 }),
    (0x00001000_3FF833FF_415EF704, .ldc (w 3 0x2 (.s 5) .none (.imm 12) .none .none 0x0)),
    (0x00001090_00400502_00DEF70C, .atoml (w 3 0x2 (.v 3) (.s 2) (.v 1) (.v 4) .none 0x240))] = true := by decide +kernel

/-- The words of spec/07*.md, with the operands its assembly names. -/
theorem test_decode_barriers_waits : decodesAll [
    (0x000000FF_FFF80902_FFDEF981, .binit (w 4 0x0 .none (.s 2) (.imm 2) .none .none 0x0)),
    (0x000008FF_FFF41902_FFDEF982, .bexp (w 4 0x1 .none (.s 2) (.s 6) .none .none 0x0)),
    (0x000300FF_FFFFFD02_41DEF983, .barv (w 4 0x60 (.s 7) (.s 2) .none .none .none 0x0)),
    (0x000280FF_FFF41D02_421EF984, .bwait (w 4 0x50 (.s 8) (.s 2) (.s 7) .none .none 0x0)),
    (0x000000FF_FFF41D02_421EF985, .btry (w 4 0x0 (.s 8) (.s 2) (.s 7) .none .none 0x0)),
    (0x000000FF_FFFFFD02_431EF986, .bst (w 4 0x0 (.s 12) (.s 2) .none .none .none 0x0)),
    (0x000000FF_D0541102_FFDEF987, .cbinit (w 4 0x0 .none (.s 2) (.s 4) (.s 5) .none 0x0)),
    (0x000280FF_FFFFFD02_425EF988, .cbget (w 4 0x50 (.s 9) (.s 2) .none .none .none 0x0)),
    (0x000308FF_FFF42502_FFDEF989, .cbputFill (w 4 0x61 .none (.s 2) (.s 9) .none .none 0x0)),
    (0x000008FF_FFF80503_FFDEF98A, .marmLoc (w 4 0x1 .none (.s 3) (.imm 1) .none .none 0x0)),
    (0x000480FF_FFFFFD0B_429EF98B, .mwait (w 4 0x90 (.s 10) (.s 11) .none .none .none 0x0)),
    (0x000380FF_FFFFFFFF_FFDEF98C, .tbar (w 4 0x70 .none .none .none .none .none 0x0)),
    (0x000288FF_FFFFFD02_425EF988, .cbgetClaim (w 4 0x51 (.s 9) (.s 2) .none .none .none 0x0)),
    (0x000300FF_FFFFFD02_FFDEF989, .cbputDone (w 4 0x60 .none (.s 2) .none .none .none 0x0)),
    (0x000000FF_FFF80502_FFDEF98A, .marm (w 4 0x0 .none (.s 2) (.imm 1) .none .none 0x0)),
    (0x000010FF_FFF807FF_FFDEF98A, .marmOff (w 4 0x2 .none .none (.imm 1) .none .none 0x0))] = true := by decide +kernel

/-- The words of spec/08*.md, with the operands its assembly names. -/
theorem test_decode_copy_engine : decodesAll [
    (0x000700FF_FFF80517_461EF980, .anot (w 4 0xE0 (.s 24) (.s 23) (.imm 1) .none .none 0x0))] = true := by decide +kernel

/-- The words of spec/09*.md, with the operands its assembly names. -/
theorem test_decode_vector_scalar : decodesAll [
    (0x00001001_C0601003_015EF025, .bfi (w 0 0x2 (.v 5) (.v 3) (.v 4) (.v 6) (.v 7) 0x0)),
    (0x000000FF_FFF01003_015EF011, .isub (w 0 0x0 (.v 5) (.v 3) (.v 4) .none .none 0x0)),
    (0x000000FF_FFF01003_015EF012, .imul (w 0 0x0 (.v 5) (.v 3) (.v 4) .none .none 0x0)),
    (0x000000FF_FFF01003_015EF013, .imulh (w 0 0x0 (.v 5) (.v 3) (.v 4) .none .none 0x0)),
    (0x000000FF_C0601003_015EF014, .imad (w 0 0x0 (.v 5) (.v 3) (.v 4) (.v 6) .none 0x0)),
    (0x000000FF_FFFFFC03_015EF015, .iabs (w 0 0x0 (.v 5) (.v 3) .none .none .none 0x0)),
    (0x000000FF_FFF01003_015EF016, .imin (w 0 0x0 (.v 5) (.v 3) (.v 4) .none .none 0x0)),
    (0x000008FF_FFF01003_015EF017, .imax (w 0 0x1 (.v 5) (.v 3) (.v 4) .none .none 0x0)),
    (0x000010FF_FFF01003_015EF018, .ishl (w 0 0x2 (.v 5) (.v 3) (.v 4) .none .none 0x0)),
    (0x000010FF_FFF01003_015EF019, .ishr (w 0 0x2 (.v 5) (.v 3) (.v 4) .none .none 0x0)),
    (0x000000FF_FFF01003_015EF01A, .isra (w 0 0x0 (.v 5) (.v 3) (.v 4) .none .none 0x0)),
    (0x000010FF_FFF01003_015EF01B, .irot (w 0 0x2 (.v 5) (.v 3) (.v 4) .none .none 0x0)),
    (0x000010FF_FFF01003_015EF01C, .and (w 0 0x2 (.v 5) (.v 3) (.v 4) .none .none 0x0)),
    (0x000010FF_FFFFFC03_015EF020, .popc (w 0 0x2 (.v 5) (.v 3) .none .none .none 0x0)),
    (0x000008FF_C0601003_015EF024, .bfx (w 0 0x1 (.v 5) (.v 3) (.v 4) (.v 6) .none 0x0)),
    (0x000020FF_E0301008_019EF026, .lea (w 0 0x4 (.v 6) (.v 8) (.v 4) (.imm 3) .none 0x0)),
    (0x000100FF_FFF01003_685EF027, .icmp (w 0 0x20 (.q 1) (.v 3) (.v 4) .none .none 0x0)),
    (0x000010FF_DA201003_015EF028, .sel (w 0 0x2 (.v 5) (.v 3) (.v 4) (.q 2) .none 0x0)),
    (0x000010FF_FFFFFC03_015EF029, .mov (w 0 0x2 (.v 5) (.v 3) .none .none .none 0x0)),
    (0x00000800_000FA3FF_015EF42A, .movi (w 2 0x1 (.v 5) .none .none .none .none 0x3E8)),
    (0x000010FF_FFFFFF01_40DEF02B, .srd (w 0 0x2 (.s 3) (.sr 1) .none .none .none 0x0)),
    (0x000010FF_FFFFFD03_C2DEF02C, .swr (w 0 0x2 (.sr 11) (.s 3) .none .none .none 0x0)),
    (0x000010FF_FFF81C05_40DEF02D, .rdlane (w 0 0x2 (.s 3) (.v 5) (.imm 7) .none .none 0x0)),
    (0x000010FF_FFF81D03_015EF02E, .wrlane (w 0 0x2 (.v 5) (.s 3) (.imm 7) .none .none 0x0)),
    (0x000098FF_C0601003_015EF043, .ffma (w 0 0x13 (.v 5) (.v 3) (.v 4) (.v 6) .none 0x0)),
    (0x000018FF_FFF01003_015EF040, .fadd (w 0 0x3 (.v 5) (.v 3) (.v 4) .none .none 0x0)),
    (0x000018FF_FFF01003_015EF041, .fsub (w 0 0x3 (.v 5) (.v 3) (.v 4) .none .none 0x0)),
    (0x000018FF_FFF01003_015EF042, .fmul (w 0 0x3 (.v 5) (.v 3) (.v 4) .none .none 0x0)),
    (0x000018FC_00000003_015EF442, .fmul (w 2 0x3 (.v 5) (.v 3) .none .none .none 0x3F000000)),
    (0x000018FF_FFF01003_015EF044, .fmin (w 0 0x3 (.v 5) (.v 3) (.v 4) .none .none 0x0)),
    (0x000018FF_FFF01003_015EF045, .fmax (w 0 0x3 (.v 5) (.v 3) (.v 4) .none .none 0x0)),
    (0x000118FF_FFF01003_685EF046, .fcmp (w 0 0x23 (.q 1) (.v 3) (.v 4) .none .none 0x0)),
    (0x000018FF_FFF40803_685EF047, .fclass (w 0 0x3 (.q 1) (.v 3) (.s 2) .none .none 0x0)),
    (0x000018FF_FFF80803_015EF048, .frnd (w 0 0x3 (.v 5) (.v 3) (.imm 2) .none .none 0x0)),
    (0x000048FF_C0601003_015EF049, .fdot2 (w 0 0x9 (.v 5) (.v 3) (.v 4) (.v 6) .none 0x0)),
    (0x000018FF_FFFFFC03_015EF060, .frcp (w 0 0x3 (.v 5) (.v 3) .none .none .none 0x0)),
    (0x000038FF_FFFFFC08_019EF062, .fsqrt (w 0 0x7 (.v 6) (.v 8) .none .none .none 0x0)),
    (0x000190FF_FFFBFC03_015EF080, .shfl (w 0 0x32 (.v 5) (.v 3) (.imm 255) .none .none 0x0)),
    (0x000010FF_FFFFFDA2_40DEF081, .ballot (w 0 0x2 (.s 3) (.q 2) .none .none .none 0x0)),
    (0x000090FF_FFFFFDA2_6C5EF082, .vote (w 0 0x12 (.p 1) (.q 2) .none .none .none 0x0)),
    (0x000018FF_FFFFFC05_40DEF083, .redx (w 0 0x3 (.s 3) (.v 5) .none .none .none 0x0)),
    (0x000008FF_FFFFFC09_029EF084, .scan (w 0 0x1 (.v 10) (.v 9) .none .none .none 0x0)),
    (0x000010BA_1A468DA2_685EF085, .plog (w 0 0x2 (.q 1) (.q 2) (.q 3) (.q 4) (.imm 232) 0x0)),
    (0x000010FF_FFF01003_015EF01D, .or (w 0 0x2 (.v 5) (.v 3) (.v 4) .none .none 0x0)),
    (0x000010FF_FFF01003_015EF01E, .xor (w 0 0x2 (.v 5) (.v 3) (.v 4) .none .none 0x0)),
    (0x000010FF_FFF01003_015EF01F, .andn (w 0 0x2 (.v 5) (.v 3) (.v 4) .none .none 0x0)),
    (0x000010FF_FFFFFC03_015EF021, .clz (w 0 0x2 (.v 5) (.v 3) .none .none .none 0x0)),
    (0x000010FF_FFFFFC03_015EF022, .ctz (w 0 0x2 (.v 5) (.v 3) .none .none .none 0x0)),
    (0x000010FF_FFFFFC03_015EF023, .brev (w 0 0x2 (.v 5) (.v 3) .none .none .none 0x0)),
    (0x000018FF_FFFFFC03_015EF061, .frsq (w 0 0x3 (.v 5) (.v 3) .none .none .none 0x0)),
    (0x000018FF_FFFFFC03_015EF062, .fsqrt (w 0 0x3 (.v 5) (.v 3) .none .none .none 0x0)),
    (0x000018FF_FFFFFC03_015EF063, .fexp2 (w 0 0x3 (.v 5) (.v 3) .none .none .none 0x0)),
    (0x000018FF_FFFFFC03_015EF064, .flog2 (w 0 0x3 (.v 5) (.v 3) .none .none .none 0x0)),
    (0x000018FF_FFFFFC03_015EF065, .fsin (w 0 0x3 (.v 5) (.v 3) .none .none .none 0x0)),
    (0x000018FF_FFFFFC03_015EF066, .fcos (w 0 0x3 (.v 5) (.v 3) .none .none .none 0x0)),
    (0x000018FF_FFFFFC03_015EF067, .ftanh (w 0 0x3 (.v 5) (.v 3) .none .none .none 0x0))] = true := by decide +kernel

/-- The words of spec/10*.md, with the operands its assembly names. -/
theorem test_decode_matrix : decodesAll [
    (0x00009041_D0641504_749EFBC0, .orsv (w 5 0x12 (.o 2) (.s 4) (.s 5) (.s 6) (.s 7) 0x0)),
    (0x000000FF_FFFFFFFF_749EFBC1, .orel (w 5 0x0 (.o 2) .none .none .none .none 0x0)),
    (0x000000FF_FFFFFFFF_705EFBC2, .mzero (w 5 0x0 (.a 1) .none .none .none .none 0x0)),
    (0x000170FF_FFFFFD10_705EFBC4, .mmab (w 5 0x2E (.a 1) (.s 16) .none .none .none 0x0)),
    (0x000770FF_FFFFFD10_701EFBC3, .mma (w 5 0xEE (.a 0) (.s 16) .none .none .none 0x0)),
    (0x000770FF_FFFFFD18_709EFBC5, .mmas (w 5 0xEE (.a 2) (.s 24) .none .none .none 0x0)),
    (0x000000FF_FFFFFDC1_FFDEFBC6, .mwt (w 5 0x0 .none (.a 1) .none .none .none 0x0)),
    (0x000000FF_FFFFFFFF_FFDEFBC6, .mwt (w 5 0x0 .none .none .none .none .none 0x0)),
    (0x000000FF_FFFFFDC1_40DEFBCB, .mstat (w 5 0x0 (.s 3) (.a 1) .none .none .none 0x0)),
    (0x000800FF_FFFFFFFF_705EFBC2, .mzero (w 5 0x100 (.a 1) .none .none .none .none 0x0))] = true := by decide +kernel

/-- The words of spec/11*.md, with the operands its assembly names. -/
theorem test_decode_epilogue : decodesAll [
    (0x000000FF_E0541A00_FFDEFBC8, .mprog (w 5 0x0 .none (.imm 0) (.s 6) (.imm 5) .none 0x0)),
    (0x000000FF_FFF80118_701EFBC7, .mdrain (w 5 0x0 (.a 0) (.s 24) (.imm 0) .none .none 0x0)),
    (0x000000FF_FFFFFE05_011EFBC9, .tkrd (w 5 0x0 (.v 4) (.imm 5) .none .none .none 0x0)),
    (0x000000FF_FFFFFE05_FFDEFBCA, .tkclr (w 5 0x0 .none (.imm 5) .none .none .none 0x0)),
    (0x000000FF_FFFFFFFF_FFDEFBCA, .tkclr (w 5 0x0 .none .none .none .none .none 0x0))] = true := by decide +kernel

/-- The words of spec/12*.md, with the operands its assembly names. -/
theorem test_decode_slice_ops : decodesAll [
    (0x000010B0_00300904_FFDEF740, .atomg (w 3 0x2 .none (.s 4) (.v 2) (.v 3) .none 0x2C0)),
    (0x000010A0_00300904_015EF740, .atomg (w 3 0x2 (.v 5) (.s 4) (.v 2) (.v 3) .none 0x280)),
    (0x00001890_00800981_011EF740, .atomg (w 3 0x3 (.v 4) (.b 1) (.v 2) (.v 8) .none 0x240)),
    (0x000B9000_00300904_019EF740, .atomg (w 3 0x172 (.v 6) (.s 4) (.v 2) (.v 3) .none 0x0)),
    (0x00001000_3FF01982_021EF742, .gath (w 3 0x2 (.v 8) (.b 2) (.v 6) .none .none 0x0)),
    (0x00001000_00901982_FFDEF743, .scat (w 3 0x2 .none (.b 2) (.v 6) (.v 9) .none 0x0)),
    (0x00001010_10841982_451EF742, .gathList (w 3 0x2 (.s 20) (.b 2) (.s 6) (.s 8) .none 0x40)),
    (0x00001010_10841982_451EF743, .scatList (w 3 0x2 (.s 20) (.b 2) (.s 6) (.s 8) .none 0x40)),
    (0x000010B0_00301104_FFDEF740, .atomg (w 3 0x2 .none (.s 4) (.v 4) (.v 3) .none 0x2C0))] = true := by decide +kernel

/-- The words of spec/13*.md, with the operands its assembly names. -/
theorem test_decode_near_memory : decodesAll [
    (0x000010A0_00300904_FFDEF741, .mst (w 3 0x2 .none (.s 4) (.v 2) (.v 3) .none 0x280)),
    (0x000010B0_00300904_FFDEF741, .mst (w 3 0x2 .none (.s 4) (.v 2) (.v 3) .none 0x2C0)),
    (0x00001840_00400981_FFDEF741, .mst (w 3 0x3 .none (.b 1) (.v 2) (.v 4) .none 0x100)),
    (0x00001000_001FFD10_021EF744, .walk (w 3 0x2 (.v 8) (.s 16) .none (.v 1) .none 0x0)),
    (0x00000000_205FFD0A_FFDEF745, .wprog (w 3 0x0 .none (.s 10) .none (.imm 5) .none 0x0)),
    (0x00000000_3FF8010C_FFDEF746, .wst (w 3 0x0 .none (.s 12) (.imm 0) .none .none 0x0)),
    (0x00001000_001FFC08_021EF747, .wres (w 3 0x2 (.v 8) (.v 8) .none (.v 1) .none 0x0))] = true := by decide +kernel

/-- The words of spec/14*.md, with the operands its assembly names. -/
theorem test_decode_clustering_bank : decodesAll [
    (0x00000041_80400903_015EF749, .cins (w 3 0x0 (.v 5) (.s 3) (.v 2) (.v 4) (.s 6) 0x0)),
    (0x00000041_BFFFFD08_FFDEF748, .ccfg (w 3 0x0 .none (.s 8) .none .none (.s 6) 0x0)),
    (0x00000041_BFF00903_019EF74A, .cnear (w 3 0x0 (.v 6) (.s 3) (.v 2) .none (.s 6) 0x0)),
    (0x00000041_BFFFFFFF_429EF74B, .cmrg (w 3 0x0 (.s 10) .none .none .none (.s 6) 0x0)),
    (0x00000041_BFF00BFF_01DEF74C, .crd (w 3 0x0 (.v 7) .none (.v 2) .none (.s 6) 0x0)),
    (0x00000041_BFFFFFFF_FFDEF74D, .cclr (w 3 0x0 .none .none .none .none (.s 6) 0x0)),
    (0x00000041_BFF41FFF_FFDEF74D, .cclr (w 3 0x0 .none .none (.s 7) .none (.s 6) 0x0)),
    (0x00000041_90CFFD08_429EF74E, .cdump (w 3 0x0 (.s 10) (.s 8) .none (.s 12) (.s 6) 0x0))] = true := by decide +kernel

/-- The words of spec/15*.md, with the operands its assembly names. -/
theorem test_decode_execution_model : decodesAll [
    (0x000000FF_FFFFFD04_415EF1E6, .setw (w 0 0x0 (.s 5) (.s 4) .none .none .none 0x0)),
    (0x000000FF_FFFFFE30_419EF1E7, .regx (w 0 0x0 (.s 6) (.imm 48) .none .none .none 0x0)),
    (0x000000FF_FFFFFE20_419EF1E8, .regr (w 0 0x0 (.s 6) (.imm 32) .none .none .none 0x0)),
    (0x00000000_000003FF_FFDEFDF8, .exit (w 6 0x0 .none .none .none .none .none 0x0)),
    (0x00000000_000003FF_FFDEFDF9, .yield (w 6 0x0 .none .none .none .none .none 0x0))] = true := by decide +kernel

/-- The words of spec/16*.md, with the operands its assembly names. -/
theorem test_decode_class_loop : decodesAll [
    (0x00030800_00003C03_439EFDF4, .dist (w 6 0x61 (.s 14) (.v 3) .none .none .none 0xF)),
    (0x00004000_00004806_435EFDF4, .dist (w 6 0x8 (.s 13) (.v 6) .none .none .none 0x12)),
    (0x00000800_000003FF_FFDEFDF5, .dnext (w 6 0x1 .none .none .none .none .none 0x0)),
    (0x00000000_000003FF_FFDEFDF5, .dnext (w 6 0x0 .none .none .none .none .none 0x0)),
    (0x00000800_000001A2_FFDEFDF6, .dleave (w 6 0x1 .none (.q 2) .none .none .none 0x0)),
    (0x00000000_000003FF_FFDEFDF7, .dbrk (w 6 0x0 .none .none .none .none .none 0x0))] = true := by decide +kernel

/-- The words of spec/17*.md, with the operands its assembly names. -/
theorem test_decode_scheduling : decodesAll [
    (0x000000FF_FFF8050F_441EF1E4, .nfsig (w 0 0x0 (.s 16) (.s 15) (.imm 1) .none .none 0x0)),
    (0x000000FF_FFF45914_449EF1E5, .glaunch (w 0 0x0 (.s 18) (.s 20) (.s 22) .none .none 0x0)),
    (0x00000000_00002BFF_479EFDF2, .call (w 6 0x0 (.s 30) .none .none .none .none 0xA)),
    (0x00000000_00000FFF_FFDEFDF0, .bra (w 6 0x0 .none .none .none .none .none 0x3)),
    (0x00000000_00000114_FFDEFDF1, .jmpi (w 6 0x0 .none (.s 20) .none .none .none 0x0)),
    (0x00040000_00000914_FFDEFDF1, .jmpiTab (w 6 0x80 .none (.s 20) .none .none .none 0x2)),
    (0x00040000_00000114_479EFDF2, .call (w 6 0x80 (.s 30) (.s 20) .none .none .none 0x0)),
    (0x00000000_0000011E_FFDEFDF3, .ret (w 6 0x0 .none (.s 30) .none .none .none 0x0)),
    (0x00000000_00005204_FFDEFDFA, .ipf (w 6 0x0 .none (.imm 4) .none .none .none 0x14)),
    (0x000008FF_FFF0110C_FFDEF1E0, .rcnt (w 0 0x1 .none (.s 12) (.v 4) .none .none 0x0)),
    (0x000000FF_FFF4310A_435EF1E1, .rcsnap (w 0 0x0 (.s 13) (.s 10) (.s 12) .none .none 0x0)),
    (0x00000046_91C01118_FFDEF1E2, .xpref (w 0 0x0 .none (.s 24) (.v 4) (.s 28) (.s 26) 0x0)),
    (0x00000046_80501118_FFDEF1E3, .xtrain (w 0 0x0 .none (.s 24) (.v 4) (.v 5) (.s 26) 0x0)),
    (0x00080046_BFF01118_FFDEF1E3, .xtrainDecay (w 0 0x100 .none (.s 24) (.v 4) .none (.s 26) 0x0))] = true := by decide +kernel

/-- The words of spec/18*.md, with the operands its assembly names. -/
theorem test_decode_consistency : decodesAll [
    (0x000B8000_3FFFFFFF_FFDEF709, .fenceAr (w 3 0x170 .none .none .none .none .none 0x0)),
    (0x00068000_3FFFFFFF_FFDEF709, .fenceAcq (w 3 0xD0 .none .none .none .none .none 0x0)),
    (0x000B0000_3FFFFFFF_FFDEF709, .fenceRel (w 3 0x160 .none .none .none .none .none 0x0)),
    (0x000F8000_3FFFFFFF_FFDEF709, .fenceAr (w 3 0x1F0 .none .none .none .none .none 0x0)),
    (0x00080000_3FFFFFFF_FFDEF709, .fenceMs (w 3 0x100 .none .none .none .none .none 0x0)),
    (0x000A0000_3FFFFFFF_FFDEF709, .fenceMs (w 3 0x140 .none .none .none .none .none 0x0)),
    (0x000A8000_3FFFFFFF_FFDEF70A, .ifence (w 3 0x150 .none .none .none .none .none 0x0))] = true := by decide +kernel

/-- The words of spec/19*.md, with the operands its assembly names. -/
theorem test_decode_faults : decodesAll [
    (0x00000800_3FFFFFFF_FFDEF70B, .rgnClose (w 3 0x1 .none .none .none .none .none 0x0)),
    (0x00000000_3FFFFFFF_FFDEF70B, .rgnOpen (w 3 0x0 .none .none .none .none .none 0x0)),
    (0x00000000_00000205_FFDEFDFB, .trap (w 6 0x0 .none (.imm 5) .none .none .none 0x0)),
    (0x00000000_000003FF_FFDEFDFD, .brk (w 6 0x0 .none .none .none .none .none 0x0)),
    (0x00000000_000003FF_FFDEFDFC, .tret (w 6 0x0 .none .none .none .none .none 0x0)),
    (0x00040000_000003FF_FFDEFDFC, .tretNext (w 6 0x80 .none .none .none .none .none 0x0))] = true := by decide +kernel

/-- Citrine words put together from the fields of R244; those of `scale.row.f32.g`, `tsc`, `cvt.bf16.f32`, `store.bf16` and `end`
are the manual's own. -/
theorem test_decode_citrine : ([(0x00000000, .citEnd ⟨0, 0, 0, 0, 0, 0, 0, 0, 0⟩),
    (0x00000561, .citMov ⟨3, 5, 0, 0, 0, 0, 0, 0, 0⟩),
    (0x00120082, .citLdk ⟨4, 0, 0, 0, 9, 0, 0, 0, 0⟩),
    (0x41240023, .citLdr ⟨1, 0, 0, 0, 2, 9, 0, 0, 1⟩),
    (0x01060044, .citLdv ⟨2, 0, 0, 0, 3, 8, 0, 0, 0⟩),
    (0x00001A25, .citAdd ⟨1, 2, 3, 0, 0, 0, 0, 0, 0⟩),
    (0x00003586, .citMul ⟨4, 5, 6, 0, 0, 0, 0, 0, 0⟩),
    (0x00011A27, .citFma ⟨1, 2, 3, 4, 0, 0, 0, 0, 0⟩),
    (0x00002EE8, .citMax ⟨7, 6, 5, 0, 0, 0, 0, 0, 0⟩),
    (0x40680229, .citBias ⟨1, 2, 0, 0, 4, 3, 0, 0, 1⟩),
    (0x4264000A, .citScale ⟨0, 0, 0, 0, 2, 3, 1, 0, 1⟩),
    (0x001C022B, .citClamp ⟨1, 2, 0, 0, 14, 0, 0, 0, 0⟩),
    (0x0000046C, .citRelu ⟨3, 4, 0, 0, 0, 0, 0, 0, 0⟩),
    (0x000006AD, .citGelu ⟨5, 6, 0, 0, 0, 0, 0, 0, 0⟩),
    (0x000007CE, .citSilu ⟨6, 7, 0, 0, 0, 0, 0, 0, 0⟩),
    (0x0000000F, .citTsc ⟨0, 0, 0, 0, 0, 0, 0, 0, 0⟩),
    (0x07200010, .citCvt ⟨0, 0, 0, 0, 0, 9, 3, 0, 0⟩),
    (0x03000211, .citTopk ⟨0, 2, 0, 0, 0, 8, 1, 0, 0⟩),
    (0x01C00112, .citSpack ⟨0, 1, 0, 0, 0, 14, 0, 0, 0⟩),
    (0x01200013, .citStore ⟨0, 0, 0, 0, 0, 9, 0, 0, 0⟩)] : List (Nat × Instr)).all
    (fun x => decodeTableWord 32 x.1 == some x.2) = true := by decide +kernel

/-- The rules of the manual's walk program, and `ldcmpi` and `miss` put together from the fields of R290. -/
theorem test_decode_rules : ([(0x0000000000430003, .jSelect ⟨0, 3, 0, 0, 1, 0, 0, 0⟩),
    (0x0000000000830002, .jFollow ⟨0, 3, 0, 0, 2, 0, 0, 0⟩),
    (0x0000000020C20080, .jLdcmp ⟨8, 2, 0, 0, 3, 4, 0, 0⟩),
    (0x0000800000000084, .jReturn ⟨8, 0, 0, 0, 0, 0, 0, 8⟩),
    (0x8000100031691231, .jLdcmpi ⟨291, 1, 2, 1, 5, 6, 0, 524289⟩),
    (0x0000000000000005, .jMiss ⟨0, 0, 0, 0, 0, 0, 0, 0⟩)] : List (Nat × Instr)).all
    (fun x => decodeTableWord 64 x.1 == some x.2) = true := by decide +kernel

/-- The manual's `rep #4, +1, +1, +0, +0` (R50). -/
theorem test_decode_rep : decodeTableWord 96 0x00000000_00000009_00DEFFFE =
    some (.rep ⟨7, 0xF, 0xF, 3, 1, 1, 0, 0, 0, 0⟩) := by decide +kernel

/-! ### Well-formedness: what each check refuses -/

/-- Fields that the format does not have (R27): a third source and a 21-bit immediate in RRI; a second source and FE of S2 in
RI32; a fourth source and eleven bits of DISP10 in MEM; a displacement in a Beryl word; a second source and 31 bits in CTL; an
immediate in RRR. -/
theorem test_ill_formed_fields : refusesAll [
    .iadd (w 1 0 (.v 5) (.v 3) .none (.v 4) .none 0), .iadd (w 1 0 (.v 5) (.v 3) .none .none .none 0x100000),
    .movi (w 2 1 (.v 5) .none (.v 4) .none .none 0), .movi { (w 2 1 (.v 5) .none .none .none .none 0) with fe := 2 },
    .ldg (w 3 2 (.v 8) (.b 2) (.v 6) .none (.v 1) 0), .ldg (w 3 2 (.v 8) (.b 2) (.v 6) .none .none 0x400),
    .cmrg (w 3 0 (.s 10) .none .none .none (.s 6) 1), .bra (w 6 0 .none .none (.v 1) .none .none 3),
    .bra (w 6 0 .none .none .none .none .none 0x40000000), .iadd (w 0 0 (.v 5) (.v 3) (.v 4) .none .none 1)] = true := by
  decide +kernel
/-- A constructor whose variant fields name another one (R46). -/
theorem test_ill_formed_variant : refusesAll [
    .rgnOpen (w 3 1 .none .none .none .none .none 0), .invr (w 3 1 .none (.b 2) (.v 6) (.s 10) .none 0),
    .tret (w 6 0x80 .none .none .none .none .none 0), .xtrain (w 0 0x100 .none (.s 24) (.v 4) .none (.s 26) 0)] = true := by
  decide +kernel
/-- Words that trap ILLOP or ILLENC (R48): a predicate as D of `iadd`, a uniform D with a lane source, a format outside the
row, MOD bits reserved, an unused field not none, a misaligned pair, a reserved bit of an operand, an `ipf` count of 0. -/
theorem test_ill_formed_fate : refusesAll [
    .iadd (w 0 0 (.q 1) (.v 3) (.v 4) .none .none 0), .iadd (w 0 0 (.s 1) (.v 3) (.v 4) .none .none 0),
    .popc (w 1 2 (.v 5) .none .none .none .none 3), .iadd (w 0 0x100 (.v 5) (.v 3) (.v 4) .none .none 0),
    .iadd (w 0 0 (.v 5) (.v 3) (.v 4) (.v 6) .none 0), .iadd (w 0 4 (.v 5) (.v 3) (.v 4) .none .none 0),
    .sel (w 0 2 (.v 5) (.v 3) (.v 4) (.q 9) .none 0), .ipf (w 6 0 .none (.imm 0) .none .none .none 20)] = true := by
  decide +kernel
/-- A prefix with a wrong format, a guard, or a reserved bit set (R50). -/
theorem test_ill_formed_prefix : refusesAll [.rep ⟨6, 0xF, 0xF, 3, 1, 1, 0, 0, 0, 0⟩, .rep ⟨7, 3, 0xF, 3, 1, 1, 0, 0, 0, 0⟩,
    .rep ⟨7, 0xF, 0xF, 3, 1, 1, 0, 0, 1, 0⟩, .rep ⟨7, 0xF, 0xF, 3, 1, 1, 0, 0, 0, 1⟩] = true := by decide +kernel
/-- A Citrine word with a field its operation does not use, or beyond its operation's limits (R245, R246). -/
theorem test_ill_formed_citrine : refusesAll [.citEnd ⟨1, 0, 0, 0, 0, 0, 0, 0, 0⟩, .citAdd ⟨1, 2, 3, 4, 0, 0, 0, 0, 0⟩,
    .citLdr ⟨1, 0, 0, 0, 3, 3, 0, 0, 1⟩, .citScale ⟨0, 0, 0, 0, 2, 3, 3, 0, 0⟩, .citClamp ⟨0, 0, 0, 0, 15, 0, 0, 0, 0⟩,
    .citCvt ⟨0, 0, 0, 0, 0, 4, 3, 0, 0⟩, .citTopk ⟨0, 2, 0, 0, 0, 9, 0, 0, 0⟩, .citStore ⟨0, 0, 0, 0, 0, 5, 0, 0, 0⟩] =
    true := by decide +kernel
/-- A rule that breaks R291's table. -/
theorem test_ill_formed_rule : refusesAll [.jLdcmp ⟨8, 2, 6, 0, 3, 4, 0, 0⟩, .jLdcmp ⟨8, 2, 0, 0, 3, 4, 1, 0⟩,
    .jLdcmpi ⟨8, 2, 0, 0, 3, 4, 1, 0⟩, .jFollow ⟨0, 2, 0, 0, 1, 0, 0, 0⟩, .jSelect ⟨0, 3, 0, 0, 1, 0, 0, 0x840⟩,
    .jReturn ⟨8, 0, 0, 0, 0, 0, 0, 65⟩, .jMiss ⟨1, 0, 0, 0, 0, 0, 0, 0⟩] = true := by decide +kernel
/-- The unassigned opcodes trap ILLOP (R46, R48): the first of each unassigned range. -/
theorem test_unassigned_opcodes : [0x001, 0x02F, 0x04A, 0x068, 0x075, 0x086, 0x10D, 0x14F, 0x18D, 0x1CC, 0x1E9, 0x1FF].all
    (fun o => match decode (0x000000FF_FFF01003_015EF000#96 ||| BitVec.ofNat 96 o) with | .error .illop => true | _ => false) = true := by decide +kernel

/-! ### States for the witnesses -/

/-- The group under test: at 0x3000, its handler at 0x4000, registers as given. -/
def grp (s v : List (Nat × Word)) : Group := { Group.fresh 0 0x3000 0 256 with tvec := 0x4000, s := s, v := v }
/-- A page table at 0 whose one leaf maps the first GiB to itself, readable, writable and executable, used and dirty (R395). -/
def tables : List Host.Cell :=
  memPuts (memPuts (memPuts [] 0 (toBytes 8 0x1001)) 0x1000 (toBytes 8 0x2001)) 0x2000 (toBytes 8 0xBF)
/-- The name of the group under test. -/
def me : Gid := ⟨1, 0⟩
/-- A team of groups on core 0, of context 239. -/
def team (gs : List Group) : Team := { placeTeam State.reset 0x3000 with groups := gs }
/-- A device at work with one team. -/
def device (t : Team) : State :=
  { State.reset with
    teams := [t], cur := me, nextId := 2, phase := .run, mem := tables, boot := { State.reset.boot with started := true } }
/-- A device at work with one group. -/
def st (g : Group) : State := device (team [g])
/-- The same with every register 0. -/
def st0 : State := st (grp [] [])
/-- `s` with one posted operation. -/
def posted (k : PendKind) (s : State) : State := { s with pend := [⟨7, me, 239, 0, k⟩] }
/-- Write a number of `n` bytes to memory, or to the pool of core 0. -/
def mem (a n x : Nat) (s : State) : State := { s with mem := memPuts s.mem a (toBytes n x) }
/-- The same for the scratchpad window of the team under test, or for its ring window. -/
def loc (ring : Bool) (a n x : Nat) (s : State) : State := poolWrite s (windowKey s (team []) ring + a) (toBytes n x)
/-- Context 239 changed. -/
def ctx (f : Ctx → Ctx) (s : State) : State := s.setCtx 239 (f (s.ctx 239))

/-- `p` holds of the state. -/
def holds (s : State) (p : State → Bool) : Bool := p s
/-- The instruction executes in the group under test, and its view has `p`. -/
def wit (s : State) (i : Instr) (p : Env → Slk → Bool) : Bool :=
  match env? s s.cur, slkParts i with
  | some e, some (_, f) => canExecute e i f && p e f
  | _, _ => false
/-- What `wit` checks is the hypothesis `Executes` of the statements, together with `p`. -/
theorem wit_executes {s : State} {i : Instr} {p : Env → Slk → Bool} (h : wit s i p = true) :
    ∃ e opc f, slkParts i = some (opc, f) ∧ Executes s e i f ∧ p e f = true := by
  unfold wit at h
  split at h
  · next e x f he hf =>
    rw [Bool.and_eq_true] at h
    exact ⟨e, x, f, hf, ⟨he, h.1⟩, h.2⟩
  · exact absurd h (by decide)
/-- Each instruction executes, and its view has `p`. -/
def witAll (s : State) (l : List Instr) (p : Env → Slk → Bool) : Bool := l.all fun i => wit s i p


/-! ### One step on fixed values, worked out by hand from the rules named -/

/-- Lane 0 of lane register `n`, or uniform register `n` where `u`, after the instruction. -/
def gives (s : State) (i : Instr) (u : Bool) (n : Nat) (x : Word) : Bool :=
  match exec i s with
  | .next t => (match groupOf t me with
    | some g => g.pc == 0x300C && (if u then Assoc.rd 0 g.s n else Assoc.rd 0 g.v (128 * n)) == x
    | none => false)
  | _ => false
/-- The group is at its handler with a cause and a detail (R408). -/
def traps (s : State) (i : Instr) (cause detail : Nat) : Bool :=
  match exec i s with
  | .next t => (match groupOf t me with
    | some g => g.pc == 0x4000 && g.trapPc == 0x3000 && g.trapInfo.toNat % 64 == cause &&
        g.trapInfo.toNat / 2 ^ 8 % 256 == detail
    | none => false)
  | _ => false

/-- `iadd` wraps, and saturates with the sign of the exact sum (R182). -/
theorem test_add_wraps_and_saturates :
    gives (st (grp [] [(384, 0x7FFFFFFF), (512, 1)])) (.iadd (w 0 0 (.v 5) (.v 3) (.v 4) .none .none 0)) false 5
      0x80000000 = true ∧
    gives (st (grp [] [(384, 0x80000000), (512, 1)])) (.isub (w 0 0 (.v 3) (.v 3) (.v 4) .none .none 0)) false 3
      0x7FFFFFFF = true := by decide +kernel
/-- `imulh` of −1 and −1 is 0 (R182). -/
theorem test_mulh_is_signed :
    gives (st (grp [] [(384, 0xFFFFFFFF), (512, 0xFFFFFFFF)])) (.imulh (w 0 0 (.v 5) (.v 3) (.v 4) .none .none 0)) false 5
      0 = true := by decide +kernel
/-- A uniform destination takes uniform sources (R33). -/
theorem test_uniform_add :
    gives (st (grp [(8, 5), (9, 0xFFFFFFFD)] [])) (.iadd (w 0 0 (.s 8) (.s 8) (.s 9) .none .none 0)) true 8 2 = true := by
  decide +kernel
/-- `trap #5` enters with cause 0x0F and its number, and `brk` without DEBUG with cause 0x10 (R408, R413). -/
theorem test_trap_and_brk : traps st0 (.trap (w 6 0 .none (.imm 5) .none .none .none 0)) 0x0F 5 = true ∧
    traps st0 (.brk (w 6 0 .none .none .none .none .none 0)) 0x10 0 = true := by decide +kernel

/-! ### The hypotheses of the statements are met -/

/-- O1: a well-formed SLK word, prefix, Citrine word and rule, each with its encoding. -/
theorem witness_EncodedInstructionsDecode :
    (let i : Instr := .iadd (w 0 0 (.v 5) (.v 3) (.v 4) .none .none 0); WellFormed i &&
      (match encode i with | some (n, x) => n == 96 && decodeTableWord n x == some i | none => false)) = true ∧
    (let i : Instr := .bra (w 6 0 .none .none .none .none .none 0xFFFFFF); WellFormed i &&
      (match encode i with | some (n, x) => n == 96 && decodeTableWord n x == some i | none => false)) = true ∧
    (let i : Instr := .rep ⟨7, 0xF, 0xF, 63, 7, 4, 3, 0, 0, 0⟩; WellFormed i &&
      (match encode i with | some (n, x) => n == 96 && decodeTableWord n x == some i | none => false)) = true ∧
    (let i : Instr := .citScale ⟨0, 0, 0, 0, 2, 3, 1, 0, 1⟩; WellFormed i &&
      (match encode i with | some (n, x) => n == 32 && decodeTableWord n x == some i | none => false)) = true ∧
    (let i : Instr := .jFollow ⟨0xFFF, 3, 0, 0, 31, 0, 0xFFF, 0⟩; WellFormed i &&
      (match encode i with | some (n, x) => n == 64 && decodeTableWord n x == some i | none => false)) = true := by decide +kernel

/-- O2: a word that decodes. -/
theorem witness_DecodedWordsEncode :
    (match decode 0x000000FF_FFF01003_015EF016#96 with | .ok i => encode i == some (96, 0x000000FF_FFF01003_015EF016) | .error _ => false) = true := by decide +kernel

/-- O4: a group named by the agenda and one the scheduler picks, each at an instruction; a Citrine word, a rule and an
event on the agenda; and an unassigned opcode. -/
theorem witness_StepRunsDecoded :
    (holds (State.withFetchWord State.reset 96 0x000000FF_FFF01003_015EF010) fun s =>
      match env? (modGroup me (fun x => { x with cond := .ready }) { clearRetry { s with agenda := [] } with cur := me }) me with
      | some e => (match fetchRes e e.grp.pc with
        | .ok (_, x) => s.agenda == [.group me] && turnOk { s with agenda := [] } me &&
      (match decode x with | .ok _ => true | .error _ => false)
        | .error _ => false)
      | none => false) = true ∧
    (holds ({ State.withFetchWord State.reset 96 0x000000FF_FFF01003_015EF010 with agenda := [] }) fun s =>
      s.cycle.toNat % 16 != 15 && nextGroup s == some me &&
      (match env? (modGroup me (fun x => { x with cond := .ready }) { s with cur := me }) me with
      | some e => (match fetchRes e e.grp.pc with
        | .ok (_, x) => (match decode x with | .ok _ => true | .error _ => false)
        | .error _ => false)
      | none => false)) = true ∧
    (holds (State.withFetchWord State.reset 32 0x0000000F) fun s => s.agenda == [.citrine 0] &&
      (citWord { s with agenda := [] } 0).isSome) = true ∧
    (holds (State.withFetchWord State.reset 64 0x00830002) fun s => s.agenda == [.walk 2] &&
      (walkRule { s with agenda := [] } 2).isSome) = true ∧
    (holds ({ State.reset with agenda := [.event .go] }) fun s => s.agenda == [.event .go]) = true ∧
    (holds ({ State.reset with agenda := [.own (.linkRetry 0 3)] }) fun s => s.agenda == [.own (.linkRetry 0 3)]) = true ∧
    (holds (State.withFetchWord State.reset 96 0x000000FF_FFF01003_015EF001) fun s =>
      match env? (modGroup me (fun x => { x with cond := .ready }) { clearRetry { s with agenda := [] } with cur := me }) me with
      | some e => (match fetchRes e e.grp.pc with
        | .ok (_, x) => turnOk s me && s.agenda == [.group me] && (candidate x).isNone
        | .error _ => false)
      | none => false) = true := by decide +kernel

/-- O6: memory in canonical form, and a step that goes on. -/
theorem witness_StepKeepsMemoryCanonical :
    (holds (State.withFetchWord State.reset 96 0x000000FF_FFF01003_015EF010) fun s => Memory.wf s.mem &&
      (match step s with | .next _ => true | _ => false)) = true := by decide +kernel

/-- O7: a word whose line the instruction cache holds, at the last place of the line; a false guard; an empty source,
with FE and without; and a group. -/
theorem witness_FetchAndIssue :
    (holds ({ st { grp [] [] with pc := 0x3074 } with icache := [(0x60, 5)] }) fun s => match env? s me with
      | some e => (match translate e.st e.team.ctx (e.grp.pc.toNat / 2 ^ 57) (e.grp.pc.toNat % 2 ^ 57) 12 .fetch with
        | (s1, .ok loc _) => e.grp.pc.toNat % 2 ^ 57 % 4 == 0 && (Assoc.get? e.grp.ahead e.grp.pc.toNat).isNone &&
            decide (e.grp.pc.toNat % 2 ^ 57 % 128 + 12 ≤ 128 ∧ e.grp.pc.toNat % 2 ^ 57 + 12 ≤ 2 ^ 57 ∧
      loc % 128 + 12 ≤ 128) &&
            (Assoc.get? s1.icache (key2 (quadOf e.team.core) (loc / 128))).isSome
        | _ => false)
      | none => false) = true ∧
    (holds (st0) fun s =>
      match env? s s.cur, slkParts (.iadd { w 0 0 (.v 5) (.v 3) (.v 4) .none .none 0 with ga := 3 }) with
      | some e, some (_, f) =>
      (match shapeOf e.grp.alloc (.iadd { w 0 0 (.v 5) (.v 3) (.v 4) .none .none 0 with ga := 3 }) with
        | some h => (shapeFate e.grp.alloc h f).isNone && !guardsTrue e f.ga f.gb
        | none => false)
      | _, _ => false) = true ∧
    (holds (st { grp [] [] with vEmpty := [(3, 0x8000)] }) fun s =>
      match env? s s.cur, slkParts (.iadd { w 0 0 (.v 5) (.v 3) (.v 4) .none .none 0 with fe := 4 }) with
      | some e, some (_, f) =>
      (match shapeOf e.grp.alloc (.iadd { w 0 0 (.v 5) (.v 3) (.v 4) .none .none 0 with fe := 4 }) with
        | some h => (fate e.grp.alloc (.iadd { w 0 0 (.v 5) (.v 3) (.v 4) .none .none 0 with fe := 4 })).isNone &&
      guardsTrue e f.ga f.gb && (emptyTrap e h f).isSome
        | none => false)
      | _, _ => false) = true ∧
    (holds (st { grp [] [] with vEmpty := [(3, 0x8000)] }) fun s =>
      match env? s s.cur, slkParts (.iadd { w 0 0 (.v 5) (.v 3) (.v 4) .none .none 0 with stall := 0 }) with
      | some e, some (_, f) =>
      (match shapeOf e.grp.alloc (.iadd { w 0 0 (.v 5) (.v 3) (.v 4) .none .none 0 with stall := 0 }) with
        | some h => (fate e.grp.alloc (.iadd { w 0 0 (.v 5) (.v 3) (.v 4) .none .none 0 with stall := 0 })).isNone &&
      guardsTrue e f.ga f.gb && (emptyTrap e h f).isNone && waitsEmpty e h f
        | none => false)
      | _, _ => false) = true ∧
    (holds (st0) fun s => (env? s me).isSome) = true := by decide +kernel

/-- O8: every instruction of the table, with a negative, the most negative and the greatest value among the operands.
-/
theorem witness_IntegerArithmetic :
    (wit (st (grp [(2, 5), (3, 7), (8, 0x80000000), (9, 1)] [(384, 0xFFFFFFFF), (385, 0x80000000), (512, 3), (513,
      0x7FFFFFFF), (768, 0x10)])) (.iadd (w 0 0 (.v 5) (.v 3) (.v 4) .none .none 0)) fun _ _ => true) = true ∧
    (wit (st (grp [(2, 5), (3, 7), (8, 0x80000000), (9, 1)] [(384, 0xFFFFFFFF), (385, 0x80000000), (512, 3), (513,
      0x7FFFFFFF), (768, 0x10)])) (.isub (w 0 0 (.v 5) (.v 3) (.v 4) .none .none 0)) fun _ _ => true) = true ∧
    (wit (st (grp [(2, 5), (3, 7), (8, 0x80000000), (9, 1)] [(384, 0xFFFFFFFF), (385, 0x80000000), (512, 3), (513,
      0x7FFFFFFF), (768, 0x10)])) (.imul (w 0 0 (.v 5) (.v 3) (.v 4) .none .none 0)) fun _ _ => true) = true ∧
    (wit (st (grp [(2, 5), (3, 7), (8, 0x80000000), (9, 1)] [(384, 0xFFFFFFFF), (385, 0x80000000), (512, 3), (513,
      0x7FFFFFFF), (768, 0x10)])) (.imulh (w 0 0 (.v 5) (.v 3) (.v 4) .none .none 0)) fun _ _ => true) = true ∧
    (wit (st (grp [(2, 5), (3, 7), (8, 0x80000000), (9, 1)] [(384, 0xFFFFFFFF), (385, 0x80000000), (512, 3), (513,
      0x7FFFFFFF), (768, 0x10)])) (.imin (w 0 0 (.v 5) (.v 3) (.v 4) .none .none 0)) fun _ _ => true) = true ∧
    (wit (st (grp [(2, 5), (3, 7), (8, 0x80000000), (9, 1)] [(384, 0xFFFFFFFF), (385, 0x80000000), (512, 3), (513,
      0x7FFFFFFF), (768, 0x10)])) (.imax (w 0 0 (.v 5) (.v 3) (.v 4) .none .none 0)) fun _ _ => true) = true ∧
    (wit (st (grp [(2, 5), (3, 7), (8, 0x80000000), (9, 1)] [(384, 0xFFFFFFFF), (385, 0x80000000), (512, 3), (513,
      0x7FFFFFFF), (768, 0x10)])) (.imad (w 0 0 (.v 5) (.v 3) (.v 4) (.v 6) .none 0)) fun _ _ => true) = true ∧
    (wit (st (grp [(2, 5), (3, 7), (8, 0x80000000), (9, 1)] [(384, 0xFFFFFFFF), (385, 0x80000000), (512, 3), (513,
      0x7FFFFFFF), (768, 0x10)])) (.iabs (w 0 0 (.v 5) (.v 3) .none .none .none 0)) fun _ _ => true) = true ∧
    (wit (st (grp [(2, 5), (3, 7), (8, 0x80000000), (9, 1)] [(384, 0xFFFFFFFF), (385, 0x80000000), (512, 3), (513,
      0x7FFFFFFF), (768, 0x10)])) (.iadd (w 1 0 (.v 5) (.v 3) .none .none .none 0xFFFFF)) fun _ _ => true) = true ∧
    (wit (st (grp [(2, 5), (3, 7), (8, 0x80000000), (9, 1)] [(384, 0xFFFFFFFF), (385, 0x80000000), (512, 3), (513,
      0x7FFFFFFF), (768, 0x10)])) (.imul (w 0 0x84 (.v 6) (.v 8) (.v 4) .none .none 0)) fun _ _ =>
      true) = true := by decide +kernel

/-- O9: every instruction of the table. -/
theorem witness_ShiftsAndLogic :
    (wit (st (grp [(2, 5), (3, 7), (8, 0x80000000), (9, 1)] [(384, 0xFFFFFFFF), (385, 0x80000000), (512, 3), (513,
      0x7FFFFFFF), (768, 0x10)])) (.ishl (w 0 2 (.v 5) (.v 3) (.v 4) .none .none 0)) fun _ _ => true) = true ∧
    (wit (st (grp [(2, 5), (3, 7), (8, 0x80000000), (9, 1)] [(384, 0xFFFFFFFF), (385, 0x80000000), (512, 3), (513,
      0x7FFFFFFF), (768, 0x10)])) (.ishr (w 0 2 (.v 5) (.v 3) (.v 4) .none .none 0)) fun _ _ => true) = true ∧
    (wit (st (grp [(2, 5), (3, 7), (8, 0x80000000), (9, 1)] [(384, 0xFFFFFFFF), (385, 0x80000000), (512, 3), (513,
      0x7FFFFFFF), (768, 0x10)])) (.irot (w 0 2 (.v 5) (.v 3) (.v 4) .none .none 0)) fun _ _ => true) = true ∧
    (wit (st (grp [(2, 5), (3, 7), (8, 0x80000000), (9, 1)] [(384, 0xFFFFFFFF), (385, 0x80000000), (512, 3), (513,
      0x7FFFFFFF), (768, 0x10)])) (.and (w 0 2 (.v 5) (.v 3) (.v 4) .none .none 0)) fun _ _ => true) = true ∧
    (wit (st (grp [(2, 5), (3, 7), (8, 0x80000000), (9, 1)] [(384, 0xFFFFFFFF), (385, 0x80000000), (512, 3), (513,
      0x7FFFFFFF), (768, 0x10)])) (.or (w 0 2 (.v 5) (.v 3) (.v 4) .none .none 0)) fun _ _ => true) = true ∧
    (wit (st (grp [(2, 5), (3, 7), (8, 0x80000000), (9, 1)] [(384, 0xFFFFFFFF), (385, 0x80000000), (512, 3), (513,
      0x7FFFFFFF), (768, 0x10)])) (.xor (w 0 2 (.v 5) (.v 3) (.v 4) .none .none 0)) fun _ _ => true) = true ∧
    (wit (st (grp [(2, 5), (3, 7), (8, 0x80000000), (9, 1)] [(384, 0xFFFFFFFF), (385, 0x80000000), (512, 3), (513,
      0x7FFFFFFF), (768, 0x10)])) (.andn (w 0 2 (.v 5) (.v 3) (.v 4) .none .none 0)) fun _ _ => true) = true ∧
    (wit (st (grp [(2, 5), (3, 7), (8, 0x80000000), (9, 1)] [(384, 0xFFFFFFFF), (385, 0x80000000), (512, 3), (513,
      0x7FFFFFFF), (768, 0x10)])) (.isra (w 0 0 (.v 5) (.v 3) (.v 4) .none .none 0)) fun _ _ =>
      true) = true := by decide +kernel

/-- O10: every instruction of the two tables. -/
theorem witness_BitCountsAndFields :
    (wit (st (grp [(2, 5), (3, 7), (8, 0x80000000), (9, 1)] [(384, 0xFFFFFFFF), (385, 0x80000000), (512, 3), (513,
      0x7FFFFFFF), (768, 0x10)])) (.popc (w 0 2 (.v 5) (.v 3) .none .none .none 0)) fun _ _ => true) = true ∧
    (wit (st (grp [(2, 5), (3, 7), (8, 0x80000000), (9, 1)] [(384, 0xFFFFFFFF), (385, 0x80000000), (512, 3), (513,
      0x7FFFFFFF), (768, 0x10)])) (.clz (w 0 2 (.v 5) (.v 3) .none .none .none 0)) fun _ _ => true) = true ∧
    (wit (st (grp [(2, 5), (3, 7), (8, 0x80000000), (9, 1)] [(384, 0xFFFFFFFF), (385, 0x80000000), (512, 3), (513,
      0x7FFFFFFF), (768, 0x10)])) (.ctz (w 0 2 (.v 5) (.v 3) .none .none .none 0)) fun _ _ => true) = true ∧
    (wit (st (grp [(2, 5), (3, 7), (8, 0x80000000), (9, 1)] [(384, 0xFFFFFFFF), (385, 0x80000000), (512, 3), (513,
      0x7FFFFFFF), (768, 0x10)])) (.brev (w 0 2 (.v 5) (.v 3) .none .none .none 0)) fun _ _ => true) = true ∧
    (wit (st (grp [(2, 5), (3, 7), (8, 0x80000000), (9, 1)] [(384, 0xFFFFFFFF), (385, 0x80000000), (512, 3), (513,
      0x7FFFFFFF), (768, 0x10)])) (.bfx (w 0 1 (.v 5) (.v 3) (.v 4) (.v 6) .none 0)) fun _ _ => true) = true ∧
    (wit (st (grp [(2, 5), (3, 7), (8, 0x80000000), (9, 1)] [(384, 0xFFFFFFFF), (385, 0x80000000), (512, 3), (513,
      0x7FFFFFFF), (768, 0x10)])) (.bfi (w 0 2 (.v 5) (.v 3) (.v 4) (.v 6) (.v 7) 0)) fun _ _ => true) = true ∧
    (wit (st (grp [(2, 5), (3, 7), (8, 0x80000000), (9, 1)] [(384, 0xFFFFFFFF), (385, 0x80000000), (512, 3), (513,
      0x7FFFFFFF), (768, 0x10)])) (.bfi (w 1 2 (.v 5) (.v 3) (.v 4) .none .none 0x2008)) fun _ _ =>
      true) = true := by decide +kernel

/-- O11: every instruction of the table. -/
theorem witness_MovesAndCompares :
    (wit (st (grp [(2, 5), (3, 7), (8, 0x80000000), (9, 1)] [(384, 0xFFFFFFFF), (385, 0x80000000), (512, 3), (513,
      0x7FFFFFFF), (768, 0x10)])) (.lea (w 0 4 (.v 6) (.v 8) (.v 4) (.imm 3) .none 0)) fun _ _ => true) = true ∧
    (wit (st (grp [(2, 5), (3, 7), (8, 0x80000000), (9, 1)] [(384, 0xFFFFFFFF), (385, 0x80000000), (512, 3), (513,
      0x7FFFFFFF), (768, 0x10)])) (.icmp (w 0 0x20 (.q 1) (.v 3) (.v 4) .none .none 0)) fun _ _ => true) = true ∧
    (wit (st (grp [(2, 5), (3, 7), (8, 0x80000000), (9, 1)] [(384, 0xFFFFFFFF), (385, 0x80000000), (512, 3), (513,
      0x7FFFFFFF), (768, 0x10)])) (.sel (w 0 2 (.v 5) (.v 3) (.v 4) (.q 2) .none 0)) fun _ _ => true) = true ∧
    (wit (st (grp [(2, 5), (3, 7), (8, 0x80000000), (9, 1)] [(384, 0xFFFFFFFF), (385, 0x80000000), (512, 3), (513,
      0x7FFFFFFF), (768, 0x10)])) (.mov (w 0 2 (.v 5) (.v 3) .none .none .none 0)) fun _ _ => true) = true ∧
    (wit (st (grp [(2, 5), (3, 7), (8, 0x80000000), (9, 1)] [(384, 0xFFFFFFFF), (385, 0x80000000), (512, 3), (513,
      0x7FFFFFFF), (768, 0x10)])) (.mov (w 0 0xA (.v 5) (.v 3) .none .none .none 0)) fun _ _ => true) = true ∧
    (wit (st (grp [(2, 5), (3, 7), (8, 0x80000000), (9, 1)] [(384, 0xFFFFFFFF), (385, 0x80000000), (512, 3), (513,
      0x7FFFFFFF), (768, 0x10)])) (.movi (w 2 1 (.v 5) .none .none .none .none 1000)) fun _ _ => true) = true ∧
    (wit (st (grp [(2, 5), (3, 7), (8, 0x80000000), (9, 1)] [(384, 0xFFFFFFFF), (385, 0x80000000), (512, 3), (513,
      0x7FFFFFFF), (768, 0x10)])) (.movi (w 2 7 (.v 6) .none .none .none .none 0x3F800000)) fun _ _ => true) = true ∧
    (wit (st (grp [(2, 5), (3, 7), (8, 0x80000000), (9, 1)] [(384, 0xFFFFFFFF), (385, 0x80000000), (512, 3), (513,
      0x7FFFFFFF), (768, 0x10)])) (.srd (w 0 2 (.s 3) (.sr 1) .none .none .none 0)) fun _ _ =>
      true) = true := by decide +kernel

/-- O12: `swr` of each kind of register; `rdlane` and `wrlane` of the last lane, of an index of G′, and of an empty
lane. -/
theorem witness_StatusRegistersAndNamedLanes :
    (wit (st (grp [(2, 5), (3, 7), (8, 0x80000000), (9, 1)] [(384, 0xFFFFFFFF), (385, 0x80000000), (512, 3), (513,
      0x7FFFFFFF), (768, 0x10)])) (.swr (w 0 2 (.sr 11) (.s 3) .none .none .none 0)) fun _ _ => true) = true ∧
    (wit (st (grp [(2, 5), (3, 7), (8, 0x80000000), (9, 1)] [(384, 0xFFFFFFFF), (385, 0x80000000), (512, 3), (513,
      0x7FFFFFFF), (768, 0x10)])) (.swr (w 0 2 (.sr 12) (.s 3) .none .none .none 0)) fun _ _ => true) = true ∧
    (wit (st (grp [(2, 5), (3, 7), (8, 0x80000000), (9, 1)] [(384, 0xFFFFFFFF), (385, 0x80000000), (512, 3), (513,
      0x7FFFFFFF), (768, 0x10)])) (.swr (w 0 2 (.sr 15) (.s 3) .none .none .none 0)) fun _ _ => true) = true ∧
    (wit (st (grp [(2, 5), (3, 7), (8, 0x80000000), (9, 1)] [(384, 0xFFFFFFFF), (385, 0x80000000), (512, 3), (513,
      0x7FFFFFFF), (768, 0x10)])) (.swr (w 0 2 (.sr 25) (.s 3) .none .none .none 0)) fun _ _ => true) = true ∧
    (wit (st (grp [(2, 5), (3, 7), (8, 0x80000000), (9, 1)] [(384, 0xFFFFFFFF), (385, 0x80000000), (512, 3), (513,
      0x7FFFFFFF), (768, 0x10)])) (.swr (w 0 2 (.sr 26) (.s 3) .none .none .none 0)) fun _ _ => true) = true ∧
    (wit (st (grp [(2, 5), (3, 7), (8, 0x80000000), (9, 1)] [(384, 0xFFFFFFFF), (385, 0x80000000), (512, 3), (513,
      0x7FFFFFFF), (768, 0x10)])) (.swr (w 0 6 (.sr 13) (.s 2) .none .none .none 0)) fun _ _ => true) = true ∧
    (wit (st (grp [(2, 5), (3, 7), (8, 0x80000000), (9, 1)] [(384, 0xFFFFFFFF), (385, 0x80000000), (512, 3), (513,
      0x7FFFFFFF), (768, 0x10)])) (.swr (w 0 2 (.sr 13) (.s 3) .none .none .none 0)) fun _ _ => true) = true ∧
    (wit (st (grp [(2, 5), (3, 7), (8, 0x80000000), (9, 1)] [(384, 0xFFFFFFFF), (385, 0x80000000), (512, 3), (513,
      0x7FFFFFFF), (768, 0x10)])) (.swr (w 0 6 (.sr 14) (.s 2) .none .none .none 0)) fun _ _ => true) = true ∧
    (wit (st (grp [(2, 5), (3, 7), (8, 0x80000000), (9, 1)] [(384, 0xFFFFFFFF), (385, 0x80000000), (512, 3), (513,
      0x7FFFFFFF), (768, 0x10)])) (.swr (w 0 2 (.sr 14) (.s 3) .none .none .none 0)) fun _ _ => true) = true ∧
    (wit (st (grp [(2, 5), (3, 7), (8, 0x80000000), (9, 1)] [(384, 0xFFFFFFFF), (385, 0x80000000), (512, 3), (513,
      0x7FFFFFFF), (768, 0x10)])) (.swr (w 0 6 (.sr 20) (.s 2) .none .none .none 0)) fun _ _ => true) = true ∧
    (wit (st (grp [(2, 5), (3, 7), (8, 0x80000000), (9, 1)] [(384, 0xFFFFFFFF), (385, 0x80000000), (512, 3), (513,
      0x7FFFFFFF), (768, 0x10)])) (.swr (w 0 2 (.sr 20) (.s 3) .none .none .none 0)) fun _ _ => true) = true ∧
    (wit (st (grp [(2, 5), (3, 7), (8, 0x80000000), (9, 1)] [(384, 0xFFFFFFFF), (385, 0x80000000), (512, 3), (513,
      0x7FFFFFFF), (768, 0x10)])) (.swr (w 0 6 (.sr 21) (.s 2) .none .none .none 0)) fun _ _ => true) = true ∧
    (wit (st (grp [(2, 5), (3, 7), (8, 0x80000000), (9, 1)] [(384, 0xFFFFFFFF), (385, 0x80000000), (512, 3), (513,
      0x7FFFFFFF), (768, 0x10)])) (.swr (w 0 2 (.sr 21) (.s 3) .none .none .none 0)) fun _ _ => true) = true ∧
    (wit (st (grp [(3, 5)] [])) (.swr (w 0 2 (.sr 11) (.s 3) .none .none .none 0)) fun e f =>
      e.val (fTy f) 0 (.op f.s1) % 8 == 5) = true ∧
    (wit (st (grp [(4, 15)] [(655, 9)])) (.rdlane (w 0 2 (.s 3) (.v 5) (.s 4) .none .none 0)) fun e f =>
      let i := e.n32 0 (srcOf f 2 2); let n := tyRegs (fTy f); decide (e.grp.bad = [] ∧ i < e.grant ∧
      (opRegs f.s1 n [i]).any e.grp.isEmpty = false)) = true ∧
    (wit (st (grp [(4, 16)] [])) (.rdlane (w 0 2 (.s 3) (.v 5) (.s 4) .none .none 0)) fun e f =>
      let i := e.n32 0 (srcOf f 2 2); decide (e.grp.bad = [] ∧ e.grant ≤ i)) = true ∧
    (wit (st { grp [(4, 15)] [] with vEmpty := [(5, 0x8000)] }) (.rdlane (w 0 2 (.s 3) (.v 5)
      (.s 4) .none .none 0)) fun e f => let i := e.n32 0 (srcOf f 2 2); let n := tyRegs (fTy f);
      decide (e.grp.bad = [] ∧ i < e.grant ∧ (opRegs f.s1 n [i]).any e.grp.isEmpty = true ∧
      f.fe.getLsbD 2 = false)) = true ∧
    (wit (st (grp [(4, 15)] [])) (.wrlane (w 0 2 (.v 5) (.s 3) (.s 4) .none .none 0)) fun e f =>
      let i := e.n32 0 (srcOf f 2 2); let n := tyRegs (fTy f); decide (i < e.grant ∧
      (opRegs f.d n [i]).any e.grp.isEmpty = false ∧ e.holds i = true)) = true ∧
    (wit (st (grp [(4, 16)] [])) (.wrlane (w 0 2 (.v 5) (.s 3) (.s 4) .none .none 0)) fun e f =>
      let i := e.n32 0 (srcOf f 2 2); decide (e.grant ≤ i)) = true ∧
    (wit (device { team [grp [(4, 15)] []] with threads := 15 }) (.wrlane (w 0 2 (.v 5) (.s 3)
      (.s 4) .none .none 0)) fun e f => let i := e.n32 0 (srcOf f 2 2); let n := tyRegs (fTy f); decide (i < e.grant ∧
      (opRegs f.d n [i]).any e.grp.isEmpty = false ∧ e.holds i = false)) = true := by decide +kernel

/-- O13: every instruction of the table outside early service; f64 arithmetic in early service. -/
theorem witness_FloatResults :
    (wit (st (grp [(2, 5)] [(384, 0x3F800000), (385, 0x7FC00000), (386, 0x00000001), (512, 0xC0000000), (513,
      0x7F7FFFFF), (768, 0x3FC00000), (1024, 5), (1025, 1), (1152, 0x40000000)])) (.fadd (w 0 3 (.v 5) (.v 3)
      (.v 4) .none .none 0)) fun _ _ => true) = true ∧
    (wit (st (grp [(2, 5)] [(384, 0x3F800000), (385, 0x7FC00000), (386, 0x00000001), (512, 0xC0000000), (513,
      0x7F7FFFFF), (768, 0x3FC00000), (1024, 5), (1025, 1), (1152, 0x40000000)])) (.fsub (w 0 3 (.v 5) (.v 3)
      (.v 4) .none .none 0)) fun _ _ => true) = true ∧
    (wit (st (grp [(2, 5)] [(384, 0x3F800000), (385, 0x7FC00000), (386, 0x00000001), (512, 0xC0000000), (513,
      0x7F7FFFFF), (768, 0x3FC00000), (1024, 5), (1025, 1), (1152, 0x40000000)])) (.fmul (w 0 3 (.v 5) (.v 3)
      (.v 4) .none .none 0)) fun _ _ => true) = true ∧
    (wit (st (grp [(2, 5)] [(384, 0x3F800000), (385, 0x7FC00000), (386, 0x00000001), (512, 0xC0000000), (513,
      0x7F7FFFFF), (768, 0x3FC00000), (1024, 5), (1025, 1), (1152, 0x40000000)])) (.fmin (w 0 3 (.v 5) (.v 3)
      (.v 4) .none .none 0)) fun _ _ => true) = true ∧
    (wit (st (grp [(2, 5)] [(384, 0x3F800000), (385, 0x7FC00000), (386, 0x00000001), (512, 0xC0000000), (513,
      0x7F7FFFFF), (768, 0x3FC00000), (1024, 5), (1025, 1), (1152, 0x40000000)])) (.fmax (w 0 3 (.v 5) (.v 3)
      (.v 4) .none .none 0)) fun _ _ => true) = true ∧
    (wit (st (grp [(2, 5)] [(384, 0x3F800000), (385, 0x7FC00000), (386, 0x00000001), (512, 0xC0000000), (513,
      0x7F7FFFFF), (768, 0x3FC00000), (1024, 5), (1025, 1), (1152, 0x40000000)])) (.ffma (w 0 0x13 (.v 5) (.v 3)
      (.v 4) (.v 6) .none 0)) fun _ _ => true) = true ∧
    (wit (st (grp [(2, 5)] [(384, 0x3F800000), (385, 0x7FC00000), (386, 0x00000001), (512, 0xC0000000), (513,
      0x7F7FFFFF), (768, 0x3FC00000), (1024, 5), (1025, 1), (1152, 0x40000000)])) (.fcmp (w 0 0x23 (.q 1) (.v 3)
      (.v 4) .none .none 0)) fun _ _ => true) = true ∧
    (wit (st (grp [(2, 5)] [(384, 0x3F800000), (385, 0x7FC00000), (386, 0x00000001), (512, 0xC0000000), (513,
      0x7F7FFFFF), (768, 0x3FC00000), (1024, 5), (1025, 1), (1152, 0x40000000)])) (.fclass (w 0 3 (.q 1) (.v 3)
      (.s 2) .none .none 0)) fun _ _ => true) = true ∧
    (wit (st (grp [(2, 5)] [(384, 0x3F800000), (385, 0x7FC00000), (386, 0x00000001), (512, 0xC0000000), (513,
      0x7F7FFFFF), (768, 0x3FC00000), (1024, 5), (1025, 1), (1152, 0x40000000)])) (.frnd (w 0 3 (.v 5) (.v 3)
      (.imm 2) .none .none 0)) fun _ _ => true) = true ∧
    (wit (st (grp [(2, 5)] [(384, 0x3F800000), (385, 0x7FC00000), (386, 0x00000001), (512, 0xC0000000), (513,
      0x7F7FFFFF), (768, 0x3FC00000), (1024, 5), (1025, 1), (1152, 0x40000000)])) (.fdot2 (w 0 9 (.v 5) (.v 3) (.v 4)
      (.v 6) .none 0)) fun _ _ => true) = true ∧
    (wit (st (grp [(2, 5)] [(384, 0x3F800000), (385, 0x7FC00000), (386, 0x00000001), (512, 0xC0000000), (513,
      0x7F7FFFFF), (768, 0x3FC00000), (1024, 5), (1025, 1), (1152, 0x40000000)])) (.cvt (w 0 0x13E (.v 2)
      (.v 1) .none .none .none 0)) fun _ _ => true) = true ∧
    (wit (st (grp [(2, 5)] [(384, 0x3F800000), (385, 0x7FC00000), (386, 0x00000001), (512, 0xC0000000), (513,
      0x7F7FFFFF), (768, 0x3FC00000), (1024, 5), (1025, 1), (1152, 0x40000000)])) (.qblk (w 0 0x32 (.v 9) (.v 4)
      (.v 7) .none .none 0)) fun _ _ => true) = true ∧
    (wit (st (grp [(2, 5)] [(384, 0x3F800000), (385, 0x7FC00000), (386, 0x00000001), (512, 0xC0000000), (513,
      0x7F7FFFFF), (768, 0x3FC00000), (1024, 5), (1025, 1), (1152, 0x40000000)])) (.dqblk (w 0 0x23 (.v 10) (.v 9)
      (.v 9) .none .none 0)) fun _ _ => true) = true ∧
    (wit (st (grp [(2, 5)] [(384, 0x3F800000), (385, 0x7FC00000), (386, 0x00000001), (512, 0xC0000000), (513,
      0x7F7FFFFF), (768, 0x3FC00000), (1024, 5), (1025, 1), (1152, 0x40000000)])) (.bpk (w 0 0x22 (.v 12)
      (.v 10) .none .none .none 0)) fun _ _ => true) = true ∧
    (wit (st (grp [(2, 5)] [(384, 0x3F800000), (385, 0x7FC00000), (386, 0x00000001), (512, 0xC0000000), (513,
      0x7F7FFFFF), (768, 0x3FC00000), (1024, 5), (1025, 1), (1152, 0x40000000)])) (.bupk (w 0 0x22 (.v 10)
      (.v 12) .none .none .none 0)) fun _ _ => true) = true ∧
    (wit (st (grp [(2, 5)] [(384, 0x3F800000), (385, 0x7FC00000), (386, 0x00000001), (512, 0xC0000000), (513,
      0x7F7FFFFF), (768, 0x3FC00000), (1024, 5), (1025, 1), (1152, 0x40000000)])) (.plog (w 0 2 (.q 1) (.q 2) (.q 3)
      (.q 4) (.imm 0xE8) 0)) fun _ _ => true) = true ∧
    (wit (st (grp [(2, 5)] [(384, 0x3F800000), (385, 0x7FC00000), (386, 0x00000001), (512, 0xC0000000), (513,
      0x7F7FFFFF), (768, 0x3FC00000), (1024, 5), (1025, 1), (1152, 0x40000000)])) (.fadd (w 0 7 (.v 6) (.v 8)
      (.v 10) .none .none 0)) fun _ _ => true) = true ∧
    (wit ({ st0 with phase := .early }) (.fadd (w 0 7 (.v 6) (.v 8) (.v 10) .none .none 0)) fun e f =>
      needsRun (.fadd f) && e.st.phase != .run) = true := by decide +kernel

/-- O14: the least and greatest numbers of a format. -/
theorem witness_RepresentableValuesRoundExactly :
    (decide (3 ∈ [2, 3, 7, 8, 9, 14, 15] ∧ 1 < 2 ^ (fmtOf 3).w ∧ fdec (fmtOf 3) 1 ≠ .nan)) = true ∧
    (decide (3 ∈ [2, 3, 7, 8, 9, 14, 15] ∧ 2139095039 < 2 ^ (fmtOf 3).w ∧ fdec (fmtOf 3) 2139095039 ≠ .nan)) = true ∧
    (decide (14 ∈ [2, 3, 7, 8, 9, 14, 15] ∧ 126 < 2 ^ (fmtOf 14).w ∧ fdec (fmtOf 14) 126 ≠ .nan)) = true ∧
    (decide (15 ∈ [2, 3, 7, 8, 9, 14, 15] ∧ 251 < 2 ^ (fmtOf 15).w ∧ fdec (fmtOf 15) 251 ≠ .nan)) = true ∧
    (decide (7 ∈ [2, 3, 7, 8, 9, 14, 15] ∧ 9223372036854775808 < 2 ^ (fmtOf 7).w ∧
      fdec (fmtOf 7) 9223372036854775808 ≠ .nan)) = true := by decide +kernel

/-- O15: a special value; the powers of two 2^-149 and 2^127; the logarithm of a power of two; a quotient, a root; and
a value that is approximated. -/
theorem witness_LongLatencyResults_values :
    (sfuSpecial 0 (fdec f32 (fin 0 f32 0x80000000))).isSome = true ∧
    fcmp (fdec f32 (fin 0 f32 0xC3150000)) (ofInt (-149)) = some .eq ∧
    fcmp (fdec f32 (fin 0 f32 0x42FE0000)) (ofInt 127) = some .eq ∧
    fdec f32 (fin 0 f32 0x3F000000) = .num false (2 ^ 23) (-24) ∧
    fdec f32 (fin 0 f32 0xC0400000) = .num true 0xC00000 (-22) ∧
    fdec (fmtOf 7) (fin 0 (fmtOf 7) 0x4008000000000000) = .num false 0x18000000000000 (-51) ∧
    sfuSpecial 5 (fdec f32 (fin 0 f32 0xC0400000)) = none := by decide +kernel

/-- O15: every instruction of the table. -/
theorem witness_LongLatencyResults :
    (wit (st (grp [(2, 5)] [(384, 0x3F800000), (385, 0x7FC00000), (386, 0x00000001), (512, 0xC0000000), (513,
      0x7F7FFFFF), (768, 0x3FC00000), (1024, 5), (1025, 1), (1152, 0x40000000)])) (.frcp (w 0 3 (.v 5)
      (.v 3) .none .none .none 0)) fun _ _ => true) = true ∧
    (wit (st (grp [(2, 5)] [(384, 0x3F800000), (385, 0x7FC00000), (386, 0x00000001), (512, 0xC0000000), (513,
      0x7F7FFFFF), (768, 0x3FC00000), (1024, 5), (1025, 1), (1152, 0x40000000)])) (.fsqrt (w 0 3 (.v 5)
      (.v 3) .none .none .none 0)) fun _ _ => true) = true ∧
    (wit (st (grp [(2, 5)] [(384, 0x3F800000), (385, 0x7FC00000), (386, 0x00000001), (512, 0xC0000000), (513,
      0x7F7FFFFF), (768, 0x3FC00000), (1024, 5), (1025, 1), (1152, 0x40000000)])) (.shfl (w 0 0x32 (.v 5) (.v 3)
      (.imm 255) .none .none 0)) fun _ _ => true) = true ∧
    (wit (st (grp [(2, 5)] [(384, 0x3F800000), (385, 0x7FC00000), (386, 0x00000001), (512, 0xC0000000), (513,
      0x7F7FFFFF), (768, 0x3FC00000), (1024, 5), (1025, 1), (1152, 0x40000000)])) (.shfl (w 0 0x132 (.v 5) (.v 3)
      (.imm 255) .none .none 0)) fun _ _ => true) = true ∧
    (wit (st (grp [(2, 5)] [(384, 0x3F800000), (385, 0x7FC00000), (386, 0x00000001), (512, 0xC0000000), (513,
      0x7F7FFFFF), (768, 0x3FC00000), (1024, 5), (1025, 1), (1152, 0x40000000)])) (.ballot (w 0 2 (.s 3)
      (.q 2) .none .none .none 0)) fun _ _ => true) = true ∧
    (wit (st (grp [(2, 5)] [(384, 0x3F800000), (385, 0x7FC00000), (386, 0x00000001), (512, 0xC0000000), (513,
      0x7F7FFFFF), (768, 0x3FC00000), (1024, 5), (1025, 1), (1152, 0x40000000)])) (.vote (w 0 0x12 (.p 1)
      (.q 2) .none .none .none 0)) fun _ _ => true) = true ∧
    (wit (st (grp [(2, 5)] [(384, 0x3F800000), (385, 0x7FC00000), (386, 0x00000001), (512, 0xC0000000), (513,
      0x7F7FFFFF), (768, 0x3FC00000), (1024, 5), (1025, 1), (1152, 0x40000000)])) (.vote (w 0 0x22 (.p 1) (.v 2)
      (.s 3) .none .none 0)) fun _ _ => true) = true ∧
    (wit (st (grp [(2, 5)] [(384, 0x3F800000), (385, 0x7FC00000), (386, 0x00000001), (512, 0xC0000000), (513,
      0x7F7FFFFF), (768, 0x3FC00000), (1024, 5), (1025, 1), (1152, 0x40000000)])) (.frsq (w 0 3 (.v 5)
      (.v 3) .none .none .none 0)) fun _ _ => (longs (.frsq (w 0 3 (.v 5)
      (.v 3) .none .none .none 0))).isSome) = true ∧
    (wit (st (grp [(2, 5)] [(384, 0x3F800000), (385, 0x7FC00000), (386, 0x00000001), (512, 0xC0000000), (513,
      0x7F7FFFFF), (768, 0x3FC00000), (1024, 5), (1025, 1), (1152, 0x40000000)])) (.fexp2 (w 0 3 (.v 5)
      (.v 3) .none .none .none 0)) fun _ _ => (longs (.fexp2 (w 0 3 (.v 5)
      (.v 3) .none .none .none 0))).isSome) = true ∧
    (wit (st (grp [(2, 5)] [(384, 0x3F800000), (385, 0x7FC00000), (386, 0x00000001), (512, 0xC0000000), (513,
      0x7F7FFFFF), (768, 0x3FC00000), (1024, 5), (1025, 1), (1152, 0x40000000)])) (.flog2 (w 0 3 (.v 5)
      (.v 3) .none .none .none 0)) fun _ _ => (longs (.flog2 (w 0 3 (.v 5)
      (.v 3) .none .none .none 0))).isSome) = true ∧
    (wit (st (grp [(2, 5)] [(384, 0x3F800000), (385, 0x7FC00000), (386, 0x00000001), (512, 0xC0000000), (513,
      0x7F7FFFFF), (768, 0x3FC00000), (1024, 5), (1025, 1), (1152, 0x40000000)])) (.fsin (w 0 3 (.v 5)
      (.v 3) .none .none .none 0)) fun _ _ => (longs (.fsin (w 0 3 (.v 5)
      (.v 3) .none .none .none 0))).isSome) = true ∧
    (wit (st (grp [(2, 5)] [(384, 0x3F800000), (385, 0x7FC00000), (386, 0x00000001), (512, 0xC0000000), (513,
      0x7F7FFFFF), (768, 0x3FC00000), (1024, 5), (1025, 1), (1152, 0x40000000)])) (.fcos (w 0 3 (.v 5)
      (.v 3) .none .none .none 0)) fun _ _ => (longs (.fcos (w 0 3 (.v 5)
      (.v 3) .none .none .none 0))).isSome) = true ∧
    (wit (st (grp [(2, 5)] [(384, 0x3F800000), (385, 0x7FC00000), (386, 0x00000001), (512, 0xC0000000), (513,
      0x7F7FFFFF), (768, 0x3FC00000), (1024, 5), (1025, 1), (1152, 0x40000000)])) (.ftanh (w 0 3 (.v 5)
      (.v 3) .none .none .none 0)) fun _ _ => (longs (.ftanh (w 0 3 (.v 5)
      (.v 3) .none .none .none 0))).isSome) = true := by decide +kernel

/-- O16: a reduction to a uniform register and to lanes, a scan, and sizes of 3 that trap. -/
theorem witness_ReductionsAndScans :
    (wit (st (grp [(4, 4), (5, 3)] [(640, 7), (641, 9)])) (.redx (w 0 1 (.s 3) (.v 5) .none .none .none 0)) fun e f =>
      decide (e.grp.bad = [] ∧
      ((opRegs f.s2 1 [e.firstLane]).any e.grp.isEmpty = false ∨ f.fmt = 1 ∨ e.lanes = [])) &&
      opKind f.d == .s) = true ∧
    (wit (st (grp [(4, 4), (5, 3)] [(640, 7), (641, 9)])) (.redx (w 0 1 (.v 3) (.v 5)
      (.s 4) .none .none 0)) fun e f => let k := segSize f e; decide (e.grp.bad = [] ∧
      ((opRegs f.s2 1 [e.firstLane]).any e.grp.isEmpty = false ∨ f.fmt = 1 ∨ e.lanes = [])) && opKind f.d != .s &&
      k == 2 ^ 2) = true ∧
    (wit (st (grp [(4, 4), (5, 3)] [(640, 7), (641, 9)])) (.scan (w 0 1 (.v 10)
      (.v 5) .none .none .none 0)) fun e f => let k := segSize f e; decide (e.grp.bad = [] ∧
      ((opRegs f.s2 1 [e.firstLane]).any e.grp.isEmpty = false ∨ f.fmt = 1 ∨ e.lanes = [])) && k == 2 ^ 4) = true ∧
    (wit (st (grp [(4, 4), (5, 3)] [(640, 7), (641, 9)])) (.scan (w 0 1 (.v 10) (.v 5)
      (.s 5) .none .none 0)) fun e f => let k := segSize f e; decide (e.grp.bad = [] ∧
      ((opRegs f.s2 1 [e.firstLane]).any e.grp.isEmpty = false ∨ f.fmt = 1 ∨ e.lanes = [])) && k == 3) = true ∧
    (wit (st (grp [(4, 4), (5, 3)] [(640, 7), (641, 9)])) (.redx (w 0 1 (.v 3) (.v 5)
      (.s 5) .none .none 0)) fun e f => let k := segSize f e; decide (e.grp.bad = [] ∧
      ((opRegs f.s2 1 [e.firstLane]).any e.grp.isEmpty = false ∨ f.fmt = 1 ∨ e.lanes = [])) && opKind f.d != .s &&
      k == 3) = true := by decide +kernel

/-- O17: a producer with a lane and a uniform destination, one with predicates, and a posted write of two registers. -/
theorem witness_LongLatencyRegisters :
    ((env? st0 me).isSome && decide ((∀ x ∈ ([⟨⟨.p, 14, 0⟩, 1⟩, ⟨⟨.q, 7, 127⟩, 1⟩, ⟨⟨.q, 7, 0⟩, 0⟩] : List RegWrite),
      ((x.dst.file = .p ∧ x.dst.num < 16 ∧ x.dst.lane = 0) ∨ (x.dst.file = .q ∧ x.dst.num < 8 ∧ x.dst.lane < 128)) ∧
      (x.val = 0 ∨ x.val = 1)) ∧
      (([⟨⟨.p, 14, 0⟩, 1⟩, ⟨⟨.q, 7, 127⟩, 1⟩, ⟨⟨.q, 7, 0⟩, 0⟩] : List RegWrite).map (·.dst)).Nodup)) = true ∧
    ((env? st0 me).isSome && decide (∀ x ∈ ([⟨⟨.v, 5, 15⟩, 9⟩, ⟨⟨.s, 127, 0⟩, 8⟩] : List RegWrite), (x.dst.file = .v ∧
      x.dst.lane < 128) ∨ (x.dst.file = .s ∧ x.dst.num < 128 ∧ x.dst.lane = 0))) = true ∧
    (holds (posted (.regs false [⟨⟨.v, 5, 127⟩, 9⟩, ⟨⟨.s, 127, 0⟩, 8⟩]) st0) fun s => match s.pend? 7 with
      | some p => (env? s p.owner).isSome && (match p.kind with
        | .regs _ ws => decide ((ws.map (·.dst)).Nodup ∧ ∀ x ∈ ws, (x.dst.file = .v ∧
      x.dst.lane < 128) ∨ (x.dst.file = .s ∧ x.dst.num < 128 ∧ x.dst.lane = 0))
        | _ => false)
      | none => false) = true := by decide +kernel

/-- O18: every transfer, both forms of `call`, and `ipf`. -/
theorem witness_ControlTransfers :
    (wit (st (grp [(20, 0x7000), (30, 0x7000)] [])) (.nop (w 0 0 .none .none .none .none .none 0)) fun _ _ =>
      true) = true ∧
    (wit (st (grp [(20, 0x7000), (30, 0x7000)] [])) (.yield (w 6 0 .none .none .none .none .none 0)) fun _ _ =>
      true) = true ∧
    (wit (st (grp [(20, 0x7000), (30, 0x7000)] [])) (.bra (w 6 0 .none .none .none .none .none 0xFFFFFB)) fun _ _ =>
      true) = true ∧
    (wit (st (grp [(20, 0x7000), (30, 0x7000)] [])) (.jmpi (w 6 0 .none (.s 20) .none .none .none 0)) fun _ _ =>
      true) = true ∧
    (wit (st (grp [(20, 0x7000), (30, 0x7000)] [])) (.jmpiTab (w 6 0x80 .none (.s 20) .none .none .none 2)) fun _ _ =>
      true) = true ∧
    (wit (st (grp [(20, 0x7000), (30, 0x7000)] [])) (.ret (w 6 0 .none (.s 30) .none .none .none 0)) fun _ _ =>
      true) = true ∧
    (wit (st (grp [(20, 0x7000), (30, 0x7000)] [])) (.call (w 6 0 (.s 30) .none .none .none .none 10)) fun _ _ =>
      true) = true ∧
    (wit (st (grp [(20, 0x7000), (30, 0x7000)] [])) (.call (w 6 0x80 (.s 30) (.s 20) .none .none .none 0)) fun _ _ =>
      true) = true ∧
    (wit (st (grp [(20, 0x7000), (30, 0x7000)] [])) (.ipf (w 6 0 .none (.imm 4) .none .none .none 20)) fun _ _ =>
      true) = true := by decide +kernel

/-- O19: a trap that is entered; one that is not, because a handler runs, TVEC is 0, or TVEC is odd; `trap` and `brk`,
with DEBUG and without. -/
theorem witness_TrapEntry :
    (match env? st0 me with | some e => !e.grp.inTrap && e.grp.tvec != 0 && e.grp.tvec.toNat % 4 == 0 | none => false) = true ∧
    (match env? (st { grp [] [] with trapInfo := 0x10000 }) me with | some e => e.grp.inTrap || e.grp.tvec == 0 || e.grp.tvec.toNat % 4 != 0 | none => false) = true ∧
    (match env? (st { grp [] [] with tvec := 0 }) me with | some e => e.grp.inTrap || e.grp.tvec == 0 || e.grp.tvec.toNat % 4 != 0 | none => false) = true ∧
    (match env? (st { grp [] [] with tvec := 0x4002 }) me with | some e => e.grp.inTrap || e.grp.tvec == 0 || e.grp.tvec.toNat % 4 != 0 | none => false) = true ∧
    (wit (st0) (.trap (w 6 0 .none (.imm 5) .none .none .none 0)) fun _ _ => true) = true ∧
    (wit (st0) (.brk (w 6 0 .none .none .none .none .none 0)) fun e _ => !(e.st.ctx e.team.ctx).debug) = true ∧
    (wit (ctx (fun c => { c with debug := true }) st0) (.brk (w 6 0 .none .none .none .none .none 0)) fun e _ =>
      (e.st.ctx e.team.ctx).debug) = true := by decide +kernel

/-- O20: `tret` and `tret.next` in a handler and outside one; `tret` from a PAGE trap whose fault is unanswered,
answered and declined. -/
theorem witness_TrapReturn :
    (wit (st { grp [] [] with trapInfo := 0x10001, trapPc := 0x3100, pc := 0x4000 })
      (.tret (w 6 0 .none .none .none .none .none 0)) fun e _ => e.grp.inTrap && e.grp.region.isNone &&
      (false || e.grp.trapInfo.toNat % 64 != 4)) = true ∧
    (wit (st { ({ grp [] [] with trapInfo := 0x10001, trapPc := 0x3100, pc := 0x4000 }) with trapInfo := 0x30004, repCtr := 0x41 })
      (.tretNext (w 6 0x80 .none .none .none .none .none 0)) fun e _ => e.grp.inTrap && e.grp.region.isNone) = true ∧
    (wit (st0) (.tret (w 6 0 .none .none .none .none .none 0)) fun e _ => !e.grp.inTrap) = true ∧
    (wit (st { grp [] [] with trapInfo := 0x10001, trapPc := 0x3100, pc := 0x4000 })
      (.tretNext (w 6 0x80 .none .none .none .none .none 0)) fun e _ => e.grp.inTrap && e.grp.region.isNone &&
      (true || e.grp.trapInfo.toNat % 64 != 4)) = true ∧
    (wit (st { ({ grp [] [] with trapInfo := 0x10001, trapPc := 0x3100, pc := 0x4000 }) with trapInfo := 0x30004, repCtr := 0x41 })
      (.tretNext (w 6 0x80 .none .none .none .none .none 0)) fun e _ => e.grp.inTrap && e.grp.region.isNone) = true ∧
    (wit (st0) (.tretNext (w 6 0x80 .none .none .none .none .none 0)) fun e _ => !e.grp.inTrap) = true ∧
    (wit (ctx (fun c => { c with faults := [⟨3, 0x5000, 1, 0, none⟩] })
      (st { ({ grp [] [] with trapInfo := 0x10001, trapPc := 0x3100, pc := 0x4000 }) with trapInfo := 0x10004, faultOrd := some (3, 0x5000, 1, 0) }))
      (.tret (w 6 0 .none .none .none .none .none 0)) fun e _ => e.grp.inTrap && e.grp.region.isNone &&
      !e.grp.trapInfo.getLsbD 17 && e.grp.trapInfo.toNat % 64 == 4 && e.grp.faultOrd == some (3, 0x5000, 1, 0) &&
      faultAnswer e.st e.team.ctx 3 == none) = true ∧
    (wit (ctx (fun c => { c with faults := [⟨3, 0x5000, 1, 0, some true⟩] })
      (st { ({ grp [] [] with trapInfo := 0x10001, trapPc := 0x3100, pc := 0x4000 }) with trapInfo := 0x10004, faultOrd := some (3, 0x5000, 1, 0) }))
      (.tret (w 6 0 .none .none .none .none .none 0)) fun e _ => e.grp.inTrap && e.grp.region.isNone &&
      !e.grp.trapInfo.getLsbD 17 && e.grp.trapInfo.toNat % 64 == 4 && e.grp.faultOrd == some (3, 0x5000, 1, 0) &&
      faultAnswer e.st e.team.ctx 3 == some true) = true ∧
    (wit (ctx (fun c => { c with faults := [⟨3, 0x5000, 1, 0, some false⟩] })
      (st { ({ grp [] [] with trapInfo := 0x10001, trapPc := 0x3100, pc := 0x4000 }) with trapInfo := 0x10004, faultOrd := some (3, 0x5000, 1, 0) }))
      (.tret (w 6 0 .none .none .none .none .none 0)) fun e _ => e.grp.inTrap && e.grp.region.isNone &&
      !e.grp.trapInfo.getLsbD 17 && e.grp.trapInfo.toNat % 64 == 4 && e.grp.faultOrd == some (3, 0x5000, 1, 0) &&
      faultAnswer e.st e.team.ctx 3 == some false) = true := by decide +kernel

/-- O21: `rgn.open` outside a region, `rgn.close` in one; a region with a buffered store that commits; a fault in a
region with a load in flight; and outside one, with room in the queue and with none. -/
theorem witness_IdempotentRegions :
    (wit (st0) (.rgnOpen (w 3 0 .none .none .none .none .none 0)) fun e _ => e.grp.region.isNone) = true ∧
    (wit (st { grp [(8, 0x8000), (10, 0x20)] [] with region := some ⟨0x3000, [], 0, 0, [⟨0x9000, 0x9000, 0, 0, false, false, [1, 2, 3, 4]⟩], false⟩ })
      (.rgnOpen (w 3 0 .none .none .none .none .none 0)) fun e _ => e.grp.region.isSome) = true ∧
    (wit (st { grp [(8, 0x8000), (10, 0x20)] [] with region := some ⟨0x3000, [], 0, 0, [⟨0x9000, 0x9000, 0, 0, false, false, [1, 2, 3, 4]⟩], false⟩ })
      (.rgnClose (w 3 1 .none .none .none .none .none 0)) fun _ _ => true) = true ∧
    (holds (st { grp [(8, 0x8000), (10, 0x20)] [] with region := some ⟨0x3000, [], 0, 0, [⟨0x9000, 0x9000, 0, 0, false, false, [1, 2, 3, 4]⟩], false⟩ }) fun s =>
      match env? s me with | some e => e.grp.region.isSome | none => false) = true ∧
    (holds (posted (.regs true [⟨⟨.v, 5, 127⟩, 9⟩])
      (st { grp [] [] with region := some ⟨0x3000, [], 0, 0, [⟨0x9000, 0x9000, 0, 0, false, false, [1, 2, 3, 4]⟩], false⟩, vEmpty := [(5, 2 ^ 127)] })) fun s =>
      match env? s me, s.pend? 7 with
      | some e, some p => e.grp.region.isSome && p.owner == e.gid &&
      (match p.kind with | .regs rgn _ => rgn | _ => false)
      | _, _ => false) = true ∧
    (holds (st0) fun s => match env? s me with
      | some e => e.grp.region.isNone && !e.grp.inTrap && e.grp.tvec != 0 && e.grp.tvec.toNat % 4 == 0 &&
        (match postFault e.team.ctx 0x5000 1 (agentOf e.team.core 0) s with
          | (s1, ord) => faultPosted s1 e.team.ctx ord)
      | none => false) = true ∧
    (holds (ctx (fun c => { c with fqPub := 4096 }) st0) fun s => match env? s me with
      | some e => e.grp.region.isNone && (match postFault e.team.ctx 0x5000 1 (agentOf e.team.core 0) s with
          | (s1, ord) => !faultPosted s1 e.team.ctx ord)
      | none => false) = true := by decide +kernel

/-- O22: the last word of the scratchpad window and of the ring window; pool bytes without errors. -/
theorem witness_LocalWindows :
    (match localLook st0 (team []) 0xFFC 4 4 with | .ok _ => true | .error _ => false) = true ∧
    (match localLook st0 (team []) 0x40000FFC 4 4 with | .ok _ => true | .error _ => false) = true ∧
    (holds (st0) fun s => decide (∀ x ∈ List.range 2,
      Assoc.get? s.poolErr (0x100000 / 8 + x) = none)) = true := by decide +kernel

/-- O23: a load, a store and an atomic of every lane in the window, the last lane at its end; a load whose first lane
lies beyond it; a store that an earlier `gath.list` holds up. -/
theorem witness_LocalAccesses :
    (wit (st (grp [(3, 0xFC0)] [(256, 0), (257, 4), (258, 8), (259, 12), (260, 16), (261, 20), (262, 24), (263, 28),
      (264, 32), (265, 36), (266, 40), (267, 44), (268, 48), (269, 52), (270, 56), (271, 60)])) (.ldl (w 3 2 (.v 7)
      (.s 3) (.v 2) .none .none 0)) fun e f => let n := szBytes f;
      let look := resolveLocal e (e.localAddr f (fDisp10 f * n)) n n 0 (e.memLanes f); match look with
      | .ok xs => xs.length == 16 && decide ((∀ x ∈ xs, localBlocked e x.2.2.1 n = false) ∧ laneBad e.st n xs = none)
      | .error _ => false) = true ∧
    (wit (st (grp [(3, 0x1000)] [(256, 0), (257, 4), (258, 8), (259, 12), (260, 16), (261, 20), (262, 24), (263, 28),
      (264, 32), (265, 36), (266, 40), (267, 44), (268, 48), (269, 52), (270, 56), (271, 60)])) (.ldl (w 3 2 (.v 7)
      (.s 3) (.v 2) .none .none 0)) fun e f => let n := szBytes f;
      let look := resolveLocal e (e.localAddr f (fDisp10 f * n)) n n 0 (e.memLanes f);
      match look with | .ok _ => false | .error _ => true) = true ∧
    (wit (st (grp [(3, 0xFC0)] [(256, 0), (257, 4), (258, 8), (259, 12), (260, 16), (261, 20), (262, 24), (263, 28),
      (264, 32), (265, 36), (266, 40), (267, 44), (268, 48), (269, 52), (270, 56), (271, 60)]))
      (.stl (w 3 2 .none (.s 3) (.v 2) (.v 9) .none 0)) fun e f => match released e (fOrd f) (fScope f) with
      | some e' => let n := szBytes f;
      let look := resolveLocal e' (e'.localAddr f (fDisp10 f * n)) n n 1 (e'.memLanes f);
      (match look with | .ok xs => xs.length == 16 && xs.all (fun x => !localHeld e' x.2.2.1 n) | .error _ => false)
      | none => false) = true ∧
    (wit (posted (.garnet ⟨true, 0x100, 0xFC0, 4, 4, 0x8000, none, 0, 20, 0, none⟩) (st (grp [(3, 0xFC0)] [(256, 0)])))
      (.stl (w 3 2 .none (.s 3) (.v 2) (.v 9) .none 0)) fun e f => match released e (fOrd f) (fScope f) with
      | some e' => let n := szBytes f;
      let look := resolveLocal e' (e'.localAddr f (fDisp10 f * n)) n n 1 (e'.memLanes f);
      (match look with | .ok xs => xs.any (fun x => localHeld e' x.2.2.1 n) && fOrd f == 0 | .error _ => false)
      | none => false) = true ∧
    (wit (st (grp [(3, 0xFC0)] [(256, 0), (257, 4), (258, 8), (259, 12), (260, 16), (261, 20), (262, 24), (263, 28),
      (264, 32), (265, 36), (266, 40), (267, 44), (268, 48), (269, 52), (270, 56), (271, 60)])) (.atoml (w 3 2 (.v 3)
      (.s 3) (.v 2) (.v 4) .none 0x240)) fun e f => match released (committed e) (fOrd f) (fScope f) with
      | some e' => let n := szBytes f;
      let look := resolveLocal e' (e'.localAddr f (fDisp6 f * n)) n n 2 (e'.memLanes f); (match look with
        | .ok xs => xs.length == 16 && decide ((∀ x ∈ xs, localBlocked e' x.2.2.1 n = false ∧ localHeld e' x.2.2.1 n = false) ∧
      laneBad e'.st n xs = none)
        | .error _ => false)
      | none => false) = true := by decide +kernel

/-- O24: `bset` on a page that can be read and on one that cannot; an access that ends at the last byte of a region.
-/
theorem witness_BaseRegistersAndBounds :
    (wit (st (grp [(8, 0x8000), (10, 0x20)] [])) (.bset (w 3 0 (.b 2) (.s 8) (.s 10) .none .none 0)) fun e f =>
      let ptr := ofSigned 64 ((e.wide 0 f.s1 2 : Nat) + e.offset 0 f.s2 + fDisp10 f); let c := e.team.ctx;
      let va := ptr % 2 ^ 57; let bound := baseBound e.st c (ptr / 2 ^ 57) va;
      match basePage bound.1 c (ptr / 2 ^ 57) va with
      | (t, some (some (_, p, l))) =>
      (match runFrom c (ptr / 2 ^ 57) va (pageAttrs p l va).1 (pageAttrs p l va).2.1 (pageAttrs p l va).2.2.1
         (min (2 ^ 21) (min bound.2 (2 ^ 57 - va))) 514 t 0 true with | (_, some _) => true | _ => false)
      | _ => false) = true ∧
    (wit (st (grp [(8, 0x40000000), (10, 0x20)] [])) (.bset (w 3 0 (.b 2) (.s 8) (.s 10) .none .none 0)) fun e f =>
      let ptr := ofSigned 64 ((e.wide 0 f.s1 2 : Nat) + e.offset 0 f.s2 + fDisp10 f); let c := e.team.ctx;
      let va := ptr % 2 ^ 57; let bound := baseBound e.st c (ptr / 2 ^ 57) va;
      match basePage bound.1 c (ptr / 2 ^ 57) va with | (_, some none) => true | _ => false) = true ∧
    (holds (mem 0x6010 16 (0x8000 + 0x40 * 2 ^ 64 + 0x16 * 2 ^ 120) (ctx (fun c =>
      { c with btBase := 0x6000 }) st0)) fun s =>
      match translate s 239 1 0x803C 4 .read with | (_, .ok _ _) => true | _ => false) = true ∧
    (holds (mem 0x6010 16 (0x8000 + 0x40 * 2 ^ 64 + 0x16 * 2 ^ 120) (ctx (fun c =>
      { c with btBase := 0x6000 }) st0)) fun s =>
      match translate s 239 1 0x803C 4 .write with | (_, .ok _ _) => true | _ => false) = true := by decide +kernel

/-- O25: the last bytes of a sector. -/
theorem witness_HomeReadsWhatWasWritten :
    (holds (st0) fun s => !inMgmt 0x803E && !(homeRead s 0x803E 2).2.2) = true := by decide +kernel

/-- O26: a load of every lane, the last at the end of a page; one that faults; one that traps; `ldc` inside the block
and beyond its end. -/
theorem witness_GlobalLoads :
    (wit (st (grp [(8, 0x8FC0)] [(256, 0), (257, 4), (258, 8), (259, 12), (260, 16), (261, 20), (262, 24), (263, 28),
      (264, 32), (265, 36), (266, 40), (267, 44), (268, 48), (269, 52), (270, 56), (271, 60)])) (.ldg (w 3 2 (.v 7)
      (.s 8) (.v 2) .none .none 0)) fun e f => let e1 := if fOrd f = 1 then committed e else e; let n := szBytes f;
      let look := resolveGlobal e1 (e1.gbase f.s1) (e1.globalDisp f) n n .read allowAll e1.st (e1.memLanes f);
      match look with
      | .ok (s1, xs) => xs.length == 16 &&
          decide (∀ x ∈ xs, loadWaits e1 s1 f.ch.toNat x n = false ∧ listBlocks e1 s1 false x.loc n = false) &&
          (match loadLanes e1 f f.ch.toNat s1 xs with | (_, .ok _) => true | _ => false)
      | .error _ => false) = true ∧
    (wit (st (grp [(8, 0x8FC0)] [(256, 0), (257, 4), (258, 8), (259, 12), (260, 16), (261, 20), (262, 24), (263, 28),
      (264, 32), (265, 36), (266, 40), (267, 44), (268, 48), (269, 52), (270, 56), (271, 60)]))
      (.ldg (w 3 0x152 (.v 7) (.s 8) (.v 2) .none .none 0)) fun e f =>
      let e1 := if fOrd f = 1 then committed e else e; let n := szBytes f;
      let look := resolveGlobal e1 (e1.gbase f.s1) (e1.globalDisp f) n n .read allowAll e1.st (e1.memLanes f);
      match look with
      | .ok (s1, xs) => xs.length == 16 &&
          decide (∀ x ∈ xs, loadWaits e1 s1 f.ch.toNat x n = false ∧ listBlocks e1 s1 false x.loc n = false) &&
          (match loadLanes e1 f f.ch.toNat s1 xs with | (_, .ok _) => true | _ => false)
      | .error _ => false) = true ∧
    (wit (st (grp [(8, 0x3FFFFFC4)] [(256, 0), (257, 4), (258, 8), (259, 12), (260, 16), (261, 20), (262, 24), (263,
      28), (264, 32), (265, 36), (266, 40), (267, 44), (268, 48), (269, 52), (270, 56), (271, 60)]))
      (.ldg (w 3 2 (.v 7) (.s 8) (.v 2) .none .none 0)) fun e f => let e1 := if fOrd f = 1 then committed e else e;
      let n := szBytes f; let look := resolveGlobal e1 (e1.gbase f.s1) (e1.globalDisp f) n n .read allowAll e1.st (e1.memLanes f);
      match look with | .error (.fault _ _ _ _) => true | _ => false) = true ∧
    (wit (st (grp [(8, 0x8FC2)] [(256, 0), (257, 4), (258, 8), (259, 12), (260, 16), (261, 20), (262, 24), (263, 28),
      (264, 32), (265, 36), (266, 40), (267, 44), (268, 48), (269, 52), (270, 56), (271, 60)])) (.ldg (w 3 2 (.v 7)
      (.s 8) (.v 2) .none .none 0)) fun e f => let e1 := if fOrd f = 1 then committed e else e; let n := szBytes f;
      let look := resolveGlobal e1 (e1.gbase f.s1) (e1.globalDisp f) n n .read allowAll e1.st (e1.memLanes f);
      match look with | .error (.trap _ _) => true | _ => false) = true ∧
    (wit (device { team [grp [] []] with argBase := 0x8000, argSize := 16 })
      (.ldc (w 3 2 (.s 5) .none (.imm 12) .none .none 0)) fun e f => let n := szBytes f;
      match resolveArgs e f e.st (e.memLanes f) with
      | .ok (s1, xs) => decide (∀ x ∈ xs, loadWaits e s1 2 x n = false ∧ listBlocks e s1 false x.loc n = false) &&
          (match loadLanes e f 2 s1 xs with | (_, .ok _) => true | _ => false)
      | .error _ => false) = true ∧
    (wit (device { team [grp [] []] with argBase := 0x8000, argSize := 15 })
      (.ldc (w 3 2 (.s 5) .none (.imm 12) .none .none 0)) fun e f => let n := szBytes f; decide (e.memLanes f = [0] ∧
      (e.globalDisp f 0 < 0 ∨ (e.team.argSize : Int) < e.globalDisp f 0 + n))) = true := by decide +kernel

/-- O27: a store outside a region; one that fills the 48 lines of a region, and one that exceeds them; a releasing
store; a posted store at its cache level. -/
theorem witness_GlobalStores :
    (wit (st (grp [(8, 0x8FC0)] [(256, 0), (257, 4), (258, 8), (259, 12), (260, 16), (261, 20), (262, 24), (263, 28),
      (264, 32), (265, 36), (266, 40), (267, 44), (268, 48), (269, 52), (270, 56), (271, 60)]))
      (.stg (w 3 2 .none (.s 8) (.v 2) (.v 9) .none 0)) fun e f => let n := szBytes f;
      let look := resolveGlobal e (e.gbase f.s1) (e.globalDisp f) n n .write allowAll e.st (e.memLanes f);
      match look with
      | .ok (s1, xs) => decide (∀ x ∈ xs, listBlocks e s1 true x.loc n = false) && e.grp.region.isNone
      | .error _ => false) = true ∧
    (wit (st (grp [(8, 0x8FC2)] [(256, 0), (257, 4), (258, 8), (259, 12), (260, 16), (261, 20), (262, 24), (263, 28),
      (264, 32), (265, 36), (266, 40), (267, 44), (268, 48), (269, 52), (270, 56), (271, 60)]))
      (.stg (w 3 2 .none (.s 8) (.v 2) (.v 9) .none 0)) fun e f => let n := szBytes f;
      let look := resolveGlobal e (e.gbase f.s1) (e.globalDisp f) n n .write allowAll e.st (e.memLanes f);
      match look with | .ok _ => false | .error _ => true) = true ∧
    (wit (st { grp [(8, 0x8FC0)] [(256, 0), (257, 4), (258, 8), (259, 12), (260, 16), (261, 20), (262, 24), (263, 28), (264, 32), (265, 36), (266, 40), (267, 44), (268, 48), (269, 52), (270, 56), (271, 60)] with region := some ⟨0x3000, [], 0, 0, (List.range 47).map fun k => ⟨0x10000 + 128 * k, 0x10000 + 128 * k, 0, 0, false, false, [1]⟩, false⟩ })
      (.stg (w 3 2 .none (.s 8) (.v 2) (.v 9) .none 0)) fun e f => let n := szBytes f;
      let look := resolveGlobal e (e.gbase f.s1) (e.globalDisp f) n n .write allowAll e.st (e.memLanes f);
      let store (x : LaneAcc) : Store := ⟨x.loc, x.va, BitVec.ofNat 2 x.ca, if x.ca = 0 then f.ch else 0, false, false, toBytes n (e.wide x.lane f.s3 (szRegs (fSz f)))⟩;
      match look with
      | .ok (s1, xs) => decide (∀ x ∈ xs, listBlocks e s1 true x.loc n = false) &&
      (match e.grp.region with | some r => decide ((storeLines (r.buf ++ xs.map store)).length = 48) | none => false)
      | .error _ => false) = true ∧
    (wit (st { grp [(8, 0x8FC0)] [(256, 0), (257, 4), (258, 8), (259, 12), (260, 16), (261, 20), (262, 24), (263, 28), (264, 32), (265, 36), (266, 40), (267, 44), (268, 48), (269, 52), (270, 56), (271, 60)] with region := some ⟨0x3000, [], 0, 0, (List.range 48).map fun k => ⟨0x10000 + 128 * k, 0x10000 + 128 * k, 0, 0, false, false, [1]⟩, false⟩ })
      (.stg (w 3 2 .none (.s 8) (.v 2) (.v 9) .none 0)) fun e f => let n := szBytes f;
      let look := resolveGlobal e (e.gbase f.s1) (e.globalDisp f) n n .write allowAll e.st (e.memLanes f);
      let store (x : LaneAcc) : Store := ⟨x.loc, x.va, BitVec.ofNat 2 x.ca, if x.ca = 0 then f.ch else 0, false, false, toBytes n (e.wide x.lane f.s3 (szRegs (fSz f)))⟩;
      match look with
      | .ok (s1, xs) => decide (∀ x ∈ xs, listBlocks e s1 true x.loc n = false) &&
      (match e.grp.region with | some r => decide ((storeLines (r.buf ++ xs.map store)).length = 49) | none => false)
      | .error _ => false) = true ∧
    (wit (st (grp [(8, 0x8FC0)] [(256, 0), (257, 4), (258, 8), (259, 12), (260, 16), (261, 20), (262, 24), (263, 28),
      (264, 32), (265, 36), (266, 40), (267, 44), (268, 48), (269, 52), (270, 56), (271, 60)]))
      (.stg (w 3 0x162 .none (.s 8) (.v 2) (.v 9) .none 0)) fun e f => fOrd f == 2 &&
      (match released (committed e) 2 (fScope f) with
      | some e' => (match resolveGlobal e' (e'.gbase f.s1) (e'.globalDisp f) (szBytes f) (szBytes f) .write allowAll e'.st (e'.memLanes f) with
        | .ok (s1, xs) => decide (∀ x ∈ xs, listBlocks e' s1 true x.loc (szBytes f) = false)
        | .error _ => false)
      | none => false)) = true ∧
    (holds (posted (.store ⟨0x9000, 0x9000, 0, 0, true, false, [1, 2]⟩) st0) fun s => match s.pend? 7 with
      | some p => (match p.kind with
        | .store x => (!x.scat || !mustWait s p.owner (some 7) x.loc x.data.length) && !storeAfter s p x &&
            (x.toRdc (coreDie p.core) || !lineHeld s x.loc x.data.length)
        | _ => false)
      | none => false) = true ∧
    (holds (posted (.store ⟨0x9000, 0x9000, 0, 0, true, false, [1, 2]⟩) { st0 with snoop := [0x9000 / 128] }) fun s => match s.pend? 7 with
      | some p => (match p.kind with
        | .store x => (!x.scat || !mustWait s p.owner (some 7) x.loc x.data.length) && !storeAfter s p x &&
            !x.toRdc (coreDie p.core) && lineHeld s x.loc x.data.length
        | _ => false)
      | none => false) = true := by decide +kernel

/-- O28: a prefetch; a range with a dirty line cleaned and invalidated; every fence with a dirty line in the RDC; the
two widest scopes. -/
theorem witness_RangesAndFences :
    (wit (st (grp [(8, 0x8000), (10, 256)] [])) (.pfg (w 3 2 .none (.s 8) (.v 6) .none .none 0)) fun _ _ =>
      true) = true ∧
    (wit (st (grp [(8, 0x8000), (10, 256)] [])) (.wbr (w 3 0 .none (.s 8) .none (.s 10) .none 0)) fun e f =>
      match laneRanges f e with
      | .ok (s1, ps) => !ps.isEmpty && decide ((∀ p ∈ s1.pend, p.owner ≠ e.gid) ∧ ∀ l ∈ dirtyIn s1 e.die ps,
      lineHeld s1 (128 * l) 128 = false)
      | .error _ => false) = true ∧
    (wit (st (grp [(8, 0x8000), (10, 256)] [])) (.invrL1 (w 3 1 .none (.s 8) .none (.s 10) .none 0)) fun e f =>
      match laneRanges f e with | .ok (_, ps) => inPieces ps 0x101 | .error _ => false) = true ∧
    (wit (st (grp [(8, 0x8000), (10, 256)] [])) (.invr (w 3 0 .none (.s 8) .none (.s 10) .none 0)) fun e f =>
      match laneRanges f e with | .ok (s1, ps) => inPieces ps 0x101 && decide (∀ l ∈ dirtyIn s1 e.die ps, lineHeld s1 (128 * l) 128 = false) | .error _ => false) = true ∧
    (wit (st0) (.fenceAcq (w 3 0xD0 .none .none .none .none .none 0)) fun _ _ => true) = true ∧
    (wit (st0) (.fenceRel (w 3 0x160 .none .none .none .none .none 0)) fun e f => (release (committed e)
      (fScope f)).isSome) = true ∧
    (wit (st { grp [(8, 0x8000), (10, 0x20)] [] with region := some ⟨0x3000, [], 0, 0, [⟨0x9000, 0x9000, 0, 0, false, false, [1, 2, 3, 4]⟩], false⟩ })
      (.fenceAr (w 3 0x1F0 .none .none .none .none .none 0)) fun e f => e.grp.region.isSome && (release (committed e)
      (fScope f)).isNone) = true ∧
    (wit (st0) (.fenceAr (w 3 0x1F0 .none .none .none .none .none 0)) fun e f => (release (committed e)
      (fScope f)).isSome) = true ∧
    (wit (st0) (.fenceMs (w 3 0x140 .none .none .none .none .none 0)) fun e f =>
      match release (committed e) (fScope f) with | some s1 => !msWaits ((committed e).at s1) (fScope f) | none => false) = true ∧
    (wit ({ st0 with icache := [(0x60, 5)] }) (.ifence (w 3 0x150 .none .none .none .none .none 0)) fun _ _ =>
      true) = true ∧
    (holds ({ st0 with rdc := [(2 ^ 33 + 5, ⟨1, 3, 3, 0, 0⟩)] }) fun s =>
      (match env? s me with | some e => (release e 5).isSome && decide (rdcDirty s 0 = [2 ^ 33 + 5]) | none => false) &&
      Assoc.sorted s.rdc) = true := by decide +kernel

/-- O29: a posted and a returning `atomg` in which pairs of lanes name one address; `gath` and `scat` of every lane.
-/
theorem witness_SliceLaneForms :
    (wit (st (grp [(8, 0x8FC0)] [(256, 0), (257, 0), (258, 4), (259, 4), (260, 8), (261, 8), (262, 12), (263, 12),
      (264, 16), (265, 16), (266, 20), (267, 20), (268, 24), (269, 24), (270, 28), (271, 28)]))
      (.atomg (w 3 2 .none (.s 8) (.v 2) (.v 9) .none 0)) fun e f => match atomgCheck f e with
      | .ok (s1, xs) => (match released (committed (e.at s1)) (fOrd f) (fScope f) with
        | some e' => let n := szBytes f;
          let reqs := (byAddress xs).map fun y => (mkRequest f e' y.1 y.2.1 y.2.2, y.2.2);
          xs.length == 16 && reqs.length == 8 && decide (atomgsOut e'.st e.core < 64) && !mustWait e'.st e.gid none 0 0 &&
          decide (∀ x ∈ xs, listBlocks e' e'.st true x.loc n = false) && !giveUpHeld e'.st e.die (sendList n true xs)
        | none => false)
      | .error _ => false) = true ∧
    (wit (st (grp [(8, 0x8FC0)] [(256, 0), (257, 0), (258, 4), (259, 4), (260, 8), (261, 8), (262, 12), (263, 12),
      (264, 16), (265, 16), (266, 20), (267, 20), (268, 24), (269, 24), (270, 28), (271, 28)])) (.atomg (w 3 2 (.v 20)
      (.s 8) (.v 2) (.v 9) .none 0)) fun e f => match atomgCheck f e with
      | .ok (s1, xs) => (match released (committed (e.at s1)) (fOrd f) (fScope f) with
        | some e' => let n := szBytes f;
          let reqs := (byAddress xs).map fun y => (mkRequest f e' y.1 y.2.1 y.2.2, y.2.2);
          let sent := sendSteps e.die e.core true (sendList n true xs) e'.st;
          reqs.length == 8 && decide (atomgsOut e'.st e.core < 64) && !mustWait e'.st e.gid none 0 0 &&
          decide (∀ x ∈ xs, listBlocks e' e'.st true x.loc n = false ∧ mustWait e'.st e.gid none x.loc n = false ∧
            lineHeld e'.st x.loc n = false) && !giveUpHeld e'.st e.die (sendList n true xs) &&
          (performNow f e.die sent reqs).2.2 == []
        | none => false)
      | .error _ => false) = true ∧
    (wit (st (grp [(8, 0x8FC0)] [(256, 0), (257, 0), (258, 4), (259, 4), (260, 8), (261, 8), (262, 12), (263, 12),
      (264, 16), (265, 16), (266, 20), (267, 20), (268, 24), (269, 24), (270, 28), (271, 28)])) (.gath (w 3 2 (.v 20)
      (.s 8) (.v 2) .none .none 0)) fun e f => let e1 := if fOrd f = 1 then committed e else e; let n := szBytes f;
      let look := resolveGlobal e1 (e1.gbase f.s1) (e1.element f) n n .read allowAll e1.st (e1.memLanes f);
      match look with
      | .ok (s1, xs) => xs.length == 16 && decide (∀ x ∈ xs, mustWait s1 e.gid none x.loc n = false ∧
      lineHeld s1 x.loc n = false ∧
          listBlocks e1 s1 false x.loc n = false) &&
      (match gathLanes f e1 s1 xs with | (_, .ok _) => true | _ => false)
      | .error _ => false) = true ∧
    (wit (st (grp [(8, 0x8FC0)] [(256, 0), (257, 0), (258, 4), (259, 4), (260, 8), (261, 8), (262, 12), (263, 12),
      (264, 16), (265, 16), (266, 20), (267, 20), (268, 24), (269, 24), (270, 28), (271, 28)]))
      (.gath (w 3 338 (.v 20) (.s 8) (.v 2) .none .none 0)) fun e f =>
      let e1 := if fOrd f = 1 then committed e else e; let n := szBytes f;
      let look := resolveGlobal e1 (e1.gbase f.s1) (e1.element f) n n .read allowAll e1.st (e1.memLanes f);
      match look with
      | .ok (s1, xs) => xs.length == 16 && decide (∀ x ∈ xs, mustWait s1 e.gid none x.loc n = false ∧
      lineHeld s1 x.loc n = false ∧
          listBlocks e1 s1 false x.loc n = false) &&
      (match gathLanes f e1 s1 xs with | (_, .ok _) => true | _ => false)
      | .error _ => false) = true ∧
    (wit (st (grp [(8, 0x8FC0)] [(256, 0), (257, 0), (258, 4), (259, 4), (260, 8), (261, 8), (262, 12), (263, 12),
      (264, 16), (265, 16), (266, 20), (267, 20), (268, 24), (269, 24), (270, 28), (271, 28)]))
      (.scat (w 3 2 .none (.s 8) (.v 2) (.v 9) .none 0)) fun e f =>
      match (if fOrd f = 2 then released (committed e) 2 (fScope f) else some e) with
      | some e' => let n := szBytes f;
      let look := resolveGlobal e' (e'.gbase f.s1) (e'.element f) n n .write allowAll e'.st (e'.memLanes f);
      (match look with
        | .ok (s1, xs) => decide (∀ x ∈ xs, listBlocks e' s1 true x.loc n = false) && e'.grp.region.isNone &&
          !mustWait s1 e.gid none 0 0 && !giveUpHeld s1 e.die (sendList n false xs)
        | .error _ => false)
      | none => false) = true ∧
    (wit (st (grp [(8, 0x8FC0)] [(256, 0), (257, 0), (258, 4), (259, 4), (260, 8), (261, 8), (262, 12), (263, 12),
      (264, 16), (265, 16), (266, 20), (267, 20), (268, 24), (269, 24), (270, 28), (271, 28)]))
      (.scat (w 3 354 .none (.s 8) (.v 2) (.v 9) .none 0)) fun e f =>
      match (if fOrd f = 2 then released (committed e) 2 (fScope f) else some e) with
      | some e' => let n := szBytes f;
      let look := resolveGlobal e' (e'.gbase f.s1) (e'.element f) n n .write allowAll e'.st (e'.memLanes f);
      (match look with
        | .ok (s1, xs) => decide (∀ x ∈ xs, listBlocks e' s1 true x.loc n = false) && e'.grp.region.isNone &&
          !mustWait s1 e.gid none 0 0 && !giveUpHeld s1 e.die (sendList n false xs)
        | .error _ => false)
      | none => false) = true := by decide +kernel

/-- O30: a posted request of two lanes, the second half of a `bf16x2` one, a training; a list of one element, of none
and of too many; elements that are read, stored and skipped; an answered fault. -/
theorem witness_SliceRequestsAndLists :
    (holds (posted (.atom ⟨1, 0x8FC0, 0, 0, false, [⟨3, 0⟩, ⟨5, 0⟩], 7, false, false⟩)
      (mem 0x8FC0 4 0x10 st0)) fun s => match s.pend? 7 with
      | some p => (match p.kind with
        | .atom r => r.aop != 11 && !mustWait s p.owner (some 7) r.loc (if r.wide then 8 else 4) &&
      !lineHeld s r.loc 4 &&
            (match atomRead s 0 r 4 with | (_, _, bad) => !bad)
        | _ => false)
      | none => false) = true ∧
    (holds ({ (posted (.atom ⟨1, 0x8FC0, 0, 0, false, [⟨3, 0⟩, ⟨5, 0⟩], 7, false, false⟩) (mem 0x8FC0 4 0x10 st0)) with ecc := [(0x8FC0 / 8, .poison)] }) fun s =>
      match s.pend? 7 with
      | some p => (match p.kind with
        | .atom r => (match atomRead s 0 r 4 with | (_, _, bad) => bad)
        | _ => false)
      | none => false) = true ∧
    (holds (posted (.atom ⟨1, 0x8FC0, 0, 11, false, [⟨3, 0⟩, ⟨5, 0⟩], 7, true, false⟩)
      (mem 0x8FC0 4 0x10 st0)) fun s => match s.pend? 7 with
      | some p => (match p.kind with
        | .atom r => r.aop == 11 && !r.wide && r.lo && !r.hi && !mustWait s p.owner (some 7) r.loc 4 &&
      !lineHeld s r.loc 4
        | _ => false)
      | none => false) = true ∧
    (holds (posted (.train 0x8FC0 2 1 false) st0) fun s => match s.pend? 7 with
      | some p => !mustWait s p.owner (some 7) 0x8FC0 8 && !lineHeld s 0x8FC0 8
      | none => false) = true ∧
    (wit (st (grp [(8, 0x8000), (10, 0x100), (12, 0x200), (13, 4097)] [])) (.gathList (w 3 2 (.s 20) (.s 8) (.s 10)
      (.s 12) .none 0x40)) fun e f => let e1 := committed e;
      let count := e1.n32 0 (.op (match f.s3 with | .s k => .s (k + 1) | o => o)); decide (4096 < count)) = true ∧
    (wit (st (grp [(8, 0x8000), (10, 0x100), (12, 0x200), (13, 0)] [])) (.gathList (w 3 2 (.s 20) (.s 8) (.s 10)
      (.s 12) .none 0x40)) fun e f => let e1 := committed e;
      let count := e1.n32 0 (.op (match f.s3 with | .s k => .s (k + 1) | o => o)); let data := e1.n32 0 (.op f.s3);
      let list := e1.n32 0 (.op f.s2); let n := szBytes f; let b := e1.gbase f.s1;
      let ok := (match scratchLook e1.st e1.team list (4 * count) 4, scratchLook e1.st e1.team data (count * n) n with | .ok _, .ok _ => true | _, _ => false) && b.va (fDisp6 f * n) % n == 0;
      decide (count = 0) && ok) = true ∧
    (wit (st (grp [(8, 0x8000), (10, 0x100), (12, 0x200), (13, 4)] [])) (.gathList (w 3 2 (.s 20) (.s 8) (.s 10)
      (.s 12) .none 0x40)) fun e f => let e1 := committed e;
      let count := e1.n32 0 (.op (match f.s3 with | .s k => .s (k + 1) | o => o)); let data := e1.n32 0 (.op f.s3);
      let list := e1.n32 0 (.op f.s2); let n := szBytes f; let b := e1.gbase f.s1;
      let ok := (match scratchLook e1.st e1.team list (4 * count) 4, scratchLook e1.st e1.team data (count * n) n with | .ok _, .ok _ => true | _, _ => false) && b.va (fDisp6 f * n) % n == 0;
      let g : Garnet := ⟨true, list, data, count, n, BitVec.ofNat 64 b.pointer, none, fDisp6 f, opNum f.d, 0, none⟩;
      let aims := (listTargets e1.st ⟨e1.st.nextId, e1.gid, e1.team.ctx, e1.core, .garnet g⟩ g).map fun x => (x.1, n, x.2);
      decide (0 < count ∧ count ≤ 4096 ∧ b.pointer / 2 ^ 57 = 0 ∧ mustWait e1.st e1.gid none 0 0 = false ∧
        giveUpHeld e1.st e1.die aims = false) && ok) = true ∧
    (wit (st (grp [(8, 0x8000), (10, 0x100), (12, 0x200), (13, 4097)] [])) (.scatList (w 3 2 (.s 20) (.s 8) (.s 10)
      (.s 12) .none 0x40)) fun e f => let e1 := committed e;
      let count := e1.n32 0 (.op (match f.s3 with | .s k => .s (k + 1) | o => o)); decide (4096 < count)) = true ∧
    (wit (st (grp [(8, 0x8000), (10, 0x100), (12, 0x200), (13, 0)] [])) (.scatList (w 3 2 (.s 20) (.s 8) (.s 10)
      (.s 12) .none 0x40)) fun e f => let e1 := committed e;
      let count := e1.n32 0 (.op (match f.s3 with | .s k => .s (k + 1) | o => o)); let data := e1.n32 0 (.op f.s3);
      let list := e1.n32 0 (.op f.s2); let n := szBytes f; let b := e1.gbase f.s1;
      let ok := (match scratchLook e1.st e1.team list (4 * count) 4, scratchLook e1.st e1.team data (count * n) n with | .ok _, .ok _ => true | _, _ => false) && b.va (fDisp6 f * n) % n == 0;
      decide (count = 0) && ok) = true ∧
    (wit (st (grp [(8, 0x8000), (10, 0x100), (12, 0x200), (13, 4)] [])) (.scatList (w 3 2 (.s 20) (.s 8) (.s 10)
      (.s 12) .none 0x40)) fun e f => let e1 := committed e;
      let count := e1.n32 0 (.op (match f.s3 with | .s k => .s (k + 1) | o => o)); let data := e1.n32 0 (.op f.s3);
      let list := e1.n32 0 (.op f.s2); let n := szBytes f; let b := e1.gbase f.s1;
      let ok := (match scratchLook e1.st e1.team list (4 * count) 4, scratchLook e1.st e1.team data (count * n) n with | .ok _, .ok _ => true | _, _ => false) && b.va (fDisp6 f * n) % n == 0;
      let g : Garnet := ⟨false, list, data, count, n, BitVec.ofNat 64 b.pointer, none, fDisp6 f, opNum f.d, 0, none⟩;
      let aims := (listTargets e1.st ⟨e1.st.nextId, e1.gid, e1.team.ctx, e1.core, .garnet g⟩ g).map fun x => (x.1, n, x.2);
      decide (0 < count ∧ count ≤ 4096 ∧ b.pointer / 2 ^ 57 = 0 ∧ mustWait e1.st e1.gid none 0 0 = false ∧
        giveUpHeld e1.st e1.die aims = false) && ok) = true ∧
    (holds (posted (.garnet ⟨true, 0x100, 0x200, 1, 4, 0x8000, none, 0, 20, 0, none⟩)
      (loc false 0x100 4 0xFFFFFFFF st0)) fun s => match s.pend? 7, s.team? 1 with
      | some p, some t => (match p.kind with
        | .garnet g => g.susp.isNone &&
          (match localLook s t (g.list + 4 * g.done) 4 4, localLook s t (g.data + g.size * g.done) g.size g.size with
          | .ok (ik, _), .ok (dk, _) => !garnetWaits s p ik 4 && !garnetWaits s p dk g.size && (poolBad s ik 4).isNone &&
              poolNat s ik 4 == 0xFFFFFFFF
          | _, _ => false)
        | _ => false)
      | _, _ => false) = true ∧
    (holds (posted (.garnet ⟨true, 0x100, 0x200, 1, 4, 0x8000, none, 0, 20, 0, none⟩)
      (loc false 0x100 4 5 st0)) fun s => match s.pend? 7, s.team? 1 with
      | some p, some t => (match p.kind with
        | .garnet g => g.susp.isNone &&
          (match localLook s t (g.list + 4 * g.done) 4 4, localLook s t (g.data + g.size * g.done) g.size g.size with
          | .ok (ik, _), .ok (dk, _) => !garnetWaits s p ik 4 && !garnetWaits s p dk g.size && (poolBad s ik 4).isNone &&
      (match translatePtr (poolFix s ik 4) p.ctx g.base.toNat (((poolNat s ik 4 : Int) + g.disp) * g.size) g.size 1 .read with
            | (s1, .ok loc ca) => !mustWait s1 p.owner (some 7) loc g.size &&
                !listBefore s1 p.owner (some 7) false loc g.size && !lineHeld s1 loc g.size && (poolBad s1 dk g.size).isNone &&
                !(sliceRead s1 (coreDie p.core) loc g.size ca).2.2
            | _ => false)
          | _, _ => false)
        | _ => false)
      | _, _ => false) = true ∧
    (holds (posted (.garnet ⟨false, 0x100, 0x200, 1, 4, 0x8000, none, 0, 20, 0, none⟩)
      (loc false 0x100 4 5 st0)) fun s => match s.pend? 7, s.team? 1 with
      | some p, some t => (match p.kind with
        | .garnet g => g.susp.isNone &&
          (match localLook s t (g.list + 4 * g.done) 4 4, localLook s t (g.data + g.size * g.done) g.size g.size with
          | .ok (ik, _), .ok (dk, _) => !garnetWaits s p ik 4 && !garnetWaits s p dk g.size && (poolBad s ik 4).isNone &&
      (match translatePtr (poolFix s ik 4) p.ctx g.base.toNat (((poolNat s ik 4 : Int) + g.disp) * g.size) g.size 1 .write with
            | (s1, .ok loc ca) => !mustWait s1 p.owner (some 7) loc g.size &&
                !listBefore s1 p.owner (some 7) true loc g.size && !lineHeld s1 loc g.size && (poolBad s1 dk g.size).isNone &&
                !inMgmt loc && !(sliceRead (l1DropRange p.core loc g.size (poolFix s1 dk g.size)) (coreDie p.core) loc g.size ca).2.2
            | _ => false)
          | _, _ => false)
        | _ => false)
      | _, _ => false) = true ∧
    (holds { st0 with pend := [⟨6, me, 239, 0, .rstl
      (windowKey st0 (team []) false + 0x102) [9]⟩, ⟨7, me, 239, 0, .garnet ⟨true, 0x100, 0x200, 1, 4, 0x8000, none, 0, 20, 0, none⟩⟩] } fun s =>
      match s.pend? 7, s.team? 1 with
      | some p, some t => (match localLook s t 0x100 4 4 with | .ok (ik, _) => garnetWaits s p ik 4 | .error _ => false)
      | _, _ => false) = true ∧
    (holds (mem 0x2008 8 0x8000000000BF (ctx (fun c => { c with sys := true })
      (posted (.garnet ⟨false, 0x100, 0x200, 1, 4, 0x40000000, none, 0, 20, 0, none⟩) (loc false 0x100 4 4 st0)))) fun s =>
      match s.pend? 7, s.team? 1 with
      | some p, some t => (match p.kind, localLook s t 0x100 4 4, localLook s t 0x200 4 4 with
        | .garnet g, .ok (ik, _), .ok (dk, _) => !garnetWaits s p ik 4 && !garnetWaits s p dk 4 &&
          (match translatePtr (poolFix s ik 4) p.ctx g.base.toNat (((poolNat s ik 4 : Int) + g.disp) * g.size) g.size 1 .write with
            | (s1, .ok loc _) => inMgmt loc && !mustWait s1 p.owner (some 7) loc 4 && !listBefore s1 p.owner (some 7) true loc 4 &&
                !lineHeld s1 loc 4 && (poolBad s1 dk 4).isNone
            | _ => false)
        | _, _, _ => false)
      | _, _ => false) = true ∧
    (holds (ctx (fun c => { c with faults := [⟨3, 0x5000, 0, 0, some true⟩] }) (posted (.garnet ⟨true, 0x100, 0x200,
      1, 4, 0x8000, none, 0, 20, 0, (some 3)⟩) (loc false 0x100 4 5 st0))) fun s =>
      faultAnswer s 239 3 == some true && (s.pend? 7).isSome) = true ∧
    (holds (ctx (fun c => { c with faults := [⟨3, 0x5000, 0, 0, some false⟩] }) (posted (.garnet ⟨true, 0x100, 0x200,
      1, 4, 0x8000, none, 0, 20, 0, (some 3)⟩) (loc false 0x100 4 5 st0))) fun s =>
      faultAnswer s 239 3 == some false && (s.pend? 7).isSome) = true ∧
    (holds (ctx (fun c => { c with faults := [⟨3, 0x5000, 0, 0, none⟩] }) (posted (.garnet ⟨true, 0x100, 0x200, 1, 4,
      0x8000, none, 0, 20, 0, (some 3)⟩) (loc false 0x100 4 5 st0))) fun s => faultAnswer s 239 3 == none &&
      (s.pend? 7).isSome) = true := by decide +kernel

/-- A translation that a page marked cached, of 4 KiB from `a` on, has brought in. -/
def cachedAt (a : Nat) (s : State) : State := { s with tlb := [(key2 239 3, ⟨BitVec.ofNat 64 (a / 4096 * 4096 + 0xBF), 0⟩)] }
/-- O31: a remote store; fills, also of a held line and of an uncached page; an eviction that may be;
write-backs of a dirty line, a poisoned one and a clean byte; an accepted media write; scrubs of single and double errors, and
of the first sector of a stack; sparing. -/
theorem witness_CachesAndControllers :
    (holds (posted (.rstl 0x100003 [1, 2]) st0) fun s => match s.pend? 7 with
      | some p => s.pend.all fun q => decide (7 ≤ q.id) || q.owner != p.owner
      | none => false) = true ∧
    (holds (mem 0x8004 4 5 st0) fun s => isDev 0x8004 && !peridotHolds s (0x8004 / 128)) = true ∧
    (holds (homeWrite (mem 0x8004 4 5 st0) 0x8001 [9]) fun s => isDev 0x8004 && mayEvict s .l2 0x100 &&
      (Assoc.get? s.l2 (0x8004 / 128)).isSome && (l2Get s 0x100).dirty == 1 && (l2Get s 0x100).valid == 1) = true ∧
    (holds (cachedAt 0x4000000000 st0) fun s => !lineHeld s 0x4000000000 1 && !inMgmt 0x4000000000 &&
      isRemote 0 0x4000000000 && cachedPage s 0x4000000000 && (rdcGet s 0 0x80000000).valid != BitVec.allOnes 128) = true ∧
    (holds (cachedAt 0x4000000000 { st0 with rdc := [(0x80000000, ⟨1, BitVec.allOnes 128, 0, 0, 0⟩)] }) fun s =>
      !lineHeld s 0x4000000000 1 && isRemote 0 0x4000000000 && cachedPage s 0x4000000000 &&
      (rdcGet s 0 0x80000000).valid == BitVec.allOnes 128) = true ∧
    (holds (cachedAt 0x5000000000 st0) fun s => !lineHeld s 0x4000000000 1 && isRemote 0 0x4000000000 &&
      !cachedPage s 0x4000000000) = true ∧
    (holds ({ st0 with rdc := [(0x4000000000 / 128, ⟨0x55, 3, 3, 0, 0⟩)] }) fun s => !lineHeld s 0x4000000000 1 &&
      (let r := rdcGet s 0 0x80000000; r.dirty.getLsbD 1 && !r.poison.getLsbD 0 && !r.dirty.getLsbD 2 && !r.whole.getLsbD 0 &&
        !(homeRead s 0x4000000001 1).2.2)) = true ∧
    (holds ({ st0 with rdc := [(0x4000000000 / 128, ⟨0x55, 3, 3, 1, 0⟩)] }) fun s => !lineHeld s 0x4000000000 1 &&
      (let r := rdcGet s 0 0x80000000; r.dirty.getLsbD 0 && r.poison.getLsbD 0)) = true ∧
    (holds (cachedAt 0x8000 (posted (.store ⟨0x9000, 0x9000, 0, 0, false, false, [1]⟩) st0)) fun s => !lineHeld s 0x8004 1 &&
      !inMgmt 0x8004 && !l1Locked s 0 0x100 && cachedPage s 0x8004 && (l1Get s 0 0x100).isNone &&
      s.pend.all fun p => match p.span with | some (a, m) => !overlap a m 0x8000 128 | none => true) = true ∧
    (holds (cachedAt 0x8000 { st0 with l1 := [(0x100, ⟨5, 0, []⟩)] }) fun s => !lineHeld s 0x8004 1 && !l1Locked s 0 0x100 &&
      s.pend.isEmpty && cachedPage s 0x8004 && (l1Get s 0 0x100).isSome) = true ∧
    (holds (cachedAt 0x9000 st0) fun s => !lineHeld s 0x8004 1 && !l1Locked s 0 0x100 && s.pend.isEmpty &&
      !cachedPage s 0x8004) = true ∧
    (holds (posted (.media 0x8000 128) st0) fun s => (s.pend? 7).isSome) = true ∧
    (holds ({ st0 with ecc := [(0x1000, .single), (0x1008, .double)] }) fun s => isDev (64 * 0x200) &&
      backed s (64 * 0x200) && isDev (64 * 0x201) && backed s (64 * 0x201)) = true ∧
    (decide (stackAddr (64 * 0x40) = 0 ∧ stackAddr 0 = 0 ∧ stackAddr (64 * 0x201) ≠ 0)) = true ∧
    (holds ({ st0 with rowErrs := Assoc.put [] (key2 2 9) 4 }) fun s => rowFails s 2 9 && !rowFails s 2 8) = true ∧
    (holds ({ st0 with rowBad := [key2 2 7], spared := [key2 2 7] }) fun s => rowFails s 2 7) = true ∧
    (holds ({ st0 with chErrs := Assoc.put [] (key2 11 511) 256 }) fun s => channelFails s 11 511 &&
      !channelFails s 11 510) = true := by decide +kernel

/-- O31: an L2 line that may not be evicted: it is kept, and its set has other ways. -/
theorem witness_CachesAndControllers_kept :
    let s := { homeWrite (mem 0x8004 4 5 st0) 0x8001 [9] with prios := [⟨.l2, 0x100, true⟩] }
    (Assoc.get? s.l2 0x100).isSome = true ∧ mayEvict s .l2 0x100 = false := by
  have kept : ∀ s, keptIn s .l2 = [0x100] → 1 < waysOf s .l2 0x100 → mayEvict s .l2 0x100 = false := by
    intro s hk hw
    have := List.length_filter_le (fun k => cacheSet s .l2 k == cacheSet s .l2 0x100) [0x100]
    simp only [mayEvict, hk, Bool.or_eq_false_iff, decide_eq_false_iff_not, Nat.not_le]
    exact ⟨by decide, by simp only [List.length_singleton] at this; omega⟩
  exact ⟨by decide +kernel, kept _ (by decide +kernel) (by decide +kernel)⟩

/-- O32: `mst` of every lane, two to an address, in service and before; a request the home takes, one performed at the
controller, and one that poison drops; a request for a management register. -/
theorem witness_MemorySideRequests :
    (wit (st (grp [(8, 0x8FC0)] [(256, 0), (257, 0), (258, 4), (259, 4), (260, 8), (261, 8), (262, 12), (263, 12),
      (264, 16), (265, 16), (266, 20), (267, 20), (268, 24), (269, 24), (270, 28), (271, 28)]))
      (.mst (w 3 2 .none (.s 8) (.v 2) (.v 9) .none 0)) fun e f => let e1 := committed e; let n := szBytes f;
      let look := resolveGlobal e1 (e1.gbase f.s1) (fun l => e1.offset l f.s2 + fDisp6 f * n) n n .rmw (fun loc _ => isHost loc) e1.st (e1.memLanes f);
      match look with
      | .ok (s1, xs) => e.st.phase == .run && (byAddress xs).length == 8 && decide (mstCount s1 e1.core < 512)
      | .error _ => false) = true ∧
    (wit ({ (st (grp [(8, 0x8FC0)] [(256, 0), (257, 0), (258, 4), (259, 4), (260, 8), (261, 8), (262, 12), (263, 12), (264, 16), (265, 16), (266, 20), (267, 20), (268, 24), (269, 24), (270, 28), (271, 28)])) with phase := .early })
      (.mst (w 3 2 .none (.s 8) (.v 2) (.v 9) .none 0)) fun e _ => e.st.phase != .run) = true ∧
    (holds (posted (.mst ⟨0x8FC0, 0, false, 5, 7, false⟩) (mem 0x8FC0 4 0x10 st0)) fun s => !inMgmt 0x8FC0 &&
      !lineHeld s 0x8FC0 4 && s.pend.all (fun q => decide (7 ≤ q.id)) &&
      (match s.pend? 7 with | some p => (match p.kind with | .mst r => !r.held | _ => false) | none => false)) = true ∧
    (holds (posted (.mst ⟨0x8FC0, 0, false, 5, 7, true⟩) (mem 0x8FC0 4 0x10 st0)) fun s => match s.pend? 7 with
      | some p => (match p.kind with
        | .mst r => r.held && (match mediaRead (l2Evict s (r.loc / 128)) r.loc 4 with | (_, _, bad) => bad == false)
        | _ => false)
      | none => false) = true ∧
    (holds ({ (posted (.mst ⟨0x8FC0, 0, false, 5, 7, true⟩) (mem 0x8FC0 4 0x10 st0)) with ecc := [(0x8FC0 / 8, .poison)] }) fun s =>
      match s.pend? 7 with
      | some p => (match p.kind with
        | .mst r => r.held && (match mediaRead (l2Evict s (r.loc / 128)) r.loc 4 with | (_, _, bad) => bad == true)
        | _ => false)
      | none => false) = true ∧
    (holds (posted (.mst ⟨0x800000000000, 0, false, 5, 7, false⟩) st0) fun s => inMgmt 0x800000000000 && !lineHeld s 0x800000000000 4 &&
      s.pend.all (fun q => decide (7 ≤ q.id)) &&
      (match s.pend? 7 with | some p => (match p.kind with | .mst r => !r.held | _ => false) | none => false)) = true := by decide +kernel

/-- O33: `wst` with a good and a bad limit; `wprog` of the manual's program, of none, and of one whose second rule is
invalid; `walk` and `wres` of every lane; a walk that must move, one whose read is misaligned, one whose engine has room
and one whose engine has none, and a parked one. -/
theorem witness_Walks :
    (wit (st (grp [(12, 4096)] [])) (.wst (w 3 0 (.s 5) (.s 12) (.imm 0) .none .none 0)) fun e f =>
      let limit := e.n32 0 (.op f.s1); let policy := e.n32 0 (.op f.s2); decide (0 < limit ∧ limit ≤ 4096 ∧
      policy < 3)) = true ∧
    (wit (st (grp [(12, 4097)] [])) (.wst (w 3 0 (.s 5) (.s 12) (.imm 0) .none .none 0)) fun e f =>
      let limit := e.n32 0 (.op f.s1); let policy := e.n32 0 (.op f.s2);
      decide (limit = 0 ∨ 4096 < limit ∨ 3 ≤ policy)) = true ∧
    (wit (st (grp [(12, 0)] [])) (.wst (w 3 0 (.s 5) (.s 12) (.imm 0) .none .none 0)) fun e f =>
      let limit := e.n32 0 (.op f.s1); let policy := e.n32 0 (.op f.s2);
      decide (limit = 0 ∨ 4096 < limit ∨ 3 ≤ policy)) = true ∧
    (wit (st (grp [(10, 0x8000), (12, 0)] [])) (.wprog (w 3 0 .none (.s 10) .none (.s 12) .none 0)) fun e f =>
      let n := e.n32 0 (.op f.s3); decide (n = 0 ∨ 32 < n)) = true ∧
    (wit (mem 32800 8 0x0000000000000005 (mem 32792 8 0x0000800000000084 (mem 32784 8 0x0000000020C20080 (mem 32776 8 0x0000000000830002 (mem 32768 8 0x0000000000430003 (st (grp [(10,
      0x8000), (12, 5)] []))))))) (.wprog (w 3 0 .none (.s 10) .none (.s 12) .none 0)) fun e f =>
      let n := e.n32 0 (.op f.s3);
      let look := loadRange e (e.gbase f.s1) (e.offset 0 f.s2 + fDisp6 f * 8) (8 * n) 8 e.st; decide (0 < n ∧
      n ≤ 32) && (match look with | .ok (_, bs) => (wordsOf n bs).all (ruleValid n) | .error _ => false)) = true ∧
    (wit (mem 32800 8 0x0000000000000005 (mem 32792 8 0x0000800000000084 (mem 32784 8 0x0000000020C20080 (mem 32776 8 0xF (mem 32768 8 0x0000000000430003 (st (grp [(10,
      0x8000), (12, 5)] []))))))) (.wprog (w 3 0 .none (.s 10) .none (.s 12) .none 0)) fun e f =>
      let n := e.n32 0 (.op f.s3);
      let look := loadRange e (e.gbase f.s1) (e.offset 0 f.s2 + fDisp6 f * 8) (8 * n) 8 e.st; decide (0 < n ∧
      n ≤ 32) && (match look with
      | .ok (_, bs) => (match wordsOf n bs with | u :: v :: _ => ruleValid n u && !ruleValid n v | _ => false)
      | .error _ => false)) = true ∧
    (wit (ctx (fun c =>
      { c with progs := [(0, [0x0000000000430003, 0x0000000000830002, 0x0000000020C20080, 0x0000800000000084, 0x0000000000000005])] })
      (st (grp [(8, 0x8000)] []))) (.walk (w 3 2 (.v 8) (.s 8) .none (.v 1) .none 0)) fun e f =>
      let e1 := committed e; let b := e1.gbase f.s1;
      let look := resolveGlobal e1 b (fun l => e1.offset l f.s2 + fDisp6 f * 8) 8 8 .read allowAll e1.st e1.lanes;
      match look with
      | .ok (s1, xs) => e.st.phase == .run && xs.length == 16 &&
      (Assoc.get? (s1.ctx e1.team.ctx).progs (fAop f)).isSome &&
          decide (s1.walks.countP (fun w => w.core == e1.core) + xs.length ≤ 1024)
      | .error _ => false) = true ∧
    (wit (ctx (fun c =>
      { c with progs := [(0, [0x0000000000430003, 0x0000000000830002, 0x0000000020C20080, 0x0000800000000084, 0x0000000000000005])] })
      (st (grp [] [(128 * 32, 0x2000), (128 * 34, 0x8000)]))) (.wres (w 3 2 (.v 8)
      (.v 32) .none (.v 1) .none 0)) fun e f => let e1 := committed e; e.st.phase == .run &&
      (e1.wide 0 f.s1 1).testBit 13 && !(e1.wide 1 f.s1 4).testBit 13 &&
        (wresHeld f e1).isNone && !walksFull e1.st e1.core (e1.lanes.countP fun l => (e1.wide l f.s1 1).testBit 13)) = true ∧
    (holds ({ (mem 0x8008 8 5 (mem 0x8000 8 0x8100 st0)) with walks := [⟨9, me, 239, 0, 0, 8, [0x0000000000830002, 0x0000000000830002, 0x0000000020C20080, 0x0000800000000084, 0x0000000000000005], 0, 0, 0x8000, 5, 0, 0, 0, 4096, stackOf 0x8000 + 1, none, true⟩], curWalk := 9 }) fun s =>
      match s.walk? 9, walkRule s 9 with
      | some w, some i => (match ruleRead i w with
        | some (va, n, align) => w.accepted && w.park.isNone && !readBad va n align && decide (va + n ≤ 2 ^ 57) &&
            (match translate s w.ctx (w.p.toNat / 2 ^ 57) va n .read with
            | (_, .ok loc _) => isDev loc && stackOf loc != w.stack && engineRoom s (stackOf loc)
            | _ => false)
        | none => false)
      | _, _ => false) = true ∧
    (holds ({ st0 with walks := [⟨9, me, 239, 0, 0, 8, [0x0000000000830002, 0x0000000000000005], 0, 0, 0x8001, 5, 0, 0, 0, 4096, 0, none, true⟩] }) fun s =>
      match s.walk? 9, walkRule s 9 with
      | some w, some i => w.accepted && (match ruleRead i w with
        | some (va, n, align) => readBad va n align
        | none => false)
      | _, _ => false) = true ∧
    (holds ({ st0 with walks := [⟨9, me, 239, 0, 0, 8, [0x0000000000830002, 0x0000000000000005], 0, 0, 0x8000, 5, 0, 0, 0, 4096, 0, none, false⟩] }) fun s =>
      match s.walk? 9 with | some w => !w.accepted && engineRoom s w.stack && decide (w.rule < w.prog.length) | none => false) = true ∧
    (holds ({ st0 with walks := ⟨9, me, 239, 0, 0, 8, [], 0, 0, 0x8000, 5, 0, 0, 0, 4096, 0, none, false⟩ :: List.replicate 512 ⟨10, me, 239, 0, 0, 8, [], 0, 0, 0x8000, 5, 0, 0, 0, 4096, 0, none, true⟩ }) fun s =>
      match s.walk? 9 with | some w => !w.accepted && !engineRoom s w.stack | none => false) = true ∧
    (holds (ctx (fun c => { c with faults := [⟨3, 0x5000, 0, 0, some true⟩] })
      ({ (mem 0x8008 8 5 (mem 0x8000 8 0x8100 st0)) with walks := [⟨9, me, 239, 0, 0, 8, [0x0000000000830002, 0x0000000000830002, 0x0000000020C20080, 0x0000800000000084, 0x0000000000000005], 0, 0, 0x8000, 5, 0, 0, 0, 4096, stackOf 0x8000, some 3, true⟩], curWalk := 9 })) fun s =>
      match s.walk? 9 with | some w => w.park == some 3 && faultAnswer s w.ctx 3 == some true | none => false) = true ∧
    (holds (ctx (fun c => { c with faults := [⟨3, 0x5000, 0, 0, some false⟩] })
      ({ (mem 0x8008 8 5 (mem 0x8000 8 0x8100 st0)) with walks := [⟨9, me, 239, 0, 0, 8, [0x0000000000830002, 0x0000000000830002, 0x0000000020C20080, 0x0000800000000084, 0x0000000000000005], 0, 0, 0x8000, 5, 0, 0, 0, 4096, stackOf 0x8000, some 3, true⟩], curWalk := 9 })) fun s =>
      match s.walk? 9 with | some w => w.park == some 3 && faultAnswer s w.ctx 3 == some false | none => false) = true ∧
    (holds (ctx (fun c => { c with faults := [⟨3, 0x5000, 0, 0, none⟩] })
      ({ (mem 0x8008 8 5 (mem 0x8000 8 0x8100 st0)) with walks := [⟨9, me, 239, 0, 0, 8, [0x0000000000830002, 0x0000000000830002, 0x0000000020C20080, 0x0000800000000084, 0x0000000000000005], 0, 0, 0x8000, 5, 0, 0, 0, 4096, stackOf 0x8000, some 3, true⟩], curWalk := 9 })) fun s =>
      match s.walk? 9 with | some w => w.park == some 3 && faultAnswer s w.ctx 3 == none | none => false) = true := by decide +kernel

/-- O34: a walk whose reads succeed, at a null and at another pointer, at its step limit and at its last rule. -/
theorem witness_WalkRules :
    (holds ({ (mem 0x8008 8 5 (mem 0x8000 8 0x8100 st0)) with walks := [⟨9, me, 239, 0, 0, 8, [0x0000000000830002, 0x0000000000830002, 0x0000000020C20080, 0x0000800000000084, 0x0000000000000005], 0, 0, 0x8000, 5, 0, 0, 0, 4096, stackOf 0x8000, none, true⟩], curWalk := 9 }) fun s =>
      match s.walk? s.curWalk with
      | some w => w.park.isNone &&
          (match walkRead w (w.p.toNat % 2 ^ 57 + 0) 4 4 s, walkRead w (w.p.toNat % 2 ^ 57 + 0) 8 8 s, walkRead w (w.p.toNat % 2 ^ 57 + 0) 24 1 s with
          | .ok _, .ok _, .ok _ => true
          | _, _, _ => false)
      | none => false) = true ∧
    (holds ({ (mem 0x8008 8 5 (mem 0x8000 8 0x8100 st0)) with walks := [⟨9, me, 239, 0, 0, 8, [0x0000000000830002, 0x0000000000830002, 0x0000000020C20080, 0x0000800000000084, 0x0000000000000005], 0, 0, 0x8008, 5, 0, 0, 0, 4096, stackOf 0x8000, none, true⟩], curWalk := 9 }) fun s =>
      match s.walk? s.curWalk with
      | some w => w.park.isNone &&
          (match walkRead w (w.p.toNat % 2 ^ 57 + 0) 4 4 s, walkRead w (w.p.toNat % 2 ^ 57 + 0) 8 8 s, walkRead w (w.p.toNat % 2 ^ 57 + 0) 24 1 s with
          | .ok _, .ok _, .ok _ => true
          | _, _, _ => false)
      | none => false) = true ∧
    (holds ({ (mem 0x8008 8 5 (mem 0x8000 8 0x8100 st0)) with walks := [⟨9, me, 239, 0, 0, 8, [0x0000000000830002, 0x0000000000830002, 0x0000000020C20080, 0x0000800000000084, 0x0000000000000005], 0, 0, 0x8000, 5, 4096, 0, 0, 4096, stackOf 0x8000, none, true⟩], curWalk := 9 }) fun s =>
      match s.walk? s.curWalk with
      | some w => w.park.isNone &&
          (match walkRead w (w.p.toNat % 2 ^ 57 + 0) 4 4 s, walkRead w (w.p.toNat % 2 ^ 57 + 0) 8 8 s, walkRead w (w.p.toNat % 2 ^ 57 + 0) 24 1 s with
          | .ok _, .ok _, .ok _ => true
          | _, _, _ => false)
      | none => false) = true ∧
    (holds ({ (mem 0x8008 8 5 (mem 0x8000 8 0x8100 st0)) with walks := [⟨9, me, 239, 0, 0, 8, [0x0000000000830002, 0x0000000000830002, 0x0000000020C20080, 0x0000800000000084, 0x0000000000000005], 0, 0, 0x8000, 5, 0, 0, 63, 4096, stackOf 0x8000, none, true⟩], curWalk := 9 }) fun s =>
      match s.walk? s.curWalk with
      | some w => w.park.isNone &&
          (match walkRead w (w.p.toNat % 2 ^ 57 + 0) 4 4 s, walkRead w (w.p.toNat % 2 ^ 57 + 0) 8 8 s, walkRead w (w.p.toNat % 2 ^ 57 + 0) 24 1 s with
          | .ok _, .ok _, .ok _ => true
          | _, _, _ => false)
      | none => false) = true := by decide +kernel

/-- A bank of four dimensions and radius 1 with one entry. -/
def bank1 : Bank := ⟨1, 0x3F800000 * 2 ^ 32 + 2 * 2 ^ 144, true, 0, [(0, ⟨[0x3F800000, 0, 0, 0], 1, 5⟩)], [], []⟩
/-- A team whose context holds the banks `g` and whose bank 0 is `b`, with a configuration at 0x8000. -/
def berylAt (g : BitVec 256) (regs : List (Nat × Word)) (b : Bank) : State :=
  ctx (fun c => { c with bgrant := g }) { mem 0x8000 32 (0x3F800000 * 2 ^ 32 + 2 * 2 ^ 144)
    (st (grp regs ((List.range 16).map fun k => (256 + k, BitVec.ofNat 32 (16 * k))))) with beryl := [(0, b)] }
/-- The Beryl instructions under test. -/
def ccfg1 : Instr := .ccfg (w 3 0 .none (.s 8) .none .none (.s 6) 0)
/-- An insertion. -/
def cins1 : Instr := .cins (w 3 0 (.v 5) (.s 7) (.v 2) (.v 4) (.s 6) 0)
/-- A search. -/
def cnear1 : Instr := .cnear (w 3 0 (.v 6) (.s 7) (.v 2) .none (.s 6) 0)
/-- A read. -/
def crd1 : Instr := .crd (w 3 0 (.v 7) .none (.v 3) .none (.s 6) 0)
/-- O35: every instruction on a configured bank, on an absent one, one not granted and one not configured; a bank with one entry that a vector joins,
misses or fills; two entries merged; a suspended dump answered. -/
theorem witness_BerylOperations :
    (wit (berylAt 1 [(8, 0x8000), (10, 2), (12, 4)] bank1)
      ccfg1 fun e f => let e1 := committed e; e.st.phase == .run &&
      !berylWaits e1 f false &&
      (match bankCheck e1 f true with | .ok b => (match loadRange e1 (e1.gbase f.s1) (e1.offset 0 f.s2) 32 8 e1.st with | .ok (_, bs) => (cfgInvalid b (ofBytes bs)).isNone | .error _ => false) | .error _ => false)) = true ∧
    (wit (berylAt 1 [(8, 0x8000), (10, 2), (12, 4)] bank1)
      cins1 fun e f => let e1 := committed e; e.st.phase == .run &&
      !berylWaits e1 f false &&
      (match bankCheck e1 f false with | .ok b => (match vectors e1 f b.dim with | .ok (_, xs) => xs.length == 16 | .error _ => false) | .error _ => false)) = true ∧
    (wit (berylAt 1 [(8, 0x8000), (10, 2), (12, 4)] bank1)
      cnear1 fun e f => let e1 := committed e; e.st.phase == .run &&
      !berylWaits e1 f false &&
      (match bankCheck e1 f false with | .ok b => (match vectors e1 f b.dim with | .ok (_, xs) => xs.length == 16 | .error _ => false) | .error _ => false)) = true ∧
    (wit (berylAt 1 [(8, 0x8000), (10, 2), (12, 4)] bank1)
      (.cmrg (w 3 0 (.s 10) .none .none .none (.s 6) 0)) fun e f => let e1 := committed e; e.st.phase == .run &&
      !berylWaits e1 f false &&
      (match bankCheck e1 f false with | .ok b => b.configured | .error _ => false)) = true ∧
    (wit (berylAt 1 [(8, 0x8000), (10, 2), (12, 4)] bank1)
      crd1 fun e f => let e1 := committed e; e.st.phase == .run &&
      !berylWaits e1 f true &&
      (match bankCheck e1 f true with | .ok b => b.configured && !dumping e1.st (e1.bankId f) 0 && e1.lanes.all fun l => (match b.select (e1.n32 l (.op f.s2)) with | some (_, k) => (match k with | some j => !(b.resolve (e1.lanes.filterMap fun l => b.selWord (e1.n32 l (.op f.s2)))).bad.contains j | none => true) | none => false) | .error _ => false)) = true ∧
    (wit (berylAt 1 [(8, 0x8000), (10, 2), (12, 4)] bank1)
      (.cclr (w 3 0 .none .none .none .none (.s 6) 0)) fun e f => let e1 := committed e; e.st.phase == .run &&
      !berylWaits e1 f false &&
      (match bankCheck e1 f false with | .ok b => decide (f.s2 = .none) && b.configured | .error _ => false)) = true ∧
    (wit (berylAt 1 [(8, 0x8000), (10, 2), (12, 4)] bank1)
      (.cclr (w 3 0 .none .none (.s 7) .none (.s 6) 0)) fun e f => let e1 := committed e; e.st.phase == .run &&
      !berylWaits e1 f false &&
      (match bankCheck e1 f false with | .ok b => decide (e1.n32 0 (.op f.s2) < b.limit) | .error _ => false)) = true ∧
    (wit (berylAt 1 [(8, 0x8000), (10, 2), (12, 4)] bank1)
      (.cclr (w 3 0 .none .none (.s 10) .none (.s 6) 0)) fun e f => let e1 := committed e; e.st.phase == .run &&
      !berylWaits e1 f false &&
      (match bankCheck e1 f false with | .ok b => decide (e1.n32 0 (.op f.s2) = b.limit) | .error _ => false)) = true ∧
    (wit (berylAt 1 [(8, 0x8000), (10, 2), (12, 4)] bank1)
      (.cdump (w 3 0 (.s 14) (.s 8) .none (.s 12) (.s 6) 0)) fun e f => let e1 := committed e; e.st.phase == .run &&
      !berylWaits e1 f false &&
      (match bankCheck e1 f false with | .ok b => decide ((e1.gbase f.s1).va (e1.offset 0 f.s2) = 0x8000) && b.configured | .error _ => false)) = true ∧
    (witAll (berylAt 1 [(6, 256), (8, 0x8000)] bank1) [ccfg1, cins1, cnear1, .cmrg (w 3 0 (.s 10) .none .none .none (.s 6) 0), .cclr (w 3 0 .none .none .none .none (.s 6) 0),
      .cdump (w 3 0 (.s 14) (.s 8) .none (.s 12) (.s 6) 0)] fun e f => let e1 := committed e; e.st.phase == .run &&
      !berylWaits e1 f false && decide (e1.bankId f = 256)) = true ∧
    (witAll (berylAt 1 [(6, 255), (8, 0x8000)] bank1) [ccfg1, cins1, cnear1, .cmrg (w 3 0 (.s 10) .none .none .none (.s 6) 0), .cclr (w 3 0 .none .none .none .none (.s 6) 0),
      .cdump (w 3 0 (.s 14) (.s 8) .none (.s 12) (.s 6) 0)] fun e f => let e1 := committed e; e.st.phase == .run &&
      !berylWaits e1 f false && decide (e1.bankId f = 255) && (Assoc.get? e1.st.beryl 255).isNone) = true ∧
    (witAll (berylAt 0 [(8, 0x8000), (10, 2), (12, 4)] bank1) [ccfg1, cins1, cnear1, .cmrg (w 3 0 (.s 10) .none .none .none (.s 6) 0), .cclr (w 3 0 .none .none .none .none (.s 6) 0),
      .cdump (w 3 0 (.s 14) (.s 8) .none (.s 12) (.s 6) 0)] fun e f => let e1 := committed e; e.st.phase == .run &&
      !berylWaits e1 f false && decide (e1.bankId f = 0) && !e1.ctx.bgrant.getLsbD 0) = true ∧
    (wit (berylAt 1 [(6, 256), (8, 0x8000)] bank1) crd1 fun e f => let e1 := committed e; e.st.phase == .run &&
      !berylWaits e1 f true && decide (e1.bankId f = 256)) = true ∧
    (wit (berylAt 1 [(6, 255), (8, 0x8000)] bank1) crd1 fun e f => let e1 := committed e; e.st.phase == .run &&
      !berylWaits e1 f true && decide (e1.bankId f = 255) && (Assoc.get? e1.st.beryl 255).isNone) = true ∧
    (wit (berylAt 0 [(8, 0x8000)] bank1) crd1 fun e f => let e1 := committed e; e.st.phase == .run &&
      !berylWaits e1 f true && decide (e1.bankId f = 0) && !e1.ctx.bgrant.getLsbD 0) = true ∧
    (witAll (berylAt 1 [(8, 0x8000)] { bank1 with configured := false }) [cins1, cnear1, .cmrg (w 3 0 (.s 10) .none .none .none (.s 6) 0),
      .cclr (w 3 0 .none .none .none .none (.s 6) 0), .cdump (w 3 0 (.s 14) (.s 8) .none (.s 12) (.s 6) 0)]
      fun e f => let e1 := committed e; e.st.phase == .run && !berylWaits e1 f false && decide (e1.bankId f = 0) &&
      (match Assoc.get? e1.st.beryl 0 with | some b => !b.configured | none => false) && e1.ctx.bgrant.getLsbD 0) = true ∧
    (wit (berylAt 1 [(8, 0x8000)] { bank1 with configured := false }) crd1
      fun e f => let e1 := committed e; e.st.phase == .run && !berylWaits e1 f true && decide (e1.bankId f = 0) &&
      (match Assoc.get? e1.st.beryl 0 with | some b => !b.configured | none => false) && e1.ctx.bgrant.getLsbD 0 &&
      e1.lanes.any fun l => field (e1.n32 l (.op f.s2)) 0 16 != 0xFFFF) = true ∧
    (holds (posted (.beryl 239 0 (.cmrg none)) { st0 with beryl := [(0, bank1)] }) fun s =>
      s.pend.all (fun q => decide (7 ≤ q.id)) && !dumping s 0 7 && (Assoc.get? s.beryl 0).isSome) = true ∧
    ((let b : Bank := bank1;
      let x : List FV := ([0x3FC00000, 0, 0, 0] : List Word).map fun w => f32v w.toNat; !badVector x &&
      (match b.nearest (fun e => e.count != 0xFFFFFFFF) x with | some (k, d) => k == 0 && b.within d | none => false))) = true ∧
    ((let b : Bank := bank1;
      let x : List FV := ([0x41200000, 0, 0, 0] : List Word).map fun w => f32v w.toNat; !badVector x &&
      (match b.nearest (fun e => e.count != 0xFFFFFFFF) x with | some (_, d) => !b.within d | none => true) &&
      b.free == some 1)) = true ∧
    ((let b : Bank := ⟨1, 0x3F800000 * 2 ^ 32 + 2 * 2 ^ 144 + 0 * 2 ^ 5, true, 0, [(0, ⟨[0x3F800000, 0, 0, 0], 1, 5⟩), (1, ⟨[0x41200000, 0, 0, 0], 2, 6⟩)], [], []⟩;
      let x : List FV := ([0x43200000, 0, 0, 0] : List Word).map fun w => f32v w.toNat; !badVector x &&
      (match b.nearest (fun e => e.count != 0xFFFFFFFF) x with | some (_, d) => !b.within d | none => true) &&
      b.free == none && b.policy == 0)) = true ∧
    ((let x : List FV := ([0x7F800000, 0, 0, 0] : List Word).map fun w => f32v w.toNat; badVector x)) = true ∧
    ((let b : Bank := ⟨1, 0x3F800000 * 2 ^ 32 + 2 * 2 ^ 144 + 0 * 2 ^ 5, true, 0, [(0, ⟨[0x3F800000, 0, 0, 0], 1, 5⟩)], [], [(0, .single), (2, .double)]⟩;
      b.words.contains 0 && b.words.contains 2 && b.ecc.any (fun x => x.2 != .single) && b.ecc.any fun x => x.2 == .single)) = true ∧
    ((let b : Bank := ⟨1, 0x3F800000 * 2 ^ 32 + 2 * 2 ^ 144 + 0 * 2 ^ 5, true, 0, [(0, ⟨[0x3F800000, 0, 0, 0], 1, 5⟩), (1, ⟨[0x41200000, 0, 0, 0], 2, 6⟩)], [], []⟩;
      match b.merge with | some (_, i, j) => i != j | none => false)) = true ∧
    (holds (ctx (fun c => { c with faults := [⟨3, 0x5000, 0, 0, some true⟩] })
      (posted (.beryl 239 0 (.cdump 0x8000 4 14 1 1 true (some 3))) { st0 with beryl := [(0, bank1)] })) fun s =>
      (s.pend? 7).isSome && faultAnswer s 239 3 == some true) = true ∧
    (holds (ctx (fun c => { c with faults := [⟨3, 0x5000, 0, 0, some false⟩] })
      (posted (.beryl 239 0 (.cdump 0x8000 4 14 1 1 true (some 3))) { st0 with beryl := [(0, bank1)] })) fun s =>
      (s.pend? 7).isSome && faultAnswer s 239 3 == some false) = true ∧
    (holds (ctx (fun c => { c with faults := [⟨3, 0x5000, 0, 0, none⟩] })
      (posted (.beryl 239 0 (.cdump 0x8000 4 14 1 1 true (some 3))) { st0 with beryl := [(0, bank1)] })) fun s =>
      (s.pend? 7).isSome && faultAnswer s 239 3 == none) = true := by decide +kernel

/-- O36: every instruction on an object with an arrival open; overflowed and completed objects; a repeated wait woken.
-/
theorem witness_BarrierInstructions :
    (wit (loc false 0x100 16 (Barrier.toNat ⟨0, false, false, false, 2, 0, false⟩) (st (grp [(2, 0x100), (6,
      64)] []))) (.binit (w 4 0 .none (.s 2) (.imm 2) .none .none 0)) fun e f => let e1 := committed e;
      match objectAt e1 f 1 with | .ok _ => true | .error _ => false) = true ∧
    (wit (loc false 0x100 16 (Barrier.toNat ⟨0, false, false, false, 2, 0, false⟩) (st (grp [(2, 0x100), (6,
      64)] []))) (.bexp (w 4 0 .none (.s 2) (.s 6) .none .none 0)) fun e f =>
      match released (committed e) (fOrd f) (fScope f) with | some e1 => (match objectAt e1 f 2 with | .ok (e1, _, k) => decide ((barrierAt e1.st k).pend + (e1.n32 0 (.op f.s2) : Int) < (2 ^ 55 : Int)) | .error _ => false) | none => false) = true ∧
    (wit (loc false 0x100 16 (Barrier.toNat ⟨0, false, false, false, 2, 0, false⟩) (st (grp [(2, 0x100), (6,
      64)] []))) (.bexp (w 4 1 .none (.s 2) (.s 6) .none .none 0)) fun e f =>
      match released (committed e) (fOrd f) (fScope f) with | some e1 => (match objectAt e1 f 2 with | .ok (e1, _, k) => decide ((barrierAt e1.st k).pend + (e1.n32 0 (.op f.s2) : Int) < (2 ^ 55 : Int)) | .error _ => false) | none => false) = true ∧
    (wit (loc false 0x100 16 (Barrier.toNat ⟨2 ^ 55 - 64, false, false, false, 2, 0, false⟩) (st (grp [(2, 0x100), (6,
      64)] []))) (.bexp (w 4 0 .none (.s 2) (.s 6) .none .none 0)) fun e f =>
      match released (committed e) (fOrd f) (fScope f) with | some e1 => (match objectAt e1 f 2 with | .ok (e1, _, k) => decide ((2 ^ 55 : Int) ≤ (barrierAt e1.st k).pend + (e1.n32 0 (.op f.s2) : Int)) | .error _ => false) | none => false) = true ∧
    (wit (loc false 0x100 16 (Barrier.toNat ⟨0, false, false, false, 2, 0, false⟩) (st (grp [(2, 0x100), (6,
      64)] []))) (.barv (w 4 0x60 (.s 7) (.s 2) .none .none .none 0)) fun e f =>
      match released (committed e) (fOrd f) (fScope f) with | some e1 => (match objectAt e1 f 2 with | .ok _ => true | .error _ => false) | none => false) = true ∧
    (wit (loc false 0x100 16 (Barrier.toNat ⟨0, false, true, false, 2, 0, false⟩) (st (grp [(2, 0x100), (6, 64)] [])))
      (.bwait (w 4 0x50 (.s 8) (.s 2) (.s 7) .none .none 0)) fun e f => let e1 := committed e;
      match objectAt e1 f 0 with | .ok (e1, _, k) => (barrierAt e1.st k).ovf | .error _ => false) = true ∧
    (wit (loc false 0x100 16 (Barrier.toNat ⟨0, false, true, false, 2, 0, false⟩) (st (grp [(2, 0x100), (6, 64)] [])))
      (.btry (w 4 0 (.s 8) (.s 2) (.s 7) .none .none 0)) fun e f => let e1 := committed e;
      match objectAt e1 f 0 with | .ok (e1, _, k) => (barrierAt e1.st k).ovf | .error _ => false) = true ∧
    (wit (loc false 0x100 16 (Barrier.toNat ⟨0, false, false, false, 2, 0, true⟩) (st (grp [(2, 0x100), (6, 64)] [])))
      (.bwait (w 4 0x50 (.s 8) (.s 2) (.s 7) .none .none 0)) fun e f => let e1 := committed e;
      let p := (e1.n32 0 (.op f.s2)).testBit 0;
      match objectAt e1 f 0 with | .ok (e1, _, k) => !(barrierAt e1.st k).ovf && (barrierAt e1.st k).phase != p | .error _ => false) = true ∧
    (wit (loc false 0x100 16 (Barrier.toNat ⟨0, false, false, false, 2, 0, true⟩) (st (grp [(2, 0x100), (6, 64)] [])))
      (.btry (w 4 0 (.s 8) (.s 2) (.s 7) .none .none 0)) fun e f => let e1 := committed e;
      let p := (e1.n32 0 (.op f.s2)).testBit 0;
      match objectAt e1 f 0 with | .ok (e1, _, k) => !(barrierAt e1.st k).ovf && (barrierAt e1.st k).phase != p | .error _ => false) = true ∧
    (wit (loc false 0x100 16 (Barrier.toNat ⟨0, false, false, false, 2, 0, false⟩) (st (grp [(2, 0x100), (6,
      64)] []))) (.bwait (w 4 0x50 (.s 8) (.s 2) (.s 7) .none .none 0)) fun e f => let e1 := committed e;
      let p := (e1.n32 0 (.op f.s2)).testBit 0;
      match objectAt e1 f 0 with | .ok (e1, _, k) => !(barrierAt e1.st k).ovf && (barrierAt e1.st k).phase == p | .error _ => false) = true ∧
    (wit (loc false 0x100 16 (Barrier.toNat ⟨0, false, false, false, 2, 0, false⟩) (st (grp [(2, 0x100), (6,
      64)] []))) (.btry (w 4 0 (.s 8) (.s 2) (.s 7) .none .none 0)) fun e f => let e1 := committed e;
      let p := (e1.n32 0 (.op f.s2)).testBit 0;
      match objectAt e1 f 0 with | .ok (e1, _, k) => !(barrierAt e1.st k).ovf && (barrierAt e1.st k).phase == p | .error _ => false) = true ∧
    (wit (loc false 0x100 16 (Barrier.toNat ⟨0, false, false, false, 2, 0, false⟩) (st (grp [(2, 0x100), (6,
      64)] []))) (.bst (w 4 0 (.s 12) (.s 2) .none .none .none 0)) fun e f => let e1 := committed e;
      match objectAt e1 f 0 with | .ok _ => true | .error _ => false) = true ∧
    (holds (st { grp [] [] with cond := .wait .retry }) fun s =>
      match groupOf s me with | some x => x.cond == .wait .retry | none => false) = true := by decide +kernel

/-- O37: objects that complete, that do not, that overflow, and the extreme byte counts. -/
theorem witness_BarrierPhases :
    ((let b : Barrier := ⟨0, true, false, false, 2, 2, false⟩; !b.ovf && b.arr == b.expecta && b.pend == 0 &&
      decide (b.expecta < b.arr + 1))) = true ∧
    ((let b : Barrier := ⟨-(2 ^ 55), false, false, false, 0xFFFF, 0xFFFF, true⟩; decide (-(2 ^ 55 : Int) ≤ b.pend ∧
      b.pend < (2 ^ 55 : Int) ∧ b.expecta < 2 ^ 16 ∧ b.arr < 2 ^ 16 ∧ b.arr + 0 ≤ b.expecta ∧
      -(2 ^ 55 : Int) ≤ b.pend - 0))) = true := by decide +kernel

/-- O38: `cbinit` that just fits its window, and with a size that does not; slots taken, claimed, filled and given
back, and none left of each. -/
theorem witness_CircularBuffers :
    (wit (st (grp [(2, 0x1000 - 80 - 256), (4, 16), (5, 16)] [])) (.cbinit (w 4 0 .none (.s 2) (.s 4)
      (.s 5) .none 0)) fun e f => let e1 := committed e; let sz := e1.n32 0 (.op f.s2); let n := e1.n32 0 (.op f.s3);
      match objectAt e1 f 1 80 with | .ok (e1, a, _) => decide (0 < sz ∧ sz % 16 = 0 ∧ sz ≤ 65520 ∧ 0 < n ∧ n ≤ 256 ∧ a % 2 ^ 21 + 80 + sz * n = e1.team.window false) | .error _ => false) = true ∧
    (wit (st (grp [(2, 0x100), (4, 0), (5, 256)] [])) (.cbinit (w 4 0 .none (.s 2) (.s 4) (.s 5) .none 0)) fun e f =>
      let e1 := committed e; let sz := e1.n32 0 (.op f.s2);
      match objectAt e1 f 1 80 with | .ok _ => decide (sz = 0 ∨ sz % 16 ≠ 0 ∨ 65520 < sz) | .error _ => false) = true ∧
    (wit (st (grp [(2, 0x100), (4, 24), (5, 256)] [])) (.cbinit (w 4 0 .none (.s 2) (.s 4) (.s 5) .none 0)) fun e f =>
      let e1 := committed e; let sz := e1.n32 0 (.op f.s2);
      match objectAt e1 f 1 80 with | .ok _ => decide (sz = 0 ∨ sz % 16 ≠ 0 ∨ 65520 < sz) | .error _ => false) = true ∧
    (wit (st (grp [(2, 0x100), (4, 65536), (5, 256)] [])) (.cbinit (w 4 0 .none (.s 2) (.s 4)
      (.s 5) .none 0)) fun e f => let e1 := committed e; let sz := e1.n32 0 (.op f.s2);
      match objectAt e1 f 1 80 with | .ok _ => decide (sz = 0 ∨ sz % 16 ≠ 0 ∨ 65520 < sz) | .error _ => false) = true ∧
    (wit (loc false 0x100 80 (Cbuf.toNat ⟨0x150, 16, 2, 1, 1, 0, 1, 0, 0, 0⟩) (st (grp [(2, 0x100), (9, 0)] [])))
      (.cbget (w 4 0 (.s 9) (.s 2) .none .none .none 0)) fun e f => let e1 := committed e;
      match objectAt e1 f 2 80 with | .ok (e1, _, k) => (poolBad e1.st (k + 16) 64).isNone && (cbufAt e1.st k).legal && (Cbuf.take (cbufAt e1.st k)).isSome | .error _ => false) = true ∧
    (wit (loc false 0x100 80 (Cbuf.toNat ⟨0x150, 16, 2, 0, 1, 1, 1, 0, 0, 0⟩) (st (grp [(2, 0x100), (9, 0)] [])))
      (.cbget (w 4 0 (.s 9) (.s 2) .none .none .none 0)) fun e f => let e1 := committed e;
      match objectAt e1 f 2 80 with | .ok (e1, _, k) => (poolBad e1.st (k + 16) 64).isNone && (cbufAt e1.st k).legal && (Cbuf.take (cbufAt e1.st k)).isNone | .error _ => false) = true ∧
    (wit (loc false 0x100 80 (Cbuf.toNat ⟨0x150, 16, 2, 1, 1, 0, 1, 0, 0, 0⟩) (st (grp [(2, 0x100), (9, 0)] [])))
      (.cbgetClaim (w 4 1 (.s 9) (.s 2) .none .none .none 0)) fun e f => let e1 := committed e;
      match objectAt e1 f 2 80 with | .ok (e1, _, k) => (poolBad e1.st (k + 16) 64).isNone && (cbufAt e1.st k).legal && (Cbuf.claim (cbufAt e1.st k)).isSome | .error _ => false) = true ∧
    (wit (loc false 0x100 80 (Cbuf.toNat ⟨0x150, 16, 2, 1, 0, 1, 1, 0, 0, 0⟩) (st (grp [(2, 0x100), (9, 0)] [])))
      (.cbgetClaim (w 4 1 (.s 9) (.s 2) .none .none .none 0)) fun e f => let e1 := committed e;
      match objectAt e1 f 2 80 with | .ok (e1, _, k) => (poolBad e1.st (k + 16) 64).isNone && (cbufAt e1.st k).legal && (Cbuf.claim (cbufAt e1.st k)).isNone | .error _ => false) = true ∧
    (wit (loc false 0x100 80 (Cbuf.toNat ⟨0x150, 16, 2, 1, 0, 1, 1, 0, 0, 0⟩) (st (grp [(2, 0x100), (9, 0)] [])))
      (.cbputFill (w 4 1 .none (.s 2) (.s 9) .none .none 0)) fun e f =>
      match released (committed e) (fOrd f) (fScope f) with | some e1 => (match objectAt e1 f 2 80 with | .ok (e1, _, k) => (poolBad e1.st (k + 16) 64).isNone && (cbufAt e1.st k).legal && (Cbuf.fill (cbufAt e1.st k) (e1.n32 0 (.op f.s2) % 256) false).isSome | .error _ => false) | none => false) = true ∧
    (wit (loc false 0x100 80 (Cbuf.toNat ⟨0x150, 16, 2, 1, 1, 0, 1, 0, 0, 0⟩) (st (grp [(2, 0x100), (9, 0)] [])))
      (.cbputFill (w 4 1 .none (.s 2) (.s 9) .none .none 0)) fun e f =>
      match released (committed e) (fOrd f) (fScope f) with | some e1 => (match objectAt e1 f 2 80 with | .ok (e1, _, k) => (poolBad e1.st (k + 16) 64).isNone && (cbufAt e1.st k).legal && (Cbuf.fill (cbufAt e1.st k) (e1.n32 0 (.op f.s2) % 256) false).isNone | .error _ => false) | none => false) = true ∧
    (wit (loc false 0x100 80 (Cbuf.toNat ⟨0x150, 16, 2, 1, 0, 0, 1, 0, 0, 0⟩) (st (grp [(2, 0x100), (9, 0)] [])))
      (.cbputDone (w 4 0 .none (.s 2) .none .none .none 0)) fun e f =>
      match released (committed e) (fOrd f) (fScope f) with | some e1 => (match objectAt e1 f 2 80 with | .ok (e1, _, k) => (poolBad e1.st (k + 16) 64).isNone && (cbufAt e1.st k).legal && (Cbuf.done (cbufAt e1.st k)).isSome | .error _ => false) | none => false) = true ∧
    (wit (loc false 0x100 80 (Cbuf.toNat ⟨0x150, 16, 2, 1, 1, 0, 1, 0, 0, 0⟩) (st (grp [(2, 0x100), (9, 0)] [])))
      (.cbputDone (w 4 0 .none (.s 2) .none .none .none 0)) fun e f =>
      match released (committed e) (fOrd f) (fScope f) with | some e1 => (match objectAt e1 f 2 80 with | .ok (e1, _, k) => (poolBad e1.st (k + 16) 64).isNone && (cbufAt e1.st k).legal && (Cbuf.done (cbufAt e1.st k)).isNone | .error _ => false) | none => false) = true ∧
    (holds (st { grp [] [] with cond := .wait .retry }) fun s =>
      match groupOf s me with | some x => x.cond == .wait .retry | none => false) = true ∧
    ((let c : Cbuf := ⟨0x150, 16, 3, 1, 1, 0, 1, 2, 0, 0⟩; c.legal &&
      decide (c.filled + c.free + c.claimed ≤ c.count) && c.claim.isSome && c.take.isSome && c.done.isSome)) = true ∧
    ((let c : Cbuf := ⟨0x150, 16, 256, 255, 0, 1, 1, 1, 0, 0⟩; c.legal &&
      decide (c.filled + c.free + c.claimed ≤ c.count) && (c.fill 0 false).isSome)) = true := by decide +kernel

/-- O39: every `marm` form; `mwait` with no monitor, a fired one and one that has not fired; a sleeping `mwait` before
and after its timeout; `tbar` of the last group and of another; a barrier whose last group exited. -/
theorem witness_MonitorsAndTeamBarrier :
    (wit (st (grp [(2, 0x8000), (3, 0)] [])) (.marm (w 4 0 .none (.s 2) (.imm 1) .none .none 0)) fun e f =>
      match resolveGlobal e (.ptr (e.wide 0 f.s1 2)) (fun _ => 0) 1 1 .read allowAll e.st [0] with | .ok (_, [_]) => true | _ => false) = true ∧
    (wit (st (grp [(3, 0x100)] [])) (.marmLoc (w 4 1 .none (.s 3) (.imm 1) .none .none 0)) fun e f =>
      match localLook e.st e.team (e.n32 0 (.op f.s1)) 1 1 with | .ok _ => true | .error _ => false) = true ∧
    (wit (st0) (.marmOff (w 4 2 .none .none (.imm 1) .none .none 0)) fun _ _ => true) = true ∧
    (wit (st { grp [(11, 50)] [] with mon := [⟨false, false, 0x200, false⟩, .off, .off, .off] })
      (.mwait (w 4 0x90 (.s 10) (.s 11) .none .none .none 0)) fun e _ => let e1 := committed e;
      decide (∀ m ∈ e1.grp.mon, m.armed = false)) = true ∧
    (wit (st { grp [(11, 50)] [] with mon := [⟨true, false, 0x200, true⟩, .off, .off, .off] })
      (.mwait (w 4 0x90 (.s 10) (.s 11) .none .none .none 0)) fun e _ => let e1 := committed e;
      decide (firedBits e1.grp ≠ 0)) = true ∧
    (wit (st { grp [(11, 50)] [] with mon := [⟨true, false, 0x200, false⟩, .off, .off, .off] })
      (.mwait (w 4 0x90 (.s 10) (.s 11) .none .none .none 0)) fun e _ => let e1 := committed e;
      decide ((∃ m ∈ e1.grp.mon, m.armed = true) ∧ firedBits e1.grp = 0)) = true ∧
    (holds ({ st { grp [] [] with cond := .wait (.mwait (some 99) 10 2) } with cycle := 100 }) fun s =>
      match env? s me with | some e => e.grp.cond == .wait (.mwait (some 99) 10 2) && decide (99 ≤ s.cycle.toNat) | none => false) = true ∧
    (holds ({ st { grp [] [] with cond := .wait (.mwait (some 99) 10 2) } with cycle := 98 }) fun s =>
      match env? s me with | some e => e.grp.cond == .wait (.mwait (some 99) 10 2) && decide (s.cycle.toNat < 99) | none => false) = true ∧
    (holds ({ st { grp [] [] with cond := .wait (.mwait none 10 2), mon := [⟨true, true, 4, false⟩, .off, .off, .off] } with cycle := 98 }) fun s =>
      match env? (fireSome me 1 s) me with | some e => e.grp.cond == .wait (.mwait none 10 2) && decide (firedBits e.grp = 1) | none => false) = true ∧
    (wit (device { team [grp [] [], { Group.fresh 1 0x3000 0 256 with cond := .wait (.tbar 0) }] with tbar := 2 })
      (.tbar (w 4 0x70 .none .none .none .none .none 0)) fun e f =>
      match released (committed e) (fOrd f) (fScope f) with | some e1 => (let m := e1.team.tbar ||| ((1 : BitVec 64) <<< e1.grp.idx); decide (∀ g ∈ e1.team.groups, m.getLsbD g.idx = true ∨ g.cond = .ended)) | none => false) = true ∧
    (wit (device { team [grp [] [], { Group.fresh 1 0x3000 0 256 with cond := .ended }] with tbar := 0 })
      (.tbar (w 4 0x70 .none .none .none .none .none 0)) fun e f =>
      match released (committed e) (fOrd f) (fScope f) with | some e1 => (let m := e1.team.tbar ||| ((1 : BitVec 64) <<< e1.grp.idx); decide (∀ g ∈ e1.team.groups, m.getLsbD g.idx = true ∨ g.cond = .ended)) | none => false) = true ∧
    (wit (device { team [grp [] [], { Group.fresh 1 0x3000 0 256 with cond := .ready }] with tbar := 0 })
      (.tbar (w 4 0x70 .none .none .none .none .none 0)) fun e f =>
      match released (committed e) (fOrd f) (fScope f) with | some e1 => (let m := e1.team.tbar ||| ((1 : BitVec 64) <<< e1.grp.idx); decide (∃ g ∈ e1.team.groups, m.getLsbD g.idx = false ∧ g.cond ≠ .ended)) | none => false) = true ∧
    (holds (device { team [{ grp [] [] with cond := .ended }, { Group.fresh 1 0x3000 0 256 with cond := .wait (.tbar 0) }] with tbar := 2 }) fun s =>
      match s.team? 1 with | some x => x.tbar != 0 && decide (∀ g ∈ x.groups, x.tbar.getLsbD g.idx = true ∨ g.cond = .ended) | none => false) = true := by decide +kernel

/-- The first words of the ring window are poisoned. -/
def poisoned (s : State) : State := { s with poolErr := Assoc.put s.poolErr (windowKey s (team []) true / 8) .poison }
/-- O40: `anot` of one entry, of none and of too many; a ring whose entry is taken, one whose size or window is not legal and
one whose PUB ran ahead; one whose descriptor is poisoned, one that is stopped, and one whose entry waits for its
extension. -/
theorem witness_RingEntries :
    (wit (loc true 0 16 (6 + 5 * 2 ^ 32 + 2 * 2 ^ 64 + 64 * 2 ^ 72) (st (grp [(23, 0x40000000), (24, 1)] [])))
      (.anot (w 4 0xE0 (.s 24) (.s 23) (.s 24) .none .none 0)) fun e f =>
      match released (committed e) (fOrd f) (fScope f) with | some e1 => (let a := e1.n32 0 (.op f.s1); match localLook e1.st e1.team a 16 16 with | .ok (k, _) => (let d := poolNat e1.st k 16; let n := e1.n32 0 (.op f.s2); let pub := BitVec.ofNat 32 d; let free := 2 ^ (d / 2 ^ 64 % 2 ^ 4) - (pub - BitVec.ofNat 32 (d / 2 ^ 32)).toNat; decide (a / 2 ^ 30 % 4 = 1 ∧ a % 2 ^ 21 < 64 ∧ poolBad e1.st k 16 = none ∧ 1 ≤ d / 2 ^ 64 % 2 ^ 4 ∧ d / 2 ^ 64 % 2 ^ 4 ≤ 8 ∧ 0 < n ∧ n ≤ free)) | .error _ => false) | none => false) = true ∧
    (wit (loc true 0 16 (6 + 5 * 2 ^ 32 + 2 * 2 ^ 64 + 64 * 2 ^ 72) (st (grp [(23, 0x40000000), (24, 0)] [])))
      (.anot (w 4 0xE0 (.s 24) (.s 23) (.s 24) .none .none 0)) fun e f =>
      match released (committed e) (fOrd f) (fScope f) with | some e1 => (let a := e1.n32 0 (.op f.s1); match localLook e1.st e1.team a 16 16 with | .ok (k, _) => (let n := e1.n32 0 (.op f.s2); decide (a / 2 ^ 30 % 4 = 1 ∧ a % 2 ^ 21 < 64 ∧ poolBad e1.st k 16 = none ∧ n = 0)) | .error _ => false) | none => false) = true ∧
    (wit (loc true 0 16 (6 + 5 * 2 ^ 32 + 2 * 2 ^ 64 + 64 * 2 ^ 72) (st (grp [(23, 0x40000000), (24, 4)] [])))
      (.anot (w 4 0xE0 (.s 24) (.s 23) (.s 24) .none .none 0)) fun e f =>
      match released (committed e) (fOrd f) (fScope f) with | some e1 => (let a := e1.n32 0 (.op f.s1); match localLook e1.st e1.team a 16 16 with | .ok (k, _) => (let d := poolNat e1.st k 16; let n := e1.n32 0 (.op f.s2); let pub := BitVec.ofNat 32 d; let free := 2 ^ (d / 2 ^ 64 % 2 ^ 4) - (pub - BitVec.ofNat 32 (d / 2 ^ 32)).toNat; decide (a / 2 ^ 30 % 4 = 1 ∧ a % 2 ^ 21 < 64 ∧ poolBad e1.st k 16 = none ∧ free < n)) | .error _ => false) | none => false) = true ∧
    (holds (loc true 0 16 (1 + 0 * 2 ^ 32 + 1 * 2 ^ 64 + 0xFE0 * 2 ^ 72) { st0 with rings := [(key2 1 0, ⟨0, [(1, 7, 0x9000)], true⟩)] }) fun s =>
      match s.team? 1 with
      | some t => (let k := ringKey s t 0; let r := Assoc.rd .zero s.rings (key2 t.uid 0); let d := poolNat s k 16;
          ringTurn s t.core == some (key2 1 0) && decide (poolBad s k 16 = none ∧ d.testBit 97 = false ∧
            0 < (BitVec.ofNat 32 d - r.cons).toNat ∧ 1 ≤ d / 2 ^ 64 % 2 ^ 4 ∧ d / 2 ^ 64 % 2 ^ 4 ≤ 8 ∧
            t.window true + 32 = d / 2 ^ 72 % 2 ^ 21 + 64))
      | none => false) = true ∧
    (holds (mem 0x9000 128 (1 + 1 * 2 ^ 4 + (16 + 4 * 2 ^ 32 + 1 * 2 ^ 48 + 4 * 2 ^ 64) * 2 ^ 128)
      (loc true 64 32 (1 + 0 * 2 ^ 8 + 0 * 2 ^ 16 + 0 * 2 ^ 24 + 1024 * 2 ^ 32 + 32768 * 2 ^ 64 + 0 * 2 ^ 128 + 0 * 2 ^ 160)
      (loc true 0 16 (1 + 0 * 2 ^ 32 + 0 * 2 ^ 64 + 64 * 2 ^ 72) { st0 with rings := [(key2 1 0, ⟨0, [(1, 7, 0x9000)], true⟩)] }))) fun s =>
      match s.team? 1 with | some t => (let k := ringKey s t 0; let r := Assoc.rd .zero s.rings (key2 t.uid 0); let d := poolNat s k 16; let pend := (BitVec.ofNat 32 d - r.cons).toNat; ringTurn s t.core == some (key2 1 0) && decide (poolBad s k 16 = none ∧ d.testBit 97 = false ∧ 0 < pend) && decide (d / 2 ^ 64 % 2 ^ 4 = 0)) | none => false) = true ∧
    (holds (mem 0x9000 128 (1 + 1 * 2 ^ 4 + (16 + 4 * 2 ^ 32 + 1 * 2 ^ 48 + 4 * 2 ^ 64) * 2 ^ 128)
      (loc true 64 32 (1 + 0 * 2 ^ 8 + 0 * 2 ^ 16 + 0 * 2 ^ 24 + 1024 * 2 ^ 32 + 32768 * 2 ^ 64 + 0 * 2 ^ 128 + 0 * 2 ^ 160)
      (loc true 0 16 (1 + 0 * 2 ^ 32 + 9 * 2 ^ 64 + 64 * 2 ^ 72) { st0 with rings := [(key2 1 0, ⟨0, [(1, 7, 0x9000)], true⟩)] }))) fun s =>
      match s.team? 1 with | some t => (let k := ringKey s t 0; let r := Assoc.rd .zero s.rings (key2 t.uid 0); let d := poolNat s k 16; let pend := (BitVec.ofNat 32 d - r.cons).toNat; ringTurn s t.core == some (key2 1 0) && decide (poolBad s k 16 = none ∧ d.testBit 97 = false ∧ 0 < pend) && decide (8 < d / 2 ^ 64 % 2 ^ 4)) | none => false) = true ∧
    (holds (mem 0x9000 128 (1 + 1 * 2 ^ 4 + (16 + 4 * 2 ^ 32 + 1 * 2 ^ 48 + 4 * 2 ^ 64) * 2 ^ 128)
      (loc true 64 32 (1 + 0 * 2 ^ 8 + 0 * 2 ^ 16 + 0 * 2 ^ 24 + 1024 * 2 ^ 32 + 32768 * 2 ^ 64 + 0 * 2 ^ 128 + 0 * 2 ^ 160)
      (loc true 0 16 (3 + 0 * 2 ^ 32 + 1 * 2 ^ 64 + 64 * 2 ^ 72) { st0 with rings := [(key2 1 0, ⟨0, [(1, 7, 0x9000)], true⟩)] }))) fun s =>
      match s.team? 1 with | some t => (let k := ringKey s t 0; let r := Assoc.rd .zero s.rings (key2 t.uid 0); let d := poolNat s k 16; let n := 2 ^ (d / 2 ^ 64 % 2 ^ 4); let pend := (BitVec.ofNat 32 d - r.cons).toNat; let base := d / 2 ^ 72 % 2 ^ 21; ringTurn s t.core == some (key2 1 0) && decide (poolBad s k 16 = none ∧ d.testBit 97 = false ∧ 0 < pend) && decide (d / 2 ^ 64 % 2 ^ 4 = 1 ∧ base + 32 * n ≤ t.window true ∧ n < pend)) | none => false) = true ∧
    (holds (mem 0x9000 128 (1 + 1 * 2 ^ 4 + (16 + 4 * 2 ^ 32 + 1 * 2 ^ 48 + 4 * 2 ^ 64) * 2 ^ 128)
      (loc true 64 32 (1 + 0 * 2 ^ 8 + 0 * 2 ^ 16 + 0 * 2 ^ 24 + 1024 * 2 ^ 32 + 32768 * 2 ^ 64 + 0 * 2 ^ 128 + 0 * 2 ^ 160)
      (loc true 0 16 (1 + 0 * 2 ^ 32 + 1 * 2 ^ 64 + 64 * 2 ^ 72) { st0 with rings := [(key2 1 0, ⟨0, [(1, 7, 0x9000)], true⟩)] }))) fun s =>
      match s.team? 1 with | some t => (let k := ringKey s t 0; let r := Assoc.rd .zero s.rings (key2 t.uid 0); let d := poolNat s k 16; let n := 2 ^ (d / 2 ^ 64 % 2 ^ 4); let pend := (BitVec.ofNat 32 d - r.cons).toNat; let base := d / 2 ^ 72 % 2 ^ 21; let ek := windowKey s t true + base + 32 * (r.cons.toNat % n); let ent := poolNat s ek 32; ringTurn s t.core == some (key2 1 0) && decide (poolBad s k 16 = none ∧ d.testBit 97 = false ∧ 0 < pend) && decide (pend ≤ n ∧ base + 32 * n ≤ t.window true ∧ poolBad s ek 32 = none ∧ ent.testBit 8 = false ∧ ent / 2 ^ 16 % 2 ^ 8 = 0) && (match engineLoad s t.ctx t.core (kickSample r).2.toNat (128 * (ent / 2 ^ 24 % 2 ^ 8)) 128 1 with | (_, .ok _) => true | _ => false)) | none => false) = true ∧
    (holds (mem 0x9000 128 (1 + 1 * 2 ^ 4 + (16 + 4 * 2 ^ 32 + 1 * 2 ^ 48 + 4 * 2 ^ 64) * 2 ^ 128)
      (loc true 64 32 (9 + 0 * 2 ^ 8 + 0 * 2 ^ 16 + 0 * 2 ^ 24 + 1024 * 2 ^ 32 + 32768 * 2 ^ 64 + 0 * 2 ^ 128 + 0 * 2 ^ 160)
      (loc true 0 16 (1 + 0 * 2 ^ 32 + 1 * 2 ^ 64 + 64 * 2 ^ 72) { st0 with rings := [(key2 1 0, ⟨0, [(1, 7, 0x9000)], true⟩)] }))) fun s =>
      match s.team? 1 with | some t => (let k := ringKey s t 0; let r := Assoc.rd .zero s.rings (key2 t.uid 0); let d := poolNat s k 16; let pend := (BitVec.ofNat 32 d - r.cons).toNat; ringTurn s t.core == some (key2 1 0) && decide (poolBad s k 16 = none ∧ d.testBit 97 = false ∧ 0 < pend)) | none => false) = true ∧
    (holds (poisoned (loc true 0 16 (1 + 0 * 2 ^ 32 + 1 * 2 ^ 64 + 64 * 2 ^ 72) { st0 with rings := [(key2 1 0, ⟨0, [(1, 7, 0x9000)], true⟩)] })) fun s =>
      match s.team? 1 with | some t => ringTurn s t.core == some (key2 1 0) && (poolBad s (ringKey s t 0) 16).isSome | none => false) = true ∧
    (holds ((loc true 0 16 (1 + 0 * 2 ^ 32 + 1 * 2 ^ 64 + 64 * 2 ^ 72 + 2 ^ 97) { st0 with rings := [(key2 1 0, ⟨0, [(1, 7, 0x9000)], true⟩)] })) fun s =>
      match s.team? 1 with | some t => ringTurn s t.core == some (key2 1 0) && (poolBad s (ringKey s t 0) 16).isNone && (poolNat s (ringKey s t 0) 16).testBit 97 | none => false) = true ∧
    (holds (loc true 64 32 (1 + 2 ^ 8) (loc true 0 16 (1 + 0 * 2 ^ 32 + 1 * 2 ^ 64 + 64 * 2 ^ 72) { st0 with rings := [(key2 1 0, ⟨0, [(1, 7, 0x9000)], true⟩)] })) fun s =>
      match s.team? 1 with
      | some t => ringTurn s t.core == some (key2 1 0) && (poolBad s (ringKey s t 0) 16).isNone &&
          decide (s.copies.countP (fun c => c.core == t.core) < 128) && (poolNat s (windowKey s t true + 64) 32).testBit 8
      | none => false) = true := by decide +kernel

/-- The element at a command's progress is read, where it goes is looked up, and the units it leaves go out. -/
def elementMoves (c : Copy) (t : Team) (s : Machine.State) : Bool :=
  match c.read t c.done s with
  | (s1, .ok (ps, _)) => (match c.canWrite t ps s1 with
    | (s2, .ok ()) => (match Copy.flush t (c.unitsOf (c.stage.filter fun g =>
        ps.any fun p => p.1 == g.arr && c.unitOf p.2.1 != c.unitOf g.disp)) c s2 with
      | (_, _, .ok ()) => true
      | _ => false)
    | _ => false)
  | _ => false
/-- O41: an element of each operation; one outside the array; one that faults as it is read; completions with each kind of
failure; an element that leaves a word behind, one whose place faults, a command over with a word to put out; a suspended
copy answered. -/
theorem witness_CopyCommands :
    (holds ({ st0 with copies := [⟨5, 1, 0, 0, 1, BitVec.ofNat 256 (1 + 0 * 2 ^ 8 + 0 * 2 ^ 16 + 0 * 2 ^ 24 + 1024 * 2 ^ 32 + 32768 * 2 ^ 64 + 0 * 2 ^ 128 + 0 * 2 ^ 160 + 0 * 2 ^ 192), BitVec.ofNat 256 0, BitVec.ofNat 1024 (1 + 1 * 2 ^ 4 + 0 * 2 ^ 8 + 0 * 2 ^ 12 + (16 + 4 * 2 ^ 32 + 1 * 2 ^ 48 + 4 * 2 ^ 64) * 2 ^ 128), 7, none, [], [0x400], [], 1, none, none, [], []⟩] }) fun s =>
      match s.copy? 5, s.team? 1 with | some c, some t => c.fail.isNone && c.susp.isNone && decide (c.done < c.count) && c.op == 1 && !c.outFails c.done && elementMoves c t s | _, _ => false) = true ∧
    (holds ({ st0 with copies := [⟨5, 1, 0, 0, 1, BitVec.ofNat 256 (2 + 0 * 2 ^ 8 + 0 * 2 ^ 16 + 0 * 2 ^ 24 + 1024 * 2 ^ 32 + 32768 * 2 ^ 64 + 0 * 2 ^ 128 + 0 * 2 ^ 160 + 0 * 2 ^ 192), BitVec.ofNat 256 0, BitVec.ofNat 1024 (1 + 1 * 2 ^ 4 + 0 * 2 ^ 8 + 0 * 2 ^ 12 + (16 + 4 * 2 ^ 32 + 1 * 2 ^ 48 + 4 * 2 ^ 64) * 2 ^ 128), 7, none, [], [0x400], [], 1, none, none, [], []⟩] }) fun s =>
      match s.copy? 5, s.team? 1 with | some c, some t => c.fail.isNone && c.susp.isNone && decide (c.done < c.count) && c.op == 2 && !c.outFails c.done && elementMoves c t s | _, _ => false) = true ∧
    (holds ({ st0 with copies := [⟨5, 1, 0, 0, 1, BitVec.ofNat 256 (3 + 0 * 2 ^ 8 + 0 * 2 ^ 16 + 0 * 2 ^ 24 + 1024 * 2 ^ 32 + 32768 * 2 ^ 64 + 0 * 2 ^ 128 + 0 * 2 ^ 160 + 0 * 2 ^ 192), BitVec.ofNat 256 (0xA000 * 2 ^ 192), BitVec.ofNat 1024 (1 + 1 * 2 ^ 4 + 0 * 2 ^ 8 + 0 * 2 ^ 12 + (16 + 4 * 2 ^ 32 + 1 * 2 ^ 48 + 4 * 2 ^ 64) * 2 ^ 128), 7, none, [], [0x400], [], 1, none, none, [], []⟩] }) fun s =>
      match s.copy? 5, s.team? 1 with | some c, some t => c.fail.isNone && c.susp.isNone && decide (c.done < c.count) && c.op == 3 && !c.outFails c.done && elementMoves c t s | _, _ => false) = true ∧
    (holds ({ st0 with copies := [⟨5, 1, 0, 0, 1, BitVec.ofNat 256 (4 + 0 * 2 ^ 8 + 0 * 2 ^ 16 + 0 * 2 ^ 24 + 1024 * 2 ^ 32 + 32768 * 2 ^ 64 + 0 * 2 ^ 128 + 0 * 2 ^ 160 + 0 * 2 ^ 192), BitVec.ofNat 256 0, BitVec.ofNat 1024 (1 + 1 * 2 ^ 4 + 1 * 2 ^ 8 + 0 * 2 ^ 12 + (16 + 4 * 2 ^ 32 + 1 * 2 ^ 48 + 4 * 2 ^ 64) * 2 ^ 128 + (16 + 2 * 2 ^ 32 + 1 * 2 ^ 48 + 64 * 2 ^ 64) * 2 ^ 256), 7, none, [some 0, some 1], [0x400], [], 1, none, none, [], []⟩] }) fun s =>
      match s.copy? 5, s.team? 1 with | some c, some t => c.fail.isNone && c.susp.isNone && decide (c.done < c.count) && c.op == 4 && !c.outFails c.done && elementMoves c t s | _, _ => false) = true ∧
    (holds ({ st0 with copies := [⟨5, 1, 0, 0, 1, BitVec.ofNat 256 (5 + 0 * 2 ^ 8 + 0 * 2 ^ 16 + 0 * 2 ^ 24 + 1024 * 2 ^ 32 + 32768 * 2 ^ 64 + 0 * 2 ^ 128 + 0 * 2 ^ 160 + 0 * 2 ^ 192), BitVec.ofNat 256 0, BitVec.ofNat 1024 (1 + 1 * 2 ^ 4 + 1 * 2 ^ 8 + 0 * 2 ^ 12 + (16 + 4 * 2 ^ 32 + 1 * 2 ^ 48 + 4 * 2 ^ 64) * 2 ^ 128 + (16 + 2 * 2 ^ 32 + 1 * 2 ^ 48 + 64 * 2 ^ 64) * 2 ^ 256), 7, none, [some 0, some 1], [0x400], [], 1, none, none, [], []⟩] }) fun s =>
      match s.copy? 5, s.team? 1 with | some c, some t => c.fail.isNone && c.susp.isNone && decide (c.done < c.count) && c.op == 5 && !c.outFails c.done && elementMoves c t s | _, _ => false) = true ∧
    (holds ({ st0 with copies := [⟨5, 1, 0, 0, 1, BitVec.ofNat 256 (6 + 0 * 2 ^ 8 + 0 * 2 ^ 16 + 0 * 2 ^ 24 + 1024 * 2 ^ 32 + 0 * 2 ^ 64 + 0 * 2 ^ 128 + 7 * 2 ^ 160 + 0 * 2 ^ 192), BitVec.ofNat 256 0, BitVec.ofNat 1024 (1 + 1 * 2 ^ 4 + 0 * 2 ^ 8 + 0 * 2 ^ 12 + (16 + 4 * 2 ^ 32 + 1 * 2 ^ 48 + 4 * 2 ^ 64) * 2 ^ 128), 7, none, [], [0x400], [], 1, none, none, [], []⟩] }) fun s =>
      match s.copy? 5, s.team? 1 with | some c, some t => c.fail.isNone && c.susp.isNone && decide (c.done < c.count) && c.op == 6 && !c.outFails c.done && elementMoves c t s | _, _ => false) = true ∧
    (holds ({ st0 with copies := [⟨5, 1, 0, 0, 1, BitVec.ofNat 256 (7 + 0 * 2 ^ 8 + 0 * 2 ^ 16 + 0 * 2 ^ 24 + 1024 * 2 ^ 32 + 32768 * 2 ^ 64 + 0 * 2 ^ 128 + 0 * 2 ^ 160 + 0 * 2 ^ 192), BitVec.ofNat 256 (1 * 2 ^ 128 + 1 * 2 ^ 144), BitVec.ofNat 1024 (1 + 1 * 2 ^ 4 + 0 * 2 ^ 8 + 0 * 2 ^ 12 + (16 + 4 * 2 ^ 32 + 1 * 2 ^ 48 + 4 * 2 ^ 64) * 2 ^ 128), 7, none, [], [0x400], [], 1, none, none, [], []⟩] }) fun s =>
      match s.copy? 5, s.team? 1 with | some c, some t => c.fail.isNone && c.susp.isNone && decide (c.done < c.count) && c.op == 7 && !c.outFails c.done && elementMoves c t s | _, _ => false) = true ∧
    (holds ({ st0 with copies := [⟨5, 1, 0, 0, 1, BitVec.ofNat 256 (1 + 0 * 2 ^ 8 + 0 * 2 ^ 16 + 0 * 2 ^ 24 + 1024 * 2 ^ 32 + 32768 * 2 ^ 64 + 0 * 2 ^ 128 + 0 * 2 ^ 160 + 15 * 2 ^ 192), BitVec.ofNat 256 0, BitVec.ofNat 1024 (1 + 1 * 2 ^ 4 + 0 * 2 ^ 8 + 2 * 2 ^ 12 + (16 + 4 * 2 ^ 32 + 1 * 2 ^ 48 + 4 * 2 ^ 64) * 2 ^ 128), 7, none, [], [0x400], [], 1, none, none, [], []⟩] }) fun s =>
      match s.copy? 5, s.team? 1 with | some c, some _ => c.fail.isNone && c.susp.isNone && decide (c.done < c.count) && c.op == 1 && c.outFails c.done | _, _ => false) = true ∧
    (holds ({ st0 with copies := [⟨5, 1, 0, 0, 1, BitVec.ofNat 256 (1 + 0 * 2 ^ 8 + 0 * 2 ^ 16 + 0 * 2 ^ 24 + 1024 * 2 ^ 32 + 1073741824 * 2 ^ 64 + 0 * 2 ^ 128 + 0 * 2 ^ 160 + 0 * 2 ^ 192), BitVec.ofNat 256 0, BitVec.ofNat 1024 (1 + 1 * 2 ^ 4 + 0 * 2 ^ 8 + 0 * 2 ^ 12 + (16 + 4 * 2 ^ 32 + 1 * 2 ^ 48 + 4 * 2 ^ 64) * 2 ^ 128), 7, none, [], [0x400], [], 1, none, none, [], []⟩] }) fun s =>
      match s.copy? 5, s.team? 1 with | some c, some t => c.fail.isNone && c.susp.isNone && decide (c.done < c.count) && c.op == 1 && !c.outFails c.done && (match c.read t c.done s with | (_, .error (.fault _ _)) => true | _ => false) | _, _ => false) = true ∧
    (holds ({ st0 with copies := [⟨5, 1, 0, 0, 1, BitVec.ofNat 256 (1 + 0 * 2 ^ 8 + 1 * 2 ^ 16 + 0 * 2 ^ 24 + 1024 * 2 ^ 32 + 32768 * 2 ^ 64 + 256 * 2 ^ 128 + 0 * 2 ^ 160 + 0 * 2 ^ 192), BitVec.ofNat 256 0, BitVec.ofNat 1024 (1 + 1 * 2 ^ 4 + 0 * 2 ^ 8 + 0 * 2 ^ 12 + (16 + 4 * 2 ^ 32 + 1 * 2 ^ 48 + 4 * 2 ^ 64) * 2 ^ 128), 7, none, [], [0x400], [0x100], 4, none, none, [], []⟩] }) fun s =>
      match s.copy? 5, s.team? 1 with | some c, some t => c.susp.isNone && c.stage.isEmpty && c.kind == 1 && decide (c.count ≤ c.done) && c.fail == none && (match scratchKey s t 0x100 16 with | some k => (poolBad s k 16).isNone | none => false) | _, _ => false) = true ∧
    (holds ({ st0 with copies := [⟨5, 1, 0, 0, 1, BitVec.ofNat 256 (1 + 0 * 2 ^ 8 + 1 * 2 ^ 16 + 0 * 2 ^ 24 + 1024 * 2 ^ 32 + 32768 * 2 ^ 64 + 256 * 2 ^ 128 + 0 * 2 ^ 160 + 0 * 2 ^ 192), BitVec.ofNat 256 0, BitVec.ofNat 1024 (1 + 1 * 2 ^ 4 + 0 * 2 ^ 8 + 0 * 2 ^ 12 + (16 + 4 * 2 ^ 32 + 1 * 2 ^ 48 + 4 * 2 ^ 64) * 2 ^ 128), 7, none, [], [0x400], [0x100], 4, some 1, none, [], []⟩] }) fun s =>
      match s.copy? 5, s.team? 1 with | some c, some t => c.susp.isNone && c.stage.isEmpty && c.kind == 1 && decide (c.count ≤ c.done) && c.fail == some 1 && (match scratchKey s t 0x100 16 with | some k => (poolBad s k 16).isNone | none => false) | _, _ => false) = true ∧
    (holds ({ st0 with copies := [⟨5, 1, 0, 0, 1, BitVec.ofNat 256 (1 + 0 * 2 ^ 8 + 1 * 2 ^ 16 + 0 * 2 ^ 24 + 1024 * 2 ^ 32 + 32768 * 2 ^ 64 + 256 * 2 ^ 128 + 0 * 2 ^ 160 + 0 * 2 ^ 192), BitVec.ofNat 256 0, BitVec.ofNat 1024 (1 + 1 * 2 ^ 4 + 0 * 2 ^ 8 + 0 * 2 ^ 12 + (16 + 4 * 2 ^ 32 + 1 * 2 ^ 48 + 4 * 2 ^ 64) * 2 ^ 128), 7, none, [], [0x400], [0x100], 4, some 0x0C, none, [], []⟩] }) fun s =>
      match s.copy? 5, s.team? 1 with | some c, some t => c.susp.isNone && c.stage.isEmpty && c.kind == 1 && decide (c.count ≤ c.done) && c.fail == some 0x0C && (match scratchKey s t 0x100 16 with | some k => (poolBad s k 16).isNone | none => false) | _, _ => false) = true ∧
    (holds ({ st0 with copies := [⟨5, 1, 0, 0, 1, BitVec.ofNat 256 (1 + 0 * 2 ^ 8 + 1 * 2 ^ 16 + 0 * 2 ^ 24 + 1024 * 2 ^ 32 + 32768 * 2 ^ 64 + 256 * 2 ^ 128 + 0 * 2 ^ 160 + 0 * 2 ^ 192), BitVec.ofNat 256 0, BitVec.ofNat 1024 (1 + 1 * 2 ^ 4 + 0 * 2 ^ 8 + 0 * 2 ^ 12 + (16 + 4 * 2 ^ 32 + 1 * 2 ^ 48 + 4 * 2 ^ 64) * 2 ^ 128), 7, none, [], [0x400], [0x100], 4, some 0x0D, none, [], []⟩] }) fun s =>
      match s.copy? 5, s.team? 1 with | some c, some t => c.susp.isNone && c.stage.isEmpty && c.kind == 1 && decide (c.count ≤ c.done) && c.fail == some 0x0D && (match scratchKey s t 0x100 16 with | some k => (poolBad s k 16).isNone | none => false) | _, _ => false) = true ∧
    (holds ({ st0 with copies := [⟨5, 1, 0, 0, 1, BitVec.ofNat 256 (1 + 1024 * 2 ^ 32 + 32768 * 2 ^ 64), BitVec.ofNat 256 0, BitVec.ofNat 1024 (1 + 1 * 2 ^ 4 + (16 + 4 * 2 ^ 32 + 1 * 2 ^ 48 + 4 * 2 ^ 64) * 2 ^ 128), 7, none, [], [0x400], [], 2, none, none, [⟨0, 4, [1, 2, 3, 4], 1⟩], []⟩] }) fun s => match s.copy? 5, s.team? 1 with
      | some c, some t => c.fail.isNone && c.susp.isNone && decide (c.done < c.count) && c.op == 1 && !c.outFails c.done &&
          c.unitOf 8 != c.unitOf 4 && elementMoves c t s
      | _, _ => false) = true ∧
    (holds ({ st0 with copies := [⟨5, 1, 0, 0, 1, BitVec.ofNat 256 (2 + 1024 * 2 ^ 32 + 1073741824 * 2 ^ 64), BitVec.ofNat 256 0, BitVec.ofNat 1024 (1 + 1 * 2 ^ 4 + (16 + 4 * 2 ^ 32 + 1 * 2 ^ 48 + 4 * 2 ^ 64) * 2 ^ 128), 7, none, [], [0x400], [], 1, none, none, [], []⟩] }) fun s => match s.copy? 5, s.team? 1 with
      | some c, some t => c.fail.isNone && c.susp.isNone && decide (c.done < c.count) && c.op == 2 && !c.outFails c.done &&
          (match c.read t c.done s with
          | (s1, .ok (ps, _)) => (match c.canWrite t ps s1 with | (_, .error (.fault _ _)) => true | _ => false)
          | _ => false)
      | _, _ => false) = true ∧
    (holds ({ st0 with copies := [⟨5, 1, 0, 0, 1, BitVec.ofNat 256 (1 + 1024 * 2 ^ 32 + 32768 * 2 ^ 64), BitVec.ofNat 256 0, BitVec.ofNat 1024 (1 + 1 * 2 ^ 4 + (16 + 4 * 2 ^ 32 + 1 * 2 ^ 48 + 4 * 2 ^ 64) * 2 ^ 128), 7, none, [], [0x400], [], 4, none, none, [⟨0, 4, [1, 2, 3, 4], 1⟩], []⟩] }) fun s => match s.copy? 5, s.team? 1 with
      | some c, some t => c.susp.isNone && decide (c.count ≤ c.done) && c.op == 1 && !c.stage.isEmpty &&
          (match Copy.flush t (c.unitsOf c.stage) c s with | (_, _, .ok ()) => true | _ => false) &&
          (c.runs 0 (c.unitOf 4)).length == 1
      | _, _ => false) = true ∧
    (holds (ctx (fun c => { c with faults := [⟨3, 0x5000, 0, 0, some true⟩] })
      ({ st0 with copies := [⟨5, 1, 0, 0, 1, BitVec.ofNat 256 (1 + 0 * 2 ^ 8 + 0 * 2 ^ 16 + 0 * 2 ^ 24 + 1024 * 2 ^ 32 + 32768 * 2 ^ 64 + 0 * 2 ^ 128 + 0 * 2 ^ 160 + 0 * 2 ^ 192), BitVec.ofNat 256 0, BitVec.ofNat 1024 (1 + 1 * 2 ^ 4 + 0 * 2 ^ 8 + 0 * 2 ^ 12 + (16 + 4 * 2 ^ 32 + 1 * 2 ^ 48 + 4 * 2 ^ 64) * 2 ^ 128), 7, none, [], [0x400], [], 1, none, some 3, [], []⟩] })) fun s =>
      match s.copy? 5, s.team? 1 with | some c, some t => c.fail.isNone && decide (c.done < c.count) && c.susp == some 3 && faultAnswer s t.ctx 3 == some true | _, _ => false) = true ∧
    (holds (ctx (fun c => { c with faults := [⟨3, 0x5000, 0, 0, some false⟩] })
      ({ st0 with copies := [⟨5, 1, 0, 0, 1, BitVec.ofNat 256 (1 + 0 * 2 ^ 8 + 0 * 2 ^ 16 + 0 * 2 ^ 24 + 1024 * 2 ^ 32 + 32768 * 2 ^ 64 + 0 * 2 ^ 128 + 0 * 2 ^ 160 + 0 * 2 ^ 192), BitVec.ofNat 256 0, BitVec.ofNat 1024 (1 + 1 * 2 ^ 4 + 0 * 2 ^ 8 + 0 * 2 ^ 12 + (16 + 4 * 2 ^ 32 + 1 * 2 ^ 48 + 4 * 2 ^ 64) * 2 ^ 128), 7, none, [], [0x400], [], 1, none, some 3, [], []⟩] })) fun s =>
      match s.copy? 5, s.team? 1 with | some c, some t => c.fail.isNone && decide (c.done < c.count) && c.susp == some 3 && faultAnswer s t.ctx 3 == some false | _, _ => false) = true ∧
    (holds (ctx (fun c => { c with faults := [⟨3, 0x5000, 0, 0, none⟩] })
      ({ st0 with copies := [⟨5, 1, 0, 0, 1, BitVec.ofNat 256 (1 + 0 * 2 ^ 8 + 0 * 2 ^ 16 + 0 * 2 ^ 24 + 1024 * 2 ^ 32 + 32768 * 2 ^ 64 + 0 * 2 ^ 128 + 0 * 2 ^ 160 + 0 * 2 ^ 192), BitVec.ofNat 256 0, BitVec.ofNat 1024 (1 + 1 * 2 ^ 4 + 0 * 2 ^ 8 + 0 * 2 ^ 12 + (16 + 4 * 2 ^ 32 + 1 * 2 ^ 48 + 4 * 2 ^ 64) * 2 ^ 128), 7, none, [], [0x400], [], 1, none, some 3, [], []⟩] })) fun s =>
      match s.copy? 5, s.team? 1 with | some c, some t => c.fail.isNone && decide (c.done < c.count) && c.susp == some 3 && faultAnswer s t.ctx 3 == none | _, _ => false) = true := by decide +kernel

/-- O42: each form accepted, refused for its bank, held by stores and by the west neighbour; `mzero` with and without
its bank; `orsv` at and beyond the end of the buffer; `orel`; `mwt` covering an operation, done, and with an error;
`mstat`. -/
theorem witness_MatrixInstructions :
    (wit (device { team [{ grp [(16, 256), (18, 512), (20, 16), (21, 16), (22, 67174405)] [] with o := [(0, ⟨true, 0, 0x1000, 14, true, 0x400, 0⟩), (1, ⟨true, 0, 0x1000, 14, true, 0x400, 0⟩)] }] with banks := 0xF, epi := 0xFF, tkOwn := true, obSize := 16 })
      (.mma (w 5 0xCC (.a 1) (.s 16) .none .none .none 0)) fun e f => let d := e.wide 0 f.s1 8;
      let oa := e.rsv (field d 196 3); let ob := e.rsv (field d 199 3); let e1 := committed e; e.st.phase == .run &&
      !slaved e && mmaCheck 0 f e d oa ob == none && !storesOut e.st e.gid && !storesOut e1.st e.gid &&
      decide (queueFull e1.st e1.core = false ∧ fV f = false)) = true ∧
    (wit (device { { team [{ grp [(16, 256), (18, 512), (20, 16), (21, 16), (22, 67174405)] [] with o := [(0, ⟨true, 0, 0x1000, 14, true, 0x400, 0⟩), (1, ⟨true, 0, 0x1000, 14, true, 0x400, 0⟩)] }] with banks := 0xF, epi := 0xFF, tkOwn := true, obSize := 16 } with banks := 1 })
      (.mma (w 5 0xCC (.a 1) (.s 16) .none .none .none 0)) fun e f => let d := e.wide 0 f.s1 8;
      let oa := e.rsv (field d 196 3); let ob := e.rsv (field d 199 3); e.st.phase == .run && !slaved e &&
      mmaCheck 0 f e d oa ob == some 1) = true ∧
    (wit (posted (.store ⟨0x9000, 0x9000, 0, 0, false, false, [1]⟩)
      (device { team [{ grp [(16, 256), (18, 512), (20, 16), (21, 16), (22, 67174405)] [] with o := [(0, ⟨true, 0, 0x1000, 14, true, 0x400, 0⟩), (1, ⟨true, 0, 0x1000, 14, true, 0x400, 0⟩)] }] with banks := 0xF, epi := 0xFF, tkOwn := true, obSize := 16 }))
      (.mma (w 5 0xCC (.a 1) (.s 16) .none .none .none 0)) fun e f => let d := e.wide 0 f.s1 8;
      let oa := e.rsv (field d 196 3); let ob := e.rsv (field d 199 3); e.st.phase == .run && !slaved e &&
      mmaCheck 0 f e d oa ob == none && storesOut e.st e.gid) = true ∧
    (wit (device { team [{ grp [(16, 256), (18, 512), (20, 128), (22, 67633285)] [] with o := [(0, ⟨true, 0, 0x1000, 14, true, 0x400, 0⟩), (1, ⟨true, 0, 0x1000, 14, true, 0x400, 0⟩)] }] with banks := 0xF, epi := 0xFF, tkOwn := true, obSize := 16 })
      (.mmab (w 5 0xEE (.a 1) (.s 16) .none .none .none 0)) fun e f => let d := e.wide 0 f.s1 8;
      let oa := e.rsv (field d 196 3); let ob := e.rsv (field d 199 3); let e1 := committed e; e.st.phase == .run &&
      !slaved e && mmaCheck 1 f e d oa ob == none && !storesOut e.st e.gid && !storesOut e1.st e.gid &&
      decide (queueFull e1.st e1.core = false ∧ fV f = false)) = true ∧
    (wit (device { { team [{ grp [(16, 256), (18, 512), (20, 128), (22, 67633285)] [] with o := [(0, ⟨true, 0, 0x1000, 14, true, 0x400, 0⟩), (1, ⟨true, 0, 0x1000, 14, true, 0x400, 0⟩)] }] with banks := 0xF, epi := 0xFF, tkOwn := true, obSize := 16 } with banks := 1 })
      (.mmab (w 5 0xEE (.a 1) (.s 16) .none .none .none 0)) fun e f => let d := e.wide 0 f.s1 8;
      let oa := e.rsv (field d 196 3); let ob := e.rsv (field d 199 3); e.st.phase == .run && !slaved e &&
      mmaCheck 1 f e d oa ob == some 1) = true ∧
    (wit (posted (.store ⟨0x9000, 0x9000, 0, 0, false, false, [1]⟩)
      (device { team [{ grp [(16, 256), (18, 512), (20, 128), (22, 67633285)] [] with o := [(0, ⟨true, 0, 0x1000, 14, true, 0x400, 0⟩), (1, ⟨true, 0, 0x1000, 14, true, 0x400, 0⟩)] }] with banks := 0xF, epi := 0xFF, tkOwn := true, obSize := 16 }))
      (.mmab (w 5 0xEE (.a 1) (.s 16) .none .none .none 0)) fun e f => let d := e.wide 0 f.s1 8;
      let oa := e.rsv (field d 196 3); let ob := e.rsv (field d 199 3); e.st.phase == .run && !slaved e &&
      mmaCheck 1 f e d oa ob == none && storesOut e.st e.gid) = true ∧
    (wit (device { team [{ grp [(16, 256), (18, 512), (20, 16), (21, 16), (22, 67182597), (23, 768)] [] with o := [(0, ⟨true, 0, 0x1000, 14, true, 0x400, 0⟩), (1, ⟨true, 0, 0x1000, 14, true, 0x400, 0⟩)] }] with banks := 0xF, epi := 0xFF, tkOwn := true, obSize := 16 })
      (.mmas (w 5 0xCC (.a 1) (.s 16) .none .none .none 0)) fun e f => let d := e.wide 0 f.s1 8;
      let oa := e.rsv (field d 196 3); let ob := e.rsv (field d 199 3); let e1 := committed e; e.st.phase == .run &&
      !slaved e && mmaCheck 2 f e d oa ob == none && !storesOut e.st e.gid && !storesOut e1.st e.gid &&
      decide (queueFull e1.st e1.core = false ∧ fV f = false)) = true ∧
    (wit (device { { team [{ grp [(16, 256), (18, 512), (20, 16), (21, 16), (22, 67182597), (23, 768)] [] with o := [(0, ⟨true, 0, 0x1000, 14, true, 0x400, 0⟩), (1, ⟨true, 0, 0x1000, 14, true, 0x400, 0⟩)] }] with banks := 0xF, epi := 0xFF, tkOwn := true, obSize := 16 } with banks := 1 })
      (.mmas (w 5 0xCC (.a 1) (.s 16) .none .none .none 0)) fun e f => let d := e.wide 0 f.s1 8;
      let oa := e.rsv (field d 196 3); let ob := e.rsv (field d 199 3); e.st.phase == .run && !slaved e &&
      mmaCheck 2 f e d oa ob == some 1) = true ∧
    (wit (posted (.store ⟨0x9000, 0x9000, 0, 0, false, false, [1]⟩)
      (device { team [{ grp [(16, 256), (18, 512), (20, 16), (21, 16), (22, 67182597), (23, 768)] [] with o := [(0, ⟨true, 0, 0x1000, 14, true, 0x400, 0⟩), (1, ⟨true, 0, 0x1000, 14, true, 0x400, 0⟩)] }] with banks := 0xF, epi := 0xFF, tkOwn := true, obSize := 16 }))
      (.mmas (w 5 0xCC (.a 1) (.s 16) .none .none .none 0)) fun e f => let d := e.wide 0 f.s1 8;
      let oa := e.rsv (field d 196 3); let ob := e.rsv (field d 199 3); e.st.phase == .run && !slaved e &&
      mmaCheck 2 f e d oa ob == none && storesOut e.st e.gid) = true ∧
    (wit ({ (device { ({ team [{ grp [(16, 256), (18, 512), (20, 16), (21, 16), (22, 67174405)] [] with o := [(0, ⟨true, 0, 0x1000, 14, true, 0x400, 0⟩), (1, ⟨true, 0, 0x1000, 14, true, 0x400, 0⟩)] }] with banks := 0xF, epi := 0xFF, tkOwn := true, obSize := 16 }) with core := 1 }) with matq := [⟨9, me, 239, 0, 1, true, .zero, 7, 0, false, [], 0, [], none, none⟩] })
      (.mma (w 5 0xCC (.a 1) (.s 16) .none .none .none 0)) fun e _ => e.st.phase == .run && slaved e) = true ∧
    (wit (device { team [grp [] []] with banks := 0xF, epi := 0xFF, tkOwn := true, obSize := 16 })
      (.mzero (w 5 0 (.a 1) .none .none .none .none 0)) fun e f => let e1 := committed e; e.st.phase == .run &&
      !slaved e && e1.team.banks.getLsbD (opNum f.d) && decide (fV f = false ∧
      queueFull e1.st e1.core = false)) = true ∧
    (wit (device { { team [grp [] []] with banks := 0xF, epi := 0xFF, tkOwn := true, obSize := 16 } with banks := 1 })
      (.mzero (w 5 0 (.a 1) .none .none .none .none 0)) fun e f => let e1 := committed e; e.st.phase == .run &&
      !slaved e && !e1.team.banks.getLsbD (opNum f.d)) = true ∧
    (wit (device { team [grp [(4, 0x80), (5, 0xFF80), (6, 1), (7, 2)] []] with banks := 0xF, epi := 0xFF, tkOwn := true, obSize := 16 })
      (.orsv (w 5 0x12 (.o 2) (.s 4) (.s 5) (.s 6) (.s 7) 0)) fun e f => let e1 := committed e;
      let base := e1.n32 0 (.op f.s1); let len := e1.n32 0 (.op f.s2); e.st.phase == .run && !slaved e &&
      decide (∀ m ∈ e1.st.matq, m.owner = e.gid → m.names (opNum f.d) = false) && decide (base % 128 = 0 ∧
      len % 128 = 0 ∧ base + len = e1.team.obSize * 4096)) = true ∧
    (wit (device { team [grp [(4, 0x100), (5, 0xFF80)] []] with banks := 0xF, epi := 0xFF, tkOwn := true, obSize := 16 })
      (.orsv (w 5 0x12 (.o 2) (.s 4) (.s 5) (.s 6) (.s 7) 0)) fun e f => let e1 := committed e;
      let base := e1.n32 0 (.op f.s1); let len := e1.n32 0 (.op f.s2); e.st.phase == .run && !slaved e &&
      decide (∀ m ∈ e1.st.matq, m.owner = e.gid → m.names (opNum f.d) = false) &&
      decide (e1.team.obSize * 4096 < base + len)) = true ∧
    (wit (device { team [{ grp [(16, 256), (18, 512), (20, 16), (21, 16), (22, 67174405)] [] with o := [(0, ⟨true, 0, 0x1000, 14, true, 0x400, 0⟩), (1, ⟨true, 0, 0x1000, 14, true, 0x400, 0⟩)] }] with banks := 0xF, epi := 0xFF, tkOwn := true, obSize := 16 })
      (.orel (w 5 0 (.o 1) .none .none .none .none 0)) fun e f => let e1 := committed e; e.st.phase == .run &&
      !slaved e && decide (∀ m ∈ e1.st.matq, m.owner = e.gid → m.names (opNum f.d) = false)) = true ∧
    (wit (device { { team [grp [] []] with banks := 0xF, epi := 0xFF, tkOwn := true, obSize := 16 } with banks := 1 })
      (.mwt (w 5 0 .none (.a 1) .none .none .none 0)) fun e f => let e1 := committed e; let bs := e1.mwtBanks f;
      e.st.phase == .run && !slaved e && decide (∃ b ∈ bs, e1.team.banks.getLsbD b = false)) = true ∧
    (wit ({ (device { team [grp [] []] with banks := 0xF, epi := 0xFF, tkOwn := true, obSize := 16 }) with nextId := 10, matq := [⟨9, me, 239, 0, 1, false, .zero, 7, 0, false, [], 0, [], none, none⟩] })
      (.mwt (w 5 0 .none (.a 1) .none .none .none 0)) fun e f => let e1 := committed e; let bs := e1.mwtBanks f;
      let mark := e1.grp.mwtMark.getD e1.st.nextId; e.st.phase == .run && !slaved e && decide (∀ b ∈ bs,
      e1.team.banks.getLsbD b = true) && decide (∃ m ∈ e1.st.matq, m.id < mark ∧ m.onCore e1.core = true ∧ ∃ b ∈ bs,
      m.onBank b = true)) = true ∧
    (wit ({ (device { team [{ grp [] [] with mwtMark := some 9 }] with banks := 0xF, epi := 0xFF, tkOwn := true, obSize := 16 }) with nextId := 10, matq := [⟨9, me, 239, 0, 1, false, .zero, 7, 0, false, [], 0, [], none, none⟩] })
      (.mwt (w 5 0 .none (.a 1) .none .none .none 0)) fun e f => let e1 := committed e; let bs := e1.mwtBanks f;
      let mark := e1.grp.mwtMark.getD e1.st.nextId; e.st.phase == .run && !slaved e && decide (∀ b ∈ bs,
      e1.team.banks.getLsbD b = true) && decide ((∀ m ∈ e1.st.matq, ¬ (m.id < mark ∧ m.onCore e1.core = true ∧
      ∃ b ∈ bs, m.onBank b = true)) ∧ ∀ b ∈ bs, (e1.st.mrpOf e1.core b).err = false)) = true ∧
    (wit ({ (device { team [grp [] []] with banks := 0xF, epi := 0xFF, tkOwn := true, obSize := 16 }) with mrp := [(1, ⟨3, false, true, 0x13, 0x77⟩)] })
      (.mwt (w 5 0 .none .none .none .none .none 0)) fun e f => let e1 := committed e; let bs := e1.mwtBanks f;
      let mark := e1.grp.mwtMark.getD e1.st.nextId; e.st.phase == .run && !slaved e && decide (∀ b ∈ bs,
      e1.team.banks.getLsbD b = true) && decide (∀ m ∈ e1.st.matq, ¬ (m.id < mark ∧ m.onCore e1.core = true ∧
      ∃ b ∈ bs, m.onBank b = true)) && bs.find? (fun b => (e1.st.mrpOf e1.core b).err) == some 1) = true ∧
    (wit ({ (device { team [grp [] []] with banks := 0xF, epi := 0xFF, tkOwn := true, obSize := 16 }) with mrp := [(1, ⟨3, false, true, 0x13, 0x77⟩)] })
      (.mstat (w 5 0 (.s 3) (.a 1) .none .none .none 0)) fun e _ => e.st.phase == .run) = true := by decide +kernel

/-- The first 128 words of the scratchpad window are poisoned. -/
def allPoisoned (s : Machine.State) : Machine.State :=
  { s with poolErr := (List.range 128).map fun k => (windowKey s (team []) false / 8 + k, .poison) }
/-- Every chunk of a matrix row can be read. -/
def rowReads (m : MatOp) (t : Team) (form : Nat) (fa fb : BitVec 4) (d : BitVec 256) (oa ob : Rsv) (s : Machine.State) : Bool :=
  let a := sideA form fa.toNat d.toNat oa
  let chunks := dK d.toNat / chunkLen form fa.toNat
  match readChunks m t form d.toNat a (sideB fb.toNat d.toNat ob) chunks (List.range chunks) [] s with
  | (_, .ok _) => true
  | _ => false
/-- O43: a row of each form, and one whose operands are poisoned; operations of each kind with nothing left to do, and one whose bank is in error; a
suspended operation answered. -/
theorem witness_MatrixRows :
    (holds (loc false 0x300 4 0x44444444 (loc false 0x110 16 0x0102030405060708090A0B0C0D0E0F10 (loc false 0x200 16 0x11 ({ (device { team [grp [] []] with banks := 0xF, epi := 0xFF, tkOwn := true, obSize := 16 }) with matq := [⟨9, me, 239, 0, 1, false, (.mma 0 12 12 421660574199067748619640874948232744934130894399637061445756125440 .empty .empty), 7, 1, false, [], 0, [], none, none⟩] })))) fun s =>
      match s.mat? 9 with
      | some m => (match m.kind, s.team? m.owner.team with
        | .mma form fa fb d oa ob, some t => matReady s m && !bankErr s m && decide (m.row < dRows d.toNat ∧
      m.bank < 4) && rowReads m t form fa fb d oa ob s
        | _, _ => false)
      | none => false) = true ∧
    (holds (allPoisoned (loc false 0x300 4 0x44444444 (loc false 0x110 16 0x0102030405060708090A0B0C0D0E0F10 (loc false 0x200 16 0x11 ({ (device { team [grp [] []] with banks := 0xF, epi := 0xFF, tkOwn := true, obSize := 16 }) with matq := [⟨9, me, 239, 0, 1, false, (.mma 0 12 12 421660574199067748619640874948232744934130894399637061445756125440 .empty .empty), 7, 1, false, [], 0, [], none, none⟩] }))))) fun s =>
      match s.mat? 9 with
      | some m => (match m.kind, s.team? m.owner.team with
        | .mma form fa _ d oa _, some t => matReady s m && !bankErr s m && decide (m.row < dRows d.toNat ∧
      m.bank < 4) && (match sideReads m t (sideA form fa.toNat d.toNat oa) ((sideA form fa.toNat d.toNat oa).chunkReads form
        (m.row * (sideA form fa.toNat d.toNat oa).str) (dK d.toNat / chunkLen form fa.toNat) 0) s with | (_, .error _) => true | _ => false)
        | _, _ => false)
      | none => false) = true ∧
    (holds (loc false 0x300 4 0x44444444 (loc false 0x110 16 0x0102030405060708090A0B0C0D0E0F10 (loc false 0x200 16 0x11 ({ (device { team [grp [] []] with banks := 0xF, epi := 0xFF, tkOwn := true, obSize := 16 }) with matq := [⟨9, me, 239, 0, 1, false, (.mma 1 14 14 424541010643401965304523682815932682785302527703420435466152837376 ⟨true, 0, 0x1000, 14, true, 0x400, 0⟩ ⟨true, 0, 0x1000, 14, true, 0x400, 0⟩), 7, 1, false, [], 0, [], none, none⟩] })))) fun s =>
      match s.mat? 9 with
      | some m => (match m.kind, s.team? m.owner.team with
        | .mma form fa fb d oa ob, some t => matReady s m && !bankErr s m && decide (m.row < dRows d.toNat ∧
      m.bank < 4) && rowReads m t form fa fb d oa ob s
        | _, _ => false)
      | none => false) = true ∧
    (holds (loc false 0x300 4 0x44444444 (loc false 0x110 16 0x0102030405060708090A0B0C0D0E0F10 (loc false 0x200 16 0x11 ({ (device { team [grp [] []] with banks := 0xF, epi := 0xFF, tkOwn := true, obSize := 16 }) with matq := [⟨9, me, 239, 0, 1, false, (.mma 2 12 12 20705660752367907846340576045048811545015464328116055103598389157167360 .empty .empty), 7, 1, false, [], 0, [], none, none⟩] })))) fun s =>
      match s.mat? 9 with
      | some m => (match m.kind, s.team? m.owner.team with
        | .mma form fa fb d oa ob, some t => matReady s m && !bankErr s m && decide (m.row < dRows d.toNat ∧
      m.bank < 4) && rowReads m t form fa fb d oa ob s
        | _, _ => false)
      | none => false) = true ∧
    (holds ({ (device { team [grp [] []] with banks := 0xF, epi := 0xFF, tkOwn := true, obSize := 16 }) with matq := [⟨9, me, 239, 0, 1, false, .zero, 7, 0, false, [], 0, [], none, none⟩], mrp := [(1, ⟨3, false, true, 0x13, 0x77⟩)] }) fun s =>
      match s.mat? 9 with | some m => matReady s m && bankErr s m | none => false) = true ∧
    (holds ({ (device { team [grp [] []] with banks := 0xF, epi := 0xFF, tkOwn := true, obSize := 16 }) with matq := [⟨9, me, 239, 0, 1, false, .zero, 7, 0, false, [], 0, [], none, none⟩], acc := [((0 * 4 + 1) * 64 * 48 + 5, 7), ((0 * 4 + 2) * 64 * 48 + 5, 8)] }) fun s =>
      match s.mat? 9 with | some m => matReady s m && !bankErr s m && m.kind == .zero && decide (m.bank < 4) | none => false) = true ∧
    (holds ({ (device { team [grp [] []] with banks := 0xF, epi := 0xFF, tkOwn := true, obSize := 16 }) with matq := [⟨9, me, 239, 0, 1, false, (.mma 0 12 12 421660574199067748619640874948232744934130894399637061445756125440 .empty .empty), 7, 2, false, [], 0, [], none, none⟩] }) fun s =>
      match s.mat? 9 with | some m => matReady s m && !bankErr s m && (match m.kind with | .mma _ _ _ d _ _ => decide (dRows d.toNat ≤ m.row) | _ => false) | none => false) = true ∧
    (holds ({ (device { team [grp [] []] with banks := 0xF, epi := 0xFF, tkOwn := true, obSize := 16 }) with matq := [⟨9, me, 239, 0, 1, false, (.prog 3 [0x561] 0x8000), 7, 0, false, [], 0, [], none, none⟩] }) fun s =>
      match s.mat? 9 with | some m => matReady s m && !bankErr s m && m.kind == .prog 3 [0x561] 0x8000 | none => false) = true ∧
    (holds ({ (device { team [grp [] []] with banks := 0xF, epi := 0xFF, tkOwn := true, obSize := 16 }) with matq := [⟨9, me, 239, 0, 1, false, (.tkrd 4 5 [0, 1]), 7, 0, false, [], 0, [], none, none⟩], top := [(5, [⟨0x3F800000, 7⟩])] }) fun s =>
      match s.mat? 9 with | some m => matReady s m && !bankErr s m && m.kind == .tkrd 4 5 [0, 1] | none => false) = true ∧
    (holds ({ (device { team [grp [] []] with banks := 0xF, epi := 0xFF, tkOwn := true, obSize := 16 }) with matq := [⟨9, me, 239, 0, 1, false, (.tkclr none), 7, 0, false, [], 0, [], none, none⟩], top := [(5, [⟨0x3F800000, 7⟩])] }) fun s =>
      match s.mat? 9 with | some m => matReady s m && !bankErr s m && m.kind == .tkclr none | none => false) = true ∧
    (holds ({ (device { team [grp [] []] with banks := 0xF, epi := 0xFF, tkOwn := true, obSize := 16 }) with matq := [⟨9, me, 239, 0, 1, false, (.tkclr (some 5)), 7, 0, false, [], 0, [], none, none⟩], top := [(5, [⟨0x3F800000, 7⟩])] }) fun s =>
      match s.mat? 9 with | some m => matReady s m && !bankErr s m && m.kind == .tkclr (some 5) | none => false) = true ∧
    (holds (ctx (fun c => { c with faults := [⟨3, 0x5000, 0, 0, some true⟩] })
      ({ (device { team [grp [] []] with banks := 0xF, epi := 0xFF, tkOwn := true, obSize := 16 }) with matq := [⟨9, me, 239, 0, 1, false, (.mma 0 12 12 421660574199067748619640874948232744934130894399637061445756125440 .empty .empty), 7, 1, false, [], 0, [], none, (some 3)⟩], mrp := [(1, ⟨0, true, false, 0, 0x77⟩)] })) fun s =>
      match s.mat? 9 with | some m => m.susp == some 3 && faultAnswer s m.ctx 3 == some true | none => false) = true ∧
    (holds (ctx (fun c => { c with faults := [⟨3, 0x5000, 0, 0, some false⟩] })
      ({ (device { team [grp [] []] with banks := 0xF, epi := 0xFF, tkOwn := true, obSize := 16 }) with matq := [⟨9, me, 239, 0, 1, false, (.mma 0 12 12 421660574199067748619640874948232744934130894399637061445756125440 .empty .empty), 7, 1, false, [], 0, [], none, (some 3)⟩], mrp := [(1, ⟨0, true, false, 0, 0x77⟩)] })) fun s =>
      match s.mat? 9 with | some m => m.susp == some 3 && faultAnswer s m.ctx 3 == some false | none => false) = true ∧
    (holds (ctx (fun c => { c with faults := [⟨3, 0x5000, 0, 0, none⟩] })
      ({ (device { team [grp [] []] with banks := 0xF, epi := 0xFF, tkOwn := true, obSize := 16 }) with matq := [⟨9, me, 239, 0, 1, false, (.mma 0 12 12 421660574199067748619640874948232744934130894399637061445756125440 .empty .empty), 7, 1, false, [], 0, [], none, (some 3)⟩], mrp := [(1, ⟨0, true, false, 0, 0x77⟩)] })) fun s =>
      match s.mat? 9 with | some m => m.susp == some 3 && faultAnswer s m.ctx 3 == none | none => false) = true := by decide +kernel

/-- O44: `mprog` of a good, a bad and a top-k program, and into a slot that is not the team's; `mdrain` of a loaded
slot, and with a bad descriptor; `tkrd` and `tkclr` at row 127, beyond it and without ownership. -/
theorem witness_CitrineInstructions :
    (wit (mem 0x8000 8 1377 (device { team [grp [(6, 0x8000)] []] with banks := 0xF, epi := 0xFF, tkOwn := true, obSize := 16 }))
      (.mprog (w 5 0 .none (.imm 0) (.s 6) (.imm 2) .none 0)) fun e f => let e1 := committed e;
      let slot := e1.n32 0 (.op f.s1); let n := e1.n32 0 (.op f.s3);
      let look := loadRange e1 (e1.gbase f.s2) 0 (4 * n) 4 e1.st; e.st.phase == .run && !slaved e && slotOk e1 slot &&
      decide (0 < n ∧ n ≤ 32) &&
      (match look with | .ok (s1, bs) => programValid (words4 n bs) && ((words4 n bs).any fun w => citOp w == 0x11) == false && (e1.at s1).team.tkOwn && decide (queueFull (e1.at s1).st (e1.at s1).core = false) | .error _ => false)) = true ∧
    (wit (mem 0x8000 8 50332177 (device { team [grp [(6, 0x8000)] []] with banks := 0xF, epi := 0xFF, tkOwn := true, obSize := 16 }))
      (.mprog (w 5 0 .none (.imm 0) (.s 6) (.imm 2) .none 0)) fun e f => let e1 := committed e;
      let slot := e1.n32 0 (.op f.s1); let n := e1.n32 0 (.op f.s3);
      let look := loadRange e1 (e1.gbase f.s2) 0 (4 * n) 4 e1.st; e.st.phase == .run && !slaved e && slotOk e1 slot &&
      decide (0 < n ∧ n ≤ 32) &&
      (match look with | .ok (s1, bs) => programValid (words4 n bs) && ((words4 n bs).any fun w => citOp w == 0x11) == true && (e1.at s1).team.tkOwn && decide (queueFull (e1.at s1).st (e1.at s1).core = false) | .error _ => false)) = true ∧
    (wit (mem 0x8000 8 2147485025 (device { team [grp [(6, 0x8000)] []] with banks := 0xF, epi := 0xFF, tkOwn := true, obSize := 16 }))
      (.mprog (w 5 0 .none (.imm 0) (.s 6) (.imm 2) .none 0)) fun e f => let e1 := committed e;
      let slot := e1.n32 0 (.op f.s1); let n := e1.n32 0 (.op f.s3);
      let look := loadRange e1 (e1.gbase f.s2) 0 (4 * n) 4 e1.st; e.st.phase == .run && !slaved e && slotOk e1 slot &&
      decide (0 < n ∧ n ≤ 32) &&
      (match look with | .ok (_, bs) => !programValid (words4 n bs) | .error _ => false)) = true ∧
    (wit (device { { team [grp [(6, 0x8000)] []] with banks := 0xF, epi := 0xFF, tkOwn := true, obSize := 16 } with epi := 2 })
      (.mprog (w 5 0 .none (.imm 0) (.s 6) (.imm 2) .none 0)) fun e f => let e1 := committed e;
      let slot := e1.n32 0 (.op f.s1); e.st.phase == .run && !slaved e && !slotOk e1 slot) = true ∧
    (wit ({ (device { team [grp [(16, 1024), (18, 64), (19, 512), (20, 196610), (21, 41092)] []] with banks := 0xF, epi := 0xFF, tkOwn := true, obSize := 16 }) with epi := [(0, [0x561, 0])] })
      (.mdrain (w 5 0 (.a 1) (.s 16) (.imm 0) .none .none 0)) fun e f => let d := e.wide 0 f.s1 8;
      let slot := e.n32 0 (.op f.s2); let e1 := committed e; e.st.phase == .run && !slaved e &&
      e.team.banks.getLsbD (opNum f.d) && slotOk e slot && (Assoc.get? e.st.epi (e.core * 8 + slot)).isSome &&
      !drainBad d && (match localLook e.st e.team (field d 96 32) 64 16 with | .ok _ => true | .error _ => false) &&
      decide (storesOut e.st e.gid = false ∧ storesOut e1.st e.gid = false ∧
      queueFull e1.st e1.core = false)) = true ∧
    (wit ({ (device { team [grp [(16, 1024), (18, 64), (19, 512), (20, 196610), (21, 40964)] []] with banks := 0xF, epi := 0xFF, tkOwn := true, obSize := 16 }) with epi := [(0, [0x561, 0])] })
      (.mdrain (w 5 0 (.a 1) (.s 16) (.imm 0) .none .none 0)) fun e f => let d := e.wide 0 f.s1 8;
      let slot := e.n32 0 (.op f.s2); e.st.phase == .run && !slaved e && e.team.banks.getLsbD (opNum f.d) &&
      slotOk e slot && (Assoc.get? e.st.epi (e.core * 8 + slot)).isSome && drainBad d) = true ∧
    (wit (device { { team [grp [] []] with banks := 0xF, epi := 0xFF, tkOwn := true, obSize := 16 } with tkOwn := false })
      (.tkrd (w 5 0 (.v 4) (.s 5) .none .none .none 0)) fun e _ => let e1 := committed e; e.st.phase == .run &&
      !slaved e && !e1.team.tkOwn) = true ∧
    (wit (device { team [grp [(5, 128)] []] with banks := 0xF, epi := 0xFF, tkOwn := true, obSize := 16 })
      (.tkrd (w 5 0 (.v 4) (.s 5) .none .none .none 0)) fun e f => let e1 := committed e; let row := e1.uni f.s1 0;
      e.st.phase == .run && !slaved e && e1.team.tkOwn && decide (127 < row)) = true ∧
    (wit (device { team [grp [(5, 127)] []] with banks := 0xF, epi := 0xFF, tkOwn := true, obSize := 16 })
      (.tkrd (w 5 0 (.v 4) (.s 5) .none .none .none 0)) fun e f => let e1 := committed e; let row := e1.uni f.s1 0;
      e.st.phase == .run && !slaved e && e1.team.tkOwn && decide (row = 127 ∧
      queueFull e1.st e1.core = false)) = true ∧
    (wit (device { { team [grp [] []] with banks := 0xF, epi := 0xFF, tkOwn := true, obSize := 16 } with tkOwn := false })
      (.tkclr (w 5 0 .none (.s 5) .none .none .none 0)) fun e _ => let e1 := committed e; e.st.phase == .run &&
      !slaved e && !e1.team.tkOwn) = true ∧
    (wit (device { team [grp [(5, 128)] []] with banks := 0xF, epi := 0xFF, tkOwn := true, obSize := 16 })
      (.tkclr (w 5 0 .none (.s 5) .none .none .none 0)) fun e f => let e1 := committed e; let row := e1.uni f.s1 0;
      e.st.phase == .run && !slaved e && e1.team.tkOwn && decide (127 < row)) = true ∧
    (wit (device { team [grp [(5, 127)] []] with banks := 0xF, epi := 0xFF, tkOwn := true, obSize := 16 })
      (.tkclr (w 5 0 .none (.s 5) .none .none .none 0)) fun e f => let e1 := committed e; let row := e1.uni f.s1 0;
      e.st.phase == .run && !slaved e && e1.team.tkOwn && decide (row = 127 ∧
      queueFull e1.st e1.core = false)) = true := by decide +kernel

/-- O45: a row in progress, for every word; the reads and the stores of its words succeed. -/
theorem witness_CitrineWords :
    (holds (mem 0x8000 16 0x3F8040003F0040803F8040003F004080 ({ (device { team [grp [] []] with banks := 0xF, epi := 0xFF, tkOwn := true, obSize := 16 }) with epi := [(0, [0x561, 0])], curCore := 0, matq := [⟨9, me, 239, 0, 1, false, (.drain 60056025348104378875192093266720067343330140024210432 0), 7, 1, true, [0x3F800000, 0x40000000, 0x8000, 0, 0x8000, 0, 1, 2, 0x3F000000, 5, 6, 7, 8, 9, 10, 11], 0, [], (some ⟨1, 0, [(48 * 0 + 0, 0x3F800000), (48 * 2 + 1, 0xC0000000), (48 * 2 + 2, 0x7FC00000), (48 * 3 + 1, 0x40400000)], [], [], []⟩), none⟩] })) fun s =>
      match runningRow s s.curCore with | some (m, _) => (s.team? m.owner.team).isSome && ([.citMov ⟨3, 2, 0, 0, 0, 0, 0, 0, 0⟩, .citLdk ⟨4, 0, 0, 0, 9, 0, 0, 0, 0⟩, .citAdd ⟨1, 2, 3, 0, 0, 0, 0, 0, 0⟩, .citMul ⟨4, 2, 3, 0, 0, 0, 0, 0, 0⟩, .citFma ⟨1, 2, 3, 0, 0, 0, 0, 0, 0⟩, .citMax ⟨7, 2, 3, 0, 0, 0, 0, 0, 0⟩, .citScale ⟨0, 2, 0, 0, 1, 0, 0, 0, 0⟩, .citClamp ⟨1, 2, 0, 0, 0, 0, 0, 0, 0⟩, .citRelu ⟨3, 2, 0, 0, 0, 0, 0, 0, 0⟩, .citGelu ⟨5, 2, 0, 0, 0, 0, 0, 0, 0⟩, .citSilu ⟨6, 2, 0, 0, 0, 0, 0, 0, 0⟩, .citTsc ⟨0, 2, 0, 0, 0, 0, 0, 0, 0⟩, .citCvt ⟨0, 2, 0, 0, 0, 9, 3, 0, 0⟩] : List Instr).all fun i => (rowWords i).isSome && (citFn i).isSome | none => false) = true ∧
    (holds (mem 0x8000 16 0x3F8040003F0040803F8040003F004080 ({ (device { team [grp [] []] with banks := 0xF, epi := 0xFF, tkOwn := true, obSize := 16 }) with epi := [(0, [0x561, 0])], curCore := 0, matq := [⟨9, me, 239, 0, 1, false, (.drain 60056025348104378875192093266720067343330140024210432 0), 7, 1, true, [0x3F800000, 0x40000000, 0x8000, 0, 0x8000, 0, 1, 2, 0x3F000000, 5, 6, 7, 8, 9, 10, 11], 0, [], (some ⟨1, 0, [(48 * 0 + 0, 0x3F800000), (48 * 2 + 1, 0xC0000000), (48 * 2 + 2, 0x7FC00000), (48 * 3 + 1, 0x40400000)], [], [], []⟩), none⟩] })) fun s =>
      match runningRow s s.curCore with | some (m, r) => (match s.team? m.owner.team with | some t => ([.citLdr ⟨1, 0, 0, 0, 2, 9, 0, 0, 1⟩, .citLdv ⟨2, 0, 0, 0, 4, 9, 0, 0, 1⟩, .citBias ⟨1, 2, 0, 0, 4, 3, 0, 0, 1⟩, .citScale ⟨0, 2, 0, 0, 2, 3, 1, 0, 1⟩, .citScale ⟨0, 2, 0, 0, 2, 3, 2, 0, 1⟩] : List Instr).all (fun i => (citFn i).isSome && (match rowLoads i with | some (c, row, _) => (match citReads m t c (if row then [m.m0 + r.row] else (List.range 48).map (m.n0 + ·)) s with | (_, .ok _) => true | _ => false) | none => false)) | none => false) | none => false) = true ∧
    (holds (mem 0x8000 16 0x3F8040003F0040803F8040003F004080 ({ (device { team [grp [] []] with banks := 0xF, epi := 0xFF, tkOwn := true, obSize := 16 }) with epi := [(0, [0x561, 0])], curCore := 0, matq := [⟨9, me, 239, 0, 1, false, (.drain 60056025348104378875192093266720067343330140024210432 0), 7, 1, true, [0x3F800000, 0x40000000, 0x8000, 0, 0x8000, 0, 1, 2, 0x3F000000, 5, 6, 7, 8, 9, 10, 11], 0, [], (some ⟨1, 0, [(48 * 0 + 0, 0x3F800000), (48 * 2 + 1, 0xC0000000), (48 * 2 + 2, 0x7FC00000), (48 * 3 + 1, 0x40400000)], [], [], []⟩), none⟩] })) fun s =>
      match runningRow s s.curCore with | some (m, r) => (match s.team? m.owner.team with | some t => (let c := (⟨0, 2, 0, 0, 0, 9, 0, 0, 0⟩ : Cit); match outElems m t (tyBits c.t.toNat / 8) ((List.range m.nlive).map fun n => (r.row * field m.drainDesc 64 32 + n * (tyBits c.t.toNat / 8), toBytes (tyBits c.t.toNat / 8) (r.lane c.xa.toNat n))) s with | (_, .ok l) => l.length == 4 && (citFn (.citStore c)).isSome | _ => false) | none => false) | none => false) = true := by decide +kernel

/-- O46: a drain that starts, a row that commits, a drain that retires; a running top-k. -/
theorem witness_Drains :
    (holds (loc false 0x200 64 0x3F800000 ({ (device { team [grp [] []] with banks := 0xF, epi := 0xFF, tkOwn := true, obSize := 16 }) with matq := [⟨9, me, 239, 0, 1, false, (.drain 60056025348104378875192093266720067343330140024210432 0), 7, 0, false, [], 0, [], none, none⟩] })) fun s =>
      match drainAt s 0 with | some m => !m.started && !bankErr s m && (match s.team? m.owner.team with | some t => (match localLook s t (field m.drainDesc 96 32) 64 16 with | .ok k => (match poolRead s k.1 64 with | (_, _, bad) => !bad) | .error _ => false) | none => false) | none => false) = true ∧
    (holds (mem 0x8000 16 0x3F8040003F0040803F8040003F004080 ({ (device { team [grp [] []] with banks := 0xF, epi := 0xFF, tkOwn := true, obSize := 16 }) with epi := [(0, [0x561, 0])], curCore := 0, matq := [⟨9, me, 239, 0, 1, false, (.drain 60056025348104378875192093266720067343330140024210432 0), 7, 1, true, [0x3F800000, 0x40000000, 0x8000, 0, 0x8000, 0, 1, 2, 0x3F000000, 5, 6, 7, 8, 9, 10, 11], 0, [], (some ⟨1, 0, [(48 * 0 + 0, 0x3F800000), (48 * 2 + 1, 0xC0000000), (48 * 2 + 2, 0x7FC00000), (48 * 3 + 1, 0x40400000)], [], [], []⟩), none⟩] })) fun s =>
      match runningRow s 0 with | some (m, r) => (match s.team? m.owner.team with | some t => (match runRow m t (slotWords s 0 (drainSlot m)) 33 r s with | (s1, .ok r1) => !rowHeld s1 r1.stores && (r1.row + 1 != m.mlive || r1.staged == []) | _ => false) | none => false) | none => false) = true ∧
    (holds ({ (device { team [grp [] []] with banks := 0xF, epi := 0xFF, tkOwn := true, obSize := 16 }) with matq := [⟨9, me, 239, 0, 1, false, (.drain 60056025348104378875192093266720067343330140024210432 0), 7, 2, true, [], 0, [], none, none⟩], acc := [((0 * 4 + 1) * 64 * 48 + 5, 7), ((0 * 4 + 2) * 64 * 48 + 5, 8)] }) fun s =>
      match drainAt s 0 with | some m => m.started && m.run.isNone && decide (m.mlive ≤ m.row ∧ m.bank < 4) | none => false) = true := by decide +kernel

/-- O47: `rcnt` of lanes that share indexes, with and without increments, and with a bad and an ungranted bank; an
addition applied; `rcsnap`; `xtrain` and `xtrain.decay` at layer 127 and beyond; `xpref`. -/
theorem witness_CountersAndTables :
    (wit (ctx (fun c => { c with rgrant := 2 }) (st (grp [(12, 1), (10, 0x0), (26, 127), (24, 0x10000), (25,
      0)] [(512, 0), (513, 0), (514, 0), (515, 0), (516, 1), (517, 1), (518, 1), (519, 1), (520, 2), (521, 2), (522,
      2), (523, 2), (524, 3), (525, 3), (526, 3), (527, 3), (640, 4294967295), (641, 0), (642, 0), (643, 0), (644, 0),
      (645, 0), (646, 0), (647, 0), (648, 1), (649, 1), (650, 1), (651, 1), (652, 1), (653, 1), (654, 1), (655, 1)])))
      (.rcnt (w 0 1 .none (.s 12) (.v 4) .none .none 0)) fun e f => let e1 := committed e;
      match routeBank e1 f.s1 with | .ok _ => true | .error _ => false) = true ∧
    (wit (ctx (fun c => { c with rgrant := 2 }) (st (grp [(12, 1), (10, 0x0), (26, 127), (24, 0x10000), (25,
      0)] [(512, 0), (513, 0), (514, 0), (515, 0), (516, 1), (517, 1), (518, 1), (519, 1), (520, 2), (521, 2), (522,
      2), (523, 2), (524, 3), (525, 3), (526, 3), (527, 3), (640, 4294967295), (641, 0), (642, 0), (643, 0), (644, 0),
      (645, 0), (646, 0), (647, 0), (648, 1), (649, 1), (650, 1), (651, 1), (652, 1), (653, 1), (654, 1), (655, 1)])))
      (.rcnt (w 0 1 .none (.s 12) (.v 4) (.v 5) .none 0)) fun e f => let e1 := committed e;
      match routeBank e1 f.s1 with | .ok _ => true | .error _ => false) = true ∧
    (wit (ctx (fun c => { c with rgrant := 2 }) (st (grp [(12, 4), (10, 0x0), (26, 127), (24, 0x10000), (25,
      0)] [(512, 0), (513, 0), (514, 0), (515, 0), (516, 1), (517, 1), (518, 1), (519, 1), (520, 2), (521, 2), (522,
      2), (523, 2), (524, 3), (525, 3), (526, 3), (527, 3), (640, 4294967295), (641, 0), (642, 0), (643, 0), (644, 0),
      (645, 0), (646, 0), (647, 0), (648, 1), (649, 1), (650, 1), (651, 1), (652, 1), (653, 1), (654, 1), (655, 1)])))
      (.rcnt (w 0 1 .none (.s 12) (.v 4) .none .none 0)) fun e f => let e1 := committed e;
      let b := e1.n32 0 (.op f.s1); decide (b = 4)) = true ∧
    (wit (ctx (fun c => { c with rgrant := 2 }) (st (grp [(12, 3), (10, 0x0), (26, 127), (24, 0x10000), (25,
      0)] [(512, 0), (513, 0), (514, 0), (515, 0), (516, 1), (517, 1), (518, 1), (519, 1), (520, 2), (521, 2), (522,
      2), (523, 2), (524, 3), (525, 3), (526, 3), (527, 3), (640, 4294967295), (641, 0), (642, 0), (643, 0), (644, 0),
      (645, 0), (646, 0), (647, 0), (648, 1), (649, 1), (650, 1), (651, 1), (652, 1), (653, 1), (654, 1), (655, 1)])))
      (.rcnt (w 0 1 .none (.s 12) (.v 4) .none .none 0)) fun e f => let e1 := committed e;
      let b := e1.n32 0 (.op f.s1); decide (b = 3) && !e1.ctx.rgrant.getLsbD (4 * e1.die + b)) = true ∧
    (holds (posted (.rcnt 1 2 255 9) st0) fun s => s.pend.all (fun q => decide (7 ≤ q.id)) &&
      (s.pend? 7).isSome) = true ∧
    (wit (ctx (fun c => { c with rgrant := 2 }) (st (grp [(12, 1), (10, 0x0), (26, 127), (24, 0x10000), (25,
      0)] [(512, 0), (513, 0), (514, 0), (515, 0), (516, 1), (517, 1), (518, 1), (519, 1), (520, 2), (521, 2), (522,
      2), (523, 2), (524, 3), (525, 3), (526, 3), (527, 3), (640, 4294967295), (641, 0), (642, 0), (643, 0), (644, 0),
      (645, 0), (646, 0), (647, 0), (648, 1), (649, 1), (650, 1), (651, 1), (652, 1), (653, 1), (654, 1), (655, 1)])))
      (.rcsnap (w 0 0 (.s 13) (.s 10) (.s 12) .none .none 0)) fun e f => e.st.pend == [] &&
      (match routeBank e f.s2 with | .ok _ => true | .error _ => false) &&
      (match scratchLook e.st e.team (e.n32 0 (.op f.s1)) 1024 16 with | .ok _ => true | .error _ => false)) = true ∧
    (wit (posted (.rcnt 0 1 0 5) (ctx (fun c => { c with rgrant := 2 }) (st (grp [(12, 1), (10, 0x0), (26, 127), (24, 0x10000), (25,
      0)] [(512, 0), (513, 0), (514, 0), (515, 0), (516, 1), (517, 1), (518, 1), (519, 1), (520, 2), (521, 2), (522,
      2), (523, 2), (524, 3), (525, 3), (526, 3), (527, 3), (640, 4294967295), (641, 0), (642, 0), (643, 0), (644, 0),
      (645, 0), (646, 0), (647, 0), (648, 1), (649, 1), (650, 1), (651, 1), (652, 1), (653, 1), (654, 1), (655, 1)]))))
      (.rcsnap (w 0 0 (.s 13) (.s 10) (.s 12) .none .none 0)) fun e f => (e.st.pend.any fun p => p.owner == e.gid && (match p.kind with | .rcnt _ _ _ _ => true | _ => false)) &&
      (match routeBank e f.s2 with | .ok _ => true | .error _ => false) &&
      (match scratchLook e.st e.team (e.n32 0 (.op f.s1)) 1024 16 with | .ok _ => true | .error _ => false)) = true ∧
    (wit (ctx (fun c => { c with rgrant := 2 }) (st (grp [(12, 1), (26, 128)] [(512, 0), (513, 0), (514, 0), (515, 0),
      (516, 1), (517, 1), (518, 1), (519, 1), (520, 2), (521, 2), (522, 2), (523, 2), (524, 3), (525, 3), (526, 3),
      (527, 3), (640, 4294967295), (641, 0), (642, 0), (643, 0), (644, 0), (645, 0), (646, 0), (647, 0), (648, 1),
      (649, 1), (650, 1), (651, 1), (652, 1), (653, 1), (654, 1), (655, 1)]))) (.xtrain (w 0 0 .none (.s 24) (.v 4)
      (.v 5) (.s 26) 0)) fun e f => let e1 := committed e; let layer := e1.n32 0 (.op f.s4);
      decide (layer = 128)) = true ∧
    (wit (ctx (fun c => { c with rgrant := 2 }) (st (grp [(12, 1), (10, 0x0), (26, 127), (24, 0x10000), (25,
      0)] [(512, 0), (513, 0), (514, 0), (515, 0), (516, 1), (517, 1), (518, 1), (519, 1), (520, 2), (521, 2), (522,
      2), (523, 2), (524, 3), (525, 3), (526, 3), (527, 3), (640, 4294967295), (641, 0), (642, 0), (643, 0), (644, 0),
      (645, 0), (646, 0), (647, 0), (648, 1), (649, 1), (650, 1), (651, 1), (652, 1), (653, 1), (654, 1), (655, 1)])))
      (.xtrain (w 0 0 .none (.s 24) (.v 4) (.v 5) (.s 26) 0)) fun e f => let e1 := committed e;
      let layer := e1.n32 0 (.op f.s4);
      let acts := ((distinctLanes ((e1.memLanes f).map fun l => (l, e1.n32 l (.op f.s2) % 256 * 256 + e1.n32 l (.op f.s3) % 256))).map fun (l, v, m) => (l, 26624 * layer + 104 * (v / 256) + 8 * (v % 256 / 21), v % 256 % 21, m));
      let look := resolveGlobal e1 (.ptr (e1.wide 0 f.s1 2)) (fun k => match acts[k]? with | some (_, x, _, _) => (x : Nat) | none => 0) 8 8 .rmw (fun loc ca => isHost loc && ca != 0) e1.st (List.range acts.length);
      decide (layer = 127) &&
      (match look with | .ok (s1, xs) => xs.length == acts.length && decide (∀ x ∈ xs, listBlocks e1 s1 true x.loc 8 = false) | .error _ => false)) = true ∧
    (wit (ctx (fun c => { c with rgrant := 2 }) (st (grp [(12, 1), (26, 128)] [(512, 0), (513, 0), (514, 0), (515, 0),
      (516, 1), (517, 1), (518, 1), (519, 1), (520, 2), (521, 2), (522, 2), (523, 2), (524, 3), (525, 3), (526, 3),
      (527, 3), (640, 4294967295), (641, 0), (642, 0), (643, 0), (644, 0), (645, 0), (646, 0), (647, 0), (648, 1),
      (649, 1), (650, 1), (651, 1), (652, 1), (653, 1), (654, 1), (655, 1)]))) (.xtrainDecay (w 0 0x100 .none (.s 24)
      (.v 4) .none (.s 26) 0)) fun e f => let e1 := committed e; let layer := e1.n32 0 (.op f.s4);
      decide (layer = 128)) = true ∧
    (wit (ctx (fun c => { c with rgrant := 2 }) (st (grp [(12, 1), (10, 0x0), (26, 127), (24, 0x10000), (25,
      0)] [(512, 0), (513, 0), (514, 0), (515, 0), (516, 1), (517, 1), (518, 1), (519, 1), (520, 2), (521, 2), (522,
      2), (523, 2), (524, 3), (525, 3), (526, 3), (527, 3), (640, 4294967295), (641, 0), (642, 0), (643, 0), (644, 0),
      (645, 0), (646, 0), (647, 0), (648, 1), (649, 1), (650, 1), (651, 1), (652, 1), (653, 1), (654, 1), (655, 1)])))
      (.xtrainDecay (w 0 0x100 .none (.s 24) (.v 4) .none (.s 26) 0)) fun e f => let e1 := committed e;
      let layer := e1.n32 0 (.op f.s4);
      let acts := ((distinctLanes ((e1.memLanes f).map fun l => (l, e1.n32 l (.op f.s2) % 256))).flatMap fun (l, v, _) => (List.range 13).map fun w => (l, 26624 * layer + 104 * v + 8 * w, if w = 12 then 4 else 21, 0));
      let look := resolveGlobal e1 (.ptr (e1.wide 0 f.s1 2)) (fun k => match acts[k]? with | some (_, x, _, _) => (x : Nat) | none => 0) 8 8 .rmw (fun loc ca => isHost loc && ca != 0) e1.st (List.range acts.length);
      decide (layer = 127) &&
      (match look with | .ok (s1, xs) => xs.length == acts.length && decide (∀ x ∈ xs, listBlocks e1 s1 true x.loc 8 = false) | .error _ => false)) = true ∧
    (wit (ctx (fun c => { c with rgrant := 2 }) (st (grp [(12, 1), (24, 0x10000), (28, 0x8000), (26, 0x8100)] [(512,
      0), (513, 0), (514, 0), (515, 0), (516, 1), (517, 1), (518, 1), (519, 1), (520, 2), (521, 2), (522, 2), (523,
      2), (524, 3), (525, 3), (526, 3), (527, 3), (640, 4294967295), (641, 0), (642, 0), (643, 0), (644, 0), (645, 0),
      (646, 0), (647, 0), (648, 1), (649, 1), (650, 1), (651, 1), (652, 1), (653, 1), (654, 1), (655, 1)])))
      (.xpref (w 0 0 .none (.s 24) (.v 4) (.s 28) (.s 26) 0)) fun _ _ => true) = true := by decide +kernel

/-- O48: `dist` in order, out of order and with no lane left; `dnext` at its place with a class left, with none, and
elsewhere; `dbrk` and `dleave` of the open frame and of one not open; `exit` with threads left. -/
theorem witness_ClassLoops :
    (wit (st (grp [] [(384, 7), (385, 7), (386, 7), (387, 7), (388, 6), (389, 6), (390, 6), (391, 6), (392, 5), (393,
      5), (394, 5), (395, 5), (396, 4), (397, 4), (398, 4), (399, 4)])) (.dist (w 6 0x8 (.s 14)
      (.v 3) .none .none .none 9)) fun e f => decide (fFr f = e.grp.frames.length) && (firstKey (fKt f)
      (e.lanes.map (e.key f))).isSome) = true ∧
    (wit (settled (st { grp [] [(384, 7), (385, 7), (386, 7), (387, 7), (388, 6), (389, 6), (390, 6), (391, 6), (392, 5), (393, 5), (394, 5), (395, 5), (396, 4), (397, 4), (398, 4), (399, 4)] with haz := [⟨⟨.v, 3, 1⟩, 99, 3, false⟩] }))
      (.dist (w 6 0x8 (.s 14) (.v 3) .none .none .none 9)) fun e f => decide (fFr f = e.grp.frames.length) &&
      (firstKey (fKt f) (e.lanes.map (e.key f))).isSome) = true ∧
    (wit (st { grp [] [(384, 7), (385, 7), (386, 7), (387, 7), (388, 6), (389, 6), (390, 6), (391, 6), (392, 5), (393, 5), (394, 5), (395, 5), (396, 4), (397, 4), (398, 4), (399, 4)] with frames := [⟨1, 14, 0x300C, 0x300C + 60, 0xFFFF, [(0, 7), (1, 7), (2, 7), (3, 7), (4, 6), (5, 6), (6, 6), (7, 6), (8, 5), (9, 5), (10, 5), (11, 5), (12, 4), (13, 4), (14, 4), (15, 4)], 4, 0⟩], pc := 0x3000 })
      (.dist (w 6 0x8 (.s 14) (.v 3) .none .none .none 9)) fun e f => decide (fFr f ≠ e.grp.frames.length)) = true ∧
    (wit (st { grp [] [(384, 7), (385, 7), (386, 7), (387, 7), (388, 6), (389, 6), (390, 6), (391, 6), (392, 5), (393, 5), (394, 5), (395, 5), (396, 4), (397, 4), (398, 4), (399, 4)] with exited := 0xFFFF })
      (.dist (w 6 0x8 (.s 14) (.v 3) .none .none .none 9)) fun e f => decide (fFr f = e.grp.frames.length ∧
      e.lanes = [])) = true ∧
    (wit (st0) (.dnext (w 6 0 .none .none .none .none .none 0)) fun e _ => e.grp.frames == []) = true ∧
    (wit (st { grp [] [(384, 7), (385, 7), (386, 7), (387, 7), (388, 6), (389, 6), (390, 6), (391, 6), (392, 5), (393, 5), (394, 5), (395, 5), (396, 4), (397, 4), (398, 4), (399, 4)] with frames := [⟨1, 14, 0x300C, 0x300C + 60, 0xFFFF, [(0, 7), (1, 7), (2, 7), (3, 7), (4, 6), (5, 6), (6, 6), (7, 6), (8, 5), (9, 5), (10, 5), (11, 5), (12, 4), (13, 4), (14, 4), (15, 4)], 4, 0⟩], pc := 0x300C + 48 })
      (.dnext (w 6 1 .none .none .none .none .none 0)) fun e f =>
      match e.grp.frames with | fr :: rest => decide (¬ (fFr f = rest.length ∧ e.grp.pc.toNat % 2 ^ 57 = (fr.nextPc e.grp.pc).toNat % 2 ^ 57)) | [] => false) = true ∧
    (wit (st { grp [] [(384, 7), (385, 7), (386, 7), (387, 7), (388, 6), (389, 6), (390, 6), (391, 6), (392, 5), (393, 5), (394, 5), (395, 5), (396, 4), (397, 4), (398, 4), (399, 4)] with frames := [⟨1, 14, 0x300C, 0x300C + 60, 0xFFFF, [(0, 7), (1, 7), (2, 7), (3, 7), (4, 6), (5, 6), (6, 6), (7, 6), (8, 5), (9, 5), (10, 5), (11, 5), (12, 4), (13, 4), (14, 4), (15, 4)], 7, 0⟩], pc := 0x300C + 48 })
      (.dnext (w 6 0 .none .none .none .none .none 0)) fun e f =>
      match e.grp.frames with | fr :: rest => decide ((fFr f = rest.length ∧ e.grp.pc.toNat % 2 ^ 57 = (fr.nextPc e.grp.pc).toNat % 2 ^ 57) ∧ ((fr.remaining e.grp.exited).map fun l => Assoc.rd 0 fr.keys l) = []) | [] => false) = true ∧
    (wit (st { grp [] [(384, 7), (385, 7), (386, 7), (387, 7), (388, 6), (389, 6), (390, 6), (391, 6), (392, 5), (393, 5), (394, 5), (395, 5), (396, 4), (397, 4), (398, 4), (399, 4)] with frames := [⟨1, 14, 0x300C, 0x300C + 60, 0xFFFF, [(0, 7), (1, 7), (2, 7), (3, 7), (4, 6), (5, 6), (6, 6), (7, 6), (8, 5), (9, 5), (10, 5), (11, 5), (12, 4), (13, 4), (14, 4), (15, 4)], 4, 0⟩], pc := 0x300C + 48 })
      (.dnext (w 6 0 .none .none .none .none .none 0)) fun e f =>
      match e.grp.frames with | fr :: rest => decide (fFr f = rest.length ∧ e.grp.pc.toNat % 2 ^ 57 = (fr.nextPc e.grp.pc).toNat % 2 ^ 57) && (match firstKey fr.kt.toNat ((fr.remaining e.grp.exited).map fun l => Assoc.rd 0 fr.keys l) with | some k => (dstWrites (.s fr.kreg) (tyRegs fr.kt.toNat) 0 k.toNat).all (fun w => !e.grp.isEmpty w.dst) | none => false) | [] => false) = true ∧
    (wit (st { grp [] [(384, 7), (385, 7), (386, 7), (387, 7), (388, 6), (389, 6), (390, 6), (391, 6), (392, 5), (393, 5), (394, 5), (395, 5), (396, 4), (397, 4), (398, 4), (399, 4)] with frames := [⟨1, 14, 0x300C, 0x300C + 60, 0xFFFF, [(0, 7), (1, 7), (2, 7), (3, 7), (4, 6), (5, 6), (6, 6), (7, 6), (8, 5), (9, 5), (10, 5), (11, 5), (12, 4), (13, 4), (14, 4), (15, 4)], 4, 0⟩], pc := 0x3000 })
      (.dbrk (w 6 1 .none .none .none .none .none 0)) fun e f => decide (e.grp.frames.length ≤ fFr f)) = true ∧
    (wit (st { grp [] [(384, 7), (385, 7), (386, 7), (387, 7), (388, 6), (389, 6), (390, 6), (391, 6), (392, 5), (393, 5), (394, 5), (395, 5), (396, 4), (397, 4), (398, 4), (399, 4)] with frames := [⟨1, 14, 0x300C, 0x300C + 60, 0xF000, [(0, 7), (1, 7), (2, 7), (3, 7), (4, 6), (5, 6), (6, 6), (7, 6), (8, 5), (9, 5), (10, 5), (11, 5), (12, 4), (13, 4), (14, 4), (15, 4)], 4, 0⟩, ⟨1, 14, 0x300C, 0x300C + 60, 0xFFFF, [(0, 7), (1, 7), (2, 7), (3, 7), (4, 6), (5, 6), (6, 6), (7, 6), (8, 5), (9, 5), (10, 5), (11, 5), (12, 4), (13, 4), (14, 4), (15, 4)], 4, 0⟩], pc := 0x3000 })
      (.dbrk (w 6 1 .none .none .none .none .none 0)) fun e f => (e.grp.frames.reverse[fFr f]?).isSome) = true ∧
    (wit (st { grp [] [(384, 7), (385, 7), (386, 7), (387, 7), (388, 6), (389, 6), (390, 6), (391, 6), (392, 5), (393, 5), (394, 5), (395, 5), (396, 4), (397, 4), (398, 4), (399, 4)] with frames := [⟨1, 14, 0x300C, 0x300C + 60, 0xFFFF, [(0, 7), (1, 7), (2, 7), (3, 7), (4, 6), (5, 6), (6, 6), (7, 6), (8, 5), (9, 5), (10, 5), (11, 5), (12, 4), (13, 4), (14, 4), (15, 4)], 4, 0⟩], pc := 0x3000 })
      (.dleave (w 6 1 .none (.q 2) .none .none .none 0)) fun e f => decide (e.grp.frames.length ≤ fFr f)) = true ∧
    (wit (st { grp [] [(384, 7), (385, 7), (386, 7), (387, 7), (388, 6), (389, 6), (390, 6), (391, 6), (392, 5), (393, 5), (394, 5), (395, 5), (396, 4), (397, 4), (398, 4), (399, 4)] with frames := [⟨1, 14, 0x300C, 0x300C + 60, 0xF000, [(0, 7), (1, 7), (2, 7), (3, 7), (4, 6), (5, 6), (6, 6), (7, 6), (8, 5), (9, 5), (10, 5), (11, 5), (12, 4), (13, 4), (14, 4), (15, 4)], 4, 0⟩, ⟨1, 14, 0x300C, 0x300C + 60, 0xFFFF, [(0, 7), (1, 7), (2, 7), (3, 7), (4, 6), (5, 6), (6, 6), (7, 6), (8, 5), (9, 5), (10, 5), (11, 5), (12, 4), (13, 4), (14, 4), (15, 4)], 4, 0⟩], pc := 0x3000, q := [(2, 0x3000)] })
      (.dleave (w 6 0 .none (.q 2) .none .none .none 0)) fun e f => decide (fFr f < e.grp.frames.length)) = true ∧
    (wit (st0) (.exit (w 6 0 .none .none .none .none .none 0)) fun _ _ => true) = true ∧
    (wit (st { grp [] [(384, 7), (385, 7), (386, 7), (387, 7), (388, 6), (389, 6), (390, 6), (391, 6), (392, 5), (393, 5), (394, 5), (395, 5), (396, 4), (397, 4), (398, 4), (399, 4)] with frames := [⟨1, 14, 0x300C, 0x300C + 60, 0xFFFF, [(0, 7), (1, 7), (2, 7), (3, 7), (4, 6), (5, 6), (6, 6), (7, 6), (8, 5), (9, 5), (10, 5), (11, 5), (12, 4), (13, 4), (14, 4), (15, 4)], 4, 0⟩], pc := 0x3000 })
      (.exit (w 6 0 .none .none .none .none .none 0)) fun e _ => e.grp.frames != []) = true ∧
    (holds (st { grp [] [(384, 7), (385, 7), (386, 7), (387, 7), (388, 6), (389, 6), (390, 6), (391, 6), (392, 5), (393, 5), (394, 5), (395, 5), (396, 4), (397, 4), (398, 4), (399, 4)] with frames := [⟨1, 14, 0x300C, 0x300C + 60, 0xFFFF, [(0, 7), (1, 7), (2, 7), (3, 7), (4, 6), (5, 6), (6, 6), (7, 6), (8, 5), (9, 5), (10, 5), (11, 5), (12, 4), (13, 4), (14, 4), (15, 4)], 3, 0⟩], pc := 0x3000 }) fun s =>
      match env? s me with | some e => threadMask e.team e.grp.idx &&& ~~~e.grp.exited != 0 && activeOf e.team e.grp == 0 && (match e.grp.frames.reverse[0]? with | some fr => fr.class e.grp.exited == 0 | none => false) | none => false) = true ∧
    ((let l := [(5 : DWord), 3, 9]; firstKey 1 l == some 3 && firstKey 0 [1,
      -1] == some (-1))) = true := by decide +kernel

/-- O49: `setw` of the only group, of one of two, at a new grant and in an open class; `setw` and `tbar` waiting for
each other; `regx` above the maximum, at once, queued, granted and denied; `regr` out of range, to more and to fewer.
-/
theorem witness_GrantsAndAllocations :
    (wit (device { team [grp [(4, 0)] []] with whi := 16, wlo := 16, grant := 16, gslots := 4, rquota := 100000, threads := 16 })
      (.setw (w 0 0 (.s 5) (.s 4) .none .none .none 0)) fun e _ => let e1 := committed e; decide (e.grp.frames = [] ∧
      e1.grp.sEmpty = 0 ∧ e1.grp.vEmpty = [])) = true ∧
    (wit (device { team [grp [(4, 32)] [], { Group.fresh 1 0x3000 0 256 with cond := .wait (.setw 32 none) }] with whi := 32, wlo := 16, grant := 16, gslots := 4, rquota := 100000, threads := 32 })
      (.setw (w 0 0 (.s 5) (.s 4) .none .none .none 0)) fun e _ => let e1 := committed e; decide (e.grp.frames = [] ∧
      e1.grp.sEmpty = 0 ∧ e1.grp.vEmpty = [])) = true ∧
    (wit (st { grp [] [(384, 7), (385, 7), (386, 7), (387, 7), (388, 6), (389, 6), (390, 6), (391, 6), (392, 5), (393, 5), (394, 5), (395, 5), (396, 4), (397, 4), (398, 4), (399, 4)] with frames := [⟨1, 14, 0x300C, 0x300C + 60, 0xFFFF, [(0, 7), (1, 7), (2, 7), (3, 7), (4, 6), (5, 6), (6, 6), (7, 6), (8, 5), (9, 5), (10, 5), (11, 5), (12, 4), (13, 4), (14, 4), (15, 4)], 4, 0⟩], pc := 0x3000 })
      (.setw (w 0 0 (.s 5) (.s 4) .none .none .none 0)) fun e _ => e.grp.frames != []) = true ∧
    (holds (device { team [{ grp [] [] with cond := .wait (.setw 16 none) }, { Group.fresh 1 0x3000 0 256 with cond := .ready }] with whi := 16, wlo := 16, grant := 16, gslots := 4, rquota := 100000, threads := 32 }) fun s =>
      match s.team? 1 with | some t => decide (∃ g ∈ t.live, arrival g = none) | none => false) = true ∧
    (holds (device { team [{ grp [] [] with cond := .wait (.setw 16 (some 5)) }, { Group.fresh 1 0x3000 0 256 with cond := .wait (.setw 64 none) }] with whi := 16, wlo := 16, grant := 16, gslots := 4, rquota := 100000, threads := 32 }) fun s =>
      match s.team? 1 with | some t => decide ((∀ g ∈ t.live, (arrival g).isSome = true) ∧ widest t.gslots t.rquota (liveThreads t) ((t.live.map (·.alloc)).foldl max 0) t.wlo ((t.live.filterMap arrival).foldl (fun m x => min m x.1) 128) = some t.grant) | none => false) = true ∧
    (holds (device { team [{ grp [] [] with cond := .wait (.setw 32 (some 5)) }, { Group.fresh 1 0x3000 0 256 with cond := .wait (.setw 64 none) }] with whi := 32, wlo := 16, grant := 16, gslots := 4, rquota := 100000, threads := 32 }) fun s =>
      match s.team? 1 with | some t => decide ((∀ g ∈ t.live, (arrival g).isSome = true) ∧ widest t.gslots t.rquota (liveThreads t) ((t.live.map (·.alloc)).foldl max 0) t.wlo ((t.live.filterMap arrival).foldl (fun m x => min m x.1) 128) = some 32 ∧ t.grant ≠ 32) | none => false) = true ∧
    (holds (device { team [{ grp [] [] with cond := .wait (.setw 32 (some 5)) }, { Group.fresh 1 0x3000 0 256 with cond := .wait (.tbar 0) }, { Group.fresh 2 0x3000 0 256 with cond := .wait .retry }] with whi := 16, wlo := 16, grant := 16, gslots := 4, rquota := 100000, threads := 48 }) fun s =>
      match s.team? 1 with | some t => t.live.length == 3 && (t.live.any (fun g => (arrival g).isSome) && t.live.any inTbar && t.live.all fun g => match g.cond with | .wait _ => true | _ => false) | none => false) = true ∧
    (holds (device { team [{ grp [] [] with cond := .wait (.setw 32 (some 5)) }, { Group.fresh 1 0x3000 0 256 with cond := .ready }] with whi := 16, wlo := 16, grant := 16, gslots := 4, rquota := 100000, threads := 32 }) fun s =>
      match s.team? 1 with | some t => !(t.live.any (fun g => (arrival g).isSome) && t.live.any inTbar && t.live.all fun g => match g.cond with | .wait _ => true | _ => false) | none => false) = true ∧
    (wit (device { team [{ grp [(7, 249)] [] with alloc := 248 }] with regMax := 248, regMin := 8 })
      (.regx (w 0 0 (.s 6) (.s 7) .none .none .none 0)) fun e f => let e1 := committed e;
      let n := (e1.n32 0 (.op f.s1) + 7) / 8 * 8; decide (e1.team.regMax < n)) = true ∧
    (wit (device { team [{ grp [(7, 256)] [] with alloc := 256 }] with regMax := 256, regMin := 8 })
      (.regx (w 0 0 (.s 6) (.s 7) .none .none .none 0)) fun e f => let e1 := committed e;
      let n := (e1.n32 0 (.op f.s1) + 7) / 8 * 8; decide (n ≤ e1.team.regMax ∧ n = e1.grp.alloc)) = true ∧
    (wit (device { team [{ grp [(7, 250)] [] with alloc := 64 }] with regMax := 256, regMin := 8 })
      (.regx (w 0 0 (.s 6) (.s 7) .none .none .none 0)) fun e f => let e1 := committed e;
      let n := (e1.n32 0 (.op f.s1) + 7) / 8 * 8; decide (n ≤ e1.team.regMax ∧ e1.grp.alloc < n)) = true ∧
    (holds ({ (device { team [{ grp [] [] with alloc := 64, cond := .wait (.regx 128) }, { Group.fresh 1 0x3000 1 64 with cond := .wait (.regx 256) }] with threads := 32 }) with regx := [⟨me, 128, some 6⟩, ⟨⟨1, 1⟩, 256, none⟩] }) fun s =>
      match oldestRequest s 0 with | some x => decide (x.2.grant * (x.1.n - x.2.grp.alloc) * 4 ≤ growthPool s x.2.core ∧ max x.2.team.rquota (teamRegs s x.2.team + x.2.grant * (x.1.n - x.2.grp.alloc) * 4) - max x.2.team.rquota (teamRegs s x.2.team) ≤ partRoom s x.2.core x.2.team.part) | none => false) = true ∧
    (holds ({ (device { team [{ grp [] [] with alloc := 64, cond := .wait (.regx 128) }, { Group.fresh 1 0x3000 1 64 with cond := .wait (.regx 256) }] with threads := 32 }) with regx := [⟨me, 128, some 6⟩, ⟨⟨1, 1⟩, 256, none⟩], pb := [(0, ⟨0, 0, 0⟩)] }) fun s =>
      match oldestRequest s 0 with | some x => decide (growthPool s x.2.core < x.2.grant * (x.1.n - x.2.grp.alloc) * 4) | none => false) = true ∧
    (holds ({ (device { team [{ grp [] [] with alloc := 64, cond := .wait (.regx 128) }, { Group.fresh 1 0x3000 1 64 with cond := .wait (.regx 256) }] with threads := 32 }) with regx := [⟨me, 128, some 6⟩, ⟨⟨1, 1⟩, 256, none⟩] }) fun s =>
      decide (Assoc.rd 0 s.idle 0 < 4096)) = true ∧
    (holds ({ (device { team [{ grp [] [] with alloc := 64, cond := .wait (.regx 128) }, { Group.fresh 1 0x3000 1 64 with cond := .wait (.regx 256) }] with threads := 32 }) with regx := [⟨me, 128, some 6⟩, ⟨⟨1, 1⟩, 256, none⟩], idle := [(0, 4096)] }) fun s =>
      match coreRequests s 0, oldestRequest s 0 with | [y, x], some y1 => y == y1 && decide (4096 ≤ Assoc.rd 0 s.idle 0 ∧ x.1 ≠ y.1 ∧ requestKey y < requestKey x) | _, _ => false) = true ∧
    (holds ({ (device { team [{ grp [] [] with alloc := 64, cond := .wait (.regx 128) }] with threads := 16 }) with regx := [⟨me, 128, some 6⟩], idle := [(0, 4096)], pb := [(0, ⟨0, 0x140, 0x160⟩)] }) fun s =>
      match coreRequests s 0, oldestRequest s 0 with | [x], some y => x == y && decide (4096 ≤ Assoc.rd 0 s.idle 0) && !grantable s x | _, _ => false) = true ∧
    (wit (device { team [{ grp [(7, 264)] [] with alloc := 256 }] with regMax := 256, regMin := 8 })
      (.regr (w 0 0 (.s 6) (.s 7) .none .none .none 0)) fun e f => let n := (e.n32 0 (.op f.s1) + 7) / 8 * 8;
      decide (e.team.regMax < n ∨ n < e.team.regMin)) = true ∧
    (wit (device { team [{ grp [(7, 0)] [] with alloc := 256 }] with regMax := 256, regMin := 8 })
      (.regr (w 0 0 (.s 6) (.s 7) .none .none .none 0)) fun e f => let n := (e.n32 0 (.op f.s1) + 7) / 8 * 8;
      decide (e.team.regMax < n ∨ n < e.team.regMin)) = true ∧
    (wit (device { team [{ grp [(7, 64)] [] with alloc := 64 }] with regMax := 256, regMin := 8 })
      (.regr (w 0 0 (.s 6) (.s 7) .none .none .none 0)) fun e f => let n := (e.n32 0 (.op f.s1) + 7) / 8 * 8;
      decide (e.team.regMin ≤ n ∧ n ≤ e.team.regMax ∧ e.grp.alloc ≤ n)) = true ∧
    (wit (device { team [{ grp [(7, 8)] [] with alloc := 256 }] with regMax := 256, regMin := 8 })
      (.regr (w 0 0 (.s 6) (.s 7) .none .none .none 0)) fun e f => let n := (e.n32 0 (.op f.s1) + 7) / 8 * 8;
      decide (e.team.regMin = n ∧ n < e.grp.alloc ∧ ∀ x ∈ e.grp.vEmpty, x.1 < n)) = true := by decide +kernel

/-- O50: a repeat of `iadd` in its first, a middle and its last iteration, after its last, and with a target and a
prefix that fail their checks, an operand among them that a later iteration moves beyond the allocation. -/
theorem witness_RepeatRunsItsTarget :
    (holds (mem 0x300C 12 (match encode (.iadd (w 0 1 (.v 1) (.v 2) (.s 3) .none .none 0)) with | some x => x.2 | none => 0)
      (st { grp [(3, 5)] [] with repCtr := 0 })) fun s => (pfxFate ⟨7, 0xF, 0xF, 3, 1, 1, 0, 0, 0, 0⟩).isNone &&
      (match env? s s.cur with | some e => (match fetchRes e (pcAdd e.grp.pc 12) with | .ok (s1, w) => (let e1 := e.at s1; let p : Pfx := ⟨7, 0xF, 0xF, 3, 1, 1, 0, 0, 0, 0⟩; let opc := w.toNat % 2 ^ 9; let n := p.count.toNat + 1; let k := if e1.grp.repCtr.getLsbD 6 then e1.grp.repCtr.toNat % 64 else 0; (repFate e1.grp.alloc p opc (splitSlk w)).isNone && decide (k < n) && (match (repWord p (splitSlk w) k).bind (opInstr opc) with | some i => (match exec i (e1.mod fun g => { g with repCtr := BitVec.ofNat 32 (k + 64) }) with | .next s2 => (match groupOf s2 e1.gid with | some g2 => g2.cond == .ready && g2.inTrap == e1.grp.inTrap && !(g2.region.any (·.refused)) | none => false) | _ => false) | none => false)) | .error _ => false) | none => false)) = true ∧
    (holds (mem 0x300C 12 (match encode (.iadd (w 0 1 (.v 1) (.v 2) (.s 3) .none .none 0)) with | some x => x.2 | none => 0)
      (st { grp [(3, 5)] [] with repCtr := 64 + 2 })) fun s => (pfxFate ⟨7, 0xF, 0xF, 3, 1, 1, 0, 0, 0, 0⟩).isNone &&
      (match env? s s.cur with | some e => (match fetchRes e (pcAdd e.grp.pc 12) with | .ok (s1, w) => (let e1 := e.at s1; let p : Pfx := ⟨7, 0xF, 0xF, 3, 1, 1, 0, 0, 0, 0⟩; let opc := w.toNat % 2 ^ 9; let n := p.count.toNat + 1; let k := if e1.grp.repCtr.getLsbD 6 then e1.grp.repCtr.toNat % 64 else 0; (repFate e1.grp.alloc p opc (splitSlk w)).isNone && decide (k < n) && (match (repWord p (splitSlk w) k).bind (opInstr opc) with | some i => (match exec i (e1.mod fun g => { g with repCtr := BitVec.ofNat 32 (k + 64) }) with | .next s2 => (match groupOf s2 e1.gid with | some g2 => g2.cond == .ready && g2.inTrap == e1.grp.inTrap && !(g2.region.any (·.refused)) | none => false) | _ => false) | none => false)) | .error _ => false) | none => false)) = true ∧
    (holds (mem 0x300C 12 (match encode (.iadd (w 0 1 (.v 1) (.v 2) (.s 3) .none .none 0)) with | some x => x.2 | none => 0)
      (st { grp [(3, 5)] [] with repCtr := 64 + 3 })) fun s => (pfxFate ⟨7, 0xF, 0xF, 3, 1, 1, 0, 0, 0, 0⟩).isNone &&
      (match env? s s.cur with | some e => (match fetchRes e (pcAdd e.grp.pc 12) with | .ok (s1, w) => (let e1 := e.at s1; let p : Pfx := ⟨7, 0xF, 0xF, 3, 1, 1, 0, 0, 0, 0⟩; let opc := w.toNat % 2 ^ 9; let n := p.count.toNat + 1; let k := if e1.grp.repCtr.getLsbD 6 then e1.grp.repCtr.toNat % 64 else 0; (repFate e1.grp.alloc p opc (splitSlk w)).isNone && decide (k < n) && (match (repWord p (splitSlk w) k).bind (opInstr opc) with | some i => (match exec i (e1.mod fun g => { g with repCtr := BitVec.ofNat 32 (k + 64) }) with | .next s2 => (match groupOf s2 e1.gid with | some g2 => g2.cond == .ready && g2.inTrap == e1.grp.inTrap && !(g2.region.any (·.refused)) | none => false) | _ => false) | none => false)) | .error _ => false) | none => false)) = true ∧
    (holds (mem 0x300C 12 (match encode (.iadd (w 0 1 (.v 1) (.v 2) (.s 3) .none .none 0)) with | some x => x.2 | none => 0)
      (st { grp [(3, 5)] [] with repCtr := 64 + 4 })) fun s =>
      match env? s s.cur with | some e => (match fetchRes e (pcAdd e.grp.pc 12) with | .ok (s1, w) => (let e1 := e.at s1; let p : Pfx := ⟨7, 0xF, 0xF, 3, 1, 1, 0, 0, 0, 0⟩; let opc := w.toNat % 2 ^ 9; let n := p.count.toNat + 1; let k := if e1.grp.repCtr.getLsbD 6 then e1.grp.repCtr.toNat % 64 else 0; (repFate e1.grp.alloc p opc (splitSlk w)).isNone && decide (n ≤ k)) | .error _ => false) | none => false) = true ∧
    (holds (mem 0x300C 12 0x000 (st { grp [(3, 5)] [] with repCtr := 0 })) fun s =>
      match env? s s.cur with | some e => (match fetchRes e (pcAdd e.grp.pc 12) with | .ok (s1, w) => (let e1 := e.at s1; let p : Pfx := ⟨7, 0xF, 0xF, 3, 1, 1, 0, 0, 0, 0⟩; let opc := w.toNat % 2 ^ 9; repFate e1.grp.alloc p opc (splitSlk w) == some .illenc) | .error _ => false) | none => false) = true ∧
    ((let f : Slk := w 0 1 (.v 1) (.v 2) (.s 3) .none .none 0; let p : Pfx := ⟨7, 0xF, 0xF, 3, 1, 1, 0, 0, 0, 0⟩;
      repFate 256 p 0x010 f != some .illop && (pfxFate p).isNone)) = true ∧
    ((let f : Slk := w 0 1 (.v 247) (.v 2) (.s 3) .none .none 0; let p : Pfx := ⟨7, 0xF, 0xF, 3, 1, 1, 0, 0, 0, 0⟩;
      (opInstr 0x010 (repView p f 1)).any fun i => fate 248 i == some .illop)) = true ∧
    (List.all [0, 64 + 2, 64 + 3] fun c => holds (mem 0x300C 12 (match encode (.iadd (w 0 1 (.v 1) (.v 2) (.s 3) .none .none 0)) with | some x => x.2 | none => 0)
      (st { grp [(3, 5)] [] with repCtr := BitVec.ofNat 32 c })) fun s => let p : Pfx := ⟨7, 0xF, 0xF, 3, 1, 1, 0, 0, 0, 0⟩;
      match env? s s.cur with
      | some e => (match fetchRes e (pcAdd e.grp.pc 12) with
        | .ok (s1, w) => (let e1 := e.at s1; let opc := w.toNat % 2 ^ 9; let k := if e1.grp.repCtr.getLsbD 6 then e1.grp.repCtr.toNat % 64 else 0;
          (repFate e1.grp.alloc p opc (splitSlk w)).isNone && decide (k < p.count.toNat + 1) &&
          (match (repWord p (splitSlk w) k).bind (opInstr opc) with
          | some i => wit (e1.mod fun g => { g with repCtr := BitVec.ofNat 32 (k + 64) }) i fun _ _ => (match i with | .iadd f => (arith (.iadd f)).isSome | _ => false)
          | none => false))
        | .error _ => false)
      | none => false) = true ∧
    (pfxFate ⟨7, 0xF, 0xF, 3, 1, 1, 0, 0, 1, 0⟩ == some .illenc) = true := by decide +kernel

/-- Every entry of the active-grid table is taken. -/
def fullTable : Assoc GridEntry :=
  (List.range 256).map fun j => (j, ⟨238, 3, 0xA000, 0x9000, 8, 2, 1, 1, 1, 1, 0, false, false, 4, 9, 1, [], 0, false⟩)
/-- A grid of two teams: the width of its clusters, whether it signals, and how many of its teams have ended. -/
def grid51 (cw : Nat) (sig : Bool) (ended : Nat) : GridEntry := ⟨239, 3, 0xA000, 0x9000, 8, 2, 1, 1, cw, 1, 0, false, sig, 4, 9, ended, [],
  BitVec.ofNat 1024 (0x31444B53 + 7 * 2 ^ 32 + 0x3000 * 2 ^ 64 + 16 * 2 ^ 128 + 1 * 2 ^ 144 + 1 * 2 ^ 160 + 4 * 2 ^ 184 +
    8 * 2 ^ 192 + 1 * 2 ^ 224 + 1 * 2 ^ 240 + 16 * 2 ^ 256 + 1 * 2 ^ 416), false⟩
/-- O51: records taken, held and refused; a fence wait not met and met; DIMS of a bad kernel, an unmeasured one, bad
dimensions, an empty grid, a grid, and one that finds no entry; a SIGNAL held up and done; grids complete and not; a handover. -/
theorem witness_FrontEnd :
    (holds (mem 0x8000 64 (0 + 0 * 2 ^ 8 + 0 * 2 ^ 16 + 0 * 2 ^ 24 + 0 * 2 ^ 32 + 0 * 2 ^ 64 + 0 * 2 ^ 128 + 5 * 2 ^ 192 + 0 * 2 ^ 256 + 0 * 2 ^ 384 + 0 * 2 ^ 450)
      (ctx (fun c => { c with queues := [(3, ⟨0x8000, 1, 1, 0, false, false, 0, 0, .idle⟩)] }) st0)) fun s =>
      (let y := (s.ctx 239).queue 3; takesNew s 239 && y.st == .idle && !y.stop &&
      decide (1 ≤ y.qlog2.toNat ∧ y.qlog2.toNat ≤ 12 ∧ y.pub ≠ y.cons ∧ (y.pub - y.cons).toNat ≤ 2 ^ y.qlog2.toNat) &&
      (match frontRead s 239 y.qbase.toNat (64 * (y.cons.toNat % 2 ^ y.qlog2.toNat) : Nat) 64 64 with | (_, .bytes r) => (recCheck r).isNone && recType r == 0 | _ => false))) = true ∧
    (holds (mem 0x8000 64 (1 + 0 * 2 ^ 8 + 0 * 2 ^ 16 + 0 * 2 ^ 24 + 0 * 2 ^ 32 + 0 * 2 ^ 64 + 0 * 2 ^ 128 + 5 * 2 ^ 192 + 0 * 2 ^ 256 + 0 * 2 ^ 384 + 0 * 2 ^ 450)
      (ctx (fun c => { c with queues := [(3, ⟨0x8000, 1, 1, 0, false, false, 0, 0, .idle⟩)] }) st0)) fun s =>
      (let y := (s.ctx 239).queue 3; takesNew s 239 && y.st == .idle && !y.stop &&
      decide (1 ≤ y.qlog2.toNat ∧ y.qlog2.toNat ≤ 12 ∧ y.pub ≠ y.cons ∧ (y.pub - y.cons).toNat ≤ 2 ^ y.qlog2.toNat) &&
      (match frontRead s 239 y.qbase.toNat (64 * (y.cons.toNat % 2 ^ y.qlog2.toNat) : Nat) 64 64 with | (_, .bytes r) => (recCheck r).isNone && recType r == 1 | _ => false))) = true ∧
    (holds (mem 0x8000 64 (0 + 1 * 2 ^ 8 + 0 * 2 ^ 16 + 0 * 2 ^ 24 + 0 * 2 ^ 32 + 0 * 2 ^ 64 + 0 * 2 ^ 128 + 5 * 2 ^ 192 + 0 * 2 ^ 256 + 0 * 2 ^ 384 + 0 * 2 ^ 450)
      (ctx (fun c => { c with queues := [(3, ⟨0x8000, 1, 1, 0, false, false, 0, 0, .idle⟩)] }) st0)) fun s =>
      (let y := (s.ctx 239).queue 3; takesNew s 239 && y.st == .idle && !y.stop &&
      decide (1 ≤ y.qlog2.toNat ∧ y.qlog2.toNat ≤ 12 ∧ y.pub ≠ y.cons ∧ (y.pub - y.cons).toNat ≤ 2 ^ y.qlog2.toNat) &&
      (match frontRead s 239 y.qbase.toNat (64 * (y.cons.toNat % 2 ^ y.qlog2.toNat) : Nat) 64 64 with | (_, .bytes r) => (recCheck r).isNone && recType r == 0 | _ => false))) = true ∧
    (holds (mem 0x8000 64 (1 + 1 * 2 ^ 8 + 0 * 2 ^ 16 + 0 * 2 ^ 24 + 0 * 2 ^ 32 + 0 * 2 ^ 64 + 0 * 2 ^ 128 + 5 * 2 ^ 192 + 0 * 2 ^ 256 + 0 * 2 ^ 384 + 0 * 2 ^ 450)
      (ctx (fun c => { c with queues := [(3, ⟨0x8000, 1, 1, 0, false, false, 0, 0, .idle⟩)] }) st0)) fun s =>
      (let y := (s.ctx 239).queue 3; takesNew s 239 && y.st == .idle && !y.stop &&
      decide (1 ≤ y.qlog2.toNat ∧ y.qlog2.toNat ≤ 12 ∧ y.pub ≠ y.cons ∧ (y.pub - y.cons).toNat ≤ 2 ^ y.qlog2.toNat) &&
      (match frontRead s 239 y.qbase.toNat (64 * (y.cons.toNat % 2 ^ y.qlog2.toNat) : Nat) 64 64 with | (_, .bytes r) => (recCheck r).isNone && recType r == 1 | _ => false))) = true ∧
    (holds (mem 0x8000 64 (3 + 0 * 2 ^ 8 + 0 * 2 ^ 16 + 0 * 2 ^ 24 + 0 * 2 ^ 32 + 0 * 2 ^ 64 + 0 * 2 ^ 128 + 0 * 2 ^ 192 + 0 * 2 ^ 256 + 0 * 2 ^ 384 + 0 * 2 ^ 450)
      (ctx (fun c => { c with queues := [(3, ⟨0x8000, 1, 1, 0, false, false, 0, 0, .idle⟩)] }) st0)) fun s =>
      (let y := (s.ctx 239).queue 3; takesNew s 239 && y.st == .idle && !y.stop &&
      decide (1 ≤ y.qlog2.toNat ∧ y.qlog2.toNat ≤ 12 ∧ y.pub ≠ y.cons ∧ (y.pub - y.cons).toNat ≤ 2 ^ y.qlog2.toNat) &&
      (match frontRead s 239 y.qbase.toNat (64 * (y.cons.toNat % 2 ^ y.qlog2.toNat) : Nat) 64 64 with | (_, .bytes r) => recCheck r == some 1 | _ => false))) = true ∧
    (holds (mem 0x8000 64 (0 + 0 * 2 ^ 8 + 0 * 2 ^ 16 + 0 * 2 ^ 24 + 0 * 2 ^ 32 + 0 * 2 ^ 64 + 0 * 2 ^ 128 + 0 * 2 ^ 192 + 0 * 2 ^ 256 + 0 * 2 ^ 384 + 1 * 2 ^ 450)
      (ctx (fun c => { c with queues := [(3, ⟨0x8000, 1, 1, 0, false, false, 0, 0, .idle⟩)] }) st0)) fun s =>
      (let y := (s.ctx 239).queue 3; takesNew s 239 && y.st == .idle && !y.stop &&
      decide (1 ≤ y.qlog2.toNat ∧ y.qlog2.toNat ≤ 12 ∧ y.pub ≠ y.cons ∧ (y.pub - y.cons).toNat ≤ 2 ^ y.qlog2.toNat) &&
      (match frontRead s 239 y.qbase.toNat (64 * (y.cons.toNat % 2 ^ y.qlog2.toNat) : Nat) 64 64 with | (_, .bytes r) => recCheck r == some 2 | _ => false))) = true ∧
    (holds (mem 0x8000 64 (1 + 0 * 2 ^ 8 + 0 * 2 ^ 16 + 0 * 2 ^ 24 + 65537 * 2 ^ 32 + 0 * 2 ^ 64 + 0 * 2 ^ 128 + 0 * 2 ^ 192 + 0 * 2 ^ 256 + 0 * 2 ^ 384 + 0 * 2 ^ 450)
      (ctx (fun c => { c with queues := [(3, ⟨0x8000, 1, 1, 0, false, false, 0, 0, .idle⟩)] }) st0)) fun s =>
      (let y := (s.ctx 239).queue 3; takesNew s 239 && y.st == .idle && !y.stop &&
      decide (1 ≤ y.qlog2.toNat ∧ y.qlog2.toNat ≤ 12 ∧ y.pub ≠ y.cons ∧ (y.pub - y.cons).toNat ≤ 2 ^ y.qlog2.toNat) &&
      (match frontRead s 239 y.qbase.toNat (64 * (y.cons.toNat % 2 ^ y.qlog2.toNat) : Nat) 64 64 with | (_, .bytes r) => recCheck r == some 7 | _ => false))) = true ∧
    (holds (ctx (fun c =>
      { c with queues := [(3, ⟨0x8000, 1, 1, 0, false, false, 0, 0, (.held (BitVec.ofNat 512 (1 + 1 * 2 ^ 8 + 2 * 2 ^ 16 + 0 * 2 ^ 24 + 0 * 2 ^ 32 + 0 * 2 ^ 64 + 0 * 2 ^ 128 + 5 * 2 ^ 192 + 0 * 2 ^ 256 + 0 * 2 ^ 384 + 0 * 2 ^ 450)))⟩)] }) st0) fun s =>
      match ((s.ctx 239).queue 3).st with | .held r => frontRuns s 239 && !waitOver s 239 3 r.toNat false | _ => false) = true ∧
    (holds (ctx (fun c =>
      { c with queues := [(3, ⟨0x8000, 1, 1, 0, false, false, 0, 0, (.held (BitVec.ofNat 512 (0 + 1 * 2 ^ 8 + 2 * 2 ^ 16 + 0 * 2 ^ 24 + 0 * 2 ^ 32 + 0 * 2 ^ 64 + 0 * 2 ^ 128 + 5 * 2 ^ 192 + 0 * 2 ^ 256 + 0 * 2 ^ 384 + 0 * 2 ^ 450)))⟩)], fences := [(2, 5)] }) st0) fun s =>
      match ((s.ctx 239).queue 3).st with | .held r => frontRuns s 239 && waitOver s 239 3 r.toNat false | _ => false) = true ∧
    (holds (ctx (fun c =>
      { c with queues := [(3, ⟨0x8000, 1, 1, 0, false, false, 0, 0, (.held (BitVec.ofNat 512 (1 + 1 * 2 ^ 8 + 2 * 2 ^ 16 + 0 * 2 ^ 24 + 0 * 2 ^ 32 + 0 * 2 ^ 64 + 0 * 2 ^ 128 + 5 * 2 ^ 192 + 0 * 2 ^ 256 + 0 * 2 ^ 384 + 0 * 2 ^ 450)))⟩)], fences := [(2, 5)] }) st0) fun s =>
      match ((s.ctx 239).queue 3).st with | .held r => frontRuns s 239 && waitOver s 239 3 r.toNat false | _ => false) = true ∧
    (holds (ctx (fun c => { c with queues := [(3, ⟨0x8000, 1, 1, 0, false, false, 0, 0, (.met (BitVec.ofNat 512 (0 + 1 * 2 ^ 8 + 2 * 2 ^ 16 + 5 * 2 ^ 192)))⟩)] }) st0) fun s =>
      match ((s.ctx 239).queue 3).st with | .met r => frontRuns s 239 && (recType r.toNat != 2 || !queueBusy s 239 3) | _ => false) = true ∧
    (holds (ctx (fun c => { c with queues := [(3, ⟨0x8000, 1, 1, 0, false, false, 0, 0, (.met (BitVec.ofNat 512 (2 + 1 * 2 ^ 8 + 2 * 2 ^ 16 + 5 * 2 ^ 192)))⟩)] }) st0) fun s =>
      match ((s.ctx 239).queue 3).st with | .met r => frontRuns s 239 && (recType r.toNat != 2 || !queueBusy s 239 3) | _ => false) = true ∧
    (holds (ctx (fun c => { c with queues := [(3, ⟨0x8000, 1, 1, 0, false, false, 0, 0, (.held (BitVec.ofNat 512 (1 + 1 * 2 ^ 8 + 2 * 2 ^ 16 + 5 * 2 ^ 192)))⟩)] }) st0) fun s =>
      match Assoc.get? (s.ctx 239).queues 3 with
      | some y => (match y.st with
        | .held r => decide (r.toNat.testBit 8 = true ∧ field r.toNat 16 6 = 2 ∧ (field r.toNat 192 64 ≤ 5 ↔ 5 ≤ 5))
        | _ => false)
      | none => false) = true ∧
    (holds (ctx (fun c => { c with queues := [(3, ⟨0x8000, 1, 1, 0, false, false, 0, 0, (.held (BitVec.ofNat 512 (1 + 1 * 2 ^ 8 + 2 * 2 ^ 16 + 6 * 2 ^ 192)))⟩)] }) st0) fun s =>
      match Assoc.get? (s.ctx 239).queues 3 with
      | some y => (match y.st with
        | .held r => decide (r.toNat.testBit 8 = true ∧ field r.toNat 16 6 = 2 ∧ (field r.toNat 192 64 ≤ 5 ↔ 6 ≤ 5))
        | _ => false)
      | none => false) = true ∧
    (holds (mem 0xA000 128 (0x31444B54 + 7 * 2 ^ 32 + 0x3000 * 2 ^ 64 + 16 * 2 ^ 128 + 1 * 2 ^ 144 + 1 * 2 ^ 160 + 4 * 2 ^ 184 + 8 * 2 ^ 192 + 1 * 2 ^ 224 + 1 * 2 ^ 240 + 16 * 2 ^ 256 + 1 * 2 ^ 416)
      (ctx (fun c => { c with queues := [(3, ⟨0x8000, 1, 1, 0, false, false, 0, 0, (.acq (BitVec.ofNat 512 (1 + 0 * 2 ^ 8 + 0 * 2 ^ 16 + 0 * 2 ^ 24 + 8 * 2 ^ 32 + 40960 * 2 ^ 64 + 36864 * 2 ^ 128 + 0 * 2 ^ 192 + 18446744078004518913 * 2 ^ 256 + 4 * 2 ^ 384 + 0 * 2 ^ 450)))⟩)], log := [⟨7, 0, 1, true, []⟩] }) st0)) fun s =>
      match ((s.ctx 239).queue 3).st with | .acq r => recType r.toNat == 1 && frontRuns s 239 && (match frontRead s 239 (field r.toNat 64 64) 0 128 128 with | (_, .bytes k) => !kdForm k | _ => false) | _ => false) = true ∧
    (holds (mem 0xA000 128 (0x31444B53 + 7 * 2 ^ 32 + 0x3000 * 2 ^ 64 + 16 * 2 ^ 128 + 1 * 2 ^ 144 + 1 * 2 ^ 160 + 4 * 2 ^ 184 + 8 * 2 ^ 192 + 1 * 2 ^ 224 + 1 * 2 ^ 240 + 16 * 2 ^ 256 + 1 * 2 ^ 416)
      (ctx (fun c => { c with queues := [(3, ⟨0x8000, 1, 1, 0, false, false, 0, 0, (.acq (BitVec.ofNat 512 (1 + 0 * 2 ^ 8 + 0 * 2 ^ 16 + 0 * 2 ^ 24 + 8 * 2 ^ 32 + 40960 * 2 ^ 64 + 36864 * 2 ^ 128 + 0 * 2 ^ 192 + 18446744078004518913 * 2 ^ 256 + 4 * 2 ^ 384 + 0 * 2 ^ 450)))⟩)] }) st0)) fun s =>
      match ((s.ctx 239).queue 3).st with | .acq r => recType r.toNat == 1 && frontRuns s 239 && (match frontRead s 239 (field r.toNat 64 64) 0 128 128 with | (s1, .bytes k) => kdForm k && !kdMeasured (s1.ctx 239) k | _ => false) | _ => false) = true ∧
    (holds (mem 0xA000 128 (0x31444B53 + 7 * 2 ^ 32 + 0x3000 * 2 ^ 64 + 16 * 2 ^ 128 + 1 * 2 ^ 144 + 1 * 2 ^ 160 + 4 * 2 ^ 184 + 8 * 2 ^ 192 + 1 * 2 ^ 224 + 1 * 2 ^ 240 + 16 * 2 ^ 256 + 1 * 2 ^ 416)
      (ctx (fun c => { c with queues := [(3, ⟨0x8000, 1, 1, 0, false, false, 0, 0, (.acq (BitVec.ofNat 512 (1 + 0 * 2 ^ 8 + 0 * 2 ^ 16 + 0 * 2 ^ 24 + 8 * 2 ^ 32 + 40960 * 2 ^ 64 + 36864 * 2 ^ 128 + 0 * 2 ^ 192 + 1346878762742493739090247155712 * 2 ^ 256 + 4 * 2 ^ 384 + 0 * 2 ^ 450)))⟩)], log := [⟨7, 0, 1, true, []⟩] }) st0)) fun s =>
      match ((s.ctx 239).queue 3).st with | .acq r => recType r.toNat == 1 && frontRuns s 239 && (match frontRead s 239 (field r.toNat 64 64) 0 128 128 with | (s1, .bytes k) => kdForm k && kdMeasured (s1.ctx 239) k && (match dimsWord s1 239 r.toNat with | (_, .ok w) => (match dimsCheck w with | .error k2 => k2 == 0x06 | .ok _ => false) | _ => false) | _ => false) | _ => false) = true ∧
    (holds (mem 0xA000 128 (0x31444B53 + 7 * 2 ^ 32 + 0x3000 * 2 ^ 64 + 16 * 2 ^ 128 + 1 * 2 ^ 144 + 1 * 2 ^ 160 + 4 * 2 ^ 184 + 8 * 2 ^ 192 + 1 * 2 ^ 224 + 1 * 2 ^ 240 + 16 * 2 ^ 256 + 1 * 2 ^ 416)
      (ctx (fun c => { c with queues := [(3, ⟨0x8000, 1, 1, 0, false, false, 0, 0, (.acq (BitVec.ofNat 512 (1 + 0 * 2 ^ 8 + 0 * 2 ^ 16 + 0 * 2 ^ 24 + 8 * 2 ^ 32 + 40960 * 2 ^ 64 + 36864 * 2 ^ 128 + 0 * 2 ^ 192 + 0 * 2 ^ 256 + 4 * 2 ^ 384 + 0 * 2 ^ 450)))⟩)], log := [⟨7, 0, 1, true, []⟩] }) st0)) fun s =>
      match ((s.ctx 239).queue 3).st with | .acq r => recType r.toNat == 1 && frontRuns s 239 && (match frontRead s 239 (field r.toNat 64 64) 0 128 128 with | (s1, .bytes k) => kdForm k && kdMeasured (s1.ctx 239) k && (match dimsWord s1 239 r.toNat with | (_, .ok w) => (match dimsCheck w with | .ok (x, y, z, _) => x * y * z == 0 | .error _ => false) | _ => false) | _ => false) | _ => false) = true ∧
    (holds (mem 0xA000 128 (0x31444B53 + 7 * 2 ^ 32 + 0x3000 * 2 ^ 64 + 16 * 2 ^ 128 + 1 * 2 ^ 144 + 1 * 2 ^ 160 + 4 * 2 ^ 184 + 8 * 2 ^ 192 + 1 * 2 ^ 224 + 1 * 2 ^ 240 + 16 * 2 ^ 256 + 1 * 2 ^ 416)
      (ctx (fun c => { c with queues := [(3, ⟨0x8000, 1, 1, 0, false, false, 0, 0, (.acq (BitVec.ofNat 512 (1 + 8 * 2 ^ 8 + 0 * 2 ^ 16 + 0 * 2 ^ 24 + 8 * 2 ^ 32 + 40960 * 2 ^ 64 + 36864 * 2 ^ 128 + 0 * 2 ^ 192 + 18446744086594453506 * 2 ^ 256 + 4 * 2 ^ 384 + 0 * 2 ^ 450)))⟩)], log := [⟨7, 0, 1, true, []⟩] }) st0)) fun s =>
      match ((s.ctx 239).queue 3).st with | .acq r => recType r.toNat == 1 && frontRuns s 239 && (match frontRead s 239 (field r.toNat 64 64) 0 128 128 with | (s1, .bytes k) => kdForm k && kdMeasured (s1.ctx 239) k && (match dimsWord s1 239 r.toNat with | (s2, .ok w) => (match dimsCheck w with | .ok (x, y, z, cw, ch) => x * y * z != 0 && (gridFits s2 (s2.ctx 239).part.toNat k cw ch (x * y * z / (cw * ch)) (bitAt r.toNat 10)).isNone && (Assoc.get? s2.grids 0).isNone | .error _ => false) | _ => false) | _ => false) | _ => false) = true ∧
    (holds (mem 0xA000 128 (0x31444B53 + 7 * 2 ^ 32 + 0x3000 * 2 ^ 64 + 16 * 2 ^ 128 + 1 * 2 ^ 144 + 1 * 2 ^ 160 + 4 * 2 ^ 184 + 8 * 2 ^ 192 + 1 * 2 ^ 224 + 1 * 2 ^ 240 + 16 * 2 ^ 256 + 1 * 2 ^ 416)
      (ctx (fun c => { c with queues := [(3, ⟨0x8000, 1, 1, 0, false, false, 0, 0, (.acq (BitVec.ofNat 512 (1 + 8 * 2 ^ 8 + 0 * 2 ^ 16 + 0 * 2 ^ 24 + 8 * 2 ^ 32 + 40960 * 2 ^ 64 + 36864 * 2 ^ 128 + 0 * 2 ^ 192 + 18446744086594453506 * 2 ^ 256 + 4 * 2 ^ 384 + 0 * 2 ^ 450)))⟩)], log := [⟨7, 0, 1, true, []⟩] }) { st0 with grids := fullTable })) fun s =>
      (List.range 256).all (fun j => (Assoc.get? s.grids j).isSome) && match ((s.ctx 239).queue 3).st with | .acq r => recType r.toNat == 1 && frontRuns s 239 && (match frontRead s 239 (field r.toNat 64 64) 0 128 128 with | (s1, .bytes k) => kdForm k && kdMeasured (s1.ctx 239) k && (match dimsWord s1 239 r.toNat with | (s2, .ok w) => (match dimsCheck w with | .ok (x, y, z, cw, ch) => x * y * z != 0 && (gridFits s2 (s2.ctx 239).part.toNat k cw ch (x * y * z / (cw * ch)) (bitAt r.toNat 10)).isNone | .error _ => false) | _ => false) | _ => false) | _ => false) = true ∧
    (holds (ctx (fun c => { c with queues := [(3, ⟨0x8000, 1, 1, 0, false, false, 0, 0, (.dims 1 0 (BitVec.ofNat 128 18446744086594453506))⟩)] }) st0) fun s =>
      match ((s.ctx 239).queue 3).st with | .dims _ _ w => frontRuns s 239 && (match dimsCheck w.toNat with | .ok _ => true | .error _ => false) | _ => false) = true ∧
    (holds (posted (.store ⟨2 ^ 40, 0x9000, 1, 0, false, false, [1]⟩) (ctx (fun c =>
      { c with queues := [(3, ⟨0x8000, 1, 1, 0, false, false, 0, 0, (.acq (BitVec.ofNat 512 (2 + 0 * 2 ^ 8 + 0 * 2 ^ 16 + 4 * 2 ^ 24 + 0 * 2 ^ 32 + 0 * 2 ^ 64 + 0 * 2 ^ 128 + 0 * 2 ^ 192 + 0 * 2 ^ 256 + 9 * 2 ^ 384 + 0 * 2 ^ 450)))⟩)], fences := [(4, 5)] }) st0)) fun s =>
      match ((s.ctx 239).queue 3).st with | .acq r => recType r.toNat == 2 && frontRuns s 239 && (anyRdcHeld s || uncachedOut s 239) | _ => false) = true ∧
    (holds (ctx (fun c =>
      { c with queues := [(3, ⟨0x8000, 1, 1, 0, false, false, 0, 0, (.acq (BitVec.ofNat 512 (2 + 0 * 2 ^ 8 + 0 * 2 ^ 16 + 4 * 2 ^ 24 + 0 * 2 ^ 32 + 0 * 2 ^ 64 + 0 * 2 ^ 128 + 0 * 2 ^ 192 + 0 * 2 ^ 256 + 9 * 2 ^ 384 + 0 * 2 ^ 450)))⟩)], fences := [(4, 5)] }) st0) fun s =>
      match ((s.ctx 239).queue 3).st with | .acq r => recType r.toNat == 2 && frontRuns s 239 && !anyRdcHeld s && !uncachedOut s 239 | _ => false) = true ∧
    (holds ({ st0 with grids := [(0, grid51 1 false 1)] }) fun s =>
      match Assoc.get? s.grids 0 with | some x => s.boot.started && (s.ctx x.ctx).st != .killed && decide (x.ended < x.x * x.y * x.z) | none => false) = true ∧
    (holds ({ st0 with grids := [(0, grid51 1 false 2)] }) fun s =>
      match Assoc.get? s.grids 0 with | some x => s.boot.started && (s.ctx x.ctx).st != .killed && !x.sigDone && decide (x.x * x.y * x.z ≤ x.ended) | none => false) = true ∧
    (holds ({ st0 with grids := [(0, grid51 1 true 2)] }) fun s =>
      match Assoc.get? s.grids 0 with | some x => s.boot.started && (s.ctx x.ctx).st != .killed && x.sigDone && decide (x.x * x.y * x.z ≤ x.ended) && !anyRdcHeld s && !uncachedOut s x.ctx | none => false) = true ∧
    (holds { st0 with boot := { st0.boot with started := false } } fun s => !s.boot.started) = true ∧
    (holds { st0 with teams := [], grids := [(0, grid51 1 false 2)] } fun s => let x := { grid51 1 false 2 with out := true };
      s.boot.started && x.out && drainedGrid s x == some 0 && (drainedGrid s { x with queue := 4 }).isNone) = true ∧
    (holds { st0 with grids := [(0, grid51 1 false 2)] } fun s => let x := grid51 1 false 2;
      s.boot.started && !x.out && (Assoc.get? s.grids 1).isNone && (Assoc.get? s.grids 0).isSome) = true ∧
    (holds (mem 0x8000 64 (2 + 2 ^ 8 + 2 * 2 ^ 16 + 4 * 2 ^ 24 + 5 * 2 ^ 192 + 9 * 2 ^ 384) (ctx (fun c => { c with
      queues := [(3, ⟨0x8000, 1, 1, 0, false, false, 0, 0, .idle⟩)], fences := [(2, 5)] }) { st0 with grids := [(0, grid51 1 false 1)] })) fun s =>
      (let y := (s.ctx 239).queue 3; takesNew s 239 && y.st == .idle && !y.stop &&
      decide (1 ≤ y.qlog2.toNat ∧ y.qlog2.toNat ≤ 12 ∧ y.pub ≠ y.cons ∧ (y.pub - y.cons).toNat ≤ 2 ^ y.qlog2.toNat) &&
      (match frontRead s 239 y.qbase.toNat (64 * (y.cons.toNat % 2 ^ y.qlog2.toNat) : Nat) 64 64 with
      | (s1, .bytes r) => (recCheck r).isNone && recType r == 2 && !waitOver s1 239 3 (BitVec.ofNat 512 r).toNat false &&
        waitMetBy (field r 16 6) ((s.ctx 239).fence (field r 16 6)) (BitVec.ofNat 512 r)
      | _ => false))) = true := by decide +kernel

/-- O52: `nfsig` of fence 63, of 64 and held by its release; `glaunch` into a queue with room, a full one and one that
has no slots, and with a copy kept, into a full queue and one with room. -/
theorem witness_DeviceLaunches :
    (wit (st (grp [(15, 64)] [])) (.nfsig (w 0 0 (.s 16) (.s 15) (.imm 1) .none .none 0)) fun e f =>
      let e1 := committed e; let n := e1.n32 0 (.op f.s1); decide (n = 64)) = true ∧
    (wit (st (grp [(15, 63)] [])) (.nfsig (w 0 0 (.s 16) (.s 15) (.imm 1) .none .none 0)) fun e f =>
      let e1 := committed e; let n := e1.n32 0 (.op f.s1); decide (n = 63) &&
      (released e1 2 (if fV f then 7 else 5)).isSome) = true ∧
    (wit (posted (.store ⟨0x9000, 0x9000, 0, 0, false, false, [1]⟩) (st (grp [(15, 63)] []))) (.nfsig (w 0 0 (.s 16) (.s 15)
      (.imm 1) .none .none 0)) fun e f => let e1 := committed e; let n := e1.n32 0 (.op f.s1); decide (n = 63) &&
      (released e1 2 (if fV f then 7 else 5)).isNone) = true ∧
    (wit (mem 0x9000 64 0x77 (ctx (fun c => { c with queues := [(3, ⟨0x8000, 0, 1, 0, false, false, 0, 0, .idle⟩)] })
      (st (grp [(20, 0x9000), (22, 3)] [])))) (.glaunch (w 0 0 (.s 18) (.s 20) (.s 22) .none .none 0)) fun e f => e.grp.launch.isNone &&
      match released (committed e) 2 5 with | some e1 => (let q := e1.n32 0 (.op f.s2); decide (15 < q ∨ (e1.ctx.queue q).qlog2 = 0)) | none => false) = true ∧
    (wit (mem 0x9000 64 0x77 (ctx (fun c => { c with queues := [(3, ⟨0x8000, 1, 2, 0, false, false, 0, 0, .idle⟩)] })
      (st (grp [(20, 0x9000), (22, 3)] [])))) (.glaunch (w 0 0 (.s 18) (.s 20) (.s 22) .none .none 0)) fun e f => e.grp.launch.isNone &&
      match released (committed e) 2 5 with | some e1 => (let q := e1.n32 0 (.op f.s2); decide (q ≤ 15 ∧ (e1.ctx.queue q).qlog2 ≠ 0) && (match loadRange e1 (.ptr (e1.pair f.s1)) 0 64 64 e1.st with | (.ok (_, _)) => decide (2 ^ (e1.ctx.queue q).qlog2.toNat ≤ ((e1.ctx.queue q).pub - (e1.ctx.queue q).cons).toNat) | .error _ => false)) | none => false) = true ∧
    (wit (mem 0x9000 64 0x77 (ctx (fun c => { c with queues := [(3, ⟨0x8000, 1, 1, 0, false, false, 0, 0, .idle⟩)] })
      (st (grp [(20, 0x9000), (22, 3)] [])))) (.glaunch (w 0 0 (.s 18) (.s 20) (.s 22) .none .none 0)) fun e f => e.grp.launch.isNone &&
      match released (committed e) 2 5 with | some e1 => (let q := e1.n32 0 (.op f.s2); decide (q ≤ 15 ∧ (e1.ctx.queue q).qlog2 ≠ 0) && (match loadRange e1 (.ptr (e1.pair f.s1)) 0 64 64 e1.st with | (.ok (s2, _)) => decide (((e1.ctx.queue q).pub - (e1.ctx.queue q).cons).toNat < 2 ^ (e1.ctx.queue q).qlog2.toNat ∧ (e1.ctx.queue q).stop = false) && (match resolveRange (e1.at s2) (.ptr ((e1.at s2).ctx.queue q).qbase.toNat) (64 * (((e1.at s2).ctx.queue q).pub.toNat % 2 ^ ((e1.at s2).ctx.queue q).qlog2.toNat) : Nat) 64 64 .write (e1.at s2).st with | .ok (s3, [(a, n)]) => !lineHeld s3 a.loc n | _ => false) | .error _ => false)) | none => false) = true ∧
    (wit (ctx (fun c => { c with queues := [(3, ⟨0x8000, 1, 2, 0, false, false, 0, 0, .idle⟩)] })
      (st { grp [(20, 0x9000), (22, 3)] [] with launch := some 0x77 })) (.glaunch (w 0 0 (.s 18) (.s 20) (.s 22) .none .none 0)) fun e f =>
      e.grp.launch == some 0x77 && (let y := e.ctx.queue (e.n32 0 (.op f.s2)); decide (2 ^ y.qlog2.toNat ≤ (y.pub - y.cons).toNat))) = true ∧
    (wit (ctx (fun c => { c with queues := [(3, ⟨0x8000, 1, 1, 0, false, false, 0, 0, .idle⟩)] })
      (st { grp [(20, 0x9000), (22, 3)] [] with launch := some 0x77 })) (.glaunch (w 0 0 (.s 18) (.s 20) (.s 22) .none .none 0)) fun e f =>
      e.grp.launch == some 0x77 && (let y := e.ctx.queue (e.n32 0 (.op f.s2)); decide ((y.pub - y.cons).toNat < 2 ^ y.qlog2.toNat ∧ y.stop = false) &&
        (match resolveRange e (.ptr y.qbase.toNat) (64 * (y.pub.toNat % 2 ^ y.qlog2.toNat) : Nat) 64 64 .write e.st with
        | .ok (s3, [(a, n)]) => !lineHeld s3 a.loc n
        | _ => false))) = true := by decide +kernel

/-- O53: an entry that binds, one that is refused and one that must wait for its cluster; a filled cluster; a team
that ends. -/
theorem witness_TeamsAreBound :
    (holds ({ State.reset with boot := { State.reset.boot with started := true }, phase := .run, mem := tables, nextId := 2, grids := [(0, grid51 1 false 0)], slots := [(5, ⟨BitVec.ofNat 256 (1 + 0 * 2 ^ 16 + 63 * 2 ^ 56 + 1 * 2 ^ 80 * 100 + 1 * 2 ^ 112), .pending⟩)] }) fun s =>
      match pendingBind s 0 5 with | some b => (s.slot 0 5).st == .pending && (b.saved s).isNone && !savedBelow s 0 5 && b.placed && !b.refused s b.width && (match b.together s with | some [_] => true | _ => false) && (List.range 5).all (fun k => (pendingBind s k 5).isNone || k == 0) | none => false) = true ∧
    (holds ({ State.reset with boot := { State.reset.boot with started := true }, phase := .run, mem := tables, nextId := 2, grids := [(0, grid51 1 false 0)], slots := [(5, ⟨BitVec.ofNat 256 (1 + 2 * 2 ^ 16 + 63 * 2 ^ 56 + 1 * 2 ^ 80 * 100 + 1 * 2 ^ 112), .pending⟩)] }) fun s =>
      match pendingBind s 0 5 with | some b => (s.slot 0 5).st == .pending && (b.saved s).isNone && !savedBelow s 0 5 && !b.placed | none => false) = true ∧
    (holds ({ State.reset with boot := { State.reset.boot with started := true }, phase := .run, mem := tables, nextId := 2, grids := [(0, grid51 2 false 0)], slots := [(5, ⟨BitVec.ofNat 256 (1 + 0 * 2 ^ 16 + 63 * 2 ^ 56 + 1 * 2 ^ 80 * 100 + 1 * 2 ^ 112), .pending⟩)] }) fun s =>
      match pendingBind s 0 5 with | some b => (s.slot 0 5).st == .pending && (b.saved s).isNone && !savedBelow s 0 5 && b.placed && !b.refused s b.width && (b.together s).isNone | none => false) = true ∧
    (holds ({ (device { team [grp [] []] with st := .filling }) with grids := [(0, grid51 1 false 0)], slots := [(0, ⟨1, .filling⟩)] }) fun s =>
      match s.teams.find? (fun t => t.core == 0 && t.entry == 0 && t.st == .filling) with | some t => decide (∀ u ∈ clusterOf s t, u.st = .filling ∧ u.restored = none) && (s.ctx t.ctx).st != .restoring && dieRuns s 0 | none => false) = true ∧
    ((let t := team []; decide (0xFFF < t.window false))) = true ∧
    (holds ({ (device { team [{ grp [] [] with cond := .ended }] with st := .running }) with grids := [(0, grid51 1 false 0)], slots := [(0, ⟨1, .running⟩)], rings := [(key2 1 0, .zero)] }) fun s =>
      match s.team? 1 with | some t => t.st == .running && t.groups.all (fun g => g.cond == .ended) && !teamBusy s t && (Assoc.get? s.grids t.grid).isSome | none => false) = true := by decide +kernel

/-- O54: requests with FORCE, with LIMIT 0 and with a limit, and a write without REQ; the limit passing while draining
and else; a context with no team, draining and saving; a cluster to save. -/
theorem witness_PreemptionRequests :
    (holds ({ (st { grp [] [] with cond := .wait (.mwait none 4 0) }) with grids := [(0, grid51 1 false 0)], slots := [(5, ⟨3, .pending⟩)] }) fun s =>
      (s.ctx 239).st == .running && (BitVec.ofNat 32 3).getLsbD 0) = true ∧
    (holds ({ (st { grp [] [] with cond := .wait (.mwait none 4 0) }) with grids := [(0, grid51 1 false 0)], slots := [(5, ⟨3, .pending⟩)] }) fun s =>
      (s.ctx 239).st == .running && (BitVec.ofNat 32 1).getLsbD 0) = true ∧
    (holds ({ (st { grp [] [] with cond := .wait (.mwait none 4 0) }) with grids := [(0, grid51 1 false 0)], slots := [(5, ⟨3, .pending⟩)] }) fun s =>
      (s.ctx 239).st == .running && (BitVec.ofNat 32 512001).getLsbD 0) = true ∧
    (holds (st0) fun s => (s.ctx 239).st == .running && !(BitVec.ofNat 32 0x502).getLsbD 0) = true ∧
    (holds ((st0.setCtx 239 { st0.ctx 239 with st := .draining })) fun s => (s.ctx 239).st == .draining) = true ∧
    (holds (st0) fun s => (s.ctx 239).st != .draining) = true ∧
    (holds ((st0.setCtx 5 { st0.ctx 5 with st := .draining })) fun s => !s.teams.any (fun t => t.ctx == 5) &&
      (s.ctx 5).st == .draining) = true ∧
    (holds ((st0.setCtx 5 { st0.ctx 5 with st := .saving })) fun s => !s.teams.any (fun t => t.ctx == 5) &&
      (s.ctx 5).st == .saving) = true ∧
    (holds ((st0.setCtx 239 { st0.ctx 239 with st := .saving })) fun s => (s.ctx 239).st == .saving &&
      (match ((s.teams.filter fun t => t.ctx == 239).map (clusterOf s)).find? (saveReady s) with | some us => us.length == 1 && !areaHeld s us && us.all (·.st != .ended) | none => false)) = true := by decide +kernel

/-- The entry of a saved team's slot. -/
def entry55 : BitVec 256 := BitVec.ofNat 256 (1 + 63 * 2 ^ 56 + 100 * 2 ^ 80 + 2 ^ 112)
/-- Context 239 with one saved team, its state, the epilogue slots the team held, the code its image points into and the log
of what was measured; a pending entry for it. -/
def saved55 (cst : CtxSt) (epi : BitVec 8) (codes : List Nat) (log : List Measured) : State :=
  mem 0xB000 64 (0x1B1 * 2 ^ 48) (({ State.reset with boot := { State.reset.boot with started := true }, phase := .run, mem := tables, nextId := 2, grids := [(0, grid51 1 false 0)], slots := [(5, ⟨entry55, .pending⟩)] } : State).setCtx 239
    { State.reset.ctx 239 with st := cst, log := log, images := [(1, ⟨{ team [grp [] []] with
      banks := 1, epi := epi, tkOwn := false, obSize := 0, gslots := 1 }, 0x3000000000, BitVec.ofNat 512 (0x1B1 * 2 ^ 48),
      [], [], [], [], [], [], [], [], [], [], [], [], [], [], codes, 0⟩)] })
/-- O55: a saved team and an entry that grants what it held, the same with its code gone, one of another stepping, and
the end of a restore; entries that wait, that are refused, and one that dispatch takes; a
context with nothing resident, one to be killed; code no saved team points into, forced and deferred unloads; a
shootdown held up and done; a halted group; a wake. -/
theorem witness_ContextsAndRestores :
    (holds (saved55 .saved 0 [] []) fun s =>
      let rs := ([⟨1, 0, 5, entry55⟩] : List RestoreBind).filterMap (rebindOf s 239);
      (s.ctx 239).st == .saved && (s.ctx 239).images.all (fun i => i.2.fitsStepping) && rs.length == 1 && wholeCluster s 239 rs && rs.all (fun r =>
      !r.img.codeGone (s.ctx 239) && !imageRuined s r.img && !r.refused s && r.b.free s (r.need s)) && !imagesHeld s rs) = true ∧
    (holds (saved55 .restoring 0 [] []) fun s =>
      let rs := ([⟨1, 0, 5, entry55⟩] : List RestoreBind).filterMap (rebindOf s 239);
      (s.ctx 239).st == .restoring && (s.ctx 239).images.all (fun i => i.2.fitsStepping) && rs.length == 1 && wholeCluster s 239 rs && rs.all (fun r =>
      !r.img.codeGone (s.ctx 239) && !imageRuined s r.img && !r.refused s && r.b.free s (r.need s)) && !imagesHeld s rs) = true ∧
    (holds (saved55 .drained 0 [7] [⟨7, 0, 1, false, [(0x3000, 0x100)]⟩]) fun s =>
      let rs := ([⟨1, 0, 5, entry55⟩] : List RestoreBind).filterMap (rebindOf s 239);
      (s.ctx 239).st == .drained && (s.ctx 239).images.all (fun i => i.2.fitsStepping) && rs.length == 1 && wholeCluster s 239 rs && (rs.find? (fun r =>
      r.img.codeGone (s.ctx 239))).isSome) = true ∧
    (holds (({ State.reset with boot := { State.reset.boot with started := true }, phase := .run } : State).setCtx 239 { State.reset.ctx 239 with st := .saved, images := [(1, ⟨team [grp [] []], 0xB000, BitVec.ofNat 512 (0x1B2 * 2 ^ 48), [], [], [], [], [], [], [], [], [], [], [], [], [], [], [], 0⟩)] }) fun s =>
      (s.ctx 239).st == .saved && (s.ctx 239).images.any fun i => !i.2.fitsStepping) = true ∧
    (holds (({ State.reset with boot := { State.reset.boot with started := true }, phase := .run } : State).setCtx 239 { State.reset.ctx 239 with st := .restoring }) fun s =>
      (s.ctx 239).st == .restoring && restoreDone s 239 && (s.ctx 239).images.isEmpty && (s.ctx 239).reqAgain.isNone) = true ∧
    (holds (saved55 .saved 0 [7] [⟨7, 0, 1, false, [(0x3000, 0x100)]⟩]) fun s =>
      (s.ctx 239).st == .saved && ((Assoc.get? (s.ctx 239).images 1).map fun i =>
      i.codeGone (s.ctx 239)) == some true) = true ∧
    (holds (st0) fun s => s.boot.started && decide (5 < 240) && !s.teams.any (fun t => t.ctx == 5) && s.grids.all (fun x =>
      x.2.ctx != 5)) = true ∧
    (holds ({ st0 with grids := [(0, grid51 1 false 0)] }) fun s =>
      (s.ctx 239).st != .killed) = true ∧
    (holds (saved55 .saved 0 [] [⟨7, 0, 1, true, [(0x9000, 0x100)]⟩]) fun s =>
      match (s.ctx 239).log.find? (fun m => m.ordinal == 7 && m.inUse) with | some m => (s.ctx 239).images.all (fun x => !x.2.pointsInto m) | none => false) = true ∧
    (holds (saved55 .saved 0 [7] [⟨7, 0, 1, true, [(0x3000, 0x100)]⟩]) fun s =>
      match (s.ctx 239).log.find? (fun m => m.ordinal == 7 && m.inUse) with | some m => m.inUse | none => false) = true ∧
    (holds (saved55 .saved 0 [7] [⟨7, 0, 1, true, [(0x3000, 0x100)]⟩]) fun s =>
      match (s.ctx 239).log.find? (fun m => m.ordinal == 7 && m.inUse) with | some m => (s.ctx 239).images.any (fun x => x.2.pointsInto m) && (s.ctx 239).unloads.all (fun u => u.1 != 7) | none => false) = true ∧
    (holds (posted (.store ⟨0x9000, 0x9000, 0, 0, false, false, [1]⟩) (st0)) fun s => translatedWork s 239) = true ∧
    (holds ({ (st { grp [] [] with b := [(3, { BaseRec.empty with valid := true, run := 5 })] }) with tlb := [(key2 239 3, ⟨0, 1⟩)], btlb := [(key2 239 3, 0)] }) fun s =>
      !translatedWork s 239) = true ∧
    (holds (st { grp [] [] with cond := .halted false }) fun s =>
      match env? s me with | some e => e.team.ctx == 239 && e.grp.cond == .halted false && decide ((s.teams.map (·.uid)).Nodup ∧ (e.team.groups.map (·.idx)).Nodup) | none => false) = true ∧
    (holds (st { grp [] [] with cond := .halted true }) fun s =>
      match env? s me with | some e => e.team.ctx == 239 && e.grp.cond == .halted true && decide ((s.teams.map (·.uid)).Nodup ∧ (e.team.groups.map (·.idx)).Nodup) | none => false) = true ∧
    (holds ({ saved55 .saved 0 [] [] with teams := [{ team [] with grid := 9, banks := 0, epi := 0, win := 0, l1 := 64, part := 1 }] }) fun s =>
      let rs := ([⟨1, 0, 5, entry55⟩] : List RestoreBind).filterMap (rebindOf s 239);
      (s.ctx 239).st == .saved && (s.ctx 239).images.all (fun i => i.2.fitsStepping) && rs.length == 1 && wholeCluster s 239 rs && rs.all (fun r =>
      !r.img.codeGone (s.ctx 239) && !imageRuined s r.img && !r.refused s && !r.b.free s (r.need s)) && !imagesHeld s rs) = true ∧
    (holds (saved55 .saved 1 [] []) fun s =>
      let rs := ([⟨1, 0, 5, entry55⟩] : List RestoreBind).filterMap (rebindOf s 239);
      (s.ctx 239).st == .saved && (s.ctx 239).images.all (fun i => i.2.fitsStepping) && rs.length == 1 && wholeCluster s 239 rs && rs.all (fun r =>
      !r.img.codeGone (s.ctx 239) && !imageRuined s r.img && r.refused s) && !imagesHeld s rs) = true ∧
    (holds (saved55 .saved 0 [] []) fun s => match pendingBind s 0 5 with
      | some b => (match b.saved s with
        | some r => !savedBelow s 0 5 && firstReady s 0 5 && restorable s b.g.ctx && (s.ctx b.g.ctx).images.all (fun i => i.2.fitsStepping) &&
          wholeCluster s b.g.ctx (r.mates s)
        | none => false)
      | none => false) = true ∧
    (holds ({ (st { grp [] [] with cond := .wait (.mwait none 4 0) }) with grids := [(0, grid51 1 false 0)], slots := [(5, ⟨3, .pending⟩)] }) fun s =>
      match env? s me with | some e => e.team.ctx == 239 | none => false) = true := by decide +kernel

/-- O56: a host write, read and AtomicOp of free memory; a peer access served, one that waits for the host, and one that
is not served; a line of host memory in an RDC; a line in the snoop filter; an instruction line without an
error, and a poisoned one, that nobody and that somebody waits for. -/
theorem witness_HostAndPeerAccesses :
    (holds (st0) fun s => devRange s 0x9004 3 && !isMgmt 0x9004 && (segs 128 0x9004 3).all (fun x =>
      !peridotHolds s (x.1 / 128))) = true ∧
    (holds ({ st0 with snoop := [0x120, 0x121] }) fun s => devRange s 0x9000 192 && !isMgmt 0x9000 &&
      (segs 128 0x9000 192).all (fun x => !peridotHolds s (x.1 / 128))) = true ∧
    (holds (mem 0x9000 8 0x1122334455667788 st0) fun s => devRange s 0x907C 8 && !isMgmt 0x907C &&
      (segs 128 0x907C 8).all (fun x => !peridotHolds s (x.1 / 128))) = true ∧
    (holds (mem 0x9004 4 3 st0) fun s => devRange s 0x9004 4 && !peridotHolds s (0x9004 / 128) &&
      !(homeRead s 0x9004 4).2.2 && ofBytes (homeRead s 0x9004 4).2.1 == 3) = true ∧
    (holds (mem 0x9004 4 3 st0) fun s => devRange s 0x9004 4 && !peridotHolds s (0x9004 / 128) &&
      !(homeRead s 0x9004 4).2.2 && ofBytes (homeRead s 0x9004 4).2.1 == 3) = true ∧
    (holds (mem 0x9004 4 3 st0) fun s => devRange s 0x9004 4 && !peridotHolds s (0x9004 / 128) &&
      !(homeRead s 0x9004 4).2.2 && ofBytes (homeRead s 0x9004 4).2.1 == 3) = true ∧
    (holds (mem 0x9004 4 3 st0) fun s => devRange s 0x9004 4 && !peridotHolds s (0x9004 / 128) &&
      !(homeRead s 0x9004 4).2.2 && ofBytes (homeRead s 0x9004 4).2.1 == 3) = true ∧
    (holds (st0) fun s => peerReaches s 0x9000 4 && !lineHeld s 0x9000 4) = true ∧
    (holds ({ st0 with snoop := [0x120] }) fun s => peerReaches s 0x9000 4 && lineHeld s 0x9000 4) = true ∧
    (holds (State.reset) fun s => !peerReaches s 0x9000 4) = true ∧
    (holds ({ st0 with rdc := [(key2 2 (2 ^ 40 / 128), ⟨0x55, 0xFF#128, 1#128, 0, 0⟩)] }) fun s => isHost (2 ^ 40) &&
      nodeOf (2 ^ 40) == 0 && (Assoc.get? s.rdc (key2 2 (2 ^ 40 / 128))).isSome) = true ∧
    (holds ({ st0 with snoop := [0x120] }) fun s => s.snoop.contains (0x9000 / 128) &&
      !peridotHolds s (0x9000 / 128)) = true ∧
    (holds (st0) fun s =>
      match env? s me with | some e => (match translate s e.team.ctx (e.grp.pc.toNat / 2 ^ 57) 0x3000 1 .fetch with | (s1, .ok loc ca) => (icLine s1 e.core (loc / 128) ca).2.2 == 0 && e.grp.cond != .wait .fetch && !lineHeld s1 loc 1 && (Assoc.get? s1.icache (key2 (quadOf e.core) (loc / 128))).isNone | _ => false) | none => false) = true ∧
    (holds (st { grp [] [] with cond := .wait .fetch }) fun s =>
      match env? s me with | some e => (match translate s e.team.ctx (e.grp.pc.toNat / 2 ^ 57) 0x3000 1 .fetch with | (s1, .ok loc ca) => (icLine s1 e.core (loc / 128) ca).2.2 == 0 && e.grp.cond == .wait .fetch && overlap 0x3000 128 (e.grp.pc.toNat % 2 ^ 57) 12 && !lineHeld s1 loc 1 && (Assoc.get? s1.icache (key2 (quadOf e.core) (loc / 128))).isNone | _ => false) | none => false) = true ∧
    (holds ({ st0 with ecc := [(0x3008 / 8, .poison)] }) fun s =>
      match env? s me with | some e => (match translate s e.team.ctx (e.grp.pc.toNat / 2 ^ 57) 0x3000 1 .fetch with | (s1, .ok loc ca) => (icLine s1 e.core (loc / 128) ca).2.2 != 0 && e.grp.cond != .wait .fetch && !lineHeld s1 loc 1 && (Assoc.get? s1.icache (key2 (quadOf e.core) (loc / 128))).isNone | _ => false) | none => false) = true ∧
    (holds ({ (st { grp [] [] with cond := .wait .fetch }) with ecc := [(0x3008 / 8, .poison)] }) fun s =>
      match env? s me with | some e => (match translate s e.team.ctx (e.grp.pc.toNat / 2 ^ 57) 0x3000 1 .fetch with | (s1, .ok loc ca) => (icLine s1 e.core (loc / 128) ca).2.2 != 0 && e.grp.cond == .wait .fetch && overlap 0x3000 128 (e.grp.pc.toNat % 2 ^ 57) 12 && !lineHeld s1 loc 1 && (Assoc.get? s1.icache (key2 (quadOf e.core) (loc / 128))).isNone | _ => false) | none => false) = true := by decide +kernel

/-- O57: the states of GO, with a hot die too, and of training; monitors of a source that is sampled, of the slips and the
copies of a core, off, and without a source; the limits of the ranges a statement names lie below. -/
theorem witness_ManagementRegisters :
    (holds (st0) fun _ => decide (¬ ((2 = 4 ∨ 2 = 8) ∧ 536871976 % 2 ^ 32 % 2 = 0))) = true ∧
    (holds (st0) fun _ => decide (¬ ((4 = 4 ∨ 4 = 8) ∧ 536871978 % 2 ^ 32 % 4 = 0))) = true ∧
    (holds (st0) fun _ => decide (¬ ((8 = 4 ∨ 8 = 8) ∧ 536871972 % 2 ^ 32 % 8 = 0))) = true ∧
    (([(0, 0, 0, 4), (3, 191, 0x7FC, 4), (3, 0, 0x7F8, 8), (1, 5, 0x1000, 4), (2, 191, 0xFFF8, 8), (3, 191, 0xFFFC, 4)] : List (Nat × Nat × Nat × Nat)).all
      fun (d, core, o, n) => decide (d < 4 ∧ core < 192 ∧ (o < 0x800 ∨ (0x1000 ≤ o ∧ o < 0x10000)) ∧ (n = 4 ∨ n = 8) ∧ o % n = 0)) = true ∧
    (holds ({ State.reset with phase := .ready, l2 := [(0x120, ⟨0x77, 3, 2, 0⟩), (0x121, ⟨0x77, 3, 0, 0⟩)] }) fun s =>
      s.phase == .ready && s.teams == [] && s.grids == []) = true ∧
    (holds (({ State.reset with phase := .ready } : Machine.State).setDie 3 { State.reset.die 3 with hot := true }) fun s =>
      s.phase == .ready && s.teams == [] && s.grids == [] && (s.die 3).hot && !(s.die 2).hot) = true ∧
    (holds (State.reset) fun s => decide (s.phase ≠ .ready ∨ s.teams ≠ [] ∨ s.grids ≠ [])) = true ∧
    (holds ({ st0 with phase := .ready }) fun s => decide (s.phase ≠ .ready ∨ s.teams ≠ [] ∨ s.grids ≠ [])) = true ∧
    (holds ({ State.reset with phase := .ready, grids := [(0, grid51 1 false 2)] }) fun s =>
      decide (s.phase ≠ .ready ∨ s.teams ≠ [] ∨ s.grids ≠ [])) = true ∧
    (holds ({ State.reset with boot := { State.reset.boot with started := true } }) fun s => s.phase == .early &&
      s.boot.started) = true ∧
    (holds ({ State.reset with boot := { State.reset.boot with started := false } }) fun s =>
      s.phase != .early || !s.boot.started) = true ∧
    (holds (st0) fun s => s.phase != .early || !s.boot.started) = true ∧
    (holds (st0.setDie 1 { st0.die 1 with mons := [(2, ⟨1, 0, true, 9, 20, [(5, 0xFFFFFFFF), (32, 4)], 0⟩)] }) fun s =>
      ((s.die 1).mon 2).en && ((s.die 1).mon 2).src != 0) = true ∧
    (holds (st0.setDie 1 { st0.die 1 with mons := [(2, ⟨4, 191, true, 9, 20, [(5, 0xFFFFFFFF), (32, 4)], 7⟩)] }) fun s =>
      ((s.die 1).mon 2).en && ((s.die 1).mon 2).src != 0 && ((s.die 1).mon 2).src == 4) = true ∧
    (holds (st0.setDie 1 { st0.die 1 with mons := [(2, ⟨5, 191, true, 9, 20, [(5, 0xFFFFFFFF), (32, 4)], 0⟩)] }) fun s =>
      ((s.die 1).mon 2).en && ((s.die 1).mon 2).src != 0 && ((s.die 1).mon 2).src == 5) = true ∧
    (holds (st0.setDie 1 { st0.die 1 with mons := [(2, ⟨1, 0, false, 9, 20, [(5, 0xFFFFFFFF), (32, 4)], 0⟩)] }) fun s =>
      !((s.die 1).mon 2).en) = true ∧
    (holds (st0.setDie 1 { st0.die 1 with mons := [(2, ⟨0, 0, true, 9, 20, [(5, 0xFFFFFFFF), (32, 4)], 0⟩)] }) fun s =>
      ((s.die 1).mon 2).en && ((s.die 1).mon 2).src == 0) = true ∧
    ((decide (2 ^ (1 - 1) ≤ 1 ∧ 1 < 2 ^ 1 ∧ binOf 1 = 1 ∧ 2 ^ (30 - 1) ≤ 2 ^ 30 - 1 ∧ 2 ^ 30 - 1 < 2 ^ 30 ∧
      binOf (2 ^ 30 - 1) = 30 ∧ binOf (2 ^ 29) = 30))) = true := by decide +kernel

/-- O58: an entry of the last core; an answer with nothing to answer, and with a record; a group that waits for a fault;
FQCONS with nothing held, and with room for what is. -/
theorem witness_SystemSoftwareWrites :
    (holds (ctx (fun c => { c with faults := [⟨4, 0x9000, 1, 0, none⟩], heldFaults := [⟨4, 0xA000, 2, 0, none⟩] })
      (st { grp [] [] with cond := .wait (.fault 4 0x9000 1 5 false) })) fun s =>
      ((s.ctx 239).faults ++ (s.ctx 239).heldFaults).all (fun f => f.ord != 5 || f.answer.isSome)) = true ∧
    (holds (ctx (fun c => { c with faults := [⟨4, 0x9000, 1, 0, none⟩], heldFaults := [⟨4, 0xA000, 2, 0, none⟩] })
      (st { grp [] [] with cond := .wait (.fault 4 0x9000 1 5 false) })) fun s => (s.ctx 239).faults.any (fun f =>
      f.ord == 4 && f.answer.isNone)) = true ∧
    (holds (st { grp [] [] with cond := .wait (.fault 4 0x9000 1 5 false), region := some ⟨0x2F00, [], 0, 0, [], false⟩ }) fun s =>
      match env? s me with | some e => e.team.ctx == 239 && e.grp.cond == .wait (.fault 4 0x9000 1 5 false) | none => false) = true ∧
    (holds (st { grp [] [] with cond := .wait (.fault 4 0x9000 1 5 true), region := some ⟨0x2F00, [], 0, 0, [], false⟩ }) fun s =>
      match env? s me with | some e => e.team.ctx == 239 && e.grp.cond == .wait (.fault 4 0x9000 1 5 true) | none => false) = true ∧
    (holds (st0) fun s => s.boot.started && decide (767 < 768 ∧ 63 < 64)) = true ∧
    (holds (ctx (fun c => { c with fqPub := 5000, fqCons := 904, fqBase := 0x10000, heldFaults := [] }) st0) fun s =>
      (s.ctx 239).heldEvents == 0 && decide ((s.ctx 239).heldFaults = [])) = true ∧
    (holds (ctx (fun c =>
      { c with fqPub := 5000, fqCons := 904, fqBase := 0x10000, heldFaults := [⟨4, 0xA000, 2, 0, none⟩] }) st0) fun s =>
      (s.ctx 239).heldEvents == 0 && (s.ctx 239).heldFaults.length == 1 &&
      !recordHeld (s.ctx 239).fqBase (s.ctx 239).fqPub 905 s) = true := by decide +kernel

/-- O59: no request, no firmware; a list that is held, and one not mapped; a measurement refused below MINSV, carried out,
of a page that is held, and of one that is not mapped; power above, below and at
PLIMIT; a throttle that begins and one that ends; a hart, spares, a slice, banks and links. -/
theorem witness_DeviceServices :
    (holds (st0) fun s => (s.ctx 239).measReqs.isEmpty) = true ∧
    (holds (ctx (fun c => { c with measReqs := [0x3000] }) State.reset) fun s => !s.boot.started) = true ∧
    (holds (ctx (fun c => { c with measReqs := [0x3000], minsv := 2 }) { st0 with snoop := [0x60] }) fun s =>
      (s.ctx 239).measReqs == [0x3000] && s.boot.started && (match measuredBytes s 239 [(0x3000, 1)] with | (_, .error .held) => true | _ => false)) = true ∧
    (holds (ctx (fun c => { c with measReqs := [0x3000], minsv := 2, ptRoot := 0xF000 }) st0) fun s =>
      (s.ctx 239).measReqs == [0x3000] && s.boot.started && (match measuredBytes s 239 [(0x3000, 1)] with | (_, .error .unmapped) => true | _ => false)) = true ∧
    (holds (ctx (fun c => { c with measReqs := [0x3000], minsv := 2 }) st0) fun s =>
      (s.ctx 239).measReqs == [0x3000] && s.boot.started && (match measuredBytes s 239 [(0x3000, 1)] with | (s1, .ok _) => decide ((1 : Word).toNat < (s1.ctx 239).minsv.toNat) | _ => false)) = true ∧
    (holds (mem 0x3000 4 0x01020304 (ctx (fun c => { c with measReqs := [0x3000], minsv := 2 }) st0)) fun s =>
      (s.ctx 239).measReqs == [0x3000] && s.boot.started && (match measuredBytes s 239 [(0x3000, 1)] with | (s1, .ok _) => decide ((s1.ctx 239).minsv.toNat ≤ (2 : Word).toNat) &&
        (match measuredText s1 239 (bySegVa [(0x4000, 8), (0x3000, 4)]) with | (_, .ok bs) => bs.take 20 == toBytes 8 0x3000 ++ toBytes 8 4 ++ toBytes 4 0x01020304 | _ => false) | _ => false)) = true ∧
    (holds (ctx (fun c => { c with measReqs := [0x3000], minsv := 2 }) { st0 with snoop := [0x80] }) fun s =>
      (s.ctx 239).measReqs == [0x3000] && s.boot.started && (match measuredBytes s 239 [(0x3000, 1)] with | (s1, .ok _) => decide ((s1.ctx 239).minsv.toNat ≤ (2 : Word).toNat) &&
        (match measuredText s1 239 (bySegVa [(0x4000, 8), (0x3000, 4)]) with | (_, .error .held) => true | _ => false) | _ => false)) = true ∧
    (holds (ctx (fun c => { c with measReqs := [0x3000], minsv := 2 }) st0) fun s =>
      (s.ctx 239).measReqs == [0x3000] && s.boot.started && (match measuredBytes s 239 [(0x3000, 1)] with | (s1, .ok _) => decide ((s1.ctx 239).minsv.toNat ≤ (2 : Word).toNat) &&
        (match measuredText s1 239 (bySegVa [(0x40000000, 8), (0x3000, 4)]) with | (_, .error .unmapped) => true | _ => false) | _ => false)) = true ∧
    (holds State.reset fun s => !s.boot.started) = true ∧
    (holds ((List.range 4).foldl (fun s d =>
      s.setDie d { s.die d with clock := 30, hot := false }) { st0 with plimit := 1000 }) fun s => s.phase == .run && s.boot.started &&
      decide (s.plimit.toNat < 1001)) = true ∧
    (holds ((List.range 4).foldl (fun s d =>
      s.setDie d { s.die d with clock := 1100, hot := false }) { st0 with plimit := 1000 }) fun s =>
      s.phase == .run && s.boot.started && decide (s.plimit.toNat < 1001)) = true ∧
    (holds ((List.range 4).foldl (fun s d =>
      s.setDie d { s.die d with clock := 1090, hot := false }) { st0 with plimit := 1000 }) fun s =>
      s.phase == .run && s.boot.started && decide (999 < s.plimit.toNat ∧ (s.die 0).hot = false)) = true ∧
    (holds ((List.range 4).foldl (fun s d =>
      s.setDie d { s.die d with clock := 550, hot := false }) { st0 with plimit := 1000 }) fun s => s.phase == .run && s.boot.started &&
      s.plimit.toNat == 1000) = true ∧
    (holds ((List.range 4).foldl (fun s d =>
      s.setDie d { s.die d with clock := 1100, hot := false }) { st0 with plimit := 1000 }) fun s =>
      s.phase == .run && s.boot.started && !(s.die 0).hot && decide (105 ≤ 105 ∨ 45 ≤ 0)) = true ∧
    (holds ((List.range 4).foldl (fun s d =>
      s.setDie d { s.die d with clock := 1100, hot := false }) { st0 with plimit := 1000 }) fun s =>
      s.phase == .run && s.boot.started && !(s.die 0).hot && decide (105 ≤ 0 ∨ 45 ≤ 45)) = true ∧
    (holds ((List.range 4).foldl (fun s d =>
      s.setDie d { s.die d with clock := 525, hot := true, junction := 100 }) { st0 with plimit := 1000 }) fun s =>
      s.phase == .run && s.boot.started && (s.die 0).hot && (List.range 4).all (fun i =>
      decide ((if i = 2 then 99 else (s.die i).junction.toNat) ≤ 100))) = true ∧
    (holds (st0) fun s => s.boot.started && (s.die 3).harts.getLsbD 2) = true ∧
    (holds (st0.setDie 3 { st0.die 3 with spares := 0 }) fun s => coreDie 767 == 3 && (s.die 3).spares == 0) = true ∧
    (holds (st0) fun s => coreDie 767 == 3 && decide (0 < (s.die 3).spares)) = true ∧
    (holds ({ st0 with l2 := [(0x120, ⟨0x77, 3, 2, 0⟩), (0x121, ⟨0x77, 3, 0, 0⟩)], beryl := [(3 * 64 + 63, ⟨2, 0, false, 0, [], [], []⟩)] }) fun s =>
      !(s.die 3).retired.contains 63 && decide ((s.die 3).retired.length < 63)) = true ∧
    (holds (st0) fun s => (Assoc.get? s.beryl 255).isNone && !(s.die 3).retired.contains 63) = true ∧
    (holds (st0) fun s => (Assoc.get? s.beryl 255).isNone && !(s.die 3).retired.contains 63) = true ∧
    (holds ({ st0 with beryl := [(255, ⟨2, 0, false, 0, [], [], []⟩)] }) fun s =>
      (Assoc.get? s.beryl (3 * 64 + 63)).isSome) = true ∧
    (holds (st0.setDie 0 { st0.die 0 with links := [(1, ⟨0, 5⟩)] }) fun s =>
      ((Assoc.get? (s.die 0).links 1).getD .zero).lanes == 0) = true ∧
    (holds (st0.setDie 0 { st0.die 0 with links := [(1, ⟨8, 5⟩)] }) fun s =>
      ((Assoc.get? (s.die 0).links 1).getD .zero).lanes != 0) = true ∧
    (holds (st0.setDie 0 { st0.die 0 with links := [(1, ⟨4, 5⟩)] }) fun s =>
      ((Assoc.get? (s.die 0).links 1).getD .zero).lanes != 0) = true ∧
    (holds (st0.setDie 0 { st0.die 0 with links := [(1, ⟨2, 5⟩)] }) fun s =>
      ((Assoc.get? (s.die 0).links 1).getD .zero).lanes != 0) = true := by decide +kernel

/-- O60, where no verdict of SM2 is asked (witness_verdicts has the rest): a closed window and a rejected image; a
signer that is not accepted or not an owner; every request; measurement indices; certificates. -/
theorem witness_BootAndReports :
    (holds ({ State.reset with boot := { State.reset.boot with window := false } }) fun s => !s.boot.window) = true ∧
    (holds ({ State.reset with boot := { State.reset.boot with window := true, owners := [], ownerOnly := true } }) fun s =>
      s.boot.window && s.boot.reject (⟨1, 0x11, 0x22, [1, 2], 5, [3]⟩ : FwImage) == some 1) = true ∧
    (holds ({ State.reset with boot := { State.reset.boot with started := true, owners := [(0, 5)], ownerOnly := true, fw := some (⟨1, 0x11, 0x22, [1, 2], 5, [3]⟩ : FwImage) } }) fun s =>
      s.boot.started && (Assoc.get? s.boot.owners 3).isNone && !s.boot.accepts 6) = true ∧
    (holds ({ State.reset with boot := { State.reset.boot with started := true, owners := [(0, 5)], ownerOnly := true, fw := some (⟨1, 0x11, 0x22, [1, 2], 5, [3]⟩ : FwImage) } }) fun s =>
      s.boot.started && s.boot.fw.isSome && s.boot.owners.all (fun x => x.2 != 6)) = true ∧
    ((holds ({ State.reset with boot := { State.reset.boot with started := true, owners := [(0, 5)], ownerOnly := true, fw := some (⟨1, 0x11, 0x22, [1, 2], 5, [3]⟩ : FwImage) } }) fun s =>
      s.boot.started && s.boot.owners != [] && s.boot.fw.isSome && (report s 3).isSome && (report s 5).isNone &&
      (report s 0).isSome)) = true ∧
    (holds ({ State.reset with boot := { State.reset.boot with started := true, owners := [(0, 5)], ownerOnly := true, fw := some (⟨1, 0x11, 0x22, [1, 2], 5, [3]⟩ : FwImage) } }) fun s =>
      s.boot.started && decide (0 ≠ 1 ∨ s.boot.owners = [])) = true ∧
    (holds ({ State.reset with boot := { State.reset.boot with started := true, owners := [] } }) fun s =>
      s.boot.started && decide (1 ≠ 1 ∨ s.boot.owners = [])) = true := by decide +kernel

/-- O60, where a verdict of SM2 is asked: an image with its own digest is accepted where its signature verifies, and its
payload rejected where the digest is another; an enrolment and an advance are signed by an owner. The verdict itself is a
free value (log 10), so it stays a premise. -/
theorem witness_verdicts (h : ∀ t, Config.sm2Verify 5 t [3] = true) :
    let b : Boot := { State.reset.boot with owners := [(0, 5)], started := true, window := true }
    let i : FwImage := ⟨1, 0x11, Config.sm3 [1, 2], [1, 2], 5, [3]⟩
    b.reject i = none ∧ b.reject { i with digest := ~~~i.digest } = some 2 ∧ Assoc.get? b.owners 3 = none ∧
      b.accepts 5 = true ∧ Config.sm2Verify 5 (toBytes 1 3 ++ toBytes 32 9) [3] = true ∧
      (∃ x ∈ b.owners, x.2 = 5) ∧ Config.sm2Verify 5 (toBytes 1 i.sv) [3] = true := by
  have hn : ∀ x : BitVec 256, ¬ x = ~~~x := by
    intro x e
    have := congrArg (fun y => y.getLsbD 0) e
    simp at this
  refine ⟨?_, ?_, rfl, by decide +kernel, h _, ⟨(0, 5), by simp, rfl⟩, h _⟩
  · simp only [Boot.reject]
    rw [show Config.sm2Verify _ _ _ = true from h _]
    simp [Boot.accepts]
    decide
  · simp only [Boot.reject]
    rw [show Config.sm2Verify _ _ _ = true from h _]
    simp [Boot.accepts, hn]

end Sys2Proof.Tests
end

section
/-! SUPPORT. Device services (O59): the laws of measurement, power, heat and fail-operational steps, and the proof. -/

namespace Sys2Proof.Machine

/-! ### The event log and the die blocks -/

/-- The record an event appends stands first in the log (R447). -/
@[simp] theorem logEvent_log_head? (s : State) (code die data : Nat) : (logEvent s code die data).log.head? =
    some ⟨BitVec.ofNat 8 code, BitVec.ofNat 8 die, s.elHead, s.cycle, BitVec.ofNat 64 data⟩ := rfl

/-- What no die block enters is as it was after several are replaced. -/
theorem foldl_setDie_keeps {α : Type} (p : State → α) (hp : ∀ s d x, p (s.setDie d x) = p s) (f : Die → Die)
    (ds : List Nat) (s : State) : p (ds.foldl (fun s d => s.setDie d (f (s.die d))) s) = p s := by
  induction ds generalizing s with
  | nil => rfl
  | cons d ds ih => rw [List.foldl_cons, ih, hp]

/-- Each die of a list without repetition is changed once, and no other. -/
theorem die_foldl_setDie (f : Die → Die) {ds : List Nat} (hds : ds.Nodup) (s : State) (i : Nat) :
    (ds.foldl (fun s d => s.setDie d (f (s.die d))) s).die i = if i ∈ ds then f (s.die i) else s.die i := by
  induction ds generalizing s with
  | nil => rfl
  | cons d ds ih =>
    obtain ⟨hd, hds⟩ := List.nodup_cons.mp hds
    rw [List.foldl_cons, ih hds, State.die_setDie]
    by_cases hi : i = d
    · subst hi; simp [hd]
    · simp [hi]

/-! ### Measurement (R432) -/

theorem exec_measure_of_lt {c : Nat} (hc : c < 240) (sv : Word) (sgs : List (DWord × DWord)) (s : State) :
    exec (.measure c sv sgs) s = .next (measureStep c sv sgs s) := by
  change execMeasure c sv sgs s = _
  rw [execMeasure, if_pos hc]

/-- Without a request, or without firmware, nothing is measured (R438). -/
theorem measureStep_of_idle {s : State} {c : Nat} (sv : Word) (sgs : List (DWord × DWord))
    (h : (s.ctx c).measReqs = [] ∨ s.boot.started = false) : measureStep c sv sgs s = s := by
  unfold measureStep
  split
  · rfl
  · next ptr rest hr =>
    have hb : s.boot.started = false := h.resolve_left (by simp [hr])
    simp [hb]

/-- What follows the read of the oldest request's list: `measureStep` past that read. -/
def serveList (c : Nat) (sv : Word) (sgs : List (DWord × DWord)) : State × Except Unread (List Byte) → State
  | (s, .error .held) => s
  | (s, .error .unmapped) => dropRequest c s
  | (s, .ok _) =>
    if sv.toNat < (s.ctx c).minsv.toNat then dropRequest c s
    else match measuredText s c (bySegVa sgs) with
      | (s, .error .held) => s
      | (s, .error .unmapped) => dropRequest c s
      | (s, .ok bs) => extendCmr c sv sgs bs (dropRequest c s)

/-- The outcome `r` of the read is a variable here, so that no later step makes Lean run the page walk. -/
theorem measureStep_eq_serveList {s : State} {c : Nat} {ptr : DWord} {rest : List DWord} {sv : Word}
    {sgs : List (DWord × DWord)} {r : State × Except Unread (List Byte)} (hr : (s.ctx c).measReqs = ptr :: rest)
    (hb : s.boot.started = true) (hl : measuredBytes s c [(ptr.toNat % 2 ^ 57, 1)] = r) :
    measureStep c sv sgs s = serveList c sv sgs r := by
  unfold measureStep
  rw [hr]
  dsimp only [-Nat.reducePow]
  generalize hm : measuredBytes s c _ = m
  obtain rfl : m = r := hm.symm.trans hl
  rw [hb]
  rfl

section Serving
variable {s s' : State} {c : Nat} {sv : Word} {sgs : List (DWord × DWord)} (list : List Byte)

/-- A security version below MINSV is refused, and CMR stays. -/
theorem serveList_of_below_minsv (hv : sv.toNat < (s.ctx c).minsv.toNat) :
    serveList c sv sgs (s, .ok list) = dropRequest c s :=
  if_pos hv

variable (hv : (s.ctx c).minsv.toNat ≤ sv.toNat)
include hv

theorem serveList_of_text {bs : List Byte} (ht : measuredText s c (bySegVa sgs) = (s', .ok bs)) :
    serveList c sv sgs (s, .ok list) = extendCmr c sv sgs bs (dropRequest c s') := by
  simp only [serveList, if_neg hv.not_gt, ht]

theorem serveList_of_text_held (ht : measuredText s c (bySegVa sgs) = (s', .error .held)) :
    serveList c sv sgs (s, .ok list) = s' := by
  simp only [serveList, if_neg hv.not_gt, ht]

theorem serveList_of_text_unmapped (ht : measuredText s c (bySegVa sgs) = (s', .error .unmapped)) :
    serveList c sv sgs (s, .ok list) = dropRequest c s' := by
  simp only [serveList, if_neg hv.not_gt, ht]

end Serving

/-! ### Clocks (R446, R449) -/

theorem mem_runningDies {s : State} {i : Nat} (hp : s.phase = .run) (hi : i < 4) : i ∈ runningDies s := by
  rw [runningDies, if_pos hp]
  exact List.mem_range.mpr hi

theorem runningDies_nodup (s : State) : (runningDies s).Nodup := by
  unfold runningDies
  split <;> decide

theorem setClocks_die (f : Nat → Nat) (s : State) (i : Nat) : (setClocks f s).die i =
    if i ∈ runningDies s then { s.die i with clock := f (s.die i).clock } else s.die i :=
  die_foldl_setDie (fun x => { x with clock := f x.clock }) (runningDies_nodup s) s i

theorem setClocks_clock {s : State} {i : Nat} (f : Nat → Nat) (hp : s.phase = .run) (hi : i < 4) :
    ((setClocks f s).die i).clock = f (s.die i).clock := by
  rw [setClocks_die, if_pos (mem_runningDies hp hi)]

@[simp] theorem setClocks_hot (f : Nat → Nat) (s : State) (i : Nat) : ((setClocks f s).die i).hot = (s.die i).hot := by
  rw [setClocks_die]; split <;> rfl

@[simp] theorem setClocks_junction (f : Nat → Nat) (s : State) (i : Nat) :
    ((setClocks f s).die i).junction = (s.die i).junction := by
  rw [setClocks_die]; split <;> rfl

@[simp] theorem setClocks_power (f : Nat → Nat) (s : State) : (setClocks f s).power = s.power :=
  foldl_setDie_keeps State.power (fun _ _ _ => rfl) (fun x => { x with clock := f x.clock }) _ s

@[simp] theorem setClocks_coolant (f : Nat → Nat) (s : State) : (setClocks f s).coolant = s.coolant :=
  foldl_setDie_keeps State.coolant (fun _ _ _ => rfl) (fun x => { x with clock := f x.clock }) _ s

/-! ### Power control (R449, log 24) -/

theorem exec_powerControl_of_started {s : State} (avg now : Nat) (hb : s.boot.started = true) :
    exec (.powerControl avg now) s = .next (powerStep avg now s) := by
  change execPowerControl avg now s = _
  rw [execPowerControl, if_pos hb]

theorem exec_powerControl_of_not_started {s : State} (avg now : Nat) (hb : s.boot.started = false) :
    exec (.powerControl avg now) s = .next s := by
  change execPowerControl avg now s = _
  simp [execPowerControl, hb]

theorem powerStep_of_above {s : State} {avg : Nat} (now : Nat) (h : s.plimit.toNat < avg) :
    powerStep avg now s = setClocks (fun k => max 25 (k - 25)) { s with power := BitVec.ofNat 16 now } :=
  if_pos h

theorem powerStep_of_below {s : State} {avg : Nat} (now : Nat) (h : avg < s.plimit.toNat) (hc : (s.die 0).hot = false) :
    powerStep avg now s = setClocks (fun k => min (nominal s) (k + 25)) { s with power := BitVec.ofNat 16 now } := by
  have hcond : (decide (avg < s.plimit.toNat) && !(s.die 0).hot) = true := by simp [h, hc]
  exact (if_neg h.not_gt).trans (if_pos hcond)

theorem powerStep_of_at {s : State} {avg : Nat} (now : Nat) (h : avg = s.plimit.toNat) :
    powerStep avg now s = { s with power := BitVec.ofNat 16 now } := by
  simp [powerStep, h]

theorem nominal_of_run {s : State} (hp : s.phase = .run) : nominal s = 1100 := if_pos hp

/-! ### Heat (R449) -/

/-- The throttle flag of all four dies set to one value (R449). -/
def setHot (b : Bool) (s : State) : State := (List.range 4).foldl (fun s d => s.setDie d { s.die d with hot := b }) s
/-- The state with a die's junction and the coolant inlet as a reading gives them. -/
def takeReading (die junction coolant : Nat) (s : State) : State :=
  { s.setDie die { s.die die with junction := BitVec.ofNat 8 junction } with coolant := BitVec.ofNat 8 coolant }

/-- A reading is taken; then the throttle begins, ends, or stays as it is. -/
theorem thermalStep_eq (d j k : Nat) (s : State) : thermalStep d j k s =
    let r := takeReading d j k s
    if !(r.die 0).hot && decide (105 ≤ hottest r ∨ 45 ≤ r.coolant.toNat) then
      logEvent (setClocks (fun c => min c 550) (setHot true r)) 0x0B d (hottest r + r.coolant.toNat * 2 ^ 8)
    else if (r.die 0).hot && decide (hottest r ≤ 100 ∧ r.coolant.toNat ≤ 40) then
      logEvent (setClocks (fun _ => nominal r) (setHot false r)) 0x0B d (hottest r + r.coolant.toNat * 2 ^ 8)
    else r := rfl

theorem setHot_die (b : Bool) (s : State) (i : Nat) :
    (setHot b s).die i = if i ∈ List.range 4 then { s.die i with hot := b } else s.die i :=
  die_foldl_setDie (fun x => { x with hot := b }) List.nodup_range s i

theorem setHot_hot {i : Nat} (b : Bool) (s : State) (hi : i < 4) : ((setHot b s).die i).hot = b := by
  rw [setHot_die, if_pos (List.mem_range.mpr hi)]

@[simp] theorem setHot_clock (b : Bool) (s : State) (i : Nat) : ((setHot b s).die i).clock = (s.die i).clock := by
  rw [setHot_die]; split <;> rfl

@[simp] theorem setHot_junction (b : Bool) (s : State) (i : Nat) :
    ((setHot b s).die i).junction = (s.die i).junction := by
  rw [setHot_die]; split <;> rfl

@[simp] theorem setHot_coolant (b : Bool) (s : State) : (setHot b s).coolant = s.coolant :=
  foldl_setDie_keeps State.coolant (fun _ _ _ => rfl) (fun x => { x with hot := b }) _ s

@[simp] theorem setHot_phase (b : Bool) (s : State) : (setHot b s).phase = s.phase :=
  foldl_setDie_keeps State.phase (fun _ _ _ => rfl) (fun x => { x with hot := b }) _ s

@[simp] theorem takeReading_phase (d j k : Nat) (s : State) : (takeReading d j k s).phase = s.phase := rfl

theorem takeReading_die (d j k : Nat) (s : State) (i : Nat) : (takeReading d j k s).die i =
    if i = d then { s.die d with junction := BitVec.ofNat 8 j } else s.die i :=
  State.die_setDie s d i _

@[simp] theorem takeReading_hot (d j k : Nat) (s : State) (i : Nat) :
    ((takeReading d j k s).die i).hot = (s.die i).hot := by
  rw [takeReading_die]; split
  · next h => rw [h]
  · rfl

@[simp] theorem takeReading_clock (d j k : Nat) (s : State) (i : Nat) :
    ((takeReading d j k s).die i).clock = (s.die i).clock := by
  rw [takeReading_die]; split
  · next h => rw [h]
  · rfl

theorem takeReading_junction {j : Nat} (hj : j < 256) (d k : Nat) (s : State) (i : Nat) :
    ((takeReading d j k s).die i).junction.toNat = if i = d then j else (s.die i).junction.toNat := by
  rw [takeReading_die]; split
  · exact (BitVec.toNat_ofNat j 8).trans (Nat.mod_eq_of_lt hj)
  · rfl

theorem takeReading_coolant {k : Nat} (hk : k < 256) (d j : Nat) (s : State) :
    (takeReading d j k s).coolant.toNat = k :=
  (BitVec.toNat_ofNat k 8).trans (Nat.mod_eq_of_lt hk)

/-- The hottest junction is the least bound of the four. -/
theorem hottest_le_iff (s : State) (n : Nat) : hottest s ≤ n ↔ ∀ i, i < 4 → (s.die i).junction.toNat ≤ n := by
  simp only [hottest, List.range_succ, List.range_zero, List.nil_append, List.cons_append, List.foldl_cons,
    List.foldl_nil, Nat.forall_lt_succ_right, max_le_iff]
  simp

theorem junction_le_hottest {i : Nat} (s : State) (hi : i < 4) : (s.die i).junction.toNat ≤ hottest s :=
  (hottest_le_iff s _).mp le_rfl i hi

theorem exec_thermalThrottle_of_lt {d : Nat} (hd : d < 4) (j k : Nat) (s : State) :
    exec (.thermalThrottle d j k) s = .next (thermalStep d j k s) := by
  change execThermalThrottle d j k s = _
  rw [execThermalThrottle, if_pos hd]

/-- Whatever the throttle does, the reading stays. -/
theorem thermalStep_reading (d j k : Nat) (s : State) (i : Nat) :
    ((thermalStep d j k s).die i).junction = ((takeReading d j k s).die i).junction ∧
    (thermalStep d j k s).coolant = (takeReading d j k s).coolant := by
  rw [thermalStep_eq]
  dsimp only
  split
  · simp
  · split <;> simp

/-- A die at 105 degrees or coolant at 45 throttles every die to 550 MHz. -/
theorem thermalStep_throttles {s : State} {d j k i : Nat} (hd : d < 4) (hj : j < 256) (hk : k < 256)
    (hp : s.phase = .run) (hot : (s.die 0).hot = false) (h : 105 ≤ j ∨ 45 ≤ k) (hi : i < 4) :
    ((thermalStep d j k s).die i).hot = true ∧ ((thermalStep d j k s).die i).clock = min (s.die i).clock 550 := by
  have hh : 105 ≤ hottest (takeReading d j k s) ∨ 45 ≤ (takeReading d j k s).coolant.toNat := by
    rw [takeReading_coolant hk]
    refine h.imp_left fun h => h.trans ?_
    have := junction_le_hottest (takeReading d j k s) hd
    rwa [takeReading_junction hj, if_pos rfl] at this
  rw [thermalStep_eq]
  dsimp only
  rw [if_pos (by simp [hot, hh]), State.die_logEvent]
  refine ⟨?_, ?_⟩
  · rw [setClocks_hot, setHot_hot _ _ hi]
  · rw [setClocks_clock _ (by simpa using hp) hi, setHot_clock, takeReading_clock]

/-- With every die at 100 degrees and the coolant at 40 at most, the throttle ends. -/
theorem thermalStep_recovers {s : State} {d j k i : Nat} (hj : j < 256) (hk : k < 256)
    (hp : s.phase = .run) (hot : (s.die 0).hot = true) (hc : k ≤ 40)
    (h : ∀ i, i < 4 → (if i = d then j else (s.die i).junction.toNat) ≤ 100) (hi : i < 4) :
    ((thermalStep d j k s).die i).hot = false ∧ ((thermalStep d j k s).die i).clock = 1100 := by
  have hh : hottest (takeReading d j k s) ≤ 100 :=
    (hottest_le_iff _ _).mpr fun i hi => by rw [takeReading_junction hj]; exact h i hi
  rw [thermalStep_eq]
  dsimp only
  rw [if_neg (by simp [hot]), if_pos (by simp [hot, hh, takeReading_coolant hk, hc]), State.die_logEvent]
  refine ⟨?_, ?_⟩
  · rw [setClocks_hot, setHot_hot _ _ hi]
  · rw [setClocks_clock _ (by simpa using hp) hi, nominal_of_run (by simpa using hp)]

/-! ### Harts and spare cores (R12, R14, R448) -/

theorem exec_watchdogExpiry_of_not_started {s : State} (d h : Nat) (hb : s.boot.started = false) :
    exec (.watchdogExpiry d h) s = .next s := by
  change execWatchdogExpiry d h s = _
  simp [execWatchdogExpiry, hb]

theorem exec_watchdogExpiry_of_started {s : State} {d : Nat} (h : Nat) (hd : d < 4) (hb : s.boot.started = true) :
    exec (.watchdogExpiry d h) s = .next (watchdogStep d h s) := by
  change execWatchdogExpiry d h s = _
  rw [execWatchdogExpiry, if_pos ⟨hd, hb⟩]

/-- The state in which a die's hart is stopped. -/
def stopHart (d h : Nat) (s : State) : State :=
  s.setDie d { s.die d with harts := (s.die d).harts &&& ~~~(1#4 <<< h) }

theorem watchdogStep_of_running {s : State} {d h : Nat} (hh : (s.die d).harts.getLsbD h = true) :
    watchdogStep d h s = logEvent (stopHart d h s) 0x06 d (h + successorDie (stopHart d h s) d * 2 ^ 8) := by
  simp [watchdogStep, stopHart, hh]

theorem stopHart_getLsbD {k : Nat} (s : State) (d h : Nat) (hk : k < 4) :
    ((stopHart d h s).die d).harts.getLsbD k = ((s.die d).harts.getLsbD k && decide (k ≠ h)) := by
  have hbit : (~~~(1#4 <<< h)).getLsbD k = decide (k ≠ h) := by
    simp only [BitVec.getLsbD_not, BitVec.getLsbD_shiftLeft, BitVec.getLsbD_one, hk]
    grind
  simp [stopHart, hbit]

theorem exec_spareCoreSubstitution_of_lt {core : Nat} (hc : core < 768) (s : State) :
    exec (.spareCoreSubstitution core) s = .next (spareCoreStep core s) := by
  change execSpareCoreSubstitution core s = _
  rw [execSpareCoreSubstitution, if_pos hc]

theorem spareCoreStep_of_none {s : State} {core : Nat} (h : (s.die (coreDie core)).spares = 0) :
    spareCoreStep core s = s := if_pos h

theorem spareCoreStep_of_some {s : State} {core : Nat} (h : 0 < (s.die (coreDie core)).spares) :
    spareCoreStep core s = logEvent (s.setDie (coreDie core)
      { s.die (coreDie core) with spares := (s.die (coreDie core)).spares - 1 }) 0x01 (coreDie core) core :=
  if_neg h.ne'

/-! ### Evictions (R99) -/

/-- Cleaning a sector touches no other line of the L2. -/
theorem l2CleanSec_l2_other (s : State) {n m : Nat} (i : Nat) (h : m ≠ n) :
    Assoc.get? (l2CleanSec s n i).l2 m = Assoc.get? s.l2 m := by
  unfold l2CleanSec; dsimp only; split
  · exact Assoc.get?_put_other _ _ h
  · rfl

theorem l2CleanSec_dies (s : State) (n i : Nat) : (l2CleanSec s n i).dies = s.dies := by
  unfold l2CleanSec; dsimp only; split <;> rfl

theorem l2CleanSec_beryl (s : State) (n i : Nat) : (l2CleanSec s n i).beryl = s.beryl := by
  unfold l2CleanSec; dsimp only; split <;> rfl

@[simp] theorem l2Evict_dies (s : State) (n : Nat) : (l2Evict s n).dies = s.dies :=
  (l2CleanSec_dies (l2CleanSec s n 0) n 1).trans (l2CleanSec_dies s n 0)

@[simp] theorem l2Evict_beryl (s : State) (n : Nat) : (l2Evict s n).beryl = s.beryl :=
  (l2CleanSec_beryl (l2CleanSec s n 0) n 1).trans (l2CleanSec_beryl s n 0)

/-- An eviction drops its line and leaves every other one. -/
theorem l2Evict_l2 (s : State) (n m : Nat) :
    Assoc.get? (l2Evict s n).l2 m = if m = n then none else Assoc.get? s.l2 m := by
  change Assoc.get? (Assoc.del (l2Clean s n).l2 n) m = _
  rw [Assoc.get?_del]
  split
  · rfl
  · next h => exact (l2CleanSec_l2_other _ 1 h).trans (l2CleanSec_l2_other s 0 h)

theorem foldl_l2Evict_dies (ls : List Nat) (s : State) : (ls.foldl l2Evict s).dies = s.dies := by
  induction ls generalizing s with
  | nil => rfl
  | cons n ls ih => rw [List.foldl_cons, ih, l2Evict_dies]

theorem foldl_l2Evict_beryl (ls : List Nat) (s : State) : (ls.foldl l2Evict s).beryl = s.beryl := by
  induction ls generalizing s with
  | nil => rfl
  | cons n ls ih => rw [List.foldl_cons, ih, l2Evict_beryl]

/-- Evictions one after another drop exactly the lines of the list. -/
theorem foldl_l2Evict_l2 (ls : List Nat) (s : State) (m : Nat) :
    Assoc.get? (ls.foldl l2Evict s).l2 m = if m ∈ ls then none else Assoc.get? s.l2 m := by
  induction ls generalizing s with
  | nil => rfl
  | cons n ls ih =>
    rw [List.foldl_cons, ih, l2Evict_l2]
    by_cases h : m = n <;> simp [h]

/-! ### Slices and banks (R100, R303, log 25) -/

/-- After a slice's bank is lost there is none. -/
theorem loseBank_beryl (d n : Nat) (s : State) : Assoc.get? (loseBank d n s).beryl (d * 64 + n) = none := by
  unfold loseBank; dsimp only; split
  · next h => exact Option.isNone_iff_eq_none.mp h
  · exact Assoc.get?_del_self ..

theorem loseBank_dies (d n : Nat) (s : State) : (loseBank d n s).dies = s.dies := by
  unfold loseBank; dsimp only; split <;> rfl

theorem loseBank_of_some {s : State} {d n : Nat} (h : (Assoc.get? s.beryl (d * 64 + n)).isSome = true) :
    loseBank d n s = logEvent { s with beryl := Assoc.del s.beryl (d * 64 + n) } 0x08 d (d * 64 + n) :=
  if_neg (by simp [Option.isSome_iff_ne_none.mp h])

theorem exec_sliceRetire_of_lt {d n : Nat} (hd : d < 4) (hn : n < 64) (s : State) :
    exec (.sliceRetire d n) s = .next (retireStep d n s) := by
  change execSliceRetire d n s = _
  rw [execSliceRetire, if_pos ⟨hd, hn⟩]

/-- The state in which a slice's bank is lost and its lines are evicted. -/
def emptySlice (d n : Nat) (s : State) : State := (sliceLines s d n).foldl l2Evict (loseBank d n s)

theorem emptySlice_die (d n : Nat) (s : State) (i : Nat) : (emptySlice d n s).die i = s.die i := by
  have h : (emptySlice d n s).dies = s.dies := (foldl_l2Evict_dies _ _).trans (loseBank_dies ..)
  simp only [State.die, h]

theorem emptySlice_beryl (d n : Nat) (s : State) : Assoc.get? (emptySlice d n s).beryl (d * 64 + n) = none := by
  rw [emptySlice, foldl_l2Evict_beryl, loseBank_beryl]

theorem emptySlice_l2 {s : State} {d n l : Nat} (hl : l ∈ sliceLines s d n) :
    Assoc.get? (emptySlice d n s).l2 l = none := by
  rw [emptySlice, foldl_l2Evict_l2, if_pos hl]

/-- A slice of a die with more than one left is emptied and listed as retired. -/
theorem retireStep_of_standing {s : State} {d n : Nat} (hc : (s.die d).retired.contains n = false)
    (hl : (s.die d).retired.length < 63) : retireStep d n s =
      logEvent ((emptySlice d n s).setDie d { s.die d with retired := n :: (s.die d).retired }) 0x02 d n := by
  unfold retireStep
  dsimp only
  rw [if_neg (by rw [hc]; exact Bool.false_ne_true), if_neg (by omega)]
  change logEvent ((emptySlice d n s).setDie d { (emptySlice d n s).die d with retired := _ }) _ _ _ = _
  rw [emptySlice_die]

theorem exec_bankCarve_of_lt {b : Nat} (hb : b < 256) (ways : Nat) (s : State) :
    exec (.bankCarve b ways) s = .next (carveStep b ways s) := by
  change execBankCarve b ways s = _
  rw [execBankCarve, if_pos hb]

theorem carveStep_zero (b : Nat) (s : State) : carveStep b 0 s = { s with beryl := Assoc.del s.beryl b } := rfl

theorem carveStep_of_free {s : State} {b ways : Nat} (h1 : 1 ≤ ways) (h4 : ways ≤ 4) (hn : Assoc.get? s.beryl b = none)
    (hr : (s.die (b / 64)).retired.contains (b % 64) = false) :
    carveStep b ways s = { s with beryl := Assoc.put s.beryl b ⟨ways, 0, false, 0, [], [], []⟩ } := by
  unfold carveStep
  have hfree : ¬(4 < ways ∨ (Assoc.get? s.beryl b).isSome ∨ (s.die (b / 64)).retired.contains (b % 64)) := by
    rw [hn, hr]
    simpa using h4
  rw [if_neg (by omega), if_neg hfree]

theorem exec_sliceFailure_of_lt {d n : Nat} (hd : d < 4) (hn : n < 64) (s : State) :
    exec (.sliceFailure d n) s = .next (loseBank d n s) := by
  change execSliceFailure d n s = _
  rw [execSliceFailure, if_pos ⟨hd, hn⟩]

/-! ### Links (R444) -/

/-- A die's link as it stands. -/
def linkOf (x : Die) (k : Nat) : Link := (Assoc.get? x.links k).getD .zero

theorem exec_linkLaneDrop_of_lt {d k : Nat} (hd : d < 4) (hk : k < 4) (s : State) :
    exec (.linkLaneDrop d k) s = .next (laneDropStep d k s) := by
  change execLinkLaneDrop d k s = _
  rw [execLinkLaneDrop, if_pos ⟨hd, hk⟩]

theorem laneDropStep_of_down {s : State} {d k : Nat} (h : (linkOf (s.die d) k).lanes = 0) : laneDropStep d k s = s :=
  if_pos h

theorem laneDropStep_lanes {s : State} {d k : Nat} (h : (linkOf (s.die d) k).lanes ≠ 0) :
    (linkOf ((laneDropStep d k s).die d) k).lanes = fewerLanes (linkOf (s.die d) k).lanes := by
  have hs : laneDropStep d k s = logEvent (s.setDie d { s.die d with
      links := Assoc.put (s.die d).links k { linkOf (s.die d) k with lanes := fewerLanes (linkOf (s.die d) k).lanes } })
      0x05 d (k + fewerLanes (linkOf (s.die d) k).lanes * 2 ^ 8) := if_neg h
  rw [hs, State.die_logEvent, State.die_setDie_self]
  simp only [linkOf, Assoc.get?_put_self, Option.getD_some]

/-! ### The statement -/

/-- Settles O59: each clause by the law of its step, above. -/
theorem deviceServices : Obligations.DeviceServices := by
  unfold Obligations.DeviceServices
  refine ⟨?measure, fun s avg now hb => exec_powerControl_of_not_started avg now hb, ?power, ?heat,
    fun s d h hb => exec_watchdogExpiry_of_not_started d h hb, ?watchdog, ?spare, ?retire, ?carve, ?failure, ?link⟩
  case measure =>
    intro s c sv sgs hc done
    rw [exec_measure_of_lt hc]
    refine ⟨fun h => congrArg _ (measureStep_of_idle sv sgs h), fun ptr rest hr hb => ⟨fun s1 hl => ?_, fun s1 hl => ?_,
      fun s1 list hl => ⟨fun hv => ?_, fun hv => ⟨fun s2 bs ht => ?_, fun s2 ht => ?_, fun s2 ht => ?_⟩⟩⟩⟩
    · exact congrArg _ (measureStep_eq_serveList hr hb hl)
    · exact congrArg _ (measureStep_eq_serveList hr hb hl)
    · exact congrArg _ ((measureStep_eq_serveList hr hb hl).trans (serveList_of_below_minsv list hv))
    · exact congrArg _ ((measureStep_eq_serveList hr hb hl).trans (serveList_of_text list hv ht))
    · exact congrArg _ ((measureStep_eq_serveList hr hb hl).trans (serveList_of_text_held list hv ht))
    · exact congrArg _ ((measureStep_eq_serveList hr hb hl).trans (serveList_of_text_unmapped list hv ht))
  case power =>
    intro s avg now hp hb
    rw [exec_powerControl_of_started avg now hb]
    refine ⟨fun h => ⟨_, rfl, ?_⟩, fun h hc => ⟨_, rfl, fun d hd => ?_⟩, fun h => congrArg _ (powerStep_of_at now h)⟩
    · rw [powerStep_of_above now h]
      exact ⟨setClocks_power .., fun d hd => setClocks_clock _ hp hd⟩
    · rw [powerStep_of_below now h hc, nominal_of_run hp]
      exact setClocks_clock _ hp hd
  case heat =>
    intro s d j k hd hj hk hp
    obtain ⟨hjunction, hcoolant⟩ := thermalStep_reading d j k s d
    refine ⟨_, exec_thermalThrottle_of_lt hd j k s, ?_, ?_, fun hot h i hi => thermalStep_throttles hd hj hk hp hot h hi,
      fun hot hc h i hi => thermalStep_recovers hj hk hp hot hc h hi⟩
    · rw [hjunction, takeReading_junction hj, if_pos rfl]
    · rw [hcoolant, takeReading_coolant hk]
  case watchdog =>
    intro s d h hd _ hb hh
    refine ⟨_, exec_watchdogExpiry_of_started h hd hb, ?_⟩
    rw [watchdogStep_of_running hh]
    exact ⟨fun k hk => stopHart_getLsbD s d h hk, _, logEvent_log_head? .., rfl, rfl⟩
  case spare =>
    intro s core hc
    rw [exec_spareCoreSubstitution_of_lt hc]
    refine ⟨fun h => congrArg _ (spareCoreStep_of_none h), fun h => ⟨_, rfl, ?_⟩⟩
    rw [spareCoreStep_of_some h]
    exact ⟨rfl, by simp, _, logEvent_log_head? .., rfl, rfl⟩
  case retire =>
    intro s d n hd hn hc hl
    refine ⟨_, exec_sliceRetire_of_lt hd hn s, ?_⟩
    rw [retireStep_of_standing hc hl]
    exact ⟨by simp, emptySlice_beryl d n s, fun l hl => emptySlice_l2 hl⟩
  case carve =>
    intro s b ways hb
    rw [exec_bankCarve_of_lt hb]
    refine ⟨fun h => ⟨_, rfl, ?_⟩, fun h1 h4 hn hr => ⟨_, ⟨ways, 0, false, 0, [], [], []⟩, rfl, ?_, rfl, rfl, rfl, rfl⟩⟩
    · rw [h, carveStep_zero]
      exact Assoc.get?_del_self ..
    · rw [carveStep_of_free h1 h4 hn hr]
      exact Assoc.get?_put_self ..
  case failure =>
    intro s d n hd hn h
    refine ⟨_, exec_sliceFailure_of_lt hd hn s, loseBank_beryl d n s, ?_⟩
    rw [loseBank_of_some h]
    exact ⟨_, logEvent_log_head? .., rfl⟩
  case link =>
    intro s d k hd hk l
    rw [exec_linkLaneDrop_of_lt hd hk]
    exact ⟨fun h => congrArg _ (laneDropStep_of_down h), fun h => ⟨_, rfl, laneDropStep_lanes h⟩⟩

end Sys2Proof.Machine
end

section
/-! SUPPORT. The parts of a word (O1, O2): operand fields, and the fields of every kind of word, are read back from the bits
they were joined into. -/

namespace Sys2Proof
open Machine

/-! ### Operand fields (R22) -/

/-- No bit of an operand field is lost. -/
theorem opndBits_opndOf : ∀ x : BitVec 10, opndBits (opndOf x) = x := by decide

/-- The one operand whose bits read as another: 0x3FF is none. -/
theorem opndOf_opndBits {o : Opnd} (h : o ≠ .rsvHi 127) : opndOf (opndBits o) = o := by
  cases o with
  | v n | imm n => revert n; decide
  | s n | sr n => revert n; decide
  | b n | lf n | q n | p n | a n | o n => revert n; decide
  | rsvLo n => revert n; decide
  | rsvHi n => revert n; decide
  | none => rfl

/-! ### Parts of a word -/

theorem extract_high {v w : Nat} (hi : BitVec v) (lo : BitVec w) : (hi ++ lo).extractLsb' w v = hi :=
  BitVec.extractLsb'_append_eq_left

theorem extract_low {v w s l : Nat} {hi : BitVec v} {lo : BitVec w} {r : BitVec l} (hr : lo.extractLsb' s l = r)
    (h : s + l ≤ w := by decide) : (hi ++ lo).extractLsb' s l = r :=
  (BitVec.extractLsb'_append_eq_of_add_le h).trans hr

/-- A part put before the parts below it. -/
theorem append_low {n k l : Nat} {w : BitVec n} {lo : BitVec k} (h : lo = w.extractLsb' 0 k) :
    w.extractLsb' k l ++ lo = w.extractLsb' 0 (l + k) := by
  rw [h, BitVec.extractLsb'_append_extractLsb'_eq_extractLsb' (Nat.zero_add k).symm]

theorem extract_setWidth {n m : Nat} (h : n ≤ m) (x : BitVec n) : (x.setWidth m).extractLsb' 0 n = x := by
  apply BitVec.eq_of_toNat_eq
  have := x.isLt
  rw [BitVec.extractLsb'_toNat, BitVec.toNat_setWidth_of_le h, Nat.shiftRight_zero, Nat.mod_eq_of_lt this]

theorem setWidth_extract {n m : Nat} (h : n ≤ m) {x : BitVec m} (hx : x.toNat < 2 ^ n) :
    (x.extractLsb' 0 n).setWidth m = x := by
  apply BitVec.eq_of_toNat_eq
  rw [BitVec.toNat_setWidth_of_le h, BitVec.extractLsb'_toNat, Nat.shiftRight_zero, Nat.mod_eq_of_lt hx]

/-! ### The SLK word (R21, R27) -/

/-- The fields of a word that its middle holds. -/
def Slk.mid (f : Slk) : Mid := ⟨f.fe, f.s2, f.s3, f.s4, f.ext⟩

/-- The three operand fields of a middle without `ext` are read back. -/
theorem append_operands (m : BitVec 33) : m.extractLsb' 30 3 ++ (opndBits (opndOf (m.extractLsb' 20 10)) ++
    (opndBits (opndOf (m.extractLsb' 10 10)) ++ opndBits (opndOf (m.extractLsb' 0 10)))) = m := by
  simp only [opndBits_opndOf]
  exact Eq.trans (append_low (append_low (append_low rfl))) BitVec.extractLsb'_eq_self

theorem midBits_of_mid {beryl : Bool} {f : Slk} {m : BitVec 33} (h : f.mid = midOf beryl f.fmt m) :
    midBits beryl f = m := by
  simp only [Slk.mid, midOf] at h
  unfold midBits
  split <;> rename_i hf <;> simp only [hf] at h
  case h_1 =>
    obtain ⟨hfe, hs2, -, -, he⟩ := Mid.mk.inj h
    rw [hfe, hs2, he, extract_setWidth (by decide), opndBits_opndOf]
    exact Eq.trans (append_low (append_low rfl)) BitVec.extractLsb'_eq_self
  case h_2 =>
    obtain ⟨hfe, -, -, -, he⟩ := Mid.mk.inj h
    rw [hfe, he, extract_high]
    exact Eq.trans (append_low rfl) BitVec.extractLsb'_eq_self
  case h_3 =>
    split at h <;> rename_i hb <;> obtain ⟨hfe, hs2, hs3, hs4, he⟩ := Mid.mk.inj h
    · rw [if_pos hb, hfe, hs2, hs3, hs4]
      exact append_operands m
    · rw [if_neg hb, hfe, hs2, hs3, he, extract_setWidth (by decide), opndBits_opndOf, opndBits_opndOf]
      exact Eq.trans (append_low (append_low (append_low rfl))) BitVec.extractLsb'_eq_self
  case h_4 =>
    obtain ⟨hfe, -, -, -, he⟩ := Mid.mk.inj h
    rw [hfe, he, extract_setWidth (by decide)]
    exact Eq.trans (append_low rfl) BitVec.extractLsb'_eq_self
  case h_5 =>
    obtain ⟨hfe, hs2, hs3, hs4, -⟩ := Mid.mk.inj h
    rw [hfe, hs2, hs3, hs4]
    exact append_operands m

/-- An operand field whose bits read as itself (R22). -/
def Readable (o : Opnd) : Prop := o ≠ .rsvHi 127

section Reading
variable {s2 s3 s4 : Opnd} (h2 : Readable s2) (h3 : Readable s3) (h4 : Readable s4)
include h2

/-- A middle of one operand field and imm20 (RRI). -/
theorem read_imm20 (fe : BitVec 3) {x : BitVec 32} (hx : x.toNat < 2 ^ 20) {m : BitVec 33}
    (hm : m = fe ++ (x.extractLsb' 0 20 ++ opndBits s2)) :
    m.extractLsb' 30 3 = fe ∧ opndOf (m.extractLsb' 0 10) = s2 ∧ (m.extractLsb' 10 20).setWidth 32 = x := by
  have e0 : m.extractLsb' 0 10 = opndBits s2 :=
    hm ▸ extract_low (extract_low BitVec.extractLsb'_eq_self)
  have e1 : m.extractLsb' 10 20 = x.extractLsb' 0 20 := hm ▸ extract_low (extract_high _ _)
  rw [e0, e1, opndOf_opndBits h2, setWidth_extract (by decide) hx]
  exact ⟨hm ▸ extract_high _ _, rfl, rfl⟩

include h3

/-- A middle of two operand fields and DISP10 (MEM). -/
theorem read_disp10 (fe : BitVec 3) {x : BitVec 32} (hx : x.toNat < 2 ^ 10) {m : BitVec 33}
    (hm : m = fe ++ (x.extractLsb' 0 10 ++ (opndBits s3 ++ opndBits s2))) :
    m.extractLsb' 30 3 = fe ∧ opndOf (m.extractLsb' 0 10) = s2 ∧ opndOf (m.extractLsb' 10 10) = s3 ∧
      (m.extractLsb' 20 10).setWidth 32 = x := by
  have e0 : m.extractLsb' 0 10 = opndBits s2 :=
    hm ▸ extract_low (extract_low (extract_low BitVec.extractLsb'_eq_self))
  have e1 : m.extractLsb' 10 10 = opndBits s3 :=
    hm ▸ extract_low (extract_low (extract_high _ _))
  have e2 : m.extractLsb' 20 10 = x.extractLsb' 0 10 := hm ▸ extract_low (extract_high _ _)
  rw [e0, e1, e2, opndOf_opndBits h2, opndOf_opndBits h3, setWidth_extract (by decide) hx]
  exact ⟨hm ▸ extract_high _ _, rfl, rfl, rfl⟩

include h4

/-- A middle of three operand fields. -/
theorem read_operands (fe : BitVec 3) {m : BitVec 33}
    (hm : m = fe ++ (opndBits s4 ++ (opndBits s3 ++ opndBits s2))) :
    m.extractLsb' 30 3 = fe ∧ opndOf (m.extractLsb' 0 10) = s2 ∧ opndOf (m.extractLsb' 10 10) = s3 ∧
      opndOf (m.extractLsb' 20 10) = s4 := by
  have e0 : m.extractLsb' 0 10 = opndBits s2 :=
    hm ▸ extract_low (extract_low (extract_low BitVec.extractLsb'_eq_self))
  have e1 : m.extractLsb' 10 10 = opndBits s3 :=
    hm ▸ extract_low (extract_low (extract_high _ _))
  have e2 : m.extractLsb' 20 10 = opndBits s4 := hm ▸ extract_low (extract_high _ _)
  rw [e0, e1, e2, opndOf_opndBits h2, opndOf_opndBits h3, opndOf_opndBits h4]
  exact ⟨hm ▸ extract_high _ _, rfl, rfl, rfl⟩

end Reading

/-- imm32 leaves of FE its highest bit (RI32). -/
theorem read_fe2 : ∀ fe : BitVec 3, fe &&& 3 = 0 → fe.extractLsb' 2 1 ++ 0#2 = fe := by decide

theorem midOf_midBits {opc : Nat} {f : Slk} (hc : slkCanon opc f = true) (h2 : Readable f.s2) (h3 : Readable f.s3)
    (h4 : Readable f.s4) : midOf (berylOp opc) f.fmt (midBits (berylOp opc) f) = f.mid := by
  unfold slkCanon at hc
  unfold midOf Slk.mid
  generalize hm : midBits (berylOp opc) f = m
  unfold midBits at hm
  split at hc <;> rename_i hf <;> simp only [hf] at hm ⊢
  case h_1 =>
    obtain ⟨hs3, hs4, he⟩ := of_decide_eq_true hc
    obtain ⟨r3, r0, r1⟩ := read_imm20 h2 f.fe he hm.symm
    rw [r3, r0, r1, hs3, hs4]
  case h_2 =>
    obtain ⟨hs2, hs3, hs4, hfe⟩ := of_decide_eq_true hc
    have e0 : m.extractLsb' 0 32 = f.ext := hm ▸ extract_low BitVec.extractLsb'_eq_self
    have e1 : m.extractLsb' 32 1 = f.fe.extractLsb' 2 1 := hm ▸ extract_high _ _
    rw [e0, e1, read_fe2 _ hfe, hs2, hs3, hs4]
  case h_3 =>
    split at hc <;> rename_i hb
    · rw [if_pos hb] at hm ⊢
      have he := of_decide_eq_true hc
      obtain ⟨r3, r0, r1, r2⟩ := read_operands h2 h3 h4 f.fe hm.symm
      rw [r3, r0, r1, r2, he]
    · rw [if_neg hb] at hm ⊢
      obtain ⟨hs4, he⟩ := of_decide_eq_true hc
      obtain ⟨r3, r0, r1, r2⟩ := read_disp10 h2 h3 f.fe he hm.symm
      rw [r3, r0, r1, r2, hs4]
  case h_4 =>
    obtain ⟨hs2, hs3, hs4, he⟩ := of_decide_eq_true hc
    have e0 : m.extractLsb' 0 30 = f.ext.extractLsb' 0 30 := hm ▸ extract_low BitVec.extractLsb'_eq_self
    have e1 : m.extractLsb' 30 3 = f.fe := hm ▸ extract_high _ _
    rw [e0, e1, setWidth_extract (by decide) he, hs2, hs3, hs4]
  case h_5 =>
    have he := of_decide_eq_true hc
    obtain ⟨r3, r0, r1, r2⟩ := read_operands h2 h3 h4 f.fe hm.symm
    rw [r3, r0, r1, r2, he]

/-- Every bit of a word stands in one of its fields. -/
theorem joinSlk_splitSlk (w : BitVec 96) : joinSlk (w.extractLsb' 0 9) (splitSlk w) = w := by
  have hm : midBits (berylOp (w.extractLsb' 0 9).toNat) (splitSlk w) = w.extractLsb' 42 33 := midBits_of_mid rfl
  rw [joinSlk, hm]
  simp only [splitSlk, opndBits_opndOf]
  exact Eq.trans (append_low <| append_low <| append_low <| append_low <| append_low <| append_low <| append_low <|
    append_low <| append_low <| append_low <| append_low rfl) BitVec.extractLsb'_eq_self

/-- A part that is a whole word. -/
theorem extract_all {w s : Nat} (x : BitVec w) (h : s = 0) : x.extractLsb' s w = x := by
  rw [h, BitVec.extractLsb'_eq_self]

/-- A word as its parts in their own widths, in which the parts can be read. -/
theorem joinSlk_eq_cast (opc : BitVec 9) (f : Slk) : joinSlk opc f = BitVec.cast (by decide)
    (f.reuse ++ (f.yld ++ (f.stall ++ (f.ch ++ (f.mod ++ (midBits (berylOp opc.toNat) f ++
      (opndBits f.s1 ++ (opndBits f.d ++ (f.gb ++ (f.ga ++ (f.fmt ++ opc))))))))))) := rfl

theorem extract_joinSlk (opc : BitVec 9) (f : Slk) : (joinSlk opc f).extractLsb' 0 9 = opc := by
  simp (disch := decide) only [joinSlk_eq_cast, BitVec.extractLsb'_cast, BitVec.extractLsb'_append_eq_of_add_le,
    extract_all]

/-- The fields of a word are read back from it. -/
theorem splitSlk_joinSlk {opc : BitVec 9} {f : Slk} (hc : slkCanon opc.toNat f = true) (hd : Readable f.d)
    (h1 : Readable f.s1) (h2 : Readable f.s2) (h3 : Readable f.s3) (h4 : Readable f.s4) :
    splitSlk (joinSlk opc f) = f := by
  simp (disch := decide) only [splitSlk, joinSlk_eq_cast, BitVec.extractLsb'_cast, BitVec.extractLsb'_append_eq_of_le,
    BitVec.extractLsb'_append_eq_of_add_le, extract_all, midOf_midBits hc h2 h3 h4, opndOf_opndBits hd,
    opndOf_opndBits h1, Slk.mid]

/-! ### The repeat word (R50) and the engines' words (R244, R290) -/

theorem joinPfx_eq_cast (p : Pfx) : joinPfx p = BitVec.cast (by decide)
    (p.rsvHi ++ (p.ds3 ++ (p.ds2 ++ (p.ds1 ++ (p.dd ++ (p.rsvLo ++ (p.count ++ (p.gb ++ (p.ga ++
      (p.fmt ++ 0x1FE#9)))))))))) := rfl

theorem extract_joinPfx (p : Pfx) : (joinPfx p).extractLsb' 0 9 = 0x1FE#9 := by
  simp (disch := decide) only [joinPfx_eq_cast, BitVec.extractLsb'_cast, BitVec.extractLsb'_append_eq_of_add_le,
    extract_all]

theorem splitPfx_joinPfx (p : Pfx) : splitPfx (joinPfx p) = p := by
  simp (disch := decide) only [splitPfx, joinPfx_eq_cast, BitVec.extractLsb'_cast, BitVec.extractLsb'_append_eq_of_le,
    BitVec.extractLsb'_append_eq_of_add_le, extract_all]

theorem joinPfx_splitPfx {w : BitVec 96} (h : w.extractLsb' 0 9 = 0x1FE#9) : joinPfx (splitPfx w) = w :=
  Eq.trans (append_low <| append_low <| append_low <| append_low <| append_low <| append_low <| append_low <|
    append_low <| append_low <| append_low h.symm) BitVec.extractLsb'_eq_self

theorem joinCit_eq_cast (op : BitVec 5) (c : Cit) : joinCit op c = BitVec.cast (by decide)
    (0#1 ++ (c.g ++ (c.sat ++ (c.st ++ (c.t ++ (c.ck ++ (c.xc ++ (c.xb ++ (c.xa ++ (c.xd ++ op)))))))))) := rfl

theorem extract_joinCit (op : BitVec 5) (c : Cit) :
    (joinCit op c).extractLsb' 0 5 = op ∧ (joinCit op c).extractLsb' 31 1 = 0 := by
  constructor <;> simp (disch := decide) only [joinCit_eq_cast, BitVec.extractLsb'_cast,
    BitVec.extractLsb'_append_eq_of_le, BitVec.extractLsb'_append_eq_of_add_le, extract_all]
  rfl

theorem splitCit_joinCit (op : BitVec 5) (c : Cit) : splitCit (joinCit op c) = c := by
  simp (disch := decide) only [splitCit, joinCit_eq_cast, BitVec.extractLsb'_cast, BitVec.extractLsb'_append_eq_of_le,
    BitVec.extractLsb'_append_eq_of_add_le, extract_all]

theorem joinRule_eq_cast (op : BitVec 4) (r : Rule) : joinRule op r = BitVec.cast (by decide)
    (r.imm ++ (r.off2 ++ (r.nf ++ (r.nt ++ (r.sgn ++ (r.cmp ++ (r.w ++ (r.off ++ op)))))))) := rfl

theorem extract_joinRule (op : BitVec 4) (r : Rule) : (joinRule op r).extractLsb' 0 4 = op := by
  simp (disch := decide) only [joinRule_eq_cast, BitVec.extractLsb'_cast, BitVec.extractLsb'_append_eq_of_add_le,
    extract_all]

theorem splitRule_joinRule (op : BitVec 4) (r : Rule) : splitRule (joinRule op r) = r := by
  simp (disch := decide) only [splitRule, joinRule_eq_cast, BitVec.extractLsb'_cast,
    BitVec.extractLsb'_append_eq_of_le, BitVec.extractLsb'_append_eq_of_add_le, extract_all]

end Sys2Proof
end

section
/-! SUPPORT. The opcode map, the shapes and the decoder (O1, O2, O3): each row of the map names an instruction of its own
opcode, and no shape accepts a reserved operand class. -/

namespace Sys2Proof
open Machine

/-! ### The opcode map (R46) and the shapes -/

/-- No class of the position is reserved (R22). -/
def Machine.Pos.noRsv : Pos → Bool
  | .unused => true
  | .use acc _ | .own acc _ => !acc.contains .rsv
/-- No position of the shape accepts a reserved class. -/
def Machine.Shape.noRsv (h : Shape) : Bool := h.d.noRsv && h.s1.noRsv && h.s2.noRsv && h.s3.noRsv && h.s4.noRsv

theorem nthPos_noRsv {l : List Pos} (h : l.all Pos.noRsv = true) (i : Nat) : (nthPos l i).noRsv = true := by
  unfold nthPos
  cases hi : l[i]? with
  | none => rfl
  | some p => exact List.all_eq_true.mp h p (List.mem_of_getElem? hi)

theorem srcFields_noRsv {l : List Pos} (h : l.all Pos.noRsv = true) (fmt : Nat) :
    (srcFields fmt l).all Pos.noRsv = true := by
  have ht (k : Nat) : (l.take k).all Pos.noRsv = true :=
    List.all_eq_true.mpr fun p hp => List.all_eq_true.mp h p (List.mem_of_mem_take hp)
  unfold srcFields
  split
  · split <;> exact ht _
  · exact ht _
  · exact h

theorem mkShape_noRsv {f : Slk} {fmts : List Nat} {d : Pos} {srcs : List Pos} {uni illenc : Bool}
    (hd : d.noRsv = true) (hs : srcs.all Pos.noRsv = true) : (mkShape f fmts d srcs uni illenc).noRsv = true := by
  have h := nthPos_noRsv (srcFields_noRsv hs f.fmt.toNat)
  simp only [Shape.noRsv, mkShape, hd, h, Bool.and_self]

theorem shMov_noRsv (f : Slk) : (shMov f).noRsv = true := mkShape_noRsv rfl rfl
theorem shSrd_noRsv (f : Slk) : (shSrd f).noRsv = true :=
  mkShape_noRsv (f := f) (fmts := [0]) (d := .use kReg (tyRegs (fTy f))) (srcs := [.use [.sr] 1]) (uni := false)
    (illenc := false) rfl rfl
theorem shFclass_noRsv (f : Slk) : (shFclass f).noRsv = true := mkShape_noRsv rfl (by split <;> rfl)
theorem shRedx_noRsv (f : Slk) : (shRedx f).noRsv = true := mkShape_noRsv rfl (by split <;> rfl)
theorem shXtrain_noRsv (f : Slk) : (shXtrain f).noRsv = true := mkShape_noRsv rfl (by split <;> rfl)
theorem shVote_noRsv (f : Slk) : (shVote f).noRsv = true := by
  unfold shVote
  dsimp only
  split <;> exact mkShape_noRsv rfl rfl
theorem shCbput_noRsv (f : Slk) : (shCbput f).noRsv = true := by
  unfold shCbput
  split <;> rfl
theorem shMarm_noRsv (f : Slk) : (shMarm f).noRsv = true := by
  unfold shMarm
  repeat' split
  all_goals rfl
theorem pAtomOpnd_noRsv (f : Slk) : (pAtomOpnd f).noRsv = true := by
  unfold pAtomOpnd
  split <;> rfl
theorem shAtoml_noRsv (f : Slk) : (shAtoml f).noRsv = true := by
  simp only [Shape.noRsv, shAtoml, memShape, pAtomOpnd_noRsv]
  rfl
theorem shAtomg_noRsv (f : Slk) : (shAtomg f).noRsv = true := by
  simp only [Shape.noRsv, shAtomg, memShape, pAtomOpnd_noRsv]
  rfl
theorem shCall_noRsv (f : Slk) : (shCall f).noRsv = true := by
  unfold shCall
  split <;> rfl

/-- What the map gives an opcode is an instruction of that opcode, whose shape accepts no reserved class. -/
def RowOk (r : Nat × (Slk → Instr)) : Prop :=
  ∀ f, slkParts (r.2 f) = some (r.1, f) ∧ ∀ a, ∃ h, shapeOf a (r.2 f) = some h ∧ h.noRsv = true

theorem rowOk_of {n : Nat} {c : Slk → Instr} (hp : ∀ f, slkParts (c f) = some (n, f))
    (hs : ∀ f a, ∃ h, shapeOf a (c f) = some h ∧ h.noRsv = true) : RowOk (n, c) :=
  fun f => ⟨hp f, hs f⟩

/-- An opcode with variants. -/
theorem rowOk_ite {n : Nat} {c d : Slk → Instr} {p : Slk → Prop} [DecidablePred p] (hc : RowOk (n, c))
    (hd : RowOk (n, d)) : RowOk (n, fun f => if p f then c f else d f) := by
  intro f
  dsimp only
  split
  · exact hc f
  · exact hd f

theorem opRows0_ok : ∀ r ∈ opRows0, RowOk r := by
  simp only [opRows0, List.forall_mem_cons]
  exact ⟨rowOk_of (fun _ => rfl) fun _ _ => ⟨_, rfl, mkShape_noRsv rfl rfl⟩,
    rowOk_of (fun _ => rfl) fun _ _ => ⟨_, rfl, mkShape_noRsv rfl rfl⟩,
    rowOk_of (fun _ => rfl) fun _ _ => ⟨_, rfl, mkShape_noRsv rfl rfl⟩,
    rowOk_of (fun _ => rfl) fun _ _ => ⟨_, rfl, mkShape_noRsv rfl rfl⟩,
    rowOk_of (fun _ => rfl) fun _ _ => ⟨_, rfl, mkShape_noRsv rfl rfl⟩,
    rowOk_of (fun _ => rfl) fun _ _ => ⟨_, rfl, mkShape_noRsv rfl rfl⟩,
    rowOk_of (fun _ => rfl) fun _ _ => ⟨_, rfl, mkShape_noRsv rfl rfl⟩,
    rowOk_of (fun _ => rfl) fun _ _ => ⟨_, rfl, mkShape_noRsv rfl rfl⟩,
    rowOk_of (fun _ => rfl) fun _ _ => ⟨_, rfl, mkShape_noRsv rfl rfl⟩,
    rowOk_of (fun _ => rfl) fun _ _ => ⟨_, rfl, mkShape_noRsv rfl rfl⟩,
    rowOk_of (fun _ => rfl) fun _ _ => ⟨_, rfl, mkShape_noRsv rfl rfl⟩,
    rowOk_of (fun _ => rfl) fun _ _ => ⟨_, rfl, mkShape_noRsv rfl rfl⟩,
    rowOk_of (fun _ => rfl) fun _ _ => ⟨_, rfl, mkShape_noRsv rfl rfl⟩,
    rowOk_of (fun _ => rfl) fun _ _ => ⟨_, rfl, mkShape_noRsv rfl rfl⟩,
    rowOk_of (fun _ => rfl) fun _ _ => ⟨_, rfl, mkShape_noRsv rfl rfl⟩,
    rowOk_of (fun _ => rfl) fun _ _ => ⟨_, rfl, mkShape_noRsv rfl rfl⟩,
    rowOk_of (fun _ => rfl) fun _ _ => ⟨_, rfl, mkShape_noRsv rfl rfl⟩,
    rowOk_of (fun _ => rfl) fun _ _ => ⟨_, rfl, mkShape_noRsv rfl rfl⟩,
    rowOk_of (fun _ => rfl) fun _ _ => ⟨_, rfl, mkShape_noRsv rfl rfl⟩,
    rowOk_of (fun _ => rfl) fun _ _ => ⟨_, rfl, mkShape_noRsv rfl rfl⟩,
    rowOk_of (fun _ => rfl) fun _ _ => ⟨_, rfl, mkShape_noRsv rfl rfl⟩,
    rowOk_of (fun _ => rfl) fun _ _ => ⟨_, rfl, mkShape_noRsv rfl rfl⟩,
    rowOk_of (fun _ => rfl) fun _ _ => ⟨_, rfl, mkShape_noRsv rfl rfl⟩,
    rowOk_of (fun _ => rfl) fun _ _ => ⟨_, rfl, mkShape_noRsv rfl rfl⟩, nofun⟩

theorem opRows1_ok : ∀ r ∈ opRows1, RowOk r := by
  simp only [opRows1, List.forall_mem_cons]
  exact ⟨rowOk_of (fun _ => rfl) fun _ _ => ⟨_, rfl, mkShape_noRsv rfl rfl⟩,
    rowOk_of (fun _ => rfl) fun _ _ => ⟨_, rfl, mkShape_noRsv rfl rfl⟩,
    rowOk_of (fun _ => rfl) fun _ _ => ⟨_, rfl, shMov_noRsv _⟩,
    rowOk_of (fun _ => rfl) fun _ _ => ⟨_, rfl, rfl⟩,
    rowOk_of (fun _ => rfl) fun _ _ => ⟨_, rfl, shSrd_noRsv _⟩,
    rowOk_of (fun _ => rfl) fun _ _ => ⟨_, rfl, mkShape_noRsv rfl rfl⟩,
    rowOk_of (fun _ => rfl) fun _ _ => ⟨_, rfl, mkShape_noRsv rfl rfl⟩,
    rowOk_of (fun _ => rfl) fun _ _ => ⟨_, rfl, mkShape_noRsv rfl rfl⟩,
    rowOk_of (fun _ => rfl) fun _ _ => ⟨_, rfl, mkShape_noRsv rfl rfl⟩,
    rowOk_of (fun _ => rfl) fun _ _ => ⟨_, rfl, mkShape_noRsv rfl rfl⟩,
    rowOk_of (fun _ => rfl) fun _ _ => ⟨_, rfl, mkShape_noRsv rfl rfl⟩,
    rowOk_of (fun _ => rfl) fun _ _ => ⟨_, rfl, mkShape_noRsv rfl rfl⟩,
    rowOk_of (fun _ => rfl) fun _ _ => ⟨_, rfl, mkShape_noRsv rfl rfl⟩,
    rowOk_of (fun _ => rfl) fun _ _ => ⟨_, rfl, mkShape_noRsv rfl rfl⟩,
    rowOk_of (fun _ => rfl) fun _ _ => ⟨_, rfl, mkShape_noRsv rfl rfl⟩,
    rowOk_of (fun _ => rfl) fun _ _ => ⟨_, rfl, shFclass_noRsv _⟩,
    rowOk_of (fun _ => rfl) fun _ _ => ⟨_, rfl, mkShape_noRsv rfl rfl⟩,
    rowOk_of (fun _ => rfl) fun _ _ => ⟨_, rfl, mkShape_noRsv rfl rfl⟩,
    rowOk_of (fun _ => rfl) fun _ _ => ⟨_, rfl, mkShape_noRsv rfl rfl⟩,
    rowOk_of (fun _ => rfl) fun _ _ => ⟨_, rfl, mkShape_noRsv rfl rfl⟩,
    rowOk_of (fun _ => rfl) fun _ _ => ⟨_, rfl, mkShape_noRsv rfl rfl⟩,
    rowOk_of (fun _ => rfl) fun _ _ => ⟨_, rfl, mkShape_noRsv rfl rfl⟩,
    rowOk_of (fun _ => rfl) fun _ _ => ⟨_, rfl, mkShape_noRsv rfl rfl⟩,
    rowOk_of (fun _ => rfl) fun _ _ => ⟨_, rfl, mkShape_noRsv rfl rfl⟩, nofun⟩

theorem opRows2_ok : ∀ r ∈ opRows2, RowOk r := by
  simp only [opRows2, List.forall_mem_cons]
  exact ⟨rowOk_of (fun _ => rfl) fun _ _ => ⟨_, rfl, mkShape_noRsv rfl rfl⟩,
    rowOk_of (fun _ => rfl) fun _ _ => ⟨_, rfl, mkShape_noRsv rfl rfl⟩,
    rowOk_of (fun _ => rfl) fun _ _ => ⟨_, rfl, mkShape_noRsv rfl rfl⟩,
    rowOk_of (fun _ => rfl) fun _ _ => ⟨_, rfl, mkShape_noRsv rfl rfl⟩,
    rowOk_of (fun _ => rfl) fun _ _ => ⟨_, rfl, mkShape_noRsv rfl rfl⟩,
    rowOk_of (fun _ => rfl) fun _ _ => ⟨_, rfl, mkShape_noRsv rfl rfl⟩,
    rowOk_of (fun _ => rfl) fun _ _ => ⟨_, rfl, mkShape_noRsv rfl rfl⟩,
    rowOk_of (fun _ => rfl) fun _ _ => ⟨_, rfl, mkShape_noRsv rfl rfl⟩,
    rowOk_of (fun _ => rfl) fun _ _ => ⟨_, rfl, mkShape_noRsv rfl rfl⟩,
    rowOk_of (fun _ => rfl) fun _ _ => ⟨_, rfl, shVote_noRsv _⟩,
    rowOk_of (fun _ => rfl) fun _ _ => ⟨_, rfl, shRedx_noRsv _⟩,
    rowOk_of (fun _ => rfl) fun _ _ => ⟨_, rfl, mkShape_noRsv rfl rfl⟩,
    rowOk_of (fun _ => rfl) fun _ _ => ⟨_, rfl, mkShape_noRsv rfl rfl⟩,
    rowOk_of (fun _ => rfl) fun _ _ => ⟨_, rfl, rfl⟩,
    rowOk_of (fun _ => rfl) fun _ _ => ⟨_, rfl, rfl⟩,
    rowOk_of (fun _ => rfl) fun _ _ => ⟨_, rfl, rfl⟩,
    rowOk_of (fun _ => rfl) fun _ _ => ⟨_, rfl, rfl⟩,
    rowOk_of (fun _ => rfl) fun _ _ => ⟨_, rfl, rfl⟩,
    rowOk_of (fun _ => rfl) fun _ _ => ⟨_, rfl, rfl⟩,
    rowOk_of (fun _ => rfl) fun _ _ => ⟨_, rfl, rfl⟩,
    rowOk_of (fun _ => rfl) fun _ _ => ⟨_, rfl, rfl⟩,
    rowOk_ite (rowOk_of (fun _ => rfl) fun _ _ => ⟨_, rfl, rfl⟩)
      (rowOk_of (fun _ => rfl) fun _ _ => ⟨_, rfl, rfl⟩),
    rowOk_ite (rowOk_of (fun _ => rfl) fun _ _ => ⟨_, rfl, rfl⟩)
      (rowOk_ite (rowOk_of (fun _ => rfl) fun _ _ => ⟨_, rfl, rfl⟩)
      (rowOk_ite (rowOk_of (fun _ => rfl) fun _ _ => ⟨_, rfl, rfl⟩)
      (rowOk_of (fun _ => rfl) fun _ _ => ⟨_, rfl, rfl⟩))),
    rowOk_of (fun _ => rfl) fun _ _ => ⟨_, rfl, rfl⟩, nofun⟩

theorem opRows3_ok : ∀ r ∈ opRows3, RowOk r := by
  simp only [opRows3, List.forall_mem_cons]
  exact ⟨rowOk_ite (rowOk_of (fun _ => rfl) fun _ _ => ⟨_, rfl, rfl⟩)
      (rowOk_of (fun _ => rfl) fun _ _ => ⟨_, rfl, rfl⟩),
    rowOk_of (fun _ => rfl) fun _ _ => ⟨_, rfl, shAtoml_noRsv _⟩,
    rowOk_of (fun _ => rfl) fun _ _ => ⟨_, rfl, shAtomg_noRsv _⟩,
    rowOk_of (fun _ => rfl) fun _ _ => ⟨_, rfl, rfl⟩,
    rowOk_ite (rowOk_of (fun _ => rfl) fun _ _ => ⟨_, rfl, rfl⟩)
      (rowOk_of (fun _ => rfl) fun _ _ => ⟨_, rfl, rfl⟩),
    rowOk_ite (rowOk_of (fun _ => rfl) fun _ _ => ⟨_, rfl, rfl⟩)
      (rowOk_of (fun _ => rfl) fun _ _ => ⟨_, rfl, rfl⟩),
    rowOk_of (fun _ => rfl) fun _ _ => ⟨_, rfl, rfl⟩,
    rowOk_of (fun _ => rfl) fun _ _ => ⟨_, rfl, rfl⟩,
    rowOk_of (fun _ => rfl) fun _ _ => ⟨_, rfl, rfl⟩,
    rowOk_of (fun _ => rfl) fun _ _ => ⟨_, rfl, rfl⟩,
    rowOk_of (fun _ => rfl) fun _ _ => ⟨_, rfl, rfl⟩,
    rowOk_of (fun _ => rfl) fun _ _ => ⟨_, rfl, rfl⟩,
    rowOk_of (fun _ => rfl) fun _ _ => ⟨_, rfl, rfl⟩,
    rowOk_of (fun _ => rfl) fun _ _ => ⟨_, rfl, rfl⟩,
    rowOk_of (fun _ => rfl) fun _ _ => ⟨_, rfl, rfl⟩,
    rowOk_of (fun _ => rfl) fun _ _ => ⟨_, rfl, rfl⟩,
    rowOk_of (fun _ => rfl) fun _ _ => ⟨_, rfl, rfl⟩,
    rowOk_of (fun _ => rfl) fun _ _ => ⟨_, rfl, rfl⟩,
    rowOk_of (fun _ => rfl) fun _ _ => ⟨_, rfl, rfl⟩,
    rowOk_of (fun _ => rfl) fun _ _ => ⟨_, rfl, rfl⟩,
    rowOk_of (fun _ => rfl) fun _ _ => ⟨_, rfl, rfl⟩,
    rowOk_of (fun _ => rfl) fun _ _ => ⟨_, rfl, rfl⟩,
    rowOk_of (fun _ => rfl) fun _ _ => ⟨_, rfl, rfl⟩,
    rowOk_of (fun _ => rfl) fun _ _ => ⟨_, rfl, rfl⟩, nofun⟩

theorem opRows4_ok : ∀ r ∈ opRows4, RowOk r := by
  simp only [opRows4, List.forall_mem_cons]
  exact ⟨rowOk_of (fun _ => rfl) fun _ _ => ⟨_, rfl, rfl⟩,
    rowOk_ite (rowOk_of (fun _ => rfl) fun _ _ => ⟨_, rfl, rfl⟩)
      (rowOk_of (fun _ => rfl) fun _ _ => ⟨_, rfl, rfl⟩),
    rowOk_ite (rowOk_of (fun _ => rfl) fun _ _ => ⟨_, rfl, shCbput_noRsv _⟩)
      (rowOk_of (fun _ => rfl) fun _ _ => ⟨_, rfl, shCbput_noRsv _⟩),
    rowOk_ite (rowOk_of (fun _ => rfl) fun _ _ => ⟨_, rfl, shMarm_noRsv _⟩)
      (rowOk_ite (rowOk_of (fun _ => rfl) fun _ _ => ⟨_, rfl, shMarm_noRsv _⟩)
      (rowOk_of (fun _ => rfl) fun _ _ => ⟨_, rfl, shMarm_noRsv _⟩)),
    rowOk_of (fun _ => rfl) fun _ _ => ⟨_, rfl, rfl⟩,
    rowOk_of (fun _ => rfl) fun _ _ => ⟨_, rfl, rfl⟩,
    rowOk_of (fun _ => rfl) fun _ _ => ⟨_, rfl, rfl⟩,
    rowOk_of (fun _ => rfl) fun _ _ => ⟨_, rfl, rfl⟩,
    rowOk_of (fun _ => rfl) fun _ _ => ⟨_, rfl, rfl⟩,
    rowOk_of (fun _ => rfl) fun _ _ => ⟨_, rfl, rfl⟩,
    rowOk_of (fun _ => rfl) fun _ _ => ⟨_, rfl, rfl⟩,
    rowOk_of (fun _ => rfl) fun _ _ => ⟨_, rfl, rfl⟩,
    rowOk_of (fun _ => rfl) fun _ _ => ⟨_, rfl, rfl⟩,
    rowOk_of (fun _ => rfl) fun _ _ => ⟨_, rfl, rfl⟩,
    rowOk_of (fun _ => rfl) fun _ _ => ⟨_, rfl, rfl⟩,
    rowOk_of (fun _ => rfl) fun _ _ => ⟨_, rfl, rfl⟩,
    rowOk_of (fun _ => rfl) fun _ _ => ⟨_, rfl, rfl⟩,
    rowOk_of (fun _ => rfl) fun _ _ => ⟨_, rfl, rfl⟩,
    rowOk_of (fun _ => rfl) fun _ _ => ⟨_, rfl, mkShape_noRsv rfl rfl⟩,
    rowOk_of (fun _ => rfl) fun _ _ => ⟨_, rfl, mkShape_noRsv rfl rfl⟩,
    rowOk_of (fun _ => rfl) fun _ _ => ⟨_, rfl, mkShape_noRsv rfl rfl⟩,
    rowOk_ite (rowOk_of (fun _ => rfl) fun _ _ => ⟨_, rfl, shXtrain_noRsv _⟩)
      (rowOk_of (fun _ => rfl) fun _ _ => ⟨_, rfl, shXtrain_noRsv _⟩),
    rowOk_of (fun _ => rfl) fun _ _ => ⟨_, rfl, mkShape_noRsv rfl rfl⟩,
    rowOk_of (fun _ => rfl) fun _ _ => ⟨_, rfl, mkShape_noRsv rfl rfl⟩, nofun⟩

theorem opRows5_ok : ∀ r ∈ opRows5, RowOk r := by
  simp only [opRows5, List.forall_mem_cons]
  exact ⟨rowOk_of (fun _ => rfl) fun _ _ => ⟨_, rfl, mkShape_noRsv rfl rfl⟩,
    rowOk_of (fun _ => rfl) fun _ _ => ⟨_, rfl, mkShape_noRsv rfl rfl⟩,
    rowOk_of (fun _ => rfl) fun _ _ => ⟨_, rfl, mkShape_noRsv rfl rfl⟩,
    rowOk_of (fun _ => rfl) fun _ _ => ⟨_, rfl, rfl⟩,
    rowOk_ite (rowOk_of (fun _ => rfl) fun _ _ => ⟨_, rfl, rfl⟩)
      (rowOk_of (fun _ => rfl) fun _ _ => ⟨_, rfl, rfl⟩),
    rowOk_of (fun _ => rfl) fun _ _ => ⟨_, rfl, shCall_noRsv _⟩,
    rowOk_of (fun _ => rfl) fun _ _ => ⟨_, rfl, rfl⟩,
    rowOk_of (fun _ => rfl) fun _ _ => ⟨_, rfl, rfl⟩,
    rowOk_of (fun _ => rfl) fun _ _ => ⟨_, rfl, rfl⟩,
    rowOk_of (fun _ => rfl) fun _ _ => ⟨_, rfl, rfl⟩,
    rowOk_of (fun _ => rfl) fun _ _ => ⟨_, rfl, rfl⟩,
    rowOk_of (fun _ => rfl) fun _ _ => ⟨_, rfl, rfl⟩,
    rowOk_of (fun _ => rfl) fun _ _ => ⟨_, rfl, rfl⟩,
    rowOk_of (fun _ => rfl) fun _ _ => ⟨_, rfl, rfl⟩,
    rowOk_of (fun _ => rfl) fun _ _ => ⟨_, rfl, rfl⟩,
    rowOk_ite (rowOk_of (fun _ => rfl) fun _ _ => ⟨_, rfl, rfl⟩)
      (rowOk_of (fun _ => rfl) fun _ _ => ⟨_, rfl, rfl⟩),
    rowOk_of (fun _ => rfl) fun _ _ => ⟨_, rfl, rfl⟩, nofun⟩

theorem opRows_ok : ∀ r ∈ opRows, RowOk r := by
  simp only [opRows, List.forall_mem_append]
  exact ⟨⟨⟨⟨⟨opRows0_ok, opRows1_ok⟩, opRows2_ok⟩, opRows3_ok⟩, opRows4_ok⟩, opRows5_ok⟩

theorem mem_of_findRow {l : List (Nat × (Slk → Instr))} {n : Nat} {c : Slk → Instr} (h : findRow l n = some c) :
    (n, c) ∈ l := by
  induction l with
  | nil => cases h
  | cons r l ih =>
    obtain ⟨m, d⟩ := r
    rw [findRow] at h
    split at h
    · next hm => cases h; exact hm ▸ List.mem_cons_self ..
    · exact List.mem_cons_of_mem _ (ih h)

theorem opInstr_row {opc : Nat} {f : Slk} {i : Instr} (h : opInstr opc f = some i) : ∃ c, (opc, c) ∈ opRows ∧ i = c f := by
  obtain ⟨c, hc, rfl⟩ := Option.map_eq_some_iff.mp h
  exact ⟨c, mem_of_findRow hc, rfl⟩

/-- The opcode map and `slkParts` agree (R46). -/
theorem slkParts_opInstr {opc : Nat} {f : Slk} {i : Instr} (h : opInstr opc f = some i) : slkParts i = some (opc, f) := by
  obtain ⟨c, hc, rfl⟩ := opInstr_row h
  exact (opRows_ok _ hc f).1

theorem opRows_lt {r : Nat × (Slk → Instr)} (h : r ∈ opRows) : r.1 < 0x1FE := by
  have all : (opRows.all fun r => decide (r.1 < 0x1FE)) = true := by decide
  exact of_decide_eq_true (List.all_eq_true.mp all r h)

/-! ### What decodes (R48) -/

/-- A position takes the operand: no class of its own, row 3 nor row 4, speaks against it. -/
structure Fits (alloc : Nat) (p : Pos) (o : Opnd) : Prop where
  illop : posIllop alloc p o = false
  illenc : posIllenc p o = false

/-- The operand fields of an encoding that rows 3 and 4 let pass. -/
structure FitsAll (alloc : Nat) (h : Shape) (f : Slk) : Prop where
  fmt : h.fmts.contains f.fmt.toNat = true
  d : Fits alloc h.d f.d
  s1 : Fits alloc h.s1 f.s1
  s2 : Fits alloc h.s2 f.s2
  s3 : Fits alloc h.s3 f.s3
  s4 : Fits alloc h.s4 f.s4

theorem fitsAll_of_shapeFate {alloc : Nat} {h : Shape} {f : Slk} (hf : shapeFate alloc h f = none) : FitsAll alloc h f := by
  unfold shapeFate at hf
  dsimp only at hf
  split at hf
  · cases hf
  · next hIllop =>
    split at hf
    · cases hf
    · next hIllenc =>
      simp only [Bool.or_eq_true, not_or, Bool.not_eq_true, Bool.not_eq_false'] at hIllenc
      obtain ⟨⟨⟨⟨⟨⟨⟨hfmt, -⟩, hd⟩, h1⟩, h2⟩, h3⟩, h4⟩, -⟩ := hIllenc
      simp only [hfmt, Bool.true_or, Bool.true_and, Bool.or_eq_true, not_or, Bool.not_eq_true] at hIllop
      obtain ⟨⟨⟨⟨⟨gd, g1⟩, g2⟩, g3⟩, g4⟩, -⟩ := hIllop
      exact ⟨hfmt, ⟨gd, hd⟩, ⟨g1, h1⟩, ⟨g2, h2⟩, ⟨g3, h3⟩, ⟨g4, h4⟩⟩

/-- An instruction that the map names passes rows 3 and 4 as its shape says. -/
theorem fate_of_slk {alloc opc : Nat} {i : Instr} {f : Slk} {h : Shape} (hp : slkParts i = some (opc, f))
    (hs : shapeOf alloc i = some h) : fate alloc i = shapeFate alloc h f := by
  unfold fate
  split
  · cases hp
  · simp only [hp, hs]

/-- A field that fits a position without reserved classes is read back from its bits. -/
theorem readable_of_fits {alloc : Nat} {p : Pos} {o : Opnd} (hp : p.noRsv = true) (h : Fits alloc p o) : Readable o := by
  rintro rfl
  cases p with
  | unused => exact absurd h.illenc (by decide)
  | use acc n | own acc n =>
    have hr : Kind.rsv ∉ acc := by simpa [Pos.noRsv] using hp
    have := h.illop
    simp [posIllop, opKind, hr] at this

/-! ### The statements -/

theorem encode_of_slk {i : Instr} {opc : Nat} {f : Slk} (h : slkParts i = some (opc, f)) :
    encode i = some (96, (joinSlk (BitVec.ofNat 9 opc) f).toNat) := by
  unfold encode
  split
  · cases h
  · simp only [h]

theorem candidate_joinSlk {opc : Nat} {f : Slk} {i : Instr} (hi : opInstr opc f = some i)
    (hf : splitSlk (joinSlk (BitVec.ofNat 9 opc) f) = f) : candidate (joinSlk (BitVec.ofNat 9 opc) f) = some i := by
  obtain ⟨c, hc, -⟩ := opInstr_row hi
  have hlt := opRows_lt hc
  have hn : (BitVec.ofNat 9 opc).toNat = opc := by rw [BitVec.toNat_ofNat, Nat.mod_eq_of_lt (by omega)]
  have hne : BitVec.ofNat 9 opc ≠ 0x1FE := fun h => absurd (hn.symm.trans (congrArg BitVec.toNat h)) (Nat.ne_of_lt hlt)
  rw [candidate, extract_joinSlk, if_neg hne, hn, hf, hi]

/-- Settles O2: the opcode map and `slkParts` agree, and every bit of the word stands in one field. -/
theorem decodedWordsEncode : Obligations.DecodedWordsEncode := by
  unfold Obligations.DecodedWordsEncode
  intro w i h
  have hc : candidate w = some i := by
    unfold decode at h
    split at h
    · cases h
    · next j hj => split at h <;> cases h; exact hj
  unfold candidate at hc
  split at hc
  · next hpfx => cases hc; exact congrArg (fun x => some (96, BitVec.toNat x)) (joinPfx_splitPfx hpfx)
  · rw [encode_of_slk (slkParts_opInstr hc), BitVec.ofNat_toNat, BitVec.setWidth_eq, joinSlk_splitSlk]

theorem wellFormed_slk {i : Instr} {opc : Nat} {f : Slk} (h : slkParts i = some (opc, f)) (hw : WellFormed i = true) :
    slkCanon opc f = true ∧ opInstr opc f = some i ∧ fate 256 i = none := by
  unfold WellFormed at hw
  split at hw
  · cases h
  · simpa only [h, Bool.and_eq_true, decide_eq_true_eq, and_assoc] using hw

theorem citParts_spec {i : Instr} {op : Nat} {c : Cit} (h : citParts i = some (op, c)) :
    op < 2 ^ 5 ∧ citInstr op c = some i ∧ slkParts i = none := by
  unfold citParts at h
  split at h <;> cases h <;> exact ⟨by decide, rfl, rfl⟩

theorem ruleParts_spec {i : Instr} {op : Nat} {r : Rule} (h : ruleParts i = some (op, r)) :
    op < 2 ^ 4 ∧ ruleInstr op r = some i := by
  unfold ruleParts at h
  split at h <;> cases h <;> exact ⟨by decide, rfl⟩

theorem wellFormed_cit {i : Instr} {op : Nat} {c : Cit} (h : citParts i = some (op, c)) (hw : WellFormed i = true) :
    citZero op c = true := by
  unfold WellFormed at hw
  split at hw
  · cases h
  · rw [(citParts_spec h).2.2, h] at hw
    exact (Bool.and_eq_true_iff.mp hw).1

/-- An SLK word decodes to the instruction it encodes. -/
theorem decode_encode_slk {i : Instr} {opc : Nat} {f : Slk} (h : slkParts i = some (opc, f)) (hw : WellFormed i = true) :
    decode (joinSlk (BitVec.ofNat 9 opc) f) = .ok i := by
  obtain ⟨hc, hi, hf⟩ := wellFormed_slk h hw
  obtain ⟨c, hrow, rfl⟩ := opInstr_row hi
  obtain ⟨-, hshape⟩ := opRows_ok _ hrow f
  obtain ⟨sh, hs, hr⟩ := hshape 256
  have fits := fitsAll_of_shapeFate ((fate_of_slk h hs).symm.trans hf)
  simp only [Shape.noRsv, Bool.and_eq_true] at hr
  obtain ⟨⟨⟨⟨rd, r1⟩, r2⟩, r3⟩, r4⟩ := hr
  have hlt := opRows_lt hrow
  have hn : (BitVec.ofNat 9 opc).toNat = opc := by rw [BitVec.toNat_ofNat, Nat.mod_eq_of_lt (by omega)]
  have hsplit : splitSlk (joinSlk (BitVec.ofNat 9 opc) f) = f :=
    splitSlk_joinSlk (hn.symm ▸ hc) (readable_of_fits rd fits.d) (readable_of_fits r1 fits.s1)
      (readable_of_fits r2 fits.s2) (readable_of_fits r3 fits.s3) (readable_of_fits r4 fits.s4)
  rw [decode, candidate_joinSlk hi hsplit]
  simp only [hf]

theorem decode_encode_pfx {p : Pfx} (hw : WellFormed (.rep p) = true) : decode (joinPfx p) = .ok (.rep p) := by
  have hf : fate 256 (.rep p) = none := of_decide_eq_true hw
  have hc : candidate (joinPfx p) = some (.rep p) := by
    rw [candidate, extract_joinPfx, if_pos (by decide), splitPfx_joinPfx]
  rw [decode, hc]
  simp only [hf]

theorem decodeTableWord_slk {w : BitVec 96} {i : Instr} (h : decode w = .ok i) : decodeTableWord 96 w.toNat = some i := by
  simp [decodeTableWord, decodeBits, h]

theorem decode_encode_cit {i : Instr} {op : Nat} {c : Cit} (h : citParts i = some (op, c)) (hw : WellFormed i = true) :
    decodeCit (joinCit (BitVec.ofNat 5 op) c) = some i := by
  obtain ⟨hlt, hi, -⟩ := citParts_spec h
  obtain ⟨hop, htop⟩ := extract_joinCit (BitVec.ofNat 5 op) c
  have hn : (BitVec.ofNat 5 op).toNat = op := by rw [BitVec.toNat_ofNat, Nat.mod_eq_of_lt hlt]
  rw [decodeCit, hop, htop, splitCit_joinCit, hn, if_pos ⟨rfl, wellFormed_cit h hw⟩, hi]

theorem decode_encode_rule {i : Instr} {op : Nat} {r : Rule} (h : ruleParts i = some (op, r)) :
    decodeRule (joinRule (BitVec.ofNat 4 op) r) = some i := by
  obtain ⟨hlt, hi⟩ := ruleParts_spec h
  rw [decodeRule, extract_joinRule, splitRule_joinRule, BitVec.toNat_ofNat, Nat.mod_eq_of_lt hlt, hi]

/-- Settles O1: each kind of word is split into the parts it was joined from, and the opcode names the constructor. -/
theorem encodedInstructionsDecode : Obligations.EncodedInstructionsDecode := by
  unfold Obligations.EncodedInstructionsDecode
  intro i n w hw he
  unfold encode at he
  split at he
  · next p =>
    cases he
    exact decodeTableWord_slk (decode_encode_pfx hw)
  · cases hs : slkParts i with
    | some x =>
      simp only [hs] at he
      cases he
      exact decodeTableWord_slk (decode_encode_slk hs hw)
    | none =>
      cases hc : citParts i with
      | some x =>
        simp only [hs, hc] at he
        cases he
        simpa [decodeTableWord, decodeBits] using decode_encode_cit hc hw
      | none =>
        cases hr : ruleParts i with
        | some x =>
          simp only [hs, hc, hr] at he
          cases he
          simpa [decodeTableWord, decodeBits] using decode_encode_rule hr
        | none => simp only [hs, hc, hr] at he; cases he

/-- Settles O3: each word is decoded by evaluation. -/
theorem specWordsDecode : Obligations.SpecWordsDecode := by
  unfold Obligations.SpecWordsDecode
  exact ⟨rfl, rfl, rfl, rfl, rfl, rfl⟩

end Sys2Proof
end

section
/-! SUPPORT. A step (O4): whose turn it is, what it executes, and a clk that passes. -/

namespace Sys2Proof.Machine

/-! ### Views and the parts of a state that they depend on -/

/-- A view depends on the teams alone. -/
theorem env?_of_teams {s t : State} (h : t.teams = s.teams) (g : Gid) :
    env? t g = (env? s g).map fun e => { e with st := t } := by
  have hu : t.team? g.team = s.team? g.team := by unfold State.team?; rw [h]
  unfold env?
  rw [hu]
  cases s.team? g.team with
  | none => rfl
  | some x => dsimp only; cases x.group? g.group <;> rfl

/-- The view of a later state in which the group still stands. -/
theorem Env.at_of_some {e e' : Env} {s : State} (h : env? s e.gid = some e') : e.at s = e' := by
  rw [Env.at, h, Option.getD_some]

theorem decode_ok_candidate {w : BitVec 96} {i : Instr} (h : decode w = .ok i) : candidate w = some i := by
  unfold decode at h
  split at h
  · cases h
  · next j hj => split at h <;> cases h; exact hj

/-! ### A group's turn -/

/-- The state in which the group is ready and has its turn. -/
def atTurn (g : Gid) (s : State) : State := modGroup g (fun x => { x with cond := .ready }) { s with cur := g }

/-- What the group's turn makes of the word it fetched (R48 row 2). -/
def afterFetch (g : Gid) (s : State) (w : BitVec 96) : Out :=
  match candidate w with
  | none => .next (takeTrap g { cause := 0x01 } s)
  | some i => exec i s

/-- A group's turn is a fetch at its program counter, then the instruction. -/
theorem stepGroup_of_fetch {s s1 : State} {g : Gid} {e : Env} {w : BitVec 96} (he : env? (atTurn g s) g = some e)
    (hf : fetchRes e e.grp.pc = .ok (s1, w)) : stepGroup g s = afterFetch g s1 w := by
  have hv := env?_modGroup { s with cur := g } g g (fun x => { x with cond := .ready }) (fun _ => rfl)
  rw [env?_of_teams (t := { s with cur := g }) (s := s) rfl] at hv
  have he' := he
  rw [atTurn, hv] at he'
  cases hs : env? s g with
  | none => simp [hs] at he'
  | some e0 =>
    have hg : e0.gid = g := (env?_eq hs).2.2.2
    have hpc : e0.grp.pc = e.grp.pc := by rw [hs] at he'; cases he'; simp
    have hat : e0.at (atTurn g s) = e := Env.at_of_some (hg.symm ▸ he)
    unfold stepGroup
    simp only [hs]
    unfold atTurn at hat
    rw [hat, hpc, hf]
    rfl

theorem stepGroup_exec {s s1 : State} {g : Gid} {e : Env} {w : BitVec 96} {i : Instr} (he : env? (atTurn g s) g = some e)
    (hf : fetchRes e e.grp.pc = .ok (s1, w)) (hw : decode w = .ok i) : stepGroup g s = exec i s1 := by
  rw [stepGroup_of_fetch he hf, afterFetch, decode_ok_candidate hw]

/-- Who may take a turn does not depend on the agenda. -/
theorem turnOk_agenda (s : State) (ts : List Turn) (g : Gid) : turnOk { s with agenda := ts } g = turnOk s g := by
  unfold turnOk
  rw [env?_of_teams (t := { s with agenda := ts }) (s := s) rfl]
  cases env? s g <;> rfl

theorem step_group {s : State} {ts : List Turn} {g : Gid} (ha : s.agenda = .group g :: ts)
    (ht : turnOk { s with agenda := ts } g = true) :
    step s = ticked (some g) (stepGroup g (clearRetry { s with agenda := ts })) := by
  unfold step
  rw [ha]
  exact if_pos ht

/-- Without an agenda the group that R332 puts first has 15 of 16 clk. -/
theorem step_auto_group {s : State} {g : Gid} (ha : s.agenda = []) (hc : s.cycle.toNat % 16 ≠ 15)
    (hn : nextGroup s = some g) : step s = ticked (some g) (stepGroup g s) := by
  unfold step
  rw [ha]
  change stepAuto s = _
  simp [stepAuto, hc, stepReady, hn]

/-- Settles O4: a turn of each kind by its branch of `stepTurn`. -/
theorem stepRunsDecoded : Obligations.StepRunsDecoded := by
  unfold Obligations.StepRunsDecoded
  refine ⟨⟨?agenda, ?auto, ?citrine, ?walk, ?event, ?own⟩, ?illop⟩
  case agenda =>
    intro s ts g e s1 w i ha ht he hf hw
    rw [step_group ha ht, stepGroup_exec he hf hw]
  case auto =>
    intro s g e s1 w i ha hc hn he hf hw
    rw [step_auto_group ha hc hn, stepGroup_exec he hf hw]
  case citrine =>
    intro s ts c i ha hi
    unfold step
    rw [ha]
    simp only [stepTurn, hi, stepWord]
  case walk =>
    intro s ts id i ha hi
    unfold step
    rw [ha]
    simp only [stepTurn, hi, stepWord]
  case event =>
    intro s ts i ha
    unfold step
    rw [ha]
    rfl
  case own =>
    intro s ts o ha
    unfold step
    rw [ha]
    rfl
  case illop =>
    intro s g e s1 w ht ha he hf hw
    rw [step_group ha ((turnOk_agenda s [] g).trans ht), stepGroup_of_fetch he hf, afterFetch, hw]

end Sys2Proof.Machine
end

section
/-! SUPPORT. Fetch and issue (O7): the word of a line the instruction cache holds, a false guard, an empty source, and
what the end of an instruction leaves of its group. -/

namespace Sys2Proof.Machine

open Claims

/-! ### The end of an instruction (R31, R34) -/

theorem groupOf_of_env? {s : State} {g : Gid} {e : Env} (h : env? s g = some e) : groupOf s g = some e.grp := by
  rw [groupOf, h]; rfl

theorem groupOf_of_teams {s t : State} (h : t.teams = s.teams) (g : Gid) : groupOf t g = groupOf s g := by
  unfold groupOf
  rw [env?_of_teams h, Option.map_map]
  rfl

theorem bumpFresh_eq (e : Env) (s : State) : ∃ n, bumpFresh e s = { s with fresh := n } := by
  unfold bumpFresh
  split
  · exact ⟨s.fresh, rfl⟩
  · exact ⟨_, rfl⟩

/-- One group is replaced, and the counter of free values moves on. -/
theorem sameOthers_modGroup (s : State) (g : Gid) {f : Group → Group} (hf : ∀ x, (f x).idx = x.idx) (n : Nat) :
    SameOthers s { modGroup g f s with fresh := n } g := by
  intro h hne
  rw [groupOf_fresh, groupOf_modGroup s g h f hf]
  simp [hne]

theorem groupOf_modGroup_self {s : State} {g : Gid} {x : Group} {f : Group → Group} (hf : ∀ x, (f x).idx = x.idx)
    (h : groupOf s g = some x) : groupOf (modGroup g f s) g = some (f x) := by
  rw [groupOf_modGroup s g g f hf, h]; simp

/-- An instruction that completes goes on at the next one. -/
theorem conclude_done (e : Env) (clk : Nat) (s : State) :
    conclude e clk (.done s) = conclude e clk (.goto s (pcAdd e.grp.pc 12)) := rfl

theorem conclude_goto_eq (e : Env) (clk : Nat) (s : State) (pc : DWord) : ∃ n, conclude e clk (.goto s pc) =
    { modGroup e.gid (fun g => { g.ageHaz clk with cond := .ready, pc := pc }) s with fresh := n } :=
  bumpFresh_eq e _

theorem conclude_goto_sameOutside (e : Env) (clk : Nat) (s : State) (pc : DWord) :
    SameOutside s (conclude e clk (.goto s pc)) := by
  obtain ⟨n, h⟩ := conclude_goto_eq e clk s pc
  rw [h]
  exact sameOutside_modGroup ..

theorem conclude_goto_sameOthers (e : Env) (clk : Nat) (s : State) (pc : DWord) :
    SameOthers s (conclude e clk (.goto s pc)) e.gid := by
  obtain ⟨n, h⟩ := conclude_goto_eq e clk s pc
  rw [h]
  exact sameOthers_modGroup s e.gid (f := fun g => { g.ageHaz clk with cond := .ready, pc := pc }) (fun _ => rfl) n

theorem conclude_goto_group {e : Env} {s : State} {g : Group} (clk : Nat) (pc : DWord) (h : groupOf s e.gid = some g) :
    groupOf (conclude e clk (.goto s pc)) e.gid = some { g.ageHaz clk with cond := .ready, pc := pc } := by
  obtain ⟨n, hc⟩ := conclude_goto_eq e clk s pc
  rw [hc, groupOf_fresh]
  exact groupOf_modGroup_self (f := fun g => { g.ageHaz clk with cond := .ready, pc := pc }) (fun _ => rfl) h

/-- An instruction that waits keeps its program counter. -/
theorem conclude_wait_group {e : Env} {s : State} {g : Group} (clk : Nat) (w : Wait) (h : groupOf s e.gid = some g) :
    groupOf (conclude e clk (.wait s w)) e.gid = some { g with cond := .wait w } :=
  groupOf_modGroup_self (f := fun g => { g with cond := .wait w }) (fun _ => rfl) h

/-- An instruction without effect goes on at the next one and writes no register. -/
theorem conclude_nothing {s : State} {e : Env} (he : env? s e.gid = some e) (clk : Nat) :
    WritesRegs s (conclude e clk (.done s)) e [] := by
  rw [conclude_done]
  refine ⟨conclude_goto_sameOutside .., conclude_goto_sameOthers _ _ _ _, _, conclude_goto_group clk _ (groupOf_of_env? he),
    ⟨rfl, rfl⟩, nofun, fun _ _ _ => rfl, ?_, rfl⟩
  simp [Group.ageHaz]

/-! ### Fetch (R19, R20, R366) -/

/-- A range that lies between two multiples of the step is one segment. -/
theorem segs_of_le {step a n : Nat} (hn : 0 < n) (h : a % step + n ≤ step) : segs step a n = [(a, n)] := by
  have hm : min n (step - a % step) = n := by omega
  obtain ⟨k, rfl⟩ : ∃ k, n = k + 1 := ⟨n - 1, by omega⟩
  rw [segs, segsFrom, if_neg (by omega)]
  simp only [hm, Nat.sub_self]
  cases k <;> rfl

/-- A line that the instruction cache holds comes from it, without poison. -/
theorem icLine_of_held {s : State} {core line : Nat} {d : LineData} (ca : Nat)
    (h : Assoc.get? s.icache (key2 (quadOf core) line) = some d) : icLine s core line ca = (s, d, 0) := by
  simp [icLine, h]

theorem icHeld_of_held {s : State} {core loc : Nat} {d : LineData}
    (h : Assoc.get? s.icache (key2 (quadOf core) (loc / 128)) = some d) : icHeld s core loc = false := by
  simp [icHeld, h]

theorem poisonAt_zero (loc n : Nat) : poisonAt 0 loc n = none := by
  simp [poisonAt]

theorem countLatent_zero (core line : Nat) (s : State) : countLatent core line 0 s = s := if_pos rfl

theorem ofBytes_toBytes (n x : Nat) : ofBytes (toBytes n x) = x % 2 ^ (8 * n) := by
  induction n generalizing x with
  | zero => simp [toBytes, ofBytes, Nat.mod_one]
  | succ n ih =>
    have hp : 2 ^ (8 * (n + 1)) = 256 * 2 ^ (8 * n) := by rw [Nat.mul_succ, Nat.pow_add, Nat.mul_comm]
    rw [toBytes, ofBytes, ih, hp, BitVec.toNat_ofNat, Nat.mod_mul]

/-- Twelve bytes of a line as a word. -/
theorem ofBytes_lineBytes (d : LineData) (off : Nat) :
    BitVec.ofNat 96 (ofBytes (lineBytes d off 12)) = d.extractLsb' (8 * off) 96 := by
  apply BitVec.eq_of_toNat_eq
  rw [lineBytes, ofBytes_toBytes, BitVec.toNat_ofNat, BitVec.extractLsb'_toNat, Nat.mod_mod]

/-- The fetch of a word in one line that the instruction cache holds. -/
theorem fetchRes_of_held {e : Env} {pc : DWord} {s1 : State} {loc ca : Nat} {d : LineData}
    (h4 : pc.toNat % 2 ^ 57 % 4 = 0) (ha : Assoc.get? e.grp.ahead pc.toNat = none)
    (hl : pc.toNat % 2 ^ 57 % 128 + 12 ≤ 128) (hv : pc.toNat % 2 ^ 57 + 12 ≤ 2 ^ 57)
    (ht : translate e.st e.team.ctx (pc.toNat / 2 ^ 57) (pc.toNat % 2 ^ 57) 12 .fetch = (s1, .ok loc ca))
    (hd : Assoc.get? s1.icache (key2 (quadOf e.team.core) (loc / 128)) = some d) :
    fetchRes e pc = .ok (s1, d.extractLsb' (8 * (loc % 128)) 96) := by
  have hs : fetchSegs e (pc.toNat / 2 ^ 57) (segs 128 (pc.toNat % 2 ^ 57) 12) e.st [] =
      (s1, .ok (lineBytes d (loc % 128) 12)) := by
    rw [segs_of_le (by decide) hl]
    simp only [fetchSegs, ht, icHeld_of_held hd, icLine_of_held ca hd, poisonAt_zero, countLatent_zero, List.nil_append,
      Bool.false_eq_true, if_false]
  have hf : fetchAt e pc e.st = (s1, .word (d.extractLsb' (8 * (loc % 128)) 96)) := by
    unfold fetchAt
    simp only [h4, ha, hs, ne_eq, not_true_eq_false, if_false, if_neg (Nat.not_lt.mpr hv), ofBytes_lineBytes]
  rw [fetchRes, hf]

/-! ### Guards and full/empty checks (R34, R39, R48) -/

theorem issue_of_false_guard {s : State} {e : Env} {i : Instr} {f : Slk} (body : Env → Res) (he : env? s s.cur = some e)
    (hf : fate e.grp.alloc i = none) (hg : guardsTrue e f.ga f.gb = false) :
    issue i f body s = .next (conclude e (issueClk e f) (.done e.st)) := by
  simp [issue, he, attempt, hf, hg]

theorem issue_checked {s : State} {e : Env} {i : Instr} {f : Slk} {h : Shape} (body : Env → Res)
    (he : env? s s.cur = some e) (hf : fate e.grp.alloc i = none) (hg : guardsTrue e f.ga f.gb = true)
    (hs : shapeOf e.grp.alloc i = some h) :
    issue i f body s = .next (conclude e (issueClk e f) (checked h f body e)) := by
  simp [issue, he, attempt, hf, hg, hs]

/-- Settles O7: the fetch by `fetchRes_of_held`, the checks by the branches of `attempt`, the end by what `conclude`
leaves. -/
theorem fetchAndIssue : Obligations.FetchAndIssue := by
  unfold Obligations.FetchAndIssue
  refine ⟨?fetch, ?guard, ?empty, ?concl⟩
  case fetch =>
    intro e pc s1 loc ca d h4 ha hl hv ht _ hd
    exact fetchRes_of_held h4 ha hl hv ht hd
  case guard =>
    intro s e i f opc h body he hp hs hf hg
    obtain ⟨-, -, hst, hgid⟩ := env?_eq he
    rw [issue_of_false_guard body he ((fate_of_slk hp hs).trans hf) hg, hst]
    exact ⟨_, rfl, conclude_nothing (hgid ▸ he) _⟩
  case empty =>
    intro s e i f h body he hf hg hs
    obtain ⟨-, -, hst, -⟩ := env?_eq he
    rw [issue_checked body he hf hg hs]
    refine ⟨fun k lane ht => ?_, fun ht hw => ?_⟩
    · simp only [checked, ht, hst]
    · simp only [checked, ht, hw, hst, if_true, conclude]
  case concl =>
    intro e clk s g he
    have hg := groupOf_of_env? he
    refine ⟨fun pc => conclude_goto_group clk pc hg, conclude_goto_group clk _ hg, fun w => conclude_wait_group clk w hg,
      conclude_goto_sameOutside .., conclude_goto_sameOthers _ _ _ _,
      fun pc => ⟨conclude_goto_sameOutside .., conclude_goto_sameOthers _ _ _ _⟩, fun w => ⟨?_, ?_⟩⟩
    · exact sameOutside_modGroup s e.gid (fun g => { g with cond := .wait w }) s.fresh
    · exact sameOthers_modGroup s e.gid (f := fun g => { g with cond := .wait w }) (fun _ => rfl) s.fresh

end Sys2Proof.Machine
end

section
/-! SUPPORT. Status registers and named lanes (O12): the parts of a register that a write replaces, and the register of
the lane that an index names. -/

namespace Sys2Proof.Machine

open Claims

/-! ### An instruction that executes -/

/-- The view of an instruction that executes holds the state it was taken from. -/
theorem st_of_executes {s : State} {e : Env} {i : Instr} {f : Slk} (h : Executes s e i f) : e.st = s := (env?_eq h.1).2.2.1

theorem env?_of_executes {s : State} {e : Env} {i : Instr} {f : Slk} (h : Executes s e i f) : env? s e.gid = some e := by
  rw [(env?_eq h.1).2.2.2]; exact h.1

/-- The body of an instruction that executes decides the step (R39). -/
theorem concluded_of_executes {s : State} {e : Env} {i : Instr} {f : Slk} (h : Executes s e i f) {body : Env → Res}
    {r : Res} (hb : body e = r) : issue i f body s = concluded e f r := by
  rw [issue_executes h, hb]; rfl

/-- What executes passes rows 3 and 4 of R48. -/
theorem fits_of_executes {s : State} {e : Env} {i : Instr} {f : Slk} {opc : Nat} {h : Shape} (hx : Executes s e i f)
    (hp : slkParts i = some (opc, f)) (hs : shapeOf e.grp.alloc i = some h) : FitsAll e.grp.alloc h f := by
  obtain ⟨-, hc⟩ := hx
  unfold canExecute at hc
  simp only [Bool.and_eq_true, Option.isNone_iff_eq_none] at hc
  exact fitsAll_of_shapeFate ((fate_of_slk hp hs).symm.trans hc.1.1)

/-- A position that takes lane registers alone holds one. -/
theorem lane_of_fits {alloc n : Nat} {o : Opnd} (h : Fits alloc (.own [.v] n) o) : ∃ r, o = .v r := by
  have := h.illop
  cases o <;> first | exact ⟨_, rfl⟩ | simp [posIllop, opKind] at this

/-- Without errors in its registers a group reads any of them (R121). -/
theorem readingRegs_of_good {e : Env} (h : e.grp.bad = []) (ds : List RegDst) (body : Env → Res) :
    readingRegs ds body e = body e := by
  simp [readingRegs, badAmong, h]

/-! ### What a write of a status register keeps (R192) -/

/-- The low bits of a word under a mask. -/
theorem ofNat_and_mask {w n : Nat} (x : Nat) (h : n ≤ w) :
    BitVec.ofNat w x &&& BitVec.ofNat w (2 ^ n - 1) = BitVec.ofNat w (x % 2 ^ n) := by
  apply BitVec.eq_of_toNat_eq
  have h1 : (2 ^ n - 1) % 2 ^ w = 2 ^ n - 1 :=
    Nat.mod_eq_of_lt (Nat.lt_of_lt_of_le (Nat.sub_lt (Nat.two_pow_pos n) Nat.one_pos) (Nat.pow_le_pow_right (by decide) h))
  have h2 : x % 2 ^ n < 2 ^ w := Nat.lt_of_lt_of_le (Nat.mod_lt _ (Nat.two_pow_pos n)) (Nat.pow_le_pow_right (by decide) h)
  rw [BitVec.toNat_and, BitVec.toNat_ofNat, BitVec.toNat_ofNat, BitVec.toNat_ofNat, h1, Nat.and_two_pow_sub_one_eq_mod,
    Nat.mod_mod_of_dvd _ (Nat.pow_dvd_pow 2 h), Nat.mod_eq_of_lt h2]

/-- A write of a 64-bit status register; b32 replaces the low half. -/
theorem swr64_eq (old : DWord) (t x : Nat) : swr64 old t x = if tyBits t = 64 then BitVec.ofNat 64 x
    else BitVec.ofNat 64 (old.toNat / 2 ^ 32 * 2 ^ 32 + x % 2 ^ 32) := by
  unfold swr64
  split
  · rfl
  · apply BitVec.eq_of_toNat_eq
    have hx : x % 2 ^ 32 < 2 ^ 32 := Nat.mod_lt _ (by decide)
    have ho := old.isLt
    rw [BitVec.toNat_append, BitVec.extractLsb'_toNat, BitVec.toNat_ofNat, BitVec.toNat_ofNat,
      ← Nat.shiftLeft_add_eq_or_of_lt hx, Nat.shiftLeft_eq, Nat.shiftRight_eq_div_pow]
    omega

/-- The high bits of a word under a mask. -/
theorem and_not_mask {w : Nat} (x : BitVec w) (n : Nat) :
    x &&& ~~~BitVec.ofNat w (2 ^ n - 1) = BitVec.ofNat w (x.toNat / 2 ^ n * 2 ^ n) := by
  have h : x &&& ~~~BitVec.ofNat w (2 ^ n - 1) = (x >>> n) <<< n := by
    ext i hi
    have hm : (BitVec.ofNat w (2 ^ n - 1))[i] = decide (i < n) := by
      rw [← BitVec.getLsbD_eq_getElem hi, BitVec.getLsbD_ofNat, Nat.testBit_two_pow_sub_one]
      simp [hi]
    rw [BitVec.getElem_and, BitVec.getElem_not, hm, BitVec.getElem_shiftLeft]
    by_cases hn : i < n
    · simp [hn]
    · have hn' : n + (i - n) = i := by omega
      simp [hn, hn', BitVec.getLsbD_eq_getElem hi]
  apply BitVec.eq_of_toNat_eq
  rw [h, BitVec.toNat_shiftLeft, BitVec.toNat_ushiftRight, BitVec.toNat_ofNat, Nat.shiftRight_eq_div_pow, Nat.shiftLeft_eq]

/-- The low seven bits of DESC_BASE read 0. -/
theorem and_not_low7 (x : DWord) : x &&& ~~~0x7F#64 = BitVec.ofNat 64 (x.toNat / 128 * 128) := and_not_mask x 7

/-- `swr` as its statement has it. -/
theorem swrBody_eq (f : Slk) (e : Env) : swrBody f e =
    let x := e.val (fTy f) 0 (.op f.s1)
    let low (n : Nat) : Word := BitVec.ofNat 32 (x % 2 ^ n)
    let wide (old : DWord) : DWord :=
      if tyBits (fTy f) = 64 then BitVec.ofNat 64 x else BitVec.ofNat 64 (old.toNat / 2 ^ 32 * 2 ^ 32 + x % 2 ^ 32)
    match opNum f.d with
    | 0x0B => if x % 8 = 5 ∨ x % 8 = 6 then .trap e.st { cause := 0x05, detail := 0x04, addr := x }
      else .done (e.mod fun g => { g with rmode := low 6 })
    | 0x0C => .done (e.mod fun g => { g with trapInfo := low 28 })
    | 0x0D => .done (e.mod fun g => { g with trapPc := wide g.trapPc })
    | 0x0E => .done (e.mod fun g => { g with trapAddr := wide g.trapAddr })
    | 0x0F => .done (e.mod fun g => { g with repCtr := low 7 })
    | 0x14 => .done (e.mod fun g => { g with descBase := BitVec.ofNat 64 ((wide g.descBase).toNat / 128 * 128) })
    | 0x15 => .done (e.mod fun g => { g with tvec := wide g.tvec })
    | n => if n ≤ 0x19 then .trap e.st { cause := 0x06, detail := 0x04 } else .done e.st := by
  have m6 := ofNat_and_mask (w := 32) (n := 6) (e.val (fTy f) 0 (.op f.s1)) (by decide)
  have m7 := ofNat_and_mask (w := 32) (n := 7) (e.val (fTy f) 0 (.op f.s1)) (by decide)
  have m28 := ofNat_and_mask (w := 32) (n := 28) (e.val (fTy f) 0 (.op f.s1)) (by decide)
  simp only [← swr64_eq, ← and_not_low7, ← m6, ← m7, ← m28]
  rfl

/-! ### Named lanes (R193) -/

/-- A type takes one register or two. -/
theorem tyRegs_cases (t : Nat) : tyRegs t = 1 ∨ tyRegs t = 2 := by
  unfold tyRegs
  split <;> simp

/-- The registers of a lane register's operand as one number. -/
theorem wide_lane (e : Env) (l : Nat) (r : BitVec 8) {n : Nat} (hn : n = 1 ∨ n = 2) : e.wide l (.v r) n =
    if n = 2 then (e.reg 0 ⟨.v, r.toNat + 0, l⟩).toNat + (e.reg 0 ⟨.v, r.toNat + 1, l⟩).toNat * 2 ^ 32
    else (e.reg 0 ⟨.v, r.toNat + 0, l⟩).toNat := by
  rcases hn with rfl | rfl <;> simp [Env.wide, Env.word]

/-- `rdlane` on a full named lane. -/
theorem rdlaneBody_read {f : Slk} {e : Env} {r : BitVec 8} (hs : f.s1 = .v r) (hb : e.grp.bad = [])
    (hi : e.n32 0 (srcOf f 2 2) < e.grant)
    (hf : (opRegs f.s1 (tyRegs (fTy f)) [e.n32 0 (srcOf f 2 2)]).any e.grp.isEmpty = false) :
    rdlaneBody f e = .done (writeLong e false (dstWrites f.d (tyRegs (fTy f)) 0
      (if e.holds (e.n32 0 (srcOf f 2 2)) = false ∨ (fV f = true ∧ e.isActive (e.n32 0 (srcOf f 2 2)) = false) then 0
        else e.wide (e.n32 0 (srcOf f 2 2)) f.s1 (tyRegs (fTy f)))) e.st) := by
  rw [hs] at hf ⊢
  unfold rdlaneBody Env.cnt
  simp only [if_neg (Nat.not_le.mpr hi), hf, Bool.false_eq_true, if_false, readingRegs_of_good hb, hs, opNum,
    wide_lane e _ r (tyRegs_cases (fTy f)), Bool.or_eq_true, Bool.and_eq_true, Bool.not_eq_true']

/-- Both formats of `rdlane` leave S1 its field. -/
theorem rdlane_s1 {f : Slk} (h : (shRdlane f).fmts.contains f.fmt.toNat = true) :
    (shRdlane f).s1 = .own [.v] (tyRegs (fTy f)) := by
  have hm : f.fmt.toNat = 0 ∨ f.fmt.toNat = 1 := by simpa [shRdlane, mkShape] using h
  rcases hm with h0 | h1 <;> simp [shRdlane, mkShape, srcFields, nthPos, *]

/-- Settles O12: `swr` register by register, `rdlane` and `wrlane` by where the index points and what stands there. -/
theorem statusRegistersAndNamedLanes : Obligations.StatusRegistersAndNamedLanes := by
  unfold Obligations.StatusRegistersAndNamedLanes
  refine ⟨fun s e f hx => ?swr, fun s e f hx hb => ?rdlane, fun s e f hx => ?wrlane⟩
  case swr =>
    exact concluded_of_executes hx (st_of_executes hx ▸ swrBody_eq f e)
  case rdlane =>
    obtain ⟨r, hr⟩ : ∃ r, f.s1 = .v r := by
      obtain ⟨hm, -, h1, -⟩ := fits_of_executes hx rfl rfl
      exact lane_of_fits (rdlane_s1 hm ▸ h1)
    have hst := st_of_executes hx
    refine ⟨fun hi => ?_, fun hi hf => ?_, fun hi hf _ => ?_⟩
    · refine concluded_of_executes hx (body := rdlaneBody f) ?_
      simp only [rdlaneBody, Env.cnt, if_pos hi, laneTrap, hst]
    · rw [← hst]
      exact concluded_of_executes (hst.symm ▸ hx) (rdlaneBody_read hr hb hi hf)
    · refine concluded_of_executes hx (body := rdlaneBody f) ?_
      simp only [rdlaneBody, Env.cnt, if_neg (Nat.not_le.mpr hi), hf, if_true, hst]
  case wrlane =>
    have hst := st_of_executes hx
    refine ⟨fun hi => ?_, fun hi hf hh => ?_, fun hi hf hh => ?_⟩ <;>
      refine concluded_of_executes hx (body := wrlaneBody f) ?_
    · simp only [wrlaneBody, Env.cnt, if_pos hi, laneTrap, hst]
    · simp only [wrlaneBody, Env.cnt, if_neg (Nat.not_le.mpr hi), hf, hh, Bool.false_eq_true, if_false, Bool.not_true, hst]
    · simp only [wrlaneBody, Env.cnt, if_neg (Nat.not_le.mpr hi), hf, hh, Bool.false_eq_true, if_false, Bool.not_false,
        if_true, hst]

end Sys2Proof.Machine
end

section
/-! SUPPORT. Long-latency results (O17): full/empty bits after registers are marked, and what the issue and the arrival of
a result leave of the group. -/

namespace Sys2Proof.Machine

/-! ### Full/empty bits (R36) -/

/-- A register with a full/empty bit. -/
def RegDst.tagged (d : RegDst) : Prop := (d.file = .v ∧ d.lane < 128) ∨ (d.file = .s ∧ d.num < 128 ∧ d.lane = 0)

theorem RegDst.tagged.isReg {d : RegDst} (h : d.tagged) : IsReg d := by
  obtain ⟨f, n, l⟩ := d
  rcases h with ⟨hf, hl⟩ | ⟨hf, -, hl⟩ <;> cases hf <;> exact hl

/-- A set of uniform registers as its members. -/
theorem one_shift_128_getLsbD (i j : Nat) (hi : i < 128) : ((1 : BitVec 128) <<< i).getLsbD j = decide (j = i) :=
  laneBit_getLsbD i j hi

theorem mark_v_isEmpty (g : Group) (b : Bool) {n l : Nat} (hl : l < 128) {d : RegDst} (hd : IsReg d) :
    (g.mark b ⟨.v, n, l⟩).isEmpty d = if d = ⟨.v, n, l⟩ then b else g.isEmpty d := by
  obtain ⟨fd, nd, ld⟩ := d
  cases fd
  case v =>
    simp only [Group.mark, Group.isEmpty, Assoc.rd_wr, RegDst.mk.injEq, true_and]
    by_cases hn : nd = n
    · subst hn
      cases b
      · simp only [if_true, true_and, Bool.false_eq_true, if_false, andNot_laneBit _ l ld hl hd]
        by_cases h : ld = l <;> simp [h]
      · simp only [if_true, true_and, or_laneBit _ l ld hl]
        by_cases h : ld = l <;> simp [h]
    · simp [hn]
  all_goals (rw [if_neg (by simp)]; rfl)

theorem mark_s_isEmpty (g : Group) (b : Bool) {n : Nat} (hn : n < 128) {d : RegDst} (hd : IsReg d)
    (hs : d.file = .s → d.num < 128) :
    (g.mark b ⟨.s, n, 0⟩).isEmpty d = if d = ⟨.s, n, 0⟩ then b else g.isEmpty d := by
  obtain ⟨fd, nd, ld⟩ := d
  cases fd
  case s =>
    obtain rfl : ld = 0 := hd
    have hnd : nd < 128 := hs rfl
    simp only [Group.mark, Group.isEmpty, RegDst.mk.injEq, true_and, and_true]
    cases b
    · simp only [Bool.false_eq_true, if_false, BitVec.getLsbD_and, BitVec.getLsbD_not, one_shift_128_getLsbD n nd hn]
      by_cases h : nd = n <;> simp [h, hnd, hn]
    · simp only [if_true, BitVec.getLsbD_or, one_shift_128_getLsbD n nd hn]
      by_cases h : nd = n <;> simp [h]
  all_goals (rw [if_neg (by simp)]; rfl)

/-- A full/empty bit after a register is marked. -/
theorem mark_isEmpty (g : Group) (b : Bool) {x d : RegDst} (hx : x.tagged) (hd : IsReg d)
    (hs : d.file = .s → d.num < 128) : (g.mark b x).isEmpty d = if d = x then b else g.isEmpty d := by
  obtain ⟨f, n, l⟩ := x
  rcases hx with ⟨hf, hl⟩ | ⟨hf, hn, hl⟩ <;> cases hf
  · exact mark_v_isEmpty g b hl hd
  · cases hl; exact mark_s_isEmpty g b hn hd hs

/-- A full/empty bit after registers are marked. -/
theorem marks_isEmpty (b : Bool) (ds : List RegDst) (g : Group) (ht : ∀ x ∈ ds, x.tagged) {d : RegDst} (hd : IsReg d)
    (hs : d.file = .s → d.num < 128) : (g.marks b ds).isEmpty d = if d ∈ ds then b else g.isEmpty d := by
  induction ds generalizing g with
  | nil => simp [Group.marks]
  | cons x ds ih =>
    have h := ih (g.mark b x) fun y hy => ht y (List.mem_cons_of_mem _ hy)
    rw [mark_isEmpty g b (ht x (List.mem_cons_self ..)) hd hs] at h
    rw [show g.marks b (x :: ds) = (g.mark b x).marks b ds from rfl, h]
    by_cases hx : d = x <;> by_cases hm : d ∈ ds <;> simp [hx, hm]

/-- Marks change the full/empty bits alone. -/
theorem marks_rest (b : Bool) (ds : List RegDst) (g : Group) :
    g.marks b ds = { g with vEmpty := (g.marks b ds).vEmpty, sEmpty := (g.marks b ds).sEmpty } := by
  induction ds generalizing g with
  | nil => rfl
  | cons x ds ih =>
    have h := ih (g.mark b x)
    rw [show g.marks b (x :: ds) = (g.mark b x).marks b ds from rfl]
    generalize (g.mark b x).marks b ds = g2 at h ⊢
    obtain ⟨f, n, l⟩ := x
    cases f <;> exact h

theorem marks_reg (b : Bool) (ds : List RegDst) (g : Group) (d : RegDst) : (g.marks b ds).reg d = g.reg d := by
  rw [marks_rest]; rfl

theorem marks_idx (b : Bool) (ds : List RegDst) (g : Group) : (g.marks b ds).idx = g.idx := by rw [marks_rest]

/-! ### The issue of a long-latency producer (R36) -/

theorem setRegs_nil (g : Group) : g.setRegs [] = g := by
  rw [setRegs_eq]
  simp [Group.putRegs]

theorem modGroup_id (gid : Gid) (s : State) {f : Group → Group} (hf : ∀ g, f g = g) : modGroup gid f s = s := by
  have ht (t : Team) : t.modGroup gid.group f = t := by simp [Team.modGroup, hf]
  simp [modGroup, modTeam, ht]

/-- A producer of registers with full/empty bits posts its results and marks the registers. -/
theorem writeLong_tagged (e : Env) (rgn : Bool) {ws : List RegWrite} (s : State) (h0 : 0 < ws.length)
    (ht : ∀ w ∈ ws, w.dst.tagged) :
    writeLong e rgn ws s = postRegs e.gid e.team.ctx e.team.core rgn ws s := by
  have hr : ∀ w ∈ ws, (w.dst.file == .v || w.dst.file == .s) = true := fun w hw => by
    rcases ht w hw with ⟨hf, -⟩ | ⟨hf, -, -⟩ <;> simp [hf]
  have hp : (ws.filter fun w => !(w.dst.file == .v || w.dst.file == .s)) = [] :=
    List.filter_eq_nil_iff.2 fun w hw => by rw [hr w hw]; decide
  have hq : (ws.filter fun w => w.dst.file == .v || w.dst.file == .s) = ws := List.filter_eq_self.2 hr
  have hany : (ws.any fun w => w.dst.file == .v || w.dst.file == .s) = true := by
    obtain ⟨w, hw⟩ := List.exists_mem_of_length_pos h0
    exact List.any_eq_true.2 ⟨w, hw, hr w hw⟩
  simp only [writeLong, hp, hq, hany, if_true, modGroup_id e.gid s setRegs_nil]

/-- A producer of predicates writes them at once. -/
theorem writeLong_predicates (e : Env) (rgn : Bool) {ws : List RegWrite} (s : State)
    (hp : ∀ w ∈ ws, w.dst.file = .p ∨ w.dst.file = .q) :
    writeLong e rgn ws s = modGroup e.gid (Group.setRegs ws) s := by
  have hr : ∀ w ∈ ws, (w.dst.file == .v || w.dst.file == .s) = false := fun w hw => by
    rcases hp w hw with hf | hf <;> simp [hf]
  have hps : (ws.filter fun w => !(w.dst.file == .v || w.dst.file == .s)) = ws :=
    List.filter_eq_self.2 fun w hw => by rw [hr w hw]; rfl
  have hany : (ws.any fun w => w.dst.file == .v || w.dst.file == .s) = false :=
    List.any_eq_false.2 fun w hw => by rw [hr w hw]; decide
  simp only [writeLong, hps, hany, Bool.false_eq_true, if_false]

theorem setRegs_rest (ws : List RegWrite) (g : Group) : g.setRegs ws =
    { g with v := (g.setRegs ws).v, s := (g.setRegs ws).s, p := (g.setRegs ws).p, q := (g.setRegs ws).q
             bad := (g.setRegs ws).bad, haz := (g.setRegs ws).haz } := by
  have h := putRegs_rest ws g
  rw [setRegs_eq]
  generalize g.putRegs ws = g1 at h ⊢
  rw [h]

theorem setRegs_idx (ws : List RegWrite) (g : Group) : (g.setRegs ws).idx = g.idx := by rw [setRegs_rest]

/-- The group at the end of an instruction whose body replaced it by `h`. -/
def concluding (clk : Nat) (pc : DWord) (h : Group → Group) (g : Group) : Group :=
  { (h g).ageHaz clk with cond := .ready, pc := pc }

theorem concluding_idx (clk : Nat) (pc : DWord) {h : Group → Group} (hi : ∀ g, (h g).idx = g.idx) (g : Group) :
    (concluding clk pc h g).idx = g.idx := hi g

/-- The end of an instruction whose body replaced its group. -/
theorem conclude_done_modGroup (e : Env) (clk : Nat) (s : State) {h : Group → Group} (hi : ∀ g, (h g).idx = g.idx) :
    ∃ n, conclude e clk (.done (modGroup e.gid h s)) =
      { modGroup e.gid (concluding clk (pcAdd e.grp.pc 12) h) s with fresh := n } := by
  obtain ⟨n, hn⟩ := conclude_goto_eq e clk (modGroup e.gid h s) (pcAdd e.grp.pc 12)
  exact ⟨n, by rw [conclude_done, hn, modGroup_modGroup e.gid h _ s hi]; rfl⟩

/-- Registers seen at once are all that an instruction wrote. -/
theorem conclude_setRegs {s : State} {e : Env} (he : env? s e.gid = some e) (clk : Nat) {ws : List RegWrite}
    (hw : ∀ w ∈ ws, IsReg w.dst ∧ w.dst.kept w.val = w.val) (hd : (ws.map (·.dst)).Nodup) :
    WritesRegs s (conclude e clk (.done (modGroup e.gid (Group.setRegs ws) s))) e ws := by
  obtain ⟨n, hc⟩ := conclude_done_modGroup e clk s (setRegs_idx ws)
  rw [hc]
  have hi := concluding_idx clk (pcAdd e.grp.pc 12) (setRegs_idx ws)
  refine ⟨sameOutside_modGroup .., sameOthers_modGroup s e.gid hi n, concluding clk _ (Group.setRegs ws) e.grp, ?_,
    ⟨rfl, rfl⟩, fun w hm hp => ?_, fun d hdr hn => ?_, ?_, ?_⟩
  · rw [groupOf_fresh]
    exact groupOf_modGroup_self hi (groupOf_of_env? he)
  · change (e.grp.putRegs ws).reg w.dst = w.val
    rw [reg_putRegs_mem ws e.grp w hm (fun x hx => (hw x hx).1) hd hp, (hw w hm).2]
  · exact reg_putRegs_other ws e.grp d hdr (fun x hx => (hw x hx).1) hn
  · exact putRegs_bad ws e.grp
  · have h2 := setRegs_rest ws e.grp
    simp only [concluding, Group.ageHaz]
    generalize e.grp.setRegs ws = g1 at h2 ⊢
    rw [h2]

/-- The group of a producer whose results are on their way. -/
def producing (clk : Nat) (pc : DWord) (ds : List RegDst) : Group → Group := concluding clk pc (Group.marks true ds)

theorem producing_idx (clk : Nat) (pc : DWord) (ds : List RegDst) (g : Group) : (producing clk pc ds g).idx = g.idx :=
  concluding_idx clk pc (marks_idx true ds) g

theorem conclude_postRegs (e : Env) (clk : Nat) (s : State) (ctx core : Nat) (rgn : Bool) (ws : List RegWrite) :
    ∃ n, conclude e clk (.done (postRegs e.gid ctx core rgn ws s)) =
      { modGroup e.gid (producing clk (pcAdd e.grp.pc 12) (ws.map (·.dst)))
          (post e.gid ctx core (.regs rgn ws) s) with fresh := n } :=
  conclude_done_modGroup e clk (post e.gid ctx core (.regs rgn ws) s) (marks_idx true (ws.map (·.dst)))

theorem groupOf_post (gid : Gid) (ctx core : Nat) (k : PendKind) (s : State) (g : Gid) :
    groupOf (post gid ctx core k s) g = groupOf s g :=
  groupOf_of_teams (s := s) (t := post gid ctx core k s) rfl g

/-- A producer on its way changes its full/empty bits alone. -/
theorem producing_keepsGroup (clk : Nat) (pc : DWord) (ds : List RegDst) (g : Group) :
    KeepsGroup { g with vEmpty := (producing clk pc ds g).vEmpty, sEmpty := (producing clk pc ds g).sEmpty }
      (producing clk pc ds g) [] := by
  have h := marks_rest true ds g
  simp only [producing, concluding, Group.ageHaz]
  generalize g.marks true ds = g1 at h ⊢
  refine ⟨fun d _ _ => ?_, ?_, ?_⟩ <;> rw [h]
  · rfl
  · simp

/-! ### The arrival of a result (R36, R37) -/

/-- The group when a result arrives. -/
def filled (ws : List RegWrite) (g : Group) : Group :=
  ((g.putRegs ws).marks false (ws.map (·.dst))).dropHaz (ws.map (·.dst))

theorem filled_idx (ws : List RegWrite) (g : Group) : (filled ws g).idx = g.idx :=
  (marks_idx false (ws.map fun w : RegWrite => w.dst) (g.putRegs ws)).trans (putRegs_idx ws g)

theorem filled_reg (ws : List RegWrite) (g : Group) (d : RegDst) : (filled ws g).reg d = (g.putRegs ws).reg d :=
  marks_reg false (ws.map fun w : RegWrite => w.dst) (g.putRegs ws) d

theorem filled_isEmpty (ws : List RegWrite) (g : Group) {w : RegWrite} (ht : ∀ w ∈ ws, w.dst.tagged) (hw : w ∈ ws) :
    (filled ws g).isEmpty w.dst = false := by
  have hs : w.dst.file = .s → w.dst.num < 128 := fun h => by
    rcases ht w hw with ⟨hf, -⟩ | ⟨-, hn, -⟩
    · rw [hf] at h; cases h
    · exact hn
  have h := marks_isEmpty false (ws.map (·.dst)) (g.putRegs ws) (fun x hx => by
    obtain ⟨y, hy, rfl⟩ := List.mem_map.1 hx; exact ht y hy) (ht w hw).isReg hs
  rw [if_pos (List.mem_map_of_mem hw)] at h
  exact h

theorem groupOf_unpost (id : Nat) (s : State) (g : Gid) : groupOf (unpost id s) g = groupOf s g :=
  groupOf_of_teams (s := s) (t := unpost id s) rfl g

theorem resultStep_of_regs {s : State} {id : Nat} {p : Pend} {rgn : Bool} {ws : List RegWrite}
    (hp : s.pend? id = some p) (hk : p.kind = .regs rgn ws) :
    resultStep id s = modGroup p.owner (filled ws) (unpost id s) := by
  rw [resultStep, hp]
  simp only [hk]
  rfl

/-- A register with a full/empty bit keeps all of a word. -/
theorem RegDst.tagged.kept {d : RegDst} (h : d.tagged) (x : Word) : d.kept x = x := by
  rcases h with ⟨hf, -⟩ | ⟨hf, -, -⟩ <;> simp [RegDst.kept, hf]

/-- A predicate keeps a bit. -/
theorem kept_of_bit (d : RegDst) {x : Word} (h : x = 0 ∨ x = 1) : d.kept x = x := by
  rcases h with rfl | rfl <;> cases hf : d.file <;> simp [RegDst.kept, hf]

/-- Settles O17: a producer's group by `producing`, a predicate's by `conclude_setRegs`, an arrival's by `filled`. -/
theorem longLatencyRegisters : Obligations.LongLatencyRegisters := by
  unfold Obligations.LongLatencyRegisters
  refine ⟨?produce, ?predicates, ?arrive⟩
  case produce =>
    intro e s clk ws he h0 (ht : ∀ w ∈ ws, w.dst.tagged)
    obtain ⟨n, hc⟩ := conclude_postRegs e clk s e.team.ctx e.team.core false ws
    simp only [writeLong_tagged e false s h0 ht, hc]
    have hi := producing_idx clk (pcAdd e.grp.pc 12) (ws.map (·.dst))
    refine ⟨rfl, sameOutside_modGroup .., fun h hne => ?_, producing clk (pcAdd e.grp.pc 12) (ws.map (·.dst)) e.grp, ?_, ⟨rfl, rfl⟩,
      producing_keepsGroup .., fun d hd hs => ?_⟩
    · rw [sameOthers_modGroup _ e.gid hi n h hne, groupOf_post]
    · rw [groupOf_fresh]
      exact groupOf_modGroup_self hi ((groupOf_post ..).trans (groupOf_of_env? he))
    · have hm := marks_isEmpty true (ws.map (·.dst)) e.grp (fun x hx => by
        obtain ⟨y, hy, rfl⟩ := List.mem_map.1 hx; exact ht y hy) hd hs
      change (e.grp.marks true _).isEmpty d = _
      rw [hm]
      by_cases h : d ∈ ws.map (·.dst) <;> simp [h]
  case predicates =>
    intro e s clk ws he hd hw
    rw [writeLong_predicates e false s fun w h => (hw w h).2.1]
    exact conclude_setRegs he clk (fun w h => ⟨(hw w h).1, kept_of_bit _ (hw w h).2.2⟩) hd
  case arrive =>
    intro s id p rgn ws g hp hk hg (ht : ∀ w ∈ ws, w.dst.tagged) hd
    have hr : ∀ w ∈ ws, IsReg w.dst := fun w hw => (ht w hw).isReg
    refine ⟨modGroup p.owner (filled ws) (unpost id s), filled ws g, congrArg _ (resultStep_of_regs hp hk), rfl, fun h hne => ?_, ?_, fun w hw hh => ?_,
      fun w hw => filled_isEmpty ws g ht hw, fun d hdr hn => ?_⟩
    · rw [groupOf_modGroup _ p.owner h _ (filled_idx ws), groupOf_unpost]
      simp [hne]
    · exact groupOf_modGroup_self (filled_idx ws) ((groupOf_unpost ..).trans hg)
    · rw [filled_reg, reg_putRegs_mem ws g w hw hr hd hh, (ht w hw).kept]
    · rw [filled_reg, reg_putRegs_other ws g d hdr hr hn]

end Sys2Proof.Machine
end

section
/-! SUPPORT. What memory operations and page walks leave of the front of the machine (O18, O21): the groups but for their
monitors, what is posted, the pools and the counts of slips. -/

namespace Sys2Proof.Machine

open Claims

/-- A group without its monitors. -/
def Group.quiet (g : Group) : Group := { g with mon := [] }
/-- A team whose groups have no monitors. -/
def Team.quiet (t : Team) : Team := { t with groups := t.groups.map Group.quiet }

/-- What no access to memory changes. -/
structure Front where
  cur : Gid
  teams : List Team
  pend : List Pend
  nextId : Nat
  regx : List RegxReq
  pool : Assoc Byte
  slips : Assoc Nat

/-- The front of a state. -/
def State.front (s : State) : Front := ⟨s.cur, s.teams.map Team.quiet, s.pend, s.nextId, s.regx, s.pool, s.slips⟩

/-! ### Groups of states with the same front -/

theorem team?_quiet (s : State) (u : Nat) :
    (s.teams.map Team.quiet).find? (fun t => t.uid == u) = (s.team? u).map Team.quiet := by
  rw [List.find?_map]; rfl

theorem group?_quiet (t : Team) (i : Nat) : t.quiet.group? i = (t.group? i).map Group.quiet := by
  unfold Team.group? Team.quiet
  rw [List.find?_map]; rfl

/-- A group without its monitors, from the teams without them. -/
theorem groupOf_quiet (s : State) (g : Gid) : (groupOf s g).map Group.quiet =
    ((s.teams.map Team.quiet).find? fun t => t.uid == g.team).bind fun t => t.group? g.group := by
  rw [team?_quiet]
  unfold groupOf env?
  cases s.team? g.team with
  | none => rfl
  | some t =>
    rw [Option.map_some, Option.bind_some, group?_quiet]
    dsimp only
    cases t.group? g.group <;> rfl

theorem sameGroups_of_front {s t : State} (h : t.front = s.front) : SameGroups s t := fun g => by
  change (groupOf t g).map Group.quiet = (groupOf s g).map Group.quiet
  rw [groupOf_quiet, groupOf_quiet, show t.teams.map Team.quiet = s.teams.map Team.quiet from congrArg Front.teams h]

/-- A group of the later state. -/
theorem groupOf_of_front {s t : State} (h : t.front = s.front) {g : Gid} {x : Group} (hg : groupOf s g = some x) :
    ∃ m, groupOf t g = some { x with mon := m } := by
  have hq : (groupOf t g).map Group.quiet = (groupOf s g).map Group.quiet := sameGroups_of_front h g
  rw [hg, Option.map_some] at hq
  obtain ⟨y, hy, hyx⟩ := Option.map_eq_some_iff.mp hq
  refine ⟨y.mon, hy.trans ?_⟩
  obtain ⟨⟩ := x
  obtain ⟨⟩ := y
  simp only [Group.quiet, Group.mk.injEq] at hyx
  simp [hyx]

theorem front_foldl {α : Type} {f : State → α → State} (h : ∀ s x, (f s x).front = s.front) (l : List α) (s : State) :
    (l.foldl f s).front = s.front := by
  induction l generalizing s with
  | nil => rfl
  | cons x l ih => exact (ih _).trans (h s x)

theorem ite_front {c : Prop} [Decidable c] {s t u : State} (ht : t.front = s.front) (hu : u.front = s.front) :
    (if c then t else u).front = s.front := by split <;> assumption

/-! ### The controller, the L2 and the home -/

@[simp] theorem logEvent_front (s : State) (c d x : Nat) : (logEvent s c d x).front = s.front := rfl
@[simp] theorem setSectorEcc_front (s : State) (n : Nat) (e : Option Ecc) : (setSectorEcc s n e).front = s.front := rfl
@[simp] theorem l2Put_front (s : State) (n : Nat) (l : L2Line) : (l2Put s n l).front = s.front := rfl
@[simp] theorem mgmtRefuse_front (s : State) (n : Nat) : (mgmtRefuse s n).front = s.front := rfl
@[simp] theorem biSend_front (s : State) (a n : Nat) (b : Bool) : (biSend s a n b).front = s.front := rfl
@[simp] theorem setCtx_front (s : State) (c : Nat) (x : Ctx) : (s.setCtx c x).front = s.front := rfl

/-- A monitor that fires is all that changes of a group. -/
@[simp] theorem fire_front (b : Bool) (n : Nat) (s : State) : (fire b n s).front = s.front := by
  have h (t : Team) : (Team.fire b n t).quiet = t.quiet := by
    simp only [Team.fire, Team.quiet, List.map_map]
    rfl
  simp [fire, State.front, h]

@[simp] theorem correctSector_front (s : State) (n : Nat) : (correctSector s n).front = s.front := by
  unfold correctSector
  refine front_foldl (fun s x => ?_) _ _
  rfl

@[simp] theorem resolveSector_front (s : State) (n : Nat) : (resolveSector s n).1.front = s.front := by
  have h := ite_front (c := (((sectorEcc s n).map (·.2)).any fun x => decide (x = some .single)) = true)
    (correctSector_front s n) (rfl : s.front = s.front)
  unfold resolveSector
  dsimp only
  generalize (if (((sectorEcc s n).map (·.2)).any fun x => decide (x = some .single)) = true then correctSector s n else s) =
    t at h ⊢
  split <;> exact h

@[simp] theorem l2Fill_front (s : State) (n i : Nat) : (l2Fill s n i).1.front = s.front := by
  unfold l2Fill
  dsimp only
  split
  · rfl
  · simp

@[simp] theorem l2FillLine_front (s : State) (n : Nat) : (l2FillLine s n).1.front = s.front := by simp [l2FillLine]

@[simp] theorem l2Write_front (s : State) (a : Nat) (bs : List Byte) : (l2Write s a bs).front = s.front := by
  unfold l2Write
  dsimp only
  repeat' split
  all_goals simp

@[simp] theorem homeLine_front (s : State) (n : Nat) : (homeLine s n).1.front = s.front := by
  unfold homeLine
  split
  · rfl
  · split
    · exact l2FillLine_front s n
    · rfl

@[simp] theorem homeWrite_front (s : State) (a : Nat) (bs : List Byte) : (homeWrite s a bs).front = s.front := by
  refine front_foldl (fun s x => ?_) _ _
  dsimp only
  split
  · rfl
  · split
    · exact l2Write_front ..
    · repeat' split
      all_goals rfl

@[simp] theorem homeRead_front (s : State) (a n : Nat) : (homeRead s a n).1.front = s.front := by
  have h : ∀ (l : List (Nat × Nat)) (x : State × List Byte × Bool), (l.foldl (fun (s, bs, p) (a, m) =>
      let (s, d, q) := homeLine s (a / 128)
      (s, bs ++ lineBytes d (a % 128) m, p || poisonIn q (a % 128) m)) x).1.front = x.1.front := by
    intro l
    induction l with
    | nil => intro x; rfl
    | cons y l ih => intro x; rw [List.foldl_cons, ih]; simp
  exact h (segs 128 a n) (s, [], false)

@[simp] theorem homeNat_front (s : State) (a n : Nat) : (homeNat s a n).1.front = s.front := homeRead_front s a n

@[simp] theorem homePoison_front (s : State) (a n : Nat) : (homePoison s a n).front = s.front := by
  refine front_foldl (fun s x => ?_) _ _
  dsimp only
  split <;> simp

/-! ### The RDC -/

@[simp] theorem rdcPut_front (s : State) (d n : Nat) (r : RdcLine) : (rdcPut s d n r).front = s.front := rfl

@[simp] theorem rdcBackSec_front (r : RdcLine) (n : Nat) (s : State) (i : Nat) :
    (rdcBackSec r n s i).front = s.front := by
  unfold rdcBackSec
  dsimp only
  repeat' split
  all_goals first | exact front_foldl (fun _ _ => homeWrite_front ..) _ _ | simp

@[simp] theorem rdcWriteBack_front (s : State) (d n : Nat) : (rdcWriteBack s d n).front = s.front := by
  unfold rdcWriteBack
  dsimp only
  split
  · rfl
  · exact (rdcPut_front ..).trans (front_foldl (fun _ _ => rdcBackSec_front ..) _ _)

@[simp] theorem rdcDrop_front (s : State) (d n : Nat) : (rdcDrop s d n).front = s.front := rdcWriteBack_front s d n

@[simp] theorem hostOwn_front (s : State) (d a : Nat) : (hostOwn s d a).front = s.front := by
  unfold hostOwn
  split
  · exact front_foldl (fun _ _ => rdcDrop_front ..) _ _
  · rfl

@[simp] theorem hostShare_front (s : State) (d a : Nat) : (hostShare s d a).front = s.front := by
  unfold hostShare
  split
  · exact front_foldl (fun _ _ => rdcWriteBack_front ..) _ _
  · rfl

@[simp] theorem hostPast_front (s : State) (a n : Nat) : (hostPast s a n).front = s.front :=
  front_foldl (fun _ _ => hostOwn_front ..) _ _

@[simp] theorem rdcFillLine_front (s : State) (d n : Nat) : (rdcFillLine s d n).1.front = s.front := by
  unfold rdcFillLine
  dsimp only
  split <;> simp

@[simp] theorem lowerLine_front (s : State) (d n : Nat) (b : Bool) (ch : Nat) :
    (lowerLine s d n b ch).1.front = s.front := by
  unfold lowerLine
  dsimp only
  repeat' split
  all_goals simp

/-! ### Translation -/

@[simp] theorem freeBit_front (s : State) (k : Nat) : (freeBit s k).1.front = s.front := rfl

@[simp] theorem boundsEntry_front (s : State) (c r : Nat) : (boundsEntry s c r).1.front = s.front := by
  unfold boundsEntry
  dsimp only
  split
  · exact homeNat_front ..
  · repeat' split
    all_goals simp

@[simp] theorem regionCheck_front (s : State) (c rid va n : Nat) (a : Acc) :
    (regionCheck s c rid va n a).1.front = s.front := by
  unfold regionCheck
  dsimp only
  repeat' split
  all_goals simp

@[simp] theorem walkFrom_front (k : Nat) (s : State) (tab va : Nat) : (walkFrom k s tab va).1.front = s.front := by
  induction k generalizing s tab with
  | zero =>
    unfold walkFrom
    dsimp only
    repeat' split
    all_goals simp
  | succ k ih =>
    unfold walkFrom
    dsimp only
    repeat' split
    all_goals simp [ih]

@[simp] theorem markLeaf_front (s : State) (a e : Nat) (w : Bool) : (markLeaf s a e w).front = s.front := by
  unfold markLeaf
  exact ite_front rfl (homeWrite_front ..)

@[simp] theorem sharedLeaf_front (s : State) (r : WalkEnd) : (sharedLeaf s r).1.front = s.front := by
  unfold sharedLeaf
  split
  · split
    · dsimp only
      split
      · simp
      · exact homeNat_front ..
    · rfl
  · rfl

@[simp] theorem findLeaf_front (s : State) (c va : Nat) (w : Bool) : (findLeaf s c va w).1.front = s.front := by
  have h : (sharedLeaf (walkFrom 4 s (s.ctx c).ptRoot.toNat va).1 (walkFrom 4 s (s.ctx c).ptRoot.toNat va).2).1.front =
      s.front := by simp
  unfold findLeaf
  dsimp only
  generalize sharedLeaf (walkFrom 4 s (s.ctx c).ptRoot.toNat va).1 (walkFrom 4 s (s.ctx c).ptRoot.toNat va).2 = x at h ⊢
  repeat' split
  all_goals exact h

@[simp] theorem pageLook_front (s : State) (c rid va : Nat) (a : Acc) : (pageLook s c rid va a).1.front = s.front := by
  have h := findLeaf_front s c va a.writes
  unfold pageLook
  generalize findLeaf s c va a.writes = x at h ⊢
  dsimp only
  repeat' split
  all_goals simp [h]

@[simp] theorem translate_front (s : State) (c rid va n : Nat) (a : Acc) :
    (translate s c rid va n a).1.front = s.front := by
  have h := regionCheck_front s c rid va n a
  unfold translate
  generalize regionCheck s c rid va n a = x at h ⊢
  dsimp only
  split <;> simp [h]

/-! ### Fetches that are read ahead -/

/-- A line read into the instruction cache, but for the slip it counts. -/
theorem icLine_front (s : State) (core n ca : Nat) (sl : Assoc Nat) :
    ({ (icLine s core n ca).1 with slips := sl } : State).front = { s with slips := sl }.front := by
  have h := lowerLine_front s (coreDie core) n (ca == 0) 0
  unfold icLine
  dsimp only
  generalize lowerLine s (coreDie core) n (ca == 0) 0 = x at h ⊢
  split
  · rfl
  · simp only [State.front, Front.mk.injEq] at h ⊢
    exact ⟨h.1, h.2.1, h.2.2.1, h.2.2.2.1, h.2.2.2.2.1, h.2.2.2.2.2.1, trivial⟩

theorem countLatent_front (core n : Nat) (p : BitVec 2) (s : State) : (countLatent core n p s).front = s.front := by
  unfold countLatent
  split <;> rfl

theorem fetchQuiet_front (e : Env) (rid va n : Nat) (s : State) : (fetchQuiet e rid va n s).1.front = s.front := by
  have h := translate_front s e.team.ctx rid va n .fetch
  unfold fetchQuiet
  generalize translate s e.team.ctx rid va n .fetch = x at h ⊢
  obtain ⟨s1, l⟩ := x
  have hi (loc ca : Nat) : ({ (icLine s1 e.team.core (loc / 128) ca).1 with slips := s1.slips } : State).front =
      s.front := (icLine_front s1 e.team.core (loc / 128) ca s1.slips).trans h
  cases l with
  | ok loc ca =>
    dsimp only
    split
    · exact h
    · split
      · exact hi loc ca
      · exact (countLatent_front ..).trans (hi loc ca)
  | _ => exact h

/-! ### Records of faults -/

@[simp] theorem putRecord_front (a i : Nat) (bs : List Byte) (s : State) : (putRecord a i bs s).front = s.front := by
  unfold putRecord
  dsimp only
  split <;> simp

@[simp] theorem publishFault_front (c : Nat) (f : FaultRec) (s : State) : (publishFault c f s).front = s.front := by
  simp [publishFault]

@[simp] theorem publishFaults_front (c : Nat) (fs : List FaultRec) (s : State) :
    (publishFaults c fs s).front = s.front := by
  induction fs generalizing s with
  | nil => rfl
  | cons f fs ih =>
    unfold publishFaults
    dsimp only
    split <;> simp [ih]

@[simp] theorem postFault_front (c va acc a : Nat) (s : State) : (postFault c va acc a s).1.front = s.front := by
  unfold postFault
  dsimp only
  split <;> simp

end Sys2Proof.Machine
end

section
/-! SUPPORT. Transfers of control (O18): an instruction that only moves the program counter, the arithmetic of program
counters, and the prefetch of code. -/

namespace Sys2Proof.Machine

open Claims

/-! ### The program counter (R367) -/

/-- The region id of a program counter. -/
theorem region_mask (pc : DWord) : (pc &&& 0xFE00_0000_0000_0000#64).toNat = pc.toNat / 2 ^ 57 * 2 ^ 57 := by
  have h := congrArg BitVec.toNat (and_not_mask pc 57)
  have hm : ~~~BitVec.ofNat 64 (2 ^ 57 - 1) = 0xFE00_0000_0000_0000#64 := by decide
  rw [hm, BitVec.toNat_ofNat, Nat.mod_eq_of_lt (Nat.lt_of_le_of_lt (Nat.div_mul_le_self ..) pc.isLt)] at h
  exact h

theorem pcAdd_toNat (pc : DWord) (n : Int) : (pcAdd pc n).toNat =
    pc.toNat / 2 ^ 57 * 2 ^ 57 + (((pc.toNat % 2 ^ 57 : Nat) + n) % (2 ^ 57 : Int)).toNat := by
  have hp := pc.isLt
  generalize hx : (((pc.toNat % 2 ^ 57 : Nat) + n) % (2 ^ 57 : Int)).toNat = x
  have hlt : x < 2 ^ 57 := by omega
  rw [pcAdd, hx, BitVec.toNat_add, region_mask, BitVec.toNat_ofNat]
  omega

/-- A program counter keeps its region id, and its VA is the sum modulo 2^57. -/
theorem pcAdd_spec (pc : DWord) (n : Int) : (pcAdd pc n).toNat / 2 ^ 57 = pc.toNat / 2 ^ 57 ∧
    (((pcAdd pc n).toNat % 2 ^ 57 : Nat) : Int) = (((pc.toNat % 2 ^ 57 : Nat) : Int) + n) % (2 ^ 57 : Int) := by
  rw [pcAdd_toNat]
  generalize hx : (((pc.toNat % 2 ^ 57 : Nat) + n) % (2 ^ 57 : Int)) = x
  have h0 : 0 ≤ x := hx ▸ Int.emod_nonneg _ (by decide)
  have hlt : x < 2 ^ 57 := hx ▸ Int.emod_lt_of_pos _ (by decide)
  obtain ⟨k, rfl⟩ := Int.eq_ofNat_of_zero_le h0
  rw [Int.toNat_natCast]
  have hk : k < 2 ^ 57 := by exact_mod_cast hlt
  constructor <;> omega

/-! ### Transfers (R367, R368) -/

/-- An instruction that goes on at `pc` moves the program counter alone. -/
theorem conclude_goto_movesTo {s : State} {e : Env} (he : env? s e.gid = some e) (clk : Nat) (pc : DWord) :
    MovesTo s (conclude e clk (.goto s pc)) e pc :=
  ⟨conclude_goto_sameOutside .., conclude_goto_sameOthers _ _ _ _, (e.grp.ageHaz clk).haz,
    conclude_goto_group clk pc (groupOf_of_env? he)⟩

/-- A transfer: its body goes to a target and does nothing else. -/
theorem movesTo_of_executes {s : State} {e : Env} {i : Instr} {f : Slk} (hx : Executes s e i f) {body : Env → Res}
    {pc : DWord} (hb : body e = .goto e.st pc) : ∃ t, issue i f body s = .next t ∧ MovesTo s t e pc :=
  ⟨_, concluded_of_executes hx hb, st_of_executes hx ▸ conclude_goto_movesTo (st_of_executes hx ▸ env?_of_executes hx) _ pc⟩

/-- An instruction without effect goes on at the next one. -/
theorem movesTo_next {s : State} {e : Env} {i : Instr} {f : Slk} (hx : Executes s e i f) {body : Env → Res}
    (hb : body e = .done e.st) : ∃ t, issue i f body s = .next t ∧ MovesTo s t e (pcAdd e.grp.pc 12) :=
  ⟨_, concluded_of_executes hx hb, st_of_executes hx ▸ conclude_goto_movesTo (st_of_executes hx ▸ env?_of_executes hx) _ _⟩

/-! ### Prefetch of code (R369) -/

/-- The prefetch of code changes nothing of the front. -/
theorem ipfBody_front (f : Slk) (e : Env) : ∃ s', ipfBody f e = .done s' ∧ s'.front = e.st.front := by
  refine ⟨_, rfl, front_foldl (fun s i => ?_) _ _⟩
  exact ite_front (fetchQuiet_front ..) rfl

/-- Settles O18: each transfer by its body, `ipf` by the front of the state it leaves. -/
theorem controlTransfers : Obligations.ControlTransfers := by
  unfold Obligations.ControlTransfers
  refine ⟨fun s e f => ⟨fun h => movesTo_next h rfl, fun h => movesTo_next h rfl, fun h => movesTo_of_executes h rfl,
    fun h => movesTo_of_executes h rfl, fun h => movesTo_of_executes h rfl, fun h => movesTo_of_executes h rfl,
    fun h => concluded_of_executes h rfl⟩, pcAdd_spec, fun s e f hx => ?_⟩
  obtain ⟨s', hb, hs⟩ := ipfBody_front f e
  rw [st_of_executes hx] at hs
  exact ⟨s', concluded_of_executes hx hb, sameGroups_of_front hs, congrArg Front.pend hs, congrArg Front.slips hs,
    congrArg Front.regx hs, congrArg Front.pool hs⟩

end Sys2Proof.Machine
end

section
/-! SUPPORT. Idempotent regions (O21): what a commit posts, what an abort takes back, and the page trap outside a region. -/

namespace Sys2Proof.Machine

open Claims

/-! ### Commit (R402) -/

/-- Steps that each change L1 alone do so together. -/
theorem foldl_l1_eq {α : Type} {f : State → α → State} (h : ∀ s x, ∃ l, f s x = { s with l1 := l }) (xs : List α)
    (s : State) : ∃ l, xs.foldl f s = { s with l1 := l } := by
  induction xs generalizing s with
  | nil => exact ⟨s.l1, rfl⟩
  | cons x xs ih =>
    obtain ⟨l, hl⟩ := h s x
    obtain ⟨l', hl'⟩ := ih { s with l1 := l }
    exact ⟨l', by rw [List.foldl_cons, hl, hl']⟩

theorem l1DropRange_eq (s : State) (c a n : Nat) : ∃ l, l1DropRange c a n s = { s with l1 := l } :=
  foldl_l1_eq (f := fun s (x : Nat × Nat) => l1Drop s c (x.1 / 128)) (fun _ _ => ⟨_, rfl⟩) (segs 128 a n) s

theorem l1Store_eq (s : State) (c a ch : Nat) (bs : List Byte) : ∃ l, l1Store s c a ch bs = { s with l1 := l } := by
  refine foldl_l1_eq (fun s x => ?_) (dataSegs 64 a bs) s
  dsimp only
  split
  · exact ⟨s.l1, rfl⟩
  · split
    · exact ⟨_, rfl⟩
    · exact ⟨_, rfl⟩

/-- The issue of a store posts it, and changes L1 alone besides (R106). -/
theorem issueStore_eq (gid : Gid) (ctx core : Nat) (st : Store) (s : State) : ∃ b l,
    issueStore gid ctx core st s = post gid ctx core (.store { st with inL1 := b }) { s with l1 := l } := by
  have h : ∃ l, (if st.ca ≠ 0 then s else if st.scat then l1DropRange core st.loc st.data.length s
      else l1Store s core st.loc st.ch.toNat st.data) = { s with l1 := l } := by
    split
    · exact ⟨s.l1, rfl⟩
    · split
      · exact l1DropRange_eq ..
      · exact l1Store_eq ..
  obtain ⟨l, hl⟩ := h
  unfold issueStore
  rw [hl]
  exact ⟨_, l, rfl⟩

/-- Stores posted one after another, from the ordinal `n` on. -/
def posted (gid : Gid) (ctx core n : Nat) (buf : List Store) (l1s : List Bool) : List Pend :=
  (buf.zip l1s).zipIdx.map fun x => ⟨n + x.2, gid, ctx, core, .store { x.1.1 with inL1 := x.1.2 }⟩

theorem posted_cons (gid : Gid) (ctx core n : Nat) (st : Store) (buf : List Store) (b : Bool) (l1s : List Bool) :
    posted gid ctx core n (st :: buf) (b :: l1s) =
      ⟨n, gid, ctx, core, .store { st with inL1 := b }⟩ :: posted gid ctx core (n + 1) buf l1s := by
  simp only [posted, List.zip_cons_cons, List.zipIdx_cons, List.map_cons, Nat.zero_add, Nat.add_zero,
    List.zipIdx_succ, List.map_map, List.cons.injEq, true_and]
  refine List.map_congr_left fun x _ => ?_
  simp [Nat.add_comm x.2 1, Nat.add_assoc]

/-- The stores of a buffer are posted in their order. -/
theorem foldl_issueStore_eq (gid : Gid) (ctx core : Nat) (buf : List Store) (s : State) : ∃ l1s : List Bool, ∃ l,
    l1s.length = buf.length ∧ buf.foldl (fun s st => issueStore gid ctx core st s) s =
      { s with l1 := l, pend := s.pend ++ posted gid ctx core s.nextId buf l1s, nextId := s.nextId + buf.length } := by
  induction buf generalizing s with
  | nil => exact ⟨[], s.l1, rfl, by simp [posted]⟩
  | cons st buf ih =>
    obtain ⟨b, l, h⟩ := issueStore_eq gid ctx core st s
    obtain ⟨bs, l', hlen, h'⟩ := ih (post gid ctx core (.store { st with inL1 := b }) { s with l1 := l })
    refine ⟨b :: bs, l', by simp [hlen], ?_⟩
    rw [List.foldl_cons, h, h', posted_cons]
    simp [post, Nat.add_comm, Nat.add_left_comm]

/-- The group with no region open. -/
def Group.closed (g : Group) : Group := { g with region := none }
/-- The group waiting. -/
def Group.waiting (w : Wait) (g : Group) : Group := { g with cond := .wait w }

/-- A commit posts the buffered stores and settles the region's loads. -/
theorem commitRegion_eq {s : State} {e : Env} {r : Region} (he : env? s e.gid = some e) (hr : e.grp.region = some r) :
    ∃ l1s : List Bool, ∃ l, l1s.length = r.buf.length ∧ commitRegion e.gid s =
      { modGroup e.gid Group.closed s with
        l1 := l
        pend := s.pend.map (Pend.settle e.gid) ++ posted e.gid e.team.ctx e.team.core s.nextId r.buf l1s
        nextId := s.nextId + r.buf.length } := by
  obtain ⟨l1s, l, hlen, h⟩ := foldl_issueStore_eq e.gid e.team.ctx e.team.core r.buf
    (modGroup e.gid Group.closed { s with pend := s.pend.map (Pend.settle e.gid) })
  refine ⟨l1s, l, hlen, ?_⟩
  simp only [commitRegion, he, hr]
  exact h

theorem commitRegion_groupOf {s : State} {e : Env} {r : Region} (he : env? s e.gid = some e)
    (hr : e.grp.region = some r) (g : Gid) :
    groupOf (commitRegion e.gid s) g = groupOf (modGroup e.gid Group.closed s) g := by
  obtain ⟨l1s, l, -, h⟩ := commitRegion_eq he hr
  rw [h]
  refine groupOf_of_teams ?_ g
  rfl

/-- The group after a commit. -/
theorem commitRegion_group {s : State} {e : Env} (he : env? s e.gid = some e) :
    groupOf (commitRegion e.gid s) e.gid = some e.grp.closed := by
  cases hr : e.grp.region with
  | none =>
    rw [commitRegion_none he hr, groupOf_of_env? he, Group.closed, ← hr]
  | some r =>
    rw [commitRegion_groupOf he hr]
    exact groupOf_modGroup_self (f := Group.closed) (fun _ => rfl) (groupOf_of_env? he)

theorem env?_of_groupOf {s : State} {g : Gid} {x : Group} (h : groupOf s g = some x) :
    ∃ e, env? s g = some e ∧ e.grp = x ∧ e.gid = g ∧ e.st = s := by
  obtain ⟨e, he, hx⟩ := Option.map_eq_some_iff.mp h
  obtain ⟨-, -, hst, hg⟩ := env?_eq he
  exact ⟨e, he, hx, hg, hst⟩

/-- The view after a commit is of the same group, at the same instruction. -/
theorem committed_spec {s : State} {e : Env} (he : env? s e.gid = some e) (hst : e.st = s) :
    (committed e).grp = e.grp.closed ∧ (committed e).gid = e.gid ∧
      (committed e).st = commitRegion e.gid s := by
  obtain ⟨e', he', hg', hi', hs'⟩ := env?_of_groupOf (commitRegion_group he)
  have h : committed e = e' := by rw [committed, hst]; exact Env.at_of_some he'
  rw [h]
  exact ⟨hg', hi', hs'⟩

/-- With no region open a commit leaves the view as it is. -/
theorem committed_of_none {e : Env} (he : env? e.st e.gid = some e) (hr : e.grp.region = none) : committed e = e := by
  rw [committed, commitRegion_none he hr]
  exact Env.at_of_some he

theorem rgnOpenBody_eq {s : State} {e : Env} (he : env? s e.gid = some e) (hst : e.st = s) : rgnOpenBody e =
    .goto ((committed e).mod (Group.openRegion (pcAdd e.grp.pc 12))) (pcAdd e.grp.pc 12) := by
  change Res.goto ((committed e).mod (Group.openRegion (pcAdd (committed e).grp.pc 12))) (pcAdd (committed e).grp.pc 12) = _
  rw [(committed_spec he hst).1]
  rfl

/-! ### Abort (R38, R404) -/

/-- A mark of full empties no register. -/
theorem mark_full_isEmpty (g : Group) (x d : RegDst) (h : g.isEmpty d = false) : (g.mark false x).isEmpty d = false := by
  obtain ⟨fx, nx, lx⟩ := x
  obtain ⟨fd, nd, ld⟩ := d
  cases fx <;> cases fd <;>
    simp only [Group.mark, Group.isEmpty, Assoc.rd_wr, Bool.false_eq_true, if_false] at h ⊢
  case v.v =>
    by_cases hn : nd = nx
    · subst hn
      rw [if_pos rfl, BitVec.getLsbD_and, h, Bool.false_and]
    · rw [if_neg hn, h]
  case s.s => rw [BitVec.getLsbD_and, h, Bool.false_and]
  all_goals exact h

theorem mark_full_self (g : Group) {d : RegDst} (ht : (d.file = .v ∧ d.lane < 128) ∨ (d.file = .s ∧ d.num < 128)) :
    (g.mark false d).isEmpty d = false := by
  obtain ⟨f, n, l⟩ := d
  rcases ht with ⟨hf, hl⟩ | ⟨hf, hn⟩ <;> cases hf
  · rw [mark_v_isEmpty g false hl (show IsReg ⟨.v, n, l⟩ from hl), if_pos rfl]
  · have h := mark_s_isEmpty g false (n := n) hn (d := ⟨.s, n, 0⟩) rfl (fun _ => hn)
    rw [if_pos rfl] at h
    exact h

theorem marks_full_isEmpty (ds : List RegDst) (g : Group) (d : RegDst) (h : g.isEmpty d = false) :
    (g.marks false ds).isEmpty d = false := by
  induction ds generalizing g with
  | nil => exact h
  | cons x ds ih => exact ih _ (mark_full_isEmpty g x d h)

/-- A register among those marked full is full. -/
theorem marks_full_mem (ds : List RegDst) (g : Group) {d : RegDst} (hd : d ∈ ds)
    (ht : (d.file = .v ∧ d.lane < 128) ∨ (d.file = .s ∧ d.num < 128)) : (g.marks false ds).isEmpty d = false := by
  induction ds generalizing g with
  | nil => cases hd
  | cons x ds ih =>
    rcases List.mem_cons.mp hd with rfl | hm
    · exact marks_full_isEmpty ds _ _ (mark_full_self g ht)
    · exact ih _ hm

/-- A load in flight of the group's open region. -/
def Pend.isRegionLoad (gid : Gid) (p : Pend) : Bool :=
  decide (p.owner = gid) && (match p.kind with | .regs r _ => r | _ => false)
/-- The registers that a posted operation will write. -/
def Pend.dsts (p : Pend) : List RegDst := match p.kind with | .regs _ ws => ws.map (·.dst) | _ => []
/-- The registers of the region's loads in flight. -/
def squashedRegs (gid : Gid) (s : State) : List RegDst := (s.pend.filter (Pend.isRegionLoad gid)).flatMap Pend.dsts
/-- The group whose region is aborted: the snapshot's frames, exited lanes and REPCTR, an empty buffer, and the registers
of the region's loads full. -/
def aborted (r : Region) (ds : List RegDst) (g : Group) : Group :=
  { g.marks false ds with
    frames := r.frames, exited := r.exited, repCtr := r.repctr, region := some { r with buf := [] }, haz := [] }

theorem marks_v (b : Bool) (ds : List RegDst) (g : Group) : (g.marks b ds).v = g.v := by rw [marks_rest]
theorem marks_s (b : Bool) (ds : List RegDst) (g : Group) : (g.marks b ds).s = g.s := by rw [marks_rest]

theorem abortRegion_group {s : State} {e : Env} {r : Region} (he : env? s e.gid = some e) (hr : e.grp.region = some r) :
    groupOf (abortRegion e.gid s) e.gid = some (aborted r (squashedRegs e.gid s) e.grp) := by
  have hs : groupOf (squashLoads e.gid s) e.gid = some (e.grp.marks false (squashedRegs e.gid s)) :=
    groupOf_modGroup_self (marks_idx false (squashedRegs e.gid s))
      ((groupOf_of_teams (s := s) (t := { s with pend := s.pend.filter fun p => !Pend.isRegionLoad e.gid p }) rfl
        e.gid).trans (groupOf_of_env? he))
  have hm : (e.grp.marks false (squashedRegs e.gid s)).region = some r := by rw [marks_rest]; exact hr
  unfold abortRegion
  rw [groupOf_modGroup_self (fun g => by cases g.region <;> rfl) hs]
  simp only [hm]
  rfl

theorem abortRegion_pend (gid : Gid) (s : State) :
    (abortRegion gid s).pend = s.pend.filter fun p => !Pend.isRegionLoad gid p := rfl

/-- A translation fault in an open region. -/
theorem takeFault_inside {s : State} {e : Env} {r : Region} (va acc lane : Nat) (he : env? s e.gid = some e)
    (hr : e.grp.region = some r) : ∃ ord m, groupOf (takeFault e.gid va acc lane s) e.gid =
      some (({ aborted r (squashedRegs e.gid s) e.grp with mon := m }).waiting (.fault ord va acc lane true)) ∧
      (takeFault e.gid va acc lane s).pend = s.pend.filter fun p => !Pend.isRegionLoad e.gid p := by
  obtain ⟨⟨s1, ord⟩, hp⟩ : ∃ x, postFault e.team.ctx va acc (agentOf e.team.core 0) (abortRegion e.gid s) = x := ⟨_, rfl⟩
  have hf : s1.front = (abortRegion e.gid s).front := by
    have := postFault_front e.team.ctx va acc (agentOf e.team.core 0) (abortRegion e.gid s)
    rwa [hp] at this
  obtain ⟨m, hg⟩ := groupOf_of_front hf (abortRegion_group he hr)
  have ht : takeFault e.gid va acc lane s = modGroup e.gid (Group.waiting (.fault ord va acc lane true)) s1 := by
    simp only [takeFault, he, hr, Option.isSome_some, if_true, hp]
    rfl
  rw [ht]
  exact ⟨ord, m, groupOf_modGroup_self (fun _ => rfl) hg, congrArg Front.pend hf⟩

/-! ### Faults outside a region (R406, R442) -/

theorem takeFault_outside {s s1 : State} {e : Env} {ord : Nat} (va acc lane : Nat) (he : env? s e.gid = some e)
    (hr : e.grp.region = none) (hp : postFault e.team.ctx va acc (agentOf e.team.core 0) s = (s1, ord)) :
    takeFault e.gid va acc lane s =
      if faultPosted s1 e.team.ctx ord then takeTrap e.gid (pageTrap ord va acc lane) s1
      else modGroup e.gid (Group.waiting (.posting ord va acc lane)) s1 := by
  simp only [takeFault, he, hr, Option.isSome_none, Bool.false_eq_true, if_false, pageFault, hp]
  rfl

/-- The fields of a page trap's TRAPINFO (R410). -/
theorem pageTrap_info (ord va : Nat) {acc lane : Nat} (ha : acc < 4) (hl : lane < 128) :
    ((pageTrap ord va acc lane).info false).toNat = 4 + 2 ^ 16 + acc * 2 ^ 19 + lane * 2 ^ 21 := by
  simp only [Trap.info, pageTrap, BitVec.toNat_ofNat, Bool.false_eq_true, if_false]
  omega

/-- Settles O21: `rgn` by `committed_spec`, a commit by `commitRegion_eq`, an abort by `takeFault_inside`, a page trap by
`takeTrap_enters`. -/
theorem idempotentRegions : Obligations.IdempotentRegions := by
  unfold Obligations.IdempotentRegions
  refine ⟨⟨?opensOutside, ?opens, ?closes, ?commit⟩, ?inside, ?outside⟩
  case opensOutside =>
    intro s e f hx hr
    have hst := st_of_executes hx
    have he := env?_of_executes hx
    have hc : committed e = e := committed_of_none (hst ▸ he) hr
    have ho (g : Group) : (g.openRegion (pcAdd e.grp.pc 12)).idx = g.idx := rfl
    obtain ⟨n, hn⟩ := conclude_done_modGroup e (issueClk e f) s ho
    have hi := concluding_idx (issueClk e f) (pcAdd e.grp.pc 12) ho
    refine ⟨_, concluded_of_executes (body := rgnOpenBody) hx (rgnOpenBody_eq he hst), ?_⟩
    rw [hc, Env.mod, hst, ← conclude_done, hn]
    refine ⟨sameOutside_modGroup .., sameOthers_modGroup s e.gid hi n, (e.grp.ageHaz (issueClk e f)).haz, ?_⟩
    rw [groupOf_fresh]
    exact groupOf_modGroup_self hi (groupOf_of_env? he)
  case opens =>
    intro s e f hx
    exact concluded_of_executes hx (rgnOpenBody_eq (env?_of_executes hx) (st_of_executes hx))
  case closes =>
    intro s e f hx
    exact concluded_of_executes hx rfl
  case commit =>
    intro s e r he hr
    obtain ⟨l1s, l, hlen, h⟩ := commitRegion_eq he hr
    refine ⟨commitRegion_group he, fun g hne => ?_, ?_, ⟨l1s, hlen, ?_⟩, ?_⟩
    · rw [commitRegion_groupOf he hr, groupOf_modGroup s e.gid g Group.closed (fun _ => rfl)]
      simp [hne]
    all_goals rw [h]
    · rfl
    · rfl
  case inside =>
    intro s e r va acc lane he hr
    obtain ⟨ord, m, hg, hp⟩ := takeFault_inside va acc lane he hr
    refine ⟨_, ord, hg, rfl, rfl, rfl, rfl, rfl, ?_, ?_, fun p hpm ho ws hk => ⟨?_, fun w hw ht => ?_⟩⟩
    · exact marks_v ..
    · exact marks_s ..
    all_goals have hl : p.isRegionLoad e.gid = true := by simp [Pend.isRegionLoad, ho, hk]
    · rw [hp]
      simp [hl]
    · refine marks_full_mem (squashedRegs e.gid s) e.grp ?_ ht
      refine List.mem_flatMap.mpr ⟨p, List.mem_filter.mpr ⟨hpm, hl⟩, ?_⟩
      simp only [Pend.dsts, hk]
      exact List.mem_map_of_mem hw
  case outside =>
    intro s e va acc lane s1 ord he hr hp
    have hf : s1.front = s.front := by
      have := postFault_front e.team.ctx va acc (agentOf e.team.core 0) s
      rwa [hp] at this
    obtain ⟨m, hg⟩ := groupOf_of_front hf (groupOf_of_env? he)
    rw [takeFault_outside va acc lane he hr hp]
    refine ⟨fun hpost hi ht0 ht4 ha hl => ?_, fun hpost => ?_⟩
    · obtain ⟨e1, he1, hg1, hi1, -⟩ := env?_of_groupOf hg
      have hv : e.grp.noVector = false := by
        simp only [Group.noVector, ht4, bne_self_eq_false, Bool.or_false, beq_eq_false_iff_ne]
        exact ht0
      rw [if_pos hpost, takeTrap_enters (pageTrap ord va acc lane) he1 (hg1 ▸ hr) (hg1 ▸ hi) (hg1 ▸ hv)]
      refine ⟨_, groupOf_modGroup_self (fun _ => rfl) hg, rfl, by rw [hg1], rfl, ?_, ?_, ?_, rfl⟩
      all_goals
        simp only [pageTrap_info ord va ha hl]
        omega
    · rw [hpost]
      exact ⟨_, groupOf_modGroup_self (fun _ => rfl) hg, rfl, rfl⟩

end Sys2Proof.Machine
end

section
/-! SUPPORT. Values of the arithmetic and move instructions (R182, R186 to R191) as their statements have them, for a
repeat of one of them (O50). -/

namespace Sys2Proof.Machine

open Claims

/-! ### Patterns of integers -/

theorem tyBits_cases (t : Nat) : tyBits t = 32 ∨ tyBits t = 64 ∨ tyBits t = 16 ∨ tyBits t = 8 := by
  unfold tyBits
  repeat' split
  all_goals simp

theorem ofSigned_eq (w : Nat) (z : Int) : ofSigned w z = (z % 2 ^ w).toNat := by
  rw [ofSigned, Nat.cast_pow, Nat.cast_ofNat]

theorem ofSigned_lt (w : Nat) (z : Int) : ofSigned w z < 2 ^ w := by
  have hp : (0 : Int) < 2 ^ w := by positivity
  have h1 := Int.emod_lt_of_pos z hp
  have h0 := Int.emod_nonneg z hp.ne'
  rw [ofSigned_eq, Int.toNat_lt h0]
  exact_mod_cast h1

theorem iresult_eq (t : Nat) (sat : Bool) (z : Int) : iresult t sat z = wrapped t sat z := by
  rw [iresult, wrapped, ofSigned_eq, iclamp, Int.min_comm]

/-- A pattern's value stands within the bounds of its type, and has the pattern. -/
theorem ival_spec (t x : Nat) : (ibounds t).1 ≤ ival t x ∧ ival t x ≤ (ibounds t).2 ∧
    ofSigned (tyBits t) (ival t x) = x % 2 ^ tyBits t := by
  unfold ibounds ival toSigned ofSigned
  rcases tyBits_cases t with h | h | h | h <;> rw [h] <;> cases tySigned t <;>
    simp only [Bool.false_eq_true, if_false, if_true] <;> (try split) <;> omega

/-- A value of the type is not changed by clamping or wrapping. -/
theorem wrapped_ival {t x : Nat} (sat : Bool) (hx : x < 2 ^ tyBits t) : wrapped t sat (ival t x) = x := by
  obtain ⟨hlo, hhi, hp⟩ := ival_spec t x
  have hc : (if sat then max (ibounds t).1 (min (ival t x) (ibounds t).2) else ival t x) = ival t x := by
    rw [min_eq_left hhi, max_eq_right hlo, ite_self]
  rw [wrapped, hc, ← ofSigned_eq, hp, Nat.mod_eq_of_lt hx]

/-- The high half of a pattern of twice the width. -/
theorem ofSigned_high (w : Nat) (z : Int) : ofSigned (2 * w) z >>> w = ofSigned w (z / 2 ^ w) := by
  have hp : (0 : Int) < 2 ^ w := by positivity
  have h2 : (2 : Int) ^ (2 * w) = 2 ^ w * 2 ^ w := by rw [two_mul, pow_add]
  have h0 : 0 ≤ z % (2 ^ w * 2 ^ w) := Int.emod_nonneg _ (by positivity)
  rw [ofSigned_eq, ofSigned_eq, Nat.shiftRight_eq_div_pow, h2]
  zify
  rw [Int.toNat_of_nonneg h0, Int.toNat_of_nonneg (Int.emod_nonneg _ hp.ne'), Int.emod_def z, Int.emod_def (z / 2 ^ w),
    ← Int.ediv_ediv_of_nonneg hp.le, mul_assoc, sub_eq_add_neg, ← mul_neg, Int.add_mul_ediv_left _ _ hp.ne', sub_eq_add_neg]

/-! ### Sources -/

/-- A source of a 32-bit or 64-bit integer type is a pattern of the type. -/
theorem val_lt (e : Env) {f : Slk} (l n k : Nat) (ht : fTy f ∈ intTys) :
    e.val (fTy f) l (srcOf f n k) < 2 ^ tyBits (fTy f) := by
  have hf : tyFloat (fTy f) = false ∧ 2 ^ 32 ≤ 2 ^ tyBits (fTy f) ∧ fTy f ≠ 7 ∧ (fTy f = 4 → tyBits (fTy f) = 64) := by
    generalize fTy f = t at ht
    simp only [intTys, List.mem_cons, List.not_mem_nil, or_false] at ht
    rcases ht with rfl | rfl | rfl | rfl | rfl | rfl <;> decide
  obtain ⟨hfl, h32, h7, h4⟩ := hf
  have hop (o : Opnd) : e.val (fTy f) l (.op o) < 2 ^ tyBits (fTy f) := by
    unfold Env.val
    dsimp only
    split
    · rw [immBits, hfl]
      exact ofSigned_lt ..
    · exact Nat.mod_lt _ (Nat.two_pow_pos _)
  unfold srcOf
  split
  · unfold Env.val
    dsimp only
    split
    · exact ofSigned_lt ..
    · omega
  · split
    · unfold Env.val
      dsimp only
      split
      · next h => rw [h4 h]; exact ofSigned_lt ..
      · exact Nat.mod_lt _ (Nat.two_pow_pos _)
    · split <;> exact hop _

/-! ### Fixed-latency instructions -/

/-- The instruction writes its registers after a fixed latency, and goes on (R44). -/
def WritesFixed (s : State) (e : Env) (i : Instr) (f : Slk) (ws : List RegWrite) : Prop :=
  ∃ a b, exec i s = concluded e f (.done (writeFixed e a b ws))

/-- A fixed-latency body that computes `fn` in each lane. -/
theorem writesFixed_of_body {s : State} {e : Env} {i : Instr} {f : Slk} {body : Env → Res} {a b n : Nat}
    {fn : Env → Nat → Nat} {g : Nat → Nat} (hx : Executes s e i f) (hi : exec i s = issue i f body s)
    (hb : body e = fixedBody f a b n fn e) (hg : ∀ l, fn e l = g l) : WritesFixed s e i f (laneWrites e f n g) := by
  refine ⟨a, b, hi.trans (concluded_of_executes hx ?_)⟩
  rw [hb, fixedBody, laneWrites, funext hg]

theorem mulBody_eq (f : Slk) (fn : Env → Nat → Nat) (e : Env) :
    ∃ a b, mulBody f fn e = fixedBody f a b (tyRegs (fTy f)) fn e := by
  unfold mulBody tyRegs
  split
  · exact ⟨12, 10, rfl⟩
  · exact ⟨6, 5, rfl⟩

/-- The limits of an instruction that executes hold (R48 row 4). -/
theorem limits_of_executes {s : State} {e : Env} {i : Instr} {f : Slk} {opc : Nat} {h : Shape} (hx : Executes s e i f)
    (hp : slkParts i = some (opc, f)) (hs : shapeOf e.grp.alloc i = some h) : h.illenc = false := by
  have hc := hx.2
  unfold canExecute at hc
  simp only [Bool.and_eq_true, Option.isNone_iff_eq_none] at hc
  have hf := (fate_of_slk hp hs).symm.trans hc.1.1
  unfold shapeFate at hf
  dsimp only at hf
  split at hf
  · cases hf
  · split at hf
    · cases hf
    · next hn =>
      simp only [Bool.or_eq_true, not_or, Bool.not_eq_true] at hn
      exact hn.2

/-- An integer instruction has one of its types, and SAT only where it may. -/
theorem intBad_spec {f : Slk} {tys : List Nat} {sat : Bool} (h : intBad f tys sat = false) :
    fTy f ∈ tys ∧ (fSat f = true → sat = true) := by
  simp only [intBad, Bool.or_eq_false_iff] at h
  obtain ⟨⟨-, ht⟩, hs⟩ := h
  refine ⟨by simpa using ht, fun hf => ?_⟩
  rw [hf] at hs
  cases sat
  · simp at hs
  · rfl

/-! ### The values -/

theorem iminVal_eq {f : Slk} (e : Env) (l : Nat) (ht : fTy f ∈ intTys) :
    iminVal f e l = wrapped (fTy f) (fSat f) (min (e.int f 2 1 l) (e.int f 2 2 l)) := by
  unfold iminVal
  split
  · next h => rw [min_eq_left h]; exact (wrapped_ival _ (val_lt e l 2 1 ht)).symm
  · next h => rw [min_eq_right (by omega)]; exact (wrapped_ival _ (val_lt e l 2 2 ht)).symm

theorem imaxVal_eq {f : Slk} (e : Env) (l : Nat) (ht : fTy f ∈ intTys) :
    imaxVal f e l = wrapped (fTy f) (fSat f) (max (e.int f 2 1 l) (e.int f 2 2 l)) := by
  unfold imaxVal
  split
  · next h => rw [max_eq_right h]; exact (wrapped_ival _ (val_lt e l 2 2 ht)).symm
  · next h => rw [max_eq_left (by omega)]; exact (wrapped_ival _ (val_lt e l 2 1 ht)).symm

theorem imulhVal_eq {f : Slk} (e : Env) (l : Nat) (hs : fSat f = false) :
    imulhVal f e l = wrapped (fTy f) (fSat f) (e.int f 2 1 l * e.int f 2 2 l / 2 ^ tyBits (fTy f)) := by
  rw [imulhVal, ofSigned_high, ofSigned_eq, wrapped, hs]
  rfl

theorem mem_intTys {t : Nat} (h : t ∈ [0, 1, 4, 5]) : t ∈ intTys := by
  simp only [List.mem_cons, List.not_mem_nil, or_false] at h
  rcases h with rfl | rfl | rfl | rfl <;> decide

/-- The arithmetic instructions write the exact result, wrapped or clamped (R182). -/
theorem arith_writesFixed {s : State} {e : Env} {i : Instr} {f : Slk} {m : Nat} {op : Int → Int → Int → Int}
    (hi : arith i = some (f, m, op)) (hx : Executes s e i f) :
    WritesFixed s e i f (laneWrites e f (tyRegs (fTy f)) fun l =>
      wrapped (fTy f) (fSat f) (op (e.int f m 1 l) (e.int f m 2 l) (e.int f m 3 l))) := by
  unfold arith at hi
  split at hi <;> cases hi
  · exact writesFixed_of_body hx rfl rfl fun l => iresult_eq ..
  · exact writesFixed_of_body hx rfl rfl fun l => iresult_eq ..
  · obtain ⟨a, b, hb⟩ := mulBody_eq f (imulVal f) e
    exact writesFixed_of_body hx rfl hb fun l => iresult_eq ..
  · obtain ⟨a, b, hb⟩ := mulBody_eq f (imadVal f) e
    exact writesFixed_of_body hx rfl hb fun l => iresult_eq ..
  · exact writesFixed_of_body hx rfl rfl fun l => iresult_eq ..
  · obtain ⟨ht, -⟩ := intBad_spec (limits_of_executes hx rfl rfl)
    exact writesFixed_of_body hx rfl rfl fun l => iminVal_eq e l (mem_intTys ht)
  · obtain ⟨ht, -⟩ := intBad_spec (limits_of_executes hx rfl rfl)
    exact writesFixed_of_body hx rfl rfl fun l => imaxVal_eq e l (mem_intTys ht)
  · obtain ⟨-, hs⟩ := intBad_spec (limits_of_executes hx rfl rfl)
    obtain ⟨a, b, hb⟩ := mulBody_eq f (imulhVal f) e
    exact writesFixed_of_body hx rfl hb fun l => imulhVal_eq e l (by simpa using hs)

/-- The sign extension of a 32-bit index. -/
theorem ofSigned_toSigned_32 {x : Nat} (h : x < 2 ^ 32) :
    ofSigned 64 (toSigned 32 x) = if 2 ^ 31 ≤ x then x + (2 ^ 64 - 2 ^ 32) else x := by
  unfold ofSigned toSigned
  dsimp only
  split <;> split <;> omega

theorem n32_lt (e : Env) (l : Nat) (o : Opnd) : e.n32 l (.op o) < 2 ^ 32 := by
  unfold Env.n32 Env.val
  dsimp only
  split
  · exact ofSigned_lt ..
  · exact Nat.mod_lt _ (by decide)

theorem leaVal_eq (f : Slk) (e : Env) (l : Nat) : leaVal f e l =
    (e.val (fTy f) l (.op f.s1) + (if fTy f = 4 ∧ 2 ^ 31 ≤ e.n32 l (.op f.s2) then e.n32 l (.op f.s2) + (2 ^ 64 - 2 ^ 32)
      else e.n32 l (.op f.s2)) * 2 ^ (e.n32 l (srcOf f 3 3) % 64)) % 2 ^ 64 := by
  have h1 : srcOf f 3 1 = .op f.s1 := by simp [srcOf]
  have h2 : srcOf f 3 2 = .op f.s2 := by simp [srcOf]
  unfold leaVal Env.bits Env.cnt
  dsimp only
  rw [h1, h2, Nat.shiftLeft_eq, ofSigned_toSigned_32 (n32_lt e l f.s2)]
  by_cases h4 : fTy f = 4 <;> simp [h4]

/-- The order of two patterns is that of their values. -/
theorem intOrder_eq {t x y : Nat} (hx : x < 2 ^ tyBits t) (hy : y < 2 ^ tyBits t) :
    intOrder t x y = compare (ival t x) (ival t y) := by
  unfold intOrder ival
  split
  · rfl
  · rw [Nat.mod_eq_of_lt hx, Nat.mod_eq_of_lt hy]
    rcases lt_trichotomy x y with h | h | h
    · rw [compare_lt_iff_lt.mpr h, compare_lt_iff_lt.mpr (Int.ofNat_lt.mpr h)]
    · rw [compare_eq_iff_eq.mpr h, compare_eq_iff_eq.mpr (Int.natCast_inj.mpr h)]
    · rw [compare_gt_iff_gt.mpr h, compare_gt_iff_gt.mpr (Int.ofNat_lt.mpr h)]

/-- The conditions of `icmp` on two integers (R187). -/
def intCond (cc : Nat) (x y : Int) : Bool :=
  match cc with
  | 0 => x == y | 1 => x != y | 2 => x < y | 3 => x ≤ y | 4 => y < x | _ => y ≤ x

theorem ccOrd_compare {cc : Nat} (h : cc < 6) (x y : Int) : ccOrd cc (compare x y) = intCond cc x y := by
  rcases lt_trichotomy x y with hc | hc | hc
  · rw [compare_lt_iff_lt.mpr hc]
    interval_cases cc <;> simp [ccOrd, intCond, bne, hc, hc.le, hc.ne, hc.not_gt]
  · rw [compare_eq_iff_eq.mpr hc]
    interval_cases cc <;> simp [ccOrd, intCond, hc]
  · rw [compare_gt_iff_gt.mpr hc]
    interval_cases cc <;> simp [ccOrd, intCond, bne, hc, hc.le, hc.ne', hc.not_gt]

theorem icmpVal_eq {f : Slk} (e : Env) (l : Nat) (ht : fTy f ∈ intTys) (hc : fCc f < 6) :
    icmpVal f e l = (intCond (fCc f) (e.int f 2 1 l) (e.int f 2 2 l)).toNat := by
  unfold icmpVal icmpHolds Env.bits Env.int
  rw [intOrder_eq (val_lt e l 2 1 ht) (val_lt e l 2 2 ht), ccOrd_compare hc]
  cases intCond .. <;> rfl

theorem movVal_eq (f : Slk) (e : Env) (l : Nat) : movVal f e l =
    if opKind f.s1 = .p ∨ opKind f.s1 = .q then (if e.pred l f.s1 then 1 else 0)
      else e.val (movTy (fTy f) f.s1) l (.op f.s1) := by
  simp only [movVal, Bool.or_eq_true, beq_iff_eq]

theorem moviVal_eq (f : Slk) (e : Env) (l : Nat) : moviVal f e l =
    match fTy f with
    | 4 => if 2 ^ 31 ≤ f.ext.toNat then f.ext.toNat + (2 ^ 64 - 2 ^ 32) else f.ext.toNat
    | 7 => fround (fmtOf 7) 0 false (fdec f32 f.ext.toNat)
    | _ => f.ext.toNat := by
  have hx : f.ext.toNat < 2 ^ 32 := f.ext.isLt
  have h2 : f.ext.toNat % 2 ^ 32 = f.ext.toNat := Nat.mod_eq_of_lt hx
  have h6 : f.ext.toNat % 2 ^ 64 = f.ext.toNat := Nat.mod_eq_of_lt (by omega)
  unfold moviVal Env.val
  dsimp only
  by_cases h4 : fTy f = 4
  · rw [h4]
    exact ofSigned_toSigned_32 hx
  · by_cases h7 : fTy f = 7
    · rw [h7, f32v, h2]
      rfl
    · by_cases h : tyBits (fTy f) = 64
      · simp only [h, h4, h7, if_true, if_false]
        exact h6
      · rw [if_neg h]
        refine Eq.trans (b := f.ext.toNat) h2 ?_
        split
        · next h4' => exact absurd h4' h4
        · next h7' => exact absurd h7' h7
        · rfl

/-- Address, comparison, select, moves and `srd` write what their table says (R186 to R191). -/
theorem moves_writesFixed {s : State} {e : Env} {i : Instr} {f : Slk} {m : Nat} {fn : Env → Nat → Nat}
    (hi : moves i = some (f, m, fn)) (hx : Executes s e i f) : WritesFixed s e i f (laneWrites e f m (fn e)) := by
  unfold moves at hi
  split at hi <;> cases hi
  · exact writesFixed_of_body hx rfl rfl fun l => leaVal_eq ..
  · have h := limits_of_executes hx rfl rfl
    simp only [shIcmp, mkShape, Bool.or_eq_false_iff] at h
    obtain ⟨⟨-, hc⟩, ht⟩ := h
    exact writesFixed_of_body hx rfl rfl fun l => icmpVal_eq e l (by simpa using ht) (by simpa using hc)
  · exact writesFixed_of_body hx rfl rfl fun l => (apply_ite (fun o => e.val (fTy f) l (.op o)) _ _ _).symm
  · exact writesFixed_of_body hx rfl rfl fun l => movVal_eq ..
  · exact writesFixed_of_body hx rfl rfl fun l => moviVal_eq ..
  · exact writesFixed_of_body hx rfl rfl fun l => rfl

end Sys2Proof.Machine
end

section
/-! SUPPORT. Repeats (O50): the checks at the `rep` word, one iteration, and the targets a repeat may name. -/

namespace Sys2Proof.Machine

open Claims

/-! ### The checks at the `rep` word (R48, R51) -/

/-- What rows 3 and 4 make of the iterations of a repeat. -/
def repFates (alloc : Nat) (p : Pfx) (opc : Nat) (f : Slk) : List (Option Fate) :=
  (List.range (p.count.toNat + 1)).map fun k => (opInstr opc (repView p f k)).bind (fate alloc)

theorem mem_repFates {alloc : Nat} {p : Pfx} {opc : Nat} {f : Slk} {x : Fate} : some x ∈ repFates alloc p opc f ↔
    ∃ k, k ≤ p.count.toNat ∧ ∃ i, opInstr opc (repView p f k) = some i ∧ fate alloc i = some x := by
  simp only [repFates, List.mem_map, List.mem_range, Nat.lt_succ_iff, Option.bind_eq_some_iff]

/-- A class that is wrong in any iteration comes first. -/
theorem repFate_of_illop {alloc : Nat} {p : Pfx} {opc : Nat} {f : Slk} (h : some .illop ∈ repFates alloc p opc f) :
    repFate alloc p opc f = some .illop :=
  if_pos (List.contains_iff_mem.mpr h)

theorem repFate_of_prefix {alloc : Nat} {p : Pfx} {opc : Nat} {f : Slk} (h : some .illop ∉ repFates alloc p opc f)
    (hp : pfxFate p ≠ none ∨ repOpcode opc = false) : repFate alloc p opc f = some .illenc := by
  have hb : ((pfxFate p).isSome || !repOpcode opc) = true := by
    rcases hp with hp | hp
    · rw [Option.isSome_iff_ne_none.mpr hp, Bool.true_or]
    · rw [hp, Bool.not_false, Bool.or_true]
  exact (if_neg fun hc => h (List.contains_iff_mem.mp hc)).trans (if_pos hb)

/-- A repeat that passes its checks names an opcode a repeat may name. -/
theorem repOpcode_of_fate {alloc : Nat} {p : Pfx} {opc : Nat} {f : Slk} (h : repFate alloc p opc f = none) :
    repOpcode opc = true := by
  by_cases hi : some .illop ∈ repFates alloc p opc f
  · rw [repFate_of_illop hi] at h; cases h
  · by_contra ho
    rw [repFate_of_prefix hi (.inr (Bool.not_eq_true _ ▸ ho))] at h
    cases h

/-! ### The targets (R51) -/

/-- The rows of the opcode map that a repeat may name. -/
theorem repRows_eq : (opRows.filter fun r => repOpcode r.1) = [
    (0x010, .iadd), (0x011, .isub), (0x012, .imul), (0x013, .imulh), (0x014, .imad), (0x015, .iabs), (0x016, .imin),
    (0x017, .imax), (0x018, .ishl), (0x019, .ishr), (0x01A, .isra), (0x01B, .irot), (0x01C, .and), (0x01D, .or),
    (0x01E, .xor), (0x01F, .andn), (0x020, .popc), (0x021, .clz), (0x022, .ctz), (0x023, .brev), (0x024, .bfx),
    (0x025, .bfi), (0x026, .lea), (0x027, .icmp), (0x028, .sel), (0x029, .mov), (0x02A, .movi), (0x040, .fadd),
    (0x041, .fsub), (0x042, .fmul), (0x043, .ffma), (0x044, .fmin), (0x045, .fmax), (0x046, .fcmp), (0x047, .fclass),
    (0x048, .frnd), (0x049, .fdot2), (0x060, .frcp), (0x061, .frsq), (0x062, .fsqrt), (0x063, .fexp2), (0x064, .flog2),
    (0x065, .fsin), (0x066, .fcos), (0x067, .ftanh), (0x070, .cvt), (0x071, .qblk), (0x072, .dqblk), (0x073, .bpk),
    (0x074, .bupk), (0x100, .ldl), (0x101, .stl), (0x102, .ldg), (0x103, .stg)] := rfl

/-- An iteration has the target's own meaning. -/
theorem repExec_eq {opc : Nat} {f : Slk} {i : Instr} (ho : repOpcode opc = true) (hi : opInstr opc f = some i)
    (s : State) : repExec i s = exec i s := by
  have rows : ∀ r ∈ opRows.filter fun r => repOpcode r.1, ∀ f, repExec (r.2 f) s = exec (r.2 f) s := by
    rw [repRows_eq]
    simp only [List.forall_mem_cons, List.not_mem_nil, false_implies, implies_true, and_true]
    and_intros <;> intro f <;> rfl
  obtain ⟨c, hc, rfl⟩ := opInstr_row hi
  exact rows _ (List.mem_filter.mpr ⟨hc, ho⟩) f

/-! ### One iteration (R52, R53) -/

/-- The group where another iteration follows. -/
def repAgain (e : Env) (f : Slk) (k : Nat) (g : Group) : Group :=
  { (if guardsTrue e f.ga f.gb then g.seeHaz f.d else g) with repCtr := BitVec.ofNat 32 (k + 65), pc := e.grp.pc }
/-- The group at the end of the repeat. -/
def repOver (e : Env) (g : Group) : Group := { g with
  cond := .ready, repCtr := 0, pc := pcAdd e.grp.pc 24, haz := g.haz.map fun h => { h with seen := false } }
/-- The group after iteration `k` of `n`. -/
def repAfter (e : Env) (f : Slk) (k n : Nat) : Group → Group := if k + 1 < n then repAgain e f k else repOver e

theorem repAfter_apply (e : Env) (f : Slk) (k n : Nat) (g : Group) :
    repAfter e f k n g = if k + 1 < n then repAgain e f k g else repOver e g := by
  unfold repAfter
  split <;> rfl

theorem seeHaz_idx (d : Opnd) (g : Group) : (g.seeHaz d).idx = g.idx := by
  cases d <;> rfl

theorem repAgain_idx (e : Env) (f : Slk) (k : Nat) (g : Group) : (repAgain e f k g).idx = g.idx := by
  unfold repAgain
  dsimp only
  split
  · exact seeHaz_idx ..
  · rfl

theorem repAfter_idx (e : Env) (f : Slk) (k n : Nat) (g : Group) : (repAfter e f k n g).idx = g.idx := by
  unfold repAfter
  split
  · exact repAgain_idx ..
  · rfl

theorem opcode_of_word (w : BitVec 96) : (w.extractLsb' 0 9).toNat = w.toNat % 2 ^ 9 := by
  rw [BitVec.extractLsb'_toNat, Nat.shiftRight_zero]

/-- The group whose REPCTR names iteration `k` of an active repeat. -/
def Group.counting (k : Nat) (g : Group) : Group := { g with repCtr := BitVec.ofNat 32 (k + 64) }
/-- The state in which iteration `k` executes its target. -/
def Env.iteration (e : Env) (k : Nat) : State := e.mod (Group.counting k)
/-- The iteration that comes next. -/
def Group.iteration (g : Group) : Nat := if g.repCtr.getLsbD 6 then g.repCtr.toNat % 64 else 0

theorem repDone_of_group {e : Env} {s : State} {g : Group} (hg : groupOf s e.gid = some g) (hc : g.cond = .ready)
    (ht : g.inTrap = e.grp.inTrap) (hr : g.region.any (·.refused) = true → e.grp.region.any (·.refused) = true) :
    repDone e s = true := by
  obtain ⟨x, hx, hxg, -, -⟩ := env?_of_groupOf hg
  subst hxg
  unfold repDone
  rw [hx]
  simp only [hc, ht, beq_self_eq_true, Bool.true_and]
  cases h : x.grp.region.any (·.refused)
  · rfl
  · rw [hr h]; rfl

/-- An iteration whose target completes. -/
theorem repStep_iterates {p : Pfx} {w : BitVec 96} {e : Env} {f : Slk} {i : Instr} {s2 : State} {g2 : Group}
    (hf : repFate e.grp.alloc p (w.toNat % 2 ^ 9) (splitSlk w) = none) (hk : e.grp.iteration < p.count.toNat + 1)
    (hw : repWord p (splitSlk w) e.grp.iteration = some f) (hi : opInstr (w.toNat % 2 ^ 9) f = some i)
    (hx : exec i (e.iteration e.grp.iteration) = .next s2) (hg : groupOf s2 e.gid = some g2) (hc : g2.cond = .ready)
    (ht : g2.inTrap = e.grp.inTrap) (hr : g2.region.any (·.refused) = true → e.grp.region.any (·.refused) = true) :
    repStep p w e = .next (modGroup e.gid (repAfter e f e.grp.iteration (p.count.toNat + 1)) s2) := by
  have hd := repDone_of_group hg hc ht hr
  rw [← repExec_eq (repOpcode_of_fate hf) hi] at hx
  unfold Group.iteration at hk hw hx
  unfold Env.iteration Group.counting at hx
  unfold repStep
  rw [opcode_of_word]
  simp only [hf, if_neg (Nat.not_le.mpr hk), hw, hi, hx, hd, Bool.not_true, Bool.false_eq_true, if_false]
  unfold repAfter Group.iteration
  generalize (if e.grp.repCtr.getLsbD 6 then e.grp.repCtr.toNat % 64 else 0) = k
  split <;> rfl

theorem repStep_of_fate {p : Pfx} {w : BitVec 96} {e : Env} {x : Fate}
    (hf : repFate e.grp.alloc p (w.toNat % 2 ^ 9) (splitSlk w) = some x) :
    repStep p w e = .next (takeTrap e.gid x.trap e.st) := by
  unfold repStep
  rw [opcode_of_word]
  simp only [hf]

theorem repStep_of_ended {p : Pfx} {w : BitVec 96} {e : Env}
    (hf : repFate e.grp.alloc p (w.toNat % 2 ^ 9) (splitSlk w) = none) (hk : p.count.toNat + 1 ≤ e.grp.iteration) :
    repStep p w e = .next (repEnd e e.st) := by
  unfold Group.iteration at hk
  unfold repStep
  rw [opcode_of_word]
  simp only [hf, if_pos hk]

theorem exec_rep {s s1 : State} {e : Env} {w : BitVec 96} (p : Pfx) (he : env? s s.cur = some e)
    (hw : fetchRes e (pcAdd e.grp.pc 12) = .ok (s1, w)) : exec (.rep p) s = repStep p w (e.at s1) := by
  change execRep p s = _
  simp only [execRep, he, hw]

/-! ### The fetch leaves whose turn it is -/

theorem cur_of_front {s t : State} (h : t.front = s.front) : t.cur = s.cur := congrArg Front.cur h

theorem fetchSegs_cur (e : Env) (rid : Nat) (l : List (Nat × Nat)) (s : State) (bs : List Byte) :
    (fetchSegs e rid l s bs).1.cur = s.cur := by
  induction l generalizing s bs with
  | nil => rfl
  | cons x l ih =>
    obtain ⟨va, n⟩ := x
    have ht := cur_of_front (translate_front s e.team.ctx rid va n .fetch)
    unfold fetchSegs
    generalize translate s e.team.ctx rid va n .fetch = y at ht ⊢
    obtain ⟨t, r⟩ := y
    cases r with
    | ok loc ca =>
      have hl : (icLine t e.team.core (loc / 128) ca).1.cur = t.cur :=
        congrArg Front.cur (icLine_front t e.team.core (loc / 128) ca t.slips)
      dsimp only
      split
      · exact ht
      · split
        · exact hl.trans ht
        · rw [ih, cur_of_front (countLatent_front ..)]
          exact hl.trans ht
    | _ => exact ht

theorem fetchAt_cur (e : Env) (pc : DWord) (s : State) : (fetchAt e pc s).1.cur = s.cur := by
  have h := fetchSegs_cur e (pc.toNat / 2 ^ 57) (segs 128 (pc.toNat % 2 ^ 57) 12) s []
  unfold fetchAt
  dsimp only
  generalize fetchSegs e (pc.toNat / 2 ^ 57) (segs 128 (pc.toNat % 2 ^ 57) 12) s [] = x at h ⊢
  obtain ⟨t, r⟩ := x
  split
  · rfl
  · split
    · rfl
    · split
      · rfl
      · cases r <;> exact h

theorem fetchRes_cur {e : Env} {pc : DWord} {s1 : State} {w : BitVec 96} (h : fetchRes e pc = .ok (s1, w)) :
    s1.cur = e.st.cur := by
  have hc := fetchAt_cur e pc e.st
  unfold fetchRes at h
  split at h <;> cases h
  next hs => rw [hs] at hc; exact hc

/-! ### A repeat of an instruction that writes registers -/

theorem sameOutside_trans {s t u : State} (h : SameOutside s t) (k : SameOutside t u) : SameOutside s u := by
  obtain ⟨h1, h2⟩ := h
  obtain ⟨k1, k2⟩ := k
  refine ⟨?_, fun x => (k2 x).trans (h2 x)⟩
  rw [k1, h1]

theorem at_gid (e : Env) (s : State) : (e.at s).gid = e.gid := by
  unfold Env.at
  cases h : env? s e.gid with
  | none => rfl
  | some x => exact (env?_eq h).2.2.2

/-- The view in which an iteration executes. -/
theorem iteration_view {e e2 : Env} {k : Nat} {i : Instr} {f : Slk} (hc : e.st.cur = e.gid)
    (hx : Executes (e.iteration k) e2 i f) : e2.gid = e.gid ∧ ∃ e0, env? e.st e.gid = some e0 ∧
      e2.grp = e0.grp.counting k := by
  have hv : env? (e.iteration k) e.gid = some e2 := hc ▸ hx.1
  rw [Env.iteration, Env.mod, env?_modGroup e.st e.gid e.gid (Group.counting k) fun _ => rfl] at hv
  obtain ⟨e0, he0, rfl⟩ := Option.map_eq_some_iff.mp hv
  exact ⟨rfl, e0, he0, by simp⟩

/-- What an iteration of a target that writes registers leaves. -/
theorem repStep_writes {p : Pfx} {w : BitVec 96} {e e2 : Env} {f : Slk} {i : Instr} {ws : List RegWrite}
    (hv : env? e.st e.gid = some e ∨ env? e.st e.gid = none) (hcur : e.st.cur = e.gid)
    (hf : repFate e.grp.alloc p (w.toNat % 2 ^ 9) (splitSlk w) = none) (hk : e.grp.iteration < p.count.toNat + 1)
    (hw : repWord p (splitSlk w) e.grp.iteration = some f) (hi : opInstr (w.toNat % 2 ^ 9) f = some i)
    (hx : Executes (e.iteration e.grp.iteration) e2 i f) (hws : WritesFixed (e.iteration e.grp.iteration) e2 i f ws)
    (hok : (∀ x ∈ ws, IsReg x.dst ∧ x.dst.kept x.val = x.val) ∧ (ws.map (·.dst)).Nodup) :
    ∃ t g2, repStep p w e = .next t ∧ SameOutside e.st t ∧ SameOthers e.st t e.gid ∧ Holds g2 ws ∧
      KeepsGroup e2.grp g2 (ws.map (·.dst)) ∧
      groupOf t e.gid = some (repAfter e f e.grp.iteration (p.count.toNat + 1) g2) := by
  obtain ⟨hgid, e0, he0, hgrp⟩ := iteration_view hcur hx
  obtain rfl : e0 = e := by
    rcases hv with h | h <;> rw [h] at he0 <;> cases he0
    rfl
  obtain ⟨a, b, hex⟩ := hws
  obtain ⟨hout, hoth, g2, hg2, ⟨-, hcond⟩, hholds, hkeep⟩ :=
    conclude_writeFixed (env?_of_executes hx) (issueClk e2 f) a b ws hok.1 hok.2
  rw [hgid] at hoth hg2
  have htrap : g2.inTrap = e0.grp.inTrap := by rw [hkeep.rest, hgrp]; rfl
  have hreg : g2.region = e0.grp.region := by rw [hkeep.rest, hgrp]; rfl
  have hidx := repAfter_idx e0 f e0.grp.iteration (p.count.toNat + 1)
  refine ⟨_, g2, repStep_iterates hf hk hw hi hex hg2 hcond htrap (fun h => hreg ▸ h), ?_, fun h hne => ?_, hholds, hkeep,
    groupOf_modGroup_self hidx hg2⟩
  · exact sameOutside_trans (sameOutside_modGroup e0.st e0.gid _ e0.st.fresh)
      (sameOutside_trans hout (sameOutside_modGroup _ e0.gid _ _))
  · rw [groupOf_modGroup _ e0.gid h _ hidx, hoth h hne, Env.iteration, Env.mod,
      groupOf_modGroup e0.st e0.gid h (Group.counting e0.grp.iteration) fun _ => rfl]
    simp [hne]

/-- Settles O50: the checks by `repFate`, an iteration by `repStep_iterates`, a target that writes registers by
`repStep_writes`. -/
theorem repeatRunsItsTarget : Obligations.RepeatRunsItsTarget := by
  unfold Obligations.RepeatRunsItsTarget
  refine ⟨fun alloc p opc f => ⟨fun h => repFate_of_illop (mem_repFates.mpr h), fun h hp => ?_⟩,
    fun s e p s1 w he hw => ⟨fun x hf => ?_, fun hf hk => ?_, ?completes, ?writes⟩,
    fun opc f i s ho hi => repExec_eq ho hi s⟩
  · refine repFate_of_prefix (fun hm => ?_) hp
    obtain ⟨k, hk, i, hi, hx⟩ := mem_repFates.mp hm
    exact h k i hk hi hx
  · rw [exec_rep p he hw, repStep_of_fate hf]
    cases x <;> rfl
  · rw [exec_rep p he hw]
    exact repStep_of_ended hf hk
  case completes =>
    intro f i s2 g2 hf hk hword hi hx hg hc ht hr
    refine ⟨_, (exec_rep p he hw).trans (repStep_iterates hf hk hword hi hx hg hc ht hr), fun h hne => ?_, ?_⟩
    · rw [groupOf_modGroup _ _ h _ fun g => repAfter_idx _ f _ _ g]
      simp [hne]
    · exact (groupOf_modGroup_self (fun g => repAfter_idx _ f _ _ g) hg).trans (congrArg some (repAfter_apply ..))
  case writes =>
    intro f i e2 ws hf hk hword hi hx hws
    have hgid : e.gid = s.cur := (env?_eq he).2.2.2
    have hcur : (e.at s1).st.cur = (e.at s1).gid := by
      rw [Env.at_st, at_gid, fetchRes_cur hw, (env?_eq he).2.2.1, hgid]
    have hv : env? (e.at s1).st (e.at s1).gid = some (e.at s1) ∨ env? (e.at s1).st (e.at s1).gid = none := by
      rw [Env.at_st, at_gid]
      cases h : env? s1 e.gid with
      | none => exact .inr rfl
      | some x => exact .inl (by rw [Env.at_of_some h])
    have hfix : WritesFixed ((e.at s1).iteration (e.at s1).grp.iteration) e2 i f ws ∧
        ((∀ x ∈ ws, IsReg x.dst ∧ x.dst.kept x.val = x.val) ∧ (ws.map (·.dst)).Nodup) := by
      rcases hws with ⟨m, op, ha, rfl⟩ | ⟨m, fn, hm, rfl⟩
      · exact ⟨arith_writesFixed ha hx, laneWrites_ok ..⟩
      · exact ⟨moves_writesFixed hm hx, laneWrites_ok ..⟩
    obtain ⟨t, g2, ht, hout, hoth, hh, hkeep, hg⟩ := repStep_writes hv hcur hf hk hword hi hx hfix.1 hfix.2
    refine ⟨t, g2, (exec_rep p he hw).trans ht, hout, hoth, hh, hkeep, hg.trans (congrArg some (repAfter_apply ..))⟩

end Sys2Proof.Machine
end

section
/-! SUPPORT. The issue of special functions, shuffles, ballots and votes (O15). -/

namespace Sys2Proof.Machine

open Claims

/-- A long-latency body that computes `fn` in each lane, as a table has it (R36). -/
theorem concluded_of_longBody {s : State} {e : Env} {i : Instr} {f : Slk} {body : Env → Res} {n : Nat}
    {fn : Env → Nat → Nat} {g : Nat → Nat} (hx : Executes s e i f) (hb : body e = longBody f n fn e)
    (hg : ∀ l, fn e l = g l) :
    issue i f body s = concluded e f (.done (writeLong e false (laneWrites e f n g) s)) := by
  refine concluded_of_executes hx ?_
  rw [hb, longBody, laneWrites, funext hg, st_of_executes hx]

/-- Outside early service f64 arithmetic is not turned away (R446). -/
theorem f64Service_of_run {e : Env} {f : Slk} (body : Env → Res) (h : (fTy f == 7) = true → e.st.phase = .run) :
    f64Service f body e = body e := by
  unfold f64Service
  split
  · next ht => rw [inService, if_pos (h (beq_iff_eq.mpr ht))]
  · rfl

/-- A ballot's word, bit by bit (R206). -/
theorem ballotVal_eq (f : Slk) (e : Env) (l : Nat) : ballotVal f e l = ofBits (tyBits (fTy f)) fun j =>
    e.isActive (ballotWord f e * tyBits (fTy f) + j) && decide (ballotWord f e * tyBits (fTy f) + j < e.grant) &&
      e.xpred (ballotWord f e * tyBits (fTy f) + j) f.s1 := by
  unfold ballotVal ballotBits ofBits
  congr 1
  funext a j
  split <;> simp

/-- A decision is a bit. -/
theorem ite_one_zero (b : Bool) : (if b then 1 else 0) = b.toNat := by cases b <;> rfl

/-- The three decisions of `vote` (R207). -/
theorem voteVal_eq (f : Slk) (e : Env) (l : Nat) : voteVal f e l = Bool.toNat (match fCc f with
    | 0 => ∃ l ∈ e.lanes, e.xpred l f.s1 = true
    | 1 => ∀ l ∈ e.lanes, e.xpred l f.s1 = true
    | _ => ∀ l ∈ e.lanes, e.xval (fTy f) l f.s1 = voteRef f e : Bool) := by
  unfold voteVal
  rw [ite_one_zero]
  congr 1
  generalize fCc f = c
  match c with
  | 0 =>
    change e.lanes.any _ = decide (∃ l ∈ e.lanes, _)
    rw [Bool.eq_iff_iff]
    simp
  | 1 =>
    change e.lanes.all _ = decide (∀ l ∈ e.lanes, _)
    rw [Bool.eq_iff_iff]
    simp
  | c + 2 =>
    change e.lanes.all _ = decide (∀ l ∈ e.lanes, _)
    rw [Bool.eq_iff_iff]
    simp

/-- A shuffle's source, and what a lane receives (R205). -/
theorem shflVal_eq (f : Slk) (e : Env) (i : Nat) : shflVal f e i =
    let src := shflSrc (fCc f) i (e.frac i (srcOf f 2 2))
    if src < 0 ∨ (e.grant : Int) ≤ src ∨ e.holds src.toNat = false then (if fV f then 0 else e.xval (fTy f) i f.s1)
    else if fV f = true ∧ e.isActive src.toNat = false then 0 else e.xval (fTy f) src.toNat f.s1 := by
  unfold shflVal
  simp only [Bool.or_eq_true, Bool.and_eq_true, decide_eq_true_eq, Bool.not_eq_true', or_assoc, and_comm]

/-- The special functions, shuffles, ballots and votes post what their table says. -/
theorem longs_issue {s : State} {e : Env} {i : Instr} {f : Slk} {n : Nat} {fn : Env → Nat → Nat}
    (hi : longs i = some (f, n, fn)) (hx : Executes s e i f) (hr : needsRun i = true → s.phase = .run) :
    exec i s = concluded e f (.done (writeLong e false (laneWrites e f n (fn e)) s)) := by
  have hst := st_of_executes hx
  unfold longs at hi
  split at hi <;> cases hi
  · exact concluded_of_longBody (body := f64Service f (sfuBody f rcpFn)) hx (f64Service_of_run _ (hst ▸ hr)) fun _ => rfl
  · exact concluded_of_longBody (body := f64Service f (sfuBody f sqrtFn)) hx (f64Service_of_run _ (hst ▸ hr)) fun _ => rfl
  · exact concluded_of_longBody hx rfl fun _ => rfl
  · exact concluded_of_longBody hx rfl fun _ => rfl
  · exact concluded_of_longBody hx rfl fun _ => rfl
  · exact concluded_of_longBody hx rfl fun _ => rfl
  · exact concluded_of_longBody hx rfl fun _ => rfl
  · exact concluded_of_longBody hx rfl fun _ => rfl
  · exact concluded_of_longBody hx rfl fun l => shflVal_eq ..
  · exact concluded_of_longBody hx rfl fun l => ballotVal_eq ..
  · exact concluded_of_longBody hx rfl fun l => voteVal_eq ..

end Sys2Proof.Machine
end

section
/-! SUPPORT. Rounding (O15): it depends on the value alone, and a value that f32 holds is decoded from its rounding. -/

namespace Sys2Proof.Machine

/-! ### Rounding to an integer -/

/-- An exact multiple is not rounded. -/
theorem roundShift_mul (rm : Nat) (neg : Bool) (a sh : Nat) : roundShift rm neg (a * 2 ^ sh) sh false = a := by
  have hp : 4 * (a * 2 ^ sh) = a * 2 ^ (sh + 2) := by rw [pow_add]; ring
  have hk : (a * 2 ^ (sh + 2)) >>> (sh + 2) = a := by
    rw [Nat.shiftRight_eq_div_pow, Nat.mul_div_cancel _ (Nat.two_pow_pos _)]
  have hr : a * 2 ^ (sh + 2) % 2 ^ (sh + 2) = 0 := Nat.mul_mod_left ..
  have hh : (0 == 2 ^ (sh + 1)) = false := beq_eq_false_iff_ne.mpr (Nat.two_pow_pos _).ne
  simp [roundShift, hp, hk, hr, hh]

/-- A significand and its place moved together round alike. -/
theorem roundShift_scale (rm : Nat) (neg : Bool) (m sh t : Nat) :
    roundShift rm neg (m * 2 ^ t) (sh + t) false = roundShift rm neg m sh false := by
  have h0 : 0 < 2 ^ t := Nat.two_pow_pos t
  have hp : 4 * (m * 2 ^ t) = 4 * m * 2 ^ t := by ring
  have hs : 2 ^ (sh + t + 2) = 2 ^ (sh + 2) * 2 ^ t := by rw [← pow_add]; congr 1; omega
  have hh : 2 ^ (sh + t + 1) = 2 ^ (sh + 1) * 2 ^ t := by rw [← pow_add]; congr 1; omega
  have hk : (4 * m * 2 ^ t) >>> (sh + t + 2) = (4 * m) >>> (sh + 2) := by
    rw [Nat.shiftRight_eq_div_pow, Nat.shiftRight_eq_div_pow, hs, Nat.mul_div_mul_right _ _ h0]
  have hr : 4 * m * 2 ^ t % 2 ^ (sh + t + 2) = 4 * m % 2 ^ (sh + 2) * 2 ^ t := by rw [hs, Nat.mul_mod_mul_right]
  have hne (r : Nat) : (r * 2 ^ t != 0) = (r != 0) := by
    rw [Bool.eq_iff_iff]; simp
  have hle (a b : Nat) : (a * 2 ^ t ≤ b * 2 ^ t) = (a ≤ b) := propext (Nat.mul_le_mul_right_iff h0)
  have hlt (a b : Nat) : (a * 2 ^ t < b * 2 ^ t) = (a < b) := propext (Nat.mul_lt_mul_right h0)
  have heq (a b : Nat) : (a * 2 ^ t == b * 2 ^ t) = (a == b) := by
    rw [Bool.eq_iff_iff]; simp
  simp only [roundShift, hp, Bool.false_eq_true, if_false, Nat.add_zero, hk, hr, hh, hne, hle, hlt, heq]

/-! ### Rounding to a format -/

theorem log2_mul_two_pow {m : Nat} (h : m ≠ 0) (t : Nat) : log2 (m * 2 ^ t) = log2 m + t := by
  unfold log2
  rw [Nat.log2_eq_iff (by positivity), pow_add]
  have h1 := Nat.log2_self_le h
  have h2 := Nat.lt_log2_self (n := m)
  constructor
  · exact Nat.mul_le_mul_right _ h1
  · rw [Nat.add_right_comm, pow_add]
    exact Nat.mul_lt_mul_of_pos_right h2 (Nat.two_pow_pos t)

/-- The exponent of a format's spacing at ±m × 2^e. -/
def FFmt.place (f : FFmt) (m : Nat) (e : Int) : Int := max (log2 m + e - f.mb) (1 - f.bias - f.mb)
/-- The significand of ±m × 2^e at the place `q`. -/
def sigAt (rm : Nat) (neg : Bool) (m : Nat) (e q : Int) : Nat :=
  if q ≤ e then m <<< (e - q).toNat else roundShift rm neg m (q - e).toNat false
/-- The pattern of a significand at a place. -/
def FFmt.pack (f : FFmt) (rm : Nat) (sat neg : Bool) (q : Int) (k : Nat) : Nat :=
  if (f.maxE : Int) - f.bias - f.mb < q ∨ (q = (f.maxE : Int) - f.bias - f.mb ∧ f.maxK < k) then overflow f rm sat neg
  else f.signed neg ((q + f.mb + f.bias - 1).toNat * 2 ^ f.mb + k)

theorem froundM_eq {f : FFmt} {rm : Nat} {sat neg : Bool} {m : Nat} (h : m ≠ 0) (e : Int) :
    froundM f rm sat neg m e false = f.pack rm sat neg (f.place m e) (sigAt rm neg m e (f.place m e)) := by
  rw [froundM, if_neg h]
  rfl

/-- The significand depends on the value alone. -/
theorem sigAt_scale (rm : Nat) (neg : Bool) (m t : Nat) (e q : Int) :
    sigAt rm neg (m * 2 ^ t) (e - t) q = sigAt rm neg m e q := by
  unfold sigAt
  by_cases h1 : q ≤ e - t
  · have hs : (e - q).toNat = t + (e - t - q).toNat := by omega
    rw [if_pos h1, if_pos (by omega), hs, Nat.shiftLeft_eq, Nat.shiftLeft_eq, pow_add, mul_assoc]
  · rw [if_neg h1]
    by_cases h2 : q ≤ e
    · have hs : t = (e - q).toNat + (q - (e - t)).toNat := by omega
      rw [if_pos h2]
      generalize (q - (e - t)).toNat = a at hs ⊢
      generalize (e - q).toNat = b at hs ⊢
      rw [hs, pow_add, ← mul_assoc, roundShift_mul, Nat.shiftLeft_eq]
    · have hs : (q - (e - t)).toNat = (q - e).toNat + t := by omega
      rw [if_neg h2, hs, roundShift_scale]

/-- Rounding depends on the value alone. -/
theorem fround_scale (f : FFmt) (rm : Nat) (sat neg : Bool) (m t : Nat) (e : Int) :
    fround f rm sat (.num neg (m * 2 ^ t) (e - t)) = fround f rm sat (.num neg m e) := by
  unfold fround
  dsimp only
  by_cases h : m = 0
  · simp [h, froundM]
  · have hm : m * 2 ^ t ≠ 0 := Nat.mul_ne_zero h (Nat.two_pow_pos t).ne'
    have hp : f.place (m * 2 ^ t) (e - t) = f.place m e := by
      unfold FFmt.place
      rw [log2_mul_two_pow h]
      congr 1
      push_cast
      ring
    rw [froundM_eq hm, froundM_eq h, hp, sigAt_scale]

/-! ### Values that f32 holds -/

/-- The fields of an f32 pattern. -/
theorem fields_f32 (neg : Bool) {E F : Nat} (hE : E < 256) (hF : F < 2 ^ 23) :
    bitAt (f32.signed neg (E * 2 ^ 23 + F)) 31 = neg ∧ field (f32.signed neg (E * 2 ^ 23 + F)) 23 8 = E ∧
      f32.signed neg (E * 2 ^ 23 + F) % 2 ^ 23 = F := by
  have hs : f32.signed neg (E * 2 ^ 23 + F) = neg.toNat * 2 ^ 31 + (E * 2 ^ 23 + F) := by
    cases neg
    · simp [FFmt.signed]
    · simp [FFmt.signed, f32, fmtOf]
  rw [hs, bitAt, Nat.testBit_eq_decide_div_mod_eq, field, Nat.shiftRight_eq_div_pow]
  cases neg
  · simp only [Bool.toNat_false]
    refine ⟨?_, by omega, by omega⟩
    rw [decide_eq_false_iff_not]
    omega
  · simp only [Bool.toNat_true]
    refine ⟨?_, by omega, by omega⟩
    rw [decide_eq_true_eq]
    omega

/-- A pattern of f32 that is neither an infinity nor NaN. -/
theorem fdec_f32_finite {x : Nat} (h : field x 23 8 ≠ 255) : fdec f32 x =
    if field x 23 8 = 0 then .num (bitAt x 31) (x % 2 ^ 23) (-149)
    else .num (bitAt x 31) (2 ^ 23 + x % 2 ^ 23) (field x 23 8 - 150) := by
  have h1 : (f32.hasInf && field x f32.mb f32.eb == 2 ^ f32.eb - 1) = false := beq_eq_false_iff_ne.mpr h
  have h2 : (!f32.hasInf && f32.hasNan && field x f32.mb f32.eb == 2 ^ f32.eb - 1 && x % 2 ^ f32.mb == 2 ^ f32.mb - 1) =
      false := rfl
  have he : (field x 23 8 : Int) - 127 - 23 = field x 23 8 - 150 := by omega
  unfold fdec
  simp only [h1, h2, Bool.false_eq_true, if_false]
  split
  · next h0 => exact (if_pos h0).symm
  · next h0 => exact (congrArg _ he).trans (if_neg h0).symm

theorem fdec_f32_normal (neg : Bool) {E F : Nat} (h1 : 1 ≤ E) (h254 : E ≤ 254) (hF : F < 2 ^ 23) :
    fdec f32 (f32.signed neg (E * 2 ^ 23 + F)) = .num neg (2 ^ 23 + F) (E - 150) := by
  obtain ⟨hn, he, hf⟩ := fields_f32 neg (E := E) (by omega) hF
  rw [fdec_f32_finite (by omega), hn, he, hf, if_neg (by omega)]

theorem fdec_f32_subnormal (neg : Bool) {F : Nat} (hF : F < 2 ^ 23) :
    fdec f32 (f32.signed neg F) = .num neg F (-149) := by
  obtain ⟨hn, he, hf⟩ := fields_f32 neg (E := 0) (by omega) hF
  rw [Nat.zero_mul, Nat.zero_add] at hn he hf
  rw [fdec_f32_finite (by omega), hn, he, hf, if_pos rfl]

/-- The pattern of a significand of f32 that does not overflow. -/
theorem pack_f32 {rm : Nat} {sat neg : Bool} {q : Int} {k : Nat} (hk : k < 2 ^ 24) (hq : q ≤ 104) :
    f32.pack rm sat neg q k = f32.signed neg ((q + 149).toNat * 2 ^ 23 + k) := by
  have h1 : (f32.maxE : Int) - f32.bias - f32.mb = 104 := by decide
  have h2 : f32.maxK = 16777215 := by decide
  have h3 : q + f32.mb + f32.bias - 1 = q + 149 := by
    change q + 23 + 127 - 1 = q + 149
    omega
  rw [FFmt.pack, h1, h2, h3, if_neg (by omega)]
  rfl

/-- The rounding of a value whose significand stands at its place, decoded. -/
theorem fdec_fround_f32 {rm : Nat} {sat neg : Bool} {m : Nat} {e : Int} (h : m ≠ 0) (hp : f32.place m e ≤ e)
    (hlt : log2 m + e ≤ 127) : fdec f32 (fround f32 rm sat (.num neg m e)) =
      .num neg (m * 2 ^ (e - f32.place m e).toNat) (e - (e - f32.place m e).toNat) := by
  have hsig : sigAt (rmFor f32.w rm) neg m e (f32.place m e) = m * 2 ^ (e - f32.place m e).toNat := by
    rw [sigAt, if_pos hp, Nat.shiftLeft_eq]
  have hlog := log2_mul_two_pow h (e - f32.place m e).toNat
  have hK : m * 2 ^ (e - f32.place m e).toNat ≠ 0 := Nat.mul_ne_zero h (Nat.two_pow_pos _).ne'
  have hq : e - (e - f32.place m e).toNat = f32.place m e := by omega
  have hplace : f32.place m e = max (log2 m + e - 23) (-149) := rfl
  rw [fround, froundM_eq h, hsig, hq]
  generalize m * 2 ^ (e - f32.place m e).toNat = K at hlog hK ⊢
  generalize f32.place m e = q at *
  have hK24 : K < 2 ^ 24 := (Nat.log2_lt hK).mp (by unfold log2 at *; omega)
  rw [pack_f32 hK24 (by omega)]
  by_cases hsub : K < 2 ^ 23
  · have hK23 : log2 K < 23 := (Nat.log2_lt hK).mpr hsub
    have hq149 : q = -149 := by omega
    subst hq149
    simpa using fdec_f32_subnormal neg hsub
  · have hK23 : 23 ≤ log2 K := (Nat.le_log2 hK).mpr (by omega)
    obtain ⟨F, rfl⟩ := Nat.exists_eq_add_of_le (show 2 ^ 23 ≤ K by omega)
    have hE : (q + 149).toNat * 2 ^ 23 + (2 ^ 23 + F) = (q + 150).toNat * 2 ^ 23 + F := by omega
    rw [hE, fdec_f32_normal neg (by omega) (by omega) (by omega)]
    congr 1
    omega

/-- Rounding to f32 loses nothing of a value that f32 holds. -/
theorem fround_fdec_fround_f32 (f : FFmt) (r : Nat) (b : Bool) {rm : Nat} {sat neg : Bool} {m : Nat} {e : Int}
    (h : m ≠ 0) (hp : f32.place m e ≤ e) (hlt : log2 m + e ≤ 127) :
    fround f r b (fdec f32 (fround f32 rm sat (.num neg m e))) = fround f r b (.num neg m e) := by
  rw [fdec_fround_f32 h hp hlt, fround_scale]

end Sys2Proof.Machine
end

section
/-! SUPPORT. The special functions (O15): results that are no numbers, what a pattern decodes to, and the quotient and the
root with their remainders. -/

namespace Sys2Proof.Machine

/-! ### Flushing of results that are not subnormal (R73) -/

/-- The types of the special functions. -/
def sfuTys : List Nat := [3, 8, 9, 7]

theorem fout_of_not_sub {rm : Nat} {g : FFmt} {x : Nat} (h : fsub g x = false) : fout rm g x = x := by
  unfold fout fzap
  simp [h]

theorem nanBits_not_sub {ty : Nat} (h : ty ∈ sfuTys) : fsub (fmtOf ty) (fmtOf ty).nanBits = false := by
  simp only [sfuTys, List.mem_cons, List.not_mem_nil, or_false] at h
  rcases h with rfl | rfl | rfl | rfl <;> decide

theorem infBits_not_sub {ty : Nat} (neg : Bool) (h : ty ∈ sfuTys) :
    fsub (fmtOf ty) ((fmtOf ty).signed neg (fmtOf ty).infBits) = false := by
  simp only [sfuTys, List.mem_cons, List.not_mem_nil, or_false] at h
  rcases h with rfl | rfl | rfl | rfl <;> cases neg <;> decide

theorem zero_not_sub {ty : Nat} (neg : Bool) (h : ty ∈ sfuTys) : fsub (fmtOf ty) ((fmtOf ty).signed neg 0) = false := by
  simp only [sfuTys, List.mem_cons, List.not_mem_nil, or_false] at h
  rcases h with rfl | rfl | rfl | rfl <;> cases neg <;> decide

theorem ffin_nan {ty : Nat} (rm : Nat) (sat : Bool) (h : ty ∈ sfuTys) :
    ffin (fmtOf ty) rm sat .nan = (fmtOf ty).nanBits := fout_of_not_sub (nanBits_not_sub h)

theorem ffin_inf {ty : Nat} (rm : Nat) (sat neg : Bool) (h : ty ∈ sfuTys) :
    ffin (fmtOf ty) rm sat (.inf neg) = (fmtOf ty).signed neg (fmtOf ty).infBits := by
  have hi : (fmtOf ty).hasInf = true := by
    simp only [sfuTys, List.mem_cons, List.not_mem_nil, or_false] at h
    rcases h with rfl | rfl | rfl | rfl <;> rfl
  rw [ffin, fround, if_pos hi]
  exact fout_of_not_sub (infBits_not_sub neg h)

theorem ffin_zero {ty : Nat} (rm : Nat) (sat neg : Bool) (e : Int) (h : ty ∈ sfuTys) :
    ffin (fmtOf ty) rm sat (.num neg 0 e) = (fmtOf ty).signed neg 0 := by
  rw [ffin, fround, froundM, if_pos rfl]
  exact fout_of_not_sub (zero_not_sub neg h)

/-! ### What a pattern decodes to -/

/-- The significand and the exponent of a number's pattern. -/
theorem fdec_num_bounds {f : FFmt} {x : Nat} {neg : Bool} {m : Nat} {e : Int} (h : fdec f x = .num neg m e) :
    m < 2 ^ (f.mb + 1) ∧ (1 : Int) - f.bias - f.mb ≤ e ∧ e ≤ (2 ^ f.eb : Nat) - f.bias - f.mb ∧
      (m = 0 → e = 1 - f.bias - f.mb) := by
  have hF : x % 2 ^ f.mb < 2 ^ f.mb := Nat.mod_lt _ (Nat.two_pow_pos _)
  have hE : field x f.mb f.eb < 2 ^ f.eb := Nat.mod_lt _ (Nat.two_pow_pos _)
  have hw : 2 ^ (f.mb + 1) = 2 ^ f.mb + 2 ^ f.mb := by rw [pow_succ, mul_two]
  have h1 : 0 < 2 ^ f.eb := Nat.two_pow_pos _
  unfold fdec at h
  dsimp only at h
  generalize field x f.mb f.eb = E at *
  generalize 2 ^ f.eb = P at *
  split at h
  · split at h <;> cases h
  · split at h
    · cases h
    · split at h <;> cases h <;> refine ⟨?_, ?_, ?_, ?_⟩ <;> omega

/-! ### `frcp` -/

section
variable {ty rm : Nat} {sat neg : Bool} {x m : Nat} {e : Int}

theorem rcpFn_nan (hv : fdec (fmtOf ty) (fin rm (fmtOf ty) x) = .nan) : rcpFn ty rm sat x = (fmtOf ty).nanBits := by
  simp only [rcpFn, hv]

theorem rcpFn_inf (hv : fdec (fmtOf ty) (fin rm (fmtOf ty) x) = .inf neg) :
    rcpFn ty rm sat x = (fmtOf ty).signed neg 0 := by
  simp only [rcpFn, hv]

theorem rcpFn_zero (hv : fdec (fmtOf ty) (fin rm (fmtOf ty) x) = .num neg 0 e) :
    rcpFn ty rm sat x = (fmtOf ty).signed neg (fmtOf ty).infBits := by
  simp only [rcpFn, hv, if_true]

theorem rcpFn_num (hv : fdec (fmtOf ty) (fin rm (fmtOf ty) x) = .num neg m e) (hm : m ≠ 0) :
    rcpFn ty rm sat x = fout rm (fmtOf ty) (froundM (fmtOf ty) (rmFor (fmtOf ty).w (rmRm rm)) sat neg
      (2 ^ (log2 m + 128) / m) (-e - (log2 m + 128 : Nat)) (decide (2 ^ (log2 m + 128) % m ≠ 0))) := by
  simp only [rcpFn, hv, if_neg hm]

theorem sqrtFn_nan (hv : fdec (fmtOf ty) (fin rm (fmtOf ty) x) = .nan) : sqrtFn ty rm sat x = (fmtOf ty).nanBits := by
  simp only [sqrtFn, hv]

theorem sqrtFn_inf (hv : fdec (fmtOf ty) (fin rm (fmtOf ty) x) = .inf neg) :
    sqrtFn ty rm sat x = if neg then (fmtOf ty).nanBits else (fmtOf ty).infBits := by
  simp only [sqrtFn, hv]

theorem sqrtFn_zero (hv : fdec (fmtOf ty) (fin rm (fmtOf ty) x) = .num neg 0 e) :
    sqrtFn ty rm sat x = (fmtOf ty).signed neg 0 := by
  simp only [sqrtFn, hv, if_true]

theorem sqrtFn_neg (hv : fdec (fmtOf ty) (fin rm (fmtOf ty) x) = .num true m e) (hm : m ≠ 0) :
    sqrtFn ty rm sat x = (fmtOf ty).nanBits := by
  simp only [sqrtFn, hv, if_neg hm, if_true]

theorem sqrtFn_pos (hv : fdec (fmtOf ty) (fin rm (fmtOf ty) x) = .num false m e) (hm : m ≠ 0) :
    sqrtFn ty rm sat x = fout rm (fmtOf ty) (froundM (fmtOf ty) (rmFor (fmtOf ty).w (rmRm rm)) sat false
      (isqrt 160 ((if e % 2 = 0 then m else 2 * m) <<< 256)) (e / 2 - 128)
      (decide (isqrt 160 ((if e % 2 = 0 then m else 2 * m) <<< 256) * isqrt 160 ((if e % 2 = 0 then m else 2 * m) <<< 256) ≠
        (if e % 2 = 0 then m else 2 * m) <<< 256))) := by
  simp only [sqrtFn, hv, if_neg hm, Bool.false_eq_true, if_false]

end

/-- A quotient of at least 120 bits, and whether it is exact. -/
theorem quotient_spec {m : Nat} (h : m ≠ 0) : 2 ^ 120 ≤ 2 ^ (log2 m + 128) / m ∧
    2 ^ (log2 m + 128) / m * m ≤ 2 ^ (log2 m + 128) ∧ 2 ^ (log2 m + 128) < (2 ^ (log2 m + 128) / m + 1) * m ∧
    (2 ^ (log2 m + 128) % m ≠ 0 ↔ 2 ^ (log2 m + 128) / m * m ≠ 2 ^ (log2 m + 128)) := by
  have hm : 0 < m := Nat.pos_of_ne_zero h
  have hlog : m < 2 ^ (log2 m + 1) := Nat.lt_log2_self
  refine ⟨?_, Nat.div_mul_le_self .., ?_, ?_⟩
  · rw [Nat.le_div_iff_mul_le hm]
    calc 2 ^ 120 * m ≤ 2 ^ 120 * 2 ^ (log2 m + 1) := Nat.mul_le_mul_left _ hlog.le
      _ = 2 ^ (log2 m + 121) := by rw [← pow_add]; congr 1; omega
      _ ≤ 2 ^ (log2 m + 128) := Nat.pow_le_pow_right (by decide) (by omega)
  · rw [mul_comm]
    exact Nat.lt_mul_div_succ _ hm
  · rw [not_iff_not, ← Nat.dvd_iff_mod_eq_zero, Nat.dvd_iff_div_mul_eq]

/-! ### `fsqrt` -/

/-- The bits of a root, from bit `n` down. -/
theorem isqrtFrom_spec (n x r : Nat) (hlo : r * r ≤ x) (hhi : x < (r + 2 ^ (n + 1)) * (r + 2 ^ (n + 1))) :
    isqrtFrom n x r * isqrtFrom n x r ≤ x ∧ x < (isqrtFrom n x r + 1) * (isqrtFrom n x r + 1) := by
  induction n generalizing r with
  | zero =>
    unfold isqrtFrom
    split
    · next h => exact ⟨h, by simpa using hhi⟩
    · next h => exact ⟨hlo, by omega⟩
  | succ n ih =>
    unfold isqrtFrom
    dsimp only
    have hp : 2 ^ (n + 1 + 1) = 2 ^ (n + 1) + 2 ^ (n + 1) := by rw [pow_succ, mul_two]
    split
    · next h => exact ih _ h (by rw [Nat.add_assoc, ← hp]; exact hhi)
    · next h => exact ih _ hlo (by omega)

theorem isqrt_spec {n x : Nat} (h : x < 2 ^ (2 * n + 2)) : isqrt n x * isqrt n x ≤ x ∧ x < (isqrt n x + 1) * (isqrt n x + 1) := by
  refine isqrtFrom_spec n x 0 (Nat.zero_le _) ?_
  rw [Nat.zero_add, ← pow_add]
  exact lt_of_lt_of_eq h (by congr 1; omega)

end Sys2Proof.Machine
end

section
/-! SUPPORT. The special functions (O15): the special values, exact powers and logarithms, and what an approximation is
within. -/

namespace Sys2Proof.Machine

open Claims

/-! ### The special values (R202) -/

section
variable {ty rm : Nat} {sat : Bool} {x : Nat} {v r : FV}

theorem rcpFn_special (ht : ty ∈ sfuTys) (hv : fdec (fmtOf ty) (fin rm (fmtOf ty) x) = v) (hr : sfuSpecial 0 v = some r) :
    rcpFn ty rm sat x = ffin (fmtOf ty) rm sat r := by
  cases v with
  | nan =>
    cases hr
    rw [rcpFn_nan hv, ffin_nan rm sat ht]
  | inf neg =>
    cases hr
    rw [rcpFn_inf hv, ffin_zero rm sat neg 0 ht]
  | num neg m e =>
    by_cases hm : m = 0
    · subst hm
      cases hr
      rw [rcpFn_zero hv, ffin_inf rm sat neg ht]
    · simp [sfuSpecial, hm] at hr

theorem sqrtFn_special (ht : ty ∈ sfuTys) (hv : fdec (fmtOf ty) (fin rm (fmtOf ty) x) = v) (hr : sfuSpecial 2 v = some r) :
    sqrtFn ty rm sat x = ffin (fmtOf ty) rm sat r := by
  cases v with
  | nan =>
    cases hr
    rw [sqrtFn_nan hv, ffin_nan rm sat ht]
  | inf neg =>
    cases hr
    rw [sqrtFn_inf hv]
    cases neg
    · exact (ffin_inf rm sat false ht).symm
    · exact (ffin_nan rm sat ht).symm
  | num neg m e =>
    by_cases hm : m = 0
    · subst hm
      cases hr
      rw [sqrtFn_zero hv, ffin_zero rm sat neg 0 ht]
    · cases neg with
      | false => simp [sfuSpecial, hm] at hr
      | true =>
        have hr' : r = .nan := by simpa [sfuSpecial, hm] using hr.symm
        rw [hr', sqrtFn_neg hv hm, ffin_nan rm sat ht]

end

theorem sfuApprox_special {op : Nat} (x ty rm : Nat) (sat : Bool) {v r : FV} (hop : op ∈ [1, 3, 4, 5, 6, 7])
    (hr : sfuSpecial op v = some r) : sfuApprox op x ty rm sat v = r := by
  simp only [List.mem_cons, List.not_mem_nil, or_false] at hop
  cases v with
  | nan => rcases hop with rfl | rfl | rfl | rfl | rfl | rfl <;> exact Option.some.inj hr
  | inf neg => rcases hop with rfl | rfl | rfl | rfl | rfl | rfl <;> exact Option.some.inj hr
  | num neg m e =>
    by_cases hm : m = 0
    · subst hm
      rcases hop with rfl | rfl | rfl | rfl | rfl | rfl
      case inr.inl => cases hr
      all_goals exact Option.some.inj hr
    · rcases hop with rfl | rfl | rfl | rfl | rfl | rfl
      case inl =>
        cases neg with
        | false => simp [sfuSpecial, hm] at hr
        | true => simpa [sfuSpecial, sfuApprox, hm] using hr
      case inr.inr.inl =>
        cases neg with
        | false => simp [sfuSpecial, hm] at hr
        | true => simpa [sfuSpecial, sfuApprox, hm] using hr
      all_goals simp [sfuSpecial, hm] at hr

/-! ### `fexp2` of an integer -/

/-- The least exponent of a number and an integer that are not zero. -/
theorem minExp_ofInt {neg : Bool} {m : Nat} {e n : Int} (hm : m ≠ 0) : minExp [.num neg m e, ofInt n] = min 0 e := by
  obtain ⟨k, rfl⟩ := Nat.exists_eq_succ_of_ne_zero hm
  cases hn : n.natAbs with
  | zero => simp [minExp, ofInt, hn]
  | succ j => simp [minExp, ofInt, hn]

/-- Only 0 equals zero. -/
theorem eq_zero_of_fcmp_zero {neg : Bool} {e n : Int} (h : fcmp (.num neg 0 e) (ofInt n) = some .eq) : n = 0 := by
  have h' : compare (scaled (minExp [.num neg 0 e, ofInt n]) (.num neg 0 e))
      (scaled (minExp [.num neg 0 e, ofInt n]) (ofInt n)) = .eq := Option.some.inj h
  generalize minExp [.num neg 0 e, ofInt n] = e0 at h'
  have hs : scaled e0 (.num neg 0 e) = 0 := by
    cases neg <;> simp [scaled]
  rw [compare_eq_iff_eq, hs, ofInt, scaled, Nat.shiftLeft_eq] at h'
  have hn : n.natAbs * 2 ^ ((0 : Int) - e0).toNat = 0 := by
    split at h' <;> omega
  rcases Nat.mul_eq_zero.mp hn with h0 | h0
  · exact Int.natAbs_eq_zero.mp h0
  · exact absurd h0 (Nat.two_pow_pos _).ne'

/-- A number that equals an integer has its sign, and its magnitude. -/
theorem fcmp_ofInt_eq {neg : Bool} {m : Nat} {e n : Int} (hm : m ≠ 0) (h : fcmp (.num neg m e) (ofInt n) = some .eq) :
    n = (if neg then -(n.natAbs : Int) else n.natAbs) ∧ m * 2 ^ e.toNat = n.natAbs * 2 ^ (-e).toNat := by
  have h' : compare (scaled (min 0 e) (.num neg m e)) (scaled (min 0 e) (ofInt n)) = .eq := by
    rw [← minExp_ofInt (neg := neg) (n := n) hm]
    exact Option.some.inj h
  have hx : (e - min 0 e).toNat = e.toNat := by omega
  have hy : ((0 : Int) - min 0 e).toNat = (-e).toNat := by omega
  rw [compare_eq_iff_eq, scaled, ofInt, scaled, hx, hy, Nat.shiftLeft_eq, Nat.shiftLeft_eq] at h'
  have hpos : 0 < m * 2 ^ e.toNat := by positivity
  generalize m * 2 ^ e.toNat = A at *
  have hneg : n.natAbs * 2 ^ (-e).toNat ≠ 0 → n ≠ 0 := by
    rintro h0 rfl
    exact h0 (by simp)
  generalize n.natAbs * 2 ^ (-e).toNat = B at *
  cases neg <;> simp only [Bool.false_eq_true, if_false, if_true, decide_eq_true_eq] at h' ⊢ <;> split at h' <;> omega

/-- The integer part of an integer. -/
theorem fxSplit_int {neg : Bool} {m N : Nat} {e : Int} (h : m * 2 ^ e.toNat = N * 2 ^ (-e).toNat) :
    fxSplit neg m e = (if neg then -(N : Int) else N, 0) := by
  have hq : (if 0 ≤ e + fxP then m <<< (e + fxP).toNat else m >>> (-(e + fxP)).toNat) = N * 2 ^ 256 := by
    change (if 0 ≤ e + 256 then m <<< (e + 256).toNat else m >>> (-(e + 256)).toNat) = _
    split
    · next h0 =>
      have hs : (e + 256).toNat + (-e).toNat = e.toNat + 256 := by omega
      rw [Nat.shiftLeft_eq]
      apply Nat.eq_of_mul_eq_mul_right (Nat.two_pow_pos (-e).toNat)
      rw [mul_assoc, ← pow_add, hs, pow_add, ← mul_assoc, h]
      ring
    · next h0 =>
      have hs : (-e).toNat = 256 + (-(e + 256)).toNat := by omega
      have hz : e.toNat = 0 := by omega
      rw [hz, hs, pow_add, pow_zero, mul_one, ← mul_assoc] at h
      rw [h, Nat.shiftRight_eq_div_pow, Nat.mul_div_cancel _ (Nat.two_pow_pos _)]
  unfold fxSplit
  dsimp only
  rw [hq]
  have hz : (if neg = true then -((N * 2 ^ 256 : Nat) : Int) else (N * 2 ^ 256 : Nat)) =
      (if neg then -(N : Int) else N) * (fxOne : Nat) := by
    have h1 : (fxOne : Nat) = 2 ^ 256 := rfl
    rw [h1]
    cases neg <;> simp
  have h0 : ((fxOne : Nat) : Int) ≠ 0 := Int.natCast_ne_zero.mpr (Nat.two_pow_pos 256).ne'
  rw [hz, Int.mul_ediv_cancel _ h0, Int.mul_emod_left]
  rfl

theorem exp2Val_int {neg : Bool} {m N : Nat} {e : Int} (h : m * 2 ^ e.toNat = N * 2 ^ (-e).toNat) :
    exp2Val neg m e = .num false 1 (if neg then -(N : Int) else N) := by
  rw [exp2Val, fxSplit_int h]
  rfl

theorem sfuApprox_exp2 {x ty rm : Nat} {sat : Bool} {v : FV} {n : Int} (h1 : -149 ≤ n) (h2 : n ≤ 127)
    (h : fcmp v (ofInt n) = some .eq) : sfuApprox 3 x ty rm sat v = .num false 1 n := by
  cases v with
  | nan => cases h
  | inf neg => cases neg <;> cases h
  | num neg m e =>
    by_cases hm : m = 0
    · subst hm
      rw [eq_zero_of_fcmp_zero h]
      rfl
    · obtain ⟨hn, hv⟩ := fcmp_ofInt_eq hm h
      have hlog : (log2 m : Int) + e < 10 := by
        have hN : n.natAbs ≠ 0 := by
          intro h0
          rw [h0, Nat.zero_mul] at hv
          exact Nat.mul_ne_zero hm (Nat.two_pow_pos _).ne' hv
        have hl := congrArg log2 hv
        rw [log2_mul_two_pow hm, log2_mul_two_pow hN] at hl
        have h8 : log2 n.natAbs < 8 := (Nat.log2_lt hN).mpr (by omega)
        omega
      simp only [sfuApprox, if_neg hm, if_neg (show ¬10 ≤ (log2 m : Int) + e by omega), exp2Val_int hv, ← hn]
      rw [if_pos ⟨h1, h2⟩]

/-! ### `flog2` of a power of two -/

theorem log2_two_pow (k : Nat) : log2 (2 ^ k) = k := Nat.log2_two_pow

theorem sfuApprox_log2 (x ty rm : Nat) (sat : Bool) (k : Nat) (e : Int) :
    sfuApprox 4 x ty rm sat (.num false (2 ^ k) e) = ofInt (k + e) := by
  simp only [sfuApprox, log2_two_pow, if_true, Bool.false_eq_true, if_false, if_neg (Nat.two_pow_pos k).ne']
  rfl

/-! ### The approximations (log 9) -/

/-- An approximation is the value rounded or within a bound. -/
theorem approx_spec (op x ty rm : Nat) (sat : Bool) (a : FV) (bs : List (Nat × Int)) :
    approx op x ty rm sat a bs = fround f32 (rmRm rm) sat a ∨
      ∃ b ∈ bs, closeTo (fdec f32 (approx op x ty rm sat a bs)) a b.1 b.2 = true := by
  unfold approx
  dsimp only
  split
  · exact .inl rfl
  · split
    · next h =>
      right
      unfold sfuAccept at h
      split at h
      · next hy =>
        obtain ⟨b, hb, hc⟩ := List.any_eq_true.mp h
        exact ⟨b, hb, by rw [hy]; exact hc⟩
      · cases h
    · exact .inl rfl

end Sys2Proof.Machine
end

section
/-! SUPPORT. O15, its parts for `fsqrt` and for the approximations. -/

namespace Sys2Proof.Machine

open Claims

/-! ### `fsqrt` -/

theorem mb_le_of_sfuTys {ty : Nat} (h : ty ∈ sfuTys) : (fmtOf ty).mb ≤ 52 := by
  simp only [sfuTys, List.mem_cons, List.not_mem_nil, or_false] at h
  rcases h with rfl | rfl | rfl | rfl <;> decide

/-- The significand whose root is taken. -/
theorem radicand_eq (m : Nat) (e : Int) : (if e % 2 = 0 then m else 2 * m) <<< 256 = m * 2 ^ (256 + (e % 2).toNat) := by
  rw [Nat.shiftLeft_eq]
  rcases Int.emod_two_eq_zero_or_one e with h | h
  · rw [if_pos h, h]
    rfl
  · have h1 : ((1 : Int)).toNat = 1 := rfl
    rw [if_neg (by omega), h, h1, pow_succ' 2 256, mul_comm 2 m, mul_assoc]

/-- A root of at least 120 bits. -/
theorem root_spec {n m j : Nat} (hm : m ≠ 0) (h53 : m < 2 ^ 53) (h256 : 256 ≤ j) (hn : 53 + j ≤ 2 * n + 2) :
    2 ^ 120 ≤ isqrt n (m * 2 ^ j) ∧ isqrt n (m * 2 ^ j) * isqrt n (m * 2 ^ j) ≤ m * 2 ^ j ∧
      m * 2 ^ j < (isqrt n (m * 2 ^ j) + 1) * (isqrt n (m * 2 ^ j) + 1) := by
  have hlt : m * 2 ^ j < 2 ^ (2 * n + 2) :=
    calc m * 2 ^ j < 2 ^ 53 * 2 ^ j := Nat.mul_lt_mul_of_pos_right h53 (Nat.two_pow_pos j)
      _ = 2 ^ (53 + j) := (pow_add ..).symm
      _ ≤ 2 ^ (2 * n + 2) := Nat.pow_le_pow_right (by decide) hn
  obtain ⟨hlo, hhi⟩ := isqrt_spec hlt
  refine ⟨?_, hlo, hhi⟩
  have hge : 2 ^ 128 * 2 ^ 128 ≤ m * 2 ^ j :=
    calc 2 ^ 128 * 2 ^ 128 = 1 * 2 ^ 256 := by norm_num
      _ ≤ m * 2 ^ j := Nat.mul_le_mul (Nat.pos_of_ne_zero hm) (Nat.pow_le_pow_right (by decide) h256)
  have hroot := Nat.mul_self_lt_mul_self_iff.mp (hge.trans_lt hhi)
  omega

theorem sqrtFn_rounded {ty rm x m : Nat} {sat : Bool} {e : Int} (ht : ty ∈ sfuTys)
    (hv : fdec (fmtOf ty) (fin rm (fmtOf ty) x) = .num false m e) (hm : m ≠ 0) :
    ∃ (q j : Nat) (h : Int), 2 ^ 120 ≤ q ∧ e = 2 * h + j ∧ q * q ≤ m * 2 ^ j ∧ m * 2 ^ j < (q + 1) * (q + 1) ∧
      sqrtFn ty rm sat x = fout rm (fmtOf ty) (froundM (fmtOf ty) (rmFor (fmtOf ty).w (rmRm rm)) sat false q h
        (decide (q * q ≠ m * 2 ^ j))) := by
  have h53 : m < 2 ^ 53 := (fdec_num_bounds hv).1.trans_le
    (Nat.pow_le_pow_right (by decide) (Nat.succ_le_succ (mb_le_of_sfuTys ht)))
  obtain ⟨hq, hlo, hhi⟩ := root_spec (n := 160) (j := 256 + (e % 2).toNat) hm h53 (by omega) (by omega)
  refine ⟨_, 256 + (e % 2).toNat, e / 2 - 128, hq, by omega, hlo, hhi, ?_⟩
  rw [sqrtFn_pos hv hm, radicand_eq]

theorem rcpFn_rounded {ty rm x m : Nat} {sat neg : Bool} {e : Int}
    (hv : fdec (fmtOf ty) (fin rm (fmtOf ty) x) = .num neg m e) (hm : m ≠ 0) :
    ∃ q k : Nat, 2 ^ 120 ≤ q ∧ q * m ≤ 2 ^ k ∧ 2 ^ k < (q + 1) * m ∧
      rcpFn ty rm sat x = fout rm (fmtOf ty) (froundM (fmtOf ty) (rmFor (fmtOf ty).w (rmRm rm)) sat neg q (-e - k)
        (decide (q * m ≠ 2 ^ k))) := by
  obtain ⟨hq, hlo, hhi, hex⟩ := quotient_spec hm
  exact ⟨_, _, hq, hlo, hhi, by rw [rcpFn_num hv hm, decide_eq_decide.mpr hex]⟩

/-! ### The approximations -/

/-- The value that an approximated function stands for is what some f32 pattern rounds to, which is the exact value
rounded or within a bound of it. -/
def Approximates (g : FFmt) (rm : Nat) (sat : Bool) (r : FV) (b : FV × List (Nat × Int)) : Prop :=
  ∃ y, ffin g rm sat r = ffin g rm sat (fdec f32 y) ∧
    (y = fround f32 (rmRm rm) sat b.1 ∨ ∃ k ∈ b.2, closeTo (fdec f32 y) b.1 k.1 k.2 = true)

section
variable {g : FFmt} {rm : Nat} {sat : Bool}

theorem approximates_approx (op x ty : Nat) (a : FV) (bs : List (Nat × Int)) :
    Approximates g rm sat (fdec f32 (approx op x ty rm sat a bs)) (a, bs) :=
  ⟨_, rfl, approx_spec op x ty rm sat a bs⟩

/-- A value that f32 holds stands for itself. -/
theorem approximates_exact {neg : Bool} {m : Nat} {e : Int} (bs : List (Nat × Int)) (hm : m ≠ 0)
    (hp : f32.place m e ≤ e) (hlt : log2 m + e ≤ 127) : Approximates g rm sat (.num neg m e) (.num neg m e, bs) :=
  ⟨_, by unfold ffin; rw [fround_fdec_fround_f32 g (rmRm rm) sat hm hp hlt], .inl rfl⟩

/-- A power of two that f32 holds stands for itself. -/
theorem approximates_pow {n : Int} (bs : List (Nat × Int)) (h1 : -149 ≤ n) (h2 : n ≤ 127) :
    Approximates g rm sat (.num false 1 n) (.num false 1 n, bs) := by
  have hlog : log2 1 = 0 := by decide
  have hp : f32.place 1 n = max ((log2 1 : Nat) + n - 23) (-149) := rfl
  exact approximates_exact bs one_ne_zero (by omega) (by omega)

/-- A power of two is positive. -/
theorem exp2Val_pos (neg : Bool) (m : Nat) (e : Int) : ∃ k n, exp2Val neg m e = .num false k n := by
  unfold exp2Val
  dsimp only
  split
  · exact ⟨_, _, rfl⟩
  · exact ⟨_, _, rfl⟩

theorem approximates_exp2 (x ty : Nat) (neg : Bool) (m : Nat) (e : Int) (h0 : m = 0 → e < 10) :
    Approximates g rm sat (sfuApprox 3 x ty rm sat (.num neg m e)) (sfuBound 3 neg m e) := by
  by_cases hm : m = 0
  · subst hm
    have hlog : log2 0 = 0 := by decide
    have ha : exp2Val neg 0 e = .num false 1 0 := by
      rw [exp2Val_int (N := 0) (by simp)]
      cases neg <;> rfl
    have hb : sfuBound 3 neg 0 e = (.num false 1 0, ulps 2 (.num false 1 0)) := by
      simp only [sfuBound, hlog, if_neg (show ¬10 ≤ ((0 : Nat) : Int) + e by omega), ha]
    rw [hb]
    exact approximates_pow _ (by decide) (by decide)
  · simp only [sfuApprox, if_neg hm, sfuBound]
    generalize ha : (if 10 ≤ (log2 m : Int) + e then FV.num false 1 (if neg then -1024 else 1024) else exp2Val neg m e) = a
    split
    · next s n =>
      split
      · next hn =>
        have hs : s = false := by
          split at ha
          · cases ha
            rfl
          · obtain ⟨k, n', hk⟩ := exp2Val_pos neg m e
            rw [hk] at ha
            cases ha
            rfl
        subst hs
        exact approximates_pow _ hn.1 hn.2
      · exact approximates_approx ..
    · exact approximates_approx ..

/-- The logarithm of a power of two is exact. -/
theorem log2Val_two_pow (k : Nat) (e : Int) :
    log2Val (2 ^ k) e = .num (decide ((k : Int) + e < 0)) (((k : Int) + e).natAbs * 2 ^ 256) (0 - (256 : Nat)) := by
  have hy : ((2 ^ k) <<< fxP) >>> log2 (2 ^ k) = fxOne := by
    rw [log2_two_pow, Nat.shiftLeft_eq, Nat.shiftRight_eq_div_pow, Nat.mul_div_cancel_left _ (Nat.two_pow_pos k)]
    rfl
  have hl : fxLog2 fxOne = 0 := by
    unfold fxLog2
    simp [fxDiv, fxMul]
  have hpos : (0 : Int) < fxOne := Int.natCast_pos.mpr (Nat.two_pow_pos 256)
  have hs : (((k : Int) + e) * fxOne < 0) = ((k : Int) + e < 0) :=
    propext ⟨fun h => neg_of_mul_neg_left h hpos.le, fun h => mul_neg_of_neg_of_pos h hpos⟩
  unfold log2Val
  dsimp only
  rw [hy, hl, log2_two_pow, Int.natCast_zero, add_zero]
  simp only [hs, Int.natAbs_mul]
  rfl

theorem approximates_log2 {ty : Nat} (x : Nat) {neg : Bool} {m : Nat} {e : Int} (ht : ty ∈ sfuTys)
    (hs : sfuSpecial 4 (.num neg m e) = none) (hbound : (log2 m + e).natAbs < 2 ^ 24) :
    Approximates (fmtOf ty) rm sat (sfuApprox 4 x ty rm sat (.num neg m e)) (sfuBound 4 neg m e) := by
  have hm : m ≠ 0 := by
    rintro rfl
    cases hs
  have hneg : neg = false := by
    cases neg with
    | false => rfl
    | true => simp [sfuSpecial, hm] at hs
  subst hneg
  by_cases hpow : m = 2 ^ log2 m
  · obtain ⟨k, rfl⟩ : ∃ k, m = 2 ^ k := ⟨_, hpow⟩
    rw [sfuApprox_log2, sfuBound]
    rw [log2_two_pow] at hbound
    have hlog : log2Val (2 ^ k) e = .num _ _ _ := log2Val_two_pow k e
    generalize hN : (k : Int) + e = n at *
    refine ⟨_, ?_, .inl rfl⟩
    dsimp only
    rw [hlog, fround_scale]
    by_cases hn : n.natAbs = 0
    · have hz : n = 0 := Int.natAbs_eq_zero.mp hn
      subst hz
      have hd : fdec f32 (fround f32 (rmRm rm) sat (.num false 0 0)) = .num false 0 (-149) := fdec_f32_subnormal false (by decide)
      exact (ffin_zero rm sat false 0 ht).trans ((congrArg _ hd).trans (ffin_zero rm sat false _ ht)).symm
    · have hl : log2 n.natAbs < 24 := (Nat.log2_lt hn).mpr hbound
      have hp : f32.place n.natAbs 0 = max ((log2 n.natAbs : Int) + 0 - 23) (-149) := rfl
      unfold ffin
      rw [fround_fdec_fround_f32 _ _ _ hn (by omega) (by omega)]
      rfl
  · simp only [sfuApprox, if_neg hm, if_neg hpow, Bool.false_eq_true, if_false, sfuBound, Bool.and_eq_true, bne_iff_ne]
    exact approximates_approx ..

/-- The functions with one formula for every number that is no special value: `frsq`, `fsin`, `fcos` and `ftanh`. -/
theorem approximates_formula {op : Nat} (x ty : Nat) {neg : Bool} {m : Nat} {e : Int} (hop : op ∈ [1, 5, 6, 7])
    (hs : sfuSpecial op (.num neg m e) = none) :
    Approximates g rm sat (sfuApprox op x ty rm sat (.num neg m e)) (sfuBound op neg m e) := by
  simp only [List.mem_cons, List.not_mem_nil, or_false] at hop
  have hm : m ≠ 0 := by
    rintro rfl
    rcases hop with rfl | rfl | rfl | rfl <;> cases hs
  rcases hop with rfl | rfl | rfl | rfl
  · have hneg : ¬neg = true := by
      rintro rfl
      simp [sfuSpecial, hm] at hs
    simp only [sfuApprox, if_neg hm, if_neg hneg]
    exact approximates_approx ..
  · simp only [sfuApprox, if_neg hm]
    exact approximates_approx ..
  · simp only [sfuApprox, if_neg hm]
    exact approximates_approx ..
  · simp only [sfuApprox, if_neg hm]
    exact approximates_approx ..

end

/-! ### A special function on a pattern -/

theorem sfuResult_eq_sfuFn {op : Nat} (h0 : op ≠ 0) (h2 : op ≠ 2) (ty rm : Nat) (sat : Bool) (x : Nat) :
    sfuResult op ty rm sat x = ffin (fmtOf ty) rm sat
      (sfuApprox op x ty rm sat (fdec (fmtOf ty) (fin rm (fmtOf ty) x))) := by
  rw [sfuResult, if_neg h0, if_neg h2]
  rfl

/-- A number's exponent in the formats of the approximated functions. -/
theorem fdec_exp_lt {ty x : Nat} {neg : Bool} {m : Nat} {e : Int} (ht : ty ∈ sfuTys)
    (hv : fdec (fmtOf ty) x = .num neg m e) : m < 2 ^ 53 ∧ -1074 ≤ e ∧ e ≤ 2048 ∧ (m = 0 → e < 10) := by
  obtain ⟨hm, hlo, hhi, hz⟩ := fdec_num_bounds hv
  simp only [sfuTys, List.mem_cons, List.not_mem_nil, or_false] at ht
  rcases ht with rfl | rfl | rfl | rfl <;> simp only [fmtOf] at * <;> omega

/-- A special function gives the special values of R202. -/
theorem sfuResult_special {op ty rm x : Nat} {sat : Bool} {r : FV} (hop : op < 8) (ht : ty ∈ sfuTys)
    (hr : sfuSpecial op (fdec (fmtOf ty) (fin rm (fmtOf ty) x)) = some r) :
    sfuResult op ty rm sat x = ffin (fmtOf ty) rm sat r := by
  by_cases h0 : op = 0
  · subst h0
    exact rcpFn_special ht rfl hr
  · by_cases h2 : op = 2
    · subst h2
      exact sqrtFn_special ht rfl hr
    · have hops : op ∈ [1, 3, 4, 5, 6, 7] := by
        simp only [List.mem_cons, List.not_mem_nil, or_false]
        omega
      rw [sfuResult_eq_sfuFn h0 h2, sfuApprox_special x ty rm sat hops hr]

theorem sfuResult_approximates {op ty rm x : Nat} {sat neg : Bool} {m : Nat} {e : Int} (hop : op < 8) (ht : ty ∈ sfuTys)
    (h0 : op ≠ 0) (h2 : op ≠ 2) (hv : fdec (fmtOf ty) (fin rm (fmtOf ty) x) = .num neg m e)
    (hs : sfuSpecial op (.num neg m e) = none) :
    ∃ y, sfuResult op ty rm sat x = ffin (fmtOf ty) rm sat (fdec f32 y) ∧
      (y = fround f32 (rmRm rm) sat (sfuBound op neg m e).1 ∨
        ∃ b ∈ (sfuBound op neg m e).2, closeTo (fdec f32 y) (sfuBound op neg m e).1 b.1 b.2 = true) := by
  obtain ⟨hm, hlo, hhi, hz⟩ := fdec_exp_lt ht hv
  rw [sfuResult_eq_sfuFn h0 h2, hv]
  by_cases h3 : op = 3
  · subst h3
    exact approximates_exp2 x ty neg m e hz
  · by_cases h4 : op = 4
    · subst h4
      have hm0 : m ≠ 0 := by
        rintro rfl
        cases hs
      have hlog : log2 m < 53 := (Nat.log2_lt hm0).mpr hm
      exact approximates_log2 x ht hs (by omega)
    · have hops : op ∈ [1, 5, 6, 7] := by
        simp only [List.mem_cons, List.not_mem_nil, or_false]
        omega
      exact approximates_formula x ty hops hs

/-- Settles O15: what is issued by `longs_issue`; the special values, the rounded quotient and root, and the bound that an
approximation meets, each by its lemma. -/
theorem longLatencyResults : Obligations.LongLatencyResults := by
  unfold Obligations.LongLatencyResults
  refine ⟨fun s e i f n fn hi hx hr => longs_issue hi hx hr, fun op ty rm sat x hop hty => ?_⟩
  have ht : ty ∈ sfuTys := by
    simp only [sfuTys, List.mem_cons, List.not_mem_nil, or_false] at hty ⊢
    omega
  refine ⟨fun r hr => sfuResult_special hop ht hr, ?_, ?_, ?_, ?_, ?_⟩
  · rintro n rfl h1 h2 hn
    rw [sfuResult_eq_sfuFn (by decide) (by decide), sfuApprox_exp2 h1 h2 hn]
  · rintro m k e rfl hv rfl
    rw [sfuResult_eq_sfuFn (by decide) (by decide), hv, sfuApprox_log2]
  · rintro neg m e rfl hv hm
    exact rcpFn_rounded hv hm
  · rintro m e rfl hv hm
    exact sqrtFn_rounded ht hv hm
  · intro neg m e h0 h2 hv hs
    exact sfuResult_approximates hop ht h0 h2 hv (by rw [← hv]; exact hs)

end Sys2Proof.Machine
end

section
/-! SUPPORT. Representable values (O14): the fields of a pattern, what it decodes to, and that rounding gives it back. -/

namespace Sys2Proof.Machine

/-! ### The fields of a pattern (R63) -/

/-- A pattern is its sign, exponent and fraction fields. -/
theorem signed_fields {f : FFmt} {x : Nat} (hx : x < 2 ^ f.w) :
    f.signed (bitAt x (f.eb + f.mb)) (field x f.mb f.eb * 2 ^ f.mb + x % 2 ^ f.mb) = x := by
  have hw : 2 ^ f.w = 2 ^ (f.eb + f.mb) * 2 := by rw [FFmt.w, Nat.add_assoc, Nat.add_comm 1, Nat.pow_succ]
  have hmag : field x f.mb f.eb * 2 ^ f.mb + x % 2 ^ f.mb = x % 2 ^ (f.eb + f.mb) := by
    rw [field, Nat.shiftRight_eq_div_pow, Nat.add_comm f.eb, Nat.pow_add, Nat.mod_mul]
    ring
  have hsum := Nat.div_add_mod x (2 ^ (f.eb + f.mb))
  have hlt : x / 2 ^ (f.eb + f.mb) < 2 := Nat.div_lt_of_lt_mul (hw ▸ hx)
  rw [hmag, bitAt, Nat.testBit_eq_decide_div_mod_eq, Nat.mod_eq_of_lt hlt, FFmt.signed]
  rcases Nat.le_one_iff_eq_zero_or_eq_one.mp (Nat.lt_succ_iff.mp hlt) with hs | hs <;> rw [hs] at hsum ⊢ <;>
    simpa using hsum

/-- What a pattern that is not NaN decodes to: an infinity, a subnormal or zero, or a normal number in the format's
range. -/
theorem fdec_cases {f : FFmt} {x : Nat} (hn : fdec f x ≠ .nan) :
    (f.hasInf = true ∧ field x f.mb f.eb = 2 ^ f.eb - 1 ∧ x % 2 ^ f.mb = 0 ∧
      fdec f x = .inf (bitAt x (f.eb + f.mb))) ∨
    (field x f.mb f.eb = 0 ∧ fdec f x = .num (bitAt x (f.eb + f.mb)) (x % 2 ^ f.mb) (1 - f.bias - f.mb)) ∨
    (field x f.mb f.eb ≠ 0 ∧ field x f.mb f.eb ≤ f.maxE ∧
      (field x f.mb f.eb = f.maxE → 2 ^ f.mb + x % 2 ^ f.mb ≤ f.maxK) ∧
      fdec f x = .num (bitAt x (f.eb + f.mb)) (2 ^ f.mb + x % 2 ^ f.mb) (field x f.mb f.eb - f.bias - f.mb)) := by
  have hF : x % 2 ^ f.mb < 2 ^ f.mb := Nat.mod_lt _ (Nat.two_pow_pos _)
  have hE : field x f.mb f.eb < 2 ^ f.eb := Nat.mod_lt _ (Nat.two_pow_pos _)
  have hk : 2 ^ (f.mb + 1) = 2 ^ f.mb + 2 ^ f.mb := by rw [pow_succ, mul_two]
  unfold fdec FFmt.maxE FFmt.maxK at *
  dsimp only at *
  rw [hk]
  generalize field x f.mb f.eb = E at *
  generalize x % 2 ^ f.mb = F at *
  generalize 2 ^ f.mb = P at *
  generalize 2 ^ f.eb = Q at *
  split at hn
  · next hi =>
    simp only [Bool.and_eq_true, beq_iff_eq] at hi
    split at hn
    · next h0 => exact .inl ⟨hi.1, hi.2, h0, by simp [hi, h0]⟩
    · exact absurd rfl hn
  · next hi =>
    split at hn
    · exact absurd rfl hn
    · next hnan =>
      rw [if_neg hi, if_neg hnan]
      refine .inr ?_
      by_cases h0 : E = 0
      · exact .inl ⟨h0, if_pos h0⟩
      · refine .inr ⟨h0, ?_, ?_, if_neg h0⟩
        · cases hI : f.hasInf <;> simp [hI] at hi ⊢ <;> omega
        · cases hI : f.hasInf <;> cases hN : f.hasNan <;> simp [hI, hN] at hi hnan ⊢ <;> omega

/-! ### Rounding at the place (R72) -/

/-- The exponent of the format's largest numbers. -/
def FFmt.maxQ (f : FFmt) : Int := f.maxE - f.bias - f.mb

/-- A significand that the format holds at a place is packed as it stands. -/
theorem pack_of_fits {f : FFmt} {q : Int} {k : Nat} (rm : Nat) (sat neg : Bool) (hq : q ≤ f.maxQ)
    (hk : q = f.maxQ → k ≤ f.maxK) :
    f.pack rm sat neg q k = f.signed neg ((q + f.mb + f.bias - 1).toNat * 2 ^ f.mb + k) := by
  refine if_neg fun h => ?_
  rcases h with h | ⟨h, hlt⟩
  · exact absurd hq (not_le.mpr h)
  · exact absurd (hk h) (not_le.mpr hlt)

/-- A value whose exponent is its place, and which the format holds, is rounded to its own significand. -/
theorem fround_at_place {f : FFmt} {m : Nat} {e : Int} (rm : Nat) (sat neg : Bool) (hm : m ≠ 0) (hp : f.place m e = e)
    (hq : e ≤ f.maxQ) (hk : e = f.maxQ → m ≤ f.maxK) :
    fround f rm sat (.num neg m e) = f.signed neg ((e + f.mb + f.bias - 1).toNat * 2 ^ f.mb + m) := by
  have hs : sigAt (rmFor f.w rm) neg m e e = m := by simp [sigAt]
  rw [fround, froundM_eq hm, hp, hs, pack_of_fits _ _ _ hq hk]

/-- A subnormal stands at its place, the least one. -/
theorem place_of_subnormal {f : FFmt} {F : Nat} (h0 : F ≠ 0) (hF : F < 2 ^ f.mb) :
    f.place F (1 - f.bias - f.mb) = 1 - f.bias - f.mb := by
  have hlog : log2 F < f.mb := (Nat.log2_lt h0).mpr hF
  unfold FFmt.place
  omega

/-- A normal number stands at its place. -/
theorem place_of_normal {f : FFmt} {E F : Nat} (hE : E ≠ 0) (hF : F < 2 ^ f.mb) :
    f.place (2 ^ f.mb + F) (E - f.bias - f.mb) = E - f.bias - f.mb := by
  have hlog : log2 (2 ^ f.mb + F) = f.mb := by
    rw [log2, Nat.log2_eq_iff (by positivity)]
    exact ⟨Nat.le_add_right .., by rw [pow_succ]; omega⟩
  unfold FFmt.place
  omega

/-- Rounding the exact value of a pattern gives the pattern back (R63, R72). -/
theorem fround_fdec {f : FFmt} {x : Nat} (rm : Nat) (sat : Bool) (hE : 1 < f.maxE) (hx : x < 2 ^ f.w)
    (hn : fdec f x ≠ .nan) : fround f rm sat (fdec f x) = x := by
  have hF : x % 2 ^ f.mb < 2 ^ f.mb := Nat.mod_lt _ (Nat.two_pow_pos _)
  have hparts := signed_fields hx
  rcases fdec_cases hn with ⟨hi, hmax, h0, hd⟩ | ⟨hsub, hd⟩ | ⟨hnorm, hle, hk, hd⟩
  · rw [hmax, h0] at hparts
    rw [hd, fround, if_pos hi]
    exact hparts
  · rw [hsub, Nat.zero_mul, Nat.zero_add] at hparts
    rw [hd]
    by_cases h0 : x % 2 ^ f.mb = 0
    · rw [h0] at hparts ⊢
      rw [fround, froundM, if_pos rfl]
      exact hparts
    · have he : ((1 : Int) - f.bias - f.mb + f.mb + f.bias - 1).toNat = 0 := by omega
      have hlt : (1 : Int) - f.bias - f.mb < f.maxQ := by unfold FFmt.maxQ; omega
      rw [fround_at_place rm sat _ h0 (place_of_subnormal h0 hF) hlt.le fun h => absurd h hlt.ne, he, Nat.zero_mul,
        Nat.zero_add]
      exact hparts
  · have hplace := place_of_normal (f := f) hnorm hF
    have he : ((field x f.mb f.eb : Int) - f.bias - f.mb + f.mb + f.bias - 1).toNat = field x f.mb f.eb - 1 := by
      omega
    have hmag : (field x f.mb f.eb - 1) * 2 ^ f.mb + (2 ^ f.mb + x % 2 ^ f.mb) =
        field x f.mb f.eb * 2 ^ f.mb + x % 2 ^ f.mb := by
      obtain ⟨E, h⟩ := Nat.exists_eq_succ_of_ne_zero hnorm
      rw [h, Nat.succ_sub_one, Nat.succ_mul, Nat.add_assoc]
    rw [hd, fround_at_place rm sat _ (by positivity) hplace (by unfold FFmt.maxQ; omega)
      (fun h => hk (by unfold FFmt.maxQ at h; omega)), he, hmag]
    exact hparts

/-- Settles O14: rounding gives back what a pattern decodes to, in every format whose largest exponent field is above 1. -/
theorem representableValuesRoundExactly : Obligations.RepresentableValuesRoundExactly := by
  unfold Obligations.RepresentableValuesRoundExactly
  intro t rm sat x ht hx _ hn
  have hE : ∀ t ∈ [2, 3, 7, 8, 9, 14, 15], 1 < (fmtOf t).maxE := by decide
  exact fround_fdec rm sat (hE t ht) hx hn

end Sys2Proof.Machine
end

section
/-! SUPPORT. Reductions and scans (O16): the segment size, where it is full and where it is no power of two. -/

namespace Sys2Proof.Machine

open Claims

/-- The test of a segment size: it fails for every number but a power of two (R209). -/
theorem badSize_iff (n : Nat) : (n = 0 ∨ n ≠ 2 ^ log2 n) ↔ ¬ ∃ m, n = 2 ^ m := by
  constructor
  · rintro h ⟨m, rfl⟩
    rw [log2, Nat.log2_two_pow] at h
    exact h.elim (Nat.two_pow_pos m).ne' (absurd rfl)
  · intro h
    exact .inr fun hn => h ⟨_, hn⟩

section
variable {f : Slk} {e : Env} (go : Nat → Env → Res) (hb : e.grp.bad = [])
  (hf : (opRegs f.s2 1 [e.firstLane]).any e.grp.isEmpty = false ∨ f.fmt = 1 ∨ e.lanes = [])
include hb hf

/-- Where the size's register is full and no register is in error, the size decides. -/
theorem withSize_of_full : withSize f go e =
    if segSize f e = 0 ∨ segSize f e ≠ 2 ^ log2 (segSize f e) then
      .trap e.st { cause := 0x05, detail := 0x04, addr := segSize f e }
    else go (min (segSize f e) e.grant) e := by
  have hsrc : (if f.fmt = 1 ∨ e.lanes.isEmpty then [] else opRegs f.s2 1 [e.firstLane]).any e.grp.isEmpty = false := by
    split
    · rfl
    · next h =>
      rw [List.isEmpty_iff] at h
      exact hf.resolve_right h
  unfold withSize
  dsimp only
  rw [if_neg (by rw [hsrc]; decide), readingRegs_of_good hb]

theorem withSize_of_pow (hk : ∃ m, segSize f e = 2 ^ m) : withSize f go e = go (min (segSize f e) e.grant) e := by
  rw [withSize_of_full go hb hf, if_neg fun h => (badSize_iff _).mp h hk]

theorem withSize_of_not_pow (hk : ¬ ∃ m, segSize f e = 2 ^ m) :
    withSize f go e = .trap e.st { cause := 0x05, detail := 0x04, addr := segSize f e } := by
  rw [withSize_of_full go hb hf, if_pos ((badSize_iff _).mpr hk)]

end

/-- `redx` to a uniform register reduces the group. -/
theorem redxBody_uniform {f : Slk} {e : Env} (h : opKind f.d = .s) : redxBody f e =
    .done (writeLong e false (dstWrites f.d (tyRegs (fTy f)) 0 (redSeg f e e.grant 0)) e.st) := by
  rw [redxBody, if_pos (beq_iff_eq.mpr h)]

/-- `redx` to lane registers reduces segments of the size. -/
theorem redxBody_lanes {f : Slk} {e : Env} (h : opKind f.d ≠ .s) : redxBody f e = withSize f (fun k e =>
    .done (writeLong e false (e.lanes.flatMap fun l =>
      dstWrites f.d (tyRegs (fTy f)) l (redSeg f e k (l / k * k))) e.st)) e := by
  rw [redxBody, if_neg (mt beq_iff_eq.mp h)]

/-- Settles O16: outside early service `redx` and `scan` are their bodies, which the segment size decides. -/
theorem reductionsAndScans : Obligations.ReductionsAndScans := by
  unfold Obligations.ReductionsAndScans
  intro s e f hb hrun hf
  dsimp only
  have hservice (hst : e.st = s) (body : Env → Res) : f64Service f body e = body e :=
    f64Service_of_run body fun h => hst ▸ hrun (beq_iff_eq.mp h)
  refine ⟨fun hx hd => ?uniform, fun hx hd hk => ?lanes, fun hx hk => ?scan, fun i hi hx hk => ?trap⟩
  case uniform =>
    have hst := st_of_executes hx
    exact concluded_of_executes hx ((hservice hst _).trans (hst ▸ redxBody_uniform hd))
  case lanes =>
    have hst := st_of_executes hx
    refine concluded_of_executes hx ((hservice hst _).trans ?_)
    rw [redxBody_lanes hd, withSize_of_pow _ hb hf hk, hst]
  case scan =>
    have hst := st_of_executes hx
    refine concluded_of_executes hx ((hservice hst _).trans ?_)
    rw [scanBody, withSize_of_pow _ hb hf hk, longBody, hst]
    rfl
  case trap =>
    have hst := st_of_executes hx
    rcases hi with ⟨rfl, hd⟩ | rfl <;> refine concluded_of_executes hx ((hservice hst _).trans ?_)
    · rw [redxBody_lanes hd, withSize_of_not_pow _ hb hf hk, hst]
    · rw [scanBody, withSize_of_not_pow _ hb hf hk, hst]

end Sys2Proof.Machine
end

section
/-! SUPPORT. Float instructions and conversions (O13): the values as the table has them, f64 in early service, and the
plane source that is an immediate. -/

namespace Sys2Proof.Machine

open Claims

/-! ### Instructions that write registers -/

/-- An instruction that writes its registers after a fixed latency changes nothing else but the pc (R44). -/
theorem writes_of_writesFixed {s : State} {e : Env} {i : Instr} {f : Slk} {n : Nat} {g : Nat → Nat}
    (hx : Executes s e i f) (h : WritesFixed s e i f (laneWrites e f n g)) : Writes s e i (laneWrites e f n g) := by
  obtain ⟨a, b, h⟩ := h
  obtain ⟨hreg, hnd⟩ := laneWrites_ok e f n g
  exact ⟨_, h, conclude_writeFixed (env?_of_executes hx) _ a b _ hreg hnd⟩

/-- Two accounts of what one step writes agree where both name a register. -/
theorem writes_agree {s : State} {e : Env} {i : Instr} {ws ws' : List RegWrite} (h : Writes s e i ws)
    (h' : Writes s e i ws') {d : RegDst} {x y : Word} (hd : d.file ≠ .p) (hx : ⟨d, x⟩ ∈ ws)
    (hy : ⟨d, y⟩ ∈ ws') : x = y := by
  obtain ⟨t, ht, -, -, g, hg, -, hw, -⟩ := h
  obtain ⟨t', ht', -, -, g', hg', -, hw', -⟩ := h'
  obtain rfl : t = t' := by rw [ht] at ht'; cases ht'; rfl
  obtain rfl : g = g' := Option.some.inj (hg.symm.trans hg')
  exact (hw _ hx fun hp => hd hp.1).symm.trans (hw' _ hy fun hp => hd hp.1)

/-! ### f64 in early service (R446) -/

/-- In early service f64 arithmetic traps. -/
theorem f64Service_of_early {s : State} {e : Env} {f : Slk} (body : Env → Res) (ht : (fTy f == 7) = true)
    (hst : e.st = s) (h : s.phase ≠ .run) : f64Service f body e = .trap s { cause := 0x06, detail := 0x06 } := by
  rw [f64Service, if_pos (beq_iff_eq.mp ht), inService, hst, if_neg h]

/-- f64 arithmetic stands behind the check of service. -/
theorem needsRun_body {i : Instr} {f : Slk} {opc : Nat} (hp : slkParts i = some (opc, f)) (hn : needsRun i = true) :
    (fTy f == 7) = true ∧ ∃ body, ∀ s, exec i s = issue i f (f64Service f body) s := by
  unfold needsRun at hn
  split at hn
  case h_13 => cases hn
  all_goals
    cases hp
    exact ⟨hn, _, fun _ => rfl⟩

theorem needsRun_traps {s : State} {e : Env} {i : Instr} {f : Slk} {opc : Nat} (hp : slkParts i = some (opc, f))
    (hn : needsRun i = true) (hx : Executes s e i f) (h : s.phase ≠ .run) :
    exec i s = concluded e f (.trap s { cause := 0x06, detail := 0x06 }) := by
  obtain ⟨ht, body, hb⟩ := needsRun_body hp hn
  rw [hb]
  exact concluded_of_executes hx (f64Service_of_early body ht (st_of_executes hx) h)

/-! ### The values -/

theorem tyRegs_of_flt {t : Nat} (h : t ∈ fltTys) : tyRegs t = if t = 7 then 2 else 1 := by
  revert t
  decide

/-- Outside early service a float instruction computes `fn` in each lane. -/
theorem fltBody_eq {f : Slk} {e : Env} (fn : Env → Nat → Nat) (ht : fTy f ∈ fltTys)
    (h : (fTy f == 7) = true → e.st.phase = .run) : ∃ a b, fltBody f fn e = fixedBody f a b (tyRegs (fTy f)) fn e := by
  rw [fltBody, f64Service_of_run _ h, tyRegs_of_flt ht]
  split
  · exact ⟨8, 8, rfl⟩
  · exact ⟨6, 6, rfl⟩

/-- The conditions of `fcmp` on an order (R197). -/
def fltCond (cc : Nat) (o : Option Ordering) : Bool :=
  match cc with
  | 0 => o = some .eq
  | 1 => o ≠ some .eq
  | 2 => o = some .lt
  | 3 => o = some .lt ∨ o = some .eq
  | 4 => o = some .gt
  | 5 => o = some .gt ∨ o = some .eq
  | 6 => o = none
  | _ => o ≠ none

theorem fcmpHolds_eq {cc : Nat} (h : cc < 8) (x y : FV) : fcmpHolds cc x y = fltCond cc (fcmp x y) := by
  have all : ∀ cc < 8, ∀ o : Option Ordering, (match o with
    | none => cc == 1 || cc == 6
    | some o => cc == 7 || ccOrd cc o) = fltCond cc o := by decide
  exact all cc h (fcmp x y)

theorem fcmpVal_eq (f : Slk) (e : Env) (l : Nat) : fcmpVal f e l =
    (fltCond (fCc f) (fcmp (e.fv (fTy f) l (srcOf f 2 1)) (e.fv (fTy f) l (srcOf f 2 2)))).toNat := by
  have hc : fCc f < 8 := Nat.mod_lt _ (by decide)
  rw [fcmpVal, fcmpHolds_eq hc, ite_one_zero]

theorem fclassVal_eq (f : Slk) (e : Env) (l : Nat) : fclassVal f e l =
    let m := fclassMask (tyFmt f) (e.val (fTy f) l (.op f.s1))
    if opKind f.d = .p ∨ opKind f.d = .q then (if m &&& e.n32 l (.op f.s2) = 0 then 0 else 1) else m := by
  simp only [fclassVal, Bool.or_eq_true, beq_iff_eq, ne_eq, ite_not]

/-- A number from bits at places that a table names. -/
theorem foldl_bitAt (w x : Nat) (p : Nat → Nat) :
    (List.range w).foldl (fun a k => if bitAt x (p k) then a + 2 ^ k else a) 0 = ofBits w fun k => x.testBit (p k) := by
  unfold ofBits bitAt
  congr 1
  funext a k
  split <;> rfl

/-- An element's bits times the elements of the source are its 64 bits. -/
theorem planeBits_mul (t : Nat) : planeBits t * (64 / planeBits t) = 64 := by
  unfold planeBits
  split <;> rfl

theorem planeSrc_of_register {f : Slk} (e : Env) (l : Nat) (h : opImm? f.s1 = none) :
    planeSrc f e l = e.wide l f.s1 2 := by
  rw [planeSrc, h]

/-- `bpk` of a register, bit by bit (R80). -/
theorem bpkVal_of_register {f : Slk} (e : Env) (l : Nat) (h : opImm? f.s1 = none) : bpkVal f e l =
    let b := if fTy f = 2 then 4 else 8
    ofBits 64 fun k => (e.wide l f.s1 2).testBit (b * (k % (64 / b)) + k / (64 / b)) := by
  rw [bpkVal, bpkBits, planeBits_mul, foldl_bitAt, planeSrc_of_register e l h]
  rfl

/-- `bupk` of a register, bit by bit (R80). -/
theorem bupkVal_of_register {f : Slk} (e : Env) (l : Nat) (h : opImm? f.s1 = none) : bupkVal f e l =
    let b := if fTy f = 2 then 4 else 8
    ofBits 64 fun k => (e.wide l f.s1 2).testBit (64 / b * (k % b) + k / b) := by
  rw [bupkVal, bupkBits, planeBits_mul, foldl_bitAt, planeSrc_of_register e l h]
  rfl

/-- The low bits of a table that is read below them. -/
theorem plogBit_mod (lut : Nat) (a b c : Bool) :
    plogBit (lut % 256) a b c = lut.testBit (a.toNat + 2 * b.toNat + 4 * c.toNat) := by
  have h : ∀ k < 8, (lut % 2 ^ 8).testBit k = lut.testBit k := fun k hk => by
    rw [Nat.testBit_mod_two_pow, decide_eq_true hk, Bool.true_and]
  cases a <;> cases b <;> cases c <;> exact h _ (by decide)

theorem plogVal_eq (f : Slk) (e : Env) (l : Nat) : plogVal f e l =
    let lut := if f.fmt = 1 then f.ext.toNat else e.n32 0 (.op f.s4)
    let c := decide (f.fmt ≠ 1) && e.pred l f.s3
    if lut.testBit ((e.pred l f.s1).toNat + 2 * (e.pred l f.s2).toNat + 4 * c.toNat) then 1 else 0 := by
  unfold plogVal plogLut
  by_cases h : f.fmt = 1
  · simp only [h, if_true, plogBit_mod, ne_eq, not_true_eq_false, decide_false, Bool.false_and]
  · simp only [h, if_false, plogBit_mod, ne_eq, not_false_eq_true, decide_true, Bool.true_and]

/-! ### The table -/

/-- `bpk` and `bupk`, which read bit planes. -/
def readsPlanes : Instr → Bool
  | .bpk _ | .bupk _ => true
  | _ => false

/-- The float shapes limit the type to those of R194. -/
theorem shFlt2_ty {f : Slk} {sat : Bool} (h : (shFlt2 f sat).illenc = false) : fTy f ∈ fltTys := by
  simp only [shFlt2, mkShape, Bool.or_eq_false_iff, Bool.not_eq_false'] at h
  exact List.contains_iff_mem.mp h.1.2

theorem shFfma_ty {f : Slk} (h : (shFfma f).illenc = false) : fTy f ∈ fltTys := by
  simp only [shFfma, mkShape, Bool.or_eq_false_iff, Bool.not_eq_false'] at h
  exact List.contains_iff_mem.mp h.2

theorem shFrnd_ty {f : Slk} (h : (shFrnd f).illenc = false) : fTy f ∈ fltTys := by
  simp only [shFrnd, mkShape, Bool.or_eq_false_iff, Bool.not_eq_false'] at h
  exact List.contains_iff_mem.mp h.1.2

/-- A float instruction outside early service writes its values (R194, R446). -/
theorem flt_writesFixed {s : State} {e : Env} {i : Instr} {f : Slk} {fn : Env → Nat → Nat} (hx : Executes s e i f)
    (ht : fTy f ∈ fltTys) (hi : exec i s = issue i f (fltBody f fn) s) (hr : (fTy f == 7) = true → s.phase = .run) :
    WritesFixed s e i f (laneWrites e f (tyRegs (fTy f)) (fn e)) := by
  obtain ⟨a, b, hb⟩ := fltBody_eq fn ht (st_of_executes hx ▸ hr)
  exact writesFixed_of_body hx hi hb fun _ => rfl

/-- The instructions of the table write its values, where `bpk` and `bupk` read a register. -/
theorem floats_writesFixed {s : State} {e : Env} {i : Instr} {f : Slk} {n : Nat} {fn : Env → Nat → Nat}
    (hi : floats i = some (f, n, fn)) (hx : Executes s e i f) (hr : needsRun i = true → s.phase = .run)
    (hp : readsPlanes i = true → opImm? f.s1 = none) : WritesFixed s e i f (laneWrites e f n (fn e)) := by
  unfold floats at hi
  split at hi <;> cases hi
  case h_1 => exact flt_writesFixed (fn := faddVal f) hx (shFlt2_ty (limits_of_executes hx rfl rfl)) rfl hr
  case h_2 => exact flt_writesFixed (fn := fsubVal f) hx (shFlt2_ty (limits_of_executes hx rfl rfl)) rfl hr
  case h_3 => exact flt_writesFixed (fn := fmulVal f) hx (shFlt2_ty (limits_of_executes hx rfl rfl)) rfl hr
  case h_4 => exact flt_writesFixed (fn := ffmaVal f) hx (shFfma_ty (limits_of_executes hx rfl rfl)) rfl hr
  case h_5 => exact flt_writesFixed (fn := fminVal f) hx (shFlt2_ty (limits_of_executes hx rfl rfl)) rfl hr
  case h_6 => exact flt_writesFixed (fn := fmaxVal f) hx (shFlt2_ty (limits_of_executes hx rfl rfl)) rfl hr
  case h_7 =>
    have hb := f64Service_of_run (fixedBody f 4 3 1 (fcmpVal f)) (st_of_executes hx ▸ hr)
    exact writesFixed_of_body hx rfl hb fun l => fcmpVal_eq ..
  case h_8 => exact writesFixed_of_body hx rfl rfl fun l => fclassVal_eq ..
  case h_9 => exact flt_writesFixed (fn := frndVal f) hx (shFrnd_ty (limits_of_executes hx rfl rfl)) rfl hr
  case h_10 => exact writesFixed_of_body hx rfl rfl fun l => rfl
  case h_11 => exact writesFixed_of_body hx rfl rfl fun l => rfl
  case h_12 => exact writesFixed_of_body hx rfl rfl fun l => rfl
  case h_13 => exact writesFixed_of_body hx rfl rfl fun l => rfl
  case h_14 => exact writesFixed_of_body hx rfl rfl fun l => bpkVal_of_register e l (hp rfl)
  case h_15 => exact writesFixed_of_body hx rfl rfl fun l => bupkVal_of_register e l (hp rfl)
  case h_16 => exact writesFixed_of_body hx rfl rfl fun l => plogVal_eq ..

theorem floats_writes {s : State} {e : Env} {i : Instr} {f : Slk} {n : Nat} {fn : Env → Nat → Nat}
    (hi : floats i = some (f, n, fn)) (hx : Executes s e i f) (hr : needsRun i = true → s.phase = .run)
    (hp : readsPlanes i = true → opImm? f.s1 = none) : Writes s e i (laneWrites e f n (fn e)) :=
  writes_of_writesFixed hx (floats_writesFixed hi hx hr hp)

/-! ### An immediate plane source (R25, R76) -/

/-- `bpk` writes the planes of its source, register or immediate (R25, R76, R80). -/
theorem bpk_writesFixed {s : State} {e : Env} {f : Slk} (hx : Executes s e (.bpk f) f) :
    WritesFixed s e (.bpk f) f (laneWrites e f 2 (bpkVal f e)) := writesFixed_of_body hx rfl rfl fun _ => rfl

/-- A group of 16 threads at its formation, whose turn it is. -/
def freshView : Env :=
  let t := placeTeam State.reset 0x3000
  ⟨{ State.reset with teams := [t], cur := ⟨t.uid, 0⟩, nextId := 2 }, ⟨t.uid, 0⟩, t, .fresh 0 0x3000 0 256⟩
/-- The word of `bpk.i8 s12, 1`. -/
def bpkOne : Slk := ⟨0, 0xF, 0xF, .s 12, .imm 1, .none, .none, .none, 0, 0, 0xCC, 0, 0, 0, 0⟩

/-- Refutes O13: `bpk.i8 s12, 1` executes and leaves 1 in s12, bit 0 of plane 0. O13's table takes the 64 bits of the source
from registers, of which an immediate has none, and so puts 0 there. R25 and R76 admit the immediate. All else that O13
says holds: `floats_writes`, where `bpk` and `bupk` read a register, and `needsRun_traps`. -/
theorem not_floatResults : ¬ Obligations.FloatResults := by
  unfold Obligations.FloatResults
  rintro ⟨h, -⟩
  have hx : Executes freshView.st freshView (.bpk bpkOne) bpkOne := ⟨rfl, by decide⟩
  have htable := h _ _ _ _ _ _ rfl hx nofun
  have hmodel := writes_of_writesFixed hx (bpk_writesFixed hx)
  have hs12 : (1 : Word) = 0 :=
    writes_agree hmodel htable (d := ⟨.s, 12, 0⟩) (by decide) (by decide) (by decide)
  exact absurd hs12 (by decide)

end Sys2Proof.Machine
end

section
/-! SUPPORT. The state after reset (O5). -/

namespace Sys2Proof.Machine

/-- What is backed in early service: 128 MiB of die 0, and host memory (R83, R446). -/
theorem backed_reset (pa : Nat) : backed State.reset pa = true ↔ pa < 2 ^ 27 ∨ (2 ^ 40 ≤ pa ∧ pa < 2 ^ 47) := by
  have hp : State.reset.phase ≠ .run := nofun
  unfold backed
  rw [if_neg hp]
  split <;> rw [decide_eq_true_eq] <;> omega

/-- Settles O5: each value as `State.reset` has it, and the backed range. -/
theorem resetState : Obligations.ResetState := by
  unfold Obligations.ResetState
  exact ⟨⟨rfl, rfl, rfl, rfl, rfl, rfl, fun _ => ⟨rfl, rfl⟩, fun _ => rfl, fun _ => ⟨rfl, rfl, rfl, rfl⟩, backed_reset, rfl, rfl⟩,
    ⟨rfl, rfl, rfl, rfl, rfl, rfl, rfl, fun _ => ⟨rfl, rfl⟩, fun _ => rfl, rfl⟩, reset_wf⟩

end Sys2Proof.Machine
end

section
/-! SUPPORT. Bytes (R3, R96): the bytes of a line and of memory one by one, and a line after bytes are written. -/

namespace Sys2Proof.Machine

/-- Bit `k` of byte `q` of the number that bytes stand for. -/
theorem testBit_ofBytes (bs : List Byte) (q : Nat) {k : Nat} (hk : k < 8) :
    (ofBytes bs).testBit (8 * q + k) = (bs[q]?.getD 0).getLsbD k := by
  induction bs generalizing q with
  | nil => simp [ofBytes]
  | cons b bs ih =>
    rw [ofBytes, Nat.add_comm, show (256 : Nat) = 2 ^ 8 from rfl, Nat.testBit_two_pow_mul_add _ b.isLt]
    cases q with
    | zero => simp [hk, BitVec.testBit_toNat]
    | succ q =>
      rw [if_neg (by omega), show 8 * (q + 1) + k - 8 = 8 * q + k by omega, ih, List.getElem?_cons_succ]

theorem getLsbD_lineByte (l : LineData) (i : Nat) {k : Nat} (hk : k < 8) :
    (lineByte l i).getLsbD k = l.getLsbD (8 * i + k) := by
  simp [lineByte, hk]

/-- A byte of the line that bytes make. -/
theorem lineByte_ofBytes (bs : List Byte) {i : Nat} (hi : i < 128) :
    lineByte (BitVec.ofNat 1024 (ofBytes bs)) i = bs[i]?.getD 0 := by
  refine BitVec.eq_of_getLsbD_eq fun k hk => ?_
  rw [getLsbD_lineByte _ _ hk, BitVec.getLsbD_ofNat, testBit_ofBytes _ _ hk]
  simp [show 8 * i + k < 1024 by omega]

/-- A bit of a mask of ones. -/
theorem testBit_onesAt (lo n j : Nat) : (onesAt lo n).testBit j = decide (lo ≤ j ∧ j < lo + n) := by
  rw [onesAt, Nat.testBit_mul_two_pow, Nat.testBit_two_pow_sub_one]
  by_cases h : lo ≤ j <;> simp [h]
  omega

/-- A byte of a line after bytes are written into it. -/
theorem lineByte_setLine (l : LineData) (off : Nat) (bs : List Byte) {i : Nat} (hi : i < 128) :
    lineByte (setLine l off bs) i =
      if off ≤ i ∧ i < off + bs.length then bs[i - off]?.getD 0 else lineByte l i := by
  refine BitVec.eq_of_getLsbD_eq fun k hk => ?_
  have hik : 8 * i + k < 1024 := by omega
  have hm : (decide (8 * off ≤ 8 * i + k ∧ 8 * i + k < 8 * off + 8 * bs.length)) =
      decide (off ≤ i ∧ i < off + bs.length) := decide_eq_decide.mpr (by omega)
  rw [getLsbD_lineByte _ _ hk]
  simp only [setLine, BitVec.getLsbD_or, BitVec.getLsbD_and, BitVec.getLsbD_not, BitVec.getLsbD_ofNat, hik,
    testBit_onesAt, hm, decide_true, Bool.true_and, Nat.testBit_shiftLeft]
  split
  · next h =>
    rw [show 8 * i + k - 8 * off = 8 * (i - off) + k by omega, testBit_ofBytes _ _ hk]
    simp [h, show 8 * off ≤ 8 * i + k by omega]
  · next h => simp [h, getLsbD_lineByte _ _ hk]

/-- A byte of a line merged by byte. -/
theorem lineByte_mergeLine (m : Mask) (a b : LineData) {n i : Nat} (hn : n ≤ 128) (hi : i < 128) :
    lineByte (mergeLine n m a b) i = if i < n ∧ m.getLsbD i = true then lineByte a i else lineByte b i := by
  induction n with
  | zero => simp [mergeLine]
  | succ n ih =>
    have ih := ih (by omega)
    simp only [mergeLine]
    by_cases hin : i = n
    · subst hin
      split
      · next h => simp [lineByte_setLine _ _ _ hi, h]
      · next h => simp [ih, h]
    · have hlt : i < n + 1 ↔ i < n := by omega
      split
      · rw [lineByte_setLine _ _ _ hi, if_neg (by simp only [List.length_singleton]; omega), ih]
        simp only [hlt]
      · rw [ih]
        simp only [hlt]

theorem toBytes_eq_map (n x : Nat) : toBytes n x = (List.range n).map fun i => BitVec.ofNat 8 (x >>> (8 * i)) := by
  induction n generalizing x with
  | zero => rfl
  | succ n ih =>
    rw [toBytes, ih, List.range_succ_eq_map, List.map_cons, List.map_map]
    congr 1
    refine List.map_congr_left fun i _ => ?_
    rw [Function.comp_apply, show x / 256 = x >>> 8 from (Nat.shiftRight_eq_div_pow x 8).symm, ← Nat.shiftRight_add,
      show 8 + 8 * i = 8 * (i + 1) by omega]

/-- The bytes of a line, one by one. -/
theorem lineBytes_eq_map (l : LineData) (off n : Nat) :
    lineBytes l off n = (List.range n).map fun i => lineByte l (off + i) := by
  rw [lineBytes, toBytes_eq_map]
  refine List.map_congr_left fun i _ => ?_
  rw [← Nat.shiftRight_add, ← Nat.mul_add]
  rfl

theorem lineBytes_one (l : LineData) (off : Nat) : lineBytes l off 1 = [lineByte l off] := by
  simp [lineBytes_eq_map]

@[simp] theorem lineBytes_length (l : LineData) (off n : Nat) : (lineBytes l off n).length = n := by
  simp [lineBytes_eq_map]

theorem lineBytes_getD (l : LineData) (off : Nat) {n i : Nat} (hi : i < n) :
    (lineBytes l off n)[i]?.getD 0 = lineByte l (off + i) := by simp [lineBytes_eq_map, hi]

/-- The bytes of memory, one by one. -/
theorem memBytes_eq_map (m : List Host.Cell) (a n : Nat) :
    memBytes m a n = (List.range n).map fun i => memByte m (a + i) := by
  induction n generalizing a with
  | zero => rfl
  | succ n ih =>
    rw [memBytes, ih, List.range_succ_eq_map, List.map_cons, List.map_map]
    congr 1
    exact List.map_congr_left fun i _ => by rw [Function.comp_apply, Nat.add_assoc, Nat.add_comm 1 i]

theorem memBytes_getD (m : List Host.Cell) (a : Nat) {n i : Nat} (hi : i < n) :
    (memBytes m a n)[i]?.getD 0 = memByte m (a + i) := by simp [memBytes_eq_map, hi]

/-- Bytes are equal where each of them is. -/
theorem memBytes_congr {m m' : List Host.Cell} {a n : Nat} (h : ∀ i < n, memByte m (a + i) = memByte m' (a + i)) :
    memBytes m a n = memBytes m' a n := by
  rw [memBytes_eq_map, memBytes_eq_map]
  exact List.map_congr_left fun i hi => h i (List.mem_range.mp hi)

end Sys2Proof.Machine
end

section
/-! SUPPORT. The home (R81, R88, R97, R99): the byte and the poison that a read of one byte gives, which sector an operation
reaches, and what fills and writes leave of both. -/

namespace Sys2Proof.Machine

/-! ### Where a location lies -/

/-- The locations of one line are all memory of this device, or none is. -/
theorem isDev_of_line {a b : Nat} (h : a / 128 = b / 128) : isDev a = isDev b :=
  decide_eq_decide.mpr (by omega)

theorem inMgmt_of_line {a b : Nat} (h : a / 128 = b / 128) : inMgmt a = inMgmt b := by
  have hn : nodeOf a = nodeOf b := by unfold nodeOf; omega
  have hm : isMgmt a = isMgmt b := decide_eq_decide.mpr (by omega)
  rw [inMgmt, inMgmt, hn, hm]

theorem isDev_line (a : Nat) : isDev (128 * (a / 128)) = isDev a := isDev_of_line (by omega)
theorem inMgmt_line (a : Nat) : inMgmt (128 * (a / 128)) = inMgmt a := inMgmt_of_line (by omega)

/-- Memory of this device is no register space (R81). -/
theorem inMgmt_of_isDev {a : Nat} (h : isDev a = true) : inMgmt a = false := by
  have h40 : a < 2 ^ 40 := of_decide_eq_true h
  have hm : isMgmt a = false := decide_eq_false (by omega)
  rw [inMgmt, hm, Bool.and_false]

/-! ### Bits of a line's masks -/

/-- One bit of two. -/
theorem getLsbD_one_shiftLeft {i : Nat} (hi : i < 2) (j : Nat) : (1#2 <<< i).getLsbD j = decide (j = i) := by
  rw [BitVec.getLsbD_shiftLeft, BitVec.getLsbD_one]
  by_cases h : j = i
  · simp [h, hi]
  · by_cases hlt : j < i
    · simp [h, hlt]
    · simp [h, show j - i ≠ 0 by omega]

theorem getLsbD_bit2 (m : BitVec 2) {i : Nat} (hi : i < 2) (b : Bool) (j : Nat) :
    (bit2 m i b).getLsbD j = if j = i then b else m.getLsbD j := by
  cases b
  · by_cases hj : j < 2
    · simp only [bit2, Bool.false_eq_true, if_false, BitVec.getLsbD_and, BitVec.getLsbD_not, getLsbD_one_shiftLeft hi, hj]
      split <;> simp [*]
    · simp [bit2, BitVec.getLsbD_of_ge m j (by omega)]
  · simp only [bit2, if_true, BitVec.getLsbD_or, getLsbD_one_shiftLeft hi]
    split <;> simp [*]

/-! ### The byte that the home gives -/

/-- A word of the sector has an uncorrectable error (R86). -/
def sectorBad (s : State) (n : Nat) : Bool :=
  (sectorEcc s n).any fun e => e.2 == some .poison || e.2 == some .double

/-- A word of the sector is in an error state. -/
def hasError (s : State) (n : Nat) (x : Ecc) : Bool := ((sectorEcc s n).map (·.2)).any (· = some x)

/-- The home's L2 holds the sector of a location. -/
def homeValid (s : State) (a : Nat) : Bool := (l2Get s (a / 128)).valid.getLsbD (a % 128 / 64)

/-- The byte that a read of the home gives (R97, R110). -/
def homeByte (s : State) (a : Nat) : Byte :=
  if inMgmt a then 0
  else if isDev a && homeValid s a then lineByte (l2Get s (a / 128)).data (a % 128)
  else memByte s.mem a

/-- A read of the byte at the home finds its sector poisoned (R86 to R88). -/
def homeBad (s : State) (a : Nat) : Bool :=
  if inMgmt a then false
  else if isDev a && homeValid s a then (l2Get s (a / 128)).poison.getLsbD (a % 128 / 64)
  else sectorBad s (a / 64)

/-- The bytes of one sector are poisoned together. -/
theorem homeBad_of_sector {s : State} {a b : Nat} (h : a / 64 = b / 64) : homeBad s a = homeBad s b := by
  have hl : a / 128 = b / 128 := by omega
  have hs : a % 128 / 64 = b % 128 / 64 := by omega
  unfold homeBad homeValid
  rw [inMgmt_of_line hl, isDev_of_line hl, h, hl, hs]

/-- Two states hold a sector alike: in the line of its home and in media, with its poison and its errors. -/
structure SameSector (s t : State) (n : Nat) : Prop where
  valid : (l2Get t (n / 2)).valid.getLsbD (n % 2) = (l2Get s (n / 2)).valid.getLsbD (n % 2)
  dirty : (l2Get t (n / 2)).dirty.getLsbD (n % 2) = (l2Get s (n / 2)).dirty.getLsbD (n % 2)
  poison : (l2Get t (n / 2)).poison.getLsbD (n % 2) = (l2Get s (n / 2)).poison.getLsbD (n % 2)
  data : ∀ i < 64, lineByte (l2Get t (n / 2)).data (64 * (n % 2) + i) = lineByte (l2Get s (n / 2)).data (64 * (n % 2) + i)
  mem : ∀ i < 64, memByte t.mem (64 * n + i) = memByte s.mem (64 * n + i)
  ecc : sectorEcc t n = sectorEcc s n

theorem SameSector.refl (s : State) (n : Nat) : SameSector s s n := ⟨rfl, rfl, rfl, fun _ _ => rfl, fun _ _ => rfl, rfl⟩

theorem SameSector.trans {s t u : State} {n : Nat} (h : SameSector s t n) (k : SameSector t u n) : SameSector s u n :=
  ⟨k.valid.trans h.valid, k.dirty.trans h.dirty, k.poison.trans h.poison, fun i hi => (k.data i hi).trans (h.data i hi),
    fun i hi => (k.mem i hi).trans (h.mem i hi), k.ecc.trans h.ecc⟩

/-- What changes neither L2, media nor errors leaves every sector as it was. -/
theorem SameSector.of_eq {s t : State} (n : Nat) (hl : t.l2 = s.l2) (hm : t.mem = s.mem) (he : t.ecc = s.ecc) :
    SameSector s t n := by
  have hg : l2Get t (n / 2) = l2Get s (n / 2) := by rw [l2Get, hl]; rfl
  have hs : sectorEcc t n = sectorEcc s n := by rw [sectorEcc, he]; rfl
  exact ⟨by rw [hg], by rw [hg], by rw [hg], fun _ _ => by rw [hg], fun _ _ => by rw [hm], hs⟩

theorem SameSector.homeValid {s t : State} {a : Nat} (h : SameSector s t (a / 64)) : homeValid t a = homeValid s a := by
  have := h.valid
  rwa [show a / 64 / 2 = a / 128 by omega, show a / 64 % 2 = a % 128 / 64 by omega] at this

theorem SameSector.homeByte {s t : State} {a : Nat} (h : SameSector s t (a / 64)) : homeByte t a = homeByte s a := by
  have hd := h.data (a % 64) (by omega)
  have hm := h.mem (a % 64) (by omega)
  rw [show a / 64 / 2 = a / 128 by omega, show 64 * (a / 64 % 2) + a % 64 = a % 128 by omega] at hd
  rw [show 64 * (a / 64) + a % 64 = a by omega] at hm
  simp only [Machine.homeByte, h.homeValid, hd, hm]

theorem SameSector.homeBad {s t : State} {a : Nat} (h : SameSector s t (a / 64)) : homeBad t a = homeBad s a := by
  have hp := h.poison
  rw [show a / 64 / 2 = a / 128 by omega, show a / 64 % 2 = a % 128 / 64 by omega] at hp
  simp only [Machine.homeBad, h.homeValid, hp, sectorBad, h.ecc]

/-! ### Fills (R99) -/

theorem sectorEcc_congr {s t : State} {n : Nat} (h : ∀ i < 8, Assoc.get? t.ecc (8 * n + i) = Assoc.get? s.ecc (8 * n + i)) :
    sectorEcc t n = sectorEcc s n :=
  List.map_congr_left fun i hi => by rw [h i (List.mem_range.mp hi)]

/-- The entry at a key after the entries of a list of keys are removed. -/
theorem get?_foldl_del {α : Type} (ks : List Nat) (m : Assoc α) (j : Nat) :
    Assoc.get? (ks.foldl Assoc.del m) j = if j ∈ ks then none else Assoc.get? m j := by
  induction ks generalizing m with
  | nil => rfl
  | cons k ks ih =>
    rw [List.foldl_cons, ih, Assoc.get?_del]
    by_cases hk : j = k <;> by_cases hks : j ∈ ks <;> simp [hk, hks]

/-- The entry at a key after one value is put at the keys of a list. -/
theorem get?_foldl_put {α : Type} (ks : List Nat) (v : α) (m : Assoc α) (j : Nat) :
    Assoc.get? (ks.foldl (fun m k => Assoc.put m k v) m) j = if j ∈ ks then some v else Assoc.get? m j := by
  induction ks generalizing m with
  | nil => rfl
  | cons k ks ih =>
    rw [List.foldl_cons, ih, Assoc.get?_put]
    by_cases hk : j = k <;> by_cases hks : j ∈ ks <;> simp [hk, hks]

/-- The words of a sector. -/
theorem mem_sectorWords {n w : Nat} : w ∈ (List.range 8).map (8 * n + ·) ↔ w / 8 = n := by
  simp only [List.mem_map, List.mem_range]
  constructor
  · rintro ⟨i, hi, rfl⟩
    omega
  · exact fun hw => ⟨w % 8, by omega, by omega⟩

/-- The error state of a word after all words of a sector are given one. -/
theorem get?_setSectorEcc (s : State) (n : Nat) (e : Option Ecc) (w : Nat) :
    Assoc.get? (setSectorEcc s n e).ecc w = if w / 8 = n then e else Assoc.get? s.ecc w := by
  cases e with
  | none =>
    have h := get?_foldl_del ((List.range 8).map (8 * n + ·)) s.ecc w
    rwa [List.foldl_map, if_congr mem_sectorWords rfl rfl] at h
  | some x =>
    have h := get?_foldl_put ((List.range 8).map (8 * n + ·)) x s.ecc w
    rwa [List.foldl_map, if_congr mem_sectorWords rfl rfl] at h

/-- Words corrected one after another: their error states go. -/
theorem foldl_countRow_ecc (a : Nat) (l : List (Nat × Option Ecc)) (s : State) :
    (l.foldl (fun (s : State) e => countRow { s with ecc := Assoc.del s.ecc e.1 } a) s).ecc =
      (l.map (·.1)).foldl Assoc.del s.ecc := by
  induction l generalizing s with
  | nil => rfl
  | cons x l ih => exact ih _

/-- Correcting a sector leaves the error states of all words but its single ones (R86). -/
theorem get?_correctSector (s : State) (n w : Nat) : Assoc.get? (correctSector s n).ecc w =
    if w / 8 = n ∧ Assoc.get? s.ecc w = some .single then none else Assoc.get? s.ecc w := by
  rw [correctSector, foldl_countRow_ecc, get?_foldl_del]
  refine if_congr ?_ rfl rfl
  simp only [sectorEcc, List.mem_map, List.mem_filter, List.mem_range, beq_iff_eq]
  constructor
  · rintro ⟨x, ⟨⟨i, hi, rfl⟩, hs⟩, rfl⟩
    exact ⟨by dsimp only; omega, hs⟩
  · rintro ⟨hw, hs⟩
    exact ⟨(w, Assoc.get? s.ecc w), ⟨⟨w % 8, by omega, by rw [show 8 * n + w % 8 = w by omega]⟩, hs⟩, rfl⟩

theorem hasError_iff {s : State} {n : Nat} {x : Ecc} :
    hasError s n x = true ↔ ∃ i < 8, Assoc.get? s.ecc (8 * n + i) = some x := by
  simp [hasError, sectorEcc]

theorem sectorBad_iff {s : State} {n : Nat} : sectorBad s n = true ↔
    ∃ i < 8, Assoc.get? s.ecc (8 * n + i) = some .poison ∨ Assoc.get? s.ecc (8 * n + i) = some .double := by
  simp [sectorBad, sectorEcc]

theorem sectorBad_eq (s : State) (n : Nat) : sectorBad s n = (hasError s n .double || hasError s n .poison) := by
  rw [Bool.eq_iff_iff, Bool.or_eq_true, sectorBad_iff, hasError_iff, hasError_iff]
  constructor
  · rintro ⟨i, hi, h | h⟩
    exacts [.inr ⟨i, hi, h⟩, .inl ⟨i, hi, h⟩]
  · rintro (⟨i, hi, h⟩ | ⟨i, hi, h⟩)
    exacts [⟨i, hi, .inr h⟩, ⟨i, hi, .inl h⟩]

/-- A sector without single errors has none to correct. -/
theorem correctSector_of_none {s : State} {n : Nat} (h : hasError s n .single = false) : correctSector s n = s := by
  have hl : (sectorEcc s n).filter (fun e => e.2 == some .single) = [] := by
    rw [List.filter_eq_nil_iff]
    intro e he hs
    rw [hasError, List.any_eq_false] at h
    exact h e.2 (List.mem_map_of_mem he) (by simpa using hs)
  rw [correctSector, hl]
  rfl

/-- The row of a sector with an uncorrectable error is kept for sparing (R90). -/
def keepRow (s : State) (n : Nat) : State :=
  let k := key2 (stackOf (64 * n)) (Config.rowOf (stackOf (64 * n)) (stackAddr (64 * n) / 64))
  { s with rowBad := if s.rowBad.contains k then s.rowBad else k :: s.rowBad }

/-- A sector is resolved: its single errors are corrected, and one with a double error is poisoned, logged and its row kept
(R86, R90). -/
theorem resolveSector_eq (s : State) (n : Nat) : resolveSector s n =
    if hasError s n .double then
      (logEvent (setSectorEcc (keepRow (correctSector s n) n) n (some .poison)) 0x08 (dieOf (64 * n)) (stackAddr (64 * n)), true)
    else (correctSector s n, hasError s n .poison) := by
  have hc : (if hasError s n .single then correctSector s n else s) = correctSector s n := by
    split
    · rfl
    · next h => exact (correctSector_of_none (Bool.eq_false_iff.mpr h)).symm
  rw [← hc]
  rfl

/-- A sector read by the controller is poisoned where a word of it has an uncorrectable error (R86). -/
theorem resolveSector_snd (s : State) (n : Nat) : (resolveSector s n).2 = sectorBad s n := by
  rw [resolveSector_eq, sectorBad_eq]
  split <;> simp [*]

/-- The error state of a word after its or another sector is resolved (R86). -/
theorem get?_resolveSector (s : State) (n w : Nat) : Assoc.get? (resolveSector s n).1.ecc w =
    if w / 8 ≠ n then Assoc.get? s.ecc w
    else if hasError s n .double then some .poison
    else if Assoc.get? s.ecc w = some .single then none else Assoc.get? s.ecc w := by
  rw [resolveSector_eq]
  by_cases hd : hasError s n .double = true
  · rw [if_pos hd, if_pos hd, logEvent_ecc, get?_setSectorEcc]
    by_cases hw : w / 8 = n
    · rw [if_pos hw, if_neg (not_not.mpr hw)]
    · rw [if_neg hw, if_pos hw]
      exact (get?_correctSector s n w).trans (if_neg fun h => hw h.1)
  · rw [if_neg hd, if_neg hd, get?_correctSector]
    by_cases hw : w / 8 = n <;> simp [hw]

theorem correctSector_l2 (s : State) (n : Nat) : (correctSector s n).l2 = s.l2 := by
  unfold correctSector
  generalize (sectorEcc s n).filter (fun e => e.2 == some .single) = l
  induction l generalizing s with
  | nil => rfl
  | cons x l ih => exact ih _

theorem resolveSector_l2 (s : State) (n : Nat) : (resolveSector s n).1.l2 = s.l2 := by
  rw [resolveSector_eq]
  split <;> exact correctSector_l2 s n

/-! ### Operations that reach one sector -/

/-- The states hold every sector but one alike. -/
def OnlySector (s t : State) (n : Nat) : Prop := ∀ m, m ≠ n → SameSector s t m

theorem OnlySector.trans {s t u : State} {n : Nat} (h : OnlySector s t n) (k : OnlySector t u n) : OnlySector s u n :=
  fun m hm => (h m hm).trans (k m hm)

/-- Two lines are alike but for one sector. -/
structure SameButSector (l l' : L2Line) (sec : Nat) : Prop where
  valid : ∀ j, j ≠ sec → l'.valid.getLsbD j = l.valid.getLsbD j
  dirty : ∀ j, j ≠ sec → l'.dirty.getLsbD j = l.dirty.getLsbD j
  poison : ∀ j, j ≠ sec → l'.poison.getLsbD j = l.poison.getLsbD j
  data : ∀ i < 128, i / 64 ≠ sec → lineByte l'.data i = lineByte l.data i

/-- An operation that replaces one line, alike but for one sector, and changes media and errors in that sector alone. -/
theorem OnlySector.of_line {s t : State} {line sec : Nat} {l : L2Line}
    (hl : ∀ m, l2Get t m = if m = line then l else l2Get s m) (hb : SameButSector (l2Get s line) l sec)
    (hm : ∀ a, a / 64 ≠ 2 * line + sec → memByte t.mem a = memByte s.mem a)
    (he : ∀ w, w / 8 ≠ 2 * line + sec → Assoc.get? t.ecc w = Assoc.get? s.ecc w) : OnlySector s t (2 * line + sec) := by
  intro n hn
  have hmem : ∀ i < 64, memByte t.mem (64 * n + i) = memByte s.mem (64 * n + i) := fun i hi => hm _ (by omega)
  have hecc : sectorEcc t n = sectorEcc s n := sectorEcc_congr fun i hi => he _ (by omega)
  by_cases hline : n / 2 = line
  · have hg : l2Get t (n / 2) = l := by rw [hl, if_pos hline]
    have hj : n % 2 ≠ sec := by omega
    subst hline
    refine ⟨?_, ?_, ?_, fun i hi => ?_, hmem, hecc⟩ <;> rw [hg]
    exacts [hb.valid _ hj, hb.dirty _ hj, hb.poison _ hj, hb.data _ (by omega) (by omega)]
  · have hg : l2Get t (n / 2) = l2Get s (n / 2) := by rw [hl, if_neg hline]
    exact ⟨by rw [hg], by rw [hg], by rw [hg], fun _ _ => by rw [hg], hmem, hecc⟩

/-- A sector of a line with new bytes and bits. -/
def L2Line.setSector (l : L2Line) (sec off : Nat) (bs : List Byte) (v d p : Bool) : L2Line where
  data := setLine l.data off bs
  valid := bit2 l.valid sec v
  dirty := bit2 l.dirty sec d
  poison := bit2 l.poison sec p

theorem L2Line.setSector_sameBut (l : L2Line) {sec off : Nat} {bs : List Byte} (v d p : Bool) (hs : sec < 2)
    (ho : off / 64 = sec) (hb : off % 64 + bs.length ≤ 64) : SameButSector l (l.setSector sec off bs v d p) sec where
  valid j hj := by rw [setSector, getLsbD_bit2 _ hs, if_neg hj]
  dirty j hj := by rw [setSector, getLsbD_bit2 _ hs, if_neg hj]
  poison j hj := by rw [setSector, getLsbD_bit2 _ hs, if_neg hj]
  data i hi hn := by rw [setSector, lineByte_setLine _ _ _ hi, if_neg (by omega)]

/-! ### Fills (R99) -/

/-- The line after a fill of a sector from media. -/
def filledLine (s : State) (line sec : Nat) : L2Line :=
  (l2Get s line).setSector sec (64 * sec) (memBytes s.mem (128 * line + 64 * sec) 64) true false (sectorBad s (2 * line + sec))

theorem l2Fill_of_valid {s : State} {line sec : Nat} (h : (l2Get s line).valid.getLsbD sec = true) :
    l2Fill s line sec = (s, l2Get s line) := if_pos h

theorem l2Fill_of_invalid {s : State} {line sec : Nat} (h : (l2Get s line).valid.getLsbD sec = false) :
    l2Fill s line sec = (l2Put (resolveSector s (2 * line + sec)).1 line (filledLine s line sec), filledLine s line sec) := by
  have hf : filledLine s line sec = { l2Get s line with
      data := setLine (l2Get s line).data (64 * sec) (memBytes (resolveSector s (2 * line + sec)).1.mem (128 * line + 64 * sec) 64)
      valid := bit2 (l2Get s line).valid sec true
      dirty := bit2 (l2Get s line).dirty sec false
      poison := bit2 (l2Get s line).poison sec (resolveSector s (2 * line + sec)).2 } := by
    rw [resolveSector_mem, resolveSector_snd]
    rfl
  rw [hf]
  exact if_neg (by rw [h]; exact Bool.false_ne_true)

/-- The line that a fill gives is the line that is then held. -/
theorem l2Fill_snd (s : State) (line sec : Nat) : (l2Fill s line sec).2 = l2Get (l2Fill s line sec).1 line := by
  cases h : (l2Get s line).valid.getLsbD sec
  · rw [l2Fill_of_invalid h, l2Get_l2Put, if_pos rfl]
  · rw [l2Fill_of_valid h]

theorem l2Get_l2Fill_other (s : State) {line m : Nat} (sec : Nat) (h : m ≠ line) :
    l2Get (l2Fill s line sec).1 m = l2Get s m := by
  cases hv : (l2Get s line).valid.getLsbD sec
  · rw [l2Fill_of_invalid hv, l2Get_l2Put, if_neg h, l2Get, resolveSector_l2]
    rfl
  · rw [l2Fill_of_valid hv]

/-- A fill reaches its own sector alone. -/
theorem l2Fill_onlySector (s : State) (line : Nat) {sec : Nat} (hs : sec < 2) :
    OnlySector s (l2Fill s line sec).1 (2 * line + sec) := by
  cases h : (l2Get s line).valid.getLsbD sec
  · rw [l2Fill_of_invalid h]
    refine .of_line (l := filledLine s line sec) (fun m => ?_)
      (L2Line.setSector_sameBut _ _ _ _ hs (by omega) (by rw [memBytes_length]; omega)) (fun a _ => ?_) fun w hw => ?_
    · rw [l2Get_l2Put, l2Get, resolveSector_l2]
      rfl
    · rw [l2Put_mem, resolveSector_mem]
    · rw [l2Put_ecc, get?_resolveSector, if_pos hw]
  · rw [l2Fill_of_valid h]
    exact fun m _ => .refl s m

/-- After a fill the sector is valid. -/
theorem l2Fill_valid (s : State) (line : Nat) {sec : Nat} (hs : sec < 2) :
    (l2Get (l2Fill s line sec).1 line).valid.getLsbD sec = true := by
  rw [← l2Fill_snd]
  cases h : (l2Get s line).valid.getLsbD sec
  · rw [l2Fill_of_invalid h]
    exact (getLsbD_bit2 _ hs _ _).trans (if_pos rfl)
  · rw [l2Fill_of_valid h, h]

/-- A fill leaves the byte and the poison that the home gives. -/
theorem homeByte_l2Fill (s : State) {line sec : Nat} (hs : sec < 2) (hd : isDev (128 * line) = true) (a : Nat) :
    homeByte (l2Fill s line sec).1 a = homeByte s a ∧ homeBad (l2Fill s line sec).1 a = homeBad s a := by
  by_cases ha : a / 64 = 2 * line + sec
  · cases h : (l2Get s line).valid.getLsbD sec
    · have hline : a / 128 = line := by omega
      have hsec : a % 128 / 64 = sec := by omega
      have hv : homeValid s a = false := by rw [homeValid, hline, hsec, h]
      have hv' : homeValid (l2Fill s line sec).1 a = true := by rw [homeValid, hline, hsec, l2Fill_valid s line hs]
      have hdev : isDev a = true := by rw [← isDev_line, hline, hd]
      simp only [homeByte, homeBad, inMgmt_of_isDev hdev, hdev, hv, hv', hline, hsec, Bool.and_true, Bool.and_false,
        Bool.false_eq_true, if_false, if_true, ← l2Fill_snd]
      rw [l2Fill_of_invalid h]
      constructor
      · change lineByte (setLine _ _ _) _ = _
        rw [lineByte_setLine _ _ _ (by omega), if_pos (by rw [memBytes_length]; omega), memBytes_getD _ _ (by omega)]
        congr 1
        omega
      · change (bit2 _ _ _).getLsbD _ = _
        rw [getLsbD_bit2 _ hs, if_pos rfl, ha]
    · rw [l2Fill_of_valid h]
      exact ⟨rfl, rfl⟩
  · have h := l2Fill_onlySector s line hs _ ha
    exact ⟨h.homeByte, h.homeBad⟩

/-! ### Reads at the home -/

/-- The home holds both sectors of a line after it is filled. -/
theorem l2FillLine_valid (s : State) (line : Nat) {j : Nat} (hj : j < 2) :
    (l2Get (l2FillLine s line).1 line).valid.getLsbD j = true := by
  obtain rfl | rfl : j = 0 ∨ j = 1 := by omega
  · have h := (l2Fill_onlySector (l2Fill s line 0).1 line (sec := 1) (by omega) (2 * line) (by omega)).valid
    rw [show 2 * line / 2 = line by omega, show 2 * line % 2 = 0 by omega] at h
    exact h.trans (l2Fill_valid s line (by omega))
  · exact l2Fill_valid _ line (by omega)

theorem homeByte_l2FillLine (s : State) {line : Nat} (hd : isDev (128 * line) = true) (a : Nat) :
    homeByte (l2FillLine s line).1 a = homeByte s a ∧ homeBad (l2FillLine s line).1 a = homeBad s a := by
  obtain ⟨h0, p0⟩ := homeByte_l2Fill s (sec := 0) (by omega) hd a
  obtain ⟨h1, p1⟩ := homeByte_l2Fill (l2Fill s line 0).1 (sec := 1) (by omega) hd a
  exact ⟨h1.trans h0, p1.trans p0⟩

/-- A line that the home delivers is left with its bytes and poison. -/
theorem homeByte_homeLine (s : State) (line a : Nat) :
    homeByte (homeLine s line).1 a = homeByte s a ∧ homeBad (homeLine s line).1 a = homeBad s a := by
  unfold homeLine
  split
  · exact ⟨rfl, rfl⟩
  · split
    · next hd => exact homeByte_l2FillLine s hd a
    · exact ⟨rfl, rfl⟩

/-- The bytes of the line that the home delivers. -/
theorem lineByte_homeLine (s : State) (line : Nat) {i : Nat} (hi : i < 128) :
    lineByte (homeLine s line).2.1 i = homeByte s (128 * line + i) := by
  have hline : (128 * line + i) / 128 = line := by omega
  have hdev : isDev (128 * line + i) = isDev (128 * line) := isDev_of_line (by omega)
  have hmgmt : inMgmt (128 * line + i) = inMgmt (128 * line) := inMgmt_of_line (by omega)
  unfold homeLine
  split
  · next h =>
    rw [homeByte, hmgmt, if_pos h]
    exact lineByte_ofBytes [] hi
  · next h =>
    split
    · next hd =>
      have hv : homeValid (l2FillLine s line).1 (128 * line + i) = true := by
        rw [homeValid, hline, l2FillLine_valid s line (by omega)]
      rw [← (homeByte_l2FillLine s hd _).1, homeByte, hmgmt, if_neg h, hdev, hd, hv, Bool.true_and, if_pos rfl, hline,
        show (128 * line + i) % 128 = i by omega]
      exact congrArg (fun l : L2Line => lineByte l.data i) (l2Fill_snd ..)
    · next hd =>
      rw [homeByte, hmgmt, if_neg h, hdev, Bool.eq_false_iff.mpr hd, Bool.false_and, if_neg Bool.false_ne_true,
        lineByte_ofBytes _ hi, memBytes_getD _ _ hi]

/-- The poison of the line that the home delivers, by sector. -/
theorem getLsbD_homeLine (s : State) (line : Nat) {i : Nat} (hi : i < 128) :
    (homeLine s line).2.2.getLsbD (i / 64) = homeBad s (128 * line + i) := by
  have hline : (128 * line + i) / 128 = line := by omega
  have hdev : isDev (128 * line + i) = isDev (128 * line) := isDev_of_line (by omega)
  have hmgmt : inMgmt (128 * line + i) = inMgmt (128 * line) := inMgmt_of_line (by omega)
  unfold homeLine
  split
  · next h =>
    rw [homeBad, hmgmt, if_pos h]
    exact BitVec.getLsbD_zero
  · next h =>
    split
    · next hd =>
      have hv : homeValid (l2FillLine s line).1 (128 * line + i) = true := by
        rw [homeValid, hline, l2FillLine_valid s line (by omega)]
      rw [← (homeByte_l2FillLine s hd _).2, homeBad, hmgmt, if_neg h, hdev, hd, hv, Bool.true_and, if_pos rfl, hline,
        show (128 * line + i) % 128 = i by omega]
      exact congrArg (fun l : L2Line => l.poison.getLsbD (i / 64)) (l2Fill_snd ..)
    · next hd =>
      rw [homeBad, hmgmt, if_neg h, hdev, Bool.eq_false_iff.mpr hd, Bool.false_and, if_neg Bool.false_ne_true]
      dsimp only
      rw [getLsbD_bit2 _ (by omega), getLsbD_bit2 _ (by omega)]
      obtain hs | hs : i / 64 = 0 ∨ i / 64 = 1 := by omega
      · rw [hs, if_neg (by omega), if_pos rfl, show (128 * line + i) / 64 = 2 * line + 0 by omega]
        rfl
      · rw [hs, if_pos rfl, show (128 * line + i) / 64 = 2 * line + 1 by omega]
        rfl

/-- A read that lies in one line. -/
theorem homeRead_of_line (s : State) {a n : Nat} (hn : 0 < n) (h : a % 128 + n ≤ 128) : homeRead s a n =
    ((homeLine s (a / 128)).1, lineBytes (homeLine s (a / 128)).2.1 (a % 128) n,
      poisonIn (homeLine s (a / 128)).2.2 (a % 128) n) := by
  rw [homeRead, segs_of_le hn h]
  rfl

/-- A read of one byte at the home. -/
theorem homeRead_one (s : State) (a : Nat) : (homeRead s a 1).2 = ([homeByte s a], homeBad s a) := by
  have ha : 128 * (a / 128) + a % 128 = a := by omega
  rw [homeRead_of_line s (by omega) (by omega), lineBytes_one, lineByte_homeLine _ _ (by omega), ha, poisonIn,
    segs_of_le (by omega) (by omega), List.any_cons, List.any_nil, Bool.or_false]
  dsimp only
  rw [Nat.mod_mod, getLsbD_homeLine _ _ (by omega), ha]

/-! ### Writes at the home (R88, R97) -/

theorem dataSegs_of_le {step a : Nat} {bs : List Byte} (hb : bs ≠ []) (h : a % step + bs.length ≤ step) :
    dataSegs step a bs = [(a, bs)] := by
  rw [dataSegs, segs_of_le (List.length_pos_iff.mpr hb) h]
  simp

/-- A write to host or peer memory, in one sector (R88). -/
def hostMemWrite (s : State) (a : Nat) (bs : List Byte) : State :=
  if sectorBad s (a / 64) && bs.length != 64 then s
  else
    let s := if sectorBad s (a / 64) then setSectorEcc s (a / 64) none else s
    { s with mem := memPuts s.mem a bs }

/-- A write that lies in one sector, at its home. -/
theorem homeWrite_of_sector (s : State) {a : Nat} {bs : List Byte} (hb : bs ≠ []) (h : a % 64 + bs.length ≤ 64) :
    homeWrite s a bs =
      if inMgmt a then mgmtRefuse s a else if isDev a then l2Write s a bs else hostMemWrite s a bs := by
  rw [homeWrite, dataSegs_of_le hb h]
  rfl

/-- The state in which a slice puts a write's bytes: with the sector filled, unless all of it is written (R99). -/
def writeBase (s : State) (a : Nat) (bs : List Byte) : State :=
  if bs.length = 64 then s else (l2Fill s (a / 128) (a % 128 / 64)).1

/-- The line after a write's bytes are put into it. -/
def writtenLine (s : State) (a : Nat) (bs : List Byte) : L2Line :=
  let l := l2Get s (a / 128)
  l.setSector (a % 128 / 64) (a % 128) bs true true (l.poison.getLsbD (a % 128 / 64) && bs.length != 64)

/-- A write that a slice accepts, as bytes put into the line, unless its sector is poisoned (R88). -/
theorem l2Write_eq (s : State) (a : Nat) (bs : List Byte) : l2Write s a bs = fire false (a / 64)
    (if bs.length ≠ 64 ∧ (l2Get (writeBase s a bs) (a / 128)).poison.getLsbD (a % 128 / 64) = true then writeBase s a bs
     else l2Put (writeBase s a bs) (a / 128) (writtenLine (writeBase s a bs) a bs)) := by
  unfold l2Write writeBase
  by_cases hw : bs.length = 64
  · simp [hw, writtenLine, L2Line.setSector]
  · simp [hw, writtenLine, L2Line.setSector, l2Fill_snd, bne]

/-- An operation on media and errors of one sector reaches no other. -/
theorem OnlySector.of_media {s t : State} {n : Nat} (hl : t.l2 = s.l2)
    (hm : ∀ a, a / 64 ≠ n → memByte t.mem a = memByte s.mem a)
    (he : ∀ w, w / 8 ≠ n → Assoc.get? t.ecc w = Assoc.get? s.ecc w) : OnlySector s t n := by
  have hg (m : Nat) : l2Get t m = l2Get s m := by rw [l2Get, hl]; rfl
  intro m hmn
  exact ⟨by rw [hg], by rw [hg], by rw [hg], fun _ _ => by rw [hg], fun i hi => hm _ (by omega),
    sectorEcc_congr fun i hi => he _ (by omega)⟩

section
variable {s : State} {a : Nat} {bs : List Byte}

theorem writeBase_onlySector : OnlySector s (writeBase s a bs) (a / 64) := by
  unfold writeBase
  split
  · exact fun m _ => .refl s m
  · have h := l2Fill_onlySector s (a / 128) (sec := a % 128 / 64) (by omega)
    rwa [show 2 * (a / 128) + a % 128 / 64 = a / 64 by omega] at h

theorem homeByte_writeBase (hd : isDev a = true) (k : Nat) :
    homeByte (writeBase s a bs) k = homeByte s k ∧ homeBad (writeBase s a bs) k = homeBad s k := by
  unfold writeBase
  split
  · exact ⟨rfl, rfl⟩
  · exact homeByte_l2Fill s (by omega) (by rw [isDev_line, hd]) k

/-- A sector to which a part is written is valid before the bytes are put. -/
theorem homeValid_writeBase (hw : bs.length ≠ 64) : homeValid (writeBase s a bs) a = true := by
  rw [writeBase, if_neg hw]
  exact l2Fill_valid s (a / 128) (by omega)

theorem l2Put_written_onlySector (h : a % 64 + bs.length ≤ 64) :
    OnlySector s (l2Put s (a / 128) (writtenLine s a bs)) (a / 64) := by
  have hl := OnlySector.of_line (s := s) (t := l2Put s (a / 128) (writtenLine s a bs)) (line := a / 128)
    (sec := a % 128 / 64) (fun m => l2Get_l2Put ..)
    (L2Line.setSector_sameBut _ _ _ _ (by omega) rfl (by omega)) (fun _ _ => rfl) fun _ _ => rfl
  rwa [show 2 * (a / 128) + a % 128 / 64 = a / 64 by omega] at hl

/-- The home's byte and poison after a write's bytes are put into the line. -/
theorem homeByte_l2Put_written (hd : isDev a = true) {k : Nat} (hk : k / 64 = a / 64) :
    homeByte (l2Put s (a / 128) (writtenLine s a bs)) k =
      (if a ≤ k ∧ k < a + bs.length then bs[k - a]?.getD 0 else lineByte (l2Get s (a / 128)).data (k % 128)) ∧
    homeBad (l2Put s (a / 128) (writtenLine s a bs)) k =
      ((l2Get s (a / 128)).poison.getLsbD (a % 128 / 64) && bs.length != 64) := by
  have hline : k / 128 = a / 128 := by omega
  have hsec : k % 128 / 64 = a % 128 / 64 := by omega
  have hkd : isDev k = true := (isDev_of_line hline).trans hd
  have hg : l2Get (l2Put s (a / 128) (writtenLine s a bs)) (a / 128) = writtenLine s a bs := by
    rw [l2Get_l2Put, if_pos rfl]
  have hv : homeValid (l2Put s (a / 128) (writtenLine s a bs)) k = true := by
    rw [homeValid, hline, hsec, hg]
    exact (getLsbD_bit2 _ (by omega) _ _).trans (if_pos rfl)
  simp only [homeByte, homeBad, inMgmt_of_isDev hkd, hkd, hv, Bool.and_true, if_true, Bool.false_eq_true, if_false, hline,
    hsec, hg]
  constructor
  · change lineByte (setLine _ _ _) _ = _
    rw [lineByte_setLine _ _ _ (by omega)]
    refine if_ctx_congr (by omega) (fun h => ?_) fun _ => rfl
    rw [show k % 128 - a % 128 = k - a by omega]
  · exact (getLsbD_bit2 _ (by omega) _ _).trans (if_pos rfl)

theorem l2Write_onlySector (h : a % 64 + bs.length ≤ 64) : OnlySector s (l2Write s a bs) (a / 64) := by
  rw [l2Write_eq]
  refine OnlySector.trans (t := ite ..) ?_ fun m _ => SameSector.of_eq m rfl rfl rfl
  split
  · exact writeBase_onlySector
  · exact writeBase_onlySector.trans (l2Put_written_onlySector h)

/-- The byte and the poison that the home gives after a slice accepts a write (R88, R97, R99). -/
theorem homeByte_l2Write (hd : isDev a = true) (h : a % 64 + bs.length ≤ 64) {k : Nat} (hk : k / 64 = a / 64) :
    homeByte (l2Write s a bs) k = (if (bs.length = 64 ∨ homeBad s a = false) ∧ a ≤ k ∧ k < a + bs.length
      then bs[k - a]?.getD 0 else homeByte s k) ∧
    homeBad (l2Write s a bs) k = (homeBad s k && bs.length != 64) := by
  have hfire (t : State) : homeByte (fire false (a / 64) t) k = homeByte t k ∧
    homeBad (fire false (a / 64) t) k = homeBad t k := ⟨rfl, rfl⟩
  have hline : k / 128 = a / 128 := by omega
  have hsec : k % 128 / 64 = a % 128 / 64 := by omega
  have hkd : isDev k = true := (isDev_of_line hline).trans hd
  obtain ⟨hb, hp⟩ := homeByte_l2Put_written (s := writeBase s a bs) (bs := bs) hd hk
  rw [l2Write_eq, (hfire _).1, (hfire _).2]
  by_cases hw : bs.length = 64
  · have hin : a ≤ k ∧ k < a + bs.length := by omega
    rw [if_neg fun hc => hc.1 hw, if_pos ⟨.inl hw, hin⟩]
    exact ⟨hb.trans (if_pos hin), hp.trans (by simp [hw])⟩
  · obtain ⟨hbase, hbad⟩ := homeByte_writeBase (s := s) (bs := bs) hd k
    obtain ⟨-, hbada⟩ := homeByte_writeBase (s := s) (bs := bs) hd a
    have hv : homeValid (writeBase s a bs) k = true := by
      rw [homeValid, hline, hsec]
      exact homeValid_writeBase hw
    have hva : homeValid (writeBase s a bs) a = true := homeValid_writeBase hw
    have hpois : homeBad s a = (l2Get (writeBase s a bs) (a / 128)).poison.getLsbD (a % 128 / 64) := by
      rw [← hbada, homeBad, inMgmt_of_isDev hd, hd, hva]
      rfl
    have hpoisk : homeBad s k = (l2Get (writeBase s a bs) (a / 128)).poison.getLsbD (a % 128 / 64) := by
      rw [← hbad, homeBad, inMgmt_of_isDev hkd, hkd, hv, hline, hsec]
      rfl
    have hdata : homeByte s k = lineByte (l2Get (writeBase s a bs) (a / 128)).data (k % 128) := by
      rw [← hbase, homeByte, inMgmt_of_isDev hkd, hkd, hv, hline]
      rfl
    by_cases hq : homeBad s a = true
    · rw [if_pos ⟨hw, hpois ▸ hq⟩, if_neg fun hc => hc.1.elim hw (by simp [hq]), hbad]
      exact ⟨hbase, by simp [hw]⟩
    · rw [if_neg fun hc => hq (hpois ▸ hc.2), hdata, hpoisk]
      exact ⟨hb.trans (if_congr (by simp [hq]) rfl rfl), hp⟩

/-- The byte and the poison of host or peer memory after a write (R88). -/
theorem homeByte_hostMemWrite (hm : inMgmt a = false) (hd : isDev a = false) (h : a % 64 + bs.length ≤ 64) {k : Nat}
    (hk : k / 64 = a / 64) :
    homeByte (hostMemWrite s a bs) k = (if (bs.length = 64 ∨ homeBad s a = false) ∧ a ≤ k ∧ k < a + bs.length
      then bs[k - a]?.getD 0 else homeByte s k) ∧
    homeBad (hostMemWrite s a bs) k = (homeBad s k && bs.length != 64) := by
  have hline : k / 128 = a / 128 := by omega
  have hkd : isDev k = false := (isDev_of_line hline).trans hd
  have hkm : inMgmt k = false := (inMgmt_of_line hline).trans hm
  simp only [homeByte, homeBad, hm, hd, hkm, hkd, Bool.false_and, Bool.false_eq_true, if_false, hk]
  unfold hostMemWrite
  cases hq : sectorBad s (a / 64)
  · simp only [Bool.false_and, Bool.false_eq_true, if_false, or_true, true_and]
    exact ⟨memByte_memPuts .., hq⟩
  · by_cases hw : bs.length = 64
    · have hin : a ≤ k ∧ k < a + bs.length := by omega
      have hclear : sectorBad (setSectorEcc s (a / 64) none) (a / 64) = false := by
        rw [Bool.eq_false_iff, ne_eq, sectorBad_iff]
        rintro ⟨i, hi, hx⟩
        rw [get?_setSectorEcc, if_pos (by omega)] at hx
        simp at hx
      simp only [hw, bne_self_eq_false, Bool.and_false, Bool.false_eq_true, if_false, if_true, true_or, true_and]
      refine ⟨?_, hclear⟩
      rw [← hw, memByte_memPuts]
      rfl
    · simp [hw, hq]

theorem hostMemWrite_onlySector (h : a % 64 + bs.length ≤ 64) : OnlySector s (hostMemWrite s a bs) (a / 64) := by
  have hmem (t : State) (ht : t.mem = s.mem) (k : Nat) (hk : k / 64 ≠ a / 64) :
      memByte (memPuts t.mem a bs) k = memByte s.mem k := by
    rw [memByte_memPuts, if_neg (by omega), ht]
  unfold hostMemWrite
  split
  · exact fun m _ => .refl s m
  · split
    · refine .of_media rfl (hmem _ rfl) fun w hw => ?_
      exact (get?_setSectorEcc s (a / 64) none w).trans (if_neg hw)
    · exact .of_media rfl (hmem _ rfl) fun _ _ => rfl

/-- A write within one sector reaches no other. -/
theorem homeWrite_onlySector (hb : bs ≠ []) (h : a % 64 + bs.length ≤ 64) : OnlySector s (homeWrite s a bs) (a / 64) := by
  rw [homeWrite_of_sector s hb h]
  split
  · exact fun m _ => .of_eq m rfl rfl rfl
  · split
    · exact l2Write_onlySector h
    · exact hostMemWrite_onlySector h

/-- The byte and the poison that the home gives after a write within their sector: a part of a poisoned sector is not
written, a write of all of it ends the poison (R88). -/
theorem homeByte_homeWrite (hm : inMgmt a = false) (hb : bs ≠ []) (h : a % 64 + bs.length ≤ 64) {k : Nat}
    (hk : k / 64 = a / 64) :
    homeByte (homeWrite s a bs) k = (if (bs.length = 64 ∨ homeBad s a = false) ∧ a ≤ k ∧ k < a + bs.length
      then bs[k - a]?.getD 0 else homeByte s k) ∧
    homeBad (homeWrite s a bs) k = (homeBad s k && bs.length != 64) := by
  rw [homeWrite_of_sector s hb h, if_neg (by rw [hm]; exact Bool.false_ne_true)]
  cases hd : isDev a
  · exact homeByte_hostMemWrite hm hd h hk
  · exact homeByte_l2Write hd h hk

/-! ### Poison at the home (R88, R92) -/

/-- Poison that arrives for one sector. -/
theorem homePoison_of_sector (s : State) {a n : Nat} (hn : 0 < n) (h : a % 64 + n ≤ 64) : homePoison s a n =
    if isDev a then
      l2Put (l2Fill s (a / 128) (a % 128 / 64)).1 (a / 128) { (l2Fill s (a / 128) (a % 128 / 64)).2 with
        poison := bit2 (l2Fill s (a / 128) (a % 128 / 64)).2.poison (a % 128 / 64) true
        dirty := bit2 (l2Fill s (a / 128) (a % 128 / 64)).2.dirty (a % 128 / 64) true }
    else setSectorEcc s (a / 64) (some .poison) := by
  rw [homePoison, segs_of_le hn h]
  rfl

/-- A line with poison in one sector, whose data are dirty. -/
def poisonedLine (l : L2Line) (sec : Nat) : L2Line :=
  { l with poison := bit2 l.poison sec true, dirty := bit2 l.dirty sec true }

theorem poisonedLine_sameBut (l : L2Line) {sec : Nat} (hs : sec < 2) : SameButSector l (poisonedLine l sec) sec where
  valid _ _ := rfl
  dirty _ hj := (getLsbD_bit2 _ hs _ _).trans (if_neg hj)
  poison _ hj := (getLsbD_bit2 _ hs _ _).trans (if_neg hj)
  data _ _ _ := rfl

theorem homePoison_of_isDev {n : Nat} (hd : isDev a = true) (hn : 0 < n) (h : a % 64 + n ≤ 64) : homePoison s a n =
    l2Put (l2Fill s (a / 128) (a % 128 / 64)).1 (a / 128)
      (poisonedLine (l2Get (l2Fill s (a / 128) (a % 128 / 64)).1 (a / 128)) (a % 128 / 64)) := by
  rw [homePoison_of_sector s hn h, if_pos hd, l2Fill_snd]
  rfl

/-- Poison for one sector reaches no other. -/
theorem homePoison_onlySector {n : Nat} (hn : 0 < n) (h : a % 64 + n ≤ 64) : OnlySector s (homePoison s a n) (a / 64) := by
  cases hd : isDev a
  · rw [homePoison_of_sector s hn h, if_neg (by rw [hd]; exact Bool.false_ne_true)]
    exact .of_media rfl (fun _ _ => rfl) fun w hw => (get?_setSectorEcc ..).trans (if_neg hw)
  · rw [homePoison_of_isDev hd hn h]
    have hf := l2Fill_onlySector s (a / 128) (sec := a % 128 / 64) (by omega)
    have hp := OnlySector.of_line (line := a / 128) (sec := a % 128 / 64)
      (fun m => l2Get_l2Put (l2Fill s (a / 128) (a % 128 / 64)).1 m (a / 128)
        (poisonedLine (l2Get (l2Fill s (a / 128) (a % 128 / 64)).1 (a / 128)) (a % 128 / 64)))
      (poisonedLine_sameBut _ (by omega)) (fun _ _ => rfl) fun _ _ => rfl
    have := hf.trans hp
    rwa [show 2 * (a / 128) + a % 128 / 64 = a / 64 by omega] at this

/-- A sector to which poison arrives keeps its bytes and is poisoned (R88). -/
theorem homeByte_homePoison {n : Nat} (hm : inMgmt a = false) (hn : 0 < n) (h : a % 64 + n ≤ 64) {k : Nat}
    (hk : k / 64 = a / 64) : homeByte (homePoison s a n) k = homeByte s k ∧ homeBad (homePoison s a n) k = true := by
  have hline : k / 128 = a / 128 := by omega
  have hsec : k % 128 / 64 = a % 128 / 64 := by omega
  cases hd : isDev a
  · have hkd : isDev k = false := (isDev_of_line hline).trans hd
    have hkm : inMgmt k = false := (inMgmt_of_line hline).trans hm
    rw [homePoison_of_sector s hn h, hd]
    simp only [homeByte, homeBad, hkm, hkd, Bool.false_and, Bool.false_eq_true, if_false, hk]
    refine ⟨rfl, sectorBad_iff.mpr ⟨0, by omega, .inl ?_⟩⟩
    rw [get?_setSectorEcc, if_pos (by omega)]
  · have hkd : isDev k = true := (isDev_of_line hline).trans hd
    obtain ⟨hbyte, -⟩ := homeByte_l2Fill s (line := a / 128) (sec := a % 128 / 64) (by omega) (by rw [isDev_line, hd]) k
    have hv : homeValid (l2Fill s (a / 128) (a % 128 / 64)).1 k = true := by
      rw [homeValid, hline, hsec]
      exact l2Fill_valid s _ (by omega)
    rw [← hbyte, homePoison_of_isDev hd hn h]
    generalize (l2Fill s (a / 128) (a % 128 / 64)).1 = t at hv ⊢
    have hg : l2Get (l2Put t (a / 128) (poisonedLine (l2Get t (a / 128)) (a % 128 / 64))) (a / 128) =
        poisonedLine (l2Get t (a / 128)) (a % 128 / 64) := by rw [l2Get_l2Put, if_pos rfl]
    have hv' : homeValid (l2Put t (a / 128) (poisonedLine (l2Get t (a / 128)) (a % 128 / 64))) k = true := by
      rw [homeValid, hline] at hv ⊢
      rwa [hg]
    simp only [homeByte, homeBad, inMgmt_of_isDev hkd, hkd, hv, hv', hline, hsec, hg, Bool.and_true, Bool.false_eq_true,
      if_false, if_true]
    exact ⟨rfl, (getLsbD_bit2 _ (by omega) _ _).trans (if_pos rfl)⟩

end

end Sys2Proof.Machine
end

section
/-! SUPPORT. Write-backs of an RDC line (R88, R102): what the home gives after the dirty bytes of each sector arrive. -/

namespace Sys2Proof.Machine

/-- The dirty bytes of a sector of an RDC line. -/
def dirtyBytes (r : RdcLine) (sec : Nat) : List Nat := (List.range 64).filter fun i => r.dirty.getLsbD (64 * sec + i)

theorem mem_dirtyBytes {r : RdcLine} {sec i : Nat} :
    i ∈ dirtyBytes r sec ↔ i < 64 ∧ r.dirty.getLsbD (64 * sec + i) = true := by simp [dirtyBytes]

/-- Bytes that go to a sector of the home one by one. -/
def backBytes (r : RdcLine) (line sec : Nat) (is : List Nat) (s : State) : State :=
  is.foldl (fun s i => homeWrite s (128 * line + 64 * sec + i) [lineByte r.data (64 * sec + i)]) s

/-- The sector goes to the home as one write (R99, R102). -/
def backWhole (r : RdcLine) (line : Nat) (s : State) (sec : Nat) : Bool :=
  r.whole.getLsbD sec || (decide (64 ≤ (dirtyBytes r sec).length) && isDev (128 * line + 64 * sec) &&
    !(l2Get s line).valid.getLsbD sec)

theorem rdcBackSec_eq (r : RdcLine) (line : Nat) (s : State) (sec : Nat) : rdcBackSec r line s sec =
    if (dirtyBytes r sec).isEmpty then s
    else if r.poison.getLsbD sec then
      if isDev (128 * line + 64 * sec) then fire false ((128 * line + 64 * sec) / 64) (homePoison s (128 * line + 64 * sec) 64)
      else homePoison s (128 * line + 64 * sec) 64
    else if backWhole r line s sec then homeWrite s (128 * line + 64 * sec) (lineBytes r.data (64 * sec) 64)
    else backBytes r line sec (dirtyBytes r sec) s := rfl

section
variable {r : RdcLine} {line sec : Nat} {s : State}

theorem backBytes_onlySector {is : List Nat} (hi : ∀ i ∈ is, i < 64) :
    OnlySector s (backBytes r line sec is s) (2 * line + sec) := by
  induction is generalizing s with
  | nil => exact fun m _ => .refl s m
  | cons i is ih =>
    have hlt := hi i List.mem_cons_self
    have h1 := homeWrite_onlySector (s := s) (a := 128 * line + 64 * sec + i) (bs := [lineByte r.data (64 * sec + i)])
      (List.cons_ne_nil _ _) (by simp only [List.length_singleton]; omega)
    rw [show (128 * line + 64 * sec + i) / 64 = 2 * line + sec by omega] at h1
    exact h1.trans (ih fun j hj => hi j (List.mem_cons_of_mem _ hj))

/-- Bytes that go to the home one by one: those of the list are written where the sector is not poisoned. -/
theorem homeByte_backBytes {is : List Nat} (hi : ∀ i ∈ is, i < 64) (hm : inMgmt (128 * line) = false)
    (hs : sec < 2) {k : Nat} (hk : k < 64) :
    homeByte (backBytes r line sec is s) (128 * line + 64 * sec + k) =
      (if homeBad s (128 * line + 64 * sec + k) = false ∧ k ∈ is then lineByte r.data (64 * sec + k)
        else homeByte s (128 * line + 64 * sec + k)) ∧
    homeBad (backBytes r line sec is s) (128 * line + 64 * sec + k) = homeBad s (128 * line + 64 * sec + k) := by
  induction is generalizing s with
  | nil => simp [backBytes]
  | cons i is ih =>
    have hlt := hi i List.mem_cons_self
    have hbad : homeBad s (128 * line + 64 * sec + i) = homeBad s (128 * line + 64 * sec + k) := homeBad_of_sector (by omega)
    obtain ⟨hb, hp⟩ := homeByte_homeWrite (s := s) (a := 128 * line + 64 * sec + i) (bs := [lineByte r.data (64 * sec + i)])
      (k := 128 * line + 64 * sec + k) ((inMgmt_of_line (by omega)).trans hm) (List.cons_ne_nil _ _)
      (by simp only [List.length_singleton]; omega) (by omega)
    obtain ⟨ihb, ihp⟩ := ih (s := homeWrite s (128 * line + 64 * sec + i) [lineByte r.data (64 * sec + i)])
      fun j hj => hi j (List.mem_cons_of_mem _ hj)
    have hp : homeBad (homeWrite s (128 * line + 64 * sec + i) [lineByte r.data (64 * sec + i)])
        (128 * line + 64 * sec + k) = homeBad s (128 * line + 64 * sec + k) := hp.trans (Bool.and_true _)
    refine ⟨?_, ihp.trans hp⟩
    rw [backBytes, List.foldl_cons]
    refine ihb.trans ?_
    rw [hp, hb, hbad]
    by_cases hq : homeBad s (128 * line + 64 * sec + k) = false
    · by_cases hik : k = i
      · subst hik
        simp [hq]
      · have hne : ¬ (i ≤ k ∧ k ≤ i) := by omega
        simp [hq, hik, hne]
    · simp [hq]

/-- The write-back of a sector reaches no other. -/
theorem rdcBackSec_onlySector : OnlySector s (rdcBackSec r line s sec) (2 * line + sec) := by
  have hn : (128 * line + 64 * sec) / 64 = 2 * line + sec := by omega
  have hp := homePoison_onlySector (s := s) (a := 128 * line + 64 * sec) (n := 64) (by omega) (by omega)
  rw [hn] at hp
  rw [rdcBackSec_eq]
  split
  · exact fun m _ => .refl s m
  · split
    · split
      · exact hp.trans fun m _ => .of_eq m rfl rfl rfl
      · exact hp
    · split
      · have hw := homeWrite_onlySector (s := s) (a := 128 * line + 64 * sec) (bs := lineBytes r.data (64 * sec) 64)
          (List.ne_nil_of_length_pos (by rw [lineBytes_length]; omega)) (by rw [lineBytes_length]; omega)
        rwa [hn] at hw
      · exact backBytes_onlySector fun i hi => (mem_dirtyBytes.mp hi).1

/-- What the home gives of a sector after its write-back (R88, R102): a dirty byte arrives unless its sector is poisoned at
the RDC or, where the sector is not written whole, at the home; poison arrives; a byte that is not dirty stays, where no
store wrote all of the sector. -/
theorem homeByte_rdcBackSec (hs : sec < 2) (hm : inMgmt (128 * line) = false) {k : Nat} (hk : k < 64) :
    (r.dirty.getLsbD (64 * sec + k) = true → r.poison.getLsbD sec = false →
      (homeBad s (128 * line + 64 * sec + k) = false ∨ r.whole.getLsbD sec = true) →
      homeByte (rdcBackSec r line s sec) (128 * line + 64 * sec + k) = lineByte r.data (64 * sec + k)) ∧
    (r.dirty.getLsbD (64 * sec + k) = true → r.poison.getLsbD sec = true →
      homeBad (rdcBackSec r line s sec) (128 * line + 64 * sec + k) = true) ∧
    (r.dirty.getLsbD (64 * sec + k) = false → r.whole.getLsbD sec = false →
      homeByte (rdcBackSec r line s sec) (128 * line + 64 * sec + k) = homeByte s (128 * line + 64 * sec + k)) := by
  have hm' : inMgmt (128 * line + 64 * sec) = false := (inMgmt_of_line (by omega)).trans hm
  have hdirty : r.dirty.getLsbD (64 * sec + k) = true → (dirtyBytes r sec).isEmpty = false := fun h =>
    List.isEmpty_eq_false_iff_exists_mem.mpr ⟨k, mem_dirtyBytes.mpr ⟨hk, h⟩⟩
  rw [rdcBackSec_eq]
  cases he : (dirtyBytes r sec).isEmpty
  case true =>
    have hclean : r.dirty.getLsbD (64 * sec + k) ≠ true := fun h => by rw [hdirty h] at he; cases he
    exact ⟨fun h => absurd h hclean, fun h => absurd h hclean, fun _ _ => rfl⟩
  case false =>
  rw [if_neg Bool.false_ne_true]
  cases hp : r.poison.getLsbD sec
  case true =>
    obtain ⟨hb, hq⟩ := homeByte_homePoison (s := s) (a := 128 * line + 64 * sec) (n := 64) (k := 128 * line + 64 * sec + k)
      hm' (by omega) (by omega) (by omega)
    rw [if_pos rfl]
    refine ⟨fun _ h => (Bool.noConfusion h), fun _ _ => ?_, fun _ _ => ?_⟩ <;> split
    exacts [hq, hq, hb, hb]
  case false =>
  rw [if_neg Bool.false_ne_true]
  cases hw : backWhole r line s sec
  case true =>
    obtain ⟨hb, -⟩ := homeByte_homeWrite (s := s) (a := 128 * line + 64 * sec) (bs := lineBytes r.data (64 * sec) 64)
      (k := 128 * line + 64 * sec + k) hm' (List.ne_nil_of_length_pos (by rw [lineBytes_length]; omega))
      (by rw [lineBytes_length]; omega) (by omega)
    rw [lineBytes_length, if_pos ⟨.inl rfl, by omega, by omega⟩, lineBytes_getD _ _ (by omega), Nat.add_sub_cancel_left] at hb
    rw [if_pos rfl]
    refine ⟨fun _ _ _ => hb, fun _ h => Bool.noConfusion h, fun hd hnw => ?_⟩
    have hall : (dirtyBytes r sec).length < 64 :=
      lt_of_lt_of_eq (List.length_filter_lt_length_iff_exists.mpr ⟨k, List.mem_range.mpr hk, by simp [hd]⟩) List.length_range
    simp [backWhole, hnw, Nat.not_le.mpr hall] at hw
  case false =>
    obtain ⟨hb, -⟩ := homeByte_backBytes (s := s) (r := r) (line := line) (sec := sec) (is := dirtyBytes r sec)
      (fun i hi => (mem_dirtyBytes.mp hi).1) hm hs hk
    have hnw : r.whole.getLsbD sec = false := by
      rw [backWhole, Bool.or_eq_false_iff] at hw
      exact hw.1
    rw [if_neg Bool.false_ne_true]
    refine ⟨fun hd _ hq => ?_, fun _ h => Bool.noConfusion h, fun hd _ => ?_⟩
    · rw [hnw] at hq
      exact hb.trans (if_pos ⟨hq.resolve_right Bool.false_ne_true, mem_dirtyBytes.mpr ⟨hk, hd⟩⟩)
    · refine hb.trans (if_neg fun h => ?_)
      rw [(mem_dirtyBytes.mp h.2).2] at hd
      cases hd

end

end Sys2Proof.Machine
end

section
/-! SUPPORT. The caches and the base-die controllers by themselves (O31): fills, evictions, write-backs, scrubs and spares. -/

namespace Sys2Proof.Machine

open Claims

/-! ### Remote stores (R135) -/

theorem remoteStl_performed {s : State} {id : Nat} {p : Pend} {k : Nat} {d : List Byte} (hp : s.pend? id = some p)
    (hk : p.kind = .rstl k d) (hq : ∀ q ∈ s.pend, q.id < p.id → q.owner = p.owner →
      ∀ a b, q.kind = .rstl a b → overlap a b.length k d.length = false) :
    exec (.remoteStlPerformed id) s = .next (unpost id (poolWrite s k d)) := by
  change Host.Outcome.next (remoteStlStep id s) = _
  simp only [remoteStlStep, hp, hk]
  rw [if_neg]
  rw [Bool.not_eq_true, List.any_eq_false]
  intro q hmem hany
  simp only [Bool.and_eq_true, decide_eq_true_eq, beq_iff_eq] at hany
  obtain ⟨⟨hid, how⟩, hov⟩ := hany
  split at hov
  · next a b hab => rw [hq q hmem hid how a b hab] at hov; cases hov
  · cases hov

/-! ### Fills and evictions of the L2 (R99) -/

/-- Reads of one byte give the same where the home has the same byte. -/
theorem homeRead_one_congr {s t : State} {a : Nat} (h : homeByte t a = homeByte s a) :
    (homeRead t a 1).2.1 = (homeRead s a 1).2.1 := by
  rw [homeRead_one, homeRead_one, h]

theorem l2Fill_fills {s : State} {loc : Nat} (hd : isDev loc = true) (hp : peridotHolds s (loc / 128) = false) :
    ∃ t, exec (.l2Fill loc) s = .next t ∧ (l2Get t (loc / 128)).valid.getLsbD (loc % 128 / 64) = true ∧
      lineBytes (l2Get t (loc / 128)).data (64 * (loc % 128 / 64)) 64 = (homeRead s (loc / 64 * 64) 64).2.1 ∧
      ∀ a, (homeRead t a 1).2.1 = (homeRead s a 1).2.1 := by
  have hs : loc % 128 / 64 < 2 := by omega
  have hdl : isDev (128 * (loc / 128)) = true := by rw [isDev_line, hd]
  refine ⟨(l2Fill s (loc / 128) (loc % 128 / 64)).1, ?_, l2Fill_valid s _ hs, ?_, fun a =>
    homeRead_one_congr (homeByte_l2Fill s hs hdl a).1⟩
  · change Host.Outcome.next (l2FillStep loc s) = _
    rw [l2FillStep, hd, hp]
    rfl
  · rw [homeRead_of_line s (by omega) (by omega)]
    dsimp only
    rw [lineBytes_eq_map, lineBytes_eq_map]
    refine List.map_congr_left fun i hi => ?_
    have hi := List.mem_range.mp hi
    have hv : homeValid (l2Fill s (loc / 128) (loc % 128 / 64)).1 (loc / 64 * 64 + i) = true := by
      rw [homeValid, show (loc / 64 * 64 + i) / 128 = loc / 128 by omega,
        show (loc / 64 * 64 + i) % 128 / 64 = loc % 128 / 64 by omega]
      exact l2Fill_valid s _ hs
    have hdi : isDev (loc / 64 * 64 + i) = true := (isDev_of_line (by omega)).trans hd
    rw [lineByte_homeLine _ _ (by omega), show 128 * (loc / 64 * 64 / 128) + (loc / 64 * 64 % 128 + i) = loc / 64 * 64 + i by omega,
      ← (homeByte_l2Fill s hs hdl _).1, homeByte, inMgmt_of_isDev hdi, hdi, hv]
    simp only [Bool.false_eq_true, Bool.and_self, if_false, if_true]
    rw [show (loc / 64 * 64 + i) / 128 = loc / 128 by omega,
      show (loc / 64 * 64 + i) % 128 = 64 * (loc % 128 / 64) + i by omega]

/-- A sector of a line after another or the same is cleaned: its dirty bit. -/
theorem l2CleanSec_of_dirty {s : State} {line sec : Nat} (h : (l2Get s line).dirty.getLsbD sec = true) :
    l2CleanSec s line sec = l2Put (mediaWrite s (2 * line + sec) (lineBytes (l2Get s line).data (64 * sec) 64)
      ((l2Get s line).poison.getLsbD sec)) line { l2Get s line with dirty := bit2 (l2Get s line).dirty sec false } := if_pos h

theorem l2CleanSec_of_clean {s : State} {line sec : Nat} (h : (l2Get s line).dirty.getLsbD sec = false) :
    l2CleanSec s line sec = s := if_neg (by rw [h]; exact Bool.false_ne_true)

/-- The lines after a sector is cleaned: its dirty bit is 0, and nothing else of them changes. -/
theorem l2Get_l2CleanSec (s : State) (line : Nat) {sec : Nat} (hs : sec < 2) (m : Nat) : l2Get (l2CleanSec s line sec) m =
    if m = line then { l2Get s line with dirty := bit2 (l2Get s line).dirty sec false } else l2Get s m := by
  cases h : (l2Get s line).dirty.getLsbD sec
  · rw [l2CleanSec_of_clean h]
    split
    · next hm =>
      subst hm
      have hb : bit2 (l2Get s m).dirty sec false = (l2Get s m).dirty := BitVec.eq_of_getLsbD_eq fun j _ => by
        rw [getLsbD_bit2 _ hs]
        split
        · next hj => rw [hj, h]
        · rfl
      rw [hb]
    · rfl
  · rw [l2CleanSec_of_dirty h]
    exact l2Get_l2Put ..

/-- The bytes of media after a sector is cleaned. -/
theorem memByte_l2CleanSec (s : State) (line sec a : Nat) : memByte (l2CleanSec s line sec).mem a =
    if (l2Get s line).dirty.getLsbD sec = true ∧ a / 64 = 2 * line + sec then lineByte (l2Get s line).data (64 * sec + a % 64)
    else memByte s.mem a := by
  cases h : (l2Get s line).dirty.getLsbD sec
  · rw [l2CleanSec_of_clean h]
    simp
  · rw [l2CleanSec_of_dirty h, l2Put_mem, mediaWrite_mem, memByte_memPuts, lineBytes_length]
    by_cases ha : a / 64 = 2 * line + sec
    · rw [if_pos (by omega), if_pos ⟨rfl, ha⟩, lineBytes_getD _ _ (by omega), show a - 64 * (2 * line + sec) = a % 64 by omega]
    · rw [if_neg (by omega), if_neg (fun hc => ha hc.2)]

/-- The lines after a line is cleaned (R99, R113). -/
theorem l2Get_l2Clean (s : State) (line m : Nat) : l2Get (l2Clean s line) m =
    if m = line then { l2Get s line with dirty := 0 } else l2Get s m := by
  rw [l2Clean, l2Get_l2CleanSec _ _ (by omega), l2Get_l2CleanSec _ _ (by omega), l2Get_l2CleanSec _ _ (by omega)]
  split
  · rw [if_pos rfl]
    have hb : bit2 (bit2 (l2Get s line).dirty 0 false) 1 false = 0#2 := BitVec.eq_of_getLsbD_eq fun j hj => by
      rw [getLsbD_bit2 _ (by omega), getLsbD_bit2 _ (by omega), BitVec.getLsbD_zero]
      obtain rfl | rfl : j = 0 ∨ j = 1 := by omega
      · rfl
      · rfl
    rw [hb]
    rfl
  · rfl

/-- The bytes of media after a line is cleaned: those of its dirty sectors come from it. -/
theorem memByte_l2Clean (s : State) (line a : Nat) : memByte (l2Clean s line).mem a =
    if a / 128 = line ∧ (l2Get s line).dirty.getLsbD (a % 128 / 64) = true then lineByte (l2Get s line).data (a % 128)
    else memByte s.mem a := by
  have h10 : (bit2 (l2Get s line).dirty 0 false).getLsbD 1 = (l2Get s line).dirty.getLsbD 1 :=
    (getLsbD_bit2 _ (by omega) _ _).trans (if_neg (by omega))
  rw [l2Clean, memByte_l2CleanSec, memByte_l2CleanSec, l2Get_l2CleanSec _ _ (by omega), if_pos rfl, h10]
  by_cases h1 : a / 64 = 2 * line + 1
  · rw [show a % 128 / 64 = 1 by omega, show a % 128 = 64 * 1 + a % 64 by omega]
    by_cases hd : (l2Get s line).dirty.getLsbD 1 = true
    · rw [if_pos ⟨hd, h1⟩, if_pos ⟨by omega, hd⟩]
    · rw [if_neg fun h => hd h.1, if_neg fun h => by omega, if_neg fun h => hd h.2]
  · rw [if_neg fun h => h1 h.2]
    by_cases h0 : a / 64 = 2 * line + 0
    · rw [show a % 128 / 64 = 0 by omega, show a % 128 = 64 * 0 + a % 64 by omega]
      exact if_congr ⟨fun h => ⟨by omega, h.1⟩, fun h => ⟨h.2, h0⟩⟩ rfl rfl
    · rw [if_neg fun h => h0 h.2, if_neg fun h => by omega]

/-- A sector of media after its line is cleaned. -/
theorem memBytes_l2Clean (s : State) (line m : Nat) {sec : Nat} (hs : sec < 2) :
    memBytes (l2Clean s line).mem (128 * m + 64 * sec) 64 =
      if m = line ∧ (l2Get s line).dirty.getLsbD sec = true then lineBytes (l2Get s line).data (64 * sec) 64
      else memBytes s.mem (128 * m + 64 * sec) 64 := by
  rw [memBytes_eq_map, lineBytes_eq_map, memBytes_eq_map, ← apply_ite (fun f => (List.range 64).map f)]
  refine List.map_congr_left fun i hi => ?_
  have hi := List.mem_range.mp hi
  rw [memByte_l2Clean, show (128 * m + 64 * sec + i) / 128 = m by omega, show (128 * m + 64 * sec + i) % 128 = 64 * sec + i by omega,
    show (64 * sec + i) / 64 = sec by omega]
  split <;> rfl

theorem l2Get_l2Evict (s : State) (line m : Nat) :
    l2Get (l2Evict s line) m = if m = line then ⟨0, 0, 0, 0⟩ else l2Get s m := by
  rw [l2Get, l2Evict_l2]
  split <;> rfl

theorem l2Evict_mem (s : State) (line : Nat) : (l2Evict s line).mem = (l2Clean s line).mem := rfl

/-- An eviction changes no byte that the home gives, where clean sectors hold what media hold (R99). -/
theorem homeByte_l2Evict {s : State} {line : Nat} (hd : isDev (128 * line) = true)
    (hc : ∀ sec < 2, (l2Get s line).valid.getLsbD sec = true → (l2Get s line).dirty.getLsbD sec = false →
      lineBytes (l2Get s line).data (64 * sec) 64 = memBytes s.mem (line * 128 + 64 * sec) 64)
    (hv : ∀ sec < 2, (l2Get s line).dirty.getLsbD sec = true → (l2Get s line).valid.getLsbD sec = true) (a : Nat) :
    homeByte (l2Evict s line) a = homeByte s a := by
  unfold homeByte homeValid
  rw [l2Get_l2Evict, l2Evict_mem, memByte_l2Clean]
  by_cases ha : a / 128 = line
  · have hdev : isDev a = true := by rw [← isDev_line, ha, hd]
    have hsec : a % 128 / 64 < 2 := by omega
    have hz : (0 : BitVec 2).getLsbD (a % 128 / 64) = false := BitVec.getLsbD_zero
    rw [if_pos ha, hdev, inMgmt_of_isDev hdev, ha]
    simp only [hz, Bool.and_false, Bool.true_and, Bool.false_eq_true, if_false, true_and]
    cases hdirty : (l2Get s line).dirty.getLsbD (a % 128 / 64)
    · cases hvalid : (l2Get s line).valid.getLsbD (a % 128 / 64)
      · rfl
      · have hb := congrArg (fun bs => bs[a % 64]?.getD 0) (hc _ hsec hvalid hdirty)
        rw [lineBytes_getD _ _ (by omega), memBytes_getD _ _ (by omega),
          show 64 * (a % 128 / 64) + a % 64 = a % 128 by omega,
          show line * 128 + 64 * (a % 128 / 64) + a % 64 = a by omega] at hb
        exact hb.symm
    · rw [hv _ hsec hdirty]
  · have hclean : (if a / 128 = line ∧ (l2Get s line).dirty.getLsbD (a % 128 / 64) = true
        then lineByte (l2Get s line).data (a % 128) else memByte s.mem a) = memByte s.mem a := if_neg fun h => ha h.1
    rw [if_neg ha, hclean]

theorem l2Eviction_evicts {s : State} {loc : Nat} (hd : isDev loc = true) (hl : (Assoc.get? s.l2 (loc / 128)).isSome = true) :
    (mayEvict s .l2 (loc / 128) = false → exec (.l2Eviction loc) s = .next s) ∧
    (mayEvict s .l2 (loc / 128) = true → ∃ t, exec (.l2Eviction loc) s = .next t ∧ Assoc.get? t.l2 (loc / 128) = none ∧
      (∀ sec < 2, (l2Get s (loc / 128)).dirty.getLsbD sec = true →
        memBytes t.mem (loc / 128 * 128 + 64 * sec) 64 = lineBytes (l2Get s (loc / 128)).data (64 * sec) 64) ∧
      ((∀ sec < 2, (l2Get s (loc / 128)).valid.getLsbD sec = true → (l2Get s (loc / 128)).dirty.getLsbD sec = false →
          lineBytes (l2Get s (loc / 128)).data (64 * sec) 64 = memBytes s.mem (loc / 128 * 128 + 64 * sec) 64) →
        (∀ sec < 2, (l2Get s (loc / 128)).dirty.getLsbD sec = true → (l2Get s (loc / 128)).valid.getLsbD sec = true) →
        ∀ a, (homeRead t a 1).2.1 = (homeRead s a 1).2.1)) := by
  have hexec : exec (.l2Eviction loc) s =
      .next (if mayEvict s .l2 (loc / 128) = true then l2Evict s (loc / 128) else s) := by
    change Host.Outcome.next (l2EvictStep loc s) = _
    rw [l2EvictStep, hd, hl, Bool.and_self, Bool.true_and]
  rw [hexec]
  refine ⟨fun h => by rw [h]; rfl, fun h => ⟨l2Evict s (loc / 128), by rw [if_pos h], ?_, fun sec hs hdirty => ?_,
    fun hc hv a => homeRead_one_congr (homeByte_l2Evict (by rw [isDev_line, hd]) hc hv a)⟩⟩
  · rw [l2Evict_l2, if_pos rfl]
  · rw [l2Evict_mem, Nat.mul_comm (loc / 128), memBytes_l2Clean _ _ _ hs, if_pos ⟨rfl, hdirty⟩]

/-! ### The RDC (R101, R102) -/

theorem rdcGet_rdcPut_self (s : State) (d line : Nat) (r : RdcLine) :
    rdcGet (rdcPut s d line r) d line = if r.valid = 0 then ⟨0, 0, 0, 0, 0⟩ else r := by
  unfold rdcGet rdcPut
  split
  · simp [Assoc.get?_del]
  · simp [Assoc.get?_put]

/-- A line held in an RDC is nothing that a read of the home looks at. -/
theorem homeByte_rdcPut (s : State) (d line : Nat) (r : RdcLine) (a : Nat) :
    homeByte (rdcPut s d line r) a = homeByte s a ∧ homeBad (rdcPut s d line r) a = homeBad s a := ⟨rfl, rfl⟩

theorem rdcFillLine_of_valid {s : State} {d line : Nat} (h : (rdcGet s d line).valid = BitVec.allOnes 128) :
    rdcFillLine s d line = (s, rdcGet s d line) := if_pos h

/-- The RDC line after a fill: its own dirty bytes, and the home's others (R102). -/
def filledRdc (s : State) (d line : Nat) : RdcLine :=
  let r := rdcGet s d line
  let h := homeLine (hostShare s d (128 * line)) line
  ⟨mergeLine 128 r.dirty r.data h.2.1, BitVec.allOnes 128, r.dirty, h.2.2 &&& ~~~r.whole, r.whole⟩

theorem rdcFillLine_of_invalid {s : State} {d line : Nat} (h : (rdcGet s d line).valid ≠ BitVec.allOnes 128) :
    rdcFillLine s d line =
      (rdcPut (homeLine (hostShare s d (128 * line)) line).1 d line (filledRdc s d line), filledRdc s d line) := if_neg h

theorem lineByte_filledRdc (s : State) (d line : Nat) {i : Nat} (hi : i < 128) : lineByte (filledRdc s d line).data i =
    if (rdcGet s d line).dirty.getLsbD i = true then lineByte (rdcGet s d line).data i
    else homeByte (hostShare s d (128 * line)) (128 * line + i) := by
  refine (lineByte_mergeLine _ _ _ (le_refl _) hi).trans ?_
  rw [lineByte_homeLine _ _ hi]
  simp only [hi, true_and]

theorem rdcFill_fills {s : State} {die loc : Nat} (hh : lineHeld s loc 1 = false) (hm : inMgmt loc = false)
    (hr : isRemote die loc = true) :
    let r := rdcGet s die (loc / 128)
    let u := hostShare s die (loc / 128 * 128)
    (cachedPage s loc = false → exec (.rdcFill die loc) s = .next s) ∧
    (cachedPage s loc = true → r.valid = BitVec.allOnes 128 → exec (.rdcFill die loc) s = .next s) ∧
    (cachedPage s loc = true → r.valid ≠ BitVec.allOnes 128 → ∃ t, exec (.rdcFill die loc) s = .next t ∧
      (rdcGet t die (loc / 128)).valid = BitVec.allOnes 128 ∧ (rdcGet t die (loc / 128)).dirty = r.dirty ∧
      (∀ i < 128, [lineByte (rdcGet t die (loc / 128)).data i] =
        if r.dirty.getLsbD i = true then [lineByte r.data i] else (homeRead u (loc / 128 * 128 + i) 1).2.1) ∧
      ∀ a, (homeRead t a 1).2.1 = (homeRead u a 1).2.1) := by
  intro r u
  have hexec : exec (.rdcFill die loc) s =
      .next (if !cachedPage s loc then s else (rdcFillLine s die (loc / 128)).1) := by
    change Host.Outcome.next (rdcFillStep die loc s) = _
    rw [rdcFillStep, hh, hm, hr]
    rfl
  refine ⟨fun hc => by rw [hexec, hc]; rfl, fun hc hv => by rw [hexec, hc, rdcFillLine_of_valid hv]; rfl, fun hc hv => ?_⟩
  have hu : u = hostShare s die (128 * (loc / 128)) := by rw [Nat.mul_comm]
  have hg : rdcGet (rdcPut (homeLine (hostShare s die (128 * (loc / 128))) (loc / 128)).1 die (loc / 128)
      (filledRdc s die (loc / 128))) die (loc / 128) = filledRdc s die (loc / 128) := by
    rw [rdcGet_rdcPut_self]
    exact if_neg (show ¬ BitVec.allOnes 128 = 0 by decide)
  have hstep : exec (.rdcFill die loc) s = .next (rdcPut (homeLine (hostShare s die (128 * (loc / 128))) (loc / 128)).1 die
      (loc / 128) (filledRdc s die (loc / 128))) := by
    rw [hexec, hc, rdcFillLine_of_invalid hv]
    rfl
  refine ⟨_, hstep, by rw [hg]; rfl, by rw [hg]; rfl, fun i hi => ?_, fun a => ?_⟩
  swap
  · rw [hu]
    exact homeRead_one_congr (homeByte_homeLine _ _ a).1
  rw [hu, hg, lineByte_filledRdc _ _ _ hi, homeRead_one, Nat.mul_comm (loc / 128)]
  split <;> rfl

theorem rdcWriteBack_of_dirty {s : State} {d line : Nat} (h : (rdcGet s d line).dirty ≠ 0) : rdcWriteBack s d line =
    rdcPut (rdcBackSec (rdcGet s d line) line (rdcBackSec (rdcGet s d line) line s 0) 1) d line
      { rdcGet s d line with dirty := 0, whole := 0 } := if_neg h

/-- What the home gives after a line's write-back (R88, R102). -/
theorem homeByte_rdcWriteBack {s : State} {d line : Nat} (hm : inMgmt (128 * line) = false) {i : Nat} (hi : i < 128) :
    let r := rdcGet s d line
    let t := rdcWriteBack s d line
    (r.dirty.getLsbD i = true → r.poison.getLsbD (i / 64) = false →
      (homeBad s (128 * line + i) = false ∨ r.whole.getLsbD (i / 64) = true) → homeByte t (128 * line + i) = lineByte r.data i) ∧
    (r.dirty.getLsbD i = true → r.poison.getLsbD (i / 64) = true → homeBad t (128 * line + i) = true) ∧
    (r.dirty.getLsbD i = false → r.whole.getLsbD (i / 64) = false → homeByte t (128 * line + i) = homeByte s (128 * line + i)) := by
  intro r t
  by_cases hdirty : r.dirty = 0
  · have hz : r.dirty.getLsbD i ≠ true := by
      rw [hdirty]
      exact fun h => by simp at h
    have ht : t = s := if_pos hdirty
    exact ⟨fun h => absurd h hz, fun h => absurd h hz, fun _ _ => by rw [ht]⟩
  have ht (a : Nat) : homeByte t a = homeByte (rdcBackSec r line (rdcBackSec r line s 0) 1) a ∧
      homeBad t a = homeBad (rdcBackSec r line (rdcBackSec r line s 0) 1) a := by
    rw [show t = _ from rdcWriteBack_of_dirty hdirty]
    exact ⟨rfl, rfl⟩
  rw [(ht _).1, (ht _).2]
  obtain hs | hs : i / 64 = 0 ∨ i / 64 = 1 := by omega
  · have hlater := rdcBackSec_onlySector (r := r) (line := line) (sec := 1) (s := rdcBackSec r line s 0)
      ((128 * line + i) / 64) (by omega)
    have h := homeByte_rdcBackSec (r := r) (line := line) (sec := 0) (s := s) (k := i) (by omega) hm (by omega)
    rw [hlater.homeByte, hlater.homeBad, hs]
    rw [show 64 * 0 + i = i by omega, show 128 * line + 64 * 0 + i = 128 * line + i by omega] at h
    exact h
  · have hbefore := rdcBackSec_onlySector (r := r) (line := line) (sec := 0) (s := s) ((128 * line + i) / 64) (by omega)
    have h := homeByte_rdcBackSec (r := r) (line := line) (sec := 1) (s := rdcBackSec r line s 0) (k := i - 64)
      (by omega) hm (by omega)
    rw [show 64 * 1 + (i - 64) = i by omega, show 128 * line + 64 * 1 + (i - 64) = 128 * line + i by omega,
      hbefore.homeByte, hbefore.homeBad] at h
    rw [hs]
    exact h

/-- The line at the RDC after its write-back: clean, and as it was where it is held. -/
theorem rdcGet_rdcWriteBack (s : State) (d line : Nat) :
    (rdcGet (rdcWriteBack s d line) d line).dirty = 0 ∧
    (rdcGet (rdcWriteBack s d line) d line).valid = (rdcGet s d line).valid ∧
    ((rdcGet s d line).valid ≠ 0 → (rdcGet (rdcWriteBack s d line) d line).data = (rdcGet s d line).data) := by
  by_cases hd : (rdcGet s d line).dirty = 0
  · rw [show rdcWriteBack s d line = s from if_pos hd]
    exact ⟨hd, rfl, fun _ => rfl⟩
  · rw [rdcWriteBack_of_dirty hd, rdcGet_rdcPut_self]
    split
    · next hv => exact ⟨rfl, hv.symm, fun h => absurd hv h⟩
    · exact ⟨rfl, rfl, fun _ => rfl⟩

theorem rdcWriteback_writes {s : State} {die loc : Nat} (hh : lineHeld s loc 1 = false) (hm : inMgmt loc = false) :
    ∃ t, exec (.rdcWriteback die loc) s = .next t ∧
      let r := rdcGet s die (loc / 128)
      let z := rdcGet t die (loc / 128)
      z.dirty = 0 ∧ z.valid = r.valid ∧ (r.valid ≠ 0 → z.data = r.data) ∧
      ∀ i < 128,
        (r.dirty.getLsbD i = true → r.poison.getLsbD (i / 64) = false →
          ((homeRead s (loc / 128 * 128 + i) 1).2.2 = false ∨ r.whole.getLsbD (i / 64) = true) →
          (homeRead t (loc / 128 * 128 + i) 1).2.1 = [lineByte r.data i]) ∧
        (r.dirty.getLsbD i = true → r.poison.getLsbD (i / 64) = true → (homeRead t (loc / 128 * 128 + i) 1).2.2 = true) ∧
        (r.dirty.getLsbD i = false → r.whole.getLsbD (i / 64) = false →
          (homeRead t (loc / 128 * 128 + i) 1).2.1 = (homeRead s (loc / 128 * 128 + i) 1).2.1) := by
  have hstep : exec (.rdcWriteback die loc) s = .next (rdcWriteBack s die (loc / 128)) := by
    change Host.Outcome.next (rdcBackStep die loc s) = _
    rw [rdcBackStep, hh]
    by_cases hd : (rdcGet s die (loc / 128)).dirty = 0
    · rw [if_pos hd, show rdcWriteBack s die (loc / 128) = s from if_pos hd]
    · rw [if_neg hd]
      rfl
  obtain ⟨hdirty, hvalid, hdata⟩ := rdcGet_rdcWriteBack s die (loc / 128)
  refine ⟨_, hstep, hdirty, hvalid, hdata, fun i hi => ?_⟩
  have hm' : inMgmt (128 * (loc / 128)) = false := by rw [inMgmt_line, hm]
  simp only [homeRead_one, Nat.mul_comm (loc / 128), List.cons.injEq, and_true]
  exact homeByte_rdcWriteBack hm' hi

/-! ### Fills of L1 (R105) -/

@[simp] theorem l1Resolve_front (s : State) (c line off n : Nat) (l : L1Line) :
    (l1Resolve s c line off n l).1.front = s.front := by
  unfold l1Resolve
  split
  · rfl
  · refine (front_foldl (fun s w => ?_) _ _).trans (front_foldl (fun s w => ?_) _ _) <;> rfl

/-- What L1 holds of a line whose errors a read resolves: its bytes as they were (R121). -/
theorem l1Get_l1Resolve {s : State} {c line : Nat} {l : L1Line} (off n : Nat) (h : l1Get s c line = some l) :
    ∃ l', l1Get (l1Resolve s c line off n l).1 c line = some l' ∧ l'.data = l.data := by
  unfold l1Resolve
  split
  · exact ⟨l, h, rfl⟩
  · exact ⟨_, Assoc.get?_put_self .., rfl⟩

theorem loadLine_of_held {s : State} {c line : Nat} {l : L1Line} (h : l1Get s c line = some l) :
    (loadLine s c (128 * line) 1 true 0).1 = (l1Resolve s c line 0 1 l).1 := by
  have hline : 128 * line / 128 = line := by omega
  have hoff : 128 * line % 128 = 0 := by omega
  simp [loadLine, hline, hoff, bypassRdc, noRdc, noL1, l1Serves, h]

theorem loadLine_of_absent {s : State} {c line : Nat} (h : l1Get s c line = none) :
    let z := lowerLine s (coreDie c) line true 0
    (loadLine s c (128 * line) 1 true 0).1 = { z.1 with l1 := Assoc.put z.1.l1 (key2 c line) ⟨z.2.1, z.2.2, []⟩ } := by
  have hline : 128 * line / 128 = line := by omega
  simp [loadLine, hline, bypassRdc, noRdc, noL1, l1Serves, h]

/-- A byte of the line read below L1: a remote one's from the RDC, else the home's (R101). -/
theorem lineByte_lowerLine (s : State) (d line : Nat) {i : Nat} (hi : i < 128) :
    lineByte (lowerLine s d line true 0).2.1 i =
      if isRemote d (128 * line) = true ∧ ((rdcGet s d line).valid = BitVec.allOnes 128 ∨ (rdcGet s d line).dirty.getLsbD i = true)
      then lineByte (rdcGet s d line).data i
      else homeByte (hostShare s (if isRemote d (128 * line) = true then d else 4) (128 * line)) (128 * line + i) := by
  cases hr : isRemote d (128 * line)
  · have hl : lowerLine s d line true 0 = homeLine (hostShare s 4 (128 * line)) line := by simp [lowerLine, hr]
    rw [hl, lineByte_homeLine _ _ hi]
    simp
  · have hl : lowerLine s d line true 0 = ((rdcFillLine s d line).1, (rdcFillLine s d line).2.data, (rdcFillLine s d line).2.poison) := by
      simp [lowerLine, hr, noRdc]
    rw [hl]
    by_cases hv : (rdcGet s d line).valid = BitVec.allOnes 128
    · rw [rdcFillLine_of_valid hv, if_pos ⟨rfl, .inl hv⟩]
    · rw [rdcFillLine_of_invalid hv, if_pos rfl]
      exact (lineByte_filledRdc s d line hi).trans
        (if_congr ⟨fun h => ⟨rfl, .inr h⟩, fun h => h.2.resolve_left hv⟩ rfl rfl)

theorem l1Fill_fills {s : State} {core loc : Nat} (hh : lineHeld s loc 1 = false) (hm : inMgmt loc = false)
    (hk : l1Locked s core (loc / 128) = false)
    (hp : ∀ p ∈ s.pend, p.core = core → ∀ a m, p.span = some (a, m) → overlap a m (128 * (loc / 128)) 128 = false) :
    let r := rdcGet s (coreDie core) (loc / 128)
    let u := hostShare s (if isRemote (coreDie core) loc = true then coreDie core else 4) (loc / 128 * 128)
    (cachedPage s loc = false → exec (.l1Fill core loc) s = .next s) ∧
    (cachedPage s loc = true → l1Get s core (loc / 128) = none →
      ∃ t l, exec (.l1Fill core loc) s = .next t ∧ SameGroups s t ∧ l1Get t core (loc / 128) = some l ∧
        ∀ i < 128, [lineByte l.data i] =
          if isRemote (coreDie core) loc = true ∧ (r.valid = BitVec.allOnes 128 ∨ r.dirty.getLsbD i = true)
          then [lineByte r.data i] else (homeRead u (loc / 128 * 128 + i) 1).2.1) ∧
    (cachedPage s loc = true → ∀ l, l1Get s core (loc / 128) = some l → ∃ t l', exec (.l1Fill core loc) s = .next t ∧
      SameGroups s t ∧ l1Get t core (loc / 128) = some l' ∧ l'.data = l.data) := by
  intro r u
  have hexec : exec (.l1Fill core loc) s =
      .next (if !cachedPage s loc then s else (loadLine s core (128 * (loc / 128)) 1 true 0).1) := by
    change Host.Outcome.next (l1FillStep core loc s) = _
    refine congrArg Host.Outcome.next ?_
    cases hc : cachedPage s loc
    · exact if_pos (by simp [hc])
    · refine if_neg ?_
      simp only [hh, hm, hk, hc, Bool.false_or, Bool.not_true, List.any_eq_true, Bool.and_eq_true, beq_iff_eq]
      rintro ⟨p, hmem, hcore, hov⟩
      split at hov
      · next a m ham => rw [hp p hmem hcore a m ham] at hov; cases hov
      · cases hov
  have hrem : isRemote (coreDie core) loc = isRemote (coreDie core) (128 * (loc / 128)) := by
    have hdie : dieOf (128 * (loc / 128)) = dieOf loc := by unfold dieOf; omega
    rw [isRemote, isRemote, isDev_line, hdie]
  have hu : u = hostShare s (if isRemote (coreDie core) loc = true then coreDie core else 4) (128 * (loc / 128)) := by
    rw [Nat.mul_comm]
  refine ⟨fun hc => by rw [hexec, hc]; rfl, fun hc hn => ?_, fun hc l hl => ?_⟩
  · have hstep := hexec
    rw [hc, Bool.not_true, if_neg Bool.false_ne_true, loadLine_of_absent hn] at hstep
    refine ⟨_, _, hstep, sameGroups_of_front ?_, Assoc.get?_put_self .., fun i hi => ?_⟩
    · exact lowerLine_front ..
    · dsimp only
      rw [lineByte_lowerLine _ _ _ hi, homeRead_one, ← hrem, Nat.mul_comm (loc / 128), hu]
      split <;> rfl
  · obtain ⟨l', hl', hdata⟩ := l1Get_l1Resolve 0 1 hl
    refine ⟨_, l', ?_, sameGroups_of_front (l1Resolve_front s core (loc / 128) 0 1 l), hl', hdata⟩
    rw [hexec, hc, loadLine_of_held hl]
    rfl

/-! ### Accepted media writes (R92, R114) -/

theorem l2CleanSec_front (s : State) (line sec : Nat) : (l2CleanSec s line sec).front = s.front := by
  unfold l2CleanSec
  exact ite_front rfl rfl

theorem l2Clean_front (s : State) (line : Nat) : (l2Clean s line).front = s.front :=
  (l2CleanSec_front ..).trans (l2CleanSec_front ..)

/-- Lines cleaned one after another: those of the list are clean, and their dirty sectors are in media. -/
theorem foldl_l2Clean (ls : List Nat) (s : State) (line : Nat) :
    l2Get (ls.foldl l2Clean s) line = (if line ∈ ls then { l2Get s line with dirty := 0 } else l2Get s line) ∧
    ∀ sec < 2, memBytes (ls.foldl l2Clean s).mem (128 * line + 64 * sec) 64 =
      if line ∈ ls ∧ (l2Get s line).dirty.getLsbD sec = true then lineBytes (l2Get s line).data (64 * sec) 64
      else memBytes s.mem (128 * line + 64 * sec) 64 := by
  induction ls generalizing s with
  | nil => simp
  | cons k ls ih =>
    obtain ⟨hl, hm⟩ := ih (l2Clean s k)
    rw [List.foldl_cons]
    by_cases hk : line = k
    · subst hk
      have hg : l2Get (l2Clean s line) line = { l2Get s line with dirty := 0 } := by rw [l2Get_l2Clean, if_pos rfl]
      refine ⟨?_, fun sec hs => ?_⟩
      · rw [hl, hg]
        simp
      · rw [hm sec hs, hg, memBytes_l2Clean _ _ _ hs]
        simp
    · have hg : l2Get (l2Clean s k) line = l2Get s line := by rw [l2Get_l2Clean, if_neg hk]
      refine ⟨?_, fun sec hs => ?_⟩
      · rw [hl, hg]
        simp [hk]
      · rw [hm sec hs, hg, memBytes_l2Clean _ _ _ hs]
        simp [hk]

end Sys2Proof.Machine
end

section
/-! SUPPORT. What no access to a home or an RDC changes: all of the state above them (O31, O56). -/

namespace Sys2Proof.Machine

/-- The state without media, their errors and counts, the L2, the RDCs, the event log and the teams, whose monitors a write
may fire. -/
def State.aboveHomes (s : State) : State :=
  { s with mem := [], ecc := [], rowErrs := [], rowBad := [], chErrs := [], l2 := [], rdc := [], log := [], elHead := 0
           teams := [] }

theorem aboveHomes_foldl {α : Type} {f : State → α → State} (h : ∀ s x, (f s x).aboveHomes = s.aboveHomes) (l : List α)
    (s : State) : (l.foldl f s).aboveHomes = s.aboveHomes := by
  induction l generalizing s with
  | nil => rfl
  | cons x l ih => exact (ih _).trans (h s x)

@[simp] theorem logEvent_aboveHomes (s : State) (c d x : Nat) : (logEvent s c d x).aboveHomes = s.aboveHomes := rfl
@[simp] theorem setSectorEcc_aboveHomes (s : State) (n : Nat) (e : Option Ecc) :
    (setSectorEcc s n e).aboveHomes = s.aboveHomes := rfl
@[simp] theorem l2Put_aboveHomes (s : State) (n : Nat) (l : L2Line) : (l2Put s n l).aboveHomes = s.aboveHomes := rfl
@[simp] theorem fire_aboveHomes (b : Bool) (n : Nat) (s : State) : (fire b n s).aboveHomes = s.aboveHomes := rfl
@[simp] theorem rdcPut_aboveHomes (s : State) (d n : Nat) (r : RdcLine) : (rdcPut s d n r).aboveHomes = s.aboveHomes := rfl

@[simp] theorem correctSector_aboveHomes (s : State) (n : Nat) : (correctSector s n).aboveHomes = s.aboveHomes := by
  refine aboveHomes_foldl (fun s x => ?_) _ _
  rfl

@[simp] theorem keepRow_aboveHomes (s : State) (n : Nat) : (keepRow s n).aboveHomes = s.aboveHomes := rfl

@[simp] theorem resolveSector_aboveHomes (s : State) (n : Nat) : (resolveSector s n).1.aboveHomes = s.aboveHomes := by
  rw [resolveSector_eq]
  split <;> simp

@[simp] theorem l2Fill_aboveHomes (s : State) (n i : Nat) : (l2Fill s n i).1.aboveHomes = s.aboveHomes := by
  cases h : (l2Get s n).valid.getLsbD i
  · simp [l2Fill_of_invalid h]
  · rw [l2Fill_of_valid h]

@[simp] theorem homeLine_aboveHomes (s : State) (n : Nat) : (homeLine s n).1.aboveHomes = s.aboveHomes := by
  unfold homeLine
  split
  · rfl
  · split
    · simp [l2FillLine]
    · rfl

@[simp] theorem l2Write_aboveHomes (s : State) (a : Nat) (bs : List Byte) : (l2Write s a bs).aboveHomes = s.aboveHomes := by
  have hb : (writeBase s a bs).aboveHomes = s.aboveHomes := by
    unfold writeBase
    split <;> simp
  rw [l2Write_eq, fire_aboveHomes]
  split <;> simp [hb]

@[simp] theorem homeWrite_aboveHomes (s : State) (a : Nat) (bs : List Byte) :
    (homeWrite s a bs).aboveHomes = s.aboveHomes := by
  refine aboveHomes_foldl (fun s x => ?_) _ _
  dsimp only
  split
  · rfl
  · split
    · exact l2Write_aboveHomes ..
    · repeat' split
      all_goals rfl

@[simp] theorem homePoison_aboveHomes (s : State) (a n : Nat) : (homePoison s a n).aboveHomes = s.aboveHomes := by
  refine aboveHomes_foldl (fun s x => ?_) _ _
  dsimp only
  split <;> simp

@[simp] theorem rdcBackSec_aboveHomes (r : RdcLine) (n : Nat) (s : State) (i : Nat) :
    (rdcBackSec r n s i).aboveHomes = s.aboveHomes := by
  rw [rdcBackSec_eq]
  repeat' split
  · rfl
  · simp
  · simp
  · simp
  · exact aboveHomes_foldl (fun _ _ => homeWrite_aboveHomes ..) _ _

@[simp] theorem rdcWriteBack_aboveHomes (s : State) (d n : Nat) : (rdcWriteBack s d n).aboveHomes = s.aboveHomes := by
  by_cases h : (rdcGet s d n).dirty = 0
  · rw [show rdcWriteBack s d n = s from if_pos h]
  · simp [rdcWriteBack_of_dirty h]

@[simp] theorem hostShare_aboveHomes (s : State) (d a : Nat) : (hostShare s d a).aboveHomes = s.aboveHomes := by
  unfold hostShare
  split
  · exact aboveHomes_foldl (fun _ _ => rdcWriteBack_aboveHomes ..) _ _
  · rfl

@[simp] theorem rdcFillLine_aboveHomes (s : State) (d n : Nat) : (rdcFillLine s d n).1.aboveHomes = s.aboveHomes := by
  by_cases h : (rdcGet s d n).valid = BitVec.allOnes 128
  · rw [rdcFillLine_of_valid h]
  · simp [rdcFillLine_of_invalid h]

@[simp] theorem lowerLine_aboveHomes (s : State) (d n : Nat) (b : Bool) (ch : Nat) :
    (lowerLine s d n b ch).1.aboveHomes = s.aboveHomes := by
  unfold lowerLine
  dsimp only
  repeat' split
  all_goals simp

end Sys2Proof.Machine
end

section
/-! SUPPORT. The base-die controllers (O31): accepted media writes, scrubs and spares. -/

namespace Sys2Proof.Machine

open Claims

/-! ### Accepted media writes (R92, R114) -/

/-- An entry that is read is listed. -/
theorem mem_keys_of_get? {α : Type} {m : Assoc α} {k : Nat} {v : α} (h : Assoc.get? m k = some v) : k ∈ m.map (·.1) := by
  induction m with
  | nil => cases h
  | cons x m ih =>
    by_cases hk : k = x.1
    · exact hk ▸ List.mem_cons_self
    · exact List.mem_cons_of_mem _ (ih ((if_neg hk).symm.trans h))

/-- The lines of a range, as an accepted media write takes them. -/
theorem inPieces_lines {loc n line : Nat} : inPieces [(loc / 128 * 128, roundUp (loc + n) 128 - loc / 128 * 128)] line = true ↔
    loc / 128 ≤ line ∧ 128 * line < loc + n := by
  simp only [inPieces, roundUp, List.any_cons, List.any_nil, Bool.or_false, decide_eq_true_eq]
  omega

/-- The L2 lines that an accepted media write cleans. -/
def mediaLines (s : State) (loc n : Nat) : List Nat :=
  (s.l2.filter fun x => inPieces [(loc / 128 * 128, roundUp (loc + n) 128 - loc / 128 * 128)] x.1).map (·.1)

theorem mem_mediaLines {s : State} {loc n line : Nat} : line ∈ mediaLines s loc n ↔
    line ∈ s.l2.map (·.1) ∧ loc / 128 ≤ line ∧ 128 * line < loc + n := by
  simp only [mediaLines, List.mem_map, List.mem_filter, inPieces_lines]
  constructor
  · rintro ⟨x, ⟨hx, hr⟩, rfl⟩
    exact ⟨⟨x, hx, rfl⟩, hr⟩
  · rintro ⟨⟨x, hx, rfl⟩, hr⟩
    exact ⟨x, ⟨hx, hr⟩, rfl⟩

/-- A line that a slice does not list is clean. -/
theorem l2Get_of_not_listed {s : State} {line : Nat} (h : line ∉ s.l2.map (·.1)) : l2Get s line = ⟨0, 0, 0, 0⟩ := by
  have hn : Assoc.get? s.l2 line = none := Option.eq_none_iff_forall_not_mem.mpr fun _ hv => h (mem_keys_of_get? hv)
  rw [l2Get, hn]
  rfl

theorem controllerAccept_cleans {s : State} {id : Nat} {p : Pend} {loc n : Nat} (hp : s.pend? id = some p)
    (hk : p.kind = .media loc n) : ∃ t, exec (.controllerAccept id) s = .next t ∧
      t.pend = s.pend.filter (fun q => q.id ≠ id) ∧ SameGroups s t ∧
      ∀ line,
        (loc / 128 ≤ line ∧ 128 * line < loc + n → (l2Get t line).dirty = 0 ∧
          ∀ sec < 2, (l2Get s line).dirty.getLsbD sec = true →
            memBytes t.mem (128 * line + 64 * sec) 64 = lineBytes (l2Get s line).data (64 * sec) 64) ∧
        (∀ sec < 2, ¬(loc / 128 ≤ line ∧ 128 * line < loc + n ∧ (l2Get s line).dirty.getLsbD sec = true) →
          memBytes t.mem (128 * line + 64 * sec) 64 = memBytes s.mem (128 * line + 64 * sec) 64) := by
  have hstep : exec (.controllerAccept id) s = .next (unpost id ((mediaLines s loc n).foldl l2Clean s)) := by
    change Host.Outcome.next (mediaStep id s) = _
    simp only [mediaStep, hp, hk, mediaLines, List.foldl_map]
  have hf : ((mediaLines s loc n).foldl l2Clean s).front = s.front := front_foldl l2Clean_front _ _
  refine ⟨_, hstep, ?_, fun g => (congrArg _ (groupOf_unpost id _ g)).trans (sameGroups_of_front hf g), fun line => ?_⟩
  · exact congrArg (List.filter _) (congrArg Front.pend hf)
  · obtain ⟨hl, hm⟩ := foldl_l2Clean (mediaLines s loc n) s line
    refine ⟨fun hr => ⟨?_, fun sec hs hd => ?_⟩, fun sec hs hn => ?_⟩
    · change (l2Get (List.foldl l2Clean s (mediaLines s loc n)) line).dirty = 0
      rw [hl]
      split
      · rfl
      · next h => rw [l2Get_of_not_listed fun hc => h (mem_mediaLines.mpr ⟨hc, hr⟩)]
    · refine (hm sec hs).trans (if_pos ⟨mem_mediaLines.mpr ⟨?_, hr⟩, hd⟩)
      by_contra hc
      rw [l2Get_of_not_listed hc] at hd
      exact absurd (BitVec.getLsbD_zero.symm.trans hd) Bool.false_ne_true
    · exact (hm sec hs).trans (if_neg fun h => hn ⟨(mem_mediaLines.mp h.1).2.1, (mem_mediaLines.mp h.1).2.2, h.2⟩)

/-! ### Scrubs (R86, R89, R90) -/

/-- The latest record of the event log. -/
def LastEvent (s : State) (code die data : Nat) : Prop :=
  ∃ x l, s.log = x :: l ∧ x.code = BitVec.ofNat 8 code ∧ x.die = BitVec.ofNat 8 die ∧ x.data = BitVec.ofNat 64 data

theorem lastEvent_logEvent (s : State) (code die data : Nat) : LastEvent (logEvent s code die data) code die data :=
  ⟨_, _, rfl, rfl, rfl, rfl⟩

/-- The row of a sector, as errors are counted by it. -/
def rowKey (n : Nat) : Nat := key2 (stackOf (64 * n)) (Config.rowOf (stackOf (64 * n)) (stackAddr (64 * n) / 64))
/-- The channel of a sector, as errors are counted by it. -/
def chKey (n : Nat) : Nat := key2 (stackOf (64 * n)) (Config.channelOf (stackOf (64 * n)) (stackAddr (64 * n) / 64))
/-- The words of a sector that have a single error. -/
def singleWords (s : State) (n : Nat) : List (Nat × Option Ecc) := (sectorEcc s n).filter fun e => e.2 == some .single

theorem singleWords_length (s : State) (n : Nat) : (singleWords s n).length =
    ((List.range 8).filter fun i => Assoc.get? s.ecc (8 * n + i) == some .single).length := by
  rw [singleWords, sectorEcc, List.filter_map, List.length_map]
  rfl

/-- What correcting a sector counts and logs (R86, R90). -/
structure Counted (s t : State) (n k : Nat) : Prop where
  head : t.elHead = s.elHead + BitVec.ofNat 32 k
  rows : ∀ j, Assoc.rd 0 t.rowErrs j = Assoc.rd 0 s.rowErrs j + if j = rowKey n then k else 0
  channels : ∀ j, Assoc.rd 0 t.chErrs j = Assoc.rd 0 s.chErrs j + if j = chKey n then k else 0
  last : (LastEvent s 0x07 (dieOf (64 * n)) (stackAddr (64 * n)) ∨ 0 < k) →
    LastEvent t 0x07 (dieOf (64 * n)) (stackAddr (64 * n))
  rowBad : t.rowBad = s.rowBad

theorem counted_countRow (s : State) (n w : Nat) :
    Counted s (countRow { s with ecc := Assoc.del s.ecc w } (64 * n)) n 1 where
  head := rfl
  rows j := by
    change Assoc.rd 0 (Assoc.put s.rowErrs (rowKey n) (Assoc.rd 0 s.rowErrs (rowKey n) + 1)) j = _
    rw [Assoc.rd_put]
    split <;> simp [*]
  channels j := by
    change Assoc.rd 0 (Assoc.put s.chErrs (chKey n) (Assoc.rd 0 s.chErrs (chKey n) + 1)) j = _
    rw [Assoc.rd_put]
    split <;> simp [*]
  last _ := lastEvent_logEvent ..
  rowBad := rfl

theorem Counted.trans {s t u : State} {n j k : Nat} (h : Counted s t n j) (h' : Counted t u n k) : Counted s u n (j + k) where
  head := by rw [h'.head, h.head, BitVec.ofNat_add, BitVec.add_assoc]
  rows i := by rw [h'.rows, h.rows]; split <;> omega
  channels i := by rw [h'.channels, h.channels]; split <;> omega
  last hl := h'.last (by
    rcases hl with hl | hl
    · exact .inl (h.last (.inl hl))
    · by_cases hj : 0 < j
      · exact .inl (h.last (.inr hj))
      · exact .inr (by omega))
  rowBad := h'.rowBad.trans h.rowBad

theorem counted_correctSector (s : State) (n : Nat) : Counted s (correctSector s n) n (singleWords s n).length := by
  unfold correctSector
  change Counted s ((singleWords s n).foldl _ s) n _
  generalize singleWords s n = l
  induction l generalizing s with
  | nil => exact ⟨(BitVec.add_zero _).symm, fun j => by simp, fun j => by simp, fun h => h.resolve_right (by simp), rfl⟩
  | cons x l ih =>
    rw [List.foldl_cons, List.length_cons, Nat.add_comm]
    exact (counted_countRow s n x.1).trans (ih _)

/-- The entry at a key after the entries are kept whose keys a test passes. -/
theorem rd_filter_keys {α : Type} (d : α) (p : Nat → Bool) (m : Assoc α) (j : Nat) :
    Assoc.rd d (m.filter fun x => p x.1) j = if p j = true then Assoc.rd d m j else d := by
  have h : Assoc.get? (m.filter fun x => p x.1) j = if p j = true then Assoc.get? m j else none := by
    induction m with
    | nil => simp
    | cons x m ih =>
      obtain ⟨k, v⟩ := x
      cases hp : p k
      · rw [List.filter_cons_of_neg (by simp [hp]), ih]
        split
        · next hj => exact (if_neg fun hk => by rw [hk, hp] at hj; cases hj).symm
        · rfl
      · rw [List.filter_cons_of_pos (p := fun x : Nat × α => p x.1) hp]
        simp only [Assoc.get?, ih]
        by_cases hk : j = k
        · simp [hk, hp]
        · simp [hk]
  unfold Assoc.rd
  rw [h]
  split <;> rfl

/-- A scrub's state before its sector is read: a stack's first sector begins a pass (R89, R90). -/
def scrubBase (s : State) (n : Nat) : State :=
  if stackAddr (64 * n) = 0 then beginPass (stackOf (64 * n)) s else s

/-- A pass that begins counts its stack's errors anew, and changes neither bytes nor errors nor the log. -/
structure PassBegun (s t : State) (a sk : Nat) : Prop where
  mem : t.mem = s.mem
  ecc : t.ecc = s.ecc
  elHead : t.elHead = s.elHead
  rows : ∀ k, Assoc.rd 0 t.rowErrs k = if a = 0 ∧ k / 2 ^ 64 = sk then 0 else Assoc.rd 0 s.rowErrs k
  channels : ∀ k, Assoc.rd 0 t.chErrs k = if a = 0 ∧ k / 2 ^ 64 = sk then 0 else Assoc.rd 0 s.chErrs k
  period : a = 0 → (t.die (sk / 3)).scrubNow = (s.die (sk / 3)).scrub

theorem passBegun_scrubBase (s : State) (n : Nat) : PassBegun s (scrubBase s n) (stackAddr (64 * n)) (stackOf (64 * n)) := by
  unfold scrubBase
  split
  · next ha =>
    have hrd (m : Assoc Nat) (k : Nat) : Assoc.rd 0 (m.filter fun x => decide (x.1 / 2 ^ 64 ≠ stackOf (64 * n))) k =
        if stackAddr (64 * n) = 0 ∧ k / 2 ^ 64 = stackOf (64 * n) then 0 else Assoc.rd 0 m k := by
      rw [rd_filter_keys 0 (fun k => decide (k / 2 ^ 64 ≠ stackOf (64 * n)))]
      simp [ha]
    exact ⟨rfl, rfl, rfl, hrd _, hrd _, fun _ => congrArg Die.scrubNow (State.die_setDie_self ..)⟩
  · next ha => exact ⟨rfl, rfl, rfl, fun k => by simp [ha], fun k => by simp [ha], fun h => absurd h ha⟩

/-- What a resolved sector's double error leaves: a record of the error, and the row kept for sparing (R86, R90). -/
theorem resolveSector_of_double {s : State} {n : Nat} (h : hasError s n .double = true) : (resolveSector s n).1 =
    logEvent (setSectorEcc (keepRow (correctSector s n) n) n (some .poison)) 0x08 (dieOf (64 * n)) (stackAddr (64 * n)) := by
  rw [resolveSector_eq, if_pos h]

theorem resolveSector_of_no_double {s : State} {n : Nat} (h : hasError s n .double = false) :
    (resolveSector s n).1 = correctSector s n := by
  rw [resolveSector_eq, if_neg (by rw [h]; exact Bool.false_ne_true)]

/-- A resolved sector has neither single nor double errors (R86). -/
theorem get?_resolveSector_self (s : State) {n w : Nat} (hw : w / 8 = n) :
    Assoc.get? (resolveSector s n).1.ecc w = none ∨ Assoc.get? (resolveSector s n).1.ecc w = some .poison := by
  rw [get?_resolveSector, if_neg (not_not.mpr hw)]
  split
  · exact .inr rfl
  · next hd =>
    split
    · exact .inl rfl
    · next hs =>
      cases he : Assoc.get? s.ecc w with
      | none => exact .inl rfl
      | some x =>
        cases x with
        | single => exact absurd he hs
        | double => exact absurd (hasError_iff.mpr ⟨w % 8, by omega, by rw [show 8 * n + w % 8 = w by omega, he]⟩) hd
        | poison => exact .inr rfl

theorem keepRow_contains (s : State) (n : Nat) : (keepRow s n).rowBad.contains (rowKey n) = true := by
  change (if s.rowBad.contains (rowKey n) then s.rowBad else rowKey n :: s.rowBad).contains (rowKey n) = true
  split
  · assumption
  · simp

/-- The corrected errors of a resolved sector are counted (R86, R90). -/
theorem resolveSector_counts (s : State) (n : Nat) :
    (∀ j, Assoc.rd 0 (resolveSector s n).1.rowErrs j =
      Assoc.rd 0 s.rowErrs j + if j = rowKey n then (singleWords s n).length else 0) ∧
    ∀ j, Assoc.rd 0 (resolveSector s n).1.chErrs j =
      Assoc.rd 0 s.chErrs j + if j = chKey n then (singleWords s n).length else 0 := by
  have hc := counted_correctSector s n
  cases h : hasError s n .double
  · rw [resolveSector_of_no_double h]
    exact ⟨hc.rows, hc.channels⟩
  · rw [resolveSector_of_double h]
    exact ⟨hc.rows, hc.channels⟩

theorem die_of_aboveHomes {s t : State} (h : t.aboveHomes = s.aboveHomes) (d : Nat) : t.die d = s.die d := by
  have hd : t.aboveHomes.dies = s.aboveHomes.dies := congrArg State.dies h
  change t.dies = s.dies at hd
  rw [State.die, hd]
  rfl

theorem patrolScrub_resolves {s : State} {sec : Nat} (hd : isDev (64 * sec) = true) (hb : backed s (64 * sec) = true) :
    let a := stackAddr (64 * sec)
    let sk := stackOf (64 * sec)
    let n := ((List.range 8).filter fun i => Assoc.get? s.ecc (8 * sec + i) == some .single).length
    ∃ t, exec (.patrolScrub sec) s = .next t ∧ t.mem = s.mem ∧
      (∀ i < 8, Assoc.get? t.ecc (8 * sec + i) ≠ some .single) ∧
      (∀ w, w / 8 ≠ sec → Assoc.get? t.ecc w = Assoc.get? s.ecc w) ∧
      (∀ i < 8, Assoc.get? s.ecc (8 * sec + i) = some .double →
        (∀ j < 8, Assoc.get? t.ecc (8 * sec + j) = some .poison) ∧
        t.rowBad.contains (key2 sk (Config.rowOf sk (a / 64))) = true ∧
        t.elHead = s.elHead + BitVec.ofNat 32 (n + 1) ∧
        ∃ x l, t.log = x :: l ∧ x.code = 0x08 ∧ x.die = BitVec.ofNat 8 (dieOf (64 * sec)) ∧ x.data = BitVec.ofNat 64 a) ∧
      ((∀ i < 8, Assoc.get? s.ecc (8 * sec + i) ≠ some .double) → t.elHead = s.elHead + BitVec.ofNat 32 n ∧
        (0 < n → ∃ x l, t.log = x :: l ∧ x.code = 0x07 ∧ x.die = BitVec.ofNat 8 (dieOf (64 * sec)) ∧
          x.data = BitVec.ofNat 64 a)) ∧
      (∀ k, Assoc.rd 0 t.rowErrs k = (if a = 0 ∧ k / 2 ^ 64 = sk then 0 else Assoc.rd 0 s.rowErrs k) +
        if k = key2 sk (Config.rowOf sk (a / 64)) then n else 0) ∧
      (∀ k, Assoc.rd 0 t.chErrs k = (if a = 0 ∧ k / 2 ^ 64 = sk then 0 else Assoc.rd 0 s.chErrs k) +
        if k = key2 sk (Config.channelOf sk (a / 64)) then n else 0) ∧
      (a = 0 → (t.die (sk / 3)).scrubNow = (s.die (sk / 3)).scrub) := by
  intro a sk n
  have hstep : exec (.patrolScrub sec) s = .next (resolveSector (scrubBase s sec) sec).1 := by
    change Host.Outcome.next (scrubStep sec s) = _
    rw [scrubStep, hd, hb]
    rfl
  have hbase := passBegun_scrubBase s sec
  have hc := counted_correctSector (scrubBase s sec) sec
  obtain ⟨hrows, hchannels⟩ := resolveSector_counts (scrubBase s sec) sec
  have hn : (singleWords (scrubBase s sec) sec).length = n := by
    rw [singleWords_length, hbase.ecc]
  have hdouble : hasError (scrubBase s sec) sec .double = true ↔ ∃ i < 8, Assoc.get? s.ecc (8 * sec + i) = some .double := by
    rw [hasError_iff, hbase.ecc]
  rw [hn] at hc hrows hchannels
  refine ⟨_, hstep, (resolveSector_mem ..).trans hbase.mem, fun i hi h => ?_, fun w hw => ?_, fun i hi h => ?_,
    fun h => ?_, fun k => ?_, fun k => ?_, fun ha => ?_⟩
  · rcases get?_resolveSector_self (scrubBase s sec) (n := sec) (w := 8 * sec + i) (by omega) with hx | hx <;>
      rw [hx] at h <;> cases h
  · rw [get?_resolveSector, if_pos hw, hbase.ecc]
  · have hdb := hdouble.mpr ⟨i, hi, h⟩
    refine ⟨fun j hj => ?_, ?_, ?_, ?_⟩
    · rw [get?_resolveSector, if_neg (by omega), if_pos hdb]
    · rw [resolveSector_of_double hdb]
      exact keepRow_contains ..
    · rw [resolveSector_of_double hdb, BitVec.ofNat_add, ← BitVec.add_assoc, ← hbase.elHead]
      exact congrArg (· + 1) hc.head
    · rw [resolveSector_of_double hdb]
      exact lastEvent_logEvent ..
  · have hnd : hasError (scrubBase s sec) sec .double = false := by
      rw [Bool.eq_false_iff, ne_eq, hdouble]
      exact fun ⟨i, hi, hx⟩ => h i hi hx
    rw [resolveSector_of_no_double hnd]
    exact ⟨hc.head.trans (by rw [hbase.elHead]), fun hpos => hc.last (.inr hpos)⟩
  · rw [hrows, hbase.rows]
    rfl
  · rw [hchannels, hbase.channels]
    rfl
  · rw [die_of_aboveHomes (resolveSector_aboveHomes ..)]
    exact hbase.period ha

/-! ### Spares (R90, R93) -/

/-- Sectors resolved one after another change no byte. -/
theorem foldl_resolveSector_mem (ns : List Nat) (s : State) :
    (ns.foldl (fun s n => (resolveSector s n).1) s).mem = s.mem := by
  induction ns generalizing s with
  | nil => rfl
  | cons n ns ih => rw [List.foldl_cons, ih, resolveSector_mem]

/-- Sectors resolved one after another: a word has neither a single nor a double error where its sector was resolved, or
where it had none before. -/
theorem get?_foldl_resolveSector (ns : List Nat) {s : State} {w : Nat}
    (h : w / 8 ∈ ns ∨ Assoc.get? s.ecc w = none ∨ Assoc.get? s.ecc w = some .poison) :
    Assoc.get? (ns.foldl (fun s n => (resolveSector s n).1) s).ecc w = none ∨
      Assoc.get? (ns.foldl (fun s n => (resolveSector s n).1) s).ecc w = some .poison := by
  induction ns generalizing s with
  | nil => exact h.resolve_left List.not_mem_nil
  | cons n ns ih =>
    refine ih ?_
    by_cases hw : w / 8 = n
    · exact .inr (get?_resolveSector_self s hw)
    · rw [get?_resolveSector, if_pos hw]
      exact h.imp_left fun hm => (List.mem_cons.mp hm).resolve_left hw

theorem spareSectors_mem (stack : Nat) (among : Nat → Bool) (s : State) : (spareSectors stack among s).mem = s.mem :=
  foldl_resolveSector_mem ..

/-- A spare leaves no correctable error in the sectors it moves (R93). -/
theorem get?_spareSectors {stack : Nat} {among : Nat → Bool} (s : State) {w : Nat} (hd : isDev (8 * w) = true)
    (hs : stackOf (8 * w) = stack) (ha : among (stackAddr (8 * w) / 64) = true) :
    Assoc.get? (spareSectors stack among s).ecc w = none ∨ Assoc.get? (spareSectors stack among s).ecc w = some .poison := by
  refine get?_foldl_resolveSector _ ?_
  cases he : Assoc.get? s.ecc w with
  | none => exact .inr (.inl rfl)
  | some x =>
    obtain ⟨y, hy, rfl⟩ := List.mem_map.mp (mem_keys_of_get? he)
    refine .inl (List.mem_eraseDups.mpr (List.mem_filterMap.mpr ⟨y, hy, if_pos ?_⟩))
    simp [hd, hs, ha]

theorem rowFails_iff {s : State} {stack row : Nat} : rowFails s stack row = true ↔
    4 ≤ Assoc.rd 0 s.rowErrs (key2 stack row) ∨ s.rowBad.contains (key2 stack row) = true := by
  rw [rowFails, Bool.or_eq_true, decide_eq_true_eq]

theorem channelFails_iff {s : State} {stack ch : Nat} : channelFails s stack ch = true ↔
    (s.die (stack / 3)).chthr.toNat ≤ Assoc.rd 0 s.chErrs (key2 stack ch) ∧
    ∀ k ∈ s.spared, ¬(k / 2 ^ 64 = 256 + stack ∧ k % 2 ^ 64 / 32 = ch / 32) := by
  simp only [channelFails, Bool.and_eq_true, decide_eq_true_eq, List.all_eq_true, Bool.not_eq_true', Bool.and_eq_false_iff,
    beq_eq_false_iff_ne, not_and_or]

theorem rowSparing_of_fails {s : State} {stack row : Nat} (h : rowFails s stack row = true) :
    let t := spareSectors stack (fun sec => Config.rowOf stack sec == row) s
    exec (.rowSparing stack row) s = .next (logEvent { t with
      rowErrs := Assoc.del t.rowErrs (key2 stack row), rowBad := t.rowBad.filter (· ≠ key2 stack row),
      spared := if t.spared.contains (key2 stack row) then t.spared else key2 stack row :: t.spared } 0x03 (stack / 3)
      (stack + row * 2 ^ 8)) := by
  intro t
  change Host.Outcome.next (sparingStep stack row s) = _
  rw [sparingStep, h]
  rfl

theorem rowSparing_of_not_fails {s : State} {stack row : Nat} (h : rowFails s stack row = false) :
    exec (.rowSparing stack row) s = .next s := by
  change Host.Outcome.next (sparingStep stack row s) = _
  rw [sparingStep, h]
  rfl

theorem channelSparing_of_fails {s : State} {stack ch : Nat} (hs : stack < 12) (hc : ch < 512)
    (h : channelFails s stack ch = true) :
    let t := spareSectors stack (fun sec => Config.channelOf stack sec == ch) s
    exec (.channelSparing stack ch) s = .next (logEvent { t with
      chErrs := Assoc.del t.chErrs (key2 stack ch), spared := key2 (256 + stack) ch :: t.spared } 0x04 (stack / 3)
      (stack + ch * 2 ^ 8)) := by
  intro t
  change Host.Outcome.next (channelStep stack ch s) = _
  have hn : ¬ (12 ≤ stack ∨ 512 ≤ ch ∨ !channelFails s stack ch) := by simp [h, hs, hc]
  rw [channelStep, if_neg hn]

theorem channelSparing_of_not_fails {s : State} {stack ch : Nat} (h : channelFails s stack ch = false) :
    exec (.channelSparing stack ch) s = .next s := by
  change Host.Outcome.next (channelStep stack ch s) = _
  rw [channelStep, if_pos (.inr (.inr (by simp [h])))]

/-! ### The statement -/

/-- Settles O31, clause by clause from the lemmas above: a sector of the home by what a fill, a write or poison leaves of it. -/
theorem cachesAndControllers : Obligations.CachesAndControllers := by
  unfold Obligations.CachesAndControllers
  refine ⟨⟨fun s id p k d => remoteStl_performed, fun s loc => l2Fill_fills, fun s loc => l2Eviction_evicts,
    fun s die loc => rdcFill_fills, fun s die loc => rdcWriteback_writes, fun s core loc => l1Fill_fills⟩,
    fun s id p loc n => controllerAccept_cleans, fun s sec => patrolScrub_resolves, fun s stack row => rowFails_iff,
    fun s stack row h => ⟨spareSectors_mem .., fun w hd hs hr => get?_spareSectors s hd hs (beq_iff_eq.mpr hr),
      rowSparing_of_fails h⟩,
    fun s stack row => rowSparing_of_not_fails,
    fun s stack ch hs hc h => ⟨spareSectors_mem .., fun w hd hst hch => get?_spareSectors s hd hst (beq_iff_eq.mpr hch),
      channelSparing_of_fails hs hc h⟩,
    fun s stack ch => channelSparing_of_not_fails, fun s stack ch => channelFails_iff⟩

end Sys2Proof.Machine
end

section
/-! SUPPORT. Host and peer accesses at the home, snoops, and fills of an instruction cache (O56). -/

namespace Sys2Proof.Machine

/-! ### The host and peers (R110, R443, R444) -/

theorem hostLoc_of_lt (s : State) {loc : Nat} (h : loc < 2 ^ 64) : hostLoc s loc = some loc := if_pos h

/-- No home holds a line of a range for a Peridot request. -/
theorem any_peridotHolds_eq_false {s : State} {loc n : Nat} (h : ∀ x ∈ segs 128 loc n, peridotHolds s (x.1 / 128) = false) :
    ((segs 128 loc n).any fun (a, _) => peridotHolds s (a / 128)) = false := by
  rw [List.any_eq_false]
  exact fun x hx => ne_of_eq_of_ne (h x hx) Bool.false_ne_true

theorem hostWrite_of_devRange {s : State} {loc : Nat} {bs : List Byte} (p : Bool) (hl : loc < 2 ^ 64) (hb : bs ≠ [])
    (hm : isMgmt loc = false) (hd : devRange s loc bs.length = true)
    (hp : ∀ x ∈ segs 128 loc bs.length, peridotHolds s (x.1 / 128) = false) :
    exec (.hostWrite loc ⟨bs, p⟩) s = .next (linkWrite (giveUpLines loc bs.length s) loc bs p) := by
  change Host.Outcome.next (hostWriteStep loc bs p s) = _
  have hn : bs.length ≠ 0 := fun h => hb (List.length_eq_zero_iff.mp h)
  simp only [hostWriteStep, hostLoc_of_lt s hl, hm, hd, hn, any_peridotHolds_eq_false hp, Bool.false_eq_true, if_false, if_true]

/-- A read by the host that may cache enters its lines in the snoop filter (R443). -/
def enterSnoop (loc n : Nat) (cache : Bool) (s : State) : State :=
  let lines := (segs 128 loc n).map fun x => x.1 / 128
  if cache then { s with snoop := s.snoop ++ lines.filter fun l => !s.snoop.contains l } else s

theorem enterSnoop_contains {s : State} {loc n : Nat} {x : Nat × Nat} (hx : x ∈ segs 128 loc n) :
    (enterSnoop loc n true s).snoop.contains (x.1 / 128) = true := by
  have hline : x.1 / 128 ∈ (segs 128 loc n).map fun x => x.1 / 128 := List.mem_map_of_mem hx
  simp only [enterSnoop, if_true, List.contains_iff_mem, List.mem_append, List.mem_filter]
  by_cases h : x.1 / 128 ∈ s.snoop
  · exact .inl h
  · exact .inr ⟨hline, by simp [h]⟩

theorem enterSnoop_keeps (s : State) (loc n : Nat) (cache : Bool) :
    (enterSnoop loc n cache s).hostOut = s.hostOut ∧ (enterSnoop loc n cache s).mem = s.mem := by
  unfold enterSnoop
  dsimp only
  split <;> exact ⟨rfl, rfl⟩

theorem hostRead_of_devRange {s : State} {loc n : Nat} (cache : Bool) (hl : loc < 2 ^ 64) (hn : n ≠ 0)
    (hm : isMgmt loc = false) (hd : devRange s loc n = true)
    (hp : ∀ x ∈ segs 128 loc n, peridotHolds s (x.1 / 128) = false) :
    exec (.hostRead loc n cache) s = .next (reply loc (homeRead s loc n).2.1 (homeRead s loc n).2.2
      (enterSnoop loc n cache (homeRead s loc n).1)) := by
  change Host.Outcome.next (hostReadStep loc n cache s) = _
  simp only [hostReadStep, hostLoc_of_lt s hl, hm, hd, hn, any_peridotHolds_eq_false hp, Bool.false_eq_true, if_false, if_true]
  rfl

theorem hostAtomicop_of_devRange {s : State} {loc : Nat} (op : AtomicOp) (wide : Bool) (v cmp : DWord)
    (hd : devRange s loc (if wide then 8 else 4) = true) (ha : loc % (if wide then 8 else 4) = 0)
    (hp : peridotHolds s (loc / 128) = false) (hq : (homeRead s loc (if wide then 8 else 4)).2.2 = false) :
    let n := if wide then 8 else 4
    exec (.hostAtomicop loc op wide v cmp) s = .next (reply loc (homeRead s loc n).2.1 false
      (homeWrite (homeRead s loc n).1 loc
        (toBytes n (atomicApply op (8 * n) (ofBytes (homeRead s loc n).2.1) v.toNat cmp.toNat)))) := by
  change Host.Outcome.next (hostAtomicStep loc op wide v.toNat cmp.toNat s) = _
  simp only [hostAtomicStep, hd, ha, hp, hq, Bool.not_true, bne_self_eq_false, Bool.or_self, Bool.false_eq_true, if_false]

theorem peerWrite_cases (s : State) (loc : Nat) (bs : List Byte) (p : Bool) :
    exec (.peerWrite loc ⟨bs, p⟩) s = .next (if !peerReaches s loc bs.length then s
      else if lineHeld s loc bs.length then biSend s loc bs.length true else linkWrite s loc bs p) := rfl

theorem peerRead_cases (s : State) (loc n : Nat) : exec (.peerRead loc n) s = .next (if !peerReaches s loc n then s
      else if lineHeld s loc n then biSend s loc n false
      else reply loc (homeRead s loc n).2.1 (homeRead s loc n).2.2 (homeRead s loc n).1) := rfl

/-! ### Snoops (R101, R443) -/

theorem cxlSnoop_of_held {s : State} {die loc : Nat} (inv : Bool) (hh : isHost loc = true) (hn : nodeOf loc = 0)
    (hr : (Assoc.get? s.rdc (key2 die (loc / 128))).isSome = true) : exec (.cxlSnoop die loc inv) s =
    .next (if inv then fire false (2 * (loc / 128) + 1) (fire false (2 * (loc / 128)) (rdcDrop s die (loc / 128)))
      else rdcWriteBack s die (loc / 128)) := by
  change Host.Outcome.next (snoopStep die loc inv s) = _
  have hr' : (Assoc.get? s.rdc (key2 die (loc / 128))).isNone = false := by simpa using hr
  simp only [snoopStep, hh, hn, hr', beq_self_eq_true, Bool.and_self, Bool.not_true, Bool.or_self, Bool.false_eq_true, if_false]

theorem get?_rdcDrop (s : State) (d line : Nat) : Assoc.get? (rdcDrop s d line).rdc (key2 d line) = none :=
  Assoc.get?_del_self ..

theorem linkWrite_snoop (s : State) (a : Nat) (bs : List Byte) (p : Bool) : (linkWrite s a bs p).snoop = s.snoop := by
  have h : (linkWrite s a bs p).aboveHomes = s.aboveHomes := by
    unfold linkWrite
    split <;> simp
  have := congrArg State.snoop h
  exact this

/-- A line leaves the snoop filter, and the request for it is answered (R443). -/
def leaveSnoop (line : Nat) (s : State) : State :=
  { s with snoop := s.snoop.filter (· ≠ line), biOut := s.biOut.filter (·.1 ≠ line) }

theorem birsp_of_contains {s : State} {loc : Nat} (d : Option (LineData × Bool)) (hc : s.snoop.contains (loc / 128) = true)
    (hp : peridotHolds s (loc / 128) = false) : exec (.birsp loc d) s = .next (match d with
      | some (x, p) => linkWrite (leaveSnoop (loc / 128) s) (128 * (loc / 128)) (lineBytes x 0 128) p
      | none => leaveSnoop (loc / 128) s) := by
  change Host.Outcome.next (birspStep loc d s) = _
  simp only [birspStep, hc, hp, Bool.not_true, Bool.or_self, Bool.false_eq_true, if_false]
  rfl

theorem leaveSnoop_contains (line : Nat) (s : State) : (leaveSnoop line s).snoop.contains line = false := by
  simp [leaveSnoop]

/-! ### Instruction caches (R87, R366) -/

/-- The instruction cache and the slips of a quad after a line that it does not hold is read (R366). -/
theorem icLine_of_absent {s : State} {core line : Nat} (ca : Nat)
    (h : Assoc.get? s.icache (key2 (quadOf core) line) = none) :
    let r := icLine s core line ca
    r.1.slips = Assoc.put s.slips core (Assoc.rd 0 s.slips core + 1) ∧
    (r.2.2 = 0 → (Assoc.get? r.1.icache (key2 (quadOf core) line)).isSome = true) ∧
    (r.2.2 ≠ 0 → Assoc.get? r.1.icache (key2 (quadOf core) line) = none) := by
  have hs : (lowerLine s (coreDie core) line (ca == 0) 0).1.slips = s.slips := congrArg Front.slips (lowerLine_front ..)
  have hi := congrArg State.icache (lowerLine_aboveHomes s (coreDie core) line (ca == 0) 0)
  change (lowerLine s (coreDie core) line (ca == 0) 0).1.icache = s.icache at hi
  simp only [icLine, h, hs, hi]
  refine ⟨trivial, fun hp => ?_, fun hp => ?_⟩
  · rw [if_pos hp, Assoc.get?_put_self]
    rfl
  · rw [if_neg hp, h]

/-- The group waits for the line of an address (R366). -/
def wantsLine (e : Env) (va : DWord) : Bool :=
  e.grp.cond == .wait .fetch && overlap (va.toNat % 2 ^ 57 / 128 * 128) 128 (e.grp.pc.toNat % 2 ^ 57) 12

/-- The state after a line is read for a group: a slip is counted where the group waits for it and it has no error, and a
latent error where the group does not wait for it (R366). -/
def icFilled (e : Env) (s1 : State) (line : Nat) (r : State × LineData × BitVec 2) (wanted : Bool) : State :=
  let s' := if wanted && r.2.2 == 0 then r.1 else { r.1 with slips := s1.slips }
  if wanted then s' else countLatent e.core line r.2.2 s'

theorem icFilled_slips (e : Env) (s1 : State) (line : Nat) (r : State × LineData × BitVec 2) (w : Bool) :
    (icFilled e s1 line r w).slips = if w = true ∧ r.2.2 = 0 then r.1.slips else s1.slips := by
  cases w
  · have h := congrArg Front.slips (countLatent_front e.core line r.2.2 { r.1 with slips := s1.slips })
    exact h.trans (if_neg fun h => Bool.false_ne_true h.1).symm
  · unfold icFilled
    dsimp only
    rw [if_pos rfl, apply_ite State.slips]
    exact if_congr (by rw [Bool.and_eq_true, beq_iff_eq]) rfl rfl

theorem icFilled_icache (e : Env) (s1 : State) (line : Nat) (r : State × LineData × BitVec 2) (w : Bool) :
    (icFilled e s1 line r w).icache = r.1.icache := by
  unfold icFilled countLatent
  dsimp only
  repeat' split
  all_goals rfl

theorem icFilled_log {e : Env} {s1 : State} {line : Nat} {r : State × LineData × BitVec 2} (hp : r.2.2 ≠ 0) :
    ∃ x, (icFilled e s1 line r false).log.head? = some x ∧ x.code = 0x09 := by
  have h : icFilled e s1 line r false = logEvent { r.1 with slips := s1.slips } 0x09 (coreDie e.core) (128 * line) := if_neg hp
  rw [h]
  exact ⟨_, logEvent_log_head? .., rfl⟩

theorem icacheFill_eq {s : State} {g : Gid} {va : DWord} {e : Env} {s1 : State} {loc ca : Nat} (he : env? s g = some e)
    (ht : translate s e.team.ctx (e.grp.pc.toNat / 2 ^ 57) (va.toNat % 2 ^ 57) 1 .fetch = (s1, .ok loc ca))
    (hh : lineHeld s1 loc 1 = false) (hn : Assoc.get? s1.icache (key2 (quadOf e.core) (loc / 128)) = none) :
    exec (.icacheFill g va) s =
      .next (wakeFrom .fetch g (icFilled e s1 (loc / 128) (icLine s1 e.core (loc / 128) ca) (wantsLine e va))) := by
  change Host.Outcome.next (icacheFillStep g va.toNat s) = _
  simp only [icacheFillStep, he, ht, hh, hn, Option.isSome_none, Bool.false_eq_true, if_false]
  rfl

theorem icacheFill_fills {s : State} {g : Gid} {va : DWord} {e : Env} {s1 : State} {loc ca : Nat} (he : env? s g = some e)
    (ht : translate s e.team.ctx (e.grp.pc.toNat / 2 ^ 57) (va.toNat % 2 ^ 57) 1 .fetch = (s1, .ok loc ca))
    (hh : lineHeld s1 loc 1 = false) (hn : Assoc.get? s1.icache (key2 (quadOf e.core) (loc / 128)) = none) :
    let line := icLine s1 e.core (loc / 128) ca
    let wanted := e.grp.cond = .wait .fetch ∧ overlap (va.toNat % 2 ^ 57 / 128 * 128) 128 (e.grp.pc.toNat % 2 ^ 57) 12 = true
    ∃ t, exec (.icacheFill g va) s = .next t ∧
      (wanted ∧ line.2.2 = 0 → Assoc.rd 0 t.slips e.core = Assoc.rd 0 s1.slips e.core + 1) ∧
      (¬(wanted ∧ line.2.2 = 0) → Assoc.rd 0 t.slips e.core = Assoc.rd 0 s1.slips e.core) ∧
      (line.2.2 = 0 → (Assoc.get? t.icache (key2 (quadOf e.core) (loc / 128))).isSome = true) ∧
      (line.2.2 ≠ 0 → Assoc.get? t.icache (key2 (quadOf e.core) (loc / 128)) = none ∧
        (¬ wanted → ∃ x, t.log.head? = some x ∧ x.code = 0x09)) := by
  intro line wanted
  have hw : wantsLine e va = true ↔ wanted := by rw [wantsLine, Bool.and_eq_true, beq_iff_eq]
  obtain ⟨hslips, hkept, hdropped⟩ := icLine_of_absent ca hn
  refine ⟨_, icacheFill_eq he ht hh hn, ?_, ?_, ?_, ?_⟩ <;> simp only [wakeFrom, modGroup_slips, modGroup_icache, modGroup_log,
    icFilled_slips, icFilled_icache, hw]
  · intro h
    rw [if_pos h, hslips, Assoc.rd_put, if_pos rfl]
  · intro h
    rw [if_neg h]
  · exact hkept
  · refine fun hp => ⟨hdropped hp, fun hnw => ?_⟩
    rw [Bool.eq_false_iff.mpr (mt hw.mp hnw)]
    exact icFilled_log hp

/-! ### The statement -/

/-- Settles O56: each access by what the home, the snoop filter and the caches of the lemmas above hold after it. -/
theorem hostAndPeerAccesses : Obligations.HostAndPeerAccesses := by
  unfold Obligations.HostAndPeerAccesses
  refine ⟨fun s loc bs p hl hb hm hd hp => hostWrite_of_devRange p hl hb hm hd hp, ?_, ?_, ?_, ?_, ?_, ?_,
    fun s g va e s1 loc ca => icacheFill_fills⟩
  · intro s loc n cache hl hn hm hd hp
    obtain ⟨hout, hmem⟩ := enterSnoop_keeps (homeRead s loc n).1 loc n cache
    refine ⟨_, hostRead_of_devRange cache hl hn hm hd hp, congrArg (List.cons _) hout, fun hc x hx => ?_, hmem⟩
    subst hc
    exact enterSnoop_contains hx
  · intro s loc op wide v cmp n hd ha hp hq
    refine (hostAtomicop_of_devRange op wide v cmp hd ha hp hq).trans ?_
    cases op <;> rfl
  · intro s loc bs p
    rw [peerWrite_cases]
    refine ⟨fun h => by rw [h]; rfl, fun h => ⟨fun hh => by rw [h, hh]; rfl, fun hh => by rw [h, hh]; rfl⟩⟩
  · intro s loc n
    rw [peerRead_cases]
    refine ⟨fun h => by rw [h]; rfl, fun h => ⟨fun hh => by rw [h, hh]; rfl, fun hh => by rw [h, hh]; rfl⟩⟩
  · intro s die loc inv hh hn hr
    refine ⟨_, cxlSnoop_of_held inv hh hn hr, fun hi => ?_, fun hi => by rw [hi]; rfl⟩
    rw [hi]
    exact get?_rdcDrop ..
  · intro s loc d hc hp
    refine ⟨_, birsp_of_contains d hc hp, ?_, fun x hx => by rw [hx]; rfl⟩
    rcases d with - | ⟨x, p⟩
    · exact leaveSnoop_contains ..
    · dsimp only
      rw [linkWrite_snoop]
      exact leaveSnoop_contains ..

end Sys2Proof.Machine
end


section
/-! SUPPORT. Memory in canonical form, carried through checks, case splits and folds (O6). -/

namespace Sys2Proof.Machine

/-- Memory is in canonical form. -/
abbrev Canon (s : State) : Prop := Memory.wf s.mem = true

theorem canon_of_mem {s t : State} (hm : t.mem = s.mem) (h : Canon s) : Canon t := by
  rw [Canon, hm]
  exact h

theorem canon_congr {s t : State} (hst : s = t) (h : Canon t) : Canon s := by
  rw [hst]
  exact h

/-! ### What a check or a body of an instruction ends in -/

/-- The state in which a check of an instruction ends. -/
def endState {α : Type} : Except Res (State × α) → State
  | .ok x => x.1
  | .error r => r.st

theorem canon_of_ok {α : Type} {x : Except Res (State × α)} {s : State} {a : α} (h : Canon (endState x))
    (hx : x = .ok (s, a)) : Canon s := by
  rw [hx] at h
  exact h

theorem canon_of_error {α : Type} {x : Except Res (State × α)} {r : Res} (h : Canon (endState x))
    (hx : x = .error r) : Canon r.st := by
  rw [hx] at h
  exact h

/-- The state in which a check without a value ends. -/
def exState : Except Res State → State
  | .ok s => s
  | .error r => r.st

theorem canon_of_exOk {x : Except Res State} {s : State} (h : Canon (exState x)) (hx : x = .ok s) : Canon s := by
  rw [hx] at h
  exact h

theorem canon_of_exError {x : Except Res State} {r : Res} (h : Canon (exState x)) (hx : x = .error r) : Canon r.st := by
  rw [hx] at h
  exact h

theorem canon_fst {α : Type} {x : State × α} {s : State} {a : α} (h : Canon x.1) (hx : x = (s, a)) : Canon s := by
  rw [hx] at h
  exact h

theorem canon_done {s : State} (h : Canon s) : Canon (Res.done s).st := h

theorem canon_of_done {r : Res} {s : State} (h : Canon r.st) (hr : r = .done s) : Canon s := by
  rw [hr] at h
  exact h

theorem env_at_canon {e : Env} {s : State} (h : Canon s) : Canon (e.at s).st := by
  rw [Env.at_st]
  exact h

/-- A body of an instruction that keeps memory in canonical form. -/
def KeepsCanon (body : Env → Res) : Prop := ∀ e : Env, Canon e.st → Canon (body e).st

/-- A word of a row that keeps memory in canonical form. -/
def CitKeepsCanon (fn : CitFn) : Prop := ∀ m t r {s : State}, Canon s → Canon (fn m t r s).1

theorem issue_canon {body : Env → Res} (hb : KeepsCanon body) {i : Instr} {f : Slk} {s t : State} (h : Canon s)
    (ht : issue i f body s = .next t) : Canon t := (issue_keepsForm i f body s t (fun e => ⟨hb e⟩) ht).wf h

/-! ### Case splits

The forms with an equation are for a case split below definitions: the equation compares states, where a comparison of
the memories in them makes the kernel evaluate the condition. -/

theorem canon_ite {p : Prop} [Decidable p] {s t : State} (hs : Canon s) (ht : Canon t) :
    Canon (if p then s else t) := by
  split
  · exact hs
  · exact ht

theorem canon_of_eq_ite {t : State} {p : Prop} [Decidable p] {a b : State} (ht : t = if p then a else b) (ha : Canon a)
    (hb : Canon b) : Canon t := by
  rw [ht]
  exact canon_ite ha hb

theorem canon_fst_ite {α : Type} {p : Prop} [Decidable p] {x y : State × α} (hx : Canon x.1) (hy : Canon y.1) :
    Canon (if p then x else y).1 := by
  split
  · exact hx
  · exact hy

theorem canon_fst_of_eq_ite {α : Type} {x : State × α} {p : Prop} [Decidable p] {y z : State × α}
    (hx : x = if p then y else z) (hy : Canon y.1) (hz : Canon z.1) : Canon x.1 := by
  rw [hx]
  exact canon_fst_ite hy hz

theorem canon_st_ite {p : Prop} [Decidable p] {q r : Res} (hq : Canon q.st) (hr : Canon r.st) :
    Canon (if p then q else r).st := by
  split
  · exact hq
  · exact hr

theorem canon_st_of_eq_ite {r : Res} {p : Prop} [Decidable p] {x y : Res} (hr : r = if p then x else y)
    (hx : Canon x.st) (hy : Canon y.st) : Canon r.st := by
  rw [hr]
  exact canon_st_ite hx hy

/-! ### Folds -/

theorem foldl_canon {α : Type} {f : State → α → State} (hf : ∀ {s : State}, Canon s → ∀ x, Canon (f s x))
    (l : List α) {s : State} (h : Canon s) : Canon (l.foldl f s) := by
  induction l generalizing s with
  | nil => exact h
  | cons x l ih => exact ih (hf h x)

/-- `foldl_canon` with the step given by an equation. -/
theorem foldl_canon_of_eq {α : Type} {f : State → α → State}
    (hf : ∀ {s t : State}, Canon s → ∀ x, t = f s x → Canon t) (l : List α) {s : State} (h : Canon s) :
    Canon (l.foldl f s) := foldl_canon (fun h x => hf h x rfl) l h

theorem foldl_fst_canon {α β : Type} {f : State × β → α → State × β}
    (hf : ∀ {x : State × β}, Canon x.1 → ∀ a, Canon (f x a).1) (l : List α) {x : State × β} (h : Canon x.1) :
    Canon (l.foldl f x).1 := by
  induction l generalizing x with
  | nil => exact h
  | cons a l ih => exact ih (hf h a)

theorem foldl_exState_canon {α : Type} {f : Except Res State → α → Except Res State}
    (hf : ∀ {x : Except Res State}, Canon (exState x) → ∀ a, Canon (exState (f x a))) (l : List α)
    {x : Except Res State} (h : Canon (exState x)) : Canon (exState (l.foldl f x)) := by
  induction l generalizing x with
  | nil => exact h
  | cons a l ih => exact ih (hf h a)

end Sys2Proof.Machine
end

section
/-! SUPPORT. Memory stays in canonical form: the state, address translation, operands and management registers (O6). -/

namespace Sys2Proof.Machine

/-! ### Media, caches and the pool -/

theorem State.setDie_canon {s : State} (h : Canon s) (d : Nat) (x : Die) : Canon (State.setDie s d x) := h

theorem logEvent_canon {s : State} (h : Canon s) (code die data : Nat) : Canon (logEvent s code die data) := h

theorem fire_canon {s : State} (h : Canon s) (isLocal : Bool) (gran : Nat) : Canon (fire isLocal gran s) := h

theorem resolveSector_canon {s : State} (h : Canon s) (sec : Nat) :
    Canon (resolveSector s sec).1 := (KeepsForm.of_mem (resolveSector_mem ..)).wf h

theorem l2Fill_canon {s : State} (h : Canon s) (line sec : Nat) :
    Canon (l2Fill s line sec).1 := (KeepsForm.of_mem (l2Fill_mem ..)).wf h

theorem l2Clean_canon {s : State} (h : Canon s) (line : Nat) : Canon (l2Clean s line) := (l2Clean_keepsForm ..).wf h

theorem l2Evict_canon {s : State} (h : Canon s) (line : Nat) : Canon (l2Evict s line) := (l2Evict_keepsForm ..).wf h

theorem mgmtRefuse_canon {s : State} (h : Canon s) (loc : Nat) : Canon (mgmtRefuse s loc) := h

theorem homeWrite_canon {s : State} (h : Canon s) (loc : Nat) (bs : List Byte) :
    Canon (homeWrite s loc bs) := (homeWrite_keepsForm ..).wf h

theorem homeRead_canon {s : State} (h : Canon s) (loc n : Nat) :
    Canon (homeRead s loc n).1 := (KeepsForm.of_mem (homeRead_mem ..)).wf h

theorem homePoison_canon {s : State} (h : Canon s) (loc n : Nat) :
    Canon (homePoison s loc n) := (KeepsForm.of_mem (homePoison_mem ..)).wf h

theorem homeNat_canon {s : State} (h : Canon s) (loc n : Nat) :
    Canon (homeNat s loc n).1 := (KeepsForm.of_mem (homeNat_mem ..)).wf h

theorem biSend_canon {s : State} (h : Canon s) (loc n : Nat) (inv : Bool) : Canon (biSend s loc n inv) := h

theorem rdcWriteBack_canon {s : State} (h : Canon s) (d line : Nat) :
    Canon (rdcWriteBack s d line) := (rdcWriteBack_keepsForm ..).wf h

theorem rdcDrop_canon {s : State} (h : Canon s) (d line : Nat) : Canon (rdcDrop s d line) := (rdcDrop_keepsForm ..).wf h

theorem hostOwn_canon {s : State} (h : Canon s) (d loc : Nat) : Canon (hostOwn s d loc) := (hostOwn_keepsForm ..).wf h

theorem rdcWrite_canon {s : State} (h : Canon s) (d loc : Nat) (bs : List Byte) :
    Canon (rdcWrite s d loc bs) := (rdcWrite_keepsForm ..).wf h

theorem rdcFillLine_canon {s : State} (h : Canon s) (d line : Nat) :
    Canon (rdcFillLine s d line).1 := (rdcFillLine_keepsForm ..).wf h

theorem rdcFlush_canon {s : State} (h : Canon s) (d : Nat) : Canon (rdcFlush s d) := (rdcFlush_keepsForm ..).wf h

theorem rdcInvalClean_canon {s : State} (h : Canon s) (d : Nat) : Canon (rdcInvalClean s d) := h

theorem l1Clear_canon {s : State} (h : Canon s) (c : Nat) : Canon (l1Clear s c) := h

theorem lowerLine_canon {s : State} (h : Canon s) (d line : Nat) (cached : Bool) (ch : Nat) :
    Canon (lowerLine s d line cached ch).1 := (lowerLine_keepsForm ..).wf h

theorem loadLine_canon {s : State} (h : Canon s) (c loc n : Nat) (cached : Bool) (ch : Nat) :
    Canon (loadLine s c loc n cached ch).1 := (loadLine_keepsForm ..).wf h

theorem setPrio_canon {s : State} (h : Canon s) (ch : Nat) (lv : Level) (key : Nat) : Canon (setPrio ch lv key s) := by
  unfold setPrio
  grind

theorem prioLoad_canon {s : State} (h : Canon s) (s0 : State) (c line ch : Nat) : Canon (prioLoad s0 c line ch s) := by
  unfold prioLoad
  grind [← setPrio_canon]

theorem hostPast_canon {s : State} (h : Canon s) (loc n : Nat) :
    Canon (hostPast s loc n) := (hostPast_keepsForm ..).wf h

theorem acceptStore_canon {s : State} (h : Canon s) (c : Nat) (st : Store) : Canon (acceptStore s c st) := by
  have hbase : Canon (if st.toRdc (coreDie c) then rdcWrite s (coreDie c) st.loc st.data
    else
      let s := if st.ca = 0 && isRemote (coreDie c) st.loc then
          (segs 128 st.loc st.data.length).foldl (init := s) fun s (a, _) => rdcDrop s (coreDie c) (a / 128)
        else s
      homeWrite (hostPast s st.loc st.data.length) st.loc st.data) := by
    split
    · exact rdcWrite_canon h ..
    · refine homeWrite_canon (hostPast_canon ?_ ..) ..
      split
      · exact foldl_canon (fun h _ => rdcDrop_canon h ..) _ h
      · exact h
  unfold acceptStore
  split
  · exact hbase
  · refine foldl_canon (fun {s} h x => ?_) _ hbase
    dsimp only
    split
    · exact setPrio_canon h ..
    · exact h

theorem poolFix_canon {s : State} (h : Canon s) (k n : Nat) :
    Canon (poolFix s k n) := (KeepsForm.of_mem (poolFix_mem ..)).wf h

theorem poolRead_canon {s : State} (h : Canon s) (k n : Nat) :
    Canon (poolRead s k n).1 := (KeepsForm.of_mem (poolRead_mem ..)).wf h

theorem poolWriteWord_canon {s : State} (h : Canon s) (k : Nat) (bs : List Byte) :
    Canon (poolWriteWord s k bs) := (KeepsForm.of_mem (poolWriteWord_mem ..)).wf h

theorem poolWrite_canon {s : State} (h : Canon s) (k : Nat) (bs : List Byte) : Canon (poolWrite s k bs) :=
  foldl_canon (fun h _ => fire_canon h ..) _ (foldl_canon (fun h _ => poolWriteWord_canon h ..) _ h)

/-! ### Bounds and page tables -/

theorem State.setCtx_canon {s : State} (h : Canon s) (c : Nat) (x : Ctx) : Canon (State.setCtx s c x) := h

theorem freeBit_canon {s : State} (h : Canon s) (k : Nat) : Canon (freeBit s k).1 := h

theorem boundsEntry_canon {s : State} (h : Canon s) (c r : Nat) : Canon (boundsEntry s c r).1 := by
  unfold boundsEntry
  grind [← freeBit_canon, ← homeNat_canon]

theorem regionCheck_canon {s : State} (h : Canon s) (c rid va size : Nat) (a : Acc) :
    Canon (regionCheck s c rid va size a).1 := by
  unfold regionCheck
  grind [← boundsEntry_canon, ← biSend_canon]

theorem walkFrom_canon {s : State} (h : Canon s) (k tab va : Nat) : Canon (walkFrom k s tab va).1 := by
  induction k generalizing s tab with
  | zero =>
    unfold walkFrom
    grind [← biSend_canon, ← homeNat_canon]
  | succ k ih =>
    unfold walkFrom
    grind [← biSend_canon, ← homeNat_canon]

theorem markLeaf_canon {s : State} (h : Canon s) (a e : Nat) (w : Bool) : Canon (markLeaf s a e w) := by
  unfold markLeaf
  grind [← homeWrite_canon]

theorem sharedLeaf_canon {s : State} (h : Canon s) (x : WalkEnd) : Canon (sharedLeaf s x).1 := by
  unfold sharedLeaf
  grind [← homeNat_canon]

theorem findLeaf_canon {s : State} (h : Canon s) (c va : Nat) (w : Bool) : Canon (findLeaf s c va w).1 := by
  unfold findLeaf
  grind [← freeBit_canon, ← walkFrom_canon, ← sharedLeaf_canon]

theorem pageLook_canon {s : State} (h : Canon s) (c rid va : Nat) (a : Acc) : Canon (pageLook s c rid va a).1 := by
  unfold pageLook
  grind [← markLeaf_canon, ← findLeaf_canon]

theorem translate_canon {s : State} (h : Canon s) (c rid va size : Nat) (a : Acc) :
    Canon (translate s c rid va size a).1 := by
  unfold translate
  grind [← regionCheck_canon, ← pageLook_canon]

theorem translatePtr_canon {s : State} (h : Canon s) (c ptr : Nat) (disp : Int) (size align : Nat) (a : Acc) :
    Canon (translatePtr s c ptr disp size align a).1 := by
  unfold translatePtr
  grind [← translate_canon]

theorem pagesLook_canon {s : State} (h : Canon s) (c rid : Nat) (a : Acc) (ps : List (Nat × Nat)) :
    Canon (pagesLook s c rid a ps).1 := by
  induction ps generalizing s with
  | nil => exact h
  | cons p ps ih =>
    unfold pagesLook
    grind [← pageLook_canon]

theorem translateRange_canon {s : State} (h : Canon s) (c ptr : Nat) (disp : Int) (size align : Nat) (a : Acc) :
    Canon (translateRange s c ptr disp size align a).1 := by
  unfold translateRange
  grind [← pagesLook_canon, ← regionCheck_canon]

theorem dropTlb_canon {s : State} (h : Canon s) (c : Nat) : Canon (dropTlb s c) := h

/-! ### Faults, regions, traps and posting -/

theorem modTeam_canon {s : State} (h : Canon s) (uid : Nat) (f : Team → Team) : Canon (modTeam uid f s) := h

theorem modGroup_canon {s : State} (h : Canon s) (gid : Gid) (f : Group → Group) :
    Canon (modGroup gid f s) := (modGroup_keepsForm ..).wf h

theorem Env.mod_canon {e : Env} (h : Canon e.st) (f : Group → Group) : Canon (Env.mod e f) := h

theorem post_canon {s : State} (h : Canon s) (gid : Gid) (ctx core : Nat) (k : PendKind) :
    Canon (post gid ctx core k s) := h

theorem unpost_canon {s : State} (h : Canon s) (id : Nat) : Canon (unpost id s) := h

theorem postRegs_canon {s : State} (h : Canon s) (gid : Gid) (ctx core : Nat) (rgn : Bool) (ws : List RegWrite) :
    Canon (postRegs gid ctx core rgn ws s) := h

theorem fillRegs_canon {s : State} (h : Canon s) (gid : Gid) (ws : List RegWrite) : Canon (fillRegs gid ws s) := h

theorem l1DropRange_canon {s : State} (h : Canon s) (core loc n : Nat) :
    Canon (l1DropRange core loc n s) := (KeepsForm.of_mem (l1DropRange_mem ..)).wf h

theorem issueStore_canon {s : State} (h : Canon s) (gid : Gid) (ctx core : Nat) (st : Store) :
    Canon (issueStore gid ctx core st s) := (KeepsForm.of_mem (issueStore_mem ..)).wf h

theorem postEvent_canon {s : State} (h : Canon s) (c code : Nat) (data : List DWord) :
    Canon (postEvent c code data s) := (postEvent_keepsForm ..).wf h

theorem settleCtx_canon {s : State} (h : Canon s) (c : Nat) : Canon (settleCtx c s) := (settleCtx_keepsForm ..).wf h

theorem postFault_canon {s : State} (h : Canon s) (c va acc agent : Nat) :
    Canon (postFault c va acc agent s).1 := (postFault_keepsForm ..).wf h

theorem commitRegion_canon {s : State} (h : Canon s) (gid : Gid) : Canon (commitRegion gid s) :=
  (commitRegion_keepsForm ..).wf h

theorem abortRegion_canon {s : State} (h : Canon s) (gid : Gid) :
    Canon (abortRegion gid s) := (abortRegion_keepsForm ..).wf h

theorem takeTrapAt_canon {s : State} (h : Canon s) (gid : Gid) (t : Trap) (pc : DWord) (rgn : Bool) :
    Canon (takeTrapAt gid t pc rgn s) := (takeTrapAt_keepsForm ..).wf h

theorem takeTrap_canon {s : State} (h : Canon s) (gid : Gid) (t : Trap) :
    Canon (takeTrap gid t s) := (takeTrap_keepsForm ..).wf h

theorem pageFault_canon {s : State} (h : Canon s) (gid : Gid) (va acc lane : Nat) :
    Canon (pageFault gid va acc lane s) := (pageFault_keepsForm ..).wf h

theorem settlePosting_canon {s : State} (h : Canon s) (gid : Gid) : Canon (settlePosting gid s) := by
  unfold settlePosting
  grind [← takeTrap_canon]

theorem settleRecords_canon {s : State} (h : Canon s) : Canon (settleRecords s) := by
  unfold settleRecords
  dsimp only
  split
  · exact h
  · exact foldl_canon (fun h _ => settlePosting_canon h ..) _ (foldl_canon (fun h _ => settleCtx_canon h ..) _ h)

theorem takeTret_canon {s : State} (h : Canon s) (gid : Gid) (next : Bool) :
    Canon (takeTret gid next s) := (takeTret_keepsForm ..).wf h

theorem readingRegs_canon {body : Env → Res} (hb : KeepsCanon body) (ds : List RegDst) :
    KeepsCanon (readingRegs ds body) :=
  fun e h => (readingRegs_keepsForm ds body e fun e => ⟨hb e⟩).wf h

theorem conclude_canon (e : Env) (clk : Nat) {r : Res} (h : Canon r.st) : Canon (conclude e clk r) :=
  (conclude_keepsForm ..).wf h

theorem faultOutside_canon (e : Env) {r : Res} (h : Canon r.st) : Canon (faultOutside e r).st := by
  unfold faultOutside
  split
  · exact pageFault_canon h ..
  · exact h

theorem committing_canon {body : Env → Res} (hb : KeepsCanon body) : KeepsCanon (committing body) := by
  intro e h
  exact hb _ (by rw [Env.at_st]; exact commitRegion_canon h ..)

theorem inService_canon {body : Env → Res} (hb : KeepsCanon body) : KeepsCanon (inService body) := by
  intro e h
  unfold inService
  split
  · exact hb e h
  · exact h

/-! ### Operands and results -/

theorem writeFixed_canon {e : Env} (h : Canon e.st) (laneL uniL : Nat) (ws : List RegWrite) :
    Canon (writeFixed e laneL uniL ws) := h

theorem writeLong_canon {e : Env} {s : State} (h : Canon s) (rgn : Bool) (ws : List RegWrite) :
    Canon (writeLong e rgn ws s) := by
  unfold writeLong
  grind [← modGroup_canon, ← postRegs_canon]

theorem fixedBody_canon {e : Env} (h : Canon e.st) (f : Slk) (laneL uniL n : Nat) (fn : Env → Nat → Nat) :
    Canon (fixedBody f laneL uniL n fn e).st := h

theorem longBody_canon {e : Env} (h : Canon e.st) (f : Slk) (n : Nat) (fn : Env → Nat → Nat) :
    Canon (longBody f n fn e).st := by
  unfold longBody
  grind [← writeLong_canon, Res.st]

/-! ### Local and global addresses, releases and acquires -/

theorem localTrap_canon {s : State} (h : Canon s) (a lane acc : Nat) (cd : Nat × Nat) :
    Canon (localTrap s a lane acc cd).st := h

theorem resolveLocal_error {e : Env} (h : Canon e.st) {addr : Nat → Nat} {size align acc : Nat} {ls : List Nat}
    {r : Res}
    (hr : resolveLocal e addr size align acc ls = .error r) : Canon r.st := by
  induction ls generalizing r with
  | nil => cases hr
  | cons l ls ih =>
    unfold resolveLocal at hr
    grind [← localTrap_canon]

theorem globalCheck_canon {s : State} (h : Canon s) (c : Nat) (b : GBase) (x : Int) (size align : Nat) (a : Acc) :
    Canon (globalCheck s c b x size align a).1 := by
  unfold globalCheck
  grind [← regionCheck_canon]

theorem globalPage_canon {s : State} (h : Canon s) (c : Nat) (b : GBase) (x : Int) (size : Nat) (a : Acc) :
    Canon (globalPage s c b x size a).1 := by
  unfold globalPage
  grind [← pageLook_canon]

theorem lookRes_canon {s : State} (h : Canon s) (va lane : Nat) (a : Acc) (x : Look) :
    Canon (lookRes s va lane a x).st := by
  unfold lookRes
  grind [Res.st]

theorem resolvePage_canon {e : Env} {s : State} (h : Canon s) (b : GBase) (x : Int) (size : Nat) (a : Acc)
    (deny : Nat → Nat → Bool) (l : Nat) :
    Canon (endState (resolvePage e b x size a deny l s)) := by
  unfold resolvePage
  grind [← globalPage_canon, ← lookRes_canon, Res.st, endState]

theorem resolveGlobal_canon {e : Env} {s : State} (h : Canon s) (b : GBase) (disp : Nat → Int) (size align : Nat)
    (a : Acc) (deny : Nat → Nat → Bool) (ls : List Nat) :
    Canon (endState (resolveGlobal e b disp size align a deny s ls)) := by
  induction ls generalizing s with
  | nil => exact h
  | cons l ls ih =>
    unfold resolveGlobal
    split
    · next hg => exact lookRes_canon (canon_fst (globalCheck_canon h ..) hg) ..
    · next hg =>
      have ht := canon_fst (globalCheck_canon h ..) hg
      split
      · next hp => exact canon_of_error (resolvePage_canon ht ..) hp
      · next hp =>
        have ht := ih (canon_of_ok (resolvePage_canon ht ..) hp)
        split
        · next hr => exact canon_of_error ht hr
        · next hr => exact canon_of_ok ht hr

theorem resolveGlobal_ok {e : Env} {s t : State} (h : Canon s) {b : GBase} {disp : Nat → Int} {size align : Nat}
    {a : Acc} {deny : Nat → Nat → Bool} {ls : List Nat} {xs : List LaneAcc}
    (hr : resolveGlobal e b disp size align a deny s ls = .ok (t, xs)) : Canon t :=
  canon_of_ok (resolveGlobal_canon h ..) hr

theorem resolveGlobal_error {e : Env} {s : State} (h : Canon s) {b : GBase} {disp : Nat → Int} {size align : Nat}
    {a : Acc} {deny : Nat → Nat → Bool} {ls : List Nat} {r : Res}
    (hr : resolveGlobal e b disp size align a deny s ls = .error r) : Canon r.st :=
  canon_of_error (resolveGlobal_canon h ..) hr

theorem resolvePieces_canon {e : Env} {s : State} (h : Canon s) (b : GBase) (a : Acc) (ps : List (Nat × Nat)) :
    Canon (endState (resolvePieces e b a ps s)) := by
  induction ps generalizing s with
  | nil => exact h
  | cons p ps ih =>
    unfold resolvePieces
    split
    · next hp => exact canon_of_error (resolvePage_canon h ..) hp
    · next hp =>
      have ht := ih (canon_of_ok (resolvePage_canon h ..) hp)
      split
      · next hr => exact canon_of_error ht hr
      · next hr => exact canon_of_ok ht hr

theorem resolveRange_canon {e : Env} {s : State} (h : Canon s) (b : GBase) (x : Int) (n align : Nat) (a : Acc) :
    Canon (endState (resolveRange e b x n align a s)) := by
  unfold resolveRange
  split
  · next hg => exact lookRes_canon (canon_fst (globalCheck_canon h ..) hg) ..
  · next hg => exact resolvePieces_canon (canon_fst (globalCheck_canon h ..) hg) ..

theorem resolveRange_ok {e : Env} {s : State} (h : Canon s) {b : GBase} {x : Int} {n align : Nat} {a : Acc} {t : State}
    {y} (hr : resolveRange e b x n align a s = .ok (t, y)) :
    Canon t :=
  canon_of_ok (resolveRange_canon h ..) hr

theorem resolveRange_error {e : Env} {s : State} (h : Canon s) {b : GBase} {x : Int} {n align : Nat} {a : Acc} {r : Res}
    (hr : resolveRange e b x n align a s = .error r) :
    Canon r.st :=
  canon_of_error (resolveRange_canon h ..) hr

theorem putStores_canon (e : Env) {s : State} (h : Canon s) (sts : List Store) (xs : List LaneAcc) :
    Canon (putStores e sts xs s).st := by
  unfold putStores
  split
  · exact foldl_canon (fun h _ => issueStore_canon h ..) _ h
  · split <;> exact h

theorem afterLoad_canon {s : State} (h : Canon s) (s0 : State) (core ch : Nat) (xs : List (LaneAcc × Nat)) :
    Canon (afterLoad core ch s0 xs s) := by
  refine foldl_canon (fun {s} h x => ?_) _ h
  dsimp only
  split
  · exact h
  · refine foldl_canon (fun {s} h y => prioLoad_canon ?_ ..) _ h
    split <;> exact h

/-- The state a release ends in, where it does not wait. -/
theorem release_canon {e : Env} {s : State} (h : Canon e.st) {sc : Nat} (hr : release e sc = some s) : Canon s := by
  unfold release at hr
  grind [← rdcFlush_canon, ← Env.mod_canon]

theorem releaseWait_canon {e : Env} (h : Canon e.st) (sc : Nat) : Canon (releaseWait e sc).st := by
  have hb : Canon (if 5 ≤ sc then (rdcDirty e.st e.die).foldl (fun s l => biSend s (128 * l) 128 true) e.st
      else e.st) := by
    split
    · exact foldl_canon (fun h _ => biSend_canon h ..) _ h
    · exact h
  change Canon (ite _ _ _)
  split <;> exact hb

theorem acquire_canon {s : State} (h : Canon s) (core sc : Nat) : Canon (acquire core sc s) := by
  unfold acquire
  grind [← rdcInvalClean_canon, ← l1Clear_canon]

theorem pastRelease_canon (e : Env) {r : Res} (h : Canon r.st) : Canon (pastRelease e r).st := by
  unfold pastRelease
  split <;> exact h

theorem releasing_canon {body : Env → Res} (hb : KeepsCanon body) (ord sc : Nat) :
    KeepsCanon (releasing ord sc body) := by
  intro e h
  unfold releasing
  split
  · split
    · exact releaseWait_canon h sc
    · next s hr => exact pastRelease_canon e (hb _ (by rw [Env.at_st]; exact release_canon h hr))
  · exact hb e h

theorem acquiring_canon {body : Env → Res} (hb : KeepsCanon body) (ord sc : Nat) :
    KeepsCanon (acquiring ord sc body) := by
  intro e h
  have he := hb e h
  unfold acquiring
  split
  · split
    · next s hs => exact acquire_canon (by rw [hs] at he; exact he) ..
    · exact he
  · exact he

theorem mwaitLeave_canon {e : Env} {s : State} (h : Canon s) (dst sc st : Nat) : Canon (mwaitLeave e dst sc st s) := by
  unfold mwaitLeave
  grind [← modGroup_canon, ← postRegs_canon, ← acquire_canon]

theorem mwaitEnd_canon {s : State} (h : Canon s) (gid : Gid) (extra : Nat) : Canon (mwaitEnd gid extra s) := by
  unfold mwaitEnd
  grind [← modGroup_canon, ← mwaitLeave_canon]

theorem wakeMwaits_canon {s : State} (h : Canon s) (c : Nat) : Canon (wakeMwaits c s) :=
  foldl_canon (fun h _ => mwaitEnd_canon h ..) _ h

/-! ### Accumulator banks -/

theorem State.setMrp_canon {s : State} (h : Canon s) (core bank : Nat) (m : Mrp) :
    Canon (State.setMrp s core bank m) := h

theorem State.setAcc_canon {s : State} (h : Canon s) (core bank row col : Nat) (x : Word) :
    Canon (State.setAcc s core bank row col x) := h

theorem zeroBank_canon {s : State} (h : Canon s) (core bank : Nat) : Canon (zeroBank core bank s) := h

/-! ### Integer instructions -/

theorem intBody_canon {e : Env} (h : Canon e.st) (f : Slk) (fn : Env → Nat → Nat) : Canon (intBody f fn e).st := h

theorem mulBody_canon (f : Slk) (fn : Env → Nat → Nat) : KeepsCanon (mulBody f fn) := by
  intro e h
  unfold mulBody
  split <;> exact fixedBody_canon h ..

theorem swrBody_canon {e : Env} (h : Canon e.st) (f : Slk) : Canon (swrBody f e).st := by
  unfold swrBody
  grind [← Env.mod_canon, Res.st]

theorem laneTrap_canon {e : Env} (h : Canon e.st) (i : Nat) : Canon (laneTrap e i).st := h

theorem rdlaneBody_canon {e : Env} (h : Canon e.st) (f : Slk) : Canon (rdlaneBody f e).st := by
  unfold rdlaneBody
  refine canon_st_ite (laneTrap_canon h ..) (canon_st_ite h (readingRegs_canon (fun e h => ?_) _ e h))
  exact writeLong_canon h ..

theorem wrlaneBody_canon {e : Env} (h : Canon e.st) (f : Slk) : Canon (wrlaneBody f e).st := by
  unfold wrlaneBody
  grind [← writeLong_canon, ← laneTrap_canon, Res.st]

/-! ### Floating point -/

theorem f64Service_canon {body : Env → Res} (hb : KeepsCanon body) (f : Slk) : KeepsCanon (f64Service f body) := by
  unfold f64Service
  split
  · exact inService_canon hb
  · exact hb

theorem fltBody_canon (f : Slk) (fn : Env → Nat → Nat) : KeepsCanon (fltBody f fn) := by
  refine f64Service_canon (fun e h => ?_) f
  split <;> exact fixedBody_canon h ..

/-! ### Scratchpad accesses -/

theorem poolTouch_canon {s : State} (h : Canon s) (n : Nat) (xs : List (Nat × Nat × Nat × Nat)) :
    Canon (poolTouch s n xs) := by
  unfold poolTouch
  grind [← poolRead_canon, ← foldl_canon]

theorem ldlBody_canon {e : Env} (h : Canon e.st) (f : Slk) : Canon (ldlBody f e).st := by
  unfold ldlBody
  dsimp only
  split
  · next hr => exact resolveLocal_error h hr
  · refine canon_st_of_eq_ite rfl h ?_
    have hs {n xs} := poolTouch_canon h n xs
    split
    · exact hs
    · exact writeLong_canon hs ..

theorem ringKick_canon {e : Env} {s : State} (h : Canon s) (k n : Nat) : Canon (ringKick e k n s) := by
  refine canon_congr (t := List.foldl _ _ _) (ringKick.eq_1 ..) (foldl_canon_of_eq (fun h i ht => ?_) _ h)
  dsimp only at ht
  split at ht <;> (subst ht; exact h)

theorem storeLocal_canon {e : Env} {s : State} (h : Canon s) (k core : Nat) (bs : List Byte) :
    Canon (storeLocal e s k core bs) := by
  unfold storeLocal
  grind [← ringKick_canon, ← poolWrite_canon, ← post_canon]

theorem stlBody_canon {e : Env} (h : Canon e.st) (f : Slk) : Canon (stlBody f e).st := by
  unfold stlBody
  dsimp only
  split
  · next hr => exact resolveLocal_error h hr
  · exact canon_st_of_eq_ite rfl h (canon_done (foldl_canon (fun h _ => storeLocal_canon h ..) _ h))

theorem remoteStlStep_canon {s : State} (h : Canon s) (id : Nat) : Canon (remoteStlStep id s) := by
  unfold remoteStlStep
  grind [← unpost_canon, ← poolWrite_canon]

theorem atomlLanes_canon {e : Env} {s : State} (h : Canon s) (f : Slk) (xs : List (Nat × Nat × Nat × Nat)) :
    Canon (atomlLanes f e s xs).1 := by
  induction xs generalizing s with
  | nil => exact h
  | cons x xs ih =>
    unfold atomlLanes
    grind [← ringKick_canon, ← poolWrite_canon]

theorem atomlBody_canon {e : Env} (h : Canon e.st) (f : Slk) : Canon (atomlBody f e).st := by
  unfold atomlBody
  dsimp only
  split
  · next hr => exact resolveLocal_error h hr
  · refine canon_st_of_eq_ite rfl h ?_
    have hs {n xs} := poolTouch_canon h n xs
    split
    · exact hs
    · exact writeLong_canon (atomlLanes_canon hs ..) ..

/-! ### Management registers -/

theorem State.setSlot_canon {s : State} (h : Canon s) (core entry : Nat) (x : Slot) :
    Canon (State.setSlot s core entry x) := h

theorem putSlot_canon {s : State} (h : Canon s) (core entry : Nat) (v : BitVec 256) :
    Canon (putSlot core entry v s) := by
  unfold putSlot
  grind [← State.setSlot_canon]

theorem moveSlot_canon {s : State} (h : Canon s) (core entry : Nat) (st : SlotSt) :
    Canon (moveSlot core entry st s) := h

theorem setCtxState_canon {s : State} (h : Canon s) (c : Nat) (st : CtxSt) : Canon (setCtxState c st s) := by
  unfold setCtxState
  grind [← postEvent_canon, ← State.setCtx_canon]

theorem withdrawPending_canon {s : State} (h : Canon s) (c : Nat) : Canon (withdrawPending c s) := h

theorem enterSaving_canon {s : State} (h : Canon s) (c : Nat) : Canon (enterSaving c s) := by
  unfold enterSaving
  grind [← wakeMwaits_canon, ← setCtxState_canon]

theorem requestPreempt_canon {s : State} (h : Canon s) (c : Nat) : Canon (requestPreempt c s) := by
  unfold requestPreempt
  grind [← wakeMwaits_canon, ← setCtxState_canon, ← enterSaving_canon, ← withdrawPending_canon, ← State.setCtx_canon]

theorem pctlPut_canon {s : State} (h : Canon s) (c v : Nat) : Canon (pctlPut c v s) := by
  unfold pctlPut
  grind [← requestPreempt_canon, ← enterSaving_canon, ← State.setCtx_canon]

theorem resumeHalted_canon {s : State} (h : Canon s) (c : Nat) : Canon (resumeHalted c s) := by
  unfold resumeHalted
  grind [← modGroup_canon, ← foldl_canon]

theorem cctlPut_canon {s : State} (h : Canon s) (c v : Nat) : Canon (cctlPut c v s) := by
  unfold cctlPut
  grind [← resumeHalted_canon, ← State.setCtx_canon]

theorem answerGroup_canon {s : State} (h : Canon s) (c ord : Nat) (decline : Bool) (gid : Gid) :
    Canon (answerGroup c ord decline s gid) := by
  unfold answerGroup
  grind [← takeTrap_canon, ← modGroup_canon, ← takeTrapAt_canon]

theorem answerFault_canon {s : State} (h : Canon s) (c ord : Nat) (decline : Bool) :
    Canon (answerFault c ord decline s) := by
  unfold answerFault
  grind [← answerGroup_canon, ← State.setCtx_canon, ← foldl_canon]

theorem fqconsPut_canon {s : State} (h : Canon s) (c : Nat) (v : Word) : Canon (fqconsPut c v s) := by
  unfold fqconsPut
  grind [← settleCtx_canon, ← State.setCtx_canon]

theorem setQueue_canon {s : State} (h : Canon s) (c q : Nat) (y : Queue) : Canon (setQueue c q y s) := h

theorem setFence_canon {s : State} (h : Canon s) (c f : Nat) (v : DWord) : Canon (setFence c f v s) := h

theorem rgrantPut_canon {s : State} (h : Canon s) (c : Nat) (v : BitVec 16) : Canon (rgrantPut c v s) := by
  unfold rgrantPut
  grind [← State.setDie_canon, ← State.setCtx_canon, ← foldl_canon]

theorem setMonitor_canon {s : State} (h : Canon s) (die m : Nat) (x : PerfMon) : Canon (setMonitor die m x s) := h

theorem monitorConfig_canon {s : State} (h : Canon s) (die m v : Nat) : Canon (monitorConfig die m v s) := h

theorem monitorRead_canon {s : State} (h : Canon s) (die m off : Nat) : Canon (monitorRead die m off s).1 := by
  unfold monitorRead
  grind [← setMonitor_canon]

theorem monitorSample_canon {s : State} (h : Canon s) (die m : Nat) (v : Word) : Canon (monitorSample die m v s) := h

theorem goStep_canon {s : State} (h : Canon s) : Canon (goStep s) := by
  unfold goStep
  split
  · refine canon_of_mem (s := List.foldl _ _ _) rfl (foldl_canon (fun h d => ?_) _ ?_)
    · exact h
    · exact foldl_canon (fun h _ => l2Clean_canon h ..) _ h
  · exact h

theorem dieWord_canon {s : State} (h : Canon s) (d o : Nat) : Canon (dieWord s d o).1 := by
  unfold dieWord
  grind [← monitorRead_canon]

theorem mgmtWord_canon {s : State} (h : Canon s) (o : Nat) : Canon (mgmtWord s o).1 := by
  unfold mgmtWord
  grind [← dieWord_canon]

theorem mgmtRead_canon {s : State} (h : Canon s) (loc n : Nat) : Canon (mgmtRead s loc n).1 := by
  unfold mgmtRead
  grind [← mgmtWord_canon, ← mgmtRefuse_canon]

theorem devPut_canon {s : State} (h : Canon s) (o : Nat) (lo hi : Option Nat) : Canon (devPut o lo hi s) := by
  unfold devPut
  grind [← goStep_canon]

theorem diePut_canon {s : State} (h : Canon s) (d o : Nat) (lo hi : Option Nat) : Canon (diePut d o lo hi s) := by
  unfold diePut
  grind [← monitorConfig_canon, ← State.setDie_canon]

theorem corePut_canon {s : State} (h : Canon s) (core o : Nat) (lo hi : Option Nat) :
    Canon (corePut core o lo hi s) := by
  unfold corePut
  grind [← putSlot_canon]

theorem ctxPut_canon {s : State} (h : Canon s) (c o : Nat) (lo hi : Option Nat) : Canon (ctxPut c o lo hi s) := by
  unfold ctxPut
  refine canon_of_eq_ite rfl (setQueue_canon h ..) (canon_of_eq_ite rfl (setFence_canon h ..) ?_)
  refine canon_of_eq_ite rfl (by cases lo with | none => exact h | some v => exact pctlPut_canon h ..) ?_
  refine canon_of_eq_ite rfl ?_ ?_
  · have hc : Canon (match lo with | some v => cctlPut c v s | none => s) := by
      cases lo with | none => exact h | some v => exact cctlPut_canon h ..
    cases hi <;> exact hc
  refine canon_of_eq_ite rfl h (canon_of_eq_ite rfl h (canon_of_eq_ite rfl h ?_))
  refine canon_of_eq_ite rfl ?_ (canon_of_eq_ite rfl h (canon_of_eq_ite rfl h ?_))
  · cases lo with
    | none => exact h
    | some v => exact canon_of_eq_ite rfl (wakeMwaits_canon h _) h
  refine canon_of_eq_ite rfl (by cases hi with | none => exact h | some v => exact fqconsPut_canon h ..) ?_
  refine canon_of_eq_ite rfl (by cases lo with | none => exact h | some v => exact answerFault_canon h ..) ?_
  refine canon_of_eq_ite rfl h (canon_of_eq_ite rfl (by cases hi <;> exact h) (canon_of_eq_ite rfl h ?_))
  refine canon_of_eq_ite rfl (by cases lo with | none => exact h | some v => exact rgrantPut_canon h ..) ?_
  exact canon_of_eq_ite rfl (by cases lo <;> exact h) h

theorem mgmtPut_canon {s : State} (h : Canon s) (o : Nat) (lo hi : Option Nat) : Canon (mgmtPut o lo hi s) := by
  unfold mgmtPut
  grind [← devPut_canon, ← ctxPut_canon, ← corePut_canon, ← diePut_canon]

theorem mgmtWrite_canon {s : State} (h : Canon s) (loc n v : Nat) : Canon (mgmtWrite loc n v s) := by
  unfold mgmtWrite
  grind [← mgmtPut_canon, ← mgmtRefuse_canon]

theorem spaceRead_canon {s : State} (h : Canon s) (loc n : Nat) : Canon (spaceRead s loc n).1 := by
  unfold spaceRead
  grind [← homeRead_canon, ← mgmtRead_canon]

theorem spaceWrite_canon {s : State} (h : Canon s) (loc : Nat) (bs : List Byte) : Canon (spaceWrite s loc bs) := by
  unfold spaceWrite
  grind [← homeWrite_canon, ← mgmtWrite_canon]

end Sys2Proof.Machine
end

section
/-! SUPPORT. Memory stays in canonical form: the home slice, barriers, fetch and the engines beside memory (O6). -/

namespace Sys2Proof.Machine

/-! ### Range loads and the home slice -/

theorem loadBytes_canon {e : Env} {s : State} (h : Canon s) (ch : Nat) (x : LaneAcc) (n : Nat) :
    Canon (loadBytes e ch x n s).1 := by
  unfold loadBytes
  grind [← loadLine_canon, ← mgmtRead_canon]

theorem readLines_canon {e : Env} {s : State} (h : Canon s) (ch : Nat) (xs : List (LaneAcc × Nat)) :
    Canon (readLines e ch xs s).1 := by
  induction xs generalizing s with
  | nil => exact h
  | cons x xs ih =>
    unfold readLines
    grind [← loadBytes_canon]

theorem loadPieces_canon {e : Env} {s : State} (h : Canon s) (ch : Nat) (xs : List (LaneAcc × Nat)) :
    Canon (endState (loadPieces e ch xs s)) := by
  unfold loadPieces
  grind [← afterLoad_canon, ← readLines_canon, ← biSend_canon, ← foldl_canon, Res.st, endState]

theorem loadPieces_ok {e : Env} {s : State} (h : Canon s) {ch : Nat} {xs : List (LaneAcc × Nat)} {t : State} {y}
    (hr : loadPieces e ch xs s = .ok (t, y)) :
    Canon t :=
  canon_of_ok (loadPieces_canon h ..) hr

theorem loadPieces_error {e : Env} {s : State} (h : Canon s) {ch : Nat} {xs : List (LaneAcc × Nat)} {r : Res}
    (hr : loadPieces e ch xs s = .error r) :
    Canon r.st :=
  canon_of_error (loadPieces_canon h ..) hr

theorem loadRange_canon {e : Env} {s : State} (h : Canon s) (b : GBase) (x : Int) (n align : Nat) :
    Canon (endState (loadRange e b x n align s)) := by
  unfold loadRange
  grind [→ loadPieces_ok, → loadPieces_error, → resolveRange_ok, → resolveRange_error, Res.st, endState]

theorem loadRange_ok {e : Env} {s : State} (h : Canon s) {b : GBase} {x : Int} {n align : Nat} {t : State} {y}
    (hr : loadRange e b x n align s = .ok (t, y)) :
    Canon t :=
  canon_of_ok (loadRange_canon h ..) hr

theorem loadRange_error {e : Env} {s : State} (h : Canon s) {b : GBase} {x : Int} {n align : Nat} {r : Res}
    (hr : loadRange e b x n align s = .error r) :
    Canon r.st :=
  canon_of_error (loadRange_canon h ..) hr

theorem rdcGiveUp_canon {s : State} (h : Canon s) (die loc n ca : Nat) : Canon (rdcGiveUp s die loc n ca) := by
  unfold rdcGiveUp
  grind [← rdcDrop_canon, ← foldl_canon]

theorem sliceRead_canon {s : State} (h : Canon s) (die loc n ca : Nat) : Canon (sliceRead s die loc n ca).1 := by
  unfold sliceRead
  grind [← hostPast_canon, ← spaceRead_canon, ← rdcGiveUp_canon]

theorem sendSteps_canon {s : State} (h : Canon s) (die core : Nat) (writes : Bool) (xs : List (Nat × Nat × Nat)) :
    Canon (sendSteps die core writes xs s) := by
  refine foldl_canon (fun {s} h x => ?_) _ h
  have hs : Canon (rdcGiveUp s die x.1 x.2.1 x.2.2) := rdcGiveUp_canon h ..
  dsimp only
  split
  · exact l1DropRange_canon hs ..
  · exact hs

theorem logDiscard_canon {s : State} (h : Canon s) (loc : Nat) :
    Canon (logDiscard s loc) := (KeepsForm.of_mem (logDiscard_mem ..)).wf h

theorem atomRead_canon {s : State} (h : Canon s) (die : Nat) (r : AtomReq) (n : Nat) :
    Canon (atomRead s die r n).1 := by
  unfold atomRead
  grind [← sliceRead_canon, ← rdcFillLine_canon, ← hostOwn_canon]

theorem atomWrite_canon {s : State} (h : Canon s) (die : Nat) (r : AtomReq) (loc : Nat) (bs : List Byte) :
    Canon (atomWrite s die r loc bs) := by
  unfold atomWrite
  grind [← rdcWrite_canon, ← spaceWrite_canon]

theorem atomPerform_canon {s : State} (h : Canon s) (die : Nat) (r : AtomReq) : Canon (atomPerform s die r).1 := by
  unfold atomPerform
  grind [← atomRead_canon, ← logDiscard_canon, ← atomWrite_canon]

theorem halfPerform_canon {s : State} (h : Canon s) (die : Nat) (r : AtomReq) (hi : Bool) :
    Canon (halfPerform s die r hi).1 := by
  unfold halfPerform
  grind [← atomRead_canon, ← logDiscard_canon, ← atomWrite_canon]

theorem atomWhole_canon {s : State} (h : Canon s) (die : Nat) (r : AtomReq) : Canon (atomWhole s die r).1 := by
  unfold atomWhole
  grind [← atomPerform_canon, ← halfPerform_canon]

theorem trainStep_canon {s : State} (h : Canon s) (die loc ctr m : Nat) (decay : Bool) :
    Canon (trainStep s die loc ctr m decay) := by
  unfold trainStep
  grind [← spaceWrite_canon, ← sliceRead_canon, ← logDiscard_canon]

theorem sliceApplyStep_canon {s : State} (h : Canon s) (id half : Nat) : Canon (sliceApplyStep id half s) := by
  unfold sliceApplyStep
  grind [← atomPerform_canon, ← unpost_canon, ← halfPerform_canon, ← trainStep_canon, ← biSend_canon]

theorem performNow_canon {s : State} (h : Canon s) (f : Slk) (die : Nat) (xs : List (AtomReq × List Nat)) :
    Canon (performNow f die s xs).1 := by
  induction xs generalizing s with
  | nil => exact h
  | cons x xs ih =>
    unfold performNow
    grind [← atomWhole_canon]

theorem atomgCheck_canon {e : Env} (h : Canon e.st) (f : Slk) : Canon (endState (atomgCheck f e)) := by
  exact resolveGlobal_canon h ..

theorem atomgCheck_ok {e : Env} (h : Canon e.st) {f : Slk} {t : State} {y} (hr : atomgCheck f e = .ok (t, y)) :
    Canon t :=
  canon_of_ok (atomgCheck_canon h ..) hr

theorem atomgCheck_error {e : Env} (h : Canon e.st) {f : Slk} {r : Res} (hr : atomgCheck f e = .error r) : Canon r.st :=
  canon_of_error (atomgCheck_canon h ..) hr

theorem atomgBody_canon {e : Env} (h : Canon e.st) (f : Slk) (xs : List LaneAcc) : Canon (atomgBody f xs e).st := by
  unfold atomgBody
  refine canon_st_of_eq_ite rfl h (canon_st_of_eq_ite rfl ?_ (canon_st_of_eq_ite rfl ?_
    (canon_st_of_eq_ite rfl h (canon_st_of_eq_ite rfl ?_ ?_))))
  · exact foldl_canon (fun h _ => biSend_canon h ..) _ h
  · exact canon_done (foldl_canon (fun h _ => post_canon h ..) _ (sendSteps_canon h ..))
  · exact foldl_canon (fun h _ => biSend_canon h ..) _ h
  · split
    next hp =>
      have hs := canon_fst (performNow_canon (sendSteps_canon h ..) ..) hp
      split
      · exact canon_st_ite (writeLong_canon hs ..) hs
      · exact writeLong_canon hs ..

theorem checkedFirst_canon {e : Env} {r : Res} (h : Canon r.st) : Canon (checkedFirst e r).st := by
  unfold checkedFirst
  split
  · exact commitRegion_canon h ..
  · exact h

theorem atomgOrd_canon {e : Env} (h : Canon e.st) (f : Slk) : Canon (atomgOrd f e).st := by
  unfold atomgOrd
  split
  · next hr => exact checkedFirst_canon (e := e) (atomgCheck_error h hr)
  · next hr =>
    exact committing_canon (releasing_canon (acquiring_canon (fun e h => atomgBody_canon h ..) _ _) _ _) _
      (by rw [Env.at_st]; exact atomgCheck_ok h hr)

theorem gathLanes_canon {e : Env} {s : State} (h : Canon s) (f : Slk) (xs : List LaneAcc) :
    Canon (gathLanes f e s xs).1 := by
  induction xs generalizing s with
  | nil => exact h
  | cons x xs ih =>
    unfold gathLanes
    grind [← sliceRead_canon]

theorem gathBody_canon {e : Env} (h : Canon e.st) (f : Slk) : Canon (gathBody f e).st := by
  unfold gathBody
  grind [← writeLong_canon, ← gathLanes_canon, → resolveGlobal_ok, → resolveGlobal_error, ← biSend_canon,
    ← foldl_fst_canon, ← foldl_canon, Res.st, endState]

theorem gathOrd_canon {e : Env} (h : Canon e.st) (f : Slk) : Canon (gathOrd f e).st := by
  unfold gathOrd
  split
  · exact committing_canon (acquiring_canon (fun e h => gathBody_canon h f) _ _) e h
  · exact gathBody_canon h f

theorem scatBody_canon {e : Env} (h : Canon e.st) (f : Slk) : Canon (scatBody f e).st := by
  unfold scatBody
  dsimp only
  split
  · next hr => exact resolveGlobal_error h hr
  · next hr =>
    have hs := resolveGlobal_ok h hr
    refine canon_st_of_eq_ite rfl hs (canon_st_of_eq_ite rfl (putStores_canon e hs ..) (canon_st_of_eq_ite rfl hs
      (canon_st_of_eq_ite rfl ?_ ?_)))
    · exact foldl_canon (fun h _ => biSend_canon h ..) _ hs
    · exact putStores_canon e (sendSteps_canon hs ..) ..

theorem scatOrd_canon {e : Env} (h : Canon e.st) (f : Slk) : Canon (scatOrd f e).st := by
  unfold scatOrd
  split
  · exact committing_canon (releasing_canon (fun e h => scatBody_canon h f) _ _) e h
  · exact scatBody_canon h f

theorem listBody_canon {e : Env} (h : Canon e.st) (gather : Bool) (f : Slk) : Canon (listBody gather f e).st := by
  unfold listBody
  refine canon_st_of_eq_ite rfl h ?_
  split
  · exact localTrap_canon h ..
  · split
    · exact localTrap_canon h ..
    · refine canon_st_of_eq_ite rfl h (canon_st_of_eq_ite rfl h
      (canon_st_of_eq_ite rfl (canon_done (writeLong_canon h ..))
        (canon_st_of_eq_ite rfl h (canon_st_of_eq_ite rfl h (canon_st_of_eq_ite rfl ?_ ?_)))))
      · exact foldl_canon (fun h _ => biSend_canon h ..) _ h
      · exact post_canon (modGroup_canon (sendSteps_canon h ..) ..) ..

theorem setPend_canon {s : State} (h : Canon s) (id : Nat) (k : PendKind) : Canon (setPend id k s) := h

theorem garnetEnd_canon {s : State} (h : Canon s) (p : Pend) (g : Garnet) (ecode : Nat) :
    Canon (garnetEnd p g ecode s) := h

theorem garnetNext_canon {s : State} (h : Canon s) (p : Pend) (g : Garnet) : Canon (garnetNext p g s) := by
  unfold garnetNext
  grind [← garnetEnd_canon, ← setPend_canon]

theorem garnetPoison_canon {s : State} (h : Canon s) (p : Pend) (g : Garnet) (k n : Nat) :
    Canon (garnetPoison p g k n s) := by
  unfold garnetPoison
  grind [← logEvent_canon, ← garnetEnd_canon, ← poolFix_canon]

theorem scatElement_canon {s : State} (h : Canon s) (p : Pend) (g : Garnet) (dk loc ca : Nat) :
    Canon (scatElement p g dk loc ca s) := by
  unfold scatElement
  grind [← spaceWrite_canon, ← garnetEnd_canon, ← sliceRead_canon, ← garnetNext_canon, ← poolFix_canon,
    ← logDiscard_canon, ← l1DropRange_canon]

theorem garnetStep_canon {s : State} (h : Canon s) (id : Nat) : Canon (garnetStep id s) := by
  unfold garnetStep
  split
  · split
    · refine canon_of_eq_ite rfl h ?_
      split
      · refine canon_of_eq_ite rfl h (canon_of_eq_ite rfl (garnetPoison_canon h ..) ?_)
        have hf {k n} := poolFix_canon h k n
        refine canon_of_eq_ite rfl (garnetNext_canon hf ..) (canon_of_eq_ite rfl (garnetEnd_canon hf ..) ?_)
        split
        · next ht =>
          have hs := canon_fst (translatePtr_canon hf ..) ht
          split
          next hp => exact setPend_canon (canon_fst (postFault_canon hs ..) hp) ..
        · next ht => exact garnetEnd_canon (canon_fst (translatePtr_canon hf ..) ht) ..
        · next ht => exact canon_fst (translatePtr_canon hf ..) ht
        · next ht =>
          have hs := canon_fst (translatePtr_canon hf ..) ht
          refine canon_of_eq_ite rfl hs (canon_of_eq_ite rfl (biSend_canon hs ..) (canon_of_eq_ite rfl ?_ ?_))
          · split
            next hr =>
              have hr := canon_fst (sliceRead_canon hs ..) hr
              exact canon_of_eq_ite rfl (garnetEnd_canon (logDiscard_canon hr ..) ..) (canon_of_eq_ite rfl
                (garnetPoison_canon hr ..) (garnetNext_canon (poolWrite_canon hr ..) ..))
          · exact canon_of_eq_ite rfl (garnetPoison_canon hs ..) (scatElement_canon hs ..)
      · exact garnetEnd_canon h ..
    · exact h
  · exact h

theorem garnetResumeStep_canon {s : State} (h : Canon s) (id : Nat) : Canon (garnetResumeStep id s) := by
  unfold garnetResumeStep
  grind [← garnetEnd_canon, ← setPend_canon]

/-! ### Barriers, circular buffers and monitors -/

theorem objectAt_ok {e e' : Env} (h : Canon e.st) {f : Slk} {acc n : Nat} {x : Nat × Nat}
    (hr : objectAt e f acc n = .ok (e', x)) : Canon e'.st := by
  unfold objectAt at hr
  grind [← poolFix_canon, Env.fixed]

theorem objectAt_error {e : Env} (h : Canon e.st) {f : Slk} {acc n : Nat} {r : Res}
    (hr : objectAt e f acc n = .error r) : Canon r.st := by
  unfold objectAt at hr
  grind [← poolRead_canon, ← localTrap_canon, Res.st]

theorem putBarrier_canon {s : State} (h : Canon s) (k : Nat) (b : Barrier) : Canon (putBarrier k b s) := by
  unfold putBarrier
  grind [← poolWrite_canon]

theorem binitBody_canon {e : Env} (h : Canon e.st) (f : Slk) : Canon (binitBody f e).st := by
  unfold binitBody
  split
  · next hr => exact objectAt_error h hr
  · next hr => exact putBarrier_canon (objectAt_ok h hr) ..

theorem bexpBody_canon {e : Env} (h : Canon e.st) (f : Slk) : Canon (bexpBody f e).st := by
  unfold bexpBody
  split
  · next hr => exact objectAt_error h hr
  · next hr =>
    have he := objectAt_ok h hr
    exact canon_st_of_eq_ite rfl he (putBarrier_canon he ..)

theorem barvBody_canon {e : Env} (h : Canon e.st) (f : Slk) : Canon (barvBody f e).st := by
  unfold barvBody
  split
  · next hr => exact objectAt_error h hr
  · next hr => exact writeLong_canon (putBarrier_canon (objectAt_ok h hr) ..) ..

theorem barLeave_canon {e : Env} (h : Canon e.st) (f : Slk) (st : Nat) : Canon (barLeave f e st).st := by
  unfold barLeave
  grind [← acquire_canon, ← writeLong_canon, Res.st]

theorem bwaitBody_canon {e : Env} (h : Canon e.st) (f : Slk) : Canon (bwaitBody f e).st := by
  unfold bwaitBody
  split
  · next hr => exact objectAt_error h hr
  · next hr =>
    have he := objectAt_ok h hr
    split
    · exact barLeave_canon he ..
    · exact he

theorem btryBody_canon {e : Env} (h : Canon e.st) (f : Slk) : Canon (btryBody f e).st := by
  unfold btryBody
  split
  · next hr => exact objectAt_error h hr
  · next hr => exact barLeave_canon (objectAt_ok h hr) ..

theorem bstBody_canon {e : Env} (h : Canon e.st) (f : Slk) : Canon (bstBody f e).st := by
  unfold bstBody
  split
  · next hr => exact objectAt_error h hr
  · next hr => exact writeLong_canon (objectAt_ok h hr) ..

theorem wakeFrom_canon {s : State} (h : Canon s) (w : Wait) (gid : Gid) : Canon (wakeFrom w gid s) := h

theorem wakeRetry_canon {s : State} (h : Canon s) (gid : Gid) : Canon (wakeRetry gid s) := h

theorem putCbuf_canon {s : State} (h : Canon s) (k : Nat) (c : Cbuf) : Canon (putCbuf k c s) := by
  unfold putCbuf
  grind [← poolWrite_canon]

theorem cbinitBody_canon {e : Env} (h : Canon e.st) (f : Slk) : Canon (cbinitBody f e).st := by
  unfold cbinitBody
  split
  · next hr => exact objectAt_error h hr
  · next hr =>
    have he := objectAt_ok h hr
    exact canon_st_of_eq_ite rfl he (canon_st_of_eq_ite rfl he (canon_st_of_eq_ite rfl he (putCbuf_canon he ..)))

theorem cbufBody_canon {body : Env → Nat → Cbuf → Res} (hb : ∀ {e : Env}, Canon e.st → ∀ k c, Canon (body e k c).st)
    (f : Slk) : KeepsCanon (cbufBody f body) := by
  intro e h
  unfold cbufBody
  split
  · next hr => exact objectAt_error h hr
  · next hr =>
    have he := objectAt_ok h hr
    dsimp only
    split
    · exact poolRead_canon he ..
    · split
      · exact hb (poolFix_canon he ..) ..
      · exact he

theorem cbgetBody_canon (f : Slk) (get : Cbuf → Option (Cbuf × Nat)) : KeepsCanon (cbgetBody f get) := by
  refine cbufBody_canon (fun {e} h k c => ?_) f
  split
  · exact h
  · exact writeLong_canon (putCbuf_canon h ..) ..

theorem cbputBody_canon (f : Slk) (put : Env → Cbuf → Option Cbuf) : KeepsCanon (cbputBody f put) := by
  refine cbufBody_canon (fun {e} h k c => ?_) f
  split
  · exact h
  · exact putCbuf_canon h ..

theorem setMon_canon {e : Env} {s : State} (h : Canon s) (f : Slk) (m : Monitor) : Canon (setMon e f m s) := h

theorem marmBody_canon {e : Env} (h : Canon e.st) (f : Slk) : Canon (marmBody f e).st := by
  conv in marmBody => delta marmBody
  split
  · next hr => exact resolveGlobal_error h hr
  · next hr => exact canon_done (foldl_canon (fun h _ => setMon_canon h ..) _ (resolveGlobal_ok h hr))

theorem marmLocBody_canon {e : Env} (h : Canon e.st) (f : Slk) : Canon (marmLocBody f e).st := by
  unfold marmLocBody
  grind [← setMon_canon, ← localTrap_canon, Res.st]

theorem mwaitBody_canon {e : Env} (h : Canon e.st) (f : Slk) : Canon (mwaitBody f e).st := by
  unfold mwaitBody
  grind [← mwaitLeave_canon, Res.st]

theorem fireSome_canon {s : State} (h : Canon s) (gid : Gid) (m : Nat) : Canon (fireSome gid m s) := by
  unfold fireSome
  grind [← modGroup_canon]

theorem tbarOpen_canon {s : State} (h : Canon s) (t : Team) : Canon (tbarOpen t s) := by
  unfold tbarOpen
  grind [← acquire_canon, ← modTeam_canon, ← foldl_canon]

theorem tbarBody_canon {e : Env} (h : Canon e.st) (f : Slk) : Canon (tbarBody f e).st := by
  unfold tbarBody
  grind [← acquire_canon, ← modTeam_canon, ← tbarOpen_canon, Res.st]

theorem tbarStep_canon {s : State} (h : Canon s) (uid : Nat) : Canon (tbarStep uid s) := by
  unfold tbarStep
  grind [← tbarOpen_canon]

/-! ### Instruction fetch -/

theorem icLine_canon {s : State} (h : Canon s) (core line ca : Nat) : Canon (icLine s core line ca).1 := by
  unfold icLine
  grind [← lowerLine_canon]

theorem countLatent_canon {s : State} (h : Canon s) (core line : Nat) (p : BitVec 2) :
    Canon (countLatent core line p s) := by
  unfold countLatent
  grind [← logEvent_canon]

theorem fetchSegs_canon {e : Env} {s : State} (h : Canon s) (rid : Nat) (xs : List (Nat × Nat)) (ys : List Byte) :
    Canon (fetchSegs e rid xs s ys).1 := by
  induction xs generalizing s ys with
  | nil => exact h
  | cons x xs ih =>
    unfold fetchSegs
    grind [← icLine_canon, ← translate_canon, ← countLatent_canon, ← biSend_canon]

theorem fetchAt_canon {e : Env} {s : State} (h : Canon s) (pc : DWord) : Canon (fetchAt e pc s).1 := by
  unfold fetchAt
  grind [← modGroup_canon, ← fetchSegs_canon]

theorem fetchQuiet_canon {e : Env} {s : State} (h : Canon s) (rid va n : Nat) : Canon (fetchQuiet e rid va n s).1 := by
  unfold fetchQuiet
  grind [← icLine_canon, ← translate_canon, ← countLatent_canon]

theorem fetchAhead_canon {e : Env} (h : Canon e.st) (pc : DWord) : Canon (fetchAhead e pc) := by
  unfold fetchAhead
  grind [← modGroup_canon, ← fetchQuiet_canon, ← foldl_fst_canon, ← foldl_canon]

theorem fetchRes_canon {e : Env} (h : Canon e.st) (pc : DWord) : Canon (endState (fetchRes e pc)) := by
  unfold fetchRes
  grind [← fetchAt_canon, Res.st, endState]

theorem fetchRes_ok {e : Env} (h : Canon e.st) {pc : DWord} {t : State} {y} (hr : fetchRes e pc = .ok (t, y)) :
    Canon t :=
  canon_of_ok (fetchRes_canon h ..) hr

theorem fetchRes_error {e : Env} (h : Canon e.st) {pc : DWord} {r : Res} (hr : fetchRes e pc = .error r) : Canon r.st :=
  canon_of_error (fetchRes_canon h ..) hr

/-! ### Turns -/

theorem clearRetry_canon {s : State} (h : Canon s) : Canon (clearRetry s) := by
  unfold clearRetry
  grind

theorem tick_canon {s : State} (h : Canon s) (issued : Option Gid) : Canon (tick issued s) := h

/-! ### Peridot and walks -/

theorem mstCheck_canon {e : Env} (h : Canon e.st) (f : Slk) : Canon (endState (mstCheck f e)) := by
  exact resolveGlobal_canon h ..

theorem mstCheck_ok {e : Env} (h : Canon e.st) {f : Slk} {t : State} {y} (hr : mstCheck f e = .ok (t, y)) : Canon t :=
  canon_of_ok (mstCheck_canon h ..) hr

theorem mstCheck_error {e : Env} (h : Canon e.st) {f : Slk} {r : Res} (hr : mstCheck f e = .error r) : Canon r.st :=
  canon_of_error (mstCheck_canon h ..) hr

theorem mstBody_canon {e : Env} (h : Canon e.st) (f : Slk) (xs : List LaneAcc) : Canon (mstBody f xs e).st := by
  unfold mstBody
  grind [← post_canon, ← foldl_canon, Res.st]

theorem mstOrd_canon {e : Env} (h : Canon e.st) (f : Slk) : Canon (mstOrd f e).st := by
  unfold mstOrd
  split
  · next hr => exact checkedFirst_canon (e := e) (mstCheck_error h hr)
  · next hr =>
    exact committing_canon (fun e h => mstBody_canon h ..) _ (by rw [Env.at_st]; exact mstCheck_ok h hr)

theorem peridotTake_canon {s : State} (h : Canon s) (id : Nat) : Canon (peridotTake id s) := by
  unfold peridotTake
  grind [← l2Evict_canon, ← unpost_canon, ← setPend_canon, ← mgmtRead_canon, ← mgmtWrite_canon, ← biSend_canon]

theorem mediaRead_canon {s : State} (h : Canon s) (loc n : Nat) :
    Canon (mediaRead s loc n).1 := (KeepsForm.of_mem (mediaRead_mem ..)).wf h

theorem peridotPerform_canon {s : State} (h : Canon s) (id : Nat) :
    Canon (peridotPerform id s) := (peridotPerform_keepsForm ..).wf h

theorem wstBody_canon {e : Env} (h : Canon e.st) (f : Slk) : Canon (wstBody f e).st := by
  unfold wstBody
  grind [← modGroup_canon, ← writeLong_canon, Res.st]

theorem wprogBody_canon {e : Env} (h : Canon e.st) (f : Slk) : Canon (wprogBody f e).st := by
  unfold wprogBody
  grind [→ loadRange_ok, → loadRange_error, ← faultOutside_canon, ← State.setCtx_canon, Res.st, endState]

theorem startWalk_canon {e : Env} {s : State} (h : Canon s) (f : Slk) (l progNo : Nat) (prog : List (BitVec 64))
    (rule : Nat) (p : DWord) (stack : Nat) :
    Canon (startWalk e f l progNo prog rule p stack s) := h

theorem walkBody_canon {e : Env} (h : Canon e.st) (f : Slk) : Canon (walkBody f e).st := by
  unfold walkBody
  grind [← startWalk_canon, → resolveGlobal_ok, → resolveGlobal_error, ← foldl_fst_canon, ← foldl_canon, Res.st,
    endState]

theorem wresLane_canon (e : Env) {s : State} (h : Canon s) (f : Slk) (l : Nat) : Canon (wresLane f e s l) := by
  conv in wresLane => delta wresLane
  refine canon_of_eq_ite rfl h (canon_of_eq_ite rfl h ?_)
  split
  next ht => exact startWalk_canon (canon_fst (translatePtr_canon h ..) ht) ..

theorem wresLook_canon {e : Env} {s t : State} (h : Canon s) {f : Slk} {l : Nat} {x : Look}
    (hr : wresLook f e s l = some (t, x)) : Canon t := by
  conv at hr in wresLook => delta wresLook
  have hr : (if _ then some _ else none) = some (t, x) := hr
  split at hr
  · exact canon_fst (translatePtr_canon h ..) (Option.some.inj hr)
  · cases hr

theorem wresHeld_canon {e : Env} {s : State} (h : Canon e.st) {f : Slk} (hr : wresHeld f e = some s) : Canon s := by
  obtain ⟨l, -, hl⟩ := List.exists_of_findSome?_eq_some hr
  grind [→ wresLook_canon]

theorem wresBody_canon {e : Env} (h : Canon e.st) (f : Slk) : Canon (wresBody f e).st := by
  conv in wresBody => delta wresBody
  split
  · next hr => exact wresHeld_canon h hr
  · refine canon_st_of_eq_ite rfl h (canon_done (foldl_canon_of_eq (fun h l ht => ?_) _ h))
    rw [ht]
    exact wresLane_canon e h ..

theorem walkEnd_canon {s : State} (h : Canon s) (w : Walk) (status rule : Nat) (res : Bool) (fcode : Nat) (p : DWord)
    (record : List Byte) :
    Canon (walkEnd w status rule res fcode p record s) := h

theorem setWalk_canon {s : State} (h : Canon s) (w : Walk) : Canon (setWalk w s) := h

theorem walkFault_canon {s : State} (h : Canon s) (w : Walk) (va : Nat) : Canon (walkFault w va s) := by
  unfold walkFault
  grind [← postFault_canon, ← walkEnd_canon, ← setWalk_canon]

theorem walkRead_ok {w : Walk} {va n align : Nat} {s t : State} (h : Canon s) {x : Walk × Nat}
    (hr : walkRead w va n align s = .ok (t, x)) : Canon t := by
  unfold walkRead at hr
  grind [← translate_canon, ← mediaRead_canon]

theorem walkRead_error {w : Walk} {va n align : Nat} {s t : State} (h : Canon s)
    (hr : walkRead w va n align s = .error t) : Canon t := by
  unfold walkRead at hr
  grind [← translate_canon, ← mediaRead_canon, ← walkEnd_canon, ← walkFault_canon]

theorem walkNext_canon {s : State} (h : Canon s) (w : Walk) (next : Nat) : Canon (walkNext w next s) := by
  unfold walkNext
  grind [← walkEnd_canon, ← setWalk_canon]

theorem ruleCompare_canon {s : State} (h : Canon s) (r : Rule) (k : Walk → Nat) (w : Walk) (x : Nat) :
    Canon (ruleCompare r k w x s) := by
  unfold ruleCompare
  grind [← walkNext_canon]

theorem ruleFollow_canon {s : State} (h : Canon s) (r : Rule) (w : Walk) (q : Nat) : Canon (ruleFollow r w q s) := by
  unfold ruleFollow
  grind [← walkEnd_canon, ← setWalk_canon]

theorem ruleSelect_canon {s : State} (h : Canon s) (r : Rule) (w : Walk) (k : Nat) : Canon (ruleSelect r w k s) := by
  unfold ruleSelect
  grind [← walkNext_canon]

theorem ruleReturn_canon {s : State} (h : Canon s) (r : Rule) (w : Walk) (x : Nat) : Canon (ruleReturn r w x s) := h

theorem walkMove_canon {s : State} (h : Canon s) (id : Nat) : Canon (walkMove id s) := by
  unfold walkMove
  grind [← translate_canon, ← setWalk_canon]

theorem walkAccept_canon {s : State} (h : Canon s) (w : Walk) : Canon (walkAccept w s) := by
  unfold walkAccept
  grind [← walkEnd_canon, ← setWalk_canon]

theorem walkUnpark_canon {s : State} (h : Canon s) (id : Nat) : Canon (walkUnpark id s) := by
  unfold walkUnpark
  grind [← walkEnd_canon, ← setWalk_canon]

/-! ### The engines' reach -/

theorem engineRead_canon {s : State} (h : Canon s) (die : Nat) (ps : List (Nat × Nat × Nat)) :
    Canon (engineRead s die ps).1 := by
  unfold engineRead
  grind [← lowerLine_canon, ← mgmtRead_canon, ← foldl_fst_canon, ← foldl_canon]

theorem engineWrite_canon {s : State} (h : Canon s) (core : Nat) (ps : List (Nat × Nat × Nat)) (bs : List Byte) :
    Canon (engineWrite s core ps bs) := by
  unfold engineWrite
  grind [← acceptStore_canon, ← l1DropRange_canon, ← mgmtWrite_canon, ← foldl_fst_canon, ← foldl_canon]

theorem engineReach_canon {s : State} (h : Canon s) (c ptr : Nat) (disp : Int) (n align : Nat) (acc : Acc) :
    Canon (engineReach s c ptr disp n align acc).1 := by
  unfold engineReach
  grind [← translateRange_canon, ← biSend_canon, ← foldl_canon]

theorem engineLoad_canon {s : State} (h : Canon s) (c core ptr : Nat) (disp : Int) (n align : Nat) :
    Canon (engineLoad s c core ptr disp n align).1 := by
  unfold engineLoad
  grind [← engineRead_canon, ← engineReach_canon]

theorem engineStore_canon {s : State} (h : Canon s) (c core ptr : Nat) (disp : Int) (align : Nat) (bs : List Byte) :
    Canon (engineStore s c core ptr disp align bs).1 := by
  unfold engineStore
  grind [← engineWrite_canon, ← engineReach_canon]

/-! ### Agate -/

theorem stopRing_canon {s : State} (h : Canon s) (k ecode : Nat) (eidx : Option Nat) :
    Canon (stopRing k ecode eidx s) := by
  unfold stopRing
  grind [← poolWrite_canon]

theorem settleRing_canon {s : State} (h : Canon s) (uid ring : Nat) : Canon (settleRing uid ring s) := h

theorem ringError_canon {s : State} (h : Canon s) (k ecode : Nat) (ordinal : Word) :
    Canon (ringError k ecode ordinal s) := by
  unfold ringError
  grind [← poolFix_canon, ← poolWrite_canon]

theorem logPool_canon {s : State} (h : Canon s) (core k n : Nat) : Canon (logPool core k n s) := by
  unfold logPool
  grind [← logEvent_canon, ← poolFix_canon]

theorem Copy.readIdx_canon {s : State} (h : Canon s) (c : Copy) (t : Team) : Canon (Copy.readIdx c s t).1 := by
  unfold Copy.readIdx
  grind [← poolFix_canon]

theorem Copy.claimSlot_canon {s : State} (h : Canon s) (c : Copy) (t : Team) : Canon (Copy.claimSlot c s t).1 := by
  unfold Copy.claimSlot
  grind [← putCbuf_canon, ← logPool_canon, ← poolFix_canon]

theorem takeEntry_canon {s : State} (h : Canon s) (t : Team) (ring : Nat) : Canon (takeEntry t ring s) := by
  conv in takeEntry => delta takeEntry
  have hf : Canon (poolFix s (ringKey s t ring) 16) := poolFix_canon h ..
  have hp {l : List Nat} {g : Nat → Nat} :
      Canon (l.foldl (fun s i => poolFix s (g i) 32) (poolFix s (ringKey s t ring) 16)) :=
    foldl_canon (fun h _ => poolFix_canon h ..) _ hf
  refine canon_of_eq_ite rfl (settleRing_canon (logPool_canon (stopRing_canon hf ..) ..) ..)
    (canon_of_eq_ite rfl (settleRing_canon hf ..) (canon_of_eq_ite rfl (settleRing_canon (stopRing_canon hf ..) ..)
    (canon_of_eq_ite rfl (settleRing_canon (stopRing_canon hf ..) ..) (canon_of_eq_ite rfl hf
    (canon_of_eq_ite rfl hf (canon_of_eq_ite rfl (settleRing_canon hp ..) (canon_of_eq_ite rfl
    (settleRing_canon (logPool_canon (stopRing_canon hp ..) ..) ..) ?_)))))))
  extract_lets ext
  split
  extract_lets c comp
  split
  · next hq => exact canon_fst (canon_fst_ite (Copy.claimSlot_canon hp ..) hp) hq
  · next hq =>
    have hs := canon_fst (canon_fst_ite (Copy.claimSlot_canon hp ..) hp) hq
    clear hq
    split
    · refine engineLoad_canon (s := List.foldl _ _ _) ?_ ..
      exact hp
    · next hl =>
      have hl := canon_fst (engineLoad_canon hs ..) hl
      extract_lets s1
      split
      extract_lets c1 lost fail
      split
      next s2 idx hi =>
      have hi := canon_fst (Copy.readIdx_canon (s := s1) hl ..) hi
      clear_value fail
      have hk (f : Option Nat) {s : State} (h : Canon s) (k : Nat) (w : Word) :
          Canon (match f with | some x => ringError k x w s | none => s) := by
        cases f with
        | none => exact h
        | some x => exact ringError_canon h ..
      refine canon_of_eq_ite rfl (hk fail (poolWrite_canon ?_ _ _) _ _) (hk fail (poolWrite_canon ?_ _ _) _ _)
      · exact hi
      · exact hi

theorem agateStep_canon {s : State} (h : Canon s) (uid ring : Nat) : Canon (agateStep uid ring s) := by
  unfold agateStep
  grind [← takeEntry_canon]

theorem Copy.putLocal_canon {s : State} (h : Canon s) (c : Copy) (t : Team) (x : Int) (bs : List Byte) :
    Canon (Copy.putLocal c t x bs s) := by
  unfold Copy.putLocal
  grind [← poolWrite_canon, ← foldl_canon]

theorem Copy.getLocal_canon {s : State} (h : Canon s) (c : Copy) (t : Team) (x : Int) (n : Nat) :
    Canon (Copy.getLocal c t x n s).1 := by
  unfold Copy.getLocal
  split
  · exact h
  · have hs {l} {f : Nat → Nat} : Canon (List.foldl (fun s w => (poolRead s (f w) 8).1) s l) :=
      foldl_canon (fun h _ => poolRead_canon h ..) _ h
    exact canon_fst_of_eq_ite rfl hs hs

theorem Copy.getGlobal_canon {s : State} (h : Canon s) (c : Copy) (t : Team) (x : Int) (n : Nat) :
    Canon (Copy.getGlobal c t x n s).1 := by
  unfold Copy.getGlobal
  grind [← engineRead_canon, ← engineReach_canon]

theorem Copy.readScales_canon {s : State} (h : Canon s) (c : Copy) (t : Team) (goff : Int) (m : Nat) :
    Canon (Copy.readScales c t goff m s).1 := by
  unfold Copy.readScales
  grind [← Copy.getGlobal_canon, ← Copy.getLocal_canon, ← foldl_fst_canon, ← foldl_canon]

theorem Copy.read_canon {s : State} (h : Canon s) (c : Copy) (t : Team) (m : Nat) : Canon (c.read t m s).1 := by
  conv in Copy.read => delta Copy.read
  split
  · exact h
  · exact h
  · refine canon_fst_of_eq_ite rfl (canon_fst_of_eq_ite rfl h h)
      (canon_fst_of_eq_ite rfl ?_ (canon_fst_of_eq_ite rfl h ?_))
    · split
      · next hg => exact canon_fst (Copy.getGlobal_canon h ..) hg
      · next hg =>
        have hs {goff} := Copy.readScales_canon (canon_fst (Copy.getGlobal_canon h ..) hg) c t goff m
        beta_reduce
        split
        · next hr => exact canon_fst hs hr
        · next hr => exact canon_fst hs hr
    · split
      · next hg => exact canon_fst (Copy.getLocal_canon h ..) hg
      · next hg =>
        have hs {goff} := Copy.readScales_canon (canon_fst (Copy.getLocal_canon h ..) hg) c t goff m
        beta_reduce
        split
        · next hr => exact canon_fst hs hr
        · next hr => exact canon_fst hs hr

theorem Copy.canWrite_canon {s : State} (h : Canon s) (c : Copy) (t : Team) (ps : List (Nat × Int × List Byte)) :
    Canon (Copy.canWrite c t ps s).1 := by
  unfold Copy.canWrite
  grind [← engineReach_canon, ← foldl_fst_canon, ← foldl_canon]

theorem Copy.writeUnit_canon {s : State} (h : Canon s) (c : Copy) (t : Team) (arr : Nat) (u : Int) :
    Canon (Copy.writeUnit c t arr u s).1 := by
  unfold Copy.writeUnit
  refine canon_fst_of_eq_ite rfl (foldl_canon (fun h x => Copy.putLocal_canon h ..) _ h)
    (foldl_fst_canon (fun {y} h x => ?_) _ h)
  obtain ⟨s, r⟩ := y
  cases r with
  | error => exact h
  | ok => exact engineStore_canon h ..

theorem Copy.flush_canon {s : State} (h : Canon s) (t : Team) (xs : List (Nat × Int)) (x : Copy) :
    Canon (Copy.flush t xs x s).1 := by
  induction xs generalizing s x with
  | nil => exact h
  | cons x xs ih =>
    unfold Copy.flush
    grind [← Copy.writeUnit_canon]

theorem setCopy_canon {s : State} (h : Canon s) (c : Copy) : Canon (setCopy c s) := h

theorem Copy.logIndex_canon {s : State} (h : Canon s) (c : Copy) (t : Team) : Canon (Copy.logIndex c t s) := by
  unfold Copy.logIndex
  grind [← logPool_canon]

theorem Copy.stop_canon {s : State} (h : Canon s) (c : Copy) (t : Team) (x : Stop) : Canon (Copy.stop c t s x) := by
  unfold Copy.stop
  grind [← setCopy_canon, ← Copy.logIndex_canon, ← postFault_canon]

theorem Copy.emptied_canon {s : State} (h : Canon s) (c : Copy) (t : Team) (us : List (Nat × Int))
    {k : Copy → State → State} (hk : ∀ {s : State}, Canon s → ∀ c, Canon (k c s)) : Canon (c.emptied t us s k) := by
  unfold Copy.emptied
  grind [← Copy.flush_canon, ← Copy.stop_canon]

theorem moveOne_canon {s : State} (h : Canon s) (t : Team) (c : Copy) : Canon (moveOne t c s) := by
  unfold moveOne
  dsimp only
  split
  · exact h
  · grind [← Copy.read_canon, ← Copy.canWrite_canon, ← Copy.stop_canon, ← Copy.emptied_canon, ← setCopy_canon]

theorem copyStep_canon {s : State} (h : Canon s) (op id : Nat) : Canon (copyStep op id s) := by
  unfold copyStep
  split
  · exact h
  · split
    · exact h
    · split
      · exact h
      · split
        · exact Copy.emptied_canon h _ _ _ fun h _ => setCopy_canon h ..
        · exact moveOne_canon h ..

theorem Copy.signal_canon {s : State} (h : Canon s) (c : Copy) (t : Team) (a : Nat) :
    Canon (Copy.signal c t a s).1 := by
  unfold Copy.signal
  grind [← putCbuf_canon, ← logPool_canon, ← poolFix_canon, ← poolWrite_canon, ← putBarrier_canon]

theorem considerRings_canon {s : State} (h : Canon s) (core : Nat) : Canon (considerRings core s) := h

theorem Copy.finish_canon {s : State} (h : Canon s) (c : Copy) (t : Team) (written : Bool) :
    Canon (Copy.finish c t written s) := by
  unfold Copy.finish
  grind [← considerRings_canon, ← ringError_canon]

theorem completeStep_canon {s : State} (h : Canon s) (id : Nat) : Canon (completeStep id s) := by
  unfold completeStep
  split
  · exact h
  · split
    · exact h
    · refine canon_of_eq_ite rfl h (canon_of_eq_ite rfl ?_ ?_)
      · split
        · next ht =>
          have hs := canon_fst (translatePtr_canon h ..) ht
          split
          next hp => exact setCopy_canon (canon_fst (postFault_canon hs ..) hp) ..
        · next ht => exact canon_fst (translatePtr_canon h ..) ht
        · next ht => exact Copy.finish_canon (canon_fst (translatePtr_canon h ..) ht) ..
        · next ht =>
          have hs := canon_fst (translatePtr_canon h ..) ht
          refine canon_of_eq_ite rfl (biSend_canon hs ..) ?_
          split
          next hr =>
            have hr := canon_fst (engineRead_canon hs ..) hr
            exact canon_of_eq_ite rfl (Copy.finish_canon (logDiscard_canon hr ..) ..)
              (Copy.finish_canon (engineWrite_canon hr ..) ..)
      · split
        next hf =>
          refine Copy.finish_canon (canon_fst (foldl_fst_canon (fun {y} h a => ?_) _ ?_) hf) ..
          · exact Copy.signal_canon h ..
          · exact h

theorem copyUnpark_canon {s : State} (h : Canon s) (id : Nat) : Canon (copyUnpark id s) := by
  unfold copyUnpark
  grind [← setCopy_canon, ← Copy.finish_canon]

theorem anotBody_canon {e : Env} (h : Canon e.st) (f : Slk) : Canon (anotBody f e).st := by
  unfold anotBody
  dsimp only
  split
  · exact localTrap_canon h ..
  · refine canon_st_of_eq_ite rfl h ?_
    split
    · exact poolRead_canon h ..
    · have hf {k} : Canon (e.fixed k 16).st := poolFix_canon h ..
      exact canon_st_of_eq_ite rfl hf (canon_st_of_eq_ite rfl hf
        (writeLong_canon (canon_ite hf (ringKick_canon (poolWrite_canon hf ..) ..)) ..))

/-! ### Beryl -/

theorem countBank_canon {s : State} (h : Canon s) (id : Nat) (b : Bank) (ws : List Nat) :
    Canon (countBank id b ws s) := by
  unfold countBank
  grind [← logEvent_canon, ← foldl_canon]

theorem writeRecord_canon {s : State} (h : Canon s) (p : Pend) (ptr disp : Nat) (bs : List Byte) (poison : Bool) :
    Canon (writeRecord s p ptr disp bs poison).1 := by
  unfold writeRecord
  grind [← spaceWrite_canon, ← hostPast_canon, ← homePoison_canon, ← l1DropRange_canon, ← translateRange_canon,
    ← biSend_canon, ← foldl_fst_canon, ← foldl_canon]

theorem insertOne_canon {s : State} (h : Canon s) (p : Pend) (b : Bank) (xs : List Word) (tag : Word) :
    Canon (insertOne p s b xs tag).1 := by
  unfold insertOne
  grind [← writeRecord_canon]

theorem insertAll_canon {p : Pend} {s t : State} (h : Canon s) {b : Bank} {ls : List (Nat × Word × List Word)}
    {x : Bank × List (Nat × Nat)} (hr : insertAll p s b ls = .ok (t, x)) : Canon t := by
  induction ls generalizing s b x with
  | nil => cases hr; exact h
  | cons l ls ih =>
    unfold insertAll at hr
    grind [← insertOne_canon]

theorem setBank_canon {s : State} (h : Canon s) (id : Nat) (b : Bank) : Canon (setBank id b s) := h

theorem berylDone_canon {s : State} (h : Canon s) (p : Pend) (ws : List RegWrite) : Canon (berylDone p ws s) := h

theorem dumpRun_canon {s : State} (h : Canon s) (p : Pend) (bank : Nat) (b : Bank) (ptr : DWord) (n dst k : Nat)
    (ks : List Nat) : Canon (dumpRun p bank b ptr n dst k ks s) := by
  induction ks generalizing s k with
  | nil => exact berylDone_canon h ..
  | cons x ks ih =>
    unfold dumpRun
    grind [← berylDone_canon, ← writeRecord_canon, ← postFault_canon, ← setPend_canon]

theorem bankPerform_canon {s : State} (h : Canon s) (p : Pend) (bank : Nat) (b : Bank) (op : BerylOp) :
    Canon (bankPerform p bank b op s) := by
  unfold bankPerform
  dsimp only
  split
  · exact berylDone_canon (setBank_canon h ..) ..
  · split
    · exact h
    · next hr => exact berylDone_canon (setBank_canon (insertAll_canon (by exact h) hr) ..) ..
  · exact h
  · exact berylDone_canon (setBank_canon h ..) ..
  · exact berylDone_canon (setBank_canon h ..) ..
  · exact berylDone_canon (setBank_canon h ..) ..
  · exact canon_of_eq_ite rfl h (dumpRun_canon h ..)

theorem berylStep_canon {s : State} (h : Canon s) (id : Nat) : Canon (berylStep id s) := by
  unfold berylStep
  split
  · exact h
  · split
    · refine canon_of_eq_ite rfl h ?_
      split
      · exact canon_of_eq_ite rfl (bankPerform_canon h ..)
          (bankPerform_canon (setBank_canon (countBank_canon h ..) ..) ..)
      · exact h
    · exact h

theorem dumpResume_canon {s : State} (h : Canon s) (id : Nat) : Canon (dumpResume id s) := by
  unfold dumpResume
  grind [← berylDone_canon, ← setPend_canon]

theorem bankCheck_error {e : Env} (h : Canon e.st) {f : Slk} {fresh : Bool} {r : Res}
    (hr : bankCheck e f fresh = .error r) : Canon r.st := by
  unfold bankCheck at hr
  grind [Res.st]

theorem postBeryl_canon {e : Env} {s : State} (h : Canon s) (f : Slk) (op : BerylOp) (ds : List RegDst) :
    Canon (postBeryl e f op ds s).st := h

theorem berylBody_canon {body : Bank → Env → Res} (hb : ∀ b, KeepsCanon (body b)) (f : Slk) (fresh all : Bool) :
    KeepsCanon (berylBody f fresh all body) := by
  refine inService_canon (committing_canon fun e h => ?_)
  split
  · exact h
  · split
    · next hr => exact bankCheck_error h hr
    · exact hb _ e h

theorem ccfgBody_canon {e : Env} (h : Canon e.st) (f : Slk) (b : Bank) : Canon (ccfgBody f b e).st := by
  unfold ccfgBody
  grind [→ loadRange_ok, → loadRange_error, ← faultOutside_canon, ← postBeryl_canon, Res.st, endState]

theorem vectors_go_error {e : Env} (h : Canon e.st) {f : Slk} {d : Nat} {ls : List Nat} {r : Res}
    (hr : vectors.go e f d ls = .error r) : Canon r.st := by
  induction ls generalizing r with
  | nil => cases hr
  | cons l ls ih =>
    unfold vectors.go at hr
    grind [← localTrap_canon]

theorem vectors_canon {e : Env} (h : Canon e.st) (f : Slk) (d : Nat) : Canon (endState (vectors e f d)) := by
  unfold vectors
  split
  · next hr => exact vectors_go_error h hr
  · have hs := poolTouch_canon h (4 * d) ‹_›
    dsimp only
    split <;> exact hs

theorem vectors_ok {e : Env} (h : Canon e.st) {f : Slk} {d : Nat} {t : State} {y} (hr : vectors e f d = .ok (t, y)) :
    Canon t :=
  canon_of_ok (vectors_canon h ..) hr

theorem vectors_error {e : Env} (h : Canon e.st) {f : Slk} {d : Nat} {r : Res} (hr : vectors e f d = .error r) :
    Canon r.st :=
  canon_of_error (vectors_canon h ..) hr

theorem cinsBody_canon {e : Env} (h : Canon e.st) (f : Slk) (b : Bank) : Canon (cinsBody f b e).st := by
  unfold cinsBody
  grind [← postBeryl_canon, → vectors_ok, → vectors_error, Res.st, endState]

theorem cnearBody_canon {e : Env} (h : Canon e.st) (f : Slk) (b : Bank) : Canon (cnearBody f b e).st := by
  unfold cnearBody
  grind [← postBeryl_canon, → vectors_ok, → vectors_error, Res.st, endState]

theorem cmrgBody_canon {e : Env} (h : Canon e.st) (f : Slk) (x : Bank) : Canon (cmrgBody f x e).st := by
  unfold cmrgBody
  grind [← postBeryl_canon, Res.st]

theorem crdBody_canon {e : Env} (h : Canon e.st) (f : Slk) (b : Bank) : Canon (crdBody f b e).st := by
  unfold crdBody
  grind [← setBank_canon, ← writeLong_canon, ← countBank_canon, Res.st]

theorem cclrBody_canon {e : Env} (h : Canon e.st) (f : Slk) (b : Bank) : Canon (cclrBody f b e).st := by
  unfold cclrBody
  grind [← postBeryl_canon, Res.st]

theorem cdumpBody_canon {e : Env} (h : Canon e.st) (f : Slk) (x : Bank) : Canon (cdumpBody f x e).st := by
  unfold cdumpBody
  grind [← postBeryl_canon, Res.st]

end Sys2Proof.Machine
end

section
/-! SUPPORT. Memory stays in canonical form: global memory, scheduling, the front end and the matrix array (O6). -/

namespace Sys2Proof.Machine

/-! ### Global loads and stores -/

theorem loadLanes_canon {e : Env} {s : State} (h : Canon s) (f : Slk) (ch : Nat) (xs : List LaneAcc) :
    Canon (loadLanes e f ch s xs).1 := by
  induction xs generalizing s with
  | nil => exact h
  | cons x xs ih =>
    unfold loadLanes
    grind [← loadBytes_canon]

theorem loadResolved_canon {e : Env} {s : State} (h : Canon s) (f : Slk) (ch : Nat) (xs : List LaneAcc) :
    Canon (loadResolved e f ch s xs).st := by
  unfold loadResolved
  grind [← loadLanes_canon, ← writeLong_canon, ← afterLoad_canon, ← biSend_canon, ← foldl_canon, Res.st]

theorem ldgBody_canon {e : Env} (h : Canon e.st) (f : Slk) : Canon (ldgBody f e).st := by
  unfold ldgBody
  grind [← loadResolved_canon, → resolveGlobal_ok, → resolveGlobal_error, Res.st, endState]

theorem ldgOrd_canon {e : Env} (h : Canon e.st) (f : Slk) : Canon (ldgOrd f e).st := by
  unfold ldgOrd
  split
  · exact committing_canon (acquiring_canon (fun e h => ldgBody_canon h f) _ _) e h
  · exact ldgBody_canon h f

theorem resolveArgs_canon {e : Env} {s : State} (h : Canon s) (f : Slk) (xs : List Nat) :
    Canon (endState (resolveArgs e f s xs)) := by
  induction xs generalizing s with
  | nil => exact h
  | cons x xs ih =>
    unfold resolveArgs
    grind [→ resolveGlobal_ok, → resolveGlobal_error, Res.st, endState]

theorem resolveArgs_ok {e : Env} {s : State} (h : Canon s) {f : Slk} {xs : List Nat} {t : State} {y}
    (hr : resolveArgs e f s xs = .ok (t, y)) :
    Canon t :=
  canon_of_ok (resolveArgs_canon h ..) hr

theorem resolveArgs_error {e : Env} {s : State} (h : Canon s) {f : Slk} {xs : List Nat} {r : Res}
    (hr : resolveArgs e f s xs = .error r) :
    Canon r.st :=
  canon_of_error (resolveArgs_canon h ..) hr

theorem ldcBody_canon {e : Env} (h : Canon e.st) (f : Slk) : Canon (ldcBody f e).st := by
  unfold ldcBody
  grind [→ resolveArgs_ok, → resolveArgs_error, ← loadResolved_canon, Res.st, endState]

theorem stgBody_canon {e : Env} (h : Canon e.st) (f : Slk) : Canon (stgBody f e).st := by
  unfold stgBody
  grind [← putStores_canon, → resolveGlobal_ok, → resolveGlobal_error, Res.st, endState]

theorem stgOrd_canon {e : Env} (h : Canon e.st) (f : Slk) : Canon (stgOrd f e).st := by
  unfold stgOrd
  split
  · exact committing_canon (releasing_canon (fun e h => stgBody_canon h f) _ _) e h
  · exact stgBody_canon h f

theorem acceptAt_canon {s : State} (h : Canon s) (p : Pend) (st : Store) : Canon (acceptAt p st s) := by
  unfold acceptAt
  grind [← acceptStore_canon, ← sliceRead_canon, ← logDiscard_canon, ← post_canon, ← mgmtWrite_canon]

theorem storeStep_canon {s : State} (h : Canon s) (id : Nat) : Canon (storeStep id s) := by
  unfold storeStep
  grind [← acceptAt_canon, ← unpost_canon, ← biSend_canon]

theorem basePage_canon {s : State} (h : Canon s) (c rid va : Nat) : Canon (basePage s c rid va).1 := by
  unfold basePage
  grind [← walkFrom_canon]

theorem runFrom_canon {s : State} (h : Canon s) (c rid va loc perm ca limit k j : Nat) (b : Bool) :
    Canon (runFrom c rid va loc perm ca limit k s j b).1 := by
  induction k generalizing s j b with
  | zero => exact h
  | succ k ih =>
    unfold runFrom
    refine canon_fst_of_eq_ite rfl h ?_
    split
    · next hb => exact canon_fst (basePage_canon h ..) hb
    · next hb => exact canon_fst (basePage_canon h ..) hb
    · next hb =>
      have hs := canon_fst (basePage_canon h ..) hb
      split
      exact canon_fst_of_eq_ite rfl hs (ih (markLeaf_canon hs ..) ..)

theorem baseBound_canon {s : State} (h : Canon s) (c rid va : Nat) : Canon (baseBound s c rid va).1 := by
  unfold baseBound
  grind [← boundsEntry_canon]

theorem bsetBody_canon {e : Env} (h : Canon e.st) (f : Slk) : Canon (bsetBody f e).st := by
  unfold bsetBody
  grind [← basePage_canon, ← runFrom_canon, ← modGroup_canon, ← baseBound_canon, ← biSend_canon, Res.st]

theorem rgnOpenBody_canon : KeepsCanon rgnOpenBody := committing_canon fun e h => by exact h

/-! ### Class loops -/

theorem nestTrap_canon {e : Env} (h : Canon e.st) : Canon (nestTrap e).st := h

theorem distBody_canon {e : Env} (h : Canon e.st) (f : Slk) : Canon (distBody f e).st := by
  unfold distBody
  grind [← nestTrap_canon, ← Env.mod_canon, ← foldl_canon, Res.st]

theorem dnextBody_canon {e : Env} (h : Canon e.st) (f : Slk) : Canon (dnextBody f e).st := by
  unfold dnextBody
  grind [← nestTrap_canon, ← Env.mod_canon, Res.st]

theorem leftAs_canon {e : Env} (h : Canon e.st) (g : Group) : Canon (leftAs e g).st := h

theorem dleaveBody_canon {e : Env} (h : Canon e.st) (f : Slk) : Canon (dleaveBody f e).st := by
  unfold dleaveBody
  grind [← nestTrap_canon, ← leftAs_canon, ← foldl_canon, Res.st]

theorem dbrkBody_canon {e : Env} (h : Canon e.st) (f : Slk) : Canon (dbrkBody f e).st := by
  unfold dbrkBody
  grind [← nestTrap_canon, ← Env.mod_canon, Res.st]

theorem exitBody_canon {e : Env} (h : Canon e.st) : Canon (exitBody e).st := h

/-! ### Grant and register allocation -/

theorem detachEnded_canon {s : State} (h : Canon s) (t : Team) : Canon (detachEnded t s) := h

theorem setwTry_canon {s : State} (h : Canon s) (uid : Nat) : Canon (setwTry uid s) := by
  unfold setwTry
  grind [← modTeam_canon, ← detachEnded_canon]

theorem setwArrive_canon {e : Env} (h : Canon e.st) (f : Slk) : Canon (setwArrive f e).st := by
  unfold setwArrive
  grind [← setwTry_canon, ← Env.mod_canon, Res.st]

theorem setwBody_canon {e : Env} (h : Canon e.st) (f : Slk) : Canon (setwBody f e).st := by
  unfold setwBody
  split
  · exact h
  · exact committing_canon (fun e h => setwArrive_canon h f) e h

theorem setwSeqStep_canon {s : State} (h : Canon s) (uid : Nat) : Canon (setwSeqStep uid s) := by
  unfold setwSeqStep
  grind [← takeTrap_canon, ← foldl_canon]

theorem countTrap_canon {e : Env} (h : Canon e.st) (n : Nat) : Canon (countTrap e n).st := h

theorem regxBody_canon {e : Env} (h : Canon e.st) (f : Slk) : Canon (regxBody f e).st := by
  unfold regxBody
  grind [← writeLong_canon, ← countTrap_canon, ← Env.mod_canon, Res.st]

theorem regrBody_canon {e : Env} (h : Canon e.st) (f : Slk) : Canon (regrBody f e).st := by
  unfold regrBody
  grind [← countTrap_canon, ← writeFixed_canon, ← Env.mod_canon, Env.at_st, Res.st]

theorem answerRequest_canon {s : State} (h : Canon s) (r : RegxReq) (alloc d : Nat) :
    Canon (answerRequest r alloc d s) := h

theorem regxGrantStep_canon {s : State} (h : Canon s) (core : Nat) : Canon (regxGrantStep core s) := by
  unfold regxGrantStep
  grind [← answerRequest_canon]

theorem regxDenyStep_canon {s : State} (h : Canon s) (core : Nat) : Canon (regxDenyStep core s) := by
  unfold regxDenyStep
  grind [← answerRequest_canon, ← foldl_canon]

/-! ### The front end -/

theorem snoopBack_canon {s : State} (h : Canon s) (loc n : Nat) : Canon (snoopBack s loc n) := by
  unfold snoopBack
  grind [← rdcWriteBack_canon, ← foldl_canon]

theorem frontRead_canon {s : State} (h : Canon s) (c ptr : Nat) (disp : Int) (n align : Nat) :
    Canon (frontRead s c ptr disp n align).1 := by
  unfold frontRead
  grind [← homeRead_canon, ← translatePtr_canon, ← snoopBack_canon, ← biSend_canon]

theorem failQueue_canon {s : State} (h : Canon s) (c q ecode : Nat) (retake : Bool) :
    Canon (failQueue c q ecode retake s) := by
  unfold failQueue
  grind [← setQueue_canon, ← postEvent_canon]

theorem acquireAll_canon {s : State} (h : Canon s) : Canon (acquireAll s) := h

theorem passWait_canon {s : State} (h : Canon s) (c q : Nat) (r : BitVec 512) (met : Bool) :
    Canon (passWait c q r met s) := by
  unfold passWait
  grind [← setQueue_canon, ← acquireAll_canon]

theorem fenceWaitStep_canon {s : State} (h : Canon s) (c q : Nat) : Canon (fenceWaitStep c q s) := by
  unfold fenceWaitStep
  grind [← passWait_canon]

theorem takeRecord_canon {s : State} (h : Canon s) (c q ty : Nat) : Canon (takeRecord c q ty s) := by
  unfold takeRecord
  grind [← setQueue_canon, ← failQueue_canon, ← frontRead_canon, ← passWait_canon]

theorem askRdcs_canon {s : State} (h : Canon s) : Canon (askRdcs s) := by
  unfold askRdcs
  grind [← biSend_canon, ← foldl_canon]

theorem signal_canon {after : State → State} (ha : ∀ {s : State}, Canon s → Canon (after s)) {s : State} (h : Canon s)
    (c f : Nat) (v : DWord) : Canon (signal c f v after s) := by
  unfold signal
  split
  · exact askRdcs_canon h
  · exact ha (setFence_canon (foldl_canon (fun h _ => rdcFlush_canon h ..) _ h) ..)

theorem signalQueue_canon {s : State} (h : Canon s) (c q : Nat) : Canon (signalQueue c q s) := by
  unfold signalQueue
  split
  · split
    · exact signal_canon (fun h => by exact h) h ..
    · exact h
  · exact h

theorem leaveTable_canon {s : State} (h : Canon s) (g : Nat) : Canon (leaveTable g s) := h

theorem enterTable_canon {g : GridEntry} {s t : State} (h : Canon s) (hr : enterTable g s = some t) : Canon t := by
  obtain ⟨i, -, rfl⟩ := Option.map_eq_some_iff.mp hr
  exact h

theorem gridCompleteStep_canon {s : State} (h : Canon s) (g : Nat) : Canon (gridCompleteStep g s) := by
  unfold gridCompleteStep
  split
  · exact h
  · split
    · exact h
    · split
      · exact signal_canon (fun h => leaveTable_canon h ..) h ..
      · exact leaveTable_canon h ..

theorem dimsWord_canon {s : State} (h : Canon s) (c r : Nat) : Canon (dimsWord s c r).1 := by
  unfold dimsWord
  grind [← frontRead_canon]

theorem activate_canon {s : State} (h : Canon s) (c q r k w : Nat) (d : Nat × Nat × Nat × Nat × Nat) :
    Canon (activate c q r k w d s) := by
  unfold activate
  split
  · exact h
  · next hr => exact setQueue_canon (enterTable_canon h hr) ..

theorem dimsOf_canon {s : State} (h : Canon s) (c q r k : Nat) : Canon (dimsOf c q r k s) := by
  unfold dimsOf
  grind [← setQueue_canon, ← dimsWord_canon, ← activate_canon, ← failQueue_canon]

theorem dimsStep_canon {s : State} (h : Canon s) (c q : Nat) : Canon (dimsStep c q s) := by
  unfold dimsStep
  grind [← activate_canon, ← failQueue_canon, ← dimsOf_canon, ← frontRead_canon]

theorem handOver_canon {s : State} (h : Canon s) (grid : GridEntry) : Canon (handOver grid s) := by
  unfold handOver
  split
  · exact h
  · split
    · split
      · exact leaveTable_canon h ..
      · exact h
    · cases hr : enterTable grid s with
      | none => exact h
      | some t => exact enterTable_canon h hr

theorem nfsigBody_canon {e : Env} (h : Canon e.st) (f : Slk) : Canon (nfsigBody f e).st := by
  unfold nfsigBody
  grind [← setFence_canon, ← writeLong_canon, Res.st]

theorem nfsigChecked_canon {e : Env} (h : Canon e.st) (f : Slk) : Canon (nfsigChecked f e).st := by
  unfold nfsigChecked
  dsimp only
  split
  · exact h
  · exact releasing_canon (fun e h => nfsigBody_canon h f) _ _ e h

theorem glaunchPut_canon {e : Env} (h : Canon e.st) (f : Slk) (q : Nat) (bs : List Byte) :
    Canon (glaunchPut f q bs e).st := by
  unfold glaunchPut
  grind [← setQueue_canon, ← acceptStore_canon, ← modGroup_canon, ← writeLong_canon, ← l1DropRange_canon,
    ← biSend_canon,
    → resolveRange_ok, → resolveRange_error, ← foldl_fst_canon, ← foldl_canon, Res.st, endState]

theorem glaunchWait_canon {e : Env} (h : Canon e.st) (f : Slk) (q : Nat) (bs : List Byte) :
    Canon (glaunchWait f q bs e).st := by
  unfold glaunchWait
  grind [← Env.mod_canon, ← glaunchPut_canon, Res.st]

theorem glaunchBody_canon {e : Env} (h : Canon e.st) (f : Slk) : Canon (glaunchBody f e).st := by
  conv in glaunchBody => delta glaunchBody
  refine canon_st_of_eq_ite rfl h ?_
  split
  · next hr => exact loadRange_error h hr
  · next hr => exact glaunchWait_canon (by rw [Env.at_st]; exact loadRange_ok h hr) ..

theorem glaunchOrd_canon {e : Env} (h : Canon e.st) (f : Slk) : Canon (glaunchOrd f e).st := by
  unfold glaunchOrd
  split
  · exact glaunchWait_canon h ..
  · exact committing_canon (releasing_canon (fun e h => glaunchBody_canon h f) _ _) e h

/-! ### Dispatch -/

theorem setBounds_canon {s : State} (h : Canon s) (core kd nwin : Nat) : Canon (setBounds core kd nwin s) := by
  unfold setBounds
  grind [← l1Clear_canon]

theorem bindOne_canon {s : State} (h : Canon s) (b : BindRec) : Canon (bindOne b s) := by
  unfold bindOne
  grind [← setBounds_canon, ← moveSlot_canon]

theorem refuseEntry_canon {s : State} (h : Canon s) (core entry : Nat) : Canon (refuseEntry core entry s) := h

theorem bindStep_canon {s : State} (h : Canon s) (core entry : Nat) : Canon (bindStep core entry s) := by
  unfold bindStep
  grind [← bindOne_canon, ← refuseEntry_canon, ← foldl_canon]

theorem dropRings_canon {s : State} (h : Canon s) (uid : Nat) : Canon (dropRings uid s) := h

theorem unloadNow_canon {s : State} (h : Canon s) (c ord : Nat) : Canon (unloadNow c ord s) := h

theorem settleUnloads_canon {s : State} (h : Canon s) (c : Nat) : Canon (settleUnloads c s) := by
  unfold settleUnloads
  grind [← unloadNow_canon, ← foldl_canon]

theorem countEnded_canon {s : State} (h : Canon s) (grid : Nat) : Canon (countEnded grid s) := by
  unfold countEnded
  grind

theorem teamEndStep_canon {s : State} (h : Canon s) (uid : Nat) : Canon (teamEndStep uid s) := by
  unfold teamEndStep
  grind [← postEvent_canon, ← modTeam_canon, ← countEnded_canon, ← dropRings_canon, ← moveSlot_canon,
    ← settleUnloads_canon]

/-! ### The matrix array -/

theorem setMat_canon {s : State} (h : Canon s) (m : MatOp) : Canon (setMat m s) := h

theorem dropMat_canon {s : State} (h : Canon s) (id : Nat) : Canon (dropMat id s) := h

theorem acceptMat_canon {e : Env} (h : Canon e.st) (bank : Nat) (pair : Bool) (k : MatKind) (ds : List RegDst) :
    Canon (acceptMat bank pair k ds e).st := by
  unfold acceptMat
  grind [← modGroup_canon, Res.st]

theorem setRows_canon {s : State} (h : Canon s) (m : MatOp) (n : Nat) : Canon (setRows m n s) := by
  unfold setRows
  grind [← State.setMrp_canon]

theorem matFail_canon {s : State} (h : Canon s) (m : MatOp) (ecause addr : Nat) : Canon (matFail m ecause addr s) := by
  unfold matFail
  grind [← State.setMrp_canon, ← dropMat_canon, ← setRows_canon]

theorem matSuspend_canon {s : State} (h : Canon s) (m : MatOp) (engine va acc : Nat) :
    Canon (matSuspend m engine va acc s) := by
  unfold matSuspend
  grind [← State.setMrp_canon, ← setRows_canon, ← postFault_canon, ← setMat_canon]

theorem mtxTrap_canon {e : Env} (h : Canon e.st) (detail : Nat) : Canon (mtxTrap e detail).st := h

theorem matBody_canon {body : Env → Res} (hb : KeepsCanon body) : KeepsCanon (matBody body) := by
  refine inService_canon fun e h => ?_
  split
  · exact h
  · exact hb e h

theorem afterStores_canon {body : Env → Res} (hb : KeepsCanon body) : KeepsCanon (afterStores body) := by
  intro e h
  have hc : Canon (e.at (commitRegion e.gid e.st)).st := by rw [Env.at_st]; exact commitRegion_canon h ..
  unfold afterStores
  split
  · exact h
  · dsimp only
    split
    · exact hc
    · exact hb _ hc

theorem rsvBody_canon {body : Env → Res} (hb : KeepsCanon body) (f : Slk) : KeepsCanon (rsvBody f body) := by
  refine matBody_canon (committing_canon fun e h => ?_)
  split
  · exact h
  · exact hb e h

theorem putRsv_canon {e : Env} (h : Canon e.st) (f : Slk) (r : Rsv) : Canon (putRsv e f r).st := h

theorem orsvBody_canon {e : Env} (h : Canon e.st) (f : Slk) : Canon (orsvBody f e).st := by
  unfold orsvBody
  grind [← putRsv_canon, ← mtxTrap_canon, Res.st]

theorem mmaBody_canon {e : Env} (h : Canon e.st) (form : Nat) (f : Slk) : Canon (mmaBody form f e).st := by
  unfold mmaBody
  dsimp only
  split
  · exact mtxTrap_canon h ..
  · exact afterStores_canon (fun e h => acceptMat_canon h ..) e h

theorem mzeroBody_canon {e : Env} (h : Canon e.st) (f : Slk) : Canon (mzeroBody f e).st := by
  unfold mzeroBody
  grind [← mtxTrap_canon, ← acceptMat_canon, Res.st]

theorem matLoad_canon {s : State} (h : Canon s) (m : MatOp) (ptr : Nat) (disp : Int) (n : Nat) :
    Canon (matLoad m ptr disp n s).1 := by
  unfold matLoad
  grind [← engineRead_canon, ← engineReach_canon]

theorem globalPieces_canon {s : State} (h : Canon s) (m : MatOp) (ptr : Nat) (xs : List (Nat × Nat)) :
    Canon (globalPieces m ptr xs s).1 := by
  induction xs generalizing s with
  | nil => exact h
  | cons x xs ih =>
    unfold globalPieces
    split
    · next hm => exact canon_fst (matLoad_canon h ..) hm
    · next hm =>
      have ht := ih (canon_fst (matLoad_canon h ..) hm)
      split
      · next hr => exact canon_fst ht hr
      · exact ht

theorem sourceRead_canon {s : State} (h : Canon s) (m : MatOp) (t : Team) (kind ptr : Nat) (rv : Rsv) (off : Int)
    (n : Nat) :
    Canon (sourceRead m t kind ptr rv off n s).1 := by
  unfold sourceRead
  grind [← globalPieces_canon, ← poolRead_canon]

theorem sideReads_canon {s : State} (h : Canon s) (m : MatOp) (t : Team) (x : Side) (xs : List (Int × Nat)) :
    Canon (sideReads m t x xs s).1 := by
  induction xs generalizing s with
  | nil => exact h
  | cons x xs ih =>
    unfold sideReads
    split
    · next hm => exact canon_fst (sourceRead_canon h ..) hm
    · next hm =>
      have ht := ih (canon_fst (sourceRead_canon h ..) hm)
      split
      · next hr => exact canon_fst ht hr
      · exact ht

theorem readCols_canon {s : State} (h : Canon s) (m : MatOp) (t : Team) (x : Side) (form n c : Nat) (xs : List Nat) :
    Canon (readCols m t x form n c xs s).1 := by
  induction xs generalizing s with
  | nil => exact h
  | cons x xs ih =>
    unfold readCols
    grind [← sideReads_canon]

theorem readMeta_canon {s : State} (h : Canon s) (m : MatOp) (t : Team) (form d : Nat) (x : Side) (n c : Nat)
    (old : List Byte) :
    Canon (readMeta m t form d x n c old s).1 := by
  unfold readMeta
  grind [← sourceRead_canon]

theorem readChunk_canon {s : State} (h : Canon s) (m : MatOp) (t : Team) (form d : Nat) (a b : Side) (n : Nat)
    (old : List Byte) (c : Nat) :
    Canon (readChunk m t form d a b n old c s).1 := by
  unfold readChunk
  grind [← sideReads_canon, ← readCols_canon, ← readMeta_canon]

theorem readChunks_canon {s : State} (h : Canon s) (m : MatOp) (t : Team) (form d : Nat) (a b : Side) (n : Nat)
    (xs : List Nat) (ys : List Byte) :
    Canon (readChunks m t form d a b n xs ys s).1 := by
  induction xs generalizing s ys with
  | nil => exact h
  | cons x xs ih =>
    unfold readChunks
    grind [← readChunk_canon]

theorem putBuf_canon {s : State} (h : Canon s) (core base : Nat) (caps : List (Nat × List Byte)) :
    Canon (putBuf core base caps s) := h

theorem mmaRow_canon {s0 : State} (h : Canon s0) (m : MatOp) (t : Team) (form fa fb d : Nat) (oa ob : Rsv) :
    Canon (mmaRow m t form fa fb d oa ob s0) := by
  unfold mmaRow
  grind [← putBuf_canon, ← matSuspend_canon, ← readChunks_canon, ← State.setAcc_canon, ← matFail_canon, ← setRows_canon,
    ← setMat_canon, ← foldl_canon]

theorem matRowStep_canon {s : State} (h : Canon s) (id : Nat) : Canon (matRowStep id s) := by
  unfold matRowStep
  grind [← mmaRow_canon]

theorem matRetireStep_canon {s : State} (h : Canon s) (id : Nat) : Canon (matRetireStep id s) := by
  unfold matRetireStep
  grind [← zeroBank_canon, ← dropMat_canon, ← setRows_canon, ← fillRegs_canon]

theorem matResumeStep_canon {s : State} (h : Canon s) (id : Nat) : Canon (matResumeStep id s) := by
  unfold matResumeStep
  grind [← State.setMrp_canon, ← matFail_canon, ← setMat_canon]

theorem mwtBody_canon {e : Env} (h : Canon e.st) (f : Slk) : Canon (mwtBody f e).st := by
  unfold mwtBody
  grind [← State.setMrp_canon, ← mtxTrap_canon, ← Env.mod_canon, Res.st]

/-! ### Citrine -/

theorem citRead_canon {s : State} (h : Canon s) (m : MatOp) (t : Team) (c : Cit) (i : Nat) :
    Canon (citRead m t c i s).1 := by
  unfold citRead
  grind [← poolRead_canon, ← matLoad_canon]

theorem citReads_canon {s : State} (h : Canon s) (m : MatOp) (t : Team) (c : Cit) (xs : List Nat) :
    Canon (citReads m t c xs s).1 := by
  induction xs generalizing s with
  | nil => exact h
  | cons x xs ih =>
    unfold citReads
    grind [← citRead_canon]

theorem outStores_canon {s : State} (h : Canon s) (m : MatOp) (t : Team) (off align : Nat) (bs : List Byte) :
    Canon (outStores m t off align bs s).1 := by
  unfold outStores
  grind [← engineReach_canon, ← foldl_canon]

theorem outElems_canon {s : State} (h : Canon s) (m : MatOp) (t : Team) (align : Nat) (xs : List (Nat × List Byte)) :
    Canon (outElems m t align xs s).1 := by
  induction xs generalizing s with
  | nil => exact h
  | cons x xs ih =>
    unfold outElems
    grind [← outStores_canon]

theorem citSettle_canon {s : State} {x : State × Except MatStop CitRun} (h : Canon s) (hx : Canon x.1) (m : MatOp) :
    Canon (citSettle m s x) := by
  unfold citSettle
  split
  · exact hx
  · exact h
  · exact matSuspend_canon hx ..
  · exact matFail_canon hx ..

theorem citLanes_canon (k : BitVec 3) (v : MatOp → CitRun → Nat → Nat) : CitKeepsCanon (citLanes k v) :=
  fun _ _ _ _ h => h

theorem citLoad_canon (row : Bool) (c : Cit) (v : MatOp → CitRun → Nat → Nat → Nat) :
    CitKeepsCanon (citLoad row c v) := by
  intro m t r s h
  unfold citLoad
  split
  · next hr => exact canon_fst (citReads_canon h ..) hr
  · next hr => exact canon_fst (citReads_canon h ..) hr

theorem rowScale_canon (c : Cit) : CitKeepsCanon (rowScale c) := by
  unfold rowScale
  dsimp only
  split
  · exact citLanes_canon _ _
  · exact citLoad_canon _ _ _

theorem rowStore_canon (c : Cit) : CitKeepsCanon (rowStore c) := by
  intro m t r s h
  unfold rowStore
  dsimp only
  split
  · next hr => exact canon_fst (outElems_canon h ..) hr
  · next hr => exact canon_fst (outElems_canon h ..) hr

theorem citFn_canon {i : Instr} {fn : CitFn} (hf : citFn i = some fn) : CitKeepsCanon fn := by
  unfold citFn at hf
  split at hf
  · cases hf
  · split at hf
    · split at hf <;> cases hf
      · exact fun _ _ _ _ h => h
      · exact citLanes_canon _ _
      · exact citLanes_canon _ _
      · exact citLoad_canon _ _ _
      · exact citLoad_canon _ _ _
      · exact citLanes_canon _ _
      · exact citLanes_canon _ _
      · exact citLanes_canon _ _
      · exact citLanes_canon _ _
      · exact citLoad_canon _ _ _
      · exact rowScale_canon _
      · exact citLanes_canon _ _
      · exact citLanes_canon _ _
      · exact citLanes_canon _ _
      · exact citLanes_canon _ _
      · exact citLanes_canon _ _
      · exact citLanes_canon _ _
      · exact fun _ _ _ _ h => h
      · exact fun _ _ _ _ h => h
      · exact rowStore_canon _
    · cases hf

theorem runWord_canon {fn : CitFn} (hf : CitKeepsCanon fn) : CitKeepsCanon (runWord fn) := by
  intro m t r s h
  have hs := hf m t r h
  unfold runWord
  split
  · next hr => exact canon_fst hs hr
  · exact hs

theorem runRow_canon {s : State} (h : Canon s) (m : MatOp) (t : Team) (ws : List Word) (k : Nat) (r : CitRun) :
    Canon (runRow m t ws k r s).1 := by
  induction k generalizing s r with
  | zero => exact h
  | succ k ih =>
    unfold runRow
    split
    · exact h
    · next hf =>
      obtain ⟨i, -, hi⟩ := Option.bind_eq_some_iff.mp hf
      have hs := runWord_canon (citFn_canon hi) m t r h
      split
      · next hr => exact ih (canon_fst hs hr) ..
      · exact hs

theorem drainPut_canon {s : State} (h : Canon s) (core : Nat) (x : DrainStore) : Canon (drainPut core s x) := by
  unfold drainPut
  grind [← engineWrite_canon, ← poolWrite_canon]

theorem rowAsk_canon {s : State} (h : Canon s) (xs : List DrainStore) : Canon (rowAsk xs s) := by
  unfold rowAsk
  grind [← biSend_canon, ← foldl_canon]

theorem rowEffects_canon {s : State} (h : Canon s) (m : MatOp) (r : CitRun) : Canon (rowEffects m r s) := by
  unfold rowEffects
  grind [← drainPut_canon, ← setRows_canon, ← foldl_canon]

theorem commitRow_canon {s : State} (h : Canon s) (m : MatOp) (r : CitRun) : Canon (commitRow m r s) := by
  unfold commitRow
  grind [← setMat_canon, ← rowEffects_canon, ← foldl_canon]

theorem drainRowStep_canon {s : State} (h : Canon s) (core : Nat) : Canon (drainRowStep core s) := by
  unfold drainRowStep
  split
  · exact h
  · split
    · exact h
    · have hs {m t ws k r} := runRow_canon h m t ws k r
      split
      · next hr =>
        have hr := canon_fst hs hr
        exact canon_of_eq_ite rfl hr (canon_of_eq_ite rfl (rowAsk_canon h ..) (commitRow_canon hr ..))
      · exact citSettle_canon h hs ..

theorem drainStartStep_canon {s : State} (h : Canon s) (core : Nat) : Canon (drainStartStep core s) := by
  unfold drainStartStep
  split
  · exact h
  · refine canon_of_eq_ite rfl h ?_
    split
    · exact h
    · dsimp only
      split
      · exact matFail_canon h ..
      · have hs {k} := poolRead_canon h k 64
        exact canon_ite (matFail_canon hs ..) (setMat_canon (setRows_canon hs ..) ..)

theorem tileStores_canon {s : State} (h : Canon s) (m : MatOp) (t : Team) (ty : Nat) (r : CitRun) :
    Canon (tileStores m t ty r s).1 := by
  unfold tileStores
  grind [← outElems_canon, ← foldl_canon]

theorem drainEnd_canon {s : State} (h : Canon s) (m : MatOp) : Canon (drainEnd m s) := by
  unfold drainEnd
  grind [← zeroBank_canon, ← dropMat_canon]

theorem drainRetireStep_canon {s : State} (h : Canon s) (core : Nat) : Canon (drainRetireStep core s) := by
  unfold drainRetireStep
  split
  · exact h
  · refine canon_of_eq_ite rfl h ?_
    split
    · exact canon_of_eq_ite rfl (drainEnd_canon h ..) h
    · split
      · exact h
      · refine canon_of_eq_ite rfl h ?_
        split
        · next hr => exact citSettle_canon h (canon_fst (tileStores_canon h ..) hr) ..
        · next hr =>
          have hs := canon_fst (tileStores_canon h ..) hr
          exact canon_of_eq_ite rfl (rowAsk_canon h ..) (drainEnd_canon (rowEffects_canon hs ..) ..)

theorem mprogBody_canon {e : Env} (h : Canon e.st) (f : Slk) : Canon (mprogBody f e).st := by
  unfold mprogBody
  refine canon_st_of_eq_ite rfl (mtxTrap_canon h ..) (canon_st_of_eq_ite rfl (mtxTrap_canon h ..) ?_)
  split
  · next hr => exact faultOutside_canon e (loadRange_error h hr)
  · next hr =>
    have hs := env_at_canon (e := e) (loadRange_ok h hr)
    refine canon_st_of_eq_ite rfl (mtxTrap_canon hs ..) (canon_st_of_eq_ite rfl (mtxTrap_canon hs ..) ?_)
    split
    · next hr =>
      have ha := canon_of_done (acceptMat_canon hs ..) hr
      exact canon_ite ha ha
    · exact acceptMat_canon hs ..

theorem mdrainBody_canon {e : Env} (h : Canon e.st) (f : Slk) : Canon (mdrainBody f e).st := by
  unfold mdrainBody
  dsimp only
  split
  · exact mtxTrap_canon h ..
  · split
    · exact mtxTrap_canon h ..
    · split
      · exact mtxTrap_canon h ..
      · split
        · exact localTrap_canon h ..
        · exact afterStores_canon (fun e h => acceptMat_canon h ..) e h

theorem topBody_canon {body : Nat → Env → Res} (hb : ∀ row, KeepsCanon (body row)) (f : Slk) :
    KeepsCanon (topBody f body) := by
  intro e h
  unfold topBody
  dsimp only
  split
  · exact mtxTrap_canon h ..
  · split
    · exact h
    · exact hb _ e h

theorem tkrdBody_canon {e : Env} (h : Canon e.st) (f : Slk) (row : Nat) : Canon (tkrdBody f row e).st := by
  unfold tkrdBody
  grind [← acceptMat_canon, Res.st]

theorem tkclrBody_canon {e : Env} (h : Canon e.st) (f : Slk) (row : Nat) : Canon (tkclrBody f row e).st := by
  unfold tkclrBody
  grind [← acceptMat_canon, Res.st]

end Sys2Proof.Machine
end

section
/-! SUPPORT. Memory stays in canonical form: save and restore, services, caches, host and what is left (O6). -/

namespace Sys2Proof.Machine

/-! ### Save and restore -/

theorem zeroFill_canon {s : State} (h : Canon s) (t : Team) : Canon (zeroFill t s) := h

theorem writeRings_canon {s : State} (h : Canon s) (t : Team) : Canon (writeRings t s) := by
  unfold writeRings
  grind [← foldl_canon]

theorem unloadStep_canon {s : State} (h : Canon s) (c ord : Nat) (forced : Bool) :
    Canon (unloadStep c ord forced s) := by
  unfold unloadStep
  grind [← postEvent_canon, ← unloadNow_canon, ← State.setCtx_canon]

theorem holdUnloads_canon {s : State} (h : Canon s) (c : Nat) : Canon (holdUnloads c s) := h

theorem dropTeamWork_canon {s : State} (h : Canon s) (uid : Nat) : Canon (dropTeamWork uid s) := h

theorem memoryOf_canon {t s : State} (h : Canon t) : Canon (memoryOf t s) := h

theorem fireGlobal_canon {s : State} (h : Canon s) (a n : Nat) : Canon (fireGlobal a n s) := h

theorem writeArea_canon {s : State} (h : Canon s) (c a : Nat) (header : BitVec 512) :
    Canon (writeArea s c a header) := by
  unfold writeArea
  grind [← memoryOf_canon, ← hostPast_canon, ← homeWrite_canon, ← fireGlobal_canon]

theorem saveTeam_canon {s : State} (h : Canon s) (t0 : Team) : Canon (saveTeam s t0) := by
  unfold saveTeam
  grind [← postEvent_canon, ← moveSlot_canon, ← State.setCtx_canon, ← writeArea_canon]

theorem saveCluster_canon {s : State} (h : Canon s) (us : List Team) : Canon (saveCluster us s) := by
  unfold saveCluster
  grind [← saveTeam_canon, ← teamEndStep_canon, ← dropTeamWork_canon, ← abortRegion_canon, ← foldl_canon]

theorem drainedStep_canon {s : State} (h : Canon s) (c : Nat) : Canon (drainedStep c s) := by
  unfold drainedStep
  grind [← setCtxState_canon, ← saveCluster_canon, ← biSend_canon, ← holdUnloads_canon]

theorem declineAll_canon {s : State} (h : Canon s) (c : Nat) : Canon (declineAll c s) := by
  unfold declineAll
  grind [← answerFault_canon, ← foldl_canon]

theorem killCtx_canon {s : State} (h : Canon s) (c : Nat) : Canon (killCtx c s) := by
  unfold killCtx
  refine canon_of_eq_ite rfl h ?_
  refine canon_congr (t := List.foldl _ _ _) rfl (foldl_canon (fun h _ => unloadNow_canon h ..) _ ?_)
  refine setCtxState_canon (State.setCtx_canon (declineAll_canon ?_ ..) ..) ..
  exact h

theorem codeGoneKill_canon {s : State} (h : Canon s) (c : Nat) (i : Image) : Canon (codeGoneKill c i s) := by
  unfold codeGoneKill
  grind [← postEvent_canon, ← killCtx_canon]

theorem goneStep_canon {s : State} (h : Canon s) (c image : Nat) : Canon (goneStep c image s) := by
  unfold goneStep
  grind [← codeGoneKill_canon]

theorem createStep_canon {s : State} (h : Canon s) (c : Nat) (sys : Bool) : Canon (createStep c sys s) := by
  unfold createStep
  grind [← setCtxState_canon, ← State.setCtx_canon]

theorem bindSaved_canon {s : State} (h : Canon s) (r : Rebind) : Canon (bindSaved s r) := by
  unfold bindSaved
  grind [← State.setSlot_canon, ← setBounds_canon]

theorem endRestoring_canon {s : State} (h : Canon s) (c : Nat) : Canon (endRestoring c s) := by
  unfold endRestoring
  grind [← requestPreempt_canon, ← setCtxState_canon, ← State.setCtx_canon]

theorem refuseImages_canon {s : State} (h : Canon s) (c : Nat) : Canon (refuseImages c s) := by
  unfold refuseImages
  grind [← postEvent_canon, ← foldl_canon]

theorem bindCluster_canon {s : State} (h : Canon s) (c : Nat) (rs : List Rebind) : Canon (bindCluster c rs s) := by
  unfold bindCluster
  dsimp only
  split
  · exact codeGoneKill_canon h ..
  · split
    · exact foldl_canon (fun h _ => biSend_canon h ..) _ h
    · split
      · exact killCtx_canon (foldl_canon (fun h _ => postEvent_canon h ..) _ h) ..
      · split
        · exact foldl_canon (fun h _ => refuseEntry_canon (by exact h) ..) _ h
        · split
          · refine foldl_canon (fun h _ => bindSaved_canon h ..) _ ?_
            split
            · exact h
            · exact setCtxState_canon h ..
          · exact h

theorem restoreStep_canon {s : State} (h : Canon s) (c : Nat) (binds : List RestoreBind) :
    Canon (restoreStep c binds s) := by
  unfold restoreStep
  grind [← setCtxState_canon, ← endRestoring_canon, ← refuseImages_canon, ← bindCluster_canon]

theorem bindSavedEntry_canon {s : State} (h : Canon s) (r : Rebind) : Canon (bindSavedEntry r s) := by
  unfold bindSavedEntry
  grind [← refuseEntry_canon, ← refuseImages_canon, ← bindCluster_canon]

theorem dispatchStep_canon {s : State} (h : Canon s) (core entry : Nat) : Canon (dispatchStep core entry s) := by
  unfold dispatchStep
  grind [← bindStep_canon, ← bindSavedEntry_canon]

theorem writeImage_canon {s : State} (h : Canon s) (i : Image) (t : Team) : Canon (writeImage i t s) := h

theorem fillOne_canon {s : State} (h : Canon s) (t : Team) : Canon (fillOne t s) := by
  unfold fillOne
  grind [← writeRings_canon, ← l1Clear_canon, ← zeroFill_canon, ← writeImage_canon]

theorem startTeam_canon {s : State} (h : Canon s) (c : Nat) (t : Team) : Canon (startTeam c s t) := by
  unfold startTeam
  grind [← postEvent_canon, ← modTeam_canon, ← moveSlot_canon, ← State.setCtx_canon]

theorem wakeRestored_canon {s : State} (h : Canon s) (c : Nat) (t0 : Team) : Canon (wakeRestored c s t0) := by
  unfold wakeRestored
  split
  · refine setwTry_canon (foldl_canon (fun {s} h g => ?_) _ ?_) ..
    · split
      · split
        · exact answerGroup_canon h ..
        · exact h
      · exact h
    · exact modTeam_canon h ..
  · exact h

theorem fillStep_canon {s : State} (h : Canon s) (core entry : Nat) : Canon (fillStep core entry s) := by
  unfold fillStep
  split
  · exact h
  · refine canon_ite h ?_
    have hs {l l' l'' c c'} := foldl_canon (fun h u => wakeRestored_canon h c u) l
      (foldl_canon (fun h u => startTeam_canon h c' u) l' (foldl_canon (fun h u => fillOne_canon h u) l'' h))
    exact canon_ite (endRestoring_canon hs _) hs

theorem replayLost_canon {s : State} (h : Canon s) (c : Nat) (gid : Gid) : Canon (replayLost c s gid) := by
  unfold replayLost
  grind [← modGroup_canon, ← abortRegion_canon]

theorem shootdownStep_canon {s : State} (h : Canon s) (c : Nat) : Canon (shootdownStep c s) := by
  unfold shootdownStep
  grind [← dropTlb_canon, ← replayLost_canon, ← foldl_canon]

/-! ### Measurement, power and parts -/

theorem measuredBytes_canon {s : State} (h : Canon s) (c : Nat) (xs : List (Nat × Nat)) :
    Canon (measuredBytes s c xs).1 := by
  induction xs generalizing s with
  | nil => exact h
  | cons x xs ih =>
    unfold measuredBytes
    grind [← homeRead_canon, ← walkFrom_canon, ← biSend_canon]

theorem measuredText_canon {s : State} (h : Canon s) (c : Nat) (xs : List (DWord × DWord)) :
    Canon (measuredText s c xs).1 := by
  induction xs generalizing s with
  | nil => exact h
  | cons x xs ih =>
    unfold measuredText
    grind [← measuredBytes_canon]

theorem dropRequest_canon {s : State} (h : Canon s) (c : Nat) : Canon (dropRequest c s) := h

theorem extendCmr_canon {s : State} (h : Canon s) (c : Nat) (sv : Word) (sgs : List (DWord × DWord)) (bs : List Byte) :
    Canon (extendCmr c sv sgs bs s) := h

theorem measureStep_canon {s : State} (h : Canon s) (c : Nat) (sv : Word) (sgs : List (DWord × DWord)) :
    Canon (measureStep c sv sgs s) := by
  unfold measureStep
  split
  · exact h
  · refine canon_of_eq_ite rfl h ?_
    split
    · next hm => exact canon_fst (measuredBytes_canon h ..) hm
    · next hm => exact dropRequest_canon (canon_fst (measuredBytes_canon h ..) hm) ..
    · next hm =>
      have hs := canon_fst (measuredBytes_canon h ..) hm
      refine canon_of_eq_ite rfl (dropRequest_canon hs ..) ?_
      split
      · next ht => exact canon_fst (measuredText_canon hs ..) ht
      · next ht => exact dropRequest_canon (canon_fst (measuredText_canon hs ..) ht) ..
      · next ht => exact extendCmr_canon (dropRequest_canon (canon_fst (measuredText_canon hs ..) ht) ..) ..

theorem setClocks_canon {s : State} (h : Canon s) (f : Nat → Nat) : Canon (setClocks f s) := by
  unfold setClocks
  grind [← State.setDie_canon, ← foldl_canon]

theorem powerStep_canon {s : State} (h : Canon s) (avg now : Nat) : Canon (powerStep avg now s) := by
  unfold powerStep
  grind [← setClocks_canon]

theorem thermalStep_canon {s : State} (h : Canon s) (die junction coolant : Nat) :
    Canon (thermalStep die junction coolant s) := by
  unfold thermalStep
  grind [← logEvent_canon, ← State.setDie_canon, ← setClocks_canon, ← foldl_canon]

theorem watchdogStep_canon {s : State} (h : Canon s) (die hart : Nat) : Canon (watchdogStep die hart s) := by
  unfold watchdogStep
  grind [← logEvent_canon, ← State.setDie_canon]

theorem spareCoreStep_canon {s : State} (h : Canon s) (core : Nat) : Canon (spareCoreStep core s) := by
  unfold spareCoreStep
  grind [← logEvent_canon, ← State.setDie_canon]

theorem loseBank_canon {s : State} (h : Canon s) (die slice : Nat) : Canon (loseBank die slice s) := by
  unfold loseBank
  grind [← logEvent_canon]

theorem retireStep_canon {s : State} (h : Canon s) (die slice : Nat) : Canon (retireStep die slice s) := by
  unfold retireStep
  grind [← logEvent_canon, ← loseBank_canon, ← l2Evict_canon, ← State.setDie_canon, ← foldl_canon]

theorem carveStep_canon {s : State} (h : Canon s) (bank ways : Nat) : Canon (carveStep bank ways s) := by
  unfold carveStep
  grind

theorem laneDropStep_canon {s : State} (h : Canon s) (die link : Nat) : Canon (laneDropStep die link s) := by
  unfold laneDropStep
  grind [← logEvent_canon, ← State.setDie_canon]

/-! ### Boot -/

theorem resetKeeping_canon {s : State} (h : Canon s) : Canon (resetKeeping s) := h

theorem recoveryStep_canon {s : State} (h : Canon s) (i : FwImage) : Canon (recoveryStep i s) := by
  unfold recoveryStep
  grind [← resetKeeping_canon]

theorem enrolStep_canon {s : State} (h : Canon s) (slot : Nat) (key signer : BitVec 256) (sig : List Byte) :
    Canon (enrolStep slot key signer sig s) := by
  unfold enrolStep
  grind [← logEvent_canon]

theorem advanceStep_canon {s : State} (h : Canon s) (signer : BitVec 256) (sig : List Byte) :
    Canon (advanceStep signer sig s) := by
  unfold advanceStep
  grind [← logEvent_canon]

theorem answer_canon {s : State} (h : Canon s) (req : Nat) (bs : List Byte) : Canon (answer req bs s) := by
  unfold answer
  grind

theorem setCertStep_canon {s : State} (h : Canon s) (slot : Nat) (chain : List Byte) :
    Canon (setCertStep slot chain s) := by
  unfold setCertStep
  grind [← answer_canon]

/-! ### Prefetch, fences, fills and the controllers -/

theorem quietLook_canon {e : Env} {s : State} (h : Canon s) (b : GBase) (x : Int) (n : Nat) :
    Canon (quietLook e b x n s).1 := by
  unfold quietLook
  grind [← globalPage_canon, ← globalCheck_canon]

theorem prefetchLine_canon {e : Env} {s : State} (h : Canon s) (b : GBase) (ch : Nat) (x : Int) :
    Canon (prefetchLine e b ch s x) := by
  unfold prefetchLine
  grind [← loadLine_canon, ← quietLook_canon, ← prioLoad_canon]

theorem pfgBody_canon {e : Env} (h : Canon e.st) (f : Slk) : Canon (pfgBody f e).st := by
  unfold pfgBody
  grind [← prefetchLine_canon, ← foldl_canon, Res.st]

theorem rangeEnds_canon {e : Env} {s : State} (h : Canon s) (b : GBase) (x : Int) (n l : Nat) :
    Canon (exState (rangeEnds e b x n l s)) := by
  unfold rangeEnds
  grind [exState, ← globalCheck_canon, ← lookRes_canon]

theorem rangePieces_canon {e : Env} {s : State} (h : Canon s) (b : GBase) (x : Int) (n : Nat) :
    Canon (rangePieces e b x n s).1 := by
  refine foldl_fst_canon (fun {x} h p => ?_) _ h
  have hg := globalPage_canon (s := x.1) h e.team.ctx b ((p.1 : Int) - (b.pointer % 2 ^ 57 : Nat)) p.2 .read
  grind

theorem laneRanges_canon {e : Env} (h : Canon e.st) (f : Slk) : Canon (endState (laneRanges f e)) := by
  have hgo {b : GBase} : ∀ {r : Except Res State}, Canon (exState r) → ∀ y : Nat × Int × Nat,
      Canon (exState (match r with
        | .error r => .error r
        | .ok s => rangeEnds e b y.2.1 y.2.2 y.1 s)) := by
    rintro (r | s) h y
    · exact h
    · exact rangeEnds_canon h ..
  have h : Canon (exState (.ok e.st)) := h
  unfold laneRanges
  dsimp only
  split
  · next hr => exact canon_of_exError (foldl_exState_canon hgo _ h) hr
  · next hr =>
    have hs := canon_of_exOk (foldl_exState_canon hgo _ h) hr
    split
    all_goals
      change Canon (Prod.fst (List.foldl _ _ _))
      refine foldl_fst_canon (fun h y => ?_) _ hs
      exact rangePieces_canon h ..

theorem laneRanges_ok {e : Env} (h : Canon e.st) {f : Slk} {t : State} {y} (hr : laneRanges f e = .ok (t, y)) :
    Canon t :=
  canon_of_ok (laneRanges_canon h ..) hr

theorem laneRanges_error {e : Env} (h : Canon e.st) {f : Slk} {r : Res} (hr : laneRanges f e = .error r) : Canon r.st :=
  canon_of_error (laneRanges_canon h ..) hr

theorem askLines_canon {s : State} (h : Canon s) (ls : List Nat) : Canon (askLines ls s) := by
  unfold askLines
  grind [← biSend_canon, ← foldl_canon]

theorem wbrBody_canon {e : Env} (h : Canon e.st) (f : Slk) : Canon (wbrBody f e).st := by
  unfold wbrBody
  grind [← rdcWriteBack_canon, ← askLines_canon, ← post_canon, → laneRanges_ok, → laneRanges_error, ← foldl_fst_canon,
    ← foldl_canon, Res.st, endState]

theorem invrBody_canon {e : Env} (h : Canon e.st) (l1Only : Bool) (f : Slk) : Canon (invrBody l1Only f e).st := by
  unfold invrBody
  grind [← rdcWriteBack_canon, ← askLines_canon, → laneRanges_ok, → laneRanges_error, ← foldl_fst_canon, ← foldl_canon,
    Res.st, endState]

theorem fenceBody_canon (rel ms acq : Bool) (sc : Nat) : KeepsCanon (fenceBody rel ms acq sc) := by
  refine committing_canon fun e h => ?_
  split
  · exact releaseWait_canon h sc
  · next s hr =>
    have hs : Canon s := by
      split at hr
      · exact release_canon h hr
      · cases hr; exact h
    split
    · exact pastRelease_canon e hs
    · split
      · exact acquire_canon hs ..
      · exact hs

theorem ifenceBody_canon (f : Slk) : KeepsCanon (ifenceBody f) :=
  committing_canon fun e h => by exact acquire_canon h e.core (fScope f)

theorem resultStep_canon {s : State} (h : Canon s) (id : Nat) : Canon (resultStep id s) := by
  unfold resultStep
  grind [← unpost_canon, ← fillRegs_canon]

theorem l1FillStep_canon {s : State} (h : Canon s) (core loc : Nat) : Canon (l1FillStep core loc s) := by
  unfold l1FillStep
  grind [← loadLine_canon]

theorem l2FillStep_canon {s : State} (h : Canon s) (loc : Nat) : Canon (l2FillStep loc s) := by
  unfold l2FillStep
  grind [← l2Fill_canon]

theorem l2EvictStep_canon {s : State} (h : Canon s) (loc : Nat) : Canon (l2EvictStep loc s) := by
  unfold l2EvictStep
  grind [← l2Evict_canon]

theorem rdcBackStep_canon {s : State} (h : Canon s) (die loc : Nat) : Canon (rdcBackStep die loc s) := by
  unfold rdcBackStep
  grind [← rdcWriteBack_canon, ← biSend_canon]

theorem rdcFillStep_canon {s : State} (h : Canon s) (die loc : Nat) : Canon (rdcFillStep die loc s) := by
  unfold rdcFillStep
  grind [← rdcFillLine_canon]

theorem mediaStep_canon {s : State} (h : Canon s) (id : Nat) : Canon (mediaStep id s) := by
  unfold mediaStep
  grind [← unpost_canon, ← l2Clean_canon, ← foldl_canon]

theorem beginPass_canon {s : State} (h : Canon s) (stack : Nat) : Canon (beginPass stack s) := h

theorem scrubStep_canon {s : State} (h : Canon s) (sec : Nat) : Canon (scrubStep sec s) := by
  unfold scrubStep
  grind [← beginPass_canon, ← resolveSector_canon]

theorem spareSectors_canon {s : State} (h : Canon s) (stack : Nat) (among : Nat → Bool) :
    Canon (spareSectors stack among s) := (KeepsForm.of_mem (spareSectors_mem ..)).wf h

theorem sparingStep_canon {s : State} (h : Canon s) (stack row : Nat) : Canon (sparingStep stack row s) := by
  unfold sparingStep
  grind [← logEvent_canon, ← spareSectors_canon]

theorem channelStep_canon {s : State} (h : Canon s) (stack ch : Nat) : Canon (channelStep stack ch s) := by
  unfold channelStep
  grind [← logEvent_canon, ← spareSectors_canon]

/-! ### Control transfer -/

theorem callBody_canon {e : Env} (h : Canon e.st) (f : Slk) : Canon (callBody f e).st := h

theorem prefetchCode_canon {e : Env} {s : State} (h : Canon s) (rid va : Nat) : Canon (prefetchCode e rid s va) := by
  unfold prefetchCode
  grind [← fetchQuiet_canon]

theorem ipfBody_canon {e : Env} (h : Canon e.st) (f : Slk) : Canon (ipfBody f e).st := by
  unfold ipfBody
  grind [← prefetchCode_canon, ← foldl_canon, Res.st]

theorem trapBody_canon {e : Env} (h : Canon e.st) (f : Slk) : Canon (trapBody f e).st := h

theorem brkBody_canon {e : Env} (h : Canon e.st) : Canon (brkBody e).st := by
  unfold brkBody
  grind [← postEvent_canon, ← Env.mod_canon, Res.st]

/-! ### Counters and training -/

theorem routeBank_error {e : Env} (h : Canon e.st) {o : Opnd} {r : Res} (hr : routeBank e o = .error r) :
    Canon r.st := by
  unfold routeBank at hr
  grind [Res.st]

theorem rcntBody_canon {e : Env} (h : Canon e.st) (f : Slk) : Canon (rcntBody f e).st := by
  unfold rcntBody
  split
  · next hr => exact routeBank_error h hr
  · exact foldl_canon (fun h _ => post_canon h ..) _ h

theorem rcntStep_canon {s : State} (h : Canon s) (id : Nat) : Canon (rcntStep id s) := by
  unfold rcntStep
  grind [← unpost_canon, ← State.setDie_canon]

theorem rcsnapBody_canon {e : Env} (h : Canon e.st) (f : Slk) : Canon (rcsnapBody f e).st := by
  conv in rcsnapBody => delta rcsnapBody
  dsimp only
  split
  · exact localTrap_canon h ..
  · split
    · next hr => exact routeBank_error h hr
    · refine canon_st_of_eq_ite rfl h ?_
      refine writeLong_canon (poolWrite_canon (State.setDie_canon (commitRegion_canon h ..) ..) ..) ..

theorem postTraining_canon {e : Env} (h : Canon e.st) (b : GBase) (acts : List (Nat × Nat × Nat × Nat)) (decay : Bool) :
    Canon (postTraining e b acts decay).st := by
  unfold postTraining
  grind [← post_canon, ← l1DropRange_canon, → resolveGlobal_ok, → resolveGlobal_error, ← foldl_fst_canon, ← foldl_canon,
    Res.st, endState]

theorem trainArgs_canon {body : GBase → Nat → Res} {e : Env} (h : Canon e.st) (hb : ∀ b n, Canon (body b n).st)
    (f : Slk) : Canon (trainArgs e f body).st := by
  unfold trainArgs
  dsimp only
  split
  · exact h
  · exact hb ..

theorem xtrainBody_canon {e : Env} (h : Canon e.st) (f : Slk) : Canon (xtrainBody f e).st := by
  unfold xtrainBody
  grind [← trainArgs_canon, ← postTraining_canon, Res.st]

theorem xdecayBody_canon {e : Env} (h : Canon e.st) (f : Slk) : Canon (xdecayBody f e).st := by
  unfold xdecayBody
  grind [← trainArgs_canon, ← postTraining_canon, Res.st]

theorem quietRead_canon {e : Env} {s : State} (h : Canon s) (b : GBase) (x : Int) (n : Nat) :
    Canon (quietRead e b x n s).1 := by
  unfold quietRead
  grind [← homeRead_canon, ← quietLook_canon, ← foldl_fst_canon, ← foldl_canon]

theorem prefetchRange_canon {e : Env} {s : State} (h : Canon s) (ptr n : Nat) : Canon (prefetchRange e s ptr n) := by
  unfold prefetchRange
  grind [← prefetchLine_canon, ← foldl_canon]

theorem xprefBody_canon {e : Env} (h : Canon e.st) (f : Slk) : Canon (xprefBody f e).st := by
  conv in xprefBody => delta xprefBody
  refine canon_st_of_eq_ite rfl h ?_
  split
  · next hq => exact canon_fst (quietRead_canon h ..) hq
  · next hq =>
    have hs := canon_fst (quietRead_canon h ..) hq
    refine canon_st_of_eq_ite rfl hs (canon_done (foldl_canon_of_eq (fun h i ht => ?_) _ hs))
    beta_reduce at ht
    split at ht
    · next hr => rw [ht]; exact canon_fst (quietRead_canon h ..) hr
    · next hr =>
      rw [ht]
      exact foldl_canon (fun h _ => prefetchRange_canon h ..) _ (canon_fst (quietRead_canon h ..) hr)

/-! ### Cross-lane instructions -/

theorem withSize_canon {go : Nat → Env → Res} (hg : ∀ n, KeepsCanon (go n)) (f : Slk) : KeepsCanon (withSize f go) := by
  intro e h
  unfold withSize
  refine canon_st_ite h (readingRegs_canon (fun e h => ?_) _ e h)
  exact canon_st_ite h (hg _ e h)

theorem redxBody_canon (f : Slk) : KeepsCanon (redxBody f) := by
  intro e h
  unfold redxBody
  exact canon_st_ite (writeLong_canon h ..) (withSize_canon (fun _ e h => by exact writeLong_canon h ..) f e h)

theorem scanBody_canon (f : Slk) : KeepsCanon (scanBody f) :=
  withSize_canon (fun _ _ h => longBody_canon h ..) f

/-! ### Host and peers -/

theorem reply_canon {s : State} (h : Canon s) (loc : Nat) (bs : List Byte) (poison : Bool) :
    Canon (reply loc bs poison s) := h

theorem snoopInv_canon {s : State} (h : Canon s) (line : Nat) : Canon (snoopInv s line) := by
  unfold snoopInv
  grind [← fire_canon, ← rdcDrop_canon, ← foldl_canon]

theorem giveUpLines_canon {s : State} (h : Canon s) (loc n : Nat) : Canon (giveUpLines loc n s) := h

theorem linkWrite_canon {s : State} (h : Canon s) (loc : Nat) (bs : List Byte) (poison : Bool) :
    Canon (linkWrite s loc bs poison) := by
  unfold linkWrite
  grind [← homePoison_canon, ← homeWrite_canon]

theorem hostWriteStep_canon {s : State} (h : Canon s) (loc0 : Nat) (bs : List Byte) (poison : Bool) :
    Canon (hostWriteStep loc0 bs poison s) := by
  unfold hostWriteStep
  split
  · exact h
  · dsimp only
    split
    · exact h
    · split
      · split
        · exact h
        · exact mgmtWrite_canon h ..
      · split
        · split
          · exact h
          · exact linkWrite_canon (giveUpLines_canon h ..) ..
        · split
          · exact linkWrite_canon (foldl_canon (fun h _ => snoopInv_canon h ..) _ h) ..
          · exact h

theorem hostReadStep_canon {s : State} (h : Canon s) (loc0 n : Nat) (cache : Bool) :
    Canon (hostReadStep loc0 n cache s) := by
  unfold hostReadStep
  grind [← homeRead_canon, ← snoopBack_canon, ← mgmtRead_canon, ← reply_canon]

theorem hostAtomicStep_canon {s : State} (h : Canon s) (loc : Nat) (op : AtomicOp) (wide : Bool) (v cmp : Nat) :
    Canon (hostAtomicStep loc op wide v cmp s) := by
  unfold hostAtomicStep
  grind [← logEvent_canon, ← homeRead_canon, ← homeWrite_canon, ← reply_canon]

theorem snoopStep_canon {s : State} (h : Canon s) (die loc : Nat) (inv : Bool) : Canon (snoopStep die loc inv s) := by
  unfold snoopStep
  grind [← rdcWriteBack_canon, ← fire_canon, ← rdcDrop_canon]

theorem birspStep_canon {s : State} (h : Canon s) (loc : Nat) (data : Option (LineData × Bool)) :
    Canon (birspStep loc data s) := by
  unfold birspStep
  grind [← linkWrite_canon]

theorem peerWriteStep_canon {s : State} (h : Canon s) (loc : Nat) (data : List Byte) (poison : Bool) :
    Canon (peerWriteStep loc data poison s) := by
  unfold peerWriteStep
  grind [← linkWrite_canon, ← biSend_canon]

theorem peerReadStep_canon {s : State} (h : Canon s) (loc n : Nat) : Canon (peerReadStep loc n s) := by
  unfold peerReadStep
  grind [← homeRead_canon, ← reply_canon, ← biSend_canon]

theorem icacheFillStep_canon {s : State} (h : Canon s) (gid : Gid) (va : Nat) : Canon (icacheFillStep gid va s) := by
  unfold icacheFillStep
  grind [← icLine_canon, ← translate_canon, ← wakeFrom_canon, ← countLatent_canon, ← biSend_canon]

/-! ### Special functions -/

theorem sfuBody_canon (f : Slk) (fn : Nat → Nat → Bool → Nat → Nat) : KeepsCanon (sfuBody f fn) :=
  fun _ h => longBody_canon h ..

/-! ### Repeats -/

theorem repEnd_canon {e : Env} {s : State} (h : Canon s) : Canon (repEnd e s) := h

/-! ### The device's own acts -/

theorem evictLine_canon {s : State} (h : Canon s) (lv : Level) (key : Nat) : Canon (evictLine lv key s) := by
  unfold evictLine
  grind [← l2Evict_canon, ← rdcDrop_canon, ← biSend_canon]

theorem pick_canon {s : State} (h : Canon s) (l : List Nat) : Canon (pick s l).1 := h

theorem thin_canon {s : State} (h : Canon s) (lv : Level) (k : Nat) (xs : List Nat) : Canon (thin lv k xs s) := by
  induction k generalizing s xs with
  | zero => exact h
  | succ k ih =>
    have hp := pick_canon h (victims s lv xs)
    unfold thin
    grind [← evictLine_canon]

theorem trimLevel_canon {s : State} (h : Canon s) (lv : Level) : Canon (trimLevel lv s) := by
  unfold trimLevel
  dsimp only
  split
  · exact h
  · exact foldl_canon (fun h _ => thin_canon h ..) _ h

theorem thinCode_canon {s : State} (h : Canon s) (k : Nat) (xs : List Nat) : Canon (thinCode k xs s) := by
  induction k generalizing s xs with
  | zero => exact h
  | succ k ih =>
    have hp := pick_canon h xs
    unfold thinCode
    grind

theorem trimCode_canon {s : State} (h : Canon s) : Canon (trimCode s) := by
  unfold trimCode
  split
  · exact h
  · exact foldl_canon (fun h _ => thinCode_canon h ..) _ h

theorem trim_canon {s : State} (h : Canon s) : Canon (trim s) := by
  have hs := trimCode_canon (trimLevel_canon (trimLevel_canon (trimLevel_canon h .l1) .l2) .rdc)
  unfold trim
  dsimp only
  split <;> exact hs

theorem env?_st {s : State} {g : Gid} {e : Env} (he : env? s g = some e) : e.st = s := by
  unfold env? at he
  grind

theorem ownStep_canon {s : State} (h : Canon s) (o : Own) : Canon (ownStep o s) := by
  cases o with
  | icacheEvict quad line => exact h
  | l1Evict core line => exact canon_of_eq_ite rfl (evictLine_canon h ..) h
  | rdcEvict die line => exact canon_of_eq_ite rfl (evictLine_canon h ..) h
  | fetchAhead g pc =>
    dsimp only [ownStep]
    split
    · next he => exact fetchAhead_canon (by rw [env?_st he]; exact h) pc
    · exact h
  | mediaUpset w e => exact canon_of_eq_ite rfl h h
  | poolUpset w e => exact canon_of_eq_ite rfl h h
  | registerUpset g d e => exact modGroup_canon h ..
  | l1Upset core line w e =>
    dsimp only [ownStep]
    split
    · exact canon_of_eq_ite rfl h h
    · exact h
  | bankUpset bank w e =>
    dsimp only [ownStep]
    split <;> exact h
  | linkRetry die link => exact canon_of_eq_ite rfl h h
  | filterEvict line => exact canon_of_eq_ite rfl (biSend_canon h ..) h

end Sys2Proof.Machine
end

section
/-! SUPPORT. A step keeps memory in canonical form (O6). -/

namespace Sys2Proof.Machine

/-! ### One instruction or event -/

theorem issueSettled_canon {body : Env → Res} (hb : KeepsCanon body) {i : Instr} {f : Slk} {s t : State} (h : Canon s)
    (ht : issueSettled i f body s = .next t) : Canon t := issue_canon hb (modGroup_canon h ..) ht

theorem citStep_canon {fn : CitFn} (hf : CitKeepsCanon fn) {i : Instr} {s t : State} (h : Canon s)
    (ht : citStep i fn s = .next t) : Canon t := by
  unfold citStep at ht
  split at ht
  · cases ht
  · split at ht
    · cases ht
    · split at ht
      · cases ht
      · cases ht
        exact citSettle_canon h (runWord_canon hf _ _ _ h) _

theorem ruleStep_canon {act : Walk → Nat → State → State} (ha : ∀ w x {s}, Canon s → Canon (act w x s)) {i : Instr}
    {s t : State} (h : Canon s) (ht : ruleStep i act s = .next t) : Canon t := by
  unfold ruleStep at ht
  split at ht
  · cases ht
  · split at ht
    · cases ht
      exact h
    · split at ht
      · cases ht
        exact ha _ _ h
      · split at ht
        · next hr =>
          cases ht
          exact walkRead_error h hr
        · next hr =>
          cases ht
          exact ha _ _ (walkRead_ok h hr)

/-- `exit` leaves its group, which may complete a `setw` of the team. -/
theorem exitSettled_canon : KeepsCanon fun e => match exitBody e with
    | .stay s => .stay (setwTry e.gid.team s)
    | r => r := by
  intro e h
  have hx : Canon (exitBody e).st := exitBody_canon h
  dsimp only
  split
  · next hr =>
    rw [hr] at hx
    exact setwTry_canon hx ..
  · exact hx

theorem canon_of_next {s t : State} (h : Canon s) (ht : (.next s : Out) = .next t) : Canon t := by
  cases ht
  exact h

/-- An instruction or event that is no `rep` keeps memory in canonical form. -/
theorem exec_canon_of_ne_rep {i : Instr} (hrep : ∀ p, i ≠ .rep p) {s t : State} (h : Canon s)
    (ht : exec i s = .next t) : Canon t := by
  cases i with
  | nop _ => exact issue_canon (fun _ h => by exact h) h ht
  | iadd _ => exact issue_canon (fun _ h => intBody_canon h ..) h ht
  | isub _ => exact issue_canon (fun _ h => intBody_canon h ..) h ht
  | imul _ => exact issue_canon (mulBody_canon _ _) h ht
  | imulh _ => exact issue_canon (mulBody_canon _ _) h ht
  | imad _ => exact issue_canon (mulBody_canon _ _) h ht
  | iabs _ => exact issue_canon (fun _ h => intBody_canon h ..) h ht
  | imin _ => exact issue_canon (fun _ h => intBody_canon h ..) h ht
  | imax _ => exact issue_canon (fun _ h => intBody_canon h ..) h ht
  | ishl _ => exact issue_canon (fun _ h => intBody_canon h ..) h ht
  | ishr _ => exact issue_canon (fun _ h => intBody_canon h ..) h ht
  | isra _ => exact issue_canon (fun _ h => intBody_canon h ..) h ht
  | irot _ => exact issue_canon (fun _ h => intBody_canon h ..) h ht
  | and _ => exact issue_canon (fun _ h => intBody_canon h ..) h ht
  | or _ => exact issue_canon (fun _ h => intBody_canon h ..) h ht
  | xor _ => exact issue_canon (fun _ h => intBody_canon h ..) h ht
  | andn _ => exact issue_canon (fun _ h => intBody_canon h ..) h ht
  | popc _ => exact issue_canon (fun _ h => fixedBody_canon h ..) h ht
  | clz _ => exact issue_canon (fun _ h => fixedBody_canon h ..) h ht
  | ctz _ => exact issue_canon (fun _ h => fixedBody_canon h ..) h ht
  | brev _ => exact issue_canon (fun _ h => intBody_canon h ..) h ht
  | bfx _ => exact issue_canon (fun _ h => intBody_canon h ..) h ht
  | bfi _ => exact issue_canon (fun _ h => intBody_canon h ..) h ht
  | lea _ => exact issue_canon (fun _ h => fixedBody_canon h ..) h ht
  | icmp _ => exact issue_canon (fun _ h => fixedBody_canon h ..) h ht
  | sel _ => exact issue_canon (fun _ h => intBody_canon h ..) h ht
  | mov _ => exact issue_canon (fun _ h => intBody_canon h ..) h ht
  | movi _ => exact issue_canon (fun _ h => intBody_canon h ..) h ht
  | srd _ => exact issue_canon (fun _ h => fixedBody_canon h ..) h ht
  | swr _ => exact issue_canon (fun _ h => swrBody_canon h ..) h ht
  | rdlane _ => exact issue_canon (fun _ h => rdlaneBody_canon h ..) h ht
  | wrlane _ => exact issue_canon (fun _ h => wrlaneBody_canon h ..) h ht
  | fadd _ => exact issue_canon (fltBody_canon _ _) h ht
  | fsub _ => exact issue_canon (fltBody_canon _ _) h ht
  | fmul _ => exact issue_canon (fltBody_canon _ _) h ht
  | ffma _ => exact issue_canon (fltBody_canon _ _) h ht
  | fmin _ => exact issue_canon (fltBody_canon _ _) h ht
  | fmax _ => exact issue_canon (fltBody_canon _ _) h ht
  | fcmp f => exact issue_canon (f64Service_canon (fun _ h => fixedBody_canon h ..) f) h ht
  | fclass _ => exact issue_canon (fun _ h => fixedBody_canon h ..) h ht
  | frnd _ => exact issue_canon (fltBody_canon _ _) h ht
  | fdot2 _ => exact issue_canon (fun _ h => fixedBody_canon h ..) h ht
  | frcp f => exact issue_canon (f64Service_canon (sfuBody_canon _ _) f) h ht
  | frsq _ => exact issue_canon (sfuBody_canon _ _) h ht
  | fsqrt f => exact issue_canon (f64Service_canon (sfuBody_canon _ _) f) h ht
  | fexp2 _ => exact issue_canon (sfuBody_canon _ _) h ht
  | flog2 _ => exact issue_canon (sfuBody_canon _ _) h ht
  | fsin _ => exact issue_canon (sfuBody_canon _ _) h ht
  | fcos _ => exact issue_canon (sfuBody_canon _ _) h ht
  | ftanh _ => exact issue_canon (sfuBody_canon _ _) h ht
  | cvt _ => exact issue_canon (fun _ h => fixedBody_canon h ..) h ht
  | qblk _ => exact issue_canon (fun _ h => fixedBody_canon h ..) h ht
  | dqblk _ => exact issue_canon (fun _ h => fixedBody_canon h ..) h ht
  | bpk _ => exact issue_canon (fun _ h => fixedBody_canon h ..) h ht
  | bupk _ => exact issue_canon (fun _ h => fixedBody_canon h ..) h ht
  | shfl _ => exact issue_canon (fun _ h => longBody_canon h ..) h ht
  | ballot _ => exact issue_canon (fun _ h => longBody_canon h ..) h ht
  | vote _ => exact issue_canon (fun _ h => longBody_canon h ..) h ht
  | plog _ => exact issue_canon (fun _ h => fixedBody_canon h ..) h ht
  | redx f => exact issue_canon (f64Service_canon (redxBody_canon _) f) h ht
  | scan f => exact issue_canon (f64Service_canon (scanBody_canon _) f) h ht
  | ldl _ => exact issue_canon (acquiring_canon (fun _ h => ldlBody_canon h ..) _ _) h ht
  | stl _ => exact issue_canon (releasing_canon (fun _ h => stlBody_canon h ..) _ _) h ht
  | ldg _ => exact issue_canon (fun _ h => ldgOrd_canon h ..) h ht
  | stg _ => exact issue_canon (fun _ h => stgOrd_canon h ..) h ht
  | ldc _ => exact issue_canon (fun _ h => ldcBody_canon h ..) h ht
  | bset _ => exact issue_canon (fun _ h => bsetBody_canon h ..) h ht
  | atoml _ =>
    exact issue_canon (committing_canon (releasing_canon (acquiring_canon (fun _ h => atomlBody_canon h ..) _ _) _ _))
      h ht
  | pfg _ => exact issue_canon (fun _ h => pfgBody_canon h ..) h ht
  | wbr _ => exact issue_canon (fun _ h => wbrBody_canon h ..) h ht
  | invr _ => exact issue_canon (fun _ h => invrBody_canon h ..) h ht
  | invrL1 _ => exact issue_canon (fun _ h => invrBody_canon h ..) h ht
  | fenceAcq _ => exact issue_canon (fenceBody_canon _ _ _ _) h ht
  | fenceRel _ => exact issue_canon (fenceBody_canon _ _ _ _) h ht
  | fenceAr _ => exact issue_canon (fenceBody_canon _ _ _ _) h ht
  | fenceMs _ => exact issue_canon (fenceBody_canon _ _ _ _) h ht
  | ifence _ => exact issue_canon (ifenceBody_canon _) h ht
  | rgnOpen _ => exact issue_canon rgnOpenBody_canon h ht
  | rgnClose _ => exact issue_canon (committing_canon (fun _ h => by exact h)) h ht
  | atomg _ => exact issue_canon (fun _ h => atomgOrd_canon h ..) h ht
  | gath _ => exact issue_canon (fun _ h => gathOrd_canon h ..) h ht
  | scat _ => exact issue_canon (fun _ h => scatOrd_canon h ..) h ht
  | gathList _ => exact issue_canon (committing_canon (fun _ h => listBody_canon h ..)) h ht
  | scatList _ => exact issue_canon (committing_canon (fun _ h => listBody_canon h ..)) h ht
  | mst _ => exact issue_canon (inService_canon (fun _ h => mstOrd_canon h ..)) h ht
  | walk _ => exact issue_canon (inService_canon (committing_canon (fun _ h => walkBody_canon h ..))) h ht
  | wprog _ => exact issue_canon (fun _ h => wprogBody_canon h ..) h ht
  | wst _ => exact issue_canon (fun _ h => wstBody_canon h ..) h ht
  | wres _ => exact issue_canon (inService_canon (committing_canon (fun _ h => wresBody_canon h ..))) h ht
  | ccfg f => exact issue_canon (berylBody_canon (fun _ _ h => ccfgBody_canon h ..) f _ _) h ht
  | cins f => exact issue_canon (berylBody_canon (fun _ _ h => cinsBody_canon h ..) f _ _) h ht
  | cnear f => exact issue_canon (berylBody_canon (fun _ _ h => cnearBody_canon h ..) f _ _) h ht
  | cmrg f => exact issue_canon (berylBody_canon (fun _ _ h => cmrgBody_canon h ..) f _ _) h ht
  | crd f => exact issue_canon (berylBody_canon (fun _ _ h => crdBody_canon h ..) f _ _) h ht
  | cclr f => exact issue_canon (berylBody_canon (fun _ _ h => cclrBody_canon h ..) f _ _) h ht
  | cdump f => exact issue_canon (berylBody_canon (fun _ _ h => cdumpBody_canon h ..) f _ _) h ht
  | anot _ => exact issue_canon (committing_canon (releasing_canon (fun _ h => anotBody_canon h ..) _ _)) h ht
  | binit _ => exact issue_canon (committing_canon (fun _ h => binitBody_canon h ..)) h ht
  | bexp _ => exact issue_canon (committing_canon (releasing_canon (fun _ h => bexpBody_canon h ..) _ _)) h ht
  | barv _ => exact issue_canon (committing_canon (releasing_canon (fun _ h => barvBody_canon h ..) _ _)) h ht
  | bwait _ => exact issue_canon (committing_canon (fun _ h => bwaitBody_canon h ..)) h ht
  | btry _ => exact issue_canon (committing_canon (fun _ h => btryBody_canon h ..)) h ht
  | bst _ => exact issue_canon (committing_canon (acquiring_canon (fun _ h => bstBody_canon h ..) _ _)) h ht
  | barrierWaitWake _ => exact canon_of_next (wakeRetry_canon h ..) ht
  | cbinit _ => exact issue_canon (committing_canon (fun _ h => cbinitBody_canon h ..)) h ht
  | cbget _ => exact issue_canon (committing_canon (acquiring_canon (cbgetBody_canon _ _) _ _)) h ht
  | cbgetClaim _ => exact issue_canon (committing_canon (acquiring_canon (cbgetBody_canon _ _) _ _)) h ht
  | cbputDone _ => exact issue_canon (committing_canon (releasing_canon (cbputBody_canon _ _) _ _)) h ht
  | cbputFill _ => exact issue_canon (committing_canon (releasing_canon (cbputBody_canon _ _) _ _)) h ht
  | cbufWaitWake _ => exact canon_of_next (wakeRetry_canon h ..) ht
  | marm f => exact issue_canon (body := marmBody f) (fun _ h => marmBody_canon h f) h ht
  | marmLoc _ => exact issue_canon (fun _ h => marmLocBody_canon h ..) h ht
  | marmOff _ => exact issue_canon (fun _ h => by exact h) h ht
  | mwait _ => exact issue_canon (committing_canon (fun _ h => mwaitBody_canon h ..)) h ht
  | mwaitWake _ _ => exact canon_of_next (mwaitEnd_canon (fireSome_canon h ..) ..) ht
  | mwaitTimeout _ => exact canon_of_next (canon_ite (mwaitEnd_canon h ..) h) ht
  | tbar _ => exact issue_canon (committing_canon (releasing_canon (fun _ h => tbarBody_canon h ..) _ _)) h ht
  | tbarRelease _ => exact canon_of_next (tbarStep_canon h ..) ht
  | orsv f => exact issue_canon (rsvBody_canon (fun _ h => orsvBody_canon h ..) f) h ht
  | orel f => exact issue_canon (rsvBody_canon (fun _ h => by exact h) f) h ht
  | mzero _ => exact issue_canon (matBody_canon (committing_canon (fun _ h => mzeroBody_canon h ..))) h ht
  | mma _ => exact issue_canon (matBody_canon (fun _ h => mmaBody_canon h ..)) h ht
  | mmab _ => exact issue_canon (matBody_canon (fun _ h => mmaBody_canon h ..)) h ht
  | mmas _ => exact issue_canon (matBody_canon (fun _ h => mmaBody_canon h ..)) h ht
  | mwt _ => exact issue_canon (matBody_canon (committing_canon (fun _ h => mwtBody_canon h ..))) h ht
  | mstat _ => exact issue_canon (inService_canon (fun _ h => longBody_canon h ..)) h ht
  | matrixRowComplete _ => exact canon_of_next (matRowStep_canon h ..) ht
  | matrixRetire _ => exact canon_of_next (matRetireStep_canon h ..) ht
  | matrixResume _ => exact canon_of_next (matResumeStep_canon h ..) ht
  | mdrain _ => exact issue_canon (matBody_canon (fun _ h => mdrainBody_canon h ..)) h ht
  | mprog _ => exact issue_canon (matBody_canon (committing_canon (fun _ h => mprogBody_canon h ..))) h ht
  | tkrd f =>
    exact issue_canon (matBody_canon (committing_canon (topBody_canon (fun _ _ h => tkrdBody_canon h ..) f))) h ht
  | tkclr f =>
    exact issue_canon (matBody_canon (committing_canon (topBody_canon (fun _ _ h => tkclrBody_canon h ..) f))) h ht
  | drainStart _ => exact canon_of_next (drainStartStep_canon h ..) ht
  | drainRowCommit _ => exact canon_of_next (drainRowStep_canon h ..) ht
  | drainRetire _ => exact canon_of_next (drainRetireStep_canon h ..) ht
  | citEnd _ => exact citStep_canon (fun _ _ _ _ h => h) h ht
  | citMov _ => exact citStep_canon (citLanes_canon _ _) h ht
  | citLdk _ => exact citStep_canon (citLanes_canon _ _) h ht
  | citLdr _ => exact citStep_canon (citLoad_canon _ _ _) h ht
  | citLdv _ => exact citStep_canon (citLoad_canon _ _ _) h ht
  | citAdd _ => exact citStep_canon (citLanes_canon _ _) h ht
  | citMul _ => exact citStep_canon (citLanes_canon _ _) h ht
  | citFma _ => exact citStep_canon (citLanes_canon _ _) h ht
  | citMax _ => exact citStep_canon (citLanes_canon _ _) h ht
  | citBias _ => exact citStep_canon (citLoad_canon _ _ _) h ht
  | citScale _ => exact citStep_canon (rowScale_canon _) h ht
  | citClamp _ => exact citStep_canon (citLanes_canon _ _) h ht
  | citRelu _ => exact citStep_canon (citLanes_canon _ _) h ht
  | citGelu _ => exact citStep_canon (citLanes_canon _ _) h ht
  | citSilu _ => exact citStep_canon (citLanes_canon _ _) h ht
  | citTsc _ => exact citStep_canon (citLanes_canon _ _) h ht
  | citCvt _ => exact citStep_canon (citLanes_canon _ _) h ht
  | citTopk _ => exact citStep_canon (fun _ _ _ _ h => h) h ht
  | citSpack _ => exact citStep_canon (fun _ _ _ _ h => h) h ht
  | citStore _ => exact citStep_canon (rowStore_canon _) h ht
  | rcnt _ => exact issue_canon (committing_canon (fun _ h => rcntBody_canon h ..)) h ht
  | rcsnap _ => exact issue_canon (fun _ h => rcsnapBody_canon h ..) h ht
  | xpref _ => exact issue_canon (fun _ h => xprefBody_canon h ..) h ht
  | xtrain _ => exact issue_canon (committing_canon (fun _ h => xtrainBody_canon h ..)) h ht
  | xtrainDecay _ => exact issue_canon (committing_canon (fun _ h => xdecayBody_canon h ..)) h ht
  | nfsig _ => exact issue_canon (committing_canon (fun _ h => nfsigChecked_canon h ..)) h ht
  | glaunch _ => exact issue_canon (fun _ h => glaunchOrd_canon h ..) h ht
  | setw _ => exact issue_canon (fun _ h => setwBody_canon h ..) h ht
  | setwseq _ => exact canon_of_next (setwSeqStep_canon h ..) ht
  | regx _ => exact issue_canon (committing_canon (fun _ h => regxBody_canon h ..)) h ht
  | regr _ => exact issue_canon (fun _ h => regrBody_canon h ..) h ht
  | regxGrant _ => exact canon_of_next (regxGrantStep_canon h ..) ht
  | regxDenial _ => exact canon_of_next (regxDenyStep_canon h ..) ht
  | bra _ => exact issue_canon (fun _ h => by exact h) h ht
  | jmpi _ => exact issue_canon (fun _ h => by exact h) h ht
  | jmpiTab _ => exact issue_canon (fun _ h => by exact h) h ht
  | call _ => exact issue_canon (fun _ h => callBody_canon h ..) h ht
  | ret _ => exact issue_canon (fun _ h => by exact h) h ht
  | ipf _ => exact issue_canon (fun _ h => ipfBody_canon h ..) h ht
  | dist _ => exact issueSettled_canon (fun _ h => distBody_canon h ..) h ht
  | dnext _ => exact issueSettled_canon (fun _ h => dnextBody_canon h ..) h ht
  | dleave _ => exact issueSettled_canon (fun _ h => dleaveBody_canon h ..) h ht
  | dbrk _ => exact issueSettled_canon (fun _ h => dbrkBody_canon h ..) h ht
  | exit _ => exact issue_canon (committing_canon exitSettled_canon) h ht
  | yield _ => exact issue_canon (fun _ h => by exact h) h ht
  | trap _ => exact issue_canon (fun _ h => trapBody_canon h ..) h ht
  | brk _ => exact issue_canon (fun _ h => brkBody_canon h ..) h ht
  | tret _ => exact issue_canon (fun _ h => by exact takeTret_canon h ..) h ht
  | tretNext _ => exact issue_canon (fun _ h => by exact takeTret_canon h ..) h ht
  | rep p => exact absurd rfl (hrep p)
  | longLatencyWrite _ => exact canon_of_next (resultStep_canon h ..) ht
  | agateRingTake _ _ => exact canon_of_next (agateStep_canon h ..) ht
  | cmdLoad _ => exact canon_of_next (copyStep_canon h ..) ht
  | cmdStore _ => exact canon_of_next (copyStep_canon h ..) ht
  | cmdGcopy _ => exact canon_of_next (copyStep_canon h ..) ht
  | cmdGatherRows _ => exact canon_of_next (copyStep_canon h ..) ht
  | cmdScatterRows _ => exact canon_of_next (copyStep_canon h ..) ht
  | cmdFill _ => exact canon_of_next (copyStep_canon h ..) ht
  | cmdMcastLoad _ => exact canon_of_next (copyStep_canon h ..) ht
  | copyCompletion _ => exact canon_of_next (completeStep_canon h ..) ht
  | copyResume _ => exact canon_of_next (copyUnpark_canon h ..) ht
  | sliceAtomicApply _ _ => exact canon_of_next (sliceApplyStep_canon h ..) ht
  | garnetElement _ => exact canon_of_next (garnetStep_canon h ..) ht
  | garnetSuspendResume _ => exact canon_of_next (garnetResumeStep_canon h ..) ht
  | peridotHomeWriteback _ => exact canon_of_next (peridotTake_canon h ..) ht
  | peridotOperation _ => exact canon_of_next (peridotPerform_canon h ..) ht
  | jLdcmp r =>
    exact ruleStep_canon (i := .jLdcmp r) (act := ruleCompare r fun w => w.key.toNat)
      (fun _ _ _ h => ruleCompare_canon h ..) h ht
  | jLdcmpi r =>
    exact ruleStep_canon (i := .jLdcmpi r) (act := ruleCompare r fun _ => ruleImm r)
      (fun _ _ _ h => ruleCompare_canon h ..) h ht
  | jFollow r =>
    exact ruleStep_canon (i := .jFollow r) (act := ruleFollow r)
      (fun _ _ _ h => ruleFollow_canon h ..) h ht
  | jSelect r =>
    exact ruleStep_canon (i := .jSelect r) (act := ruleSelect r)
      (fun _ _ _ h => ruleSelect_canon h ..) h ht
  | jReturn r =>
    exact ruleStep_canon (i := .jReturn r) (act := ruleReturn r)
      (fun _ _ _ h => ruleReturn_canon h ..) h ht
  | jMiss r =>
    exact ruleStep_canon (i := .jMiss r) (act := fun w _ s => walkEnd w 1 w.rule false 0 w.p [] s)
      (fun _ _ _ h => walkEnd_canon h ..) h ht
  | walkForward _ =>
    refine canon_of_next ?_ ht
    split
    · exact canon_ite (walkMove_canon h ..) (walkAccept_canon h ..)
    · exact h
  | walkParkResume _ => exact canon_of_next (walkUnpark_canon h ..) ht
  | berylPerform _ => exact canon_of_next (berylStep_canon h ..) ht
  | cdumpResume _ => exact canon_of_next (dumpResume_canon h ..) ht
  | drained _ => exact canon_of_next (drainedStep_canon h ..) ht
  | dims _ _ => exact canon_of_next (dimsStep_canon h ..) ht
  | fenceWaitMet _ _ => exact canon_of_next (fenceWaitStep_canon h ..) ht
  | nopRecord _ _ => exact canon_of_next (takeRecord_canon h ..) ht
  | launchRecord _ _ => exact canon_of_next (takeRecord_canon h ..) ht
  | signalRecord _ _ =>
    refine canon_of_next ?_ ht
    split
    · exact signalQueue_canon (takeRecord_canon h ..) ..
    · exact signalQueue_canon h ..
  | gridComplete _ => exact canon_of_next (gridCompleteStep_canon h ..) ht
  | dispatchBind _ _ => exact canon_of_next (dispatchStep_canon h ..) ht
  | fillComplete _ _ => exact canon_of_next (fillStep_canon h ..) ht
  | teamEnd _ => exact canon_of_next (teamEndStep_canon h ..) ht
  | storeCacheLevelAccept _ => exact canon_of_next (storeStep_canon h ..) ht
  | remoteStlPerformed _ => exact canon_of_next (remoteStlStep_canon h ..) ht
  | rcntApply _ => exact canon_of_next (rcntStep_canon h ..) ht
  | l1Fill _ _ => exact canon_of_next (l1FillStep_canon h ..) ht
  | l2Fill _ => exact canon_of_next (l2FillStep_canon h ..) ht
  | l2Eviction _ => exact canon_of_next (l2EvictStep_canon h ..) ht
  | rdcWriteback _ _ => exact canon_of_next (rdcBackStep_canon h ..) ht
  | controllerAccept _ => exact canon_of_next (mediaStep_canon h ..) ht
  | patrolScrub _ => exact canon_of_next (scrubStep_canon h ..) ht
  | rowSparing _ _ => exact canon_of_next (sparingStep_canon h ..) ht
  | channelSparing _ _ => exact canon_of_next (channelStep_canon h ..) ht
  | hostWrite _ _ => exact canon_of_next (hostWriteStep_canon h ..) ht
  | hostRead _ _ _ => exact canon_of_next (hostReadStep_canon h ..) ht
  | peerWrite _ _ => exact canon_of_next (peerWriteStep_canon h ..) ht
  | hostAtomicop _ _ _ _ _ => exact canon_of_next (hostAtomicStep_canon h ..) ht
  | cxlSnoop _ _ _ => exact canon_of_next (snoopStep_canon h ..) ht
  | birsp _ _ => exact canon_of_next (birspStep_canon h ..) ht
  | icacheFill _ _ => exact canon_of_next (icacheFillStep_canon h ..) ht
  | tlbShootdown _ => exact canon_of_next (shootdownStep_canon h ..) ht
  | fans _ _ _ => exact canon_of_next (answerFault_canon h ..) ht
  | queueDoorbell _ _ _ => exact canon_of_next (canon_ite (setQueue_canon h ..) h) ht
  | queueStopClear _ _ => exact canon_of_next (canon_ite (setQueue_canon h ..) h) ht
  | slotEntryWrite _ _ _ => exact canon_of_next (canon_ite (putSlot_canon h ..) h) ht
  | pctlWrite _ _ => exact canon_of_next (pctlPut_canon h ..) ht
  | preemptLimitExpiry _ => exact canon_of_next (canon_ite (enterSaving_canon h ..) h) ht
  | restore _ _ => exact canon_of_next (restoreStep_canon h ..) ht
  | unload _ _ _ => exact canon_of_next (unloadStep_canon h ..) ht
  | forcedUnloadRestore _ _ => exact canon_of_next (goneStep_canon h ..) ht
  | cctlResume _ => exact canon_of_next (resumeHalted_canon h ..) ht
  | wake _ => exact canon_of_next (wakeMwaits_canon h ..) ht
  | measure _ _ _ => exact canon_of_next (canon_ite (measureStep_canon h ..) h) ht
  | go => exact canon_of_next (goStep_canon h ..) ht
  | hbmReady => exact canon_of_next (canon_ite (by exact h) h) ht
  | monitorConfigWrite _ _ _ => exact canon_of_next (canon_ite (monitorConfig_canon h ..) h) ht
  | monitorRscRead _ _ _ => exact canon_of_next (canon_ite (monitorRead_canon h ..) h) ht
  | monitorSample _ _ _ => exact canon_of_next (canon_ite (monitorSample_canon h ..) h) ht
  | mgmtRegisterWrite _ _ _ => exact canon_of_next (mgmtWrite_canon h ..) ht
  | powerControl _ _ => exact canon_of_next (canon_ite (powerStep_canon h ..) h) ht
  | thermalThrottle _ _ _ => exact canon_of_next (canon_ite (thermalStep_canon h ..) h) ht
  | watchdogExpiry _ _ => exact canon_of_next (canon_ite (watchdogStep_canon h ..) h) ht
  | spareCoreSubstitution _ => exact canon_of_next (canon_ite (spareCoreStep_canon h ..) h) ht
  | sliceRetire _ _ => exact canon_of_next (canon_ite (retireStep_canon h ..) h) ht
  | bankCarve _ _ => exact canon_of_next (canon_ite (carveStep_canon h ..) h) ht
  | sliceFailure _ _ => exact canon_of_next (canon_ite (loseBank_canon h ..) h) ht
  | linkLaneDrop _ _ => exact canon_of_next (canon_ite (laneDropStep_canon h ..) h) ht
  | getVersion => exact canon_of_next (answer_canon h ..) ht
  | getCapabilities => exact canon_of_next (answer_canon h ..) ht
  | negotiateAlgorithms => exact canon_of_next (answer_canon h ..) ht
  | getDigests => exact canon_of_next (answer_canon h ..) ht
  | getCertificate _ => exact canon_of_next (answer_canon h ..) ht
  | challenge _ => exact canon_of_next (answer_canon h ..) ht
  | getMeasurements _ _ => exact canon_of_next (answer_canon h ..) ht
  | setCertificate _ _ => exact canon_of_next (setCertStep_canon h ..) ht
  | deviceReset => exact canon_of_next (resetKeeping_canon h ..) ht
  | recoveryImage _ => exact canon_of_next (recoveryStep_canon h ..) ht
  | enrolOwnerKey _ _ _ _ => exact canon_of_next (enrolStep_canon h ..) ht
  | advance _ _ => exact canon_of_next (advanceStep_canon h ..) ht
  | contextCreation _ _ => exact canon_of_next (createStep_canon h ..) ht
  | contextKill _ => exact canon_of_next (canon_ite (killCtx_canon h ..) h) ht
  | rdcFill _ _ => exact canon_of_next (rdcFillStep_canon h ..) ht
  | peerRead _ _ => exact canon_of_next (peerReadStep_canon h ..) ht
  | fqconsWrite _ _ => exact canon_of_next (fqconsPut_canon h ..) ht
  | owneronlySet => exact canon_of_next (by exact h) ht
  | activeGridHandover _ => exact canon_of_next (handOver_canon h ..) ht

/-- A repeat executes its target as `exec` does; what cannot be repeated leaves the state. -/
theorem repExec_eq_or (i : Instr) (s : State) : repExec i s = .next s ∨ (∀ p, i ≠ .rep p) ∧ repExec i s = exec i s := by
  unfold repExec
  split
  case h_55 => exact .inl rfl
  all_goals exact .inr ⟨nofun, rfl⟩

theorem repExec_canon {i : Instr} {s t : State} (h : Canon s) (ht : repExec i s = .next t) : Canon t := by
  rcases repExec_eq_or i s with hs | ⟨hrep, he⟩
  · exact canon_of_next h (hs.symm.trans ht)
  · exact exec_canon_of_ne_rep hrep h (he.symm.trans ht)

theorem repStep_canon {p : Pfx} {w : BitVec 96} {e : Env} {t : State} (h : Canon e.st) (ht : repStep p w e = .next t) :
    Canon t := by
  unfold repStep at ht
  extract_lets opc n k at ht
  split at ht
  · exact canon_of_next (takeTrap_canon h ..) ht
  · split at ht
    · exact canon_of_next (repEnd_canon h) ht
    · split at ht
      · exact canon_of_next h ht
      · split at ht
        · exact canon_of_next h ht
        · split at ht
          · next hr =>
            have hs := repExec_canon (by exact h) hr
            split at ht
            · exact canon_of_next hs ht
            · split at ht
              · exact canon_of_next (modGroup_canon hs ..) ht
              · exact canon_of_next (repEnd_canon hs) ht
          · exact repExec_canon (by exact h) ht

theorem execRep_canon {p : Pfx} {s t : State} (h : Canon s) (ht : execRep p s = .next t) : Canon t := by
  unfold execRep at ht
  split at ht
  · cases ht
  · next he =>
    have hs := (env?_st he).symm ▸ h
    split at ht
    · next hr => exact canon_of_next (conclude_canon _ _ (fetchRes_error hs hr)) ht
    · next hr => exact repStep_canon (env_at_canon (fetchRes_ok hs hr)) ht

/-- Every instruction and event keeps memory in canonical form. -/
theorem exec_canon {i : Instr} {s t : State} (h : Canon s) (ht : exec i s = .next t) : Canon t := by
  by_cases hrep : ∃ p, i = .rep p
  · obtain ⟨p, rfl⟩ := hrep
    exact execRep_canon h ht
  · exact exec_canon_of_ne_rep (fun p hp => hrep ⟨p, hp⟩) h ht

/-! ### One turn -/

theorem ticked_canon {g : Option Gid} {o : Out} {t : State} (ho : ∀ {s}, o = .next s → Canon s)
    (ht : ticked g o = .next t) : Canon t := by
  cases o with
  | next s => exact canon_of_next (tick_canon (trim_canon (settleRecords_canon (ho rfl))) _) ht
  | fault r => cases ht
  | refused r => cases ht

theorem thenRetry_canon {o : Out} {t : State} (ho : ∀ {s}, o = .next s → Canon s) (ht : thenRetry o = .next t) :
    Canon t := by
  cases o with
  | next s => exact canon_of_next (clearRetry_canon (ho rfl)) ht
  | fault r => cases ht
  | refused r => cases ht

theorem stepGroup_canon {g : Gid} {s t : State} (h : Canon s) (ht : stepGroup g s = .next t) : Canon t := by
  unfold stepGroup at ht
  split at ht
  · exact canon_of_next h ht
  · extract_lets s1 at ht
    have h1 : Canon s1 := h
    split at ht
    · next hr => exact canon_of_next (conclude_canon _ _ (fetchRes_error (env_at_canon h1) hr)) ht
    · next hr =>
      have hs := fetchRes_ok (env_at_canon h1) hr
      split at ht
      · exact canon_of_next (takeTrap_canon hs ..) ht
      · exact exec_canon hs ht

theorem stepWord_canon {i : Option Instr} {s t : State} (h : Canon s) (ht : stepWord i s = .next t) : Canon t := by
  cases i with
  | none => exact canon_of_next h ht
  | some i => exact exec_canon h ht

theorem stepTurn_canon {x : Turn} {s t : State} (h : Canon s) (ht : stepTurn x s = .next t) : Canon t := by
  cases x with
  | group g =>
    dsimp only [stepTurn] at ht
    split at ht
    · exact ticked_canon (stepGroup_canon (clearRetry_canon h)) ht
    · exact canon_of_next (tick_canon h _) ht
  | citrine c => exact ticked_canon (thenRetry_canon (stepWord_canon (by exact h))) ht
  | walk id => exact ticked_canon (thenRetry_canon (stepWord_canon (by exact h))) ht
  | event e => exact ticked_canon (thenRetry_canon (exec_canon h)) ht
  | own o => exact ticked_canon (canon_of_next (ownStep_canon h o)) ht

theorem stepEvent_canon {s t : State} (h : Canon s) (ht : stepEvent s = some (.next t)) : Canon t := by
  unfold stepEvent at ht
  split at ht
  · exact stepTurn_canon h (Option.some.inj ht)
  · obtain ⟨e, -, he⟩ := Option.map_eq_some_iff.mp ht
    exact ticked_canon (thenRetry_canon (exec_canon h)) he

theorem stepReady_canon {s t : State} (h : Canon s) (ht : stepReady s = some (.next t)) : Canon t := by
  obtain ⟨g, -, hg⟩ := Option.map_eq_some_iff.mp ht
  exact ticked_canon (stepGroup_canon h) hg

theorem stepAuto_canon {s t : State} (h : Canon s) (ht : stepAuto s = .next t) : Canon t := by
  have hr := clearRetry_canon h
  have ho : ∀ {o : Option Out}, (∀ {u}, o = some (.next u) → Canon u) →
      o.getD (.next (tick none (clearRetry s))) = .next t → Canon t := by
    rintro (_ | o) ho ht
    · exact canon_of_next (tick_canon hr _) ht
    · exact ho (congrArg some ht)
  unfold stepAuto at ht
  refine ho (fun {u} hu => ?_) ht
  split at hu
  · rcases Option.or_eq_some_iff.mp hu with hu | ⟨-, hu⟩
    · exact stepEvent_canon h hu
    · exact stepReady_canon hr hu
  · rcases Option.or_eq_some_iff.mp hu with hu | ⟨-, hu⟩
    · exact stepReady_canon h hu
    · exact stepEvent_canon h hu

/-- Settles O6: each turn of a step is an instruction, an event or the device's own act, and none of them breaks the
form. -/
theorem stepKeepsMemoryCanonical : Obligations.StepKeepsMemoryCanonical := by
  unfold Obligations.StepKeepsMemoryCanonical
  intro s t h ht
  unfold step at ht
  split at ht
  · exact stepAuto_canon h ht
  · exact stepTurn_canon (by exact h) ht

end Sys2Proof.Machine
end

section
/-! SUPPORT. Reads after writes at the home (O25, R97, R99): the bytes of one sector that a read gives, and what a write of any
length leaves. -/

namespace Sys2Proof.Machine

/-- A read that lies in one sector. -/
theorem homeRead_of_sector (s : State) {a n : Nat} (hn : 0 < n) (h : a % 64 + n ≤ 64) :
    (homeRead s a n).2 = ((List.range n).map fun i => homeByte s (a + i), homeBad s a) := by
  have ha : 128 * (a / 128) + a % 128 = a := by omega
  rw [homeRead_of_line s hn (by omega), poisonIn, segs_of_le hn (by omega), List.any_cons, List.any_nil, Bool.or_false,
    lineBytes_eq_map]
  refine Prod.ext (List.map_congr_left fun i hi => ?_) ?_
  · have hi := List.mem_range.mp hi
    rw [lineByte_homeLine _ _ (by omega), ← Nat.add_assoc, ha]
  · dsimp only
    rw [Nat.mod_mod, getLsbD_homeLine _ _ (by omega), ha]

/-- A segment holds a byte, and lies within one block. -/
theorem mem_segsFrom_block {step : Nat} (hs : 0 < step) {k a n b m : Nat} (h : (b, m) ∈ segsFrom step k a n) :
    0 < m ∧ b % step + m ≤ step := by
  induction k generalizing a n with
  | zero => simp [segsFrom] at h
  | succ k ih =>
    have hlt := Nat.mod_lt a hs
    unfold segsFrom at h
    split at h
    · simp at h
    · rcases List.mem_cons.mp h with h | h
      · cases h
        omega
      · exact ih h

/-- A piece of a write holds a byte, and lies within one block. -/
theorem mem_dataSegs_block {step : Nat} (hs : 0 < step) {a b : Nat} {bs d : List Byte} (h : (b, d) ∈ dataSegs step a bs) :
    d ≠ [] ∧ b % step + d.length ≤ step := by
  obtain ⟨⟨c, m⟩, hmem, he⟩ := List.mem_map.mp h
  cases he
  have hin := mem_segsFrom hmem
  obtain ⟨hm, hle⟩ := mem_segsFrom_block hs hmem
  have hlen : ((bs.drop (b - a)).take m).length = m := by
    rw [List.length_take, List.length_drop]
    omega
  rw [hlen]
  exact ⟨List.ne_nil_of_length_pos (by omega), hle⟩

/-- A write within one sector leaves every byte that it does not hold. -/
theorem homeByte_homeWrite_outside {s : State} {a k : Nat} {bs : List Byte} (hb : bs ≠ []) (h : a % 64 + bs.length ≤ 64)
    (hk : ¬ (a ≤ k ∧ k < a + bs.length)) : homeByte (homeWrite s a bs) k = homeByte s k := by
  by_cases hsec : k / 64 = a / 64
  · cases hm : inMgmt a
    · rw [(homeByte_homeWrite hm hb h hsec).1, if_neg fun hc => hk hc.2]
    · rw [homeWrite_of_sector s hb h, hm]
      rfl
  · exact (homeWrite_onlySector hb h _ hsec).homeByte

/-- A write of any length is its writes of one sector, one after another. -/
theorem homeWrite_eq_foldl (s : State) (a : Nat) (bs : List Byte) :
    homeWrite s a bs = (dataSegs 64 a bs).foldl (fun s x => homeWrite s x.1 x.2) s := by
  refine List.foldl_ext _ _ _ fun s x hx => ?_
  obtain ⟨hne, hle⟩ := mem_dataSegs_block (b := x.1) (d := x.2) (by omega) hx
  rw [homeWrite_of_sector s hne hle]
  rfl

/-- A write leaves every byte outside its range. -/
theorem homeByte_homeWrite_frame {s : State} {a k : Nat} {bs : List Byte} (hk : ¬ (a ≤ k ∧ k < a + bs.length)) :
    homeByte (homeWrite s a bs) k = homeByte s k := by
  rw [homeWrite_eq_foldl]
  refine List.foldlRecOn (motive := fun t => homeByte t k = homeByte s k) _ _ rfl fun t ht x hx => ?_
  obtain ⟨hlo, hhi⟩ := mem_dataSegs (b := x.1) (d := x.2) hx
  obtain ⟨hne, hle⟩ := mem_dataSegs_block (b := x.1) (d := x.2) (by omega) hx
  exact (homeByte_homeWrite_outside hne hle (by omega)).trans ht

/-- A write within a sector without poison is read back. -/
theorem homeRead_homeWrite {s : State} {a : Nat} {bs : List Byte} (hb : bs ≠ []) (h : a % 64 + bs.length ≤ 64)
    (hm : inMgmt a = false) (hp : homeBad s a = false) : (homeRead (homeWrite s a bs) a bs.length).2 = (bs, false) := by
  rw [homeRead_of_sector _ (List.length_pos_iff.mpr hb) h]
  refine Prod.ext (List.ext_getElem (by simp) fun i hi _ => ?_) ?_
  · have hi : i < bs.length := by simpa using hi
    rw [List.getElem_map, List.getElem_range, (homeByte_homeWrite hm hb h (by omega)).1, if_pos ⟨.inr hp, by omega, by omega⟩,
      Nat.add_sub_cancel_left, List.getElem?_eq_getElem hi, Option.getD_some]
  · exact (homeByte_homeWrite hm hb h rfl).2.trans (by rw [hp, Bool.false_and])

/-- Settles O25: a write within one sector is read back by `homeRead_homeWrite`; a write of any length keeps the others by
`homeByte_homeWrite_frame`. -/
theorem homeReadsWhatWasWritten : Obligations.HomeReadsWhatWasWritten := by
  unfold Obligations.HomeReadsWhatWasWritten
  refine ⟨fun s loc bs hb h hm hp => ?_, fun s loc bs a ha => homeRead_one_congr (homeByte_homeWrite_frame ha)⟩
  rw [homeRead_of_sector s (List.length_pos_iff.mpr hb) h] at hp
  exact homeRead_homeWrite hb h hm hp

end Sys2Proof.Machine
end

section
/-! SUPPORT. Commits, releases and acquires around a body (R108, R382, R383, R402), as the statements about loads, stores and
fences have them (O26, O27, O28). -/

namespace Sys2Proof.Machine

open Claims

/-- The view after a commit is on the same core. -/
theorem committed_core {s : State} {e : Env} (he : env? s e.gid = some e) (hst : e.st = s) : (committed e).core = e.core := by
  cases hr : e.grp.region with
  | none => rw [committed_of_none (hst ▸ he) hr]
  | some r =>
    obtain ⟨l1s, l, -, h⟩ := commitRegion_eq he hr
    have henv : env? (commitRegion e.gid s) e.gid = (env? (modGroup e.gid Group.closed s) e.gid).map fun x =>
        { x with st := commitRegion e.gid s } := env?_of_teams (by rw [h]) _
    rw [env?_modGroup s e.gid e.gid Group.closed fun _ => rfl, he, Option.map_some, Option.map_some] at henv
    rw [committed, hst, Env.at_of_some henv]
    change Team.core (ite ..) = _
    split <;> rfl

/-- What executes has its view's core after a commit too. -/
theorem committed_core_of_executes {s : State} {e : Env} {i : Instr} {f : Slk} (h : Executes s e i f) :
    (committed e).core = e.core := committed_core (env?_of_executes h) (st_of_executes h)

theorem acquiring_of_done {ord sc : Nat} {body : Env → Res} {e : Env} {t : State} (h : body e = .done t) :
    acquiring ord sc body e = .done (acquired e ord sc t) := by
  unfold acquiring acquired
  rw [h]
  split <;> rfl

/-- A body that does not complete is followed by no acquire (R383). -/
theorem acquiring_of_not_done {ord sc : Nat} {body : Env → Res} {e : Env} (h : ∀ t, body e ≠ .done t) :
    acquiring ord sc body e = body e := by
  unfold acquiring
  split
  · split
    · next t ht => exact absurd ht (h t)
    · rfl
  · rfl

/-- A body that waits for nothing is as it is after a release (R382). -/
theorem pastRelease_of_not_wait {e : Env} {r : Res} (h : ∀ t w, r ≠ .wait t w) : pastRelease e r = r := by
  cases r with
  | wait t w => exact absurd rfl (h t w)
  | _ => rfl

theorem releasing_of_released {sc : Nat} {body : Env → Res} {e e' : Env} (h : released e 2 sc = some e')
    (hw : ∀ t w, body e' ≠ .wait t w) : releasing 2 sc body e = body e' := by
  obtain ⟨t, ht, rfl⟩ := Option.map_eq_some_iff.mp h
  simp only [releasing, ht, true_or, if_true]
  exact pastRelease_of_not_wait hw

end Sys2Proof.Machine
end

section
/-! SUPPORT. Global loads (O26): the lanes of an `ldg` and of an `ldc` once they are checked. -/

namespace Sys2Proof.Machine

open Claims

/-- A load of lanes none of which waits, and which reads no poison, posts its destination (R36). -/
theorem loadResolved_of_reads {e : Env} {f : Slk} {ch : Nat} {s t : State} {xs : List LaneAcc} {ws : List RegWrite}
    (hw : ∀ x ∈ xs, loadWaits e s ch x (szBytes f) = false ∧ listBlocks e s false x.loc (szBytes f) = false)
    (hl : loadLanes e f ch s xs = (t, .ok ws)) : loadResolved e f ch s xs =
      .done (writeLong e e.grp.region.isSome ws (afterLoad e.core ch s (xs.map fun x => (x, szBytes f)) t)) := by
  have hany : (xs.any fun x => loadWaits e s ch x (szBytes f) || listBlocks e s false x.loc (szBytes f)) = false := by
    rw [List.any_eq_false]
    intro x hx
    simp [hw x hx]
  simp only [loadResolved, hany, Bool.false_eq_true, if_false, hl]

/-- The checks of an `ldg`'s lanes, in the view it executes in. -/
def ldgLook (f : Slk) (e : Env) : Except Res (State × List LaneAcc) :=
  resolveGlobal e (e.gbase f.s1) (e.globalDisp f) (szBytes f) (szBytes f) .read allowAll e.st (e.memLanes f)

theorem ldgBody_of_error {f : Slk} {e : Env} {r : Res} (h : ldgLook f e = .error r) : ldgBody f e = r := by
  unfold ldgLook at h
  simp only [ldgBody, h]

theorem ldgBody_of_ok {f : Slk} {e : Env} {s : State} {xs : List LaneAcc} (h : ldgLook f e = .ok (s, xs)) :
    ldgBody f e = loadResolved e f f.ch.toNat s xs := by
  unfold ldgLook at h
  simp only [ldgBody, h]

/-- The view in which an `ldg` loads: with `.acq` the open region is committed first (R136). -/
def ldgView (f : Slk) (e : Env) : Env := if fOrd f = 1 then committed e else e

theorem ldgView_core {s : State} {e : Env} {i : Instr} {f : Slk} (h : Executes s e i f) : (ldgView f e).core = e.core := by
  unfold ldgView
  split
  · exact committed_core_of_executes h
  · rfl

theorem ldgOrd_of_done {f : Slk} {e : Env} {t : State} (h : ldgBody f (ldgView f e) = .done t) :
    ldgOrd f e = .done (if fOrd f = 1 then acquire (ldgView f e).core (fScope f) t else t) := by
  by_cases ho : fOrd f = 1
  · have hv : ldgView f e = committed e := if_pos ho
    rw [hv] at h ⊢
    rw [ldgOrd, if_pos ho, if_pos ho]
    exact acquiring_of_done h
  · rw [ldgView, if_neg ho] at h
    rw [ldgOrd, if_neg ho, if_neg ho, h]

theorem ldgOrd_of_not_done {f : Slk} {e : Env} {r : Res} (h : ldgBody f (ldgView f e) = r) (hr : ∀ t, r ≠ .done t) :
    ldgOrd f e = r := by
  by_cases ho : fOrd f = 1
  · rw [ldgView, if_pos ho] at h
    rw [ldgOrd, if_pos ho]
    exact (acquiring_of_not_done fun t => h ▸ hr t).trans h
  · rw [ldgView, if_neg ho] at h
    rw [ldgOrd, if_neg ho, h]

/-- The first lane of an `ldc` that lies outside the argument block traps (R134). -/
theorem resolveArgs_of_outside {e : Env} {f : Slk} {s : State} {l : Nat} (ls : List Nat)
    (h : e.globalDisp f l < 0 ∨ (e.team.argSize : Int) < e.globalDisp f l + szBytes f) : resolveArgs e f s (l :: ls) =
      .error (.trap s { cause := 0x05, detail := 0x05, addr := ofSigned 64 (e.globalDisp f l), lane := l }) :=
  if_pos (by simpa using h)

theorem ldcBody_of_error {f : Slk} {e : Env} {r : Res} (h : resolveArgs e f e.st (e.memLanes f) = .error r) :
    ldcBody f e = r := by
  simp only [ldcBody, h]

theorem ldcBody_of_ok {f : Slk} {e : Env} {s : State} {xs : List LaneAcc}
    (h : resolveArgs e f e.st (e.memLanes f) = .ok (s, xs)) : ldcBody f e = loadResolved e f 2 s xs := by
  simp only [ldcBody, h]

/-- Settles O26: an `ldg` in its view by `ldgOrd_of_done` and `ldgOrd_of_not_done`, an `ldc` by `resolveArgs_of_outside`, the
lanes of both by `loadResolved_of_reads`. -/
theorem globalLoads : Obligations.GlobalLoads := by
  unfold Obligations.GlobalLoads
  refine ⟨fun s e f hx => ?ldg, fun s e f hx => ?ldc⟩
  case ldg =>
    refine ⟨fun t x h => ?_, fun t va acc l h => ?_, fun s1 xs s2 ws h hw hl => ?_⟩
    · exact concluded_of_executes (body := ldgOrd f) hx (ldgOrd_of_not_done (ldgBody_of_error h) nofun)
    · exact concluded_of_executes (body := ldgOrd f) hx (ldgOrd_of_not_done (ldgBody_of_error h) nofun)
    · have hb := (ldgBody_of_ok (e := ldgView f e) h).trans (loadResolved_of_reads hw hl)
      refine concluded_of_executes (body := ldgOrd f) hx ((ldgOrd_of_done hb).trans ?_)
      rw [ldgView_core hx]
      rfl
  case ldc =>
    refine ⟨fun l ls hls h => ?_, fun s1 xs s2 ws h hw hl => ?_⟩ <;> refine concluded_of_executes (body := ldcBody f) hx ?_
    · rw [ldcBody_of_error (by rw [hls]; exact resolveArgs_of_outside ls h), st_of_executes hx]
    · rw [ldcBody_of_ok (by rwa [st_of_executes hx]), loadResolved_of_reads hw hl]

end Sys2Proof.Machine
end

section
/-! SUPPORT. Global stores (O27): the stores of an `stg` once its lanes are checked, and a posted store that is accepted. -/

namespace Sys2Proof.Machine

open Claims

theorem putStores_of_none {e : Env} (hr : e.grp.region = none) (sts : List Store) (xs : List LaneAcc) (s : State) :
    putStores e sts xs s = .done (sts.foldl (fun s st => issueStore e.gid e.team.ctx e.core st s) s) := by
  simp only [putStores, hr]

/-- A region with room for the stores holds them (R403). -/
theorem putStores_of_room {e : Env} {r : Region} (hr : e.grp.region = some r) {sts : List Store} (xs : List LaneAcc)
    (s : State) (h : (storeLines (r.buf ++ sts)).length ≤ 48) : putStores e sts xs s =
      .done (modGroup e.gid (fun g => { g with region := some { r with buf := r.buf ++ sts } }) s) := by
  simp only [putStores, hr, if_neg (Nat.not_lt.mpr h)]

/-- A region that would need a 49th line traps (R403). -/
theorem putStores_of_overflow {e : Env} {r : Region} (hr : e.grp.region = some r) {sts : List Store} (xs : List LaneAcc)
    (s : State) (h : 48 < (storeLines (r.buf ++ sts)).length) : putStores e sts xs s =
      .trap s { cause := 0x11, acc := 1, lane := ((overflowing r.buf sts xs).map (·.lane)).getD 0 } := by
  simp only [putStores, hr, if_pos h]

theorem putStores_not_wait (e : Env) (sts : List Store) (xs : List LaneAcc) (s t : State) (w : Wait) :
    putStores e sts xs s ≠ .wait t w := by
  unfold putStores
  split
  · nofun
  · split <;> nofun

/-- The checks of an `stg`'s lanes. -/
def stgLook (f : Slk) (e : Env) : Except Res (State × List LaneAcc) :=
  resolveGlobal e (e.gbase f.s1) (e.globalDisp f) (szBytes f) (szBytes f) .write allowAll e.st (e.memLanes f)

/-- The store of an `stg` in a lane; a hint has no effect on an uncached page (R109). -/
def laneStore (f : Slk) (e : Env) (x : LaneAcc) : Store :=
  ⟨x.loc, x.va, BitVec.ofNat 2 x.ca, if x.ca = 0 then f.ch else 0, false, false, e.storeBytes f x.lane⟩

theorem stgBody_of_error {f : Slk} {e : Env} {r : Res} (h : stgLook f e = .error r) : stgBody f e = r := by
  unfold stgLook at h
  simp only [stgBody, h]

theorem stgBody_of_ok {f : Slk} {e : Env} {s : State} {xs : List LaneAcc} (h : stgLook f e = .ok (s, xs))
    (hb : ∀ x ∈ xs, listBlocks e s true x.loc (szBytes f) = false) :
    stgBody f e = putStores e (xs.map (laneStore f e)) xs s := by
  have hany : (xs.any fun x => listBlocks e s true x.loc (szBytes f)) = false := by
    rw [List.any_eq_false]
    intro x hx
    simp [hb x hx]
  unfold stgLook at h
  simp only [stgBody, h, hany, Bool.false_eq_true, if_false]
  rfl

/-- An `stg` without a release is its body. -/
theorem stgOrd_of_plain {f : Slk} (ho : fOrd f ≠ 2) (e : Env) : stgOrd f e = stgBody f e := if_neg ho

/-- A releasing `stg` stores after the commit and the release (R136, R382). -/
theorem stgOrd_of_release {f : Slk} {e e' : Env} (ho : fOrd f = 2) (h : released (committed e) 2 (fScope f) = some e')
    (hw : ∀ t w, stgBody f e' ≠ .wait t w) : stgOrd f e = stgBody f e' :=
  (if_pos ho).trans (releasing_of_released h hw)

/-- A posted store whose turn has come (R379, R261). -/
theorem storeStep_of_turn {s : State} {id : Nat} {p : Pend} {st : Store} (hp : s.pend? id = some p) (hk : p.kind = .store st)
    (hs : st.scat = true → mustWait s p.owner (some id) st.loc st.data.length = false) (ha : storeAfter s p st = false) :
    storeStep id s =
      if !st.toRdc (coreDie p.core) && lineHeld s st.loc st.data.length then biSend s st.loc st.data.length true
      else acceptAt p st (unpost id s) := by
  have hturn : ((if st.scat = true then mustWait s p.owner (some id) st.loc st.data.length else false) ||
      storeAfter s p st) = false := by
    rw [ha, Bool.or_false]
    split
    · next h => exact hs h
    · rfl
  simp only [storeStep, hp, hk, hturn, Bool.false_eq_true, if_false]

/-- Settles O27: the stores of an `stg` by `stgBody_of_ok` and the cases of `putStores`, a posted store by
`storeStep_of_turn`. -/
theorem globalStores : Obligations.GlobalStores := by
  unfold Obligations.GlobalStores
  refine ⟨fun s e f hx ho => ?plain, fun s e f e' hx ho hrel s1 xs hlook hb => ?release, fun s id p st hp hk hs ha => ?accept⟩
  case plain =>
    have hst := st_of_executes hx
    rw [← hst]
    have hexec {r : Res} (h : stgBody f e = r) : exec (.stg f) e.st = concluded e f r :=
      concluded_of_executes (body := stgOrd f) (hst.symm ▸ hx) ((stgOrd_of_plain ho e).trans h)
    refine ⟨fun r h => hexec (stgBody_of_error h), fun s1 xs h hb => ⟨fun hr => ?_, fun r hr hroom => ?_, fun r hr hover => ?_⟩⟩
    · refine hexec ((stgBody_of_ok h hb).trans ?_)
      rw [putStores_of_none hr, List.foldl_map]
      rfl
    · exact hexec ((stgBody_of_ok h hb).trans (putStores_of_room hr xs s1 hroom))
    · exact hexec ((stgBody_of_ok h hb).trans (putStores_of_overflow hr xs s1 hover))
  case release =>
    have hbody := stgBody_of_ok (f := f) (e := e') hlook hb
    refine concluded_of_executes (body := stgOrd f) hx ((stgOrd_of_release ho hrel fun t w => ?_).trans hbody)
    rw [hbody]
    exact putStores_not_wait e' _ xs s1 t w
  case accept =>
    change (_ → Host.Outcome.next (storeStep id s) = _) ∧ (_ → _ → Host.Outcome.next (storeStep id s) = _)
    rw [storeStep_of_turn hp hk hs ha]
    refine ⟨fun h => ?_, fun hr hh => ?_⟩
    · rw [if_neg]
      rcases h with h | h <;> simp [h]
    · rw [hr, hh]
      rfl

end Sys2Proof.Machine
end

section
/-! SUPPORT. The homes and the caches above them (O28): what media and the L2 do neither reads nor changes an L1 or an RDC. -/

namespace Sys2Proof.Machine

/-- The state with other lines in the L1s and the RDCs. -/
def State.withCaches (s : State) (l : Assoc L1Line) (r : Assoc RdcLine) : State := { s with l1 := l, rdc := r }

section
variable (s : State) (l : Assoc L1Line) (r : Assoc RdcLine)

theorem foldl_withCaches {α : Type} {f : State → α → State} (h : ∀ s x, f (s.withCaches l r) x = (f s x).withCaches l r)
    (xs : List α) : xs.foldl f (s.withCaches l r) = (xs.foldl f s).withCaches l r := by
  induction xs generalizing s with
  | nil => rfl
  | cons x xs ih => rw [List.foldl_cons, List.foldl_cons, h, ih]

theorem ite_withCaches {c : Prop} [Decidable c] {t u t' u' : State} (ht : t' = t.withCaches l r) (hu : u' = u.withCaches l r) :
    (if c then t' else u') = (if c then t else u).withCaches l r := by
  split <;> assumption

theorem correctSector_withCaches (n : Nat) : correctSector (s.withCaches l r) n = (correctSector s n).withCaches l r :=
  foldl_withCaches s l r (f := fun s (e : Nat × Option Ecc) => countRow { s with ecc := Assoc.del s.ecc e.1 } (64 * n))
    (fun _ _ => rfl) _

theorem resolveSector_withCaches (n : Nat) :
    (resolveSector (s.withCaches l r) n).1 = (resolveSector s n).1.withCaches l r := by
  rw [resolveSector_eq, resolveSector_eq, correctSector_withCaches]
  change Prod.fst (if hasError s n .double then _ else _) = _
  split <;> rfl

theorem l2Fill_withCaches (line sec : Nat) :
    (l2Fill (s.withCaches l r) line sec).1 = (l2Fill s line sec).1.withCaches l r := by
  cases h : (l2Get s line).valid.getLsbD sec
  · rw [l2Fill_of_invalid h, l2Fill_of_invalid (s := s.withCaches l r) h]
    dsimp only
    rw [resolveSector_withCaches]
    rfl
  · rw [l2Fill_of_valid h, l2Fill_of_valid (s := s.withCaches l r) h]

theorem writeBase_withCaches (a : Nat) (bs : List Byte) :
    writeBase (s.withCaches l r) a bs = (writeBase s a bs).withCaches l r :=
  ite_withCaches l r rfl (l2Fill_withCaches ..)

theorem l2Write_withCaches (a : Nat) (bs : List Byte) : l2Write (s.withCaches l r) a bs = (l2Write s a bs).withCaches l r := by
  rw [l2Write_eq, l2Write_eq, writeBase_withCaches]
  refine congrArg (fire false (a / 64)) (?_ : _ = State.withCaches _ l r)
  exact ite_withCaches l r rfl rfl

theorem hostMemWrite_withCaches (a : Nat) (bs : List Byte) :
    hostMemWrite (s.withCaches l r) a bs = (hostMemWrite s a bs).withCaches l r := by
  have hb : (if sectorBad (s.withCaches l r) (a / 64) then setSectorEcc (s.withCaches l r) (a / 64) none else s.withCaches l r) =
      (if sectorBad s (a / 64) then setSectorEcc s (a / 64) none else s).withCaches l r := ite_withCaches l r rfl rfl
  exact ite_withCaches l r rfl (congrArg (fun t : State => { t with mem := memPuts t.mem a bs }) hb)

theorem homeWrite_withCaches (a : Nat) (bs : List Byte) :
    homeWrite (s.withCaches l r) a bs = (homeWrite s a bs).withCaches l r := by
  refine foldl_withCaches s l r (fun s x => ?_) (dataSegs 64 a bs)
  dsimp only
  refine ite_withCaches l r rfl (ite_withCaches l r (l2Write_withCaches ..) (hostMemWrite_withCaches ..))

theorem homePoison_withCaches (a n : Nat) : homePoison (s.withCaches l r) a n = (homePoison s a n).withCaches l r := by
  refine foldl_withCaches s l r (fun s x => ?_) (segs 64 a n)
  dsimp only
  refine ite_withCaches l r ?_ rfl
  rw [l2Fill_snd, l2Fill_snd, l2Fill_withCaches]
  rfl

theorem rdcBackSec_withCaches (x : RdcLine) (line sec : Nat) :
    rdcBackSec x line (s.withCaches l r) sec = (rdcBackSec x line s sec).withCaches l r := by
  have hp := homePoison_withCaches s l r (128 * line + 64 * sec) 64
  rw [rdcBackSec_eq, rdcBackSec_eq, hp]
  exact ite_withCaches l r rfl (ite_withCaches l r (ite_withCaches l r rfl rfl) (ite_withCaches l r (homeWrite_withCaches ..)
    (foldl_withCaches s l r (fun s _ => homeWrite_withCaches s l r ..) _)))

/-- A line's dirty bytes go home without another change of the RDCs. -/
theorem rdcBackSec_rdc (x : RdcLine) (line sec : Nat) : (rdcBackSec x line s sec).rdc = s.rdc := by
  have h : rdcBackSec x line s sec = (rdcBackSec x line s sec).withCaches s.l1 s.rdc :=
    rdcBackSec_withCaches s s.l1 s.rdc x line sec
  rw [h]
  rfl

/-- The write-back of an RDC line passes L1 by. -/
theorem rdcWriteBack_l1 (d line : Nat) : rdcWriteBack { s with l1 := l } d line = { rdcWriteBack s d line with l1 := l } := by
  by_cases h : (rdcGet s d line).dirty = 0
  · rw [show rdcWriteBack s d line = s from if_pos h]
    exact if_pos h
  · rw [rdcWriteBack_of_dirty h, rdcWriteBack_of_dirty (s := { s with l1 := l }) h]
    change rdcPut (rdcBackSec (rdcGet s d line) line (rdcBackSec (rdcGet s d line) line (s.withCaches l s.rdc) 0) 1) d line
      { rdcGet s d line with dirty := 0, whole := 0 } = _
    have hr := (rdcBackSec_rdc (rdcBackSec (rdcGet s d line) line s 0) (rdcGet s d line) line 1).trans
      (rdcBackSec_rdc s (rdcGet s d line) line 0)
    rw [rdcBackSec_withCaches, rdcBackSec_withCaches, ← hr]
    rfl

end

end Sys2Proof.Machine
end

section
/-! SUPPORT. What the caches hold after lines are dropped, cleaned and written back (O28, R102 to R104, R108). -/

namespace Sys2Proof.Assoc

variable {α : Type}

/-- The entry at a key after the entries are kept whose keys a test passes. -/
theorem get?_filter_keys (p : Nat → Bool) (m : Assoc α) (j : Nat) :
    get? (m.filter fun x => p x.1) j = if p j = true then get? m j else none := by
  induction m with
  | nil => simp
  | cons x m ih =>
    obtain ⟨k, v⟩ := x
    by_cases hk : j = k
    · subst hk
      cases hp : p j <;> simp [hp, get?, ih]
    · cases hp : p k <;> simp [hp, get?, ih, hk]

/-- A key at or below a bound of the keys is not listed. -/
theorem get?_of_above {m : Assoc α} {b j : Nat} (h : above (some b) m = true) (hj : j ≤ b) : get? m j = none := by
  induction m generalizing b with
  | nil => rfl
  | cons x m ih =>
    obtain ⟨k, v⟩ := x
    simp only [above, Bool.and_eq_true, decide_eq_true_eq] at h
    rw [get?, if_neg (by omega), ih h.2 (by omega)]

/-- The entry at a key after every entry is replaced or removed, where the keys rise. -/
theorem get?_filterMap {m : Assoc α} (g : Nat → α → Option α) (h : sorted m = true) (j : Nat) :
    get? (m.filterMap fun x => (g x.1 x.2).map (x.1, ·)) j = (get? m j).bind (g j) := by
  induction m with
  | nil => rfl
  | cons x m ih =>
    obtain ⟨k, v⟩ := x
    have habove : above (some k) m = true := h
    have ih := ih (above_none m habove)
    by_cases hk : j = k
    · subst hk
      rw [get?_of_above habove (Nat.le_refl j), Option.bind_none] at ih
      cases hg : g j v <;> simp [get?, hg, ih]
    · cases hg : g k v <;> simp [get?, hg, ih, hk]

/-- An entry that is found is listed. -/
theorem mem_of_get? {m : Assoc α} {k : Nat} {v : α} (h : get? m k = some v) : (k, v) ∈ m := by
  induction m with
  | nil => cases h
  | cons x m ih =>
    obtain ⟨k', v'⟩ := x
    rw [get?] at h
    split at h
    · next hk =>
      cases h
      rw [hk]
      exact List.mem_cons_self
    · exact List.mem_cons_of_mem _ (ih h)

end Sys2Proof.Assoc

namespace Sys2Proof.Machine

/-! ### Keys of two numbers -/

theorem key2_div {a b : Nat} (h : b < 2 ^ 64) : key2 a b / 2 ^ 64 = a := by unfold key2; omega
theorem key2_mod {a b : Nat} (h : b < 2 ^ 64) : key2 a b % 2 ^ 64 = b := by unfold key2; omega
theorem key2_left_inj {a b c : Nat} : key2 a b = key2 a c ↔ b = c := Nat.add_left_cancel_iff

/-- The entry of a line after the entries are kept whose two numbers a test passes. -/
theorem get?_filter_key2 {α : Type} (p : Nat → Nat → Bool) (m : Assoc α) (a : Nat) {line : Nat} (h : line < 2 ^ 64) :
    Assoc.get? (m.filter fun x => p (x.1 / 2 ^ 64) (x.1 % 2 ^ 64)) (key2 a line) =
      if p a line = true then Assoc.get? m (key2 a line) else none := by
  rw [Assoc.get?_filter_keys (fun k => p (k / 2 ^ 64) (k % 2 ^ 64)), key2_div h, key2_mod h]

/-! ### Write-backs (R102, R104) -/

theorem rdcGet_rdcPut_other (s : State) (d : Nat) {line m : Nat} (r : RdcLine) (h : m ≠ line) :
    rdcGet (rdcPut s d line r) d m = rdcGet s d m := by
  have hk : key2 d m ≠ key2 d line := mt key2_left_inj.mp h
  unfold rdcGet rdcPut
  split
  · rw [Assoc.get?_del_other _ hk]
  · rw [Assoc.get?_put_other _ _ hk]

/-- A write-back leaves the other lines of its RDC. -/
theorem rdcGet_rdcWriteBack_other (s : State) (d : Nat) {line m : Nat} (h : m ≠ line) :
    rdcGet (rdcWriteBack s d line) d m = rdcGet s d m := by
  by_cases hd : (rdcGet s d line).dirty = 0
  · rw [show rdcWriteBack s d line = s from if_pos hd]
  · rw [rdcWriteBack_of_dirty hd, rdcGet_rdcPut_other _ _ _ h]
    unfold rdcGet
    rw [rdcBackSec_rdc, rdcBackSec_rdc]

/-- After lines are written back they are clean, and the others are as they were. -/
theorem dirty_foldl_rdcWriteBack (s : State) (d : Nat) (ls : List Nat) (m : Nat) :
    (rdcGet (ls.foldl (fun s l => rdcWriteBack s d l) s) d m).dirty = if m ∈ ls then 0 else (rdcGet s d m).dirty := by
  induction ls generalizing s with
  | nil => rfl
  | cons l ls ih =>
    rw [List.foldl_cons, ih]
    by_cases hm : m = l
    · subst hm
      simp [(rdcGet_rdcWriteBack s d m).1]
    · simp [hm, rdcGet_rdcWriteBack_other s d hm]

theorem mem_rdcDirty {s : State} {d line : Nat} (hl : line < 2 ^ 64) (h : (rdcGet s d line).dirty ≠ 0) :
    line ∈ rdcDirty s d := by
  cases hg : Assoc.get? s.rdc (key2 d line) with
  | none =>
    rw [rdcGet, hg] at h
    exact absurd rfl h
  | some r =>
    rw [rdcGet, hg, Option.getD_some] at h
    exact List.mem_filterMap.mpr ⟨_, Assoc.mem_of_get? hg, by simp only [key2_div hl, key2_mod hl, h, ne_eq, not_false_eq_true,
      and_self, if_true]⟩

/-- After a die's RDC is flushed no line of it is dirty (R104). -/
theorem rdcFlush_clean (s : State) (d : Nat) {line : Nat} (hl : line < 2 ^ 64) : (rdcGet (rdcFlush s d) d line).dirty = 0 := by
  rw [rdcFlush, dirty_foldl_rdcWriteBack]
  split
  · rfl
  · next h => exact not_not.mp (mt (mem_rdcDirty hl) h)

@[simp] theorem rdcFlush_front (s : State) (d : Nat) : (rdcFlush s d).front = s.front :=
  front_foldl (fun _ _ => rdcWriteBack_front ..) _ _

/-- Write-backs of many lines pass L1 by. -/
theorem foldl_rdcWriteBack_l1 (s : State) (l : Assoc L1Line) (d : Nat) (ls : List Nat) :
    ls.foldl (fun s l => rdcWriteBack s d l) { s with l1 := l } =
      { ls.foldl (fun s l => rdcWriteBack s d l) s with l1 := l } := by
  induction ls generalizing s with
  | nil => rfl
  | cons x ls ih => rw [List.foldl_cons, List.foldl_cons, rdcWriteBack_l1, ih]

/-! ### Acquires (R103, R108) -/

/-- What an acquire leaves of an entry of a die's RDC. -/
def cleanEntry (d k : Nat) (r : RdcLine) : Option RdcLine :=
  if k / 2 ^ 64 ≠ d then some r else if r.dirty = 0 then none else some { r with valid := r.dirty, poison := 0 }

theorem rdcInvalClean_eq (s : State) (d : Nat) : rdcInvalClean s d =
    { s with rdc := s.rdc.filterMap fun x => (cleanEntry d x.1 x.2).map (x.1, ·) } := by
  unfold rdcInvalClean cleanEntry
  congr 2
  funext ⟨k, r⟩
  dsimp only
  split
  · rfl
  · split <;> rfl

/-- Of a line only its dirty bytes stay (R103). -/
theorem valid_rdcInvalClean {s : State} (hs : Assoc.sorted s.rdc = true) (d : Nat) {line : Nat} (hl : line < 2 ^ 64) :
    (rdcGet (rdcInvalClean s d) d line).valid = (rdcGet s d line).dirty := by
  have hg := Assoc.get?_filterMap (cleanEntry d) hs (key2 d line)
  rw [rdcInvalClean_eq, rdcGet, hg, rdcGet]
  cases Assoc.get? s.rdc (key2 d line) with
  | none => rfl
  | some r =>
    rw [Option.bind_some, cleanEntry, if_neg (not_not.mpr (key2_div hl)), Option.getD_some]
    split
    · next h => exact h.symm
    · rfl

theorem l1Get_l1Clear (s : State) (core : Nat) {line : Nat} (hl : line < 2 ^ 64) : l1Get (l1Clear s core) core line = none := by
  have h := get?_filter_key2 (fun c _ => decide (c ≠ core)) s.l1 core hl
  exact h.trans (if_neg (by simp))

theorem acquire_teams (core sc : Nat) (s : State) : (acquire core sc s).teams = s.teams := by
  unfold acquire
  dsimp only
  split <;> split <;> rfl

/-- An acquire drops the core's L1 (R108). -/
theorem l1Get_acquire (s : State) {core sc line : Nat} (hl : line < 2 ^ 64) (h : 3 ≤ sc) :
    l1Get (acquire core sc s) core line = none := by
  unfold acquire
  dsimp only
  rw [if_pos h]
  split
  · exact l1Get_l1Clear s core hl
  · exact l1Get_l1Clear s core hl

/-- An acquire at device scope leaves the dirty bytes of the die's RDC (R103, R108). -/
theorem valid_acquire {s : State} (hs : Assoc.sorted s.rdc = true) {core sc line : Nat} (hl : line < 2 ^ 64) (h : 5 ≤ sc) :
    (rdcGet (acquire core sc s) (coreDie core) line).valid = (rdcGet s (coreDie core) line).dirty := by
  unfold acquire
  dsimp only
  rw [if_pos (by omega : 3 ≤ sc), if_pos h]
  exact valid_rdcInvalClean (s := l1Clear s core) hs (coreDie core) hl

/-! ### Releases (R104, R382) -/

/-- The state in which a release is done but for the RDC: when it began is forgotten. -/
def releaseBase (e : Env) : State := if e.grp.relMark.isNone then e.st else e.mod fun g => { g with relMark := none }

theorem release_eq (e : Env) (sc : Nat) : release e sc =
    if e.st.pend.any (holdsRelease e.gid e.core sc (e.grp.relMark.getD e.st.nextId)) then none
    else if 5 ≤ sc then
      if rdcHeld (releaseBase e) e.die then none else some (rdcFlush (releaseBase e) e.die)
    else some (releaseBase e) := rfl

/-- A release that does not wait, and what it leaves. -/
theorem release_cases {e : Env} {sc : Nat} {t : State} (h : release e sc = some t) :
    (∀ p ∈ e.st.pend, holdsRelease e.gid e.core sc (e.grp.relMark.getD e.st.nextId) p = false) ∧
      t = if 5 ≤ sc then rdcFlush (releaseBase e) e.die else releaseBase e := by
  rw [release_eq] at h
  split at h
  · cases h
  · next hp =>
    refine ⟨by simpa using hp, ?_⟩
    split at h
    · next hsc =>
      rw [if_pos hsc]
      split at h
      · cases h
      · exact (Option.some.inj h).symm
    · next hsc =>
      rw [if_neg hsc]
      exact (Option.some.inj h).symm

theorem releaseBase_pend (e : Env) : (releaseBase e).pend = e.st.pend := by
  unfold releaseBase
  split <;> rfl

/-- A release posts nothing and withdraws nothing. -/
theorem release_pend {e : Env} {sc : Nat} {t : State} (h : release e sc = some t) : t.pend = e.st.pend := by
  obtain ⟨-, rfl⟩ := release_cases h
  split
  · exact (congrArg Front.pend (rdcFlush_front (releaseBase e) e.die)).trans (releaseBase_pend e)
  · exact releaseBase_pend e

theorem release_clean {e : Env} {sc line : Nat} {t : State} (h : release e sc = some t) (hsc : 5 ≤ sc) (hl : line < 2 ^ 64) :
    (rdcGet t e.die line).dirty = 0 := by
  obtain ⟨-, rfl⟩ := release_cases h
  rw [if_pos hsc]
  exact rdcFlush_clean _ _ hl

end Sys2Proof.Machine
end

section
/-! SUPPORT. Prefetches, range instructions and fences (O28). -/

namespace Sys2Proof.Machine

open Claims

/-! ### Prefetches (R112) -/

@[simp] theorem globalCheck_front (s : State) (c : Nat) (b : GBase) (x : Int) (n align : Nat) (a : Acc) :
    (globalCheck s c b x n align a).1.front = s.front := by
  unfold globalCheck
  dsimp only
  repeat' split
  all_goals simp

@[simp] theorem globalPage_front (s : State) (c : Nat) (b : GBase) (x : Int) (n : Nat) (a : Acc) :
    (globalPage s c b x n a).1.front = s.front := by
  unfold globalPage
  dsimp only
  repeat' split
  all_goals simp

@[simp] theorem quietLook_front (e : Env) (b : GBase) (x : Int) (n : Nat) (s : State) :
    (quietLook e b x n s).1.front = s.front := by
  have hc := globalCheck_front s e.team.ctx b x n 1 .read
  unfold quietLook
  generalize globalCheck s e.team.ctx b x n 1 .read = y at hc ⊢
  obtain ⟨t, q⟩ := y
  cases q with
  | some _ => exact hc
  | none =>
    have hp := globalPage_front t e.team.ctx b x n .read
    dsimp only
    generalize globalPage t e.team.ctx b x n .read = z at hp ⊢
    obtain ⟨u, look⟩ := z
    cases look <;> exact hp.trans hc

@[simp] theorem bypassRdc_front (s : State) (d line : Nat) (b : Bool) (ch : Nat) : (bypassRdc s d line b ch).front = s.front :=
  ite_front (rdcDrop_front ..) rfl

@[simp] theorem loadLine_front (s : State) (c loc n : Nat) (b : Bool) (ch : Nat) :
    (loadLine s c loc n b ch).1.front = s.front := by
  have hb := bypassRdc_front s (coreDie c) (loc / 128) b ch
  have hl := (lowerLine_front (bypassRdc s (coreDie c) (loc / 128) b ch) (coreDie c) (loc / 128) b ch).trans hb
  unfold loadLine
  dsimp only
  split
  · split
    · exact (l1Resolve_front ..).trans hb
    · exact ite_front hl hl
  · exact ite_front hl hl

@[simp] theorem setPrio_front (ch : Nat) (lv : Level) (key : Nat) (s : State) : (setPrio ch lv key s).front = s.front := by
  unfold setPrio
  dsimp only
  repeat' split
  all_goals rfl

@[simp] theorem prioLoad_front (s0 : State) (c line ch : Nat) (s : State) : (prioLoad s0 c line ch s).front = s.front := by
  unfold prioLoad
  dsimp only
  repeat' split
  all_goals simp

theorem prefetchLine_front (e : Env) (b : GBase) (ch : Nat) (s : State) (x : Int) :
    (prefetchLine e b ch s x).front = s.front := by
  have h := quietLook_front e b x 128 s
  unfold prefetchLine
  generalize quietLook e b x 128 s = y at h ⊢
  obtain ⟨t, a⟩ := y
  cases a with
  | none => exact h
  | some a =>
    dsimp only
    split
    · exact h
    · simpa using h

/-- A prefetch completes, and changes nothing above memory. -/
theorem pfgBody_done (f : Slk) (e : Env) : ∃ t, pfgBody f e = .done t ∧ t.front = e.st.front :=
  ⟨_, rfl, front_foldl (fun _ _ => front_foldl (fun _ _ => prefetchLine_front ..) _ _) _ _⟩

/-! ### Ranges (R113 to R115) -/

theorem wbrBody_of_ranges {f : Slk} {e : Env} {s : State} {ps : List (Nat × Nat)} (h : laneRanges f e = .ok (s, ps))
    (hp : ∀ p ∈ s.pend, p.owner = e.gid → ∀ st, p.kind ≠ .store st)
    (hd : ∀ l ∈ dirtyIn s e.die ps, lineHeld s (128 * l) 128 = false) : wbrBody f e =
      .done (ps.foldl (fun t x => if isDev x.1 then post e.gid e.team.ctx e.core (.media x.1 x.2) t else t)
        ((dirtyIn s e.die ps).foldl (fun t l => rdcWriteBack t e.die l) s)) := by
  have hheld : ((dirtyIn s e.die ps).any fun l => lineHeld s (128 * l) 128) = false := by simpa using hd
  simp only [wbrBody, h]
  rw [if_neg, if_neg (by rw [hheld]; exact Bool.false_ne_true)]
  intro hstores
  obtain ⟨p, hmem, hq⟩ := List.any_eq_true.mp hstores
  obtain ⟨ho, hk⟩ := Bool.and_eq_true_iff.mp hq
  split at hk
  · next st hst => exact hp p hmem (beq_iff_eq.mp ho) st hst
  · cases hk

/-- L1 lines without those of one core in a range. -/
def dropL1In (s : State) (core : Nat) (ps : List (Nat × Nat)) : Assoc L1Line :=
  s.l1.filter fun x => !(x.1 / 2 ^ 64 == core && inPieces ps (x.1 % 2 ^ 64))
/-- RDC lines without those of one die in a range. -/
def dropRdcIn (s : State) (die : Nat) (ps : List (Nat × Nat)) : Assoc RdcLine :=
  s.rdc.filter fun x => !(x.1 / 2 ^ 64 == die && inPieces ps (x.1 % 2 ^ 64))

theorem get?_dropL1In (s : State) (core : Nat) (ps : List (Nat × Nat)) (c : Nat) {line : Nat} (h : line < 2 ^ 64) :
    Assoc.get? (dropL1In s core ps) (key2 c line) =
      if c = core ∧ inPieces ps line = true then none else l1Get s c line := by
  rw [dropL1In, get?_filter_key2 (fun c line => !(c == core && inPieces ps line)) s.l1 c h]
  by_cases hc : c = core <;> cases hi : inPieces ps line <;> simp [hc, l1Get]

theorem get?_dropRdcIn (s : State) (die : Nat) (ps : List (Nat × Nat)) (d : Nat) {line : Nat} (h : line < 2 ^ 64) :
    Assoc.get? (dropRdcIn s die ps) (key2 d line) =
      if d = die ∧ inPieces ps line = true then none else Assoc.get? s.rdc (key2 d line) := by
  rw [dropRdcIn, get?_filter_key2 (fun d line => !(d == die && inPieces ps line)) s.rdc d h]
  by_cases hd : d = die <;> cases hi : inPieces ps line <;> simp [hd]

theorem invrL1Body_of_ranges {f : Slk} {e : Env} {s : State} {ps : List (Nat × Nat)} (h : laneRanges f e = .ok (s, ps)) :
    invrBody true f e = .done { s with l1 := dropL1In s e.core ps } := by
  simp only [invrBody, h]
  rfl

/-- `invr`: the dirty lines of the range go home, then the range's lines are dropped (R115). -/
theorem invrBody_of_ranges {f : Slk} {e : Env} {s : State} {ps : List (Nat × Nat)} (h : laneRanges f e = .ok (s, ps))
    (hd : ∀ l ∈ dirtyIn s e.die ps, lineHeld s (128 * l) 128 = false) :
    let u := (dirtyIn s e.die ps).foldl (fun t l => rdcWriteBack t e.die l) s
    invrBody false f e = .done { u with l1 := dropL1In s e.core ps, rdc := dropRdcIn u e.die ps } := by
  intro u
  have hheld : ((dirtyIn s e.die ps).any fun l => lineHeld s (128 * l) 128) = false := by simpa using hd
  have hback := foldl_rdcWriteBack_l1 s (dropL1In s e.core ps) e.die (dirtyIn s e.die ps)
  simp only [invrBody, h]
  rw [if_neg (by rw [hheld]; exact Bool.false_ne_true), if_neg Bool.false_ne_true]
  exact congrArg (fun t : State => Res.done { t with rdc := dropRdcIn t e.die ps }) hback

/-! ### Fences (R390 to R392) -/

theorem fenceBody_of_release {ms acq : Bool} {sc : Nat} {e : Env} {s : State} {rel : Bool} (hr : (rel || ms) = true)
    (h : release (committed e) sc = some s) (hm : ms = true → msWaits ((committed e).at s) sc = false) :
    fenceBody rel ms acq sc e = .done (if acq || ms then acquire (committed e).core sc s else s) := by
  have hw : (ms && msWaits ((committed e).at s) sc) = false := by
    cases hms : ms
    · rfl
    · exact hm hms
  unfold committed at h hw ⊢
  simp only [fenceBody, committing, hr, if_true, h, hw, Bool.false_eq_true, if_false]

theorem ifenceBody_eq (f : Slk) (e : Env) : ifenceBody f e =
    .done (modGroup (committed e).gid (fun g => { g with ahead := [] }) (icacheClear (quadOf (committed e).core)
      (acquire (committed e).core (fScope f) (committed e).st))) := rfl

/-- The group after `ifence` has no words fetched ahead, and its quad's instruction cache is empty (R392). -/
theorem ifenceBody_done {s : State} {e : Env} (f : Slk) (he : env? s e.gid = some e) (hst : e.st = s) :
    ∃ t, ifenceBody f e = .done t ∧ (groupOf t e.gid).map (·.ahead) = some [] ∧
      ∀ line < 2 ^ 64, Assoc.get? t.icache (key2 (quadOf e.core) line) = none := by
  obtain ⟨-, hgid, hcst⟩ := committed_spec he hst
  let u := icacheClear (quadOf e.core) (acquire e.core (fScope f) (committed e).st)
  have hteams : u.teams = (commitRegion e.gid s).teams := hcst ▸ acquire_teams ..
  have hg : groupOf u e.gid = some e.grp.closed := (groupOf_of_teams hteams _).trans (commitRegion_group he)
  refine ⟨modGroup e.gid (fun g => { g with ahead := [] }) u, ?_, ?_, fun line hl => ?_⟩
  · rw [ifenceBody_eq, hgid, committed_core he hst]
  · rw [groupOf_modGroup_self (f := fun g : Group => { g with ahead := [] }) (fun _ => rfl) hg]
    rfl
  · exact (get?_filter_key2 (fun q _ => decide (q ≠ quadOf e.core)) _ (quadOf e.core) hl).trans (if_neg (by simp))

/-! ### The statement -/

/-- Settles O28: a prefetch by its front, ranges by `wbrBody_of_ranges` and `invrBody_of_ranges`, fences by
`fenceBody_of_release`, and what a release and an acquire leave by `release_clean` and `valid_acquire`. -/
theorem rangesAndFences : Obligations.RangesAndFences := by
  unfold Obligations.RangesAndFences
  refine ⟨⟨?pfg, ?wbr, ?invrL1, ?invr⟩, ?acq, ?rel, ?ar, ?ms, ?ifence, ?released, ?acquired⟩
  case pfg =>
    intro s e f hx
    obtain ⟨t, ht, hf⟩ := pfgBody_done f e
    rw [st_of_executes hx] at hf
    exact ⟨t, concluded_of_executes (body := pfgBody f) hx ht, sameGroups_of_front hf, congrArg Front.pend hf,
      congrArg Front.pool hf⟩
  case wbr =>
    intro s e f s1 ps hx h hp hd
    exact concluded_of_executes (body := wbrBody f) hx (wbrBody_of_ranges h hp hd)
  case invrL1 =>
    intro s e f s1 ps hx h
    refine ⟨_, concluded_of_executes (body := invrBody true f) hx (invrL1Body_of_ranges h), rfl, fun line hi hl => ?_,
      fun c line hl hc => ?_⟩
    · exact (get?_dropL1In s1 e.core ps e.core hl).trans (if_pos ⟨rfl, hi⟩)
    · exact (get?_dropL1In s1 e.core ps c hl).trans (if_neg fun h => hc.elim (· h.1) (by simp [h.2]))
  case invr =>
    intro s e f s1 ps hx h hd u
    refine ⟨_, concluded_of_executes (body := invrBody false f) hx (invrBody_of_ranges h hd), rfl, fun line hi hl => ⟨?_, ?_⟩,
      fun c line hl hc => ?_, fun d line hl hc => ?_⟩
    · exact (get?_dropL1In s1 e.core ps e.core hl).trans (if_pos ⟨rfl, hi⟩)
    · exact (get?_dropRdcIn u e.die ps e.die hl).trans (if_pos ⟨rfl, hi⟩)
    · exact (get?_dropL1In s1 e.core ps c hl).trans (if_neg fun h => hc.elim (· h.1) (by simp [h.2]))
    · exact (get?_dropRdcIn u e.die ps d hl).trans (if_neg fun h => hc.elim (· h.1) (by simp [h.2]))
  case acq =>
    intro s e f hx
    rw [← committed_core_of_executes hx]
    exact concluded_of_executes (body := fenceBody false false true (fScope f)) hx rfl
  case rel =>
    intro s e f s1 hx h
    exact concluded_of_executes (body := fenceBody true false false (fScope f)) hx (fenceBody_of_release rfl h nofun)
  case ar =>
    intro s e f s1 hx h
    rw [← committed_core_of_executes hx]
    exact concluded_of_executes (body := fenceBody true false true (fScope f)) hx (fenceBody_of_release rfl h nofun)
  case ms =>
    intro s e f s1 hx h hm
    rw [← committed_core_of_executes hx]
    exact concluded_of_executes (body := fenceBody false true false (fScope f)) hx (fenceBody_of_release rfl h fun _ => hm)
  case ifence =>
    intro s e f hx
    obtain ⟨t, ht, h⟩ := ifenceBody_done f (env?_of_executes hx) (st_of_executes hx)
    exact ⟨t, concluded_of_executes (body := ifenceBody f) hx ht, h⟩
  case released =>
    intro e sc t h
    rw [release_pend h]
    exact ⟨(release_cases h).1, fun hsc line hl => release_clean h hsc hl⟩
  case acquired =>
    intro core sc s line hl hs
    exact ⟨l1Get_acquire s hl, valid_acquire hs hl⟩

end Sys2Proof.Machine
end

section
/-! SUPPORT. Local memory (O22, O23): what a pool holds after a write, local addresses that resolve, and the lanes of `ldl`, `stl`
and `atoml`. -/

namespace Sys2Proof.Machine

open Claims

/-! ### Writes of a pool (R116, R121) -/

theorem poolBytes_length (s : State) (k n : Nat) : (poolBytes s k n).length = n := by
  induction n generalizing k with
  | zero => rfl
  | succ n ih => simp [poolBytes, ih]

/-- A byte after bytes are put one after another. -/
theorem rd_foldl_wr_zip (m : Assoc Byte) (k j : Nat) (bs : List Byte) :
    Assoc.rd 0 (((List.range bs.length).zip bs).foldl (fun m (i, b) => Assoc.wr 0 m (k + i) b) m) j =
      if k ≤ j ∧ j < k + bs.length then bs[j - k]?.getD 0 else Assoc.rd 0 m j := by
  induction bs using List.reverseRecOn with
  | nil => rw [if_neg (by simp only [List.length_nil]; omega)]; rfl
  | append_singleton bs b ih =>
    rw [List.length_append, List.length_singleton, List.range_succ, List.zip_append (by simp), List.foldl_append,
      List.zip_cons_cons, List.zip_nil_right, List.foldl_cons, List.foldl_nil, Assoc.rd_wr, ih]
    by_cases hj : j = k + bs.length
    · subst hj
      simp
    · rw [if_neg hj]
      by_cases hin : k ≤ j ∧ j < k + bs.length
      · rw [if_pos hin, if_pos (by omega), List.getElem?_append_left (by omega)]
      · rw [if_neg hin, if_neg (by omega)]

/-- A write to a word without an error puts its bytes, and brings no error. -/
theorem poolWriteWord_of_good {s : State} {k : Nat} (bs : List Byte) (h : Assoc.get? s.poolErr (k / 8) = none) :
    (poolWriteWord s k bs).pool =
        ((List.range bs.length).zip bs).foldl (fun m (i, b) => Assoc.wr 0 m (k + i) b) s.pool ∧
      ∀ w, Assoc.get? s.poolErr w = none → Assoc.get? (poolWriteWord s k bs).poolErr w = none := by
  unfold poolWriteWord
  dsimp only
  split
  · refine ⟨rfl, fun w hw => ?_⟩
    change Assoc.get? (Assoc.del s.poolErr (k / 8)) w = none
    rw [Assoc.get?_del, hw, ite_self]
  · rw [h]
    exact ⟨rfl, fun _ hw => hw⟩

/-- The bytes from `b` on of a write at `a`, put word by word where no word is in error. -/
theorem rd_foldl_poolWriteWord (bs : List Byte) (a f : Nat) : ∀ (b n : Nat) (s : State), n ≤ f → a ≤ b →
    b + n = a + bs.length → (∀ w, b / 8 ≤ w → 8 * w < b + n → Assoc.get? s.poolErr w = none) → ∀ j,
    Assoc.rd 0 (((segsFrom 8 f b n).map fun (c, m) => (c, (bs.drop (c - a)).take m)).foldl
        (fun s (c, d) => poolWriteWord s c d) s).pool j =
      if b ≤ j ∧ j < b + n then bs[j - a]?.getD 0 else Assoc.rd 0 s.pool j := by
  induction f with
  | zero =>
    intro b n s hn _ _ _ j
    rw [if_neg (by omega)]
    rfl
  | succ f ih =>
    intro b n s hn hab hlen hgood j
    rw [segsFrom]
    split
    · rw [if_neg (by omega)]
      rfl
    · next hn0 =>
      dsimp only
      generalize hm : min n (8 - b % 8) = m
      have hmod := Nat.mod_lt b (by omega : 8 > 0)
      have hd : ((bs.drop (b - a)).take m).length = m := by
        rw [List.length_take, List.length_drop]
        omega
      obtain ⟨hpool, herr⟩ := poolWriteWord_of_good ((bs.drop (b - a)).take m) (hgood (b / 8) le_rfl (by omega))
      rw [List.map_cons, List.foldl_cons, ih (b + m) (n - m) _ (by omega) (by omega) (by omega)
        (fun w hlo hhi => herr w (hgood w (by omega) (by omega))), hpool, rd_foldl_wr_zip, hd]
      by_cases hlo : b ≤ j ∧ j < b + m
      · rw [if_neg (by omega), if_pos hlo, if_pos (by omega), List.getElem?_take_of_lt (by omega), List.getElem?_drop,
          show b - a + (j - b) = j - a by omega]
      · rw [if_neg hlo]
        by_cases hhi : b + m ≤ j ∧ j < b + m + (n - m)
        · rw [if_pos hhi, if_pos (by omega)]
        · rw [if_neg hhi, if_neg (by omega)]

/-- The bytes of a pool after a write to words without an error (R121). -/
theorem rd_poolWrite {s : State} {k : Nat} {bs : List Byte}
    (h : ∀ w, k / 8 ≤ w → 8 * w < k + bs.length → Assoc.get? s.poolErr w = none) (j : Nat) :
    Assoc.rd 0 (poolWrite s k bs).pool j =
      if k ≤ j ∧ j < k + bs.length then bs[j - k]?.getD 0 else Assoc.rd 0 s.pool j := by
  rw [poolWrite, foldl_fire_pool (fun x : Nat × Nat => x.1 / 64)]
  exact rd_foldl_poolWriteWord bs k bs.length k bs.length s le_rfl le_rfl rfl h j

/-- A pool reads what was written last (R116, R121). -/
theorem poolBytes_poolWrite {s : State} {k : Nat} {bs : List Byte}
    (h : ∀ w, k / 8 ≤ w → 8 * w < k + bs.length → Assoc.get? s.poolErr w = none) :
    poolBytes (poolWrite s k bs) k bs.length = bs := by
  refine List.ext_getElem? fun i => ?_
  by_cases hi : i < bs.length
  · rw [poolBytes_getElem? _ _ _ _ hi, rd_poolWrite h, if_pos (by omega), Nat.add_sub_cancel_left,
      List.getElem?_eq_getElem hi, Option.getD_some]
  · rw [List.getElem?_eq_none (by rw [poolBytes_length]; omega), List.getElem?_eq_none (by omega)]

/-! ### Local addresses (R118, R123, R124) -/

/-- What a local address that resolves has passed: the checks of its window and its alignment, and where it lies. -/
theorem localLook_ok {s : State} {t : Team} {a size align k core : Nat} (h : localLook s t a size align = .ok (k, core)) :
    ∃ u, clusterTeam s t core = some u ∧ k = windowKey s u (field a 30 2 == 1) + a % 2 ^ 21 ∧
      a % 2 ^ 21 + size ≤ t.window (field a 30 2 == 1) ∧ a % 2 ^ 21 % align = 0 := by
  unfold localLook at h
  dsimp only at h
  split at h
  · cases h
  split at h
  · cases h
  split at h
  · cases h
  split at h
  · cases h
  next hwin =>
  split at h
  · cases h
  next halign =>
  split at h
  · cases h
  next u hu =>
  cases h
  exact ⟨u, hu, rfl, Nat.not_lt.mp hwin, not_not.mp halign⟩

/-- Settles O22: an address that resolves by `localLook_ok`, a pool by `poolBytes_poolWrite` and `poolWrite_other`. -/
theorem localWindows : Obligations.LocalWindows := by
  unfold Obligations.LocalWindows
  refine ⟨fun s t a size align k core h => ?_, fun s k bs h => poolBytes_poolWrite h,
    fun s k bs a h => poolWrite_other s k a bs (by omega)⟩
  obtain ⟨u, hu, hk, hwin, halign⟩ := localLook_ok h
  have hf : field a 30 2 = a / 2 ^ 30 % 4 := congrArg (· % 4) (Nat.shiftRight_eq_div_pow a 30)
  rw [hf] at hk hwin
  exact ⟨u, _, hu, rfl, by omega, by omega, halign, hk⟩

end Sys2Proof.Machine
end

section
/-! SUPPORT. `ldl`, `stl` and `atoml` (O23): what a release leaves of the view, and the lanes once they are resolved. -/

namespace Sys2Proof.Machine

open Claims

/-! ### The view after a release (R382) -/

/-- A team without its groups. -/
def Team.bare (t : Team) : Team := { t with groups := [] }

theorem team?_bare (s : State) (u : Nat) :
    (s.teams.map Team.bare).find? (fun t => t.uid == u) = (s.team? u).map Team.bare := by
  rw [List.find?_map]; rfl

/-- States with the same front have the same teams, but for the groups. -/
theorem bare_of_front {s t : State} (h : t.front = s.front) : t.teams.map Team.bare = s.teams.map Team.bare := by
  have hq : t.teams.map Team.quiet = s.teams.map Team.quiet := congrArg Front.teams h
  have hb := congrArg (List.map Team.bare) hq
  rwa [List.map_map, List.map_map] at hb

/-- The view of a later state with the same teams is of the same team, but for the groups. -/
theorem at_bare {e : Env} {t : State} (he : env? e.st e.gid = some e)
    (h : (t.team? e.gid.team).map Team.bare = (e.st.team? e.gid.team).map Team.bare) :
    (e.at t).gid = e.gid ∧ (e.at t).team.bare = e.team.bare := by
  unfold Env.at
  cases hx : env? t e.gid with
  | none => exact ⟨rfl, rfl⟩
  | some x =>
    obtain ⟨hteam, -, -, hgid⟩ := env?_eq hx
    rw [hteam, (env?_eq he).1] at h
    exact ⟨hgid, Option.some.inj h⟩

/-- A release leaves every team as it was, but for the groups. -/
theorem release_bare {e : Env} {sc : Nat} {t : State} (h : release e sc = some t) (u : Nat) :
    (t.team? u).map Team.bare = (e.st.team? u).map Team.bare := by
  obtain ⟨-, rfl⟩ := release_cases h
  have hmark : ((releaseBase e).team? u).map Team.bare = (e.st.team? u).map Team.bare := by
    unfold releaseBase
    split
    · rfl
    · exact bare_modGroup ..
  split
  · rw [← team?_bare, bare_of_front (rdcFlush_front ..), team?_bare, hmark]
  · exact hmark

/-- The view after a release is of the same group of the same team. -/
theorem released_bare {e e' : Env} {ord sc : Nat} (he : env? e.st e.gid = some e) (h : released e ord sc = some e') :
    e'.gid = e.gid ∧ e'.team.bare = e.team.bare := by
  unfold released at h
  split at h
  · obtain ⟨t, ht, rfl⟩ := Option.map_eq_some_iff.mp h
    exact at_bare he (release_bare ht _)
  · cases h
    exact ⟨rfl, rfl⟩

/-- Where the release is done, a body that waits for nothing runs in the view after it (R382). -/
theorem releasing_of_released_of_not_wait {ord sc : Nat} {body : Env → Res} {e e' : Env} (h : released e ord sc = some e')
    (hw : ∀ t w, body e' ≠ .wait t w) : releasing ord sc body e = body e' := by
  unfold released at h
  unfold releasing
  split at h
  · next ho =>
    obtain ⟨t, ht, rfl⟩ := Option.map_eq_some_iff.mp h
    rw [if_pos ho, ht]
    exact pastRelease_of_not_wait hw
  · next ho =>
    cases h
    rw [if_neg ho]

/-- Without an ORD that asks for it nothing is released. -/
theorem released_of_plain {e e' : Env} {ord sc : Nat} (h2 : ord ≠ 2) (h3 : ord ≠ 3) (h : released e ord sc = some e') :
    e' = e := by
  unfold released at h
  rw [if_neg (by omega)] at h
  exact (Option.some.inj h).symm

/-! ### The lanes of a local access (R124, R131 to R138) -/

/-- A lane whose address fails traps (R124). -/
theorem resolveLocal_error_trap {e : Env} {addr : Nat → Nat} {n a acc : Nat} {ls : List Nat} {r : Res}
    (h : resolveLocal e addr n a acc ls = .error r) : ∃ t x, r = .trap t x := by
  induction ls with
  | nil => cases h
  | cons l ls ih =>
    unfold resolveLocal at h
    split at h
    · cases h
      exact ⟨_, _, rfl⟩
    · split at h
      · next r' hr =>
        cases h
        exact ih hr
      · cases h

theorem trap_ne_done (s : State) (x : Trap) (t : State) : Res.trap s x ≠ .done t := nofun

theorem trap_ne_wait (s : State) (x : Trap) (t : State) (w : Wait) : Res.trap s x ≠ .wait t w := nofun

theorem done_ne_wait (s t : State) (w : Wait) : Res.done s ≠ .wait t w := nofun

theorem any_eq_false_of_forall {α : Type} {p : α → Bool} {l : List α} (h : ∀ x ∈ l, p x = false) : l.any p = false :=
  List.any_eq_false.mpr fun x hx => by simp [h x hx]

section
variable {f : Slk} {e : Env} {r : Res} {xs : List (Nat × Nat × Nat × Nat)}

theorem ldlBody_of_error
    (h : resolveLocal e (e.localAddr f (fDisp10 f * szBytes f)) (szBytes f) (szBytes f) 0 (e.memLanes f) = .error r) :
    ldlBody f e = r := by
  simp only [ldlBody, h]

/-- Reads of a pool's words change no byte of it (R121). -/
theorem poolTouch_pool (s : State) (n : Nat) (xs : List (Nat × Nat × Nat × Nat)) : (poolTouch s n xs).pool = s.pool :=
  List.foldlRecOn (motive := fun t : State => t.pool = s.pool) _ _ rfl fun t ht _ _ => (poolRead_pool t _ _).trans ht

/-- The bytes of a pool depend on nothing else. -/
theorem poolBytes_of_pool {s t : State} (h : t.pool = s.pool) (k n : Nat) : poolBytes t k n = poolBytes s k n := by
  induction n generalizing k with
  | zero => rfl
  | succ n ih => simp only [poolBytes, h, ih]

/-- A load of words without an error posts what its lanes read (R131). -/
theorem ldlBody_of_ok
    (h : resolveLocal e (e.localAddr f (fDisp10 f * szBytes f)) (szBytes f) (szBytes f) 0 (e.memLanes f) = .ok xs)
    (hb : ∀ x ∈ xs, localBlocked e x.2.2.1 (szBytes f) = false) (hbad : laneBad e.st (szBytes f) xs = none) :
    ldlBody f e = .done (writeLong e false (xs.flatMap fun x => dstWrites f.d (szRegs (fSz f)) x.1
      (loadExt f (poolNat e.st x.2.2.1 (szBytes f)))) (poolTouch e.st (szBytes f) xs)) := by
  have hpool (k n : Nat) : poolNat (poolTouch e.st (szBytes f) xs) k n = poolNat e.st k n := by
    rw [poolNat, poolNat, poolBytes_of_pool (poolTouch_pool ..)]
  have hany := any_eq_false_of_forall hb
  simp only [ldlBody, h, hbad, hpool, hany, Bool.false_eq_true, if_false]

theorem stlBody_of_error
    (h : resolveLocal e (e.localAddr f (fDisp10 f * szBytes f)) (szBytes f) (szBytes f) 1 (e.memLanes f) = .error r) :
    stlBody f e = r := by
  simp only [stlBody, h]

theorem toBytes_length (n x : Nat) : (toBytes n x).length = n := by
  induction n generalizing x with
  | zero => rfl
  | succ n ih => rw [toBytes, List.length_cons, ih]

/-- A store that no list operation holds back writes its lanes one after another (R133, R135). -/
theorem stlBody_of_ok
    (h : resolveLocal e (e.localAddr f (fDisp10 f * szBytes f)) (szBytes f) (szBytes f) 1 (e.memLanes f) = .ok xs)
    (hb : ∀ x ∈ xs, localHeld e x.2.2.1 (szBytes f) = false) :
    stlBody f e = .done (xs.foldl (fun s x => storeLocal e s x.2.2.1 x.2.2.2 (e.storeBytes f x.1)) e.st) := by
  have hany := any_eq_false_of_forall hb
  simp only [stlBody, h, hany, Bool.false_eq_true, if_false]

/-- A store waits for a `gath.list` of its group that is still to write one of its bytes (R135). -/
theorem stlBody_of_held
    (h : resolveLocal e (e.localAddr f (fDisp10 f * szBytes f)) (szBytes f) (szBytes f) 1 (e.memLanes f) = .ok xs)
    (hb : ∃ x ∈ xs, localHeld e x.2.2.1 (szBytes f) = true) : stlBody f e = .wait e.st .retry := by
  have hany : (xs.any fun x => localHeld e x.2.2.1 (szBytes f)) = true := List.any_eq_true.mpr hb
  simp only [stlBody, h, hany, if_true]

/-- An atomic gives each lane what it found, its words being without an error (R137, R138). -/
theorem atomlBody_of_ok
    (h : resolveLocal e (e.localAddr f (fDisp6 f * szBytes f)) (szBytes f) (szBytes f) 2 (e.memLanes f) = .ok xs)
    (hb : ∀ x ∈ xs, localBlocked e x.2.2.1 (szBytes f) = false ∧ localHeld e x.2.2.1 (szBytes f) = false)
    (hbad : laneBad e.st (szBytes f) xs = none) :
    atomlBody f e = .done (writeLong e false (atomlLanes f e (poolTouch e.st (szBytes f) xs) xs).2
      (atomlLanes f e (poolTouch e.st (szBytes f) xs) xs).1) := by
  have hany : (xs.any fun x => localBlocked e x.2.2.1 (szBytes f) || localHeld e x.2.2.1 (szBytes f)) = false :=
    any_eq_false_of_forall fun x hx => Bool.or_eq_false_iff.mpr (hb x hx)
  simp only [atomlBody, h, hbad, hany, Bool.false_eq_true, if_false]

end

/-! ### The rings of a team (R158) -/

/-- The states are the same but for what Agate knows of the rings. -/
def SameButRings (s t : State) : Prop := ∃ r, t = { s with rings := r }

/-- What each step of a fold keeps, the fold keeps. The step is given by an equation: where two states are compared field by
field, the kernel evaluates the conditions in them. -/
theorem foldl_keeps {α : Type} {P : State → Prop} {f : State → α → State} (hf : ∀ s t x, P s → t = f s x → P t)
    (l : List α) {s : State} (h : P s) : P (l.foldl f s) := by
  induction l generalizing s with
  | nil => exact h
  | cons x l ih => exact ih (hf s _ x h rfl)

theorem ringKick_sameButRings (e : Env) (k n : Nat) (s : State) : SameButRings s (ringKick e k n s) := by
  rw [ringKick.eq_1]
  refine foldl_keeps (P := SameButRings s) (fun t u i ht hu => ?_) _ ⟨s.rings, rfl⟩
  dsimp only at hu
  obtain ⟨r, rfl⟩ := ht
  split at hu <;> exact ⟨_, hu⟩

/-- A kick changes no byte of a pool. -/
theorem ringKick_pool (e : Env) (k n : Nat) (s : State) : (ringKick e k n s).pool = s.pool := by
  obtain ⟨r, h⟩ := ringKick_sameButRings e k n s
  rw [h]

/-- A lane of an `atoml` leaves the operation's result (R137, R138). -/
theorem poolBytes_ringKick_poolWrite {s : State} (e : Env) (k n x : Nat) (h : s.poolErr = []) :
    poolBytes (ringKick e k n (poolWrite s k (toBytes n x))) k n = toBytes n x := by
  rw [poolBytes_of_pool (ringKick_pool ..)]
  have hw := poolBytes_poolWrite (s := s) (k := k) (bs := toBytes n x) fun w _ _ => by rw [h, Assoc.get?_nil]
  rwa [toBytes_length] at hw

/-- One lane's store in the view after a release, told by the view before it: both are of one team (R135). -/
theorem storeLocal_of_bare {e e' : Env} (hgid : e'.gid = e.gid) (hteam : e'.team.bare = e.team.bare) (s : State) (k core : Nat)
    (bs : List Byte) : storeLocal e' s k core bs =
      if core = e.core then ringKick e' k bs.length (poolWrite s k bs)
      else post e.gid e.team.ctx e.core (.rstl k bs) s := by
  have hcore : e'.core = e.core := show e'.team.bare.core = e.team.bare.core from congrArg Team.core hteam
  have hctx : e'.team.ctx = e.team.ctx := show e'.team.bare.ctx = e.team.bare.ctx from congrArg Team.ctx hteam
  rw [storeLocal, hcore, hctx, hgid]

/-- Settles O23: each instruction by its body once its lanes are resolved, under its acquire and its release. -/
theorem localAccesses : Obligations.LocalAccesses := by
  unfold Obligations.LocalAccesses
  refine ⟨⟨?ldl, ?stl, ?atoml⟩, fun f e s l a k c xs h => ⟨poolBytes_ringKick_poolWrite e k _ _ h, rfl, rfl⟩⟩
  case ldl =>
    intro s e f hx n look
    refine ⟨fun r hr => ?_, fun xs hxs hb hbad => ?_⟩
    · obtain ⟨t, x, rfl⟩ := resolveLocal_error_trap hr
      refine concluded_of_executes hx ?_
      have hbody := ldlBody_of_error hr
      rw [acquiring_of_not_done (by rw [hbody]; exact trap_ne_done t x), hbody]
    · obtain rfl := st_of_executes hx
      exact concluded_of_executes hx (acquiring_of_done (ldlBody_of_ok hxs hb hbad))
  case stl =>
    intro s e f e' hx hrel n look
    obtain rfl := st_of_executes hx
    obtain ⟨hgid, hteam⟩ := released_bare (env?_of_executes hx) hrel
    refine ⟨fun r hr => ?_, fun xs hxs => ⟨fun hb => ?_, fun hb h2 h3 => ?_⟩⟩
    · obtain ⟨t, x, rfl⟩ := resolveLocal_error_trap hr
      refine concluded_of_executes hx ?_
      have hbody := stlBody_of_error hr
      rw [releasing_of_released_of_not_wait hrel (by rw [hbody]; exact trap_ne_wait t x), hbody]
    · refine concluded_of_executes hx ?_
      have hbody := stlBody_of_ok hxs hb
      rw [releasing_of_released_of_not_wait hrel (by rw [hbody]; exact done_ne_wait _), hbody]
      simp only [storeLocal_of_bare hgid hteam, Env.storeBytes, toBytes_length]
      rfl
    · obtain rfl := released_of_plain h2 h3 hrel
      refine concluded_of_executes hx ?_
      rw [releasing, if_neg (by omega)]
      exact stlBody_of_held hxs hb
  case atoml =>
    intro s e f e' hx hrel n xs hxs hb hbad
    refine concluded_of_executes hx ?_
    have hbody := acquiring_of_done (ord := fOrd f) (sc := fScope f) (atomlBody_of_ok hxs hb hbad)
    exact (releasing_of_released_of_not_wait (e := committed e) hrel (by rw [hbody]; exact done_ne_wait _)).trans hbody

end Sys2Proof.Machine
end

section
/-! SUPPORT. `bset` and accesses under a region id (O24): the record a `bset` leaves, and what a translated access has passed. -/

namespace Sys2Proof.Machine

open Claims

/-! ### `bset` (R126, R127) -/

/-- The pointer that a `bset` puts into its register. -/
def bsetPtr (f : Slk) (e : Env) : Nat := ofSigned 64 ((e.wide 0 f.s1 2 : Nat) + e.offset 0 f.s2 + fDisp10 f)

/-- The group's base register D holds a record. -/
def putBase (f : Slk) (e : Env) (b : BaseRec) (s : State) : State :=
  modGroup e.gid (fun g => { g with b := Assoc.wr .empty g.b (opNum f.d) b }) s

theorem not_and_of_imp_false {p : Prop} {b : Bool} (h : p → b = false) : ¬ (p ∧ b = true) :=
  fun hc => Bool.false_ne_true ((h hc.1).symm.trans hc.2)

section
variable {f : Slk} {e : Env} {ptr bound : Nat} {s t : State} (hptr : bsetPtr f e = ptr)
  (hheld : ptr / 2 ^ 57 ≠ 0 → boundsHeld e.st e.team.ctx (ptr / 2 ^ 57) = false)
  (hbound : baseBound e.st e.team.ctx (ptr / 2 ^ 57) (ptr % 2 ^ 57) = (s, bound))
include hptr hheld hbound

/-- A page that cannot be read gives a run of 0 (R127). -/
theorem bsetBody_of_unreadable (hpage : basePage s e.team.ctx (ptr / 2 ^ 57) (ptr % 2 ^ 57) = (t, some none)) :
    bsetBody f e = .done (putBase f e ⟨true, BitVec.ofNat 64 ptr, 0, 0, BitVec.ofNat 58 bound, 0, false, 0, 0⟩ t) := by
  unfold bsetBody
  rw [← bsetPtr, hptr]
  extract_lets ptr c rid va put
  rw [if_neg (not_and_of_imp_false hheld)]
  split
  next s' bound' hb =>
  cases hb.symm.trans hbound
  extract_lets none_
  split
  · next hp => cases hp.symm.trans hpage
  · next hp => cases hp.symm.trans hpage; rfl
  · next hp => cases hp.symm.trans hpage

/-- A page that can be read gives the run of contiguous pages from it on (R127). -/
theorem bsetBody_of_readable {a p l run : Nat} {u : State} {dw : Bool}
    (hpage : basePage s e.team.ctx (ptr / 2 ^ 57) (ptr % 2 ^ 57) = (t, some (some (a, p, l))))
    (hrun : runFrom e.team.ctx (ptr / 2 ^ 57) (ptr % 2 ^ 57) (pageAttrs p l (ptr % 2 ^ 57)).1 (pageAttrs p l (ptr % 2 ^ 57)).2.1
      (pageAttrs p l (ptr % 2 ^ 57)).2.2.1 (min (2 ^ 21) (min bound (2 ^ 57 - ptr % 2 ^ 57))) 514 t 0 true =
        (u, some (run, dw))) :
    bsetBody f e = .done (putBase f e ⟨true, BitVec.ofNat 64 ptr, BitVec.ofNat 48 (pageAttrs p l (ptr % 2 ^ 57)).1,
      BitVec.ofNat 22 run, BitVec.ofNat 58 bound, BitVec.ofNat 3 (pageAttrs p l (ptr % 2 ^ 57)).2.1, dw,
      BitVec.ofNat 8 (nodeOf (pageAttrs p l (ptr % 2 ^ 57)).1), BitVec.ofNat 2 (pageAttrs p l (ptr % 2 ^ 57)).2.2.1⟩ u) := by
  unfold bsetBody
  rw [← bsetPtr, hptr]
  extract_lets ptr c rid va put
  rw [if_neg (not_and_of_imp_false hheld)]
  split
  next s' bound' hb =>
  cases hb.symm.trans hbound
  extract_lets none_
  split
  · next hp => cases hp.symm.trans hpage
  · next hp => cases hp.symm.trans hpage
  · next hp =>
    cases hp.symm.trans hpage
    split
    next loc perm ca d hx =>
    rw [hx] at hrun ⊢
    split
    · next hr => cases hr.symm.trans hrun
    · next hr => cases hr.symm.trans hrun; rfl

end

/-! ### Accesses under a region id (R393, R394) -/

/-- The region's entry is valid, grants the access, and its bounds hold all of it. -/
structure InBounds (entry va size : Nat) (a : Acc) : Prop where
  valid : boundsValid entry = true
  base : field entry 0 57 ≤ va
  fin : va + size ≤ field entry 0 57 + field entry 64 57
  grants : allowed a (bitAt entry 121) (bitAt entry 122) (bitAt entry 123) = true

/-- What passes the rows of R393 under a region id is in bounds. -/
theorem inBounds_of_regionCheck {s t : State} {c rid va size : Nat} {a : Acc} (hrid : rid ≠ 0)
    (h : regionCheck s c rid va size a = (t, none)) : InBounds (boundsEntry s c rid).2 va size a := by
  unfold regionCheck at h
  rw [if_neg hrid] at h
  split at h
  · cases h
  · split at h
    next s1 entry he =>
    rw [he]
    split at h
    · cases h
    next hvalid =>
    split at h
    · cases h
    next hrange =>
    split at h
    · cases h
    next hgrants =>
    simp only [Bool.or_eq_true, decide_eq_true_eq, not_or, Nat.not_lt] at hrange
    exact ⟨by simpa using hvalid, hrange.1, hrange.2, by simpa using hgrants⟩

/-- A row of R393 that fails gives no location. -/
theorem regionCheck_ne_ok {s t : State} {c rid va size loc ca : Nat} {a : Acc} :
    regionCheck s c rid va size a ≠ (t, some (.ok loc ca)) := by
  unfold regionCheck
  repeat' split
  all_goals nofun

/-- An access that translates has passed the checks of its region (R393). -/
theorem regionCheck_of_translate {s t : State} {c rid va size loc ca : Nat} {a : Acc}
    (h : translate s c rid va size a = (t, .ok loc ca)) : ∃ u, regionCheck s c rid va size a = (u, none) := by
  unfold translate at h
  split at h
  next u r hr =>
  split at h
  · cases h
    exact absurd hr regionCheck_ne_ok
  · exact ⟨u, hr⟩

theorem allowed_of_reads {a : Acc} {r w x : Bool} (h : allowed a r w x = true) (ha : a.reads = true) : r = true := by
  cases a with
  | read => exact h
  | rmw => exact (Bool.and_eq_true_iff.mp h).1
  | write => cases ha
  | fetch => cases ha

theorem allowed_of_writes {a : Acc} {r w x : Bool} (h : allowed a r w x = true) (ha : a.writes = true) : w = true := by
  cases a with
  | write => exact h
  | rmw => exact (Bool.and_eq_true_iff.mp h).2
  | read => cases ha
  | fetch => cases ha

theorem bitAt_of_boundsValid {x : Nat} (h : boundsValid x = true) : bitAt x 124 = true := by
  simp only [boundsValid, Bool.and_eq_true] at h
  exact h.1.1

/-- Settles O24: `bset` by whether its page can be read, an access by the rows of R393 that it has passed. -/
theorem baseRegistersAndBounds : Obligations.BaseRegistersAndBounds := by
  unfold Obligations.BaseRegistersAndBounds
  refine ⟨?bset, fun s c rid va size a t loc ca hrid h => ?_⟩
  case bset =>
    intro s e f hx ptr c va bound hheld put
    obtain rfl := st_of_executes hx
    refine ⟨fun t hpage => ?_, fun t a p l t' run dw hpage hrun => ?_⟩
    · exact concluded_of_executes hx (bsetBody_of_unreadable rfl hheld (Prod.eta bound).symm hpage)
    · exact concluded_of_executes hx (bsetBody_of_readable rfl hheld (Prod.eta bound).symm hpage hrun)
  · obtain ⟨u, hu⟩ := regionCheck_of_translate h
    obtain ⟨hvalid, hbase, hfin, hgrants⟩ := inBounds_of_regionCheck hrid hu
    refine ⟨_, rfl, bitAt_of_boundsValid hvalid, ?_, ?_, allowed_of_reads hgrants, allowed_of_writes hgrants, ?_⟩
    · rwa [field, Nat.shiftRight_zero] at hbase
    · rwa [field, field, Nat.shiftRight_zero, Nat.shiftRight_eq_div_pow] at hfin
    · rintro rfl
      exact hgrants

end Sys2Proof.Machine
end

section
/-! SUPPORT. Management register space (O57): where a write goes and what it leaves, GO, and the performance monitors. -/

namespace Sys2Proof.Machine

/-! ### Writes by size and block (R439) -/

/-- An access of another size or alignment than 4 or 8 bytes does nothing but log (R439, R447). -/
theorem mgmtWrite_of_unsized {loc n : Nat} (v : Nat) (s : State) (h : ¬ ((n = 4 ∨ n = 8) ∧ loc % 2 ^ 32 % n = 0)) :
    mgmtWrite loc n v s = logEvent s 0x0D 0 (loc % 2 ^ 32) := by
  have hs : mgmtSized (loc % 2 ^ 32) n = false := by
    rw [Bool.eq_false_iff]
    simpa [mgmtSized] using h
  rw [mgmtWrite, hs]
  rfl

/-- A write of 8 bytes. -/
theorem mgmtWrite_eight {loc : Nat} (v : Nat) (s : State) (hl : loc < 2 ^ 32) (ha : loc % 8 = 0) :
    mgmtWrite loc 8 v s = mgmtPut loc (some (v % 2 ^ 32)) (some (v / 2 ^ 32 % 2 ^ 32)) s := by
  have hs : mgmtSized loc 8 = true := by simp [mgmtSized, ha]
  rw [mgmtWrite, Nat.mod_eq_of_lt hl, hs]
  rfl

/-- A write of 4 bytes to the low half of a register. -/
theorem mgmtWrite_low {loc : Nat} (v : Nat) (s : State) (hl : loc < 2 ^ 32) (ha : loc % 8 = 0) :
    mgmtWrite loc 4 v s = mgmtPut loc (some (v % 2 ^ 32)) none s := by
  have hs : mgmtSized loc 4 = true := by simp [mgmtSized]; omega
  rw [mgmtWrite, Nat.mod_eq_of_lt hl, hs]
  simp only [Bool.not_true, Bool.false_eq_true, if_false, ha]
  rfl

/-- A write of 4 bytes to the high half of a register. -/
theorem mgmtWrite_high {loc : Nat} (v : Nat) (s : State) (hl : loc < 2 ^ 32) (ha : loc % 8 = 4) :
    mgmtWrite loc 4 v s = mgmtPut (loc - 4) none (some (v % 2 ^ 32)) s := by
  have hs : mgmtSized loc 4 = true := by simp [mgmtSized]; omega
  rw [mgmtWrite, Nat.mod_eq_of_lt hl, hs]
  simp only [Bool.not_true, Bool.false_eq_true, if_false, ha, if_true]
  rfl

/-- Where a context block lies (R441). -/
theorem mgmtPut_ctx {c o : Nat} (lo hi : Option Nat) (s : State) (hc : c < 240) (ho : o < 2 ^ 20) :
    mgmtPut (0x2000_0000 + c * 2 ^ 20 + o) lo hi s = ctxPut c o lo hi s := by
  rw [mgmtPut, if_neg (by omega), if_neg (by omega), if_neg (by omega), if_pos (by omega),
    show (0x2000_0000 + c * 2 ^ 20 + o - 0x2000_0000) / 2 ^ 20 = c by omega,
    show (0x2000_0000 + c * 2 ^ 20 + o) % 2 ^ 20 = o by omega]

theorem mgmtWord_ctx {c o : Nat} (s : State) (hc : c < 240) (ho : o < 2 ^ 20) :
    mgmtWord s (0x2000_0000 + c * 2 ^ 20 + o) = (s, ctxWord s c o) := by
  rw [mgmtWord, if_neg (by omega), if_neg (by omega), if_neg (by omega), if_pos (by omega),
    show (0x2000_0000 + c * 2 ^ 20 + o - 0x2000_0000) / 2 ^ 20 = c by omega,
    show (0x2000_0000 + c * 2 ^ 20 + o) % 2 ^ 20 = o by omega]

/-- A core block outside its slot table is read-only (R117, R362). -/
theorem mgmtPut_core {loc d core o : Nat} (lo hi : Option Nat) (s : State) (hd : d < 4) (hcore : core < 192)
    (ho : o < 0x800 ∨ (0x1000 ≤ o ∧ o < 0x10000)) (hl : loc = 0x1000_0000 + d * 2 ^ 24 + core * 2 ^ 16 + o) :
    mgmtPut loc lo hi s = s := by
  rw [mgmtPut, if_neg (by omega), if_neg (by omega), if_pos (by omega), corePut, if_neg (by omega)]

/-- Both halves of a register are written. -/
theorem putHalves_both (x v : DWord) : putHalves x (some (v.toNat % 2 ^ 32)) (some (v.toNat / 2 ^ 32 % 2 ^ 32)) = v := by
  apply BitVec.eq_of_toNat_eq
  have := v.isLt
  rw [putHalves, BitVec.toNat_ofNat, withHalves, Option.getD_some, Option.getD_some]
  omega

/-- The low half of a register is written. -/
theorem toNat_putHalves_low (x : DWord) (v : Nat) :
    (putHalves x (some (v % 2 ^ 32)) none).toNat = x.toNat / 2 ^ 32 * 2 ^ 32 + v % 2 ^ 32 := by
  have := x.isLt
  rw [putHalves, BitVec.toNat_ofNat, withHalves, Option.getD_some, Option.getD_none]
  omega

theorem halves_join (v : DWord) : halfOf v false + halfOf v true * 2 ^ 32 = v.toNat := by
  have := v.isLt
  simp only [halfOf, Bool.false_eq_true, if_false, if_true]
  omega

theorem ctxPut_ptRoot (c : Nat) (lo hi : Option Nat) (s : State) :
    ctxPut c 0x428 lo hi s = s.setCtx c { s.ctx c with ptRoot := putHalves (s.ctx c).ptRoot lo hi } := rfl

theorem ctxPut_btBase (c : Nat) (lo hi : Option Nat) (s : State) :
    ctxPut c 0x420 lo hi s = s.setCtx c { s.ctx c with btBase := putHalves (s.ctx c).btBase lo hi } := rfl

/-- A read of 8 bytes, of words whose reads change nothing. -/
theorem mgmtRead_eight {s : State} {loc lo hi : Nat} (hl : loc < 2 ^ 32) (ha : loc % 8 = 0)
    (hlo : mgmtWord s loc = (s, lo)) (hhi : mgmtWord s (loc + 4) = (s, hi)) :
    mgmtRead s loc 8 = (s, lo + hi * 2 ^ 32) := by
  have hs : mgmtSized loc 8 = true := by simp [mgmtSized, ha]
  rw [mgmtRead, Nat.mod_eq_of_lt hl, hs, Bool.not_true, if_neg Bool.false_ne_true, if_neg (by decide), hlo]
  dsimp only
  rw [hhi]

/-- PTROOT is read as its two halves. -/
theorem mgmtRead_ptRoot {c : Nat} (s : State) (hc : c < 240) :
    mgmtRead s (0x2000_0000 + c * 2 ^ 20 + 0x428) 8 = (s, (s.ctx c).ptRoot.toNat) := by
  rw [← halves_join (s.ctx c).ptRoot]
  exact mgmtRead_eight (by omega) (by omega) (mgmtWord_ctx s hc (by omega)) (mgmtWord_ctx (o := 0x42C) s hc (by omega))

/-! ### GO (R446) -/

/-- Every line of the L2 slices is cleaned: early memory goes to HBM. -/
def cleanAll (s : State) : State := (s.l2.map (·.1)).foldl l2Clean s

/-- Every die is at its first clock (R446, R449). -/
def startClocks (s : State) : State :=
  (List.range 4).foldl (fun s d => s.setDie d { s.die d with clock := if (s.die d).hot then 550 else 1100 }) s

theorem goStep_of_ready {s : State} (hp : s.phase = .ready) (ht : s.teams = []) (hg : s.grids = []) :
    goStep s = logEvent { startClocks (cleanAll s) with phase := .run } 0x0C 0 2 := by
  have hn : noneResident s = true := by simp [noneResident, ht, hg]
  rw [goStep, if_pos ⟨hp, hn⟩, startClocks, cleanAll, List.foldl_map]

theorem goStep_of_not_ready {s : State} (h : s.phase ≠ .ready ∨ s.teams ≠ [] ∨ s.grids ≠ []) :
    goStep s = logEvent s 0x0D 0 0x08 := by
  refine if_neg fun ⟨hp, hn⟩ => ?_
  simp only [noneResident, Bool.and_eq_true, List.isEmpty_iff] at hn
  exact h.elim (· hp) fun h => h.elim (· hn.1) (· hn.2)

theorem l2Clean_dies (s : State) (n : Nat) : (l2Clean s n).dies = s.dies :=
  (l2CleanSec_dies ..).trans (l2CleanSec_dies ..)

theorem cleanAll_die (s : State) (d : Nat) : (cleanAll s).die d = s.die d := by
  have h : (cleanAll s).dies = s.dies :=
    List.foldlRecOn (motive := fun t : State => t.dies = s.dies) _ _ rfl fun t ht n _ => (l2Clean_dies t n).trans ht
  simp only [State.die, h]

theorem startClocks_clock {s : State} {d : Nat} (hd : d < 4) :
    ((startClocks s).die d).clock = if (s.die d).hot then 550 else 1100 := by
  have h := die_foldl_setDie (fun x => { x with clock := if x.hot then 550 else 1100 }) (List.nodup_range (n := 4)) s d
  rw [if_pos (List.mem_range.mpr hd)] at h
  exact congrArg Die.clock h

theorem startClocks_l2 (s : State) : (startClocks s).l2 = s.l2 :=
  foldl_setDie_keeps State.l2 (fun _ _ _ => rfl) (fun x => { x with clock := if x.hot then 550 else 1100 }) _ s

/-- A change of the phase and its event leave the dies. -/
theorem die_logEvent_phase (s : State) (p : Phase) (c d x n : Nat) :
    (logEvent { s with phase := p } c d x).die n = s.die n := rfl

/-- A change of the phase and its event leave the L2 slices. -/
theorem l2_logEvent_phase (s : State) (p : Phase) (c d x : Nat) : (logEvent { s with phase := p } c d x).l2 = s.l2 := rfl

/-- A line that the L2 slices held is clean. -/
theorem cleanAll_dirty {s : State} {k : Nat} {l : L2Line} (h : Assoc.get? (cleanAll s).l2 k = some l)
    (hk : ∃ x ∈ s.l2, x.1 = k) : l.dirty = 0 := by
  have hget : l2Get (cleanAll s) k = l := by rw [l2Get, h, Option.getD_some]
  rw [← hget, cleanAll, (foldl_l2Clean _ s k).1, if_pos (List.mem_map.mpr hk)]

/-! ### Performance monitors (R445) -/

theorem mon_setMonitor (d m : Nat) (x : PerfMon) (s : State) : ((setMonitor d m x s).die d).mon m = x := by
  rw [setMonitor, State.die_setDie_self, Die.mon]
  simp only [Assoc.get?_put_self, Option.getD_some]

/-- The sample that a monitor takes: its source's, or the value given (R445). -/
def sampleOf (s : State) (d : Nat) (x : PerfMon) (v : Word) : Word :=
  if x.src = 4 then BitVec.ofNat 32 (Assoc.rd 0 s.slips (192 * d + x.inst.toNat) - x.mark)
  else if x.src = 5 then BitVec.ofNat 32 (s.copies.countP fun c => c.core == 192 * d + x.inst.toNat)
  else v

/-- A monitor after a sample, and the slips from which its next one counts. -/
def PerfMon.sampled (s : State) (d : Nat) (v : Word) (x : PerfMon) : PerfMon :=
  { x.sample (sampleOf s d x v) with mark := if x.en && x.src == 4 then s.slipsOf (192 * d + x.inst.toNat) else x.mark }

theorem monitorSample_eq (d m : Nat) (v : Word) (s : State) :
    monitorSample d m v s = setMonitor d m (((s.die d).mon m).sampled s d v) s := by
  rw [PerfMon.sampled, sampleOf, List.countP_eq_length_filter]
  rfl

/-- A monitor that is off, or has no source, takes no sample. -/
theorem PerfMon.sampled_of_idle {x : PerfMon} (s : State) (d : Nat) (v : Word) (h : x.en = false ∨ x.src = 0) :
    x.sampled s d v = x := by
  have hs (w : Word) : x.sample w = x := if_pos (by simpa using h)
  have hm : (x.en && x.src == 4) = false := by
    rcases h with h | h <;> simp [h]
  rw [sampled, hs, hm]
  rfl

section
variable {x : PerfMon} (s : State) (d : Nat) (v : Word) (he : x.en = true) (hs : x.src ≠ 0)
include he hs

theorem PerfMon.sampled_of_live : x.sampled s d v = { x with
    min := if (sampleOf s d x v).toNat < x.min.toNat then sampleOf s d x v else x.min
    max := if x.max.toNat < (sampleOf s d x v).toNat then sampleOf s d x v else x.max
    bins := Assoc.wr 0 x.bins (binOf (sampleOf s d x v).toNat)
      (BitVec.ofNat 32 (Nat.min ((Assoc.rd 0 x.bins (binOf (sampleOf s d x v).toNat)).toNat + 1) 0xFFFFFFFF))
    mark := if x.en && x.src == 4 then s.slipsOf (192 * d + x.inst.toNat) else x.mark } := by
  have hn : ¬ (!x.en || x.src == 0) = true := by
    simpa only [he, Bool.not_true, Bool.false_or, beq_iff_eq] using hs
  rw [sampled, sample, if_neg hn]

theorem min_sampled : (x.sampled s d v).min.toNat = min (sampleOf s d x v).toNat x.min.toNat := by
  rw [PerfMon.sampled_of_live s d v he hs]
  dsimp only
  split <;> omega

theorem max_sampled : (x.sampled s d v).max.toNat = max (sampleOf s d x v).toNat x.max.toNat := by
  rw [PerfMon.sampled_of_live s d v he hs]
  dsimp only
  split <;> omega

theorem bins_sampled (b : Nat) : Assoc.rd 0 (x.sampled s d v).bins b =
    if b = binOf (sampleOf s d x v).toNat then BitVec.ofNat 32 (min ((Assoc.rd 0 x.bins b).toNat + 1) 0xFFFFFFFF)
    else Assoc.rd 0 x.bins b := by
  rw [PerfMon.sampled_of_live s d v he hs]
  dsimp only
  rw [Assoc.rd_wr]
  split
  · next hb => rw [hb]
  · rfl

end

/-- A monitor after a read of one of its offsets. -/
theorem mon_monitorRead (d m off : Nat) (s : State) :
    ((monitorRead d m off s).1.die d).mon m = (((s.die d).mon m).read off).1 := by
  unfold monitorRead
  dsimp only
  split
  · next h => exact h.symm
  · exact mon_setMonitor ..

theorem PerfMon.read_bin (x : PerfMon) {off : Nat} (h : 0x80 ≤ off) (ha : off % 4 = 0) (b : Nat) :
    Assoc.rd 0 (x.read off).1.bins b = if b = (off - 0x80) / 4 then 0 else Assoc.rd 0 x.bins b := by
  rw [read, if_neg (by omega), if_neg (by omega), if_neg (by omega), if_pos ⟨h, ha⟩]
  exact Assoc.rd_del ..

/-- A read that names no sample changes nothing. -/
theorem PerfMon.read_other (x : PerfMon) {off : Nat} (h : off = 0 ∨ (off ≠ 4 ∧ off ≠ 8 ∧ (off < 0x80 ∨ off % 4 ≠ 0))) :
    (x.read off).1 = x := by
  unfold read
  split
  · rfl
  · rw [if_neg (by omega), if_neg (by omega), if_neg (by omega)]

/-- A bin holds the samples between two powers of two (R445). -/
theorem binOf_eq {v k : Nat} (hk : 1 ≤ k) (hk' : k ≤ 30) (hlo : 2 ^ (k - 1) ≤ v) (hhi : v < 2 ^ k) : binOf v = k := by
  have hv : v ≠ 0 := (Nat.lt_of_lt_of_le (Nat.two_pow_pos _) hlo).ne'
  have hl : Nat.log2 v = k - 1 := (Nat.log2_eq_iff hv).mpr ⟨hlo, by rwa [Nat.sub_add_cancel hk]⟩
  rw [binOf, if_neg hv, log2, hl]
  omega

/-! ### The statement -/

theorem exec_mgmtRegisterWrite (loc n : Nat) (v : DWord) (s : State) :
    exec (.mgmtRegisterWrite loc n v) s = .next (mgmtWrite loc n v.toNat s) := rfl

theorem exec_go (s : State) : exec .go s = .next (goStep s) := rfl

theorem exec_monitorConfigWrite {d m : Nat} (hd : d < 4) (hm : m < 32) (v : Word) (s : State) :
    exec (.monitorConfigWrite d m v) s = .next (monitorConfig d m v.toNat s) := by
  change execMonitorConfigWrite d m v s = _
  rw [execMonitorConfigWrite, if_pos ⟨hd, hm⟩]

theorem exec_monitorSample {d m : Nat} (hd : d < 4) (hm : m < 32) (v : Word) (s : State) :
    exec (.monitorSample d m v) s = .next (monitorSample d m v s) := by
  change execMonitorSample d m v s = _
  rw [execMonitorSample, if_pos ⟨hd, hm⟩]

theorem exec_monitorRscRead {d m : Nat} (hd : d < 4) (hm : m < 32) (off : Nat) (s : State) :
    exec (.monitorRscRead d m off) s = .next (monitorRead d m off s).1 := by
  change execMonitorRscRead d m off s = _
  rw [execMonitorRscRead, if_pos ⟨hd, hm⟩]

theorem exec_hbmReady (s : State) : exec .hbmReady s =
    .next (if s.phase = .early ∧ s.boot.started then logEvent { s with phase := .ready } 0x0C 0 1 else s) := rfl

/-- Settles O57: each write by its block and its size, GO by `goStep_of_ready`, a monitor by what it is after each access. -/
theorem managementRegisters : Obligations.ManagementRegisters := by
  unfold Obligations.ManagementRegisters
  refine ⟨⟨fun s loc n v h => congrArg Host.Outcome.next (mgmtWrite_of_unsized v.toNat s h), ?plimit, ?ptRoot, ?btBase, ?coreBlock, ?go,
    ?hbmReady⟩, fun s d m hd hm => ⟨?config, ?sample, ?read, fun v k hk hk' hlo hhi => binOf_eq hk hk' hlo hhi⟩⟩
  case plimit =>
    intro s v
    rw [exec_mgmtRegisterWrite, mgmtWrite_low _ _ (by omega) (by omega)]
    rfl
  case ptRoot =>
    intro s c v hc
    rw [exec_mgmtRegisterWrite, mgmtWrite_eight _ _ (by omega) (by omega),
      show 0x2000_0428 + c * 2 ^ 20 = 0x2000_0000 + c * 2 ^ 20 + 0x428 by omega, mgmtPut_ctx _ _ _ hc (by omega),
      ctxPut_ptRoot, putHalves_both]
    refine ⟨_, rfl, ?_, ?_⟩
    · rw [State.ctx_setCtx_self]
    · rw [mgmtRead_ptRoot _ hc, State.ctx_setCtx_self]
  case btBase =>
    intro s c v hc
    rw [exec_mgmtRegisterWrite, mgmtWrite_low _ _ (by omega) (by omega),
      show 0x2000_0420 + c * 2 ^ 20 = 0x2000_0000 + c * 2 ^ 20 + 0x420 by omega, mgmtPut_ctx _ _ _ hc (by omega),
      ctxPut_btBase]
    refine ⟨_, rfl, ?_⟩
    rw [State.ctx_setCtx_self]
    exact toNat_putHalves_low ..
  case coreBlock =>
    intro s d core o n v hd hcore ho hn ha
    rw [exec_mgmtRegisterWrite]
    refine congrArg Host.Outcome.next ?_
    generalize hloc : 0x1000_0000 + d * 2 ^ 24 + core * 2 ^ 16 + o = loc
    rcases hn with rfl | rfl
    · by_cases h8 : o % 8 = 0
      · rw [mgmtWrite_low _ _ (by omega) (by omega), mgmtPut_core _ _ _ hd hcore ho hloc.symm]
      · rw [mgmtWrite_high _ _ (by omega) (by omega),
          mgmtPut_core (o := o - 4) _ _ _ hd hcore (by omega) (by omega)]
    · rw [mgmtWrite_eight _ _ (by omega) (by omega), mgmtPut_core _ _ _ hd hcore ho hloc.symm]
  case go =>
    intro s
    rw [exec_go]
    refine ⟨fun hp ht hg => ?_, fun h => by rw [goStep_of_not_ready h]⟩
    rw [goStep_of_ready hp ht hg]
    refine ⟨_, rfl, rfl, fun d hd => ?_, ?_⟩
    · rw [die_logEvent_phase, startClocks_clock hd, cleanAll_die]
    · rw [l2_logEvent_phase, startClocks_l2]
      intro k l hk hl x hx hxk
      rw [cleanAll_dirty hk ⟨x, hx, hxk⟩] at hl
      exact hl.elim nofun nofun
  case hbmReady =>
    intro s
    rw [exec_hbmReady]
    refine ⟨fun hp hb => by rw [if_pos ⟨hp, hb⟩], fun h => ?_⟩
    rw [if_neg fun hc => h.elim (· hc.1) fun hb => Bool.false_ne_true (hb.symm.trans hc.2)]
  case config =>
    intro v
    refine ⟨_, exec_monitorConfigWrite hd hm v s, ?_⟩
    rw [monitorConfig, mon_setMonitor]
    exact ⟨rfl, rfl, rfl, rfl, rfl, fun _ => rfl⟩
  case sample =>
    intro v
    refine ⟨_, exec_monitorSample hd hm v s, ?_⟩
    rw [monitorSample_eq, mon_setMonitor]
    exact ⟨PerfMon.sampled_of_idle s d v, fun he hs => ⟨min_sampled s d v he hs, max_sampled s d v he hs,
      bins_sampled s d v he hs⟩⟩
  case read =>
    intro off
    refine ⟨_, exec_monitorRscRead hd hm off s, ?_⟩
    rw [mon_monitorRead]
    refine ⟨fun h => ?_, fun h => ?_, fun h ha b => PerfMon.read_bin _ h ha b, fun h => PerfMon.read_other _ h⟩
    · rw [h]; rfl
    · rw [h]; rfl

end Sys2Proof.Machine
end

section
/-! SUPPORT. What the events of a context leave of the state (R442): all but the records of its queue and what a write of
memory changes. -/

namespace Sys2Proof.Machine

/-! ### Writes of host memory -/

@[simp] theorem rdcDrop_aboveHomes (s : State) (d n : Nat) : (rdcDrop s d n).aboveHomes = s.aboveHomes :=
  rdcWriteBack_aboveHomes s d n

@[simp] theorem hostOwn_aboveHomes (s : State) (d a : Nat) : (hostOwn s d a).aboveHomes = s.aboveHomes := by
  unfold hostOwn
  split
  · exact aboveHomes_foldl (fun _ _ => rdcDrop_aboveHomes ..) _ _
  · rfl

@[simp] theorem hostPast_aboveHomes (s : State) (a n : Nat) : (hostPast s a n).aboveHomes = s.aboveHomes :=
  aboveHomes_foldl (fun _ _ => hostOwn_aboveHomes ..) _ _

theorem putRecord_aboveHomes (base idx : Nat) (bs : List Byte) (s : State) :
    (putRecord base idx bs s).aboveHomes = s.aboveHomes := by
  unfold putRecord
  dsimp only
  split
  · rw [homeWrite_aboveHomes, hostPast_aboveHomes]
  · rfl

theorem putRecord_quiet (base idx : Nat) (bs : List Byte) (s : State) :
    (putRecord base idx bs s).teams.map Team.quiet = s.teams.map Team.quiet := by
  refine congrArg Front.teams (?_ : (putRecord base idx bs s).front = s.front)
  unfold putRecord
  dsimp only
  split
  · rw [homeWrite_front, hostPast_front]
  · rfl

theorem ctxs_of_aboveHomes {s t : State} (h : t.aboveHomes = s.aboveHomes) : t.ctxs = s.ctxs :=
  (congrArg State.ctxs h : t.aboveHomes.ctxs = s.aboveHomes.ctxs)

/-! ### Events -/

/-- A context without the records of its event queue. -/
def Ctx.noEvents (x : Ctx) : Ctx := { x with events := [], heldEvents := 0, eqPub := 0 }

/-- The state above the homes, without the contexts, the snoops sent and the free choices taken. -/
def State.aboveEvents (s : State) : State := { s.aboveHomes with ctxs := [], biOut := [], fresh := 0 }

/-- Two states alike but for events: the contexts but for their event queues, the teams but for their monitors, and what is
above the homes. -/
structure SameButEvents (s t : State) : Prop where
  ctx : ∀ d, (t.ctx d).noEvents = (s.ctx d).noEvents
  teams : t.teams.map Team.quiet = s.teams.map Team.quiet
  above : t.aboveEvents = s.aboveEvents

namespace SameButEvents

theorem refl (s : State) : SameButEvents s s := ⟨fun _ => rfl, rfl, rfl⟩

theorem trans {s t u : State} (h : SameButEvents s t) (k : SameButEvents t u) : SameButEvents s u :=
  ⟨fun d => (k.ctx d).trans (h.ctx d), k.teams.trans h.teams, k.above.trans h.above⟩

theorem foldl {α : Type} {f : State → α → State} (h : ∀ s x, SameButEvents s (f s x)) (l : List α) (s : State) :
    SameButEvents s (l.foldl f s) :=
  List.foldlRecOn (motive := SameButEvents s) l f (refl s) fun t ht x _ => ht.trans (h t x)

theorem setCtx {s : State} {c : Nat} {x : Ctx} (h : x.noEvents = (s.ctx c).noEvents) : SameButEvents s (s.setCtx c x) := by
  refine ⟨fun d => ?_, rfl, rfl⟩
  rw [State.ctx_setCtx]
  split
  · next hd => rw [hd, h]
  · rfl

end SameButEvents

theorem putRecord_sameButEvents (base idx : Nat) (bs : List Byte) (s : State) : SameButEvents s (putRecord base idx bs s) := by
  have h := putRecord_aboveHomes base idx bs s
  refine ⟨fun d => ?_, putRecord_quiet base idx bs s, ?_⟩
  · rw [State.ctx, ctxs_of_aboveHomes h]
    rfl
  · rw [State.aboveEvents, h]
    rfl

theorem publishEvent_sameButEvents (c : Nat) (s : State) : SameButEvents s (publishEvent c s) := by
  rw [publishEvent]
  dsimp only
  generalize hp : putRecord _ _ _ s = t
  have ht : SameButEvents s t := hp ▸ putRecord_sameButEvents ..
  have hc := ht.trans (SameButEvents.setCtx (c := c) (x := { t.ctx c with
    eqPub := (s.ctx c).eqPub + 1, heldEvents := (s.ctx c).heldEvents - 1 }) rfl)
  exact ⟨hc.ctx, hc.teams, hc.above⟩

theorem publishEvents_sameButEvents (c n : Nat) (s : State) : SameButEvents s (publishEvents c n s) := by
  induction n generalizing s with
  | zero => exact .refl s
  | succ n ih =>
    rw [publishEvents]
    split
    · exact ⟨fun _ => rfl, rfl, rfl⟩
    · exact (publishEvent_sameButEvents c s).trans (ih _)

/-- An event changes nothing but its queue and memory. -/
theorem postEvent_sameButEvents (c code : Nat) (data : List DWord) (s : State) :
    SameButEvents s (postEvent c code data s) :=
  (SameButEvents.setCtx (by rfl)).trans (publishEvents_sameButEvents ..)

namespace SameButEvents

variable {s t : State} (h : SameButEvents s t)
include h

theorem grids : t.grids = s.grids := (congrArg State.grids h.above : t.aboveEvents.grids = s.aboveEvents.grids)
theorem rings : t.rings = s.rings := (congrArg State.rings h.above : t.aboveEvents.rings = s.aboveEvents.rings)
theorem slots : t.slots = s.slots := (congrArg State.slots h.above : t.aboveEvents.slots = s.aboveEvents.slots)
theorem boot : t.boot = s.boot := (congrArg State.boot h.above : t.aboveEvents.boot = s.aboveEvents.boot)

theorem slot (core entry : Nat) : t.slot core entry = s.slot core entry := by rw [State.slot, h.slots]; rfl

/-- A team of the later state, from the earlier one. -/
theorem mem_teams {u : Team} (hu : u ∈ t.teams) : ∃ w ∈ s.teams, w.quiet = u.quiet := by
  have hm : u.quiet ∈ s.teams.map Team.quiet := h.teams ▸ List.mem_map_of_mem hu
  exact List.mem_map.mp hm

theorem ctxSt (c : Nat) : (t.ctx c).st = (s.ctx c).st := 
  (congrArg Ctx.st (h.ctx c) : (t.ctx c).noEvents.st = (s.ctx c).noEvents.st)

end SameButEvents

end Sys2Proof.Machine
end

section
/-! SUPPORT. Teams from their binding to their end (O53): what dispatch does with an entry, a bound team, and how a cluster
starts and a team ends. -/

namespace Sys2Proof.Machine

open Claims

/-! ### Slot table entries -/

/-- An entry after one is replaced, by the entries' keys. -/
theorem State.slot_setSlot_key (s : State) (c n d m : Nat) (x : Slot) :
    (s.setSlot c n x).slot d m = if d * 64 + m = c * 64 + n then x else s.slot d m := by
  simp only [State.slot, State.setSlot]
  split
  · next h0 =>
    rw [Assoc.get?_del]
    split
    · exact h0.symm
    · rfl
  · rw [Assoc.get?_put]
    split <;> rfl

theorem slot_moveSlot (s : State) (c n d m : Nat) (st : SlotSt) : (moveSlot c n st s).slot d m =
    if d * 64 + m = c * 64 + n then { s.slot c n with st := st }.settle else s.slot d m := State.slot_setSlot_key ..

/-- An entry that fills or runs stays so with VALID cleared (R363). -/
theorem slot_moveSlot_running (s : State) (c n : Nat) : ((moveSlot c n .running s).slot c n).st = .running := by
  rw [slot_moveSlot, if_pos rfl]
  rfl

/-! ### Dispatch of a new team (R363, R364) -/

theorem slot_refuseEntry (core n d m : Nat) (s : State) :
    (refuseEntry core n s).slot d m = (moveSlot core n .refused s).slot d m := rfl

theorem refuseEntry_log (core n : Nat) (s : State) : (refuseEntry core n s).log =
    (⟨0x0A, BitVec.ofNat 8 (coreDie core), s.elHead, s.cycle, BitVec.ofNat 64 (core * 64 + n)⟩ :: s.log).take 4096 := rfl

/-- A refused entry says so while its VALID is set. -/
theorem slot_refuseEntry_self {core n : Nat} {s : State} (h : (s.slot core n).v.getLsbD 0 = true) :
    ((refuseEntry core n s).slot core n).st = .refused := by
  rw [slot_refuseEntry, slot_moveSlot, if_pos rfl, Slot.settle]
  dsimp only
  rw [if_pos h]

section
variable {s : State} {core n : Nat} {b : BindRec} (hb : pendingBind s core n = some b) (hs : b.saved s = none)
  (hlow : savedBelow s core n = false) (hp : (s.slot core n).st = .pending)
include hb hs hlow hp

omit hp in
/-- The entry of a new team is taken by `bindStep`. -/
theorem exec_dispatchBind_of_new : exec (.dispatchBind core n) s = .next (bindStep core n s) := by
  have hn : ((pendingBind s core n).bind fun b => b.saved s) = none := by rw [hb]; exact hs
  refine congrArg Host.Outcome.next (?_ : dispatchStep core n s = _)
  rw [dispatchStep, if_neg (ne_true_of_eq_false hlow), hn]

theorem exec_dispatchBind_refuses (h : b.placed = false ∨ b.refused s b.width = true) :
    exec (.dispatchBind core n) s = .next (refuseEntry core n s) := by
  have hr : (!b.placed || b.refused s b.width) = true := by simpa using h
  rw [exec_dispatchBind_of_new hb hs hlow, bindStep, if_neg (not_not_intro hp), hb]
  dsimp only
  rw [if_pos hr]

variable (hpl : b.placed = true) (hr : b.refused s b.width = false)
include hpl hr

theorem exec_dispatchBind_waits (h : b.together s = none) : exec (.dispatchBind core n) s = .next s := by
  rw [exec_dispatchBind_of_new hb hs hlow, bindStep, if_neg (not_not_intro hp), hb]
  dsimp only
  rw [hpl, hr, if_neg (by decide), h]

theorem exec_dispatchBind_binds {bs : List BindRec} (h : b.together s = some bs)
    (hfirst : ∀ k b', k < n → pendingBind s core k = some b' → b'.together s = none) :
    exec (.dispatchBind core n) s = .next (bs.foldl (fun s x => bindOne x s) s) := by
  have hf : firstReady s core n = true := by
    rw [firstReady, List.all_eq_true]
    intro k hk
    split
    · next b' hb' => rw [hfirst k b' (List.mem_range.mp hk) hb']; rfl
    · rfl
  rw [exec_dispatchBind_of_new hb hs hlow, bindStep, if_neg (not_not_intro hp), hb]
  dsimp only
  rw [hpl, hr, if_neg (by decide), h]
  dsimp only
  rw [if_pos hf]

end

/-! ### A bound team (R319 to R322) -/

theorem setBounds_keeps {α : Type} (f : State → α) (hf : ∀ (s : State) pb l1, f { s with pb := pb, l1 := l1 } = f s)
    (core kd nwin : Nat) (s : State) : f (setBounds core kd nwin s) = f s := by
  unfold setBounds
  split
  · exact hf s _ _
  · rfl

/-- The state in which a team is bound: its entry is filling and its core's boundaries are set. -/
def bindBase (b : BindRec) (s : State) : State := moveSlot b.core b.entry .filling (setBounds b.core b.kd b.nwin s)

theorem bindOne_teams {b : BindRec} {w : Nat} (s : State) (h : b.width = some w) :
    (bindOne b s).teams = (bindBase b s).teams ++ [b.team (bindBase b s) w] := by
  rw [bindOne, h]
  rfl

theorem bindOne_nextAge {b : BindRec} {w : Nat} (s : State) (h : b.width = some w) :
    (bindOne b s).nextAge = (bindBase b s).nextAge + 1 := by
  rw [bindOne, h]
  rfl

theorem bindBase_teams (b : BindRec) (s : State) : (bindBase b s).teams = s.teams :=
  setBounds_keeps State.teams (fun _ _ _ => rfl) ..
theorem bindBase_nextId (b : BindRec) (s : State) : (bindBase b s).nextId = s.nextId :=
  setBounds_keeps State.nextId (fun _ _ _ => rfl) ..
theorem bindBase_nextAge (b : BindRec) (s : State) : (bindBase b s).nextAge = s.nextAge :=
  setBounds_keeps State.nextAge (fun _ _ _ => rfl) ..

theorem team_groups_length (b : BindRec) (s : State) (w : Nat) :
    (b.team s w).groups.length = (kdThreads b.kd + w - 1) / w := by
  rw [BindRec.team, List.length_map, List.length_range]

/-- A group of a bound team, at its formation. -/
theorem team_groups_getElem? {b : BindRec} {s : State} {w i : Nat} {g : Group} (h : (b.team s w).groups[i]? = some g) :
    g = Group.fresh i (b.team s w).kentry s.nextAge (b.team s w).regMin := by
  simp only [BindRec.team, List.getElem?_map, Option.map_eq_some_iff] at h
  obtain ⟨j, hj, rfl⟩ := h
  obtain ⟨hi, rfl⟩ := List.getElem?_eq_some_iff.mp hj
  rw [List.getElem_range]
  rfl

/-! ### Filling (R120) -/

theorem rd_clearMap {α : Type} (d : α) (m : Assoc α) (k n j : Nat) :
    Assoc.rd d (clearMap m k n) j = if k ≤ j ∧ j < k + n then d else Assoc.rd d m j := by
  have h := rd_filter_keys d (fun a => !decide (k ≤ a ∧ a < k + n)) m j
  rw [clearMap, h]
  by_cases hj : k ≤ j ∧ j < k + n <;> simp [hj]

/-- A filled scratchpad reads 0. -/
theorem rd_zeroFill_scratch {t : Team} (s : State) {o : Nat} (h : o < t.window false) :
    Assoc.rd 0 (zeroFill t s).pool (windowKey s t false + o) = 0 := by
  rw [show (zeroFill t s).pool = clearMap (clearMap s.pool (windowKey s t false) (t.window false)) (windowKey s t true)
    (t.window true) from rfl, rd_clearMap, rd_clearMap, if_pos (c := windowKey s t false ≤ _ ∧ _) ⟨by omega, by omega⟩, ite_self]

/-! ### The start of a cluster (R333) -/

/-- A team of that name is listed. -/
def Listed (s : State) (uid : Nat) : Prop := (s.team? uid).isSome = true

/-- The team of that name runs, and so does its entry. -/
def Running (s : State) (uid core entry : Nat) : Prop :=
  (∃ v, s.team? uid = some v ∧ v.st = .running) ∧ (s.slot core entry).st = .running

theorem listed_modTeam {s : State} {uid u : Nat} {f : Team → Team} (hf : ∀ t, (f t).uid = t.uid) (h : Listed s u) :
    Listed (modTeam uid f s) u := by
  rw [Listed, team?_modTeam s uid u f hf, Option.isSome_map]
  exact h

/-- Monitors that fire leave the teams listed. -/
theorem listed_fireRange {s : State} {u : Nat} (k n : Nat) (h : Listed s u) : Listed (fireRange k n s) u := by
  obtain ⟨t, ht⟩ := Option.isSome_iff_exists.mp h
  rw [Listed, State.team?, List.find?_isSome]
  refine ⟨_, List.mem_map_of_mem (List.mem_of_find?_eq_some ht), beq_iff_eq.mpr (team?_uid (s := s) (t := t) ht)⟩

theorem fillOne_of_new {t : Team} (s : State) (h : t.restored = none) :
    fillOne t s = writeRings t (l1Clear (zeroFill t s) t.core) := by
  rw [fillOne, h]

theorem writeRings_keeps {P : State → Prop} (hP : ∀ s pool rings, P s → P { s with pool := pool, rings := rings }) (t : Team)
    {s : State} (h : P s) : P (writeRings t s) := by
  refine foldl_keeps (fun s u k hs hu => ?_) _ h
  subst hu
  exact hP s _ _ hs

theorem listed_fillOne {t : Team} {s : State} {u : Nat} (h : t.restored = none) (hl : Listed s u) : Listed (fillOne t s) u := by
  rw [fillOne_of_new s h]
  refine writeRings_keeps (P := (Listed · u)) (fun _ _ _ h => h) t ?_
  have hz : (l1Clear (zeroFill t s) t.core).teams = (fireRange (windowKey s t false) (t.window false)
    (fireRange (windowKey s t true) (t.window true) s)).teams := rfl
  rw [Listed, State.team?, hz]
  exact listed_fireRange _ _ (listed_fireRange _ _ hl)

theorem zeroFill_ctxs (t : Team) (s : State) : (zeroFill t s).ctxs = s.ctxs := by simp only [zeroFill, fireRange]

theorem l1Clear_ctxs (s : State) (c : Nat) : (l1Clear s c).ctxs = s.ctxs := rfl

theorem fillOne_ctxs {t : Team} (s : State) (h : t.restored = none) : (fillOne t s).ctxs = s.ctxs := by
  rw [fillOne_of_new s h]
  exact writeRings_keeps (P := fun u => u.ctxs = s.ctxs) (fun _ _ _ h => h) t ((l1Clear_ctxs ..).trans (zeroFill_ctxs t s))

/-- A team that waits for no image starts. -/
theorem startTeam_of_new {t : Team} (c : Nat) (s : State) (h : t.restored = none) : startTeam c s t =
    moveSlot t.core t.entry .running (modTeam t.uid (fun t => { t with st := .running }) s) := by
  rw [startTeam, h]
  rfl

theorem running_startTeam {t : Team} {c : Nat} {s : State} (h : t.restored = none) (hl : Listed s t.uid) :
    Running (startTeam c s t) t.uid t.core t.entry := by
  rw [startTeam_of_new c s h]
  refine ⟨?_, slot_moveSlot_running ..⟩
  obtain ⟨v, hv⟩ := Option.isSome_iff_exists.mp hl
  refine ⟨{ v with st := .running }, (team?_modTeam s t.uid t.uid (fun t => { t with st := .running }) fun _ => rfl).trans ?_, rfl⟩
  rw [hv, Option.map_some, if_pos (team?_uid hv)]

theorem running_startTeam_other {t : Team} {c uid core entry : Nat} {s : State} (h : t.restored = none)
    (hr : Running s uid core entry) : Running (startTeam c s t) uid core entry := by
  rw [startTeam_of_new c s h]
  obtain ⟨⟨v, hv, hst⟩, hslot⟩ := hr
  refine ⟨⟨_, (team?_modTeam s t.uid uid (fun t => { t with st := .running }) fun _ => rfl).trans (congrArg _ hv), ?_⟩, ?_⟩
  · dsimp only
    split
    · rfl
    · exact hst
  · rw [slot_moveSlot]
    split
    · rfl
    · exact hslot

theorem listed_startTeam {t : Team} {c u : Nat} {s : State} (h : t.restored = none) (hl : Listed s u) :
    Listed (startTeam c s t) u := by
  rw [startTeam_of_new c s h]
  exact listed_modTeam (s := s) (fun _ => rfl) hl

/-- Every team of a list starts. -/
theorem running_foldl_startTeam (c : Nat) (us : List Team) (s : State) (hn : ∀ u ∈ us, u.restored = none)
    (hl : ∀ u ∈ us, Listed s u.uid) : ∀ u ∈ us, Running (us.foldl (startTeam c) s) u.uid u.core u.entry := by
  induction us generalizing s with
  | nil => nofun
  | cons x us ih =>
    have hx := hn x List.mem_cons_self
    have hus : ∀ u ∈ us, u.restored = none := fun u hu => hn u (List.mem_cons_of_mem _ hu)
    intro u hu
    rcases List.mem_cons.mp hu with rfl | hu
    · exact List.foldlRecOn (motive := fun t => Running t u.uid u.core u.entry) us _ (running_startTeam hx (hl u List.mem_cons_self))
        fun t ht y hy => running_startTeam_other (hus y hy) ht
    · exact ih _ hus (fun u hu => listed_startTeam hx (hl u (List.mem_cons_of_mem _ hu))) u hu

theorem wakeRestored_of_new {t : Team} (c : Nat) (s : State) (h : t.restored = none) : wakeRestored c s t = s := by
  rw [wakeRestored, h]

/-- A cluster of new teams, all of them filled. -/
def startCluster (c : Nat) (us : List Team) (s : State) : State :=
  us.foldl (startTeam c) (us.foldl (fun s u => fillOne u s) s)

theorem startCluster_ctxs {c : Nat} {us : List Team} (s : State) (hn : ∀ u ∈ us, u.restored = none) :
    (startCluster c us s).ctxs = s.ctxs := by
  have h1 : (us.foldl (fun s u => fillOne u s) s).ctxs = s.ctxs :=
    List.foldlRecOn (motive := fun t : State => t.ctxs = s.ctxs) us _ rfl fun t ht u hu => (fillOne_ctxs t (hn u hu)).trans ht
  refine List.foldlRecOn (motive := fun t : State => t.ctxs = s.ctxs) us _ h1 fun t ht u hu => ?_
  rw [startTeam_of_new c t (hn u hu)]
  exact ht

theorem running_startCluster {c : Nat} {us : List Team} {s : State} (hn : ∀ u ∈ us, u.restored = none)
    (hm : ∀ u ∈ us, u ∈ s.teams) : ∀ u ∈ us, Running (startCluster c us s) u.uid u.core u.entry := by
  refine running_foldl_startTeam c us _ hn fun u hu => ?_
  refine List.foldlRecOn (motive := fun t => Listed t u.uid) us _ ?_ fun t ht y hy => listed_fillOne (hn y hy) ht
  rw [Listed, State.team?, List.find?_isSome]
  exact ⟨u, hm u hu, beq_self_eq_true u.uid⟩

theorem fillStep_of_new {s : State} {core n : Nat} {t : Team}
    (hf : s.teams.find? (fun t => t.core == core && t.entry == n && t.st == .filling) = some t)
    (hus : ∀ u ∈ clusterOf s t, u.st = .filling ∧ u.restored = none) (hst : (s.ctx t.ctx).st ≠ .restoring)
    (hd : dieRuns s core = true) : fillStep core n s = startCluster t.ctx (clusterOf s t) s := by
  have hn : ∀ u ∈ clusterOf s t, u.restored = none := fun u hu => (hus u hu).2
  have hall : ((clusterOf s t).all fun u => u.st == .filling) = true :=
    List.all_eq_true.mpr fun u hu => beq_iff_eq.mpr (hus u hu).1
  have hw : (clusterOf s t).foldl (wakeRestored t.ctx) (startCluster t.ctx (clusterOf s t) s) =
      startCluster t.ctx (clusterOf s t) s :=
    List.foldlRecOn (motive := (· = _)) (clusterOf s t) _ rfl fun v hv u hu => (wakeRestored_of_new _ v (hn u hu)).trans hv
  have hc : (startCluster t.ctx (clusterOf s t) s).ctx t.ctx = s.ctx t.ctx := by
    rw [State.ctx, startCluster_ctxs s hn]
    rfl
  rw [fillStep, hf]
  dsimp only
  rw [hall, hd, if_neg (by decide)]
  rw [startCluster] at hw hc
  rw [hw, hc, if_neg fun h => hst h.1]
  rfl

/-! ### The end of a team (R336) -/

theorem unloadNow_keeps {α : Type} (f : State → α) (hf : ∀ (s : State) x, f { s with ctxs := x } = f s) (c ord : Nat)
    (s : State) : f (unloadNow c ord s) = f s := hf s _

theorem settleUnloads_keeps {α : Type} (f : State → α) (hf : ∀ (s : State) x, f { s with ctxs := x } = f s) (c : Nat)
    (s : State) : f (settleUnloads c s) = f s := by
  refine foldl_keeps (P := fun t => f t = f s) (fun t u x ht hu => ?_) _ rfl
  dsimp only at hu
  split at hu
  · exact hu ▸ ht
  · exact hu ▸ (unloadNow_keeps f hf ..).trans ht

theorem countEnded_of_some {grid : Nat} {s : State} {g : GridEntry} (h : Assoc.get? s.grids grid = some g) :
    countEnded grid s = { s with grids := Assoc.put s.grids grid { g with ended := g.ended + 1 } } := by
  rw [countEnded, h]

/-- The teams of a cluster leave with its last one (R120). -/
def dropEnded (t : Team) (s : State) : State :=
  if (clusterOf s t).all fun u => u.st == .ended then
    { s with teams := s.teams.filter fun u => !(u.ctx == t.ctx && u.grid == t.grid && u.cluster == t.cluster) }
  else s

theorem dropEnded_keeps {α : Type} (f : State → α) (hf : ∀ (s : State) x, f { s with teams := x } = f s) (t : Team)
    (s : State) : f (dropEnded t s) = f s := by
  unfold dropEnded
  split
  · exact hf s _
  · rfl

theorem mem_dropEnded {t v : Team} {s : State} (h : v ∈ (dropEnded t s).teams) : v ∈ s.teams := by
  unfold dropEnded at h
  split at h
  · exact List.mem_of_mem_filter h
  · exact h

/-- A state in which a team has ended, before its end is posted. -/
def endBase (uid : Nat) (t : Team) (s : State) : State :=
  moveSlot t.core t.entry .ended (countEnded t.grid (dropRings uid (modTeam uid (fun t => { t with st := .ended }) s)))

theorem teamEndStep_of_ends {s : State} {uid : Nat} {t : Team} (ht : s.team? uid = some t) (hst : t.st = .running)
    (hg : ∀ g ∈ t.groups, g.cond = .ended) (hb : teamBusy s t = false) :
    teamEndStep uid s = settleUnloads t.ctx (dropEnded t (postEvent t.ctx evBind
      [BitVec.ofNat 64 (t.core * 64 + t.entry), BitVec.ofNat 64 t.teamId] (endBase uid t s))) := by
  have hall : (t.groups.all fun g => g.cond == .ended) = true := List.all_eq_true.mpr fun g hg' => beq_iff_eq.mpr (hg g hg')
  rw [teamEndStep, ht]
  dsimp only
  rw [hst, hall, hb, if_neg (by decide)]
  rfl

section
variable {s : State} {uid : Nat} {t : Team} {g : GridEntry} (hg : Assoc.get? s.grids t.grid = some g)
include hg

theorem endBase_eq : endBase uid t s = moveSlot t.core t.entry .ended
    { dropRings uid (modTeam uid (fun t => { t with st := .ended }) s) with
      grids := Assoc.put s.grids t.grid { g with ended := g.ended + 1 } } := by
  rw [endBase, countEnded_of_some (s := dropRings uid (modTeam uid (fun t => { t with st := .ended }) s)) hg]
  rfl

/-- A team of that name has ended. -/
theorem st_of_mem_endBase {v : Team} (h : v ∈ (endBase uid t s).teams) (hv : v.uid = uid) : v.st = .ended := by
  rw [endBase_eq hg] at h
  obtain ⟨w, -, rfl⟩ := List.mem_map.mp h
  by_cases hw : w.uid = uid
  · rw [if_pos hw]
  · rw [if_neg hw] at hv
    exact absurd hv hw

theorem rings_endBase {k : Nat × RingSt} (h : k ∈ (endBase uid t s).rings) : k.1 / 2 ^ 64 ≠ uid := by
  rw [endBase_eq hg] at h
  exact of_decide_eq_true (List.mem_filter.mp h).2

end

/-- Settles O53: dispatch by what it does with each kind of entry, the bound team by its fields, a cluster's start by
`fillStep_of_new` and a team's end by `teamEndStep_of_ends`. -/
theorem teamsAreBound : Obligations.TeamsAreBound := by
  unfold Obligations.TeamsAreBound
  refine ⟨?dispatch, ?bound, fun t s o ho => rd_zeroFill_scratch s ho, ?start, ?ends⟩
  case dispatch =>
    intro s core n b hp hb hs hlow
    refine ⟨fun h => ⟨_, exec_dispatchBind_refuses hb hs hlow hp h, rfl, refuseEntry_log .., slot_refuseEntry_self⟩,
      fun hpl hr => ⟨exec_dispatchBind_waits hb hs hlow hp hpl hr,
        fun bs h hfirst => exec_dispatchBind_binds hb hs hlow hp hpl hr h hfirst⟩⟩
  case bound =>
    intro b s w h
    refine ⟨b.team (bindBase b s) w, ?_, bindBase_nextId b s, rfl, rfl, rfl, rfl, rfl, rfl, rfl, rfl, rfl, rfl, rfl,
      team_groups_length .., fun i g hg => ?_, ?_⟩
    · rw [bindOne_teams s h, bindBase_teams]
    · rw [team_groups_getElem? hg, bindBase_nextAge]
    · rw [bindOne_nextAge s h, bindBase_nextAge]
  case start =>
    intro s core n t hf hus hst hd
    refine ⟨_, congrArg Host.Outcome.next (fillStep_of_new hf hus hst hd), fun u hu => ?_⟩
    exact running_startCluster (fun u hu => (hus u hu).2) (fun u hu => List.mem_of_mem_filter hu) u hu
  case ends =>
    intro s uid t g ht hst hgs hb hg
    have hp := postEvent_sameButEvents t.ctx evBind
      [BitVec.ofNat 64 (t.core * 64 + t.entry), BitVec.ofNat 64 t.teamId] (endBase uid t s)
    refine ⟨_, congrArg Host.Outcome.next (teamEndStep_of_ends ht hst hgs hb), ?_, fun v hv => ?_, ?_⟩
    · rw [settleUnloads_keeps State.grids (fun _ _ => rfl), dropEnded_keeps State.grids (fun _ _ => rfl), hp.grids,
        endBase_eq hg]
      exact Assoc.get?_put_self ..
    · have hm := List.mem_of_find?_eq_some hv
      rw [settleUnloads_keeps State.teams (fun _ _ => rfl)] at hm
      obtain ⟨w, hw, hq⟩ := hp.mem_teams (mem_dropEnded hm)
      have hu : w.uid = v.uid := (congrArg Team.uid hq : w.quiet.uid = v.quiet.uid)
      have hs : w.st = v.st := (congrArg Team.st hq : w.quiet.st = v.quiet.st)
      exact hs.symm.trans (st_of_mem_endBase hg hw (hu.trans (team?_uid hv)))
    · rw [settleUnloads_keeps State.rings (fun _ _ => rfl), dropEnded_keeps State.rings (fun _ _ => rfl), hp.rings]
      exact fun k hk => rings_endBase hg hk

end Sys2Proof.Machine
end

section
/-! SUPPORT. What happens to all the groups of a context (O55): halted ones resumed, sleeping ones woken, and runs of pages
dropped by a shootdown. -/

namespace Sys2Proof.Machine

open Claims

/-! ### One operation on each of a list of groups -/

/-- An operation that changes what it names once and no more, done to each of a list. -/
theorem foldl_view {α : Type} {view : State → Gid → Option α} {f : State → Gid → State} {u : α → α}
    (hu : ∀ x, u (u x) = u x) (hf : ∀ s gid g, view (f s gid) g = if g = gid then (view s g).map u else view s g)
    (l : List Gid) (s : State) (g : Gid) : view (l.foldl f s) g = if g ∈ l then (view s g).map u else view s g := by
  induction l generalizing s with
  | nil => simp
  | cons x l ih =>
    rw [List.foldl_cons, ih, hf]
    by_cases hx : g = x <;> by_cases hl : g ∈ l <;> simp [hx, hl, Option.map_map, Function.comp_def, hu]

/-- A group that a view finds is one of its context's. -/
theorem mem_ctxGroups {s : State} {gid : Gid} {e : Env} (h : env? s gid = some e) : gid ∈ ctxGroups s e.team.ctx := by
  obtain ⟨ht, hg, -, -⟩ := env?_eq h
  refine List.mem_flatMap.mpr ⟨e.team, List.mem_filter.mpr ⟨List.mem_of_find?_eq_some ht, beq_self_eq_true _⟩, ?_⟩
  refine List.mem_map.mpr ⟨e.grp, List.mem_of_find?_eq_some hg, ?_⟩
  rw [team?_uid ht, group?_idx hg]

/-! ### Halted groups (R413) -/

theorem resume_idx (g : Group) : g.resume.idx = g.idx := by
  unfold Group.resume
  split <;> rfl

theorem resume_halted {g : Group} {replay : Bool} (h : g.cond = .halted replay) :
    g.resume = { g with cond := .ready, pc := if replay then g.pc else pcAdd g.pc 12 } := by
  rw [Group.resume, h]

theorem resume_resume (g : Group) : g.resume.resume = g.resume := by
  by_cases h : ∃ replay, g.cond = .halted replay
  · obtain ⟨replay, h⟩ := h
    rw [resume_halted h]
    rfl
  · have hg : g.resume = g := by
      unfold Group.resume
      split
      · next h' => exact absurd ⟨_, h'⟩ h
      · rfl
    rw [hg, hg]

theorem groupOf_resumeHalted {s : State} {gid : Gid} {e : Env} (h : env? s gid = some e) :
    groupOf (resumeHalted e.team.ctx s) gid = some e.grp.resume := by
  have hf (s : State) (x g : Gid) : groupOf (modGroup x Group.resume s) g =
      if g = x then (groupOf s g).map Group.resume else groupOf s g := by
    rw [groupOf_modGroup s x g _ resume_idx]
    split <;> simp [*]
  rw [resumeHalted, foldl_view (view := groupOf) resume_resume hf, if_pos (mem_ctxGroups h), groupOf, h]
  rfl

/-! ### Sleeping groups (R153) -/

/-- The context of a group and what it waits for. -/
def condOf (s : State) (g : Gid) : Option (Nat × Cond) := (env? s g).map fun e => (e.team.ctx, e.grp.cond)

theorem condOf_of_teams {s t : State} (h : t.teams = s.teams) (g : Gid) : condOf t g = condOf s g := by
  rw [condOf, condOf, env?_of_teams h, Option.map_map]
  rfl

theorem condOf_modGroup {f : Group → Group} {u : Cond → Cond} (hi : ∀ g, (f g).idx = g.idx)
    (hc : ∀ g, (f g).cond = u g.cond) (s : State) (gid g : Gid) : condOf (modGroup gid f s) g =
      if g = gid then (condOf s g).map fun x => (x.1, u x.2) else condOf s g := by
  have h : condOf (modGroup gid f s) g =
      (env? s g).map fun e => (e.team.ctx, if g = gid then u e.grp.cond else e.grp.cond) := by
    rw [condOf, env?_modGroup s gid g f hi, Option.map_map]
    refine congrArg (Option.map · (env? s g)) (funext fun e => Prod.ext ?_ ?_)
    · dsimp only [Function.comp]
      split <;> rfl
    · dsimp only [Function.comp]
      rw [← hc]
      split <;> rfl
  rw [h, condOf]
  split
  · rw [Option.map_map]
    rfl
  · rfl

theorem condOf_modGroup_keeps {f : Group → Group} (hi : ∀ g, (f g).idx = g.idx) (hc : ∀ g, (f g).cond = g.cond) (s : State)
    (gid g : Gid) : condOf (modGroup gid f s) g = condOf s g := by
  rw [condOf_modGroup (u := id) hi hc]
  split
  · exact congrFun Option.map_id (condOf s g)
  · rfl

/-- What a sleeping group waits for once it is woken. -/
def Cond.woken : Cond → Cond
  | .wait (.mwait _ _ _) => .ready
  | k => k

theorem woken_of_not_mwait {k : Cond} (h : ∀ limit dst sc, k ≠ .wait (.mwait limit dst sc)) : k.woken = k := by
  unfold Cond.woken
  split
  · exact absurd rfl (h _ _ _)
  · rfl

theorem woken_ne_mwait (k : Cond) (limit : Option Nat) (d sc : Nat) : k.woken ≠ .wait (.mwait limit d sc) := by
  unfold Cond.woken
  split
  · nofun
  · next h => exact fun hk => h _ _ _ hk

theorem woken_woken (k : Cond) : k.woken.woken = k.woken := woken_of_not_mwait (woken_ne_mwait k)

theorem marks_cond (b : Bool) (ds : List RegDst) (g : Group) : (g.marks b ds).cond = g.cond := by rw [marks_rest]

theorem condOf_post (gid : Gid) (ctx core : Nat) (k : PendKind) (s : State) (g : Gid) :
    condOf (post gid ctx core k s) g = condOf s g :=
  condOf_of_teams (s := s) (t := post gid ctx core k s) rfl g

theorem condOf_mwaitLeave (e : Env) (dst sc st : Nat) (s : State) (g : Gid) :
    condOf (mwaitLeave e dst sc st s) g = condOf s g := by
  rw [mwaitLeave, condOf_of_teams (acquire_teams ..),
    condOf_modGroup_keeps (f := fun g => { g with mon := g.mon.map fun m => { m with fired := false } }) (fun _ => rfl) fun _ => rfl]
  rw [postRegs, condOf_post, condOf_modGroup_keeps (marks_idx _ _) (marks_cond _ _)]

theorem condOf_mwaitEnd (s : State) (extra : Nat) (gid g : Gid) : condOf (mwaitEnd gid extra s) g =
    if g = gid then (condOf s g).map fun x => (x.1, x.2.woken) else condOf s g := by
  rw [mwaitEnd]
  cases he : env? s gid with
  | none =>
    have hn : condOf s gid = none := by rw [condOf, he]; rfl
    dsimp only
    split
    · next hg => rw [hg, hn]; rfl
    · rfl
  | some e =>
    have hk : condOf s gid = some (e.team.ctx, e.grp.cond) := by rw [condOf, he]; rfl
    dsimp only
    split
    · next limit dst sc hc =>
      rw [condOf_modGroup (f := fun g => { g with cond := .ready, pc := pcAdd g.pc 12 }) (u := fun _ => .ready) (fun _ => rfl)
        fun _ => rfl, condOf_mwaitLeave]
      split
      · next hg => rw [hg, hk, hc]; rfl
      · rfl
    · next hc =>
      split
      · next hg => rw [hg, hk, Option.map_some, woken_of_not_mwait hc]
      · rfl

/-- No group of a context sleeps after a wake. -/
theorem awake_wakeMwaits {s : State} {g : Gid} {e : Env} (h : env? (wakeMwaits e.team.ctx s) g = some e)
    (limit : Option Nat) (d sc : Nat) : e.grp.cond ≠ .wait (.mwait limit d sc) := by
  have hk : condOf (wakeMwaits e.team.ctx s) g = some (e.team.ctx, e.grp.cond) := by rw [condOf, h]; rfl
  have hv : condOf (wakeMwaits e.team.ctx s) g =
      if g ∈ ctxGroups s e.team.ctx then (condOf s g).map fun x => (x.1, x.2.woken) else condOf s g :=
    foldl_view (view := condOf) (f := fun s g => mwaitEnd g 32 s) (fun x => by rw [woken_woken])
      (fun s x g => condOf_mwaitEnd s 32 x g) _ s g
  rw [hk] at hv
  split at hv
  · obtain ⟨x, -, hx⟩ := Option.map_eq_some_iff.mp hv.symm
    obtain ⟨-, hc⟩ := Prod.mk.inj hx
    rw [← hc]
    exact woken_ne_mwait _ _ _ _
  · next hm =>
    obtain ⟨e0, he, hx⟩ := Option.map_eq_some_iff.mp hv.symm
    obtain ⟨hc, -⟩ := Prod.mk.inj hx
    exact absurd (hc ▸ mem_ctxGroups he) hm

/-! ### Shootdowns (R129) -/

/-- No translation of a context is cached, and no base register of it holds a run of pages. -/
structure NoRuns (c : Nat) (s : State) : Prop where
  tlb : ∀ x ∈ s.tlb, x.1 / 2 ^ 64 ≠ c
  btlb : ∀ x ∈ s.btlb, x.1 / 2 ^ 64 ≠ c
  runs : ∀ u ∈ s.teams, u.ctx = c → ∀ g ∈ u.groups, ∀ x ∈ g.b, x.2.run = 0

theorem noRuns_modGroup {c : Nat} {s : State} {f : Group → Group} (hf : ∀ g, (f g).b = g.b) (gid : Gid) (h : NoRuns c s) :
    NoRuns c (modGroup gid f s) := by
  refine ⟨h.tlb, h.btlb, fun u hu hc g hg x hx => ?_⟩
  obtain ⟨t, ht, rfl⟩ := List.mem_map.mp hu
  by_cases hid : t.uid = gid.team
  · rw [if_pos hid] at hc hg
    obtain ⟨g0, hg0, rfl⟩ := List.mem_map.mp hg
    refine h.runs t ht hc g0 hg0 x ?_
    split at hx
    · rwa [hf] at hx
    · exact hx
  · rw [if_neg hid] at hc hg
    exact h.runs t ht hc g hg x hx

theorem marks_b (b : Bool) (ds : List RegDst) (g : Group) : (g.marks b ds).b = g.b := by rw [marks_rest]

theorem noRuns_abortRegion {c : Nat} {s : State} (gid : Gid) (h : NoRuns c s) : NoRuns c (abortRegion gid s) := by
  refine noRuns_modGroup (fun g => ?_) gid (noRuns_modGroup (marks_b _ _) gid ⟨h.tlb, h.btlb, h.runs⟩)
  split <;> rfl

theorem noRuns_replayLost {c d : Nat} {s : State} (gid : Gid) (h : NoRuns c s) : NoRuns c (replayLost d s gid) := by
  unfold replayLost
  split
  · exact h
  · split
    · exact h
    · split
      · exact h
      · refine noRuns_modGroup ?_ gid (noRuns_abortRegion gid h)
        exact fun _ => rfl

/-- A group whose base registers hold no run of pages. -/
def Group.dropRuns (g : Group) : Group := { g with b := g.b.map fun (k, r) => (k, { r with run := 0 }) }

theorem noRuns_drop (c : Nat) (s : State) : NoRuns c { dropTlb s c with
    teams := s.teams.map fun t => if t.ctx = c then { t with groups := t.groups.map Group.dropRuns } else t } := by
  refine ⟨fun x hx => of_decide_eq_true (List.mem_filter.mp hx).2, fun x hx => of_decide_eq_true (List.mem_filter.mp hx).2,
    fun u hu hc g hg x hx => ?_⟩
  obtain ⟨t, ht, rfl⟩ := List.mem_map.mp hu
  by_cases hid : t.ctx = c
  · rw [if_pos hid] at hg
    obtain ⟨g0, -, rfl⟩ := List.mem_map.mp hg
    obtain ⟨y, -, rfl⟩ := List.mem_map.mp hx
    rfl
  · rw [if_neg hid] at hc
    exact absurd hc hid

theorem noRuns_shootdownStep {c : Nat} {s : State} (h : translatedWork s c = false) : NoRuns c (shootdownStep c s) := by
  rw [shootdownStep, if_neg (ne_true_of_eq_false h)]
  exact List.foldlRecOn (motive := NoRuns c) _ _ (noRuns_drop c s) fun t ht gid _ => noRuns_replayLost gid ht

end Sys2Proof.Machine
end

section
/-! SUPPORT. Contexts made, killed and restored (O55). -/

namespace Sys2Proof.Machine

open Claims

/-! ### The state of a context (R417) -/

/-- A field of a context that no event changes. -/
theorem Ctx.field_eq {α : Type} (f : Ctx → α) (hf : ∀ x, f x.noEvents = f x) {x y : Ctx} (h : x.noEvents = y.noEvents) :
    f x = f y := (hf x).symm.trans ((congrArg f h).trans (hf y))

/-- A context in another state. -/
def Ctx.inState (x : Ctx) (st : CtxSt) : Ctx :=
  { x with st := st, req := x.req && (match st with | .saved | .drained | .killed => false | _ => true) }

theorem setCtxState_eq (c : Nat) (st : CtxSt) (s : State) : setCtxState c st s =
    postEvent c evState [BitVec.ofNat 64 st.code] (s.setCtx c ((s.ctx c).inState st)) := rfl

theorem setCtxState_sameButEvents (c : Nat) (st : CtxSt) (s : State) :
    SameButEvents (s.setCtx c ((s.ctx c).inState st)) (setCtxState c st s) := postEvent_sameButEvents ..

/-- The context is in that state, and else as it was but for its events. -/
theorem ctx_setCtxState (c : Nat) (st : CtxSt) (s : State) :
    ((setCtxState c st s).ctx c).noEvents = ((s.ctx c).inState st).noEvents := by
  rw [(setCtxState_sameButEvents c st s).ctx c, State.ctx_setCtx_self]

theorem st_setCtxState (c : Nat) (st : CtxSt) (s : State) : ((setCtxState c st s).ctx c).st = st :=
  Ctx.field_eq Ctx.st (fun _ => rfl) (ctx_setCtxState c st s)

/-! ### Contexts made (R417) -/

/-- A context as it is made. -/
def Ctx.made (x : Ctx) (sys : Bool) : Ctx :=
  { x with sys := sys, fences := [], cmr := 0, log := [], measReqs := [], images := [], unloads := [], reqAgain := none
           req := false, progs := [] }

theorem createStep_of_absent {s : State} {c : Nat} (sys : Bool) (hb : s.boot.started = true) (hc : c < 240)
    (hr : ¬ resident s c) (hg : ∀ x ∈ s.grids, x.2.ctx ≠ c) :
    createStep c sys s = setCtxState c .running (s.setCtx c ((s.ctx c).made sys)) := by
  refine if_neg ?_
  rintro (h | h | h | h)
  · rw [hb] at h
    exact Bool.false_ne_true h
  · omega
  · obtain ⟨t, ht, he⟩ := List.any_eq_true.mp h
    exact hr ⟨t, ht, beq_iff_eq.mp he⟩
  · obtain ⟨x, hx, he⟩ := List.any_eq_true.mp h
    exact hg x hx (beq_iff_eq.mp he)

/-- A made context, but for the event that says so. -/
theorem ctx_made (s : State) (c : Nat) (sys : Bool) :
    ((setCtxState c .running (s.setCtx c ((s.ctx c).made sys))).ctx c).noEvents =
      (((s.ctx c).made sys).inState .running).noEvents := by
  rw [ctx_setCtxState, State.ctx_setCtx_self]

/-! ### Contexts killed (R417, R427) -/

/-- Nothing of a context runs: it has no grid, and every group of its teams has ended. -/
structure Stopped (c : Nat) (s : State) : Prop where
  grids : ∀ x ∈ s.grids, x.2.ctx ≠ c
  groups : ∀ u ∈ s.teams, u.ctx = c → ∀ g ∈ u.groups, g.cond = .ended

/-- A killed context, of which nothing is left to be restored. -/
structure Killed (c : Nat) (s : State) : Prop extends Stopped c s where
  st : (s.ctx c).st = .killed
  images : (s.ctx c).images = []
  progs : (s.ctx c).progs = []

/-- A group that has come to its end. -/
def Group.stop (g : Group) : Group := { g with cond := .ended, region := none }

/-- The first step of a kill: no group of the context issues again. -/
def stopCtx (c : Nat) (s : State) : State :=
  let s := withdrawPending c s
  { s with
    teams := s.teams.map fun t => if t.ctx = c then { t with groups := t.groups.map Group.stop } else t
    regx := s.regx.filter fun r => !(s.team? r.g.team).any fun t => t.ctx == c
    grids := s.grids.filter fun (_, g) => g.ctx ≠ c
    gridOrder := s.gridOrder.filter fun i => !(Assoc.get? s.grids i).any fun g => g.ctx == c }

/-- A context of which nothing is left to be restored. -/
def Ctx.emptied (x : Ctx) : Ctx :=
  { x with images := [], reqAgain := none, progs := [], queues := x.queues.map fun (q, y) => (q, { y with st := .idle }) }

theorem killCtx_eq {c : Nat} {s : State} (h : (s.ctx c).st ≠ .killed) : killCtx c s =
    let t := declineAll c (stopCtx c s)
    (t.ctx c).unloads.foldl (fun s u => unloadNow c u.1 s) (setCtxState c .killed (t.setCtx c (t.ctx c).emptied)) := by
  rw [killCtx, if_neg h]
  rfl

theorem stopped_stopCtx (c : Nat) (s : State) : Stopped c (stopCtx c s) := by
  refine ⟨fun x hx => of_decide_eq_true (List.mem_filter.mp hx).2, fun u hu hc g hg => ?_⟩
  obtain ⟨t, ht, rfl⟩ := List.mem_map.mp hu
  by_cases hid : t.ctx = c
  · rw [if_pos hid] at hg
    obtain ⟨g0, -, rfl⟩ := List.mem_map.mp hg
    rfl
  · rw [if_neg hid] at hc
    exact absurd hc hid

/-- An answer reaches no group that has ended. -/
theorem answerGroup_of_stopped {c : Nat} {s : State} (h : Stopped c s) (ord : Nat) (decline : Bool) (gid : Gid) :
    answerGroup c ord decline s gid = s := by
  unfold answerGroup
  split
  · rfl
  · next e he =>
    obtain ⟨ht, hg, -, -⟩ := env?_eq he
    split
    · next o va acc lane rgn hc =>
      refine if_pos (Or.inl fun hctx => ?_)
      have hend := h.groups e.team (List.mem_of_find?_eq_some ht) hctx e.grp (List.mem_of_find?_eq_some hg)
      rw [hc] at hend
      cases hend
    · rfl

theorem stopped_setCtx {c d : Nat} {s : State} (h : Stopped c s) (x : Ctx) : Stopped c (s.setCtx d x) := ⟨h.grids, h.groups⟩

theorem stopped_answerFault {c : Nat} {s : State} (h : Stopped c s) (ord : Nat) (decline : Bool) :
    Stopped c (answerFault c ord decline s) := by
  unfold answerFault
  dsimp only
  split
  · exact h
  · refine List.foldlRecOn (motive := Stopped c) _ _ (stopped_setCtx h _) fun t ht gid _ => ?_
    rw [answerGroup_of_stopped ht]
    exact ht

theorem stopped_declineAll {c : Nat} {s : State} (h : Stopped c s) : Stopped c (declineAll c s) := by
  refine List.foldlRecOn (motive := Stopped c) _ _ h fun t ht f _ => ?_
  split
  · exact stopped_answerFault ht ..
  · exact ht

/-- Events wake no group. -/
theorem Stopped.of_sameButEvents {c : Nat} {s t : State} (h : Stopped c s) (k : SameButEvents s t) : Stopped c t := by
  refine ⟨k.grids ▸ h.grids, fun u hu hc g hg => ?_⟩
  obtain ⟨w, hw, hq⟩ := k.mem_teams hu
  have hwc : w.ctx = u.ctx := (congrArg Team.ctx hq : w.quiet.ctx = u.quiet.ctx)
  have hgs : w.groups.map Group.quiet = u.groups.map Group.quiet := congrArg Team.groups hq
  obtain ⟨g', hg', he⟩ := List.mem_map.mp (hgs ▸ List.mem_map_of_mem hg : g.quiet ∈ w.groups.map Group.quiet)
  have hcond : g'.cond = g.cond := (congrArg Group.cond he : g'.quiet.cond = g.quiet.cond)
  exact hcond.symm.trans (h.groups w hw (hwc.trans hc) g' hg')

theorem killed_unloadNow {c ord : Nat} {s : State} (h : Killed c s) : Killed c (unloadNow c ord s) := by
  refine ⟨stopped_setCtx h.toStopped _, ?_, ?_, ?_⟩
  all_goals rw [unloadNow, State.ctx_setCtx_self]
  · exact h.st
  · exact h.images
  · exact h.progs

theorem killed_killCtx {c : Nat} {s : State} (h : (s.ctx c).st ≠ .killed) : Killed c (killCtx c s) := by
  rw [killCtx_eq h]
  dsimp only
  have hs : Stopped c (declineAll c (stopCtx c s)) := stopped_declineAll (stopped_stopCtx c s)
  generalize declineAll c (stopCtx c s) = t at hs ⊢
  refine List.foldlRecOn (motive := Killed c) _ _ ?_ fun u hu x _ => killed_unloadNow hu
  have hx := ctx_setCtxState c .killed (t.setCtx c (t.ctx c).emptied)
  rw [State.ctx_setCtx_self] at hx
  exact ⟨(stopped_setCtx (stopped_setCtx hs _) _).of_sameButEvents (setCtxState_sameButEvents ..), st_setCtxState ..,
    Ctx.field_eq Ctx.images (fun _ => rfl) hx, Ctx.field_eq Ctx.progs (fun _ => rfl) hx⟩

theorem killed_codeGoneKill {c : Nat} {s : State} (i : Image) (h : (s.ctx c).st ≠ .killed) : Killed c (codeGoneKill c i s) := by
  refine killed_killCtx ?_
  rwa [(postEvent_sameButEvents ..).ctxSt]

/-- A context that holds saved teams. -/
def Ctx.rebinds (x : Ctx) : Prop := x.st = .saved ∨ x.st = .drained ∨ x.st = .restoring

theorem Ctx.rebinds_iff (x : Ctx) : (x.st == .saved || x.st == .drained || x.st == .restoring) = true ↔ x.rebinds := by
  simp only [Bool.or_eq_true, beq_iff_eq, or_assoc, Ctx.rebinds]

theorem Ctx.rebinds.ne_killed {x : Ctx} (h : x.rebinds) : x.st ≠ .killed := by
  rcases h with h | h | h <;> rw [h] <;> decide

theorem goneStep_of_gone {s : State} {c k : Nat} {i : Image} (hi : Assoc.get? (s.ctx c).images k = some i)
    (hg : i.codeGone (s.ctx c) = true) (hst : (s.ctx c).rebinds) : goneStep c k s = codeGoneKill c i s := by
  have hb : (i.codeGone (s.ctx c) && ((s.ctx c).st == .saved || (s.ctx c).st == .drained || (s.ctx c).st == .restoring)) =
      true := by rw [hg, Bool.true_and]; exact (Ctx.rebinds_iff _).mpr hst
  rw [goneStep, hi]
  exact if_pos hb

/-! ### Restores (R423) -/

/-- The context is RESTORING from now on. -/
def opened (c : Nat) (s : State) : State := if (s.ctx c).st = .restoring then s else setCtxState c .restoring s

theorem restoreStep_of_other_stepping {s : State} {c : Nat} (binds : List RestoreBind) (hst : (s.ctx c).rebinds)
    (h : ∃ i ∈ (s.ctx c).images, i.2.fitsStepping = false) : restoreStep c binds s = refuseImages c s := by
  obtain ⟨i, hi, hf⟩ := h
  have ha : ((s.ctx c).images.any fun i => !i.2.fitsStepping) = true := List.any_eq_true.mpr ⟨i, hi, by rw [hf]; rfl⟩
  rw [restoreStep, if_neg (by rw [(Ctx.rebinds_iff _).mpr hst]; decide)]
  exact if_pos ha

section
variable {s : State} {c : Nat} {binds : List RestoreBind} (hst : (s.ctx c).rebinds)
  (hfit : ∀ i ∈ (s.ctx c).images, i.2.fitsStepping = true)
include hst hfit

theorem restoreStep_of_fits : restoreStep c binds s =
    if binds.isEmpty then
      if restoreDone s c && (s.ctx c).images.isEmpty then endRestoring c (opened c s) else opened c s
    else if (binds.filterMap (rebindOf s c)).length ≠ binds.length || !wholeCluster s c (binds.filterMap (rebindOf s c)) then s
    else bindCluster c (binds.filterMap (rebindOf s c)) s := by
  have ha : ¬ ((s.ctx c).images.any fun i => !i.2.fitsStepping) = true := by
    intro h
    obtain ⟨i, hi, hf⟩ := List.any_eq_true.mp h
    rw [hfit i hi] at hf
    exact Bool.false_ne_true hf
  rw [restoreStep, if_neg (by rw [(Ctx.rebinds_iff _).mpr hst]; decide)]
  exact if_neg ha

theorem restoreStep_of_cluster (hb : binds ≠ []) (hl : (binds.filterMap (rebindOf s c)).length = binds.length)
    (hw : wholeCluster s c (binds.filterMap (rebindOf s c)) = true) :
    restoreStep c binds s = bindCluster c (binds.filterMap (rebindOf s c)) s := by
  rw [restoreStep_of_fits hst hfit, if_neg (by simpa using hb), if_neg (by simp [hl, hw])]

theorem restoreStep_of_none (hd : restoreDone s c = true) (hi : (s.ctx c).images = []) :
    restoreStep c [] s = endRestoring c (opened c s) := by
  have hb : (restoreDone s c && (s.ctx c).images.isEmpty) = true := by rw [hd, hi]; rfl
  exact (restoreStep_of_fits hst hfit).trans ((if_pos rfl).trans (if_pos hb))

end

theorem reqAgain_opened (c : Nat) (s : State) : ((opened c s).ctx c).reqAgain = (s.ctx c).reqAgain := by
  unfold opened
  split
  · rfl
  · exact (Ctx.field_eq Ctx.reqAgain (fun _ => rfl) (ctx_setCtxState c .restoring s) :)

/-- With no request made meanwhile, the context runs again. -/
theorem st_endRestoring {c : Nat} {s : State} (h : (s.ctx c).reqAgain = none) : ((endRestoring c s).ctx c).st = .running := by
  have hr : ((setCtxState c .running s).ctx c).reqAgain = none :=
    (Ctx.field_eq Ctx.reqAgain (fun _ => rfl) (ctx_setCtxState c .running s)).trans h
  rw [endRestoring, hr]
  exact st_setCtxState ..

/-! ### A cluster bound again -/

/-- An entry that does not grant what its team held is refused (R423). -/
def refuseRebind (s : State) (r : Rebind) : State :=
  refuseEntry r.b.core r.b.entry (s.setSlot r.b.core r.b.entry ⟨BitVec.ofNat 256 r.b.v &&& slotMask, .pending⟩)

/-- VALID is set in the entry of a rebind. -/
def Rebind.valid (r : Rebind) : Prop := (BitVec.ofNat 256 r.b.v &&& slotMask).getLsbD 0 = true

theorem rebindOf_valid {s : State} {c : Nat} {x : RestoreBind} {r : Rebind} (h : rebindOf s c x = some r) : r.valid := by
  unfold rebindOf at h
  split at h
  · next i b _ hb =>
    split at h
    · next hc =>
      obtain ⟨-, -, -, -, hbit, -⟩ := hc
      cases h
      obtain ⟨g, -, rfl⟩ := Option.map_eq_some_iff.mp hb
      rw [Rebind.valid, BitVec.ofNat_toNat, BitVec.setWidth_eq, BitVec.getLsbD_and, hbit]
      rfl
    · cases h
  · cases h

theorem slot_refuseRebind {r : Rebind} (h : r.valid) (s : State) (d m : Nat) : (refuseRebind s r).slot d m =
    if d * 64 + m = r.b.core * 64 + r.b.entry then ⟨BitVec.ofNat 256 r.b.v &&& slotMask, .refused⟩ else s.slot d m := by
  rw [refuseRebind, slot_refuseEntry, slot_moveSlot]
  split
  · rw [State.slot_setSlot_key, if_pos rfl, Slot.settle]
    exact if_pos h
  · next hk => rw [State.slot_setSlot_key, if_neg hk]

/-- Every refused entry says so. -/
theorem slot_foldl_refuseRebind {rs : List Rebind} (hv : ∀ r ∈ rs, r.valid) (s : State) :
    ∀ r ∈ rs, ((rs.foldl refuseRebind s).slot r.b.core r.b.entry).st = .refused := by
  induction rs generalizing s with
  | nil => exact fun r hr => absurd hr List.not_mem_nil
  | cons x rs ih =>
    have hrs : ∀ r ∈ rs, r.valid := fun r hr => hv r (List.mem_cons_of_mem _ hr)
    intro r hr
    rw [List.foldl_cons]
    rcases List.mem_cons.mp hr with rfl | hr
    · refine List.foldlRecOn (motive := fun t : State => (t.slot r.b.core r.b.entry).st = .refused) rs _ ?_ fun t ht y hy => ?_
      · rw [slot_refuseRebind (hv r List.mem_cons_self), if_pos rfl]
      · rw [slot_refuseRebind (hrs y hy)]
        split
        · rfl
        · exact ht
    · exact ih hrs _ r hr

theorem refuseEntry_teams (core n : Nat) (s : State) : (refuseEntry core n s).teams = s.teams := rfl

theorem refuseRebind_teams (s : State) (r : Rebind) : (refuseRebind s r).teams = s.teams := by
  rw [refuseRebind, refuseEntry_teams, State.setSlot_teams]

theorem foldl_refuseRebind_teams (rs : List Rebind) (s : State) : (rs.foldl refuseRebind s).teams = s.teams :=
  List.foldlRecOn (motive := fun t : State => t.teams = s.teams) rs _ rfl fun t ht r _ => (refuseRebind_teams t r).trans ht

theorem bindCluster_of_gone {c : Nat} {rs : List Rebind} {s : State} {r : Rebind}
    (h : rs.find? (fun r => r.img.codeGone (s.ctx c)) = some r) : bindCluster c rs s = codeGoneKill c r.img s := by
  rw [bindCluster, h]

section
variable {c : Nat} {rs : List Rebind} {s : State} (hcode : ∀ r ∈ rs, r.img.codeGone (s.ctx c) = false)
  (hheld : imagesHeld s rs = false) (hruin : ∀ r ∈ rs, imageRuined s r.img = false)
include hcode hheld hruin

/-- Images that can be read and whose code is there: the entries decide. -/
theorem bindCluster_of_sound : bindCluster c rs s =
    if rs.any fun r => r.refused s then (rs.filter fun r => r.refused s).foldl refuseRebind s
    else if rs.all fun r => r.b.free s (r.need s) then rs.foldl bindSaved (opened c s) else s := by
  have hf : rs.find? (fun r => r.img.codeGone (s.ctx c)) = none :=
    List.find?_eq_none.mpr fun r hr => by rw [hcode r hr]; decide
  have hr : ¬ (rs.any fun r => imageRuined s r.img) = true := by
    intro h
    obtain ⟨r, hr, hi⟩ := List.any_eq_true.mp h
    rw [hruin r hr] at hi
    exact Bool.false_ne_true hi
  rw [bindCluster, hf]
  dsimp only
  rw [if_neg (ne_true_of_eq_false hheld), if_neg hr]
  rfl

theorem bindCluster_binds (h : ∀ r ∈ rs, r.refused s = false ∧ r.b.free s (r.need s) = true) :
    bindCluster c rs s = rs.foldl bindSaved (opened c s) := by
  rw [bindCluster_of_sound hcode hheld hruin, if_neg, if_pos (List.all_eq_true.mpr fun r hr => (h r hr).2)]
  intro ha
  obtain ⟨r, hr, hx⟩ := List.any_eq_true.mp ha
  exact Bool.false_ne_true ((h r hr).1.symm.trans hx)

theorem bindCluster_waits (h : ∀ r ∈ rs, r.refused s = false) (hn : ∃ r ∈ rs, r.b.free s (r.need s) = false) :
    bindCluster c rs s = s := by
  obtain ⟨x, hx, hxf⟩ := hn
  rw [bindCluster_of_sound hcode hheld hruin, if_neg, if_neg]
  · intro ha
    exact Bool.false_ne_true (hxf.symm.trans (List.all_eq_true.mp ha x hx))
  · intro ha
    obtain ⟨r, hr, hy⟩ := List.any_eq_true.mp ha
    exact Bool.false_ne_true ((h r hr).symm.trans hy)

theorem bindCluster_refuses (h : ∃ r ∈ rs, r.refused s = true) :
    bindCluster c rs s = (rs.filter fun r => r.refused s).foldl refuseRebind s := by
  rw [bindCluster_of_sound hcode hheld hruin, if_pos (List.any_eq_true.mpr h)]

end

theorem bindSaved_teams (s : State) (r : Rebind) : (bindSaved s r).teams = s.teams ++ [r.team (setBounds r.b.core r.b.kd r.b.nwin
    (s.setSlot r.b.core r.b.entry ⟨BitVec.ofNat 256 r.b.v &&& slotMask, .filling⟩))] := by
  rw [bindSaved]
  dsimp only
  rw [setBounds_keeps State.teams fun _ _ _ => rfl]
  rfl

/-! ### Entries of saved teams -/

theorem saved_b {b : BindRec} {s : State} {r : Rebind} (h : b.saved s = some r) : r.b = b := by
  obtain ⟨x, -, rfl⟩ := Option.map_eq_some_iff.mp h
  rfl

theorem dispatchStep_of_saved {s : State} {core n : Nat} {b : BindRec} {r : Rebind} (hb : pendingBind s core n = some b)
    (hr : b.saved s = some r) (hlow : savedBelow s core n = false) (hfirst : firstReady s core n = true)
    (hres : restorable s b.g.ctx = true) (hfit : ∀ i ∈ (s.ctx b.g.ctx).images, i.2.fitsStepping = true)
    (hw : wholeCluster s b.g.ctx (r.mates s) = true) :
    dispatchStep core n s = bindCluster b.g.ctx (r.mates s) s := by
  have hsome : ((pendingBind s core n).bind fun b => b.saved s) = some r := by rw [hb]; exact hr
  have ha : ¬ ((s.ctx b.g.ctx).images.any fun i => !i.2.fitsStepping) = true := by
    intro h
    obtain ⟨i, hi, hf⟩ := List.any_eq_true.mp h
    rw [hfit i hi] at hf
    exact Bool.false_ne_true hf
  rw [dispatchStep, if_neg (ne_true_of_eq_false hlow), hsome]
  dsimp only
  rw [if_pos hfirst, bindSavedEntry, saved_b hr]
  rw [hres, if_neg (by decide), if_neg ha, if_pos hw]

/-! ### Unloads (R426, R427) -/

theorem unloadNow_log (c ord : Nat) (s : State) : ((unloadNow c ord s).ctx c).log =
    (s.ctx c).log.map fun m => if m.ordinal = ord then { m with inUse := false } else m := by
  rw [unloadNow, State.ctx_setCtx_self]

/-- Code that is unloaded is no longer in use. -/
theorem inUse_unloadNow {c ord : Nat} {s : State} {n : Measured} (h : n ∈ ((unloadNow c ord s).ctx c).log)
    (ho : n.ordinal = ord) : n.inUse = false := by
  rw [unloadNow_log] at h
  obtain ⟨m, -, rfl⟩ := List.mem_map.mp h
  split at ho
  · next hm => rw [if_pos hm]
  · next hm => exact absurd ho hm

section
variable {s : State} {c ord : Nat} {m : Measured}
  (hm : (s.ctx c).log.find? (fun m => m.ordinal == ord && m.inUse) = some m)
include hm

theorem unloadStep_at_once {forced : Bool} (h : forced = true ∨ ∀ x ∈ (s.ctx c).images, x.2.pointsInto m = false) :
    unloadStep c ord forced s = unloadNow c ord s := by
  have hu : (forced || (((s.ctx c).images.filter fun (_, i) => i.pointsInto m).map (·.1)).isEmpty) = true := by
    rcases h with h | h
    · rw [h, Bool.true_or]
    · rw [List.filter_eq_nil_iff.mpr fun x hx => ne_true_of_eq_false (h x hx)]
      exact Bool.or_true _
  rw [unloadStep, hm]
  exact if_pos hu

theorem unloadStep_defers (h : ∃ x ∈ (s.ctx c).images, x.2.pointsInto m = true) (hn : ∀ u ∈ (s.ctx c).unloads, u.1 ≠ ord) :
    unloadStep c ord false s = postEvent c evDefer [BitVec.ofNat 64 ord] (s.setCtx c { s.ctx c with
      unloads := (s.ctx c).unloads ++ [(ord, ((s.ctx c).images.filter fun x => x.2.pointsInto m).map (·.1))] }) := by
  have hu : ¬ (false || (((s.ctx c).images.filter fun (_, i) => i.pointsInto m).map (·.1)).isEmpty) = true := by
    obtain ⟨x, hx, hp⟩ := h
    rw [Bool.false_or, List.isEmpty_iff, List.map_eq_nil_iff, List.filter_eq_nil_iff]
    exact fun h => h x hx hp
  have ha : ¬ ((s.ctx c).unloads.any fun u => u.1 == ord) = true := by
    intro h
    obtain ⟨u, hu, he⟩ := List.any_eq_true.mp h
    exact hn u hu (beq_iff_eq.mp he)
  rw [unloadStep, hm]
  dsimp only
  rw [if_neg hu, if_neg ha]

end

/-- Settles O55: restores by the branch each case takes, a killed context by `killed_killCtx`, a shootdown by what it keeps
on its way, a resume and a wake by what each does to one group. -/
theorem contextsAndRestores : Obligations.ContextsAndRestores := by
  unfold Obligations.ContextsAndRestores
  refine ⟨⟨?restore, ?dispatch, ?gone, ?bound⟩, ?create, ?kill, ?unload, ?shootdown, ?resume, ?wake⟩
  case restore =>
    intro s c binds x rs hst
    refine ⟨fun h => congrArg Host.Outcome.next (restoreStep_of_other_stepping binds hst h), fun hfit => ⟨?_, ?_, ?_⟩⟩
    · intro hb hl hw hcode hheld hruin
      have he : exec (.restore c binds) s = .next (bindCluster c rs s) :=
        congrArg Host.Outcome.next (restoreStep_of_cluster hst hfit hb hl hw)
      rw [he]
      refine ⟨fun h => congrArg Host.Outcome.next (bindCluster_binds hcode hheld hruin h),
        fun h hn => congrArg Host.Outcome.next (bindCluster_waits hcode hheld hruin h hn), fun h => ?_⟩
      rw [bindCluster_refuses hcode hheld hruin h]
      refine ⟨_, rfl, foldl_refuseRebind_teams .., fun r hr href => ?_⟩
      refine slot_foldl_refuseRebind (fun y hy => ?_) s r (List.mem_filter.mpr ⟨hr, href⟩)
      obtain ⟨z, -, hz⟩ := List.mem_filterMap.mp (List.mem_of_mem_filter hy)
      exact rebindOf_valid hz
    · intro r hb hl hw hf
      exact congrArg Host.Outcome.next ((restoreStep_of_cluster hst hfit hb hl hw).trans (bindCluster_of_gone hf))
    · rintro rfl hd hi hr
      refine ⟨_, congrArg Host.Outcome.next (restoreStep_of_none hst hfit hd hi), st_endRestoring ?_⟩
      exact (reqAgain_opened c s).trans hr
  case dispatch =>
    intro s core n b r hb hr hlow hfirst hres hfit hw
    exact congrArg Host.Outcome.next (dispatchStep_of_saved hb hr hlow hfirst hres hfit hw)
  case gone =>
    intro s c k i hi hg hst
    have hk := killed_codeGoneKill i (Ctx.rebinds.ne_killed hst)
    exact ⟨_, congrArg Host.Outcome.next (goneStep_of_gone hi hg hst), hk.st, hk.images⟩
  case bound =>
    intro s r
    exact ⟨_, bindSaved_teams s r, rfl, rfl, rfl, rfl, rfl, rfl, rfl, rfl, rfl, rfl, rfl, rfl⟩
  case create =>
    intro s c sys hb hc hr hg
    have hx := ctx_made s c sys
    exact ⟨_, congrArg Host.Outcome.next (createStep_of_absent sys hb hc hr hg), st_setCtxState ..,
      Ctx.field_eq Ctx.sys (fun _ => rfl) hx, Ctx.field_eq Ctx.fences (fun _ => rfl) hx, Ctx.field_eq Ctx.cmr (fun _ => rfl) hx,
      Ctx.field_eq Ctx.log (fun _ => rfl) hx, Ctx.field_eq Ctx.images (fun _ => rfl) hx,
      Ctx.field_eq Ctx.progs (fun _ => rfl) hx, (Ctx.field_eq Ctx.ptRoot (fun _ => rfl) hx :)⟩
  case kill =>
    intro s c hc hst
    have hk := killed_killCtx hst
    exact ⟨_, congrArg Host.Outcome.next (if_pos hc), hk.st, hk.images, hk.progs, hk.grids, hk.groups⟩
  case unload =>
    intro s c ord m forced hm
    refine ⟨fun h => ⟨_, congrArg Host.Outcome.next (unloadStep_at_once hm h), fun n hn ho => inUse_unloadNow hn ho⟩, ?_⟩
    rintro rfl h hn
    have hx := (postEvent_sameButEvents c evDefer [BitVec.ofNat 64 ord] (s.setCtx c { s.ctx c with
      unloads := (s.ctx c).unloads ++ [(ord, ((s.ctx c).images.filter fun x => x.2.pointsInto m).map (·.1))] })).ctx c
    rw [State.ctx_setCtx_self] at hx
    exact ⟨_, congrArg Host.Outcome.next (unloadStep_defers hm h hn), (Ctx.field_eq Ctx.log (fun _ => rfl) hx :),
      (Ctx.field_eq Ctx.unloads (fun _ => rfl) hx :)⟩
  case shootdown =>
    intro s c
    refine ⟨fun h => congrArg Host.Outcome.next (if_pos h), fun h => ?_⟩
    have hn := noRuns_shootdownStep h
    exact ⟨_, rfl, hn.tlb, hn.btlb, hn.runs⟩
  case resume =>
    intro s c gid e replay he hc hh _ _
    refine ⟨_, rfl, ?_⟩
    rw [← hc, ← resume_halted hh]
    exact groupOf_resumeHalted he
  case wake =>
    intro s c
    refine ⟨_, rfl, fun g e limit d sc he hc => ?_⟩
    rw [← hc] at he
    exact awake_wakeMwaits he limit d sc

end Sys2Proof.Machine
end

section
/-! SUPPORT. Barrier objects (O36, O37): the rules of a phase, the word an object is kept in, and the barrier instructions
on the object they name. -/

namespace Sys2Proof.Machine

open Claims

/-! ### Phases (R141) -/

/-- A phase completes once every expected arrival and every expected byte is in (R141). -/
theorem Barrier.check_of_complete {b : Barrier} (h : b.ovf = false ∧ b.arr = b.expecta ∧ b.pend = 0) :
    b.check = ({ b with perr := b.err, err := false, arr := 0, phase := !b.phase }, true) := by
  obtain ⟨ho, ha, hp⟩ := h
  exact if_pos (by simp [ho, ha, hp])

theorem Barrier.check_of_incomplete {b : Barrier} (h : ¬ (b.ovf = false ∧ b.arr = b.expecta ∧ b.pend = 0)) :
    b.check = (b, false) :=
  if_neg fun hc => h (by simpa [and_assoc] using hc)

theorem Barrier.arrive_of_expected {b : Barrier} {c : Nat} (h : b.arr + c ≤ b.expecta) :
    b.arrive c = ({ b with arr := b.arr + c } : Barrier).check := by
  rw [Barrier.arrive, if_neg (Nat.not_lt.mpr h)]

/-- More arrivals than are expected overflow the object, and its phase never completes (R141). -/
theorem Barrier.arrive_of_overflow {b : Barrier} {c : Nat} (h : b.expecta < b.arr + c) :
    b.arrive c = ({ b with ovf := true }, false) := by
  rw [Barrier.arrive, if_pos h]
  exact Barrier.check_of_incomplete nofun

theorem Barrier.arriveBytes_of_room {b : Barrier} {n : Nat} (err : Bool) (h : -(2 ^ 55 : Int) ≤ b.pend - n) :
    b.arriveBytes n err = (({ b with pend := b.pend - n, err := b.err || err } : Barrier).check).1 := by
  simp only [Barrier.arriveBytes, if_neg (Int.not_lt.mpr h)]

/-! ### The word of an object (R140) -/

theorem b2n_eq (b : Bool) (k : Nat) : b2n b k = b.toNat * 2 ^ k := by
  cases b <;> simp [b2n]

theorem bitAt_of_div {x i : Nat} {b : Bool} (h : x / 2 ^ i % 2 = b.toNat) : bitAt x i = b := by
  rw [bitAt, Nat.testBit_eq_decide_div_mod_eq, h]
  cases b <;> rfl

/-- A signed number in range is read back from its pattern. -/
theorem toSigned_of_mod {w x : Nat} {z : Int} (h : x % 2 ^ w = ofSigned w z) (hlo : -(2 ^ w : Int) ≤ 2 * z)
    (hhi : 2 * z < (2 ^ w : Int)) : toSigned w x = z := by
  have hw : (0 : Int) < 2 ^ w := by positivity
  have hc : ((2 ^ w : Nat) : Int) = 2 ^ w := by push_cast; rfl
  have hx : ((x % 2 ^ w : Nat) : Int) = z % 2 ^ w := by
    rw [h, ofSigned_eq, Int.toNat_of_nonneg (Int.emod_nonneg z hw.ne')]
  unfold toSigned
  dsimp only
  by_cases hz : 0 ≤ z
  · rw [Int.emod_eq_of_lt hz (by omega)] at hx
    split <;> omega
  · have hm : z % 2 ^ w = z + 2 ^ w := by
      rw [← Int.add_emod_right, Int.emod_eq_of_lt (by omega) (by omega)]
    rw [hm] at hx
    split <;> omega

/-- An object written and read back is the same (R140). -/
theorem Barrier.ofNat_toNat {b : Barrier} (hlo : -(2 ^ 55 : Int) ≤ b.pend) (hhi : b.pend < (2 ^ 55 : Int))
    (he : b.expecta < 2 ^ 16) (ha : b.arr < 2 ^ 16) : Barrier.ofNat b.toNat = b := by
  obtain ⟨pend, err, ovf, perr, expecta, arr, phase⟩ := b
  dsimp only at hlo hhi he ha
  have hp : ofSigned 56 pend < 2 ^ 56 := ofSigned_lt ..
  have h1 := Bool.toNat_le err
  have h2 := Bool.toNat_le ovf
  have h3 := Bool.toNat_le perr
  have h4 := Bool.toNat_le phase
  simp only [Barrier.ofNat, Barrier.toNat, b2n_eq, Nat.mod_eq_of_lt he, Nat.mod_eq_of_lt ha, Barrier.mk.injEq, field,
    Nat.shiftRight_eq_div_pow]
  refine ⟨toSigned_of_mod ?_ (by omega) (by omega), bitAt_of_div ?_, bitAt_of_div ?_, bitAt_of_div ?_, ?_, ?_,
    bitAt_of_div ?_⟩ <;> omega

/-- Settles O37: each rule of R141 by its own lemma, the round trip by `Barrier.ofNat_toNat`. -/
theorem barrierPhases : Obligations.BarrierPhases :=
  ⟨fun _ => ⟨Barrier.check_of_complete, Barrier.check_of_incomplete⟩,
    fun _ _ => ⟨Barrier.arrive_of_expected, Barrier.arrive_of_overflow⟩,
    fun _ _ err => Barrier.arriveBytes_of_room err,
    fun _ => Barrier.ofNat_toNat⟩

/-! ### The object an instruction names (R121, R145) -/

/-- An object that is found is seen after its words are read. -/
theorem fixed_of_objectAt {e e' : Env} {f : Slk} {acc n a k : Nat} (h : objectAt e f acc n = .ok (e', a, k)) :
    e' = e.fixed k 16 := by
  unfold objectAt at h
  dsimp only at h
  split at h
  · cases h
  · split at h
    · cases h
    · split at h
      · cases h
      · cases h
        rfl

@[simp] theorem Env.fixed_core (e : Env) (k n : Nat) : (e.fixed k n).core = e.core := rfl

theorem objectAt_core {e e' : Env} {f : Slk} {acc n a k : Nat} (h : objectAt e f acc n = .ok (e', a, k)) :
    e'.core = e.core := by
  rw [fixed_of_objectAt h, Env.fixed_core]

/-! ### Registers after the object's words are read -/

@[simp] theorem countPool_fresh (code : Nat) (s : State) (ws : List Nat) : (countPool code s ws).fresh = s.fresh :=
  List.foldlRecOn (motive := fun t : State => t.fresh = s.fresh) ws _ rfl fun _ ht _ _ => ht

@[simp] theorem poolFix_fresh (s : State) (k n : Nat) : (poolFix s k n).fresh = s.fresh := countPool_fresh ..

theorem Env.reg_fixed (e : Env) (k n slack : Nat) (d : RegDst) : (e.fixed k n).reg slack d = e.reg slack d := by
  unfold Env.reg Env.fixed
  simp only [poolFix_fresh]

theorem Env.wide_fixed (e : Env) (k n l : Nat) (o : Opnd) (m : Nat) : (e.fixed k n).wide l o m = e.wide l o m := by
  induction m with
  | zero => rfl
  | succ m ih => cases o <;> simp only [Env.wide, Env.word, Env.reg_fixed, ih]

/-- Reading a pool's words leaves every register as it was (R121). -/
theorem Env.n32_fixed (e : Env) (k n l : Nat) (o : Opnd) : (e.fixed k n).n32 l (.op o) = e.n32 l (.op o) := by
  simp only [Env.n32, Env.val, Env.wide_fixed]

/-! ### The bodies of the barrier instructions (R143 to R147) -/

/-- The object once `n` bytes more are expected (R144). -/
def Barrier.expecting (b : Barrier) (n : Nat) : Barrier := { b with pend := b.pend + n }

section
variable {f : Slk} {e e' : Env} {a k : Nat}

theorem binitBody_of_ok (h : objectAt e f 1 = .ok (e', a, k)) : binitBody f e =
    .done (putBarrier k ⟨0, false, false, false, e.n32 0 (.op f.s2) % 2 ^ 16, 0, false⟩ e'.st) := by
  rw [binitBody, h, ← Env.n32_fixed e k 16, ← fixed_of_objectAt h]

/-- Expected bytes within the range of PEND are added, and the instruction may arrive (R144). -/
theorem bexpBody_of_room (h : objectAt e f 2 = .ok (e', a, k))
    (hr : (barrierAt e'.st k).pend + e'.n32 0 (.op f.s2) < (2 ^ 55 : Int)) : bexpBody f e =
    .done (putBarrier k (if fOpv f = 1 then ((barrierAt e'.st k).expecting (e'.n32 0 (.op f.s2))).arrive 1
      else ((barrierAt e'.st k).expecting (e'.n32 0 (.op f.s2))).check).1 e'.st) := by
  rw [bexpBody, h]
  exact if_neg (by omega)

theorem bexpBody_of_overflow (h : objectAt e f 2 = .ok (e', a, k))
    (hr : (2 ^ 55 : Int) ≤ (barrierAt e'.st k).pend + e'.n32 0 (.op f.s2)) : bexpBody f e =
    .trap e'.st { cause := 0x08, acc := 2 } := by
  rw [bexpBody, h]
  exact if_pos (by omega)

theorem barvBody_of_ok {r : Barrier × Bool} (h : objectAt e f 2 = .ok (e', a, k))
    (hr : (barrierAt e'.st k).arrive (e'.uni f.s2 1) = r) : barvBody f e = .done (writeLong e' false
      (dstWrites f.d 1 0 (barStatus r.2 (barrierAt e'.st k).phase r.1.perr r.1.ovf)) (putBarrier k r.1 e'.st)) := by
  simp only [barvBody, h, hr]

theorem bwaitBody_of_look {st : Nat} (h : objectAt e f 0 = .ok (e', a, k))
    (hl : barLook (barrierAt e'.st k) (e'.n32 0 (.op f.s2)) = some st) : bwaitBody f e = barLeave f e' st := by
  simp only [bwaitBody, h, hl]

theorem bwaitBody_of_same (h : objectAt e f 0 = .ok (e', a, k))
    (hl : barLook (barrierAt e'.st k) (e'.n32 0 (.op f.s2)) = none) : bwaitBody f e = .wait e'.st .retry := by
  simp only [bwaitBody, h, hl]

theorem btryBody_of_ok (h : objectAt e f 0 = .ok (e', a, k)) : btryBody f e = barLeave f e'
    ((barLook (barrierAt e'.st k) (e'.n32 0 (.op f.s2))).getD
      (barStatus false (barrierAt e'.st k).phase (barrierAt e'.st k).perr false)) := by
  rw [btryBody, h]

theorem bstBody_of_ok (h : objectAt e f 0 = .ok (e', a, k)) : bstBody f e =
    .done (writeLong e' false (dstWrites f.d 4 0 (poolNat e'.st k 16)) e'.st) := by
  rw [bstBody, h]

end

/-! ### One check of an object (R146) -/

theorem barLook_of_ovf {b : Barrier} (p : Nat) (h : b.ovf = true) :
    barLook b p = some (barStatus false b.phase b.perr true) := if_pos h

theorem barLook_of_passed {b : Barrier} {p : Nat} (ho : b.ovf = false) (h : b.phase ≠ p.testBit 0) :
    barLook b p = some (barStatus true b.phase b.perr false) := by
  rw [barLook, ho, if_neg Bool.false_ne_true]
  exact if_neg fun hb => h (eq_of_beq hb)

theorem barLook_of_same {b : Barrier} {p : Nat} (ho : b.ovf = false) (h : b.phase = p.testBit 0) : barLook b p = none := by
  rw [barLook, ho, if_neg Bool.false_ne_true]
  exact if_pos (beq_iff_eq.mpr h)

/-- What `btry` returns of an object without an overflow (R146). -/
theorem barLook_getD {b : Barrier} {p : Nat} (ho : b.ovf = false) :
    (barLook b p).getD (barStatus false b.phase b.perr false) = barStatus (b.phase != p.testBit 0) b.phase b.perr false := by
  by_cases h : b.phase = p.testBit 0
  · rw [barLook_of_same ho h, bne_eq_false_iff_eq.mpr h]
    rfl
  · rw [barLook_of_passed ho h, bne_iff_ne.mpr h]
    rfl

/-- The DONE bit of a status (R142). -/
theorem bitAt_barStatus (done phase perr ovf : Bool) : bitAt (barStatus done phase perr ovf) 0 = done := by
  revert done phase perr ovf
  decide

/-- A status with DONE acquires where ORD asks for it (R146). -/
theorem barLeave_status (f : Slk) (e : Env) (done phase perr ovf : Bool) :
    barLeave f e (barStatus done phase perr ovf) = .done (if done && fOrd f == 1
      then acquire e.core (fScope f) (writeLong e false (dstWrites f.d 1 0 (barStatus done phase perr ovf)) e.st)
      else writeLong e false (dstWrites f.d 1 0 (barStatus done phase perr ovf)) e.st) := by
  rw [barLeave, bitAt_barStatus]

/-! ### Groups that repeat a check (R146, R150) -/

/-- A group that repeats its check is ready to, and no other group is touched. -/
theorem wakeRetry_of_waiting {s : State} {g : Gid} {x : Group} (hg : groupOf s g = some x) (hx : x.cond = .wait .retry) :
    SameOthers s (wakeRetry g s) g ∧ groupOf (wakeRetry g s) g = some { x with cond := .ready } := by
  have hidx (y : Group) : (if y.cond = .wait .retry then { y with cond := .ready } else y).idx = y.idx := by split <;> rfl
  constructor
  · intro h hne
    rw [wakeRetry, wakeFrom, groupOf_modGroup s g h _ hidx]
    simp [hne]
  · rw [wakeRetry, wakeFrom, groupOf_modGroup s g g _ hidx, hg, Option.map_some, if_pos rfl, if_pos hx]

/-- Settles O36: each body on the object found, in the view after the commit and the release, under its acquire. -/
theorem barrierInstructions : Obligations.BarrierInstructions := by
  unfold Obligations.BarrierInstructions
  refine ⟨fun e f acc n e' a k h => fixed_of_objectAt h, ?binit, ?bexp, ?barv, ?look,
    fun s g x hg hx => ⟨_, rfl, wakeRetry_of_waiting hg hx⟩⟩
  case binit =>
    intro s e f e' a k hx hk
    exact concluded_of_executes (body := committing (binitBody f)) hx (binitBody_of_ok hk)
  case bexp =>
    intro s e f e1 e' a k hx hrel hk
    refine ⟨fun hr => ?_, fun hr => ?_⟩ <;> refine concluded_of_executes hx ?_
    · have hb := bexpBody_of_room hk hr
      exact (releasing_of_released_of_not_wait hrel (by rw [hb]; exact done_ne_wait _)).trans hb
    · have hb := bexpBody_of_overflow hk hr
      exact (releasing_of_released_of_not_wait hrel (by rw [hb]; exact trap_ne_wait _ _)).trans hb
  case barv =>
    intro s e f e1 e' a k hx hrel hk
    have hb := barvBody_of_ok hk rfl
    exact concluded_of_executes hx ((releasing_of_released_of_not_wait hrel (by rw [hb]; exact done_ne_wait _)).trans hb)
  case look =>
    intro s e f e' a k hk
    refine ⟨fun hx => ?bwait, fun hx => ?btry, fun hx => ?bst⟩ <;>
      have hcore : e'.core = e.core := (objectAt_core hk).trans (committed_core_of_executes hx)
    case bwait =>
      refine ⟨fun ho => ?_, fun ho hp => ?_, fun ho hp => ?_⟩ <;>
        refine concluded_of_executes (body := committing (bwaitBody f)) hx ?_
      · rw [← hcore]
        exact (bwaitBody_of_look hk (barLook_of_ovf _ ho)).trans (barLeave_status ..)
      · rw [← hcore]
        exact (bwaitBody_of_look hk (barLook_of_passed ho hp)).trans (barLeave_status ..)
      · exact bwaitBody_of_same hk (barLook_of_same ho hp)
    case btry =>
      refine ⟨fun ho => ?_, fun ho => ?_⟩ <;> refine concluded_of_executes (body := committing (btryBody f)) hx ?_ <;>
        rw [← hcore]
      · refine (btryBody_of_ok hk).trans ?_
        rw [barLook_of_ovf _ ho]
        exact barLeave_status ..
      · refine (btryBody_of_ok hk).trans ?_
        rw [barLook_getD ho]
        exact barLeave_status ..
    case bst =>
      refine concluded_of_executes hx ((acquiring_of_done (bstBody_of_ok hk)).trans ?_)
      rw [acquired, acquired, hcore, committed_core_of_executes hx]

end Sys2Proof.Machine
end

section
/-! SUPPORT. Circular buffers (O38): the slots that each operation moves, and the instructions on the object they name. -/

namespace Sys2Proof.Machine

open Claims

/-! ### The slots of a buffer (R149, R150) -/

/-- COUNT is as it was, and the slots do not exceed it (R150). -/
def Cbuf.Within (c d : Cbuf) : Prop := d.count = c.count ∧ d.filled + d.free + d.claimed ≤ d.count

section
variable {c d : Cbuf}

theorem Cbuf.count_le (hl : c.legal = true) : c.count ≤ 256 := (of_decide_eq_true hl).2

/-- A claim moves a free slot to the claimed ones. -/
theorem Cbuf.claim_moves {k : Nat} (hl : c.legal = true) (hs : c.filled + c.free + c.claimed ≤ c.count)
    (h : c.claim = some (d, k)) : c.Within d ∧ d.claimed = c.claimed + 1 := by
  have hc := Cbuf.count_le hl
  unfold Cbuf.claim at h
  split at h
  · cases h
  · cases h
    refine ⟨⟨rfl, ?_⟩, ?_⟩ <;> dsimp only <;> omega

/-- Settling moves claimed slots to the filled ones. -/
theorem Cbuf.settle_moves (n : Nat) {c : Cbuf} (h : c.filled + c.claimed ≤ 256) :
    (Cbuf.settle n c).count = c.count ∧ (Cbuf.settle n c).free = c.free ∧
      (Cbuf.settle n c).filled + (Cbuf.settle n c).claimed = c.filled + c.claimed := by
  induction n generalizing c with
  | zero => exact ⟨rfl, rfl, rfl⟩
  | succ n ih =>
    rw [Cbuf.settle]
    split
    · next hk =>
      have h0 : 0 < c.claimed := of_decide_eq_true (Bool.and_eq_true_iff.mp hk).1
      have hsum : (c.filled + 1) % 512 + (c.claimed - 1) = c.filled + c.claimed := by omega
      obtain ⟨h1, h2, h3⟩ := ih (c := { c with
        ready := setBit c.ready ((c.head + c.filled) % c.count) false
        filled := (c.filled + 1) % 512
        claimed := c.claimed - 1 }) (hsum.trans_le h)
      exact ⟨h1, h2, h3.trans hsum⟩
    · exact ⟨rfl, rfl, rfl⟩

theorem Cbuf.fill_moves {k : Nat} {err : Bool} (hl : c.legal = true) (hs : c.filled + c.free + c.claimed ≤ c.count)
    (h : c.fill k err = some d) : c.Within d ∧ d.filled + d.claimed = c.filled + c.claimed := by
  have hc := Cbuf.count_le hl
  unfold Cbuf.fill at h
  split at h
  · cases h
  · cases h
    obtain ⟨h1, h2, h3⟩ := Cbuf.settle_moves 512
      (c := { c with ready := setBit c.ready k true, errmap := setBit c.errmap k err })
      (show c.filled + c.claimed ≤ 256 by omega)
    dsimp only at h1 h2 h3
    exact ⟨⟨h1, by omega⟩, h3⟩

/-- A take returns the oldest filled slot. -/
theorem Cbuf.take_moves {x : Nat} (hs : c.filled + c.free + c.claimed ≤ c.count) (h : c.take = some (d, x)) :
    c.Within d ∧ x % 256 = c.head % 256 ∧ d.filled + 1 = c.filled := by
  unfold Cbuf.take at h
  split at h
  · cases h
  · cases h
    have hx : b2n (bitAt c.errmap c.head) 8 % 256 = 0 := by cases bitAt c.errmap c.head <;> rfl
    refine ⟨⟨rfl, ?_⟩, by omega, ?_⟩ <;> dsimp only <;> omega

theorem Cbuf.done_moves (hl : c.legal = true) (hs : c.filled + c.free + c.claimed ≤ c.count) (h : c.done = some d) :
    c.Within d ∧ d.free = c.free + 1 := by
  have hc := Cbuf.count_le hl
  unfold Cbuf.done at h
  split at h
  · cases h
  · cases h
    refine ⟨⟨rfl, ?_⟩, ?_⟩ <;> dsimp only <;> omega

end

/-! ### The instructions on the object found (R148 to R150) -/

section
variable {s : State} {f : Slk} {e e0 e1 : Env} {a k : Nat}

/-- A buffer that fits behind its object is laid out there, all its slots free (R148). -/
theorem cbinitBody_of_fits (h : objectAt e f 1 80 = .ok (e1, a, k)) (h0 : 0 < e1.n32 0 (.op f.s2))
    (h16 : e1.n32 0 (.op f.s2) % 16 = 0) (hsz : e1.n32 0 (.op f.s2) ≤ 65520) (hn : 0 < e1.n32 0 (.op f.s3))
    (h256 : e1.n32 0 (.op f.s3) ≤ 256)
    (hw : a % 2 ^ 21 + 80 + e1.n32 0 (.op f.s2) * e1.n32 0 (.op f.s3) ≤ e1.team.window false) :
    cbinitBody f e = .done (putCbuf k
      ⟨a + 80, e1.n32 0 (.op f.s2), e1.n32 0 (.op f.s3), 0, e1.n32 0 (.op f.s3), 0, 0, 0, 0, 0⟩ e1.st) := by
  rw [cbinitBody, h]
  dsimp only
  rw [if_neg (by omega), if_neg (by omega), if_neg (by omega)]

/-- A slot size that is no multiple of 16 bytes from 16 to 65,520 traps (R148). -/
theorem cbinitBody_of_bad_slot (h : objectAt e f 1 80 = .ok (e1, a, k))
    (hsz : e1.n32 0 (.op f.s2) = 0 ∨ e1.n32 0 (.op f.s2) % 16 ≠ 0 ∨ 65520 < e1.n32 0 (.op f.s2)) : cbinitBody f e =
    .trap e1.st { cause := 0x05, detail := 0x04, addr := e1.n32 0 (.op f.s2), acc := 1 } := by
  rw [cbinitBody, h]
  exact if_pos hsz

section
variable (h : objectAt e f 2 80 = .ok (e1, a, k)) (hb : poolBad e1.st (k + 16) 64 = none)
  (hl : (cbufAt e1.st k).legal = true)
include h hb hl

/-- A buffer operation acts on the object and its maps once all their words are read (R121, R150, log 29). -/
theorem cbufBody_of_legal (body : Env → Nat → Cbuf → Res) :
    cbufBody f body e = body (e1.fixed (k + 16) 64) k (cbufAt e1.st k) := by
  simp only [cbufBody, h, hb, hl, if_true]

theorem cbgetBody_of_some {get : Cbuf → Option (Cbuf × Nat)} {c : Cbuf} {x : Nat} (hg : get (cbufAt e1.st k) = some (c, x)) :
    cbgetBody f get e = .done (writeLong (e1.fixed (k + 16) 64) false (dstWrites f.d 1 0 x)
      (putCbuf k c (e1.fixed (k + 16) 64).st)) := by
  rw [cbgetBody, cbufBody_of_legal h hb hl]
  simp only [hg]

theorem cbgetBody_of_none {get : Cbuf → Option (Cbuf × Nat)} (hg : get (cbufAt e1.st k) = none) :
    cbgetBody f get e = .wait (e1.fixed (k + 16) 64).st .retry := by
  rw [cbgetBody, cbufBody_of_legal h hb hl]
  simp only [hg]

theorem cbputBody_of_some {put : Env → Cbuf → Option Cbuf} {c : Cbuf}
    (hp : put (e1.fixed (k + 16) 64) (cbufAt e1.st k) = some c) :
    cbputBody f put e = .done (putCbuf k c (e1.fixed (k + 16) 64).st) := by
  rw [cbputBody, cbufBody_of_legal h hb hl]
  simp only [hp]

theorem cbputBody_of_none {put : Env → Cbuf → Option Cbuf} (hp : put (e1.fixed (k + 16) 64) (cbufAt e1.st k) = none) :
    cbputBody f put e = .trap (e1.fixed (k + 16) 64).st { cause := 0x08, acc := 2 } := by
  rw [cbputBody, cbufBody_of_legal h hb hl]
  simp only [hp]

end

/-- A `cbget` of either form: its slot, or the wait for one, under its acquire (R149). -/
theorem concluded_cbget {i : Instr} {get : Cbuf → Option (Cbuf × Nat)} (hx : Executes s e i f)
    (h : objectAt (committed e) f 2 80 = .ok (e1, a, k)) (hb : poolBad e1.st (k + 16) 64 = none)
    (hl : (cbufAt e1.st k).legal = true) :
    (∀ c x, get (cbufAt e1.st k) = some (c, x) →
      issue i f (committing (acquiring (fOrd f) (fScope f) (cbgetBody f get))) s = concluded e f
        (.done (acquired (e1.fixed (k + 16) 64) (fOrd f) (fScope f) (writeLong (e1.fixed (k + 16) 64) false
          (dstWrites f.d 1 0 x) (putCbuf k c (e1.fixed (k + 16) 64).st))))) ∧
    (get (cbufAt e1.st k) = none →
      issue i f (committing (acquiring (fOrd f) (fScope f) (cbgetBody f get))) s =
        concluded e f (.wait (e1.fixed (k + 16) 64).st .retry)) := by
  have hcore : (e1.fixed (k + 16) 64).core = (committed e).core := (Env.fixed_core ..).trans (objectAt_core h)
  refine ⟨fun c x hg => ?_, fun hg => ?_⟩ <;> refine concluded_of_executes hx ?_
  · refine (acquiring_of_done (e := committed e) (cbgetBody_of_some h hb hl hg)).trans ?_
    rw [acquired, acquired, hcore]
  · have hbody := cbgetBody_of_none h hb hl hg
    exact (acquiring_of_not_done (e := committed e) (by rw [hbody]; exact nofun)).trans hbody

/-- A `cbput` of either form: what it leaves of the buffer, or BAROVF, after its release (R149). -/
theorem concluded_cbput {i : Instr} {put : Env → Cbuf → Option Cbuf} (hx : Executes s e i f)
    (hrel : released (committed e) (fOrd f) (fScope f) = some e0) (h : objectAt e0 f 2 80 = .ok (e1, a, k))
    (hb : poolBad e1.st (k + 16) 64 = none) (hl : (cbufAt e1.st k).legal = true) :
    (∀ c, put (e1.fixed (k + 16) 64) (cbufAt e1.st k) = some c →
      issue i f (committing (releasing (fOrd f) (fScope f) (cbputBody f put))) s =
        concluded e f (.done (putCbuf k c (e1.fixed (k + 16) 64).st))) ∧
    (put (e1.fixed (k + 16) 64) (cbufAt e1.st k) = none →
      issue i f (committing (releasing (fOrd f) (fScope f) (cbputBody f put))) s =
        concluded e f (.trap (e1.fixed (k + 16) 64).st { cause := 0x08, acc := 2 })) := by
  refine ⟨fun c hp => ?_, fun hp => ?_⟩ <;> refine concluded_of_executes hx ?_
  · have hbody := cbputBody_of_some h hb hl hp
    exact (releasing_of_released_of_not_wait hrel (by rw [hbody]; exact done_ne_wait _)).trans hbody
  · have hbody := cbputBody_of_none h hb hl hp
    exact (releasing_of_released_of_not_wait hrel (by rw [hbody]; exact trap_ne_wait _ _)).trans hbody

end

/-- Settles O38: the two forms of each instruction by `concluded_cbget` and `concluded_cbput`, the slots by what each
operation moves. -/
theorem circularBuffers : Obligations.CircularBuffers := by
  unfold Obligations.CircularBuffers
  refine ⟨?cbinit, ?cbget, ?cbput, fun s g x hg hx => ⟨_, rfl, wakeRetry_of_waiting hg hx⟩, ?slots⟩
  case cbinit =>
    intro s e f e' a k hx h
    refine ⟨fun h0 h16 hsz hn h256 hw => ?_, fun hsz => ?_⟩ <;>
      refine concluded_of_executes (body := committing (cbinitBody f)) hx ?_
    · exact cbinitBody_of_fits h h0 h16 hsz hn h256 hw
    · exact cbinitBody_of_bad_slot h hsz
  case cbget =>
    intro s e f e1 a k claim h hx e' c got hb hl
    cases claim
    · exact concluded_cbget (i := .cbget f) (get := Cbuf.take) hx h hb hl
    · exact concluded_cbget (i := .cbgetClaim f) (get := Cbuf.claim) hx h hb hl
  case cbput =>
    intro s e f e0 e1 a k fill hrel h hx e' c put hb hl
    cases fill
    · exact concluded_cbput (i := .cbputDone f) (put := fun _ c => c.done) hx hrel h hb hl
    · exact concluded_cbput (i := .cbputFill f) (put := fun e c => c.fill (e.n32 0 (.op f.s2) % 256) false) hx hrel h hb hl
  case slots =>
    intro c hl hs
    exact ⟨fun _ _ h => Cbuf.claim_moves hl hs h, fun _ _ _ h => Cbuf.fill_moves hl hs h, fun _ _ h => Cbuf.take_moves hs h,
      fun _ h => Cbuf.done_moves hl hs h⟩

end Sys2Proof.Machine
end

section
/-! SUPPORT. Monitors and the team barrier (O39): arming, sleeping and waking, and the arrival of a team's groups. -/

namespace Sys2Proof.Machine

open Claims

/-! ### The view after a commit and a release (R382, R402) -/

/-- The view after a commit is the view of its own state. -/
theorem env?_committed {s : State} {e : Env} {i : Instr} {f : Slk} (h : Executes s e i f) :
    env? (committed e).st (committed e).gid = some (committed e) := by
  obtain ⟨x, hx, -, hgid, hst⟩ := env?_of_groupOf (commitRegion_group (env?_of_executes h))
  have hc : committed e = x := by rw [committed, st_of_executes h]; exact Env.at_of_some hx
  rw [hc, hst, hgid]
  exact hx

theorem released_core {s : State} {e e' : Env} {i : Instr} {f : Slk} {ord sc : Nat} (h : Executes s e i f)
    (hr : released (committed e) ord sc = some e') : e'.core = e.core := by
  obtain ⟨-, hteam⟩ := released_bare (env?_committed h) hr
  exact (show e'.team.bare.core = (committed e).team.bare.core from congrArg Team.core hteam).trans
    (committed_core_of_executes h)

/-- Where the release is done, a body that repeats no check runs in the view after it (R382). -/
theorem releasing_of_released_of_not_retry {ord sc : Nat} {body : Env → Res} {e e' : Env} (h : released e ord sc = some e')
    (hw : ∀ t, body e' ≠ .wait t .retry) : releasing ord sc body e = body e' := by
  have hp (x : Env) : pastRelease x (body e') = body e' := by
    unfold pastRelease
    split
    · next t ht => exact absurd ht (hw t)
    · rfl
  unfold released at h
  unfold releasing
  split at h
  · next ho =>
    obtain ⟨t, ht, rfl⟩ := Option.map_eq_some_iff.mp h
    rw [if_pos ho, ht]
    exact hp e
  · next ho =>
    cases h
    rw [if_neg ho]

/-! ### Arming (R151) -/

section
variable {f : Slk} {e : Env}

/-- An address that passes its checks arms the monitor on its granule. The body is opened where it stands: its equation would
have the kernel evaluate the checks. -/
theorem marmBody_of_ok {t : State} {x : LaneAcc} (h : resolveGlobal e (.ptr (e.wide 0 f.s1 2)) (fun _ => 0) 1 1 .read
    allowAll e.st [0] = .ok (t, [x])) : marmBody f e = .done (setMon e f ⟨true, false, x.loc / 64, false⟩ t) := by
  conv in marmBody => delta marmBody
  split
  · next hr => cases h.symm.trans hr
  · next hr =>
    cases h.symm.trans hr
    rfl

theorem marmLocBody_of_ok {k c : Nat} (h : localLook e.st e.team (e.n32 0 (.op f.s1)) 1 1 = .ok (k, c)) :
    marmLocBody f e = .done (setMon e f ⟨true, true, k / 64, false⟩ e.st) := by
  simp only [marmLocBody, h]

/-! ### Sleeping and waking (R152, R153) -/

/-- With a fired monitor, or none armed, `mwait` completes at once. -/
theorem mwaitBody_of_fired (h : (∀ m ∈ e.grp.mon, m.armed = false) ∨ firedBits e.grp ≠ 0) : mwaitBody f e =
    .done (mwaitLeave e (opNum f.d) (if fOrd f = 1 then fScope f else 0) (firedBits e.grp) e.st) := by
  refine if_pos ?_
  simpa only [Bool.or_eq_true, List.all_eq_true, Bool.not_eq_true', bne_iff_ne] using h

theorem mwaitBody_of_unfired (ha : ∃ m ∈ e.grp.mon, m.armed = true) (hf : firedBits e.grp = 0) : mwaitBody f e =
    .wait e.st (.mwait (if e.uni f.s1 0 = 0 then none else some (e.st.cycle.toNat + e.uni f.s1 0)) (opNum f.d)
      (if fOrd f = 1 then fScope f else 0)) := by
  refine if_neg ?_
  obtain ⟨m, hm, ha⟩ := ha
  simp only [Bool.or_eq_true, List.all_eq_true, Bool.not_eq_true', bne_iff_ne, not_or]
  exact ⟨fun h => absurd (h m hm) (by simp [ha]), fun h => h hf⟩

end

section
variable {s : State} {gid : Gid} {e : Env} {limit : Option Nat} {dst sc : Nat} (he : env? s gid = some e)
  (hc : e.grp.cond = .wait (.mwait limit dst sc))
include he hc

/-- A sleeping `mwait` ends: its status is posted, and the group goes on behind it. -/
theorem mwaitEnd_of_asleep (extra : Nat) : mwaitEnd gid extra s =
    modGroup gid (fun g => { g with cond := .ready, pc := pcAdd g.pc 12 })
      (mwaitLeave e dst sc (firedBits e.grp + extra) s) := by
  simp only [mwaitEnd, he, hc]

theorem mwaitExpired_iff : mwaitExpired s gid = true ↔ ∃ n, limit = some n ∧ n ≤ s.cycle.toNat := by
  cases limit with
  | none => simp [mwaitExpired, he, hc]
  | some n => simp [mwaitExpired, he, hc]

end

/-! ### The team barrier (R154) -/

theorem Team.allAt_iff (t : Team) (m : BitVec 64) :
    t.allAt m = true ↔ ∀ g ∈ t.groups, m.getLsbD g.idx = true ∨ g.cond = .ended := by
  simp only [Team.allAt, List.all_eq_true, Bool.or_eq_true, beq_iff_eq]

/-- The team's arrivals, this group's among them. -/
def arrivals (e : Env) : BitVec 64 := e.team.tbar ||| ((1 : BitVec 64) <<< e.grp.idx)

/-- The state in which this group has arrived. -/
def arrived (e : Env) : State := modTeam e.gid.team (fun x => { x with tbar := arrivals e }) e.st

theorem tbarBody_of_all {f : Slk} {e : Env}
    (h : ∀ g ∈ e.team.groups, (arrivals e).getLsbD g.idx = true ∨ g.cond = .ended) : tbarBody f e =
    .done (acquire e.core (if fOrd f = 3 then fScope f else 0) (tbarOpen e.team (arrived e))) :=
  if_pos ((Team.allAt_iff ..).mpr h)

theorem tbarBody_of_missing {f : Slk} {e : Env}
    (h : ∃ g ∈ e.team.groups, (arrivals e).getLsbD g.idx = false ∧ g.cond ≠ .ended) : tbarBody f e =
    .wait (arrived e) (.tbar (if fOrd f = 3 then fScope f else 0)) := by
  refine if_neg fun hall => ?_
  obtain ⟨g, hg, hm, hc⟩ := h
  rcases (Team.allAt_iff ..).mp hall g hg with ha | ha
  · exact absurd (hm.symm.trans ha) Bool.false_ne_true
  · exact hc ha

theorem wait_tbar_ne_retry (s : State) (sc : Nat) (t : State) : Res.wait s (.tbar sc) ≠ .wait t .retry := by
  intro h
  injection h with _ hw
  cases hw

theorem tbarStep_of_all {s : State} {uid : Nat} {t : Team} (ht : s.team? uid = some t) (h0 : t.tbar ≠ 0)
    (h : ∀ g ∈ t.groups, t.tbar.getLsbD g.idx = true ∨ g.cond = .ended) : tbarStep uid s = tbarOpen t s := by
  rw [tbarStep, ht]
  refine if_pos ?_
  rw [(Team.allAt_iff ..).mpr h, Bool.and_true]
  exact decide_eq_true h0

/-- Settles O39: each instruction by its body, each event by what it makes of a sleeping group or of the team. -/
theorem monitorsAndTeamBarrier : Obligations.MonitorsAndTeamBarrier := by
  unfold Obligations.MonitorsAndTeamBarrier
  refine ⟨?marm, ?marmLoc, ?marmOff, ?mwait, ?timeout, ?wake, ?tbar,
    fun s uid x ht h0 h => congrArg Host.Outcome.next (tbarStep_of_all ht h0 h)⟩
  case marm =>
    intro s e f t x hx h
    obtain rfl := st_of_executes hx
    exact concluded_of_executes (body := marmBody f) hx (marmBody_of_ok h)
  case marmLoc =>
    intro s e f k c hx h
    obtain rfl := st_of_executes hx
    exact concluded_of_executes (body := marmLocBody f) hx (marmLocBody_of_ok h)
  case marmOff =>
    intro s e f hx
    exact concluded_of_executes (body := fun e => .done (setMon e f .off e.st)) hx rfl
  case mwait =>
    intro s e f hx
    refine ⟨fun h => ?_, fun ha hf => ?_⟩ <;> refine concluded_of_executes (body := committing (mwaitBody f)) hx ?_
    · exact mwaitBody_of_fired h
    · exact mwaitBody_of_unfired ha hf
  case timeout =>
    intro s gid e limit dst sc he hc
    refine ⟨fun n hn hle => congrArg Host.Outcome.next ?_, fun hlt => congrArg Host.Outcome.next ?_⟩
    · rw [if_pos ((mwaitExpired_iff he hc).mpr ⟨n, hn, hle⟩)]
      exact mwaitEnd_of_asleep he hc 16
    · refine if_neg fun h => ?_
      obtain ⟨n, hn, hle⟩ := (mwaitExpired_iff he hc).mp h
      exact absurd hle (Nat.not_le.mpr (hlt n hn))
  case wake =>
    intro s gid m e limit dst sc he hc
    exact congrArg Host.Outcome.next (mwaitEnd_of_asleep he hc 0)
  case tbar =>
    intro s e f e' hx hrel
    refine ⟨fun h => ?_, fun h => ?_⟩ <;> refine concluded_of_executes hx ?_
    · rw [← released_core hx hrel]
      have hb := tbarBody_of_all (f := f) h
      exact (releasing_of_released_of_not_wait hrel (by rw [hb]; exact done_ne_wait _)).trans hb
    · have hb := tbarBody_of_missing (f := f) h
      exact (releasing_of_released_of_not_retry hrel (by rw [hb]; exact wait_tbar_ne_retry _ _)).trans hb

end Sys2Proof.Machine
end

section
/-! SUPPORT. Pre-emption (O54): what the wake of a context and a request leave, and what the save of a cluster takes away. -/

namespace Sys2Proof.Machine

open Claims

/-! ### What a wake leaves (R153) -/

/-- Two states alike but for the teams, what is posted, and the L1s and RDCs. -/
def SameButWakes (s t : State) : Prop :=
  ∃ teams pend n l1 rdc, t = { s with teams := teams, pend := pend, nextId := n, l1 := l1, rdc := rdc }

theorem SameButWakes.refl (s : State) : SameButWakes s s := ⟨_, _, _, _, _, rfl⟩

theorem SameButWakes.trans {s t u : State} (h : SameButWakes s t) (k : SameButWakes t u) : SameButWakes s u := by
  obtain ⟨_, _, _, _, _, rfl⟩ := h
  obtain ⟨_, _, _, _, _, rfl⟩ := k
  exact ⟨_, _, _, _, _, rfl⟩

theorem acquire_sameButWakes (core sc : Nat) (s : State) : SameButWakes s (acquire core sc s) := by
  have hc : ∃ l1 rdc, acquire core sc s = { s with l1 := l1, rdc := rdc } := by
    unfold acquire l1Clear
    split <;> split <;> exact ⟨_, _, rfl⟩
  obtain ⟨l1, rdc, h⟩ := hc
  exact ⟨_, _, _, _, _, h⟩

theorem modGroup_sameButWakes (gid : Gid) (f : Group → Group) (s : State) : SameButWakes s (modGroup gid f s) :=
  ⟨_, _, _, _, _, rfl⟩

theorem mwaitLeave_sameButWakes (e : Env) (dst sc st : Nat) (s : State) : SameButWakes s (mwaitLeave e dst sc st s) := by
  have hpost : SameButWakes s (postRegs e.gid e.team.ctx e.core false [⟨⟨.s, dst, 0⟩, BitVec.ofNat 32 st⟩] s) :=
    ⟨_, _, _, _, _, rfl⟩
  exact (hpost.trans (modGroup_sameButWakes ..)).trans (acquire_sameButWakes ..)

theorem mwaitEnd_sameButWakes (gid : Gid) (extra : Nat) (s : State) : SameButWakes s (mwaitEnd gid extra s) := by
  unfold mwaitEnd
  split
  · exact .refl s
  · split
    · exact (mwaitLeave_sameButWakes ..).trans (modGroup_sameButWakes ..)
    · exact .refl s

theorem wakeMwaits_sameButWakes (c : Nat) (s : State) : SameButWakes s (wakeMwaits c s) :=
  List.foldlRecOn (motive := SameButWakes s) _ _ (.refl s) fun t ht g _ => ht.trans (mwaitEnd_sameButWakes g 32 t)

theorem wakeMwaits_ctxs (c : Nat) (s : State) : (wakeMwaits c s).ctxs = s.ctxs := by
  obtain ⟨_, _, _, _, _, h⟩ := wakeMwaits_sameButWakes c s
  rw [h]

theorem wakeMwaits_slots (c : Nat) (s : State) : (wakeMwaits c s).slots = s.slots := by
  obtain ⟨_, _, _, _, _, h⟩ := wakeMwaits_sameButWakes c s
  rw [h]

theorem wakeMwaits_grids (c : Nat) (s : State) : (wakeMwaits c s).grids = s.grids := by
  obtain ⟨_, _, _, _, _, h⟩ := wakeMwaits_sameButWakes c s
  rw [h]

theorem ctx_wakeMwaits (c d : Nat) (s : State) : (wakeMwaits c s).ctx d = s.ctx d := by
  rw [State.ctx, wakeMwaits_ctxs]
  rfl

/-- No group of a context sleeps in `mwait`. -/
def Awake (c : Nat) (s : State) : Prop :=
  ∀ g k, condOf s g = some (c, k) → ∀ limit dst sc, k ≠ .wait (.mwait limit dst sc)

theorem awake_of_wake (c : Nat) (s : State) : Awake c (wakeMwaits c s) := by
  intro g k hk limit dst sc
  obtain ⟨e, he, hx⟩ := Option.map_eq_some_iff.mp hk
  obtain ⟨rfl, rfl⟩ := Prod.mk.inj hx
  exact awake_wakeMwaits he limit dst sc

theorem Awake.of_teams {c : Nat} {s t : State} (h : Awake c s) (ht : t.teams = s.teams) : Awake c t :=
  fun g k hk => h g k ((condOf_of_teams ht g).symm.trans hk)

/-- What a group waits for depends on its team but for the monitors. -/
theorem condOf_of_quiet {s t : State} (h : t.teams.map Team.quiet = s.teams.map Team.quiet) (g : Gid) :
    condOf t g = condOf s g := by
  have hq (s : State) : condOf s g = ((s.teams.map Team.quiet).find? fun t => t.uid == g.team).bind fun t =>
      (t.group? g.group).map fun x => (t.ctx, x.cond) := by
    rw [team?_quiet, condOf, env?]
    cases s.team? g.team with
    | none => rfl
    | some t =>
      rw [Option.map_some, Option.bind_some, group?_quiet]
      cases h : t.group? g.group with
      | none => simp only [h]; rfl
      | some x => simp only [h]; rfl
  rw [hq, hq, h]

theorem Awake.of_sameButEvents {c : Nat} {s t : State} (h : Awake c s) (k : SameButEvents s t) : Awake c t :=
  fun g x hx => h g x ((condOf_of_quiet k.teams g).symm.trans hx)

/-! ### Requests (R416, R417) -/

/-- A context whose pending entries are withdrawn has none. -/
theorem not_pending_of_withdrawn {s : State} {c k : Nat} {x : Slot} (h : (k, x) ∈ (withdrawPending c s).slots)
    (hx : x.st = .pending) : slotCtx s x.v ≠ some c := by
  obtain ⟨⟨j, y⟩, -, hy⟩ := List.mem_filterMap.mp h
  dsimp only at hy
  split at hy
  · split at hy
    · cases hy
    · cases hy
      cases hx
  · next hn =>
    cases hy
    exact fun hc => hn ⟨hx, hc⟩

/-- The state in which a request is carried out: REQ reads 1, the pending entries are withdrawn and the sleepers woken. -/
def asked (c : Nat) (s : State) : State := withdrawPending c (wakeMwaits c (s.setCtx c { s.ctx c with req := true }))

theorem ctx_asked (c : Nat) (s : State) : (asked c s).ctx c = { s.ctx c with req := true } := by
  have h : (asked c s).ctx c = (wakeMwaits c (s.setCtx c { s.ctx c with req := true })).ctx c := rfl
  rw [h, ctx_wakeMwaits, State.ctx_setCtx_self]

theorem slotCtx_of_grids {s t : State} (h : t.grids = s.grids) (v : BitVec 256) : slotCtx t v = slotCtx s v := by
  rw [slotCtx, h]
  rfl

/-- What a request for pre-emption leaves of a context that ran, in state `st` (R153, R416, R417). -/
structure Requested (c : Nat) (st : CtxSt) (s t : State) : Prop where
  ctx : (t.ctx c).noEvents = (({ s.ctx c with req := true } : Ctx).inState st).noEvents
  slots : ∀ k x, (k, x) ∈ t.slots → x.st = .pending → slotCtx s x.v ≠ some c
  awake : Awake c t

theorem not_pending_of_asked {s : State} {c k : Nat} {x : Slot} (h : (k, x) ∈ (asked c s).slots) (hx : x.st = .pending) :
    slotCtx s x.v ≠ some c :=
  fun hc => not_pending_of_withdrawn h hx ((slotCtx_of_grids (wakeMwaits_grids c _) x.v).trans hc)

theorem requested_draining (c : Nat) (s : State) : Requested c .draining s (setCtxState c .draining (asked c s)) := by
  have hev := setCtxState_sameButEvents c .draining (asked c s)
  refine ⟨?_, fun k x h hx => not_pending_of_asked (hev.slots ▸ h) hx, ?_⟩
  · rw [ctx_setCtxState, ctx_asked]
  · exact ((awake_of_wake c _).of_teams rfl : Awake c ((asked c s).setCtx c _)).of_sameButEvents hev

theorem requested_saving (c : Nat) (s : State) : Requested c .saving s (enterSaving c (asked c s)) := by
  have hev := setCtxState_sameButEvents c .saving (wakeMwaits c (asked c s))
  refine ⟨?_, fun k x h hx => ?_, ?_⟩
  · rw [enterSaving, ctx_setCtxState, ctx_wakeMwaits, ctx_asked]
  · have hs : (k, x) ∈ (wakeMwaits c (asked c s)).slots := hev.slots ▸ h
    rw [wakeMwaits_slots] at hs
    exact not_pending_of_asked hs hx
  · exact ((awake_of_wake c _).of_teams rfl : Awake c ((wakeMwaits c (asked c s)).setCtx c _)).of_sameButEvents hev

theorem requestPreempt_eq (c : Nat) (s : State) : requestPreempt c s =
    if (s.ctx c).force || (s.ctx c).limit == 0 then enterSaving c (asked c s) else setCtxState c .draining (asked c s) := rfl

theorem requested_requestPreempt (c : Nat) (s : State) : Requested c
    (if (s.ctx c).force || (s.ctx c).limit == 0 then .saving else .draining) s (requestPreempt c s) := by
  rw [requestPreempt_eq]
  split
  · exact requested_saving c s
  · exact requested_draining c s

/-- The context block after FORCE and LIMIT are written (R416). -/
def Ctx.told (x : Ctx) (v : Word) : Ctx := { x with force := v.getLsbD 1, limit := BitVec.ofNat 24 (v.toNat / 2 ^ 8) }

theorem pctlPut_of_no_req {s : State} {c : Nat} {v : Word} (h : v.getLsbD 0 = false) :
    pctlPut c v.toNat s = s.setCtx c ((s.ctx c).told v) := by
  have hb : bitAt v.toNat 0 = false := h
  rw [pctlPut, hb]
  rfl

theorem pctlPut_of_req {s : State} {c : Nat} {v : Word} (hst : (s.ctx c).st = .running) (h : v.getLsbD 0 = true) :
    pctlPut c v.toNat s = requestPreempt c (s.setCtx c ((s.ctx c).told v)) := by
  have hb : bitAt v.toNat 0 = true := h
  rw [Ctx.told, pctlPut, hb, hst]
  rfl

/-- LIMIT is all of the bits above FORCE, so that it is 0 where they are. -/
theorem told_limit_eq_zero (x : Ctx) (v : Word) : (x.told v).limit = 0 ↔ v.toNat / 2 ^ 8 = 0 := by
  have hv := v.isLt
  rw [Ctx.told, ← BitVec.toNat_inj, BitVec.toNat_ofNat, Nat.mod_eq_of_lt (by omega)]
  rfl

/-! ### Teams and matrix work that leave (R418) -/

/-- The later state has no team by a new name, and no new matrix work. -/
structure NoNewWork (s t : State) : Prop where
  teams : ∀ u ∈ t.teams, ∃ w ∈ s.teams, w.uid = u.uid
  matq : ∀ m ∈ t.matq, m ∈ s.matq

namespace NoNewWork

theorem of_same {s t : State} (ht : t.teams = s.teams) (hm : t.matq = s.matq) : NoNewWork s t :=
  ⟨fun u hu => ⟨u, ht ▸ hu, rfl⟩, fun _ h => hm ▸ h⟩

theorem refl (s : State) : NoNewWork s s := .of_same rfl rfl

theorem trans {s t u : State} (h : NoNewWork s t) (k : NoNewWork t u) : NoNewWork s u := by
  refine ⟨fun x hx => ?_, fun m hm => h.matq m (k.matq m hm)⟩
  obtain ⟨y, hy, hyx⟩ := k.teams x hx
  obtain ⟨z, hz, hzy⟩ := h.teams y hy
  exact ⟨z, hz, hzy.trans hyx⟩

theorem foldl {α : Type} {f : State → α → State} (h : ∀ s x, NoNewWork s (f s x)) (l : List α) (s : State) :
    NoNewWork s (l.foldl f s) :=
  List.foldlRecOn (motive := NoNewWork s) l f (refl s) fun t ht x _ => ht.trans (h t x)

/-- Teams that are each replaced by one of the same name. -/
theorem of_map {s t : State} {f : Team → Team} (hf : ∀ u, (f u).uid = u.uid) (ht : t.teams = s.teams.map f)
    (hm : t.matq = s.matq) : NoNewWork s t := by
  refine ⟨fun u hu => ?_, fun _ h => hm ▸ h⟩
  obtain ⟨w, hw, rfl⟩ := List.mem_map.mp (ht ▸ hu)
  exact ⟨w, hw, (hf w).symm⟩

theorem of_quiet {s t : State} (ht : t.teams.map Team.quiet = s.teams.map Team.quiet) (hm : t.matq = s.matq) :
    NoNewWork s t := by
  refine ⟨fun u hu => ?_, fun _ h => hm ▸ h⟩
  obtain ⟨w, hw, hq⟩ := List.mem_map.mp (ht ▸ List.mem_map_of_mem hu : u.quiet ∈ s.teams.map Team.quiet)
  exact ⟨w, hw, (congrArg Team.uid hq : w.quiet.uid = u.quiet.uid)⟩

theorem of_sameButEvents {s t : State} (h : SameButEvents s t) : NoNewWork s t :=
  .of_quiet h.teams (congrArg State.matq h.above : t.aboveEvents.matq = s.aboveEvents.matq)

/-- A write of memory past the caches of the host. -/
theorem of_write (s : State) (a n : Nat) (bs : List Byte) : NoNewWork s (homeWrite (hostPast s a n) a bs) := by
  have hfront : (homeWrite (hostPast s a n) a bs).front = s.front := by rw [homeWrite_front, hostPast_front]
  have habove : (homeWrite (hostPast s a n) a bs).aboveHomes = s.aboveHomes := by
    rw [homeWrite_aboveHomes, hostPast_aboveHomes]
  exact .of_quiet (congrArg Front.teams hfront)
    (congrArg State.matq habove : (homeWrite (hostPast s a n) a bs).aboveHomes.matq = s.aboveHomes.matq)

end NoNewWork

theorem noNewWork_modGroup (gid : Gid) (f : Group → Group) (s : State) : NoNewWork s (modGroup gid f s) := by
  refine .of_map (f := fun t => if t.uid = gid.team then t.modGroup gid.group f else t) (fun u => ?_) rfl rfl
  split <;> rfl

theorem noNewWork_abortRegion (gid : Gid) (s : State) : NoNewWork s (abortRegion gid s) := by
  have hsquash : NoNewWork s (squashLoads gid s) :=
    (NoNewWork.of_same rfl rfl :
      NoNewWork s { s with pend := s.pend.filter fun p => !Pend.isRegionLoad gid p }).trans (noNewWork_modGroup ..)
  exact hsquash.trans (noNewWork_modGroup ..)

theorem noNewWork_fireGlobal (a n : Nat) (s : State) : NoNewWork s (fireGlobal a n s) := by
  refine .of_map ?_ rfl rfl
  exact fun _ => rfl

theorem noNewWork_writeArea (s : State) (c a : Nat) (header : BitVec 512) : NoNewWork s (writeArea s c a header) := by
  have hhead := NoNewWork.of_write s a 64 (toBytes 64 header.toNat)
  rw [writeArea]
  generalize homeWrite (hostPast s a 64) a (toBytes 64 header.toNat) = s1 at hhead
  have hmem (t : State) : NoNewWork s1 (memoryOf t s1) := .of_same rfl rfl
  exact hhead.trans ((hmem _).trans ((noNewWork_fireGlobal ..).trans (.of_same rfl rfl)))

/-- The state in which a team's image stands in memory, where it is to. -/
def areaWritten (s : State) (t : Team) : State :=
  if t.st = .ended ∨ !backed s (imageAddr s t.ctx + 63) then s
  else writeArea s t.ctx (imageAddr s t.ctx) (makeImage s (imageAddr s t.ctx) t).header

theorem noNewWork_areaWritten (s : State) (t : Team) : NoNewWork s (areaWritten s t) := by
  unfold areaWritten
  split
  · exact .refl s
  · exact noNewWork_writeArea ..

theorem noNewWork_saveTeam (s : State) (u : Team) : NoNewWork s (saveTeam s u) := by
  rw [saveTeam]
  split
  · exact .refl s
  · next t _ =>
    have hset : NoNewWork s ((areaWritten s t).setCtx t.ctx { (areaWritten s t).ctx t.ctx with
        images := Assoc.put ((areaWritten s t).ctx t.ctx).images t.uid (makeImage s (imageAddr s t.ctx) t) }) :=
      (noNewWork_areaWritten s t).trans (.of_same rfl rfl)
    dsimp only
    split
    · exact hset
    · have hmove (s : State) : NoNewWork s (moveSlot t.core t.entry .saved s) := .of_same rfl rfl
      refine NoNewWork.trans ?_ (.of_sameButEvents (postEvent_sameButEvents ..))
      exact hset.trans (hmove _)

theorem noNewWork_dropTeamWork (uid : Nat) (s : State) : NoNewWork s (dropTeamWork uid s) :=
  ⟨fun u hu => ⟨u, hu, rfl⟩, fun _ hm => List.mem_of_mem_filter hm⟩

/-- The work of each of a list of teams leaves. -/
theorem owner_of_mem_dropTeamWork (us : List Team) (s : State) {u : Team} (hu : u ∈ us) :
    ∀ m ∈ (us.foldl (fun s u => dropTeamWork u.uid s) s).matq, m.owner.team ≠ u.uid := by
  induction us generalizing s with
  | nil => cases hu
  | cons v us ih =>
    rw [List.foldl_cons]
    rcases List.mem_cons.mp hu with rfl | hu
    · intro m hm
      have hin := (NoNewWork.foldl (fun s u => noNewWork_dropTeamWork u.uid s) us (dropTeamWork u.uid s)).matq m hm
      exact of_decide_eq_true (List.mem_filter.mp hin).2
    · exact ih _ hu

/-! ### Teams that end before the save (R417) -/

/-- Of the teams of a name one has not ended, or no matrix work is theirs. -/
def Served (uid : Nat) (s : State) : Prop :=
  (∃ u ∈ s.teams, u.uid = uid ∧ u.st ≠ .ended) ∨ ∀ m ∈ s.matq, m.owner.team ≠ uid

theorem teamEndStep_cases (uid : Nat) (s : State) : teamEndStep uid s = s ∨ ∃ t, s.team? uid = some t ∧
    teamBusy s t = false ∧ teamEndStep uid s = settleUnloads t.ctx (dropEnded t (postEvent t.ctx evBind
      [BitVec.ofNat 64 (t.core * 64 + t.entry), BitVec.ofNat 64 t.teamId] (endBase uid t s))) := by
  unfold teamEndStep
  split
  · exact .inl rfl
  · next t ht =>
    split
    · exact .inl rfl
    · next h =>
      refine .inr ⟨t, ht, ?_, rfl⟩
      rw [Bool.or_eq_true, not_or] at h
      exact Bool.eq_false_iff.mpr h.2

theorem countEnded_keeps {α : Type} (f : State → α) (hf : ∀ (s : State) x, f { s with grids := x } = f s) (grid : Nat)
    (s : State) : f (countEnded grid s) = f s := by
  unfold countEnded
  split
  · exact hf s _
  · rfl

theorem endBase_teams (uid : Nat) (t : Team) (s : State) :
    (endBase uid t s).teams = s.teams.map fun t => if t.uid = uid then { t with st := .ended } else t :=
  countEnded_keeps State.teams (fun _ _ => rfl) t.grid _

theorem endBase_matq (uid : Nat) (t : Team) (s : State) : (endBase uid t s).matq = s.matq :=
  countEnded_keeps State.matq (fun _ _ => rfl) t.grid _

/-- An idle team's work is done. -/
theorem owner_of_not_busy {s : State} {t : Team} (h : teamBusy s t = false) : ∀ m ∈ s.matq, m.owner.team ≠ t.uid := by
  intro m hm hown
  have hb : teamBusy s t = true := by
    have : (s.matq.any fun m => m.owner.team == t.uid || (m.pair && m.core + 1 == t.core && t.banks.getLsbD m.bank)) = true :=
      List.any_eq_true.mpr ⟨m, hm, by simp [hown]⟩
    simp [teamBusy, this]
  rw [h] at hb
  exact Bool.false_ne_true hb

/-- A team that has not ended keeps its cluster. -/
theorem mem_dropEnded_of_not_ended {t u : Team} {s : State} (h : u ∈ s.teams) (hu : u.st ≠ .ended) :
    u ∈ (dropEnded t s).teams := by
  unfold dropEnded
  split
  · next hall =>
    refine List.mem_filter.mpr ⟨h, ?_⟩
    rw [Bool.not_eq_true']
    refine Bool.eq_false_iff.mpr fun hc => hu ?_
    exact eq_of_beq (List.all_eq_true.mp hall u (List.mem_filter.mpr ⟨h, hc⟩))
  · exact h

theorem served_teamEndStep {uid : Nat} {s : State} (v : Nat) (h : Served uid s) : Served uid (teamEndStep v s) := by
  rcases teamEndStep_cases v s with heq | ⟨t, ht, hbusy, heq⟩
  · rw [heq]
    exact h
  rw [heq]
  have hev := postEvent_sameButEvents t.ctx evBind [BitVec.ofNat 64 (t.core * 64 + t.entry), BitVec.ofNat 64 t.teamId]
    (endBase v t s)
  generalize postEvent t.ctx evBind [BitVec.ofNat 64 (t.core * 64 + t.entry), BitVec.ofNat 64 t.teamId] (endBase v t s) = s1
    at hev
  have hmatq : (settleUnloads t.ctx (dropEnded t s1)).matq = s.matq :=
    calc (settleUnloads t.ctx (dropEnded t s1)).matq
      _ = (dropEnded t s1).matq := settleUnloads_keeps State.matq (fun _ _ => rfl) ..
      _ = s1.matq := dropEnded_keeps State.matq (fun _ _ => rfl) ..
      _ = (endBase v t s).matq := (congrArg State.matq hev.above : s1.aboveEvents.matq = (endBase v t s).aboveEvents.matq)
      _ = s.matq := endBase_matq v t s
  by_cases hv : v = uid
  · refine .inr fun m hm => ?_
    rw [← hv, ← team?_uid ht]
    exact owner_of_not_busy hbusy m (hmatq ▸ hm)
  · rcases h with ⟨u, hu, rfl, hst⟩ | h
    · left
      have hbase : u ∈ (endBase v t s).teams := by
        rw [endBase_teams]
        exact List.mem_map.mpr ⟨u, hu, if_neg (Ne.symm hv)⟩
      obtain ⟨w, hw, hq⟩ := List.mem_map.mp
        (hev.teams ▸ List.mem_map_of_mem hbase : u.quiet ∈ s1.teams.map Team.quiet)
      have hwst : w.st = u.st := (congrArg Team.st hq : w.quiet.st = u.quiet.st)
      have hwuid : w.uid = u.uid := (congrArg Team.uid hq : w.quiet.uid = u.quiet.uid)
      refine ⟨w, ?_, hwuid, hwst ▸ hst⟩
      rw [settleUnloads_keeps State.teams fun _ _ => rfl]
      exact mem_dropEnded_of_not_ended hw (hwst ▸ hst)
    · exact .inr fun m hm => h m (hmatq ▸ hm)

/-! ### The save of a cluster (R418) -/

/-- The state in which the teams of a cluster that can end have ended. -/
def endedFirst (us : List Team) (s : State) : State := us.foldl (fun s u => teamEndStep u.uid s) s

/-- The teams of a cluster that are saved. -/
def savedTeams (us : List Team) (s : State) : List Team := us.filterMap fun u => (endedFirst us s).team? u.uid

/-- The state in which those teams are saved. -/
def savedFirst (us : List Team) (s : State) : State :=
  (savedTeams us s).foldl saveTeam
    (((savedTeams us s).flatMap fun u => u.groups.map fun g => (⟨u.uid, g.idx⟩ : Gid)).foldl (fun s g => abortRegion g s)
      (endedFirst us s))

/-- The state in which their work has left the core. -/
def droppedFirst (us : List Team) (s : State) : State :=
  (savedTeams us s).foldl (fun s u => dropTeamWork u.uid s) (savedFirst us s)

theorem saveCluster_eq (us : List Team) (s : State) : saveCluster us s = { droppedFirst us s with
    teams := (droppedFirst us s).teams.filter fun t => !(savedTeams us s).any fun u => u.uid == t.uid } := rfl

theorem noNewWork_droppedFirst (us : List Team) (s : State) : NoNewWork (endedFirst us s) (droppedFirst us s) :=
  (NoNewWork.foldl (fun s g => noNewWork_abortRegion g s) _ _).trans
    ((NoNewWork.foldl noNewWork_saveTeam _ _).trans (NoNewWork.foldl (fun s (u : Team) => noNewWork_dropTeamWork u.uid s) _ _))

/-- A team that a cluster's save finds is among those saved. -/
theorem mem_savedTeams {us : List Team} {s : State} {u x : Team} (hu : u ∈ us) (hx : (endedFirst us s).team? u.uid = some x) :
    x ∈ savedTeams us s ∧ x.uid = u.uid :=
  ⟨List.mem_filterMap.mpr ⟨u, hu, hx⟩, team?_uid hx⟩

theorem uid_ne_of_team?_none {s : State} {uid : Nat} (h : s.team? uid = none) : ∀ w ∈ s.teams, w.uid ≠ uid :=
  fun w hw he => absurd (beq_iff_eq.mpr he) (List.find?_eq_none.mp h w hw)

/-- The teams of a saved cluster leave. -/
theorem uid_of_mem_saveCluster {us : List Team} {s : State} {u t : Team} (hu : u ∈ us) (ht : t ∈ (saveCluster us s).teams) :
    t.uid ≠ u.uid := by
  rw [saveCluster_eq] at ht
  obtain ⟨hmem, hout⟩ := List.mem_filter.mp ht
  cases hx : (endedFirst us s).team? u.uid with
  | none =>
    obtain ⟨w, hw, hwt⟩ := (noNewWork_droppedFirst us s).teams t hmem
    exact hwt ▸ uid_ne_of_team?_none hx w hw
  | some x =>
    obtain ⟨hxs, hxu⟩ := mem_savedTeams hu hx
    intro he
    rw [Bool.not_eq_true'] at hout
    have hin := List.any_eq_false.mp hout x hxs
    exact hin (beq_iff_eq.mpr (hxu.trans he.symm))

/-- So does the matrix work of every one of them that had not ended. -/
theorem owner_of_mem_saveCluster {us : List Team} {s : State} {u : Team} (hu : u ∈ us) (hs : u ∈ s.teams)
    (hst : u.st ≠ .ended) : ∀ m ∈ (saveCluster us s).matq, m.owner.team ≠ u.uid := by
  have hserved : Served u.uid (endedFirst us s) :=
    List.foldlRecOn (motive := Served u.uid) us _ (.inl ⟨u, hs, rfl, hst⟩) fun t ht v _ => served_teamEndStep v.uid ht
  intro m hm
  rw [saveCluster_eq] at hm
  cases hx : (endedFirst us s).team? u.uid with
  | none =>
    rcases hserved with ⟨w, hw, hwu, -⟩ | hnone
    · exact absurd hwu (uid_ne_of_team?_none hx w hw)
    · exact hnone m ((noNewWork_droppedFirst us s).matq m hm)
  | some x =>
    obtain ⟨hxs, hxu⟩ := mem_savedTeams hu hx
    exact hxu ▸ owner_of_mem_dropTeamWork (savedTeams us s) (savedFirst us s) hxs m hm

/-! ### A draining or saving context goes on (R417, R418) -/

theorem isEmpty_of_not_resident {s : State} {c : Nat} (h : ¬ resident s c) :
    (s.teams.filter fun t => t.ctx == c).isEmpty = true := by
  rw [List.isEmpty_iff, List.filter_eq_nil_iff]
  exact fun t ht hc => h ⟨t, ht, eq_of_beq hc⟩

theorem drainedStep_of_draining {s : State} {c : Nat} (hr : ¬ resident s c) (hst : (s.ctx c).st = .draining) :
    drainedStep c s = setCtxState c .drained s := by
  rw [drainedStep, hst]
  exact if_pos (isEmpty_of_not_resident hr)

theorem drainedStep_of_saving {s : State} {c : Nat} (hr : ¬ resident s c) (hst : (s.ctx c).st = .saving) :
    drainedStep c s = setCtxState c .saved s := by
  rw [drainedStep, hst]
  exact if_pos (isEmpty_of_not_resident hr)

theorem drainedStep_of_ready {s : State} {c : Nat} {us : List Team} (hst : (s.ctx c).st = .saving)
    (hf : ((s.teams.filter fun t => t.ctx == c).map (clusterOf s)).find? (saveReady s) = some us) (ha : areaHeld s us = false) :
    drainedStep c s = holdUnloads c (saveCluster us s) := by
  have hne : (s.teams.filter fun t => t.ctx == c).isEmpty = false := by
    rw [Bool.eq_false_iff]
    intro he
    rw [List.isEmpty_iff.mp he] at hf
    cases hf
  rw [drainedStep, hst]
  dsimp only
  rw [hne, if_neg Bool.false_ne_true, hf]
  exact if_neg (ne_true_of_eq_false ha)

/-- REQ reads 0 once the request is carried out (R417). -/
theorem req_setCtxState_of_done {c : Nat} {st : CtxSt} (h : st = .saved ∨ st = .drained) (s : State) :
    ((setCtxState c st s).ctx c).req = false := by
  refine (Ctx.field_eq Ctx.req (fun _ => rfl) (ctx_setCtxState c st s)).trans ?_
  rcases h with rfl | rfl <;> exact Bool.and_false _

/-- Settles O54: a request by what `Requested` holds, the end of a drain or a save by the change of state, a cluster's save
by `uid_of_mem_saveCluster` and `owner_of_mem_saveCluster`. -/
theorem preemptionRequests : Obligations.PreemptionRequests := by
  unfold Obligations.PreemptionRequests
  refine ⟨fun s c v hst => ⟨fun hv => ?request, fun hv => congrArg Host.Outcome.next (pctlPut_of_no_req hv)⟩,
    ?limit, ?ends, ?save⟩
  case request =>
    have hreq := requested_requestPreempt c (s.setCtx c ((s.ctx c).told v))
    rw [State.ctx_setCtx_self] at hreq
    have hctx := hreq.ctx
    rw [State.ctx_setCtx_self] at hctx
    refine ⟨_, congrArg Host.Outcome.next (pctlPut_of_req hst hv), ?_, ?_, ?_, ?_, ?_, ?_⟩
    · refine (Ctx.field_eq Ctx.req (fun _ => rfl) hctx).trans ?_
      split <;> rfl
    · exact Ctx.field_eq Ctx.force (fun _ => rfl) hctx
    · exact Ctx.field_eq Ctx.limit (fun _ => rfl) hctx
    · refine (Ctx.field_eq Ctx.st (fun _ => rfl) hctx).trans (if_congr ?_ rfl rfl)
      rw [Bool.or_eq_true, beq_iff_eq, told_limit_eq_zero]
      rfl
    · exact hreq.slots
    · rintro g x limit d sc hg ⟨e, he, rfl⟩
      refine hreq.awake g x.cond ?_ limit d sc
      rw [groupOf, he] at hg
      rw [condOf, he, ← Option.some.inj hg]
      rfl
  case limit =>
    intro s c
    exact ⟨fun h => ⟨_, congrArg Host.Outcome.next (if_pos h), st_setCtxState ..⟩,
      fun h => congrArg Host.Outcome.next (if_neg h)⟩
  case ends =>
    intro s c hr
    exact ⟨fun h => ⟨_, congrArg Host.Outcome.next (drainedStep_of_draining hr h), st_setCtxState ..,
        req_setCtxState_of_done (.inr rfl) s⟩,
      fun h => ⟨_, congrArg Host.Outcome.next (drainedStep_of_saving hr h), st_setCtxState ..,
        req_setCtxState_of_done (.inl rfl) s⟩⟩
  case save =>
    intro s c us hst hf ha
    obtain ⟨t, -, rfl⟩ := List.mem_map.mp (List.mem_of_find?_eq_some hf)
    exact ⟨congrArg Host.Outcome.next (drainedStep_of_ready hst hf ha), fun u hu t ht => uid_of_mem_saveCluster hu ht,
      fun u hu hst m hm => owner_of_mem_saveCluster hu (List.mem_of_mem_filter hu) hst m hm⟩

end Sys2Proof.Machine
end
